-- ==== Sys2Proof/Word.lean ====
section
/-! DEFINITION. The word types of the FT-2: bytes, registers, addresses and the operand index types of R10. -/

namespace Sys2Proof

/-- A byte of device or host memory. -/
abbrev Byte := BitVec 8
/-- A BAR0 register or an a-register (R12, R159). -/
abbrev Word := BitVec 32
/-- A scalar register of a thread (R159). -/
abbrev DWord := BitVec 64
/-- A core instruction (R161). -/
abbrev InstrWord := BitVec 128
/-- A SHA-384 digest. -/
abbrev Digest := BitVec 384

/-- Logical core number (R10). -/
abbrev CoreId := Fin 96
/-- Thread within a core (R10). -/
abbrev ThreadId := Fin 32
/-- Array within a core (R10). -/
abbrev ArrayId := Fin 4
/-- Deilo port (R10). -/
abbrev PortId := Fin 16
/-- Sub-port of a port (R268). -/
abbrev SubId := Fin 2
/-- LPDDR5X controller or package (R10). -/
abbrev CtrlId := Fin 16
/-- Ring pair (R336). -/
abbrev RingId := Fin 64
/-- Core power group (R10). -/
abbrev GroupId := Fin 12

end Sys2Proof
end

