-- ==== Sys2Proof/Syntax.lean ====
section
/-! DEFINITION. The commands of the FT-2 as data: one constructor of `Instr` per row of the table of operations and
events. An operand is what the command carries from its sender; what another device, the host's memory, a regulator
or a sensor answers is the world's and comes as an operand too. -/

namespace Sys2Proof

/-- Bytes that a read of host memory or of another device delivered, and whether they came poisoned (R338). -/
structure HostData where
  bytes  : List Byte
  poison : Bool
  deriving DecidableEq, Repr

/-- How the read of a submission entry completed (R338). -/
inductive FetchResult where
  | ok (entry : List Byte)
  | error
  | poisoned
  deriving DecidableEq, Repr

/-- Where a mailbox operation comes from: BAR0 with the ARG registers, or MCTP type 0x7E with its arguments (R419). -/
inductive MboxSrc where
  | bar0
  | mctp (arg0 arg1 : Word)
  deriving DecidableEq, Repr

/-- The transport of an SPDM request (R417). -/
inductive SpdmTransport where
  | doe
  | mctp
  deriving DecidableEq, Repr

/-- What a scrub read or a memory read found: in a code word (R242, R244, R252), a double error whose syndrome is that of stored
poison among them (R251), or on the link of a read burst (R247). -/
inductive EccOutcome where
  | clean
  | corrected
  | linkCorrected
  | linkRepeated     -- the repeat succeeded
  | linkFailed       -- the repeat failed as well
  | uncorrectable
  | asPoison
  deriving DecidableEq, Repr

/-- A unit of memory: hold partition n or LPDDR5X controller c (R252). -/
inductive MemUnit where
  | hold (n : CoreId)
  | lpddr (c : CtrlId)
  deriving DecidableEq, Repr

/-- The units whose lack of progress wedges the device (R353). -/
inductive WedgeUnit where
  | hostInterface
  | streamEngine
  | lockkeeper
  deriving DecidableEq, Repr

/-- A scope of the power manager: a unit of one core, a core group, the device (R359). -/
inductive PowerScope where
  | unit (core : CoreId) (unit : Fin 7)   -- arrays 0-3, feeder 4, vector unit 5, exact unit 6
  | group (g : GroupId)
  | device
  deriving DecidableEq, Repr

/-- The three readings of one PMBus poll that MGT_RAIL_TEL keeps or drops (R414, R421). -/
structure RailReading where
  voutMv    : Nat
  iout100ma : Nat
  deriving DecidableEq, Repr

/-- What the peer reported in the identity exchange (R270). -/
structure PeerId where
  pos    : Fin 4096
  port   : PortId
  sub    : SubId
  serial : DWord
  deriving DecidableEq, Repr

/-- The kinds of flooded declarations (R288, R323) and of the loss that the system's EASY limit declares (R324). -/
inductive DeclKind where
  | portLost          -- a neighbour declares its port to the device lost (R323)
  | receiverFailed    -- a source declares the receiver of a leg failed (R288)
  | straggler         -- the device is the straggler of the EASY limit (R218)
  deriving DecidableEq, Repr

/-- A failure that took a path of R318 in the step, as its detector reports it: path code, position, part (port or logical
core), argument (failed-lane mask). -/
structure FailPath where
  code : Nat
  pos  : Nat
  part : Nat
  arg  : Nat
  deriving DecidableEq, Repr

/-- What a step boundary reads of other parts of the system for a rollback (R320, R327): this device's image as its buddy returns
it, and its host copy as the host's memory returns it. Every other value of the boundary is in the state (R31, R32). -/
structure BoundaryIn where
  image     : List Byte
  hostImage : List Byte
  deriving DecidableEq, Repr

/-- The commands of the block: one constructor per row of the table. -/
inductive Instr where
  -- host ring commands (R343)
  | loadPackage (q : RingId) (data : HostData)
  | bindSource (q : RingId)
  | plan (q : RingId) (map pins : HostData)
  | planRead (q : RingId)
  | start (q : RingId)
  | step (q : RingId)
  | pause (q : RingId)
  | secure (q : RingId)
  | restore (q : RingId) (image : HostData)
  | replayCheck (q : RingId) (loss tokens : Word) (wsum : DWord)
  | readStats (q : RingId)
  | snapshot (q : RingId)
  | traceCtl (q : RingId)
  | copy (q : RingId) (data : HostData) (found : List (Nat × EccOutcome))
  | fwWrite (q : RingId) (image : HostData)
  | echo (q : RingId)
  | fullReset (q : RingId)
  -- doorbells, rings and register events
  | sqTail (q : RingId) (off : Nat) (v : Word)
  | sqEntryFetched (q : RingId) (r : FetchResult)
  | rqHead (q : RingId) (v : Word)
  | ringEnable (q : RingId) (v : Word)
  | pwrMoor (v : Word)
  | pwrNext (v : Word)
  | cntSnap (v : Word)
  | mgtPositionWrite (v : Word)
  | portEnable (p : PortId) (v : Word)
  | portSplitChange (p : PortId) (v : Word)
  | inlineEccChange (v : Word)
  | aliasWrite (off : Nat) (v : Word)
  | registerWrite (off size : Nat) (v : DWord)
  | bar4Read (off size : Nat) (ecc : EccOutcome)
  | bar4Write (off : Nat) (bytes : List Byte)
  | d3hotEntry
  | d0Return
  | mboxLogRead (src : MboxSrc)
  | mboxLifeRead (src : MboxSrc)
  | mboxMoor (src : MboxSrc)
  | mboxWake (src : MboxSrc)
  | mboxReset (src : MboxSrc)
  -- core instructions (R161 to R172): core, thread, instruction word
  | tile (c : CoreId) (t : ThreadId) (w : InstrWord)
  | tbl (c : CoreId) (t : ThreadId) (w : InstrWord)
  | idle (c : CoreId) (t : ThreadId) (w : InstrWord)
  | vecAdd (c : CoreId) (t : ThreadId) (w : InstrWord)
  | vecMul (c : CoreId) (t : ThreadId) (w : InstrWord)
  | vecFma (c : CoreId) (t : ThreadId) (w : InstrWord)
  | vecMax (c : CoreId) (t : ThreadId) (w : InstrWord)
  | vecMin (c : CoreId) (t : ThreadId) (w : InstrWord)
  | vecCvt (c : CoreId) (t : ThreadId) (w : InstrWord)
  | w42add (c : CoreId) (t : ThreadId) (w : InstrWord)
  | drop (c : CoreId) (t : ThreadId) (w : InstrWord)
  | exp (c : CoreId) (t : ThreadId) (w : InstrWord)
  | exp2 (c : CoreId) (t : ThreadId) (w : InstrWord)
  | log (c : CoreId) (t : ThreadId) (w : InstrWord)
  | log2 (c : CoreId) (t : ThreadId) (w : InstrWord)
  | rcp (c : CoreId) (t : ThreadId) (w : InstrWord)
  | rsq (c : CoreId) (t : ThreadId) (w : InstrWord)
  | div (c : CoreId) (t : ThreadId) (w : InstrWord)
  | ladd (c : CoreId) (t : ThreadId) (w : InstrWord)
  | smax (c : CoreId) (t : ThreadId) (w : InstrWord)
  | rsum (c : CoreId) (t : ThreadId) (w : InstrWord)
  | rmax (c : CoreId) (t : ThreadId) (w : InstrWord)
  | xuAdd (c : CoreId) (t : ThreadId) (w : InstrWord)
  | xuMul (c : CoreId) (t : ThreadId) (w : InstrWord)
  | xuFma (c : CoreId) (t : ThreadId) (w : InstrWord)
  | xuCvt (c : CoreId) (t : ThreadId) (w : InstrWord)
  | dot (c : CoreId) (t : ThreadId) (w : InstrWord)
  | gather (c : CoreId) (t : ThreadId) (w : InstrWord)
  | scat (c : CoreId) (t : ThreadId) (w : InstrWord)
  | rope (c : CoreId) (t : ThreadId) (w : InstrWord)
  | xent (c : CoreId) (t : ThreadId) (w : InstrWord)
  | xgrad (c : CoreId) (t : ThreadId) (w : InstrWord)
  | nstat (c : CoreId) (t : ThreadId) (w : InstrWord)
  | movLd (c : CoreId) (t : ThreadId) (w : InstrWord)
  | movSt (c : CoreId) (t : ThreadId) (w : InstrWord)
  | movLdi (c : CoreId) (t : ThreadId) (w : InstrWord)
  | movMvas (c : CoreId) (t : ThreadId) (w : InstrWord)
  | movMvsa (c : CoreId) (t : ThreadId) (w : InstrWord)
  | movRdcsr (c : CoreId) (t : ThreadId) (w : InstrWord)
  | movWrcsr (c : CoreId) (t : ThreadId) (w : InstrWord)
  | movCopy (c : CoreId) (t : ThreadId) (w : InstrWord)
  | movComplete (c : CoreId) (t : ThreadId)
  | strRun (c : CoreId) (t : ThreadId) (w : InstrWord)
  | strRearm (c : CoreId) (t : ThreadId) (w : InstrWord)
  | strMark (c : CoreId) (t : ThreadId) (w : InstrWord)
  | strTrace (c : CoreId) (t : ThreadId) (w : InstrWord)
  | waitc (c : CoreId) (t : ThreadId) (w : InstrWord)
  | setc (c : CoreId) (t : ThreadId) (w : InstrWord)
  | bar (c : CoreId) (t : ThreadId) (w : InstrWord)
  | wstroke (c : CoreId) (t : ThreadId) (w : InstrWord)
  | ovfx (c : CoreId) (t : ThreadId) (w : InstrWord)
  | drain (c : CoreId) (t : ThreadId) (w : InstrWord)
  | nop (c : CoreId) (t : ThreadId) (w : InstrWord)
  | alu (c : CoreId) (t : ThreadId) (w : InstrWord)
  | alui (c : CoreId) (t : ThreadId) (w : InstrWord)
  | br (c : CoreId) (t : ThreadId) (w : InstrWord)
  | jmp (c : CoreId) (t : ThreadId) (w : InstrWord)
  | halt (c : CoreId) (t : ThreadId) (w : InstrWord)
  | adda (c : CoreId) (t : ThreadId) (w : InstrWord)
  -- core events
  | fill (c : CoreId) (a : ArrayId)
  | tileGroupStart (c : CoreId)
  | fenceEnd (c : CoreId)
  | tileComplete (c : CoreId) (a : ArrayId)
  | tblComplete (c : CoreId) (a : ArrayId)
  | idleEnd (c : CoreId) (a : ArrayId)
  | rampStep (c : CoreId) (a : ArrayId)
  | unplannedGapTimeout (c : CoreId) (a : ArrayId)
  | vecComplete (c : CoreId)
  | xuComplete (c : CoreId)
  -- memory events
  | descCacheFill (d : Fin 1048576)
  | streamTransferComplete (d : Fin 1048576) (gen : Word) (data : HostData) (ecc : EccOutcome)
  | routerTargetOff (addr : Nat) (inReset : Bool) (d : Option (Fin 1048576))
  | writeBufferFlush (c : CtrlId)
  | lpddrRefresh (c : CtrlId)
  | lpddrTempRead (c : CtrlId) (celsius : Int)
  | lpddrInitDone (c : CtrlId)
  | holdInitDone (n : CoreId)
  | scrubRead (u : MemUnit) (addr : Nat) (o : EccOutcome)
  -- stroke, run and boundary
  | strokeEdge
  | guardPoint (selfTest : List Nat)   -- core * 4 + array of each comparison of path 5's self-test that is unequal, should the step be held (R96, R318)
  | easyLimit (cause : Fin 3)
  | lockGained
  | lockLost
  | reductionDeadline
  | distributionDeadline
  | optimiserUpdate (piece block : Nat)
  | weightConversion (tensor : Nat)
  | codebookRebuild (layer group : Nat)
  | admissionPick (produced : DWord)
  | sampleTokensRead (desc : List Byte) (tokens : List Byte)
  | stepBoundary (reads : BoundaryIn)
  | secureStopComplete
  | standingReply
  | hostLost
  | heartbeatLimit (p : PortId)
  | controlReductionStall (id : Nat)
  | wedgeTimeout (u : WedgeUnit)
  -- links
  | frameReceived (p : PortId) (sub : SubId) (frame : List Byte) (uncorrectable : Bool) (corrected : List Nat)
  | laneFail (p : PortId) (lane : Fin 4)
  | laneDrop (p : PortId) (lane : Fin 4) (seq : Nat)
  | laneDropTimeout (p : PortId)
  | portTrained (p : PortId) (sub : SubId) (peer : PeerId) (latency : Nat) (lanes : Fin 5)
  | packetForward (p : PortId) (sub : SubId) (hdr : InstrWord) (body : List Byte)
  | catchMarker (p : PortId) (sub : SubId) (hdr : InstrWord) (body : List Byte) (phase : Int)
  | easy (p : PortId) (sub : SubId) (hdr : InstrWord) (body : List Byte)
  | reduceUp (p : PortId) (sub : SubId) (hdr : InstrWord) (body : List Byte)
  | reduceDown (p : PortId) (sub : SubId) (hdr : InstrWord) (body : List Byte)
  | digest (p : PortId) (sub : SubId) (hdr : InstrWord) (body : List Byte)
  | credit (p : PortId) (sub : SubId) (hdr : InstrWord) (body : List Byte)
  | endAck (p : PortId) (sub : SubId) (hdr : InstrWord) (body : List Byte)
  | data (p : PortId) (sub : SubId) (hdr : InstrWord) (body : List Byte)
  | endPass (p : PortId) (sub : SubId) (hdr : InstrWord) (body : List Byte)
  | raBf16 (p : PortId) (sub : SubId) (hdr : InstrWord) (body : List Byte)
  | raFp8 (p : PortId) (sub : SubId) (hdr : InstrWord) (body : List Byte)
  | scaleUp (p : PortId) (sub : SubId) (hdr : InstrWord) (body : List Byte)
  | scaleDown (p : PortId) (sub : SubId) (hdr : InstrWord) (body : List Byte)
  | sums (p : PortId) (sub : SubId) (hdr : InstrWord) (body : List Byte)
  -- power
  | powerStateEntry (sc : PowerScope) (tNext : Nat)
  | powerStateExit (sc : PowerScope)
  | powerExitComplete (sc : PowerScope) (late : Nat)
  | unplannedWake (sc : PowerScope)
  | drainTimeout (sc : PowerScope) (count : Nat)
  | avsAck (r : Fin 2)
  | avsAckTimeout (r : Fin 2)
  | droopEvent (hold : Bool) (g : GroupId)
  | sensorSample (quarters : List Int)
  | thermTrip
  | regulatorPoll (r : Fin 10) (reading : Option RailReading)
  -- management
  | logFlush
  | lifetimeRecordWrite
  | traceDrain
  | vddAonUp
  | perstAssert
  | perstDeassert
  | sysPwrgoodFall
  | sysPwrgoodRise
  | spdmGetVersion (tr : SpdmTransport)
  | spdmGetCapabilities (tr : SpdmTransport)
  | spdmNegotiateAlgorithms (tr : SpdmTransport) (request : List Byte)
  | spdmGetDigests (tr : SpdmTransport)
  | spdmGetCertificate (tr : SpdmTransport) (offset length : Nat)
  | spdmChallenge (tr : SpdmTransport) (nonce : List Byte)
  | spdmGetMeasurements (tr : SpdmTransport) (index : Nat) (nonce : List Byte)
  | mctpControl (request : List Byte)
  | pldmDiscovery (request : List Byte)
  | pldmGetPdr (record : Nat)
  | pldmGetSensorReading (sensor : Nat)
  | pldmGetStateSensorReadings (sensor : Nat)
  | jtagBypass (tdi : List Bool)
  | jtagIdcode
  | jtagSamplePreload (cells : List Bool)
  | jtagExtest (cells : List Bool)
  | jtagClamp
  | jtagHighz
  | jtagExtestPulse (cells : List Bool)
  | jtagExtestTrain (cells : List Bool)
  | strokeInEdge (inTolerance : Bool)
  | declaration (p : PortId) (kind : DeclKind) (pos : Fin 4096) (by_ : Fin 4096)
  deriving DecidableEq, Repr

end Sys2Proof
end

