-- ==== Sys2Proof/Decode.lean ====
section
/-! DEFINITION. The decoder of the table's bits. The table gives its rows no bits (every row's "fields" is empty: the
commands are register writes, ring entries, packets and events, not words of one stream), so no word spells a command. -/

namespace Sys2Proof

/-- The command that a word of the table spells: none, for no row of the table has bits. -/
def decodeTableWord (_nbits _w : Nat) : Option Instr := none

end Sys2Proof
end

