-- ==== Sys2Proof/Machine/Sparse.lean ====
section
/-! DEFINITION. Sparse maps in one canonical form (keys strictly rising, no entry equal to its default), byte order
(R9) and bit-field helpers. Memory, registers, marks, counters and every numbered family of the device are held so. -/

namespace Sys2Proof.Machine

open Sys2Proof

/-- The value at key `i`; `d` gives what an unlisted key holds. -/
def sget {α : Type} (d : Nat → α) : List (Nat × α) → Nat → α
  | [], i => d i
  | (k, v) :: t, i => if i = k then v else sget d t i

/-- `m` with the entry `(i, v)`, at its place in the order of keys. -/
def sput {α : Type} (i : Nat) (v : α) : List (Nat × α) → List (Nat × α)
  | [] => [(i, v)]
  | (k, w) :: t =>
    if i < k then (i, v) :: (k, w) :: t else if i = k then (i, v) :: t else (k, w) :: sput i v t

/-- `m` with `v` at key `i`, in canonical form: an entry equal to its default is not listed. -/
def sset {α : Type} [DecidableEq α] (d : Nat → α) (m : List (Nat × α)) (i : Nat) (v : α) : List (Nat × α) :=
  if v = d i then m.filter fun e => decide (e.1 ≠ i) else sput i v m

/-- Every key of `m` is above `lo`. -/
def sabove {α : Type} (lo : Nat) : List (Nat × α) → Bool
  | [] => true
  | (k, _) :: _ => decide (lo < k)

/-- The canonical form: keys strictly rising, no entry equal to its default. -/
def swf {α : Type} [DecidableEq α] (d : Nat → α) : List (Nat × α) → Bool
  | [] => true
  | (k, v) :: t => decide (v ≠ d k) && sabove k t && swf d t

/-- `m` with `f` applied at key `i`. -/
def smod {α : Type} [DecidableEq α] (d : Nat → α) (m : List (Nat × α)) (i : Nat) (f : α → α) : List (Nat × α) :=
  sset d m i (f (sget d m i))

/-- The listed keys in `[lo, hi)`. -/
def skeys {α : Type} (lo hi : Nat) (m : List (Nat × α)) : List Nat :=
  (m.filter fun e => decide (lo ≤ e.1) && decide (e.1 < hi)).map (·.1)

/-- `m` without the keys in `[lo, hi)`. -/
def serase {α : Type} (lo hi : Nat) (m : List (Nat × α)) : List (Nat × α) :=
  m.filter fun e => !(decide (lo ≤ e.1) && decide (e.1 < hi))

/-- The map of the keys `lo`, `lo + 1`, ... to the values of `vs`. -/
def ssetRun {α : Type} [DecidableEq α] (d : Nat → α) : List (Nat × α) → Nat → List α → List (Nat × α)
  | m, _, [] => m
  | m, lo, v :: vs => ssetRun d (sset d m lo v) (lo + 1) vs

/-- Bits `[lo + w - 1 : lo]` of `n`. -/
def bitsN (n lo w : Nat) : Nat := n / 2 ^ lo % 2 ^ w

/-- Bit `i` of `n`. -/
def bitN (n i : Nat) : Bool := n / 2 ^ i % 2 == 1

/-- `Bool` as one bit. -/
def b2n (b : Bool) : Nat := if b then 1 else 0

/-- `n` as `k` bytes, little-endian (R9). -/
def leBytes : Nat → Nat → List Byte
  | 0, _ => []
  | k + 1, n => BitVec.ofNat 8 n :: leBytes k (n / 256)

/-- The number that the bytes hold, little-endian (R9). -/
def leNat : List Byte → Nat
  | [] => 0
  | b :: t => b.toNat + 256 * leNat t

/-- `n` as `k` bytes, big-endian. -/
def beBytes (k n : Nat) : List Byte := (leBytes k n).reverse

/-- `k` bytes of `l` from offset `o`, missing bytes read as zero. -/
def slice (l : List Byte) (o k : Nat) : List Byte :=
  (List.range k).map fun i => (l.drop o).getD i 0

/-- The little-endian field of `k` bytes at offset `o`. -/
def leAt (l : List Byte) (o k : Nat) : Nat := leNat ((l.drop o).take k)

/-- All bytes of `l` in `[o, o + k)` are zero. -/
def zeroAt (l : List Byte) (o k : Nat) : Bool := ((l.drop o).take k).all (· == 0)

/-- `n` read as a signed number of `w` bits. -/
def sInt (w n : Nat) : Int :=
  if n % 2 ^ w < 2 ^ (w - 1) then (n % 2 ^ w : Nat) else ((n % 2 ^ w : Nat) : Int) - (2 ^ w : Nat)

/-- Integer `v` as the `w`-bit two's complement number. -/
def toTwos (w : Nat) (v : Int) : Nat := (v % ((2 ^ w : Nat) : Int)).toNat

/-- `a ÷ b` rounded up. -/
def ceilDiv (a b : Nat) : Nat := if b = 0 then 0 else (a + b - 1) / b

/-- Apply `f` to a state once for each element of `l`, in order. -/
def forEach {σ β : Type} (l : List β) (f : β → σ → σ) (s : σ) : σ := l.foldl (fun t x => f x t) s

/-- The position of the first element that satisfies `p`. -/
def findIdx {β : Type} (p : β → Bool) : List β → Option Nat
  | [] => none
  | x :: t => if p x then some 0 else (findIdx p t).map (· + 1)

/-- `l` with element `i` replaced by `f` of it. -/
def modifyAt {β : Type} (f : β → β) : Nat → List β → List β
  | _, [] => []
  | 0, x :: t => f x :: t
  | i + 1, x :: t => x :: modifyAt f i t

/-- `l` in pieces of `n`, at most `k` of them. -/
def chunks {α : Type} (n : Nat) : Nat → List α → List (List α)
  | 0, _ => []
  | k + 1, l => if l.isEmpty then [] else l.take n :: chunks n k (l.drop n)

end Sys2Proof.Machine
end

