-- ==== Sys2Proof/Machine/Crypto.lean ====
section
/-! DEFINITION. The published functions that the manual names: AES-128 (FIPS 197) for the counter generator (R109),
SHA-384 (FIPS 180-4) for the digests, and the IEEE 802.3 CRC-32 of a link frame (R272). -/

namespace Sys2Proof.Machine

open Sys2Proof

/-! AES-128. -/

/-- Multiplication by x in GF(2^8). -/
def gfX (a : Nat) : Nat := if a < 128 then 2 * a else (2 * a) % 256 ^^^ 0x1B

/-- Multiplication in GF(2^8), `n` bits of `b`. -/
def gfMulAux : Nat → Nat → Nat → Nat
  | 0, _, _ => 0
  | n + 1, a, b => (if b % 2 = 1 then a else 0) ^^^ gfMulAux n (gfX a) (b / 2)

def gfMul (a b : Nat) : Nat := gfMulAux 8 a b

/-- `a^254`, the inverse in GF(2^8) (0 for 0). -/
def gfInv (a : Nat) : Nat :=
  let a2 := gfMul a a
  let a4 := gfMul a2 a2
  let a8 := gfMul a4 a4
  let a16 := gfMul a8 a8
  let a32 := gfMul a16 a16
  let a64 := gfMul a32 a32
  let a128 := gfMul a64 a64
  gfMul a128 (gfMul a64 (gfMul a32 (gfMul a16 (gfMul a8 (gfMul a4 a2)))))

def rotl8 (a k : Nat) : Nat := (a * 2 ^ k) % 256 + a / 2 ^ (8 - k)

/-- The AES S-box. -/
def aesSbox (a : Nat) : Nat :=
  let b := gfInv a
  b ^^^ rotl8 b 1 ^^^ rotl8 b 2 ^^^ rotl8 b 3 ^^^ rotl8 b 4 ^^^ 0x63

/-- The next round key (16 bytes) from a round key and the round constant. -/
def aesNextKey (k : List Nat) (rcon : Nat) : List Nat :=
  let g := fun i => k.getD i 0
  let t0 := aesSbox (g 13) ^^^ rcon
  let t1 := aesSbox (g 14)
  let t2 := aesSbox (g 15)
  let t3 := aesSbox (g 12)
  let w0 := [g 0 ^^^ t0, g 1 ^^^ t1, g 2 ^^^ t2, g 3 ^^^ t3]
  let x := fun (p : List Nat) (o : Nat) => (List.range 4).map fun i => g (o + i) ^^^ p.getD i 0
  let w1 := x w0 4
  let w2 := x w1 8
  let w3 := x w2 12
  w0 ++ w1 ++ w2 ++ w3

/-- SubBytes and ShiftRows. -/
def aesSubShift (s : List Nat) : List Nat :=
  (List.range 16).map fun i => aesSbox (s.getD ((i + 4 * (i % 4)) % 16) 0)

/-- MixColumns. -/
def aesMix (s : List Nat) : List Nat :=
  (List.range 16).map fun i =>
    let c := i / 4 * 4
    let r := i % 4
    let g := fun j => s.getD (c + (r + j) % 4) 0
    gfX (g 0) ^^^ (gfX (g 1) ^^^ g 1) ^^^ g 2 ^^^ g 3

def aesXor (a b : List Nat) : List Nat := (a.zip b).map fun p => p.1 ^^^ p.2

/-- The rounds: `n` of them from key `k`, round constant `rc`; the last has no MixColumns. -/
def aesRounds : Nat → List Nat → Nat → List Nat → List Nat
  | 0, _, _, s => s
  | n + 1, k, rc, s =>
    let k' := aesNextKey k rc
    let t := aesSubShift s
    aesRounds n k' (gfX rc) (aesXor (if n = 0 then t else aesMix t) k')

/-- AES-128 of a 16-byte block. -/
def aes128 (key block : List Byte) : List Byte :=
  let k := key.map (·.toNat)
  (aesRounds 10 k 1 (aesXor (block.map (·.toNat)) k)).map (BitVec.ofNat 8)

/-- The eight 16-bit slices of the generator's word at counter `c` (R109). -/
def rngWord (key : List Byte) (c : Nat) : List Byte :=
  aes128 key (leBytes 8 (c % 2 ^ 64) ++ List.replicate 8 0)

/-- Slice `j` of a generator word (R109). -/
def rngSlice (word : List Byte) (j : Nat) : Nat := leAt word (2 * (j % 8)) 2

/-! SHA-384. -/

/-- The integer root by bits: the largest `r` with `p r`, from bit `b - 1` down. -/
def rootAux (p : Nat → Bool) : Nat → Nat → Nat
  | 0, r => r
  | b + 1, r => if p (r + 2 ^ b) then rootAux p b (r + 2 ^ b) else rootAux p b r

def shaPrimes : List Nat :=
  [2, 3, 5, 7, 11, 13, 17, 19, 23, 29, 31, 37, 41, 43, 47, 53, 59, 61, 67, 71, 73, 79, 83, 89, 97, 101, 103, 107, 109,
   113] ++
  [127, 131, 137, 139, 149, 151, 157, 163, 167, 173, 179, 181, 191, 193, 197, 199, 211, 223, 227, 229, 233, 239, 241,
   251, 257, 263, 269, 271, 277, 281, 283, 293, 307, 311, 313, 317, 331, 337, 347, 349, 353, 359, 367, 373, 379, 383,
   389, 397, 401, 409]

/-- The round constants: 64 fraction bits of the cube roots of the first 80 primes. -/
def shaK : List DWord :=
  shaPrimes.map fun p => BitVec.ofNat 64 (rootAux (fun r => decide (r * r * r ≤ p * 2 ^ 192)) 68 0)

/-- The initial value: 64 fraction bits of the square roots of the 9th to 16th primes. -/
def sha384Init : List DWord :=
  ((shaPrimes.drop 8).take 8).map fun p => BitVec.ofNat 64 (rootAux (fun r => decide (r * r ≤ p * 2 ^ 128)) 68 0)

def rotr64 (x : DWord) (n : Nat) : DWord := (x >>> n) ||| (x <<< (64 - n))

def ssig0 (x : DWord) : DWord := rotr64 x 1 ^^^ rotr64 x 8 ^^^ (x >>> 7)
def ssig1 (x : DWord) : DWord := rotr64 x 19 ^^^ rotr64 x 61 ^^^ (x >>> 6)
def bsig0 (x : DWord) : DWord := rotr64 x 28 ^^^ rotr64 x 34 ^^^ rotr64 x 39
def bsig1 (x : DWord) : DWord := rotr64 x 14 ^^^ rotr64 x 18 ^^^ rotr64 x 41

/-- The message schedule, newest word first: `n` more words. -/
def shaExtend : Nat → List DWord → List DWord
  | 0, w => w
  | n + 1, w =>
    let g := fun i => w.getD i 0
    shaExtend n ((ssig1 (g 1) + g 6 + ssig0 (g 14) + g 15) :: w)

/-- The rounds of the compression function. -/
def shaRounds : List DWord → List DWord → List DWord → List DWord
  | k :: ks, w :: ws, h =>
    let g := fun i => h.getD i 0
    let t1 := g 7 + bsig1 (g 4) + ((g 4 &&& g 5) ^^^ (~~~ (g 4) &&& g 6)) + k + w
    let t2 := bsig0 (g 0) + ((g 0 &&& g 1) ^^^ (g 0 &&& g 2) ^^^ (g 1 &&& g 2))
    shaRounds ks ws [t1 + t2, g 0, g 1, g 2, g 3 + t1, g 4, g 5, g 6]
  | _, _, h => h

def beNat (l : List Byte) : Nat := l.foldl (fun acc b => 256 * acc + b.toNat) 0

/-- One 128-byte block. -/
def shaBlock (h : List DWord) (blk : List Byte) : List DWord :=
  let w16 := (List.range 16).map fun i => BitVec.ofNat 64 (beNat ((blk.drop (8 * i)).take 8))
  let w := (shaExtend 64 w16.reverse).reverse
  ((shaRounds shaK w h).zip h).map fun p => p.1 + p.2

/-- The blocks of a padded message, `n` of them. -/
def shaBlocks : Nat → List DWord → List Byte → List DWord
  | 0, h, _ => h
  | n + 1, h, l => shaBlocks n (shaBlock h (l.take 128)) (l.drop 128)

/-- SHA-384 of a byte string, as its 48 bytes. -/
def sha384 (msg : List Byte) : List Byte :=
  let len := msg.length
  let z := (239 - len % 128) % 128
  let padded := msg ++ [0x80#8] ++ List.replicate z 0 ++ beBytes 16 (8 * len)
  ((shaBlocks (padded.length / 128) sha384Init padded).take 6).flatMap fun x => beBytes 8 x.toNat

/-- A digest as a number, its first byte least significant. -/
def digestOf (l : List Byte) : Digest := BitVec.ofNat 384 (leNat l)

/-- The bytes of a digest. -/
def digestBytes (d : Digest) : List Byte := leBytes 48 d.toNat

/-! CRC-32. -/

/-- `n` bits of the reflected CRC register. -/
def crcBits : Nat → Word → Word
  | 0, c => c
  | n + 1, c => crcBits n (if c.getLsbD 0 then (c >>> 1) ^^^ 0xEDB88320#32 else c >>> 1)

/-- CRC-32 with the IEEE 802.3 polynomial. -/
def crc32 (l : List Byte) : Word :=
  ~~~ (l.foldl (fun c b => crcBits 8 (c ^^^ b.zeroExtend 32)) 0xFFFFFFFF#32)

end Sys2Proof.Machine
end

