-- ==== Sys2Proof/Machine/Num.lean ====
section
/-! DEFINITION. Exact arithmetic on dyadic values and one correctly rounded step for each operation that rounds:
scalar formats (R42, R43), conversion with its class (R55, R56), FP32 arithmetic (R98), W42 (R99, R100). -/

namespace Sys2Proof.Machine

open Sys2Proof

/-- A decoded value (R43): NaN, an infinity, or `(-1)^neg * m * 2^e`; a zero keeps its sign. -/
inductive Val where
  | nan
  | inf (neg : Bool)
  | fin (neg : Bool) (m : Nat) (e : Int)
  deriving DecidableEq, Repr

/-- A scalar floating-point format (R42). `sub`: subnormal codes are kept; `inf`: the format has infinities. -/
structure FloatFmt where
  eb : Nat
  mb : Nat
  bias : Int
  sub : Bool
  inf : Bool
  deriving DecidableEq, Repr

def fmtFP32 : FloatFmt := { eb := 8, mb := 23, bias := 127, sub := true, inf := true }
def fmtBF16 : FloatFmt := { eb := 8, mb := 7, bias := 127, sub := false, inf := true }
def fmtFP16 : FloatFmt := { eb := 5, mb := 10, bias := 15, sub := false, inf := true }
def fmtE4M3 : FloatFmt := { eb := 4, mb := 3, bias := 7, sub := false, inf := false }
def fmtE5M2 : FloatFmt := { eb := 5, mb := 2, bias := 15, sub := false, inf := true }

/-- Zero with a sign. -/
def vZero (neg : Bool) : Val := .fin neg 0 0

def vIsNan : Val → Bool
  | .nan => true
  | _ => false

def vFinite : Val → Bool
  | .fin _ _ _ => true
  | _ => false

def vIsZero : Val → Bool
  | .fin _ m _ => m == 0
  | _ => false

def vNeg : Val → Val
  | .nan => .nan
  | .inf s => .inf (!s)
  | .fin s m e => .fin (!s) m e

def vAbs : Val → Val
  | .nan => .nan
  | .inf _ => .inf false
  | .fin _ m e => .fin false m e

def vSign : Val → Bool
  | .nan => false
  | .inf s => s
  | .fin s _ _ => s

/-- A finite value as an integer at exponent `u`, `u` at or below its own exponent. -/
def vAt (u : Int) : Val → Int
  | .fin s m e => let n : Int := (m * 2 ^ (e - u).toNat : Nat); if s then -n else n
  | _ => 0

/-- The exponent of a finite value's last bit. -/
def vExp : Val → Int
  | .fin _ _ e => e
  | _ => 0

/-- The value `n * 2^e`; `zneg` is the sign of an exact zero. -/
def vOfInt (n e : Int) (zneg : Bool) : Val :=
  if n = 0 then vZero zneg else .fin (decide (n < 0)) n.natAbs e

/-- Exact sum. An exact zero is +0 unless both addends are −0 (R100; IEEE 754 round to nearest). -/
def vAdd : Val → Val → Val
  | .nan, _ => .nan
  | _, .nan => .nan
  | .inf a, .inf b => if a = b then .inf a else .nan
  | .inf a, _ => .inf a
  | _, .inf b => .inf b
  | .fin s m e, .fin t n f =>
    let u := min e f
    vOfInt (vAt u (.fin s m e) + vAt u (.fin t n f)) u (s && t && m == 0 && n == 0)

/-- Exact product. -/
def vMul : Val → Val → Val
  | .nan, _ => .nan
  | _, .nan => .nan
  | .inf a, .inf b => .inf (a != b)
  | .inf a, .fin t n _ => if n = 0 then .nan else .inf (a != t)
  | .fin s m _, .inf b => if m = 0 then .nan else .inf (s != b)
  | .fin s m e, .fin t n f => .fin (s != t) (m * n) (e + f)

def vSub (a b : Val) : Val := vAdd a (vNeg b)

/-- `a < b`, false with a NaN. -/
def vLt : Val → Val → Bool
  | .nan, _ => false
  | _, .nan => false
  | .inf a, .inf b => a && !b
  | .inf a, .fin _ _ _ => a
  | .fin _ _ _, .inf b => !b
  | .fin s m e, .fin t n f =>
    let u := min e f
    decide (vAt u (.fin s m e) < vAt u (.fin t n f))

/-- Equal magnitude and sign as numbers (zeros of both signs are equal); false with a NaN. -/
def vEq (a b : Val) : Bool := !vIsNan a && !vIsNan b && !vLt a b && !vLt b a

/-- `floor(log2 (n / d))` for positive `n` and `d`. -/
def floorLog2Rat (n d : Nat) : Int :=
  let l : Int := (Nat.log2 n : Int) - (Nat.log2 d : Int)
  let ge : Bool := if 0 ≤ l then decide (d * 2 ^ l.toNat ≤ n) else decide (d ≤ n * 2 ^ (-l).toNat)
  if ge then l else l - 1

/-- `n / d` rounded to the nearest integer, ties to even. -/
def rneDiv (n d : Nat) : Nat :=
  let q := n / d
  let r := n % d
  if 2 * r < d then q else if d < 2 * r then q + 1 else if q % 2 = 0 then q else q + 1

/-- The magnitude `n / d * 2^e` rounded to nearest even on the grid of `mb` fraction bits whose least exponent is
`emin`: the integer `q` and the exponent `u` of the result `q * 2^u`. -/
def roundRat (n d : Nat) (e : Int) (mb : Nat) (emin : Int) : Nat × Int :=
  let u : Int := max (floorLog2Rat n d + e) emin - (mb : Int)
  let sh := e - u
  if 0 ≤ sh then (rneDiv (n * 2 ^ sh.toNat) d, u) else (rneDiv n (d * 2 ^ (-sh).toNat), u)

/-- The smallest normal exponent. -/
def FloatFmt.emin (f : FloatFmt) : Int := 1 - f.bias

/-- The code of NaN, infinity and zero (R42). -/
def canonNan (f : FloatFmt) : Nat :=
  if f.inf then (2 ^ f.eb - 1) * 2 ^ f.mb + 2 ^ (f.mb - 1) else 2 ^ (f.eb + f.mb) - 1

def infCode (f : FloatFmt) (neg : Bool) : Nat := b2n neg * 2 ^ (f.eb + f.mb) + (2 ^ f.eb - 1) * 2 ^ f.mb

def zeroCode (f : FloatFmt) (neg : Bool) : Nat := b2n neg * 2 ^ (f.eb + f.mb)

/-- The code of the largest finite magnitude (R42). -/
def maxMag (f : FloatFmt) : Nat :=
  if f.inf then (2 ^ f.eb - 2) * 2 ^ f.mb + (2 ^ f.mb - 1) else (2 ^ f.eb - 1) * 2 ^ f.mb + (2 ^ f.mb - 2)

/-- The value of a scalar code after the input rules (R43). -/
def decFloat (f : FloatFmt) (code : Nat) : Val :=
  let s := bitN code (f.eb + f.mb)
  let ex := bitsN code f.mb f.eb
  let m := bitsN code 0 f.mb
  if ex = 0 then (if f.sub then .fin s m (1 - f.bias - f.mb) else vZero s)
  else if f.inf then
    if ex = 2 ^ f.eb - 1 then (if m = 0 then .inf s else .nan)
    else .fin s (2 ^ f.mb + m) ((ex : Int) - f.bias - f.mb)
  else if ex = 2 ^ f.eb - 1 ∧ m = 2 ^ f.mb - 1 then .nan
  else .fin s (2 ^ f.mb + m) ((ex : Int) - f.bias - f.mb)

/-- The magnitude code of `q * 2^u`, a point of the grid of `f`. -/
def encMag (f : FloatFmt) (q : Nat) (u : Int) : Nat :=
  if q = 0 then 0
  else if q < 2 ^ f.mb then q
  else if q = 2 ^ (f.mb + 1) then (u + 1 + f.mb + f.bias).toNat * 2 ^ f.mb
  else (u + f.mb + f.bias).toNat * 2 ^ f.mb + (q - 2 ^ f.mb)

/-- The class of one converted element (R59). -/
inductive ConvClass where
  | plain
  | zero
  | vanished
  | saturated
  | nonfinite
  deriving DecidableEq, Repr

/-- `a < b` for magnitudes `m * 2^e`. -/
def magLt (m : Nat) (e : Int) (n : Nat) (f : Int) : Bool :=
  vLt (.fin false m e) (.fin false n f)

/-- Conversion into a scalar floating format: code and class (R55, R56). -/
def encodeScalar (f : FloatFmt) (ieee : Bool) : Val → Nat × ConvClass
  | .nan => (canonNan f, .nonfinite)
  | .inf s => (if f.inf then infCode f s else canonNan f, .nonfinite)
  | .fin s m e =>
    if m = 0 then (zeroCode f s, .zero)
    else if !f.sub && magLt m e 1 f.emin then (zeroCode f s, .vanished)
    else
      let r := roundRat m 1 e f.mb f.emin
      let mag := encMag f r.1 r.2
      let sgn := b2n s * 2 ^ (f.eb + f.mb)
      match decFloat f (maxMag f) with
      | .fin _ mm me =>
        if magLt mm me m e then
          if ieee && f.inf then
            if magLt mm me r.1 r.2 then (infCode f s, .nonfinite) else (sgn + maxMag f, .plain)
          else (sgn + maxMag f, .saturated)
        else if r.1 = 0 then (zeroCode f s, .vanished)
        else (sgn + mag, .plain)
      | _ => (sgn + mag, .plain)

/-- `y` rounded to an integer, ties to even. -/
def roundHalfEven : Val → Int
  | .fin s m e =>
    let q : Nat := if 0 ≤ e then m * 2 ^ e.toNat else rneDiv m (2 ^ (-e).toNat)
    if s then -(q : Int) else (q : Int)
  | _ => 0

/-- Conversion into INT8 or INT4 with limit `lim` and tensor exponent `t` (R55). -/
def encodeInt (lim : Nat) (t : Int) : Val → Int × ConvClass
  | .nan => (0, .nonfinite)
  | .inf _ => (0, .nonfinite)
  | .fin s m e =>
    if m = 0 then (0, .zero)
    else if magLt lim t m e then (if s then -(lim : Int) else (lim : Int), .saturated)
    else
      let k := roundHalfEven (.fin s m (e - t))
      if k = 0 then (0, .vanished) else (k, .plain)

/-! FP32 arithmetic of the vector, exact and update units: one rounding an operation (R98). -/

def dec32 (w : Word) : Val := decFloat fmtFP32 w.toNat

/-- IEEE 754 round to nearest even into FP32. -/
def round32 (v : Val) : Word := BitVec.ofNat 32 (encodeScalar fmtFP32 true v).1

def nan32 : Word := 0x7FC00000#32
def one32 : Word := 0x3F800000#32

def add32 (a b : Word) : Word := round32 (vAdd (dec32 a) (dec32 b))
def sub32 (a b : Word) : Word := round32 (vSub (dec32 a) (dec32 b))
def mul32 (a b : Word) : Word := round32 (vMul (dec32 a) (dec32 b))
/-- `a * b + c` with one rounding. -/
def fma32 (a b c : Word) : Word := round32 (vAdd (vMul (dec32 a) (dec32 b)) (dec32 c))
def neg32 (a : Word) : Word := a ^^^ 0x80000000#32

/-- The magnitude `n / d * 2^e` in FP32 with sign `s`. -/
def roundRat32 (s : Bool) (n d : Nat) (e : Int) : Word :=
  if n = 0 then BitVec.ofNat 32 (zeroCode fmtFP32 s)
  else
    let r := roundRat n d e fmtFP32.mb fmtFP32.emin
    round32 (.fin s r.1 r.2)

/-- Correctly rounded FP32 division. -/
def divVal32 : Val → Val → Word
  | .nan, _ => nan32
  | _, .nan => nan32
  | .inf _, .inf _ => nan32
  | .inf a, .fin t _ _ => BitVec.ofNat 32 (infCode fmtFP32 (a != t))
  | .fin s _ _, .inf b => BitVec.ofNat 32 (zeroCode fmtFP32 (s != b))
  | .fin s m e, .fin t n f =>
    if n = 0 then (if m = 0 then nan32 else BitVec.ofNat 32 (infCode fmtFP32 (s != t)))
    else roundRat32 (s != t) m n (e - f)

def div32 (a b : Word) : Word := divVal32 (dec32 a) (dec32 b)

/-- Bits `b - 1` down to 0 of the integer square root of `n`, above `r`. -/
def isqrtAux (n : Nat) : Nat → Nat → Nat
  | 0, r => r
  | b + 1, r => let r' := r + 2 ^ b; if r' * r' ≤ n then isqrtAux n b r' else isqrtAux n b r

/-- The integer square root. -/
def isqrt (n : Nat) : Nat := isqrtAux n (Nat.log2 n / 2 + 1) 0

/-- Correctly rounded FP32 square root. -/
def sqrtVal32 : Val → Word
  | .nan => nan32
  | .inf s => if s then nan32 else BitVec.ofNat 32 (infCode fmtFP32 false)
  | .fin s m e =>
    if m = 0 then BitVec.ofNat 32 (zeroCode fmtFP32 s)
    else if s then nan32
    else
      let e2 := if e % 2 = 0 then e else e - 1
      let m2 := if e % 2 = 0 then m else 2 * m
      let big := m2 * 2 ^ 128
      let r := isqrt big
      let x := 2 * r + (if r * r = big then 0 else 1)
      round32 (.fin false x (e2 / 2 - 64 - 1))

def sqrt32 (a : Word) : Word := sqrtVal32 (dec32 a)

/-- FP32 of a natural number, round to nearest even. -/
def ofNat32 (n : Nat) : Word := round32 (.fin false n 0)

/-- `a < b` on FP32 values. -/
def lt32 (a b : Word) : Bool := vLt (dec32 a) (dec32 b)

/-! W42 (R99, R100). -/

def w42Nan : Nat := 1023 * 2 ^ 31 + 0x40000000
def w42Inf (s : Bool) : Nat := b2n s * 2 ^ 41 + 1023 * 2 ^ 31

/-- The value of a W42 code (R99). -/
def dec42 (c : Nat) : Val :=
  let s := bitN c 41
  let ex := bitsN c 31 10
  let m := bitsN c 0 31
  if ex = 0 then vZero s
  else if ex = 1023 then (if m = 0 then .inf s else .nan)
  else .fin s (2 ^ 31 + m) ((ex : Int) - 511 - 31)

/-- Round to nearest even into W42 under the range rules of R100. -/
def enc42 : Val → Nat
  | .nan => w42Nan
  | .inf s => w42Inf s
  | .fin s m e =>
    if m = 0 then b2n s * 2 ^ 41
    else
      let r := roundRat m 1 e 31 (-100000)
      let q := if r.1 = 2 ^ 32 then 2 ^ 31 else r.1
      let u := if r.1 = 2 ^ 32 then r.2 + 1 else r.2
      let ex := u + 31 + 511
      if 1022 < ex then w42Inf s
      else if ex < 1 then b2n s * 2 ^ 41
      else b2n s * 2 ^ 41 + ex.toNat * 2 ^ 31 + (q - 2 ^ 31)

/-- W42 addition of two exact values (R100). -/
def w42AddVal (a b : Val) : Nat := enc42 (vAdd a b)

/-- W42 addition of two codes (R100). -/
def w42Add (a b : Nat) : Nat := w42AddVal (dec42 a) (dec42 b)

/-- A group sum on its way into the accumulator: its value, and the sign of the truncated remainder when the sticky
bit of R102 is set. -/
structure GroupSum where
  val : Val
  sticky : Bool
  deriving DecidableEq, Repr

/-- W42 addition of a group sum: with the sticky bit set and a non-zero window value, an amount smaller than any bit
of either addend is added, with the sign of the window value (R100). It stands 40 bits below the sum's last bit, where it
decides a tie and nothing else; where the two addends cancel exactly, it alone is below the range and gives a zero with its
sign. -/
def w42AddGroup (acc : Nat) (g : GroupSum) : Nat :=
  let a := dec42 acc
  let s := vAdd a g.val
  if g.sticky && !vIsZero g.val && vFinite s then
    if vIsZero s then b2n (vSign g.val) * 2 ^ 41
    else
      let u := min (vExp a) (vExp g.val)
      let n := 2 ^ 40 * vAt u s + (if vSign g.val then -1 else 1)
      enc42 (vOfInt n (u - 40) false)
  else enc42 s

/-- A W42 value in its 8-byte container (R99). -/
def w42Bytes (c : Nat) : List Byte := leBytes 8 (c % 2 ^ 42)

/-- The W42 code of a container; bits [63:42] are ignored (R99). -/
def w42OfBytes (l : List Byte) : Nat := leNat l % 2 ^ 42

/-- FP32 of a W42 code, round to nearest even. -/
def fp32Of42 (c : Nat) : Word := round32 (dec42 c)

/-! exp and log, correctly rounded (R171), by 256-bit fixed point. -/

/-- Fixed-point scale of exp and log. -/
def fxOne : Nat := 2 ^ 256

/-- `Σ 1 / (k 2^k)`, `k` from `i` for `n` terms: ln 2. -/
def ln2Aux : Nat → Nat → Nat
  | 0, _ => 0
  | n + 1, i => fxOne / (i * 2 ^ i) + ln2Aux n (i + 1)

def fxLn2 : Nat := ln2Aux 260 1

/-- The Taylor sum of `exp r` from term `i` on, for `n` terms; `t` is the running term. -/
def expAux (r : Nat) : Nat → Nat → Nat → Nat
  | 0, _, _ => 0
  | n + 1, i, t => t + expAux r n (i + 1) (t * r / fxOne / i)

/-- Correctly rounded FP32 natural exponential (R171). -/
def expVal32 : Val → Word
  | .nan => nan32
  | .inf s => if s then 0#32 else BitVec.ofNat 32 (infCode fmtFP32 false)
  | .fin s m e =>
    if m = 0 then one32
    else if magLt 128 0 m e then (if s then 0#32 else BitVec.ofNat 32 (infCode fmtFP32 false))
    else
      let x : Int := let n : Int := if 0 ≤ 256 + e then (m * 2 ^ (256 + e).toNat : Nat)
                                    else (m / 2 ^ (-(256 + e)).toNat : Nat)
                     if s then -n else n
      let k : Int := x / (fxLn2 : Int)
      let r : Nat := (x - k * (fxLn2 : Int)).toNat
      let y := expAux r 80 1 fxOne
      round32 (.fin false (2 * y + 1) (k - 257))

def exp32 (a : Word) : Word := expVal32 (dec32 a)

/-- `Σ z^(2i+1) / (2i+1)` for `n` terms, `t` the running power. -/
def atanhAux (z2 : Nat) : Nat → Nat → Nat → Nat
  | 0, _, _ => 0
  | n + 1, i, t => t / i + atanhAux z2 n (i + 2) (t * z2 / fxOne)

/-- Correctly rounded FP32 natural logarithm (R171). -/
def logVal32 : Val → Word
  | .nan => nan32
  | .inf s => if s then nan32 else BitVec.ofNat 32 (infCode fmtFP32 false)
  | .fin s m e =>
    if m = 0 then BitVec.ofNat 32 (infCode fmtFP32 true)
    else if s then nan32
    else
      let l := Nat.log2 m
      let k : Int := (l : Int) + e
      let one := 2 ^ l
      if m = one ∧ k = 0 then 0#32
      else
        let z := (m - one) * fxOne / (m + one)
        let y : Int := 2 * (atanhAux (z * z / fxOne) 110 1 z : Nat) + k * (fxLn2 : Int)
        round32 (vOfInt (2 * y + 1) (-257) false)

def log32 (a : Word) : Word := logVal32 (dec32 a)

end Sys2Proof.Machine
end

