-- ==== Sys2Proof/Machine/Formats.lean ====
section
/-! DEFINITION. Format codes (R39), block scaling (R45-R50), table-coded weights (R52), conversion of blocks (R57-R60),
residuals (R61, R62), group sums (R101-R103) and stochastic rounding (R107). -/

namespace Sys2Proof.Machine

open Sys2Proof

/-- The formats of R39. -/
inductive Fmt where
  | fp32
  | bf16
  | fp16
  | e4m3
  | e5m2
  | mxe4m3
  | mxe5m2
  | mxe3m2
  | mxe2m3
  | mxe2m1
  | mxint8
  | int8
  | int4
  | tc4
  deriving DecidableEq, Repr

/-- The format of a 4-bit code; 0x0 and 0xF are reserved (R39). -/
def fmtOfCode : Nat → Option Fmt
  | 1 => some .fp32
  | 2 => some .bf16
  | 3 => some .fp16
  | 4 => some .e4m3
  | 5 => some .e5m2
  | 6 => some .mxe4m3
  | 7 => some .mxe5m2
  | 8 => some .mxe3m2
  | 9 => some .mxe2m3
  | 10 => some .mxe2m1
  | 11 => some .mxint8
  | 12 => some .int8
  | 13 => some .int4
  | 14 => some .tc4
  | _ => none

def fmtCode : Fmt → Nat
  | .fp32 => 1
  | .bf16 => 2
  | .fp16 => 3
  | .e4m3 => 4
  | .e5m2 => 5
  | .mxe4m3 => 6
  | .mxe5m2 => 7
  | .mxe3m2 => 8
  | .mxe2m3 => 9
  | .mxe2m1 => 10
  | .mxint8 => 11
  | .int8 => 12
  | .int4 => 13
  | .tc4 => 14

/-- Bits of an element (R39). -/
def fmtWidth : Fmt → Nat
  | .fp32 => 32
  | .bf16 => 16
  | .fp16 => 16
  | .e4m3 => 8
  | .e5m2 => 8
  | .mxe4m3 => 8
  | .mxe5m2 => 8
  | .mxe3m2 => 6
  | .mxe2m3 => 6
  | .mxe2m1 => 4
  | .mxint8 => 8
  | .int8 => 8
  | .int4 => 4
  | .tc4 => 4

/-- Block-scaled formats (R39). -/
def isMx : Fmt → Bool
  | .mxe4m3 | .mxe5m2 | .mxe3m2 | .mxe2m3 | .mxe2m1 | .mxint8 => true
  | _ => false

/-- Integer formats with a tensor exponent (R44). -/
def isInt : Fmt → Bool
  | .int8 | .int4 => true
  | _ => false

/-- Column-group width c (R69); 0 for FP32, which is never an array operand. -/
def fmtC : Fmt → Nat
  | .fp32 => 0
  | .bf16 | .int8 | .mxint8 | .tc4 => 2
  | .fp16 => 3
  | _ => 1

/-- Stream digits d (R69); 0 for the formats that are never streamed. -/
def fmtD : Fmt → Nat
  | .fp32 | .tc4 => 0
  | .mxe2m1 => 1
  | .bf16 | .int8 | .mxint8 => 4
  | .fp16 => 6
  | _ => 2

/-- The scalar floating format of a code (R42). -/
def scalarFmt : Fmt → Option FloatFmt
  | .fp32 => some fmtFP32
  | .bf16 => some fmtBF16
  | .fp16 => some fmtFP16
  | .e4m3 => some fmtE4M3
  | .e5m2 => some fmtE5M2
  | _ => none

/-- The element grid of a floating MX format (R47): subnormal points are ordinary. -/
def elemGrid : Fmt → FloatFmt
  | .mxe2m1 => { eb := 2, mb := 1, bias := 1, sub := true, inf := false }
  | .mxe2m3 => { eb := 2, mb := 3, bias := 1, sub := true, inf := false }
  | .mxe3m2 => { eb := 3, mb := 2, bias := 3, sub := true, inf := false }
  | .mxe4m3 => { eb := 4, mb := 3, bias := 7, sub := true, inf := false }
  | _ => { eb := 5, mb := 2, bias := 15, sub := true, inf := true }

/-- emax_elem (R47). -/
def emaxElem : Fmt → Int
  | .mxe2m1 => 2
  | .mxe2m3 => 2
  | .mxe3m2 => 4
  | .mxe4m3 => 8
  | .mxe5m2 => 15
  | _ => 0

/-- The largest element magnitude (R47), as a point of the element grid. -/
def maxElem : Fmt → Val
  | .mxe2m1 => .fin false 3 1
  | .mxe2m3 => .fin false 15 (-1)
  | .mxe3m2 => .fin false 7 2
  | .mxe4m3 => .fin false 14 5
  | .mxe5m2 => .fin false 7 13
  | _ => .fin false 127 (-6)

/-- The value of an MX element code without its block scale (R47, R48). -/
def decElem (f : Fmt) (code : Nat) : Val :=
  match f with
  | .mxint8 => vOfInt (sInt 8 code) (-6) false
  | _ =>
    let g := elemGrid f
    let s := bitN code (g.eb + g.mb)
    let ex := bitsN code g.mb g.eb
    let m := bitsN code 0 g.mb
    if ex = 0 then .fin s m (1 - g.bias - g.mb)
    else if f = .mxe4m3 ∧ ex = 15 ∧ m = 7 then .nan
    else if f = .mxe5m2 ∧ ex = 31 then (if m = 0 then .inf s else .nan)
    else .fin s (2 ^ g.mb + m) ((ex : Int) - g.bias - g.mb)

/-- `v * 2^k`, exact. -/
def vScale (k : Int) : Val → Val
  | .fin s m e => .fin s m (e + k)
  | v => v

/-- The value of an MX element in a block with scale code `x`: 0xFF makes it NaN (R45, R46). -/
def mxVal (f : Fmt) (x code : Nat) : Val :=
  if x = 255 then .nan else vScale ((x : Int) - 127) (decElem f code)

/-- The value of a scalar or integer element (R43, R44). -/
def plainVal (f : Fmt) (texp : Int) (code : Nat) : Val :=
  match scalarFmt f with
  | some g => decFloat g code
  | none => vOfInt (sInt (fmtWidth f) code) texp false

/-- One element converted into a scalar or integer format (R55, R56). -/
def encPlain (f : Fmt) (texp : Int) (ieee : Bool) (v : Val) : Nat × ConvClass :=
  match scalarFmt f with
  | some g => encodeScalar g ieee v
  | none =>
    let r := encodeInt (if f = .int8 then 127 else 7) texp v
    (toTwos (fmtWidth f) r.1, r.2)

/-- What an element code holds (R63, R69): sign, significand or magnitude with its leading bit, exponent field. The significand
of a code that is read as zero is 0. -/
structure ElemFields where
  sign : Bool
  sig : Nat
  exp : Nat
  deriving DecidableEq, Repr

def elemFields (f : Fmt) (code : Nat) : ElemFields :=
  match f with
  | .int8 | .int4 | .mxint8 | .tc4 =>
    { sign := decide (sInt (fmtWidth f) code < 0), sig := (sInt (fmtWidth f) code).natAbs, exp := 0 }
  | _ =>
    let g := (scalarFmt f).getD (elemGrid f)
    let ex := bitsN code g.mb g.eb
    { sign := bitN code (g.eb + g.mb),
      sig := if ex = 0 then (if g.sub then bitsN code 0 g.mb else 0) else 2 ^ g.mb + bitsN code 0 g.mb, exp := ex }

/-- The element code of these fields. -/
def joinFields (f : Fmt) (neg : Bool) (sig ex : Nat) : Nat :=
  match f with
  | .int8 | .int4 | .mxint8 | .tc4 => toTwos (fmtWidth f) (if neg then -(sig : Int) else sig)
  | _ =>
    let g := (scalarFmt f).getD (elemGrid f)
    b2n neg * 2 ^ (g.eb + g.mb) + ex * 2 ^ g.mb + sig % 2 ^ g.mb

/-- A quantised MX block (R57). -/
structure BlockOut where
  scale : Nat
  codes : List Nat
  classes : List ConvClass
  vanishedBlock : Bool
  deriving DecidableEq, Repr

/-- The code of an MX element whose magnitude is `q * 2^u`. -/
def encElem (f : Fmt) (neg : Bool) (q : Nat) (u : Int) : Nat :=
  match f with
  | .mxint8 => let k : Nat := if 0 ≤ u + 6 then q * 2 ^ (u + 6).toNat else q / 2 ^ (-(u + 6)).toNat
               toTwos 8 (if neg then -(k : Int) else (k : Int))
  | _ => let g := elemGrid f
         (if neg then 2 ^ (g.eb + g.mb) else 0) + encMag g q u

/-- `y` rounded to the nearest point of the element grid, ties to even: magnitude `q * 2^u` (R57). -/
def rneElem (f : Fmt) (m : Nat) (e : Int) : Nat × Int :=
  match f with
  | .mxint8 => (rneDiv (if 0 ≤ e + 6 then m * 2 ^ (e + 6).toNat else m) (2 ^ (-(e + 6)).toNat), -6)
  | _ => let g := elemGrid f
         roundRat m 1 e g.mb g.emin

/-- One element of a block at exponent `e0`; `hi` is R57's flag. `rnd` rounds a magnitude to the grid. -/
def quantElem (f : Fmt) (hi : Bool) (e0 : Int) (rnd : Nat → Int → Nat × Int) (x : Val) : Nat × ConvClass :=
  match x, maxElem f with
  | .fin s m e, .fin _ mm me =>
    if m = 0 then (encElem f s 0 0, .zero)
    else if magLt mm me m (e - e0) then (encElem f s mm me, if hi then .saturated else .plain)
    else
      let r := rnd m (e - e0)
      let r := if magLt mm me r.1 r.2 then (mm, me) else r
      if r.1 = 0 then (encElem f s 0 0, .vanished) else (encElem f s r.1 r.2, .plain)
  | _, _ => (0, .nonfinite)

/-- The larger magnitude of two finite values. -/
def maxMagVal (a b : Val) : Val := if vLt (vAbs a) (vAbs b) then vAbs b else vAbs a

/-- The block exponent of R57 before the clamp. -/
def blockExp (f : Fmt) (amax : Val) : Int :=
  match amax with
  | .fin _ m e => (Nat.log2 m : Int) + e - emaxElem f
  | _ => 0

/-- Quantise a block of source values, padding excluded; `rnd i` rounds element `i` to the grid (R57, R59, R60). -/
def quantBlockBy (f : Fmt) (rnd : Nat → Nat → Int → Nat × Int) (xs : List Val) : BlockOut :=
  if xs.any (fun x => !vFinite x) then
    { scale := 255, codes := xs.map fun _ => 0
      classes := xs.map fun x => if vFinite x then .plain else .nonfinite, vanishedBlock := false }
  else
    let amax := xs.foldl maxMagVal (vZero false)
    if vIsZero amax then
      { scale := 0, codes := xs.map fun x => encElem f (vSign x) 0 0
        classes := xs.map fun _ => .zero, vanishedBlock := false }
    else
      let e := blockExp f amax
      let hi := decide (127 < e)
      let lo := decide (e < -127)
      let e' := max (-127) (min 127 e)
      let r := xs.zipIdx.map fun x => quantElem f hi e' (rnd x.2) x.1
      let allZero := r.all fun c => c.2 = .zero || c.2 = .vanished
      let vb := lo && allZero
      { scale := (e' + 127).toNat, codes := r.map (·.1)
        classes := r.map fun c => if vb && c.2 = .vanished then .plain else c.2, vanishedBlock := vb }

/-- Quantise a block with round to nearest even (R57). -/
def quantBlock (f : Fmt) (xs : List Val) : BlockOut := quantBlockBy f (fun _ => rneElem f) xs

/-- The exact values that a quantised block decodes to. -/
def blockVals (f : Fmt) (b : BlockOut) : List Val := b.codes.map (mxVal f b.scale)

/-- The sources of the residual of a block (R61, R62): `x − decode(q)`; NaN for a block with scale 0xFF. -/
def blockResidual (f : Fmt) (xs : List Val) (b : BlockOut) : List Val :=
  (xs.zip (blockVals f b)).map fun p => vSub p.1 p.2

/-- The source of the residual of a scalar or integer element; +0 beside a non-finite source or output (R62). -/
def plainResidual (f : Fmt) (texp : Int) (x : Val) (code : Nat) : Val :=
  let q := plainVal f texp code
  if vFinite x && vFinite q then vSub x q else vZero false

/-- Element codes packed `w` bits each from bit 0 of the first byte (R49). -/
def packCodes (w : Nat) (codes : List Nat) : List Byte :=
  let n := codes.foldr (fun c acc => c % 2 ^ w + 2 ^ w * acc) 0
  leBytes (ceilDiv (w * codes.length) 8) n

/-- `n` element codes of `w` bits read from bytes (R49). -/
def unpackCodes (w n : Nat) (l : List Byte) : List Nat :=
  let v := leNat l
  (List.range n).map fun i => bitsN v (w * i) w

/-- `codes` padded with the code of +0 to whole blocks of 32 (R50). -/
def padBlock (codes : List Nat) : List Nat := codes ++ List.replicate (32 - codes.length) 0

/-! Table-coded weights (R52). -/

/-- `|a − b|`, exact. -/
def vDist (a b : Val) : Val := vAbs (vSub a b)

/-- The index with the smallest distance, the lowest on a tie, from index `i` on. -/
def nearestAux (v : Val) : List Val → Nat → Nat → Val → Nat
  | [], _, best, _ => best
  | c :: t, i, best, bd => if vLt (vDist v c) bd then nearestAux v t (i + 1) i (vDist v c) else nearestAux v t (i + 1) best bd

/-- The nearest entry of a codebook, lowest index on a tie (R52). -/
def nearestEntry (book : List Val) (v : Val) : Nat :=
  match book with
  | [] => 0
  | c :: t => nearestAux v t 1 0 (vDist v c)

/-- The class of a TC4 weight (R59). A weight outside the codebook's range is saturated, though it be zero or its entry be (DESIGN
CHOICE, log 125: two rows of R59 apply, and the manual gives no order). -/
def tc4Class (book : List Val) (v : Val) : ConvClass :=
  if !vFinite v then .nonfinite
  else if book.all (fun c => vLt v c) || book.all (fun c => vLt c v) then .saturated
  else if vIsZero v then .zero
  else if vIsZero (book.getD (nearestEntry book v) (vZero false)) then .vanished
  else .plain

/-! Group sums (R101-R103). -/

/-- Pairs that use the alignment window (R102). -/
def usesWindow (a b : Fmt) : Bool :=
  let w : Fmt → Bool := fun f => f = .bf16 || f = .fp16 || f = .tc4
  w a || w b

/-- The exact integer sum of finite values at exponent `u`. -/
def sumAt (u : Int) (l : List Val) : Int := l.foldl (fun acc v => acc + vAt u v) 0

/-- The least exponent of a list of values, at most `u`. -/
def minExp (u : Int) (l : List Val) : Int := l.foldl (fun acc v => min acc (vExp v)) u

/-- The largest `floor(log2 |p|)` of the non-zero values. -/
def groupEmax : List Val → Option Int
  | [] => none
  | .fin _ m e :: t =>
    if m = 0 then groupEmax t
    else
      let x : Int := (Nat.log2 m : Int) + e
      match groupEmax t with
      | none => some x
      | some y => some (max x y)
  | _ :: t => groupEmax t

/-- A finite value truncated toward zero to a multiple of `2^u`, and whether a non-zero bit was dropped. -/
def truncAt (u : Int) : Val → Int × Bool
  | .fin s m e =>
    let q : Nat := if u ≤ e then m * 2 ^ (e - u).toNat else m / 2 ^ (u - e).toNat
    let lost := if u ≤ e then false else m % 2 ^ (u - e).toNat != 0
    (if s then -(q : Int) else (q : Int), lost)
  | _ => (0, false)

/-- The group sum of the products of one K-group, padding left out (R101, R102, R103). -/
def groupSum (window : Bool) (prods : List Val) : GroupSum :=
  if prods.any vIsNan then { val := .nan, sticky := false }
  else
    let pos := prods.any fun p => p = .inf false
    let neg := prods.any fun p => p = .inf true
    if pos && neg then { val := .nan, sticky := false }
    else if pos then { val := .inf false, sticky := false }
    else if neg then { val := .inf true, sticky := false }
    else if window then
      match groupEmax prods with
      | none => { val := vZero false, sticky := false }
      | some em =>
        let ts := prods.map (truncAt (em - 42))
        { val := vOfInt (ts.foldl (fun acc t => acc + t.1) 0) (em - 42) false, sticky := ts.any (·.2) }
    else
      let u := minExp 0 prods
      { val := vOfInt (sumAt u prods) u false, sticky := false }

/-! Stochastic rounding (R107). -/

/-- A magnitude `m * 2^e` rounded stochastically on the grid of `mb` fraction bits with least exponent `emin`, with
the 16-bit random slice `u`. -/
def srMag (mb : Nat) (emin : Int) (u : Nat) (m : Nat) (e : Int) : Nat × Int :=
  if m = 0 then (0, emin) else
  let x : Int := max ((Nat.log2 m : Int) + e) emin - mb
  if x ≤ e then (m * 2 ^ (e - x).toNat, x)
  else
    let d := (x - e).toNat
    let keep := m / 2 ^ d
    let f := m % 2 ^ d * 65536 / 2 ^ d
    (if 65536 ≤ f + u then keep + 1 else keep, x)

/-- Stochastic conversion of an FP32 value into BF16 or FP16 (R107); a non-finite value as R55 with OVF_MODE 0. -/
def srScalar (g : FloatFmt) (u : Nat) (v : Val) : Nat × ConvClass :=
  match v, decFloat g (maxMag g) with
  | .fin s m e, .fin _ mm me =>
    if m = 0 then (zeroCode g s, .zero)
    else if magLt m e 1 g.emin then (zeroCode g s, .vanished)
    else if magLt mm me m e then (b2n s * 2 ^ (g.eb + g.mb) + maxMag g, .saturated)
    else
      let r := srMag g.mb g.emin u m e
      (b2n s * 2 ^ (g.eb + g.mb) + encMag g r.1 r.2, .plain)
  | _, _ => encodeScalar g false v

/-- Stochastic quantisation of a block into MXFP8, `us` giving each element's slice (R107). -/
def srBlock (f : Fmt) (us : List Nat) (xs : List Val) : BlockOut :=
  let g := elemGrid f
  quantBlockBy f (fun i => srMag g.mb g.emin (us.getD i 0)) xs

end Sys2Proof.Machine
end

