-- ==== Sys2Proof/Machine/Types.lean ====
section
/-! DEFINITION. The data types that the state is built of: the parsed package, the plan, records and queues. A numbered
family of things is a list of (number, value) pairs in the canonical form of Sparse.lean; a count is a Nat whose width
the docstring gives; a code of the manual is a Nat or a bit vector. -/

namespace Sys2Proof.Machine

open Sys2Proof

/-- The device states of R349. -/
inductive DevState where
  | boot | recovery | idle | loaded | planned | starting | running | held | securing | recovering | restored | stopped
  | wedged
  deriving DecidableEq, Repr

/-- The phases of a step (R31); `none` outside a run. -/
inductive Phase where
  | none | compute | reduction | update | distribution | exchange | boundary
  deriving DecidableEq, Repr

/-- The power state of the device or of a core group (R359); OFF is R362's. -/
inductive PowerState where
  | p0 | g1 | g2 | g3 | g4 | g5 | off
  deriving DecidableEq, Repr

/-- The thread states of R176. -/
inductive ThrState where
  | stopped | running | waiting | halted | faulted
  deriving DecidableEq, Repr

/-- What a waiting thread waits for (R165, R167, R172). -/
inductive ThrWait where
  | none
  | counter (k v : Nat)
  | barrier (mask : Nat)
  | stroke (slot : Nat)
  | ovfx (inst : Nat) (sreg : Nat)
  | drain
  | mov
  deriving DecidableEq, Repr

/-! ### Firmware (R398, R399) -/

/-- A firmware image as its header and its checks give it (R398, R399). -/
structure FwImage where
  formOk : Bool       -- MAGIC, VERSION, the fields' ranges, zero fields (item 1)
  slot : Nat
  svn : Nat
  revoke : Nat
  fwVersion : Nat
  planner : Nat
  bodyBytes : Nat
  keyHash : Digest    -- SHA-384 of ECDSA_PUB followed by LMS_PUB (item 2)
  ecdsaOk : Bool      -- item 3
  lmsOk : Bool        -- item 4
  digestOk : Bool     -- item 5
  mDigest : Digest    -- SHA-384 of the signed message M (R416)
  bodyDigest : Digest -- BODY_DIGEST
  deriving DecidableEq, Repr

/-! ### Package (R177 to R186) -/

/-- A role's ladder (R131, R132): eight rung bytes, floor, start rung, ceiling. -/
structure Ladder where
  rungs : List Nat
  floor : Nat
  start : Nat
  ceil  : Nat
  deriving DecidableEq, Repr

/-- A layer descriptor (R180). -/
structure LayerDesc where
  op : Nat
  flags : Nat
  stat : Nat
  opt : Nat
  in0 : Nat
  in1 : Nat
  wgt : Nat
  out : Nat
  m1 : Nat
  m2 : Nat
  satTol : Nat
  dropP : Nat
  cbPeriod : Nat
  prog : Nat
  ladW : Ladder
  ladA : Ladder
  ladG : Ladder
  hint : Nat
  params : List Byte
  deriving DecidableEq, Repr

/-- A tensor descriptor (R182). -/
structure TensorDesc where
  fmt : Nat
  kind : Nat
  rank : Nat
  baxis : Nat
  texp : Nat
  flags : Nat
  steerLayer : Nat
  steerRole : Nat
  paired : Nat
  dims : List Nat
  initAt : Nat
  plane0 : Nat
  plane1 : Nat
  hint : Nat
  deriving DecidableEq, Repr

/-- An optimiser entry (R184). -/
structure OptEntry where
  algo : Nat
  clipEn : Bool
  beta1 : Word
  beta2 : Word
  eps : Word
  wd : Word
  clip : Word
  knots : List (Nat × Word)
  deriving DecidableEq, Repr

/-- A custom program header (R185), with the tensor IDs it lists. -/
structure ProgHdr where
  id : Nat
  nInstr : Nat
  codeOff : Nat
  w : Nat
  threads : Nat
  flags : Nat
  counters : Nat
  scratch : Nat
  bankRows : Nat
  tens : List Nat
  deriving DecidableEq, Repr

/-- A hint record (R186). -/
structure HintRec where
  kind : Nat
  carried : Nat
  value : Nat
  deriving DecidableEq, Repr

/-- A loaded package (R177), parsed. -/
structure Pkg where
  bytes : Nat
  digest : List Byte
  layers : List LayerDesc
  tensors : List TensorDesc
  progs : List ProgHdr
  hints : List HintRec
  opts : List OptEntry
  initOff : Nat
  mbTokens : Nat
  mbPerStep : Nat
  seqPerStep : Nat
  parTp : Nat
  parPp : Nat
  parDp : Nat
  deriving DecidableEq, Repr

/-- A bound data source (R187) with its credit and counts (R189, R190). -/
structure Source where
  weight : Nat
  seqMax : Nat
  seed : Nat
  ring : Nat
  log2 : Nat
  prod : Nat
  cons : Nat
  credit : Int
  next : Nat
  admitted : Nat
  released : Nat
  deriving DecidableEq, Repr

/-- A sequence slot record (R192). -/
structure SlotRec where
  source : Nat
  state : Nat
  mb : Nat
  step : Nat
  sample : Nat
  length : Nat
  fetched : Nat
  use : Nat
  deriving DecidableEq, Repr

/-- An entry of a micro-batch's segment table (R193). -/
structure Segment where
  step : Nat
  mb : Nat
  slot : Nat
  first : Nat
  length : Nat
  deriving DecidableEq, Repr

/-! ### Statistics (R124) -/

/-- A statistics record (R124). AMAX and the sums are W42 codes. -/
structure StatRec where
  tensor : Nat
  layer : Nat
  role : Nat
  rung : Nat
  step : Nat
  flags : Nat
  elements : Nat
  zeros : Nat
  saturated : Nat
  vanished : Nat
  vBlocks : Nat
  vBlockElems : Nat
  nonfinite : Nat
  blocks : Nat
  amax : Nat
  sumsq : Nat
  hist : List (Nat × Nat)
  agreeTiles : Nat
  agreeRung : Nat
  agreeDiff : Nat
  agreeRef : Nat
  deriving DecidableEq, Repr

/-! ### Plan (R223, R233, R237) -/

/-- A device record of the system map (R220). -/
structure MapDev where
  pos : Nat
  feed : Nat
  cores : Nat
  spare : Bool
  ports : List Nat      -- the 32 port entries
  deriving DecidableEq, Repr

/-- An entry of the position table (R237 section 1). -/
structure PosEntry where
  pos : Nat
  replica : Nat
  stage : Nat
  rank : Nat
  spare : Bool
  buddy : Nat
  shared : Bool
  master : Bool
  parentPort : Nat
  parentSub : Nat
  hops : Nat
  deriving DecidableEq, Repr

/-- What a flow context names at its receiver (R279). -/
inductive FlowTarget where
  | descriptor (d : Nat)
  | region (r : Nat)
  | combining (set : Nat)
  deriving DecidableEq, Repr

/-- A flow or multicast leg that this device sends or receives (R279, R452). -/
structure FlowCtx where
  id : Nat
  sending : Bool
  peer : Nat
  cls : Nat
  tensor : Nat
  target : FlowTarget                 -- what a receiving context names
  set : Nat                           -- a sending multicast leg's set (R286)
  port : Nat
  sub : Nat
  hops : Nat
  credits : Nat
  deriving DecidableEq, Repr

/-- A reduction region (R289): a piece of a weight-gradient tensor, as owner or as contributor. -/
structure Region where
  tensor : Nat
  layer : Nat
  owner : Nat         -- replica number of the owner
  blocks : Nat
  acc : Nat           -- address of the accumulator area at the owner
  grad : Nat          -- address of the retained local gradient, one W42 container per element
  flow : Nat          -- sending flow to the owner
  down : List (Nat × Nat)  -- at the owner: contributor and the sending flow of its SCALE_DOWN packets
  scales : Nat        -- address of the contributor's scale table, one byte s + 127 per block (R297)
  deriving DecidableEq, Repr

/-- An owned piece of a stored weight tensor (R196, R289) with its places in memory. -/
structure Piece where
  tensor : Nat
  layer : Nat
  opt : Nat
  fmt : Nat
  texp : Nat
  first : Nat         -- index of the piece's first element in the tensor
  elems : Nat
  cur : Nat
  curScale : Nat
  other : Nat
  otherScale : Nat
  m1 : Nat
  m1Scale : Nat
  m1Fmt : Nat
  m1Tensor : Nat
  m2 : Nat
  m2Scale : Nat
  m2Fmt : Nat
  m2Tensor : Nat
  region : Nat        -- the region of its gradient
  deriving DecidableEq, Repr

/-- A conversion of a weight, or of a shard of one, into its array format (R200): the extents of the part, innermost first,
its block axis, the format of the stored copy, and whether a product of the forward pass, or of the backward pass, streams
the weight (R134). -/
structure Conv where
  tensor : Nat
  layer : Nat
  fmt : Nat
  texp : Nat
  dims : List Nat
  baxis : Nat
  srcFmt : Nat
  fwdStream : Bool
  bwdStream : Bool
  src : Nat
  srcScale : Nat
  book : Nat
  dst : Nat
  dstScale : Nat
  res : Nat           -- 0 where no product needs a residual
  resScale : Nat
  deriving DecidableEq, Repr

/-- A 128-column group of a TC4 layer (R201): the extents and the block axis of the stored part, where it lies, and the group's
codebook. -/
structure BookGroup where
  layer : Nat
  group : Nat
  fmt : Nat
  dims : List Nat
  baxis : Nat
  src : Nat
  book : Nat
  deriving DecidableEq, Repr

/-- The core programs' entries (R160, R173): a thread that START sets running. -/
structure ThreadEntry where
  core : Nat
  thread : Nat
  pc : Nat
  custom : Option Nat     -- custom program index
  ordinal : Nat
  layer : Nat             -- the layer whose rungs s1 to s3 hold, 0xFFFF for none
  drop : Option (Nat × Nat)  -- layer and sequence slot of the thread's dropout mask (R110, R112)
  lo : Nat
  hi : Nat
  kFirst : Nat
  kLast : Nat
  deriving DecidableEq, Repr

/-- A planned gap of a core's arrays: slot, core, cycles, DENSITY. -/
structure PlanGap where
  slot : Nat
  core : Nat
  cycles : Nat
  density : Nat
  deriving DecidableEq, Repr

/-- The plan that the device holds (R223, R233, R237). -/
structure Plan where
  fromStep : Nat
  inputRec : List Byte
  inputDigest : List Byte
  planDigest : List Byte
  deviceDigest : List Byte
  system : List Byte
  device : List Byte
  t : Nat
  p : Nat
  r : Nat
  r0 : Nat
  pos : Nat
  positions : List PosEntry
  stages : List (Nat × Nat)
  cPlan : Nat
  allow : Nat
  period : Nat
  easyLimit : Nat
  nfSkip : Bool
  c : Nat
  q : Nat
  u : Nat
  d : Nat
  x : Nat
  e : Nat
  window : Nat
  admissible : List (Nat × Nat)
  tensors : List TensorDesc
  slots : List (List Byte)
  costs : List (List Byte)
  events : List (Nat × Nat × Nat)
  flows : List FlowCtx
  regions : List Region
  pieces : List Piece
  convs : List Conv
  books : List BookGroup
  threads : List ThreadEntry
  mbPerStep : Nat
  seqPerStep : Nat
  combiners : List Nat               -- positions of the combining devices (R299)
  gaps : List PlanGap                -- planned gaps with DENSITY (R230)
  homes : List (Nat × List (Nat × Nat × Nat × Nat)) -- by position: tensor, which copy (2 scale tables), address, bytes (R235)
  images : List (Nat × Nat)          -- position and BYTES_k of its image (R314)
  copies : List (Nat × Nat × Nat)    -- the two homes of each stored weight plane, and its bytes (R309)
  tokens : List (Nat × Nat)          -- token inputs: tensor and base of its homes (R183)
  classes : List (Nat × Nat × Nat)   -- plan data (1), state (2) beside the tensors, all (3): base, bytes (R254)
  code : List (Nat × Nat × Nat)      -- custom code: place, offset in the package, bytes (R185)
  coreRegs : List (Nat × Nat)        -- core set-up registers that the plan writes: BAR0 offset, value (R160)
  deriving DecidableEq, Repr

/-- A failure-path input in force (R450 item 9). -/
structure FailInput where
  kind : Nat
  pos : Nat
  part : Nat
  arg : Nat
  deriving DecidableEq, Repr

/-! ### Host interface (R336 to R345) -/

/-- A ring pair's state beyond its registers (R337 to R341). -/
structure RingSt where
  sqHead : Nat := 0
  sqTail : Nat := 0
  rqTail : Nat := 0
  rqHead : Nat := 0
  phase : Bool := true
  fetchErr : Bool := false
  queued : List (List Byte) := []     -- replies kept while the reply ring is full
  fetched : List (List Byte) := []    -- entries read and not yet completed, oldest first
  accepted : Bool := false            -- the front entry is accepted and awaits its reply
  deriving DecidableEq, Repr

/-- A run-wide PLAN that waits for the boundary (R344). -/
structure PlanReq where
  ring : Nat
  pins : List (Nat × Nat × Nat)
  regs : List (Nat × Word)            -- the registers captured by the command, by BAR0 offset
  deriving DecidableEq, Repr

/-! ### Cores (R154 to R176) -/

/-- A thread (R159, R176). -/
structure Thread where
  s : List (Nat × Nat) := []          -- s1-s31, 64 bits; s0 reads 0
  a : List (Nat × Nat) := []          -- a0-a15, 32 bits
  pc : Nat := 0
  state : ThrState := .stopped
  wait : ThrWait := .none
  cause : Nat := 0
  faultPc : Nat := 0
  outstanding : Nat := 0              -- asynchronous instructions not yet completed
  prog : Option Nat := none           -- custom program index
  measured : Nat := 0                 -- cycle at which the measured run of R175 began
  deriving DecidableEq, Repr

/-- A TILE in an array's queue (R162, R74): its instruction word and the descriptors that its a-registers named. -/
structure TileOp where
  thread : Nat
  w : Nat
  feed : Nat
  out : Nat
  filled : Bool
  started : Bool
  grp : Nat                           -- number of its TILE group
  bad : Bool                          -- an operand element was not finite (R141)
  poison : Bool
  texp : Int                          -- exponent of the stationary operand's tensor, INT formats (R44)
  real : Nat                          -- rows of the tile that are not padding (R50, R103)
  rows : List (List Nat)              -- LAST and SINGLE: the finished rows, W42 codes, until they are drained
  deriving DecidableEq, Repr

/-- An entry of an array's queue (R169). -/
inductive ArrOp where
  | tile (t : TileOp)
  | tbl (thread w : Nat)
  | idle (thread w : Nat) (begun : Bool)
  deriving DecidableEq, Repr

/-- A stationary set's fields in one cell (R63): one digit of an element and the cell's share of its exponent. -/
structure Cell where
  sign : Bool := false
  digit : Nat := 0
  exp : Nat := 0
  zero : Bool := true
  deriving DecidableEq, Repr

/-- A stationary set (R63, R70, R76, R88, R103): its cells by physical row * 130 + physical column, an unlisted cell with the
Zero bit alone; the element format, the rows that are not padding, the block scales at the column feet. -/
structure StatSet where
  fmt : Nat := 0
  real : Nat := 0
  cells : List (Nat × Cell) := []
  scales : List Nat := []
  texp : Int := 0
  poisoned : Bool := false
  deriving DecidableEq, Repr

/-- Why an array streams no TILE (R79, R90 to R92). -/
inductive Gap where
  | none
  | planned       -- an IDLE
  | group         -- no TILE in the group that streams
  | unplanned
  deriving DecidableEq, Repr

/-- An array (R63, R67, R86, R90 to R92, R97). -/
structure ArrSt where
  queue : List ArrOp := []
  live : StatSet := {}
  shadow : StatSet := {}
  full : Bool := false                -- the shadow set holds a TILE that has not started
  bank : List (Nat × Nat) := []       -- row * 128 + column to W42 code; unlisted is +0
  table : List (Nat × Byte) := []     -- table memory, slot * 32 + byte
  streaming : Bool := false
  skip : Bool := false
  width : Nat := 0                    -- c of the composition (R84); 0 before the first fill
  frac : Nat := 0                     -- present toggle fraction in sixteenths (R91)
  ramp : Int := 0                     -- +1 ramping up, -1 ramping down, 0 none
  ballast : Bool := false
  gap : Gap := .none                  -- the gap that runs
  gapFrom : Nat := 0                  -- cycle at which it began
  density : Nat := 0                  -- DENSITY as the gap began (R97)
  bad : Bool := false                 -- an operand of the bank's running sums was not finite (R141)
  poison : Bool := false              -- an operand of the bank's running sums was poison
  deriving DecidableEq, Repr

/-- A queued vector or exact-unit instruction with what issue read (R159, R163). -/
structure UnitOp where
  thread : Nat
  w : Nat
  addrA : Nat
  addrB : Nat
  addrD : Nat
  s28 : Nat
  s29 : Nat
  rngKey : List Byte
  rngCtr : Nat
  texpA : Int                         -- exponents of the operands' tensors, INT8 (R44)
  texpB : Int
  agree : Option (Nat × Nat)          -- tensor and instance tag of a sampled comparison (R148, R149)
  loss : Nat × Nat                    -- XENT: micro-batch and first token (R204)
  deriving DecidableEq, Repr

/-- A queued stream instruction with what issue read (R166). -/
structure StrOp where
  thread : Nat
  w : Nat
  addr : Nat                          -- REARM: the image's scratch offset; TRACE: the payload
  pc : Nat
  missed : Bool                       -- its descriptor missed the cache and is being read (R255)
  deriving DecidableEq, Repr

/-- What the converters of a core have found for an instance tag since its last OVFX (R141, R172). -/
structure OvfSt where
  nonfinite : Bool := false           -- an output counted a non-finite element
  operand : Bool := false             -- an operand element was not finite
  sats : List (Nat × Nat) := []       -- saturations of each converter's non-MX outputs
  ovr : Bool := false                -- one of them passed the saturation tolerance
  again : Bool := false               -- the instance is repeating (R142)
  xents : Nat := 0                    -- XENTs that the instance has issued (R204)
  deriving DecidableEq, Repr

/-- A core. -/
structure CoreSt where
  cycle : Nat := 0                    -- cycle of the last issue slot used (R157)
  start : Nat := 0                    -- the device's core cycles when its CORE domain last left reset (R157)
  k : List (Nat × Nat) := []          -- completion counters, 32 bits
  threads : List (Nat × Thread) := []
  arrays : List (Nat × ArrSt) := []
  vec : List UnitOp := []
  xu : List UnitOp := []
  str : List StrOp := []
  digits : Nat := 0                   -- d of the composition (R84)
  fence : Bool := false
  mPrime : Nat := 0                   -- position m' in the feed run (R80)
  ovf : List (Nat × OvfSt) := []      -- per instance tag (R172)
  grpNo : Nat := 0                    -- TILE groups closed so far
  prevStream : Nat := 0               -- cycles the last group streamed after its last residual fill, 0 at a run's start (R83)
  prevFeed : Nat := 0                 -- its feed total in bytes a cycle (R81)
  fault : Bool := false
  poison : Bool := false
  deriving DecidableEq, Repr

/-! ### Memory and streams -/

/-- An LPDDR5X controller (R243, R246, R248, R266). Buffered blocks are block numbers, most recently written first. -/
structure ChSt where
  trained : Bool := false
  init : Bool := false
  selfRefresh : Bool := false
  hot : Bool := false
  scrubbing : Bool := false
  refreshes : Nat := 0
  buffers : List (Nat × List Nat) := []
  deriving DecidableEq, Repr

/-- A hold controller (R242, R266). -/
structure PartSt where
  init : Bool := false
  scrubbing : Bool := false
  deriving DecidableEq, Repr

/-- The issuer of a RUN (R158, R261): the core, its thread and the completion count it asked for. -/
structure Issuer where
  core : Nat
  thread : Nat
  pc : Nat
  cntEn : Bool
  cnt : Nat
  deriving DecidableEq, Repr

/-- An active pass of a stream descriptor (R258): transfers done, and its issuer. -/
structure PassSt where
  issuer : Option Issuer
  gen : Nat
  done : Nat                          -- bytes moved so far
  total : Nat
  poisoned : Bool
  legs : List (Nat × Nat × Bool)      -- flow or multicast legs: flow, bytes sent, END_ACK received (R280, R286)
  deriving DecidableEq, Repr

/-- What the engine holds of a descriptor beyond its table entry (R255, R263). -/
structure DescSt where
  gen : Nat := 0
  pass : Option PassSt := none
  waiting : List Issuer := []         -- RUNs queued behind the active pass
  shadow : Option (List Byte) := none
  cached : Bool := false
  lastUse : Nat := 0
  inDone : Nat := 0                   -- bytes written as the destination of a flow (R280)
  deriving DecidableEq, Repr

/-! ### Links -/

/-- A port or sub-port (R268 to R275, R302). -/
structure SubPort where
  up : Bool := false
  training : Bool := false
  lanes : Nat := 0
  latency : Nat := 0
  peerPos : Nat := 0
  peerPort : Nat := 0
  peerSub : Nat := 0
  peerSerial : Nat := 0
  peerValid : Bool := false
  txSeq : Nat := 0                    -- SEQ of the next frame
  rxSeq : Nat := 0                    -- SEQ of the next frame expected
  nakSent : Bool := false
  retry : List (Nat × List Byte) := []  -- the last 256 frames sent, newest first
  failRun : Nat := 0                  -- failures of one frame in a row
  stream : List Byte := []            -- packet stream still to be sent
  hop : List (Nat × Nat) := []        -- hop credits, class * 32 + hop class, in 256-byte units
  corrected : Nat := 0
  deriving DecidableEq, Repr

/-- A port (R268, R275). -/
structure PortSt where
  sub0 : SubPort := {}
  sub1 : SubPort := {}
  spared : Bool := false
  failedLanes : Nat := 0
  dropPending : Option (Nat × Nat) := none
  replays : Nat := 0                  -- replays in this stroke
  laneSyms : List (Nat × Nat) := []   -- corrected symbols per lane in this stroke
  catchMissed : Nat := 0              -- longest run of strokes without a CATCH (R283)
  catchSeen : Bool := false
  markers : Nat := 0                  -- markers received from a port that is not the parent's (R212)
  behind : Bool := false
  lost : Bool := false                -- declared lost (R323)
  deriving DecidableEq, Repr

/-- A control reduction in progress (R284): operation, operands so far, children still awaited. -/
structure CtlRed where
  op : Nat                            -- 0 OR, 1 AND, 2 MAX, 3 SUM
  acc : Nat
  own : Bool
  heard : List Nat                    -- positions of the children that have sent
  since : Nat                         -- stroke at which this device gave its operand
  sent : Bool
  stalled : Bool
  deriving DecidableEq, Repr

/-- A reduction region's bitmaps at its owner (R289). -/
structure RegionSt where
  present : List Nat := []
  nonfinite : List Nat := []
  deriving DecidableEq, Repr

/-- A combining register set (R300): the exact sum in units of 2^-544 and its marks. -/
structure SumReg where
  total : Int := 0
  parts : Nat := 0
  allNegZero : Bool := true
  nan : Bool := false
  posInf : Bool := false
  negInf : Bool := false
  deriving DecidableEq, Repr

/-- A device's part of the boundary exchange beyond its records and norms (R31, R33, R203, R204, R306, R307, R321, R344), or the
parts of all devices combined. -/
structure DevRec where
  loss     : Nat := 0                 -- W42 code of the loss sum (R204)
  tokens   : Nat := 0
  refused  : Nat := 0
  risk     : Nat := 0
  riskAt   : List Nat := []           -- positions at that level, at most six
  secure   : Bool := false
  pause    : Bool := false
  pauseEnd : Bool := false
  planHeld : Bool := true
  hostLost : Bool := false
  repeated : Bool := false
  imageBad : Bool := false            -- an image that the device should keep is absent or invalid (R327)
  noCopy   : Bool := false            -- the device has no complete host copy of the last stop (R327)
  paths    : List FailPath := []      -- failures that the device has detected (R318)
  deriving DecidableEq, Repr

/-- A value that travels to a combining device and comes back combined (R299, R300): a statistics record, the three sums of R129 of
a layer, or the device's part of the boundary exchange. -/
inductive SumVal where
  | stat (r : StatRec)
  | norm (weight grad update : Nat)
  | dev (d : DevRec)
  deriving DecidableEq, Repr

/-! ### Power, management, logs -/

/-- An AVS rail (R370, R371). -/
structure RailAvs where
  target : Nat := 0
  band : Nat := 0
  acked : Nat := 0
  requested : Nat := 0
  pending : Bool := false
  retries : Nat := 0
  fault : Bool := false
  upFault : Bool := false             -- the failed request was an increase
  deriving DecidableEq, Repr

/-- A thermal sensor (R412, R413). Readings in quarters of a degree. -/
structure SensorSt where
  reading : Int := 0
  valid : Bool := false
  fail : Bool := false
  still : Nat := 0                    -- samples since the reading last changed
  base : Int := 0                     -- the neighbour's reading when it last changed
  deriving DecidableEq, Repr

/-- A polled regulator (R414, R421). -/
structure RailTel where
  vout : Nat := 0
  iout : Nat := 0
  missed : Nat := 0
  failed : Bool := false
  deriving DecidableEq, Repr

/-- An event-log entry (R406) as its fields. -/
structure LogEntry where
  seq : Nat
  typ : Nat
  pos : Nat
  step : Nat
  stroke : Nat
  uptime : Nat
  args : List Byte
  deriving DecidableEq, Repr

/-- A trace session (R392). -/
structure TraceSession where
  mode : Nat
  cap : Nat
  types : Nat
  dest : Nat
  bytes : Nat
  cores : Nat
  drained : Nat
  dropped : Nat
  last : Nat                          -- last core served
  deriving DecidableEq, Repr

/-- A core's trace buffer (R389, R393). -/
structure TraceBuf where
  recs : List (List Byte) := []       -- oldest first
  seq : Nat := 0
  lost : Nat := 0                     -- records dropped since its last record
  deriving DecidableEq, Repr

/-- A TRACE_CTL that waits until every buffered record is drained (R392). -/
structure TraceWait where
  ring : Nat
  next : Option TraceSession
  deriving DecidableEq, Repr

/-- A pending snapshot with AT set (R387). -/
structure SnapReq where
  ring : Nat
  clear : Nat
  stroke : Nat
  deriving DecidableEq, Repr

/-- A decision-journal entry (R311). -/
structure JournalEntry where
  kind : Nat
  step : Nat
  stroke : Nat
  pos : Nat
  arg : Nat
  deriving DecidableEq, Repr

/-- A secured image that this device keeps, or its own at the buddy (R308), by its checks and the state it restores. -/
structure ImageInfo where
  step : Nat
  bytes : Nat
  loss : Word
  tokens : Word
  wdigest : Nat
  valid : Bool
  deriving DecidableEq, Repr

/-- What the device has sent to the world outside it. -/
inductive Output where
  | hostWrite (addr : Nat) (bytes : List Byte)
  | hostPoison (addr : Nat) (bytes : List Byte)   -- a poisoned write to host memory (R250)
  | hostRead (addr n : Nat)          -- the data comes with a later command
  | frame (port sub : Nat) (bytes : List Byte)
  | packet (port sub : Nat) (hdr : Nat) (body : List Byte)
  | identity (port : Nat)
  | laneDropFrame (port lane seq : Nat)
  | barRead (bytes : List Byte) (poisoned unsupported : Bool)
  | aer (code : Nat)                 -- 1 ring fetch, 2 doorbell to a disabled pair, 3 BAR4 unsupported, 4 poisoned TLP
  | avs (rail mv : Nat)
  | pmbusPoll (rail : Nat)
  | thermTripN (asserted : Bool)
  | strokeOut
  | spdm (mctp : Bool) (code : Nat) (body : List Byte)
  | mctp (body : List Byte)
  | tdo (bits : List Bool)
  | pins (bits : List Bool)
  | poisonedCompletion (reason addr : Nat)
  | declaration (port sub kind pos by_ : Nat)  -- 0 port lost, 1 receiver failed, 2 straggler
  deriving DecidableEq, Repr

end Sys2Proof.Machine
end

