-- ==== Sys2Proof/Machine/Package.lean ====
section
/-! DEFINITION. Graph packages (R177 to R186): reading the image into records, and the checks of LOAD_PACKAGE in the
order of R178 with those of R17, R40, R41, R52, R132 and R134. -/

namespace Sys2Proof.Machine

open Sys2Proof

def noTensor : Nat := 0xFFFFFFFF

/-! ### Header (R177, R178 order 2) -/

/-- Sections of the header: offset field, count and size of one record. -/
def pkgSections (d : List Byte) : List (Nat × Nat × Nat) :=
  [(leAt d 0x20 8, leAt d 0x10 4, 128), (leAt d 0x28 8, leAt d 0x14 4, 64), (leAt d 0x30 8, leAt d 0x18 2, 64),
   (leAt d 0x38 8, leAt d 0x1A 2, 16), (leAt d 0x40 8, leAt d 0x1C 1, 128), (leAt d 0x48 8, 0, 0)]

/-- Order 2: MAGIC, VERSION, BYTES, every count and offset in range, every zero byte zero. -/
def headerOk (d : List Byte) (bytes : Nat) : Bool :=
  let inR := fun (v lo hi : Nat) => decide (lo ≤ v) && decide (v ≤ hi)
  leAt d 0 4 == 0x47325446 && leAt d 4 2 == 1 && leAt d 8 8 == bytes && decide (256 ≤ bytes) && decide (bytes ≤ 2 ^ 32) &&
  inR (leAt d 0x10 4) 1 16384 && inR (leAt d 0x14 4) 1 262144 && inR (leAt d 0x18 2) 0 256 &&
  inR (leAt d 0x1C 1) 1 16 && inR (leAt d 0x50 4) 128 65536 && leAt d 0x50 4 % 128 == 0 &&
  inR (leAt d 0x54 2) 1 4096 && inR (leAt d 0x56 2) 1 2048 &&
  (pkgSections d).all (fun (o, n, k) => o % 64 == 0 && decide (o + n * k ≤ bytes)) &&
  zeroAt d 0x06 2 && zeroAt d 0x1D 3 && zeroAt d 0x5E 98 && zeroAt d 0xF0 16

/-- The package digest: SHA-384 with the DIGEST field zero (R177). -/
def pkgDigest (d : List Byte) : List Byte := sha384 (d.take 0xC0 ++ List.replicate 48 0 ++ d.drop 0xF0)

/-! ### Records -/

def readLadder (d : List Byte) (o : Nat) : Ladder :=
  { rungs := (List.range 8).map fun i => leAt d (o + i) 1, floor := leAt d (o + 8) 1, start := leAt d (o + 9) 1,
    ceil := leAt d (o + 10) 1 }

def readLayer (d : List Byte) (o : Nat) : LayerDesc :=
  { op := leAt d o 1, flags := leAt d (o + 1) 1, stat := leAt d (o + 2) 1, opt := leAt d (o + 3) 1,
    in0 := leAt d (o + 4) 4, in1 := leAt d (o + 8) 4, wgt := leAt d (o + 0xC) 4, out := leAt d (o + 0x10) 4,
    m1 := leAt d (o + 0x14) 4, m2 := leAt d (o + 0x18) 4, satTol := leAt d (o + 0x1C) 4, dropP := leAt d (o + 0x20) 2,
    cbPeriod := leAt d (o + 0x22) 2, prog := leAt d (o + 0x24) 4, ladW := readLadder d (o + 0x28),
    ladA := readLadder d (o + 0x34), ladG := readLadder d (o + 0x40), hint := leAt d (o + 0x4C) 4,
    params := slice d (o + 0x50) 32 }

def readTensor (d : List Byte) (o : Nat) : TensorDesc :=
  { fmt := leAt d o 1, kind := leAt d (o + 1) 1, rank := leAt d (o + 2) 1, baxis := leAt d (o + 3) 1,
    texp := leAt d (o + 4) 1, flags := leAt d (o + 5) 1, steerLayer := leAt d (o + 6) 2, steerRole := leAt d (o + 8) 1,
    paired := leAt d (o + 0xC) 4, dims := (List.range 4).map fun i => leAt d (o + 0x10 + 4 * i) 4,
    initAt := leAt d (o + 0x20) 8, plane0 := leAt d (o + 0x28) 8, plane1 := leAt d (o + 0x30) 8,
    hint := leAt d (o + 0x38) 4 }

def readOpt (d : List Byte) (o : Nat) : OptEntry :=
  let w := fun k => BitVec.ofNat 32 (leAt d (o + k) 4)
  { algo := leAt d o 1, clipEn := leAt d (o + 1) 1 % 2 == 1, beta1 := w 4, beta2 := w 8, eps := w 0xC, wd := w 0x10,
    clip := w 0x14, knots := (List.range (leAt d (o + 0x18) 1)).map fun i => (leAt d (o + 0x20 + 8 * i) 4, w (0x24 + 8 * i)) }

def readProg (d : List Byte) (o : Nat) : ProgHdr :=
  { id := leAt d o 4, nInstr := leAt d (o + 4) 4, codeOff := leAt d (o + 8) 8, w := leAt d (o + 0x10) 8,
    threads := leAt d (o + 0x18) 1, flags := leAt d (o + 0x19) 1, counters := leAt d (o + 0x1A) 2,
    scratch := leAt d (o + 0x1C) 4, bankRows := leAt d (o + 0x20) 2,
    tens := (List.range (leAt d (o + 0x22) 2)).map fun i => leAt d (leAt d (o + 0x28) 8 + 4 * i) 4 }

def readHint (d : List Byte) (o : Nat) : HintRec :=
  { kind := leAt d o 1, carried := leAt d (o + 1) 1, value := leAt d (o + 8) 8 }

/-- The offsets of the records of a section. -/
def recordsAt (o n k : Nat) : List Nat := (List.range n).map fun i => o + k * i

def parsePkg (d : List Byte) (bytes : Nat) : Pkg :=
  { bytes := bytes, digest := slice d 0xC0 48,
    layers := (recordsAt (leAt d 0x20 8) (leAt d 0x10 4) 128).map (readLayer d),
    tensors := (recordsAt (leAt d 0x28 8) (leAt d 0x14 4) 64).map (readTensor d),
    progs := (recordsAt (leAt d 0x30 8) (leAt d 0x18 2) 64).map (readProg d),
    hints := (recordsAt (leAt d 0x38 8) (leAt d 0x1A 2) 16).map (readHint d),
    opts := (recordsAt (leAt d 0x40 8) (leAt d 0x1C 1) 128).map (readOpt d),
    initOff := leAt d 0x48 8, mbTokens := leAt d 0x50 4, mbPerStep := leAt d 0x54 2, seqPerStep := leAt d 0x56 2,
    parTp := leAt d 0x58 2, parPp := leAt d 0x5A 2, parDp := leAt d 0x5C 2 }

/-! ### Check 4 -/

/-- FP32 finite and not negative (R184). -/
def optFloatOk (w : Word) : Bool := vFinite (dec32 w) && !w.msb

/-- Two numbers in strict order all along. -/
def risingNat : List Nat → Bool
  | a :: b :: t => decide (a < b) && risingNat (b :: t)
  | _ => true

def optOk (d : List Byte) (o : Nat) : Bool :=
  let e := readOpt d o
  let nk := leAt d (o + 0x18) 1
  decide (e.algo ≤ 2) && leAt d (o + 1) 1 / 2 == 0 && zeroAt d (o + 2) 2 && zeroAt d (o + 0x19) 7 &&
  zeroAt d (o + 0x60) 32 && decide (1 ≤ nk) && decide (nk ≤ 8) &&
  [e.beta1, e.beta2, e.eps, e.wd, e.clip].all optFloatOk && lt32 e.beta1 one32 && lt32 e.beta2 one32 &&
  e.knots.all (fun k => optFloatOk k.2) && risingNat (e.knots.map (·.1))

def progOk (d : List Byte) (bytes nTensors o : Nat) : Bool :=
  let p := readProg d o
  decide (1 ≤ p.nInstr) && decide (p.nInstr ≤ 65536) && p.codeOff % 16 == 0 &&
  decide (p.codeOff + 16 * p.nInstr ≤ bytes) && decide (1 ≤ p.threads) && decide (p.threads ≤ 32) && p.flags / 2 == 0 &&
  decide (1 ≤ p.counters) && decide (p.counters ≤ 256) && decide (p.scratch + 16 * p.nInstr ≤ 2 ^ 20) &&
  decide (p.bankRows ≤ 512) && decide (leAt d (o + 0x28) 8 + 4 * leAt d (o + 0x22) 2 ≤ bytes) &&
  p.tens.all (fun t => decide (t < nTensors)) && zeroAt d (o + 0x24) 4 && zeroAt d (o + 0x30) 16

def hintOk (d : List Byte) (o : Nat) : Bool :=
  let h := readHint d o
  let k := if h.kind = 4 then h.carried else h.kind
  decide (1 ≤ k) && decide (k ≤ 3) && decide (h.kind ≤ 4) && (h.kind == 4 || h.carried == 0) && zeroAt d (o + 2) 6 &&
  (k != 1 || decide (h.value ≤ 2))

/-- The kinds of a hint list after its first record: every following continuation (R186). -/
def hintTail : List HintRec → List HintRec
  | [] => []
  | h :: t => if h.kind = 4 then { h with kind := h.carried } :: hintTail t else []

/-- The hint list that a HINT field names; kinds as carried. -/
def hintList (hs : List HintRec) (first : Nat) : List HintRec :=
  if first = noTensor then [] else match hs.drop first with
    | [] => []
    | h :: t => h :: hintTail t

/-- R186: the list starts in range with a record that is no continuation, does not run past the last record (DEDUCED, log entry 50:
a list ends at the last record at the latest), its kinds apply, and none comes twice. -/
def hintListOk (hs : List HintRec) (kinds : List Nat) (first : Nat) : Bool :=
  let l := (hintList hs first).map (·.kind)
  first == noTensor || (decide (first < hs.length) && decide (first + l.length ≤ hs.length) && l.all kinds.contains && decide l.Nodup)

/-- Bytes of the element or index plane of a tensor (R49): MX blocks and TC4 pack along the block axis. -/
def planeBytes (t : TensorDesc) : Nat :=
  let n := t.dims.foldl (· * ·) 1
  match fmtOfCode t.fmt with
  | some f =>
    let ax := t.dims.getD t.baxis 1
    if isMx f then n / max 1 ax * ceilDiv ax 32 * (4 * fmtWidth f)
    else ceilDiv (n * fmtWidth f) 8
  | none => 4 * n
/-- Bytes of the scale or codebook plane (R49, R52); the columns of a TC4 weight are its rows along the block axis. -/
def scaleBytes (t : TensorDesc) : Nat :=
  let n := t.dims.foldl (· * ·) 1
  let ax := t.dims.getD t.baxis 1
  match fmtOfCode t.fmt with
  | some .tc4 => ceilDiv (n / max 1 ax) 128 * 32
  | some f => if isMx f then n / max 1 ax * ceilDiv ax 32 else 0
  | none => 0

/-- No codebook entry of the initial contents is infinite or NaN (R52). The codebook plane lies right behind the index plane there
(DESIGN CHOICE, log entry 131: R182 gives one INIT_AT). -/
def booksOk (d : List Byte) (initOff : Nat) (t : TensorDesc) : Bool :=
  t.fmt != 0xE || t.flags % 2 == 0 ||
    (List.range (scaleBytes t / 2)).all fun i =>
      vFinite (decFloat fmtBF16 (leAt d (initOff + t.initAt + planeBytes t + 2 * i) 2))

/-- A tensor descriptor meets R182, R183, R17, R40, R41 and R52. A format outside the Permitted uses of R39 is accepted, where R40 or
R41 does not refuse it (DESIGN CHOICE, log entry 132: the column names uses and no refusal). -/
def tensorOk (d : List Byte) (bytes nLayers nTensors mbTokens initOff : Nat) (hs : List HintRec) (o : Nat) : Bool :=
  let t := readTensor d o
  let f := fmtOfCode t.fmt
  let blocked : Bool := match f with | some g => isMx g || g == .tc4 | none => false
  let int := t.fmt == 0xC || t.fmt == 0xD
  decide (t.kind ≤ 6) && decide (1 ≤ t.rank) && decide (t.rank ≤ 4) &&
  (if t.kind = 5 then t.fmt == 0 && t.rank == 1 else f.isSome && t.fmt != 1) &&
  (if blocked then decide (t.baxis < t.rank) else t.baxis == 0xFF) && (t.texp == 0 || int) && decide (t.flags ≤ 1) &&
  (t.fmt != 0xE || t.kind == 2) && ((t.steerLayer == 0xFFFF) == (t.steerRole == 0xFF)) &&
  (t.steerLayer == 0xFFFF || decide (t.steerLayer < nLayers)) && (t.steerRole == 0xFF || decide (t.steerRole ≤ 2)) &&
  (if t.kind = 1 ∨ t.kind = 3 then decide (t.paired < nTensors) else t.paired == noTensor) &&
  t.dims.all (fun x => decide (1 ≤ x)) && (t.dims.drop t.rank).all (· == 1) &&
  (!(t.kind == 0 || t.kind == 1 || t.kind == 5) || t.dims.getD (t.rank - 1) 0 == mbTokens) &&
  t.plane0 == 0 && t.plane1 == 0 && zeroAt d (o + 9) 3 && zeroAt d (o + 0x3C) 4 && hintListOk hs [1] t.hint &&
  (if t.flags % 2 = 1 then decide (initOff + t.initAt + planeBytes t + scaleBytes t ≤ bytes) else t.initAt == 0) &&
  booksOk d initOff t

def rungFmt (b : Nat) : Nat := b % 16
def rungPasses (b : Nat) : Nat := bitsN b 4 2
def usedRungs (l : Ladder) : List Nat := l.rungs.filter fun b => rungPasses b != 0

/-- No used entry follows an unused one. -/
def rungsPacked : List Nat → Bool
  | [] => true
  | b :: t => (rungPasses b != 0 || t.all fun x => rungPasses x == 0) && rungsPacked t

/-- The checks of R132 on the ladder of role `r` (0 W, 1 A, 2 G). -/
def ladderOk (r : Nat) (l : Ladder) : Bool :=
  rungsPacked l.rungs &&
  l.rungs.all (fun b => if rungPasses b = 0 then b == 0 else
    b / 64 == 0 && rungFmt b != 0 && rungFmt b != 0xF && rungFmt b != 1 && (rungFmt b != 0xE || r == 0) &&
    (rungFmt b != 0xE || rungPasses b != 3)) &&
  decide (1 ≤ l.floor) && decide (l.floor ≤ l.start) && decide (l.start ≤ l.ceil) && decide (l.ceil ≤ (usedRungs l).length)

def ladderZero (l : Ladder) : Bool := l.rungs.all (· == 0) && l.floor == 0 && l.start == 0 && l.ceil == 0

def layerLadder (y : LayerDesc) (r : Nat) : Ladder := if r = 0 then y.ladW else if r = 1 then y.ladA else y.ladG
def isSensitive (y : LayerDesc) : Bool := y.flags % 2 == 1

/-- The roles that a layer steers (R132, R181). -/
def steered (y : LayerDesc) (r : Nat) : Bool :=
  !isSensitive y && (if y.op = 1 then decide (r ≤ 2) else if y.op = 2 then r == 1 || r == 2
    else if y.op = 0x80 then !ladderZero (layerLadder y r) else false)

/-- Bytes of PARAMS that an operator uses (R181); none for a reserved code. -/
def paramBytes (op : Nat) : Option Nat :=
  match op with
  | 1 => some 0 | 2 => some 5 | 3 => some 4 | 4 => some 1 | 5 => some 2 | 6 => some 0 | 7 => some 0 | 8 => some 3
  | 9 => some 0 | 0x80 => some 32 | _ => none

/-- A tensor field of a layer names a TC4 tensor, or a tensor of a kind. -/
def isTc4 (ts : List TensorDesc) (i : Nat) : Bool := match ts[i]? with | some t => t.fmt == 0xE | none => false
def isKind (ts : List TensorDesc) (k i : Nat) : Bool := match ts[i]? with | some t => t.kind == k | none => false

/-- TC4 is never streamed and never runs three passes (R41, R52, R134): as the weight it is stationary in both products that use it;
as an input it would be streamed, but for the IN0 of a LINEAR layer that holds it stationary in both of its products. -/
def tc4Ok (ts : List TensorDesc) (y : LayerDesc) : Bool :=
  let w := (usedRungs y.ladW).any (fun b => rungFmt b == 0xE) || isTc4 ts y.wgt
  let x := isTc4 ts y.in0
  (!w || (bitsN y.stat 0 2 != 2 && bitsN y.stat 2 2 != 2)) &&
  (!x || (y.op == 1 && !isSensitive y && bitsN y.stat 0 2 == 2 && bitsN y.stat 4 2 == 1)) && !isTc4 ts y.in1 &&
  (!(w || x) || (usedRungs y.ladA ++ usedRungs y.ladG).all fun b => decide (rungPasses b < 3))

/-- The tensors that R181 lists for the operator are named, and those that hold token IDs or targets are of kind 5. -/
def operandsOk (ts : List TensorDesc) (y : LayerDesc) : Bool :=
  match y.op with
  | 1 | 3 | 8 => y.in0 != noTensor && y.wgt != noTensor
  | 2 | 4 => y.in0 != noTensor
  | 5 | 7 => y.in0 != noTensor && y.in1 != noTensor
  | 6 => isKind ts 5 y.in0 && y.wgt != noTensor
  | 9 => y.in0 != noTensor && isKind ts 5 y.in1
  | _ => true

def layerOk (d : List Byte) (nTensors nProgs nOpt : Nat) (ts : List TensorDesc) (hs : List HintRec) (o : Nat) : Bool :=
  let y := readLayer d o
  match paramBytes y.op with
  | none => false
  | some k =>
    decide (y.flags < 32) && decide (y.stat < 64) && bitsN y.stat 0 2 != 3 && bitsN y.stat 2 2 != 3 &&
    bitsN y.stat 4 2 != 3 &&
    [y.in0, y.in1, y.wgt, y.out, y.m1, y.m2].all (fun t => t == noTensor || decide (t < nTensors)) &&
    (if y.wgt = noTensor then y.opt == 0xFF else decide (y.opt < nOpt)) &&
    (if y.op = 0x80 then decide (y.prog < nProgs) else y.prog == noTensor) &&
    (y.params.drop k).all (· == 0) && (y.op != 4 || decide (leAt y.params 0 1 ≤ 2)) &&
    (y.op != 2 || decide (leAt y.params 4 1 ≤ 1)) && operandsOk ts y && zeroAt d (o + 0x70) 16 &&
    leAt d (o + 0x33) 1 == 0 && leAt d (o + 0x3F) 1 == 0 && leAt d (o + 0x4B) 1 == 0 && hintListOk hs [2, 3] y.hint &&
    [0, 1, 2].all (fun r => if steered y r then ladderOk r (layerLadder y r) else ladderZero (layerLadder y r)) &&
    tc4Ok ts y

/-- Check 4: the tensor ID or layer index that the event log records, where a check fails: kind (0 hint, entry or
program, 1 tensor, 2 layer) and number. -/
def pkgFault (d : List Byte) (bytes : Nat) : Option (Nat × Nat) :=
  let p := parsePkg d bytes
  let nL := leAt d 0x10 4
  let nT := leAt d 0x14 4
  if (recordsAt (leAt d 0x38 8) (leAt d 0x1A 2) 16).any (fun o => !hintOk d o) ||
     (recordsAt (leAt d 0x40 8) (leAt d 0x1C 1) 128).any (fun o => !optOk d o) ||
     (recordsAt (leAt d 0x30 8) (leAt d 0x18 2) 64).any (fun o => !progOk d bytes nT o) then some (0, 0)
  else match (List.range nT).find? fun i =>
      !tensorOk d bytes nL nT p.mbTokens p.initOff p.hints (leAt d 0x28 8 + 64 * i) with
    | some i => some (1, i)
    | none => match (List.range nL).find? fun i =>
        !layerOk d nT p.progs.length p.opts.length p.tensors p.hints (leAt d 0x20 8 + 128 * i) with
      | some i => some (2, i)
      | none => none

/-- The result code of LOAD_PACKAGE's checks 2 to 4 (R178) and the package. -/
def checkPkg (d : List Byte) (bytes : Nat) : Nat × Option Pkg × Option (Nat × Nat) :=
  if !headerOk d bytes then (0x10, none, none)
  else if pkgDigest d != slice d 0xC0 48 then (0x11, none, none)
  else match pkgFault d bytes with
    | some x => (0x12, none, some x)
    | none => (0, some (parsePkg d bytes), none)

end Sys2Proof.Machine
end

