-- ==== Sys2Proof/Config.lean ====
section
/-! DEFINITION. What the manual leaves to an implementation, a planner version or a part, as constants without a body:
no proof can rest on a value of theirs. Each is named in a row of the assumption log. -/

namespace Sys2Proof.Config

open Sys2Proof Sys2Proof.Machine

/-- A free value: what the manual leaves open each time it is produced; the first argument is `State.free`, the second
the element's index within the command. -/
opaque freeValue : Nat → Nat → BitVec 64

/-- Results of the log-domain operations, which R118 bounds and does not state: operation, first and second operand, FP32. -/
opaque logDomain : Nat → Word → Word → Word

/-- The planner's comparisons (R148, R149): input record, logical position, core and program index of a W42ADD to the tensor
compared, the output tile's index in the product's plan order and its instance tag. -/
opaque agreeAt : List Byte → Nat → Nat → Nat → Option (Nat × Nat × Nat)

/-- The token of an output's first row: input record, logical position, core, instance tag and element plane to the micro-batch and
the token, none where the rows are no tokens. -/
opaque outToken : List Byte → Nat → Nat → Nat → Nat → Option (Nat × Nat)

/-- The tokens of a last-stage XENT (R204): input record, logical position, core, instance tag and how many XENTs the instance has
issued on the core to the micro-batch and its first token. -/
opaque lossAt : List Byte → Nat → Nat → Nat → Nat → Nat × Nat

/-- The operands of the planner's programs and of custom programs: input record, logical position, core, program index and operand
number to the tensor that the operand belongs to and its first element along the block axis there; the exponent of an integer
operand that belongs to no tensor of the plan. -/
opaque operand : List Byte → Nat → Nat → Nat → Nat → Nat × Nat
opaque looseTexp : Nat → Nat → Nat → Int

/-- Whether a value's log2 is rounded up to 16 fraction bits, that of a power of e too (R115); the log-addition beyond the table's
last entry (R116). -/
opaque logUp : Word → Bool
opaque expUp : Word → Bool
opaque logAddTable : Nat → Int

/-- max and min of the vector unit where an operand is NaN or both are zeros of opposite sign (R163). -/
opaque maxCorner : Word → Word → Word
opaque minCorner : Word → Word → Word

/-- The codebook index of a weight that is not finite (R52, R200). -/
opaque bookIndexNonfinite : List Byte → Word → Nat

/-- Stage 8 and the timing of the stages, by the planner version (R238, R232): of the input record and the logical position, the stage
that runs in a stroke of a replan, the stream descriptors, the built-in programs by device address with their threads and the bytes they
take in a core, the descriptor that receives a flow, and the core set-up registers written beside CORE_PROG_BASE. -/
opaque planStage : List Byte → Nat → Nat
opaque descriptors : List Byte → Nat → List (Nat × List Byte)
opaque programs : List Byte → Nat → List (Nat × List Byte)
opaque threads : List Byte → Nat → List ThreadEntry
opaque codeBytes : List Byte → Nat → Nat → Nat
opaque flowDesc : List Byte → Nat → Nat → Nat
opaque coreRegs : List Byte → Nat → List (Nat × Nat)

/-- The plan's combining devices (R299): those beside the master, and the list index of the one that combines a record. -/
opaque moreCombiners : List Byte → List Nat
opaque combiner : List Byte → Nat → Nat

/-- Instance tags of the planner's programs (R142, R172): layer, micro-batch and direction of a tag, and the threads of a position
that issue OVFX for it. -/
opaque instanceLayer : List Byte → Nat → Nat × Nat × Nat
opaque instanceThreads : List Byte → Nat → Nat → Nat

/-- The signature checks of FIPS 186-5 over a digest and of SP 800-208 over a message (R399): public key, what is signed, signature. -/
opaque ecdsaVerify : List Byte → List Byte → List Byte → Bool
opaque lmsVerify : List Byte → List Byte → List Byte → Bool

/-- The planner's bytes in a firmware image, by its version (R367, R401). -/
opaque plannerBytes : Nat → List Byte

/-- The security block (R415 to R417): the certificate chain, a signature over a transcript. -/
opaque certChain : List Byte
opaque sign : List Byte → List Byte

/-- Bodies of the MCTP, PLDM and SPDM messages whose content the named standards give. -/
opaque mctpReply : List Byte → Nat → List Byte
opaque pldmReply : Nat → List Byte → List Byte
opaque spdmCapabilities : List Byte
opaque spdmAlgorithms : List Byte → List Byte

/-- Initial hop credits of a port per traffic class and hop class (R278). -/
opaque hopCredits : Nat → Nat → Nat → Nat

/-- Boundary-scan cells as the pins read (R420). -/
opaque boundaryCells : Nat → List Bool

end Sys2Proof.Config
end

