-- ==== Sys2Proof/Machine/State.lean ====
section
/-! DEFINITION. The state of the FT-2 as plain data, its reset value (R427, R444), and the reasons a step could stop.
Registers with RW fields are in `regs`, by BAR0 offset; a register not listed holds its Reset value. Every RO and RL
field is computed from the rest of the state when it is read (R15). -/

namespace Sys2Proof.Machine

open Sys2Proof

/-- Why a step ends in a fault. The model raises none: every command has an effect (safe). -/
inductive Fault where
  /-- Raised by nothing: no command of the device stops it, and every case has an effect (safe). -/
  | impossible
  deriving DecidableEq, Repr

/-- Why a command is refused. -/
inductive Refusal where
  /-- Raised by an arm of `exec` whose command has no meaning yet; no arm raises it now (safe). -/
  | notModelled (mnemonic : String)
  deriving DecidableEq, Repr

/-- What fuses hold (R88, R370, R399, R400, R415, R431, R432). -/
structure Fuses where
  coresOff : Nat := 0x10000008000040000020000     -- physical cores 17, 42, 63, 88
  minor : Nat := 1
  major : Nat := 2
  serial : Nat := 0
  revoked : Nat := 0
  svnBits : Nat := 0
  keyHash : List Digest := [0, 0, 0, 0]
  rows : List (Nat × List Nat) := []             -- physical core * 4 + array, defective rows
  cols : List (Nat × List Nat) := []
  avs : List Nat := [750, 750, 750, 750, 750, 750] -- rail * 3 + band, millivolts
  deriving DecidableEq, Repr

/-- The xSPI flash (R397, R404, R411). -/
structure Flash where
  image : FwImage
  valid : Bool := true
  log : List LogEntry := []
  life : List (List (Nat × Nat)) := []
  lifeSlot : Nat := 0
  deriving DecidableEq, Repr

/-- Pins and supplies (R438, R444). -/
structure Pins where
  aon : Bool := true
  perst : Bool := true                           -- PERST_N asserted
  pwrgood : Bool := false
  thermTrip : Bool := false                      -- THERM_TRIP_N asserted
  fell : Bool := false                           -- SYS_PWRGOOD has fallen since VDD_AON came up
  straps : Nat := 0
  smbAddr : Nat := 0x60
  deriving DecidableEq, Repr

/-- Boot (R401 to R403). `waiting`: the ROM has done steps 1 to 4 and waits at step 5 for SYS_PWRGOOD. -/
structure Boot where
  waiting : Bool := false
  bodyRead : Bool := false
  recovery : Bool := false
  cause : Nat := 0
  prior : Nat := 0                               -- cause of an earlier failure, to be logged by the next boot
  first : Bool := true                           -- the stored image has not reached IDLE yet
  running : FwImage
  uptime : Nat := 0                              -- ns since the lengthsman booted
  memLost : Bool := true                         -- LPDDR5X is to be initialised (R248)
  deriving DecidableEq, Repr

/-- Host interface (R334 to R352). -/
structure HostSt where
  rings : List (Nat × RingSt) := []
  attnSeq : Nat := 0
  attnStep : Nat := 0
  attnStanding : Nat := 0
  attnHeld : Bool := false                       -- the run is held by a fault of class 6
  standSeq : Nat := 0
  standPhase : Bool := true
  standCount : Nat := 0
  rwPlan : Option PlanReq := none
  rwPause : List (Nat × Bool) := []
  rwSecure : List Nat := []
  startRing : Option Nat := none
  runRing : Nat := 0
  lost : Bool := false
  lostRequest : Bool := false
  d3hot : Bool := false
  linkUp : Bool := false
  linkWidth : Nat := 0
  linkSpeed : Nat := 0
  events : Nat := 0
  stuck : Bool := false                          -- the host interface itself is wedged (R353)
  deriving DecidableEq, Repr

/-- Counters (R378 to R388): exact counts by the BAR0 offset of their holding slot; holding slots. -/
structure Counters where
  exact : List (Nat × Nat) := []
  hold : List (Nat × Nat) := []
  seq : Nat := 0
  stroke : Nat := 0
  cycle : Nat := 0
  pending : List SnapReq := []
  deriving DecidableEq, Repr

/-- Trace (R389 to R394). -/
structure TraceSt where
  session : Option TraceSession := none
  bufs : List (Nat × TraceBuf) := []
  waiting : Option TraceWait := none
  wptr : Nat := 0                                -- records drained into the ring in this session
  moved : Nat := 0                               -- records drained in this stroke
  deriving DecidableEq, Repr

/-- The event log's ring in the shared buffer (R408, R409). -/
structure LogSt where
  next : Nat := 0
  ring : List (Nat × LogEntry) := []             -- slot to entry
  waiting : Nat := 0
  dropped : Nat := 0
  deriving DecidableEq, Repr

/-- Management: sensors, rails, mailbox, lifetime record, SPDM, TAP (R410 to R421). -/
structure Mgmt where
  sensors : List (Nat × SensorSt) := []
  lpddrTemp : List (Nat × Int) := []
  rails : List (Nat × RailTel) := []
  mboxBusy : Bool := false
  mboxCode : Nat := 0
  life : List (Nat × Nat) := []                  -- lifetime record, field offset to count
  lifeSecs : List (Nat × Nat) := []              -- seconds towards the next minute of a field
  lifeMs : Nat := 0                              -- sensor samples towards the next second
  spdm : List (Nat × Nat) := []                  -- transport to connection state
  mctpEid : Nat := 0
  jtag : Nat := 0                                -- 0 IDCODE, 1 BYPASS, 2 SAMPLE/PRELOAD, 3 EXTEST, 4 CLAMP, 5 HIGHZ, 6 EXTEST_PULSE, 7 EXTEST_TRAIN
  boundary : List Bool := []                     -- boundary cells last preloaded
  deriving DecidableEq, Repr

/-- The stroke timer (R205 to R218, R238). -/
structure StrokeSt where
  count : Nat := 0
  slot : Nat := 0
  easyRun : Nat := 0
  guard : Bool := false
  easy : Bool := false
  locked : Bool := false
  master : Bool := false
  parentPort : Nat := 0
  parentSub : Nat := 0
  noParent : Bool := true
  offset : Int := 0
  good : Nat := 0
  bad : Nat := 0
  missed : Nat := 0
  marker : Bool := false                         -- the parent's marker has arrived in this stroke
  markerLocked : Bool := false
  numbered : Bool := false                       -- holds the master's stroke number
  raised : Bool := false                         -- EASY is held for the current stroke
  raiser : Nat := 0                              -- lowest raiser position of the current stroke
  lastRaiser : Nat := 0
  seen : List (Nat × Nat) := []                  -- EASY markers already flooded: stroke, raiser
  lastEasy : Nat := 0
  ticks : Nat := 0                               -- tenths of core cycles at the last stroke edge (R157, R205)
  inGood : Nat := 0
  deriving DecidableEq, Repr

/-- The cox (R122 to R152). Pair keys are layer * 3 + role; norm keys are layer * 2 + 0 output, 1 gradient. -/
structure CoxSt where
  rung : List (Nat × Nat) := []
  quiet : List (Nat × Nat) := []
  pin : List (Nat × Nat) := []
  norm : List (Nat × Nat × Nat) := []            -- average (FP32 bits), fill
  stormCount : Nat := 0
  hold : Nat := 0
  recovery : Nat := 0
  layerNorm : List (Nat × Nat × Nat × Nat) := [] -- weight, gradient and update norm of each layer, FP32 bits (R129)
  history : List (Nat × List StatRec) := []      -- newest first, at most 16 steps
  ovr : List Nat := []
  flagged : List Nat := []
  repeated : List Nat := []
  flaggedPrev : List Nat := []
  withdrawn : List Nat := []
  released : List Nat := []                      -- pairs released outside their range (R135)
  deriving DecidableEq, Repr

/-- Admission (R189 to R193). -/
structure AdmSt where
  slots : List (Nat × SlotRec) := []
  pick : Option (Nat × Nat × Nat) := none        -- source, sample index, slot
  waitingHost : Bool := false
  step : Nat := 0                                -- step being packed
  mb : Nat := 0
  fill : Nat := 0
  count : Nat := 0
  segments : List Segment := []
  refused : Nat := 0
  ids : List (Nat × Nat) := []                   -- slot to the SAMPLE_ID of its sample (R189)
  deriving DecidableEq, Repr

/-- What the REPLAY section keeps of a step's beginning (R308): slot records and source state, rungs, input record. -/
structure StepSnap where
  adm : AdmSt := {}
  sources : List (Nat × Option Source) := []
  rungs : List (Nat × Nat) := []
  input : List Byte := []
  deriving DecidableEq, Repr

/-- What the actions of a boundary have decided by the time of the reply (R32): the step, whether it was committed, the holds
and requests that act here. -/
structure BoundFin where
  committed : Bool := false
  step : Nat := 0
  hold : Nat := 0                                -- cause of a hold for the host, 0 for none
  pause : Bool := false
  pauseEnd : Bool := false
  planActed : Bool := false
  planCode : Nat := 0
  refused : Nat := 0
  replayed : Bool := false
  secure : Bool := false                         -- a path of the boundary asks for a secure stop (R307)
  deriving DecidableEq, Repr

/-- The run (R31, R203, R209, R319, R345). -/
structure RunSt where
  phase : Phase := .none
  step : Nat := 0                                -- the running or next step
  last : Option Nat := none                      -- last committed step
  limit : Nat := 0
  ready : Bool := false
  startAt : Option Nat := none
  startStroke : Nat := 0                         -- stroke at which the running step began
  phaseStart : Nat := 0
  heldCause : Nat := 0                           -- 0 not held; 1 pause or limit, 2 host lost, 3 fault, 4 poison, 5 device lost, 6 digest mismatch, 7 no fit, 8 journal full, 9 package poison, 10 unrecoverable, 11 port failed
  holdDue : Nat := 0                             -- cause of a hold that the guard point found, 0 for none
  easy : Nat := 0
  redExt : Nat := 0
  redDone : Bool := false                        -- the completion AND of the reduction phase (R293)
  skipped : Bool := false
  excludedFlag : Bool := false
  replanned : Bool := false
  secured : Bool := false
  repeated : Bool := false
  loss : Word := 0                               -- of the last committed step
  tokens : Word := 0
  losses32 : List (Nat × Option Word) := []      -- the step's losses here by micro-batch * 2^32 + token (R204)
  opt : List (Nat × Nat × Nat) := []             -- p1, p2 per optimiser entry (FP32 bits; R197)
  losses : List (Nat × Word) := []               -- LOSS of each committed step since the last image (R320)
  planDue : Bool := false                        -- a replan trigger has fired
  norms : List (Nat × Nat × Nat × Nat) := []     -- own sums of R129 per layer: weight, gradient, update (W42)
  nonfinite : Bool := false
  devFault : Bool := false                       -- the device's fault flag beyond its cores' (R311, R371)
  readyRes : Option Nat := none                  -- the reduced ready AND of this stroke (R209)
  limitRes : Option Nat := none                  -- the reduced hold-limit fields of this stroke (R345)
  slotStart : Nat := 0                           -- schedule slot at the phase's first stroke
  distDone : Bool := false                       -- the completion AND of the distribution phase (R288)
  boundDone : Bool := false                      -- the actions of R32 have been performed at this boundary
  boundLen : Nat := 1                            -- strokes of this boundary (R195, R235)
  secLeft : Nat := 0                             -- planned strokes of the secure stop still to come (R314)
  enter : Bool := false                          -- the threads are entered at the next step's first stroke (R160)
  moments : List (Nat × List Byte) := []         -- address and bytes of writes that are current from the commit on
  upd : List (Nat × Nat) := []                   -- blocks that each update engine has updated in the step
  copies : List (Nat × Nat × Nat) := []          -- stored weight planes: current copy, other copy, bytes (R309)
  updEntry : List (Nat × Nat) := []              -- optimiser entry of the last block that each engine updated (R202)
  bookWrites : List (Nat × List Byte) := []      -- codebooks rebuilt during the distribution, current from the commit on (R201)
  booksDone : List (Nat × Nat × Nat) := []       -- codebooks rebuilt: step, layer, group (R201)
  converted : List Nat := []                     -- tensors converted in the running step (R200)
  snap : StepSnap := {}                          -- of the running step
  snapLast : StepSnap := {}                      -- of the last committed step
  fin : BoundFin := {}
  carried : List Nat := []                       -- rings whose run-wide command the present exchange carries (R33)
  sentRisk : Nat := 0                            -- risk level that this device sent in the exchange (R306)
  boundWait : Bool := false                      -- actions 4 and 5 wait for the digest exchange after a replan (R32, R234)
  lastSkipped : Bool := false                    -- the last committed step was skipped: its weights are the current copy
  deriving DecidableEq, Repr

/-- Streams (R255 to R263). -/
structure StmSt where
  desc : List (Nat × DescSt) := []
  marks : List (Nat × Nat) := []
  clock : Nat := 0                               -- orders the uses of descriptors
  deriving DecidableEq, Repr

/-- Memory (R239 to R252). -/
structure MemSt where
  data : List Host.Cell := []                    -- unlisted bytes read 0
  poison : List (Nat × Bool) := []               -- 8-byte words (hold, scratch) or code-word bases stored as poison
  ch : List (Nat × ChSt) := []
  part : List (Nat × PartSt) := []
  logged : List Nat := []                        -- words logged in the current scrub pass
  ue : List Nat := []                            -- words that last read uncorrectable
  deriving DecidableEq, Repr

/-- Links (R268 to R288). -/
structure LinkSt where
  port : List (Nat × PortSt) := []
  epoch : Nat := 0
  route : List (Nat × Nat) := []                 -- position to port * 2 + sub
  credit : List (Nat × Nat) := []                -- flow to flow credits of its allotment in use (R279, R280)
  ctl : List (Nat × CtlRed) := []
  behindLogged : List Nat := []
  legsDone : List Nat := []
  failedLegs : List Nat := []
  digestIn : List (Nat × List Byte) := []        -- plan digests received in this exchange, by port * 2 + sub (R234)
  digestSent : Bool := false                     -- this device has sent its own in this exchange
  digestOk : Bool := false
  digestDone : Bool := false
  early : List (Nat × List Byte) := []           -- packets of a newer epoch, port * 2 + sub (R282)
  deriving DecidableEq, Repr

/-- Reduction (R289 to R300, R303). -/
structure RedSt where
  pass : Nat := 0                                -- 0 none, 1 first, 2 checkpoint, 3 exclusion, 4 re-reduction, 5 done, 6 the last non-finite OR
  regions : List (Nat × RegionSt) := []
  excluded : List Nat := []
  scaleFind : Bool := false
  scalesKnown : Bool := false
  sums : List (Nat × SumReg) := []
  missing : List Nat := []
  nfSet : List Nat := []
  ovf : Bool := false
  checkAt : Nat := 0                             -- stroke of the checkpoint
  emaxUp : List (Nat × Nat) := []                -- EMAX of SCALE_UP per region * 2^24 + block
  upFrom : List (Nat × List Nat) := []           -- scale finding: region to the blocks heard, contributor * 2^24 + block
  outq : List (Nat × Nat × Nat × List Byte) := [] -- reduce packets that wait for flow credit: flow, kind, ARG, body
  gen : Nat := 0                                 -- exclusion passes so far in the step, the GEN of reduce packets
  again : List Nat := []                         -- region * 2^24 + block in re-reduction at this owner
  heard : List (Nat × List Nat) := []            -- such a block to the contributors that have answered in its round
  ovfBy : List (Nat × List Nat) := []            -- region * 2^24 + block to the contributors that flagged OVF
  got : List Nat := []                           -- results of the checkpoint that have arrived
  byDeadline : Bool := false                     -- the checkpoint was forced by a deadline
  late : List Nat := []                          -- replicas that a deadline found missing in the step (R294, R299)
  parts : List (Nat × Nat × SumVal) := []        -- at a combining device: record index, sender, part (R299)
  closed : List (Nat × Nat) := []                -- round and sender: the sender's parts of the round are all in
  combined : List Nat := []                      -- rounds whose results this device has sent
  inbox : List (Nat × List Byte) := []           -- results arriving on a leg: flow, bytes so far
  ended : List (Nat × Nat) := []                 -- round and combining device: its results are here
  results : List (Nat × SumVal) := []            -- results held, by record index
  deriving DecidableEq, Repr

/-- Resilience (R304 to R331). -/
structure ResSt where
  window : List (Nat × List Nat) := []           -- input to its events in the strokes of the window, newest first
  now : List (Nat × Nat) := []                   -- events of the running stroke per input
  risk : Nat := 0
  sysRisk : Nat := 0
  ue : Bool := false
  journal : List JournalEntry := []              -- oldest first
  replayJournal : List JournalEntry := []
  journalFull : Bool := false
  path : Nat := 0
  rollback : Bool := false
  filling : Bool := false
  imgValid : Bool := false
  restorePending : Bool := false
  restoreBad : Bool := false                     -- a replay check has failed: the loaded state is invalid (R329)
  hcopyState : Nat := 0
  hcopyPercent : Nat := 0
  hcopyBytes : Nat := 0                          -- bytes of the running host copy already moved (R316)
  imgStep : Option Nat := none
  sinceImage : Nat := 0                          -- steps committed since the last completed stop
  kept : List (Nat × ImageInfo) := []            -- images this device keeps, by position
  own : Option ImageInfo := none
  hostImage : Option ImageInfo := none
  lost : List Nat := []
  declared : List (Nat × Nat) := []              -- device, neighbour that declared its port lost
  secureDue : Bool := false
  paths : List FailPath := []                    -- failures detected here since the last boundary (R318)
  secStart : Nat := 0
  imageEnds : List Nat := []                     -- image flows that have ended here in the running stop
  badAddrs : List (Nat × Nat) := []              -- poison of the held step: address and reason (R253)
  replayTo : Option Nat := none                  -- a rollback replays up to this step (R320)
  replayLosses : List (Nat × Word) := []         -- LOSS of the replayed steps as first run
  compare : Bool := true                         -- the replay compares losses (R327)
  ownData : List Byte := []                      -- the image of the last stop, as sent to the buddy (R308)
  stopWaits : Bool := false                      -- a mandatory host copy holds the stop back (R316)
  coxLost : Bool := false                        -- the restored image's cox section was lost (R152)
  stepBytes : Nat := 0                           -- size of the image of the running stop
  imageAcks : List Nat := []                     -- image flows whose pass the buddy has acknowledged (R280, R314)
  keptRes : Option Nat := none                   -- the "image kept" AND of the running stop (R315)
  wsumRes : Option Nat := none                   -- the weight-digest SUM of the running stop (R315)
  selfTest : List Nat := []                      -- unequal comparisons of the self-test of path 5: core * 4 + array (R96, R318)
  deriving DecidableEq, Repr

/-- Power (R355 to R377). -/
structure PwrSt where
  state : PowerState := .p0
  exiting : Bool := false
  groups : List (Nat × PowerState) := []
  groupExit : List (Nat × Bool) := []
  units : List (Nat × Bool) := []                -- core * 8 + unit in G1
  unitExit : List (Nat × Bool) := []
  draining : List Nat := []                      -- domains whose power-down waits for requests (R365)
  barred : List Nat := []                        -- domains that a drain timeout bars: 0-11 groups, 12 device
  throttle : Bool := false
  rails : List (Nat × RailAvs) := []
  nextAt : Option Nat := none                    -- uptime in ns of the declared submission
  save : List (Nat × Word) := []                 -- register save area (R366), BAR0 offset to word
  domains : Bool := false                        -- the domains other than AON are powered
  deriving DecidableEq, Repr

/-- The machine. -/
structure State where
  pending : List Instr
  free : Nat
  out : List Output
  regs : List (Nat × Word)
  fuses : Fuses
  flash : Flash
  disabled : Nat
  renumbered : Nat                               -- cores that have left the numbering (R433)
  pins : Pins
  boot : Boot
  dev : DevState
  host : HostSt
  cnt : Counters
  trace : TraceSt
  log : LogSt
  mgmt : Mgmt
  stroke : StrokeSt
  pkg : Option Pkg
  sources : List (Nat × Option Source)
  captured : List (Nat × Word)                   -- the captured registers by BAR0 offset (R428)
  mapBytes : List Byte
  map : List MapDev
  plan : Option Plan
  failInputs : List FailInput
  run : RunSt
  cox : CoxSt
  collectors : List (Nat × StatRec)              -- point * 2^20 + tensor; point core * 6 + collector, 576 + e for update engine e
  adm : AdmSt
  cores : List (Nat × CoreSt)
  mem : MemSt
  stm : StmSt
  link : LinkSt
  red : RedSt
  res : ResSt
  pwr : PwrSt
  deriving DecidableEq, Repr

/-- The image that the flash holds at shipment in this model: valid, slot 0, SVN 0, planner 1 (a marked choice). -/
def shippedImage : FwImage :=
  { formOk := true, slot := 0, svn := 0, revoke := 0, fwVersion := 1, planner := 1, bodyBytes := 1,
    keyHash := 0, ecdsaOk := true, lmsOk := true, digestOk := true, mDigest := 0, bodyDigest := 0 }

/-- The device right after VDD_AON has come up and before its boot ROM has run a step: PERST_N asserted, STATE BOOT,
every register at its Reset value (R427, R444 order 1). -/
def State.reset : State :=
  { pending := [], free := 0, out := [], regs := [], fuses := {}, flash := { image := shippedImage }, disabled := 0,
    renumbered := 0, pins := {}, boot := { running := shippedImage }, dev := .boot, host := {}, cnt := {},
    trace := {}, log := {}, mgmt := {}, stroke := {}, pkg := none, sources := [], captured := [], mapBytes := [],
    map := [], plan := none, failInputs := [], run := {}, cox := {}, collectors := [], adm := {}, cores := [],
    mem := {}, stm := {}, link := {}, red := {}, res := {}, pwr := {} }

end Sys2Proof.Machine
end

