-- ==== Sys2Proof/Machine/Regs.lean ====
section
/-! DEFINITION. The register file of BAR0 (R423 to R434): which offsets hold a register, its RW and CMD fields, its Reset
value and its reserved encodings (R13, R14, R17). -/

namespace Sys2Proof.Machine

open Sys2Proof

/-- What the register tables give of a register: masks of its RW and CMD bits, and the Reset value of its RW bits. -/
structure RegInfo where
  rw : Nat
  cmd : Nat
  reset : Nat
  deriving DecidableEq, Repr

def roReg : Option RegInfo := some { rw := 0, cmd := 0, reset := 0 }
def rwReg (m r : Nat) : Option RegInfo := some { rw := m, cmd := 0, reset := r }

/-- Registers of the global set-up range (0 to 0xFFFFF). -/
def regInfoSetup (off : Nat) : Option RegInfo :=
  if off < 0x1000 then
    if off = 0x10 then rwReg 0x80000FFF 0
    else if off = 0x14 then rwReg 0xFFFF 0
    else if off ≤ 0x18 then roReg else none
  else if off < 0x2000 then
    if off = 0x1020 then rwReg 0x37F 0 else if off ≤ 0x102C then roReg else none
  else if off < 0x3000 then
    if off = 0x2008 then rwReg 0xFFFFFFE0 0
    else if off = 0x200C then rwReg 0xFFFFFFFF 0
    else if off = 0x2010 then rwReg 0x1FFFF 0x400
    else if off = 0x2014 then rwReg 0x3FFFF 0
    else if off < 0x2008 then roReg else none
  else if off < 0x3800 then
    let o := off % 0x20
    if o < 0x10 then rwReg 0xFFFFFFFF 0
    else if o = 0x10 then rwReg 0x11F1F 0x404
    else if o ≤ 0x18 then roReg else none
  else if off < 0x3900 then
    let o := off % 0x10
    if o = 0 then rwReg 0xFFFFF000 0
    else if o = 4 then rwReg 0xFFFFFFFF 0
    else if o = 8 then rwReg 0x8000003F 0xC else none
  else if off < 0x4000 then none
  else if off < 0x5000 then
    if off = 0x4000 then rwReg 3 0
    else if off = 0x4004 then rwReg 0x3FFFFFF 0x7D00
    else if off ≤ 0x4018 then roReg else none
  else if off < 0x6000 then
    if off = 0x5008 then rwReg 0x3F 8
    else if off = 0x500C then rwReg 0xFFF 0x40
    else if off ≤ 0x5004 then roReg else none
  else if off < 0x7000 then
    match off - 0x6000 with
    | 0x00 => rwReg 0x000FFF03 0xC1200
    | 0x04 => rwReg 0xFFFFFFFF 0x00400000
    | 0x08 => rwReg 0xFFFFFFFF 0x04000000
    | 0x0C => rwReg 0xFFFFFFFF 0x00040000
    | 0x10 => rwReg 0xFFFFFFFF 0x00800000
    | 0x14 => rwReg 0xFFFFFFFF 0x3D000000
    | 0x18 => rwReg 0x03FFF3FF 0x03403240
    | 0x1C => rwReg 0x3FFF3FFF 0
    | 0x20 => roReg
    | _ => none
  else if off < 0x8000 then
    if off < 0x7100 ∧ off % 0x10 < 8 then roReg else none
  else if off < 0x9000 then
    if off = 0x8004 then rwReg 0xFFFFF 0
    else if off = 0x8010 then rwReg 0xFFFF 0
    else if off ≤ 0x8014 then roReg else none
  else if off < 0xA000 then
    if off = 0x9000 then rwReg 1 0 else if off ≤ 0x9008 then roReg else none
  else if off < 0xB000 then
    if off = 0xA004 then rwReg 0x00FFFF1F 0x20014
    else if off = 0xA008 then rwReg 0x00FF0FFF 0x640100
    else if off = 0xA00C then rwReg 0x81FFFF0F 0
    else if off ≤ 0xA018 then roReg else none
  else if off < 0xC000 then
    if off = 0xB000 then some { rw := 2, cmd := 1, reset := 2 }
    else if off = 0xB004 then rwReg 0xFFFFFFFF 0xC350
    else if off = 0xB008 then rwReg 0xFFFFFFFF 0
    else if off = 0xB01C then rwReg 0xFFF 0x467
    else if off ≤ 0xB018 then roReg else none
  else none

/-- Registers of a core window, by offset within it (R97, R176). -/
def regInfoCore (o : Nat) : Option RegInfo :=
  if o = 0 then rwReg 0x1F 0
  else if o = 4 then rwReg 0xFFFC0 0
  else if o = 8 then roReg
  else if 0x1000 ≤ o ∧ o < 0x1800 then
    match (o - 0x1000) % 0x40 with
    | 0x00 => rwReg 8 0
    | 0x04 => roReg
    | 0x08 => rwReg 0xFFFFF 0
    | 0x0C => rwReg 0x1FFFFF 0x100000
    | 0x10 => rwReg 0xFFFF 0xFF00
    | 0x18 => rwReg 0xFFFFFFFF 0
    | 0x1C => rwReg 0xFFFFFFFF 0
    | 0x20 => rwReg 0xFFFFFFFF 0
    | 0x24 => rwReg 0xFFFFFFFF 0
    | 0x28 => rwReg 0xFFFFFFFF 0
    | 0x2C => rwReg 0xFFFFFFFF 0
    | _ => none
  else if 0x1C000 ≤ o ∧ o < 0x1C100 then
    match (o - 0x1C000) % 0x40 with
    | 0x00 => rwReg 1 0
    | 0x04 => rwReg 0x7F0F 0x5008
    | 0x08 => roReg
    | _ => none
  else none

/-- The register at a BAR0 offset, whatever cores are enabled; none where no register of R434 lies. -/
def regInfo (off : Nat) : Option RegInfo :=
  if off % 4 ≠ 0 then none
  else if off < 0x100000 then regInfoSetup off
  else if off < 0x200000 then
    let o := off - 0x100000
    if o = 4 then some { rw := 0, cmd := 0xFF, reset := 0 }
    else if o = 8 ∨ o = 0xC then rwReg 0xFFFFFFFF 0
    else if o ≤ 0x20 then roReg
    else if 0x100 ≤ o ∧ o < 0x178 then roReg
    else if 0x200 ≤ o ∧ o < 0x250 then (if o % 8 = 0 then rwReg 0xFF 0 else roReg)
    else none
  else if off < 0x224000 then
    let o := off - 0x200000
    if o = 0 then some { rw := 0x1F00, cmd := 1, reset := 0 }
    else if o ≤ 0x18 then roReg
    else if 0x100 ≤ o ∧ o < 0x300 then roReg
    else if 0x8000 ≤ o ∧ o < 0x20000 then (if o % 0x400 < 0x380 then roReg else none)
    else if 0x20000 ≤ o ∧ o < 0x21000 then (if o % 0x100 < 0x70 then roReg else none)
    else if 0x21000 ≤ o ∧ o < 0x22000 then (if o % 0x100 < 0x48 then roReg else none)
    else if 0x22000 ≤ o ∧ o < 0x23800 then (if o % 0x40 < 0x28 then roReg else none)
    else none
  else if 0x300000 ≤ off ∧ off < 0x400000 then
    match off % 0x10000 with
    | 0x00 => rwReg 7 5
    | 0x04 => roReg
    | 0x08 => roReg
    | 0x0C => roReg
    | 0x10 => roReg
    | 0x14 => roReg
    | 0x18 => rwReg 0xFFFF 0x1004
    | _ => none
  else if off = 0x400000 then rwReg 3 3
  else if 0x410000 ≤ off ∧ off < 0x420000 then (if off % 0x1000 = 0 then roReg else none)
  else if 0x440000 ≤ off ∧ off < 0x446000 then (if off % 0x100 = 0 then roReg else none)
  else if 0x1000000 ≤ off ∧ off < 0x1C00000 then regInfoCore ((off - 0x1000000) % 0x20000)
  else none

/-- The Reset value of the RW fields at an offset. -/
def regReset (off : Nat) : Word :=
  match regInfo off with
  | some r => BitVec.ofNat 32 r.reset
  | none => 0

/-- A rung byte that COX_MODE.CMP_RUNG accepts (R153). -/
def cmpRungOk (b : Nat) : Bool :=
  let f := b % 16
  bitsN b 4 2 != 0 && bitsN b 6 2 == 0 && f != 0 && f != 0xF && f != 1 && f != 0xE

/-- No field of the value is a reserved encoding of the register at `off` (R17). -/
def regOk (off v : Nat) : Bool :=
  if off < 0x100000 then
    if off = 0x2010 then bitsN v 0 16 != 0
    else if off = 0x2014 then v < 0x20000
    else if 0x3000 ≤ off ∧ off < 0x3800 ∧ off % 0x20 = 0x10 then
      4 ≤ bitsN v 0 5 && bitsN v 0 5 ≤ 16 && 4 ≤ bitsN v 8 5 && bitsN v 8 5 ≤ 16
    else if 0x3800 ≤ off ∧ off < 0x3900 ∧ off % 0x10 = 8 then 12 ≤ bitsN v 0 6 && bitsN v 0 6 ≤ 47
    else if off = 0x4004 then 0xFA0 ≤ v && v ≤ 0x3E7FC18
    else if off = 0x5008 then v ≤ 32
    else if off = 0x500C then v != 0
    else if off = 0x6000 then bitsN v 0 2 != 3 && cmpRungOk (bitsN v 8 8) && 8 ≤ bitsN v 16 4
    else if off = 0x6014 then v ≤ 0x7F800000
    else if off = 0x6018 then bitsN v 0 8 != 0 && bitsN v 8 2 != 0 && bitsN v 12 4 != 0 && bitsN v 16 8 != 0
    else if off = 0xA004 then bitsN v 0 3 != 0
    else if off = 0xA008 then 16 ≤ bitsN v 0 12 && bitsN v 16 8 != 0
    else if off = 0xB01C then 90 ≤ bitsN v 0 8 && bitsN v 0 8 ≤ 105 && 2 ≤ bitsN v 8 4
    else true
  else if 0x300000 ≤ off ∧ off < 0x400000 ∧ off % 0x10000 = 0x18 then bitsN v 0 8 != 0 && bitsN v 8 8 != 0
  else if 0x1000000 ≤ off ∧ off < 0x1C00000 then
    let o := (off - 0x1000000) % 0x20000
    if 0x1C000 ≤ o ∧ o < 0x1C100 ∧ o % 0x40 = 4 then 1 ≤ bitsN v 8 7 && bitsN v 8 7 ≤ 81
    else if 0x1000 ≤ o ∧ o < 0x1800 ∧ (o - 0x1000) % 0x40 = 0x10 then bitsN v 0 8 ≤ bitsN v 8 8
    else true
  else true

/-- The RW fields of the register at `off`. -/
def regW (s : State) (off : Nat) : Word := sget regReset s.regs off
def reg (s : State) (off : Nat) : Nat := (regW s off).toNat

/-- `s` with the RW fields of the register at `off` holding `v`. -/
def setReg (off v : Nat) (s : State) : State := { s with regs := sset regReset s.regs off (BitVec.ofNat 32 v) }

/-- The registers that a full reset keeps (R427). -/
def keptAtReset (off : Nat) : Bool :=
  off == 0x400000 || off == 0x10 || off == 0x14 || off == 0xB01C ||
    (decide (0x100200 ≤ off) && decide (off < 0x100250) && off % 8 == 0)

/-- The captured registers of R428, in the order of R450 items 5 and 6. -/
def capturedRegs : List Nat :=
  [0x6000, 0x6004, 0x6008, 0x600C, 0x6010, 0x6014, 0x6018, 0x601C, 0x4004, 0x5008, 0x500C, 0x9000]

/-- The captured value of a register (R428); before the first PLAN, its Reset value. -/
def cap (s : State) (off : Nat) : Nat := (sget regReset s.captured off).toNat

def coreWindow (c : Nat) : Nat := 0x1000000 + c * 0x20000
def thrReg (c t o : Nat) : Nat := coreWindow c + 0x1000 + t * 0x40 + o
def arrReg (c a o : Nat) : Nat := coreWindow c + 0x1C000 + a * 0x40 + o
def portReg (p o : Nat) : Nat := 0x300000 + p * 0x10000 + o
def ringReg (q o : Nat) : Nat := 0x3000 + q * 0x20 + o
def winReg (w o : Nat) : Nat := 0x3800 + w * 0x10 + o

/-- Logical cores available: 96 less the cores that have left the numbering (R431, R433). -/
def popcount (n : Nat) : Nat := ((List.range 128).filter (bitN n)).length
def enabledCores (s : State) : Nat := 96 - popcount s.renumbered

/-- The physical core of logical core `n` (R433). -/
def physCore (s : State) (n : Nat) : Nat :=
  ((List.range 100).filter fun p => !bitN s.fuses.coresOff p && !bitN s.renumbered p).getD n 0

/-- The power group of a physical core: eight enabled cores to a group in ascending order (R358). -/
def groupOfPhys (s : State) (p : Nat) : Nat :=
  ((List.range p).filter fun x => !bitN s.fuses.coresOff x).length / 8 % 12
def groupOf (s : State) (n : Nat) : Nat := groupOfPhys s (physCore s n)

end Sys2Proof.Machine
end

