-- ==== Sys2Proof/Machine/Ops.lean ====
section
/-! DEFINITION. The named operations that the meanings are written in: access to each numbered family, counters and
attention, the event log, memory with poison, host addresses, replies and the decision journal. -/

namespace Sys2Proof.Machine

open Sys2Proof

/-! ### Blocks of stored tensors (R45, R50, R196) -/

def blocksOf (p : Piece) : Nat := ceilDiv p.elems 32

/-- Blocks b with b mod 16 = e of a piece. -/
def engineBlocks (e : Nat) (p : Piece) : Nat := if e < blocksOf p then (blocksOf p - e + 15) / 16 else 0

/-- The piece and block that engine `e` updates after `k` others: piece by piece, blocks in storage order. -/
def engineNext (e : Nat) : List Piece → Nat → Nat → Option (Nat × Nat)
  | [], _, _ => none
  | p :: t, i, k => if k < engineBlocks e p then some (i, e + 16 * k) else engineNext e t (i + 1) (k - engineBlocks e p)

/-- Elements of a tensor part with these extents. -/
def elemsOf (dims : List Nat) : Nat := dims.foldl (· * ·) 1

/-- The extent of the block axis; a tensor without one is one row. -/
def axisExtent (dims : List Nat) (axis : Nat) : Nat := if axis < dims.length then dims.getD axis 1 else elemsOf dims

/-- Rows along the block axis. -/
def axisRows (dims : List Nat) (axis : Nat) : Nat := elemsOf dims / max 1 (axisExtent dims axis)

/-- The place in storage of element `k` of row `r` along the block axis; DIM[0] is innermost (R182). -/
def axisIndex (dims : List Nat) (axis r k : Nat) : Nat :=
  let inner := if axis < dims.length then elemsOf (dims.take axis) else 1
  (r / inner * axisExtent dims axis + k) * inner + r % inner

/-- The row along the block axis of the element at a place in storage: the column of a TC4 weight (R52). -/
def axisRow (dims : List Nat) (axis i : Nat) : Nat :=
  let inner := if axis < dims.length then elemsOf (dims.take axis) else 1
  i / (inner * axisExtent dims axis) * inner + i % inner

/-! ### Device state (R349) -/

def devCode : DevState → Nat
  | .boot => 0 | .recovery => 1 | .idle => 2 | .loaded => 3 | .planned => 4 | .starting => 5 | .running => 6
  | .held => 7 | .securing => 8 | .recovering => 9 | .restored => 10 | .stopped => 11 | .wedged => 0xFF

/-- A run is active from STARTING to RESTORED (R349). -/
def runActive (s : State) : Bool := 5 ≤ devCode s.dev && devCode s.dev ≤ 10

/-- The device works under the stroke schedule of an active run (R93, R94): a hold's self-test and the replay check of RESTORED
run outside it (DESIGN CHOICE, log 116). -/
def underSchedule (s : State) : Bool :=
  s.dev == .starting || s.dev == .running || s.dev == .securing || s.dev == .recovering

/-- Steps of the run are being taken. -/
def inRun (s : State) : Bool := s.dev == .running || s.dev == .securing || s.dev == .recovering

/-! ### Access to the numbered families -/

def ringD : Nat → RingSt := fun _ => {}
def ring (s : State) (q : Nat) : RingSt := sget ringD s.host.rings q
def modRing (q : Nat) (f : RingSt → RingSt) (s : State) : State :=
  { s with host := { s.host with rings := smod ringD s.host.rings q f } }
def coreD : Nat → CoreSt := fun _ => {}
def core (s : State) (c : Nat) : CoreSt := sget coreD s.cores c
def modCore (c : Nat) (f : CoreSt → CoreSt) (s : State) : State := { s with cores := smod coreD s.cores c f }
def thrD : Nat → Thread := fun _ => {}
def thread (s : State) (c t : Nat) : Thread := sget thrD (core s c).threads t
def modThread (c t : Nat) (f : Thread → Thread) (s : State) : State :=
  modCore c (fun k => { k with threads := smod thrD k.threads t f }) s
def arrD : Nat → ArrSt := fun _ => {}
def arr (s : State) (c a : Nat) : ArrSt := sget arrD (core s c).arrays a
def modArr (c a : Nat) (f : ArrSt → ArrSt) (s : State) : State :=
  modCore c (fun k => { k with arrays := smod arrD k.arrays a f }) s
def portD : Nat → PortSt := fun _ => {}
def port (s : State) (p : Nat) : PortSt := sget portD s.link.port p
def modPort (p : Nat) (f : PortSt → PortSt) (s : State) : State :=
  { s with link := { s.link with port := smod portD s.link.port p f } }
def subOf (P : PortSt) (b : Nat) : SubPort := if b = 0 then P.sub0 else P.sub1
def subp (s : State) (p b : Nat) : SubPort := subOf (port s p) b
def modSub (p b : Nat) (f : SubPort → SubPort) (s : State) : State :=
  modPort p (fun P => if b = 0 then { P with sub0 := f P.sub0 } else { P with sub1 := f P.sub1 }) s
def descD : Nat → DescSt := fun _ => {}
def desc (s : State) (d : Nat) : DescSt := sget descD s.stm.desc d
def modDesc (d : Nat) (f : DescSt → DescSt) (s : State) : State :=
  { s with stm := { s.stm with desc := smod descD s.stm.desc d f } }
def chD : Nat → ChSt := fun _ => {}
def ch (s : State) (c : Nat) : ChSt := sget chD s.mem.ch c
def modCh (c : Nat) (f : ChSt → ChSt) (s : State) : State := { s with mem := { s.mem with ch := smod chD s.mem.ch c f } }
def partD : Nat → PartSt := fun _ => {}
def part (s : State) (n : Nat) : PartSt := sget partD s.mem.part n
def modPart (n : Nat) (f : PartSt → PartSt) (s : State) : State :=
  { s with mem := { s.mem with part := smod partD s.mem.part n f } }
def natD : Nat → Nat := fun _ => 0
def mark (s : State) (m : Nat) : Nat := sget natD s.stm.marks m
def addMark (m n : Nat) (s : State) : State :=
  { s with stm := { s.stm with marks := smod natD s.stm.marks m fun v => (v + n) % 2 ^ 32 } }
def sensD : Nat → SensorSt := fun _ => {}
def sensor (s : State) (i : Nat) : SensorSt := sget sensD s.mgmt.sensors i
def railD : Nat → RailTel := fun _ => {}
def railTel (s : State) (i : Nat) : RailTel := sget railD s.mgmt.rails i
def avsD : Nat → RailAvs := fun _ => {}
def railAvs (s : State) (i : Nat) : RailAvs := sget avsD s.pwr.rails i
def modAvs (i : Nat) (f : RailAvs → RailAvs) (s : State) : State :=
  { s with pwr := { s.pwr with rails := smod avsD s.pwr.rails i f } }
def grpD : Nat → PowerState := fun _ => .p0
def group (s : State) (g : Nat) : PowerState := sget grpD s.pwr.groups g
def setGroup (g : Nat) (p : PowerState) (s : State) : State :=
  { s with pwr := { s.pwr with groups := sset grpD s.pwr.groups g p } }
/-- The unit of a core (0-3 array, 4 feeder, 5 vector, 6 exact) is in G1 or leaving it (R359, R364). -/
def gated (s : State) (c u : Nat) : Bool := sget (fun _ => false) s.pwr.units (c * 8 + u)
def srcD : Nat → Option Source := fun _ => none
def source (s : State) (i : Nat) : Option Source := sget srcD s.sources i
def modSource (i : Nat) (f : Source → Source) (s : State) : State :=
  { s with sources := smod srcD s.sources i fun o => o.map f }
def slotD : Nat → SlotRec := fun _ =>
  { source := 0, state := 0, mb := 0, step := 0, sample := 0, length := 0, fetched := 0, use := 0 }
def slot (s : State) (i : Nat) : SlotRec := sget slotD s.adm.slots i
def modSlot (i : Nat) (f : SlotRec → SlotRec) (s : State) : State :=
  { s with adm := { s.adm with slots := smod slotD s.adm.slots i f } }
def regionD : Nat → RegionSt := fun _ => {}
def regionSt (s : State) (i : Nat) : RegionSt := sget regionD s.red.regions i
def modRegion (i : Nat) (f : RegionSt → RegionSt) (s : State) : State :=
  { s with red := { s.red with regions := smod regionD s.red.regions i f } }
def lifeGet (s : State) (o : Nat) : Nat := sget natD s.mgmt.life o
/-- Add to a lifetime field of `w` bytes, saturating (R410). -/
def lifeAdd (o w n : Nat) (s : State) : State :=
  { s with mgmt := { s.mgmt with life := smod natD s.mgmt.life o fun v => min (v + n) (2 ^ (8 * w) - 1) } }

/-- Send to the world. -/
def emit (o : Output) (s : State) : State := { s with out := o :: s.out }

/-- The next free value of width `w`, for element `i` of the command. -/
def freeBits (s : State) (i w : Nat) : Nat := (Config.freeValue s.free i).toNat % 2 ^ w
def useFree (s : State) : State := { s with free := s.free + 1 }

/-! ### Position and plan -/

def myPos (s : State) : Nat := match s.plan with | some p => p.pos | none => 0xFFFF
def periodNs (s : State) : Nat := match s.plan with | some p => p.period | none => reg s 0x4004
/-- Cycles of a stroke (R205). -/
def strokeCycles (s : State) : Nat := periodNs s * 13 / 10

/-- The core's cycle count (R157): the cycles that the stroke edges have brought since its domain left reset, or the issue slot
that one of its threads has used since the last edge (DESIGN CHOICE, log 117). -/
def coreCycle (s : State) (c : Nat) : Nat := max (s.stroke.ticks / 10 - (core s c).start) (core s c).cycle

/-! ### Counters and attention (R378 to R385, R348, R349) -/

def cntDev (k : Nat) : Nat := 0x200100 + 8 * k
def cntCore (n k : Nat) : Nat := 0x208000 + n * 0x400 + 8 * k
def cntPort (p k : Nat) : Nat := 0x220000 + p * 0x100 + 8 * k
def cntCh (c k : Nat) : Nat := 0x221000 + c * 0x100 + 8 * k
def cntPart (n k : Nat) : Nat := 0x222000 + n * 0x40 + 8 * k

/-- The unit of the counter at a holding-slot offset (R379, R381 to R385); residency counters count ns inside. -/
def cntUnit (off : Nat) : Nat :=
  if off < 0x208000 then
    let k := (off - 0x200100) / 8
    if k = 32 then 16 else if 33 ≤ k ∧ k ≤ 46 then 1000 else 1
  else if off < 0x220000 then
    let k := (off - 0x208000) % 0x400 / 8
    if k < 16 then 16 else if k = 21 ∨ k = 22 then 16 else if 48 ≤ k then 2 ^ 20 else 1
  else if off < 0x221000 then (if off % 0x100 / 8 < 2 then 2 ^ 10 else 1)
  else if off < 0x222000 then (if off % 0x100 / 8 < 2 then 2 ^ 10 else 1)
  else (if off % 0x40 / 8 = 4 then 2 ^ 10 else 1)

/-- The group code bit of a counter (R379); 5 for CYCLE, which no clear reaches. -/
def cntGroup (off : Nat) : Nat :=
  if off < 0x208000 then
    let k := (off - 0x200100) / 8
    if k = 0 ∨ 29 ≤ k then 0 else if k ≤ 15 then 3 else 2
  else if off < 0x220000 then
    let k := (off - 0x208000) % 0x400 / 8
    if k < 16 then 0 else if k < 20 then 2 else if k < 32 then 0 else if k < 43 then 2
    else if k < 45 then 4 else if k = 45 then 5 else 1
  else if off < 0x221000 then (if off % 0x100 / 8 < 2 then 0 else 2)
  else if off < 0x222000 then
    let k := off % 0x100 / 8
    if k < 2 ∨ 7 ≤ k then 0 else 2
  else (if 3 ≤ off % 0x40 / 8 then 0 else 2)

/-- The visible value of an exact count (R379, R380). -/
def cntVisible (off exact : Nat) : Nat := min (exact / cntUnit off) (2 ^ 48 - 1)
def cntSat (off exact : Nat) : Bool := cntVisible off exact == 2 ^ 48 - 1
def cntExact (s : State) (off : Nat) : Nat := sget natD s.cnt.exact off

/-- Add to a counter; it stops where its visible value reaches 2^48 - 1 (R380). -/
def cntAdd (off n : Nat) (s : State) : State :=
  { s with cnt := { s.cnt with
      exact := smod natD s.cnt.exact off fun v => min (v + n) ((2 ^ 48 - 1) * cntUnit off) } }

def b4 (n : Nat) : List Byte := leBytes 4 n
def b8 (n : Nat) : List Byte := leBytes 8 n
/-- `l` cut or zero-padded to `n` bytes. -/
def padTo (n : Nat) (l : List Byte) : List Byte := (l ++ List.replicate (n - l.length) 0).take n

/-- The log entry as its 64 bytes (R406). -/
def logBytes (e : LogEntry) : List Byte :=
  b8 e.seq ++ leBytes 2 e.typ ++ leBytes 2 e.pos ++ b4 e.step ++ b8 e.stroke ++ b8 e.uptime ++ padTo 32 e.args

def stepField (s : State) : Nat := match s.run.last with | some n => n | none => 0xFFFFFFFF

/-- The ring's slot map has no default entry: an absent slot is unlisted. -/
def ringPut (l : List (Nat × LogEntry)) (i : Nat) (e : LogEntry) : List (Nat × LogEntry) :=
  (l.filter fun x => decide (x.1 < i)) ++ [(i, e)] ++ (l.filter fun x => decide (i < x.1))

def mkEntry (typ : Nat) (args : List Byte) (s : State) : LogEntry :=
  { seq := s.log.next, typ := typ, pos := myPos s, step := stepField s,
    stroke := if runActive s then s.stroke.count else 0, uptime := s.boot.uptime / 1000, args := args }

def logEnter (typ : Nat) (args : List Byte) (s : State) : State :=
  let e := mkEntry typ args s
  { s with log := { s.log with next := s.log.next + 1, ring := ringPut s.log.ring (e.seq % 8192) e,
                               waiting := s.log.waiting + 1 },
           host := { s.host with events := s.host.events + 1 } }

/-- Log an event: dropped with its SEQ taken when the ring holds 8,192 entries not yet in flash; MGT_LOG_LOST first
when space has returned (R408, R409). The log is not written in recovery (R403). -/
def logEv (typ : Nat) (args : List Byte) (s : State) : State :=
  if s.dev == .recovery then s
  else
    let s := if 0 < s.log.dropped && s.log.waiting < 8191 then
        let n := s.log.dropped
        logEnter 0x0A05 (b4 n) { s with log := { s.log with dropped := 0 } }
      else s
    if s.log.waiting < 8192 then logEnter typ args s
    else { s with log := { s.log with next := s.log.next + 1, dropped := s.log.dropped + 1 } }

/-- An attention event without the counter's own saturation (R348, R349). -/
def attnBase (cls : Nat) (s : State) : State :=
  cntAdd (cntDev 16) 1
    { s with host := { s.host with attnSeq := (s.host.attnSeq + 1) % 256, attnStep := max s.host.attnStep cls,
                                   attnStanding := max s.host.attnStanding cls } }

/-- Base offset of a counter's block and the counter's slot in it. -/
def cntBlock (off : Nat) : Nat × Nat :=
  if off < 0x208000 then (0x200100, (off - 0x200100) / 8)
  else if off < 0x220000 then (off - (off - 0x208000) % 0x400, (off - 0x208000) % 0x400 / 8)
  else if off < 0x222000 then (off - off % 0x100, off % 0x100 / 8)
  else (off - off % 0x40, off % 0x40 / 8)

/-- A counter has just saturated: attention class 2 and CNT_SATURATED with its block and slot (R380). -/
def satEvent (off : Nat) (s : State) : State :=
  logEv 0x0906 (b4 (cntBlock off).1 ++ b4 (cntBlock off).2) (attnBase 2 s)

/-- Count `n` events at the counter `off` (R379, R380). -/
def bump (off n : Nat) (s : State) : State :=
  let t := cntAdd off n s
  if cntSat off (cntExact t off) && !cntSat off (cntExact s off) then satEvent off t else t

/-- Raise an attention event of a class (R349). -/
def attn (cls : Nat) (s : State) : State :=
  let t := attnBase cls s
  if cntSat (cntDev 16) (cntExact t (cntDev 16)) && !cntSat (cntDev 16) (cntExact s (cntDev 16)) then
    satEvent (cntDev 16) t
  else t

/-- A refused or ignored write (R381 slot 17). -/
def refuseWrite (s : State) : State := bump (cntDev 17) 1 s

/-! ### Windows and host addresses (R334) -/

def winBase (s : State) (w : Nat) : Nat := reg s (winReg w 0) + reg s (winReg w 4) * 2 ^ 32
def winCovers (s : State) (w h : Nat) : Bool :=
  let c := reg s (winReg w 8)
  bitN c 31 && winBase s w ≤ h && h < winBase s w + 2 ^ bitsN c 0 6
/-- The device address of a host address: the lowest valid window that covers it. -/
def hostToDev (s : State) (h : Nat) : Option Nat :=
  ((List.range 16).find? fun w => winCovers s w h).map fun w => 0x8000000000000 + w * 2 ^ 47 + (h - winBase s w)
/-- Every byte of [h, h + n) lies in the window that covers h. -/
def hostRange (s : State) (h n : Nat) : Bool :=
  match (List.range 16).find? fun w => winCovers s w h with
  | some w => n == 0 || winCovers s w (h + n - 1)
  | none => false
/-- The host address behind a device address of a host window, when its window is valid and covers it. -/
def devToHost (s : State) (a : Nat) : Option Nat :=
  if 0x8000000000000 ≤ a ∧ a < 0x8000000000000 + 2 ^ 51 then
    let w := (a - 0x8000000000000) / 2 ^ 47
    let h := winBase s w + (a - 0x8000000000000) % 2 ^ 47
    if winCovers s w h then some h else none
  else none

/-! ### Replies (R339, R340, R348) -/

def attnLevel (s : State) : Nat :=
  if s.dev == .wedged then 7
  else if s.host.attnHeld || s.dev == .stopped then 6
  else if s.res.path != 0 then 5 else 0

def statusWord (s : State) (result attnEv : Nat) : List Byte :=
  leBytes 1 result ++ leBytes 1 (max attnEv (attnLevel s)) ++ leBytes 1 s.host.attnSeq ++ leBytes 1 (devCode s.dev)

def ringLog2 (s : State) (q : Nat) (reply : Bool) : Nat :=
  bitsN (reg s (ringReg q 0x10)) (if reply then 8 else 0) 5
def ringEnabled (s : State) (q : Nat) : Bool := bitN (reg s (ringReg q 0x10)) 16
def rqFull (s : State) (q : Nat) : Bool :=
  ((ring s q).rqTail + 1) % 2 ^ ringLog2 s q true == (ring s q).rqHead
def rqBase (s : State) (q : Nat) : Nat := reg s (ringReg q 8) + reg s (ringReg q 0xC) * 2 ^ 32
def sqBase (s : State) (q : Nat) : Nat := reg s (ringReg q 0) + reg s (ringReg q 4) * 2 ^ 32

/-- Write a reply at RQ_TAIL: bytes 8 to 31 first, then bytes 0 to 7 with the current PHASE; advance RQ_TAIL; PHASE
toggles at the wrap (R339). -/
def writeReply (q : Nat) (r : List Byte) (s : State) : State :=
  let a := rqBase s q + 32 * (ring s q).rqTail
  let first := r.take 7 ++ [if (ring s q).phase then 1 else 0]
  let s1 := if hostRange s a 32 then emit (.hostWrite a first) (emit (.hostWrite (a + 8) (r.drop 8)) s)
            else bump (cntDev 21) 1 s
  modRing q (fun R =>
    let t := (R.rqTail + 1) % 2 ^ ringLog2 s q true
    { R with rqTail := t, phase := if t = 0 then !R.phase else R.phase }) s1

/-- A reply is due to ring `q`: written, or queued while the reply ring is full or the function is in D3hot. -/
def reply (q tag op code : Nat) (payload : List Byte) (s : State) : State :=
  let r := statusWord s code s.host.attnStep ++ leBytes 2 tag ++ leBytes 1 op ++ [0] ++ padTo 24 payload
  if !ringEnabled s q then s
  else if rqFull s q || s.host.d3hot || !(ring s q).queued.isEmpty then
    modRing q (fun R => { R with queued := R.queued ++ [r] }) s
  else writeReply q r s

/-- Write queued replies while the ring has room (R339). -/
def drainReplies (q : Nat) : Nat → State → State
  | 0, s => s
  | n + 1, s =>
    match (ring s q).queued with
    | [] => s
    | r :: rest =>
      if rqFull s q || s.host.d3hot then s
      else drainReplies q n (writeReply q r (modRing q (fun R => { R with queued := rest }) s))

/-- The opcodes of R343. -/
def knownOpcode (o : Nat) : Bool :=
  [1, 2, 3, 4, 0x10, 0x11, 0x12, 0x18, 0x19, 0x1A, 0x20, 0x21, 0x22, 0x30, 0x31, 0x32, 0x3F].contains o

/-- The front entry of ring `q` completes: its reply, the count of commands, and the entry leaves the ring (R341). -/
def finish (q code : Nat) (payload : List Byte) (s : State) : State :=
  match (ring s q).fetched with
  | [] => s
  | e :: rest =>
    let s1 := reply q (leAt e 2 2) (leAt e 0 1) code payload (bump (cntDev 0) 1 s)
    modRing q (fun R => { R with fetched := rest, accepted := false }) s1

/-- Front entries with a reserved opcode or a non-zero reserved common byte complete with RESERVED (R342); on a wedged
device every such entry completes with WEDGED (R353). -/
def dropReserved (q : Nat) : Nat → State → State
  | 0, s => s
  | n + 1, s =>
    match (ring s q).fetched with
    | e :: _ =>
      if !(ring s q).accepted && !knownOpcode (leAt e 0 1) then
        dropReserved q n (finish q (if s.dev == .wedged then 0xFE else 1) [] s)
      else s
    | [] => s

/-- A command completes with a result code and its reply bytes (R341, R342). -/
def complete (q code : Nat) (payload : List Byte) (s : State) : State :=
  let s := finish q code payload s
  dropReserved q (ring s q).fetched.length s

/-- The front entry of ring `q`, when it is the command `op` and is not yet accepted. -/
def frontEntry (s : State) (q op : Nat) : Option (List Byte) :=
  match (ring s q).fetched with
  | e :: _ => if leAt e 0 1 = op && !(ring s q).accepted && !s.host.d3hot then some e else none
  | [] => none

/-- The device-wide order of class C (R341) is free by construction: each command is one step up to its acceptance.
The checks common to ring commands: WEDGED (R353), encoding, state (R342); then the command's own body. -/
def ringCommand (q op : Nat) (encOk : List Byte → Bool) (stateOk : State → Option Nat)
    (body : List Byte → State → State) (s : State) : State :=
  match frontEntry s q op with
  | none => s
  | some e =>
    if s.dev == .wedged && op != 0x3F then complete q 0xFE [] s
    else if !(zeroAt e 1 1 && zeroAt e 4 4 && encOk e) then complete q 1 [] s
    else match stateOk s with
      | some code => complete q code [] s
      | none => body e s

/-- BAD_STATE outside the listed states. -/
def statesOk (l : List DevState) (s : State) : Option Nat := if l.contains s.dev then none else some 2
/-- As `statesOk`, but RUN_ACTIVE where a run is active (R343). -/
def statesRun (l : List DevState) (s : State) : Option Nat :=
  if l.contains s.dev then none else if runActive s then some 6 else some 2

/-- The command is accepted and waits in its ring for its reply (R341). -/
def accept (q : Nat) (s : State) : State := modRing q (fun R => { R with accepted := true }) s

/-! ### Memory (R239 to R251) -/

/-- The regions of R239. -/
inductive MemRegion where
  | hold (n : Nat)
  | scratch (n : Nat)
  | aon
  | shared
  | lpddr
  | host (w : Nat)
  deriving DecidableEq, Repr

def lpddrBase : Nat := 0x100000000000
def inlineEcc (s : State) : Bool := bitN (reg s 0x400000) 0
def lpddrSize (s : State) : Nat := if inlineEcc s then 480 * 2 ^ 30 else 512 * 2 ^ 30

/-- The region of a device address; none where R239 has none. -/
def memRegion (s : State) (a : Nat) : Option MemRegion :=
  if a < 96 * 0x2000000 then (if a / 0x2000000 < enabledCores s then some (.hold (a / 0x2000000)) else none)
  else if 0x1000000000 ≤ a ∧ a < 0x1006000000 then
    let n := (a - 0x1000000000) / 0x100000
    if n < enabledCores s then some (.scratch n) else none
  else if 0xF000000000 ≤ a ∧ a < 0xF000040000 then some .aon
  else if 0xF000040000 ≤ a ∧ a < 0xF000100000 then some .shared
  else if lpddrBase ≤ a ∧ a < lpddrBase + lpddrSize s then some .lpddr
  else match devToHost s a with
    | some _ => some (.host ((a - 0x8000000000000) / 2 ^ 47))
    | none => none

def sharedBase : Nat := 0xF000000000
def scratchAddr (c off : Nat) : Nat := 0x1000000000 + c * 0x100000 + off

/-- The address `n` bytes below the end of LPDDR5X, whose reserved regions lie from the end down (R249). -/
def fromTop (s : State) (n : Nat) : Nat :=
  if inlineEcc s then lpddrBase + (480 * 2 ^ 30 - n) else lpddrBase + (512 * 2 ^ 30 - n)

def lpddrTop (s : State) : Nat := fromTop s 0
def descTable (s : State) : Nat := fromTop s (64 * 2 ^ 20)
def pkgRegion (s : State) : Nat := fromTop s (4160 * 2 ^ 20)
def traceRegion (s : State) : Nat := fromTop s (4416 * 2 ^ 20)
def plannerCopy (s : State) : Nat := fromTop s (4432 * 2 ^ 20)
def staging (s : State) : Nat := fromTop s (4448 * 2 ^ 20)
/-- BYTES_k of R314: the planned size of a device's image. -/
def imageBytes (p : Plan) (pos : Nat) : Nat := match p.images.find? fun x => x.1 == pos with | some x => x.2 | none => 0
/-- The buddy image region: the largest image this device keeps, rounded up to 1 GiB. -/
def buddyBytes (s : State) : Nat :=
  match s.plan with
  | some p => ceilDiv ((p.positions.filter fun e => e.buddy == p.pos && !e.spare).foldl
      (fun m e => max m (imageBytes p e.pos)) 0) (2 ^ 30) * 2 ^ 30
  | none => 0
def buddyRegion (s : State) : Nat := fromTop s (4448 * 2 ^ 20 + buddyBytes s)

/-- Regions closed to COPY and BAR4 writes (R249). -/
def closedTo (s : State) (a : Nat) : Bool :=
  (decide (pkgRegion s ≤ a) && decide (a < lpddrTop s)) ||
    (decide (buddyRegion s ≤ a) && decide (a < plannerCopy s + 16 * 2 ^ 20))

def byteD : Nat → Byte := fun _ => 0

/-- A journal entry as its 16 bytes (R311). -/
def journalBytes (e : JournalEntry) : List Byte :=
  leBytes 2 e.kind ++ b4 e.step ++ leBytes 6 e.stroke ++ leBytes 2 e.pos ++ leBytes 2 e.arg

/-- The byte at a device address: the journal, the save area and the event log are seen through their addresses
(R368, R408); every other byte is in `mem.data`. -/
def memByte (s : State) (a : Nat) : Byte :=
  if sharedBase ≤ a ∧ a < sharedBase + 0x20000 then
    let o := a - sharedBase
    match s.res.journal[o / 16]? with
    | some e => (journalBytes e).getD (o % 16) 0
    | none => sget byteD s.mem.data a
  else if sharedBase + 0x20000 ≤ a ∧ a < sharedBase + 0x30000 then
    let o := a - sharedBase - 0x20000
    match s.pwr.save[o / 4]? with
    | some w => (leBytes 4 w.2.toNat).getD (o % 4) 0
    | none => 0
  else if sharedBase + 0x40000 ≤ a ∧ a < sharedBase + 0xC0000 then
    let o := a - sharedBase - 0x40000
    match s.log.ring.find? fun x => x.1 == o / 64 with
    | some x => (logBytes x.2).getD (o % 64) 0
    | none => 0
  else sget byteD s.mem.data a

def memBytes (s : State) (a n : Nat) : List Byte := (List.range n).map fun i => memByte s (a + i)

/-- The base of the code word that holds a byte: 8-byte words in hold and shared window, 64-byte bank words in scratch
(R251); with inline ECC the
15-byte code words of R244 in LPDDR5X, else its 128-byte lines. -/
def codeWord (s : State) (a : Nat) : Nat :=
  if lpddrBase ≤ a ∧ a < lpddrTop s then
    let o := a - lpddrBase
    if inlineEcc s then
      let n := o / 128
      let l := n / 16
      let b := l % 15 * 128 + o % 128
      let b0 := b / 15 * 15
      let l' := l / 15 * 15 + b0 / 128
      lpddrBase + (l' * 16 + n % 16) * 128 + b0 % 128
    else lpddrBase + o / 128 * 128
  else if 0x1000000000 ≤ a ∧ a < 0x1006000000 then a / 64 * 64
  else a / 8 * 8

/-- The controller, local line and byte address within the controller of an LPDDR5X offset (R245). -/
def lpddrPlace (s : State) (o : Nat) : Nat × Nat × Nat :=
  let n := o / 128
  let l := n / 16
  (n % 16, l, if inlineEcc s then l / 15 * 2048 + l % 15 * 128 else l * 128)

def poisonD : Nat → Bool := fun _ => false
def isPoisoned (s : State) (a : Nat) : Bool := sget poisonD s.mem.poison (codeWord s a)
def anyPoison (s : State) (a n : Nat) : Bool := (List.range n).any fun i => isPoisoned s (a + i)

/-- The bytes of the code word whose base is `w`: one with inline ECC may run on in the next slot of its block, 2,048 bytes on (R244). -/
def wordBytes (s : State) (w : Nat) : List Nat :=
  if lpddrBase ≤ w ∧ w < lpddrTop s then
    if inlineEcc s then
      let o := w - lpddrBase
      let n := o / 128
      let l := n / 16
      let b := l % 15 * 128 + o % 128
      (List.range 15).map fun j => lpddrBase + ((l / 15 * 15 + (b + j) / 128) * 16 + n % 16) * 128 + (b + j) % 128
    else (List.range 128).map (w + ·)
  else if 0x1000000000 ≤ w ∧ w < 0x1006000000 then (List.range 64).map (w + ·)
  else (List.range 8).map (w + ·)

/-- Write bytes; a write of all bytes of a code word, or of a scratch word, leaves it neither poisoned nor uncorrectable (R246, R251). -/
def memWrite (a : Nat) (l : List Byte) (s : State) : State :=
  let covered := ((List.range l.length).map (a + ·)).filter fun x =>
    codeWord s x == x && (wordBytes s x).all fun y => decide (a ≤ y) && decide (y < a + l.length)
  { s with mem := { s.mem with
      data := ssetRun byteD s.mem.data a l,
      poison := covered.foldl (fun m x => sset poisonD m x false) s.mem.poison,
      ue := s.mem.ue.filter fun w => !covered.contains w } }

/-- Zero `n` bytes. -/
def zeroMem (a n : Nat) (s : State) : State :=
  { s with mem := { s.mem with data := serase a (a + n) s.mem.data, poison := serase a (a + n) s.mem.poison,
                               ue := s.mem.ue.filter fun w => decide (w < a) || decide (a + n ≤ w) } }

/-- Write poisoned data: each code word touched is stored as poison (R251). -/
def memPoison (a : Nat) (n : Nat) (s : State) : State :=
  { s with mem := { s.mem with
      poison := (List.range n).foldl (fun m i => sset poisonD m (codeWord s (a + i)) true) s.mem.poison,
      ue := s.mem.ue.filter fun w => !((List.range n).any fun i => codeWord s (a + i) == w) } }

/-- A code word that an earlier read found uncorrectable, and that no write has replaced. -/
def isLost (s : State) (a : Nat) : Bool := s.mem.ue.contains (codeWord s a)
def anyLost (s : State) (a n : Nat) : Bool := (List.range n).any fun i => isLost s (a + i)

/-- The core group that holds the address's scratch is OFF (R29, R364). -/
def targetAway (s : State) (a : Nat) : Bool :=
  match memRegion s a with | some (.scratch n) => group s (groupOf s n) == .off | _ => false

/-- Why a read of `n` bytes delivers poison, or a write stores nothing (R250): 4 ADDRESS, 2 TARGET_OFF, 1 UNCORRECTABLE, 5
POISON_STORED, else 0. -/
def memReason (s : State) (a n : Nat) : Nat :=
  if (List.range n).any fun i => (memRegion s (a + i)).isNone then 4
  else if (List.range n).any fun i => targetAway s (a + i) then 2
  else if anyLost s a n then 1
  else if anyPoison s a n then 5 else 0

/-- Scratch of core `c`: bytes and poison. -/
def scrBytes (s : State) (c off n : Nat) : List Byte := memBytes s (scratchAddr c off) n
def scrWrite (c off : Nat) (l : List Byte) (s : State) : State := memWrite (scratchAddr c off) l s

/-! ### The decision journal and holds (R37, R311, R319) -/

/-- Record a timed decision, or, with 8,192 entries held, raise the fault flag instead and take no decision (R311). -/
def takeTimed (kind pos arg : Nat) (f : State → State) (s : State) : State :=
  if s.res.journal.length < 8192 then
    f { s with res := { s.res with journal := s.res.journal ++
        [{ kind := kind, step := s.run.step, stroke := s.stroke.count, pos := pos, arg := arg }] } }
  else { s with res := { s.res with journalFull := true }, run := { s.run with holdDue := max s.run.holdDue 8 } }

/-- The recorded decisions of a kind that a replay of the running step applies (R37). -/
def recorded (s : State) (kind : Nat) : List JournalEntry :=
  if s.res.rollback then s.res.replayJournal.filter fun e => e.kind == kind && e.step == s.run.step else []

/-- RSL_PATH: code, step, stroke, position, part, cause (R453). -/
def pathEv (code step pos part cause : Nat) (s : State) : State :=
  logEv 0x0705 (b4 code ++ b4 step ++ b8 s.stroke.count ++ b4 pos ++ b4 part ++ b4 cause) s

/-- Count a poisoned completion or transfer by its reason (R381 slots 18 to 22). -/
def countPoison (reason : Nat) (s : State) : State :=
  if 1 ≤ reason ∧ reason ≤ 5 then bump (cntDev (17 + reason)) 1 s else s

/-- The health monitor's windowed inputs (R304): 0 memory errors, 1 FEC symbols, 2 replay reports and spared lanes,
3 droops, 7 stroke faults. -/
def health (input n : Nat) (s : State) : State :=
  { s with res := { s.res with now := smod natD s.res.now input (· + n) } }

/-! ### Trace records (R389, R390) -/

def bufD : Nat → TraceBuf := fun _ => {}
/-- Make a record of a type on a core when the session enables it (R390, R392, R393). -/
def traceRec (c thr typ arg d0 d1 : Nat) (s : State) : State :=
  match s.trace.session with
  | none => s
  | some ss =>
    let bit := if 0x40 ≤ typ then 0 else typ
    if !bitN ss.cores c || !bitN ss.types bit then s
    else
      let b := sget bufD s.trace.bufs c
      let mk := fun (ty a x y n : Nat) => b4 (s.stroke.count % 2 ^ 32) ++
        b4 (coreCycle s c % strokeCycles s % 2 ^ 27 + thr * 2 ^ 27) ++ leBytes 1 ty ++ leBytes 1 c ++
        leBytes 2 n ++ b4 a ++ b8 x ++ b8 y
      let lost := if 0 < b.lost && b.recs.length < 2046 then
          [mk 0x0B (min b.lost 0xFFFFFFFF) 0 0 b.seq] else []
      if b.recs.length + lost.length < 2047 then
        let n := b.seq + lost.length
        let b' : TraceBuf := { recs := b.recs ++ lost ++ [mk typ arg d0 d1 (n % 65536)], seq := (n + 1) % 65536,
                               lost := if lost.isEmpty then b.lost else 0 }
        bump (cntCore c 43) (1 + lost.length)
          { s with trace := { s.trace with bufs := sset bufD s.trace.bufs c b' } }
      else
        bump (cntCore c 44) 1 { s with trace := { s.trace with
          session := some { ss with dropped := ss.dropped + 1 },
          bufs := sset bufD s.trace.bufs c { b with seq := (b.seq + 1) % 65536, lost := b.lost + 1 } } }

end Sys2Proof.Machine
end

