-- ==== Sys2Proof/Machine/Tile.lean ====
section
/-! DEFINITION. Instruction words and the queues of the arrays: the fields of an instruction (R161), of a TILE (R162), TILE
groups (R79), the composition that a group needs (R84), and what the fill unit serves next (R76, R78, R86). -/

namespace Sys2Proof.Machine

open Sys2Proof

/-! ### Fields -/

/-- Bits `[lo + n - 1 : lo]` of an instruction word. -/
def iF (w : InstrWord) (lo n : Nat) : Nat := bitsN w.toNat lo n
def iClass (w : InstrWord) : Nat := iF w 0 4
def iOp (w : InstrWord) : Nat := iF w 4 6
def iCntEn (w : InstrWord) : Bool := bitN w.toNat 10
def iCnt (w : InstrWord) : Nat := iF w 16 8

/-! ### Fields of TILE -/

def tArray (w : InstrWord) : Nat := iF w 24 2
def tEnd (w : InstrWord) : Bool := bitN w.toNat 26
def tSkip (w : InstrWord) : Bool := bitN w.toNat 27
def tK (w : InstrWord) : Nat := 32 * (iF w 28 2 + 1)
def tN (w : InstrWord) : Nat := iF w 30 7 + 1
def tM (w : InstrWord) : Nat := iF w 37 9 + 1
def tSfmt (w : InstrWord) : Nat := iF w 46 4
def tTfmt (w : InstrWord) : Nat := iF w 50 4
def tPasses (w : InstrWord) : Nat := iF w 54 2
/-- 0 START, 1 CONTINUE, 2 LAST, 3 SINGLE. -/
def tAcc (w : InstrWord) : Nat := iF w 56 2
def tSaddr (w : InstrWord) : Nat := iF w 58 20
def tRaddr (w : InstrWord) : Nat := iF w 78 20
def tSlot (w : InstrWord) : Nat := iF w 98 11
def tColm (w : InstrWord) : Nat := iF w 109 7
def tFeeda (w : InstrWord) : Nat := iF w 116 4
def tOuta (w : InstrWord) : Nat := iF w 120 4
/-- The tile drains: LAST or SINGLE. -/
def tDrains (w : InstrWord) : Bool := decide (2 ≤ tAcc w)
/-- The tile replaces bank rows: START or SINGLE. -/
def tFresh (w : InstrWord) : Bool := tAcc w == 0 || tAcc w == 3

/-- A format of R69 as stationary operand. -/
def statFmt (code : Nat) : Option Fmt :=
  match fmtOfCode code with
  | some .fp32 => none
  | o => o
/-- A format of R69 as stream operand. -/
def streamFmt (code : Nat) : Option Fmt :=
  match fmtOfCode code with
  | some .fp32 => none
  | some .tc4 => none
  | o => o

/-- Columns of elements in a tile of a format: 128 ÷ c (R71). -/
def tileCols (f : Fmt) : Nat := 128 / fmtC f
/-- Bytes of a stationary element plane (R77). -/
def planeLen (f : Fmt) : Nat := 128 * tileCols f * fmtWidth f / 8
/-- Bytes of its scale plane, which follows it (R77, R162). -/
def scaleLen (f : Fmt) : Nat := if isMx f then 4 * tileCols f else 0

/-- Feed bytes a cycle (R81). -/
def feedTotal (f : Fmt) : Nat := ceilDiv (16 * fmtWidth f) (fmtD f) + (if isMx f then ceilDiv 4 (fmtD f) else 0)

/-- ceil(n × max(L ÷ l, I ÷ i, O ÷ o)) of R164, in cycles, from the totals of lane-cycles, bytes read and bytes written. -/
def occupancy (L l I i O o : Nat) : Nat := max (ceilDiv L l) (max (ceilDiv I i) (ceilDiv O o))

def tilesOf (l : List ArrOp) : List TileOp :=
  l.filterMap fun o => match o with
    | .tile t => some t
    | _ => none
def queueOf (s : State) (c a : Nat) : List ArrOp := (arr s c a).queue
/-- The TILEs of group `g` on a core, by array. -/
def groupTiles (s : State) (c g : Nat) : List (Nat × TileOp) :=
  (List.range 4).flatMap fun a => ((tilesOf (queueOf s c a)).filter fun t => t.grp == g).map fun t => (a, t)
/-- A TILE group is open: some of its TILEs are queued and GRP_END has not come. -/
def groupOpen (s : State) (c : Nat) : Bool := !(groupTiles s c (core s c).grpNo).isEmpty

/-! ### Composition, fills and tables in wait -/

/-- The composition that a TILE needs: c, d. -/
def tileComp (w : InstrWord) : Nat × Nat :=
  (fmtC ((statFmt (tSfmt w)).getD .bf16), fmtD ((streamFmt (tTfmt w)).getD .bf16))

/-- A group can run without a fence in the core's present composition (R84): widths and digits that no fill has set yet
do not differ. -/
def compMatches (s : State) (c : Nat) (ts : List (Nat × TileOp)) : Bool :=
  ts.all fun x =>
    let k := tileComp (BitVec.ofNat 128 x.2.w)
    ((arr s c x.1).width == 0 || (arr s c x.1).width == k.1) && ((core s c).digits == 0 || (core s c).digits == k.2)

/-- The next TILE to fill: the first unfilled one, when no TBL stands before it. -/
def nextFill : List ArrOp → Option TileOp
  | [] => none
  | .tile t :: rest => if t.filled then nextFill rest else some t
  | .tbl _ _ :: _ => none
  | .idle _ _ _ :: rest => nextFill rest

/-- The TILE that the fill unit can load into an array now: its shadow set is free and the core is configured for the TILE's
composition (R78, R84). -/
def fillReady (s : State) (c a : Nat) : Option TileOp :=
  match nextFill (queueOf s c a) with
  | none => none
  | some t =>
    if (arr s c a).full || (core s c).fence || gated s c 4 || !compMatches s c (groupTiles s c t.grp) then none else some t

/-- The first TBL of a queue, when every TILE before it is filled. -/
def nextTbl : List ArrOp → Option (Nat × Nat)
  | [] => none
  | .tile t :: rest => if t.filled then nextTbl rest else none
  | .tbl t w :: _ => some (t, w)
  | .idle _ _ _ :: rest => nextTbl rest

/-- The fill unit serves this array: it loads a TILE, arrays in ascending order (R78), or copies codebooks. -/
def filling (s : State) (c a : Nat) : Bool :=
  ((fillReady s c a).isSome && !(List.range a).any fun b => (fillReady s c b).isSome) || (nextTbl (queueOf s c a)).isSome

end Sys2Proof.Machine
end

