-- ==== Sys2Proof/Machine/RegRead.lean ====
section
/-! DEFINITION. Reading BAR0: every RO and RL field computed from the state (R13, R15, R424 to R426). -/

namespace Sys2Proof.Machine

open Sys2Proof

/-- A field placed at bit `lo`. -/
def fld (v lo w : Nat) : Nat := v % 2 ^ w * 2 ^ lo
def bfl (b : Bool) (lo : Nat) : Nat := b2n b * 2 ^ lo

/-- The learning rate of an optimiser entry at step `n` (R197). -/
def lrAt (e : OptEntry) (n : Nat) : Word :=
  match e.knots with
  | [] => 0
  | (s0, l0) :: rest =>
    if n ≤ s0 then l0
    else
      let rec go (s0 : Nat) (l0 : Word) : List (Nat × Word) → Word
        | [] => l0
        | (s1, l1) :: t =>
          if n < s1 then fma32 (div32 (ofNat32 (n - s0)) (ofNat32 (s1 - s0))) (sub32 l1 l0) l0
          else go s1 l1 t
      go s0 l0 rest

def optEntry (s : State) (i : Nat) : Option OptEntry := s.pkg.bind fun p => p.opts[i]?

/-! ### The update engines as their registers show them (R202) -/

/-- The block that engine `e` updates now. -/
def engineAt (s : State) (e : Nat) : Option (Nat × Nat) :=
  match s.plan with
  | some p => if s.run.phase == .update && !s.run.skipped then engineNext e p.pieces 0 (sget natD s.run.upd e) else none
  | none => none
def engineActive (s : State) (e : Nat) : Bool := (engineAt s e).isSome
/-- The optimiser entry of the element being updated, and else of the last one. -/
def engineEntry (s : State) (e : Nat) : Nat :=
  match engineAt s e, s.plan with
  | some x, some p => match p.pieces[x.1]? with | some y => y.opt | none => 0
  | _, _ => sget natD s.run.updEntry e
/-- A conversion of the step of which the engine makes some block is not done (block b by engine b mod 16). -/
def engineConverts (s : State) (e : Nat) : Bool :=
  match s.plan with
  | some p => s.run.phase == .compute && p.convs.any fun c => !s.run.converted.contains c.tensor && decide (32 * e < elemsOf c.dims)
  | none => false
/-- A codebook of this step is due and not yet rebuilt. -/
def engineBooks (s : State) : Bool :=
  match s.plan, s.pkg with
  | some p, some k => s.run.phase == .compute && p.books.any fun g => match k.layers[g.layer]? with
      | some y => y.cbPeriod != 0 && s.run.step % y.cbPeriod == 0 && !s.run.booksDone.contains (s.run.step, g.layer, g.group)
      | none => false
  | _, _ => false

/-- W_r of R235. -/
def replanStrokes (period : Nat) : Nat := ceilDiv 50000000 period

/-- The lockkeeper's stage (R223, R238): 0 but in the strokes of a boundary that plan again (R235), where the stage that runs at a
time is free. -/
def planStage (s : State) : Nat :=
  match s.plan with
  | some p =>
    if s.run.phase == .boundary && s.run.replanned && decide (s.stroke.slot < s.run.slotStart + 1 + replanStrokes p.period) then
      1 + Config.planStage p.inputRec (s.stroke.slot - s.run.slotStart) % 8
    else 0
  | none => 0

/-- COX_STATUS.PENDING and LKP_STATUS.PENDING (R428). -/
def coxPending (s : State) : Bool := (capturedRegs.take 8).any fun o => reg s o != cap s o
def lkpPending (s : State) : Bool := (capturedRegs.drop 8).any fun o => reg s o != cap s o

/-- RUN_LOCK of a core: it is in an active run (R176). -/
def runLock (s : State) (c : Nat) : Bool :=
  runActive s && (match s.plan with | some p => decide (c < p.cPlan) | none => false)
def anyRunLock (s : State) : Bool := runActive s && s.plan.isSome

def thrCode : ThrState → Nat
  | .stopped => 0 | .running => 1 | .waiting => 2 | .halted => 3 | .faulted => 4

/-- A core window that reads all ones: its group is OFF or in G3 or deeper (R425). -/
def coreDark (s : State) (c : Nat) : Bool :=
  s.pwr.state == .g3 || s.pwr.state == .g4 || s.pwr.state == .g5 || group s (groupOf s c) == .off

/-- A register of a domain that is off reads all ones (R364, R425). -/
def domainOff (s : State) (off : Nat) : Bool :=
  if 0x300000 ≤ off ∧ off < 0x400000 then s.pwr.state == .g5 || !s.pwr.domains
  else if 0x410000 ≤ off ∧ off < 0x420000 then s.pwr.state == .g4 || s.pwr.state == .g5 || !s.pwr.domains
  else if 0x440000 ≤ off ∧ off < 0x446000 then s.pwr.state == .g4 || s.pwr.state == .g5 || !s.pwr.domains
  else if 0x1000000 ≤ off ∧ off < 0x1C00000 then coreDark s ((off - 0x1000000) / 0x20000) || !s.pwr.domains
  else false

/-- The rank of the failed sensors (R421 FAILED_SENSORS). -/
def failedSensors (s : State) : Nat := ((List.range 30).filter fun i => (sensor s i).fail).length

/-- Spare rows and columns in use in an array of a physical core (R88, R432). -/
def rowsOf (s : State) (p a : Nat) : List Nat := sget (fun _ => []) s.fuses.rows (p * 4 + a)
def colsOf (s : State) (p a : Nat) : List Nat := sget (fun _ => []) s.fuses.cols (p * 4 + a)

/-- N: blown anti-rollback bits from bit 0 up to the first unblown one (R400). -/
def svnCount (s : State) : Nat := ((List.range 64).takeWhile (bitN s.fuses.svnBits)).length

/-- A holding slot as its 64 bits (R383, R386). -/
def holdSlot (s : State) (off : Nat) : Nat := sget natD s.cnt.hold off

def activePasses (s : State) : Nat := (s.stm.desc.filter fun x => x.2.pass.isSome).length
def shadowsUsed (s : State) : Nat := (s.stm.desc.filter fun x => x.2.shadow.isSome).length

/-- The RUN at the head of a core's STR queue waits at its mark (R260). Descriptor images lie in the table. -/
def descImage (s : State) (d : Nat) : List Byte := memBytes s (descTable s + 64 * d) 64
def markMet (s : State) (img : List Byte) : Bool :=
  leAt img 0x18 2 == 0xFFFF || decide (0 ≤ sInt 32 (mark s (leAt img 0x18 2) + 2 ^ 32 - leAt img 0x1C 4 % 2 ^ 32))
def strHeadDesc (o : StrOp) : Option Nat := if bitsN o.w 4 6 = 0 then some (bitsN o.w 24 20) else none
def waitsAtMark (s : State) (c : Nat) : Option Nat :=
  match (core s c).str with
  | o :: _ => match strHeadDesc o with
    | some d => if markMet s (descImage s d) then none else some d
    | none => none
  | [] => none

/-- RO and RL fields of the global set-up range. -/
def roSetup (s : State) (off : Nat) : Nat :=
  if off < 0x1000 then
    match off with
    | 0x00 => 0x2F02 + fld s.fuses.minor 16 4 + fld s.fuses.major 20 4
    | 0x04 => 0x2D71
    | 0x08 => s.fuses.serial % 2 ^ 32
    | 0x0C => s.fuses.serial / 2 ^ 32 % 2 ^ 32
    | 0x18 => enabledCores s
    | _ => 0
  else if off < 0x2000 then
    let n := bitsN (reg s 0x1020) 0 7
    let a := bitsN (reg s 0x1020) 8 2
    let p := physCore s n
    let ok := decide (n < enabledCores s)
    match off with
    | 0x1000 => bitsN s.fuses.coresOff 0 32
    | 0x1004 => bitsN s.fuses.coresOff 32 32
    | 0x1008 => bitsN s.fuses.coresOff 64 32
    | 0x100C => bitsN s.fuses.coresOff 96 32
    | 0x1010 => bitsN s.disabled 0 32
    | 0x1014 => bitsN s.disabled 32 32
    | 0x1018 => bitsN s.disabled 64 32
    | 0x101C => bitsN s.disabled 96 32
    | 0x1024 => if ok then p + bfl true 7 +
        ((List.range 4).foldl (fun x i => x + fld (rowsOf s p i).length (8 + 5 * i) 3 + fld (colsOf s p i).length (11 + 5 * i) 2) 0)
        + fld (groupOf s n) 28 4 else 0
    | 0x1028 => if ok then (List.range 4).foldl (fun x i => x + fld ((rowsOf s p a).getD i 0xFF) (8 * i) 8) 0 else 0
    | 0x102C => if ok then (List.range 2).foldl (fun x i => x + fld ((colsOf s p a).getD i 0xFF) (8 * i) 8) 0 else 0
    | _ => 0
  else if off < 0x3000 then
    match off with
    | 0x2000 => devCode s.dev + bfl s.host.rwPlan.isSome 8 + bfl s.run.ready 9 + bfl s.host.lost 10
                + fld s.host.linkWidth 16 3 + fld s.host.linkSpeed 19 4
    | 0x2004 => max s.host.attnStep (attnLevel s) + fld s.host.attnSeq 8 8
    | _ => 0
  else if off < 0x3800 then
    let q := (off - 0x3000) / 0x20
    match off % 0x20 with
    | 0x14 => (ring s q).sqHead + fld (ring s q).rqTail 16 16
    | 0x18 => bfl (!(ring s q).fetched.isEmpty) 0 + bfl (ring s q).fetchErr 1 + bfl (!(ring s q).queued.isEmpty) 2
              + bfl (ring s q).phase 3
    | _ => 0
  else if off < 0x4000 then 0
  else if off < 0x5000 then
    let k := s.stroke
    match off with
    | 0x4008 => bfl k.locked 0 + bfl k.master 1 + bfl k.easy 2 + bfl k.guard 3 + fld k.parentPort 8 4
                + fld k.parentSub 12 1 + bfl k.noParent 13
    | 0x400C => toTwos 16 k.offset
    | 0x4010 => k.count % 2 ^ 32
    | 0x4014 => k.slot % 2 ^ 32
    | 0x4018 => k.easyRun % 2 ^ 32
    | _ => 0
  else if off < 0x6000 then
    match off with
    | 0x5000 => fld (planStage s) 8 4 + bfl (planStage s != 0) 0 + bfl s.plan.isSome 1 + bfl s.link.digestOk 2 + bfl (lkpPending s) 3 + bfl (!s.cox.withdrawn.isEmpty) 4
    | 0x5004 => s.boot.running.planner % 65536
    | _ => 0
  else if off < 0x7000 then
    if off = 0x6020 then
      bfl (coxPending s) 0 + bfl (decide (0 < s.cox.hold)) 1 + bfl (decide (0 < s.cox.recovery)) 2
        + fld s.cox.hold 8 8 + fld s.cox.recovery 16 5
    else 0
  else if off < 0x8000 then
    let e := (off - 0x7000) / 0x10
    if off % 0x10 = 0 then bfl (engineActive s e) 0 + bfl (engineConverts s e) 1 + bfl (engineBooks s) 2 + fld (engineEntry s e) 8 4
    else match optEntry s (engineEntry s e) with | some x => (lrAt x s.run.step).toNat | none => 0
  else if off < 0x9000 then
    let d := reg s 0x8004
    match off with
    | 0x8000 => bfl (decide (0 < activePasses s)) 0 + bfl (decide (4096 ≤ shadowsUsed s)) 1
                + bfl ((List.range 96).any fun c => (waitsAtMark s c).isSome) 2 + fld (activePasses s) 16 14
    | 0x8008 => bfl (desc s d).pass.isSome 0 + bfl (desc s d).shadow.isSome 1 + bfl (desc s d).cached 2
                + bfl ((List.range 96).any fun c => waitsAtMark s c == some d) 3
    | 0x800C => (desc s d).gen
    | 0x8014 => mark s (reg s 0x8010)
    | _ => 0
  else if off < 0xA000 then
    match off with
    | 0x9004 => s.link.epoch
    | 0x9008 => bfl (s.red.pass == 1) 0 + bfl (s.red.pass == 3) 1 + bfl (s.red.pass == 4) 2 + bfl s.red.scaleFind 3
                + bfl (s.run.phase == .distribution) 4 + fld s.red.excluded.length 16 12
    | _ => 0
  else if off < 0xB000 then
    match off with
    | 0xA000 => s.res.risk + fld s.res.sysRisk 4 3 + bfl (s.dev == .securing) 8 + bfl (s.dev == .held) 9
                + bfl s.res.rollback 10 + bfl s.res.filling 11 + bfl s.res.imgValid 12
                + bfl (match s.plan with
                  | some p => p.positions.any fun e => e.pos == p.pos && e.shared
                  | none => false) 13
                + bfl s.res.restorePending 14 + fld s.res.path 16 4
    | 0xA010 => s.res.hcopyState + fld s.res.hcopyPercent 8 7
    | 0xA014 => match s.res.imgStep with | some n => n | none => 0xFFFFFFFF
    | 0xA018 => s.res.journal.length
    | _ => 0
  else
    let g2 := (List.range 12).foldl (fun x g => x + bfl (group s g == .g2) g) 0
    let off' := (List.range 12).foldl (fun x g => x + bfl (group s g == .off || s.pwr.state == .g3 || s.pwr.state == .g4
      || s.pwr.state == .g5) g) 0
    let avs := fun r => (railAvs s r).target + fld (railAvs s r).band 12 2 + fld (railAvs s r).acked 16 12
      + fld (railAvs s r).retries 28 2
    match off with
    | 0xB00C => (match s.pwr.state with | .g3 => 3 | .g4 => 4 | _ => 0) + bfl s.pwr.exiting 3
                + bfl ((railAvs s 0).fault || (railAvs s 1).fault) 4 + bfl (!s.pwr.barred.isEmpty) 5 + bfl s.pwr.throttle 6
    | 0xB010 => g2 + off' * 2 ^ 16
    | 0xB014 => avs 0
    | 0xB018 => avs 1
    | _ => 0

def digitsOf (s : State) (c : Nat) : Nat := (core s c).digits

/-- RO and RL fields above the global set-up range. -/
def roHigh (s : State) (off : Nat) : Nat :=
  if off < 0x200000 then
    let o := off - 0x100000
    match o with
    | 0x000 => bfl s.boot.recovery 0 + bfl s.pins.thermTrip 4 + fld (failedSensors s) 8 5
    | 0x010 => bfl s.mgmt.mboxBusy 0 + fld s.mgmt.mboxCode 4 4
    | 0x014 => s.log.next % 2 ^ 32
    | 0x018 => s.boot.cause
    | 0x01C => s.boot.running.fwVersion % 2 ^ 32
    | 0x020 => svnCount s + fld s.fuses.revoked 8 4 + fld s.boot.running.slot 12 2
    | _ =>
      if 0x100 ≤ o ∧ o < 0x178 then
        let x := sensor s ((o - 0x100) / 4)
        toTwos 12 x.reading + bfl x.valid 12 + bfl x.fail 13
      else
        let x := railTel s ((o - 0x200) / 8)
        x.vout % 2 ^ 16 + fld x.iout 16 15 + bfl x.failed 31
  else if off < 0x224000 then
    match off with
    | 0x200004 => s.cnt.seq
    | 0x200008 => s.cnt.stroke % 2 ^ 32
    | 0x20000C => s.cnt.stroke / 2 ^ 32
    | 0x200010 => s.cnt.cycle
    | 0x200014 => bfl (s.cnt.exact.any fun x => cntSat x.1 x.2 && cntGroup x.1 != 5) 0 + bfl s.trace.session.isSome 1
                  + bfl (s.trace.bufs.any fun x => decide (2047 ≤ x.2.recs.length)) 2
                  + bfl (!s.cnt.pending.isEmpty) 3
    | 0x200018 => s.trace.wptr % 2 ^ 32
    | _ => bitsN (holdSlot s (off / 8 * 8)) (off % 8 * 8) 32
  else if off < 0x400000 then
    let p := (off - 0x300000) / 0x10000
    let P := port s p
    let split := bitN (reg s (portReg p 0)) 1
    match off % 0x10000 with
    | 0x04 => bfl P.sub0.up 0 + bfl (split && P.sub1.up) 1 + bfl (P.sub0.training || P.sub1.training) 2 + bfl (P.spared && P.sub0.up) 3
              + bfl P.behind 5 + fld P.sub0.lanes 8 3
              + fld P.failedLanes 12 4
    | 0x08 => P.sub0.latency % 2 ^ 16
    | 0x0C => P.sub1.latency % 2 ^ 16
    | 0x10 => P.sub0.peerPos + fld P.sub0.peerPort 12 4 + fld P.sub0.peerSub 16 1 + bfl P.sub0.peerValid 17
    | 0x14 => P.sub1.peerPos + fld P.sub1.peerPort 12 4 + fld P.sub1.peerSub 16 1 + bfl P.sub1.peerValid 17
    | _ => 0
  else if off < 0x420000 then
    let x := ch s ((off - 0x410000) / 0x1000)
    bfl x.trained 0 + bfl x.init 1 + bfl x.selfRefresh 2 + bfl x.hot 3 + bfl (x.scrubbing && bitN (reg s 0x400000) 1) 4
  else if off < 0x446000 then
    let x := part s ((off - 0x440000) / 0x100)
    bfl x.init 0 + bfl (x.scrubbing && bitN (reg s 0x400000) 1) 1
  else
    let c := (off - 0x1000000) / 0x20000
    let o := (off - 0x1000000) % 0x20000
    if o = 0 then bfl (runLock s c) 8
    else if o = 8 then coreCycle s c % 2 ^ 32
    else if 0x1000 ≤ o ∧ o < 0x1800 then
      let T := thread s c ((o - 0x1000) / 0x40)
      match (o - 0x1000) % 0x40 with
      | 0 => thrCode T.state + fld T.pc 8 16
      | 4 => T.cause + fld T.faultPc 8 16
      | _ => 0
    else if 0x1C000 ≤ o ∧ (o - 0x1C000) % 0x40 = 8 then
      let A := arr s c ((o - 0x1C000) / 0x40)
      bfl A.streaming 0 + bfl (filling s c ((o - 0x1C000) / 0x40)) 1
        + bfl (core s c).fence 2 + bfl (A.ballast && !(core s c).fence) 3 + bfl (A.ramp != 0 && !(core s c).fence) 4 + bfl (A.streaming && A.skip) 5
        + fld A.width 8 2 + fld (digitsOf s c) 10 3
    else 0

/-- The instance of a numbered register exists: core windows and hold partitions below the enabled core count (R425). -/
def instanceExists (s : State) (off : Nat) : Bool :=
  if 0x1000000 ≤ off ∧ off < 0x1C00000 then decide ((off - 0x1000000) / 0x20000 < enabledCores s)
  else if 0x440000 ≤ off ∧ off < 0x446000 then decide ((off - 0x440000) / 0x100 < enabledCores s)
  else true

/-- In RECOVERY only the host interface and management ranges answer (R425). -/
def recoveryHides (s : State) (off : Nat) : Bool :=
  s.dev == .recovery && !((0x2000 ≤ off && off < 0x4000) || (0x100000 ≤ off && off < 0x200000))

/-- The read of an aligned 32-bit register (R424, R425). -/
def readReg (s : State) (off : Nat) : Nat :=
  if s.dev == .boot then 0xFFFFFFFF
  else if recoveryHides s off then 0xFFFFFFFF
  else if 0x2000000 ≤ off ∧ off < 0x4000000 then
    let x := (off - 0x2000000) / 4 / 32 * 4
    let b := (off - 0x2000000) / 4 % 32
    match regInfo (x / 4 * 4) with
    | some _ => b2n (bitN (reg s x + roSetup s x) b)
    | none => 0
  else match regInfo off with
    | none => 0
    | some _ =>
      if !instanceExists s off then 0
      else if domainOff s off then 0xFFFFFFFF
      else if off < 0x100000 then reg s off + roSetup s off else reg s off + roHigh s off

/-- A read of 1, 2, 4 or 8 bytes of BAR0 (R424): part of a register, a register, or two adjacent ones; a misaligned read returns
all ones. -/
def readBar0 (s : State) (off size : Nat) : Nat :=
  if off % size ≠ 0 then 2 ^ (8 * size) - 1
  else if size = 8 then readReg s off + readReg s (off + 4) * 2 ^ 32
  else readReg s (off / 4 * 4) / 2 ^ (8 * (off % 4)) % 2 ^ (8 * size)

/-- A read of doorbell page `q` of BAR2 (R337): each doorbell as last written; every other offset reads 0. -/
def readDoorbell (s : State) (q off : Nat) : Nat := if off = 0 then (ring s q).sqTail else if off = 0x800 then (ring s q).rqHead else 0

/-- The words of the configuration space that identify the function (R332, R430): vendor and device, revision and class code, and the
subsystem identifiers of a board that gives none. -/
def configWord (s : State) (off : Nat) : Nat :=
  if off = 0 then 0x2D71 + fld 0x2F02 16 16
  else if off = 8 then s.fuses.minor + fld s.fuses.major 4 4 + fld 0x120000 8 24
  else if off = 0x2C then 0x2D71
  else 0

end Sys2Proof.Machine
end

