-- ==== Sys2Proof/Machine/Inputs.lean ====
section
/-! DEFINITION. Stage 1 of the lockkeeper (R219 to R222, R450): the steering pairs, the input record, the system map with its checks
and amendments, distances over the map. -/

namespace Sys2Proof.Machine

open Sys2Proof

/-! ### Small functions -/

def bestOf {β : Type} (lt : β → β → Bool) : List β → Option β
  | [] => none
  | x :: t => match bestOf lt t with
    | some y => if lt y x then some y else some x
    | none => some x

def minOr (d : Nat) : List Nat → Nat
  | [] => d
  | x :: t => t.foldl min x

/-- The hint of a kind in the list of a layer or a tensor (R186). -/
def hintOf (pk : Pkg) (first kind : Nat) : Option Nat := ((hintList pk.hints first).find? fun h => h.kind == kind).map (·.value)

/-- SEQ_MAX_all: the largest SEQ_MAX of the bound sources (R194). -/
def seqMaxAll (s : State) : Nat := (List.range 16).foldl (fun m i => match source s i with | some x => max m x.seqMax | none => m) 0

/-! ### Steering pairs (R132, R138) -/

def pairKey (layer role : Nat) : Nat := layer * 3 + role

/-- The steering pairs of the package, layer by layer and then W, A, G. -/
def pairs (p : Pkg) : List (Nat × Nat × LayerDesc) :=
  (p.layers.zipIdx).flatMap fun (y, i) => ([0, 1, 2].filter (steered y)).map fun r => (i, r, y)

def rungOf (s : State) (layer role : Nat) : Nat := sget natD s.cox.rung (pairKey layer role)
/-- The pinned rung, 0 for none. -/
def pinOf (s : State) (layer role : Nat) : Nat := sget natD s.cox.pin (pairKey layer role)
/-- A layer with at least one role that is unpinned and has two or more used rungs: a steered layer (R146). -/
def layerSteered (s : State) (i : Nat) (y : LayerDesc) : Bool :=
  [0, 1, 2].any fun r => steered y r && pinOf s i r == 0 && decide (2 ≤ (usedRungs (layerLadder y r)).length)
def quietOf (s : State) (layer role : Nat) : Nat := sget natD s.cox.quiet (pairKey layer role)
def setRung (layer role n : Nat) (s : State) : State :=
  { s with cox := { s.cox with rung := sset natD s.cox.rung (pairKey layer role) n } }
def setPin (layer role n : Nat) (s : State) : State :=
  { s with cox := { s.cox with pin := sset natD s.cox.pin (pairKey layer role) n } }
def setQuiet (layer role n : Nat) (s : State) : State :=
  { s with cox := { s.cox with quiet := sset natD s.cox.quiet (pairKey layer role) n } }

/-- The rung byte of a pair at rung `n`. -/
def rungByte (y : LayerDesc) (r n : Nat) : Nat := if n = 0 then 0 else (layerLadder y r).rungs.getD (n - 1) 0

/-- The reserve of a pair: the current rung, and the rung above unless it is pinned or at its ceiling (R19, R136). -/
def reserveRungs (s : State) (layer role : Nat) (y : LayerDesc) : List Nat :=
  let c := rungOf s layer role
  if pinOf s layer role != 0 || (layerLadder y role).ceil ≤ c || s.cox.withdrawn.contains (pairKey layer role) then [c]
  else [c, c + 1]

/-! ### Input record (R219, R450) -/

def sourceRecord (s : State) (i : Nat) : List Byte :=
  match source s i with
  | some x => leBytes 1 i ++ leBytes 1 x.weight ++ leBytes 2 0 ++ leBytes 4 x.seqMax ++ leBytes 8 x.seed
  | none => List.replicate 16 0

def pairRecord (s : State) (x : Nat × Nat × LayerDesc) : List Byte :=
  let k := pairKey x.1 x.2.1
  leBytes 2 x.1 ++ leBytes 1 x.2.1 ++ leBytes 1 (rungOf s x.1 x.2.1) ++ leBytes 1 (pinOf s x.1 x.2.1) ++
    leBytes 1 (b2n (s.cox.flaggedPrev.contains x.1) + 2 * b2n (s.cox.withdrawn.contains k)) ++ leBytes 2 0

def failRecord (f : FailInput) : List Byte := leBytes 1 f.kind ++ leBytes 2 f.pos ++ leBytes 1 f.part ++ leBytes 4 f.arg

/-- The input record as the byte string of R450. -/
def inputRecord (s : State) (p : Pkg) (n : Nat) : List Byte :=
  let ps := pairs p
  leBytes 2 s.boot.running.planner ++ p.digest ++ s.mapBytes ++ (List.range 16).flatMap (sourceRecord s) ++
    (capturedRegs.flatMap fun o => leBytes 4 (cap s o)) ++
    leBytes 4 ps.length ++ ps.flatMap (pairRecord s) ++
    leBytes 1 s.cox.stormCount ++ leBytes 1 s.cox.hold ++ leBytes 1 s.cox.recovery ++ leBytes 1 0 ++
    leBytes 4 s.failInputs.length ++ s.failInputs.flatMap failRecord ++ leBytes 4 n

/-- Keep a failure-path input, in ascending order of kind, position and part (R450 item 9). -/
def addFail (f : FailInput) (l : List FailInput) : List FailInput :=
  let before := fun (a b : FailInput) =>
    decide (a.kind < b.kind) || (a.kind == b.kind && (decide (a.pos < b.pos) || (a.pos == b.pos && decide (a.part < b.part))))
  let same := fun (a : FailInput) => a.kind == f.kind && a.pos == f.pos && a.part == f.part
  (l.filter fun a => before a f) ++ [f] ++ l.filter fun a => !before a f && !same a

/-! ### The system map (R220, R221) -/

def entryPos (e : Nat) : Nat := bitsN e 0 12
def entryPort (e : Nat) : Nat := bitsN e 12 4
def entrySub (e : Nat) : Nat := bitsN e 16 1
def entryLanes (e : Nat) : Nat := bitsN e 17 3

def readMapDev (d : List Byte) (i : Nat) : MapDev :=
  let o := 64 + 160 * i
  { pos := leAt d o 2, feed := leAt d (o + 2) 2, cores := leAt d (o + 4) 1, spare := leAt d (o + 5) 1 % 2 == 1,
    ports := (List.range 32).map fun k => leAt d (o + 0x10 + 4 * k) 4 }

def parseMap (d : List Byte) : List MapDev := (List.range (leAt d 6 2)).map (readMapDev d)

/-- A port entry's own range: LANES 0, 2, 3 or 4, a sub-port 1 with two lanes only beside a two-lane sub-port 0. -/
def entryOk (l : List Nat) (k : Nat) : Bool :=
  let e := l.getD k 0
  e / 2 ^ 20 == 0 &&
    (if k % 2 = 0 then [0, 2, 3, 4].contains (entryLanes e)
     else e == 0 || (entryLanes e == 2 && (entryLanes (l.getD (k - 1) 0) == 2 || entryLanes (l.getD (k - 1) 0) == 0)))

/-- Every field in range (R220, R221). -/
def mapForm (d : List Byte) (bytes : Nat) : Bool :=
  let ds := parseMap d
  leAt d 0 4 == 0x50414D53 && leAt d 4 2 == 1 && decide (2 ≤ leAt d 6 2) && decide (leAt d 6 2 ≤ 4096) &&
  zeroAt d 8 56 && bytes == 64 + 160 * leAt d 6 2 && risingNat (ds.map (·.pos)) &&
  (ds.zipIdx).all fun (x, i) =>
    decide (x.pos ≤ 4095) && decide (1 ≤ x.cores) && decide (x.cores ≤ 96) && leAt d (64 + 160 * i + 5) 1 / 2 == 0 &&
    zeroAt d (64 + 160 * i + 6) 10 && zeroAt d (64 + 160 * i + 0x90) 16 && (List.range 32).all (entryOk x.ports)

def devAt (ds : List MapDev) (p : Nat) : Option MapDev := ds.find? fun x => x.pos == p

/-- Every link is listed identically at both ends. -/
def linksMatch (ds : List MapDev) : Bool :=
  ds.all fun x => (List.range 32).all fun k =>
    let e := x.ports.getD k 0
    entryLanes e == 0 || (entryPos e != x.pos && match devAt ds (entryPos e) with
      | some y =>
        let f := y.ports.getD (2 * entryPort e + entrySub e) 0
        entryLanes f == entryLanes e && entryPos f == x.pos && entryPort f == k / 2 && entrySub f == k % 2
      | none => false)

/-- Remove the entries of a device that satisfy `f`. -/
def dropPorts (f : Nat → Nat → Bool) (x : MapDev) : MapDev :=
  { x with ports := x.ports.zipIdx.map fun (e, k) => if f k e then 0 else e }

/-- Change each used entry of a device's ports by its number and value. -/
def mapPorts (f : Nat → Nat → Nat) (x : MapDev) : MapDev := { x with ports := x.ports.zipIdx.map fun (e, k) => f k e }

/-- Entry `k` of device `pos` is at the port that a failure-path input names, on either side of the link. -/
def atPort (f : FailInput) (pos k e : Nat) : Bool :=
  (pos == f.pos && k / 2 == f.part) || (entryPos e == f.pos && entryPort e == f.part)

/-- The butty takes the lost position: its record and every entry that names it (R326). -/
def renamePos (old new : Nat) (x : MapDev) : MapDev :=
  let y := mapPorts (fun _ e => if entryLanes e != 0 && entryPos e == old then e - old + new else e) x
  if y.pos = old then { y with pos := new, spare := false } else y

/-- The map as one failure-path input amends it (R221, R325, R326, R450 item 9). A retired replica's lost device is
removed here; its other devices become spares in the partition. -/
def amend (ds : List MapDev) (f : FailInput) : List MapDev :=
  let without := (ds.filter fun x => x.pos != f.pos).map (dropPorts fun _ e => entryPos e == f.pos)
  match f.kind with
  | 1 => ds.map fun x =>
      mapPorts (fun k e => if entryLanes e != 0 && atPort f x.pos k e then e % 2 ^ 17 + 3 * 2 ^ 17 else e) x
  | 2 => ds.map fun x => dropPorts (fun k e => atPort f x.pos k e) x
  | 3 => ds.map fun x => if x.pos = f.pos then { x with cores := x.cores - 1 } else x
  | 4 => without
  | 5 => without.map (renamePos f.arg f.pos)
  | _ => ds

/-- The active devices with the ports in use, after every failure-path input. -/
def amended (s : State) : List MapDev := (s.failInputs.foldl amend s.map)

/-! ### Distances and the sync tree (R211, R231) -/

/-- Neighbours of a position over usable ports. -/
def neighbours (ds : List MapDev) (p : Nat) : List Nat :=
  match devAt ds p with
  | some x => (x.ports.filter fun e => entryLanes e != 0 && (devAt ds (entryPos e)).isSome).map entryPos
  | none => []

/-- Breadth-first levels: positions with their hop distance, `n` levels at most. -/
def levels (ds : List MapDev) : Nat → Nat → List Nat → List (Nat × Nat) → List (Nat × Nat)
  | 0, _, _, seen => seen
  | n + 1, h, front, seen =>
    let next := (front.flatMap (neighbours ds)).eraseDups.filter fun p => !(seen.any fun x => x.1 == p)
    if next.isEmpty then seen else levels ds n (h + 1) next (seen ++ next.map fun p => (p, h + 1))

def hopsFrom (ds : List MapDev) (p : Nat) : List (Nat × Nat) := levels ds ds.length 0 [p] [(p, 0)]
def hopsOf (t : List (Nat × Nat)) (p : Nat) : Nat := match t.find? fun x => x.1 == p with | some x => x.2 | none => 0xFFFF

/-- The parent's port and sub-port: the lowest position one hop nearer, its lowest port and sub-port. -/
def parentPort (x : MapDev) (dist : List (Nat × Nat)) : Option (Nat × Nat) :=
  let c := (x.ports.zipIdx.filter fun (e, _) => entryLanes e != 0 && hopsOf dist (entryPos e) + 1 == hopsOf dist x.pos)
  let best := c.foldl (fun (m : Option (Nat × Nat)) (e, k) => match m with
    | some (b, _) => if entryPos e < b then some (entryPos e, k) else m
    | none => some (entryPos e, k)) none
  best.map fun b => (b.2 / 2, b.2 % 2)

/-- The route table of a position: fewest hops, then the lowest outgoing port, then the lowest next position. -/
def routeTable (ds : List MapDev) (me : Nat) : List (Nat × Nat) :=
  match devAt ds me with
  | none => []
  | some x => ds.filterMap fun y =>
      if y.pos = me then none
      else
        let dist := hopsFrom ds y.pos
        let near := x.ports.zipIdx.filter fun (e, _) => entryLanes e != 0 && hopsOf dist (entryPos e) + 1 == hopsOf dist me
        (bestOf (fun a b => decide ([a.2 / 2, entryPos a.1] < [b.2 / 2, entryPos b.1])) near).map fun (_, k) => (y.pos, k)

end Sys2Proof.Machine
end

