-- ==== Sys2Proof/Machine/Work.lean ====
section
/-! DEFINITION. The lockkeeper's work (R19, R194, R224, R226, R227): the cost model, the work units of every layer, TILE groups with
their stationary operands, and the cut of a product over the cores. How an operator other than a product splits into instructions,
and how tensor-parallel ranks share a layer, is the planner version's (DESIGN CHOICE, log entry 134). -/

namespace Sys2Proof.Machine

open Sys2Proof

/-! ### Planned rates (R224), in core cycles of 1.3 GHz -/

def meshCycles (bytes : Nat) : Nat := ceilDiv bytes 192
/-- Bytes at 1.2288 TB/s; with inline ECC every 15 of them are 16 on the channel (R246). -/
def lpddrCycles (inline : Bool) (bytes : Nat) : Nat := if inline then ceilDiv (bytes * 13 * 16) (12288 * 15) else ceilDiv (bytes * 13) 12288
/-- Bytes at 25 GB/s a lane. -/
def linkCycles (lanes bytes : Nat) : Nat := ceilDiv (bytes * 13) (250 * lanes)
def hostCycles (bytes : Nat) : Nat := ceilDiv (bytes * 13) 2420
/-- A control OR over a device set of diameter `h`, in ns. -/
def controlNs (h : Nat) : Nat := (2 * h + 1) * 100

/-- A vector or exact instruction over `n` elements: occupancy and completion (R164). -/
def unitCycles (exact : Bool) (n L i o : Nat) : Nat :=
  if exact then occupancy (n * L) 64 (n * i) 768 (n * o) 256 + 16
  else occupancy (n * L) 512 (n * i) 1024 (n * o) 512 + (if 8 ≤ L then 48 else if L ≤ 2 then 20 else 36)

/-! ### TILE groups in the cost model (R83, R84, R224) -/

/-- A TILE group: composition, stream cycles a pass, passes, fill bytes, TC4 fills, feed total, and the cycles that its bytes take at
the memories and links they come from. -/
structure Grp where
  comp : Nat × Nat
  fmt : Nat               -- stream format
  stream : Nat
  passes : Nat
  fill : Nat
  tc4 : Nat
  feed : Nat
  other : Nat
  deriving DecidableEq, Repr

/-- The cycles in which a following fill can hide, the group's own cycles, and the cycles of its fill beside a feed. -/
def grpTail (g : Grp) : Nat := if g.passes < 3 then g.passes * g.stream else g.stream
def grpFill (g : Grp) (feed : Nat) : Nat := ceilDiv g.fill (256 - feed) + 2 * g.tc4
def grpOwn (g : Grp) : Nat :=
  if g.passes < 3 then g.passes * g.stream else max (2 * g.stream) (ceilDiv g.fill (256 - g.feed)) + g.stream

/-- A piece of a work unit on a core: a TILE group, or cycles of the vector or the exact unit. -/
inductive Chunk where
  | grp (g : Grp)
  | unit (exact : Bool) (cycles : Nat)
  deriving DecidableEq, Repr

/-- The cost of a chunk behind `prev`, the last TILE group of the feed run that it can join: the first fill and the 268 cycles of
latency come with a new run, and move with the run's end (R224). -/
def chunkCost (prev : Option Grp) : Chunk → Nat
  | .unit _ n => n
  | .grp g =>
    let own := max (grpOwn g) g.other
    match prev with
    | some p => if p.comp = g.comp then own + (grpFill g p.feed - grpTail p) else 268 + grpFill g 0 + own
    | none => 268 + grpFill g 0 + own

/-- A fence stands before the chunk (R84): the run before it had another composition. -/
def chunkFence (prev : Option Grp) : Chunk → Bool
  | .unit _ _ => false
  | .grp g => match prev with | some p => p.comp != g.comp | none => false

def chunkLast (prev : Option Grp) : Chunk → Option Grp
  | .unit _ _ => prev
  | .grp g => some g

/-- The cost of chunks one behind the other, and their fences. -/
def chunksCost : Option Grp → List Chunk → Nat
  | _, [] => 0
  | p, c :: t => chunkCost p c + chunksCost (chunkLast p c) t
def chunkFences : Option Grp → List Chunk → Nat
  | _, [] => 0
  | p, c :: t => b2n (chunkFence p c) + chunkFences (chunkLast p c) t

/-! ### Products (R180, R181, R194, R227) -/

/-- A product of a layer on one device: which STAT field it has, its reduction extent, and its two operands by role, extent and
tensor. Operand a is the weight, or IN0 of a layer without one. `reps` counts heads. -/
structure Product where
  k : Nat
  red : Nat
  ra : Nat
  ea : Nat
  ta : Nat
  rb : Nat
  eb : Nat
  tb : Nat
  out : Nat
  reps : Nat
  deriving DecidableEq, Repr

/-- A work unit of a layer in one direction: a product, or instructions of the vector and exact units (exact, elements, L, bytes read
and written an element), or a custom program's declared cycles; the tensors that it reads and writes. -/
structure Work where
  layer : Nat
  dir : Nat               -- 0 forward, 1 backward
  prod : Option Product
  steps : List (Bool × Nat × Nat × Nat × Nat)
  fixed : Nat
  reads : List Nat
  writes : List Nat
  deriving DecidableEq, Repr

def tElems (pk : Pkg) (i : Nat) : Nat := match pk.tensors[i]? with | some t => t.dims.foldl (· * ·) 1 | none => 0
/-- Elements of a tensor per token. -/
def tFeatures (pk : Pkg) (i : Nat) : Nat := max 1 (tElems pk i / max 1 pk.mbTokens)
/-- The gradient tensor of a kind that pairs with tensor `i` (R182). -/
def gradOf (pk : Pkg) (kind i : Nat) : Option Nat :=
  ((List.range pk.tensors.length).find? fun j => match pk.tensors[j]? with | some t => t.kind == kind && t.paired == i | none => false)
def namedT (l : List Nat) : List Nat := l.filter (· != noTensor)

/-- A product as a work unit, and instructions as one. -/
def prodWork (i dir : Nat) (p : Product) : Work :=
  { layer := i, dir := dir, prod := some p, steps := [], fixed := 0, reads := [p.ta, p.tb].eraseDups, writes := [p.out] }
def stepWork (i dir : Nat) (l : List (Bool × Nat × Nat × Nat × Nat)) (reads writes : List Nat) : Work :=
  { layer := i, dir := dir, prod := none, steps := l, fixed := 0, reads := reads, writes := writes }

def linearWork (pk : Pkg) (t i : Nat) (y : LayerDesc) : List Work :=
  let T := pk.mbTokens
  let K := tFeatures pk y.in0
  let N := ceilDiv (tElems pk y.wgt / K) t
  let gx := gradOf pk 1 y.in0
  let gy := gradOf pk 1 y.out
  let gw := gradOf pk 3 y.wgt
  let mk := fun (dir : Nat) (p : Product) (n L : Nat) =>
    if isSensitive y then stepWork i dir [(true, n, L, 8 * L, 4)] [p.ta, p.tb] [p.out] else prodWork i dir p
  [mk 0 { k := 0, red := K, ra := 0, ea := N, ta := y.wgt, rb := 1, eb := T, tb := y.in0, out := y.out, reps := 1 } (T * N) K] ++
  (match gx, gy with
    | some x, some g => [mk 1 { k := 1, red := N, ra := 0, ea := K, ta := y.wgt, rb := 2, eb := T, tb := g, out := x, reps := 1 } (T * K) N]
    | _, _ => []) ++
  (match gy, gw with
    | some g, some w => [mk 1 { k := 2, red := T, ra := 1, ea := K, ta := y.in0, rb := 2, eb := N, tb := g, out := w, reps := 1 } (K * N) T]
    | _, _ => [])

/-- Attention: every head at SEQ_MAX_all score entries a token (R194). -/
def attnWork (pk : Pkg) (S t i : Nat) (y : LayerDesc) : List Work :=
  let T := pk.mbTokens
  let H := ceilDiv (leAt y.params 0 2) t
  let w := leAt y.params 2 2
  let mk := prodWork i
  let vec := fun (dir L rd : Nat) (r o : List Nat) => stepWork i dir [(false, S * T * H, L, rd, 4)] r o
  [mk 0 { k := 0, red := w, ra := 1, ea := S, ta := y.in0, rb := 1, eb := T, tb := y.in0, out := y.out, reps := H },
   vec 0 8 4 [y.in0] [y.out],
   mk 0 { k := 0, red := S, ra := 1, ea := w, ta := y.in0, rb := 1, eb := T, tb := y.in0, out := y.out, reps := H }] ++
  match gradOf pk 1 y.in0, gradOf pk 1 y.out with
  | some x, some g =>
    [mk 1 { k := 1, red := w, ra := 1, ea := S, ta := y.in0, rb := 2, eb := T, tb := g, out := x, reps := H },
     vec 1 1 8 [y.in0, g] [x],
     mk 1 { k := 1, red := S, ra := 1, ea := w, ta := y.in0, rb := 2, eb := T, tb := g, out := x, reps := H },
     mk 1 { k := 2, red := T, ra := 1, ea := S, ta := y.in0, rb := 2, eb := w, tb := g, out := x, reps := H },
     mk 1 { k := 2, red := T, ra := 1, ea := w, ta := y.in0, rb := 2, eb := S, tb := g, out := x, reps := H }]
  | _, _ => []

/-- The instructions of the other operators, forward and backward, an element of their output. -/
def opSteps (op n : Nat) : List (Bool × Nat × Nat × Nat × Nat) × List (Bool × Nat × Nat × Nat × Nat) :=
  match op with
  | 3 => ([(true, n, 2, 4, 0), (false, n, 1, 8, 4), (false, n, 1, 8, 4)], [(true, n, 2, 8, 0), (false, n, 1, 8, 4), (false, n, 1, 8, 4)])
  | 4 => ([(false, n, 4, 4, 4), (false, n, 4, 4, 4), (false, n, 1, 8, 4)], [(false, n, 4, 4, 4), (false, n, 1, 8, 4), (false, n, 1, 8, 4)])
  | 5 => ([(true, n, 1, 8, 4)], [(true, n, 1, 8, 4)])
  | 6 => ([(true, n, 1, 4, 4)], [(true, n, 1, 8, 4)])
  | 7 => ([(false, n, 1, 8, 4)], [(false, n, 1, 4, 4)])
  | 9 => ([(true, n, 10, 4, 0)], [(true, n, 12, 4, 4)])
  | _ => ([], [])

def otherWork (pk : Pkg) (t i : Nat) (y : LayerDesc) : List Work :=
  let T := pk.mbTokens
  let K := tFeatures pk y.in0
  let st := if y.op = 8 then
      let n := T * leAt y.params 0 2
      ([(true, n, K, 8 * K, 4)], [(true, n, K, 8 * K, 4), (true, n, K, 8 * K, 4)])
    else opSteps y.op (ceilDiv (if y.op = 9 then tElems pk y.in0 else tElems pk y.out) t)
  let fixed := if y.op = 0x80 then (match pk.progs[y.prog]? with | some p => p.w | none => 0) else 0
  let ins := namedT [y.in0, y.in1, y.wgt]
  let gIns := (ins.filterMap (gradOf pk 1)) ++ (match gradOf pk 3 y.wgt with | some g => [g] | none => [])
  let gOut := match gradOf pk 1 y.out with | some g => [g] | none => []
  [{ layer := i, dir := 0, prod := none, steps := st.1, fixed := fixed, reads := ins, writes := namedT [y.out] },
   { layer := i, dir := 1, prod := none, steps := st.2, fixed := fixed, reads := ins ++ gOut, writes := gIns }]

/-- Every work unit of layer `i` on one of `t` tensor-parallel ranks; dropout takes one more vector instruction each way (R112). -/
def layerWork (s : State) (pk : Pkg) (t i : Nat) (y : LayerDesc) : List Work :=
  let l := if y.op = 1 then linearWork pk t i y else if y.op = 2 then attnWork pk (seqMaxAll s) t i y else otherWork pk t i y
  if y.dropP = 0 then l
  else l ++ [0, 1].map fun d => stepWork i d [(false, ceilDiv (tElems pk y.out) t, 1, 4, 4)] (namedT [y.out]) (namedT [y.out])

/-- The work of a stage, in layer order forward and then backward (R228). -/
def stageWork (s : State) (pk : Pkg) (t : Nat) (st : Nat × Nat) : List Work :=
  let ls := (List.range (st.2 + 1 - st.1)).map (st.1 + ·)
  let all := ls.map fun i => match pk.layers[i]? with | some y => layerWork s pk t i y | none => []
  (all.flatMap fun l => l.filter fun w => w.dir == 0) ++ (all.reverse.flatMap fun l => l.filter fun w => w.dir == 1)

/-! ### TILE groups of a product (R227) -/

/-- Where the tensors of a plan lie while its work is costed: a tensor's region, 1 for the hold and 2 for LPDDR5X; whether it comes
from another device; lanes of the slowest port. -/
structure Homes where
  region : Nat → Nat
  far : Nat → Bool
  lanes : Nat
  inline : Bool

/-- The homes of stages 2 to 4, which know no placement yet. -/
def noHomes : Homes := { region := fun _ => 0, far := fun _ => false, lanes := 4, inline := true }

/-- The cycles of `bytes` of tensor `i` at its region and, from another device, at the link. -/
def homeCycles (h : Homes) (i bytes : Nat) : Nat :=
  max (if h.region i = 1 then meshCycles bytes else if h.region i = 2 then lpddrCycles h.inline bytes else 0)
    (if h.far i then linkCycles h.lanes bytes else 0)

/-- An operand at a rung: format and passes. -/
def operandAt (y : LayerDesc) (r n : Nat) : Fmt × Nat :=
  let b := rungByte y r n
  ((fmtOfCode (rungFmt b)).getD .bf16, max 1 (rungPasses b))

/-- A product with operand `sx` stationary and `tx` streamed, each by format, extent and tensor, with vector groups of `V`. -/
structure Cutting where
  red : Nat
  passes : Nat
  sf : Fmt
  se : Nat
  st : Nat
  tf : Fmt
  te : Nat
  tt : Nat
  reps : Nat

def cuttingOf (y : LayerDesc) (p : Product) (holdA : Bool) (na nb : Nat) : Cutting :=
  let a := operandAt y p.ra na
  let b := operandAt y p.rb nb
  let ps := max a.2 b.2
  if holdA then { red := p.red, passes := ps, sf := a.1, se := p.ea, st := p.ta, tf := b.1, te := p.eb, tt := p.tb, reps := p.reps }
  else { red := p.red, passes := ps, sf := b.1, se := p.eb, st := p.tb, tf := a.1, te := p.ea, tt := p.ta, reps := p.reps }

def nTiles (c : Cutting) : Nat := ceilDiv c.se (tileCols c.sf)
def nQuads (c : Cutting) : Nat := ceilDiv (nTiles c) 4
def kTiles (c : Cutting) : Nat := ceilDiv c.red 128

/-- The group of `m` vectors and N-tiles `n`. -/
def mkGrp (h : Homes) (c : Cutting) (m n : Nat) : Grp :=
  let fill := n * planeLen c.sf
  let sets := if 2 ≤ c.passes then 2 else 1
  { comp := (fmtC c.sf, fmtD c.tf), fmt := (List.range 16).findIdx fun k => fmtOfCode k == some c.tf, stream := m * fmtD c.tf,
    passes := c.passes, fill := fill, tc4 := if c.sf = .tc4 then n else 0, feed := feedTotal c.tf,
    other := max (homeCycles h c.st ((if c.passes = 3 then 2 else 1) * fill)) (homeCycles h c.tt (sets * (m * 16 * fmtWidth c.tf))) }

/-- The TILE groups in their order: head, vector group, quad, K-tile. -/
def groupsOf (h : Homes) (V : Nat) (c : Cutting) : List Grp :=
  (List.range c.reps).flatMap fun _ => (List.range (ceilDiv c.te V)).flatMap fun v => (List.range (nQuads c)).flatMap fun q =>
    (List.range (kTiles c)).map fun _ => mkGrp h c (min V (c.te - V * v)) (min 4 (nTiles c - 4 * q))

/-- The sequence cut into `n` consecutive pieces, the first (count mod n) of them one longer. -/
def cutPieces {α : Type} (l : List α) (n : Nat) : List (List α) :=
  (List.range n).map fun i => (l.drop (i * (l.length / n) + min i (l.length % n))).take (l.length / n + b2n (decide (i < l.length % n)))

/-- First core and number of cores of a layer (R227): its kind-3 hint's range, cut at C_plan - 1, or every planned core. -/
def coreRange (pk : Pkg) (y : LayerDesc) (cPlan : Nat) : Nat × Nat :=
  match hintOf pk y.hint 3 with
  | some v => if cPlan ≤ v % 256 then (0, cPlan) else (v % 256, min (v / 256 % 256) (cPlan - 1) + 1 - v % 256)
  | none => (0, cPlan)

/-! ### The reserve (R19, R136, R227) -/

/-- C_s of R208, from the captured period and allowance. -/
def capacity (s : State) : Nat := cap s 0x4004 * 13 / 10 * (64 - cap s 0x5008) / 64

/-- The rung pairs in a product's reserve, the pair of the higher rungs, and that of the current ones. -/
def reservePairs (s : State) (i : Nat) (y : LayerDesc) (p : Product) : List (Nat × Nat) :=
  (reserveRungs s i p.ra y).flatMap fun a => (reserveRungs s i p.rb y).map fun b => (a, b)
def topPair (s : State) (i : Nat) (y : LayerDesc) (p : Product) : Nat × Nat :=
  ((reserveRungs s i p.ra y).foldl max 0, (reserveRungs s i p.rb y).foldl max 0)
def curPair (s : State) (i : Nat) (p : Product) : Nat × Nat := (rungOf s i p.ra, rungOf s i p.rb)

/-- The largest cost of a list of pieces. -/
def worstPiece (l : List (List Chunk)) : Nat := l.foldl (fun m x => max m (chunksCost none x)) 0
def grpPieces (l : List Grp) (n : Nat) : List (List Chunk) := (cutPieces l n).map fun x => x.map .grp

/-- Operand a is stationary (R180, R227): the STAT field, else the choice with the smaller t_run at the higher rungs; TC4 only so. -/
def holdsA (s : State) (pk : Pkg) (cPlan i : Nat) (y : LayerDesc) (p : Product) : Bool :=
  match bitsN y.stat (2 * p.k) 2 with
  | 1 => true
  | 2 => false
  | _ =>
    let t := topPair s i y p
    let run := fun (a : Bool) => worstPiece (grpPieces (groupsOf noHomes 512 (cuttingOf y p a t.1 t.2)) (coreRange pk y cPlan).2)
    if (operandAt y p.ra t.1).1 = .tc4 then true else if (operandAt y p.rb t.2).1 = .tc4 then false
    else decide (run true ≤ run false)

/-- Vectors of a vector group: 512, or the most with which a TILE group costs at most C_s at every rung of the reserve. -/
def vectorGroup (s : State) (i : Nat) (y : LayerDesc) (p : Product) (hold : Bool) : Nat :=
  let fits := fun m => (reservePairs s i y p).all fun r =>
    decide (chunkCost none (.grp (mkGrp noHomes (cuttingOf y p hold r.1 r.2) m 4)) ≤ capacity s)
  (((List.range 512).map (512 - ·)).find? fits).getD 1

/-- What stage 4 fixes of a work unit: its layer, the stationary choice, the vector groups, the core range. -/
structure Planned where
  work : Work
  layer : LayerDesc
  hold : Bool
  V : Nat
  first : Nat
  cores : Nat

def planWork (s : State) (pk : Pkg) (cPlan : Nat) (w : Work) : Option Planned :=
  (pk.layers[w.layer]?).map fun y =>
    let r := coreRange pk y cPlan
    match w.prod with
    | some p =>
      let h := holdsA s pk cPlan w.layer y p
      { work := w, layer := y, hold := h, V := vectorGroup s w.layer y p h, first := r.1, cores := r.2 }
    | none => { work := w, layer := y, hold := true, V := 512, first := r.1, cores := r.2 }

/-- Cycles as chunks of at most C_s. -/
def splitCycles (cs n : Nat) : List Nat := List.replicate (n / max 1 cs) cs ++ (if n % max 1 cs = 0 then [] else [n % max 1 cs])

/-- The chunks of a work unit on each core of its range, at a pair of rungs. The elements of vector and exact work are cut like
TILE groups; a custom program runs on its first core. -/
def coreChunks (h : Homes) (cs : Nat) (x : Planned) (r : Nat × Nat) : List (List Chunk) :=
  match x.work.prod with
  | some p => grpPieces (groupsOf h x.V (cuttingOf x.layer p x.hold r.1 r.2)) x.cores
  | none => (List.range x.cores).map fun i =>
      (x.work.steps.flatMap fun q =>
        let n := q.2.1 / x.cores + b2n (decide (i < q.2.1 % x.cores))
        if n = 0 then [] else (splitCycles cs (unitCycles q.1 n q.2.2.1 q.2.2.2.1 q.2.2.2.2)).map (.unit q.1)) ++
      (if i = 0 ∧ x.work.fixed ≠ 0 then (splitCycles cs x.work.fixed).map (.unit true) else [])

def pairsOf (s : State) (x : Planned) : List (Nat × Nat) :=
  match x.work.prod with | some p => reservePairs s x.work.layer x.layer p | none => [(0, 0)]
def currentOf (s : State) (x : Planned) : Nat × Nat :=
  match x.work.prod with | some p => curPair s x.work.layer p | none => (0, 0)

/-- The chunks on the `j`-th core of the range at the costliest rungs of the reserve: what the schedule holds room for (R19, R230). -/
def reserveChunks (s : State) (h : Homes) (x : Planned) (j : Nat) : List Chunk :=
  ((pairsOf s x).map fun r => (coreChunks h (capacity s) x r).getD j []).foldl (fun m l =>
    if chunksCost none m < chunksCost none l then l else m) []

/-- The cost of a work unit: its largest reserve on any core. -/
def reserveCost (s : State) (x : Planned) : Nat :=
  (List.range x.cores).foldl (fun m j => max m (chunksCost none (reserveChunks s noHomes x j))) 0

/-- A layer's cost at the reserve (R226). -/
def layerCost (s : State) (pk : Pkg) (cPlan t i : Nat) : Nat :=
  match pk.layers[i]? with
  | some y => ((layerWork s pk t i y).filterMap (planWork s pk cPlan)).foldl (fun n x => n + reserveCost s x) 0
  | none => 0

/-! ### Residuals and admissible sets (R61, R134, R136, R183) -/

/-- The tensors that a product streams and holds. -/
def streamT (x : Planned) (p : Product) : Nat × Nat := if x.hold then (p.rb, p.tb) else (p.ra, p.ta)
def statT (x : Planned) (p : Product) : Nat × Nat := if x.hold then (p.ra, p.ta) else (p.rb, p.tb)

/-- The passes of a product at a pair of rungs. -/
def passesAt (x : Planned) (p : Product) (r : Nat × Nat) : Nat :=
  max (operandAt x.layer p.ra r.1).2 (operandAt x.layer p.rb r.2).2

/-- The residuals that the reserve of the work needs: main tensor, whether it is the stationary one, and the role whose rung sizes it,
in descriptor order (R183). -/
def residualNeeds (s : State) (l : List Planned) : List (Nat × Bool) :=
  let all := l.flatMap fun x => match x.work.prod with
    | some p =>
      let ps := (reservePairs s x.work.layer x.layer p).foldl (fun m r => max m (passesAt x p r)) 0
      (if 2 ≤ ps then [((streamT x p).2, false)] else []) ++ (if 3 ≤ ps then [((statT x p).2, true)] else [])
    | none => []
  all.eraseDups.mergeSort fun a b => decide (2 * a.1 + b2n a.2 ≤ 2 * b.1 + b2n b.2)

/-- Bits of an element in a format, with its block's share of the scale, in thirty-seconds of a bit. -/
def bitsOf (f : Fmt) : Nat := 32 * fmtWidth f + (if isMx f then 8 else 0)

/-- A rung of a pair fits the reserve (R136, R232): every product of the layer that the role takes part in, on every core, at any rungs
of the other role's reserve, and the space of its operand with the residuals that the plan holds. -/
def rungFits (s : State) (held : List (Nat × Bool)) (l : List Planned) (layer role k : Nat) : Bool :=
  let mine := l.filter fun x => x.work.layer == layer && (match x.work.prod with | some p => p.ra == role || p.rb == role | none => false)
  mine.all fun x => match x.work.prod with
    | none => true
    | some p =>
      let at_ := fun (ks : List Nat) => (if p.ra = role then ks else reserveRungs s layer p.ra x.layer).flatMap fun a =>
        (if p.rb = role then ks else reserveRungs s layer p.rb x.layer).map fun b => (a, b)
      let room := reserveRungs s layer role x.layer
      let worst := fun (ks : List Nat) (j : Nat) => (at_ ks).foldl (fun m r =>
        max m (chunksCost none ((coreChunks noHomes (capacity s) x r).getD j []))) 0
      let space := fun (ks : List Nat) => ks.foldl (fun m n => max m (bitsOf (operandAt x.layer role n).1)) 0
      (List.range x.cores).all (fun j => decide (worst [k] j ≤ worst room j)) && decide (space [k] ≤ space room) &&
        (at_ [k]).all fun r => (decide (passesAt x p r < 2) || held.contains ((streamT x p).2, false)) &&
          (decide (passesAt x p r < 3) || held.contains ((statT x p).2, true))

end Sys2Proof.Machine
end

