-- ==== Sys2Proof/Machine/Place.lean ====
section
/-! DEFINITION. The lockkeeper's memory (R225, R226, R228, R229, R289, R309, R314): the ranges that a device of the partition needs,
their sizes at the reserve, and where each one goes. How a tensor divides over the ranks, which ranges beside the listed ones a device
keeps, and the order of the ranges that are no tensors are the planner version's (DESIGN CHOICE, log entry 134). -/

namespace Sys2Proof.Machine

open Sys2Proof

/-! ### What the stages share -/

/-- Package, map, widths, micro-batches a step, planned cores, stages, the workers' positions in ascending order, and (device, buddy). -/
structure Scheme where
  pk : Pkg
  ds : List MapDev
  t : Nat
  p : Nat
  r : Nat
  mb : Nat
  cPlan : Nat
  stages : List (Nat × Nat)
  workers : List Nat
  buddies : List (Nat × Nat)
  inp : List Byte

/-- A worker's place in the partition (R225). -/
structure Seat where
  pos : Nat
  replica : Nat
  stage : Nat
  rank : Nat
  deriving DecidableEq, Repr

def seatAt (f : Scheme) (k : Nat) (pos : Nat) : Seat :=
  { pos := pos, replica := k / (f.t * f.p), stage := k / f.t % f.p, rank := k % f.t }
def seats (f : Scheme) : List Seat := f.workers.zipIdx.map fun x => seatAt f x.2 x.1
def seatOf (f : Scheme) (pos : Nat) : Option Seat := (seats f).find? fun x => x.pos == pos

/-- The work of stage `j`, with what stage 4 fixes of it; the layers of the stage. -/
def stagePlan (s : State) (f : Scheme) (j : Nat) : List Planned :=
  match f.stages[j]? with
  | some st => (stageWork s f.pk f.t st).filterMap (planWork s f.pk f.cPlan)
  | none => []
def stageLayers (f : Scheme) (j : Nat) : List (Nat × LayerDesc) :=
  match f.stages[j]? with
  | some (a, b) => (List.range (b + 1 - a)).filterMap fun i => (f.pk.layers[a + i]?).map fun y => (a + i, y)
  | none => []

/-- The residuals of the plan, in descriptor order (R183). -/
def planResiduals (s : State) (f : Scheme) : List (Nat × Bool) := residualNeeds s ((List.range f.p).flatMap (stagePlan s f))
def residualsOf (l : List (Nat × Bool)) (i : Nat) : List Bool := (l.filter fun x => x.1 == i).map (·.2)

/-! ### Shards and owned pieces (R226, R289) -/

/-- The first index of rank `k` of `t` along an outermost extent: consecutive parts of whole 128s. -/
def shardFrom (ext t k : Nat) : Nat := min ext (k * (ceilDiv (ceilDiv ext t) 128 * 128))
def outer (d : TensorDesc) : Nat := d.dims.getD (d.rank - 1) 1
/-- The extents of a rank's shard, and its first element in the tensor. -/
def shardDims (d : TensorDesc) (t k : Nat) : List Nat := d.dims.set (d.rank - 1) (shardFrom (outer d) t (k + 1) - shardFrom (outer d) t k)
def shardFirst (d : TensorDesc) (t k : Nat) : Nat := shardFrom (outer d) t k * elemsOf (d.dims.take (d.rank - 1))
def shardBlocks (d : TensorDesc) (t k : Nat) : Nat := ceilDiv (elemsOf (shardDims d t k)) 32

/-- First block and number of blocks of replica `j`'s piece of a shard of `n` blocks. -/
def pieceBlocks (n r j : Nat) : Nat × Nat := (j * (n / r) + min j (n % r), n / r + b2n (decide (j < n % r)))

/-! ### Sizes at the reserve (R19) -/

/-- The formats that a tensor may have at its reserve: of its steering pair, else its own. -/
def reserveFmts (s : State) (pk : Pkg) (d : TensorDesc) : List Nat :=
  match pk.layers[d.steerLayer]? with
  | some y => if steered y d.steerRole then (reserveRungs s d.steerLayer d.steerRole y).map fun n => rungFmt (rungByte y d.steerRole n) else [d.fmt]
  | none => [d.fmt]

/-- Bytes of the two planes of extents `dims` in the formats `l`, the larger of each. -/
def planesIn (d : TensorDesc) (dims : List Nat) (l : List Nat) : List Nat :=
  let e := fun k => ({ d with dims := dims, fmt := k, baxis := if d.baxis = 0xFF then 0 else d.baxis } : TensorDesc)
  [l.foldl (fun m k => max m (planeBytes (e k))) 0, l.foldl (fun m k => max m (scaleBytes (e k))) 0]

/-! ### Ranges -/

/-- What a range holds: a copy of a tensor (of a micro-batch in flight, or of stored state) with its residuals; an array-format copy of
a weight with its residuals and codebooks; retained local gradient; accumulator area; scale tables; token inputs; partials of a work
unit; statistics records; the programs, the custom scratch and the feed rings of a core; a staging ring of a core. -/
inductive Part where
  | copy (k : Nat)
  | array | grad | acc | scales | tokens | partials | stats | program | scratch | feed
  | staging (core : Nat)
  deriving DecidableEq, Repr

/-- Where a range may lie: by R228; in the hold or LPDDR5X; in a core's scratch; in a core's partition of the hold. -/
inductive Zone where
  | free | memory
  | scratch (c : Nat)
  | hold (c : Nat)
  deriving DecidableEq, Repr

/-- A range: a tensor ID (or a core, or a work unit), its planes one behind the other, the micro-batch copy that it belongs to (0 for
none), first write and last read in work units, the one core that touches it, and its hint. -/
structure Item where
  tensor : Nat
  part : Part
  planes : List Nat
  cls : Nat
  first : Nat
  last : Nat
  core : Option Nat
  hint : Option Nat
  zone : Zone
  deriving DecidableEq, Repr

def round64 (n : Nat) : Nat := ceilDiv n 64 * 64
def itemBytes (x : Item) : Nat := (x.planes.map round64).foldl (· + ·) 0
/-- Where plane `k` of a range at `a` begins. -/
def planeStart (x : Item) (a k : Nat) : Nat := a + ((x.planes.take k).map round64).foldl (· + ·) 0

/-- Two ranges must lie apart: they belong to different micro-batches, or their lives overlap. -/
def apart (a b : Item) : Bool := a.cls != b.cls || (decide (a.first ≤ b.last) && decide (b.first ≤ a.last))

/-- TILE groups of a product; the cores that a work unit occupies. -/
def groupCount (V : Nat) (c : Cutting) : Nat := c.reps * ceilDiv c.te V * nQuads c * kTiles c
def usedCores (s : State) (x : Planned) : Nat :=
  match x.work.prod with
  | some p => let q := currentOf s x; min x.cores (groupCount x.V (cuttingOf x.layer p x.hold q.1 q.2))
  | none => min x.cores (max 1 (x.work.steps.foldl (fun m q => max m q.2.1) 0))

def touches (i : Nat) (x : Planned) : Bool := x.work.reads.contains i || x.work.writes.contains i

/-- First write and last read of a tensor in the work of a stage; one that comes from elsewhere lives from the first unit on, and one
that goes elsewhere to the last. -/
def lifeOf (l : List Planned) (i : Nat) : Nat × Nat :=
  let at_ := fun (f : Planned → Bool) => (l.zipIdx.filter fun x => f x.1).map (·.2)
  (((at_ fun x => x.work.writes.contains i).head?).getD 0, ((at_ fun x => x.work.reads.contains i).getLast?).getD (l.length - 1))

/-- The core on which every work unit that touches a tensor runs. -/
def soleCore (s : State) (l : List Planned) (i : Nat) : Option Nat :=
  match l.filter (touches i) with
  | x :: t => if (x :: t).all fun y => usedCores s y == 1 && y.first == x.first then some x.first else none
  | [] => none

/-- A range that persists across steps, or lives through the whole step. -/
def lasting (n tensor : Nat) (part : Part) (zone : Zone) (planes : List Nat) : Item :=
  { tensor := tensor, part := part, planes := planes, cls := 0, first := 0, last := n, core := none, hint := none, zone := zone }

/-- The bytes of a feed segment (its scales too) of a product's largest TILE group, and of a stationary tile, at the reserve; both with
the residual where the reserve needs one. -/
def segmentBytes (s : State) (x : Planned) (p : Product) : Nat × Nat :=
  (reservePairs s x.work.layer x.layer p).foldl (fun m q =>
    let c := cuttingOf x.layer p x.hold q.1 q.2
    let v := min x.V c.te
    (max m.1 ((if 2 ≤ c.passes then 2 else 1) * (v * 16 * fmtWidth c.tf + (if isMx c.tf then 4 * v else 0))),
     max m.2 ((if c.passes = 3 then 2 else 1) * (planeLen c.sf + scaleLen c.sf)))) (0, 0)

/-- Partials of a product: the output blocks whose K-tiles fall in two pieces (R227), and what ranks exchange (R104), in W42 containers. -/
def partialBytes (s : State) (t : Nat) (x : Planned) (p : Product) : Nat :=
  let q := currentOf s x
  let c := cuttingOf x.layer p x.hold q.1 q.2
  let n := groupCount x.V c
  let cuts := (List.range (x.cores - 1)).filter fun i =>
    let b := (i + 1) * (n / x.cores) + min (i + 1) (n % x.cores)
    b % max 1 (kTiles c) != 0 && decide (b < n)
  8 * (cuts.length * (min x.V c.te * (4 * tileCols c.sf)) + (if 1 < t ∧ p.k = 1 then p.reps * p.ea * p.eb else 0))

/-- The steered weight of a layer is computed with in the arrays. -/
def inArrays (y : LayerDesc) : Bool := y.wgt != noTensor && steered y 0

/-- The ranges of a weight: both stored copies, the array-format copy, scale tables, local gradient, owned accumulators. -/
def weightItems (s : State) (f : Scheme) (x : Seat) (held : List (Nat × Bool)) (n i : Nat) (y : LayerDesc) (d : TensorDesc) (w : Nat) : List Item :=
  let dims := shardDims d f.t x.rank
  let blocks := shardBlocks d f.t x.rank
  let own := (pieceBlocks blocks f.r x.replica).2
  let arr := planesIn d dims ((reserveRungs s i 0 y).map fun k => rungFmt (rungByte y 0 k))
  let stored := fun k => { lasting n w (.copy k) .free (planesIn d dims [d.fmt]) with hint := hintOf f.pk d.hint 1 }
  [stored 0, stored 1] ++
  (if inArrays y then [lasting n w .array .free (arr ++ (if (residualsOf held w).isEmpty then [] else arr) ++
    [32 * ceilDiv (elemsOf dims / max 1 (dims.getD (if d.baxis = 0xFF then 0 else d.baxis) 1)) 128])] else []) ++
  (match gradOf f.pk 3 w with
    | some _ => [lasting n w .scales .memory [blocks], lasting n w .grad .memory [8 * elemsOf dims], lasting n w .acc .memory [208 * own]]
    | none => []) ++
  (([y.m1, y.m2].filter (· != noTensor)).filterMap fun m => (f.pk.tensors[m]?).map fun e =>
    let mx := match fmtOfCode e.fmt with | some g => isMx g | none => false
    { lasting n m (.copy 0) .free (if mx then [32 * own, own] else [64 * own, 0]) with hint := hintOf f.pk e.hint 1 })

/-- The ranges of a micro-batch tensor: one for each micro-batch in flight (R226), residuals with it (R228). -/
def flightItems (s : State) (f : Scheme) (held : List (Nat × Bool)) (l : List Planned) (i : Nat) (d : TensorDesc) : List Item :=
  let ps := planesIn d d.dims (reserveFmts s f.pk d)
  let q := lifeOf l i
  (List.range (min f.p f.mb)).map fun k =>
    { tensor := i, part := .copy k, planes := ps ++ (residualsOf held i).flatMap fun _ => ps, cls := k + 1, first := q.1, last := q.2,
      core := soleCore s l i, hint := hintOf f.pk d.hint 1, zone := .free }

/-- Custom programs of a stage's core: layer, program. -/
def coreProgs (f : Scheme) (j c : Nat) : List (Nat × ProgHdr) :=
  (stageLayers f j).filterMap fun (i, y) => if y.op = 0x80 ∧ (coreRange f.pk y f.cPlan).1 = c then (f.pk.progs[y.prog]?).map fun p => (i, p) else none

/-- What a core keeps in its scratch: programs, custom scratch, and feed rings with their scales. -/
def coreItems (s : State) (f : Scheme) (x : Seat) (l : List Planned) (n c : Nat) : List Item :=
  let ps := coreProgs f x.stage c
  let seg := l.foldl (fun m y => match y.work.prod with
    | some p => if y.first ≤ c ∧ c < y.first + usedCores s y then max m (segmentBytes s y p).1 else m
    | none => m) 0
  [lasting n c .program (.scratch c) (ps.map (fun p => 16 * p.2.nInstr) ++ [Config.codeBytes f.inp x.pos c])] ++
    ps.map (fun p => lasting n p.1 .scratch (.scratch c) [p.2.scratch]) ++
    [lasting n c .feed (.scratch c) [2 * seg]]

/-- Every range of a worker (R226) but the staging rings. -/
def itemsOf (s : State) (f : Scheme) (x : Seat) : List Item :=
  let l := stagePlan s f x.stage
  let n := l.length
  let held := planResiduals s f
  let ids := (l.flatMap fun w => w.work.reads ++ w.work.writes).eraseDups.mergeSort fun a b => decide (a ≤ b)
  let of := fun (ks : List Nat) => ids.filterMap fun i => (f.pk.tensors[i]?).bind fun d => if ks.contains d.kind then some (i, d) else none
  let wgts := (stageLayers f x.stage).filter fun y => y.2.wgt != noTensor
  (List.range f.cPlan).flatMap (coreItems s f x l n) ++
  (of [0, 1]).flatMap (fun y => flightItems s f held l y.1 y.2) ++
  (of [5]).map (fun y => lasting n y.1 .tokens .memory [2 * f.mb * (4 * f.pk.mbTokens)]) ++
  (wgts.zipIdx.filter fun y => (wgts.findIdx fun z => z.2.wgt == y.1.2.wgt) == y.2).flatMap (fun y => match f.pk.tensors[y.1.2.wgt]? with
    | some d => if d.kind = 2 then weightItems s f x held n y.1.1 y.1.2 d y.1.2.wgt else []
    | none => []) ++
  (of [6]).flatMap (fun y => [0, 1].map fun k => lasting n y.1 (.copy k) .free (planesIn y.2 (shardDims y.2 f.t x.rank) [y.2.fmt])) ++
  (l.zipIdx.filterMap fun y => y.1.work.prod.map fun p => lasting n y.2 .partials .memory [partialBytes s f.t y.1 p]) ++
  [lasting n 0 .stats .memory [256 * (ids.length + wgts.length)]]

/-! ### Sizes of secured images (R308, R314) -/

def sumBytes (l : List Item) (q : Item → Bool) : Nat := ((l.filter q).map fun x => x.planes.foldl (· + ·) 0).foldl (· + ·) 0

/-- BYTES_k: the sections of R308 at their planned size; the cox state with its 16 steps of records. -/
def imageBytesOf (s : State) (f : Scheme) (x : Seat) : Nat :=
  let l := itemsOf s f x
  let kind := fun (ks : List Nat) (i : Item) => i.part == .copy 0 && (match f.pk.tensors[i.tensor]? with | some d => ks.contains d.kind | none => false)
  let np := (pairs f.pk).length
  let books := sumBytes (l.filter (·.part == .array)) fun i => match f.pk.tensors[i.tensor]? with | some d => d.fmt == 0xE | none => false
  let pieces := (l.filter (·.part == .acc)).length
  let data := 164628 + 20 * 4096
  let w := sumBytes l (kind [2])
  256 + 80 * 8 + w + sumBytes l (kind [6]) + books + sumBytes l (kind [4]) + 8 * f.pk.opts.length +
    (7 * np + 10 * f.pk.layers.length + 4 + 4 * capturedRegs.length + 16 * (8 + 256 * f.pk.tensors.length)) +
    sumBytes l (·.part == .scales) + data + 72 * pieces +
    (f.inp.length + 14 + 8 * np + 16 * f.ds.length + 16 * 8192) + (8 + w + np + f.inp.length + data)

/-- The buddy image region of a device: the largest image that it keeps, rounded up to 1 GiB (R249). -/
def keptBytes (s : State) (f : Scheme) (pos : Nat) : Nat :=
  ceilDiv ((seats f).foldl (fun m x => if (f.buddies.any fun b => b.1 == x.pos && b.2 == pos) then max m (imageBytesOf s f x) else m) 0) (2 ^ 30) * 2 ^ 30

/-! ### First fit (R228) -/

/-- The lowest address of a zone at which `n` bytes lie clear of the busy ranges. -/
def firstFit (n : Nat) (busy : List (Nat × Nat)) (lo hi : Nat) : Option Nat :=
  ((lo :: busy.map fun b => max lo (b.1 + b.2)).mergeSort fun a b => decide (a ≤ b)).find? fun a =>
    decide (a + n ≤ hi) && busy.all fun b => decide (a + n ≤ b.1) || decide (b.1 + b.2 ≤ a)

/-- The regions of a device: a core's scratch, a core's partition, the hold of the planned cores, LPDDR5X below the reserved regions. -/
def inScratch (c : Nat) : Nat × Nat := (scratchAddr c 0, scratchAddr c 0x100000)
def inPartition (c : Nat) : Nat × Nat := (c * 2 ^ 25, (c + 1) * 2 ^ 25)
def inHold (cPlan : Nat) : Nat × Nat := (0, cPlan * 2 ^ 25)
def inLpddr (s : State) (kept : Nat) : Nat × Nat := (lpddrBase, staging s - kept)

/-- The regions in which a range may lie, in order; the one that its hint names. -/
def regionsOf (s : State) (cPlan kept : Nat) (x : Item) : List (Nat × Nat) :=
  match x.zone with
  | .free => (match x.core with | some c => [inScratch c] | none => []) ++ [inHold cPlan, inLpddr s kept]
  | .memory => [inHold cPlan, inLpddr s kept]
  | .scratch c => [inScratch c]
  | .hold c => [inPartition c]
def hintedRegion (s : State) (cPlan kept : Nat) (x : Item) : List (Nat × Nat) :=
  match x.hint, x.core with
  | some 0, _ => [inHold cPlan]
  | some 1, some c => [inScratch c]
  | some 2, _ => [inLpddr s kept]
  | _, _ => []

/-- The ranges of a worker in their places, and the tensors whose hint is ignored. -/
structure Layout where
  items : List (Item × Nat)
  ignored : List Nat
  deriving DecidableEq, Repr

def tryRegions (x : Item) (l : List (Item × Nat)) (rs : List (Nat × Nat)) : Option Nat :=
  let busy := (l.filter fun y => apart x y.1).map fun y => (y.2, itemBytes y.1)
  rs.findSome? fun z => firstFit (itemBytes x) busy z.1 z.2

/-- One range more: where its hint says if it fits there, else in the first region that admits it. -/
def placeItem (s : State) (cPlan kept : Nat) (l : Layout) (x : Item) : Option Layout :=
  match tryRegions x l.items (hintedRegion s cPlan kept x) with
  | some a => some { l with items := l.items ++ [(x, a)] }
  | none => (tryRegions x l.items (regionsOf s cPlan kept x)).map fun a =>
      { items := l.items ++ [(x, a)], ignored := if x.hint.isSome && !l.ignored.contains x.tensor then l.ignored ++ [x.tensor] else l.ignored }

/-- The order of R228: hinted ranges first, then ascending reuse distance, reserve size and tensor ID. -/
def placeKey (x : Item) : List Nat := [b2n x.hint.isNone, x.last - x.first, itemBytes x, x.tensor]

def placeAll (s : State) (cPlan kept : Nat) : List Item → Layout → Option Layout
  | [], l => some l
  | x :: t, l => (placeItem s cPlan kept l x).bind (placeAll s cPlan kept t)

def isFixed (x : Item) : Bool := match x.zone with | .scratch _ | .hold _ => true | _ => false

/-! ### Staging rings (R229) -/

/-- A tensor that the work of a product reads lies in LPDDR5X. -/
def spilled (l : Layout) (pk : Pkg) (i : Nat) : Bool :=
  l.items.any fun x => x.1.tensor == i && decide (lpddrBase ≤ x.2) && (match x.1.part with
    | .copy _ => (match pk.tensors[i]? with | some d => d.kind == 0 || d.kind == 1 | none => false)
    | .array => true
    | _ => false)

/-- The rings that the spilled tensors of the work need: two feed segments or two stationary tiles in the hold of each core. -/
def ringsFor (s : State) (f : Scheme) (w : List Planned) (l : Layout) : List Item :=
  let need := w.flatMap fun x => match x.work.prod with
    | some p =>
      let b := segmentBytes s x p
      (List.range (usedCores s x)).flatMap fun k =>
        (if spilled l f.pk (streamT x p).2 then [((streamT x p).2, x.first + k, 2 * b.1)] else []) ++
          (if spilled l f.pk (statT x p).2 then [((statT x p).2, x.first + k, 2 * b.2)] else [])
    | none => []
  let keys := (need.map fun x => (x.1, x.2.1)).eraseDups
  keys.map fun k => lasting w.length k.1 (.staging k.2) (.hold k.2)
    [(need.filter fun x => x.1 == k.1 && x.2.1 == k.2).foldl (fun m x => max m x.2.2) 0]

/-- Place everything; where a tensor spills whose rings have no room yet, place the rings too. -/
def settleRings (s : State) (f : Scheme) (kept : Nat) (w : List Planned) (items : List Item) : Nat → List Item → Option Layout
  | 0, _ => none
  | n + 1, rings =>
    match placeAll s f.cPlan kept (items.filter isFixed ++ rings ++ ((items.filter fun x => !isFixed x).mergeSort fun a b =>
        decide (placeKey a ≤ placeKey b))) { items := [], ignored := [] } with
    | none => none
    | some l =>
      let more := (ringsFor s f w l).filter fun x => !rings.contains x
      if more.isEmpty then some l else settleRings s f kept w items n (rings ++ more)

/-- The placement of a worker; none where it does not fit. -/
def layout (s : State) (f : Scheme) (x : Seat) : Option Layout :=
  let items := itemsOf s f x
  settleRings s f (keptBytes s f x.pos) (stagePlan s f x.stage) items (items.length + 1) []

/-- Every worker's memory fits (R226). -/
def memoryFits (s : State) (f : Scheme) : Bool := (seats f).all fun x => (layout s f x).isSome

/-! ### Reading a placement -/

def itemAt (l : Layout) (i : Nat) (p : Part) : Option (Item × Nat) := l.items.find? fun x => x.1.tensor == i && x.1.part == p
/-- The address of plane `k` of a range, 0 where there is none. -/
def planeOf (l : Layout) (i : Nat) (p : Part) (k : Nat) : Nat := match itemAt l i p with | some x => planeStart x.1 x.2 k | none => 0
/-- The range of a tensor: its first copy, its array-format copy where that is meant, or its token input. -/
def mainItem (l : Layout) (i : Nat) : Option (Item × Nat) := (itemAt l i (.copy 0)).or (itemAt l i .tokens)

/-- The region of a tensor in the cost model: 1 the hold, 2 LPDDR5X. -/
def regionCode (l : Layout) (i : Nat) : Nat :=
  match (itemAt l i .array).or (mainItem l i) with
  | some x => if lpddrBase ≤ x.2 then 2 else if x.2 < 0x1000000000 then 1 else 0
  | none => 0

end Sys2Proof.Machine
end

