-- ==== Sys2Proof/Machine/Pack.lean ====
section
/-! DEFINITION. Stage 6 of the lockkeeper (R205, R224, R230, R237, R288, R293, R298, R451, R454): list scheduling of the work units into
schedule slots, gaps with their DENSITY, and the stroke counts of the phases. -/

namespace Sys2Proof.Machine

open Sys2Proof

/-! ### Work units of the schedule -/

/-- A work unit on a core, for a micro-batch: stage, index in the stage's work, micro-batch, index in the core range; its logical core,
layer, direction and output; its chunks at the reserve, and its cost at the rungs in force. -/
structure Node where
  stage : Nat
  w : Nat
  mb : Nat
  j : Nat
  core : Nat
  layer : Nat
  dir : Nat
  tensor : Nat
  chunks : List Chunk
  now : Nat
  deriving DecidableEq, Repr

/-- What the units of one stage and layer order share: where its tensors lie, and its work. -/
structure StageView where
  stage : Nat
  homes : Homes
  work : List Planned

/-- Position of a micro-batch's forward or backward pass in a stage's one-forward-one-backward order. -/
def pipeIndex (p mb stage dir m : Nat) : Nat :=
  let w := min mb (p - stage)
  if dir = 0 then (if m < w then m else 2 * m - w + 1) else (if m < mb - w then w + 2 * m else mb + m)

def stageNodes (s : State) (mb : Nat) (v : StageView) : List Node :=
  v.work.zipIdx.flatMap fun x => (List.range x.1.cores).flatMap fun j =>
    let rc := reserveChunks s v.homes x.1 j
    let now := chunksCost none ((coreChunks v.homes (capacity s) x.1 (currentOf s x.1)).getD j [])
    if rc.isEmpty then [] else (List.range mb).map fun m =>
      { stage := v.stage, w := x.2, mb := m, j := j, core := x.1.first + j, layer := x.1.work.layer, dir := x.1.work.dir,
        tensor := (x.1.work.writes.head?).getD noTensor, chunks := rc, now := now }

/-- Work unit `a` comes before `b` in layer order, forward then backward. -/
def workBefore (a b : Nat × Nat × Planned) : Bool :=
  let k := fun (x : Nat × Nat × Planned) => [x.2.2.work.dir, if x.2.2.work.dir = 0 then x.1 else 0xFFFF - x.1, x.2.1]
  decide (k a < k b)

/-- The work units whose results `b` needs, over all stages: (stage, index). -/
def sourcesOf (vs : List StageView) (b : Nat × Nat × Planned) : List (Nat × Nat) :=
  (vs.flatMap fun v => v.work.zipIdx.map fun x => (v.stage, x.2, x.1)).filterMap fun a =>
    if workBefore a b && a.2.2.work.writes.any (fun i => b.2.2.work.reads.contains i || b.2.2.work.writes.contains i)
    then some (a.1, a.2.1) else none

/-- The units that must be scheduled before a unit: its sources for the same micro-batch, and, for a forward unit, the backward units of
the micro-batch whose memory it takes over (R226). -/
def nodePreds (vs : List StageView) (flight : Nat) (all : List Node) (u : Node) : List Node :=
  let src := match vs.find? fun v => v.stage == u.stage with
    | some v => (match v.work[u.w]? with | some x => sourcesOf vs (u.stage, u.w, x) | none => [])
    | none => []
  all.filter fun a => (a.mb == u.mb && src.contains (a.stage, a.w)) ||
    (u.dir == 0 && a.dir == 1 && a.stage == u.stage && a.mb + flight == u.mb)

/-! ### Slots -/

/-- A core in a slot: cycles taken, and the TILE group last placed. -/
structure SlotUse where
  used : Nat := 0
  prev : Option Grp := none
  first : Option Grp := none
  deriving DecidableEq, Repr

/-- An entry of the slot section (R237): kind 0 TILE groups, 1 vector, 2 exact, 3 stream, 4 gap, 5 fence. -/
structure SlotEntry where
  slot : Nat
  core : Nat
  kind : Nat
  layer : Nat
  planned : Nat
  reserve : Nat
  deriving DecidableEq, Repr

/-- The schedule so far: use of (stage, core, slot), the last slot of every unit, the entries of every stage. -/
structure Sched where
  uses : List ((Nat × Nat × Nat) × SlotUse) := []
  done : List (Node × Nat) := []
  entries : List (Nat × SlotEntry) := []
  deriving DecidableEq, Repr

def useOf (x : Sched) (k : Nat × Nat × Nat) : SlotUse := match x.uses.find? fun y => y.1 == k with | some y => y.2 | none => {}
def setUse (k : Nat × Nat × Nat) (v : SlotUse) (x : Sched) : Sched := { x with uses := (k, v) :: x.uses.filter fun y => y.1 != k }
def lastSlot (x : Sched) : Nat := x.uses.foldl (fun m y => max m y.1.2.2) 0

def isKindOf (k : Nat) : Chunk → Bool
  | .grp _ => k == 0
  | .unit false _ => k == 1
  | .unit true _ => k == 2
def chunkOther : Chunk → Nat
  | .grp g => g.other
  | .unit _ _ => 0
def firstGrp : List Chunk → Option Grp
  | [] => none
  | .grp g :: _ => some g
  | .unit _ _ :: t => firstGrp t

/-- The slot entries of chunks placed together: their fences, their transfers and their work by kind; `now` cycles are planned. -/
def entriesFor (u : Node) (slot : Nat) (prev : Option Grp) (l : List Chunk) (now : Nat) : List SlotEntry :=
  let mk := fun (k p q : Nat) => ({ slot := slot, core := u.core, kind := k, layer := u.layer, planned := p, reserve := q } : SlotEntry)
  let other := (l.map chunkOther).foldl (· + ·) 0
  (if chunkFences prev l = 0 then [] else [mk 5 0 0]) ++ (if other = 0 then [] else [mk 3 other other]) ++
    [0, 1, 2].filterMap fun k =>
      let c := chunksCost prev (l.filter (isKindOf k))
      if l.any (isKindOf k) then some (mk k (min now c) c) else none

/-- The chunks of a unit that fit into what a core has left in a slot, in order: at least one where `force`. -/
def takeFit (left : Nat) : Option Grp → List Chunk → List Chunk
  | _, [] => []
  | p, c :: t => if chunkCost p c ≤ left then c :: takeFit (left - chunkCost p c) (chunkLast p c) t else []

/-- Place the chunks of a unit from slot `e` on: whole where the unit costs at most C_s, else piece by piece (R230). -/
def placeChunks (cs : Nat) (u : Node) (whole : Bool) : Nat → Nat → Nat → List Chunk → Sched → Sched × Nat
  | 0, e, _, _, x => (x, e)
  | n + 1, e, now, l, x =>
    match l with
    | [] => (x, e - 1)
    | c :: t =>
      let room := fun slot =>
        let v := useOf x (u.stage, u.core, slot)
        decide (v.used + (if whole then chunksCost v.prev l else chunkCost v.prev c) ≤ cs) || v.used == 0
      let slot := (((List.range (lastSlot x + 2)).map (e + ·)).find? room).getD (e + lastSlot x + 2)
      let v := useOf x (u.stage, u.core, slot)
      let part := if whole then l else match takeFit (cs - v.used) v.prev l with | [] => [c] | q => q
      let cost := chunksCost v.prev part
      let es := entriesFor u slot v.prev part now
      let x := setUse (u.stage, u.core, slot)
        { used := v.used + cost, prev := part.foldl chunkLast v.prev, first := v.first.or (firstGrp part) } x
      placeChunks cs u whole n (slot + 1) (now - cost) ((c :: t).drop part.length)
        { x with entries := x.entries ++ es.map fun y => (u.stage, y) }

/-- A unit goes to the earliest slot in which its inputs are there: earlier slots, or earlier in the same slot on the same core. -/
def placeNode (cs : Nat) (preds : List Node) (u : Node) (x : Sched) : Sched :=
  let e := (x.done.filter fun d => preds.contains d.1).foldl (fun m d =>
    max m (if d.1.stage = u.stage ∧ d.1.core = u.core then d.2 else d.2 + 1)) 0
  let r := placeChunks cs u (decide (chunksCost none u.chunks ≤ cs)) (u.chunks.length + 1) e u.now u.chunks x
  { r.1 with done := r.1.done ++ [(u, r.2)] }

/-- Ties: layer, one-forward-one-backward order, output tensor, core. -/
def nodeKey (p mb : Nat) (u : Node) : List Nat := [u.layer, pipeIndex p mb u.stage u.dir u.mb, u.tensor, u.core]

/-- List scheduling: of the units whose sources are placed, the first by its key comes next. -/
def schedule (cs p mb : Nat) (vs : List StageView) (all : List Node) : Nat → List Node → Sched → Sched
  | 0, _, x => x
  | n + 1, left, x =>
    let ready := left.filter fun u => (nodePreds vs (min p mb) all u).all fun a => x.done.any fun d => d.1 == a
    match bestOf (fun a b => decide (nodeKey p mb a < nodeKey p mb b)) ready with
    | none => x
    | some u => schedule cs p mb vs all n (left.filter (· != u)) (placeNode cs (nodePreds vs (min p mb) all u) u x)

/-! ### Gaps (R230) -/

/-- DENSITY of a planned gap, by stream format. -/
def gapDensity : Fmt → Nat
  | .mxe2m1 => 10
  | .fp16 => 7
  | .bf16 | .int8 | .mxint8 => 8
  | _ => 9

/-- The TILE group that precedes the end of a slot on a core, or else the first that follows. -/
def gapGroup (x : Sched) (stage core slot c : Nat) : Option Grp :=
  (((List.range (slot + 1)).reverse.findSome? fun k => (useOf x (stage, core, k)).prev)).or
    ((List.range c).findSome? fun k => (useOf x (stage, core, slot + k)).first)

/-- The rest of every slot on every planned core, up to the last slot of the compute phase. -/
def gapsOf (x : Sched) (stage cPlan cycles c : Nat) : List PlanGap :=
  (List.range c).flatMap fun slot => (List.range cPlan).filterMap fun core =>
    (gapGroup x stage core slot c).bind fun g => (fmtOfCode g.fmt).map fun f =>
      { slot := slot, core := core, cycles := cycles - (useOf x (stage, core, slot)).used, density := gapDensity f }

/-- The slot section of a stage: its entries and gaps, by slot and core. -/
def slotEntries (x : Sched) (stage cPlan cycles c : Nat) : List SlotEntry :=
  let l := (x.entries.filter fun y => y.1 == stage).map (·.2)
  let g := (gapsOf x stage cPlan cycles c).map fun y =>
    ({ slot := y.slot, core := y.core, kind := 4, layer := 0xFFFF, planned := y.cycles, reserve := y.cycles } : SlotEntry)
  (l ++ g).mergeSort fun a b => decide ([a.slot, a.core] ≤ [b.slot, b.core])

def slotEntryBytes (e : SlotEntry) : List Byte :=
  leBytes 4 e.slot ++ leBytes 1 e.core ++ leBytes 1 e.kind ++ leBytes 2 e.layer ++ leBytes 4 e.planned ++ leBytes 4 e.reserve

/-! ### Layer costs (R237) -/

/-- A layer's entry: fences, cycles at the current rungs and at the reserve, spilled bytes in 4 KiB units. -/
def layerEntry (s : State) (v : StageView) (lay : Layout) (i : Nat) : List Byte :=
  let ws := v.work.filter fun x => x.work.layer == i
  let sum := fun (f : Planned → Nat) => (ws.map f).foldl (· + ·) 0
  let most := fun (x : Planned) (f : Nat → Nat) => (List.range x.cores).foldl (fun m j => max m (f j)) 0
  let cur := fun (x : Planned) (j : Nat) => (coreChunks v.homes (capacity s) x (currentOf s x)).getD j []
  let spill := ((ws.flatMap fun x => x.work.reads).eraseDups.filter fun t => regionCode lay t == 2).map fun t =>
    match mainItem lay t with | some y => itemBytes y.1 | none => 0
  leBytes 2 i ++ leBytes 2 (sum fun x => most x fun j => chunkFences none (reserveChunks s v.homes x j)) ++
    leBytes 4 (sum fun x => most x fun j => chunksCost none (cur x j)) ++
    leBytes 4 (sum fun x => most x fun j => chunksCost none (reserveChunks s v.homes x j)) ++
    leBytes 4 (ceilDiv (spill.foldl (· + ·) 0) 4096)

/-! ### Phase costs (R224, R288, R298, R451, R454), in ns -/

def lanesOf (x : MapDev) : Nat := x.ports.foldl (fun m e => m + entryLanes e) 0
/-- Bytes over the usable ports of a device, at 25 GB/s a lane. -/
def portsNs (f : Scheme) (pos bytes : Nat) : Nat := match devAt f.ds pos with | some x => ceilDiv bytes (25 * max 1 (lanesOf x)) | none => 0
/-- Bytes in LPDDR5X (16/15 with inline ECC) and in the hold. -/
def lpddrNs (inline : Bool) (bytes : Nat) : Nat := if inline then ceilDiv (bytes * 160) (12288 * 15) else ceilDiv (bytes * 10) 12288
def holdNs (bytes : Nat) : Nat := ceilDiv (bytes * 10) 13312

/-- A weight of a worker's stage: layer, descriptors of the layer and of the tensor, its ID, blocks of the shard and of the owned piece. -/
structure Owned where
  layer : Nat
  y : LayerDesc
  d : TensorDesc
  w : Nat
  blocks : Nat
  first : Nat
  own : Nat

def ownedOf (f : Scheme) (x : Seat) : List Owned :=
  let l := (stageLayers f x.stage).filter fun y => y.2.wgt != noTensor
  (l.zipIdx.filter fun y => (l.findIdx fun z => z.2.wgt == y.1.2.wgt) == y.2).filterMap fun y =>
    (f.pk.tensors[y.1.2.wgt]?).bind fun d =>
      if d.kind != 2 then none
      else
        let n := shardBlocks d f.t x.rank
        let q := pieceBlocks n f.r x.replica
        some { layer := y.1.1, y := y.1.2, d := d, w := y.1.2.wgt, blocks := n, first := q.1, own := q.2 }

/-- Entry bytes of a block in RA packets (R290): FP8 unless the G rung may be BF16 or FP16, or the layer has no steered G role. -/
def raBytes (s : State) (o : Owned) : Nat :=
  if steered o.y 2 && (reserveRungs s o.layer 2 o.y).all (fun n =>
      let b := rungFmt (rungByte o.y 2 n)
      fmtOfCode b != some .bf16 && fmtOfCode b != some .fp16) then 36 else 68

def sumOwned (l : List Owned) (g : Owned → Nat) : Nat := (l.map g).foldl (· + ·) 0
/-- Bytes of a stored format of `n` blocks. -/
def storedBytes (fmt n : Nat) : Nat := match fmtOfCode fmt with | some g => n * (4 * fmtWidth g + b2n (isMx g)) | none => 0

/-- Reduction: entries sent and received over the ports, 12 bytes an element and contribution at the accumulators, gradients read. -/
def reduceNs (s : State) (f : Scheme) (lay : Layout) (x : Seat) : Nat :=
  let l := ownedOf f x
  let at_ := fun (k : Nat) => sumOwned l fun o =>
    (if (planeOf lay o.w .acc 0 < 0x1000000000) == (k == 1) then 384 * o.own * f.r else 0) +
      (if (planeOf lay o.w .grad 0 < 0x1000000000) == (k == 1) then 256 * o.blocks else 0)
  max (max (portsNs f x.pos (sumOwned l fun o => (o.blocks - o.own) * raBytes s o))
      (portsNs f x.pos (sumOwned l fun o => o.own * (f.r - 1) * raBytes s o)))
    (max (holdNs (at_ 1)) (lpddrNs (inlineEcc s) (at_ 2)))

/-- Update (R454): stored weight twice, every moment twice, 6.5 bytes an element of accumulators, each where it lies. -/
def updateNs (s : State) (f : Scheme) (lay : Layout) (x : Seat) : Nat :=
  let l := ownedOf f x
  let inHold := fun (a : Nat) => decide (a < 0x1000000000)
  let moms := fun (o : Owned) => [o.y.m1, o.y.m2].filter (· != noTensor)
  let at_ := fun (h : Bool) => sumOwned l fun o =>
    (if inHold (planeOf lay o.w (.copy 0) 0) = h then 2 * storedBytes o.d.fmt o.own else 0) +
      ((moms o).map fun m => if inHold (planeOf lay m (.copy 0) 0) = h
        then 2 * (match f.pk.tensors[m]? with | some d => storedBytes d.fmt o.own | none => 0) else 0).foldl (· + ·) 0 +
      (if inHold (planeOf lay o.w .acc 0) = h then 208 * o.own else 0)
  max (holdNs (at_ true)) (lpddrNs (inlineEcc s) (at_ false))

/-- Distribution: the owned weights to every other replica (R288). -/
def distNs (f : Scheme) (x : Seat) : Nat := portsNs f x.pos (sumOwned (ownedOf f x) fun o => (f.r - 1) * storedBytes o.d.fmt o.own)

/-- B of R298: blocks whose EMAX a device sends to others. -/
def scaleBlocksOf (f : Scheme) (x : Seat) : Nat := sumOwned (ownedOf f x) fun o => o.blocks - o.own

/-- Bytes that a device sends in the boundary exchange (R451): records of its pieces, sums of its layers, its own part, the marks. -/
def exchangeBytesOf (f : Scheme) (x : Seat) : Nat :=
  (16 + 256) * (ownedOf f x).length + (16 + 24) * (stageLayers f x.stage).length + (16 + 40) + 16 * (1 + (Config.moreCombiners f.inp).length)

/-- The largest value of a function over the workers. -/
def mostOf (f : Scheme) (g : Seat → Nat) : Nat := (seats f).foldl (fun m x => max m (g x)) 0

/-- The estimate of R225 in ns: the costliest stage over the pipeline, the phases and three strokes. -/
def stepTime (s : State) (f : Scheme) (stageCost : Nat) (lay : Seat → Layout) : Nat :=
  let cyc := ceilDiv (stageCost * (f.mb + f.p - 1) * 64) (64 - cap s 0x5008)
  ceilDiv (cyc * 10) 13 + mostOf f (fun x => reduceNs s f (lay x) x) + mostOf f (fun x => updateNs s f (lay x) x) +
    mostOf f (distNs f) + 3 * cap s 0x4004

end Sys2Proof.Machine
end

