-- ==== Sys2Proof/Machine/Emit.lean ====
section
/-! DEFINITION. Stages 7 and 8 of the lockkeeper (R183, R185, R231, R232, R254, R289, R309, R452): the flows of the plan with their
numbers and contexts, and what the plan gives this device: its tensor descriptors, regions, owned pieces, conversions, codebook groups,
custom programs and classes of memory. -/

namespace Sys2Proof.Machine

open Sys2Proof

/-! ### Flows (R231, R452) -/

/-- A flow of the plan; `kind` orders flows that the numbering leaves equal: 0 activations and partials, 1 weights, 2 samples, 3 gradient
entries, 4 scales down, 5 parts of records, 6 results, 7 to 10 images. -/
structure FlowRow where
  src : Nat
  dst : Nat
  cls : Nat
  tensor : Nat
  kind : Nat
  deriving DecidableEq, Repr

def writtenBy (l : List Planned) (i : Nat) : Bool := l.any fun x => x.work.writes.contains i
def readBy (l : List Planned) (i : Nat) : Bool := l.any fun x => x.work.reads.contains i

/-- The tensors of kinds 0 and 1 that stage `a` writes and stage `b` reads. -/
def sentTensors (s : State) (f : Scheme) (a b : Nat) : List Nat :=
  (List.range f.pk.tensors.length).filter fun i =>
    (match f.pk.tensors[i]? with | some d => d.kind == 0 || d.kind == 1 | none => false) &&
      writtenBy (stagePlan s f a) i && readBy (stagePlan s f b) i

def sameReplica (f : Scheme) (x : Seat) : List Seat := (seats f).filter fun y => y.replica == x.replica && y.pos != x.pos
/-- The workers that hold the same shard in the other replicas. -/
def samePart (f : Scheme) (x : Seat) : List Seat :=
  (seats f).filter fun y => y.replica != x.replica && y.stage == x.stage && y.rank == x.rank

/-- The flows that a worker sends, combining devices aside. -/
def rowsFrom (s : State) (f : Scheme) (x : Seat) : List FlowRow :=
  let row := fun (dst cls tensor kind : Nat) => ({ src := x.pos, dst := dst, cls := cls, tensor := tensor, kind := kind } : FlowRow)
  ((sameReplica f x).flatMap fun y => (sentTensors s f x.stage y.stage).map fun i => row y.pos 1 i 0) ++
  ((samePart f x).flatMap fun y => (ownedOf f x).flatMap fun o => row y.pos 2 o.w 1 ::
    match gradOf f.pk 3 o.w with | some g => [row y.pos 3 g 3, row y.pos 3 g 4] | none => []) ++
  (if x.stage = 0 ∧ x.rank = 0 then (sameReplica f x).map fun y => row y.pos 2 noTensor 2 else [])

/-- Four image flows each way between a device and its buddy. -/
def imageRows (f : Scheme) : List FlowRow :=
  f.buddies.flatMap fun b => [(b.1, b.2), (b.2, b.1)].flatMap fun q => [7, 8, 9, 10].map fun k =>
    { src := q.1, dst := q.2, cls := 1, tensor := noTensor, kind := k }

/-- Parts of records to the combining devices, and results from them. -/
def sumRows (f : Scheme) (combiners : List Nat) : List FlowRow :=
  combiners.flatMap fun q => (f.workers.filter (· != q)).flatMap fun w =>
    [{ src := w, dst := q, cls := 3, tensor := noTensor, kind := 5 }, { src := q, dst := w, cls := 2, tensor := noTensor, kind := 6 }]

/-- Every flow, in the order of its number: source, destination, class, tensor. -/
def allRows (s : State) (f : Scheme) (combiners : List Nat) : List FlowRow :=
  ((seats f).flatMap (rowsFrom s f) ++ imageRows f ++ sumRows f combiners).mergeSort fun a b =>
    decide ([a.src, a.dst, a.cls, a.tensor, a.kind] ≤ [b.src, b.dst, b.cls, b.tensor, b.kind])

/-- Contexts that a device needs: its flows sent and received. -/
def contexts (l : List FlowRow) (pos : Nat) : Nat := (l.filter fun r => r.src == pos || r.dst == pos).length

def rowId (l : List FlowRow) (src dst tensor kind : Nat) : Nat :=
  l.findIdx fun r => r.src == src && r.dst == dst && r.tensor == tensor && r.kind == kind

/-- The first port of a flow's route, twice the port plus the sub-port; the four image flows leave over distinct ports (R314). -/
def firstPort (ds : List MapDev) (r : FlowRow) : Nat :=
  let main := match (routeTable ds r.src).find? fun x => x.1 == r.dst with | some x => x.2 | none => 0
  if r.kind < 7 then main
  else match devAt ds r.src with
    | some x =>
      let ps := (main / 2) :: ((List.range 16).filter fun p => p != main / 2 &&
        (entryLanes (x.ports.getD (2 * p) 0) != 0 || entryLanes (x.ports.getD (2 * p + 1) 0) != 0))
      let p := ps.getD ((r.kind - 7) % ps.length) 0
      if p = main / 2 then main else if entryLanes (x.ports.getD (2 * p) 0) != 0 then 2 * p else 2 * p + 1
    | none => main

/-- The regions of a worker in their order: every weight of its stage that has a gradient, and for each the replica that owns a piece. -/
def regionKeys (f : Scheme) (x : Seat) : List (Owned × Nat × Nat) :=
  (ownedOf f x).flatMap fun o => match gradOf f.pk 3 o.w with
    | some g => (List.range f.r).map fun j => (o, g, j)
    | none => []

/-- Multicast sets of a source (R286): one for each weight tensor, one for samples, one for results. -/
def setOf (r : FlowRow) : Nat := if r.kind = 1 then r.tensor % 2 ^ 24 else if r.kind = 2 then 0xFFFFFF else 0xFFFFFE

/-- The flow contexts of a device. -/
def flowCtxs (f : Scheme) (l : List FlowRow) (pos : Nat) : List FlowCtx :=
  let recv := (l.filter fun r => r.dst == pos).length
  let keys := match seatOf f pos with | some x => regionKeys f x | none => []
  let rep := fun q => match seatOf f q with | some x => x.replica | none => 0
  l.zipIdx.filterMap fun (r, id) =>
    if r.src != pos && r.dst != pos then none
    else
      let target : FlowTarget := match r.kind with
        | 3 => .region (keys.findIdx fun k => k.2.1 == r.tensor && k.2.2 == rep r.dst)
        | 4 => .region (keys.findIdx fun k => k.2.1 == r.tensor && k.2.2 == rep r.src)
        | 5 => .combining r.dst
        | 6 => .combining r.src
        | _ => .descriptor (Config.flowDesc f.inp pos id)
      let port := firstPort f.ds r
      some { id := id, sending := r.src == pos, peer := if r.src = pos then r.dst else r.src, cls := r.cls, tensor := r.tensor,
             target := target, set := setOf r, port := port / 2, sub := port % 2,
             hops := hopsOf (hopsFrom f.ds r.src) r.dst, credits := max 2 (min 64 (32768 / max 1 recv)) }

/-! ### Regions, pieces, conversions and codebooks (R196, R200, R201, R289) -/

/-- The worker of a replica that holds the same shard. -/
def partAt (f : Scheme) (x : Seat) (j : Nat) : Nat :=
  match (seats f).find? fun y => y.replica == j && y.stage == x.stage && y.rank == x.rank with | some y => y.pos | none => x.pos

def regionOf (f : Scheme) (l : List FlowRow) (lay : Layout) (x : Seat) (k : Owned × Nat × Nat) : Region :=
  let q := pieceBlocks k.1.blocks f.r k.2.2
  let own := k.2.2 == x.replica
  { tensor := k.2.1, layer := k.1.layer, owner := k.2.2, blocks := q.2, acc := if own then planeOf lay k.1.w .acc 0 else 0,
    grad := planeOf lay k.1.w .grad 0 + 256 * q.1, flow := if own then 0 else rowId l x.pos (partAt f x k.2.2) k.2.1 3,
    down := if own then (samePart f x).map fun y => (y.replica, rowId l x.pos y.pos k.2.1 4) else [],
    scales := planeOf lay k.1.w .scales 0 + q.1 }

/-- Byte offset of block `b` in a stored element plane. -/
def blockOffset (fmt b : Nat) : Nat := match fmtOfCode fmt with | some g => 4 * fmtWidth g * b | none => 128 * b

def momentFmt (f : Scheme) (m : Nat) : Nat := match f.pk.tensors[m]? with | some d => d.fmt | none => 0

def pieceOf (f : Scheme) (lay : Layout) (x : Seat) (o : Owned) : Piece :=
  let at_ := fun (c k : Nat) => planeOf lay o.w (.copy c) k + (if k = 0 then blockOffset o.d.fmt o.first else o.first)
  let g := (gradOf f.pk 3 o.w).getD noTensor
  { tensor := o.w, layer := o.layer, opt := o.y.opt, fmt := o.d.fmt, texp := o.d.texp,
    first := shardFirst o.d f.t x.rank + 32 * o.first,
    elems := min (32 * o.own) (elemsOf (shardDims o.d f.t x.rank) - 32 * o.first),
    cur := at_ 0 0, curScale := at_ 0 1, other := at_ 1 0, otherScale := at_ 1 1,
    m1 := planeOf lay o.y.m1 (.copy 0) 0, m1Scale := planeOf lay o.y.m1 (.copy 0) 1, m1Fmt := momentFmt f o.y.m1, m1Tensor := o.y.m1,
    m2 := planeOf lay o.y.m2 (.copy 0) 0, m2Scale := planeOf lay o.y.m2 (.copy 0) 1, m2Fmt := momentFmt f o.y.m2, m2Tensor := o.y.m2,
    region := (regionKeys f x).findIdx fun k => k.2.1 == g && k.2.2 == x.replica }

/-- A weight is streamed by the product of a layer with STAT field `k`. -/
def streams (l : List Planned) (layer k w : Nat) : Bool :=
  l.any fun x => x.work.layer == layer && (match x.work.prod with | some p => p.k == k && (streamT x p).2 == w | none => false)

/-- Where the codebooks of an array-format copy begin: its last plane. -/
def bookStart (lay : Layout) (w : Nat) : Nat :=
  match itemAt lay w .array with | some x => planeStart x.1 x.2 (x.1.planes.length - 1) | none => 0

def convOf (s : State) (f : Scheme) (lay : Layout) (x : Seat) (o : Owned) : Conv :=
  let l := stagePlan s f x.stage
  let res := !(residualsOf (planResiduals s f) o.w).isEmpty
  let arr := fun k => planeOf lay o.w .array k
  { tensor := o.w, layer := o.layer, fmt := o.d.fmt, texp := o.d.texp, dims := shardDims o.d f.t x.rank,
    baxis := if o.d.baxis = 0xFF then 0 else o.d.baxis, srcFmt := o.d.fmt, fwdStream := streams l o.layer 0 o.w,
    bwdStream := streams l o.layer 1 o.w, src := planeOf lay o.w (.copy 0) 0, srcScale := planeOf lay o.w (.copy 0) 1,
    book := bookStart lay o.w, dst := arr 0, dstScale := arr 1, res := if res then arr 2 else 0, resScale := if res then arr 3 else 0 }

/-- The codebook groups of a TC4 layer's shard. -/
def booksOf (f : Scheme) (lay : Layout) (x : Seat) (o : Owned) : List BookGroup :=
  let dims := shardDims o.d f.t x.rank
  let ax := if o.d.baxis = 0xFF then 0 else o.d.baxis
  if (usedRungs o.y.ladW).any (fun b => rungFmt b == 0xE) then
    (List.range (ceilDiv (axisRows dims ax) 128)).map fun g =>
      { layer := o.layer, group := g, fmt := o.d.fmt, dims := dims, baxis := ax, src := planeOf lay o.w (.copy 0) 0,
        book := bookStart lay o.w + 32 * g }
  else []

/-! ### Tensor descriptors as placed (R183, R232) -/

/-- Extents of what this device holds of a tensor: a shard, an owned piece of a moment, the whole of any other. -/
def heldDims (f : Scheme) (x : Seat) (lay : Layout) (i : Nat) (d : TensorDesc) : List Nat :=
  match d.kind with
  | 2 | 3 | 6 => shardDims d f.t x.rank
  | 4 => match (ownedOf f x).find? fun o => o.y.m1 == i || o.y.m2 == i with
    | some o => [32 * o.own, 1, 1, 1]
    | none => []
  | _ => if (mainItem lay i).isSome then d.dims else []

/-- The range that holds a tensor on this device: a weight gradient's is that of its weight's retained gradient. -/
def heldItem (lay : Layout) (i : Nat) (d : TensorDesc) : Option (Item × Nat) :=
  if d.kind = 3 then itemAt lay d.paired .grad else mainItem lay i

/-- A descriptor with its planes and STATE; one of which this device holds no part has extents and planes 0 (log entry 134). -/
def placedTensor (f : Scheme) (x : Seat) (lay : Layout) (i : Nat) (d : TensorDesc) : TensorDesc :=
  let fl := d.flags % 2 + (if d.kind = 2 ∨ d.kind = 4 ∨ d.kind = 6 then 4 else 0)
  match heldItem lay i d with
  | some y => { d with flags := fl, dims := heldDims f x lay i d, plane0 := planeStart y.1 y.2 0,
                       plane1 := if d.kind = 3 then 0 else planeStart y.1 y.2 1 }
  | none => { d with flags := fl, dims := d.dims.map fun _ => 0 }

/-- A residual's descriptor: its main tensor's with RESIDUAL; a weight's residual lies with the array-format copy. -/
def placedResidual (f : Scheme) (x : Seat) (lay : Layout) (res : List (Nat × Bool)) (k : Nat × Bool) : Option TensorDesc :=
  (f.pk.tensors[k.1]?).map fun d =>
    let n := if d.kind = 2 then 0 else (residualsOf res k.1).idxOf k.2
    match if d.kind = 2 then itemAt lay k.1 .array else itemAt lay k.1 (.copy 0) with
    | some y => { d with flags := 2, initAt := 0, dims := heldDims f x lay k.1 d, plane0 := planeStart y.1 y.2 (2 + 2 * n),
                         plane1 := planeStart y.1 y.2 (3 + 2 * n) }
    | none => { d with flags := 2, initAt := 0, dims := d.dims.map fun _ => 0 }

def placedTensors (s : State) (f : Scheme) (x : Seat) (lay : Layout) : List TensorDesc :=
  let res := planResiduals s f
  (f.pk.tensors.zipIdx.map fun y => placedTensor f x lay y.2 y.1) ++ res.filterMap (placedResidual f x lay res)

/-! ### Custom programs (R173, R185) -/

/-- The threads of one core's custom programs, from thread 31 and counter 255 down; with FLAGS[0], ordinal 0 is thread 0, the array
thread. `pc0` is the instruction at which the program's code begins. -/
def progThreads (lay : Layout) (c : Nat) : List (Nat × ProgHdr × Nat) → Nat → Nat → Nat → List ThreadEntry
  | [], _, _, _ => []
  | (layer, p, ix) :: rest, thr, cnt, pc0 =>
    let lo := planeOf lay layer .scratch 0 % 0x100000
    ((List.range p.threads).map fun k =>
      { core := c, thread := if p.flags % 2 = 1 ∧ k = 0 then 0 else thr - p.threads + k, pc := pc0, custom := some ix, ordinal := k,
        layer := layer, drop := none, lo := lo, hi := lo + p.scratch, kFirst := cnt - p.counters, kLast := cnt - 1 }) ++
      progThreads lay c rest (thr - p.threads) (cnt - p.counters) (pc0 + round64 (16 * p.nInstr) / 16)

def customThreads (f : Scheme) (x : Seat) (lay : Layout) : List ThreadEntry :=
  (List.range f.cPlan).flatMap fun c =>
    progThreads lay c ((coreProgs f x.stage c).map fun q => (q.1, q.2, match f.pk.layers[q.1]? with | some y => y.prog | none => 0)) 32 256 0

/-- The code of the custom programs: place, offset in the package, bytes. -/
def customCode (f : Scheme) (x : Seat) (lay : Layout) : List (Nat × Nat × Nat) :=
  (List.range f.cPlan).flatMap fun c => ((coreProgs f x.stage c).zipIdx).map fun q =>
    (planeOf lay c .program q.2, q.1.2.codeOff, 16 * q.1.2.nInstr)

/-- CORE_PROG_BASE of every planned core (R160). -/
def progBases (f : Scheme) (lay : Layout) : List (Nat × Nat) :=
  (List.range f.cPlan).map fun c => (coreWindow c + 4, planeOf lay c .program 0 % 0x100000)

/-! ### Homes and classes (R235, R254, R309) -/

/-- A home of stored state: tensor, which one (0 and 1 the copies, 2 the scale tables), address, bytes. -/
def storedHomes (pk : Pkg) (lay : Layout) : List (Nat × Nat × Nat × Nat) :=
  lay.items.filterMap fun x => match x.1.part with
    | .copy k => (pk.tensors[x.1.tensor]?).bind fun d =>
        if d.kind = 2 ∨ d.kind = 4 ∨ d.kind = 6 then some (x.1.tensor, k, x.2, itemBytes x.1) else none
    | .scales => some (x.1.tensor, 2, x.2, itemBytes x.1)
    | _ => none

/-- The two homes of each plane of a stored weight, and its bytes. -/
def copyPairs (pk : Pkg) (lay : Layout) : List (Nat × Nat × Nat) :=
  lay.items.flatMap fun x => match x.1.part, pk.tensors[x.1.tensor]? with
    | .copy 0, some d => if d.kind = 2 then [0, 1].map fun k =>
        (planeStart x.1 x.2 k, planeOf lay x.1.tensor (.copy 1) k, x.1.planes.getD k 0) else []
    | _, _ => []

/-- Plan data (1) and state (2) beside the tensors' own planes: programs; second copies, scale tables, owned S fields. -/
def namedClass (pk : Pkg) (x : Item × Nat) : List (Nat × Nat × Nat) :=
  match x.1.part with
  | .program => [(1, x.2, itemBytes x.1)]
  | .scales => [(2, x.2, itemBytes x.1)]
  | .acc => (List.range (itemBytes x.1 / 208)).map fun b => (2, x.2 + 208 * b + 192, 1)
  | .copy 1 => match pk.tensors[x.1.tensor]? with
    | some d => if d.kind = 2 ∨ d.kind = 6 then [(2, x.2, itemBytes x.1)] else []
    | none => []
  | _ => []

/-- The named ranges, then everything placed (3): what no other class claims is recomputable. -/
def classRanges (pk : Pkg) (lay : Layout) : List (Nat × Nat × Nat) :=
  lay.items.flatMap (namedClass pk) ++ lay.items.map fun x => (3, x.2, itemBytes x.1)

/-- Token inputs: tensor and base of its step and micro-batch homes (R183, R190). -/
def tokenHomes (lay : Layout) : List (Nat × Nat) := lay.items.filterMap fun x => if x.1.part = .tokens then some (x.1.tensor, x.2) else none

end Sys2Proof.Machine
end

