-- ==== Sys2Proof/Machine/Planner.lean ====
section
/-! DEFINITION. The lockkeeper's plan (R223, R225, R226, R233 to R237, R312, R313, R325, R451): partition, buddies, stage split, the plan
and its parts, and the plan readout. Stages 4 to 8 stand in Work, Place, Pack and Emit; the code of the built-in programs and the stream
descriptors are constants of Config (log entry 134). -/

namespace Sys2Proof.Machine

open Sys2Proof

/-! ### Partition (R225) -/

def widthOk (t : Nat) : Bool := [1, 2, 4, 8, 16].contains t

/-- Candidates (t, p) for `n` workers that agree with the package's non-zero fields; r is n / (t p). -/
def candidates (pk : Pkg) (n : Nat) : List (Nat × Nat) :=
  [1, 2, 4, 8, 16].flatMap fun t => ((List.range (min n pk.layers.length)).map (· + 1)).filterMap fun p =>
    if n % (t * p) = 0 && 1 ≤ n / (t * p) && (pk.parTp == 0 || pk.parTp == t) && (pk.parPp == 0 || pk.parPp == p) &&
       (pk.parDp == 0 || pk.parDp == n / (t * p)) then some (t, p) else none

/-! ### Buddies (R312, R313) -/

/-- Strict order of candidates by the keys of R312: feed, images assigned, hops, position. -/
def buddyLess (feed : Nat) (dist : List (Nat × Nat)) (given : List (Nat × Nat)) (a b : MapDev) : Bool :=
  let n := fun (x : MapDev) => (given.filter fun g => g.2 == x.pos).length
  let k := fun (x : MapDev) => [b2n (x.feed == feed), n x, hopsOf dist x.pos, x.pos]
  decide (k a < k b)

/-- Buddies of the workers in ascending position: (device, buddy). -/
def buddies (ds workers spares : List MapDev) : List (Nat × Nat) :=
  workers.foldl (fun (given : List (Nat × Nat)) k =>
    let others := workers.filter fun x => x.pos != k.pos
    let pool := if others.isEmpty then spares else others
    match bestOf (buddyLess k.feed (hopsFrom ds k.pos) given) pool with
    | some b => given ++ [(k.pos, b.pos)]
    | none => given) []

/-! ### Stage split (R226) -/

/-- Every split of layers `i` to `n - 1` into `k` contiguous ranges, as lists of first layers. -/
def splits (n : Nat) : Nat → Nat → List (List Nat)
  | 0, _ => []
  | 1, i => if i < n then [[i]] else []
  | k + 2, i => ((List.range n).filter fun j => decide (i < j)).flatMap fun j => (splits n (k + 1) j).map fun r => i :: r

/-- First and last layer of each range of a split. -/
def ranges (n : Nat) : List Nat → List (Nat × Nat)
  | [] => []
  | [a] => [(a, n - 1)]
  | a :: b :: t => (a, b - 1) :: ranges n (b :: t)

/-- Every hint of kind 2 holds in the split. -/
def splitHolds (pk : Pkg) (rs : List (Nat × Nat)) : Bool :=
  (pk.layers.zipIdx).all fun (y, i) => match hintOf pk y.hint 2 with
    | some v => match rs[v]? with
      | some (a, b) => decide (a ≤ i) && decide (i ≤ b)
      | none => false
    | none => true

/-- The largest range cost of a split (R226). -/
def splitCost (s : State) (pk : Pkg) (cPlan t : Nat) (rs : List (Nat × Nat)) : Nat :=
  rs.foldl (fun m (a, b) => max m ((List.range (b + 1 - a)).foldl (fun c i => c + layerCost s pk cPlan t (a + i)) 0)) 0

/-- Stage 3: least largest range cost, then the lexicographically smallest list of first layers. -/
def stageSplit (s : State) (pk : Pkg) (cPlan t p : Nat) : Option (List (Nat × Nat)) :=
  let n := pk.layers.length
  let ok := ((splits n p 0).map (ranges n)).filter (splitHolds pk)
  ok.foldl (fun m r => match m with
    | some b => if splitCost s pk cPlan t r < splitCost s pk cPlan t b then some r else m
    | none => some r) none

/-! ### Choice of the partition (R225) -/

/-- The placements of every worker; none where one does not fit (R226). -/
def layouts (s : State) (f : Scheme) : Option (List (Nat × Layout)) :=
  let l := (seats f).map fun x => (x.pos, layout s f x)
  if l.all fun y => y.2.isSome then some (l.filterMap fun y => y.2.map fun q => (y.1, q)) else none

def noLayout : Layout := { items := [], ignored := [] }
def layoutAt (l : List (Nat × Layout)) (pos : Nat) : Layout := match l.find? fun y => y.1 == pos with | some y => y.2 | none => noLayout

/-- The estimate of a candidate that has a stage split and whose memory fits. -/
def candidateTime (s : State) (f : Scheme) : Option Nat :=
  (layouts s f).map fun l => stepTime s f (splitCost s f.pk f.cPlan f.t f.stages) fun x => layoutAt l x.pos

/-- Stage 2 and 3: the partition with the smallest estimate, or the refusal's code: PAR_INVALID, HINT_CONFLICT where no candidate has
a stage split, PLAN_NO_FIT. `base` is the scheme of a candidate before its stages. -/
def partition (s : State) (pk : Pkg) (n : Nat) (base : Nat → Nat → Scheme) : Nat × Option Scheme :=
  if pk.parTp != 0 && pk.parPp != 0 && pk.parDp != 0 &&
     !(pk.parTp * pk.parPp * pk.parDp == n && widthOk pk.parTp && decide (pk.parPp ≤ pk.layers.length)) then (0x22, none)
  else
    let cs := candidates pk n
    let split := cs.filterMap fun c =>
      let f := base c.1 c.2
      (stageSplit s pk f.cPlan c.1 c.2).map fun st => { f with stages := st }
    let timed := split.filterMap fun f => (candidateTime s f).map fun v => (v, f)
    match bestOf (fun a b => decide (a.1 < b.1)) timed with
    | some x => (0, some x.2)
    | none => (if split.isEmpty && !cs.isEmpty then 0x24 else 0x23, none)

/-! ### The plan -/

/-- Kind-3 hints (R227): a conflict, and the layers whose hint a replan ignores. -/
def coreHints (pk : Pkg) (cPlan : Nat) (replan : Bool) : Bool × List Nat :=
  let hs := (pk.layers.zipIdx).filterMap fun (y, i) => (hintOf pk y.hint 3).map fun v => (i, v % 256, v / 256 % 256)
  (hs.any fun (_, a, b) => decide (b < a) || (!replan && decide (cPlan ≤ b)),
   (hs.filter fun (_, _, b) => decide (cPlan ≤ b)).map (·.1))

/-- Planned strokes of the boundary exchange (R451). -/
def exchangeStrokes (bx lanes h d period : Nat) : Nat :=
  let den := 25000 * lanes
  ceilDiv (2 * 1067 * bx + (200 * h + (2 * d + 1) * 100) * den) (den * period) + 1

/-- Planned strokes of the scale-finding exchange (R298). -/
def scaleStrokes (b lanes h period : Nat) : Nat :=
  let den := 25000 * lanes
  ceilDiv (1134 * b + 200 * h * den) (den * period) + 1

/-- W_m of R235: bytes at 1.2288 TB/s. -/
def moveStrokes (bytes period : Nat) : Nat := ceilDiv (bytes * 10) (12288 * period)

/-- B_m: the most bytes that a device must move because a home in `now` is not where it was in `was`. -/
def movedBytes (was now : List (Nat × List (Nat × Nat × Nat × Nat))) : Nat :=
  now.foldl (fun m x =>
    let old := match was.find? fun y => y.1 == x.1 with | some y => y.2 | none => []
    max m ((x.2.filter fun h => !old.contains h).foldl (fun n h => n + h.2.2.2) 0)) 0

/-- Elements of the dropout mask of one sequence in a layer instance, over its OUT tensor's tokens (R112). -/
def maskElems (pk : Pkg) (seqMax : Nat) (y : LayerDesc) : Nat :=
  match pk.tensors[y.out]? with
  | some t => if y.dropP = 0 then 0 else t.dims.foldl (· * ·) 1 / max 1 pk.mbTokens * seqMax
  | none => 0

/-- MB_PER_STEP and SEQ_PER_STEP of a replica, rebalanced after retirements (R325). -/
def rebalanced (s : State) (v r0 r cap : Nat) : Nat :=
  if r0 = r then v else if bitN (reg s 0xA004) 4 then min (ceilDiv (v * r0) r) cap else v

/-- The plan image (R237). -/
def posBytes (e : PosEntry) : List Byte :=
  leBytes 2 e.pos ++ leBytes 2 e.replica ++ leBytes 2 e.stage ++ leBytes 2 e.rank ++ leBytes 2 e.buddy ++
    leBytes 1 (b2n e.shared + 2 * b2n e.master) ++ leBytes 1 e.parentPort ++ leBytes 4 0

def tensorBytes (t : TensorDesc) : List Byte :=
  leBytes 1 t.fmt ++ leBytes 1 t.kind ++ leBytes 1 t.rank ++ leBytes 1 t.baxis ++ leBytes 1 t.texp ++ leBytes 1 t.flags ++
    leBytes 2 t.steerLayer ++ leBytes 1 t.steerRole ++ leBytes 3 0 ++ leBytes 4 t.paired ++ t.dims.flatMap (leBytes 4) ++
    leBytes 8 t.initAt ++ leBytes 8 t.plane0 ++ leBytes 8 t.plane1 ++ leBytes 4 t.hint ++ leBytes 4 0

def rungBytes (s : State) (p : Plan) (x : Nat × Nat × LayerDesc) : List Byte :=
  let k := pairKey x.1 x.2.1
  let l := layerLadder x.2.2 x.2.1
  let adm := match p.admissible.find? fun a => a.1 == k with | some a => a.2 | none => 0
  leBytes 2 x.1 ++ leBytes 1 x.2.1 ++ leBytes 1 (rungOf s x.1 x.2.1) ++ leBytes 1 adm ++ leBytes 1 l.floor ++
    leBytes 1 l.ceil ++ leBytes 1 (b2n (pinOf s x.1 x.2.1 != 0) + 2 * b2n (s.cox.withdrawn.contains k))

def flowBytes (f : FlowCtx) : List Byte :=
  leBytes 4 f.id ++ leBytes 2 f.peer ++ leBytes 1 f.cls ++ leBytes 1 f.port ++ leBytes 1 f.hops ++ leBytes 7 0

def eventBytes (e : Nat × Nat × Nat) : List Byte := leBytes 2 e.1 ++ leBytes 2 e.2.1 ++ leBytes 4 e.2.2 ++ leBytes 8 0

/-- The eight sections of the plan image: kind, count, bytes (R237). -/
def planSections (s : State) (p : Plan) : List (Nat × Nat × List Byte) :=
  let ps := match s.pkg with | some k => pairs k | none => []
  [(1, p.positions.length, p.positions.flatMap posBytes),
   (2, p.stages.length, p.stages.flatMap fun (a, b) => leBytes 4 a ++ leBytes 4 b),
   (3, ps.length, ps.flatMap (rungBytes s p)),
   (4, p.tensors.length, p.tensors.flatMap tensorBytes),
   (5, p.slots.length, p.slots.flatten), (6, p.costs.length, p.costs.flatten),
   (7, p.flows.length, p.flows.flatMap flowBytes), (8, p.events.length, p.events.flatMap eventBytes)]

/-- The 256 header bytes of the plan image (R237); `magic` is "PLAN". -/
def planHeader (magic version : Nat) (p : Plan) : List Byte :=
  [leBytes 4 magic, leBytes 2 1, leBytes 2 version, leBytes 4 p.fromStep, leBytes 2 p.t, leBytes 2 p.p, leBytes 2 p.r,
   leBytes 1 p.cPlan, leBytes 1 p.allow, leBytes 4 p.period, leBytes 4 p.c, leBytes 4 p.q, leBytes 4 p.u, leBytes 4 p.d,
   leBytes 4 p.x, leBytes 4 p.window, leBytes 4 8, List.replicate 12 0, p.planDigest, p.deviceDigest, p.inputDigest,
   List.replicate 48 0].flatten

/-- The section table with offsets that follow the header and the table. -/
def sectionTable : Nat → List (Nat × Nat × List Byte) → List Byte
  | _, [] => []
  | o, (t, c, b) :: r => leBytes 4 t ++ leBytes 4 c ++ leBytes 8 o ++ sectionTable (o + b.length) r

def planImage (s : State) (p : Plan) : List Byte :=
  planHeader 0x4E414C50 s.boot.running.planner p ++ sectionTable (256 + 16 * 8) (planSections s p) ++
    (planSections s p).flatMap fun x => x.2.2

/-- The system part: input digest, header, position, stage and rung tables with the stroke counts, sync tree, routes and flows (R233). -/
def systemPart (s : State) (ds : List MapDev) (rows : List FlowRow) (p : Plan) : List Byte :=
  let ps := match s.pkg with | some k => pairs k | none => []
  p.inputDigest ++ planHeader 0x4E414C50 s.boot.running.planner p ++ p.positions.flatMap posBytes ++
    (p.stages.flatMap fun x => leBytes 4 x.1 ++ leBytes 4 x.2) ++ ps.flatMap (rungBytes s p) ++ leBytes 4 p.e ++
    (p.positions.flatMap fun e => leBytes 1 e.parentSub ++ leBytes 2 e.hops) ++
    (ds.flatMap fun x => (routeTable ds x.pos).flatMap fun r => leBytes 2 x.pos ++ leBytes 2 r.1 ++ leBytes 1 r.2) ++
    rows.flatMap fun r => leBytes 2 r.src ++ leBytes 2 r.dst ++ leBytes 1 r.cls ++ leBytes 4 r.tensor ++ leBytes 1 r.kind

/-- The device part: placement, descriptors, programs and slots (R233). -/
def devicePart (p : Plan) : List Byte :=
  p.tensors.flatMap tensorBytes ++ (p.homes.flatMap fun x => if x.1 = p.pos then
      x.2.flatMap fun h => leBytes 4 h.1 ++ leBytes 1 h.2.1 ++ leBytes 8 h.2.2.1 ++ leBytes 8 h.2.2.2 else []) ++
    ((Config.descriptors p.inputRec p.pos).flatMap fun x => leBytes 4 x.1 ++ x.2) ++
    ((Config.programs p.inputRec p.pos).flatMap fun x => leBytes 8 x.1 ++ x.2) ++ p.slots.flatten

/-- The plan with its two parts and their digests. -/
def sealPlan (s : State) (ds : List MapDev) (rows : List FlowRow) (p : Plan) : Plan :=
  let sys := systemPart s ds rows p
  let dev := devicePart p
  { p with system := sys, device := dev, planDigest := sha384 sys, deviceDigest := sha384 dev }

/-- The stage views of stage 6: every stage's work, with its tensors where the first replica's first rank places them. -/
def stageViews (s : State) (f : Scheme) (lays : List (Nat × Layout)) : List StageView :=
  (List.range f.p).map fun j =>
    let lay := match f.workers[j * f.t]? with | some q => layoutAt lays q | none => noLayout
    let w := stagePlan s f j
    { stage := j, work := w,
      homes := { region := regionCode lay, far := fun i => (List.range f.p).any fun k => (k != j || f.t != 1) && writtenBy (stagePlan s f k) i,
                 lanes := minOr 4 (f.ds.flatMap fun x => (x.ports.map entryLanes).filter (· != 0)), inline := inlineEcc s } }

/-- What stages 4 to 8 give the plan: the scheme, the placements, the schedule, the flows. -/
structure Built where
  f : Scheme
  lays : List (Nat × Layout)
  views : List StageView
  sched : Sched
  combiners : List Nat
  rows : List FlowRow

def buildPlan (s : State) (f : Scheme) (master : Nat) : Option Built :=
  (layouts s f).map fun lays =>
    let vs := stageViews s f lays
    let all := vs.flatMap (stageNodes s f.mb)
    let combiners := master :: (Config.moreCombiners f.inp).filter fun q => q != master && (f.ds.any fun x => x.pos == q)
    { f := f, lays := lays, views := vs, sched := schedule (capacity s) f.p f.mb vs all all.length all {}, combiners := combiners,
      rows := allRows s f combiners }

/-- The admissible sets (R136, R232): the rungs that fit the reserve. -/
def admissibleSets (s : State) (f : Scheme) : List (Nat × Nat) :=
  let held := planResiduals s f
  let work := (List.range f.p).flatMap (stagePlan s f)
  (pairs f.pk).map fun (i, ro, y) => (pairKey i ro, ((List.range 8).map (· + 1)).foldl (fun m k =>
    if (reserveRungs s i ro y).contains k || (decide (k ≤ (usedRungs (layerLadder y ro)).length) && rungFits s held work i ro k)
    then m + 2 ^ (k - 1) else m) 0)

/-- The position table (R237 section 1). -/
def positionTable (ds : List MapDev) (f : Scheme) (dist : List (Nat × Nat)) (master : Nat) : List PosEntry :=
  let feedOf := fun q => match devAt ds q with | some x => x.feed | none => 0
  ds.map fun x =>
    let k := seatOf f x.pos
    let b := match f.buddies.find? fun g => g.1 == x.pos with | some g => g.2 | none => 0xFFFF
    let q := (parentPort x dist).getD (0, 0)
    { pos := x.pos, replica := match k with | some y => y.replica | none => 0xFFFF,
      stage := match k with | some y => y.stage | none => 0xFFFF, rank := match k with | some y => y.rank | none => 0xFFFF,
      spare := k.isNone, buddy := b, shared := k.isSome && feedOf b == x.feed, master := x.pos == master,
      parentPort := q.1, parentSub := q.2, hops := hopsOf dist x.pos }

/-- What a worker's seat gives it; a spare has none. -/
def forSeat {α : Type} (f : Scheme) (pos : Nat) (g : Seat → List α) : List α := match seatOf f pos with | some x => g x | none => []

/-- The plan of a scheme that is built, for position `pos` (R223, R230, R233). -/
def assemble (s : State) (b : Built) (n pos r0 : Nat) (replan : Bool) (table : List PosEntry) (ignored : List Nat) : Plan :=
  let f := b.f
  let period := cap s 0x4004
  let lay := layoutAt b.lays pos
  let c := if b.sched.done.isEmpty then 0 else lastSlot b.sched + 1
  let st := match seatOf f pos with | some x => x.stage | none => f.p
  let strokes := fun ns => max 1 (ceilDiv ns period)
  let lanes := minOr 4 (f.ds.flatMap fun x => (x.ports.map entryLanes).filter (· != 0))
  let far := fun (l : List Nat) => l.foldl (fun m a => max m ((hopsFrom f.ds a).foldl (fun k x => max k x.2) 0)) 0
  let depth := table.foldl (fun m e => max m e.hops) 0
  let homes := b.lays.map fun x => (x.1, storedHomes f.pk x.2)
  let wm := if replan then moveStrokes (movedBytes (match s.plan with | some o => o.homes | none => homes) homes) period else 0
  sealPlan s f.ds b.rows {
    fromStep := n, inputRec := f.inp, inputDigest := sha384 f.inp, planDigest := [], deviceDigest := [], system := [], device := [],
    t := f.t, p := f.p, r := f.r, r0 := r0, pos := pos, positions := table, stages := f.stages, cPlan := f.cPlan,
    allow := cap s 0x5008, period := period, easyLimit := cap s 0x500C, nfSkip := bitN (cap s 0x9000) 0, c := max 1 c,
    q := strokes (mostOf f fun x => reduceNs s f (layoutAt b.lays x.pos) x),
    u := strokes (mostOf f fun x => updateNs s f (layoutAt b.lays x.pos) x), d := strokes (mostOf f (distNs f)),
    x := exchangeStrokes (mostOf f (exchangeBytesOf f)) (max 1 lanes) (far b.combiners) depth period,
    e := scaleStrokes (mostOf f (scaleBlocksOf f)) (max 1 (minOr 64 (f.ds.map lanesOf))) (far (table.map (·.pos))) period,
    window := replanStrokes period + wm + 2, admissible := admissibleSets s f,
    tensors := forSeat f pos fun x => placedTensors s f x lay,
    slots := (slotEntries b.sched st f.cPlan (period * 13 / 10) c).map slotEntryBytes,
    costs := (b.views.filter fun v => v.stage == st).flatMap fun v => (stageLayers f st).map fun y => layerEntry s v lay y.1,
    events := ignored.map (fun i => (1, i, noTensor)) ++ s.cox.withdrawn.map (fun k => (2, k / 3, noTensor)) ++
      lay.ignored.map fun i => (1, 0xFFFF, i),
    flows := flowCtxs f b.rows pos, regions := forSeat f pos fun x => (regionKeys f x).map (regionOf f b.rows lay x),
    pieces := forSeat f pos fun x => ((ownedOf f x).filter fun o => (gradOf f.pk 3 o.w).isSome).map (pieceOf f lay x),
    convs := forSeat f pos fun x => ((ownedOf f x).filter fun o => inArrays o.y).map (convOf s f lay x),
    books := forSeat f pos fun x => (ownedOf f x).flatMap (booksOf f lay x),
    threads := Config.threads f.inp pos ++ forSeat f pos fun x => customThreads f x lay,
    mbPerStep := f.mb, seqPerStep := f.pk.seqPerStep, combiners := b.combiners,
    gaps := gapsOf b.sched st f.cPlan (period * 13 / 10) c, homes := homes,
    images := (seats f).map fun x => (x.pos, imageBytesOf s f x), copies := copyPairs f.pk lay, tokens := tokenHomes lay,
    classes := classRanges f.pk lay, code := forSeat f pos fun x => customCode f x lay,
    coreRegs := Config.coreRegs f.inp pos ++ forSeat f pos fun _ => progBases f lay }

/-- The plan from the current input record (R223, R235), for step `n` on. `replan` tells a replan from a PLAN command.
The result is a code of R350, 0 when a plan results. -/
def makePlan (s : State) (pk : Pkg) (n : Nat) (replan : Bool) : Nat × Option Plan :=
  let inp := inputRecord s pk n
  let ds := amended s
  let sc := cap s 0x4004 * 13 / 10
  let pos := if replan then myPos s else bitsN (reg s 0x10) 0 12
  let master := minOr 0 (ds.map (·.pos))
  let dist := hopsFrom ds master
  if sc - sc * (64 - cap s 0x5008) / 64 < 2600 then (0x28, none)
  else if dist.length < ds.length then (0x20, none)
  else if 9 < dist.foldl (fun m x => max m x.2) 0 then (0x29, none)
  else
    let cPlan := minOr 96 (ds.map (·.cores))
    -- the workers of the partition before any retirement: lost positions keep their place in it
    let retired := s.failInputs.filter fun f => f.kind == 4 && f.arg != 0xFFFF
    let before := ((ds.filter fun x => !x.spare).map (·.pos) ++ retired.map (·.pos)).mergeSort (fun a b => decide (a ≤ b))
    let all := buddies ds (ds.filter fun x => !x.spare) (ds.filter (·.spare))
    match partition s pk before.length fun t p =>
        { pk := pk, ds := ds, t := t, p := p, r := before.length / (t * p), mb := pk.mbPerStep, cPlan := cPlan, stages := [],
          workers := before, buddies := all, inp := inp } with
    | (code, none) => (code, none)
    | (_, some f0) =>
      let gone := retired.map (·.arg)
      let out := fun (q : Nat) => gone.contains (before.idxOf q / (f0.t * f0.p))
      let workers := ds.filter fun x => !x.spare && !out x.pos
      let spares := ds.filter fun x => x.spare || out x.pos
      let bs := buddies ds workers spares
      let r := workers.length / (f0.t * f0.p)
      let f := { f0 with r := r, mb := rebalanced s pk.mbPerStep f0.r r 4096, workers := workers.map (·.pos), buddies := bs }
      let table := positionTable ds f dist master
      let me := table.find? fun e => e.pos == pos
      let shared := match me with | some e => e.shared | none => false
      let reader := match me with | some e => !e.spare && e.stage == 0 && e.rank == 0 | none => false
      let hints := coreHints pk cPlan replan
      if r = 0 ∨ bs.length < workers.length then (0x23, none)
      else if shared && !replan && !bitN (reg s 0xA00C) 31 then (0x2A, none)
      else if reader && !replan && (List.range 16).any (fun i => match source s i with
          | some x => x.ring == 0 | none => false) then (0x1B, none)
      else if hints.1 then (0x24, none)
      else match buildPlan s f master with
        | none => (0x23, none)
        | some b =>
          if ds.any (fun x => decide (49152 < contexts b.rows x.pos)) then (0x25, none)
          else if (seats f).any (fun x => (ownedOf f x).any fun o => decide (2 ^ 35 < 32 * o.own)) then (0x26, none)
          else if pk.layers.any (fun y => decide (2 ^ 31 < maskElems pk (seqMaxAll s) y)) then (0x27, none)
          else
            let p := assemble s b n pos f0.r replan table hints.2
            (0, some { p with seqPerStep := rebalanced s pk.seqPerStep f0.r r 2048 })

/-- MAP_MISMATCH of R221: the own record agrees with the identity registers and the trained link state. -/
def ownRecordOk (s : State) (ds : List MapDev) : Bool :=
  let v := reg s 0x10
  bitN v 31 && match devAt ds (bitsN v 0 12) with
    | none => false
    | some x => x.feed == reg s 0x14 && x.cores == enabledCores s && (List.range 32).all fun k =>
        let e := x.ports.getD k 0
        let P := subp s (k / 2) (k % 2)
        if entryLanes e = 0 then !(P.up && P.peerValid)
        else P.up && P.peerValid && P.peerPos == entryPos e && P.peerPort == entryPort e && P.peerSub == entrySub e &&
          P.lanes == entryLanes e

/-- A listed port of the own record whose measured latency exceeds 100 ns (R221, R224). -/
def slowPort (s : State) (ds : List MapDev) : Bool :=
  match devAt ds (bitsN (reg s 0x10) 0 12) with
  | some x => (List.range 32).any fun k => entryLanes (x.ports.getD k 0) != 0 && decide (1600 < (subp s (k / 2) (k % 2)).latency)
  | none => false

end Sys2Proof.Machine
end

