-- ==== Sys2Proof/Machine/Packet.lean ====
section
/-! DEFINITION. Packets and frames (R272 to R281): headers, routes, hop credits, transmission with the retry buffer, the
flood of the control class, and the trees of control reductions (R211, R284). -/

namespace Sys2Proof.Machine

open Sys2Proof

/-! ### Packet headers (R276, R277) -/

structure PktHdr where
  cls : Nat
  kind : Nat
  hops : Nat
  len : Nat
  dest : Nat
  src : Nat
  poison : Bool := false       -- the mark of poisoned data (R250); its bit is the model's (DESIGN CHOICE, log 135)
  flow : Nat
  epoch : Nat
  gen : Nat
  arg : Nat
  deriving DecidableEq, Repr

def readHdr (h : Nat) : PktHdr :=
  { cls := bitsN h 0 2, kind := bitsN h 2 4, hops := bitsN h 6 5, len := bitsN h 11 9, dest := bitsN h 20 12,
    src := bitsN h 32 12, poison := bitN h 44, flow := bitsN h 48 24, epoch := bitsN h 72 16, gen := bitsN h 88 16, arg := bitsN h 104 24 }

def hdrNat (h : PktHdr) : Nat :=
  fld h.cls 0 2 + fld h.kind 2 4 + fld h.hops 6 5 + fld h.len 11 9 + fld h.dest 20 12 + fld h.src 32 12 + bfl h.poison 44 +
    fld h.flow 48 24 + fld h.epoch 72 16 + fld h.gen 88 16 + fld h.arg 104 24

/-- A kind that R277 gives for the class. -/
def kindOk (cls kind : Nat) : Bool :=
  if cls = 0 then decide (kind ≤ 6) else if cls = 3 then decide (kind ≤ 4) else decide (kind ≤ 1)

/-- The header of a packet that this device originates. -/
def newHdr (s : State) (cls kind dest flow gen arg : Nat) (body : List Byte) : PktHdr :=
  { cls := cls, kind := kind, hops := 0, len := 4 + ceilDiv body.length 4, dest := dest, src := myPos s, flow := flow,
    epoch := s.link.epoch, gen := gen, arg := arg }

/-! ### Frames (R272, R273) -/

/-- A frame: header, 240 bytes of packet stream with zeros behind the last packet, CRC and four zero bytes. -/
def mkFrame (seq ack ftype : Nat) (nak : Bool) (payload : List Byte) : List Byte :=
  let h := leBytes 8 (fld seq 0 12 + fld ack 12 12 + bfl nak 24 + fld ftype 25 3)
  let b := h ++ padTo 240 payload
  b ++ leBytes 4 (crc32 b).toNat ++ leBytes 4 0

/-- The last SEQ received in order. -/
def lastRx (S : SubPort) : Nat := (S.rxSeq + 4095) % 4096

/-- A frame goes out, and is counted (R385). -/
def txFrame (p b : Nat) (f : List Byte) (s : State) : State := emit (.frame p b f) (bump (cntPort p 0) 1 s)

/-- Send one frame of packets: it takes the next SEQ and joins the retry buffer of 256 frames (R273). -/
def sendFrame (p b : Nat) (payload : List Byte) (s : State) : State :=
  let S := subp s p b
  let f := mkFrame S.txSeq (lastRx S) 1 false payload
  txFrame p b f (modSub p b (fun S =>
    { S with txSeq := (S.txSeq + 1) % 4096, retry := ((S.txSeq, f) :: S.retry).take 256 }) s)

/-- Put a packet on the wire of a port that is up; on one that is down it stays unsent. -/
def wire (p b : Nat) (h : PktHdr) (body : List Byte) (s : State) : State :=
  let bytes := leBytes 16 (hdrNat h) ++ padTo (4 * ceilDiv body.length 4) body
  forEach (chunks 240 3 bytes) (sendFrame p b) (emit (.packet p b (hdrNat h) body) s)

/-! ### Hop credits (R278) -/

def hopKey (cls hop : Nat) : Nat := cls * 32 + hop
def hopD (p : Nat) : Nat → Nat := fun k => Config.hopCredits p (k / 32) (k % 32)
def hopCredit (s : State) (p b cls hop : Nat) : Nat := sget (hopD p) (subp s p b).hop (hopKey cls hop)
def addHop (p b cls hop : Nat) (f : Nat → Nat) (s : State) : State :=
  modSub p b (fun S => { S with hop := smod (hopD p) S.hop (hopKey cls hop) f }) s
/-- A packet's size in hop credits. -/
def hopUnits (h : PktHdr) : Nat := ceilDiv (4 * h.len) 256

/-- Packets that wait for credit are kept in the port's packet stream; this reads the first one whose credit covers it. -/
def popReady (s : State) (p b : Nat) : Nat → List Byte → Option (PktHdr × List Byte × List Byte)
  | 0, _ => none
  | n + 1, l =>
    if l.isEmpty then none
    else
      let h := readHdr (leAt l 0 16)
      let len := 4 * max 4 h.len
      if hopUnits h ≤ hopCredit s p b h.cls h.hops then some (h, (l.take len).drop 16, l.drop len)
      else (popReady s p b n (l.drop len)).map fun (h', body, rest) => (h', body, l.take len ++ rest)

/-- Send every waiting packet that its credit covers. -/
def pump (p b : Nat) : Nat → State → State
  | 0, s => s
  | n + 1, s =>
    let S := subp s p b
    if !S.up then s
    else match popReady s p b S.stream.length S.stream with
      | none => s
      | some (h, body, rest) =>
        pump p b n (wire p b h body (addHop p b h.cls h.hops (fun c => c - hopUnits h)
          (modSub p b (fun S => { S with stream := rest }) s)))

/-- Send a packet on a port: control packets at once, the others as their hop credit allows. -/
def sendOn (p b : Nat) (h : PktHdr) (body : List Byte) (s : State) : State :=
  if h.cls = 0 then (if (subp s p b).up then wire p b h body s else s)
  else
    let bytes := leBytes 16 (hdrNat h) ++ padTo (4 * ceilDiv body.length 4) body
    let s := modSub p b (fun S => { S with stream := S.stream ++ bytes }) s
    pump p b (subp s p b).stream.length s

/-! ### Routes (R231, R281) -/

def routeOf (s : State) (dest : Nat) : Option (Nat × Nat) :=
  (s.link.route.find? fun x => x.1 == dest).map fun x => (x.2 / 2, x.2 % 2)

/-- Send a packet towards its destination. -/
def sendTo (h : PktHdr) (body : List Byte) (s : State) : State :=
  match routeOf s h.dest with
  | some (p, b) => sendOn p b h body s
  | none => s

/-- Every port and sub-port that is up. -/
def activePorts (s : State) : List (Nat × Nat) :=
  ((List.range 16).flatMap fun p => [(p, 0), (p, 1)]).filter fun x => (subp s x.1 x.2).up

/-- The usable ports of the plan: listed in the amended map and up. -/
def usablePorts (s : State) : List (Nat × Nat) :=
  match devAt (amended s) (myPos s) with
  | some x => (activePorts s).filter fun q => entryLanes (x.ports.getD (2 * q.1 + q.2) 0) != 0
  | none => []

/-- Flood a control packet on every active port (R215, R288, R323). -/
def flood (kind : Nat) (body : List Byte) (s : State) : State :=
  forEach (activePorts s) (fun q t => sendOn q.1 q.2 (newHdr t 0 kind (subp t q.1 q.2).peerPos 0 0 0 body) body t) s

/-- The plan digest to every peer on a usable port (R234). -/
def sendDigest (s : State) : State :=
  match s.plan with
  | some pl => forEach (usablePorts s) (fun q t =>
      sendOn q.1 q.2 (newHdr t 0 4 (subp t q.1 q.2).peerPos 0 0 0 pl.planDigest) pl.planDigest t)
      { s with link := { s.link with digestSent := true, digestOk := false, digestDone := false } }
  | none => s

/-! ### Control reductions (R284, R285) -/

/-- Identifiers of the control reductions; the numbering is the model's. -/
def ctlReady : Nat := 1
def ctlLimit : Nat := 2
def ctlDigest : Nat := 3
def ctlRedDone : Nat := 4
def ctlMissing : Nat := 5
def ctlNonfinite : Nat := 6
def ctlOvf : Nat := 7
def ctlDist : Nat := 8
def ctlScale : Nat := 9
def ctlFlags : Nat := 10
def ctlKept : Nat := 11
def ctlWsum : Nat := 12
/-- The overflow OR of layer instance `i`. -/
def ctlInstance (i : Nat) : Nat := 0x100000 + i

/-- The operation of an identifier: 0 OR, 1 AND, 3 SUM. -/
def ctlOp (id : Nat) : Nat :=
  if id = ctlReady ∨ id = ctlRedDone ∨ id = ctlDist ∨ id = ctlScale ∨ id = ctlKept then 1 else if id = ctlWsum then 3 else 0

/-- Combine operands: OR, AND, MAX, SUM modulo 2^64. -/
def ctlCombine (op a b : Nat) : Nat :=
  match op with
  | 0 => a ||| b
  | 1 => a &&& b
  | 2 => max a b
  | _ => (a + b) % 2 ^ 64

/-- The identity of an operation. -/
def ctlUnit (op : Nat) : Nat := if op = 1 then 2 ^ 4096 - 1 else 0

/-- The devices of a layer instance (R142, R284): those of this replica whose stage holds the layer. -/
def instanceDevices (pl : Plan) (tag : Nat) : List Nat :=
  let layer := (Config.instanceLayer pl.inputRec tag).1
  let rep := match pl.positions.find? fun e => e.pos == pl.pos with | some e => e.replica | none => 0xFFFF
  (pl.positions.filter fun e => !e.spare && e.replica == rep && (match pl.stages[e.stage]? with
    | some (a, b) => decide (a ≤ layer) && decide (layer ≤ b)
    | none => false)).map (·.pos)

/-- Parent and children of this device in the tree of a control reduction: the sync tree for the system; for a layer
instance a tree of depth one at the lowest position of its devices (a marked choice). -/
def ctlTree (s : State) (id : Nat) : Option Nat × List Nat :=
  let me := myPos s
  match s.plan with
  | none => (none, [])
  | some pl =>
    if 0x100000 ≤ id then
      let l := instanceDevices pl (id - 0x100000)
      let root := minOr me l
      if me = root then (none, l.filter fun x => x != me) else (some root, [])
    else
      let ds := amended s
      let par := fun (e : PosEntry) => match devAt ds e.pos with
        | some x => if e.master then none else some (entryPos (x.ports.getD (2 * e.parentPort + e.parentSub) 0))
        | none => none
      let mine := (pl.positions.find? fun e => e.pos == me).bind par
      (mine, (pl.positions.filter fun e => par e == some me && !s.res.lost.contains e.pos).map (·.pos))

def ctlD (id : Nat) : CtlRed :=
  { op := ctlOp id, acc := ctlUnit (ctlOp id), own := false, heard := [], since := 0, sent := false, stalled := false }
def ctlGet (s : State) (id : Nat) : CtlRed := sget ctlD s.link.ctl id
def ctlMod (id : Nat) (f : CtlRed → CtlRed) (s : State) : State :=
  { s with link := { s.link with ctl := smod ctlD s.link.ctl id f } }
def ctlClear (id : Nat) (s : State) : State := { s with link := { s.link with ctl := sset ctlD s.link.ctl id (ctlD id) } }

/-- The 4,096-bit sets fill the body; the other operands follow the operation in a body of 16 bytes. -/
def ctlWide (id : Nat) : Bool := id == ctlMissing || id == ctlNonfinite
def ctlBody (id v : Nat) : List Byte := if ctlWide id then leBytes 512 v else leBytes 4 (ctlOp id) ++ leBytes 12 v
def ctlOperand (id : Nat) (body : List Byte) : Nat := if ctlWide id then leNat (body.take 512) else leNat (body.drop 4)

/-- What a control reduction does next: the device holds its own operand and all its children's. -/
inductive CtlNext where
  | wait
  | up (parent acc : Nat)
  | result (acc : Nat)
  deriving DecidableEq, Repr

def ctlNext (s : State) (id : Nat) : CtlNext :=
  let c := ctlGet s id
  let tr := ctlTree s id
  if !c.own || c.sent || !(tr.2.all fun x => c.heard.contains x) then .wait
  else match tr.1 with
    | some p => .up p c.acc
    | none => .result c.acc

def ctlSendUp (id parent acc : Nat) (s : State) : State :=
  let body := ctlBody id acc
  sendTo (newHdr s 0 2 parent 0 0 id body) body (ctlMod id (fun c => { c with sent := true }) s)

def ctlSendDown (id acc : Nat) (s : State) : State :=
  let body := ctlBody id acc
  forEach (ctlTree s id).2 (fun c t => sendTo (newHdr t 0 3 c 0 0 id body) body t) s

/-- A control reduction goes on as far as its operands allow; `onResult` is what the device does with the result. -/
def ctlStep (onResult : Nat → State → State) (id : Nat) (s : State) : State :=
  match ctlNext s id with
  | .wait => s
  | .up p acc => ctlSendUp id p acc s
  | .result acc => onResult acc (ctlClear id (ctlSendDown id acc s))

/-- This device's own operand of a control reduction, for which it waits from now on. -/
def ctlOwn (onResult : Nat → State → State) (id v : Nat) (s : State) : State :=
  ctlStep onResult id (ctlMod id (fun c => { c with own := true, since := s.stroke.count, acc := ctlCombine (ctlOp id) c.acc v }) s)

end Sys2Proof.Machine
end

