-- ==== Sys2Proof/Machine/Ecc.lean ====
section
/-! DEFINITION. The memory controllers on the way of a transfer (R242 to R252): what a read finds, the LPDDR5X write buffers, and
the counts of bytes and errors. -/

namespace Sys2Proof.Machine

open Sys2Proof

/-! ### Reads (R242, R244, R247, R250) -/

/-- What a read finds at an address, when `o` is new to it: code words fail in the hold and in LPDDR5X with inline ECC, the link under
LPDDR5X. Stored poison hides a new error of its word; a word once found uncorrectable is found so again. -/
def eccSeen (s : State) (a : Nat) (o : EccOutcome) : EccOutcome :=
  let word := o == .corrected || o == .uncorrectable || o == .asPoison
  match memRegion s a with
  | some (.hold _) => if isPoisoned s a then .clean else if isLost s a then .uncorrectable else if word then o else .clean
  | some .lpddr =>
    if isPoisoned s a then (if word then .clean else o)
    else if isLost s a then .uncorrectable
    else if word && !inlineEcc s then .clean else o
  | _ => .clean

/-- The reason of a read of `n` bytes whose first code word shows `o` (R250); 0 where it delivers data. -/
def readReason (s : State) (a n : Nat) (o : EccOutcome) : Nat :=
  let r := memReason s a n
  if r = 4 ∨ r = 2 then r
  else match eccSeen s a o with
    | .uncorrectable | .linkFailed => 1
    | .asPoison => if r = 0 then 5 else r
    | _ => r

/-- Why a write of `n` bytes stores nothing (R250); 0 where it is stored. -/
def writeReason (s : State) (a n : Nat) : Nat :=
  if (List.range n).any fun i => (memRegion s (a + i)).isNone then 4
  else if (List.range n).any fun i => targetAway s (a + i) then 2 else 0

/-- The code word of an address has been found uncorrectable: every read finds it so until it is written whole. -/
def loseWord (a : Nat) (s : State) : State :=
  { s with mem := { s.mem with ue := if s.mem.ue.contains (codeWord s a) then s.mem.ue else codeWord s a :: s.mem.ue },
           res := { s.res with ue := true } }

def lpddrCtrl (a : Nat) : Nat := (a - lpddrBase) / 128 % 16

/-- Count what a read of a byte's code word found (R385, R410): `scrubbing` is true for a scrub read. A word found with the syndrome of
poison reads as poison from then on (R251). -/
def eccRead (scrubbing : Bool) (a : Nat) (o : EccOutcome) (s : State) : State :=
  let c := lpddrCtrl a
  match memRegion s a, eccSeen s a o with
  | some (.hold n), .corrected =>
    lifeAdd (0x0C80 + 16 * physCore s n) 8 1 (health 0 1 (bump (cntPart n (if scrubbing then 1 else 0)) 1 s))
  | some (.hold n), .uncorrectable => lifeAdd (0x0C88 + 16 * physCore s n) 8 1 (bump (cntPart n 2) 1 (loseWord a s))
  | some .lpddr, .corrected => lifeAdd (0x12C0 + 16 * c) 8 1 (health 0 1 (bump (cntCh c (if scrubbing then 3 else 2)) 1 s))
  | some .lpddr, .uncorrectable => lifeAdd (0x12C8 + 16 * c) 8 1 (bump (cntCh c 4) 1 (loseWord a s))
  | some .lpddr, .linkCorrected => bump (cntCh c 5) 1 s
  | some .lpddr, .linkRepeated => bump (cntCh c 6) 1 s
  | some .lpddr, .linkFailed =>
    lifeAdd (0x12C8 + 16 * c) 8 1 (bump (cntCh c 4) 1 (bump (cntCh c 6) 1 { s with res := { s.res with ue := true } }))
  | _, .asPoison => memPoison a 1 s
  | _, _ => s

/-- Count what a read of `n` bytes finds: `o` in the first code word, and every word known to be uncorrectable. -/
def readCount (a n : Nat) (o : EccOutcome) (s : State) : State :=
  let lost := if s.mem.ue.isEmpty then [] else
    (List.range n).filter fun i => 0 < i && codeWord s (a + i) == a + i && isLost s (a + i)
  lost.foldl (fun t i => eccRead false (a + i) .clean t) (eccRead false a o s)

/-- Count the bytes that a transfer reads or writes (R385): LPDDR5X read or write, or the mesh port of a partition. -/
def countBytes (write : Bool) (a n other : Nat) (s : State) : State :=
  match memRegion s a with
  | some .lpddr => bump (cntCh (lpddrCtrl a) (if write then 1 else 0)) n s
  | some (.hold h) => if memRegion s other == some (.scratch h) then s else bump (cntPart h 4) n s
  | _ => s

/-! ### The write buffers (R246) -/

/-- The 128-byte lines of a range, each with its bytes of the range. -/
def linesOf (a n : Nat) : List (Nat × Nat) :=
  if n = 0 then []
  else (List.range ((a + n - 1) / 128 - a / 128 + 1)).map fun i =>
    let lo := max a ((a / 128 + i) * 128)
    (lo, min (a + n) ((a / 128 + i + 1) * 128) - lo)

/-- A write within one line reaches its controller's buffers: the block becomes the most recent, its slot has arrived once the line is
written whole, and all 15 slots send the block out. The ninth block pushes the least recent one out, which lacks slots: the rest of
its code words is read and merged. -/
def bufferLine (x : Nat × Nat) (s : State) : State :=
  let pl := lpddrPlace s (x.1 - lpddrBase)
  let blk := pl.2.1 / 15
  let held := (((ch s pl.1).buffers.find? fun y => y.1 == blk).map (·.2)).getD []
  let slots := if x.2 < 128 || held.contains (pl.2.1 % 15) then held else held ++ [pl.2.1 % 15]
  let rest := (ch s pl.1).buffers.filter fun y => y.1 != blk
  let s := if rest.length < 8 || slots.length = 15 then s else bump (cntCh pl.1 7) 1 s
  modCh pl.1 (fun C => { C with buffers := if slots.length = 15 then rest else ((blk, slots) :: rest).take 8 }) s

/-- A write reaches the write buffers of LPDDR5X; without inline ECC a line has no check bytes to merge. -/
def bufferWrite (a n : Nat) (s : State) : State :=
  if memRegion s a == some .lpddr && inlineEcc s then (linesOf a n).foldl (fun t x => bufferLine x t) s else s

/-- The least recently written buffered block leaves (R246), merged with what it lacks. Its bytes are already in memory, where a read
of a buffered line finds them. -/
def flushBuffer (c : Nat) (s : State) : State :=
  if (ch s c).buffers.isEmpty then s
  else modCh c (fun C => { C with buffers := C.buffers.dropLast }) (bump (cntCh c 7) 1 s)

/-- Count the bytes of a range line by line. -/
def countRange (write : Bool) (a n : Nat) (s : State) : State :=
  (linesOf a n).foldl (fun t x => countBytes write x.1 x.2 0 t) s

/-- Write bytes through the controllers. -/
def memStore (a : Nat) (l : List Byte) (s : State) : State := bufferWrite a l.length (memWrite a l s)

/-! ### Delivery -/

/-- Bytes arrive at a device address: memory, or the host behind a window; poisoned data is stored as poison, and
marked on its way to the host (R250, R251). -/
def deliver (a : Nat) (bytes : List Byte) (poison : Bool) (s : State) : State :=
  match devToHost s a with
  | some h => emit (if poison then .hostPoison h bytes else .hostWrite h bytes) s
  | none =>
    let s := memStore a bytes s
    if poison then memPoison a bytes.length s else s

/-- The largest transfer at an address before its unit's boundary (R258). -/
def unitRoom (s : State) (a : Nat) : Nat :=
  match memRegion s a with
  | some .lpddr => 128 - a % 128
  | some (.host _) => min 256 (4096 - a % 4096)
  | _ => 1024 - a % 1024

end Sys2Proof.Machine
end

