-- ==== Sys2Proof/Machine/Reset.lean ====
section
/-! DEFINITION. Lifetime records, full reset, boot and firmware fuses (R352, R379, R397 to R405, R410, R411, R427, R444),
snapshots of the counters (R386) and the device's power states (R359 to R369). -/

namespace Sys2Proof.Machine

open Sys2Proof

/-! ### Lifetime record (R410, R411): fields by their offset in the record -/

/-- Write the record to the next slot of flash: UPDATES counts it (R411). -/
def lifeWrite (s : State) : State :=
  let s := lifeAdd 0x08 8 1 s
  { s with flash := { s.flash with life := (s.mgmt.life :: s.flash.life).take 1024,
                                   lifeSlot := (s.flash.lifeSlot + 1) % 1024 } }

/-- Flash keeps the most recent 262,144 entries at most; the oldest sector of 1,024 is erased as a whole (R408). -/
def flashKeep (l : List LogEntry) : List LogEntry := l.drop (ceilDiv (l.length - 262144) 1024 * 1024)

/-- The entries that wait in the ring for the flash. -/
def waitingEntries (s : State) : List LogEntry :=
  (s.log.ring.map (·.2)).filter fun e => decide (s.log.next ≤ e.seq + s.log.waiting + s.log.dropped) &&
    !(s.flash.log.any fun x => x.seq == e.seq)

/-- Copy the waiting event-log entries to flash (R408). -/
def copyLog (s : State) : State :=
  { s with flash := { s.flash with log := flashKeep (s.flash.log ++ waitingEntries s) }, log := { s.log with waiting := 0 } }

/-- The copy; space has returned, so MGT_LOG_LOST gives the entries dropped (R408, R409). -/
def flushLog (s : State) : State :=
  let t := copyLog s
  if 0 < t.log.dropped then logEnter 0x0A05 (b4 t.log.dropped) { t with log := { t.log with dropped := 0 } } else t

/-! ### Snapshots (R386) -/

/-- The extra bits of a CELL_MAP slot (R383) and the SAT bit (R380). -/
def slotWord (s : State) (off exact : Nat) : Nat :=
  let k := (off - 0x208000) % 0x400 / 8
  let extra := if 0x208000 ≤ off ∧ off < 0x220000 ∧ 16 ≤ k ∧ k < 20 then
      let p := physCore s ((off - 0x208000) / 0x400)
      fld p 48 7 + fld (rowsOf s p (k - 16)).length 55 3 + fld (colsOf s p (k - 16)).length 58 2 else 0
  cntVisible off exact + extra + bfl (cntSat off exact) 63

/-- The counters of the cores below ENABLED that a snapshot copies even at zero: CELL_MAP and CYCLE. -/
def coreSlots (s : State) : List Nat :=
  (List.range (enabledCores s)).flatMap fun c => (List.range 4).map fun a => cntCore c (16 + a)

/-- Take a snapshot at a cycle of the stroke with a clear of the groups of `clear` (R386): the copy first, then the clear. -/
def snapshotAt (cyc clear : Nat) (s : State) : State :=
  let keys := s.cnt.exact.map (·.1) ++ coreSlots s
  let h0 := keys.foldl (fun m k => sset natD m k (slotWord s k (cntExact s k))) []
  let h := (List.range (enabledCores s)).foldl
    (fun m c => sset natD m (cntCore c 45) (coreCycle s c % 2 ^ 48)) h0
  { s with cnt := { s.cnt with hold := h, seq := (s.cnt.seq + 1) % 2 ^ 32, stroke := s.stroke.count, cycle := cyc,
                               exact := s.cnt.exact.filter fun x => !bitN clear (cntGroup x.1) } }

/-- A snapshot now: CNT_SNAP_CYCLE, the cycle within the stroke, is a free value below the stroke's cycles. -/
def takeSnapshot (clear : Nat) (s : State) : State :=
  useFree (snapshotAt (freeBits s 0 32 % max 1 (strokeCycles s)) clear s)

/-! ### Full reset (R352) -/

/-- Hold and scratch lose their contents and are zero-initialised; LPDDR5X and the shared window keep theirs. -/
def dropHold (s : State) : State :=
  let s := zeroMem 0 0x2000000000 s
  { s with mem := { s.mem with part := [] } }
def dropScratch (s : State) : State := zeroMem 0x1000000000 0x6000000 s
/-- LPDDR5X loses its contents, and with them the kept buddy images (R248, R249). -/
def dropLpddr (s : State) : State :=
  let s := zeroMem lpddrBase (2 ^ 40) s
  { s with res := { s.res with kept := [] } }

/-- Empty the journal; the bytes of its entries stay in always-on memory (R311, R352). -/
def emptyJournal (s : State) : State :=
  let bytes := (s.res.journal.flatMap journalBytes)
  { s with mem := { s.mem with data := ssetRun byteD s.mem.data sharedBase bytes }, res := { s.res with journal := [] } }

/-- Every active pass is aborted: pending shadows are discarded and GEN increases (R264). A pass that was arriving begins again. -/
def abortPasses (s : State) : State :=
  { s with stm := { s.stm with desc := s.stm.desc.map fun x =>
      (x.1, if x.2.pass.isSome then { x.2 with pass := none, waiting := [], shadow := none, inDone := 0, gen := (x.2.gen + 1) % 2 ^ 32 }
            else { x.2 with waiting := [], inDone := 0 }) } }

/-- The full reset (R352): every register to its Reset value but those of R427, counters cleared, LPDDR5X in
self-refresh, always-on memory, event log and lifetime records kept, STATE in BOOT. -/
def fullReset (s : State) : State :=
  let s := dropHold (emptyJournal (abortPasses s))
  let s := lifeAdd 0x40 8 1 s
  { s with
    regs := s.regs.filter fun x => keptAtReset x.1,
    cnt := {}, trace := {}, host := {}, stroke := {}, pkg := none, sources := [], captured := [], mapBytes := [],
    map := [], plan := none, failInputs := [], run := {}, cox := {}, collectors := [], adm := {}, cores := [],
    red := {}, link := {}, pwr := {},
    mem := { s.mem with ch := (List.range 16).map fun c => (c, { selfRefresh := true }), logged := [], ue := [] },
    stm := { desc := (s.stm.desc.map fun x => (x.1, ({ gen := x.2.gen } : DescSt))).filter fun x => decide (x.2 ≠ {}) },
    res := { kept := s.res.kept, own := s.res.own, hostImage := s.res.hostImage },
    mgmt := { s.mgmt with sensors := [], lpddrTemp := [], rails := [], mboxBusy := false, mboxCode := 0, spdm := [] },
    pins := { s.pins with smbAddr := 0x60 + s.pins.straps % 8 },
    renumbered := s.disabled,
    boot := { s.boot with waiting := false, bodyRead := false, recovery := false, uptime := 0 },
    dev := .boot }

/-! ### Boot (R401 to R403) -/

/-- Recovery with a cause: the ROM powers HOST and LKP and presents the PCI Express function (R403). -/
def enterRecovery (cause : Nat) (s : State) : State :=
  lifeAdd 0x50 8 1 { s with
    boot := { s.boot with recovery := true, waiting := false, cause := cause, prior := cause }
    dev := DevState.recovery }

/-- Item 2 of R399: the image's slot is not revoked and holds the hash of its keys. -/
def keyOk (s : State) (i : FwImage) : Bool :=
  decide (i.slot < 4) && !bitN s.fuses.revoked i.slot && s.fuses.keyHash.getD i.slot 0 == i.keyHash

/-- Steps 1 to 4 (R401): header and key, signatures, security version; then the ROM waits at step 5. -/
def romSteps (s : State) : State :=
  let i := s.flash.image
  if !s.flash.valid || !i.formOk || !keyOk s i then enterRecovery 2 s
  else if !i.ecdsaOk || !i.lmsOk then enterRecovery 3 s
  else if i.svn < svnCount s then enterRecovery 4 s
  else { s with boot := { s.boot with waiting := true } }

/-- Step 5 once SYS_PWRGOOD is high (R444): the body is read and hashed. -/
def romBody (s : State) : State :=
  if s.boot.waiting && s.pins.pwrgood then
    if s.flash.image.digestOk then
      { s with boot := { s.boot with waiting := false, bodyRead := true, running := s.flash.image } }
    else enterRecovery 5 s
  else s

/-- Blow one anti-rollback bit or revocation bit; each blow logs MGT_FUSE (R402). -/
def blowFuses (s : State) : State :=
  let i := s.boot.running
  let bits := (List.range 64).filter fun b => decide (b < i.svn) && !bitN s.fuses.svnBits b
  let s := if svnCount s < i.svn then
      bits.foldl (fun t b => logEv 0x0A04 [] { t with fuses := { t.fuses with svnBits := t.fuses.svnBits + 2 ^ b } }) s
    else s
  let slots := (List.range 4).filter fun k => bitN i.revoke k && !bitN s.fuses.revoked k && k != i.slot
  slots.foldl (fun t k => logEv 0x0A04 [] { t with fuses := { t.fuses with revoked := t.fuses.revoked + 2 ^ k } }) s

/-- The PCI Express link trains at x16 and 128 GT/s (a marked choice: the partner decides). -/
def linkTrained (s : State) : State :=
  { s with host := { s.host with linkUp := true, linkWidth := 4, linkSpeed := 7 } }

/-- Every enabled port of a powered LINK domain trains (R270). -/
def trainPorts (s : State) : State :=
  (List.range 16).foldl (fun t p =>
    if bitN (reg t (portReg p 0)) 0 then
      modPort p (fun P => { P with sub0 := { P.sub0 with training := true }, sub1 := { P.sub1 with training := true } }) t
    else t) s

/-- The HOLD domain leaves reset: every partition in use is zeroed, INIT reads 1 meanwhile (R242). -/
def initHold (s : State) : State :=
  (List.range (enabledCores s)).foldl (fun t n => modPart n (fun P => { P with init := true }) t) (dropHold s)

/-- The lengthsman copies the planner into its region and keeps its SHA-384 in always-on memory (R367). -/
def plannerCopied (s : State) : State :=
  let b := Config.plannerBytes s.boot.running.planner
  memWrite (sharedBase + 0x30000) (sha384 b) (memStore (plannerCopy s) b s)

/-- LPDDR5X after boot: trained and zeroed when its contents were lost, else taken out of self-refresh (R248). -/
def initLpddr (s : State) : State :=
  let s1 := if s.boot.memLost then dropLpddr s else plannerCopied s
  (List.range 16).foldl (fun t c =>
      modCh c (fun C => { C with trained := true, selfRefresh := false, init := s.boot.memLost, scrubbing := !s.boot.memLost }) t)
    { s1 with boot := { s1.boot with memLost := false } }

/-- The firmware powers the domains, trains the links and the memories, and reaches IDLE (R401 step 6). -/
def firmwareUp (s : State) : State :=
  let t := initLpddr (initHold (trainPorts (linkTrained { s with pwr := { s.pwr with domains := true } })))
  { t with dev := .idle, boot := { t.boot with bodyRead := false } }

/-- MGT_BOOT_FAIL with the cause of an earlier failure (R403). -/
def logPrior (s : State) : State :=
  if s.boot.prior ≠ 0 then logEv 0x0A02 (b4 s.boot.prior) { s with boot := { s.boot with prior := 0 } } else s

def logBoot (s : State) : State :=
  logEv 0x0A01 (b4 s.boot.running.fwVersion ++ b4 s.boot.running.svn ++ b4 s.boot.running.slot) s

/-- The first boot of an image blows fuses (R402). -/
def firstBoot (s : State) : State :=
  if s.boot.first then blowFuses { s with boot := { s.boot with first := false } } else s

/-- Step 6: the firmware starts and reaches IDLE, then logs MGT_BOOT_FAIL for an earlier failure and MGT_BOOT (R401). -/
def romFinish (s : State) : State :=
  if s.pins.perst || !s.pins.pwrgood then s
  else if s.boot.recovery then linkTrained s
  else if s.boot.bodyRead then firstBoot (logBoot (logPrior (firmwareUp s)))
  else s

/-- The boot sequence as far as the pins let it run. -/
def bootSequence (s : State) : State := romFinish (romBody (romSteps s))

/-- A full reset and the boot that follows it. -/
def resetAndBoot (s : State) : State := bootSequence (fullReset s)

/-! ### Power states (R359 to R369) -/

/-- The registers of R366, with their values. -/
def savedRegs (s : State) : List (Nat × Word) :=
  let cores := (List.range 96).flatMap fun c => [coreWindow c, coreWindow c + 4]
  let arrs := (List.range 96).flatMap fun c => (List.range 4).flatMap fun a => [arrReg c a 0, arrReg c a 4]
  (cores ++ arrs).map fun o => (o, regW s o)
def savedPorts (s : State) : List (Nat × Word) :=
  ((List.range 16).flatMap fun p => [portReg p 0, portReg p 0x18]).map fun o => (o, regW s o)

/-- The cores lose their state: threads, banks, stationary sets, table memory, group registers (R359, R366). -/
def dropCores (s : State) : State :=
  dropScratch { s with cores := (s.cores.map fun (x : Nat × CoreSt) => (x.1, ({ start := s.stroke.ticks / 10 } : CoreSt))).filter fun x => decide (x.2 ≠ {}),
                       regs := serase 0x1000000 0x1C00000 s.regs }

/-- Records that a core's buffer holds are lost when its group goes off (R393). -/
def dropTrace (c : Nat) (s : State) : State :=
  let n := (sget bufD s.trace.bufs c).recs.length
  if n = 0 then s else
    bump (cntCore c 44) n { s with trace := { s.trace with bufs := smod bufD s.trace.bufs c fun b =>
      { b with recs := [], lost := b.lost + n } } }

def dropTraces (s : State) : State := (List.range 96).foldl (fun t c => dropTrace c t) s

/-- The registers of R366 are kept in always-on memory; those of the ports on the way to G5. -/
def saveRegs (p : PowerState) (s : State) : State :=
  let kept := if s.pwr.state == .p0 then savedRegs s else s.pwr.save.take 960
  { s with pwr := { s.pwr with save := if p == .g5 then kept ++ savedPorts s else kept } }

/-- In G4 and G5 the hold loses its contents and LPDDR5X is in self-refresh (R359). -/
def memOff (p : PowerState) (s : State) : State :=
  if p == .g4 || p == .g5 then
    (List.range 16).foldl (fun t c => modCh c (fun C => { C with selfRefresh := true, scrubbing := false }) t) (dropHold s)
  else s

/-- In G5 the ports and the PCI Express link are down and every domain but AON is off (R359, R360). -/
def linksOff (p : PowerState) (s : State) : State :=
  if p == .g5 then
    { s with regs := s.regs.filter fun x => !(decide (0x300000 ≤ x.1) && decide (x.1 < 0x400000)),
             link := { s.link with port := [] },
             host := { s.host with linkUp := false, linkWidth := 0, linkSpeed := 0, standCount := 0 },
             pwr := { s.pwr with domains := false } }
  else s

/-- In G4 the rails fall to the retention targets (R359). -/
def railsDown (p : PowerState) (s : State) : State :=
  if p == .g4 then modAvs 1 (fun r => { r with target := 700 }) (modAvs 0 (fun r => { r with target := 600 }) s) else s

def nowIn (p : PowerState) (s : State) : State := { s with pwr := { s.pwr with state := p, exiting := false } }

/-- Enter device state G3, G4 or G5 (R359, R360, R366). -/
def enterDeep (p : PowerState) (s : State) : State :=
  nowIn p (railsDown p (linksOff p (memOff p (dropCores (saveRegs p (dropTraces s))))))

/-- MOOR: the device enters G5 in the states of R360; the lifetime record is written (R411). -/
def moor (s : State) : State := lifeWrite (enterDeep .g5 s)

def moorAllowed (s : State) : Bool := s.dev == .idle || s.dev == .loaded || s.dev == .stopped

/-- A device exit begins (R360, R363, R364). -/
def startExit (s : State) : State :=
  if s.pwr.state == .g3 || s.pwr.state == .g4 || s.pwr.state == .g5 then { s with pwr := { s.pwr with exiting := true } }
  else s

/-- A doorbell or BAR access ends the declaration and starts the exit from G3 or G4 (R363, R364). -/
def wakeAccess (s : State) : State := if s.pwr.state == .g5 then s else startExit s

/-- The band target of an AVS rail (R370). -/
def bandTarget (s : State) (r : Nat) : Nat := s.fuses.avs.getD (3 * r + (railAvs s r).band) 0

def restoreRegs (s : State) : State :=
  { s with regs := s.pwr.save.foldl (fun m (x : Nat × Word) => sset regReset m x.1 x.2) s.regs }
def backInP0 (s : State) : State :=
  { s with pwr := { s.pwr with state := .p0, exiting := false, save := [], groups := [], domains := true } }
/-- After G4 and G5 the hold is zeroed and LPDDR5X leaves self-refresh. -/
def memOn (s : State) : State :=
  (List.range 16).foldl (fun t c => modCh c (fun C => { C with selfRefresh := false, trained := true, scrubbing := true }) t) (initHold s)
def railsUp (s : State) : State :=
  modAvs 1 (fun r => { r with target := bandTarget s 1 }) (modAvs 0 (fun r => { r with target := bandTarget s 0 }) s)

/-- The lockkeeper SRAM is loaded from the planner copy on an exit; a copy that meets poison or has another digest is written again from
the image store (R367). -/
def reloadPlanner (s : State) : State :=
  let n := (Config.plannerBytes s.boot.running.planner).length
  if memReason s (plannerCopy s) n != 0 || sha384 (memBytes s (plannerCopy s) n) != memBytes s (sharedBase + 0x30000) 48 then
    plannerCopied s
  else s

/-- A device exit completes (R359, R366, R367): registers are restored, the hold is zeroed after G4 and G5, LPDDR5X
leaves self-refresh, ports and the host link retrain after G5. -/
def exitDeep (s : State) : State :=
  let t := reloadPlanner (backInP0 (restoreRegs s))
  if s.pwr.state == .g5 then linkTrained (trainPorts (railsUp (memOn t)))
  else if s.pwr.state == .g4 then railsUp (memOn t)
  else t

end Sys2Proof.Machine
end

