-- ==== Sys2Proof/Machine/RegWrite.lean ====
section
/-! DEFINITION. Writing BAR0 (R14, R17, R395, R424 to R429), the mailbox operations (R419), and the meanings of the
register events. -/

namespace Sys2Proof.Machine

open Sys2Proof

/-! ### Mailbox (R419) -/

/-- The mailbox area: shared-window offset 0xC_0000. -/
def mboxArea : Nat := 0xF0000C0000

/-- Width in bytes of the lifetime field at an offset (R410). -/
def lifeWidth (o : Nat) : Nat :=
  if o < 0x80 then 8 else if o < 0xC80 then 4
  else if o < 0x13C0 then 8
  else if (o - 0x13C0) % 16 = 0 then 8 else 4

/-- Put bytes into a byte string at an offset. -/
def putBytes (l : List Byte) (o : Nat) (b : List Byte) : List Byte := l.take o ++ b ++ l.drop (o + b.length)

/-- The lifetime record as its 8 KiB (R410). -/
def lifeBytes (s : State) : List Byte :=
  let z := putBytes (putBytes (List.replicate 8192 0) 0 (b4 0x4546494C ++ leBytes 2 1)) 0x58 (leBytes 16 s.disabled)
  let r := s.mgmt.life.foldl (fun (l : List Byte) (x : Nat × Nat) => putBytes l x.1 (leBytes (lifeWidth x.1) x.2)) z
  putBytes r 0x1FC0 (sha384 r)

def setMbox (code : Nat) (s : State) : State := { s with mgmt := { s.mgmt with mboxCode := code } }

/-- LOG_READ: flash entries into the data area; an entry no longer held reads as zero. -/
def mboxLog (a0 a1 : Nat) (s : State) : State :=
  if s.mgmt.mboxBusy then setMbox 1 s
  else if a1 = 0 ∨ 4096 < a1 then setMbox 3 s
  else
    let bytes := (List.range a1).flatMap fun i =>
      match s.flash.log.find? fun e => e.seq % 2 ^ 32 == (a0 + i) % 2 ^ 32 with
      | some e => logBytes e
      | none => List.replicate 64 0
    setMbox 0 (memWrite mboxArea bytes s)

def mboxLife (s : State) : State :=
  if s.mgmt.mboxBusy then setMbox 1 s
  else
    let s := lifeWrite s
    setMbox 0 (memWrite mboxArea (lifeBytes s) s)

def mboxMoorOp (s : State) : State :=
  if s.mgmt.mboxBusy then setMbox 1 s
  else if moorAllowed s && s.pwr.state != .g5 then setMbox 0 (moor s) else setMbox 4 s

def mboxWakeOp (s : State) : State :=
  if s.mgmt.mboxBusy then setMbox 1 s
  else if s.pwr.state == .g5 then setMbox 0 (startExit s) else setMbox 4 s

def mboxResetOp (s : State) : State := if s.mgmt.mboxBusy then setMbox 1 s else setMbox 0 (resetAndBoot s)

/-- A mailbox operation by its code; another code is BAD_OP (R419). -/
def mboxOp (op a0 a1 : Nat) (s : State) : State :=
  match op with
  | 1 => mboxLog a0 a1 s
  | 2 => mboxLife s
  | 3 => mboxMoorOp s
  | 4 => mboxWakeOp s
  | 5 => mboxResetOp s
  | _ => if s.mgmt.mboxBusy then setMbox 1 s else setMbox 2 s

/-- The arguments of a mailbox operation: the ARG registers, or those the MCTP message carries. -/
def mboxArgs (src : MboxSrc) (s : State) : Nat × Nat :=
  match src with
  | .bar0 => (reg s 0x100008, reg s 0x10000C)
  | .mctp a b => (a.toNat, b.toNat)

/-- The reply to a vendor-defined message: its status (R418, R419). -/
def mboxAnswer (src : MboxSrc) (s : State) : State :=
  match src with
  | .bar0 => s
  | .mctp _ _ => emit (.mctp [0x7E, BitVec.ofNat 8 s.mgmt.mboxCode]) s

def execMboxLogRead (src : MboxSrc) (s : State) : Host.Outcome State Fault Refusal :=
  .next (mboxAnswer src (mboxLog (mboxArgs src s).1 (mboxArgs src s).2 s))
def execMboxLifeRead (src : MboxSrc) (s : State) : Host.Outcome State Fault Refusal :=
  .next (mboxAnswer src (mboxLife s))
def execMboxMoor (src : MboxSrc) (s : State) : Host.Outcome State Fault Refusal :=
  .next (mboxAnswer src (mboxMoorOp s))
def execMboxWake (src : MboxSrc) (s : State) : Host.Outcome State Fault Refusal :=
  .next (mboxAnswer src (mboxWakeOp s))
def execMboxReset (src : MboxSrc) (s : State) : Host.Outcome State Fault Refusal :=
  .next (mboxAnswer src (mboxResetOp s))

/-! ### Writing a register -/

/-- A whole-register lock holds (R428). -/
def regLocked (s : State) (off : Nat) : Bool :=
  if 0x1000000 ≤ off ∧ off < 0x1C00000 then
    decide ((off - 0x1000000) % 0x20000 < 0x1800) && runLock s ((off - 0x1000000) / 0x20000)
  else if 0x3800 ≤ off ∧ off < 0x3900 then anyRunLock s
  else if 0x3000 ≤ off ∧ off < 0x3800 then decide (off % 0x20 < 0x10) && ringEnabled s ((off - 0x3000) / 0x20)
  else if off = 0x10 ∨ off = 0x14 then s.plan.isSome
  else false

/-- The locked fields of a register (R428): INLINE_ECC, SPLIT, SQ_LOG2 and RQ_LOG2. -/
def lockedFields (s : State) (off : Nat) : Nat :=
  if off = 0x400000 then (if s.plan.isSome || anyRunLock s then 1 else 0)
  else if 0x300000 ≤ off ∧ off < 0x400000 ∧ off % 0x10000 = 0 then (if s.plan.isSome then 2 else 0)
  else if 0x3000 ≤ off ∧ off < 0x3800 ∧ off % 0x20 = 0x10 then
    (if ringEnabled s ((off - 0x3000) / 0x20) then 0x1F1F else 0)
  else 0

/-- Take the port down: frames stop, its identity is no longer valid. -/
def portDown (p : Nat) (s : State) : State := modPort p (fun P =>
  { P with sub0 := { P.sub0 with up := false, training := false, lanes := 0, peerValid := false },
           sub1 := { P.sub1 with up := false, training := false, lanes := 0, peerValid := false } }) s

/-- The port begins training (R270). -/
def portTrain (p : Nat) (s : State) : State := modPort p (fun P =>
  { P with sub0 := { P.sub0 with up := false, training := true, lanes := 0, peerValid := false },
           sub1 := { P.sub1 with up := false, training := bitN (reg s (portReg p 0)) 1, lanes := 0, peerValid := false },
           spared := false, failedLanes := 0, dropPending := none, lost := false }) s

/-- A package, its plan and its binds are gone with the region that held them: a loaded device is idle again. -/
def dropPkg (s : State) : State :=
  { s with pkg := none, sources := [], map := [], mapBytes := [], failInputs := [], dev := if s.dev == .loaded then .idle else s.dev }

/-- A change of INLINE_ECC starts the initialisation of R248; every LPDDR5X content is lost. -/
def eccChanged (s : State) : State :=
  (List.range 16).foldl (fun t c => modCh c (fun C => { C with init := true, scrubbing := false, buffers := [] }) t)
    (dropPkg (dropLpddr s))

/-- A fresh identity exchange on every trained port (R431). -/
def identityExchange (s : State) : State :=
  (List.range 16).foldl (fun t p => if (port t p).sub0.up || (port t p).sub1.up then emit (.identity p) t else t) s

/-- What a write does beyond the stored value. ENABLE written 1 sets a pair's indices and doorbells to 0 and PHASE to 1; FETCH_ERR
stays until ENABLE is written 0 (R338). `old` and `new` are the register's RW fields, `v` the written word and
`mask` the bits written. -/
def writeEffect (off old new v mask : Nat) (s : State) : State :=
  if 0x3000 ≤ off ∧ off < 0x3800 ∧ off % 0x20 = 0x10 then
    if !bitN mask 16 then s
    else if bitN new 16 then
      modRing ((off - 0x3000) / 0x20) (fun R => { fetchErr := R.fetchErr }) s
    else modRing ((off - 0x3000) / 0x20) (fun R => { R with fetchErr := false }) s
  else if off = 0x10 then identityExchange s
  else if off = 0xB000 then
    if bitN mask 0 && bitN v 0 then (if moorAllowed s then moor s else refuseWrite s) else s
  else if off = 0xB008 then
    { s with pwr := { s.pwr with nextAt := if new = 0 then none else some (s.boot.uptime + 1000 * new) } }
  else if off = 0x100004 then mboxOp (v % 256) (reg s 0x100008) (reg s 0x10000C) s
  else if off = 0x200000 then
    if bitN mask 0 && bitN v 0 then takeSnapshot (bitsN new 8 5) s else s
  else if off = 0x400000 then (if bitN old 0 != bitN new 0 then eccChanged s else s)
  else if 0x300000 ≤ off ∧ off < 0x400000 ∧ off % 0x10000 = 0 then
    let p := (off - 0x300000) / 0x10000
    if bitN new 0 then (if bitN old 0 && bitN old 1 == bitN new 1 then s else portTrain p s)
    else if bitN old 0 then portDown p s else s
  else s

/-- A write of `v` to the register at `off`, in the bits of `mask` (all ones for a plain write). Locked fields keep their values and
are not held to R17: a write of HST_RING_CTL with a reserved size while ENABLE is 1 acts in ENABLE (DESIGN CHOICE, log entry 130). -/
def writeMasked (off v mask : Nat) (s : State) : State :=
  match regInfo off with
  | none => refuseWrite s
  | some r =>
    if !instanceExists s off || domainOff s off || (r.rw == 0 && r.cmd == 0) || regLocked s off then refuseWrite s
    else
      let old := reg s off
      let lock := lockedFields s off
      let want := (old &&& (r.rw ^^^ (r.rw &&& mask))) ||| (v &&& r.rw &&& mask)
      let new := (old &&& lock) ||| (want &&& (r.rw ^^^ (r.rw &&& lock)))
      if !regOk off new then refuseWrite s
      else
        let s := if (old &&& lock) != (want &&& lock) then refuseWrite s else s
        writeEffect off old new v mask (setReg off new s)

/-- A write of the alias word of bit `b` of the register at `x` (R395, R429): bit 0 of the written word. -/
def writeAliasBit (x b v : Nat) (s : State) : State :=
  match regInfo x with
  | none => refuseWrite s
  | some r =>
    if bitN r.rw b then writeMasked x (v % 2 * 2 ^ b) (2 ^ b) s
    else if bitN r.cmd b then (if v % 2 = 1 then writeMasked x (2 ^ b) (2 ^ b) s else s)
    else refuseWrite s

/-- A write of the alias word at `off`: word n stands for bit n mod 32 of the register at 4 (n ÷ 32). -/
def writeAlias (off v : Nat) (s : State) : State :=
  writeAliasBit ((off - 0x2000000) / 4 / 32 * 4) ((off - 0x2000000) / 4 % 32) v s

/-- An aligned 32-bit write at a BAR0 offset, by the rules of R424 to R429. -/
def writeReg (off v : Nat) (s : State) : State :=
  let s := wakeAccess s
  if s.dev == .boot || recoveryHides s off then refuseWrite s
  else if 0x2000000 ≤ off ∧ off < 0x4000000 then writeAlias off v s
  else writeMasked off v 0xFFFFFFFF s

/-- A write of `size` bytes (R424): four or eight aligned bytes; every other write is ignored and counted. -/
def writeBar0 (off size v : Nat) (s : State) : State :=
  if size = 4 ∧ off % 4 = 0 then writeReg off (v % 2 ^ 32) s
  else if size = 8 ∧ off % 8 = 0 then writeReg (off + 4) (v / 2 ^ 32 % 2 ^ 32) (writeReg off (v % 2 ^ 32) s)
  else refuseWrite (wakeAccess s)

def execRegisterWrite (off size : Nat) (v : DWord) (s : State) : Host.Outcome State Fault Refusal :=
  .next (writeBar0 off size v.toNat s)
/-- R395: the alias words lie from 0x0200_0000; `off` counts from BAR0. -/
def execAliasWrite (off : Nat) (v : Word) (s : State) : Host.Outcome State Fault Refusal :=
  .next (if 0x2000000 ≤ off ∧ off < 0x4000000 ∧ off % 4 = 0 then writeReg off v.toNat s else refuseWrite (wakeAccess s))
def execRingEnable (q : RingId) (v : Word) (s : State) : Host.Outcome State Fault Refusal :=
  .next (writeReg (ringReg q.val 0x10) v.toNat s)
def execPwrMoor (v : Word) (s : State) : Host.Outcome State Fault Refusal := .next (writeReg 0xB000 v.toNat s)
def execPwrNext (v : Word) (s : State) : Host.Outcome State Fault Refusal := .next (writeReg 0xB008 v.toNat s)
def execCntSnap (v : Word) (s : State) : Host.Outcome State Fault Refusal := .next (writeReg 0x200000 v.toNat s)
def execMgtPositionWrite (v : Word) (s : State) : Host.Outcome State Fault Refusal := .next (writeReg 0x10 v.toNat s)
def execPortEnable (p : PortId) (v : Word) (s : State) : Host.Outcome State Fault Refusal :=
  .next (writeReg (portReg p.val 0) v.toNat s)
/-- A write of LNK_CTL that changes SPLIT (R302): the port retrains. -/
def execPortSplitChange (p : PortId) (v : Word) (s : State) : Host.Outcome State Fault Refusal :=
  .next (writeBar0 (portReg p.val 0) 4 v.toNat s)
def execInlineEccChange (v : Word) (s : State) : Host.Outcome State Fault Refusal := .next (writeReg 0x400000 v.toNat s)

/-! ### The diagnostic window (R346, R347) -/

def diagBase (s : State) : Nat := reg s 0x2014 * 2 ^ 34

def isHostAddr (a : Nat) : Bool := decide (0x8000000000000 ≤ a)

/-- Why a BAR4 read does not complete: its reads reach hold, scratch, LPDDR5X and the shared window, so a host window is
refused as an address that does not exist (DEDUCED from R347). -/
def bar4Reason (s : State) (a n : Nat) (o : EccOutcome) : Nat :=
  if (List.range n).any (fun i => isHostAddr (a + i)) then 4 else readReason s a n o

/-- A BAR4 read, whose first code word shows `o`: poison completes with all ones and the EP bit; a refused address as an Unsupported
Request. -/
def bar4ReadOp (off size : Nat) (o : EccOutcome) (s : State) : State :=
  let s := bump (cntDev 47) 1 (wakeAccess s)
  let a := diagBase s + off
  let reason := bar4Reason s a size o
  let s := countRange false a size (readCount a size o s)
  match reason with
  | 0 => emit (.barRead (memBytes s a size) false false) s
  | 4 => emit (.aer 3) (emit (.barRead [] false true) (countPoison 4 s))
  | r => emit (.aer 4) (emit (.barRead (List.replicate size 0xFF) true false) (countPoison r s))

/-- A BAR4 write: dropped and counted while a run is active (DEDUCED: R347's own list over the remark in R346), into closed
regions, and into refused addresses; always-on memory is read-only. -/
def bar4WriteOp (off : Nat) (bytes : List Byte) (s : State) : State :=
  let s := wakeAccess s
  let a := diagBase s + off
  let n := bytes.length
  if n = 0 then s
  else if (List.range n).any (fun i => closedTo s (a + i) || (match memRegion s (a + i) with
      | none => true | some .aon => true | _ => false)) then refuseWrite s
  else if runActive s then refuseWrite s
  else match memRegion s a with
    | some (.host _) => match devToHost s a with
      | some h => emit (.hostWrite h bytes) s
      | none => s
    | _ => if writeReason s a n = 0 then countRange true a n (memStore a bytes s) else countPoison (writeReason s a n) s

def execBar4Read (off size : Nat) (ecc : EccOutcome) (s : State) : Host.Outcome State Fault Refusal := .next (bar4ReadOp off size ecc s)
def execBar4Write (off : Nat) (bytes : List Byte) (s : State) : Host.Outcome State Fault Refusal :=
  .next (bar4WriteOp off bytes s)

end Sys2Proof.Machine
end

