-- ==== Sys2Proof/Machine/Stats.lean ====
section
/-! DEFINITION. Statistics records (R122 to R127): counting the classes of a conversion, AMAX and SUMSQ, combining
records, their 256 bytes, and the collectors of the device. -/

namespace Sys2Proof.Machine

open Sys2Proof

def blankRec (tensor layer role rung step flags : Nat) : StatRec :=
  { tensor := tensor, layer := layer, role := role, rung := rung, step := step, flags := flags, elements := 0, zeros := 0,
    saturated := 0, vanished := 0, vBlocks := 0, vBlockElems := 0, nonfinite := 0, blocks := 0, amax := 0, sumsq := 0,
    hist := [], agreeTiles := 0, agreeRung := 0, agreeDiff := 0, agreeRef := 0 }

/-- The larger of two W42 magnitudes. -/
def w42Max (a b : Nat) : Nat := if vLt (dec42 a) (dec42 b) then b else a

/-- A source value enters AMAX and SUMSQ when it is finite (R124); the exact square is the second addend (R105). -/
def statVal (r : StatRec) (v : Val) : StatRec :=
  if vFinite v then
    { r with amax := w42Max r.amax (enc42 (vAbs v)), sumsq := w42AddVal (dec42 r.sumsq) (vMul v v) }
  else r

/-- One element's class (R59). -/
def statClass (r : StatRec) (c : ConvClass) : StatRec :=
  match c with
  | .zero => { r with zeros := r.zeros + 1 }
  | .vanished => { r with vanished := r.vanished + 1 }
  | .saturated => { r with saturated := r.saturated + 1 }
  | .nonfinite => { r with nonfinite := r.nonfinite + 1 }
  | .plain => r

/-- Elements of a conversion, in the order its converter emits them. -/
def statElems (r : StatRec) (xs : List Val) (cs : List ConvClass) : StatRec :=
  let r1 := xs.foldl statVal { r with elements := r.elements + xs.length }
  cs.foldl statClass r1

/-- The blocks of an MX conversion (R57, R125): the histogram leaves out all-zero blocks and scale 0xFF. -/
def statBlock (r : StatRec) (xs : List Val) (b : BlockOut) : StatRec :=
  let r1 := statElems r xs b.classes
  let r2 := { r1 with blocks := r1.blocks + 1 }
  let r3 := if b.vanishedBlock then { r2 with vBlocks := r2.vBlocks + 1, vBlockElems := r2.vBlockElems + xs.length } else r2
  if b.scale = 255 || xs.all vIsZero then r3 else { r3 with hist := smod natD r3.hist (b.scale / 16) (· + 1) }

/-- Combine two records of one tensor or pair: counts add, AMAX takes the maximum, FLAGS take the OR, the sums are added
by w42_add in the order given (R122, R126). -/
def addRec (a b : StatRec) : StatRec :=
  { a with flags := a.flags ||| b.flags, elements := a.elements + b.elements, zeros := a.zeros + b.zeros,
           saturated := a.saturated + b.saturated, vanished := a.vanished + b.vanished, vBlocks := a.vBlocks + b.vBlocks,
           vBlockElems := a.vBlockElems + b.vBlockElems, nonfinite := a.nonfinite + b.nonfinite, blocks := a.blocks + b.blocks,
           amax := w42Max a.amax b.amax, sumsq := w42Add a.sumsq b.sumsq,
           hist := (List.range 16).foldl (fun m i => sset natD m i (sget natD a.hist i + sget natD b.hist i)) [],
           agreeTiles := a.agreeTiles + b.agreeTiles, agreeRung := max a.agreeRung b.agreeRung,
           agreeDiff := w42Add a.agreeDiff b.agreeDiff, agreeRef := w42Add a.agreeRef b.agreeRef }

/-- AGREE_FLAGS: VALID where tiles were compared, and the comparison rung byte (R124). -/
def agreeFlags (r : StatRec) : Nat := if r.agreeTiles = 0 then 0 else 1 + r.agreeRung % 256 * 256

/-- A record as its 256 bytes (R124). -/
def recBytes (r : StatRec) : List Byte :=
  leBytes 4 r.tensor ++ leBytes 2 r.layer ++ leBytes 1 r.role ++ leBytes 1 r.rung ++ leBytes 4 r.step ++ leBytes 4 r.flags ++
    [r.elements, r.zeros, r.saturated, r.vanished, r.vBlocks, r.vBlockElems, r.nonfinite, r.blocks].flatMap (leBytes 8) ++
    w42Bytes r.amax ++ w42Bytes r.sumsq ++ (List.range 16).flatMap (fun i => leBytes 8 (sget natD r.hist i)) ++
    leBytes 4 r.agreeTiles ++ leBytes 4 (agreeFlags r) ++ w42Bytes r.agreeDiff ++ w42Bytes r.agreeRef ++ leBytes 8 0

/-- Pair records of a step's global records: in ascending tensor ID (R123, R126). -/
def pairRecords (l : List StatRec) (ps : List (Nat × Nat × LayerDesc)) : List StatRec :=
  let named := l.mergeSort fun a b => decide (a.tensor ≤ b.tensor)
  ps.filterMap fun (i, r, _) =>
    match named.filter fun x => x.layer == i && x.role == r with
    | [] => none
    | x :: t => some (t.foldl addRec { x with tensor := noTensor })

/-- Flags that every record of a pair or layer carries in the running step (R124, R135, R142, R143). -/
def layerFlags (s : State) (layer role : Nat) : Nat :=
  b2n (s.cox.ovr.contains layer) + 2 * b2n (s.cox.repeated.contains layer) + 4 * b2n (s.cox.flagged.contains layer) + 32 * b2n (role ≤ 2 && pinOf s layer role != 0)

/-- The tensor descriptor that the plan holds for an ID. -/
def planTensor (s : State) (t : Nat) : Option TensorDesc := s.plan.bind fun p => p.tensors[t]?

/-- A fresh record of a tensor in the running step. -/
def freshRec (s : State) (t : Nat) : StatRec :=
  match planTensor s t with
  | some d =>
    let steer := d.steerLayer != 0xFFFF
    blankRec t d.steerLayer d.steerRole (if steer then rungOf s d.steerLayer d.steerRole else 0) s.run.step
      (if steer && runActive s then layerFlags s d.steerLayer d.steerRole else 0)
  | none => blankRec t 0xFFFF 0xFF 0 s.run.step 0

def collKey (point t : Nat) : Nat := point * 2 ^ 20 + t

def collPut (l : List (Nat × StatRec)) (k : Nat) (r : StatRec) : List (Nat × StatRec) :=
  (l.filter fun x => decide (x.1 < k)) ++ [(k, r)] ++ (l.filter fun x => decide (k < x.1))

/-- Change the record that a collector keeps of a tensor (R122). Points: core * 6 + 0-3 array, 4 vector, 5 exact unit;
576 + e update engine e. -/
def collect (point t : Nat) (f : StatRec → StatRec) (s : State) : State :=
  let k := collKey point t
  let r := match s.collectors.find? fun x => x.1 == k with
    | some x => x.2
    | none => freshRec s t
  { s with collectors := collPut s.collectors k (f r) }

/-- Add a record to a list that holds one for each group and tensor. -/
def mergeRec (acc : List (Nat × StatRec)) (g : Nat) (r : StatRec) : List (Nat × StatRec) :=
  match findIdx (fun (x : Nat × StatRec) => x.1 == g && x.2.tensor == r.tensor) acc with
  | some i => modifyAt (fun x => (x.1, addRec x.2 r)) i acc
  | none => acc ++ [(g, r)]

/-- The device's records of a step: first the collectors of each core in the order of R122, then the cores in ascending
order, and the update engines in ascending order (R105, R126, R199). The list is in ascending key. -/
def deviceRecords (l : List (Nat × StatRec)) : List StatRec :=
  let perCore := l.foldl (fun acc x =>
    let pt := x.1 / 2 ^ 20
    mergeRec acc (if pt < 576 then pt / 6 else pt) x.2) []
  (perCore.foldl (fun acc x => mergeRec acc 0 x.2) []).map (·.2)

end Sys2Proof.Machine
end

