-- ==== Sys2Proof/Machine/HostCmd.lean ====
section
/-! DEFINITION. Doorbells, the fetching of submission entries, and the ring commands but for RESTORE and REPLAY_CHECK
(R113, R178, R187, R337 to R347, R352, R387, R392, R404). -/

namespace Sys2Proof.Machine

open Sys2Proof

/-! ### Doorbells and fetching (R337, R338) -/

/-- An access that is not a command: the declaration ends and a G3 or G4 exit starts (R363, R364). -/
def doorbellTouch (s : State) : State := wakeAccess { s with pwr := { s.pwr with nextAt := none } }

/-- A doorbell write of page `q`: refused at another offset, while ENABLE is 0, or at an index not below the size. -/
def sqTailOp (q off v : Nat) (s : State) : State :=
  let s := doorbellTouch s
  if off ≠ 0 then refuseWrite s
  else if !ringEnabled s q then emit (.aer 2) (refuseWrite s)
  else if 2 ^ ringLog2 s q false ≤ v % 2 ^ 16 then refuseWrite s
  else modRing q (fun R => { R with sqTail := v % 2 ^ 16 }) s

def rqHeadOp (q v : Nat) (s : State) : State :=
  let s := doorbellTouch s
  if !ringEnabled s q then emit (.aer 2) (refuseWrite s)
  else if 2 ^ ringLog2 s q true ≤ v % 2 ^ 16 then refuseWrite s
  else
    let s := modRing q (fun R => { R with rqHead := v % 2 ^ 16 }) s
    drainReplies q (ring s q).queued.length s

def execSqTail (q : RingId) (off : Nat) (v : Word) (s : State) : Host.Outcome State Fault Refusal :=
  .next (sqTailOp q.val off v.toNat s)
def execRqHead (q : RingId) (v : Word) (s : State) : Host.Outcome State Fault Refusal := .next (rqHeadOp q.val v.toNat s)

/-- The pair has an entry to fetch: enabled, an entry before the tail, no fetch error, its reply queue not full. -/
def hasEntry (s : State) (q : Nat) : Bool :=
  ringEnabled s q && (ring s q).sqHead != (ring s q).sqTail && !(ring s q).fetchErr && decide ((ring s q).queued.length < 64)
/-- The pair fetches: the function is in D0, and in P0, for which the fetch waits (R360, R364). -/
def fetches (s : State) (q : Nat) : Bool := hasEntry s q && !s.host.d3hot && s.pwr.state == .p0

/-- The address of the next entry lies in a valid window; else its read completes with an error (R334). -/
def entryAddr (s : State) (q : Nat) : Nat := sqBase s q + 64 * (ring s q).sqHead

def fetchOp (q : Nat) (r : FetchResult) (s : State) : State :=
  if !fetches s q then s
  else
    let r := if hostRange s (entryAddr s q) 64 then r else .error
    match r with
    | .ok e =>
      let s := modRing q (fun R => { R with sqHead := (R.sqHead + 1) % 2 ^ ringLog2 s q false,
                                            fetched := R.fetched ++ [padTo 64 e] }) s
      dropReserved q (ring s q).fetched.length s
    | _ => reply q 0xFFFF 0 3 [] (emit (.aer 1) (modRing q (fun R => { R with fetchErr := true }) s))

def execSqEntryFetched (q : RingId) (r : FetchResult) (s : State) : Host.Outcome State Fault Refusal :=
  .next (fetchOp q.val r s)

/-! ### Common parts -/

def anyState : State → Option Nat := fun _ => none
/-- Any state but BOOT, RECOVERY and WEDGED. -/
def workState (s : State) : Option Nat := if s.dev == .boot || s.dev == .recovery then some 2 else none
def lastStep (s : State) : List Byte := b4 (stepField s)

/-- Every core group is on again: the plan that left it OFF has ended (R362). -/
def groupOn (g : Nat) (s : State) : State := if group s g == .off then setGroup g .p0 s else s
def allGroupsOn (s : State) : State := (List.range 12).foldl (fun t g => groupOn g t) s

/-- Outside a run, a command that would power up a core group is refused while a voltage increase has failed (R371). -/
def avsBlocks (s : State) : Bool :=
  !runActive s && ((railAvs s 0).upFault || (railAvs s 1).upFault) && (List.range 12).any fun g => group s g == .off
def powersUp (f : State → Option Nat) (s : State) : Option Nat := if avsBlocks s then some 2 else f s

/-! ### ECHO, FULL_RESET -/

def execEcho (q : RingId) (s : State) : Host.Outcome State Fault Refusal :=
  .next (ringCommand q.val 0x32 (fun e => zeroAt e 0x20 32) anyState (fun e s => complete q.val 0 (slice e 8 24) s) s)

/-- FULL_RESET replies OK before the reset begins (R352). -/
def execFullReset (q : RingId) (s : State) : Host.Outcome State Fault Refusal :=
  .next (ringCommand q.val 0x3F (fun e => zeroAt e 8 56) anyState (fun _ s => resetAndBoot (complete q.val 0 [] s)) s)

/-! ### LOAD_PACKAGE (R178) -/

/-- The cox state that a fresh package starts from: each steered role at its start rung, pinned where the descriptor
says so (R135). -/
def freshCox (p : Pkg) : CoxSt :=
  let rungs := (pairs p).foldl (fun m (i, r, y) => sset natD m (pairKey i r) (layerLadder y r).start) []
  let pins := (pairs p).foldl (fun m (i, r, y) =>
    if bitN y.flags (2 + r) then sset natD m (pairKey i r) (layerLadder y r).start else m) []
  { rung := rungs, pin := pins }

/-- The new package replaces the old one; any plan and every bind is discarded. -/
def loadPkg (p : Pkg) (d : List Byte) (s : State) : State :=
  let s := allGroupsOn (countRange true (pkgRegion s) d.length (memStore (pkgRegion s) d s))
  { s with pkg := some p, plan := none, sources := [], map := [], mapBytes := [], failInputs := [], cox := freshCox p,
           adm := {}, run := {}, collectors := [], red := {},
           stroke := { s.stroke with noParent := true, master := false, locked := false, good := 0, bad := 0 },
           link := { s.link with digestIn := [], digestSent := false, digestOk := false, digestDone := false, route := [], credit := [] },
           dev := .loaded }

/-- The checks of LOAD_PACKAGE from its addresses on; a failed check leaves the loaded package. -/
def loadBody (q : Nat) (data : HostData) (e : List Byte) (s : State) : State :=
  let addr := leAt e 8 8
  let bytes := leAt e 0x10 8
  if !hostRange s addr bytes then complete q 3 [] s
  else if data.poison then complete q 4 [] s
  else
    let d := if bytes ≤ 2 ^ 32 then padTo bytes data.bytes else []
    match checkPkg d bytes with
    | (0, some p, _) => complete q 0 [] (loadPkg p d s)
    | (code, _, some (k, i)) => complete q code [] (logEv 0x0902 (b4 (if k = 0 then noTensor else i)) s)
    | (code, _, none) => complete q code [] s

def execLoadPackage (q : RingId) (data : HostData) (s : State) : Host.Outcome State Fault Refusal :=
  .next (ringCommand q.val 1 (fun e => zeroAt e 0x18 40) (powersUp (statesRun [.idle, .loaded, .planned, .stopped]))
    (loadBody q.val data) s)

/-! ### BIND_SOURCE (R113, R187) -/

def bindBody (q : Nat) (e : List Byte) (s : State) : State :=
  let src := leAt e 8 1
  let seqMax := leAt e 0xC 4
  let seed := leAt e 0x10 8
  let rg := leAt e 0x18 8
  let log2 := leAt e 0x20 4
  let prod := leAt e 0x28 8
  let cons := leAt e 0x30 8
  let rangeOk := decide (8 ≤ log2) && decide (log2 ≤ 24)
  let bad := (rg != 0 && !hostRange s rg (if rangeOk then 32 * 2 ^ log2 else 32)) || (prod != 0 && !hostRange s prod 8) ||
    (cons != 0 && !hostRange s cons 16)
  let mb := match s.pkg with | some p => p.mbTokens | none => 0
  if bad then complete q 3 [] s
  else if 15 < src ∨ leAt e 9 1 = 0 ∨ !rangeOk ∨ rg % 32 ≠ 0 ∨ prod % 8 ≠ 0 ∨ cons % 16 ≠ 0 then complete q 0x1A [] s
  else if seqMax < 2 ∨ mb < seqMax then complete q 0x19 [] s
  else if seed = 0 || (List.range 16).any (fun i => i != src && match source s i with
      | some x => x.seed == seed | none => false) then complete q 0x18 [] (logEv 0x0903 (b4 src) s)
  else complete q 0 [] { s with sources := sset srcD s.sources src (some
      { weight := leAt e 9 1, seqMax := seqMax, seed := seed, ring := rg, log2 := log2, prod := prod, cons := cons,
        credit := 0, next := 0, admitted := 0, released := 0 }) }

def execBindSource (q : RingId) (s : State) : Host.Outcome State Fault Refusal :=
  .next (ringCommand q.val 2 (fun e => zeroAt e 0xA 2 && zeroAt e 0x24 4 && zeroAt e 0x38 8)
    (statesRun [.loaded, .planned]) (bindBody q.val) s)

/-! ### PLAN (R219 to R237, R344) -/

def readPins (d : List Byte) (n : Nat) : List (Nat × Nat × Nat) :=
  (List.range n).map fun i => (leAt d (4 * i) 2, leAt d (4 * i + 2) 1, leAt d (4 * i + 3) 1)

/-- PIN_INVALID of R135. -/
def pinsOk (p : Pkg) (pins : List (Nat × Nat × Nat)) : Bool :=
  decide (pins.map fun x => (x.1, x.2.1)).Nodup && pins.all fun (i, r, n) => match p.layers[i]? with
    | some y => decide (r ≤ 2) && steered y r && decide (n ≤ (usedRungs (layerLadder y r)).length)
    | none => false

/-- One pin takes effect: a pinned role moves to its rung with quiet count 0; a released one keeps its rung. -/
def applyPin (x : Nat × Nat × Nat) (s : State) : State :=
  if x.2.2 = 0 then
    let k := pairKey x.1 x.2.1
    let s := setPin x.1 x.2.1 0 s
    { s with cox := { s.cox with released := k :: s.cox.released.filter (· != k) } }
  else setQuiet x.1 x.2.1 0 (setRung x.1 x.2.1 x.2.2 (setPin x.1 x.2.1 x.2.2 s))

/-- The values that a PLAN captures (R428). -/
def captureRegs (s : State) : List (Nat × Word) :=
  capturedRegs.foldl (fun m o => sset regReset m o (regW s o)) []

/-- COX_COMPARE names layers of the package in order (R153). -/
def compareOk (s : State) (p : Pkg) : Bool :=
  let v := reg s 0x601C
  decide (bitsN v 0 14 ≤ bitsN v 16 14) && decide (bitsN v 16 14 < p.layers.length)

/-- The plan's stroke roles (R211, R214): a device already locked keeps its count and lock; the master is locked at once
on the internal reference. -/
def strokeRoles (pl : Plan) (s : State) : State :=
  match pl.positions.find? fun e => e.pos == pl.pos with
  | none => { s with stroke := { s.stroke with noParent := true, master := false } }
  | some e =>
    let locked := if e.master then (if bitN (reg s 0x4000) 0 then s.stroke.locked || decide (16 ≤ s.stroke.inGood) else true)
      else s.stroke.locked
    { s with stroke := { s.stroke with master := e.master, noParent := e.master, parentPort := e.parentPort,
                                       parentSub := e.parentSub, locked := locked, good := 0, bad := 0,
                                       numbered := e.master || s.stroke.numbered } }

/-- A shared-feed pair of the position table is logged (R313). -/
def logShared (pl : Plan) (s : State) : State :=
  forEach (pl.positions.filter (·.shared)) (fun e t => logEv 0x0702 (b4 e.pos ++ b4 e.buddy) t) s

/-- The plan takes effect on this device: its descriptors and programs are written, its routes, flow credits and stroke
roles are those of the plan (R214, R231, R232, R249, R281). -/
def installPlan (pl : Plan) (s : State) : State :=
  let s := { s with plan := some pl }
  let s := forEach (Config.descriptors pl.inputRec pl.pos) (fun x t => memStore (descTable t + 64 * x.1) x.2 t) s
  let s := forEach (Config.programs pl.inputRec pl.pos) (fun x t => memStore x.1 x.2 t) s
  let s := forEach pl.code (fun x t => memStore x.1 (memBytes t (pkgRegion t + x.2.1) x.2.2) t) s
  strokeRoles pl { s with link := { s.link with route := routeTable (amended s) pl.pos, credit := [] } }

/-- A device's part of the INIT contents of tensor `o` at `a`: a weight's or a constant's shard, an owned piece of a moment; the bytes of
the two planes from its first element on. -/
def shardInit (d : List Byte) (a : Nat) (pl : Plan) (i : Nat) (o : TensorDesc) (elems : Nat) : List Byte × List Byte :=
  let rank := match pl.positions.find? fun e => e.pos == pl.pos with | some e => e.rank | none => 0
  let first := if o.kind = 4 then (match pl.pieces.find? fun p => p.m1Tensor == i || p.m2Tensor == i with
    | some p => p.first | none => 0) else shardFirst o pl.t rank
  let at_ := fun (n : Nat) => { o with dims := [n, 1, 1, 1], baxis := if o.baxis = 0xFF then 0xFF else 0 }
  let p0 := fun n => planeBytes (at_ n)
  let p1 := fun n => if fmtOfCode o.fmt = some .tc4 then 32 * ceilDiv (n / max 1 (o.dims.getD o.baxis 1)) 128 else scaleBytes (at_ n)
  (slice d (a + p0 first) (p0 (first + elems) - p0 first), slice d (a + planeBytes o + p1 first) (p1 (first + elems) - p1 first))

/-- The contents of a stored tensor after a PLAN command (R179): INIT contents, else zero. -/
def initTensor (pl : Plan) (pk : Pkg) (d : List Byte) (i : Nat) (t : TensorDesc) (s : State) : State :=
  let s := zeroMem t.plane1 (scaleBytes t) (zeroMem t.plane0 (planeBytes t) s)
  match pk.tensors[i]? with
  | some o =>
    if o.flags % 2 = 0 then s
    else
      let a := pk.initOff + o.initAt
      let parts := if o.dims = t.dims then (slice d a (planeBytes o), slice d (a + planeBytes o) (scaleBytes o))
        else shardInit d a pl i o (elemsOf t.dims)
      memStore t.plane1 parts.2 (memStore t.plane0 parts.1 s)
  | none => s

/-- The stored tensors: weights, moments and constants. -/
def isStored (t : TensorDesc) : Bool := t.kind == 2 || t.kind == 4 || t.kind == 6

/-- A PLAN command's plan in force: stored tensors initialised, p1 and p2 of every optimiser entry 1.0 (R179, R197). -/
def startPlan (pl : Plan) (pk : Pkg) (s : State) : State :=
  let s := installPlan pl (allGroupsOn s)
  let d := memBytes s (pkgRegion s) pk.bytes
  let s := (pl.tensors.zipIdx).foldl (fun t (x, i) => if isStored x || x.flags % 2 == 1 then initTensor pl pk d i x t else t) s
  let ps := (List.range pk.opts.length).map fun i => (i, one32.toNat, one32.toNat)
  { s with run := { opt := ps, copies := pl.copies },
           res := { s.res with restorePending := false, imgStep := none, sinceImage := 0 }, dev := DevState.loaded }

/-- PLAN outside a run: its own checks in order, then the plan, its reply, and the digest exchange (R30 order 4). -/
def planFresh (q : Nat) (mapD : List Byte) (bytes : Nat) (pins : List (Nat × Nat × Nat)) (pk : Pkg) (s : State) : State :=
  if (source s 0).isNone then complete q 0x1A [] s
  else if !pinsOk pk pins then complete q 0x2E [] s
  else if !compareOk s pk then complete q 1 [] s
  else if !(mapForm mapD bytes && linksMatch (parseMap mapD)) || slowPort s (parseMap mapD) then complete q 0x20 [] s
  else if !ownRecordOk s (parseMap mapD) then complete q 0x21 [] s
  else
    let w := { s with captured := captureRegs s, map := parseMap mapD, mapBytes := mapD, failInputs := [],
                      cox := { s.cox with withdrawn := [], flaggedPrev := [] } }
    let w := forEach pins applyPin w
    match makePlan w pk 0 false with
    | (0, some pl) =>
      let w := logShared pl (startPlan pl pk w)
      sendDigest (complete q 0 (pl.planDigest.take 16 ++ b4 pl.fromStep) w)
    | (code, _) => complete q code [] s

/-- PLAN during a run: the map must be the plan's; the request waits for the boundary exchange (R344). -/
def planRunWide (q : Nat) (mapD : List Byte) (pins : List (Nat × Nat × Nat)) (pk : Pkg) (s : State) : State :=
  if mapD ≠ s.mapBytes then complete q 0x2D [] s
  else if !pinsOk pk pins then complete q 0x2E [] s
  else if !compareOk s pk then complete q 1 [] s
  else
    let s := match s.host.rwPlan with
      | some r => complete r.ring 7 [] s
      | none => s
    accept q { s with host := { s.host with rwPlan := some { ring := q, pins := pins, regs := captureRegs s } } }

def planBody (q : Nat) (map pins : HostData) (e : List Byte) (s : State) : State :=
  let mb := leAt e 0x10 4
  let np := leAt e 0x14 2
  if !hostRange s (leAt e 8 8) mb || (np != 0 && !hostRange s (leAt e 0x18 8) (4 * np)) then complete q 3 [] s
  else if map.poison || (np != 0 && pins.poison) then complete q 4 [] s
  else match s.pkg with
    | none => complete q 2 [] s
    | some pk =>
      let d := padTo mb map.bytes
      let ps := readPins pins.bytes np
      if s.dev == .running then planRunWide q d ps pk s else planFresh q d mb ps pk s

def execPlan (q : RingId) (map pins : HostData) (s : State) : Host.Outcome State Fault Refusal :=
  .next (ringCommand q.val 3 (fun e => decide (leAt e 0x14 2 ≤ 16384) && zeroAt e 0x16 2 && zeroAt e 0x20 32)
    (powersUp (statesOk [.loaded, .planned, .running])) (planBody q.val map pins) s)

/-! ### PLAN_READ, READ_STATS -/

/-- PLANNED and every later state (R343). -/
def plannedLater (s : State) : Option Nat := if 4 ≤ devCode s.dev then none else some 2
def loadedLater (s : State) : Option Nat := if 3 ≤ devCode s.dev then none else some 2

def planReadBody (q : Nat) (e : List Byte) (s : State) : State :=
  match s.plan with
  | none => complete q 2 [] s
  | some pl =>
    let img := planImage s pl
    let fits := decide (img.length ≤ leAt e 0x10 8)
    if !hostRange s (leAt e 8 8) (if fits then img.length else 1) then complete q 3 [] s
    else complete q 0 (b8 img.length) (if fits then emit (.hostWrite (leAt e 8 8) img) s else s)

def execPlanRead (q : RingId) (s : State) : Host.Outcome State Fault Refusal :=
  .next (ringCommand q.val 4 (fun e => zeroAt e 0x18 40) plannedLater (planReadBody q.val) s)

/-- A slot record as its 32 bytes (R192). -/
def slotBytes (r : SlotRec) : List Byte :=
  leBytes 1 r.source ++ leBytes 1 r.state ++ leBytes 2 r.mb ++ leBytes 4 r.step ++ leBytes 8 r.sample ++ leBytes 4 r.length ++
    leBytes 4 r.fetched ++ leBytes 8 (r.use % 2 ^ 36)

/-- The records that READ_STATS selects from: step and record images. -/
def statsRows (s : State) (kind age : Nat) : Nat × List (List Byte) :=
  if kind = 2 then (stepField s, (List.range 4096).map fun i => slotBytes (slot s i))
  else match s.cox.history[age]? with
    | none => (0xFFFFFFFF, [])
    | some (n, recs) =>
      let l := if kind = 0 then recs.mergeSort (fun a b => decide (a.tensor ≤ b.tensor))
        else pairRecords recs (match s.pkg with | some p => pairs p | none => [])
      (n, l.map recBytes)

def readStatsBody (q : Nat) (e : List Byte) (s : State) : State :=
  let (n, rows) := statsRows s (leAt e 8 1) (leAt e 9 1)
  let sel := (rows.drop (leAt e 0xC 4)).take (leAt e 0x10 4)
  let bytes := sel.flatten
  let dest := leAt e 0x18 8
  if !hostRange s dest (max 1 bytes.length) then complete q 3 [] s
  else complete q 0 (b4 n ++ b4 sel.length) (if bytes.isEmpty then s else emit (.hostWrite dest bytes) s)

def execReadStats (q : RingId) (s : State) : Host.Outcome State Fault Refusal :=
  .next (ringCommand q.val 0x20 (fun e => decide (leAt e 8 1 ≤ 2) && decide (leAt e 9 1 ≤ 15) && zeroAt e 0xA 2 &&
    zeroAt e 0x14 4 && zeroAt e 0x20 32) loadedLater (readStatsBody q.val) s)

/-! ### START, STEP, PAUSE, SECURE (R209, R344, R345) -/

/-- A device whose digest exchange is done and whose stroke edge is locked sets its ready bit (R209). -/
def setReady (s : State) : State :=
  if s.host.startRing.isSome && s.stroke.locked && !s.run.ready then
    { s with run := { s.run with ready := true }, dev := .starting }
  else s

/-- START or STEP is accepted with hold limit `l` and the ring of the step replies. -/
def beginStart (q runRing l : Nat) (s : State) : State :=
  setReady (accept q { s with host := { s.host with startRing := some q, runRing := runRing },
                              run := { s.run with limit := l, startAt := none } })

/-- The states of START and the codes outside them (R343, R345). -/
def startState (s : State) : Option Nat :=
  match s.dev with
  | .planned => none
  | .held => none
  | .restored => some 0x32
  | .idle => some 0x2C
  | .loaded => some (if s.plan.isSome && s.link.digestDone && !s.link.digestOk then 0x2B else 0x2C)
  | _ => some 2

def execStart (q : RingId) (s : State) : Host.Outcome State Fault Refusal :=
  .next (ringCommand q.val 0x10 (fun e => decide (leAt e 8 1 ≤ 63) && zeroAt e 9 3 && zeroAt e 0x10 48) startState
    (fun e s => beginStart q.val (leAt e 8 1) (leAt e 0xC 4) s) s)

/-- The last committed step plus COUNT; before the first commit the last step counts as -1. -/
def stepLimit (s : State) (count : Nat) : Nat := match s.run.last with | some n => n + count | none => count - 1

def execStep (q : RingId) (s : State) : Host.Outcome State Fault Refusal :=
  .next (ringCommand q.val 0x11 (fun e => decide (leAt e 8 1 ≤ 63) && zeroAt e 9 3 && decide (1 ≤ leAt e 0xC 4) && zeroAt e 0x10 48)
    (statesOk [.held]) (fun e s =>
      let l := stepLimit s (leAt e 0xC 4)
      if 2 ^ 32 ≤ l then complete q.val 0x30 [] s else beginStart q.val (leAt e 8 1) l s) s)

/-- STARTING ends without a start: the ready bit is cleared and the START or STEP completes with a code. -/
def cancelStart (code : Nat) (s : State) : State :=
  let back := if s.run.heldCause ≠ 0 then DevState.held else .planned
  let s1 := { s with run := { s.run with ready := false, startAt := none }, dev := back }
  match s1.host.startRing with
  | some q => complete q code [] { s1 with host := { s1.host with startRing := none } }
  | none => s1

/-- A run ends: the device is PLANNED; weights, moments, p1 and p2 and the slots' use counts stay (R349). The next START
begins a new run at step 0 with every source credit 0 (R190). -/
def endRun (s : State) : State :=
  let uses := s.adm.slots.filterMap fun x =>
    if x.2.use = 0 then none else some (x.1, { slotD 0 with use := x.2.use })
  { s with run := { opt := s.run.opt, copies := s.run.copies }, adm := { slots := uses },
           sources := (s.sources.map fun x => (x.1, x.2.map fun y => { y with credit := 0 })),
           red := { scalesKnown := false }, host := { s.host with attnHeld := false, lost := false, lostRequest := false },
           res := { s.res with path := 0 }, dev := .planned }

/-- PAUSE in STARTING takes the start back at once; END then ends a held run. -/
def pauseBody (q : Nat) (e : List Byte) (s : State) : State :=
  if s.dev == .starting && s.run.startAt.isNone then
    let last := lastStep s
    let s := cancelStart 8 s
    complete q 0 last (if leAt e 8 1 = 1 && s.run.heldCause ≠ 0 then endRun s else s)
  else accept q { s with host := { s.host with rwPause := s.host.rwPause ++ [(q, leAt e 8 1 == 1)] } }

def execPause (q : RingId) (s : State) : Host.Outcome State Fault Refusal :=
  .next (ringCommand q.val 0x12 (fun e => decide (leAt e 8 1 ≤ 1) && zeroAt e 9 55) (statesOk [.starting, .running])
    (pauseBody q.val) s)

def execSecure (q : RingId) (s : State) : Host.Outcome State Fault Refusal :=
  .next (ringCommand q.val 0x18 (fun e => zeroAt e 8 56) (statesOk [.running])
    (fun _ s => accept q.val { s with host := { s.host with rwSecure := s.host.rwSecure ++ [q.val] } }) s)

/-! ### SNAPSHOT (R386, R387) -/

def snapReply (late : Bool) (s : State) : List Byte :=
  b4 s.cnt.seq ++ b4 (b2n late) ++ b8 s.cnt.stroke ++ b4 s.cnt.cycle

def snapshotBody (q : Nat) (e : List Byte) (s : State) : State :=
  let at_ := leAt e 9 1 == 1
  let st := leAt e 0x10 8
  if at_ && decide (s.stroke.count < st) then
    if 16 ≤ s.cnt.pending.length then complete q 2 [] s
    else accept q { s with cnt := { s.cnt with pending := s.cnt.pending ++ [{ ring := q, clear := leAt e 8 1, stroke := st }] } }
  else
    let s := takeSnapshot (leAt e 8 1) s
    complete q 0 (snapReply at_ s) s

def execSnapshot (q : RingId) (s : State) : Host.Outcome State Fault Refusal :=
  .next (ringCommand q.val 0x21 (fun e => decide (leAt e 8 1 < 32) && decide (leAt e 9 1 ≤ 1) && zeroAt e 0xA 6 &&
    decide (leAt e 0x10 8 < 2 ^ 48) && zeroAt e 0x18 40) workState (snapshotBody q.val) s)

/-! ### TRACE_CTL (R392, R393) -/

def isPow2 (n : Nat) : Bool := n != 0 && n == 2 ^ Nat.log2 n

/-- The encodings of TRACE_CTL (R17, R392). A stop holds to the reserved encodings of MODE, CAP and TYPES too; its CAP may be 0, and
DEST, BYTES and CORES are not read (DESIGN CHOICE, log entry 133). -/
def traceEncOk (e : List Byte) : Bool :=
  let dest := leAt e 0x10 8
  let bytes := leAt e 0x18 8
  decide (leAt e 8 1 ≤ 1) && zeroAt e 0xB 1 && zeroAt e 0x2C 20 && decide (leAt e 9 1 ≤ 1) && decide (leAt e 0xA 1 ≤ 16) &&
    decide (leAt e 0xC 4 < 2048) &&
    (leAt e 8 1 == 0 || (decide (1 ≤ leAt e 0xA 1) &&
      isPow2 bytes && decide (2 ^ 16 ≤ bytes) && decide (bytes ≤ 2 ^ 36) && dest % bytes == 0))

/-- DEST lies in the trace region, with at most 256 MiB, or in a host window. -/
def traceDestOk (s : State) (dest bytes : Nat) : Bool :=
  (decide (traceRegion s ≤ dest) && decide (dest + bytes ≤ pkgRegion s)) ||
    ((devToHost s dest).isSome && (devToHost s (dest + bytes - 1)).isSome)

def traceSession (e : List Byte) : TraceSession :=
  { mode := leAt e 9 1, cap := leAt e 0xA 1, types := leAt e 0xC 4, dest := leAt e 0x10 8, bytes := leAt e 0x18 8,
    cores := leAt e 0x20 12, drained := 0, dropped := 0, last := 95 }

def traceEmpty (s : State) : Bool := s.trace.bufs.all fun x => x.2.recs.isEmpty

/-- The ended session's counts are replied; the next session, if any, starts at its ring's first byte. -/
def traceSwitch (q : Nat) (next : Option TraceSession) (s : State) : State :=
  let (d, x) := match s.trace.session with | some t => (t.drained, t.dropped) | none => (0, 0)
  let wp := match next with | some _ => 0 | none => s.trace.wptr
  complete q 0 (b8 d ++ b8 x) { s with trace := { s.trace with session := next, waiting := none, wptr := wp, bufs := [] } }

def traceCtlBody (q : Nat) (e : List Byte) (s : State) : State :=
  let start := leAt e 8 1 == 1
  if start && !traceDestOk s (leAt e 0x10 8) (leAt e 0x18 8) then complete q 3 [] s
  else
    let next := if start then some (traceSession e) else none
    if s.trace.session.isSome && !traceEmpty s then
      accept q { s with trace := { s.trace with waiting := some { ring := q, next := next } } }
    else traceSwitch q next s

def execTraceCtl (q : RingId) (s : State) : Host.Outcome State Fault Refusal :=
  .next (ringCommand q.val 0x22 traceEncOk workState (traceCtlBody q.val) s)

/-! ### COPY (R258, R265, R346) -/

/-- Every byte of a destination may be written: it exists, is not always-on memory, and lies in no closed region. -/
def destOk (s : State) (a n : Nat) : Bool :=
  (List.range n).all fun i => !closedTo s (a + i) && match memRegion s (a + i) with
    | none => false | some .aon => false | some _ => true

/-- Store bytes at a device address, poisoned or not: into host memory through a window, else into device memory. -/
def storeBytes (a : Nat) (l : List Byte) (poison : Bool) (s : State) : State := countRange true a l.length (deliver a l poison s)

/-- Bytes read at a device address; those of a host window come with the command. -/
def loadBytes (s : State) (a n : Nat) (data : HostData) : List Byte :=
  match devToHost s a with
  | some _ => padTo n data.bytes
  | none => memBytes s a n

def copyStates (s : State) : Option Nat :=
  if (2 ≤ devCode s.dev && devCode s.dev ≤ 7) || s.dev == .stopped then none else some 2

/-- The transfers of a COPY (R258): offset and length. -/
def copyCuts (s : State) (src dst : Nat) : Nat → Nat → Nat → List (Nat × Nat)
  | 0, _, _ => []
  | f + 1, off, left =>
    if left = 0 then []
    else
      let n := min left (min (unitRoom s (src + off)) (unitRoom s (dst + off)))
      (off, n) :: copyCuts s src dst f (off + n) (left - n)

/-- What a read of a COPY's transfer finds: the first outcome that lies in it. -/
def foundIn (found : List (Nat × EccOutcome)) (x : Nat × Nat) : Nat × EccOutcome :=
  (found.find? fun y => decide (x.1 ≤ y.1) && decide (y.1 < x.1 + x.2)).getD (x.1, .clean)

/-- Count a read of a COPY's transfer, at its source and where its error lies. -/
def copyRead (src : Nat) (y x : Nat × Nat) (o : EccOutcome) (dst : Nat) (s : State) : State :=
  countBytes false (src + x.1) x.2 (dst + x.1) (readCount (src + y.1) (x.1 + x.2 - y.1) o s)

/-- One transfer of a COPY of `bytes`, and its reason: a read's, or that of a write that stores nothing. -/
def copyMove (src dst : Nat) (data : HostData) (bytes : List Byte) (found : List (Nat × EccOutcome)) (x : Nat × Nat)
    (z : State × Bool) : State × Bool :=
  let s := z.1
  let y := foundIn found x
  let r := if isHostAddr (src + x.1) then (if data.poison then 5 else 0)
    else if memReason s (src + x.1) x.2 != 0 then memReason s (src + x.1) x.2 else readReason s (src + y.1) 1 y.2
  let w := if isHostAddr (dst + x.1) then 0 else writeReason s (dst + x.1) x.2
  let s := copyRead src (y.1, 0) x y.2 dst s
  if w != 0 then (countPoison w s, true)
  else (countBytes true (dst + x.1) x.2 (src + x.1)
    (deliver (dst + x.1) (slice bytes x.1 x.2) (r != 0) (countPoison r s)), z.2 || r != 0)

/-- STM_REFUSED of a host command: no descriptor and no core names it; the case is that of an address (DESIGN CHOICE, log 136). -/
def refuseHost (s : State) : State := logEv 0x0503 (b4 0xFFFFFFFF ++ b4 0xFFFFFFFF ++ b4 5) (bump (cntDev 23) 1 s)

def copyBody (q : Nat) (data : HostData) (found : List (Nat × EccOutcome)) (e : List Byte) (s : State) : State :=
  let src := leAt e 8 8
  let dst := leAt e 0x10 8
  let n := leAt e 0x18 8
  if runActive s && !(isHostAddr dst || (decide (traceRegion s ≤ dst) && decide (dst + n ≤ pkgRegion s))) then complete q 6 [] s
  else if memReason s src n == 4 || !destOk s dst n then complete q 5 [] (refuseHost s)
  else
    let z := (copyCuts s src dst n 0 n).foldl (fun z x => copyMove src dst data (loadBytes s src n data) found x z) (s, false)
    complete q (if z.2 then 4 else 0) [] z.1

def execCopy (q : RingId) (data : HostData) (found : List (Nat × EccOutcome)) (s : State) : Host.Outcome State Fault Refusal :=
  .next (ringCommand q.val 0x30 (fun e => decide (1 ≤ leAt e 0x18 8) && decide (leAt e 0x18 8 ≤ 2 ^ 40) && zeroAt e 0x20 32)
    copyStates (copyBody q.val data found) s)

/-! ### FW_WRITE (R398, R399, R403 to R405) -/

/-- Item 1 of R399: MAGIC, VERSION and BODY_BYTES are valid, the fields lie in their ranges, the zero fields are zero. -/
def imageHeaderOk (d : List Byte) : Bool :=
  decide (leAt d 0 4 = 0x57463246) && decide (leAt d 4 2 = 1) && decide (leAt d 6 1 ≤ 3) && decide (leAt d 7 1 ≤ 64) &&
    decide (leAt d 8 1 < 16) && zeroAt d 9 3 && zeroAt d 0x12 2 && decide (1 ≤ leAt d 0x14 4) && decide (leAt d 0x14 4 ≤ 16773120) &&
    zeroAt d 0x18 8 && zeroAt d 0xE8 24 && zeroAt d 0xC6C 916

/-- A firmware image read from its bytes: the header's fields, M (bytes 0x000 to 0x0FF) and the checks of R399. -/
def parseImage (d : List Byte) : FwImage :=
  let m := slice d 0 256
  { formOk := imageHeaderOk d, slot := leAt d 6 1, svn := leAt d 7 1, revoke := leAt d 8 1, fwVersion := leAt d 0xC 4,
    planner := leAt d 0x10 2, bodyBytes := leAt d 0x14 4, keyHash := digestOf (sha384 (slice d 0x50 152)),
    ecdsaOk := Config.ecdsaVerify (slice d 0x50 96) (sha384 m) (slice d 0x100 96),
    lmsOk := Config.lmsVerify (slice d 0xB0 56) m (slice d 0x160 2828),
    digestOk := sha384 (slice d 4096 (leAt d 0x14 4)) == slice d 0x20 48, mDigest := digestOf (sha384 m),
    bodyDigest := digestOf (slice d 0x20 48) }

/-- The image verifies under R399 but for its security version. -/
def imageVerifies (s : State) (i : FwImage) : Bool :=
  i.formOk && keyOk s i && i.ecdsaOk && i.lmsOk && i.digestOk

/-- The image passes through the staging region (R249, R404); in recovery LPDDR5X is not up (R403). -/
def stageImage (d : List Byte) (s : State) : State := if s.dev == .recovery then s else memStore (staging s) d s

/-- A verified image replaces the one in the store: counted, logged, and the lifetime record written (R404, R411). -/
def storeImage (q : Nat) (i : FwImage) (s : State) : State :=
  let s := lifeWrite (lifeAdd 0x48 8 1 { s with flash := { s.flash with image := i, valid := true }, boot := { s.boot with first := true } })
  let s := logEv 0x0A03 (b4 i.fwVersion ++ b4 i.svn ++ b4 i.slot) s
  complete q 0 (b4 i.fwVersion ++ leBytes 1 i.svn ++ leBytes 1 i.slot ++ leBytes 2 0 ++ leBytes 2 i.planner) s

/-- The checks of R404 on an image of `bytes`, in order, and its store; in recovery a full reset follows the reply (R403). -/
def fwChecks (q bytes : Nat) (i : FwImage) (d : List Byte) (s : State) : State :=
  if bytes ≠ 4096 + i.bodyBytes ∨ bytes < 4097 ∨ 2 ^ 24 < bytes then complete q 0x42 [] s
  else if !imageVerifies s i then complete q 0x40 [] (stageImage d s)
  else if i.svn < svnCount s then complete q 0x41 [] (stageImage d s)
  else if s.dev == .recovery then resetAndBoot (storeImage q i s)
  else storeImage q i (stageImage d s)

def fwBody (q : Nat) (data : HostData) (e : List Byte) (s : State) : State :=
  let bytes := leAt e 0x10 8
  if !hostRange s (leAt e 8 8) bytes then complete q 3 [] s
  else if data.poison then complete q 4 [] s
  else
    let d := if bytes ≤ 2 ^ 24 then padTo bytes data.bytes else []
    fwChecks q bytes (parseImage d) d s

def execFwWrite (q : RingId) (data : HostData) (s : State) : Host.Outcome State Fault Refusal :=
  .next (ringCommand q.val 0x31 (fun e => zeroAt e 0x18 40) (statesRun [.idle, .loaded, .planned, .recovery, .stopped])
    (fwBody q.val data) s)

end Sys2Proof.Machine
end

