-- ==== Sys2Proof/Machine/Operands.lean ====
section
/-! DEFINITION. Core instructions: fields of the instruction word (R161 to R168), operand addresses and their checks
(R159, R170, R173), issue (R157, R169), completion and waits (R158, R167), operand elements of the vector and exact
units (R163), and the feed and output descriptors (R162). -/

namespace Sys2Proof.Machine

open Sys2Proof

/-! ### Checks of the instruction word -/

/-- The operations of each class (R162 to R168). -/
def knownOp (cls op : Nat) : Bool :=
  (cls == 1 && decide (op ≤ 2)) || (cls == 2 && decide (op ≤ 0x12)) || (cls == 3 && decide (op ≤ 0x0A)) ||
    (cls == 4 && decide (op ≤ 7)) || (cls == 5 && decide (op ≤ 3)) || (cls == 6 && decide (op ≤ 5)) ||
    (cls == 7 && decide (op ≤ 6))

/-- Every bit from 24 up that no field of `l` (position, width) covers is zero, and so is the header's reserved field. -/
def onlyBits (w : InstrWord) (l : List (Nat × Nat)) : Bool :=
  iF w 11 5 == 0 && (List.range 104).all fun i =>
    !bitN w.toNat (i + 24) || l.any fun f => decide (f.1 ≤ i + 24) && decide (i + 24 < f.1 + f.2)

/-- The least cause of a list, 0 for none. -/
def leastCause (l : List Nat) : Nat :=
  l.foldl (fun a x => if x = 0 then a else if a = 0 then x else min a x) 0

def causeIf (b : Bool) (n : Nat) : Nat := if b then n else 0

/-! ### Thread registers (R159) -/

def aReg (s : State) (c t n : Nat) : Nat := sget natD (thread s c t).a n
def sReg (s : State) (c t n : Nat) : Nat := if n = 0 then 0 else sget natD (thread s c t).s n
def setA (c t n v : Nat) (s : State) : State :=
  modThread c t (fun T => { T with a := sset natD T.a n (v % 2 ^ 32) }) s
/-- Writes to s0 are discarded. -/
def setS (c t n v : Nat) (s : State) : State :=
  if n = 0 then s else modThread c t (fun T => { T with s := sset natD T.s n (v % 2 ^ 64) }) s
/-- An operand address: a[n] + offset modulo 2^32 (R159). -/
def opAddr (s : State) (c t n off : Nat) : Nat := (aReg s c t n + off) % 2 ^ 32

/-! ### Custom threads (R173) -/

def isCustom (s : State) (c t : Nat) : Bool := bitN (reg s (thrReg c t 0)) 3
def boundLo (s : State) (c t : Nat) : Nat := reg s (thrReg c t 8)
def boundHi (s : State) (c t : Nat) : Nat := reg s (thrReg c t 0xC)
def inKRange (s : State) (c t k : Nat) : Bool :=
  decide (bitsN (reg s (thrReg c t 0x10)) 0 8 ≤ k) && decide (k ≤ bitsN (reg s (thrReg c t 0x10)) 8 8)

/-- The cause that a list of operands (address, bytes, alignment) gives: 0x03, or 0x04 outside a custom thread's bounds. -/
def rangeCause (s : State) (c t : Nat) (l : List (Nat × Nat × Nat)) : Nat :=
  if l.any fun x => x.1 % x.2.2 != 0 || decide (0x100000 ≤ x.1) || decide (0x100000 < x.1 + x.2.1) then 3
  else if isCustom s c t && l.any fun x => decide (x.1 < boundLo s c t) || decide (boundHi s c t < x.1 + x.2.1) then 4
  else 0
/-- The cause of a completion counter outside a custom thread's range. -/
def cntCause (s : State) (c t : Nat) (w : InstrWord) : Nat :=
  causeIf (iCntEn w && isCustom s c t && !inKRange s c t (iCnt w)) 4

/-! ### Faults of a thread (R170) -/

/-- The thread enters FAULTED; the cause is counted; in a run the core's fault flag is set; a custom program's fault is
logged and sets attention class 6. -/
def faultThread (c t cause : Nat) (s : State) : State :=
  let pc := (thread s c t).pc
  let prog := (thread s c t).prog
  let s := modThread c t (fun T => { T with state := .faulted, wait := .none, cause := cause, faultPc := pc }) s
  let s := traceRec c t 6 cause pc 0 (bump (cntCore c (31 + cause)) 1 s)
  let s := if inRun s then modCore c (fun C => { C with fault := true }) s else s
  if isCustom s c t then
    let id := match s.pkg, prog with
      | some p, some i => (p.progs[i]?.map (·.id)).getD 0
      | _, _ => 0
    attn 6 (logEv 0x0201 (b4 id ++ b4 cause ++ b4 pc) s)
  else s

/-! ### Issue (R157, R160) -/

def progAddr (s : State) (c t : Nat) : Nat := reg s (coreWindow c + 4) + 16 * (thread s c t).pc

/-- The thread's PC points beyond the scratch. -/
def pcBeyond (s : State) (c t : Nat) : Bool := decide (0xFFFF0 < progAddr s c t)

/-- The core's group is on and no power-down of it waits (R359, R365). -/
def coreOn (s : State) (c : Nat) : Bool :=
  group s (groupOf s c) == .p0 && !s.pwr.draining.contains (groupOf s c) && !s.pwr.draining.contains 12

/-- The thread is ready and `w` is the instruction at its PC. -/
def canIssue (s : State) (c t : Nat) (w : InstrWord) : Bool :=
  decide (c < enabledCores s) && !coreDark s c && coreOn s c && (thread s c t).state == .running && (thread s c t).wait == .none &&
    (pcBeyond s c t || scrBytes s c (progAddr s c t) 16 == leBytes 16 w.toNat)

/-- The next issue slot of a thread (R157): the slot of cycle c belongs to thread c mod 32. -/
def slotCycle (s : State) (c t : Nat) : Nat :=
  let n := coreCycle s c + 1
  n + (t + 32 - n % 32) % 32

/-- The core's cycle count of the stroke. -/
def setCycle (c n : Nat) (s : State) : State := modCore c (fun C => { C with cycle := n }) s

/-- The thread goes on to the next instruction; the issue is counted and a custom program's first issue starts its
measured span (R175). -/
def advance (c t : Nat) (s : State) : State :=
  let now := slotCycle s c t
  bump (cntCore c 23) 1 (modThread c t (fun T =>
    { T with pc := (T.pc + 1) % 2 ^ 16, measured := if T.measured = 0 then now else T.measured })
    (setCycle c now s))

/-- Issue `w` as operation `op` of class `cls`: `cause` is the check of the class, `full` says that its unit's queue has
no room, `body` the effect after the thread has gone on. -/
def issue (c t : Nat) (w : InstrWord) (cls op : Nat) (cause : State → Nat) (full : State → Bool)
    (body : State → State) (s : State) : State :=
  if !canIssue s c t w then s
  else if pcBeyond s c t || !knownOp (iClass w) (iOp w) then faultThread c t 1 s
  else if iClass w != cls || iOp w != op then s
  else if cause s != 0 then faultThread c t (cause s) s
  else if full s then bump (cntCore c 24) 1 s
  else body (advance c t s)

/-! ### Completion counters and waits (R158, R167) -/

def kGet (s : State) (c k : Nat) : Nat := sget natD (core s c).k k
/-- (k − v) as a signed 32-bit number is 0 or more. -/
def reached (k v : Nat) : Bool := decide (0 ≤ sInt 32 (k % 2 ^ 32 + 2 ^ 32 - v % 2 ^ 32))

/-- Every thread of the mask is in a BAR with that mask. -/
def barMet (C : CoreSt) (mask : Nat) : Bool :=
  (List.range 32).all fun i => !bitN mask i || (sget thrD C.threads i).wait == .barrier mask

def waitMet (C : CoreSt) (slot : Nat) (T : Thread) : Bool :=
  match T.wait with
  | .none => false
  | .counter k v => reached (sget natD C.k k) v
  | .barrier mask => barMet C mask
  | .stroke v => decide (v ≤ slot)
  | .drain => T.outstanding == 0
  | .ovfx _ _ => false
  | .mov => false

/-- The threads of a core after those whose wait is met run on. -/
def wokenThreads (C : CoreSt) (slot : Nat) : List (Nat × Thread) :=
  (List.range 32).foldl (fun (m : List (Nat × Thread)) i =>
    if waitMet C slot (sget thrD C.threads i) then
      smod thrD m i (fun T => { T with state := .running, wait := .none })
    else m) C.threads

/-- Threads whose wait is met run on. -/
def wakeCore (c : Nat) (s : State) : State :=
  modCore c (fun C => { C with threads := wokenThreads C s.stroke.slot }) s

/-- A thread waits; a wait that is already met ends at once. -/
def waitFor (c t : Nat) (x : ThrWait) (s : State) : State :=
  wakeCore c (modThread c t (fun T => { T with state := .waiting, wait := x }) s)

def kAdd (c k n : Nat) (s : State) : State :=
  modCore c (fun C => { C with k := smod natD C.k k fun v => (v + n) % 2 ^ 32 }) s

/-- A custom program has run on a core when each of its threads has halted with nothing outstanding: the span is
compared with W (R175). -/
def overrun (c t : Nat) (s : State) : State :=
  match s.pkg, (thread s c t).prog with
  | some p, some i =>
    let mine := (List.range 32).filter fun u => (thread s c u).prog == some i
    if (thread s c t).measured != 0 && mine.all fun u =>
        (thread s c u).state == .halted && (thread s c u).outstanding == 0 then
      let first := mine.foldl (fun m u => let x := (thread s c u).measured; if x = 0 then m else min m x) (2 ^ 64)
      let span := coreCycle s c + 1 - first
      let s1 := mine.foldl (fun st u => modThread c u (fun T => { T with measured := 0 }) st) s
      match p.progs[i]? with
      | some h =>
        if h.w < span then
          traceRec c t 7 h.id h.w span (logEv 0x0202 (b4 h.id ++ b8 h.w ++ b8 span) (bump (cntCore c 40) 1 s1))
        else s1
      | none => s1
    else s
  | _, _ => s

/-- An asynchronous instruction begins: it is outstanding until it completes. -/
def asyncBegin (c t : Nat) (s : State) : State :=
  modThread c t (fun T => { T with outstanding := T.outstanding + 1 }) s

/-- An asynchronous instruction of a thread completes (R158). -/
def asyncDone (c t : Nat) (cntEn : Bool) (cnt : Nat) (s : State) : State :=
  let s := modThread c t (fun T => { T with outstanding := T.outstanding - 1 }) s
  overrun c t (wakeCore c (if cntEn then kAdd c cnt 1 s else s))

/-- Poison reaches a core (R253): it is counted and traced, and in a run the core's poison flag is set. -/
def corePoison (c reason addr : Nat) (s : State) : State :=
  let s := traceRec c 0 8 reason addr 0 (bump (cntCore c 42) 1 s)
  if inRun s then modCore c (fun C => { C with poison := true }) s else s

/-! ### Operands and the tensors of the plan (R44, R50, R103) -/

/-- The tensor that operand `k` of the instruction at `pc` belongs to, and the tensor's first element along the block axis in
it: 0 the stationary operand or A, 1 the stream operand or B, 2 D. -/
def operandOf (s : State) (c pc k : Nat) : Nat × Nat :=
  match s.plan with
  | some p => Config.operand p.inputRec p.pos c pc k
  | none => (0xFFFFFFFF, 0)

/-- The exponent of an INT8 or INT4 operand: its tensor's (R44). -/
def operandTexp (s : State) (c pc k : Nat) : Int :=
  match planTensor s (operandOf s c pc k).1 with
  | some d => sInt 8 d.texp
  | none => Config.looseTexp c pc k

/-- Elements along the block axis, of `n`, that are no padding (R50, R103). -/
def operandReal (s : State) (c pc k : Nat) (f : Fmt) (n : Nat) : Nat :=
  match planTensor s (operandOf s c pc k).1 with
  | some d => if isMx f then min n (axisExtent d.dims d.baxis - (operandOf s c pc k).2) else n
  | none => n

/-! ### Operand elements (R163) -/

/-- Bytes that `n` elements of a format occupy, scale bytes of an MX format included, which follow the elements. -/
def elemBytes (f : Fmt) (n : Nat) : Nat :=
  if isMx f then ceilDiv n 32 * (4 * fmtWidth f) + ceilDiv n 32 else ceilDiv (n * fmtWidth f) 8

/-- `n` elements at a scratch offset as values; `texp` is the exponent of an integer format. -/
def elemVals (s : State) (c : Nat) (f : Fmt) (texp : Int) (addr n : Nat) : List Val :=
  let plane := ceilDiv n 32 * (4 * fmtWidth f)
  let codes := unpackCodes (fmtWidth f) n (scrBytes s c addr (if isMx f then plane else ceilDiv (n * fmtWidth f) 8))
  if isMx f then
    codes.zipIdx.map fun x => mxVal f (memByte s (scratchAddr c (addr + plane + x.2 / 32))).toNat x.1
  else codes.map (plainVal f texp)

/-- `n` W42 containers at a scratch offset (R99). -/
def w42Codes (s : State) (c addr n : Nat) : List Nat :=
  (List.range n).map fun i => w42OfBytes (scrBytes s c (addr + 8 * i) 8)

/-- `n` INT32 values at a scratch offset. -/
def int32s (s : State) (c addr n : Nat) : List Int :=
  (List.range n).map fun i => sInt 32 (leNat (scrBytes s c (addr + 4 * i) 4))

/-- Writes of a unit into scratch end at the scratch's last byte. -/
def unitWrite (c off : Nat) (l : List Byte) (s : State) : State :=
  if 0x100000 ≤ off then s else scrWrite c off (l.take (0x100000 - off)) s
def unitPoison (c off n : Nat) (s : State) : State :=
  if 0x100000 ≤ off then s else memPoison (scratchAddr c off) (min n (0x100000 - off)) s
/-- Write, or store as poison when the data is. -/
def unitStore (c off : Nat) (poison : Bool) (l : List Byte) (s : State) : State :=
  if poison then unitPoison c off l.length (unitWrite c off l s) else unitWrite c off l s

/-! ### Descriptors (R162) -/

/-- The output descriptor. -/
structure OutDesc where
  dest : Nat
  dscale : Nat
  res : Nat
  rscale : Nat
  tensor : Nat
  fmt : Nat
  pass : Bool
  axis : Bool
  ovfMode : Bool
  ovfChk : Bool
  texp : Int
  satTol : Nat
  inst : Nat
  stride : Nat
  deriving DecidableEq, Repr

def readOut (s : State) (c addr : Nat) : OutDesc :=
  let b := scrBytes s c addr 32
  let fl := leAt b 0x15 1
  { dest := leAt b 0 4, dscale := leAt b 4 4, res := leAt b 8 4, rscale := leAt b 0xC 4, tensor := leAt b 0x10 4,
    fmt := leAt b 0x14 1, pass := bitN fl 0, axis := bitN fl 1, ovfMode := bitN fl 2, ovfChk := bitN fl 3,
    texp := sInt 8 (leAt b 0x16 1), satTol := leAt b 0x18 4, inst := leAt b 0x1C 2, stride := leAt b 0x1E 2 }

/-- A format that an output converter writes. -/
def outFmtOk (code : Nat) : Bool := decide (1 ≤ code) && decide (code ≤ 13)

/-- The planes that `nr` rows of `nc` values fill through an output descriptor (R49, R67, R104): offset, bytes, alignment. -/
def outPlanes (d : OutDesc) (nr nc : Nat) : List (Nat × Nat × Nat) :=
  let n := if d.axis && !d.pass then nc else nr
  let len := if d.axis && !d.pass then nr else nc
  let plane := fun (base bytes : Nat) => (base, (n - 1) * (if d.stride = 0 then bytes else 16 * d.stride) + bytes, 1)
  if d.pass then [plane d.dest (8 * len)]
  else match fmtOfCode d.fmt with
    | some f =>
      let bytes := if isMx f then ceilDiv len 32 * (4 * fmtWidth f) else ceilDiv (len * fmtWidth f) 8
      let scales := fun (base : Nat) => if isMx f then [(base, n * ceilDiv len 32, 1)] else []
      [plane d.dest bytes] ++ scales d.dscale ++
        (if d.res = 0xFFFFFFFF then [] else [plane d.res bytes] ++ scales d.rscale)
    | none => []

/-- The scale planes' offsets are 0 where the output has no scales (R162). -/
def dscaleOk (d : OutDesc) : Bool :=
  d.dscale == 0 || (!d.pass && match fmtOfCode d.fmt with
    | some f => isMx f
    | none => true)

/-- The cause that the contents of an output descriptor give for `nr` rows of `nc` values: reserved bits, a format that no
output converter writes, planes outside the scratch or the thread's bounds. -/
def outCause (s : State) (c t addr nr nc : Nat) : Nat :=
  let b := scrBytes s c addr 32
  let d := readOut s c addr
  leastCause [causeIf (decide (16 ≤ leAt b 0x15 1) || leAt b 0x17 1 != 0 || !dscaleOk d) 2,
    causeIf (!d.pass && !outFmtOk d.fmt) 8, rangeCause s c t (outPlanes d nr nc)]

/-- The feed descriptor. -/
structure FeedDesc where
  ring : Nat
  words : Nat
  sring : Nat
  runStart : Bool
  texp : Int
  deriving DecidableEq, Repr

def readFeed (s : State) (c addr : Nat) : FeedDesc :=
  let b := scrBytes s c addr 16
  { ring := leAt b 0 4, words := leAt b 4 4, sring := leAt b 8 4, runStart := bitN (leAt b 0xC 4) 0,
    texp := sInt 8 (leAt b 0xD 1) }

/-- The cause that the contents of a feed descriptor give for a stream format. -/
def feedCause (s : State) (c t addr : Nat) (f : Fmt) : Nat :=
  let b := scrBytes s c addr 16
  let d := readFeed s c addr
  leastCause [causeIf (d.words == 0 || leAt b 0xC 4 % 256 / 2 != 0 || leAt b 0xE 2 != 0 || (!isMx f && d.sring != 0)) 2,
    rangeCause s c t ([(d.ring, d.words * 16 * fmtWidth f, 1)] ++ (if isMx f then [(d.sring, d.words * 4, 1)] else []))]

end Sys2Proof.Machine
end

