-- ==== Sys2Proof/Machine/Flags.lean ====
section
/-! DEFINITION. Statuses that instructions leave: the overflow test of a layer instance (R141, R172) and what an output
converter does with drained values (R54 to R62, R67, R122). -/

namespace Sys2Proof.Machine

open Sys2Proof

def ovfD : Nat → OvfSt := fun _ => {}
def ovfOf (s : State) (c inst : Nat) : OvfSt := sget ovfD (core s c).ovf inst
def modOvf (c inst : Nat) (f : OvfSt → OvfSt) (s : State) : State :=
  modCore c (fun C => { C with ovf := smod ovfD C.ovf inst f }) s

/-- The instance overflows: a non-finite output with no non-finite operand, or too many saturations (R141). -/
def ovfFlag (o : OvfSt) : Bool := (o.nonfinite && !o.operand) || o.ovr

/-- An output of converter `point` with descriptor `d` counted these classes. -/
def ovfOutput (c point : Nat) (d : OutDesc) (mx bad : Bool) (cs : List ConvClass) (s : State) : State :=
  modOvf c d.inst (fun o =>
    let o := { o with operand := o.operand || bad }
    if !d.ovfChk then o
    else
      let o := { o with nonfinite := o.nonfinite || cs.any (· == .nonfinite) }
      if mx then o
      else
        let n := sget natD o.sats point + (cs.filter (· == .saturated)).length
        { o with sats := sset natD o.sats point n, ovr := o.ovr || decide (d.satTol < n) }) s

/-- Rows to columns. -/
def transposeRows (rows : List (List Val)) : List (List Val) :=
  match rows with
  | [] => []
  | r :: _ => (List.range r.length).map fun j => rows.map fun x => x.getD j (vZero false)

/-- Offset of output row `r` whose packed rows have `bytes` bytes. -/
def rowOff (d : OutDesc) (base r bytes : Nat) : Nat := base + r * (if d.stride = 0 then bytes else 16 * d.stride)

/-- Emission order of the blocks of an MX output (R67): row by row along columns; along vectors, 32 drained rows at a
time and in it column by column. A block is (row of the stored tensor, block in it, values). -/
def emitBlocks (axis : Bool) (rows : List (List Val)) : List (Nat × Nat × List Val) :=
  let stored := if axis then transposeRows rows else rows
  let all := stored.zipIdx.flatMap fun x =>
    (chunks 32 (x.1.length / 32 + 1) x.1).zipIdx.map fun y => (x.2, y.2, y.1)
  if axis then
    let nb := all.foldl (fun m b => max m (b.2.1 + 1)) 0
    (List.range nb).flatMap fun g => all.filter fun b => b.2.1 == g
  else all

/-- Write the main blocks, or the residual blocks, of an MX output at planes `e` and `sc`. -/
def writeBlocks (c : Nat) (f : Fmt) (d : OutDesc) (e sc nb : Nat) (poison : Bool) (l : List (Nat × Nat × BlockOut))
    (s : State) : State :=
  let bb := 4 * fmtWidth f
  l.foldl (fun st b =>
    unitStore c (sc + b.1 * nb + b.2.1) poison [BitVec.ofNat 8 b.2.2.scale]
      (unitStore c (rowOff d e b.1 (nb * bb) + b.2.1 * bb) poison (packCodes (fmtWidth f) (padBlock b.2.2.codes)) st)) s

/-- The statistics of an output are collected: not for a pass-through, a missing tensor or a repeat (R122). -/
def countsStats (s : State) (c : Nat) (d : OutDesc) : Bool :=
  !d.pass && d.tensor != 0xFFFFFFFF && !(ovfOf s c d.inst).again

/-- Tokens of a micro-batch of the running step that are no padding (R193). -/
def realTokens (s : State) (mb : Nat) : Nat :=
  (s.adm.segments.filter fun g => g.step == s.run.step && g.mb == mb).foldl (fun m g => max m (g.first + g.length)) 0

/-- Row `r` of an output takes part in statistics: not where the row is a padding token's (R193). -/
def countsRow (s : State) (c : Nat) (d : OutDesc) (r : Nat) : Bool :=
  match s.plan.bind fun p => Config.outToken p.inputRec p.pos c d.inst d.dest with
  | some (mb, first) => decide (first + r < realTokens s mb)
  | none => true

/-- The elements of a list that take part, by index. -/
def keepAt {α : Type} (keep : Nat → Bool) (l : List α) : List α := (l.zipIdx.filter fun x => keep x.2).map (·.1)

/-- The part of a block that takes part in statistics: the rows run along the columns, or along the vectors. -/
def keptBlock (keep : Nat → Bool) (axis : Bool) (row blk : Nat) (xs : List Val) (q : BlockOut) : Option (List Val × BlockOut) :=
  let f := fun j => if axis then keep (32 * blk + j) else keep row
  let ys := keepAt f xs
  if ys.isEmpty then none else some (ys, { q with codes := keepAt f q.codes, classes := keepAt f q.classes })

/-- An MX output. -/
def convertMx (c point : Nat) (f : Fmt) (d : OutDesc) (rows : List (List Val)) (bad poison : Bool) (s : State) : State :=
  let bl := emitBlocks d.axis rows
  let q := bl.map fun b => (b.1, b.2.1, b.2.2, quantBlock f b.2.2)
  let nb := bl.foldl (fun m b => max m (b.2.1 + 1)) 0
  let s := ovfOutput c point d true bad (q.flatMap fun b => b.2.2.2.classes) s
  let s := if countsStats s c d then
      let kept := q.filterMap fun b => keptBlock (countsRow s c d) d.axis b.1 b.2.1 b.2.2.1 b.2.2.2
      collect (c * 6 + point) d.tensor (fun r => kept.foldl (fun r b => statBlock r b.1 b.2) r) s
    else s
  let s := writeBlocks c f d d.dest d.dscale nb poison (q.map fun b => (b.1, b.2.1, b.2.2.2)) s
  if d.res = 0xFFFFFFFF then s
  else writeBlocks c f d d.res d.rscale nb poison
    (q.map fun b => (b.1, b.2.1, quantBlock f (blockResidual f b.2.2.1 b.2.2.2))) s

/-- A scalar or integer output, stored row by stored row: with AXIS 1 and more than 32 vectors too, where an MX output takes 32 drained
rows at a time (DESIGN CHOICE, log 124: R67 gives the staging order of blocks alone). -/
def convertPlain (c point : Nat) (f : Fmt) (d : OutDesc) (rows : List (List Val)) (bad poison : Bool) (s : State) : State :=
  let stored := if d.axis then transposeRows rows else rows
  let q := stored.map fun r => r.map fun v => (v, encPlain f d.texp d.ovfMode v)
  let cs := q.flatMap fun r => r.map fun x => x.2.2
  let s := ovfOutput c point d false bad cs s
  let s := if countsStats s c d then
      let kept := q.zipIdx.flatMap fun r => keepAt (fun j => countsRow s c d (if d.axis then j else r.2)) r.1
      collect (c * 6 + point) d.tensor (fun r => statElems r (kept.map (·.1)) (kept.map fun x => x.2.2)) s
    else s
  let put := fun (base : Nat) (codes : List (List Nat)) (st : State) =>
    codes.zipIdx.foldl (fun (u : State) x =>
      let b := packCodes (fmtWidth f) x.1
      unitStore c (rowOff d base x.2 b.length) poison b u) st
  let s := put d.dest (q.map fun r => r.map fun x => x.2.1) s
  if d.res = 0xFFFFFFFF then s
  else put d.res (q.map fun r => r.map fun x =>
    (encPlain f d.texp d.ovfMode (plainResidual f d.texp x.1 x.2.1)).1) s

/-- Pass-through: W42 containers, no statistics (R104). -/
def passThrough (c : Nat) (d : OutDesc) (rows : List (List Val)) (poison : Bool) (s : State) : State :=
  rows.zipIdx.foldl (fun st x =>
    let b := x.1.flatMap fun v => w42Bytes (enc42 v)
    unitStore c (rowOff d d.dest x.2 b.length) poison b st) s

/-- The output converter `point` (0 to 3 arrays, 4 vector unit, 5 exact unit) writes rows of values by the output
descriptor `d`. -/
def convertOut (c point : Nat) (d : OutDesc) (rows : List (List Val)) (bad poison : Bool) (s : State) : State :=
  if d.pass then passThrough c d rows poison s
  else match fmtOfCode d.fmt with
    | some .tc4 => s
    | some f => if isMx f then convertMx c point f d rows bad poison s else convertPlain c point f d rows bad poison s
    | none => s

end Sys2Proof.Machine
end

