-- ==== Sys2Proof/Machine/Stream.lean ====
section
/-! DEFINITION. The stream engine (R166, R254 to R265): descriptors and block lists, the STR queues, passes and their
transfers, skewed writes, completion actions, shadows and dependence marks; errors of memory reads (R247, R250, R252). -/

namespace Sys2Proof.Machine

open Sys2Proof

/-! ### Descriptors (R256) and block lists (R257) -/

structure DescImg where
  blist : Nat
  nblk : Nat
  fmt : Nat
  raw : Bool
  mode : Nat
  first : Bool
  last : Bool
  skewK : Nat
  dest : Nat
  flow : Nat
  waitMark : Nat
  postMark : Nat
  waitCount : Nat
  postInc : Nat
  ring : Nat
  v0 : Nat
  action : Nat
  prog : Nat
  deriving DecidableEq, Repr

def parseDesc (b : List Byte) : DescImg :=
  let fl := leAt b 0xC 1
  let mo := leAt b 0xD 1
  { blist := leAt b 0 8, nblk := leAt b 8 4, fmt := fl % 16, raw := bitN fl 4, mode := mo % 4, first := bitN mo 2,
    last := bitN mo 3, skewK := leAt b 0xE 2, dest := leAt b 0x10 4, flow := leAt b 0x14 4, waitMark := leAt b 0x18 2,
    postMark := leAt b 0x1A 2, waitCount := leAt b 0x1C 4, postInc := leAt b 0x20 4, ring := leAt b 0x28 4,
    v0 := leAt b 0x2C 4, action := leAt b 0x30 1, prog := leAt b 0x32 2 }

def descOf (s : State) (d : Nat) : DescImg := parseDesc (descImage s d)

/-- Every field within its range (R256). -/
def imageOk (b : List Byte) : Bool :=
  let d := parseDesc b
  decide (d.blist < 2 ^ 52) && d.blist % 16 == 0 && decide (1 ≤ d.nblk) && decide (d.nblk < 2 ^ 24) &&
    decide (leAt b 0xC 1 < 32) && (if d.raw then d.fmt == 0 else (fmtOfCode d.fmt).isSome) &&
    d.mode != 3 && decide (leAt b 0xD 1 < 16) &&
    (if d.mode = 0 then d.skewK == 0 && d.ring == 0
     else if d.mode = 1 then decide (1 ≤ d.skewK) && decide (d.skewK ≤ 128)
     else decide (1 ≤ d.skewK) && decide (d.skewK ≤ 4)) &&
    (d.mode == 0 || (decide (1 ≤ d.ring) && decide (d.ring ≤ 65535))) &&
    (d.mode != 1 || (match fmtOfCode d.fmt with | some f => fmtD f != 0 | none => false)) &&
    (d.dest == 0xFFFFFFFF || decide (d.dest < 2 ^ 20)) && (d.flow == 0xFFFFFFFF || decide (d.flow < 2 ^ 25)) &&
    decide (d.action < 8) && zeroAt b 0x31 1 && zeroAt b 0x34 12

/-- A block-list entry. -/
structure Blk where
  base : Nat
  len : Nat
  stride : Nat
  count : Nat
  deriving DecidableEq, Repr

def parseBlk (b : List Byte) : Blk := { base := leAt b 0 7, len := leAt b 7 3, stride := leAt b 0xA 4, count := leAt b 0xE 2 }

def blockList (s : State) (d : DescImg) : List Blk :=
  (List.range d.nblk).map fun i => parseBlk (memBytes s (d.blist + 16 * i) 16)

def blkBytes (l : List Blk) : Nat := l.foldl (fun n b => n + b.len * b.count) 0
def pieceStarts (b : Blk) : List Nat := (List.range b.count).map fun i => b.base + i * b.stride
def piecesOf (l : List Blk) : List (Nat × Nat) := l.flatMap fun b => (pieceStarts b).map fun a => (a, b.len)

/-- No two pieces share a byte. -/
def disjointPieces : List (Nat × Nat) → Bool
  | [] => true
  | x :: t => (t.all fun y => decide (x.1 + x.2 ≤ y.1) || decide (y.1 + y.2 ≤ x.1)) && disjointPieces t

/-- An entry's fields in their ranges; a destination takes no stride 0 (R257). -/
def blkFields (dst : Bool) (b : Blk) : Bool :=
  decide (b.base < 2 ^ 52) && decide (1 ≤ b.len) && decide (1 ≤ b.count) && !(dst && b.stride == 0 && b.count != 1)

/-- An entry in range whose pieces lie in one region of R239; a destination takes no closed region and no
read-only memory (R249, R257, R265). -/
def blkOk (s : State) (dst : Bool) (b : Blk) : Bool :=
  blkFields dst b &&
    (match memRegion s b.base with
      | none => false
      | some r => (!dst || r != .aon) && (pieceStarts b).all fun a =>
          memRegion s a == some r && memRegion s (a + b.len - 1) == some r &&
            !(dst && (closedTo s a || closedTo s (a + b.len - 1))))

/-- The address of byte `off` of a block list, and the bytes left in its piece. -/
def blockAt : List Blk → Nat → Option (Nat × Nat)
  | [], _ => none
  | b :: t, off =>
    if off < b.len * b.count then some (b.base + off / b.len * b.stride + off % b.len, b.len - off % b.len)
    else blockAt t (off - b.len * b.count)

/-- Bits of one source vector of a skewed destination (R259). -/
def vecBits (d : DescImg) : Nat :=
  if d.mode = 2 then 8 * d.skewK else d.skewK * (match fmtOfCode d.fmt with | some f => fmtWidth f | none => 8)

/-- Sending legs of a descriptor's flow or multicast set (R279, R286). -/
def legsOf (s : State) (d : DescImg) : List FlowCtx :=
  match s.plan with
  | none => []
  | some p =>
    if d.flow = 0xFFFFFFFF then []
    else if d.flow / 2 ^ 24 = 1 then p.flows.filter fun f =>
      f.sending && f.cls == 2 && f.set == d.flow % 2 ^ 24 && !s.link.failedLegs.contains f.id
    else p.flows.filter fun f => f.sending && f.cls == 1 && f.id == d.flow % 2 ^ 24

/-- A CUSTOM thread names a descriptor of another program, or rearms it for one (R265). -/
def foreignDesc (s : State) (c t d : Nat) (b : List Byte) : Bool :=
  isCustom s c t && (match (thread s c t).prog with
    | some i => (descOf s d).prog != i || (parseDesc b).prog != i
    | none => true)

/-- Source image `b` against its destination as it stands: a flow or set with legs, or a descriptor that names the same format and holds
the same bytes (R258, R259, R265). -/
def pairCause (s : State) (b : List Byte) : Nat :=
  let x := parseDesc b
  let src := blockList s x
  let y := descOf s x.dest
  let dst := blockList s y
  if !imageOk b || x.mode != 0 || !(src.all (blkOk s false)) then 2
  else if x.dest = 0xFFFFFFFF then (if (legsOf s x).isEmpty then 2 else 0)
  else if x.flow != 0xFFFFFFFF || !imageOk (descImage s x.dest) || !(dst.all (blkOk s true)) then 2
  else if x.fmt != y.fmt || x.raw != y.raw then 2
  else if y.mode = 0 then (if blkBytes src != blkBytes dst || !disjointPieces (piecesOf dst) then 2 else 0)
  else if 8 * blkBytes src % vecBits y != 0 then 2 else 0

/-- The causes of R265 for a RUN; 0 for none. -/
def runCause (s : State) (c t d : Nat) : Nat := if foreignDesc s c t d (descImage s d) then 4 else pairCause s (descImage s d)

/-- The causes of R265 for a REARM to image `b`: a source image is held against its destination; an image without a destination is one,
and its blocks must be writable. -/
def rearmCause (s : State) (c t d : Nat) (b : List Byte) : Nat :=
  let x := parseDesc b
  if foreignDesc s c t d b then 4
  else if x.dest != 0xFFFFFFFF || x.flow != 0xFFFFFFFF then pairCause s b
  else if !imageOk b || !((blockList s x).all (blkOk s true)) || (x.mode == 0 && !disjointPieces (piecesOf (blockList s x))) then 2
  else 0

/-- The case that STM_REFUSED gives for a refused image `b`: the row of R265's table, a field before an address before the formats and
byte counts (DESIGN CHOICE, log entry 136). -/
def refuseCase (s : State) (c t d : Nat) (b : List Byte) : Nat :=
  let x := parseDesc b
  let none_ := x.dest == 0xFFFFFFFF
  let dst := if none_ then [] else blockList s (descOf s x.dest)
  let own := none_ && x.flow == 0xFFFFFFFF
  if foreignDesc s c t d b then 1
  else if !imageOk b || !((blockList s x).all (blkFields own)) || !(none_ || imageOk (descImage s x.dest)) || !(dst.all (blkFields true)) then 4
  else if !((blockList s x).all (blkOk s own)) || !(dst.all (blkOk s true)) then 5
  else 3

/-- Where what a RUN of a descriptor reads is poisoned or lost, with the reason: its image, its destination's, and their block lists. -/
def descPoison (s : State) (d : Nat) : Option (Nat × Nat) :=
  let x := descOf s d
  let y := descOf s x.dest
  let l := [(descTable s + 64 * d, 64), (x.blist, 16 * x.nblk)] ++
    (if x.dest = 0xFFFFFFFF then [] else [(descTable s + 64 * x.dest, 64), (y.blist, 16 * y.nblk)])
  (l.find? fun r => memReason s r.1 r.2 == 1 || memReason s r.1 r.2 == 5).map fun r => (r.1, memReason s r.1 r.2)

/-! ### Skewed destinations (R80, R81, R259) -/

/-- Set bit `b` of the byte at scratch or device address `a`. -/
def putBit (a b : Nat) (v : Bool) (s : State) : State :=
  let old := (memByte s a).toNat
  let new := old - b2n (bitN old b) * 2 ^ b + b2n v * 2 ^ b
  memStore a [BitVec.ofNat 8 new] s

/-- The address and bit of bit `b` of element `k` of the field that word `w` holds. -/
def skewPlace (y : DescImg) (base word k b : Nat) : Nat × Nat :=
  let w := match fmtOfCode y.fmt with | some f => fmtWidth f | none => 8
  (base + word % y.ring * (16 * w) + (k * w + b) / 8, (k * w + b) % 8)

/-- Write zero into the field of element `k` in a word. -/
def zeroField (y : DescImg) (base word k : Nat) (s : State) : State :=
  let w := match fmtOfCode y.fmt with | some f => fmtWidth f | none => 8
  (List.range w).foldl (fun st b => let p := skewPlace y base word k b; putBit p.1 p.2 false st) s

/-- The zeros that a pass writes into a skewed destination: rows beyond SKEW_K, and the fields before the first and after
the last vector. -/
def skewZeros (y : DescImg) (base vectors : Nat) (s : State) : State :=
  if y.mode = 2 then
    (List.range vectors).foldl (fun st j => (List.range (4 - y.skewK)).foldl (fun u i =>
      memStore (base + (y.v0 + j) % y.ring * 4 + y.skewK + i) [0] u) st) s
  else if y.mode = 1 then
    let d := match fmtOfCode y.fmt with | some f => fmtD f | none => 1
    let s1 := (List.range vectors).foldl (fun st j => (List.range (128 - y.skewK)).foldl (fun u i =>
      zeroField y base (y.v0 + j + (y.skewK + i) / d) (y.skewK + i) u) st) s
    let s2 := if y.first then (List.range (127 / d)).foldl (fun st word => (List.range 128).foldl (fun u k =>
        if word < k / d then zeroField y base word k u else u) st) s1 else s1
    if y.last then
      let mEnd := y.v0 + vectors - 1
      (List.range (127 / d)).foldl (fun st i => (List.range 128).foldl (fun u k =>
        let word := mEnd + 1 + i
        if mEnd + k / d < word then zeroField y base word k u else u) st) s2
    else s2
  else s

/-- Bits of a pass's byte stream from byte `off` on, placed in a skewed destination. -/
def skewPut (y : DescImg) (base off : Nat) (bytes : List Byte) (poison : Bool) (s : State) : State :=
  if y.mode = 2 then
    bytes.zipIdx.foldl (fun st x =>
      let i := off + x.2
      let a := base + (y.v0 + i / y.skewK) % y.ring * 4 + i % y.skewK
      let u := memStore a [x.1] st
      if poison then memPoison a 1 u else u) s
  else
    let w := match fmtOfCode y.fmt with | some f => fmtWidth f | none => 8
    let d := match fmtOfCode y.fmt with | some f => fmtD f | none => 1
    bytes.zipIdx.foldl (fun st x => (List.range 8).foldl (fun u b =>
      let i := 8 * (off + x.2) + b
      let e := i / w
      let k := e % y.skewK
      let p := skewPlace y base (y.v0 + e / y.skewK + k / d) k (i % w)
      let u := putBit p.1 p.2 (bitN x.1.toNat b) u
      if poison then memPoison p.1 1 u else u) st) s

/-- Bytes from offset `off` of a pass on go to the destination's blocks in order (R257). -/
def blocksPut (dst : List Blk) (poison : Bool) : Nat → Nat → List Byte → State → State
  | 0, _, _, s => s
  | n + 1, off, bytes, s =>
    if bytes.isEmpty then s
    else match blockAt dst off with
      | some (a, left) => blocksPut dst poison n (off + left) (bytes.drop left) (deliver a (bytes.take left) poison s)
      | none => s

/-- `n` bytes of a pass at offset `off` reach a destination descriptor. -/
def destPut (y : DescImg) (dst : List Blk) (off : Nat) (bytes : List Byte) (poison : Bool) (s : State) : State :=
  if y.mode = 0 then blocksPut dst poison bytes.length off bytes s
  else match dst with
    | b :: _ => skewPut y b.base off bytes poison s
    | [] => s

/-! ### Passes (R258 to R264) -/

/-- Log poison of a transfer (R253): counted by reason; in a run the core's poison flag is set and the address is kept with the
reason for the path of R254. -/
def transferPoison (d addr reason : Nat) (core? : Option Nat) (s : State) : State :=
  let s := logEv 0x0502 (b4 d ++ b8 addr ++ b4 reason) (countPoison reason s)
  let s := if inRun s then { s with res := { s.res with badAddrs := s.res.badAddrs ++ [(addr, reason)] } } else s
  match core? with
  | some c => corePoison c reason addr s
  | none => if inRun s then { s with run := { s.run with holdDue := max s.run.holdDue 4 } } else s

/-- A descriptor's stored image with its generation number. -/
def putImage (d gen : Nat) (b : List Byte) (s : State) : State :=
  memStore (descTable s + 64 * d) (b.take 0x24 ++ leBytes 4 gen ++ (b.drop 0x28).take 24) s

/-- A pending shadow takes effect: GEN increases by 1 (R263). -/
def takeShadow (d : Nat) (s : State) : State :=
  match (desc s d).shadow with
  | some b =>
    let g := ((desc s d).gen + 1) % 2 ^ 32
    modDesc d (fun D => { D with shadow := none, gen := g }) (putImage d g b s)
  | none => s

/-- A pass starts (R258). -/
def beginPass (d : Nat) (issuer : Option Issuer) (s : State) : State :=
  let x := descOf s d
  let total := blkBytes (blockList s x)
  let legs := (legsOf s x).map fun f => (f.id, 0, false)
  let y := descOf s x.dest
  let s := if x.dest != 0xFFFFFFFF && y.mode != 0 then
      match blockList s y with
      | b :: _ => skewZeros y b.base (8 * total / vecBits y) s
      | [] => s
    else s
  modDesc d (fun D => { D with pass := some { issuer := issuer, gen := D.gen, done := 0, total := total, poisoned := false,
                                               legs := legs } }) s

/-- POST of a completed pass. -/
def passPost (x : DescImg) (s : State) : State :=
  if bitN x.action 0 && x.postMark != 0xFFFF then addMark x.postMark x.postInc s else s

/-- TRACE of a completed pass. -/
def passTrace (d : Nat) (p : PassSt) (x : DescImg) (s : State) : State :=
  if bitN x.action 2 then
    traceRec (match p.issuer with | some i => i.core | none => 0) (match p.issuer with | some i => i.thread | none => 0)
      5 0 (d + p.gen * 2 ^ 32) p.total s
  else s

/-- The issuing instruction's completion count. -/
def passCount (p : PassSt) (s : State) : State :=
  match p.issuer with
  | some i => asyncDone i.core i.thread i.cntEn i.cnt s
  | none => s

/-- The actions of a completed pass, and the issuer's count (R261, R390). -/
def passActions (d : Nat) (p : PassSt) (s : State) : State := passCount p (passTrace d p (descOf s d) (passPost (descOf s d) s))

/-! ### The STR queues (R166, R260) -/

def strDesc (w : InstrWord) : Nat := iF w 24 20

def useDesc (d : Nat) (s : State) : State :=
  modDesc d (fun D => { D with lastUse := s.stm.clock }) { s with stm := { s.stm with clock := s.stm.clock + 1 } }

/-- A refusal of R265: logged, counted, and the issuing thread faults at the instruction's PC. -/
def refuseStream (c thr pc d cause case_ : Nat) (s : State) : State :=
  let s := logEv 0x0503 (b4 d ++ b4 c ++ b4 case_) (bump (cntDev 23) 1 s)
  let s := modThread c thr (fun T => { T with outstanding := T.outstanding - 1 }) s
  modThread c thr (fun T => { T with faultPc := pc }) (faultThread c thr cause s)

/-- A RUN that reads a poisoned descriptor or block list transfers nothing: the poison is handled as a transfer's, and the RUN completes
(R253, R254; DESIGN CHOICE, log entry 138). -/
def poisonRun (d : Nat) (i : Issuer) (x : Nat × Nat) (s : State) : State :=
  asyncDone i.core i.thread i.cntEn i.cnt (transferPoison d x.1 x.2 (some i.core) s)

/-- The RUNs that wait for a descriptor: the first that its contents, as they now stand, do not refuse begins a pass (R54, R258, R265). -/
def startWaiting (d : Nat) : List Issuer → State → State
  | [], s => s
  | i :: rest, s =>
    let s := modDesc d (fun D => { D with waiting := rest }) s
    let cause := runCause s i.core i.thread d
    match descPoison s d with
    | some x => startWaiting d rest (poisonRun d i x s)
    | none =>
      if cause = 0 then beginPass d (some i) s
      else startWaiting d rest (refuseStream i.core i.thread i.pc d cause (refuseCase s i.core i.thread d (descImage s d)) s)

/-- A pass completes: its actions, then the pending shadow, then the next RUN that waits for the descriptor. -/
def endPass (d : Nat) (s : State) : State :=
  match (desc s d).pass with
  | none => s
  | some p =>
    let s := takeShadow d (modDesc d (fun D => { D with pass := none }) (passActions d p s))
    startWaiting d (desc s d).waiting s

def popStr (c : Nat) (s : State) : State := modCore c (fun C => { C with str := C.str.drop 1 }) s

/-- The command at the head of a core's STR queue executes, if nothing holds it back; none otherwise. -/
def strHead (c : Nat) (s : State) : Option State :=
  match (core s c).str with
  | [] => none
  | o :: rest =>
    let w := BitVec.ofNat 128 o.w
    let d := strDesc w
    let miss : Bool := decide (iOp w ≤ 1) && !(desc s d).cached
    if miss then
      if o.missed then none
      else some (bump (cntDev 30) 1 (modCore c (fun C => { C with str := { o with missed := true } :: rest }) s))
    else if iOp w = 0 then
      let i : Issuer := { core := c, thread := o.thread, pc := o.pc, cntEn := iCntEn w, cnt := iCnt w }
      match descPoison s d with
      | some x => some (poisonRun d i x (useDesc d (popStr c s)))
      | none =>
      if !markMet s (descImage s d) then none
      else
        let cause := runCause s c o.thread d
        if cause != 0 then
          some (refuseStream c o.thread o.pc d cause (refuseCase s c o.thread d (descImage s d)) (popStr c s))
        else
          let s := useDesc d (popStr c s)
          some (if (desc s d).pass.isSome then modDesc d (fun D => { D with waiting := D.waiting ++ [i] }) s
                else beginPass d (some i) s)
    else if iOp w = 1 then
      let b := scrBytes s c o.addr 64
      let cause := rearmCause s c o.thread d b
      if cause != 0 then some (refuseStream c o.thread o.pc d cause (refuseCase s c o.thread d b) (popStr c s))
      else if (desc s d).shadow.isNone && decide (4096 ≤ shadowsUsed s) then none
      else
        let s := modDesc d (fun D => { D with shadow := some b }) (useDesc d (popStr c s))
        let s := if (desc s d).pass.isSome then s else takeShadow d s
        some (asyncDone c o.thread (iCntEn w) (iCnt w) s)
    else if iOp w = 2 then
      some (asyncDone c o.thread (iCntEn w) (iCnt w) (addMark (iF w 68 16) (iF w 84 16) (popStr c s)))
    else
      some (asyncDone c o.thread (iCntEn w) (iCnt w) (traceRec c o.thread (iF w 105 8) o.pc o.addr 0 (popStr c s)))

/-- Run a core's STR queue as far as it goes. -/
def drainStr (c : Nat) : Nat → State → State
  | 0, s => s
  | n + 1, s => match strHead c s with
    | some t => drainStr c n t
    | none => s

/-- Run every core's STR queue: marks, shadows or cached descriptors have changed. A queue of 32 takes at most two steps
an entry, and one queue's MARK can release another, so the queues are run in rounds. -/
def drainAll : Nat → State → State
  | 0, s => s
  | n + 1, s =>
    let t := (List.range 96).foldl (fun st c => if (core st c).str.isEmpty then st else drainStr c 64 st) s
    if t.stm = s.stm then t else drainAll n t

def settle (s : State) : State := drainAll 64 s

/-- The checks of an STR instruction. -/
def strCause (fields : List (Nat × Nat)) (extra : State → Nat) (c t : Nat) (w : InstrWord) (s : State) : Nat :=
  leastCause [causeIf (!onlyBits w fields) 2, extra s, cntCause s c t w]

def issueStr (op : Nat) (fields : List (Nat × Nat)) (extra : State → Nat) (addr : State → Nat)
    (c : CoreId) (t : ThreadId) (w : InstrWord) (s : State) : State :=
  issue c.val t.val w 5 op (strCause fields extra c.val t.val w) (fun u => decide (32 ≤ (core u c.val).str.length))
    (fun u => settle (asyncBegin c.val t.val (modCore c.val (fun C => { C with str := C.str ++
      [{ thread := t.val, w := w.toNat, addr := addr s, pc := (thread s c.val t.val).pc, missed := false }] }) u))) s

def execStrRun (c : CoreId) (t : ThreadId) (w : InstrWord) (s : State) : Host.Outcome State Fault Refusal :=
  .next (issueStr 0 [(24, 20)] (fun _ => 0) (fun _ => 0) c t w s)
def execStrRearm (c : CoreId) (t : ThreadId) (w : InstrWord) (s : State) : Host.Outcome State Fault Refusal :=
  .next (issueStr 1 [(24, 44)] (fun u => rangeCause u c.val t.val [(opAddr u c.val t.val (iF w 44 4) (iF w 48 20), 64, 64)])
    (fun u => opAddr u c.val t.val (iF w 44 4) (iF w 48 20)) c t w s)
def execStrMark (c : CoreId) (t : ThreadId) (w : InstrWord) (s : State) : Host.Outcome State Fault Refusal :=
  .next (issueStr 2 [(68, 32)] (fun _ => 0) (fun _ => 0) c t w s)
def execStrTrace (c : CoreId) (t : ThreadId) (w : InstrWord) (s : State) : Host.Outcome State Fault Refusal :=
  .next (issueStr 3 [(100, 13)] (fun _ => causeIf (decide (iF w 105 8 < 0x40)) 2)
    (fun u => sReg u c.val t.val (iF w 100 5)) c t w s)

/-! ### Transfers -/

/-- Read `n` bytes at a device address: the bytes, and a poison reason or 0. Bytes behind a host window are the host's; what the read
finds lies in the first code word. -/
def readSource (s : State) (a n : Nat) (data : HostData) (ecc : EccOutcome) : List Byte × Nat :=
  match devToHost s a with
  | some _ => (padTo n data.bytes, if data.poison then 5 else 0)
  | none => (memBytes s a n, readReason s a n ecc)

def creditUsed (s : State) (f : Nat) : Nat := sget natD s.link.credit f
def creditAdd (f : Nat) (g : Nat → Nat) (s : State) : State :=
  { s with link := { s.link with credit := smod natD s.link.credit f g } }
def legCtx (s : State) (f : Nat) : Option FlowCtx := s.plan.bind fun p => p.flows.find? fun x => x.id == f && x.sending
/-- A leg holds flow credit. -/
def legReady (s : State) (f : Nat) : Bool :=
  match legCtx s f with
  | some x => decide (creditUsed s f < x.credits)
  | none => false

def setLeg (d f n : Nat) (ack : Bool) (s : State) : State :=
  modDesc d (fun D => { D with pass := D.pass.map fun p =>
    { p with legs := p.legs.map fun l => if l.1 == f then (f, n, ack) else l } }) s

/-- The header of a packet whose data is poisoned. -/
def poisonedHdr (poison : Bool) (h : PktHdr) : PktHdr := { h with poison := poison }

/-- Send the next packet of a leg: DATA of at most 256 bytes, and END after the last (R277, R280). -/
def sendLeg (d f at_ n total gen : Nat) (bytes : List Byte) (poison : Bool) (s : State) : State :=
  match legCtx s f with
  | none => s
  | some x =>
    let s := sendTo (poisonedHdr poison (newHdr s x.cls 0 x.peer f (gen % 2 ^ 16) (at_ / 4 % 2 ^ 24) bytes)) bytes s
    let s := setLeg d f (at_ + n) false (creditAdd f (· + 1) s)
    if total ≤ at_ + n then sendTo (newHdr s x.cls 1 x.peer f (gen % 2 ^ 16) (total / 4 % 2 ^ 24) []) [] s else s

/-- The next transfer of a pass on flow or multicast legs: every leg with credit at the least cursor among those sends its
next packet (R286). -/
def legTransfer (d : Nat) (p : PassSt) (src : List Blk) (data : HostData) (ecc : EccOutcome) (s : State) : State :=
  let ready := p.legs.filter fun l => decide (l.2.1 < p.total) && legReady s l.1
  match ready.map (·.2.1) with
  | [] => s
  | c :: rest =>
    let at_ := rest.foldl min c
    match blockAt src at_ with
    | none => s
    | some (a, left) =>
      let n := min (min 256 left) (p.total - at_)
      let r := readSource s a n data ecc
      let s := countBytes false a n 0 (readCount a n ecc s)
      let s := if r.2 = 0 then s else transferPoison d a r.2 (p.issuer.map (·.core)) s
      (ready.filter fun l => l.2.1 == at_).foldl (fun st l => sendLeg d l.1 at_ n p.total p.gen r.1 (r.2 != 0) st) s

/-- The transfer of `n` bytes at offset `p.done` of a pass, from address `a` to the destination image `y` at address `b`. -/
def moveBytes (d : Nat) (p : PassSt) (y : DescImg) (dst : List Blk) (a b n : Nat) (data : HostData) (ecc : EccOutcome)
    (s : State) : State :=
  let r := readSource s a n data ecc
  let wr := writeReason s b n
  let s := countBytes true b n a (countBytes false a n b (readCount a n ecc s))
  let s := if r.2 != 0 then transferPoison d a r.2 (p.issuer.map (·.core)) s
    else if wr != 0 then transferPoison d b wr (p.issuer.map (·.core)) s else s
  let s := if wr != 0 then s else destPut y dst p.done r.1 (r.2 != 0) s
  let s := modDesc d (fun D => { D with pass := D.pass.map fun q =>
    { q with done := p.done + n, poisoned := q.poisoned || r.2 != 0 } }) s
  if p.total ≤ p.done + n then settle (endPass d s) else s

/-- Where byte `off` of a pass goes in its destination, and the room there. -/
def destAt (y : DescImg) (dst : List Blk) (off : Nat) : Option (Nat × Nat) :=
  if y.mode = 0 then blockAt dst off else some (match dst with | b :: _ => b.base | [] => 0, 1024)

/-- The next transfer of a pass between two descriptors; a pass whose blocks are done completes. -/
def copyTransfer (d : Nat) (p : PassSt) (y : DescImg) (src goal : Option (Nat × Nat)) (dst : List Blk) (data : HostData)
    (ecc : EccOutcome) (s : State) : State :=
  match src, goal with
  | some (a, left), some (b, room) =>
    moveBytes d p y dst a b (min (min left room) (min (unitRoom s a) (if y.mode = 0 then unitRoom s b else 1024))) data ecc s
  | _, _ => settle (endPass d s)

/-- Generation a is older than b, modulo 2^32. -/
def genOlder (a b : Nat) : Bool := a != b && decide ((b + 2 ^ 32 - a) % 2 ^ 32 < 2 ^ 31)

/-- STREAM_TRANSFER_COMPLETE (R258): the next transfer of a descriptor's active pass completes at its destination; with the
last one the pass completes (R261). A reply of an older generation, as of an aborted pass, is discarded and counted (R264). -/
def transfer (d gen : Nat) (data : HostData) (ecc : EccOutcome) (s : State) : State :=
  match (desc s d).pass with
  | none => if genOlder gen (desc s d).gen then bump (cntDev 24) 1 s else s
  | some p =>
    if gen != p.gen then (if genOlder gen p.gen then bump (cntDev 24) 1 s else s) else
    let s := if s.pwr.draining.isEmpty then s else bump (cntDev 48) 1 s
    let x := descOf s d
    if x.dest = 0xFFFFFFFF then legTransfer d p (blockList s x) data ecc s
    else
      let y := descOf s x.dest
      copyTransfer d p y (blockAt (blockList s x) p.done) (destAt y (blockList s y) p.done) (blockList s y) data ecc s

def execStreamTransferComplete (d : Fin 1048576) (gen : Word) (data : HostData) (ecc : EccOutcome) (s : State) :
    Host.Outcome State Fault Refusal := .next (transfer d.val gen.toNat data ecc s)

/-- DESC_CACHE_FILL (R255): the entry has been read; the least recently used unpinned entry leaves a full cache. -/
def cacheFill (d : Nat) (s : State) : State :=
  let cached := s.stm.desc.filter fun x => x.2.cached
  let s := if cached.length < 65536 then s
    else match cached.filter fun x => x.2.pass.isNone && x.2.shadow.isNone with
      | [] => s
      | x :: rest =>
        let v := rest.foldl (fun (m : Nat × DescSt) y => if y.2.lastUse < m.2.lastUse then y else m) x
        modDesc v.1 (fun D => { D with cached := false })
          (memStore (descTable s + 64 * v.1 + 0x24) (leBytes 4 v.2.gen) s)
  settle (useDesc d (modDesc d (fun D => { D with cached := true }) s))

def execDescCacheFill (d : Fin 1048576) (s : State) : Host.Outcome State Fault Refusal := .next (cacheFill d.val s)

/-- A pass's transfer at source address `a` that the router answered goes on: poison is delivered where a read was answered. -/
def targetOffMove (d : Nat) (p : PassSt) (y : DescImg) (dst : List Blk) (src : Option (Nat × Nat)) (addr : Nat) (s : State) :
    State :=
  match src with
  | none => s
  | some (a, left) =>
    let room := if y.mode = 0 then (match blockAt dst p.done with | some (b, r) => min r (unitRoom s b) | none => left) else 1024
    let n := min left (min room (unitRoom s a))
    let s := if addr = a then destPut y dst p.done (memBytes s a n) true s else s
    let s := modDesc d (fun D => { D with pass := D.pass.map fun q => { q with done := p.done + n, poisoned := true } }) s
    if p.total ≤ p.done + n then settle (endPass d s) else s

/-- The pass of descriptor `d` meets the router's answer. -/
def targetOffPass (d addr reason : Nat) (p : PassSt) (s : State) : State :=
  let x := descOf s d
  let y := descOf s x.dest
  let t := transferPoison d addr reason (p.issuer.map (·.core)) s
  if x.dest = 0xFFFFFFFF then t
  else targetOffMove d p y (blockList s y) (blockAt (blockList s x) p.done) addr t

/-- The target that an address names is off, or may be in reset: a tile or an edge stop, not a hold controller (R29). -/
def awayNow (s : State) (a : Nat) (inReset : Bool) : Bool :=
  if inReset then (match memRegion s a with | some (.scratch _) | some .lpddr | some (.host _) => true | _ => false)
  else targetAway s a

/-- ROUTER_TARGET_OFF (R29, R250): the router answers with a poisoned completion; a pass's transfer proceeds under R253: a
read delivers poison, a write stores nothing. -/
def targetOff (addr : Nat) (inReset : Bool) (d : Option Nat) (s : State) : State :=
  if !awayNow s addr inReset then s else
  let reason := if inReset then 3 else 2
  let s := emit (.poisonedCompletion reason addr) s
  match d with
  | none => countPoison reason s
  | some d => match (desc s d).pass with
    | none => bump (cntDev 24) 1 (countPoison reason s)
    | some p => targetOffPass d addr reason p s

def execRouterTargetOff (addr : Nat) (inReset : Bool) (d : Option (Fin 1048576)) (s : State) :
    Host.Outcome State Fault Refusal := .next (targetOff addr inReset (d.map (·.val)) s)

end Sys2Proof.Machine
end

