-- ==== Sys2Proof/Machine/Memory.lean ====
section
/-! DEFINITION. The memory controllers' own events (R242 to R248, R252, R367): write buffers, refresh, temperature,
initialisation and the scrubbers. -/

namespace Sys2Proof.Machine

open Sys2Proof

def execWriteBufferFlush (c : CtrlId) (s : State) : Host.Outcome State Fault Refusal := .next (flushBuffer c.val s)

/-- A refresh falls due outside self-refresh; it changes only timing (R243). -/
def refresh (c : Nat) (s : State) : State :=
  if (ch s c).trained && !(ch s c).selfRefresh then modCh c (fun C => { C with refreshes := C.refreshes + 1 }) s else s

def execLpddrRefresh (c : CtrlId) (s : State) : Host.Outcome State Fault Refusal := .next (refresh c.val s)

/-- The package reports its temperature; above 85 °C refresh is doubled (R243). -/
def lpddrTemp (c : Nat) (celsius : Int) (s : State) : State :=
  modCh c (fun C => { C with hot := decide (85 < celsius) })
    { s with mgmt := { s.mgmt with lpddrTemp := sset (fun _ => (0 : Int)) s.mgmt.lpddrTemp c celsius } }

/-- The hottest package, in degrees. -/
def hottestLpddr (s : State) : Int :=
  (List.range 16).foldl (fun m c => max m (sget (fun _ => (0 : Int)) s.mgmt.lpddrTemp c)) 0

/-- A controller has trained and written zero to its whole capacity (R248). -/
def lpddrInit (c : Nat) (s : State) : State :=
  if !(ch s c).init then s
  else
    let s := modCh c (fun C => { C with init := false, trained := true, scrubbing := true }) s
    if (List.range 16).all fun i => !(ch s i).init then plannerCopied s else s

def execLpddrInitDone (c : CtrlId) (s : State) : Host.Outcome State Fault Refusal := .next (lpddrInit c.val s)

/-- A partition has been zeroed (R242). -/
def holdInit (n : Nat) (s : State) : State :=
  if (part s n).init then modPart n (fun P => { P with init := false, scrubbing := true }) s else s

def execHoldInitDone (n : CoreId) (s : State) : Host.Outcome State Fault Refusal := .next (holdInit n.val s)

/-! ### Scrubbing (R252) -/

/-- The address lies in the unit. -/
def inUnit (s : State) (u : MemUnit) (a : Nat) : Bool :=
  match u with
  | .hold n => memRegion s a == some (.hold n.val)
  | .lpddr c => memRegion s a == some .lpddr && (lpddrPlace s (a - lpddrBase)).1 == c.val

/-- The first code word of a unit: a pass begins there. -/
def unitFirst (u : MemUnit) : Nat :=
  match u with
  | .hold n => n.val * 0x2000000
  | .lpddr c => lpddrBase + 128 * c.val

/-- The unit's scrubber runs: enabled, out of initialisation, supplied and not in self-refresh. -/
def scrubs (s : State) (u : MemUnit) : Bool :=
  bitN (reg s 0x400000) 1 && match u with
  | .hold n => (part s n.val).scrubbing && s.pwr.state != .g4 && s.pwr.state != .g5
  | .lpddr c => (ch s c.val).scrubbing && !(ch s c.val).selfRefresh

/-- An uncorrectable word in the buddy image region: the images kept there are invalid and a secure stop is due (R254). -/
def buddyHit (a : Nat) (s : State) : State :=
  if buddyRegion s ≤ a ∧ a < staging s then
    { s with res := { s.res with kept := s.res.kept.map fun x => (x.1, { x.2 with valid := false }), secureDue := true } }
  else s

/-- At the unit's first code word a pass begins: what it logs is forgotten. -/
def passStart (u : MemUnit) (w : Nat) (s : State) : State :=
  if w = unitFirst u then { s with mem := { s.mem with logged := s.mem.logged.filter fun x => !inUnit s u x } } else s

/-- A word that the scrubber neither corrects nor rewrites is noted once per pass. -/
def noteBad (w : Nat) (s : State) : State := { s with mem := { s.mem with logged := s.mem.logged ++ [w] } }

/-- The plan uses a byte: its programs, tables, homes, rings and areas (R254). -/
def planUses (s : State) (a : Nat) : Bool :=
  (match s.plan with
  | some p => p.classes.any fun r => decide (r.2.1 ≤ a) && decide (a < r.2.1 + r.2.2)
  | none => false) || (decide (descTable s ≤ a) && decide (a < lpddrTop s)) || (decide (pkgRegion s ≤ a) && decide (a < descTable s))

/-- What a word found poisoned or uncorrectable by the scrubber asks for beyond its log entry (R254): in a run the boundary takes the
path of its class; a kept image is invalid; the planner copy is loaded again. -/
def scrubPath (w reason : Nat) (s : State) : State :=
  let s := buddyHit w s
  if plannerCopy s ≤ w ∧ w < traceRegion s then plannerCopied s
  else if inRun s && planUses s w then
    { s with res := { s.res with badAddrs := s.res.badAddrs ++ [(w, reason)] }, run := { s.run with holdDue := max s.run.holdDue 4 } }
  else s

/-- A stored poison counts like an uncorrectable word for the scrubber (R252). -/
def scrubCount (a : Nat) (s : State) : State :=
  match memRegion s a with
  | some (.hold n) => lifeAdd (0x0C88 + 16 * physCore s n) 8 1 (bump (cntPart n 2) 1 s)
  | some .lpddr => lifeAdd (0x12C8 + 16 * lpddrCtrl a) 8 1 (bump (cntCh (lpddrCtrl a) 4) 1 s)
  | _ => s

/-- A scrub read of the code word of `a` finds `o`: corrected words are rewritten and counted; a poisoned or uncorrectable
word stays, and is counted and logged once per pass. -/
def scrub (u : MemUnit) (a : Nat) (o : EccOutcome) (s : State) : State :=
  if !scrubs s u || !inUnit s u a then s
  else
    let w := codeWord s a
    let s := passStart u w s
    let seen := eccSeen s w o
    if !isPoisoned s w && seen != .uncorrectable && seen != .asPoison then eccRead true w o s
    else if s.mem.logged.contains w then s
    else
      let reason := if seen == .uncorrectable then 1 else 5
      let s := eccRead true w o s
      logEv 0x0501 (b8 w) (scrubPath w reason (noteBad w (if reason = 5 then scrubCount w s else s)))

def execScrubRead (u : MemUnit) (addr : Nat) (o : EccOutcome) (s : State) : Host.Outcome State Fault Refusal :=
  .next (scrub u addr o s)

end Sys2Proof.Machine
end

