-- ==== Sys2Proof/Machine/Power.lean ====
section
/-! DEFINITION. Power states and their choice, drains, supply voltages, heat and regulators (R355 to R377, R412 to
R414). Times are in nanoseconds, temperatures in quarters of a degree. -/

namespace Sys2Proof.Machine

open Sys2Proof

/-! ### Choosing a state (R359, R361) -/

/-- Entry, exit and minimum idle time of a state. -/
def stateTimes : PowerState → Nat × Nat × Nat
  | .g1 => (20, 40, 200)
  | .g2 => (3000, 5000, 40000)
  | .g3 => (500000, 700000, 10000000)
  | .g4 => (15000000, 25000000, 200000000)
  | _ => (0, 0, 0)

/-- The deepest allowed state that the idle time and the tolerance admit; `none` of t_next is unbounded. -/
def chooseState (allowed : List PowerState) (tNext : Option Nat) (tol : Nat) (deep : Bool) : PowerState :=
  [PowerState.g1, .g2, .g3, .g4].foldl (fun (st : PowerState) (x : PowerState) =>
    let t := stateTimes x
    let long := match tNext with | some n => decide (t.2.2 ≤ n) | none => true
    if allowed.contains x && long && decide (t.1 + t.2.1 ≤ tol) && (x == .g1 || x == .g2 || deep) then x else st) .p0

def latTol (s : State) : Nat := reg s 0xB004
def deepEn (s : State) : Bool := bitN (reg s 0xB000) 1

/-! ### Idle units, groups and their drains (R362, R365) -/

def arrIdle (s : State) (c a : Nat) : Bool :=
  let A := arr s c a
  !A.streaming && A.ramp == 0 && !A.ballast && !(A.queue.any fun o => match o with
    | .tile t => t.started | .tbl .. => true | .idle .. => false)

/-- The unit has no work (0-3 arrays, 4 feeder and fill unit, 5 vector, 6 exact). -/
def unitIdle (s : State) (c u : Nat) : Bool :=
  if u < 4 then arrIdle s c u
  else if u = 4 then (List.range 4).all (arrIdle s c)
  else if u = 5 then (core s c).vec.isEmpty else (core s c).xu.isEmpty

/-- Logical cores of a group. -/
def coresOf (s : State) (g : Nat) : List Nat := (List.range (enabledCores s)).filter fun c => groupOf s c == g

def coreIdle (s : State) (c : Nat) : Bool :=
  (List.range 7).all (unitIdle s c) && (core s c).str.isEmpty &&
    (core s c).threads.all fun x => x.2.state != .running

def groupIdle (s : State) (g : Nat) : Bool := (coresOf s g).all (coreIdle s)

/-- Requests to and from a group: passes that its cores issued. -/
def groupBusy (s : State) (g : Nat) : Bool :=
  s.stm.desc.any fun x => match x.2.pass with
    | some p => (match p.issuer with | some i => groupOf s i.core == g | none => false)
    | none => false

/-! ### Core groups (R362, R366) -/

/-- The group goes OFF: its cores lose their state; their set-up registers are saved and come back with the group. -/
def groupOff (g : Nat) (s : State) : State :=
  let cs := coresOf s g
  let s := { s with pwr := { s.pwr with save := savedRegs s } }
  let s := cs.foldl (fun t c =>
    let a := scratchAddr c 0
    let t := dropTrace c t
    let t := zeroMem a 0x100000 t
    let t := { t with regs := serase (coreWindow c + 0x1000) (coreWindow c + 0x1C000) t.regs }
    modCore c (fun _ => { start := s.stroke.ticks / 10 }) t) s
  setGroup g .off s

/-- Every group whose logical cores all lie at or beyond C_plan is OFF from START to the end of the plan (R362). -/
def planGroups (s : State) : State :=
  match s.plan with
  | none => s
  | some p => (List.range 12).foldl (fun t g =>
      if group t g != .off && (coresOf t g).all fun c => decide (p.cPlan ≤ c) then groupOff g t else t) s

/-! ### Entry and exit -/

def setUnit (k : Nat) (v : Bool) (s : State) : State :=
  { s with pwr := { s.pwr with units := sset (fun _ => false) s.pwr.units k v,
                               unitExit := sset (fun _ => false) s.pwr.unitExit k false } }

/-- A power-down waits for the requests of its domain (R365). -/
def startDrain (d : Nat) (s : State) : State :=
  { s with pwr := { s.pwr with draining := if s.pwr.draining.contains d then s.pwr.draining else s.pwr.draining ++ [d] } }
def endDrain (d : Nat) (s : State) : State := { s with pwr := { s.pwr with draining := s.pwr.draining.filter (· != d) } }

/-- A voltage request of a rail awaits its acknowledgement: an entry waits for it (R372). -/
def avsWaits (s : State) : Bool := (railAvs s 0).pending || (railAvs s 1).pending

/-- t_next outside a run: the time to the declared submission, unbounded without one (R363). -/
def deviceNext (s : State) : Option Nat := s.pwr.nextAt.map fun n => n - s.boot.uptime

def unitEntry (c u tNext : Nat) (s : State) : State :=
  if unitIdle s c u && !gated s c u && chooseState [.g1] (some tNext) (latTol s) false == .g1 then setUnit (c * 8 + u) true s
  else s

def groupEntry (g tNext : Nat) (s : State) : State :=
  if group s g != .p0 || s.pwr.barred.contains g || avsWaits s || !groupIdle s g ||
     chooseState [.g2] (some tNext) (latTol s) false != .g2 then s
  else if groupBusy s g then startDrain g s
  else setGroup g .g2 (endDrain g s)

/-- No ring holds a command or has one to fetch: else the next event of the device is now. -/
def hostQuiet (s : State) : Bool := (List.range 64).all fun q => !hasEntry s q && (ring s q).fetched.isEmpty

def deviceEntry (s : State) : State :=
  let p := chooseState [.g3, .g4] (deviceNext s) (latTol s) (deepEn s)
  if !moorAllowed s || !hostQuiet s || s.pwr.state != .p0 || s.pwr.barred.contains 12 || avsWaits s || p == .p0 then s
  else if decide (0 < activePasses s) then startDrain 12 s
  else enterDeep p (endDrain 12 s)

/-- POWER_STATE_ENTRY: the power manager takes the state that R361 chooses for the scope, if it is allowed there; `tNext`
is the schedule's time to the next event of a unit or group (R362). -/
def execPowerStateEntry (sc : PowerScope) (tNext : Nat) (s : State) : Host.Outcome State Fault Refusal :=
  .next (match sc with
    | .unit c u => unitEntry c.val u.val tNext s
    | .group g => groupEntry g.val tNext s
    | .device => deviceEntry s)

def beginUnitExit (k : Nat) (s : State) : State :=
  { s with pwr := { s.pwr with unitExit := sset (fun _ => false) s.pwr.unitExit k true } }
def beginGroupExit (g : Nat) (s : State) : State :=
  { s with pwr := { s.pwr with groupExit := sset (fun _ => false) s.pwr.groupExit g true } }

/-- An exit starts; D3hot holds the device in G4 (R360), and G5 ends only by PERST_N or a management request. -/
def scopeExit (sc : PowerScope) (s : State) : State :=
  match sc with
  | .unit c u => if gated s c.val u.val then beginUnitExit (c.val * 8 + u.val) s else s
  | .group g => if group s g.val == .g2 then beginGroupExit g.val s else s
  | .device => if s.host.d3hot || s.pwr.state == .g5 then s else startExit s

def execPowerStateExit (sc : PowerScope) (s : State) : Host.Outcome State Fault Refusal := .next (scopeExit sc s)

/-- A request reached a unit or group in G1 or G2: its exit starts, and the wake is counted (R364). -/
def execUnplannedWake (sc : PowerScope) (s : State) : Host.Outcome State Fault Refusal :=
  .next (match sc with
    | .unit c u => if gated s c.val u.val then bump (cntDev 31) 1 (scopeExit sc s) else s
    | .group g => if group s g.val == .g2 then bump (cntDev 31) 1 (scopeExit sc s) else s
    | .device => scopeExit sc s)

/-- A late exit is a wake stall (R362, R390), counted in cycles. -/
def wakeStall (c? : Option Nat) (late : Nat) (s : State) : State :=
  if late = 0 then s
  else
    let n := late * 13 / 10
    let s := bump (cntDev 32) n s
    match c? with
    | some c => traceRec c 0 9 3 n 0 s
    | none => s

def exitComplete (sc : PowerScope) (late : Nat) (s : State) : State :=
  match sc with
  | .unit c u =>
    let k := c.val * 8 + u.val
    if sget (fun _ => false) s.pwr.unitExit k then wakeStall (some c.val) late (setUnit k false s) else s
  | .group g =>
    if sget (fun _ => false) s.pwr.groupExit g.val then
      let s := setGroup g.val .p0 { s with pwr := { s.pwr with groupExit := sset (fun _ => false) s.pwr.groupExit g.val false } }
      wakeStall (coresOf s g.val).head? late s
    else s
  | .device => if s.pwr.exiting then wakeStall none late (exitDeep s) else s

def execPowerExitComplete (sc : PowerScope) (late : Nat) (s : State) : Host.Outcome State Fault Refusal :=
  .next (exitComplete sc late s)

/-- A drain has lasted 100 µs: the domain stays on until the next full reset (R365). The number of a unit's domain is its
group's. -/
def drainTimeout (d count : Nat) (s : State) : State :=
  if !s.pwr.draining.contains d then s
  else
    let s := endDrain d { s with pwr := { s.pwr with barred := s.pwr.barred ++ [d] } }
    attn 6 (logEv 0x0801 (b4 d ++ b4 count) s)

def execDrainTimeout (sc : PowerScope) (count : Nat) (s : State) : Host.Outcome State Fault Refusal :=
  .next (drainTimeout (match sc with | .unit c _ => groupOf s c.val | .group g => g.val | .device => 12) count s)

/-! ### D3hot (R360) -/

/-- The host places the function in D3hot. -/
def d3hotEntry (s : State) : State :=
  let s := { s with host := { s.host with d3hot := true } }
  if moorAllowed s then
    (if s.pwr.state == .p0 || s.pwr.state == .g3 then enterDeep .g4 s else s)
  else if s.dev == .planned then (List.range 12).foldl (fun t g => if group t g == .p0 then setGroup g .g2 t else t) s
  else s

def execD3hotEntry (s : State) : Host.Outcome State Fault Refusal := .next (d3hotEntry s)

/-- The function returns to D0: the exit starts at once and queued replies are written (R339, R360). -/
def d0Return (s : State) : State :=
  if !s.host.d3hot then s
  else
    let s := { s with host := { s.host with d3hot := false } }
    let s := if s.pwr.state == .g5 then s else startExit s
    let s := if s.dev == .planned then
        (List.range 12).foldl (fun t g => if group t g == .g2 then beginGroupExit g t else t) s else s
    (List.range 64).foldl (fun t q => drainReplies q (ring t q).queued.length t) s

def execD0Return (s : State) : Host.Outcome State Fault Refusal := .next (d0Return s)

/-! ### AVS (R370, R371) -/

/-- The voltage that a rail runs at: the last acknowledged, at first the regulators' 0.75 V (R441). -/
def railVolt (s : State) (r : Nat) : Nat := if (railAvs s r).acked = 0 then 750 else (railAvs s r).acked

/-- The request of a stroke boundary: one step of at most 25 mV towards the target. -/
def avsRequest (r : Nat) (s : State) : State :=
  let x := railAvs s r
  let v := railVolt s r
  if x.pending || x.target = 0 || x.target = x.acked then s
  else
    let n := if v ≤ x.target then min x.target (v + 25) else max x.target (v - 25)
    emit (.avs r n) (modAvs r (fun x => { x with requested := n, pending := true, retries := 0 }) s)

def avsAck (r : Nat) (s : State) : State :=
  modAvs r (fun x => if x.pending then { x with pending := false, acked := x.requested, fault := false, upFault := false } else x) s

def execAvsAck (r : Fin 2) (s : State) : Host.Outcome State Fault Refusal := .next (avsAck r.val s)

/-- 50 µs without an acknowledgement: three repeats, then the fault of R371. -/
def avsTimeout (r : Nat) (s : State) : State :=
  let x := railAvs s r
  if !x.pending then s
  else if x.retries < 3 then
    emit (.avs r x.requested) (bump (cntDev 26) 1 (modAvs r (fun x => { x with retries := x.retries + 1 }) s))
  else
    let up := decide (railVolt s r < x.requested)
    let s := modAvs r (fun x => { x with pending := false, fault := true, upFault := up }) s
    let s := attn 6 (logEv 0x0802 (b4 r ++ b4 x.requested ++ b4 4) s)
    if up && inRun s then { s with run := { s.run with devFault := true } } else s

def execAvsAckTimeout (r : Fin 2) (s : State) : Host.Outcome State Fault Refusal := .next (avsTimeout r.val s)

/-! ### Droop, heat, regulators (R373 to R375, R412 to R414) -/

/-- A droop event of a group's detector or of the HOLD domain's. -/
def droop (hold : Bool) (s : State) : State := health 3 1 (bump (cntDev (if hold then 28 else 27)) 1 s)

def execDroopEvent (hold : Bool) (_g : GroupId) (s : State) : Host.Outcome State Fault Refusal := .next (droop hold s)

/-- The hottest junction sensor. -/
def hottest (s : State) : Int :=
  (List.range 30).foldl (fun (m : Int) i => if (sensor s i).valid then max m (sensor s i).reading else m) (-160)

/-- One sensor's sample. Sensor i's neighbour is sensor i xor 1. -/
def sampleOne (i : Nat) (r near : Int) (s : State) : State :=
  let x := sensor s i
  if x.fail then s
  else
    let same := x.valid && x.reading == r
    let still := if same then x.still + 1 else 0
    let base := if same then x.base else near
    let stuck := decide (10000 ≤ still) && (decide (20 ≤ near - base) || decide (20 ≤ base - near))
    let bad := decide (r < -160) || decide (600 < r) || stuck
    let y : SensorSt := { reading := if bad then 400 else r, valid := true, fail := bad, still := still, base := base }
    let s := { s with mgmt := { s.mgmt with sensors := sset sensD s.mgmt.sensors i y } }
    if bad then attn 6 (logEv 0x0A06 (b4 i) s) else s

/-- The band of the hottest sensor, which changes when it crosses a bound by 3 °C (R370). -/
def nextBand (band : Nat) (t : Int) : Nat :=
  match band with
  | 0 => if 4 * 88 ≤ t then 2 else if 4 * 53 ≤ t then 1 else 0
  | 1 => if 4 * 88 ≤ t then 2 else if t ≤ 4 * 47 then 0 else 1
  | _ => if t ≤ 4 * 47 then 0 else if t ≤ 4 * 82 then 1 else 2

def updateBand (r : Nat) (s : State) : State :=
  let s := modAvs r (fun x => { x with band := nextBand x.band (hottest s) }) s
  if s.pwr.state == .g4 || s.pwr.state == .g5 then s else modAvs r (fun x => { x with target := bandTarget s r }) s

/-- The throttle condition of R374; its start and end are logged. -/
def updateThrottle (s : State) : State :=
  let hot := decide ((4 * (bitsN (reg s 0xB01C) 0 8) : Int) ≤ hottest s) || decide (100 ≤ hottestLpddr s)
  if hot == s.pwr.throttle then s
  else logEv 0x0803 (b4 (b2n hot)) { s with pwr := { s.pwr with throttle := hot } }

/-- LPDDR_TEMP_READ: a package is read while MEMIO is on (R243, R359); its temperature may begin or end throttling (R374). -/
def lpddrTempRead (c : Nat) (celsius : Int) (s : State) : State :=
  if !s.pwr.domains || s.pwr.state == .g4 || s.pwr.state == .g5 then s else updateThrottle (lpddrTemp c celsius s)

def execLpddrTempRead (c : CtrlId) (celsius : Int) (s : State) : Host.Outcome State Fault Refusal :=
  .next (lpddrTempRead c.val celsius s)

/-- One second at the field `o` of the lifetime record, which counts whole minutes in `w` bytes (R410). -/
def lifeSecond (o w : Nat) (s : State) : State :=
  let n := sget natD s.mgmt.lifeSecs o + 1
  if n < 60 then { s with mgmt := { s.mgmt with lifeSecs := sset natD s.mgmt.lifeSecs o n } }
  else lifeAdd o w 1 { s with mgmt := { s.mgmt with lifeSecs := sset natD s.mgmt.lifeSecs o 0 } }

/-- The bin of a temperature in quarters of a degree, and of a voltage. -/
def tempBin (t : Int) : Nat := if t < 100 then 0 else min 15 ((t - 80) / 20).toNat
def coreVoltBin (mv : Nat) : Nat := min 15 ((mv - 600) / 20)
def holdVoltBin (mv : Nat) : Nat := min 15 ((mv - 700) / 5)

/-- The lengthsman's sampling once per second for the lifetime record (R410): samples of the sensors come every 1 ms. -/
def lifeTick (s : State) : State :=
  if s.mgmt.lifeMs + 1 < 1000 then { s with mgmt := { s.mgmt with lifeMs := s.mgmt.lifeMs + 1 } }
  else
    let s := lifeSecond 0x10 8 { s with mgmt := { s.mgmt with lifeMs := 0 } }
    let s := (List.range 30).foldl (fun t i => lifeSecond (0x80 + 64 * i + 4 * tempBin (sensor t i).reading) 4 t) s
    let s := (List.range 16).foldl (fun t c =>
      lifeSecond (0x800 + 64 * c + 4 * tempBin (4 * sget (fun _ => (0 : Int)) t.mgmt.lpddrTemp c)) 4 t) s
    lifeSecond (0xC40 + 4 * holdVoltBin (railVolt s 1)) 4 (lifeSecond (0xC00 + 4 * coreVoltBin (railVolt s 0)) 4 s)

/-- SENSOR_SAMPLE: the firmware samples once it runs. -/
def sensorSample (q : List Int) (s : State) : State :=
  if s.dev == .boot || s.dev == .recovery then s
  else
    let s := lifeTick s
    let s := (List.range 30).foldl (fun t i => sampleOne i (q.getD i 0) (q.getD (i ^^^ 1) 0) t) s
    updateThrottle (updateBand 1 (updateBand 0 s))

def execSensorSample (quarters : List Int) (s : State) : Host.Outcome State Fault Refusal := .next (sensorSample quarters s)

/-- A trip comparator fires: THERM_TRIP_N falls, and the trip is logged and recorded (R375, R411). -/
def thermTrip (s : State) : State :=
  if s.pins.thermTrip then s
  else
    let s := emit (.thermTripN true) { s with pins := { s.pins with thermTrip := true } }
    lifeWrite (lifeAdd 0x38 8 1 (logEv 0x0804 [] s))

def execThermTrip (s : State) : Host.Outcome State Fault Refusal := .next (thermTrip s)

def setRail (r : Nat) (x : RailTel) (s : State) : State :=
  { s with mgmt := { s.mgmt with rails := sset railD s.mgmt.rails r x } }

/-- One PMBus poll of an entered regulator. -/
def regulatorPoll (r : Nat) (a : Option RailReading) (s : State) : State :=
  if !bitN (reg s (0x100200 + 8 * r)) 7 then s
  else
    let s := emit (.pmbusPoll r) s
    match a with
    | some v => setRail r { vout := v.voutMv, iout := v.iout100ma, missed := 0, failed := false } s
    | none =>
      let x := railTel s r
      let s := setRail r { x with missed := x.missed + 1, failed := decide (3 ≤ x.missed + 1) } s
      if x.missed = 2 then logEv 0x0802 (b4 r ++ b4 0 ++ b4 3) s else s

def execRegulatorPoll (r : Fin 10) (reading : Option RailReading) (s : State) : Host.Outcome State Fault Refusal :=
  .next (regulatorPoll r.val reading s)

end Sys2Proof.Machine
end

