-- ==== Sys2Proof/Machine/Manage.lean ====
section
/-! DEFINITION. Management (R352, R389 to R394, R401 to R420, R444, R445): log and lifetime writes, the trace drain, power
and reset pins, SPDM, MCTP, PLDM and JTAG. -/

namespace Sys2Proof.Machine

open Sys2Proof

/-! ### Log, lifetime record, trace -/

/-- LOG_FLUSH: the firmware copies the waiting entries to flash (R408). -/
def execLogFlush (s : State) : Host.Outcome State Fault Refusal :=
  .next (if s.dev == .boot || s.dev == .recovery then s else flushLog s)

def execLifetimeRecordWrite (s : State) : Host.Outcome State Fault Refusal :=
  .next (if s.dev == .boot || s.dev == .recovery then s else lifeWrite s)

/-- Records that a stroke's drain may move (R393): 1.2288 TB/s for the trace region, 242 GB/s for a host window. -/
def drainBudget (s : State) (t : TraceSession) : Nat :=
  if isHostAddr t.dest then t.cap * periodNs s * 242 / 12800 else t.cap * periodNs s * 12288 / 128000

/-- The next core to serve: the first enabled core with a record, from the core after the last one served. -/
def drainCore (s : State) (t : TraceSession) : Option Nat :=
  ((List.range 96).map fun i => (t.last + 1 + i) % 96).find? fun c =>
    bitN t.cores c && !(sget bufD s.trace.bufs c).recs.isEmpty

/-- A TRACE_CTL that waits for the buffers to be drained completes (R392). -/
def traceWaitDone (s : State) : State :=
  match s.trace.waiting with
  | some w => if traceEmpty s then traceSwitch w.ring w.next s else s
  | none => s

/-- TRACE_DRAIN: one record moves to the ring; in stop-at-full mode a record that finds the ring full is dropped. -/
def traceDrain (s : State) : State :=
  match s.trace.session with
  | none => s
  | some t =>
    if drainBudget s t ≤ s.trace.moved then s
    else match drainCore s t with
      | none => traceWaitDone s
      | some c =>
        let b := sget bufD s.trace.bufs c
        let rec_ := (b.recs.head?).getD []
        let room := t.bytes / 32
        let put := fun (B : TraceBuf) (u : State) => { u with trace := { u.trace with bufs := sset bufD u.trace.bufs c B } }
        if t.mode = 1 && decide (room ≤ s.trace.wptr) then
          let s := put { b with recs := b.recs.drop 1, lost := b.lost + 1 } s
          traceWaitDone (bump (cntCore c 44) 1
            { s with trace := { s.trace with session := some { t with dropped := t.dropped + 1, last := c } } })
        else
          let s := storeBytes (t.dest + 32 * (s.trace.wptr % room)) rec_ false (put { b with recs := b.recs.drop 1 } s)
          traceWaitDone { s with trace := { s.trace with session := some { t with drained := t.drained + 1, last := c },
                                                         wptr := s.trace.wptr + 1, moved := s.trace.moved + 1 } }

def execTraceDrain (s : State) : Host.Outcome State Fault Refusal := .next (traceDrain s)

/-! ### Pins (R352, R375, R444, R445) -/

/-- VDD_AON comes up: only fuses and flash have kept anything. The lifetime record is that of the most recent slot, the
log goes on behind its last entry, and the boot ROM runs steps 1 to 4 (R401, R408, R411). -/
def aonUp (s : State) : State :=
  let life := (s.flash.life.head?).getD []
  let next := s.flash.log.foldl (fun m e => max m (e.seq + 1)) 0
  let off := sget natD life 0x58
  romSteps { State.reset with
    pending := s.pending, free := s.free, out := s.out, fuses := s.fuses, flash := s.flash,
    disabled := off, renumbered := off,
    pins := { straps := s.pins.straps, smbAddr := 0x60 + s.pins.straps % 8 },
    boot := { running := s.flash.image, first := s.boot.first, prior := s.boot.prior },
    log := { next := next }, mgmt := { life := life } }

def execVddAonUp (s : State) : Host.Outcome State Fault Refusal := .next (aonUp s)

/-- THERM_TRIP_N is released by PERST_N while every sensor reads below 95 °C (R375). -/
def tripClear (s : State) : State :=
  if s.pins.thermTrip && (List.range 30).all (fun i => decide ((sensor s i).reading < 380)) then
    emit (.thermTripN false) { s with pins := { s.pins with thermTrip := false } }
  else s

/-- PERST_N falls: a full reset begins and holds, with the host link down, until it rises (R352). -/
def perstAssert (s : State) : State :=
  let s := tripClear s
  if s.pins.perst then s
  else
    let s := { s with pins := { s.pins with perst := true } }
    if s.pins.pwrgood then fullReset s else s

def execPerstAssert (s : State) : Host.Outcome State Fault Refusal := .next (perstAssert s)

/-- The boot goes on from where it stands. -/
def bootOn (s : State) : State :=
  if s.boot.recovery || s.boot.bodyRead || s.boot.waiting then romFinish (romBody s)
  else if s.dev == .boot then bootSequence s else s

/-- PERST_N rises: boot proceeds to bring up the PCI Express function (R444). -/
def perstDeassert (s : State) : State :=
  if !s.pins.perst then s else bootOn { s with pins := { s.pins with perst := false } }

def execPerstDeassert (s : State) : Host.Outcome State Fault Refusal := .next (perstDeassert s)

/-- SYS_PWRGOOD falls: everything outside AON is clamped and lost; the log and the lifetime record are saved (R445). -/
def pwrgoodFall (s : State) : State :=
  if !s.pins.pwrgood then s
  else
    let s := lifeWrite (flushLog s)
    let s := dropHold (dropCores (dropTraces s))
    { s with pins := { s.pins with pwrgood := false, fell := true },
             boot := { s.boot with waiting := false, bodyRead := false, recovery := false, memLost := true },
             host := {}, link := {}, stm := {}, red := {}, run := {}, stroke := {}, adm := {}, cox := {}, plan := none,
             pkg := none, sources := [], pwr := { s.pwr with domains := false, state := .p0, exiting := false },
             dev := .boot }

def execSysPwrgoodFall (s : State) : Host.Outcome State Fault Refusal := .next (pwrgoodFall s)

/-- SYS_PWRGOOD rises: boot proceeds; after a fall the device performs a full reset, and LPDDR5X is initialised. -/
def pwrgoodRise (s : State) : State :=
  if s.pins.pwrgood then s
  else
    let s := { s with pins := { s.pins with pwrgood := true } }
    if s.pins.fell then
      let s := fullReset { s with pins := { s.pins with fell := false } }
      bootSequence { s with boot := { s.boot with memLost := true } }
    else bootOn s

def execSysPwrgoodRise (s : State) : Host.Outcome State Fault Refusal := .next (pwrgoodRise s)

/-! ### SPDM (R416, R417) -/

def trCode : SpdmTransport → Nat
  | .doe => 0 | .mctp => 1
/-- Connection state of a transport: 0 none, 1 version, 2 capabilities, 3 algorithms agreed. -/
def spdmState (s : State) (tr : SpdmTransport) : Nat := sget natD s.mgmt.spdm (trCode tr)
def setSpdm (tr : SpdmTransport) (n : Nat) (s : State) : State :=
  { s with mgmt := { s.mgmt with spdm := sset natD s.mgmt.spdm (trCode tr) n } }

def spdmOut (tr : SpdmTransport) (code : Nat) (body : List Byte) (s : State) : State :=
  emit (.spdm (tr == .mctp) code body) s

/-- An SPDM request: no answer in BOOT and RECOVERY; an error (UnexpectedRequest) before the state `need`. -/
def spdm (tr : SpdmTransport) (need : Nat) (f : State → State) (s : State) : State :=
  if s.dev == .boot || s.dev == .recovery then s
  else if spdmState s tr < need then spdmOut tr 0x7F [4, 0] s
  else f s

def execSpdmGetVersion (tr : SpdmTransport) (s : State) : Host.Outcome State Fault Refusal :=
  .next (spdm tr 0 (fun u => spdmOut tr 4 [0, 1, 0, 0x12] (setSpdm tr 1 u)) s)
def execSpdmGetCapabilities (tr : SpdmTransport) (s : State) : Host.Outcome State Fault Refusal :=
  .next (spdm tr 1 (fun u => spdmOut tr 0x61 Config.spdmCapabilities (setSpdm tr 2 u)) s)
def execSpdmNegotiateAlgorithms (tr : SpdmTransport) (request : List Byte) (s : State) : Host.Outcome State Fault Refusal :=
  .next (spdm tr 2 (fun u => spdmOut tr 0x63 (Config.spdmAlgorithms request) (setSpdm tr 3 u)) s)
def execSpdmGetDigests (tr : SpdmTransport) (s : State) : Host.Outcome State Fault Refusal :=
  .next (spdm tr 3 (spdmOut tr 1 (sha384 Config.certChain)) s)
def execSpdmGetCertificate (tr : SpdmTransport) (offset length : Nat) (s : State) : Host.Outcome State Fault Refusal :=
  .next (spdm tr 3 (fun u =>
    let part := (Config.certChain.drop offset).take length
    spdmOut tr 2 (leBytes 2 part.length ++ leBytes 2 (Config.certChain.length - offset - part.length) ++ part) u) s)

/-- The measurement of an index (R416). -/
def measurement (s : State) (i : Nat) : List Byte :=
  match i with
  | 1 => digestBytes s.boot.running.mDigest
  | 2 => digestBytes s.boot.running.bodyDigest
  | 3 => leBytes 1 (svnCount s) ++ leBytes 1 s.fuses.revoked ++ leBytes 1 s.boot.running.slot
  | 4 => sha384 (leBytes 4 s.boot.running.fwVersion ++ leBytes 2 s.boot.running.planner)
  | 5 => match s.pkg with | some p => p.digest | none => List.replicate 48 0
  | 6 => match s.plan with | some p => p.planDigest | none => List.replicate 48 0
  | _ => []

/-- A measurement block: index, kind (0x80 for raw bits), size, value. -/
def measBlock (s : State) (i : Nat) : List Byte :=
  let v := measurement s i
  leBytes 1 i ++ leBytes 1 (if i = 3 then 0x80 else 0) ++ leBytes 2 v.length ++ v

def execSpdmChallenge (tr : SpdmTransport) (nonce : List Byte) (s : State) : Host.Outcome State Fault Refusal :=
  .next (spdm tr 3 (fun u =>
    let body := sha384 Config.certChain ++ nonce
    spdmOut tr 3 (body ++ Config.sign body) u) s)

/-- Index 0 asks for the number of measurements, 0xFF for all of them. -/
def execSpdmGetMeasurements (tr : SpdmTransport) (index : Nat) (nonce : List Byte) (s : State) :
    Host.Outcome State Fault Refusal :=
  .next (spdm tr 3 (fun u =>
    let l := if index = 0 then [] else if index = 255 then [1, 2, 3, 4, 5, 6] else [index]
    if l.any fun i => decide (6 < i) then spdmOut tr 0x7F [1, 0] u
    else
      let body := leBytes 1 (if index = 0 then 6 else l.length) ++ l.flatMap (measBlock u) ++ nonce
      spdmOut tr 0x60 (body ++ Config.sign body) u) s)

/-! ### MCTP and PLDM (R418) -/

/-- An MCTP control message; Set Endpoint ID (command 1) gives the device its endpoint. -/
def execMctpControl (request : List Byte) (s : State) : Host.Outcome State Fault Refusal :=
  .next (
    let s := if leAt request 1 1 = 1 then { s with mgmt := { s.mgmt with mctpEid := leAt request 3 1 } } else s
    emit (.mctp (0 :: Config.mctpReply request s.mgmt.mctpEid)) s)

def execPldmDiscovery (request : List Byte) (s : State) : Host.Outcome State Fault Refusal :=
  .next (emit (.mctp (1 :: Config.pldmReply 0 request)) s)
def execPldmGetPdr (record : Nat) (s : State) : Host.Outcome State Fault Refusal :=
  .next (emit (.mctp (1 :: Config.pldmReply 2 (leBytes 4 record))) s)

/-- Numeric sensors in the order of R418: 0 to 29 thermal sensors, 30 to 45 LPDDR5X packages, both in quarters of a
degree, 46 and 47 the VDD_CORE and VDD_HOLD targets in millivolts. -/
def pldmReading (s : State) (i : Nat) : Option Int :=
  if i < 30 then some (sensor s i).reading
  else if i < 46 then some (4 * sget (fun _ => (0 : Int)) s.mgmt.lpddrTemp (i - 30))
  else if i < 48 then some ((railAvs s (i - 46)).target : Nat)
  else none

/-- Completion code, then the reading as a signed 16-bit number; 0x80 for a sensor that does not exist. -/
def execPldmGetSensorReading (sensor : Nat) (s : State) : Host.Outcome State Fault Refusal :=
  .next (emit (.mctp (match pldmReading s sensor with
    | some v => 1 :: 0 :: leBytes 2 (toTwos 16 v)
    | none => [1, 0x80])) s)

/-- State sensors: 48 STATE, 49 ATTN_CLASS. -/
def execPldmGetStateSensorReadings (sensor : Nat) (s : State) : Host.Outcome State Fault Refusal :=
  .next (emit (.mctp (if sensor = 48 then [1, 0, BitVec.ofNat 8 (devCode s.dev)]
    else if sensor = 49 then [1, 0, BitVec.ofNat 8 (max s.host.attnStep (attnLevel s))] else [1, 0x80])) s)

/-! ### JTAG (R420) -/

def setJtag (n : Nat) (s : State) : State := { s with mgmt := { s.mgmt with jtag := n } }
def bypassOut (tdi : List Bool) (s : State) : State := emit (.tdo ((false :: tdi).take tdi.length)) (setJtag 1 s)

def execJtagBypass (tdi : List Bool) (s : State) : Host.Outcome State Fault Refusal := .next (bypassOut tdi s)
/-- IDCODE (R420, the table of 16_register_map): 0x1F20_2E8F, least significant bit first. -/
def execJtagIdcode (s : State) : Host.Outcome State Fault Refusal :=
  .next (emit (.tdo ((List.range 32).map fun i => bitN 0x1F202E8F i)) (setJtag 0 s))
/-- SAMPLE/PRELOAD: the pins are read, and the cells hold what is shifted in. -/
def execJtagSamplePreload (cells : List Bool) (s : State) : Host.Outcome State Fault Refusal :=
  .next (emit (.tdo (Config.boundaryCells s.out.length))
    { s with mgmt := { s.mgmt with jtag := 2, boundary := cells } })

/-- An instruction that takes effect only while PERST_N is asserted; else it acts as BYPASS and is a refused write. -/
def jtagDrive (tdi : List Bool) (f : State → State) (s : State) : State :=
  if s.pins.perst then f s else bypassOut tdi (refuseWrite s)

/-- EXTEST and the 1149.6 instructions drive the pins from the cells. -/
def extest (n : Nat) (cells : List Bool) (s : State) : State :=
  emit (.tdo (Config.boundaryCells s.out.length))
    (emit (.pins cells) { s with mgmt := { s.mgmt with jtag := n, boundary := cells } })

def execJtagExtest (cells : List Bool) (s : State) : Host.Outcome State Fault Refusal := .next (jtagDrive cells (extest 3 cells) s)
def execJtagClamp (s : State) : Host.Outcome State Fault Refusal :=
  .next (jtagDrive [] (fun u => emit (.pins u.mgmt.boundary) (setJtag 4 u)) s)
def execJtagHighz (s : State) : Host.Outcome State Fault Refusal :=
  .next (jtagDrive [] (fun u => emit (.pins []) (setJtag 5 u)) s)
def execJtagExtestPulse (cells : List Bool) (s : State) : Host.Outcome State Fault Refusal :=
  .next (jtagDrive cells (extest 6 cells) s)
def execJtagExtestTrain (cells : List Bool) (s : State) : Host.Outcome State Fault Refusal :=
  .next (jtagDrive cells (extest 7 cells) s)

end Sys2Proof.Machine
end

