-- ==== Sys2Proof/Machine/Links.lean ====
section
/-! DEFINITION. Ports, frames and lanes (R268 to R275), and what every packet meets on arrival (R276 to R282). -/

namespace Sys2Proof.Machine

open Sys2Proof

/-! ### Failures of a port (R318) -/

/-- Report a failure to the resilience controller: a path for the next boundary. -/
def addPath (f : FailPath) (s : State) : State :=
  if s.res.paths.contains f then s else { s with res := { s.res with paths := s.res.paths ++ [f] } }

/-- The port goes down and takes path 2: in a run the step is held (R318, R319). -/
def portFails (p : Nat) (s : State) : State :=
  let s := portDown p s
  if inRun s then
    addPath { code := 2, pos := myPos s, part := p, arg := 0 } { s with run := { s.run with holdDue := max s.run.holdDue 11 } }
  else s

/-! ### Frames (R272 to R274) -/

structure FrameHdr where
  seq : Nat
  ack : Nat
  nak : Bool
  ftype : Nat
  crHop : Nat
  crClass : Nat
  crCount : Nat
  deriving DecidableEq, Repr

def readFrame (f : List Byte) : FrameHdr :=
  let h := leAt f 0 8
  { seq := bitsN h 0 12, ack := bitsN h 12 12, nak := bitN h 24, ftype := bitsN h 25 3, crHop := bitsN h 32 5,
    crClass := bitsN h 37 2, crCount := bitsN h 39 9 }

/-- An idle frame: it carries ACK, NAK and credits and takes no SEQ. -/
def idleFrame (seq ack : Nat) (nak : Bool) (hop cls count : Nat) : List Byte :=
  let b := leBytes 8 (fld seq 0 12 + fld ack 12 12 + bfl nak 24 + fld hop 32 5 + fld cls 37 2 + fld count 39 9) ++
    List.replicate 240 0
  b ++ leBytes 4 (crc32 b).toNat ++ leBytes 4 0

def sendIdle (p b : Nat) (nak : Bool) (hop cls count : Nat) (s : State) : State :=
  let S := subp s p b
  txFrame p b (idleFrame S.txSeq (lastRx S) nak hop cls count) s

/-- Return the hop credit of a packet that has left the receiver's buffer (R278). -/
def returnHop (p b : Nat) (h : PktHdr) (s : State) : State :=
  if h.cls = 0 then s else sendIdle p b false h.hops h.cls (hopUnits h) s

/-- The peer has the frames up to `ack`: they leave the retry buffer. -/
def ackFrames (ack : Nat) (l : List (Nat × List Byte)) : List (Nat × List Byte) :=
  if l.any fun x => x.1 == ack then l.takeWhile fun x => x.1 != ack else l

/-- Resend every frame that the retry buffer holds, oldest first. -/
def resendAll (p b : Nat) (s : State) : State :=
  (subp s p b).retry.reverse.foldl (fun t x => txFrame p b x.2 t) s

/-- A NAK: the frames after the last good one are sent again; replays beyond BUDGET in a stroke are reported (R273). -/
def replayFrames (p b : Nat) (s : State) : State :=
  let s := bump (cntPort p 2) 1 (modPort p (fun P => { P with replays := P.replays + 1 }) s)
  let s := if bitsN (reg s (portReg p 0x18)) 0 8 < (port s p).replays then health 2 1 (bump (cntPort p 3) 1 s) else s
  resendAll p b s

/-- A damaged frame is discarded with every later one and the sender is asked to resend; the eighth failure of one frame
takes the port down. -/
def frameBad (p b : Nat) (s : State) : State :=
  let n := (subp s p b).failRun + 1
  if 8 ≤ n then portFails p s
  else sendIdle p b true 0 0 0 (modSub p b (fun S => { S with nakSent := true, failRun := n }) s)

/-- Corrected symbols per lane, for the counters, the lane limit and the health monitor (R275, R304, R385, R410). -/
def countFec (p b : Nat) (corrected : List Nat) (s : State) : State :=
  let s := health (32 + p) 1 s
  corrected.zipIdx.foldl (fun t x =>
    let lane := (2 * b + x.2) % 4
    if x.1 = 0 then t
    else
      let t := lifeAdd (0x13C0 + 16 * (4 * p + lane)) 8 x.1 (bump (cntPort p (6 + lane)) x.1 t)
      health (64 + 4 * p + lane) x.1 <| health (16 + p) x.1 (modPort p (fun P => { P with laneSyms := smod natD P.laneSyms lane (· + x.1) }) t)) s

/-- The port switches to three lanes: frames after the last ACK are sent again (R275). -/
def switchLanes (p lane : Nat) (s : State) : State :=
  let s := modPort p (fun P => { P with spared := true, failedLanes := P.failedLanes ||| 2 ^ lane, dropPending := none,
                                        sub0 := { P.sub0 with lanes := 3 } }) s
  let s := logEv 0x0601 (b4 p ++ b4 lane) s
  addPath { code := 1, pos := myPos s, part := p, arg := 2 ^ lane } (resendAll p 0 s)

/-- A frame arrives whole: ACK, credits, NAK, and its packets in order. -/
def frameGood (p b : Nat) (f : FrameHdr) (s : State) : State :=
  let s := modSub p b (fun S => { S with retry := ackFrames f.ack S.retry }) s
  let s := if f.crCount = 0 then s else
    let t := addHop p b f.crClass f.crHop (· + f.crCount) s
    pump p b (subp t p b).stream.length t
  let s := if f.nak then replayFrames p b s else s
  let s := match (port s p).dropPending with
    | some x => switchLanes p x.1 s
    | none => s
  if f.ftype != 1 then s
  else if f.seq = (subp s p b).rxSeq then
    modSub p b (fun S => { S with rxSeq := (S.rxSeq + 1) % 4096, nakSent := false, failRun := 0 }) s
  else if (subp s p b).nakSent then s
  else sendIdle p b true 0 0 0 (modSub p b (fun S => { S with nakSent := true }) s)

/-- A lane has failed: a lane-drop frame, or the port path on a port that cannot spare it. One failure of a lane counts once. -/
def laneFails (p lane : Nat) (s : State) : State :=
  if !(port s p).sub0.up && !(port s p).sub1.up || bitN (port s p).failedLanes lane ||
      ((port s p).dropPending.map (·.1)) == some lane then s
  else
    let s := bump (cntPort p 12) 1 (lifeAdd (0x13C0 + 16 * (4 * p + lane) + 12) 4 1 s)
    let c := reg s (portReg p 0)
    if bitN c 1 || !bitN c 2 || (port s p).spared || (port s p).dropPending.isSome then
      portFails p (modPort p (fun P => { P with failedLanes := P.failedLanes ||| 2 ^ lane }) s)
    else
      let q := (port s p).sub0.txSeq
      emit (.laneDropFrame p lane q) (health 2 1 (modPort p (fun P => { P with dropPending := some (lane, q) }) s))

/-- Lanes whose corrected symbols of this stroke have passed LANE_LIMIT × 1,024 fail (R275). -/
def limitLanes (p : Nat) (s : State) : State :=
  let limit := bitsN (reg s (portReg p 0x18)) 8 8 * 1024
  (List.range 4).foldl (fun t lane => if limit < sget natD (port t p).laneSyms lane then laneFails p lane t else t) s

/-- FRAME_RECEIVED (R272, R273): the packets that a frame carries arrive by their own commands. The lanes are held to their
limit after the frame is taken: a lane-drop that it starts is answered by a later frame. -/
def frameReceived (p b : Nat) (frame : List Byte) (unc : Bool) (corrected : List Nat) (s : State) : State :=
  if !(subp s p b).up then s
  else
    let s := countFec p b corrected (bump (cntPort p 1) 1 s)
    let f := padTo 256 frame
    limitLanes p <|
      if unc then frameBad p b (bump (cntPort p 5) 1 s)
      else if leAt f 248 4 ≠ (crc32 (f.take 248)).toNat then frameBad p b (bump (cntPort p 4) 1 s)
      else frameGood p b (readFrame f) s

def execFrameReceived (p : PortId) (sub : SubId) (frame : List Byte) (uncorrectable : Bool) (corrected : List Nat)
    (s : State) : Host.Outcome State Fault Refusal :=
  .next (frameReceived p.val sub.val frame uncorrectable corrected s)

/-! ### Lanes (R275) -/

def execLaneFail (p : PortId) (lane : Fin 4) (s : State) : Host.Outcome State Fault Refusal := .next (laneFails p.val lane.val s)

/-- A lane-drop frame from the peer: both sides run on three lanes from `seq`. -/
def laneDrop (p lane : Nat) (s : State) : State :=
  if !(port s p).sub0.up then s
  else if (port s p).spared then (if bitN (port s p).failedLanes lane then s else portFails p s)
  else switchLanes p lane s

def execLaneDrop (p : PortId) (lane : Fin 4) (_seq : Nat) (s : State) : Host.Outcome State Fault Refusal :=
  .next (laneDrop p.val lane.val s)

/-- A lane-drop that does not complete takes the port path, and the port trains again (R270, R275). -/
def dropTimeout (p : Nat) (s : State) : State :=
  if (port s p).dropPending.isSome then portTrain p (portFails p (modPort p (fun P => { P with dropPending := none }) s)) else s

def execLaneDropTimeout (p : PortId) (s : State) : Host.Outcome State Fault Refusal :=
  .next (dropTimeout p.val s)

/-- PORT_TRAINED (R270): identity exchanged and latency measured, in 62.5 ps; the port carries frames from SEQ 0. -/
def portTrained (p b : Nat) (peer : PeerId) (latency lanes : Nat) (s : State) : State :=
  if !(subp s p b).training || lanes = 0 then s
  else
    let s := modSub p b (fun _ =>
      { up := true, lanes := lanes, latency := latency, peerPos := peer.pos.val, peerPort := peer.port.val,
        peerSub := peer.sub.val, peerSerial := peer.serial.toNat, peerValid := true }) s
    emit (.identity p) s

def execPortTrained (p : PortId) (sub : SubId) (peer : PeerId) (latency : Nat) (lanes : Fin 5) (s : State) :
    Host.Outcome State Fault Refusal := .next (portTrained p.val sub.val peer latency lanes.val s)

/-! ### Arrival of a packet (R276 to R282) -/

/-- LNK_BAD_PACKET: discarded, counted and logged with the port and the header's low bytes. -/
def badPacket (p h : Nat) (s : State) : State := logEv 0x0602 (b4 p ++ b8 h) (bump (cntPort p 11) 1 s)

/-- A header that breaks R276 or R277: reserved kind, too many hops, a length that is not the packet's, a non-zero zero
field but for the mark of poisoned DATA. -/
def hdrBad (hdr : Nat) (body : List Byte) : Bool :=
  let h := readHdr hdr
  !kindOk h.cls h.kind || decide (18 < h.hops) || h.len != 4 + ceilDiv body.length 4 || bitsN hdr 45 3 != 0 ||
    (h.poison && !((h.cls == 1 || h.cls == 2) && h.kind == 0))

/-- a lies before b in the order of the 16-bit epochs. -/
def epochOlder (a b : Nat) : Bool := a != b && decide ((b + 65536 - a) % 65536 < 32768)

/-- A transit device passes a packet on towards DEST with one hop more (R281). -/
def forward (p b : Nat) (h : PktHdr) (body : List Byte) (s : State) : State :=
  if 18 ≤ h.hops then badPacket p (hdrNat h) s
  else returnHop p b h (sendTo { h with hops := h.hops + 1 } body s)

/-- The packet is for this device: floods and catch markers are for every neighbour. -/
def forMe (s : State) (h : PktHdr) : Bool := (h.cls == 0 && decide (h.kind ≤ 1)) || h.dest == myPos s

/-- A packet of one kind arrives: bad ones are discarded, those for others passed on, older epochs are stale and newer
ones wait in their buffer (R282). -/
def arrive (cls kind p b hdr : Nat) (body : List Byte) (f : PktHdr → State → State) (s : State) : State :=
  let h := readHdr hdr
  if !(subp s p b).up then s
  else if h.cls != cls || h.kind != kind then s
  else if hdrBad hdr body then badPacket p hdr s
  else if !forMe s h then forward p b h body s
  else if epochOlder h.epoch s.link.epoch then returnHop p b h (bump (cntDev 24) 1 s)
  else if epochOlder s.link.epoch h.epoch then
    { s with link := { s.link with early := s.link.early ++ [(2 * p + b, leBytes 16 hdr ++ body)] } }
  else returnHop p b h (f h s)

/-- PACKET_FORWARD: a packet of any kind that is for another device. -/
def packetForward (p b hdr : Nat) (body : List Byte) (s : State) : State :=
  let h := readHdr hdr
  if !(subp s p b).up then s
  else if hdrBad hdr body then badPacket p hdr s
  else if forMe s h then s else forward p b h body s

def execPacketForward (p : PortId) (sub : SubId) (hdr : InstrWord) (body : List Byte) (s : State) :
    Host.Outcome State Fault Refusal := .next (packetForward p.val sub.val hdr.toNat body s)

end Sys2Proof.Machine
end

