-- ==== Sys2Proof/Machine/Reduce.lean ====
section
/-! DEFINITION. The reduction engine (R289 to R300): regions and their accumulators, entries, the passes of the
reduction phase, scale finding, and exact sums. -/

namespace Sys2Proof.Machine

open Sys2Proof

/-! ### Exact sums (R300) -/

/-- A W42 part joins a combining register: exact in units of 2^-544. -/
def sumPart (r : SumReg) (code : Nat) : SumReg :=
  let v := dec42 code
  let r := { r with parts := r.parts + 1 }
  match v with
  | .nan => { r with nan := true, allNegZero := false }
  | .inf s => if s then { r with negInf := true, allNegZero := false } else { r with posInf := true, allNegZero := false }
  | .fin s m e => { r with total := r.total + vAt (-544) (.fin s m e), allNegZero := r.allNegZero && s && m == 0 }

/-- The register rounded once to W42. -/
def sumRound (r : SumReg) : Nat :=
  if r.nan || (r.posInf && r.negInf) then w42Nan
  else if r.posInf then w42Inf false
  else if r.negInf then w42Inf true
  else enc42 (vOfInt r.total (-544) (r.allNegZero && r.parts != 0))

def sumAll (l : List Nat) : Nat := sumRound (l.foldl sumPart {})

/-! ### Regions -/

def planRegion (s : State) (i : Nat) : Option Region := s.plan.bind fun p => p.regions[i]?
def regionCount (s : State) : Nat := match s.plan with | some p => p.regions.length | none => 0
def posEntry (s : State) (q : Nat) : Option PosEntry := s.plan.bind fun p => p.positions.find? fun e => e.pos == q
def replicaOf (s : State) (q : Nat) : Nat := match posEntry s q with | some e => e.replica | none => 0xFFFF
def myReplica (s : State) : Nat := replicaOf s (myPos s)
def replicas (s : State) : Nat := match s.plan with | some p => p.r | none => 0

/-- The position of the device that contributes for replica `c` to this device's regions: same stage and rank. -/
def contribPos (s : State) (c : Nat) : Nat :=
  match posEntry s (myPos s), s.plan with
  | some me, some p =>
    (match p.positions.find? fun e => e.replica == c && e.stage == me.stage && e.rank == me.rank with
      | some e => e.pos | none => 0xFFF)
  | _, _ => 0xFFF

def owns (s : State) (r : Region) : Bool := r.owner == myReplica s
/-- Contributors outside the exclusion set. -/
def active (s : State) : List Nat := (List.range (replicas s)).filter fun c => !s.red.excluded.contains c
/-- x of R291. -/
def xBit (s : State) : Int := if 2048 < replicas s then 1 else 0
def bkey (i b : Nat) : Nat := i * 2 ^ 24 + b

/-! ### Accumulators (R289) -/

structure AccBlk where
  acc : List Int
  scale : Nat
  emax : Nat
  count : Nat
  ovf : Bool
  nf : Bool
  deriving DecidableEq, Repr

def readBlk (s : State) (a : Nat) : AccBlk :=
  let b := memBytes s a 208
  let c := leAt b 194 2
  { acc := (List.range 32).map fun i => sInt 48 (leAt b (6 * i) 6), scale := leAt b 192 1, emax := leAt b 193 1,
    count := c % 4096, ovf := bitN c 12, nf := bitN c 13 }

def blkBytes' (k : AccBlk) : List Byte :=
  (k.acc.flatMap fun v => leBytes 6 (toTwos 48 v)) ++ leBytes 1 k.scale ++ leBytes 1 k.emax ++
    leBytes 2 (k.count % 4096 + bfl k.ovf 12 + bfl k.nf 13) ++ List.replicate 12 0

def writeBlk (a : Nat) (k : AccBlk) (s : State) : State := memWrite a (blkBytes' k) s
def blkAddr (r : Region) (b : Nat) : Nat := r.acc + 208 * b

/-- Clear a block but for its scale (R293). -/
def clearBlk (a : Nat) (s : State) : State :=
  let k := readBlk s a
  writeBlk a { acc := List.replicate 32 0, scale := k.scale, emax := 0, count := 0, ovf := false, nf := false } s

/-- Clear a region: its blocks and both bitmaps. -/
def clearRegion (i : Nat) (r : Region) (s : State) : State :=
  modRegion i (fun _ => {}) ((List.range r.blocks).foldl (fun t b => clearBlk (blkAddr r b) t) s)

/-! ### Entries (R290, R291) -/

/-- Local gradient elements of a block, one W42 container each. -/
def gradVals (s : State) (r : Region) (b : Nat) : List Val :=
  (List.range 32).map fun i => dec42 (w42OfBytes (memBytes s (r.grad + 8 * (32 * b + i)) 8))

/-- EMAX of a block. -/
def emaxOf (vs : List Val) : Nat :=
  match groupEmax vs with
  | none => 0
  | some e => if e < -127 then 0 else if 128 ≤ e then 255 else (e + 127).toNat

/-- The region's entries are FP8 E5M2: the layer steers G and its rung's format is neither BF16 nor FP16. -/
def raFp8 (s : State) (r : Region) : Bool :=
  match s.pkg.bind fun p => p.layers[r.layer]? with
  | some y =>
    let f := rungFmt (rungByte y 2 (rungOf s r.layer 2))
    steered y 2 && f != 2 && f != 3
  | none => false

structure Entry where
  s : Nat
  emax : Nat
  ovf : Bool
  nf : Bool
  resend : Bool
  last : Bool
  contrib : Nat
  codes : List Nat
  deriving DecidableEq, Repr

/-- A contributor's entry for a block at scale code `sc`. -/
def mkEntryRA (s : State) (r : Region) (b sc : Nat) (resend last : Bool) : Entry :=
  let vs := gradVals s r b
  let e : Int := (sc : Int) - 127
  let nf := vs.any fun v => !vFinite v
  let lim := Val.fin false 1 (e - xBit s)
  let ovf := !nf && vs.any fun v => vFinite v && !vLt (vAbs v) lim
  let enc := fun (v : Val) => if raFp8 s r then (encodeScalar fmtE5M2 false (vScale (15 - e) v)).1
    else (encodeScalar fmtBF16 false (vScale (-e) v)).1
  { s := sc, emax := emaxOf vs, ovf := ovf, nf := nf, resend := resend, last := last, contrib := myReplica s,
    codes := if nf then List.replicate 32 0 else vs.map enc }

def entryBytes (fp8 : Bool) (e : Entry) : List Byte :=
  leBytes 4 (fld e.s 0 8 + fld e.emax 8 8 + bfl e.ovf 16 + bfl e.nf 17 + bfl e.resend 18 + bfl e.last 19 + fld e.contrib 20 12) ++
    e.codes.flatMap (leBytes (if fp8 then 1 else 2))

def entrySize (fp8 : Bool) : Nat := if fp8 then 36 else 68

def readEntry (fp8 : Bool) (l : List Byte) : Entry :=
  let h := leAt l 0 4
  let w := if fp8 then 1 else 2
  { s := bitsN h 0 8, emax := bitsN h 8 8, ovf := bitN h 16, nf := bitN h 17, resend := bitN h 18, last := bitN h 19,
    contrib := bitsN h 20 12, codes := (List.range 32).map fun i => leAt l (4 + w * i) w }

/-- An element as the integer added to its accumulator: trunc(v × 2^(36 − s)). -/
def accTerm (fp8 : Bool) (code : Nat) : Int :=
  if fp8 then (truncAt (-21) (decFloat fmtE5M2 code)).1 else (truncAt (-36) (decFloat fmtBF16 code)).1

/-- The counter of the adder that serves an accumulator address (R385). -/
def countAdder (a : Nat) (s : State) : State :=
  match memRegion s a with
  | some (.hold n) => bump (cntPart n 3) 1 s
  | some .lpddr => bump (cntCh (lpddrPlace s (a - lpddrBase)).1 8) 1 s
  | _ => s

def insertNat (n : Nat) (l : List Nat) : List Nat := if l.contains n then l else l ++ [n]

def heardD : Nat → List Nat := fun _ => []

/-- The owner's adder handles one entry by the first row of R292 that applies. -/
def addEntry (i : Nat) (r : Region) (fp8 : Bool) (b : Nat) (e : Entry) (s : State) : State :=
  let a := blkAddr r b
  let k := readBlk s a
  if r.blocks ≤ b || e.s != k.scale then bump (cntDev 24) 1 s
  else if s.red.excluded.contains e.contrib then s
  else
    let s := countAdder a s
    let s := if s.red.again.contains (bkey i b) then
        { s with red := { s.red with heard := smod heardD s.red.heard (bkey i b) (insertNat e.contrib) } } else s
    let k := { k with emax := max k.emax e.emax }
    let s := if e.nf then
        modRegion i (fun g => { g with nonfinite := insertNat e.contrib g.nonfinite }) (writeBlk a { k with nf := true } s)
      else if e.ovf then
        let s := writeBlk a { k with ovf := true } s
        { s with red := { s.red with ovfBy := smod (fun _ => []) s.red.ovfBy (bkey i b) (insertNat e.contrib) } }
      else
        writeBlk a { k with acc := (k.acc.zip e.codes).map (fun x => x.1 + accTerm fp8 x.2), count := k.count + 1 } s
    if e.last then modRegion i (fun g => { g with present := insertNat e.contrib g.present }) s else s

/-! ### Sending (R280, R290) -/

/-- Send the packets of one flow that its credit covers. -/
def pumpFlow (f : Nat) : Nat → State → State
  | 0, s => s
  | n + 1, s =>
    match s.red.outq.find? fun x => x.1 == f with
    | none => s
    | some (_, kind, arg, body) =>
      if !legReady s f then s
      else match legCtx s f with
        | none => s
        | some x =>
          let q := s.red.outq
          let i := q.findIdx fun y => y.1 == f
          let s := { s with red := { s.red with outq := q.eraseIdx i } }
          pumpFlow f n (sendTo (newHdr s x.cls kind x.peer f (if x.cls = 3 then s.red.gen else 0) arg body) body (creditAdd f (· + 1) s))

/-- Queue reduce packets on a flow and send as far as credit goes. -/
def sendReduce (f kind : Nat) (pkts : List (Nat × List Byte)) (s : State) : State :=
  let s := { s with red := { s.red with outq := s.red.outq ++ pkts.map fun x => (f, kind, x.1, x.2) } }
  pumpFlow f s.red.outq.length s

/-- Runs of consecutive blocks, at most `k` to a run. -/
def blockRuns (k : Nat) : List Nat → List (Nat × Nat)
  | [] => []
  | b :: t => match blockRuns k t with
    | (c, n) :: rest => if c = b + 1 && decide (n < k) then (b, n + 1) :: rest else (b, 1) :: (c, n) :: rest
    | [] => [(b, 1)]

/-- Send the entries of a region's blocks to its owner. -/
def sendEntries (r : Region) (blocks : List Nat) (resend : Bool) (s : State) : State :=
  let fp8 := raFp8 s r
  let lastB := blocks.getLast?
  let pkt := fun (x : Nat × Nat) => (x.1, (List.range x.2).flatMap fun j =>
    let b := x.1 + j
    entryBytes fp8 (mkEntryRA s r b (memByte s (r.scales + b)).toNat resend (some b == lastB)))
  sendReduce r.flow (if fp8 then 1 else 0) ((blockRuns 7 blocks).map pkt) s

/-- The owner adds its own gradient through the same adders. -/
def addOwn (i : Nat) (r : Region) (blocks : List Nat) (resend : Bool) (s : State) : State :=
  if s.red.excluded.contains (myReplica s) then s
  else
    let lastB := blocks.getLast?
    blocks.foldl (fun t b =>
      addEntry i r (raFp8 t r) b (mkEntryRA t r b (readBlk t (blkAddr r b)).scale resend (some b == lastB)) t) s

/-! ### The passes (R293 to R295) -/

/-- The reduction engine's own packets that wait for credit are dropped: their pass is over. -/
def dropEntries (s : State) : State :=
  let own := fun (f : Nat) => (List.range (regionCount s)).any fun i => match planRegion s i with
    | some r => r.flow == f || r.down.any fun x => x.2 == f
    | none => false
  { s with red := { s.red with outq := s.red.outq.filter fun x => !own x.1 } }

/-- A pass over every region: owners clear theirs and add their own entries; contributors send. -/
def runPass (resend : Bool) (s : State) : State :=
  let s := dropEntries s
  let s := { s with red := { s.red with again := [], heard := [], ovfBy := [] } }
  let own := (List.range (regionCount s)).foldl (fun t i => match planRegion t i with
    | some r => if owns t r then addOwn i r (List.range r.blocks) resend (clearRegion i r t) else t
    | none => t) s
  (List.range (regionCount own)).foldl (fun t i => match planRegion t i with
    | some r => if owns t r || t.red.excluded.contains (myReplica t) then t else sendEntries r (List.range r.blocks) resend t
    | none => t) own

/-- Every contributor outside the exclusion set has sent its last entry of an owned region. -/
def regionFull (s : State) (i : Nat) : Bool := (active s).all fun c => (regionSt s i).present.contains c
def ownedRegions (s : State) : List (Nat × Region) :=
  (List.range (regionCount s)).filterMap fun i => (planRegion s i).bind fun r => if owns s r then some (i, r) else none
def allFull (s : State) : Bool := (ownedRegions s).all fun x => regionFull s x.1

/-- The positions of contributors as an operand of 4,096 bits. -/
def posMask (s : State) (cs : List Nat) : Nat := cs.foldl (fun m c => m ||| 2 ^ contribPos s c) 0
/-- Contributors that a region or a block in re-reduction still waits for. -/
def myMissing (s : State) : Nat :=
  posMask s ((active s).filter fun c => ((ownedRegions s).any fun x => !(regionSt s x.1).present.contains c) ||
    s.red.again.any fun k => !(sget heardD s.red.heard k).contains c)
def myNonfinite (s : State) : Nat :=
  posMask s ((List.range (replicas s)).filter fun c => (ownedRegions s).any fun x => (regionSt s x.1).nonfinite.contains c)
def ovfBlocks (s : State) (r : Region) : List Nat := (List.range r.blocks).filter fun b => (readBlk s (blkAddr r b)).ovf
def myOvf (s : State) : Bool := (ownedRegions s).any fun x => !(ovfBlocks s x.2).isEmpty

/-- Positions of a mask, and their replicas. -/
def maskPositions (m : Nat) : List Nat := (List.range 4096).filter (bitN m)
def maskReplicas (s : State) (m : Nat) : List Nat :=
  (((maskPositions m).map (replicaOf s)).filter fun c => decide (c < replicas s)).eraseDups

/-- Re-reduction of one block at its owner (R293 order 4): a higher scale, or, past 127, the contributors that flagged OVF
count as non-finite. -/
def rereduce (i : Nat) (r : Region) (b : Nat) (s : State) : State :=
  let a := blkAddr r b
  let k := readBlk s a
  let s1 : Int := (k.emax : Int) - 127 + 1 + xBit s
  let key := bkey i b
  let flagged := sget (fun _ => ([] : List Nat)) s.red.ovfBy key
  let s := { s with red := { s.red with ovfBy := sset (fun _ => []) s.red.ovfBy key [], heard := sset heardD s.red.heard key [] } }
  if 127 < s1 then
    let s := { s with red := { s.red with again := s.red.again.filter (· != key) } }
    modRegion i (fun g => { g with nonfinite := flagged.foldl (fun l c => insertNat c l) g.nonfinite }) (writeBlk a { k with ovf := false } s)
  else
    let sc := (s1 + 127).toNat
    let s := writeBlk a { acc := List.replicate 32 0, scale := sc, emax := 0, count := 0, ovf := false, nf := k.nf } s
    let s := { s with red := { s.red with again := insertNat key s.red.again } }
    let s := r.down.foldl (fun t x => if t.red.excluded.contains x.1 then t else sendReduce x.2 3 [(b, [BitVec.ofNat 8 sc])] t) s
    addOwn i r [b] true s

/-- Rounds of re-reduction of a block once every contributor has answered; `n` bounds the rounds that need no other
device. -/
def settleBlk (i : Nat) (r : Region) (b : Nat) : Nat → State → State
  | 0, s => s
  | n + 1, s =>
    let key := bkey i b
    let flagged := (sget (fun _ => ([] : List Nat)) s.red.ovfBy key).length
    if !s.red.again.contains key || !((active s).all fun c => (sget heardD s.red.heard key).contains c) then s
    else if flagged = 0 then { s with red := { s.red with again := s.red.again.filter (· != key) } }
    else settleBlk i r b n (rereduce i r b s)

/-- The owner begins to re-reduce the blocks whose OVF bit is set. -/
def startRereduce (s : State) : State :=
  (ownedRegions s).foldl (fun t x => (ovfBlocks t x.2).foldl (fun u b =>
    settleBlk x.1 x.2 b 300 (rereduce x.1 x.2 b u)) t) { s with red := { s.red with pass := 4 } }

/-! ### Results of the phase's control reductions -/

/-- A device is lost (R323): logged with its cause; a device lost while a step runs holds it, but not one that a reduction
deadline found missing. -/
def loseDevice (pos cause : Nat) (s : State) : State :=
  if s.res.lost.contains pos then s
  else logEv 0x0707 (b4 pos ++ b4 cause ++ b8 s.stroke.count) { s with res := { s.res with lost := s.res.lost ++ [pos] } }

/-- Sequences of the running step that this device's replica holds: logged for each contributor excluded for non-finite
values (R295). -/
def logSamples (s : State) : State :=
  (List.range 4096).foldl (fun t i =>
    let r := slot t i
    if r.state != 0 && r.step == t.run.step && (t.adm.segments.any fun g => g.slot == i && g.step == t.run.step) then
      logEv 0x0606 (b4 r.source ++ b8 r.sample ++ b8 (sget natD t.adm.ids i)) t else t) s

def excludeOne (cause : Nat) (c : Nat) (s : State) : State :=
  let s := { s with red := { s.red with excluded := insertNat c s.red.excluded }, run := { s.run with excludedFlag := true } }
  let s := logEv 0x0607 (b4 c ++ b4 cause) (bump (cntDev 14) 1 s)
  if cause = 2 && c = myReplica s then logSamples s else s

/-- A deadline decision is a timed decision: one journal entry and one log entry for each contributor that it adds. -/
def recordMissing (m : Nat) (s : State) : State :=
  (maskPositions m).foldl (fun t p => takeTimed 1 p 0 (fun u =>
    loseDevice p 2 (logEv 0x0605 (b4 u.run.step ++ b8 u.stroke.count ++ b4 p) u)) t) s

/-- The step is skipped on every device. -/
def skipStep (s : State) : State :=
  let s := dropEntries s
  { s with run := { s.run with skipped := true, redDone := true }, red := { s.red with pass := 5, again := [] } }

/-- The checkpoint decision (R294): skip, exclusion pass, or re-reduction and conversion. -/
def redDecide (s : State) : State :=
  let m := s.red.missing.head?.getD 0
  let f := s.red.nfSet.head?.getD 0
  let s := if s.red.byDeadline then recordMissing m s else s
  let nfR := maskReplicas s f
  let new := ((maskReplicas s m ++ nfR).eraseDups).filter fun c => !s.red.excluded.contains c
  let nfSkip := match s.plan with | some p => p.nfSkip | none => false
  let s := { s with red := { s.red with byDeadline := false, missing := [], nfSet := [], got := [],
                                        late := (s.red.late ++ maskReplicas s m).eraseDups } }
  if f != 0 && nfSkip then skipStep s
  else if replicas s ≤ (s.red.excluded ++ new).length then skipStep s
  else if !new.isEmpty then
    let s := new.foldl (fun t c => excludeOne (if nfR.contains c then 2 else 1) c t) s
    runPass true { s with red := { s.red with pass := 3, gen := s.red.gen + 1, checkAt := s.stroke.count } }
  else if s.red.pass = 6 then
    { s with red := { s.red with pass := 5 }, run := { s.run with redDone := true } }
  else if s.red.pass = 2 && !s.red.ovf then { s with red := { s.red with pass := 4, checkAt := s.stroke.count } }
  else startRereduce { s with red := { s.red with checkAt := s.stroke.count } }

/-- This device's pass is complete: its owned regions are full and nothing is left to re-reduce. -/
def passDone (s : State) : Bool := allFull s && s.red.again.isEmpty

/-- Scale finding is complete here: as owner every contributor has been heard, as contributor every block has its scale. -/
def scalesDone (s : State) : Bool :=
  (List.range (regionCount s)).all fun i => match planRegion s i with
    | some r =>
      let heard := sget (fun _ => ([] : List Nat)) s.red.upFrom i
      if owns s r then (List.range (replicas s)).all fun c => c == r.owner || (List.range r.blocks).all fun b => heard.contains (c * 2 ^ 24 + b)
      else (List.range r.blocks).all fun b => heard.contains b
    | none => true

/-- What the reduction engine does with the result of a control reduction, and the operands that this sets free. The first
argument bounds the nesting: a device alone in its system holds each result at once. -/
def redResult : Nat → Nat → Nat → State → State
  | 0, _, _, s => s
  | n + 1, id, acc, s =>
    if s.run.phase != .reduction && id != ctlScale then s
    else if id = ctlRedDone then
      if acc % 2 = 0 then s
      else if s.red.pass = 1 then
        let s := { s with red := { s.red with pass := 2 } }
        ctlOwn (redResult n ctlOvf) ctlOvf (b2n (myOvf s)) (ctlOwn (redResult n ctlNonfinite) ctlNonfinite (myNonfinite s)
          (ctlOwn (redResult n ctlMissing) ctlMissing (myMissing s) s))
      else if s.red.pass = 3 || s.red.pass = 4 then
        let s := { s with red := { s.red with pass := 6, missing := [0], got := [ctlMissing, ctlOvf] } }
        ctlOwn (redResult n ctlNonfinite) ctlNonfinite (myNonfinite s &&& (2 ^ 4096 - 1 - posMask s s.red.excluded)) s
      else s
    else if id = ctlMissing || id = ctlNonfinite || id = ctlOvf then
      let s := { s with red := { s.red with
        missing := if id = ctlMissing then [acc] else s.red.missing,
        nfSet := if id = ctlNonfinite then [acc] else s.red.nfSet,
        ovf := if id = ctlOvf then acc % 2 == 1 else s.red.ovf, got := insertNat id s.red.got } }
      if s.red.got.length < 3 then s
      else
        let t := redDecide s
        if t.red.pass = 3 && allFull t then
          let t := startRereduce t
          if passDone t then ctlOwn (redResult n ctlRedDone) ctlRedDone 1 t else t
        else if t.red.pass = 4 && passDone t then ctlOwn (redResult n ctlRedDone) ctlRedDone 1 t
        else t
    else if id = ctlScale then
      if acc % 2 = 1 then { s with red := { s.red with scaleFind := false, scalesKnown := true } } else s
    else s

def redFuel : Nat := 64

/-- After an entry or a decision: the exclusion pass goes over to re-reduction, and the device's AND operand is sent once
its pass is complete. -/
def redCheck (s : State) : State :=
  if s.run.phase != .reduction then s
  else
    let s := if s.red.pass = 3 && allFull s then startRereduce s else s
    if (s.red.pass = 1 || s.red.pass = 4) && passDone s && !(ctlGet s ctlRedDone).own then
      ctlOwn (redResult redFuel ctlRedDone) ctlRedDone 1 s
    else s

/-- The first pass begins (R293); recorded decisions of a replay exclude their contributors from the start (R295). -/
def startReduction (s : State) : State :=
  let rep := (recorded s 1).map fun e => replicaOf s e.pos
  let s := { s with red := { s.red with pass := 1, excluded := rep.eraseDups, late := rep.eraseDups, gen := 0, missing := [], nfSet := [], got := [],
                                        byDeadline := false, checkAt := s.stroke.count } }
  redCheck (runPass false s)

/-- Strokes between a pass's start and its deadline: Q for the first pass counts from the phase (R195, R293). -/
def redDue (s : State) : Bool :=
  match s.plan with
  | none => false
  | some p =>
    let late := max 2 (ceilDiv p.q 4)
    decide (s.red.checkAt + p.q + late ≤ s.stroke.count)

/-- REDUCTION_DEADLINE (R293 to R295): the pass ends, and the checkpoint fixes who is missing. A replay with a recorded decision
for the step does not decide again from time (R37). -/
def reductionDeadline (s : State) : State :=
  if s.run.phase != .reduction || !redDue s || !(recorded s 1).isEmpty || !(s.red.pass = 1 || s.red.pass = 3 || s.red.pass = 4) then s
  else
    let s := ctlClear ctlRedDone { s with red := { s.red with pass := 2, byDeadline := true, got := [] } }
    ctlOwn (redResult redFuel ctlOvf) ctlOvf (b2n (myOvf s)) (ctlOwn (redResult redFuel ctlNonfinite) ctlNonfinite (myNonfinite s)
      (ctlOwn (redResult redFuel ctlMissing) ctlMissing (myMissing s) s))

def execReductionDeadline (s : State) : Host.Outcome State Fault Refusal := .next (reductionDeadline s)

/-! ### Scale finding (R298) -/

/-- The owner's scale of a block once every contributor's EMAX is in. -/
def findScale (i : Nat) (r : Region) (b : Nat) (s : State) : State :=
  let heard := sget (fun _ => ([] : List Nat)) s.red.upFrom i
  if !((List.range (replicas s)).all fun c => c == r.owner || heard.contains (c * 2 ^ 24 + b)) then s
  else
    let e := max (sget natD s.red.emaxUp (bkey i b)) (emaxOf (gradVals s r b))
    let sc := ((e : Int) - 127 + 1 + xBit s + 127).toNat
    let k := readBlk s (blkAddr r b)
    let s := writeBlk (blkAddr r b) { k with scale := min sc 254 } s
    r.down.foldl (fun t x => sendReduce x.2 3 [(b, [BitVec.ofNat 8 (min sc 254)])] t) s

/-- The exchange begins between compute and reduction. -/
def startScaleFind (s : State) : State :=
  let s := logEv 0x0608 (b4 s.run.step) { s with red := { s.red with scaleFind := true, upFrom := [], emaxUp := [] } }
  let s := (List.range (regionCount s)).foldl (fun t i => match planRegion t i with
    | some r =>
      if owns t r then (List.range r.blocks).foldl (fun u b => findScale i r b u) t
      else sendReduce r.flow 2 ((blockRuns 256 (List.range r.blocks)).map fun x =>
        (x.1, (List.range x.2).map fun j => BitVec.ofNat 8 (emaxOf (gradVals t r (x.1 + j))))) t
    | none => t) s
  if scalesDone s then ctlOwn (redResult redFuel ctlScale) ctlScale 1 s else s

def scaleCheck (s : State) : State :=
  if s.red.scaleFind && scalesDone s && !(ctlGet s ctlScale).own then ctlOwn (redResult redFuel ctlScale) ctlScale 1 s else s

/-- Scales of the next step, taken by the owner after the last pass (R297). -/
def nextScale (s : State) (k : AccBlk) : Nat :=
  if k.emax = 0 then k.scale
  else
    let v : Int := (k.emax : Int) - 127 + 2 + xBit s
    ((min 127 (max (-127) v)) + 127).toNat

def takeScales (s : State) : State :=
  if s.run.skipped then s
  else (ownedRegions s).foldl (fun t x => (List.range x.2.blocks).foldl (fun u b =>
    let k := readBlk u (blkAddr x.2 b)
    writeBlk (blkAddr x.2 b) { k with scale := nextScale u k } u) t) s

/-! ### Reduce packets at their destination -/

/-- The receiving context of a flow. -/
def rxCtx (s : State) (f : Nat) : Option FlowCtx := s.plan.bind fun p => p.flows.find? fun x => x.id == f && !x.sending

/-- Return flow credit to the source once the bytes have been used (R280). -/
def returnCredit (h : PktHdr) (s : State) : State :=
  let body := leBytes 4 h.flow ++ leBytes 4 1 ++ List.replicate 8 0
  sendTo (newHdr s 0 5 h.src 0 0 0 body) body s

/-- Entries of an RA packet. -/
def entriesOf (fp8 : Bool) (body : List Byte) : List Entry :=
  (chunks (entrySize fp8) 7 body).map (readEntry fp8)

/-- RA_BF16 and RA_FP8 at the owner (R292). -/
def raPacket (fp8 : Bool) (h : PktHdr) (body : List Byte) (s : State) : State :=
  match rxCtx s h.flow with
  | some c => match c.target with
    | .region i => match planRegion s i with
      | some r =>
        if !owns s r || h.gen != s.red.gen % 2 ^ 16 || s.run.phase != .reduction then returnCredit h (bump (cntDev 24) 1 s)
        else
          let s := (entriesOf fp8 body).zipIdx.foldl (fun t x =>
            settleBlk i r (h.arg + x.2) 300 (addEntry i r fp8 (h.arg + x.2) x.1 t)) s
          redCheck (returnCredit h s)
      | none => s
    | _ => s
  | none => s

/-- The owner hears one block's EMAX from replica `who`. -/
def hearEmax (i : Nat) (r : Region) (who b x : Nat) (s : State) : State :=
  let s := { s with red := { s.red with
    emaxUp := smod natD s.red.emaxUp (bkey i b) (max x),
    upFrom := smod (fun _ => []) s.red.upFrom i (insertNat (who * 2 ^ 24 + b)) } }
  if s.red.scaleFind then findScale i r b s else s

/-- SCALE_UP at the owner (R298). -/
def scaleUp (h : PktHdr) (body : List Byte) (s : State) : State :=
  match rxCtx s h.flow with
  | some c => match c.target with
    | .region i => match planRegion s i with
      | some r =>
        let who := replicaOf s h.src
        let s := body.zipIdx.foldl (fun t x => hearEmax i r who (h.arg + x.2) x.1.toNat t) s
        scaleCheck (returnCredit h s)
      | none => s
    | _ => s
  | none => s

/-- A contributor has the scales of blocks `bs`: scale finding hears them, and the reduction resends them. -/
def newScales (i : Nat) (r : Region) (bs : List Nat) (s : State) : State :=
  let heard := bs.foldl (fun l b => insertNat b l) (sget (fun _ => ([] : List Nat)) s.red.upFrom i)
  if s.red.scaleFind then
    scaleCheck { s with red := { s.red with upFrom := sset (fun _ => []) s.red.upFrom i heard } }
  else if s.run.phase == .reduction && !s.red.excluded.contains (myReplica s) then sendEntries r bs true s
  else s

/-- SCALE_DOWN at a contributor: a scale of scale finding, or a block to resend at a higher scale (R293, R298). -/
def scaleDown (h : PktHdr) (body : List Byte) (s : State) : State :=
  match rxCtx s h.flow with
  | some c => match c.target with
    | .region i => match planRegion s i with
      | some r => newScales i r ((List.range body.length).map (h.arg + ·)) (memWrite (r.scales + h.arg) body (returnCredit h s))
      | none => s
    | _ => s
  | none => s

def execRaBf16 (p : PortId) (sub : SubId) (hdr : InstrWord) (body : List Byte) (s : State) : Host.Outcome State Fault Refusal :=
  .next (arrive 3 0 p.val sub.val hdr.toNat body (fun h u => raPacket false h body u) s)
def execRaFp8 (p : PortId) (sub : SubId) (hdr : InstrWord) (body : List Byte) (s : State) : Host.Outcome State Fault Refusal :=
  .next (arrive 3 1 p.val sub.val hdr.toNat body (fun h u => raPacket true h body u) s)
def execScaleUp (p : PortId) (sub : SubId) (hdr : InstrWord) (body : List Byte) (s : State) : Host.Outcome State Fault Refusal :=
  .next (arrive 3 2 p.val sub.val hdr.toNat body (fun h u => scaleUp h body u) s)
def execScaleDown (p : PortId) (sub : SubId) (hdr : InstrWord) (body : List Byte) (s : State) : Host.Outcome State Fault Refusal :=
  .next (arrive 3 3 p.val sub.val hdr.toNat body (fun h u => scaleDown h body u) s)

end Sys2Proof.Machine
end

