-- ==== Sys2Proof/Machine/Image.lean ====
section
/-! DEFINITION. The secured image (R308 to R311, R315): header, section table and sections. The order of the fields inside a
section is the model's (a marked choice); R308 gives what each holds. Writing an image, checking one, and loading one. -/

namespace Sys2Proof.Machine

open Sys2Proof

/-! ### Helpers shared with the update engines -/

/-- The run seed: that of source 0 (R113). -/
def runSeed (s : State) : Nat := match source s 0 with | some x => x.seed | none => 0

/-- The key of a stream: seed, position, layer, role, slot (R110). -/
def rngKeyOf (seed pos layer role slot_ : Nat) : List Byte :=
  (sha384 (leBytes 8 seed ++ leBytes 2 pos ++ leBytes 2 layer ++ leBytes 1 role ++ [1] ++ leBytes 2 slot_ ++ List.replicate 16 0)).take 16

/-- The other copy of an address within the stored tensors (R309). -/
def otherCopy (s : State) (a : Nat) : Nat :=
  match s.run.copies.find? fun c => decide (c.1 ≤ a) && decide (a < c.1 + c.2.2) with
  | some c => a - c.1 + c.2.1
  | none => a

/-! ### Memory ranges of the sections that are bytes of memory (R308) -/

def planOf (s : State) (f : Plan → List (Nat × Nat)) : List (Nat × Nat) := match s.plan with | some p => f p | none => []

/-- Planes of the tensors of some kinds, in tensor ID order. -/
def kindPlanes (kinds : List Nat) (p : Plan) : List (Nat × Nat) :=
  (p.tensors.filter fun t => kinds.contains t.kind).flatMap fun t => [(t.plane0, planeBytes t), (t.plane1, scaleBytes t)]

/-- WEIGHTS: stored weights and constants, then the codebooks of TC4 layers. -/
def weightRanges (s : State) : List (Nat × Nat) :=
  planOf s fun p => kindPlanes [2, 6] p ++ p.books.map fun g => (g.book, 32)

/-- Bytes of a moment of an owned piece: its elements, and its scales for an MX format. -/
def momentRange (p : Piece) (fmt a sc : Nat) : List (Nat × Nat) :=
  match fmtOfCode fmt with
  | some f => if isMx f then [(a, 32 * blocksOf p), (sc, blocksOf p)] else [(a, 64 * blocksOf p)]
  | none => []

/-- MOMENTS: the moments of the owned pieces. -/
def momentRanges (s : State) : List (Nat × Nat) :=
  planOf s fun p => p.pieces.flatMap fun x => momentRange x x.m1Fmt x.m1 x.m1Scale ++
    (if x.m2Tensor = noTensor then [] else momentRange x x.m2Fmt x.m2 x.m2Scale)

/-- SCALES: a contributor's scale tables, an owner's S fields. -/
def scaleRanges (s : State) : List (Nat × Nat) :=
  planOf s fun p => p.regions.flatMap fun r =>
    if owns s r then (List.range r.blocks).map fun b => (blkAddr r b + 192, 1) else [(r.scales, r.blocks)]

/-- The weights that the last committed step read: the copy that is not current (R309). -/
def replayRanges (s : State) : List (Nat × Nat) :=
  (planOf s (kindPlanes [2])).map fun x => (if s.run.lastSkipped then x.1 else otherCopy s x.1, x.2)

def readRanges (s : State) (l : List (Nat × Nat)) : List Byte := l.flatMap fun x => memBytes s x.1 x.2

def writeRanges : List (Nat × Nat) → List Byte → State → State
  | [], _, s => s
  | (a, n) :: t, b, s => writeRanges t (b.drop n) (memStore a (b.take n) s)

def rangeBytes (l : List (Nat × Nat)) : Nat := l.foldl (fun m x => m + x.2) 0

/-! ### The other sections, written -/

def byteOf (n : Nat) : List Byte := leBytes 1 n

def momentPowers (s : State) : List Byte := s.run.opt.flatMap fun x => b4 x.2.1 ++ b4 x.2.2

def coxSection (s : State) (pk : Pkg) : List Byte :=
  (pairs pk).flatMap (fun x =>
    let k := pairKey x.1 x.2.1
    byteOf (rungOf s x.1 x.2.1) ++ b4 (quietOf s x.1 x.2.1) ++ byteOf (pinOf s x.1 x.2.1) ++ byteOf (b2n (s.cox.released.contains k))) ++
  (List.range (2 * pk.layers.length)).flatMap (fun k =>
    let v := sget (fun _ => (0, 0)) s.cox.norm k
    b4 v.1 ++ byteOf v.2) ++
  byteOf s.cox.stormCount ++ byteOf s.cox.hold ++ byteOf s.cox.recovery ++ (capturedRegs.flatMap fun o => b4 (cap s o)) ++
  byteOf s.cox.history.length ++ s.cox.history.flatMap fun h => b4 h.1 ++ b4 h.2.length ++ h.2.flatMap recBytes

/-- Slot records, SAMPLE_IDs, packing, and the sources without their host addresses. -/
def dataSection (a : AdmSt) (src : List (Nat × Option Source)) : List Byte :=
  (List.range 4096).flatMap (fun i => slotBytes (sget slotD a.slots i) ++ b8 (sget natD a.ids i)) ++
  b4 a.step ++ b4 a.mb ++ b4 a.fill ++ b4 a.count ++
  (List.range 16).flatMap (fun i => match sget srcD src i with
    | some x => byteOf 1 ++ byteOf x.weight ++ leBytes 2 0 ++ b4 x.seqMax ++ b8 x.seed ++ leBytes 8 (toTwos 64 x.credit) ++ b8 x.next ++
        b8 x.admitted ++ b8 x.released
    | none => List.replicate 48 0) ++
  b4 a.segments.length ++ a.segments.flatMap fun g => b4 g.step ++ b4 g.mb ++ b4 g.slot ++ b4 g.first ++ b4 g.length

/-- Keys and counter bases of the stored-state streams of the owned pieces (R110, R111). -/
def randomSection (s : State) : List Byte :=
  match s.plan with
  | some p => p.pieces.flatMap fun x => [0, 3, 4].flatMap fun role =>
      rngKeyOf (runSeed s) p.pos x.layer role 0xFFFF ++ b8 (s.run.step * 2 ^ 32)
  | none => []

def runSection (s : State) (p : Plan) (pk : Pkg) : List Byte :=
  b4 p.inputRec.length ++ p.inputRec ++ b4 (pairs pk).length ++ (pairs pk).flatMap (rungBytes s p) ++
    b4 p.positions.length ++ p.positions.flatMap posBytes ++ leBytes 2 s.link.epoch ++
    b4 s.res.journal.length ++ s.res.journal.flatMap journalBytes

/-- REPLAY: weights, slot records and source state as the step began, its rungs, and its input record where it differs. -/
def replaySection (s : State) (p : Plan) (pk : Pkg) : List Byte :=
  let k := s.run.snapLast
  let inp := if k.input = p.inputRec then [] else k.input
  b4 (rangeBytes (replayRanges s)) ++ readRanges s (replayRanges s) ++
    ((pairs pk).flatMap fun x => byteOf (sget natD k.rungs (pairKey x.1 x.2.1))) ++ b4 inp.length ++ inp ++ dataSection k.adm k.sources

def imageSections (s : State) (p : Plan) (pk : Pkg) : List (List Byte) :=
  [readRanges s (weightRanges s), readRanges s (momentRanges s) ++ momentPowers s, coxSection s pk,
   readRanges s (scaleRanges s), dataSection s.adm s.sources, randomSection s, runSection s p pk, replaySection s p pk]

/-! ### Header and table (R308) -/

/-- The section table: TYPE, zeros, OFFSET, LENGTH, SHA-384, zeros; 80 bytes an entry. -/
def imageTable : Nat → Nat → List (List Byte) → List Byte
  | _, _, [] => []
  | t, o, b :: r => b4 t ++ b4 0 ++ b8 o ++ b8 b.length ++ sha384 b ++ b8 0 ++ imageTable (t + 1) (o + b.length) r

def hostCopyRequired (s : State) : Bool := match posEntry s (myPos s) with | some e => e.shared | none => false

/-- The header with a given HDR_DIGEST. -/
def imageHeader (s : State) (p : Plan) (pk : Pkg) (bytes wdigest : Nat) (dig : List Byte) : List Byte :=
  b4 0x474D4953 ++ leBytes 2 1 ++ leBytes 2 8 ++ leBytes 2 p.pos ++ leBytes 2 (reg s 0x14) ++
    b4 (3 * b2n (hostCopyRequired s)) ++ b8 (stepField s) ++ b8 s.res.secStart ++ b8 bytes ++ leBytes 2 s.link.epoch ++
    List.replicate 6 0 ++ p.planDigest ++ pk.digest ++ p.inputDigest ++ b8 wdigest ++ b4 s.run.loss.toNat ++ b4 s.run.tokens.toNat ++ dig

/-- The image of the state as it is now; the system weight digest enters the header at the stop's end. -/
def makeImage (s : State) (p : Plan) (pk : Pkg) (wdigest : Nat) : List Byte :=
  let secs := imageSections s p pk
  let body := imageTable 1 (256 + 80 * 8) secs ++ secs.flatten
  let h := fun d => imageHeader s p pk (256 + body.length) wdigest d
  h (sha384 (h (List.replicate 48 0))) ++ body

/-- This device's part of the system weight digest (R315). -/
def ownWeightDigest (s : State) : Nat :=
  match s.plan with
  | some p => leAt (sha384 ((p.pieces.mergeSort fun a b => decide (a.tensor ≤ b.tensor)).flatMap fun x => memBytes s x.cur (2 * x.elems))) 0 8
  | none => 0

/-! ### Checks (R310) -/

def imgHas (d : List Byte) : Bool := decide (256 ≤ d.length) && leAt d 0 4 == 0x474D4953

def imgHeaderOk (d : List Byte) : Bool :=
  imgHas d && leAt d 4 2 == 1 && leAt d 6 2 == 8 && leAt d 0x20 8 == d.length &&
    slice d 0xD0 48 == sha384 (d.take 0xD0 ++ List.replicate 48 0)

/-- The bytes of section `t`, and whether they meet their digest. -/
def imgSection (d : List Byte) (t : Nat) : List Byte := slice d (leAt d (256 + 80 * (t - 1) + 8) 8) (leAt d (256 + 80 * (t - 1) + 16) 8)
def imgSectionOk (d : List Byte) (t : Nat) : Bool :=
  let e := 256 + 80 * (t - 1)
  leAt d e 4 == t && decide (leAt d (e + 8) 8 + leAt d (e + 16) 8 ≤ d.length) && slice d (e + 24) 48 == sha384 (imgSection d t)

/-- The header and every section but 3 and 4 hold: the image is valid. -/
def securedOk (d : List Byte) : Bool := imgHeaderOk d && [1, 2, 5, 6, 7, 8].all (imgSectionOk d)

/-! ### Loading -/

def readRec (d : List Byte) (o : Nat) : StatRec :=
  let c := fun i => leAt d (o + 0x10 + 8 * i) 8
  { tensor := leAt d o 4, layer := leAt d (o + 4) 2, role := leAt d (o + 6) 1, rung := leAt d (o + 7) 1, step := leAt d (o + 8) 4,
    flags := leAt d (o + 0xC) 4, elements := c 0, zeros := c 1, saturated := c 2, vanished := c 3, vBlocks := c 4, vBlockElems := c 5,
    nonfinite := c 6, blocks := c 7, amax := leAt d (o + 0x50) 8, sumsq := leAt d (o + 0x58) 8,
    hist := (List.range 16).foldl (fun m i => sset natD m i (leAt d (o + 0x60 + 8 * i) 8)) [],
    agreeTiles := leAt d (o + 0xE0) 4, agreeRung := leAt d (o + 0xE5) 1, agreeDiff := leAt d (o + 0xE8) 8, agreeRef := leAt d (o + 0xF0) 8 }

/-- The history of the COX section: `n` steps from offset `o`. -/
def readHistory (d : List Byte) : Nat → Nat → List (Nat × List StatRec)
  | 0, _ => []
  | n + 1, o =>
    let k := leAt d (o + 4) 4
    (leAt d o 4, (List.range k).map fun i => readRec d (o + 8 + 256 * i)) :: readHistory d n (o + 8 + 256 * k)

/-- The cox state of a COX section. -/
def loadCox (pk : Pkg) (d : List Byte) (c : CoxSt) : CoxSt :=
  let ps := (pairs pk).zipIdx
  let at_ := fun (f : Nat → Nat) => ps.foldl (fun m x => sset natD m (pairKey x.1.1 x.1.2.1) (f (7 * x.2))) []
  let o := 7 * ps.length
  let n := 2 * pk.layers.length
  let q := o + 5 * n
  { c with rung := at_ fun i => leAt d i 1, quiet := at_ fun i => leAt d (i + 1) 4, pin := at_ fun i => leAt d (i + 5) 1,
           released := (ps.filter fun x => leAt d (7 * x.2 + 6) 1 == 1).map fun x => pairKey x.1.1 x.1.2.1,
           norm := (List.range n).foldl (fun m k => sset (fun _ => (0, 0)) m k (leAt d (o + 5 * k) 4, leAt d (o + 5 * k + 4) 1)) [],
           stormCount := leAt d q 1, hold := leAt d (q + 1) 1, recovery := leAt d (q + 2) 1,
           history := readHistory d (leAt d (q + 3 + 4 * capturedRegs.length) 1) (q + 4 + 4 * capturedRegs.length) }

def readSlot (d : List Byte) (o : Nat) : SlotRec :=
  { source := leAt d o 1, state := leAt d (o + 1) 1, mb := leAt d (o + 2) 2, step := leAt d (o + 4) 4, sample := leAt d (o + 8) 8,
    length := leAt d (o + 0x10) 4, fetched := leAt d (o + 0x14) 4, use := leAt d (o + 0x18) 8 }

/-- Offsets in a DATA section: packing, sources, segments. -/
def dataPack : Nat := 163840
def dataSrc : Nat := 163856
def dataSeg : Nat := 164624

def readAdm (d : List Byte) : AdmSt :=
  { slots := (List.range 4096).foldl (fun m i => sset slotD m i (readSlot d (40 * i))) [],
    ids := (List.range 4096).foldl (fun m i => sset natD m i (leAt d (40 * i + 32) 8)) [],
    step := leAt d dataPack 4, mb := leAt d (dataPack + 4) 4, fill := leAt d (dataPack + 8) 4, count := leAt d (dataPack + 12) 4,
    segments := (List.range (leAt d dataSeg 4)).map fun i =>
      let o := dataSeg + 4 + 20 * i
      { step := leAt d o 4, mb := leAt d (o + 4) 4, slot := leAt d (o + 8) 4, first := leAt d (o + 12) 4, length := leAt d (o + 16) 4 } }

/-- A bound source takes credit, next index and counts from the image; its host addresses are the bind's. -/
def loadSource (d : List Byte) (i : Nat) (x : Source) : Source :=
  let o := dataSrc + 48 * i
  { x with credit := sInt 64 (leAt d (o + 16) 8), next := leAt d (o + 24) 8, admitted := leAt d (o + 32) 8, released := leAt d (o + 40) 8 }

def loadSources (d : List Byte) (l : List (Nat × Option Source)) : List (Nat × Option Source) :=
  l.map fun x => (x.1, x.2.map (loadSource d x.1))

/-- Every bound source and every source of the image agree in WEIGHT, SEQ_MAX and SEED (R328). -/
def sourcesAgree (s : State) (d : List Byte) : Bool :=
  (List.range 16).all fun i =>
    let o := dataSrc + 48 * i
    match source s i with
    | some x => leAt d o 1 == 1 && leAt d (o + 1) 1 == x.weight && leAt d (o + 4) 4 == x.seqMax && leAt d (o + 8) 8 == x.seed
    | none => leAt d o 1 == 0

/-- The input record inside a RUN section. -/
def runInput (d : List Byte) : List Byte := slice d 4 (leAt d 0 4)
/-- The journal of a RUN section. -/
def runJournal (d : List Byte) : List JournalEntry :=
  let o := 4 + leAt d 0 4
  let o := o + 4 + 8 * leAt d o 4
  let o := o + 4 + 16 * leAt d o 4 + 2
  (List.range (leAt d o 4)).map fun i =>
    let k := o + 4 + 16 * i
    { kind := leAt d k 2, step := leAt d (k + 2) 4, stroke := leAt d (k + 6) 6, pos := leAt d (k + 12) 2, arg := leAt d (k + 14) 2 }

/-! ### The input record, read (R450) -/

/-- Bytes of the system map inside an input record. -/
def recMap (d : List Byte) : List Byte := slice d 50 (64 + 160 * leAt d 56 2)
def recCap (d : List Byte) : Nat := 50 + (recMap d).length + 256
def recPairs (d : List Byte) : Nat := recCap d + 4 * capturedRegs.length
def recStorm (d : List Byte) : Nat := recPairs d + 4 + 8 * leAt d (recPairs d) 4
def recFails (d : List Byte) : List FailInput :=
  let o := recStorm d + 4
  (List.range (leAt d o 4)).map fun i =>
    let k := o + 4 + 8 * i
    { kind := leAt d k 1, pos := leAt d (k + 1) 2, part := leAt d (k + 3) 1, arg := leAt d (k + 4) 4 }

/-- The rungs of a RUN section's rung table. -/
def loadRungs (d : List Byte) (c : CoxSt) : CoxSt :=
  let o := 4 + leAt d 0 4
  { c with rung := (List.range (leAt d o 4)).foldl (fun m i =>
      let k := o + 4 + 8 * i
      sset natD m (pairKey (leAt d k 2) (leAt d (k + 2) 1)) (leAt d (k + 3) 1)) c.rung }

/-- The captured registers, rungs, pins, flags and withdrawals of an input record. -/
def loadInput (d : List Byte) (s : State) : State :=
  let n := leAt d (recPairs d) 4
  let at_ := fun (i : Nat) => recPairs d + 4 + 8 * i
  let key := fun (i : Nat) => pairKey (leAt d (at_ i) 2) (leAt d (at_ i + 2) 1)
  let flag := fun (b i : Nat) => bitN (leAt d (at_ i + 5) 1) b
  { s with
    captured := (capturedRegs.zipIdx).foldl (fun m x => sset regReset m x.1 (BitVec.ofNat 32 (leAt d (recCap d + 4 * x.2) 4))) [],
    cox := { s.cox with
      rung := (List.range n).foldl (fun m i => sset natD m (key i) (leAt d (at_ i + 3) 1)) s.cox.rung,
      pin := (List.range n).foldl (fun m i => sset natD m (key i) (leAt d (at_ i + 4) 1)) s.cox.pin,
      flaggedPrev := (((List.range n).filter (flag 0)).map fun i => leAt d (at_ i) 2).eraseDups,
      withdrawn := ((List.range n).filter (flag 1)).map key } }

/-- Weights, moments, scales, sources and the rest of a valid image, in the places of the current plan. Sections 3 and 4 are
loaded where they hold; else the cox history or the agreed scales are lost (R310). -/
def loadImage (pk : Pkg) (d : List Byte) (s : State) : State :=
  let w := imgSection d 1
  let m := imgSection d 2
  let mr := momentRanges s
  let r8 := imgSection d 8
  let n8 := leAt r8 0 4
  let dt := imgSection d 5
  let c3 := imgSectionOk d 3
  let c4 := imgSectionOk d 4
  let np := (pairs pk).length
  let il := leAt r8 (4 + n8 + np) 4
  let old := r8.drop (8 + n8 + np + il)
  let s := writeRanges mr m (writeRanges (weightRanges s) w s)
  let s := if c4 then writeRanges (scaleRanges s) (imgSection d 4) s else s
  let s := writeRanges ((planOf s (kindPlanes [2])).map fun x => (otherCopy s x.1, x.2)) (slice r8 4 n8) s
  let p0 := rangeBytes mr
  let snap : StepSnap := {
    adm := readAdm old, sources := loadSources old s.sources,
    rungs := ((pairs pk).zipIdx).foldl (fun q x => sset natD q (pairKey x.1.1 x.1.2.1) (leAt r8 (4 + n8 + x.2) 1)) [],
    input := if il = 0 then runInput (imgSection d 7) else slice r8 (8 + n8 + np) il }
  let run := { s.run with
    step := leAt d 0x10 8 + 1, last := some (leAt d 0x10 8), loss := BitVec.ofNat 32 (leAt d 0xC8 4),
    tokens := BitVec.ofNat 32 (leAt d 0xCC 4), snapLast := snap, lastSkipped := false, moments := [], bookWrites := [], booksDone := [],
    opt := (List.range pk.opts.length).map fun i => (i, leAt m (p0 + 8 * i) 4, leAt m (p0 + 8 * i + 4) 4) }
  { s with run := run, adm := readAdm dt, sources := loadSources dt s.sources,
           cox := if c3 then loadCox pk (imgSection d 3) s.cox else { s.cox with history := [], norm := [], quiet := [] },
           red := { s.red with scalesKnown := c4 },
           res := { s.res with coxLost := !c3, replayJournal := runJournal (imgSection d 7), imgStep := some (leAt d 0x10 8),
                               sinceImage := 0 } }

end Sys2Proof.Machine
end

