-- ==== Sys2Proof/Machine/Sync.lean ====
section
/-! DEFINITION. SYNC instructions (R167) and the overflow exchange of a layer instance (R142 to R145, R172). -/

namespace Sys2Proof.Machine

open Sys2Proof

def yKidx (w : InstrWord) : Nat := iF w 24 8
def yUses (w : InstrWord) : Bool := bitN w.toNat 32
def ySreg (w : InstrWord) : Nat := iF w 33 5
def yValue (w : InstrWord) : Nat := iF w 64 32
def yMask (w : InstrWord) : Nat := iF w 96 32
/-- The compared value V. -/
def yV (s : State) (c t : Nat) (w : InstrWord) : Nat := if yUses w then sReg s c t (ySreg w) % 2 ^ 32 else yValue w

/-- The checks of a SYNC instruction: CNT_EN is 0, the fields of the OP; the unused one of SREG and VALUE is 0. -/
def syncCause (fields : List (Nat × Nat)) (extra : List Nat) (w : InstrWord) : Nat :=
  leastCause (causeIf (iCntEn w || !onlyBits w fields) 2 :: extra)

def issueSync (op : Nat) (fields : List (Nat × Nat)) (extra : State → List Nat) (body : State → State)
    (c : CoreId) (t : ThreadId) (w : InstrWord) (s : State) : State :=
  issue c.val t.val w 6 op (fun u => syncCause fields (extra u) w) (fun _ => false) body s

/-- A counter outside a custom thread's range (R173). -/
def kidxCause (s : State) (c t : Nat) (w : InstrWord) : Nat := causeIf (isCustom s c t && !inKRange s c t (yKidx w)) 4

def execWaitc (c : CoreId) (t : ThreadId) (w : InstrWord) (s : State) : Host.Outcome State Fault Refusal :=
  .next (issueSync 0 [(24, 14), (64, 32)] (fun u => [kidxCause u c.val t.val w])
    (fun u => waitFor c.val t.val (.counter (yKidx w) (yV u c.val t.val w)) u) c t w s)

/-- SETC: k[KIDX] = V. -/
def setCounter (c k v : Nat) (s : State) : State := wakeCore c (modCore c (fun C => { C with k := sset natD C.k k v }) s)

def execSetc (c : CoreId) (t : ThreadId) (w : InstrWord) (s : State) : Host.Outcome State Fault Refusal :=
  .next (issueSync 1 [(24, 14), (64, 32)] (fun u => [kidxCause u c.val t.val w])
    (fun u => setCounter c.val (yKidx w) (yV u c.val t.val w) u) c t w s)

def execBar (c : CoreId) (t : ThreadId) (w : InstrWord) (s : State) : Host.Outcome State Fault Refusal :=
  .next (issueSync 2 [(96, 32)] (fun _ => [causeIf (!bitN (yMask w) t.val) 2])
    (waitFor c.val t.val (.barrier (yMask w))) c t w s)

def execWstroke (c : CoreId) (t : ThreadId) (w : InstrWord) (s : State) : Host.Outcome State Fault Refusal :=
  .next (issueSync 3 [(32, 6), (64, 32)] (fun _ => [])
    (fun u => waitFor c.val t.val (.stroke (yV u c.val t.val w)) u) c t w s)

def execDrain (c : CoreId) (t : ThreadId) (w : InstrWord) (s : State) : Host.Outcome State Fault Refusal :=
  .next (issueSync 5 [] (fun _ => []) (waitFor c.val t.val .drain) c t w s)

/-! ### The overflow exchange -/

/-- Rung bytes of a layer's roles, `up` of them one rung higher where the role is neither pinned nor at its ceiling. -/
def repeatRung (s : State) (layer : Nat) (y : LayerDesc) (up : Bool) (r : Nat) : Nat :=
  let n := rungOf s layer r
  if !steered y r then 0
  else rungByte y r (if up && pinOf s layer r = 0 && decide (n < (layerLadder y r).ceil) then n + 1 else n)

/-- The layer may repeat: not yet repeated in this step, and some role is neither pinned nor at its ceiling (R144). -/
def mayRepeat (s : State) (layer : Nat) (y : LayerDesc) : Bool :=
  !s.cox.repeated.contains layer && [0, 1, 2].any fun r =>
    steered y r && pinOf s layer r = 0 && decide (rungOf s layer r < (layerLadder y r).ceil)

/-- Threads that wait in OVFX for a tag: core, thread, s-register. -/
def ovfxWaiters (s : State) (inst : Nat) : List (Nat × Nat × Nat) :=
  (List.range 96).flatMap fun c => (List.range 32).filterMap fun t =>
    match (thread s c t).wait with
    | .ovfx i r => if i = inst then some (c, t, r) else none
    | _ => none

/-- Release the waiting threads of a tag with the result and, for a repeat, the rung bytes in s1 to s3. -/
def releaseOvfx (inst res : Nat) (rungs : Nat × Nat × Nat) (s : State) : State :=
  (ovfxWaiters s inst).foldl (fun st x =>
    let st := modThread x.1 x.2.1 (fun T => { T with state := .running, wait := .none }) st
    let st := setS x.1 x.2.1 x.2.2 res st
    let st := if res = 1 then setS x.1 x.2.1 1 rungs.1 (setS x.1 x.2.1 2 rungs.2.1 (setS x.1 x.2.1 3 rungs.2.2 st)) else st
    let st := modOvf x.1 inst (fun o => { o with again := res == 1 }) st
    traceRec x.1 x.2.1 4 inst (res + rungs.1 * 2 ^ 8 + rungs.2.1 * 2 ^ 16 + rungs.2.2 * 2 ^ 24) 0 st) s

/-- COX_REPEAT: step, stroke, layer, micro-batch, direction, rungs, outcome (R145, R453). -/
def logRepeat (layer mb dir : Nat) (rungs : Nat × Nat × Nat) (outcome : Nat) (s : State) : State :=
  logEv 0x0102 (b4 s.run.step ++ b8 s.stroke.count ++ b4 layer ++ b4 mb ++ b4 dir ++
    b4 (rungs.1 + rungs.2.1 * 2 ^ 8 + rungs.2.2 * 2 ^ 16) ++ b4 outcome) s

/-- The layer is flagged for the step (R143 to R145). -/
def flagLayer (layer : Nat) (s : State) : State :=
  if s.cox.flagged.contains layer then s
  else attn 1 (logEv 0x0103 (b4 s.run.step ++ b8 s.stroke.count ++ b4 layer)
    (bump (cntDev 8) 1 { s with cox := { s.cox with flagged := s.cox.flagged ++ [layer] } }))

def noteOver (layer : Nat) (s : State) : State :=
  if s.cox.ovr.contains layer then s else { s with cox := { s.cox with ovr := s.cox.ovr ++ [layer] } }

/-- The layer, micro-batch and direction of a layer instance. -/
def instanceOf (s : State) (inst : Nat) : Nat × Nat × Nat :=
  match s.plan with
  | some p => Config.instanceLayer p.inputRec inst
  | none => (0, 0, 0)

/-- The OR of an instance's flags over its devices is known (R142 to R144, R172). -/
def instanceResult (inst acc : Nat) (s : State) : State :=
  let lmd := instanceOf s inst
  let again := (ovfxWaiters s inst).any fun x => (ovfOf s x.1 inst).again
  match s.pkg.bind fun p => p.layers[lmd.1]? with
  | none => releaseOvfx inst 0 (0, 0, 0) s
  | some y =>
    let rungs := fun up => (repeatRung s lmd.1 y up 0, repeatRung s lmd.1 y up 1, repeatRung s lmd.1 y up 2)
    if again then
      let s := if acc % 2 = 1 then
          flagLayer lmd.1 (bump (cntDev 7) 1 (logRepeat lmd.1 lmd.2.1 lmd.2.2 (rungs true) 2 s))
        else logRepeat lmd.1 lmd.2.1 lmd.2.2 (rungs true) 1 s
      releaseOvfx inst 0 (rungs false) s
    else if acc % 2 = 0 then releaseOvfx inst 0 (rungs false) s
    else if mayRepeat s lmd.1 y then
      let s := noteOver lmd.1 { s with cox := { s.cox with repeated := s.cox.repeated ++ [lmd.1] },
                                       run := { s.run with repeated := true } }
      releaseOvfx inst 1 (rungs true) (attn 1 (lifeAdd 0x28 8 1 (bump (cntDev 6) 1 s)))
    else releaseOvfx inst 0 (rungs false)
      (flagLayer lmd.1 (noteOver lmd.1 (logRepeat lmd.1 lmd.2.1 lmd.2.2 (rungs false) 3 s)))

/-- Threads of this device that issue OVFX for a tag. -/
def ovfxExpected (s : State) (inst : Nat) : Nat :=
  match s.plan with
  | some p => max 1 (Config.instanceThreads p.inputRec p.pos inst)
  | none => 1

/-- OVFX (R172): the core's flag of the tag joins the device's, and the thread waits for the OR over the instance's
devices; the device sends once every thread of the instance has come. -/
def ovfxBody (c t inst sreg : Nat) (s : State) : State :=
  let o := ovfOf s c inst
  let s := modThread c t (fun T => { T with state := .waiting, wait := .ovfx inst sreg }) s
  let s := modOvf c inst (fun _ => { again := o.again }) s
  let id := ctlInstance inst
  let s := ctlMod id (fun k => { k with acc := k.acc ||| b2n (ovfFlag o) }) s
  if (ovfxWaiters s inst).length < ovfxExpected s inst then s
  else ctlOwn (instanceResult inst) id 0 s

/-- The tag V of OVFX is INST's 16 bits. -/
def execOvfx (c : CoreId) (t : ThreadId) (w : InstrWord) (s : State) : Host.Outcome State Fault Refusal :=
  .next (issueSync 4 [(32, 6), (64, 32)] (fun _ => [])
    (fun u => ovfxBody c.val t.val (yV u c.val t.val w % 2 ^ 16) (ySreg w) u) c t w s)

end Sys2Proof.Machine
end

