-- ==== Sys2Proof/Machine/Run.lean ====
section
/-! DEFINITION. Strokes and the course of a run (R205 to R216, R238): the start by the ready reduction, the phases of a
step (R31, R195), the results of control reductions, lock, the health monitor (R304, R305), host copies in the
background (R316), and STROKE_EDGE. -/

namespace Sys2Proof.Machine

open Sys2Proof

/-! ### Threads of a run (R159, R160, R173) -/

/-- The rung byte in force of a role of a layer; 0 where the role is not steered. -/
def forceRung (s : State) (layer role : Nat) : Nat :=
  match s.pkg.bind fun p => p.layers[layer]? with
  | some y => if steered y role then rungByte y role (rungOf s layer role) else 0
  | none => 0

/-- A program starts on a thread: its entry PC, its registers, and the bounds of a custom program. -/
def enterThread (x : ThreadEntry) (s : State) : State :=
  let r := sset natD (sset natD (sset natD [] 1 (forceRung s x.layer 0)) 2 (forceRung s x.layer 1)) 3 (forceRung s x.layer 2)
  let r := if x.custom.isSome then sset natD r 4 x.ordinal else r
  let s := setReg (thrReg x.core x.thread 0) (if x.custom.isSome then 8 else 0) s
  let s := if x.custom.isSome then
      setReg (thrReg x.core x.thread 8) x.lo (setReg (thrReg x.core x.thread 0xC) x.hi
        (setReg (thrReg x.core x.thread 0x10) (x.kFirst + 256 * x.kLast) s))
    else s
  modThread x.core x.thread (fun _ => { s := r, pc := x.pc, state := .running, prog := x.custom }) s

/-- The lockkeeper writes the cores' set-up registers and sets every thread of the plan running. -/
def enterThreads (s : State) : State :=
  match s.plan with
  | none => s
  | some p =>
    let s := forEach (p.coreRegs) (fun x t => setReg x.1 x.2 t) s
    { forEach p.threads enterThread s with run := { s.run with enter := false } }

/-- Rungs and random streams of a thread for the step that begins (R110, R112, R136): s1 to s3 hold the rung bytes in force, and a
thread with a dropout mask the key of its slot's current sample and the counter base C_s * 2^28 (DESIGN CHOICE, log 121: they are
loaded at each step's first stroke). -/
def stepThread (x : ThreadEntry) (s : State) : State :=
  let s := [0, 1, 2].foldl (fun t r => setS x.core x.thread (r + 1) (forceRung t x.layer r) t) s
  match x.drop with
  | none => s
  | some (layer, q) =>
    let r := slot s q
    let key := rngKeyOf (((source s r.source).map (·.seed)).getD 0) (myPos s) layer 5 q
    let base := r.use * 2 ^ 28
    let s := [0, 1, 2, 3].foldl (fun t i => setReg (thrReg x.core x.thread (0x20 + 4 * i)) (leAt key (4 * i) 4) t) s
    setReg (thrReg x.core x.thread 0x18) (base % 2 ^ 32) (setReg (thrReg x.core x.thread 0x1C) (base / 2 ^ 32 % 2 ^ 32) s)

def stepThreads (s : State) : State :=
  match s.plan with
  | none => s
  | some p => forEach p.threads stepThread s

/-- No device issues further work: threads stop and every queue is dropped (R160, R170). -/
def stopCore (C : CoreSt) : CoreSt :=
  { C with
    threads := (C.threads.map fun x => (x.1, { x.2 with state := .stopped, wait := .none, outstanding := 0, measured := 0 })).filter
      fun (x : Nat × Thread) => decide (x.2 ≠ {}),
    arrays := (C.arrays.map fun x => (x.1, { x.2 with queue := [], full := false, streaming := false, gap := .none, ramp := 0, frac := 0, ballast := false })).filter
      fun (x : Nat × ArrSt) => decide (x.2 ≠ {}),
    vec := [], xu := [], str := [], fence := false, ovf := [] }

def stopThreads (s : State) : State :=
  { s with cores := (s.cores.map fun x => (x.1, stopCore x.2)).filter fun (x : Nat × CoreSt) => decide (x.2 ≠ {}) }

/-! ### Phases -/

/-- A phase begins at the current stroke. -/
def setPhase (p : Phase) (s : State) : State :=
  { s with run := { s.run with phase := p, phaseStart := s.stroke.count, slotStart := s.stroke.slot },
           link := { s.link with behindLogged := [] } }

/-- Schedule slots of the running phase already behind the current stroke. -/
def slotsIn (s : State) : Nat := s.stroke.slot - s.run.slotStart

/-- Admitted sequences of the step that begins are in the step (R192). -/
def slotsEnter (n : Nat) (s : State) : State :=
  { s with adm := { s.adm with slots := s.adm.slots.map fun x =>
      (x.1, if x.2.state = 2 && x.2.step = n then { x.2 with state := 3 } else x.2) } }

/-- A step begins: slot 0, every dependence mark 0 (R207, R260), fresh collectors, flags and counts; a START, a replan or
a hold before it enters the threads. -/
def beginStep (s : State) : State :=
  let n := s.run.step
  let s := slotsEnter n s
  let r : RunSt := { s.run with
    startStroke := s.stroke.count, startAt := none, ready := false, heldCause := 0, holdDue := 0, easy := 0, redExt := 0,
    redDone := false, distDone := false, boundDone := false, boundLen := 1, skipped := false, excludedFlag := false,
    replanned := false, secured := false, repeated := false, losses32 := [], norms := [],
    nonfinite := false, moments := [], upd := [], converted := [],
    booksDone := s.run.booksDone.filter fun x => decide (s.run.step ≤ x.1),
    snap := { adm := s.adm, sources := s.sources, rungs := s.cox.rung, input := match s.plan with | some p => p.inputRec | none => [] } }
  let s := { s with run := r, collectors := [], red := { scalesKnown := s.red.scalesKnown },
                    cox := { s.cox with ovr := [], flagged := [], repeated := [] },
                    stm := { s.stm with marks := [] },
                    link := { s.link with legsDone := [], failedLegs := [], digestIn := [] },
                    res := { s.res with path := if s.res.rollback then s.res.path else 0, filling := s.res.filling && s.res.rollback },
                    stroke := { s.stroke with slot := 0, easyRun := 0, easy := false },
                    dev := if s.res.rollback then DevState.recovering else DevState.running }
  let fresh := fun (C : CoreSt) => { C with ovf := [], fault := false, poison := false }
  let s := { s with cores := (s.cores.map fun (x : Nat × CoreSt) => (x.1, fresh x.2)).filter fun (x : Nat × CoreSt) => decide (x.2 ≠ coreD 0) }
  let s := setPhase .compute s
  settle (stepThreads (if s.run.enter then enterThreads s else s))

/-- A run starts or resumes at its stroke: groups beyond C_plan go off, and the step begins (R209, R362). -/
def startRun (s : State) : State :=
  let s := planGroups { s with run := { s.run with enter := true },
                               host := { s.host with attnHeld := false, lost := false, lostRequest := false } }
  beginStep s

/-! ### The start (R209, R345) -/

/-- The operand of the hold limit: L and its complement in two fields of 32 bits. -/
def limitOperand (l : Nat) : Nat := l % 2 ^ 32 + (2 ^ 32 - 1 - l % 2 ^ 32) * 2 ^ 32

def limitsAgree (v : Nat) : Bool := v % 2 ^ 32 + v / 2 ^ 32 == 2 ^ 32 - 1

/-- Both reductions of the stroke are in: every device is ready, and the hold limits agree or the start is cancelled. -/
def startCheck (s : State) : State :=
  match s.run.readyRes, s.run.limitRes with
  | some r, some l =>
    let s := { s with run := { s.run with readyRes := none, limitRes := none } }
    if r % 2 = 0 || !s.run.ready || s.run.startAt.isSome then s
    else if !limitsAgree l then cancelStart 0x31 s
    else
      let k := s.stroke.count + 1 + 16
      let s := { s with run := { s.run with startAt := some k } }
      match s.host.startRing with
      | some q => complete q 0 (b8 k ++ b4 s.run.step) { s with host := { s.host with startRing := none } }
      | none => s
  | _, _ => s

/-! ### The distribution (R286, R288) -/

/-- Sending multicast legs of the distribution: those that carry a tensor. -/
def distLegs (s : State) : List FlowCtx :=
  match s.plan with
  | some p => p.flows.filter fun f => f.sending && f.cls == 2 && f.tensor != noTensor
  | none => []

def legSettled (s : State) (f : Nat) : Bool := s.link.legsDone.contains f || s.link.failedLegs.contains f

/-! ### Sums of the step (R129, R204) -/

/-- The sums of a layer over the engines in ascending order. The engines' parts are kept by layer * 16 + engine. -/
def layerNorms (s : State) : List (Nat × Nat × Nat × Nat) :=
  let layers := (s.run.norms.map fun x => x.1 / 16).eraseDups
  layers.map fun y =>
    let parts := s.run.norms.filter fun x => x.1 / 16 == y
    match parts with
    | [] => (y, 0, 0, 0)
    | p :: t => t.foldl (fun a x => (y, w42Add a.2.1 x.2.1, w42Add a.2.2.1 x.2.2.1, w42Add a.2.2.2 x.2.2.2)) (y, p.2)

/-- This device's loss sum of the step, in token order within each micro-batch and in micro-batch order, and its targets (R204). -/
def lossSum (s : State) : Nat := s.run.losses32.foldl (fun a x => w42AddVal (dec42 a) (dec32 (x.2.getD 0#32))) 0
def lossCount (s : State) : Nat := s.run.losses32.length

/-! ### Lock (R212 to R214) -/

/-- The parent's marker of the stroke that ends: in lock when it came within 4 ns. -/
def closeLock (s : State) : State :=
  let k := s.stroke
  if k.noParent then { s with stroke := { k with marker := false } }
  else
    let ok := k.marker && decide (-64 ≤ k.offset) && decide (k.offset ≤ 64)
    let k' := { k with good := if ok && k.markerLocked then k.good + 1 else 0, bad := if ok then 0 else k.bad + 1,
                       missed := if k.marker then k.missed else k.missed + 1, marker := false }
    let lost := !k.marker && (port s k.parentPort).catchSeen
    let s := { s with stroke := k' }
    if lost then bump (cntPort k.parentPort 10) 1 s else s

/-- Planned ports: those that the plan's map lists. -/
def plannedPorts (s : State) : List Nat :=
  match s.plan.bind fun _ => devAt (amended s) (myPos s) with
  | some x => (List.range 16).filter fun p => entryLanes (x.ports.getD (2 * p) 0) != 0 || entryLanes (x.ports.getD (2 * p + 1) 0) != 0
  | none => []

/-- The run of strokes without a CATCH on each planned port (R283). -/
def closeCatch (s : State) : State :=
  let s := (plannedPorts s).foldl (fun t p =>
    if (port t p).catchSeen then modPort p (fun P => { P with catchMissed := 0 }) t
    else bump (cntPort p 10) 1 (modPort p (fun P => { P with catchMissed := P.catchMissed + 1 }) t)) s
  (List.range 16).foldl (fun t p => modPort p (fun P => { P with catchSeen := false, replays := 0, laneSyms := [] }) t) s

def execLockGained (s : State) : Host.Outcome State Fault Refusal :=
  let k := s.stroke
  let due := if k.master then !bitN (reg s 0x4000) 0 || decide (16 ≤ k.inGood) else !k.noParent && decide (16 ≤ k.good)
  .next (if !k.locked && due then setReady { s with stroke := { k with locked := true, numbered := true, bad := 0 } } else s)

def execLockLost (s : State) : Host.Outcome State Fault Refusal :=
  .next (if s.stroke.locked && !s.stroke.noParent && decide (16 ≤ s.stroke.bad) then
      health 7 1 (logEv 0x0301 (b8 s.stroke.count ++ b4 (toTwos 32 s.stroke.offset))
        { s with stroke := { s.stroke with locked := false, good := 0 } })
    else s)

/-- STROKE_IN_EDGE (R210): a rising edge within the tolerance of R443 counts towards the master's lock. -/
def execStrokeInEdge (inTolerance : Bool) (s : State) : Host.Outcome State Fault Refusal :=
  .next (if bitN (reg s 0x4000) 0 then
      { s with stroke := { s.stroke with inGood := if inTolerance then s.stroke.inGood + 1 else 0 } } else s)

/-! ### The health monitor (R304, R305) -/

/-- Strokes of the window of 60 s. -/
def healthWindow (s : State) : Nat := ceilDiv 60000000000 (max 1 (periodNs s))

/-- The events of the stroke that ends enter the window. -/
def rollHealth (s : State) : State :=
  let w := healthWindow s
  let keys := (s.res.window.map (·.1) ++ s.res.now.map (·.1)).eraseDups
  let win := keys.foldl (fun m k =>
    let l := (sget natD s.res.now k :: sget (fun _ => ([] : List Nat)) s.res.window k).take w
    sset (fun _ => []) m k (if l.all (· == 0) then [] else l)) s.res.window
  { s with res := { s.res with window := win, now := [] } }

def inWindow (s : State) (k : Nat) : Nat := (sget (fun _ => ([] : List Nat)) s.res.window k).foldl (· + ·) 0

/-- Received symbols of 10 bits, times 5,140, for a count of frames: RS(544,514) over 2,048 bits each. -/
def frameSyms (n : Nat) : Nat := n * 2048 * 544

/-- The level of a value by its three columns. -/
def levelOf (v a b c : Int) : Nat := if c ≤ v then 6 else if b ≤ v then 4 else if a ≤ v then 2 else 0

/-- The level of port `p`'s ratio of corrected to received symbols. -/
def fecLevel (s : State) (p : Nat) : Nat :=
  let c := inWindow s (16 + p) * 5140
  let n := frameSyms (inWindow s (32 + p))
  if c = 0 then 0 else if n ≤ c * 10 ^ 4 then 6 else if n ≤ c * 10 ^ 5 then 4 else if n ≤ c * 10 ^ 6 then 2 else 0

/-- The level of each input. -/
def inputLevels (s : State) : List Nat :=
  let w := fun k => ((inWindow s k : Nat) : Int)
  let missed := (plannedPorts s).foldl (fun m p => max m (port s p).catchMissed) 0
  [levelOf (w 0) 16 256 4096, (List.range 16).foldl (fun m p => max m (fecLevel s p)) 0, levelOf (w 2) 1 64 1024,
   levelOf (w 3) 1 16 256, levelOf (hottest s) 380 400 412, levelOf (hottestLpddr s) 85 95 105,
   levelOf (missed : Int) 4 32 128, levelOf (w 7) 1 16 256]

def riskLevel (s : State) : Nat :=
  let l := inputLevels s
  let m := l.foldl max 0
  if s.res.ue then 7 else if 2 ≤ m ∧ m ≤ 6 ∧ 2 ≤ (l.filter (· == m)).length then m + 1 else m

/-- The worst windowed ratio of corrected to received symbols of each lane, for the lifetime record (R410). -/
def laneRatios (s : State) : State :=
  (s.res.window.filter fun x => decide (64 ≤ x.1)).foldl (fun t x =>
    let l := x.1 - 64
    let n := frameSyms (inWindow t (32 + l / 4))
    let r := (div32 (ofNat32 (inWindow t x.1 * 5140 * 4)) (ofNat32 n)).toNat
    if n = 0 then t
    else { t with mgmt := { t.mgmt with life := smod natD t.mgmt.life (0x13C0 + 16 * l + 8) fun v => max v r } }) s

def closeHealth (s : State) : State :=
  let s := laneRatios (rollHealth s)
  { s with res := { s.res with risk := riskLevel s } }

/-! ### The host copy (R316) -/

def imageSize (s : State) (q : Nat) : Nat := match s.plan with | some p => imageBytes p q | none => 0

/-- The destination of the host copy. -/
def hcopyAddr (s : State) : Nat :=
  let v := reg s 0xA00C
  winBase s (bitsN v 0 4) + bitsN v 8 17 * 2 ^ 30

/-- A copy is complete: the image stands in host memory, its header written last. -/
def copyDone (total : Nat) (s : State) : State :=
  let s := { s with res := { s.res with hcopyState := 2, hcopyPercent := 100, hcopyBytes := total, hostImage := s.res.own } }
  emit (.hostWrite (hcopyAddr s) (s.res.ownData.take 256)) (emit (.hostWrite (hcopyAddr s + 256) (s.res.ownData.drop 256)) s)

/-- A stroke's progress of a running copy: 242 GB/s of the host interface at most. -/
def copyStroke (s : State) : State :=
  if s.res.hcopyState != 1 then s
  else
    let total := max 1 s.res.ownData.length
    let n := s.res.hcopyBytes + periodNs s * 242
    if total ≤ n then copyDone total s
    else { s with res := { s.res with hcopyBytes := n, hcopyPercent := n * 100 / total } }

/-! ### Snapshots at a stroke (R387, R388) -/

/-- One snapshot, at the first cycle of the stroke, for all that fall due. -/
def dueSnapshots (s : State) : State :=
  let due := s.cnt.pending.filter fun r => decide (r.stroke ≤ s.stroke.count)
  if due.isEmpty then s
  else
    let s := { s with cnt := { s.cnt with pending := s.cnt.pending.filter fun r => decide (s.stroke.count < r.stroke) } }
    let s := snapshotAt 0 (due.foldl (fun m r => m ||| r.clear) 0) s
    due.foldl (fun t r => complete r.ring 0 (snapReply false t) t) s

/-! ### STROKE_EDGE -/

/-- CATCH on every active port, and STROKE_OUT (R210, R212, R277). -/
def sendCatch (s : State) : State :=
  let body := b8 s.stroke.count ++ b4 0 ++ b4 (b2n s.stroke.locked)
  let s := forEach (activePorts s) (fun q t => sendOn q.1 q.2 (newHdr t 0 0 (subp t q.1 q.2).peerPos 0 0 0 body) body t) s
  if bitN (reg s 0x4000) 1 then emit .strokeOut s else s

/-- Time passes by one stroke period: uptime and residencies (R381). -/
def residencies (s : State) : State :=
  let p := periodNs s
  let s := { s with boot := { s.boot with uptime := s.boot.uptime + p } }
  let s := if s.pwr.state == .g3 then bump (cntDev 33) p s else if s.pwr.state == .g4 then bump (cntDev 34) p s else s
  let s := (List.range 12).foldl (fun t g => if group t g == .g2 then bump (cntDev (35 + g)) p t else t) s
  if s.pwr.throttle then bump (cntDev 49) 1 s else s

/-- Planned strokes of a secure stop: those of the largest t_k (R314). -/
def stopStrokes (s : State) : Nat :=
  match s.plan with
  | some p =>
    let m := (p.positions.filter fun e => !e.spare).foldl (fun m e => max m (imageSize s e.pos)) 0
    ceilDiv (1500000 * 400 + m) (400 * max 1 p.period)
  | none => 0

/-- The flows that carry this device's image to its buddy: four at most (R314). -/
def imageFlows (s : State) : List FlowCtx :=
  match s.plan, posEntry s (myPos s) with
  | some p, some e => (p.flows.filter fun f => f.sending && f.cls == 1 && f.tensor == noTensor && f.peer == e.buddy).take 4
  | _, _ => []

/-- The flows that bring the image of device `k`. -/
def imageIn (s : State) (k : Nat) : List FlowCtx :=
  match s.plan with
  | some p => (p.flows.filter fun f => !f.sending && f.cls == 1 && f.tensor == noTensor && f.peer == k).take 4
  | none => []

/-- The image goes out in equal parts, one to a flow, and each flow ends its pass. -/
def sendImage (img : List Byte) (s : State) : State :=
  let fs := imageFlows s
  let n := 1024 * ceilDiv (ceilDiv img.length (max 1 fs.length)) 1024
  forEach (fs.zipIdx) (fun x t =>
    let mine := (img.drop (n * x.2)).take n
    let pkts := (chunks 1024 (mine.length / 1024 + 1) mine).zipIdx.map fun y => (256 * y.2, y.1)
    sendReduce x.1.id 1 [(mine.length / 4, List.replicate 16 0)] (sendReduce x.1.id 0 pkts t)) s

/-- The stop begins: engines are quiet, the journal is closed, the image is formed and sent (R314). -/
def stopBegins (s : State) : State :=
  match s.plan, s.pkg with
  | some p, some pk =>
    let s := { s with run := { s.run with secLeft := stopStrokes s },
                      res := { s.res with stopWaits := false, secStart := s.stroke.count, imageAcks := [], imageEnds := [], keptRes := none, wsumRes := none } }
    let img := makeImage s p pk 0
    sendImage img { s with res := { s.res with stepBytes := img.length } }
  | _, _ => s

/-- The planned strokes of a secure stop run down; beyond them, and while a mandatory host copy holds the stop, the stop
counts extension strokes (R314, R316). -/
def secureEdge (s : State) : State :=
  if s.dev != .securing then s
  else if s.res.stopWaits then (if s.res.hcopyState = 1 then bump (cntDev 5) 1 s else stopBegins s)
  else if 0 < s.run.secLeft then { s with run := { s.run with secLeft := s.run.secLeft - 1 } }
  else bump (cntDev 5) 1 s

/-- The stroke that begins holds EASY when a marker for the one that ends has come (R216). -/
def takeRaised (s : State) : State :=
  let mine := s.stroke.seen.filter fun x => x.1 == s.stroke.count
  { s with stroke := { s.stroke with raised := !mine.isEmpty,
                                     raiser := minOr 0xFFF (mine.map (·.2)),
                                     seen := s.stroke.seen.filter fun x => decide (s.stroke.count < x.1 + 16) } }

/-- The scheduled start falls at this edge. -/
def startEdge (s : State) : State :=
  match s.run.startAt with
  | some k => if s.dev == .starting && decide (k ≤ s.stroke.count) then startRun s else s
  | none => s

/-- Threads that wait for the new slot run on (R167). -/
def wakeAll (s : State) : State := (List.range 96).foldl (fun t c => if (core t c).threads.isEmpty then t else wakeCore c t) s

/-- A stroke towards the next standing reply (R351). -/
def standEdge (s : State) : State :=
  { s with host := { s.host with standCount := if bitN (reg s 0x2010) 16 && s.pwr.state != .g5 then s.host.standCount + 1 else 0 } }

end Sys2Proof.Machine
end

