-- ==== Sys2Proof/Machine/Exchange.lean ====
section
/-! DEFINITION. Statistics records and scalar sums across devices (R21, R31, R33, R126, R127, R299, R300, R306, R307): the parts
that a device sends to the combining devices, what a combining device makes of them, the results that come back on its multicast
legs, and what this device contributes to the boundary exchange. -/

namespace Sys2Proof.Machine

open Sys2Proof

/-! ### Record indices and bytes (R277, R299)

The numbering of the records and the bytes of a part are the model's (log 126): a statistics record is its 256 bytes of R124. -/

/-- Records of the update engines begin here, the sums of R129 of layer 0, the device's part, and the mark that closes a round. -/
def ixEngine : Nat := 2 ^ 20
def ixNorm : Nat := 2 ^ 21
def ixDev : Nat := 2 ^ 22
def ixClose : Nat := 2 ^ 23

/-- The round of a record: 1 in the reduction phase, 2 in the boundary exchange (R126). -/
def roundOf (i : Nat) : Nat := if i < ixEngine then 1 else 2

def pathBytes (f : FailPath) : List Byte := leBytes 1 f.code ++ leBytes 1 f.part ++ leBytes 2 f.pos ++ b4 f.arg
def readPath (l : List Byte) : FailPath := { code := leAt l 0 1, pos := leAt l 2 2, part := leAt l 1 1, arg := leAt l 4 4 }

def devFlags (d : DevRec) : Nat :=
  bfl d.secure 0 + bfl d.pause 1 + bfl d.pauseEnd 2 + bfl d.planHeld 3 + bfl d.hostLost 4 + bfl d.repeated 5 + bfl d.imageBad 6 +
    bfl d.noCopy 7

def devBytes (d : DevRec) : List Byte :=
  w42Bytes d.loss ++ b8 d.tokens ++ b4 d.refused ++ leBytes 1 d.risk ++ leBytes 1 (devFlags d) ++
    leBytes 2 (min 6 d.riskAt.length) ++ padTo 12 ((d.riskAt.take 6).flatMap (leBytes 2)) ++ b4 (min 240 d.paths.length) ++
    (d.paths.take 240).flatMap pathBytes

def readDev (l : List Byte) : DevRec :=
  let f := leAt l 21 1
  { loss := leAt l 0 8, tokens := leAt l 8 8, refused := leAt l 16 4, risk := leAt l 20 1,
    riskAt := (List.range (min 6 (leAt l 22 2))).map fun i => leAt l (24 + 2 * i) 2,
    secure := bitN f 0, pause := bitN f 1, pauseEnd := bitN f 2, planHeld := bitN f 3, hostLost := bitN f 4, repeated := bitN f 5,
    imageBad := bitN f 6, noCopy := bitN f 7,
    paths := (List.range (min 240 (leAt l 36 4))).map fun i => readPath (slice l (40 + 8 * i) 8) }

def valBytes : SumVal → List Byte
  | .stat r => recBytes r
  | .norm a b c => w42Bytes a ++ w42Bytes b ++ w42Bytes c
  | .dev d => devBytes d

def readVal (i : Nat) (l : List Byte) : SumVal :=
  if i < ixNorm then .stat (readRec l 0)
  else if i < ixDev then .norm (leAt l 0 8) (leAt l 8 8) (leAt l 16 8)
  else .dev (readDev l)

/-! ### Parts (R299) -/

/-- The devices of the plan that are not lost. -/
def liveDevices (s : State) : List Nat :=
  match s.plan with
  | some p => (p.positions.map (·.pos)).filter fun q => !s.res.lost.contains q
  | none => []

def liveCombiners (s : State) : List Nat :=
  match s.plan with
  | some p => p.combiners.filter fun q => !s.res.lost.contains q
  | none => []

/-- The combining device of a record, which the plan names; where that device is lost, the first other one. -/
def combinerOf (s : State) (i : Nat) : Option Nat :=
  match s.plan with
  | none => none
  | some p =>
    match p.combiners[Config.combiner p.inputRec i % max 1 p.combiners.length]? with
    | some q => if s.res.lost.contains q then (liveCombiners s).head? else some q
    | none => none

/-- A combining device takes in a part, and the mark that closes a sender's round. -/
def joinPart (i src : Nat) (v : SumVal) (s : State) : State :=
  { s with red := { s.red with parts := s.red.parts ++ [(i, src, v)] } }
def joinClose (round src : Nat) (s : State) : State :=
  { s with red := { s.red with closed := s.red.closed ++ [(round, src)] } }

/-- The flow to combining device `q`. -/
def sumFlow (s : State) (q : Nat) : Option FlowCtx :=
  s.plan.bind fun p => p.flows.find? fun f => f.sending && f.cls == 3 && f.target == .combining q

/-- This device's part of a record goes to the record's combining device. -/
def sendPart (i : Nat) (v : SumVal) (s : State) : State :=
  match combinerOf s i with
  | none => s
  | some q =>
    if q = myPos s then joinPart i q v s
    else match sumFlow s q with
      | some f => sendReduce f.id 4 [(i, valBytes v)] s
      | none => s

/-- Every part of a round is out: each combining device is told. -/
def closeRound (round : Nat) (s : State) : State :=
  forEach (liveCombiners s) (fun q t =>
    if q = myPos t then joinClose round q t
    else match sumFlow t q with
      | some f => sendReduce f.id 4 [(ixClose + round, [])] t
      | none => t) s

/-! ### Combining (R126, R129, R204, R299, R300, R306) -/

def asStat : SumVal → Option StatRec | .stat r => some r | _ => none
def asDev : SumVal → Option DevRec | .dev d => some d | _ => none

/-- The W42 codes of a part that are summed exactly. -/
def sumCodes : SumVal → List Nat
  | .stat r => [r.sumsq, r.agreeDiff, r.agreeRef]
  | .norm a b c => [a, b, c]
  | .dev d => [d.loss]

/-- The registers of a record (R300): its W42 sums, exact. -/
def sumRegs (vs : List SumVal) : List SumReg :=
  (List.range 3).map fun k => (vs.filterMap fun v => (sumCodes v)[k]?).foldl sumPart {}

/-- Counts add, AMAX takes the maximum, FLAGS take the OR; the sums come from the registers, rounded once. -/
def combineStat (rs : List StatRec) (g : List SumReg) : Option StatRec :=
  match rs with
  | [] => none
  | r :: t => some { t.foldl addRec r with
      sumsq := sumRound (g.getD 0 {}), agreeDiff := sumRound (g.getD 1 {}), agreeRef := sumRound (g.getD 2 {}) }

def combineDev (ds : List DevRec) (g : List SumReg) : DevRec :=
  let lv := ds.foldl (fun m d => max m d.risk) 0
  let key := fun (f : FailPath) => [f.code, f.pos, f.part, f.arg]
  { loss := sumRound (g.getD 0 {}), tokens := (ds.map (·.tokens)).sum % 2 ^ 64, refused := (ds.map (·.refused)).sum % 2 ^ 32,
    risk := lv, riskAt := (((ds.filter fun d => d.risk == lv).flatMap (·.riskAt)).mergeSort fun x y => decide (x ≤ y)).take 6,
    secure := ds.any (·.secure), pause := ds.any (·.pause), pauseEnd := ds.any (·.pauseEnd), planHeld := ds.all (·.planHeld),
    hostLost := ds.any (·.hostLost), repeated := ds.any (·.repeated), imageBad := ds.any (·.imageBad), noCopy := ds.any (·.noCopy),
    paths := ((ds.flatMap (·.paths)).eraseDups).mergeSort fun x y => decide (key x ≤ key y) }

def combineVal (vs : List SumVal) : Option SumVal :=
  let g := sumRegs vs
  match vs with
  | [] => none
  | .stat _ :: _ => (combineStat (vs.filterMap asStat) g).map .stat
  | .norm .. :: _ => some (.norm (sumRound (g.getD 0 {})) (sumRound (g.getD 1 {})) (sumRound (g.getD 2 {})))
  | .dev _ :: _ => some (.dev (combineDev (vs.filterMap asDev) g))

/-- A sender's parts of the first round do not count when its replica missed a deadline (R127, R299). -/
def counted (s : State) (round src : Nat) : Bool := round != 1 || !s.red.late.contains (replicaOf s src)

/-- The parts of a record that count. -/
def partsOf (s : State) (i : Nat) : List SumVal :=
  (s.red.parts.filter fun x => x.1 == i && counted s (roundOf i) x.2.1).map (·.2.2)

/-- Records of a round that this combining device holds parts of. -/
def roundIndices (s : State) (round : Nat) : List Nat :=
  (((s.red.parts.filter fun x => roundOf x.1 == round && counted s round x.2.1).map (·.1)).eraseDups).mergeSort fun a b => decide (a ≤ b)

/-- Every part of the round is in, and for the first round the reduction phase is over (R299). -/
def roundReady (s : State) (round : Nat) : Bool :=
  (liveDevices s).all (fun q => s.red.closed.contains (round, q) || !counted s round q) &&
    (round != 1 || !(s.run.phase == .compute || s.run.phase == .reduction))

/-- The byte stream of a round's results; its last entry names the round. -/
def resultStream (round : Nat) (l : List (Nat × SumVal)) : List Byte :=
  (l.flatMap fun x => b4 x.1 ++ b4 (valBytes x.2).length ++ valBytes x.2) ++ b4 (ixClose + round) ++ b4 0

/-- The result legs of this combining device (R452). -/
def resultLegs (s : State) : List FlowCtx :=
  match s.plan with
  | some p => p.flows.filter fun f => f.sending && f.cls == 2 && f.target == .combining p.pos
  | none => []

def sendResults (round : Nat) (l : List (Nat × SumVal)) (s : State) : State :=
  let d := resultStream round l
  let pkts := ((chunks 256 (d.length / 256 + 1) d).filter (!·.isEmpty)).zipIdx.map fun x => (64 * x.2, x.1)
  forEach (resultLegs s) (fun f t => sendReduce f.id 1 [(d.length / 4, [])] (sendReduce f.id 0 pkts t)) s

/-- The registers of a round's records, as the combining device holds them. -/
def keepRegs (l : List (Nat × List SumVal)) (s : State) : State :=
  { s with red := { s.red with sums := l.foldl (fun m x =>
      ((sumRegs x.2).zipIdx).foldl (fun m y => sset (fun _ => ({} : SumReg)) m (4 * x.1 + y.2) y.1) m) s.red.sums } }

/-- A combining device combines a round once its parts are in, and multicasts the results. -/
def combineRound (round : Nat) (s : State) : State :=
  if s.red.combined.contains round || !(liveCombiners s).contains (myPos s) || !roundReady s round then s
  else
    let l := (roundIndices s round).map fun i => (i, partsOf s i)
    let rs := l.filterMap fun x => (combineVal x.2).map fun v => (x.1, v)
    let s := keepRegs l s
    sendResults round rs { s with red := { s.red with combined := s.red.combined ++ [round], results := s.red.results ++ rs,
                                                      parts := s.red.parts.filter fun x => roundOf x.1 != round } }

def combineRounds (s : State) : State := combineRound 2 (combineRound 1 s)

/-! ### Packets -/

/-- SUMS at a combining device: a part of a record, or a sender's closing mark. -/
def sumsPacket (h : PktHdr) (body : List Byte) (s : State) : State :=
  match rxCtx s h.flow with
  | some c => match c.target with
    | .combining _ =>
      let s := returnCredit h s
      combineRounds (if ixClose ≤ h.arg then joinClose (h.arg - ixClose) h.src s else joinPart h.arg h.src (readVal h.arg body) s)
    | _ => s
  | none => s

def execSums (p : PortId) (sub : SubId) (hdr : InstrWord) (body : List Byte) (s : State) : Host.Outcome State Fault Refusal :=
  .next (arrive 3 4 p.val sub.val hdr.toNat body (fun h u => sumsPacket h body u) s)

/-- The combining device whose results a receiving context takes. -/
def rxResult (s : State) (h : PktHdr) : Option Nat :=
  (rxCtx s h.flow).bind fun c => match c.target with | .combining q => some q | _ => none

/-- The records of a result stream, and the round that its last entry names. -/
def readResults : Nat → List Byte → List (Nat × SumVal) × Nat
  | 0, _ => ([], 0)
  | n + 1, l =>
    let i := leAt l 0 4
    let k := leAt l 4 4
    if l.length < 8 then ([], 0)
    else if ixClose ≤ i then ([], i - ixClose)
    else
      let t := readResults n (l.drop (8 + k))
      ((i, readVal i (slice l 8 k)) :: t.1, t.2)

def inboxD : Nat → List Byte := fun _ => []

/-- DATA on a result leg: the bytes join the stream at their place (R280). -/
def resultData (p : Nat) (h : PktHdr) (body : List Byte) (s : State) : State :=
  let l := sget inboxD s.red.inbox h.flow
  if h.arg != l.length / 4 % 2 ^ 24 then badPacket p (hdrNat h) s
  else returnCredit h { s with red := { s.red with inbox := sset inboxD s.red.inbox h.flow (l ++ body) } }

/-- END on a result leg: the combining device's results of a round are here. -/
def resultEnd (p q : Nat) (h : PktHdr) (s : State) : State :=
  let l := sget inboxD s.red.inbox h.flow
  if h.arg != l.length / 4 % 2 ^ 24 then badPacket p (hdrNat h) s
  else
    let r := readResults l.length l
    let s := { s with red := { s.red with inbox := sset inboxD s.red.inbox h.flow [], results := s.red.results ++ r.1,
                                          ended := s.red.ended ++ [(r.2, q)] } }
    let body := b4 0xFFFFFFFF ++ b4 0 ++ b8 0
    sendTo (newHdr s 0 6 h.src h.flow h.gen 0 body) body s

/-! ### The results that this device holds -/

/-- Every combining device's results of a round are here. -/
def resultsHeld (s : State) (round : Nat) : Bool :=
  (liveCombiners s).all fun q => if q = myPos s then s.red.combined.contains round else s.red.ended.contains (round, q)

def result (s : State) (i : Nat) : Option SumVal := (s.red.results.find? fun x => x.1 == i).map (·.2)

/-- The reduced device values of the exchange. -/
def exchanged (s : State) : DevRec := match result s ixDev with | some (.dev d) => d | _ => {}

/-- The reduced sums of R129 of a layer: weights, gradients, updates. -/
def normSums (s : State) (layer : Nat) : Option (Nat × Nat × Nat) :=
  match result s (ixNorm + layer) with
  | some (.norm a b c) => some (a, b, c)
  | _ => none

/-- The global records of the step in ascending tensor ID; every record of a skipped step says so (R127). -/
def globalRecords (s : State) : List StatRec :=
  let l := s.red.results.filterMap fun x => asStat x.2
  let ids := ((l.map (·.tensor)).eraseDups).mergeSort fun a b => decide (a ≤ b)
  ids.filterMap fun t => match l.filter fun r => r.tensor == t with
    | [] => none
    | r :: u => some (let g := u.foldl addRec r; { g with flags := g.flags ||| (16 * b2n s.run.skipped) })

/-! ### What this device contributes -/

/-- Records of this device's collectors: `engines` those of the update engines. Their flags are those that the step has set. -/
def ownRecords (engines : Bool) (s : State) : List StatRec :=
  (deviceRecords (s.collectors.filter fun x => decide (576 ≤ x.1 / 2 ^ 20) == engines)).map fun r =>
    { r with flags := r.flags ||| (if r.role ≤ 2 then layerFlags s r.layer r.role else 0) }

/-- The statistics records travel with the gradients (R21, R31). -/
def startStats (s : State) : State :=
  closeRound 1 (forEach (ownRecords false s) (fun r t => sendPart r.tensor (.stat r) t) s)

/-- This device's secure flag (R307). -/
def secureFlag (s : State) : Bool :=
  let v := reg s 0xA004
  let iv := bitsN v 8 16
  decide (bitsN v 0 3 ≤ s.res.risk) || (iv != 0 && decide (iv ≤ s.res.sinceImage)) || decide (7168 ≤ s.res.journal.length) ||
    s.res.journalFull || s.res.secureDue || !s.host.rwSecure.isEmpty

/-- An image that this device should keep is absent or invalid (R327). -/
def keptBad (s : State) : Bool :=
  match s.plan with
  | some p => (p.positions.filter fun e => !e.spare && e.buddy == p.pos && e.pos != p.pos).any fun e =>
      !(s.res.kept.any fun k => k.1 == e.pos && k.2.valid)
  | none => false

/-- There is no complete copy of the last stop's image in host memory (R316, R327). -/
def copyAbsent (s : State) : Bool :=
  match s.res.hostImage, s.res.imgStep with
  | some k, some n => !k.valid || k.step != n
  | _, _ => true

def ownDev (s : State) : DevRec :=
  { loss := lossSum s, tokens := lossCount s, refused := s.adm.refused, risk := s.res.risk, riskAt := [myPos s],
    secure := secureFlag s, pause := !s.host.rwPause.isEmpty, pauseEnd := s.host.rwPause.any (·.2), planHeld := s.host.rwPlan.isSome,
    hostLost := s.host.lostRequest, repeated := s.run.repeated, imageBad := keptBad s, noCopy := copyAbsent s, paths := s.res.paths }

/-- The rings whose run-wide commands the exchange that begins carries; a later one waits for the next step's (R33). -/
def carriedRings (s : State) : List Nat :=
  (match s.host.rwPlan with | some r => [r.ring] | none => []) ++ s.host.rwSecure ++ s.host.rwPause.map (·.1)

/-- The boundary exchange begins: the update engines' records, the norms and this device's values go out (R31). -/
def startExchange (s : State) : State :=
  let s := { s with run := { s.run with carried := carriedRings s, sentRisk := s.res.risk } }
  let d := ownDev s
  let s := forEach (ownRecords true s) (fun r t => sendPart (ixEngine + r.tensor) (.stat r) t) s
  let s := forEach (layerNorms s) (fun x t => sendPart (ixNorm + x.1) (.norm x.2.1 x.2.2.1 x.2.2.2) t) s
  combineRounds (closeRound 2 (sendPart ixDev (.dev d) s))

end Sys2Proof.Machine
end

