-- ==== Sys2Proof/Machine/Packets.lean ====
section
/-! DEFINITION. Packets at their destination but for the reduce class (R211 to R217, R234, R277, R280, R282 to R288, R323):
catch markers, EASY, control reductions, digests, credit, data and the ends of passes, and declarations. -/

namespace Sys2Proof.Machine

open Sys2Proof

/-! ### CATCH and EASY -/

/-- A marker from a port other than the parent's is checked against the expected edge and counted, not used: where a device in lock
finds another stroke number or an error beyond 4 ns it counts as missed (R212; DESIGN CHOICE, log 129). -/
def otherMarker (p n : Nat) (phase : Int) (s : State) : State :=
  let s := modPort p (fun P => { P with markers := P.markers + 1 }) s
  if s.stroke.locked && (n != s.stroke.count || decide (64 < phase) || decide (phase < -64)) then bump (cntPort p 10) 1 s else s

/-- CATCH (R212 to R214, R283): from any port the sender's heartbeat; from the parent the phase error and, outside a run
and while the parent is locked, the stroke number. `phase` is in 62.5 ps units. -/
def catchPacket (p b : Nat) (phase : Int) (body : List Byte) (s : State) : State :=
  let s := modPort p (fun P => { P with catchSeen := true }) s
  let k := s.stroke
  let n := leAt body 0 8 % 2 ^ 48
  let lk := leAt body 12 4 % 2 == 1
  if k.noParent || k.parentPort != p || k.parentSub != b then otherMarker p n phase s
  else
    let take := !k.locked && lk && !runActive s
    let k := if take then { k with count := n, numbered := true } else k
    if n != k.count then { s with stroke := k }
    else { s with stroke := { k with marker := true, markerLocked := lk, offset := phase } }

def easyBody (stroke raiser : Nat) : List Byte := b8 stroke ++ b4 raiser ++ b4 0

/-- This device raises or passes on EASY for a stroke: each marker is flooded once (R215). -/
def floodEasy (stroke raiser : Nat) (s : State) : State :=
  if s.stroke.seen.contains (stroke, raiser) then s
  else
    let s := { s with stroke := { s.stroke with seen := s.stroke.seen ++ [(stroke, raiser)] } }
    flood 1 (easyBody stroke raiser) s

/-- EASY (R215 to R217): a copy already seen is dropped; one that comes after the edge is logged as a sync fault. -/
def easyPacket (body : List Byte) (s : State) : State :=
  let n := leAt body 0 8 % 2 ^ 48
  let r := leAt body 8 4
  if s.stroke.seen.contains (n, r) then s
  else
    let s := floodEasy n r s
    if n < s.stroke.count then health 7 1 (logEv 0x0302 (b8 n ++ b4 r) (bump (cntDev 3) 1 s)) else s

/-! ### Flows (R279, R280) -/

/-- CREDIT: the source holds the returned flow credit again. -/
def creditPacket (body : List Byte) (s : State) : State :=
  let f := leAt body 0 4
  let s := creditAdd f (fun n => n - leAt body 4 4) s
  pumpFlow f s.red.outq.length s

/-- The descriptor whose active pass has flow `f` among its legs, not yet acknowledged. -/
def legPass (s : State) (f : Nat) : Option Nat :=
  (s.stm.desc.find? fun x => match x.2.pass with
    | some p => p.legs.any fun l => l.1 == f && !l.2.2
    | none => false).map (·.1)
def legCursor (p : PassSt) (f : Nat) : Nat := ((p.legs.find? fun l => l.1 == f).map (·.2.1)).getD 0

/-- A leg has been acknowledged: its pass completes once every leg has (R261, R286). -/
def ackLeg (f : Nat) (s : State) : State :=
  match legPass s f with
  | none => s
  | some d => match (desc s d).pass with
    | none => s
    | some q =>
      let s := setLeg d f (legCursor q f) true s
      if q.legs.all fun l => l.1 == f || l.2.2 then settle (endPass d s) else s

/-! ### Lost ports and devices (R288, R323) -/

def declCode : DeclKind → Nat
  | .portLost => 0 | .receiverFailed => 1 | .straggler => 2

/-- Flood a declaration on every active port. R277 gives no packet kind for it: it goes out as an output of its own. -/
def floodDecl (k pos by_ : Nat) (s : State) : State :=
  forEach (activePorts s) (fun q t => emit (.declaration q.1 q.2 k pos by_) t) s

/-- Neighbours of a position over the plan's ports. -/
def plannedPeers (s : State) (pos : Nat) : List Nat := (neighbours (amended s) pos).eraseDups

/-- The path code that a lost device takes: the replica path without a free spare or where t p = 1, else the butty path
(R325, R326). -/
def freeSpares (s : State) : List MapDev :=
  match s.plan with
  | some p => (amended s).filter fun x => (p.positions.any fun e => e.pos == x.pos && e.spare) && !s.res.lost.contains x.pos
  | none => []
def lostCode (s : State) : Nat :=
  match s.plan with
  | some p => if p.t * p.p = 1 || (freeSpares s).isEmpty then 7 else 8
  | none => 7

/-- A device is lost by declarations or as a straggler: in a step the run holds at the guard point (R319, R323). -/
def loseAndHold (pos cause : Nat) (s : State) : State :=
  if s.res.lost.contains pos then s
  else
    let s := loseDevice pos cause s
    if inRun s then { s with run := { s.run with holdDue := max s.run.holdDue 5 } } else s

/-- A declaration that a port to `pos` is lost joins the others; with every planned port declared, the device is lost. -/
def portDeclared (pos by_ : Nat) (s : State) : State :=
  let s := if s.res.declared.contains (pos, by_) then s
    else { s with res := { s.res with declared := s.res.declared ++ [(pos, by_)] } }
  let peers := plannedPeers s pos
  if !peers.isEmpty && peers.all fun q => s.res.declared.contains (pos, q) then loseAndHold pos 1 s else s

/-- A port declared lost: the declaration is flooded and takes path 2, and the decision is logged (R37, R318, R323). -/
def portLost (p : Nat) (peers : List Nat) (s : State) : State :=
  let s := modPort p (fun P => { P with lost := true }) s
  let s := peers.foldl (fun t q => portDeclared q (myPos t) (floodDecl 0 q (myPos t) t)) s
  if !inRun s then s
  else pathEv 2 s.run.step (myPos s) p 0 (addPath { code := 2, pos := myPos s, part := p, arg := 0 }
    { s with run := { s.run with holdDue := max s.run.holdDue 11 } })

/-- HEARTBEAT_LIMIT: this device declares its port lost, a timed decision; the declaration is flooded. -/
def heartbeatLimit (p : Nat) (s : State) : State :=
  let limit := bitsN (reg s 0xA008) 0 12
  if (port s p).lost || (port s p).catchMissed < limit || !(plannedPorts s).contains p || !(recorded s 3).isEmpty then s
  else
    let peers := match devAt (amended s) (myPos s) with
      | some x => ((List.range 2).filterMap fun b =>
          let e := x.ports.getD (2 * p + b) 0
          if entryLanes e = 0 then none else some (entryPos e)).eraseDups
      | none => []
    takeTimed 3 (peers.headD 0xFFFF) p (portLost p peers) s

def execHeartbeatLimit (p : PortId) (s : State) : Host.Outcome State Fault Refusal := .next (heartbeatLimit p.val s)

/-- DECLARATION: a flooded declaration arrives; it is passed on once, recorded, and acted on. -/
def declare (k : DeclKind) (pos by_ : Nat) (s : State) : State :=
  let pass := fun (t : State) => floodDecl (declCode k) pos by_ t
  match k with
  | .portLost => if s.res.declared.contains (pos, by_) then s else portDeclared pos by_ (pass s)
  | .receiverFailed =>
    if s.res.lost.contains pos then s else
      loseDevice pos 3 (pass s)
  | .straggler => if s.res.lost.contains pos then s else loseAndHold pos 4 (pass s)

def execDeclaration (p : PortId) (kind : DeclKind) (pos : Fin 4096) (by_ : Fin 4096) (s : State) :
    Host.Outcome State Fault Refusal :=
  .next (if (port s p.val).sub0.up || (port s p.val).sub1.up then declare kind pos.val by_.val s else s)

/-- DISTRIBUTION_DEADLINE (R288): receivers of incomplete legs are declared failed. -/
def distDue (s : State) : Bool :=
  match s.plan with
  | some p => decide (s.run.phaseStart + p.d + max 2 (ceilDiv p.d 4) ≤ s.stroke.count)
  | none => false

def failLeg (f : FlowCtx) (s : State) : State :=
  takeTimed 2 f.peer 0 (fun s =>
    let s := logEv 0x0604 (b4 s.run.step ++ b8 s.stroke.count ++ b4 f.peer) s
    let s := ackLeg f.id { s with link := { s.link with failedLegs := insertNat f.id s.link.failedLegs } }
    loseDevice f.peer 3 (floodDecl 1 f.peer (myPos s) s)) s

/-- CONTROL_REDUCTION_STALL (R285): 64 strokes after this device gave its operand, a sync fault, once for each reduction. -/
def controlStall (id : Nat) (s : State) : State :=
  let c := ctlGet s id
  if c.own && !c.stalled && decide (c.since + 64 ≤ s.stroke.count) then
    health 7 1 (ctlMod id (fun c => { c with stalled := true }) s)
  else s

def execControlReductionStall (id : Nat) (s : State) : Host.Outcome State Fault Refusal := .next (controlStall id s)

/-- The link epoch advances (R282). -/
def nextEpoch (s : State) : State := { s with link := { s.link with epoch := (s.link.epoch + 1) % 65536 } }

end Sys2Proof.Machine
end

