-- ==== Sys2Proof/Machine/Guard.lean ====
section
/-! DEFINITION. The guard point (R206, R215, R287, R319, R374), holds and the classes of poisoned data (R253, R254), the
limit on EASY strokes (R218, R324), a lost host (R321), the standing reply (R351) and WEDGED (R353). -/

namespace Sys2Proof.Machine

open Sys2Proof

/-! ### The class of the data at an address (R254) -/

inductive DataClass where
  | recomputable | planData | state | package | keptImage | outside
  deriving DecidableEq, Repr

def inPlanes (t : TensorDesc) (a : Nat) : Bool :=
  (decide (t.plane0 ≤ a) && decide (a < t.plane0 + planeBytes t)) || (decide (t.plane1 ≤ a) && decide (a < t.plane1 + scaleBytes t))

/-- State tensors are those of kinds 2, 4 and 6; the plan names the other ranges of plan data (1) and state (2). -/
def dataClass (s : State) (a : Nat) : DataClass :=
  let named := fun (k : Nat) => match s.plan with
    | some p => p.classes.any fun r => r.1 == k && decide (r.2.1 ≤ a) && decide (a < r.2.1 + r.2.2)
    | none => false
  if descTable s ≤ a && a < lpddrTop s then .planData
  else if pkgRegion s ≤ a && a < descTable s then .package
  else if buddyRegion s ≤ a && a < staging s then .keptImage
  else if staging s ≤ a && a < pkgRegion s then .outside
  else if (match s.plan with | some p => p.tensors.any fun t => isStored t && inPlanes t a | none => false) then .state
  else if named 2 then .state
  else if named 1 then .planData
  else .recomputable

/-- The path that poisoned data of a class takes (R254). -/
def classPath (k : DataClass) (a : Nat) (s : State) : State :=
  let f := fun code arg => addPath { code := code, pos := myPos s, part := 0, arg := arg } s
  match k with
  | .recomputable => f 3 0
  | .planData => f 3 2
  | .state => f 4 0
  | .package => f 0 9
  | .keptImage => buddyHit a s
  | .outside => if plannerCopy s ≤ a ∧ a < traceRegion s then plannerCopied s else s

/-- The core whose tile or partition an address names. -/
def coreAt (s : State) (a : Nat) : Nat :=
  match memRegion s a with | some (.scratch n) | some (.hold n) => n | _ => 0

/-- What the poison at an address asks of the boundary (R253, R254, R318): a target that was off or in reset takes the path of its
core; else the class of the data says the path, or an invalid kept image. Path 3 with argument 2 replans first; code 0 holds for the host. -/
def poisonPath (x : Nat × Nat) (s : State) : State :=
  if x.2 = 2 ∨ x.2 = 3 then addPath { code := 5, pos := myPos s, part := coreAt s x.1, arg := 0 } s
  else classPath (dataClass s x.1) x.1 s

/-! ### Holds (R170, R253, R264, R319) -/

/-- The timed decisions of the held step leave the journal. -/
def dropDecisions (s : State) : State :=
  { s with res := { s.res with journal := s.res.journal.filter fun e => e.step != s.run.step } }

/-- The step is held: no device issues further work, every pass is aborted, the epoch advances, and the boundary follows
without a commit. The devices exchange what the boundary needs of them (DESIGN CHOICE, log 127). -/
def holdNow (cause : Nat) (s : State) : State :=
  let s := dropDecisions (stopThreads (abortPasses s))
  let s := { s with
    run := { s.run with holdDue := 0, heldCause := cause, boundDone := false, boundWait := false, enter := true, moments := [],
                        bookWrites := [], booksDone := [], converted := [], norms := [], losses32 := [] },
    red := { scalesKnown := s.red.scalesKnown }, collectors := [],
    link := { s.link with ctl := [], credit := [], legsDone := [], failedLegs := [] } }
  startExchange (nextEpoch (setPhase .boundary s))

/-- A step is running that a hold can stop. -/
def inStep (s : State) : Bool := inRun s && s.run.phase != .none && s.run.phase != .boundary

/-- Cores of this device whose fault flag is set. -/
def faultedCores (s : State) : List Nat := (List.range (enabledCores s)).filter fun c => (core s c).fault

/-- The faulted threads of a core run custom programs: the host replaces the program (R170). -/
def customFault (s : State) (c : Nat) : Bool :=
  (List.range 32).any fun t => (thread s c t).state == .faulted && isCustom s c t

/-- The unequal comparisons of a core's self-test are counted for their arrays (R96, R383); a custom program's core takes no test. -/
def countTest (c : Nat) (s : State) : State :=
  if customFault s c then s
  else forEach (s.res.selfTest.filter fun x => x / 4 == c) (fun x t => bump (cntCore c (16 + x % 4)) 1 t) s

/-- The paths of this device's own faults: a core fault in a lockkeeper program takes path 5, a full journal path 3, and a
custom program's fault or the device's own waits for the host. -/
def faultPaths (s : State) : State :=
  let s := (faultedCores s).foldl (fun t c =>
    addPath (if customFault t c then { code := 0, pos := myPos t, part := c, arg := 6 }
      else { code := 5, pos := myPos t, part := c, arg := b2n (t.res.selfTest.any fun x => x / 4 == c) }) (countTest c t)) s
  let s := if s.res.journalFull then addPath { code := 3, pos := myPos s, part := 0, arg := 1 } s else s
  if s.run.devFault then addPath { code := 0, pos := myPos s, part := 0, arg := 7 } s else s

/-- This device's flags at a guard point: bit c stands for a hold of cause c, 3 a fault, 4 poison (R170, R253). -/
def guardFlags (s : State) : Nat :=
  let fault := !(faultedCores s).isEmpty || s.run.devFault || s.res.journalFull
  let poison := (List.range (enabledCores s)).any fun c => (core s c).poison
  bfl fault 3 ||| bfl poison 4 ||| bfl (s.run.holdDue != 0) s.run.holdDue

/-- The OR of the flags over the system holds the step; this device's own failures take their paths at the boundary. -/
def holdFrom (flags : Nat) (s : State) : State :=
  if flags = 0 || !inStep s then s
  else
    let s := faultPaths s
    let s := s.res.badAddrs.foldl (fun t a => poisonPath a t) s
    holdNow (Nat.log2 flags) { s with res := { s.res with badAddrs := [] } }

/-- What every device knows without a reduction: a lost device by its flooded declarations, the EASY limit (R218, R323). -/
def floodedHold (s : State) : Nat := if s.run.holdDue = 2 || s.run.holdDue = 5 then 2 ^ s.run.holdDue else 0

/-! ### EASY at the guard point (R215, R374) -/

/-- EASY strokes may be raised in these phases. -/
def easyPhase (s : State) : Bool :=
  s.run.phase == .compute || s.run.phase == .update || s.run.phase == .exchange || s.run.phase == .boundary

/-- Strokes that throttling leaves between EASY strokes: half of PERIOD from 2 °C above the limit. -/
def throttlePeriod (s : State) : Nat :=
  let v := reg s 0xB01C
  let p := bitsN v 8 4
  if (4 * (bitsN v 0 8 + 2 : Nat) : Int) ≤ hottest s then max 2 (p / 2) else p

def throttleDue (s : State) : Bool :=
  s.run.phase == .compute && s.pwr.throttle && !s.stroke.easy && decide (s.stroke.lastEasy + throttlePeriod s ≤ s.stroke.count)

def raiseEasy (unfinished : Bool) (s : State) : State :=
  if !inRun s then s
  else if unfinished && easyPhase s then floodEasy s.stroke.count (myPos s) s
  else if throttleDue s then floodEasy s.stroke.count (myPos s) (bump (cntDev 2) 1 s)
  else s

/-! ### Multicast legs behind (R287) -/

/-- Legs of active passes without credit whose cursor trails the leading leg of their set. -/
def behindLegs (s : State) : List FlowCtx :=
  s.stm.desc.flatMap fun x => match x.2.pass with
    | none => []
    | some p =>
      let lead := p.legs.foldl (fun m l => max m l.2.1) 0
      p.legs.filterMap fun l => match legCtx s l.1 with
        | some f => if f.cls = 2 && l.2.1 < lead && !legReady s l.1 then some f else none
        | none => none

/-- The ports of the legs behind show it. -/
def showBehind (l : List FlowCtx) (s : State) : State :=
  (List.range 16).foldl (fun t p => modPort p (fun P => { P with behind := l.any fun f => f.port == p }) t) s

/-- A leg behind is logged and counted once in a phase. -/
def logBehind (f : FlowCtx) (s : State) : State :=
  if s.link.behindLogged.contains f.id then s
  else logEv 0x0603 (b4 f.peer) (bump (cntPort f.port 13) 1 { s with link := { s.link with behindLogged := s.link.behindLogged ++ [f.id] } })

def markBehind (s : State) : State := (behindLegs s).foldl (fun t f => logBehind f t) (showBehind (behindLegs s) s)

/-! ### The EASY limit (R218, R324) and lost hosts (R321) -/

/-- Cause 1 takes the host-lost path for the straggler's host; else the straggler is lost. -/
def straggler (cause : Nat) (s : State) : State :=
  let pos := s.stroke.lastRaiser
  if cause = 1 then
    let s := pathEv 6 s.run.step pos 0 0 s
    let s := if pos = myPos s then { s with host := { s.host with lost := true, lostRequest := true } } else s
    let s := addPath { code := 6, pos := pos, part := 0, arg := 0 } s
    { s with run := { s.run with holdDue := max s.run.holdDue 2 }, res := { s.res with path := 6 } }
  else
    let s := loseAndHold pos 4 s
    { s with res := { s.res with path := lostCode s } }

/-- The straggler's own cause: 1 where its admission waits for the host's ring, else 2; 0 on every other device. -/
def ownCause (s : State) : Nat := if s.stroke.lastRaiser != myPos s then 0 else if s.adm.waitingHost then 1 else 2

/-- EASY_LIMIT: `cause` is the maximum of the other devices' causes. -/
def easyLimit (cause : Nat) (s : State) : State :=
  match s.plan with
  | some p =>
    if inRun s && decide (p.easyLimit + 1 ≤ s.stroke.easyRun) && (recorded s 4).isEmpty && s.run.holdDue = 0 && !s.res.lost.contains s.stroke.lastRaiser then
      takeTimed 4 s.stroke.lastRaiser (max cause (ownCause s)) (straggler (max cause (ownCause s))) s
    else s
  | none => s

def execEasyLimit (cause : Fin 3) (s : State) : Host.Outcome State Fault Refusal := .next (easyLimit cause.val s)

/-- The host is unreachable now: its link is down, or a reply ring is full with replies waiting. -/
def hostAway (s : State) : Bool := !s.host.linkUp || s.host.rings.any fun x => !x.2.queued.isEmpty

/-- HOST_LOST: in a run the request enters the next boundary exchange. -/
def hostLost (s : State) : State :=
  if !hostAway s then s else { s with host := { s.host with lost := true, lostRequest := s.host.lostRequest || inRun s } }

def execHostLost (s : State) : Host.Outcome State Fault Refusal := .next (hostLost s)

/-! ### The standing reply (R351) -/

def standingReply (s : State) : State :=
  let v := reg s 0x2010
  if s.dev == .boot || s.dev == .recovery || s.pwr.state == .g5 || s.host.stuck || !bitN v 16 || s.host.standCount < bitsN v 0 16 then s
  else
    let a := reg s 0x2008 + reg s 0x200C * 2 ^ 32
    let ph : Byte := if s.host.standPhase then 1 else 0
    let r := statusWord s 0 s.host.attnStanding ++ leBytes 2 0xFFFF ++ [0x81, ph] ++ b8 s.stroke.count ++
      b4 (stepField s) ++ b4 (s.host.standSeq + 1) ++ b4 s.host.events ++ leBytes 1 s.res.sysRisk ++ leBytes 3 0
    let s := if hostRange s a 32 then emit (.hostWrite a r) s else bump (cntDev 21) 1 s
    { s with host := { s.host with standCount := 0, standPhase := !s.host.standPhase, standSeq := (s.host.standSeq + 1) % 2 ^ 32,
                                   attnStanding := 0 } }

def execStandingReply (s : State) : Host.Outcome State Fault Refusal := .next (standingReply s)

/-! ### WEDGED (R353) -/

/-- Work is pending for the unit. -/
def pendingFor (s : State) (u : WedgeUnit) : Bool :=
  match u with
  | .hostInterface => s.host.rings.any fun x => !x.2.fetched.isEmpty || !x.2.queued.isEmpty || x.2.sqHead != x.2.sqTail
  | .streamEngine => decide (0 < activePasses s) || s.cores.any fun x => !x.2.str.isEmpty
  | .lockkeeper => runActive s

def wedgeCode : WedgeUnit → Nat
  | .hostInterface => 1 | .streamEngine => 2 | .lockkeeper => 3

def wedge (u : WedgeUnit) (s : State) : State :=
  if s.dev == .boot || s.dev == .recovery || s.dev == .wedged || !pendingFor s u then s
  else
    let t := logEv 0x0901 (b4 (wedgeCode u)) s
    { t with dev := .wedged, host := { t.host with stuck := u == .hostInterface } }

def execWedgeTimeout (u : WedgeUnit) (s : State) : Host.Outcome State Fault Refusal := .next (wedge u s)

end Sys2Proof.Machine
end

