-- ==== Sys2Proof/Machine/Optim.lean ====
section
/-! DEFINITION. The update engines (R106, R107, R111, R129, R196 to R202, R296): the corrected gradient, the optimisers, the
stochastic writes, the three sums of each layer, weight conversions and codebooks. -/

namespace Sys2Proof.Machine

open Sys2Proof

/-! ### Random words (R110, R111, R113) -/

/-- The slice of element `i` of an owned piece in step `n` (R111). -/
def srSlice (key : List Byte) (n i : Nat) : Nat := rngSlice (rngWord key (n * 2 ^ 32 + i / 8)) i

/-! ### Gradients and stored values -/

/-- The gradient of R296: one correctly rounded division of the exact sum. -/
def correctedGrad (acc : Int) (scale count : Nat) : Word :=
  if acc = 0 || count = 0 then 0
  else roundRat32 (decide (acc < 0)) acc.natAbs count ((scale : Int) - 127 - 36)

/-- A stored scalar of two bytes as FP32, exactly. -/
def loadScalar (s : State) (f : Fmt) (a : Nat) : Word := round32 (plainVal f 0 (leNat (memBytes s a 2)))

/-- The elements of a block of moments: scalars of two bytes, or an MXFP8 block with its scale byte. -/
def loadBlock (s : State) (f : Fmt) (a sc b n : Nat) : List Word :=
  if isMx f then
    let x := (memByte s (sc + b)).toNat
    (List.range n).map fun i => round32 (mxVal f x (memByte s (a + 32 * b + i)).toNat)
  else (List.range n).map fun i => loadScalar s f (a + 2 * (32 * b + i))

/-! ### The optimisers (R197, R198) -/

structure UpdScalars where
  lr : Word
  a : Word
  q : Word
  dk : Word
  c1 : Word
  c2 : Word
  deriving DecidableEq, Repr

/-- p1 and p2 of an optimiser entry before the step's update. -/
def momPowers (s : State) (i : Nat) : Nat × Nat := match s.run.opt.find? fun x => x.1 == i with
  | some x => x.2
  | none => (one32.toNat, one32.toNat)

/-- p1 and p2 advanced. -/
def advPowers (e : OptEntry) (p : Nat × Nat) : Nat × Nat :=
  ((mul32 (BitVec.ofNat 32 p.1) e.beta1).toNat, (mul32 (BitVec.ofNat 32 p.2) e.beta2).toNat)

def updScalars (e : OptEntry) (n : Nat) (p : Nat × Nat) : UpdScalars :=
  let lr := lrAt e n
  { lr := lr, a := div32 lr (sub32 one32 (BitVec.ofNat 32 p.1)), q := sqrt32 (sub32 one32 (BitVec.ofNat 32 p.2)),
    dk := mul32 lr e.wd, c1 := sub32 one32 e.beta1, c2 := sub32 one32 e.beta2 }

/-- Clipping: a NaN stays NaN. -/
def clipGrad (e : OptEntry) (g : Word) : Word :=
  if !e.clipEn || vIsNan (dec32 g) then g
  else if lt32 g (neg32 e.clip) then neg32 e.clip
  else if lt32 e.clip g then e.clip else g

def sgn32 (c : Word) : Word :=
  if vIsNan (dec32 c) then nan32 else if lt32 c 0 then neg32 one32 else if lt32 0 c then one32 else 0

/-- New weight, first and second moment of an element. -/
def updElem (e : OptEntry) (k : UpdScalars) (g w m v : Word) : Word × Word × Word :=
  match e.algo with
  | 0 =>
    let m1 := fma32 e.beta1 m (fma32 e.wd w g)
    (fma32 (neg32 k.lr) m1 w, m1, v)
  | 1 =>
    let m1 := fma32 k.c1 g (mul32 e.beta1 m)
    let v1 := fma32 k.c2 (mul32 g g) (mul32 e.beta2 v)
    let d := add32 (div32 (sqrt32 v1) k.q) e.eps
    let u := div32 (mul32 k.a m1) d
    (sub32 (fma32 (neg32 k.dk) w w) u, m1, v1)
  | _ =>
    let c := fma32 k.c1 g (mul32 e.beta1 m)
    (fma32 (neg32 k.lr) (sgn32 c) (fma32 (neg32 k.dk) w w), fma32 k.c2 g (mul32 e.beta2 m), v)

/-! ### Writing (R106, R107, R199) -/

/-- A block rounded stochastically: its bytes, its scale byte if any, and the change of its statistics. -/
def srWrite (f : Fmt) (us : List Nat) (xs : List Val) : List Byte × List Byte × (StatRec → StatRec) :=
  if isMx f then
    let b := srBlock f us xs
    (packCodes (fmtWidth f) (padBlock b.codes), [BitVec.ofNat 8 b.scale], fun r => statBlock r xs b)
  else match scalarFmt f with
    | some g =>
      let cs := (xs.zip us).map fun x => srScalar g x.2 x.1
      (cs.flatMap fun c => leBytes 2 c.1, [], fun r => statElems r xs (cs.map (·.2)))
    | none => ([], [], id)

/-- A codebook rebuilt during the distribution becomes current at the boundary, also of a skipped step (R201). -/
def stageBook (a : Nat) (b : List Byte) (s : State) : State :=
  { s with run := { s.run with bookWrites := s.run.bookWrites ++ [(a, b)] } }

/-- Add a block's exact squares to engine `e`'s part of the three sums of a layer (R129). -/
def addSquares (acc : Nat) (l : List Word) : Nat := l.foldl (fun a x => w42AddVal (dec42 a) (vMul (dec32 x) (dec32 x))) acc

def normPart (key : Nat) (w g u : List Word) (l : List (Nat × Nat × Nat × Nat)) : List (Nat × Nat × Nat × Nat) :=
  let old := match l.find? fun x => x.1 == key with | some x => x.2 | none => (0, 0, 0)
  let new := (key, addSquares old.1 w, addSquares old.2.1 g, addSquares old.2.2 u)
  (l.filter fun x => decide (x.1 < key)) ++ [new] ++ (l.filter fun x => decide (key < x.1))

/-- Elements of block `b` of a piece. -/
def blockLen (p : Piece) (b : Nat) : Nat := min 32 (p.elems - 32 * b)

/-- The gradients of a block, corrected and clipped. -/
def blockGrads (p : Piece) (e : OptEntry) (b : Nat) (s : State) : List Word :=
  let blk := match planRegion s p.region with
    | some r => readBlk s (blkAddr r b)
    | none => { acc := [], scale := 0, emax := 0, count := 0, ovf := false, nf := false }
  (List.range (blockLen p b)).map fun j => clipGrad e (correctedGrad (blk.acc.getD j 0) blk.scale blk.count)

/-- The stored weights of a block in the copy at `base`. -/
def blockWeights (p : Piece) (f : Fmt) (base b : Nat) (s : State) : List Word :=
  (List.range (blockLen p b)).map fun j => loadScalar s f (base + 2 * (32 * b + j))

def firstFmt (p : Piece) : Fmt := (fmtOfCode p.m1Fmt).getD .bf16
def secondFmt (p : Piece) : Fmt := (fmtOfCode p.m2Fmt).getD .bf16

/-- New weight and moments of each element of a block (R198). -/
def blockResults (p : Piece) (e : OptEntry) (f : Fmt) (b : Nat) (s : State) : List (Word × Word × Word) :=
  let n := blockLen p b
  let k := updScalars e s.run.step (advPowers e (momPowers s p.opt))
  let gs := blockGrads p e b s
  let ws := blockWeights p f p.cur b s
  let ms := loadBlock s (firstFmt p) p.m1 p.m1Scale b n
  let vs := if e.algo = 1 then loadBlock s (secondFmt p) p.m2 p.m2Scale b n else List.replicate n 0
  (List.range n).map fun j => updElem e k (gs.getD j 0) (ws.getD j 0) (ms.getD j 0) (vs.getD j 0)

/-- The random slices of a block's elements for a role (R111). -/
def blockSlices (p : Piece) (role b : Nat) (s : State) : List Nat :=
  let key := rngKeyOf (runSeed s) (myPos s) p.layer role 0xFFFF
  (List.range (blockLen p b)).map fun j => srSlice key s.run.step (32 * b + j)

/-- What a block writes: the weights to the other copy, and the moments, which the commit makes current. -/
def weightsOut (p : Piece) (e : OptEntry) (f : Fmt) (b : Nat) (s : State) : List Byte × List Byte × (StatRec → StatRec) :=
  srWrite f (blockSlices p 0 b s) ((blockResults p e f b s).map fun r => dec32 r.1)
def firstOut (p : Piece) (e : OptEntry) (f : Fmt) (b : Nat) (s : State) : List Byte × List Byte × (StatRec → StatRec) :=
  srWrite (firstFmt p) (blockSlices p 3 b s) ((blockResults p e f b s).map fun r => dec32 r.2.1)
def secondOut (p : Piece) (e : OptEntry) (f : Fmt) (b : Nat) (s : State) : List Byte × List Byte × (StatRec → StatRec) :=
  srWrite (secondFmt p) (blockSlices p 4 b s) ((blockResults p e f b s).map fun r => dec32 r.2.2)

/-- Non-finite results of a block. -/
def blockBad (p : Piece) (e : OptEntry) (f : Fmt) (b : Nat) (s : State) : Nat :=
  let rs := blockResults p e f b s
  ((rs.map (fun r => dec32 r.1) ++ rs.map (fun r => dec32 r.2.1) ++ (if e.algo = 1 then rs.map (fun r => dec32 r.2.2) else [])).filter
    fun x => !vFinite x).length

/-- The writes of a block's moments, each when it has bytes. -/
def momentWrites (p : Piece) (e : OptEntry) (f : Fmt) (b : Nat) (s : State) : List (Nat × List Byte) :=
  let o1 := firstOut p e f b s
  let o2 := secondOut p e f b s
  let first := [(p.m1 + (if isMx (firstFmt p) then 32 else 64) * b, o1.1), (p.m1Scale + b, o1.2.1)]
  let second := [(p.m2 + (if isMx (secondFmt p) then 32 else 64) * b, o2.1), (p.m2Scale + b, o2.2.1)]
  (first ++ if e.algo = 1 then second else []).filter fun x => !x.2.isEmpty

/-- The three sums of squares of a layer with the block of one engine added: weights as stored, gradients, changes. -/
def blockNorms (p : Piece) (e : OptEntry) (f : Fmt) (b : Nat) (s : State) : List (Nat × Nat × Nat × Nat) :=
  let stored := blockWeights p f p.other b (memWrite (p.other + 64 * b) (weightsOut p e f b s).1 s)
  let change := ((blockResults p e f b s).zip (blockWeights p f p.cur b s)).map fun x => sub32 x.1.1 x.2
  normPart (p.layer * 16 + b % 16) stored (blockGrads p e b s) change s.run.norms

/-- One block's statistics records. -/
def blockStats (p : Piece) (e : OptEntry) (f : Fmt) (b : Nat) (s t : State) : State :=
  let t := collect (576 + b % 16) p.m1Tensor (firstOut p e f b s).2.2 (collect (576 + b % 16) p.tensor (weightsOut p e f b s).2.2 t)
  if e.algo = 1 then collect (576 + b % 16) p.m2Tensor (secondOut p e f b s).2.2 t else t

/-- A block's non-finite results are counted, logged and shown (R199). -/
def nonfiniteBlock (p : Piece) (bad : Nat) (s : State) : State :=
  if bad = 0 then s else attn 6 (logEv 0x0905 (b4 p.layer ++ b8 bad) { s with run := { s.run with nonfinite := true } })

/-- One block of an owned piece. -/
def updateBlock (b : Nat) (p : Piece) (e : OptEntry) (f : Fmt) (s : State) : State :=
  let norms := blockNorms p e f b s
  let writes := momentWrites p e f b s
  let t := nonfiniteBlock p (blockBad p e f b s) (blockStats p e f b s (memWrite (p.other + 64 * b) (weightsOut p e f b s).1 s))
  { t with run := { t.run with moments := t.run.moments ++ writes, norms := norms, updEntry := sset natD t.run.updEntry (b % 16) p.opt,
                               upd := smod natD t.run.upd (b % 16) (· + 1) } }

/-- OPTIMISER_UPDATE: the block is the next one of its engine; a skipped step writes nothing. -/
def optimiserUpdate (i b : Nat) (s : State) : State :=
  match s.plan with
  | none => s
  | some pl =>
    if s.run.phase != .update || s.run.skipped then s
    else if engineNext (b % 16) pl.pieces 0 (sget natD s.run.upd (b % 16)) != some (i, b) then s
    else match pl.pieces[i]? with
      | none => s
      | some p => match optEntry s p.opt, fmtOfCode p.fmt with
        | some e, some f => updateBlock b p e f s
        | _, _ => s

def execOptimiserUpdate (piece block : Nat) (s : State) : Host.Outcome State Fault Refusal := .next (optimiserUpdate piece block s)

/-! ### Weight conversion (R62, R142, R200) -/

/-- An instance of the layer is repeating now. -/
def layerRepeats (s : State) (layer : Nat) : Bool :=
  match s.plan with
  | some p => s.cores.any fun x => x.2.ovf.any fun o => o.2.again && (Config.instanceLayer p.inputRec o.1).1 == layer
  | none => false

/-- The rung byte at which a layer's weights are converted: the W rung in force, or the repeat's. -/
def convRung (s : State) (layer : Nat) : Nat :=
  match s.pkg.bind fun p => p.layers[layer]? with
  | some y => repeatRung s layer y (layerRepeats s layer) 0
  | none => 0

/-- The codebook of the element at place `i` in storage: that of its 128 columns (R52). -/
def bookOf (s : State) (c : Conv) (i : Nat) : List Byte × List Val :=
  let b := memBytes s (c.book + 32 * (axisRow c.dims c.baxis i / 128)) 32
  (b, (List.range 16).map fun j => decFloat fmtBF16 (leAt b (2 * j) 2))

/-- The places in storage of block `b` of a conversion: along the block axis for an MX format, a row's last block the
shorter (R45, R50), else 32 consecutive elements. -/
def convPlaces (c : Conv) (f : Fmt) (b : Nat) : List Nat :=
  if isMx f then
    let ext := axisExtent c.dims c.baxis
    let nb := ceilDiv ext 32
    (List.range (min 32 (ext - 32 * (b % nb)))).map fun j => axisIndex c.dims c.baxis (b / nb) (32 * (b % nb) + j)
  else (List.range (min 32 (elemsOf c.dims - 32 * b))).map fun j => 32 * b + j

/-- Blocks of a conversion. -/
def convBlocks (c : Conv) (f : Fmt) : Nat :=
  if isMx f then axisRows c.dims c.baxis * ceilDiv (axisExtent c.dims c.baxis) 32 else ceilDiv (elemsOf c.dims) 32

/-- Block `b` of a weight in format `f`: the bytes with their places, and the change of the W statistics. -/
def convBlock (c : Conv) (src f : Fmt) (residual : Bool) (s : State) (b : Nat) : List (Nat × List Byte) × (StatRec → StatRec) :=
  let ps := convPlaces c f b
  let ws := ps.map fun i => loadScalar s src (c.src + 2 * i)
  let xs := ws.map dec32
  let at_ := fun (base : Nat) => base + 4 * fmtWidth f * b
  if f = .tc4 then
    let js := (ps.zip ws).map fun x =>
      let k := bookOf s c x.1
      (if vFinite (dec32 x.2) then nearestEntry k.2 (dec32 x.2) else Config.bookIndexNonfinite k.1 x.2 % 16, tc4Class k.2 (dec32 x.2))
    ([(at_ c.dst, packCodes 4 (js.map (·.1)))], fun r => statElems r xs (js.map (·.2)))
  else if isMx f then
    let q := quantBlock f xs
    let r := quantBlock f (blockResidual f xs q)
    ([(at_ c.dst, packCodes (fmtWidth f) (padBlock q.codes)), (c.dstScale + b, [BitVec.ofNat 8 q.scale])] ++
      (if residual then [(at_ c.res, packCodes (fmtWidth f) (padBlock r.codes)), (c.resScale + b, [BitVec.ofNat 8 r.scale])] else []),
     fun r => statBlock r xs q)
  else
    let t := sInt 8 c.texp
    let q := xs.map fun x => encPlain f t false x
    ([(at_ c.dst, packCodes (fmtWidth f) (q.map (·.1)))] ++
      (if residual then
        [(at_ c.res, packCodes (fmtWidth f) ((xs.zip q).map fun x => (encPlain f t false (plainResidual f t x.1 x.2.1)).1))] else []),
     fun r => statElems r xs (q.map (·.2)))

/-- The rung byte in force of a role of a layer, or the repeat's. -/
def roleRung (s : State) (layer role : Nat) : Nat :=
  match s.pkg.bind fun p => p.layers[layer]? with
  | some y => repeatRung s layer y (layerRepeats s layer) role
  | none => 0

/-- Passes of the product of a layer's weight with a role's operand (R134). -/
def productPasses (s : State) (layer role : Nat) : Nat := max (rungPasses (roleRung s layer 0)) (rungPasses (roleRung s layer role))

/-- A product of the weight needs its residual: the stationary one at three passes, the stream one from two on (R62, R75,
R134). -/
def needsResidual (s : State) (c : Conv) : Bool :=
  decide ((if c.fwdStream then 2 else 3) ≤ productPasses s c.layer 1) || decide ((if c.bwdStream then 2 else 3) ≤ productPasses s c.layer 2)

/-- The blocks of one entry of the plan, with the residual where the entry has a place for it and a product needs it. -/
def convEntry (s : State) (c : Conv) : List (Nat × List (Nat × List Byte) × (StatRec → StatRec)) :=
  let rung := convRung s c.layer
  match fmtOfCode (if rung = 0 then c.fmt else rungFmt rung) with
  | none => []
  | some f => (List.range (convBlocks c f)).map fun b =>
      (b, convBlock c ((fmtOfCode c.srcFmt).getD .bf16) f (c.res != 0 && (rung = 0 || needsResidual s c) && f != .tc4) s b)

/-- The writes that convert a weight, in order. -/
def convWrites (s : State) (cs : List Conv) : List (Nat × List Byte) := cs.flatMap fun c => (convEntry s c).flatMap fun x => x.2.1

/-- The W statistics of a conversion; a repeat leaves them as they are. -/
def convStats (s : State) (cs : List Conv) (t : State) : State :=
  cs.foldl (fun u c => if layerRepeats s c.layer then u
    else (convEntry s c).foldl (fun v x => collect (576 + x.1 % 16) c.tensor x.2.2 v) u) t

def writeAll (l : List (Nat × List Byte)) (s : State) : State := l.foldl (fun t x => memWrite x.1 x.2 t) s

/-- The rebuild period of a layer's codebooks, 0 for none (R180, R201). -/
def bookPeriod (s : State) (layer : Nat) : Nat := match s.pkg.bind fun p => p.layers[layer]? with | some y => y.cbPeriod | none => 0

/-- A codebook of the layer is due in step `n`. -/
def bookDue (s : State) (layer n : Nat) : Bool := bookPeriod s layer != 0 && n % bookPeriod s layer == 0

/-- Every codebook of the layer that is due in the running step has been rebuilt (R201). -/
def booksReady (s : State) (p : Plan) (layer : Nat) : Bool :=
  !bookDue s layer s.run.step ||
    p.books.all fun g => g.layer != layer || s.run.booksDone.contains (s.run.step, layer, g.group)

/-- WEIGHT_CONVERSION: ahead of the weight's first use in the step, after the rebuilds due, or inside a repeat. -/
def weightConversion (tensor : Nat) (s : State) : State :=
  match s.plan with
  | none => s
  | some p =>
    let cs := p.convs.filter fun c => c.tensor == tensor
    if s.run.phase != .compute || !(cs.all fun c => booksReady s p c.layer) then s
    else
      let t := convStats s cs (writeAll (convWrites s cs) s)
      { t with run := { t.run with converted := if t.run.converted.contains tensor then t.run.converted else t.run.converted ++ [tensor] } }

def execWeightConversion (tensor : Nat) (s : State) : Host.Outcome State Fault Refusal := .next (weightConversion tensor s)

/-! ### Codebooks (R201) -/

def bf16Of (w : Word) : Nat := (encodeScalar fmtBF16 false (dec32 w)).1

/-- The smaller and the larger of two FP32 values. -/
def lesser32 (a b : Word) : Word := if lt32 b a then b else a
def greater32 (a b : Word) : Word := if lt32 a b then b else a

/-- One round: each weight joins its nearest entry, and each entry that has weights takes their mean. R52: the engine never
builds an infinite or NaN entry; where the sum leaves FP32 the entry stays (DESIGN CHOICE, log 113). -/
def bookRound (ws : List Word) (c : List Nat) : List Nat :=
  let vals := c.map (decFloat fmtBF16)
  let near := ws.map fun w => (w, nearestEntry vals (dec32 w))
  c.zipIdx.map fun x =>
    let mine := near.filter fun y => y.2 == x.2
    let mean := bf16Of (div32 (fp32Of42 (mine.foldl (fun a y => w42AddVal (dec42 a) (dec32 y.1)) 0)) (ofNat32 mine.length))
    if mine.isEmpty || !vFinite (decFloat fmtBF16 mean) then x.1 else mean

/-- Entry `j` of the first codebook between `lo` and `hi`. Where hi - lo leaves FP32, the entry is the rounded exact value, so
that no entry is infinite or NaN (R52; DESIGN CHOICE, log 113). -/
def firstEntry (lo hi : Word) (j : Nat) : Nat :=
  let x := fma32 (div32 (ofNat32 j) (ofNat32 15)) (sub32 hi lo) lo
  if vFinite (dec32 x) then bf16Of x
  else bf16Of (round32 (vAdd (vMul (dec32 (div32 (ofNat32 j) (ofNat32 15))) (vSub (dec32 hi) (dec32 lo))) (dec32 lo)))

/-- The codebook of a group's finite weights. -/
def buildBook (ws : List Word) : List Nat :=
  match ws with
  | [] => List.replicate 16 0
  | w :: t =>
    let lo := t.foldl lesser32 w
    let hi := t.foldl greater32 w
    let c0 := (List.range 16).map (firstEntry lo hi)
    bookRound ws (bookRound ws c0)

/-- The step whose codebooks a rebuild makes: during the distribution the next one. -/
def bookStep (s : State) : Nat := if s.run.phase == .distribution then s.run.step + 1 else s.run.step

/-- The stored weights of a group: from the current copy before the step's conversions; during the distribution from the copy
that the next step reads, which is the current one when the step is skipped (R199, R201). -/
def bookSource (s : State) (g : BookGroup) : Nat :=
  if s.run.phase == .distribution && !s.run.skipped then otherCopy s g.src else g.src

def groupWeights (s : State) (g : BookGroup) : List Word :=
  (((List.range (elemsOf g.dims)).filter fun i => axisRow g.dims g.baxis i / 128 == g.group).map fun i => loadScalar s ((fmtOfCode g.fmt).getD .bf16) (bookSource s g + 2 * i)).filter fun w => vFinite (dec32 w)

/-- CODEBOOK_REBUILD of a 128-column group that is due. -/
def codebookRebuild (layer group_ : Nat) (s : State) : State :=
  match s.plan.bind fun p => p.books.find? fun g => g.layer == layer && g.group == group_ with
  | none => s
  | some g =>
    if !bookDue s layer (bookStep s) || !(s.run.phase == .compute || s.run.phase == .distribution) then s
    else
      let bytes := (buildBook (groupWeights s g)).flatMap (leBytes 2)
      let t := if s.run.phase == .distribution then stageBook g.book bytes s else memWrite g.book bytes s
      { t with run := { t.run with booksDone := t.run.booksDone ++ [(bookStep s, layer, group_)] } }

def execCodebookRebuild (layer group : Nat) (s : State) : Host.Outcome State Fault Refusal := .next (codebookRebuild layer group s)

end Sys2Proof.Machine
end

