-- ==== Sys2Proof/Machine/Admit.lean ====
section
/-! DEFINITION. Admission of samples (R188 to R194): the pick by smooth weighted rotation, the checks of a sample, and next-fit
packing into the micro-batches of a step. Every device of a replica runs it on the same data; the reader alone touches the
host's rings and sends the data on. -/

namespace Sys2Proof.Machine

open Sys2Proof

/-! ### Where admission runs (R188, R193, R195) -/

/-- This device is the reader of its replica. -/
def isReader (s : State) : Bool := match posEntry s (myPos s) with
  | some e => !e.spare && e.stage == 0 && e.rank == 0
  | none => false

/-- Admission runs while a start is awaited and in the phases before the boundary exchange, for the running step and the
next one. -/
def admitting (s : State) : Bool :=
  let ph := s.run.phase
  let running := inRun s && (ph == .compute || ph == .reduction || ph == .update || ph == .distribution)
  (running && decide (s.adm.step ≤ s.run.step + 1)) || (s.dev == .starting && decide (s.adm.step ≤ s.run.step))

/-! ### The pick (R190, R192) -/

def boundSources (s : State) : List (Nat × Source) :=
  (List.range 16).filterMap fun i => (source s i).map fun x => (i, x)

/-- The credits after every bound source has gained its weight. -/
def gainCredit (l : List (Nat × Source)) : List (Nat × Int) := l.map fun x => (x.1, x.2.credit + x.2.weight)

/-- The source with the largest credit, the lowest number on a tie. -/
def pickSource (l : List (Nat × Int)) : Option Nat := (bestOf (fun a b => decide (b.2 < a.2)) l).map (·.1)

/-- The sources after a pick of source `p`. -/
def afterPick (p : Nat) (s : State) : State :=
  let l := boundSources s
  let total := l.foldl (fun (m : Int) x => m + x.2.weight) 0
  let s := forEach l (fun x t => modSource x.1 (fun y => { y with credit := y.credit + y.weight }) t) s
  modSource p (fun y => { y with credit := y.credit - total, next := y.next + 1 }) s

def freeSlot (s : State) : Option Nat := (List.range 4096).find? fun i => (slot s i).state == 0

/-- The reader asks the host for a sample's descriptor: entry i mod 2^LOG2_ENTRIES of the source's ring (R189). -/
def askSample (p n : Nat) (s : State) : State :=
  match source s p with
  | some x => if isReader s then emit (.hostRead (x.ring + 32 * (n % 2 ^ x.log2)) 32) s else s
  | none => s

/-- ADMISSION_PICK: the chosen source's next sample takes the lowest free slot; at an underrun of the host's ring the reader
waits. -/
def admissionPick (produced : Nat) (s : State) : State :=
  if !admitting s || s.adm.pick.isSome then s
  else match pickSource (gainCredit (boundSources s)), freeSlot s with
    | some p, some k =>
      let n := match source s p with | some x => x.next | none => 0
      if isReader s && decide (produced ≤ n) then
        (if s.adm.waitingHost then s
        else bump (cntDev 29) 1 { s with adm := { s.adm with waitingHost := true } })
      else
        let s := afterPick p { s with adm := { s.adm with waitingHost := false, pick := some (p, n, k) } }
        askSample p n (modSlot k (fun r => { slotD 0 with source := p, state := 1, sample := n, use := r.use }) s)
    | _, _ => s

def execAdmissionPick (produced : DWord) (s : State) : Host.Outcome State Fault Refusal := .next (admissionPick produced.toNat s)

/-! ### The checks of a sample (R189, R191) -/

/-- The smallest row count of the EMBED tables; none without an EMBED layer. -/
def embedRows (pk : Pkg) : Option Nat :=
  let l := (pk.layers.filter fun y => y.op == 6).filterMap fun y => (pk.tensors[y.wgt]?).map fun t => t.dims.getD (t.rank - 1) 1
  match l with
  | [] => none
  | x :: t => some (t.foldl min x)

/-- The code of DATA_REFUSED, 0 for a sample that is admitted. -/
def sampleCode (pk : Pkg) (seqMax len : Nat) (toks : List Int) : Nat :=
  if seqMax < len then 1
  else if len < 2 then 2
  else if toks.any fun t => decide (t < 0) || (match embedRows pk with | some n => decide ((n : Int) ≤ t) | none => false) then 3
  else 0

def tokensOf (len : Nat) (b : List Byte) : List Int := (List.range len).map fun i => sInt 32 (leAt b (4 * i) 4)

/-- The reader writes ADMITTED and RELEASED for a source (R189). -/
def writeCounts (p : Nat) (s : State) : State :=
  match source s p with
  | some x => if isReader s && x.cons != 0 && hostRange s x.cons 16 then emit (.hostWrite x.cons (b8 x.admitted ++ b8 x.released)) s else s
  | none => s

/-- The pick is done with: its index counts as admitted. -/
def pickDone (p : Nat) (s : State) : State :=
  writeCounts p (modSource p (fun y => { y with admitted := y.admitted + 1 }) { s with adm := { s.adm with pick := none } })

/-- A refused sample leaves its slot free; the reader counts and logs it. -/
def refuseSample (p n k code : Nat) (id : Nat) (s : State) : State :=
  let s := modSlot k (fun r => { slotD 0 with use := r.use }) s
  let s := if isReader s then
      logEv 0x0904 (b4 p ++ b8 n ++ b8 id ++ b4 code)
        (bump (cntDev 25) 1 { s with adm := { s.adm with refused := s.adm.refused + 1 } })
    else s
  pickDone p s

/-! ### Packing (R193) and the token tensors (R183) -/

/-- Kind-5 tensors that admission fills: token inputs of EMBED layers (false), target inputs of XENT layers (true). -/
def tokenTensors (pk : Pkg) : List (Nat × Bool) :=
  let k5 := fun i => match pk.tensors[i]? with | some t => t.kind == 5 | none => false
  ((pk.layers.filter fun y => y.op == 6 && k5 y.in0).map fun y => (y.in0, false)) ++
    ((pk.layers.filter fun y => y.op == 9 && k5 y.in1).map fun y => (y.in1, true))

def tokenAddr (s : State) (t mb step : Nat) : Nat := match s.plan with
  | some p =>
    let n := match s.pkg with | some k => 4 * k.mbTokens | none => 0
    match p.tokens.find? fun x => x.1 == t with
    | some x => x.2 + (step % 2 * p.mbPerStep + mb) * n
    | none => 0
  | none => 0

/-- A step's packing opens: every micro-batch of it holds padding rows alone, token 0 and target -1. -/
def padWrites (pk : Pkg) (n : Nat) (s : State) : List (Nat × List Byte) :=
  (List.range (match s.plan with | some p => p.mbPerStep | none => 0)).flatMap fun mb => (tokenTensors pk).map fun x =>
    (tokenAddr s x.1 mb n, List.replicate (4 * pk.mbTokens) (if x.2 then 0xFF else 0))

/-- A segment's tokens, and its targets: the next token, and -1 for the last. -/
def segmentWrites (pk : Pkg) (g : Segment) (toks : List Int) (s : State) : List (Nat × List Byte) :=
  (tokenTensors pk).map fun x =>
    (tokenAddr s x.1 g.mb g.step + 4 * g.first, (if x.2 then toks.drop 1 ++ [-1] else toks).flatMap fun v => leBytes 4 (toTwos 32 v))

/-- Where a sequence of `len` tokens goes: the packing state with the sequence placed in (step, mb, first). -/
def place (mbTokens mbPer len : Nat) (a : AdmSt) : AdmSt × (Nat × Nat × Nat) :=
  if a.fill + len ≤ mbTokens then ({ a with fill := a.fill + len, count := a.count + 1 }, (a.step, a.mb, a.fill))
  else if a.mb + 1 < mbPer then ({ a with mb := a.mb + 1, fill := len, count := a.count + 1 }, (a.step, a.mb + 1, 0))
  else ({ a with step := a.step + 1, mb := 0, fill := len, count := 1 }, (a.step + 1, 0, 0))

/-- The packing closes at once when the step holds SEQ_PER_STEP sequences. -/
def closePacking (seqPer : Nat) (a : AdmSt) : AdmSt :=
  if seqPer ≤ a.count then { a with step := a.step + 1, mb := 0, fill := 0, count := 0 } else a

/-- The multicast legs that carry admitted samples to the reader's replica (R188, R286). -/
def admissionLegs (s : State) : List FlowCtx := match s.plan with
  | some p => p.flows.filter fun f => f.sending && f.cls == 2 && f.tensor == noTensor
  | none => []

/-- The reader sends a sample's tokens, its slot record and its segment entry. -/
def sendSample (k : Nat) (g : Segment) (tokens : List Byte) (s : State) : State :=
  if !isReader s then s
  else
    let bytes := tokens ++ slotBytes (slot s k) ++ b4 g.slot ++ b4 g.first ++ b4 g.length ++ b4 g.mb
    forEach (admissionLegs s) (fun f t => sendReduce f.id 0 ((chunks 1024 (bytes.length / 1024 + 1) bytes).zipIdx.map fun x =>
      (256 * x.2, x.1)) t) s

/-- The segment of a sample of `len` tokens in slot `k`. -/
def newSegment (pk : Pkg) (pl : Plan) (k len : Nat) (s : State) : Segment :=
  let r := (place pk.mbTokens pl.mbPerStep len s.adm).2
  { step := r.1, mb := r.2.1, slot := k, first := r.2.2, length := len }

/-- The packing state with the segment in it. -/
def packed (pk : Pkg) (pl : Plan) (k len id : Nat) (s : State) : AdmSt :=
  let a := (place pk.mbTokens pl.mbPerStep len s.adm).1
  closePacking pl.seqPerStep { a with segments := a.segments ++ [newSegment pk pl k len s], ids := sset natD a.ids k id }

/-- The token rows that an admitted sample writes: padding first where it opens a step. -/
def admitWrites (pk : Pkg) (pl : Plan) (k len : Nat) (toks : List Int) (s : State) : List (Nat × List Byte) :=
  let g := newSegment pk pl k len s
  (if (place pk.mbTokens pl.mbPerStep len s.adm).1.count = 1 then padWrites pk g.step s else []) ++ segmentWrites pk g toks s

/-- An admitted sample joins a micro-batch. -/
def admitSample (pk : Pkg) (pl : Plan) (p k len id : Nat) (toks : List Int) (bytes : List Byte) (s : State) : State :=
  let g := newSegment pk pl k len s
  let s := { writeAll (admitWrites pk pl k len toks s) s with adm := packed pk pl k len id s }
  let s := modSlot k (fun x => { x with state := if g.step = s.run.step && inRun s then 3 else 2, mb := g.mb, step := g.step,
                                        length := len, fetched := len }) s
  sendSample k g bytes (pickDone p s)

/-- The reader asks the host for the tokens at the descriptor's ADDR, but those of a sample whose LENGTH refuses it (R189, R191). -/
def askTokens (desc : List Byte) (seqMax : Nat) (s : State) : State :=
  let n := leAt desc 8 4
  if isReader s && decide (2 ≤ n) && decide (n ≤ seqMax) then emit (.hostRead (leAt desc 0 8) (4 * n)) s else s

/-- SAMPLE_TOKENS_READ: the descriptor and the tokens of the picked sample have arrived. -/
def sampleTokens (desc tokens : List Byte) (s : State) : State :=
  if !admitting s then s
  else match s.adm.pick, s.pkg, s.plan with
  | some (p, n, k), some pk, some pl =>
    let len := leAt desc 8 4
    let id := leAt desc 0x10 8
    let bytes := padTo (4 * min len 65536) tokens
    let toks := tokensOf (min len 65536) bytes
    let seqMax := match source s p with | some x => x.seqMax | none => 0
    let s := askTokens desc seqMax s
    match sampleCode pk seqMax len toks with
    | 0 => admitSample pk pl p k len id toks bytes s
    | code => refuseSample p n k code id s
  | _, _, _ => s

def execSampleTokensRead (desc : List Byte) (tokens : List Byte) (s : State) : Host.Outcome State Fault Refusal :=
  .next (sampleTokens desc tokens s)

end Sys2Proof.Machine
end

