-- ==== Sys2Proof/Machine/Array.lean ====
section
/-! DEFINITION. The composable arrays: TILE, TBL, IDLE (R162), fills (R76, R77, R87), TILE groups, group sums and banks
(R66 to R68, R75, R79 to R85), the drain (R67), gaps, ballast and ramps (R90 to R93), skip mode (R94, R95). -/

namespace Sys2Proof.Machine

open Sys2Proof

/-! ### Issue of TILE, TBL, IDLE -/

def arrayThread (s : State) (c : Nat) : Nat := reg s (coreWindow c) % 32
/-- An ARRAY instruction of a thread other than the array thread. -/
def arrayCause (s : State) (c t : Nat) : Nat := causeIf (arrayThread s c != t) 5

/-- Operand rules of a TILE and of its group (R71, R74, R79, R87, R162). A format code outside R69 breaks them: cause 0x06, which
R71 names an invalid instruction of the operand rules, and not the reserved encoding of cause 0x02 (DESIGN CHOICE, log 114). -/
def tileRule (s : State) (c : Nat) (w : InstrWord) : Bool :=
  match statFmt (tSfmt w), streamFmt (tTfmt w) with
  | some f, some _ =>
    decide (tN w ≤ tileCols f) && !(f = .tc4 && tPasses w == 3) && !(f = .tc4 && decide (1535 < tSlot w)) &&
      !(f = .tc4 && tColm w % 64 != 0) &&
      (groupTiles s c (core s c).grpNo).all fun x =>
        x.1 != tArray w && tTfmt (BitVec.ofNat 128 x.2.w) == tTfmt w && tM (BitVec.ofNat 128 x.2.w) == tM w &&
          tPasses (BitVec.ofNat 128 x.2.w) == tPasses w && tFeeda (BitVec.ofNat 128 x.2.w) == tFeeda w
  | _, _ => false

def tileCause (c t : Nat) (w : InstrWord) (s : State) : Nat :=
  let feed := aReg s c t (tFeeda w)
  let out := aReg s c t (tOuta w)
  let sf := (statFmt (tSfmt w)).getD .bf16
  let n := planeLen sf + scaleLen sf
  leastCause [
    causeIf (!onlyBits w [(24, 100)] || tPasses w == 0 || (tPasses w != 3 && tRaddr w != 0) ||
      (sf != .tc4 && (tSlot w != 0 || tColm w != 0)) || (!tDrains w && tOuta w != 0)) 2,
    rangeCause s c t ([(tSaddr w, n, 64), (feed, 16, 16)] ++ (if tPasses w = 3 then [(tRaddr w, n, 64)] else []) ++
      (if tDrains w then [(out, 32, 32)] else [])),
    cntCause s c t w, arrayCause s c t, causeIf (!tileRule s c w) 6,
    (match streamFmt (tTfmt w) with | some f => feedCause s c t feed f | none => 0),
    if tDrains w then outCause s c t out (tM w) (tN w) else 0]

def pushArr (c a : Nat) (o : ArrOp) (s : State) : State := modArr c a (fun A => { A with queue := A.queue ++ [o] }) s
def arrFull (s : State) (c a : Nat) : Bool := decide (16 ≤ (queueOf s c a).length)

def idleAll (w : InstrWord) : Bool := bitN w.toNat 26
def idleCycles (w : InstrWord) : Nat := iF w 27 32
/-- The arrays of an IDLE. -/
def idleArrays (w : InstrWord) : List Nat := if idleAll w then [0, 1, 2, 3] else [tArray w]

def density (s : State) (c a : Nat) : Nat := reg s (arrReg c a 4) % 16
def rampStepLen (s : State) (c a : Nat) : Nat := bitsN (reg s (arrReg c a 4)) 8 7

/-- A planned gap begins with the DENSITY of that moment (R90, R91, R97): ballast through a gap below 2,600 cycles, a ramp down
from DENSITY at the start of a longer one. Outside an active run the array is idle (R93). -/
def beginGap (c a cycles : Nat) (s : State) : State :=
  let D := density s c a
  if !underSchedule s then s
  else if cycles < 2600 then
    bump (cntCore c (4 + a)) cycles
      (modArr c a (fun A => { A with gap := .planned, density := D, frac := D, ballast := true }) s)
  else modArr c a (fun A => { A with gap := .planned, density := D, frac := D, ramp := if D = 0 then 0 else -1 }) s

/-- An IDLE at the front of its array's queue begins its gap. -/
def advanceArr (c a : Nat) (s : State) : State :=
  match queueOf s c a with
  | .idle t w false :: rest =>
    beginGap c a (idleCycles (BitVec.ofNat 128 w)) (modArr c a (fun A => { A with queue := .idle t w true :: rest }) s)
  | _ => s

/-- An unplanned gap of an array begins (R92): a TILE stands at its front, so it is ready to stream, and the TILE's group has not
started. -/
def gapCheck (c a : Nat) (s : State) : State :=
  match queueOf s c a with
  | .tile t :: _ =>
    if t.started || !underSchedule s || (core s c).fence || (arr s c a).gap != .none then s
    else modArr c a (fun A => { A with gap := .unplanned, gapFrom := coreCycle s c, ballast := true, density := density s c a,
                                       frac := density s c a }) s
  | _ => s

/-- What follows when the front of an array's queue has changed. -/
def afterArr (c a : Nat) (s : State) : State := gapCheck c a (advanceArr c a s)

/-- TILE (R162): queue one fill and stream segment, with its stationary operand's exponent and real rows; GRP_END closes the
group. -/
def queueTile (c t pc : Nat) (w : InstrWord) (s : State) : State :=
  let sf := (statFmt (tSfmt w)).getD .bf16
  let f := (streamFmt (tTfmt w)).getD .bf16
  let op : TileOp := { thread := t, w := w.toNat, feed := aReg s c t (tFeeda w), out := aReg s c t (tOuta w),
                       filled := false, started := false, grp := (core s c).grpNo, bad := false, poison := false,
                       texp := operandTexp s c pc 0,
                       real := min (operandReal s c pc 0 sf (tK w)) (operandReal s c pc 1 f (tK w)), rows := [] }
  let s1 := afterArr c (tArray w) (asyncBegin c t (pushArr c (tArray w) (.tile op) s))
  if tEnd w then modCore c (fun C => { C with grpNo := C.grpNo + 1 }) s1 else s1

def execTile (c : CoreId) (t : ThreadId) (w : InstrWord) (s : State) : Host.Outcome State Fault Refusal :=
  .next (issue c.val t.val w 1 0 (tileCause c.val t.val w) (fun u => arrFull u c.val (tArray w))
    (queueTile c.val t.val (thread s c.val t.val).pc w) s)

def tblCount (w : InstrWord) : Nat := iF w 26 11
def tblSlot (w : InstrWord) : Nat := iF w 37 11
def tblSrc (w : InstrWord) : Nat := iF w 48 20

def tblCause (c t : Nat) (w : InstrWord) (s : State) : Nat :=
  leastCause [causeIf (!onlyBits w [(24, 44)] || tblCount w == 0 || decide (1536 < tblCount w)) 2,
    rangeCause s c t [(tblSrc w, 32 * tblCount w, 32)], cntCause s c t w, arrayCause s c t,
    causeIf (decide (1536 < tblSlot w + tblCount w) || groupOpen s c) 6]

def execTbl (c : CoreId) (t : ThreadId) (w : InstrWord) (s : State) : Host.Outcome State Fault Refusal :=
  .next (issue c.val t.val w 1 1 (tblCause c.val t.val w) (fun u => arrFull u c.val (tArray w))
    (fun u => asyncBegin c.val t.val (pushArr c.val (tArray w) (.tbl t.val w.toNat) u)) s)

def idleCause (c t : Nat) (w : InstrWord) (s : State) : Nat :=
  leastCause [causeIf (!onlyBits w [(24, 35)] || idleCycles w == 0) 2, cntCause s c t w, arrayCause s c t,
    causeIf (groupOpen s c) 6]

def execIdle (c : CoreId) (t : ThreadId) (w : InstrWord) (s : State) : Host.Outcome State Fault Refusal :=
  .next (issue c.val t.val w 1 2 (idleCause c.val t.val w) (fun u => (idleArrays w).any fun a => arrFull u c.val a)
    (fun u => (idleArrays w).foldl
      (fun v a => afterArr c.val a (pushArr c.val a (.idle t.val w.toNat false) v)) (asyncBegin c.val t.val u)) s)

/-! ### Fills (R76, R77, R86, R87) -/

/-- The physical rows or columns that serve the logical ones, in order: those that no fuse marks (R88). -/
def unmarked (n : Nat) (bad : List Nat) : List Nat := (List.range n).filter fun i => !bad.contains i
def rowMap (s : State) (c a : Nat) : List Nat := unmarked 132 (rowsOf s (physCore s c) a)
def colMap (s : State) (c a : Nat) : List Nat := unmarked 130 (colsOf s (physCore s c) a)

/-- The cells of one element, leading column first (R70): its significand in 4-bit digits and its exponent field in 5-bit shares,
padded with zero bits at the top; every cell holds the sign. -/
def elemCells (f : Fmt) (code : Nat) : List Cell :=
  let x := elemFields f code
  (List.range (fmtC f)).map fun i =>
    let j := fmtC f - 1 - i
    { sign := x.sign, digit := x.sig / 16 ^ j % 16, exp := x.exp / 32 ^ j % 32, zero := x.sig == 0 }

/-- The element code that a column group holds. -/
def groupCode (f : Fmt) (l : List Cell) : Nat :=
  let neg := match l with
    | x :: _ => x.sign
    | [] => false
  joinFields f neg (l.foldl (fun n x => n * 16 + x.digit) 0) (l.foldl (fun n x => n * 32 + x.exp) 0)

def cellD : Nat → Cell := fun _ => {}

/-- The format of the elements that a fill composes: a TC4 element is its BF16 codebook entry (R87). -/
def cellFmt (f : Fmt) : Fmt := if f = .tc4 then .bf16 else f

/-- The cells after element `code` of logical row `k`, stationary column `n` has been written. -/
def putElem (f : Fmt) (rows cols : List Nat) (k n code : Nat) (m : List (Nat × Cell)) : List (Nat × Cell) :=
  if code = 0 then m
  else (elemCells f code).zipIdx.foldl
    (fun m x => sset cellD m (rows.getD k 0 * 130 + cols.getD (n * fmtC f + x.2) 0) x.1) m

/-- The stationary set that a fill reads (R70, R76, R77, R87): element codes in row-major order of 128 rows; the blocks of an MX
tile run down the rows, four blocks a column, columns ascending. Padding rows hold Zero in every cell (R63). -/
def readStat (s : State) (c a : Nat) (w : InstrWord) (texp : Int) (real addr : Nat) : StatSet :=
  let f := (statFmt (tSfmt w)).getD .bf16
  let cols := tileCols f
  let raw := unpackCodes (fmtWidth f) (128 * cols) (scrBytes s c addr (planeLen f))
  let code := fun (x : Nat) => if f = .tc4 then
      leNat ((List.range 2).map fun i => sget byteD (arr s c a).table (tSlot w * 32 + 2 * x + i)) else x
  let place := fun (i : Nat) => if isMx f then (i % 128, i / 128) else (i / cols, i % cols)
  let pr := rowMap s c a
  let pc := colMap s c a
  { fmt := fmtCode (cellFmt f), real := real,
    cells := raw.zipIdx.foldl (fun m x =>
      if (place x.2).1 < real then putElem (cellFmt f) pr pc (place x.2).1 (place x.2).2 (code x.1) m else m) [],
    scales := (scrBytes s c (addr + planeLen f) (scaleLen f)).map (·.toNat), texp := texp,
    poisoned := anyPoison s (scratchAddr c addr) (planeLen f + scaleLen f) }

def setComp (c : Nat) (ts : List (Nat × TileOp)) (s : State) : State :=
  ts.foldl (fun st x =>
    let k := tileComp (BitVec.ofNat 128 x.2.w)
    modArr c x.1 (fun A => { A with width := k.1 }) (modCore c (fun C => { C with digits := k.2 }) st)) s

/-- Change the first TILE of a queue that satisfies `p`. -/
def modTile (p : TileOp → Bool) (f : TileOp → TileOp) : List ArrOp → List ArrOp
  | [] => []
  | .tile t :: rest => if p t then .tile (f t) :: rest else .tile t :: modTile p f rest
  | o :: rest => o :: modTile p f rest

/-- FILL (R76, R78): the fill unit loads the first array, in ascending order, whose next TILE is ready for it into that array's
shadow set. -/
def fill (c a : Nat) (s : State) : State :=
  match fillReady s c a with
  | none => s
  | some t =>
    if (List.range a).any fun b => (fillReady s c b).isSome then s
    else
      let w := BitVec.ofNat 128 t.w
      let st := readStat s c a w t.texp t.real (tSaddr w)
      let s1 := if st.poisoned then corePoison c 5 (scratchAddr c (tSaddr w)) s else s
      modArr c a (fun A =>
        { A with shadow := st, full := true,
                 queue := modTile (fun x => !x.filled) (fun x => { x with filled := true }) A.queue })
        (setComp c (groupTiles s c t.grp) s1)

def execFill (c : CoreId) (a : ArrayId) (s : State) : Host.Outcome State Fault Refusal := .next (fill c.val a.val s)

/-! ### Streaming (R66, R75, R80, R81, R94 to R96, R100 to R103) -/

/-- The value of a stationary element by its logical row and column (R45, R64, R88). -/
def statElem (pr pc : List Nat) (st : StatSet) (k n : Nat) : Val :=
  match fmtOfCode st.fmt with
  | some f =>
    let code := groupCode f ((List.range (fmtC f)).map fun i =>
      sget cellD st.cells (pr.getD k 0 * 130 + pc.getD (n * fmtC f + i) 0))
    if isMx f then mxVal f (st.scales.getD (n * 4 + k / 32) 0) code else plainVal f st.texp code
  | none => .nan

/-- The code of element `k` of vector `m'` in the feed ring (R80). -/
def feedCode (s : State) (c : Nat) (f : Fmt) (d : FeedDesc) (m k : Nat) : Nat :=
  let w := fmtWidth f
  let word := m + k / fmtD f
  bitsN (leNat (scrBytes s c (d.ring + word % d.words * (16 * w)) (16 * w))) (k * w) w

/-- The value of element `k` of vector `m'` of the stream. -/
def feedElem (s : State) (c : Nat) (f : Fmt) (d : FeedDesc) (m k : Nat) : Val :=
  let code := feedCode s c f d m k
  if isMx f then mxVal f (memByte s (scratchAddr c (d.sring + m % d.words * 4 + k / 32))).toNat code
  else plainVal f d.texp code

/-- The streamed vectors of a pass: m' of vector `m` (R75, R80). -/
def passVector (m0 M pass m : Nat) : Nat := m0 + pass * M + m

/-- The group sum of bank element (m, n) in K-group `g` of a pass: padding rows are no products (R103). -/
def tileSum (real : Nat) (stat : Nat → Nat → Val) (stream : Nat → Nat → Val) (window : Bool) (v n g : Nat) : GroupSum :=
  groupSum window (((List.range 32).filter fun i => decide (32 * g + i < real)).map fun i =>
    vMul (stat (32 * g + i) n) (stream v (32 * g + i)))

/-- The running accumulator of one output through every pass and K-group of a TILE (R66, R68, R75). -/
def tileAcc (real : Nat) (main res : Nat → Nat → Val) (stream : Nat → Nat → Val) (window : Bool) (m0 M passes groups : Nat)
    (m n acc : Nat) : Nat :=
  (List.range passes).foldl (fun (a : Nat) p =>
    (List.range groups).foldl (fun (b : Nat) g =>
      w42AddGroup b (tileSum real (if p = 2 then res else main) stream window (passVector m0 M p m) n g)) a) acc

/-- Non-zero 2-bit digits of a significand. -/
def digitsIn : Nat → Nat → Nat
  | 0, _ => 0
  | d + 1, n => (if n % 4 = 0 then 0 else 1) + digitsIn d (n / 4)

/-- Non-zero digits of a stream element (R95): of its significand or magnitude. -/
def elemDigits (f : Fmt) (code : Nat) : Nat := digitsIn (fmtD f) (elemFields f code).sig

/-- Stream cycles of a TILE in skip mode (R95). -/
def skipCycles (code : Nat → Nat → Nat) (f : Fmt) (m0 M passes groups : Nat) : Nat :=
  (List.range groups).foldl (fun best g =>
    max best ((List.range (passes * M)).foldl (fun acc v =>
      acc + max 1 ((List.range 32).foldl (fun x i => max x (elemDigits f (code (m0 + v) (32 * g + i)))) 0)) 0)) 0

/-- Fill bytes of a TILE over the array port, and its TC4 cycles (R83). -/
def fillBytes (w : InstrWord) : Nat := planeLen ((statFmt (tSfmt w)).getD .bf16)
def tc4Cycles (w : InstrWord) : Nat := if tSfmt w = 14 then 2 else 0
/-- V of R83: cycles to fill a group beside a feed of `f` bytes a cycle. -/
def fillTime (ts : List (Nat × TileOp)) (f : Nat) : Nat :=
  ceilDiv (ts.foldl (fun n x => n + fillBytes (BitVec.ofNat 128 x.2.w)) 0) (256 - f) +
    ts.foldl (fun n x => n + tc4Cycles (BitVec.ofNat 128 x.2.w)) 0

/-- A TILE of a started group runs: the sets swap, its sums go into the bank, and the rows of LAST and SINGLE are kept
for the drain. The residual of a third pass takes the shadow set and swaps in its turn (R75). -/
def runTile (c a m0 : Nat) (d : FeedDesc) (t : TileOp) (s : State) : State :=
  let w := BitVec.ofNat 128 t.w
  let A := arr s c a
  match statFmt (tSfmt w), streamFmt (tTfmt w) with
  | some sf, some f =>
    let main := A.shadow
    let res := if tPasses w = 3 then readStat s c a w t.texp t.real (tRaddr w) else main
    let pr := rowMap s c a
    let pc := colMap s c a
    let window := usesWindow sf f
    let M := tM w
    let groups := tK w / 32
    let stream := feedElem s c f d
    let skip := tSkip w && bitN (reg s (arrReg c a 0)) 0 && !underSchedule s
    let acc0 := fun m n => if tFresh w then 0 else sget natD A.bank (m * 128 + n)
    let rows := (List.range M).map fun m => (List.range (tN w)).map fun n =>
      tileAcc main.real (statElem pr pc main) (statElem pr pc res) stream window m0 M (tPasses w) groups m n (acc0 m n)
    let badHere := ((List.range main.real).any fun k =>
        ((List.range (tN w)).any fun n => !vFinite (statElem pr pc main k n) ||
          (tPasses w == 3 && !vFinite (statElem pr pc res k n))) ||
        (List.range (tPasses w * M)).any fun v => !vFinite (stream (m0 + v) k))
    let poisonHere := main.poisoned || res.poisoned ||
      anyPoison s (scratchAddr c d.ring) (d.words * 16 * fmtWidth f) ||
      (isMx f && anyPoison s (scratchAddr c d.sring) (d.words * 4))
    let bad := badHere || (!tFresh w && A.bad)
    let poison := poisonHere || (!tFresh w && A.poison)
    let cycles := if skip then skipCycles (feedCode s c f d) f m0 M (tPasses w) groups else tPasses w * M * fmtD f
    let bank := rows.zipIdx.foldl (fun (b : List (Nat × Nat)) r => ssetRun natD b (r.2 * 128) r.1) A.bank
    let s1 := if poisonHere && !main.poisoned then corePoison c 5 (scratchAddr c d.ring) s else s
    let s2 := if tSkip w && !skip then bump (cntCore c 41) 1 s1 else s1
    let s3 := bump (cntCore c a) cycles s2
    modArr c a (fun B => { B with
      live := res, shadow := if tPasses w = 3 then main else A.live, full := false, bank := bank, streaming := true,
      skip := skip, ballast := false, gap := .none, frac := 0, ramp := 0, bad := bad, poison := poison,
      queue := modTile (fun x => !x.started)
        (fun x => { x with started := true, bad := bad, poison := poison, rows := if tDrains w then rows else [] }) B.queue }) s3
  | _, _ => s

/-- The group that stands next on a core: the closed group with the least number that has not started. -/
def nextGroup (s : State) (c : Nat) : Option (Nat × List (Nat × TileOp)) :=
  let waiting := (List.range 4).flatMap fun a => (tilesOf (queueOf s c a)).filter fun t => !t.started
  match waiting.map (·.grp) with
  | [] => none
  | g :: rest =>
    let least := rest.foldl min g
    if least < (core s c).grpNo then some (least, groupTiles s c least) else none

/-- The front entry of an array's queue that has not started is a TILE of group `g`. -/
def frontIs (g : Nat) : List ArrOp → Bool
  | [] => false
  | .tile t :: rest => if t.started then frontIs g rest else t.grp == g
  | _ => false

def gapCycles (s : State) (c a : Nat) : Nat := coreCycle s c - (arr s c a).gapFrom

/-- An unplanned gap of an array ends as its group starts, or as a fence or another group takes its place: its cycles are counted
(R92, R93). -/
def endUnplanned (c a : Nat) (s : State) : State :=
  if (arr s c a).gap = .unplanned then
    let n := gapCycles s c a
    let s1 := bump (cntCore c (12 + a)) n s
    let s2 := if (arr s c a).ballast then bump (cntCore c (4 + a)) n s1 else s1
    let s3 := modArr c a (fun A => { A with gap := .none, ballast := false, ramp := 0, frac := 0 }) s2
    if n = 0 then s3 else traceRec c 0 9 2 n 0 s3
  else s

/-- An array with no TILE in the group that starts runs ballast for the group's `n` cycles (R79); a planned gap of its own goes
on. -/
def groupGap (c a n : Nat) (s : State) : State :=
  if (arr s c a).gap = .planned then s
  else
    let s := endUnplanned c a s
    bump (cntCore c (4 + a)) n
      (modArr c a (fun A => { A with gap := .group, ballast := true, density := density s c a, frac := density s c a }) s)

/-- A group's first fill term won (R83): the stall is counted for each array of the group that starts (DESIGN CHOICE, log 115). -/
def fillStall (c : Nat) (ts : List (Nat × TileOp)) (n : Nat) (s : State) : State :=
  if n = 0 then s
  else traceRec c 0 9 1 n 0 (ts.foldl (fun st x => bump (cntCore c (8 + x.1)) n st) s)

/-- The group starts on its feed segment. -/
def startGroup (c : Nat) (ts : List (Nat × TileOp)) (s : State) : State :=
  match ts with
  | [] => s
  | x :: _ =>
    let w := BitVec.ofNat 128 x.2.w
    let d := readFeed s c x.2.feed
    let f := (streamFmt (tTfmt w)).getD .bf16
    let m0 := if d.runStart then 0 else (core s c).mPrime
    let S := tM w * fmtD f
    let vres := if tPasses w = 3 then fillTime ts (feedTotal f) else 0
    let first := if d.runStart || (core s c).prevStream = 0 then 0 else fillTime ts (core s c).prevFeed - (core s c).prevStream
    let mask := ts.foldl (fun n y => n + 2 ^ y.1) 0
    let s := fillStall c ts (first + (vres - 2 * S)) s
    let s := ts.foldl (fun st y => endUnplanned c y.1 st) s
    let s := ts.foldl (fun st y => runTile c y.1 m0 d y.2 st) s
    let s := modCore c (fun C => { C with mPrime := m0 + tPasses w * tM w, prevFeed := feedTotal f,
                                          prevStream := if tPasses w = 3 then S else tPasses w * S }) s
    let s := if !underSchedule s then s
      else ((List.range 4).filter fun a => !ts.any fun y => y.1 == a).foldl (fun st a => groupGap c a (tPasses w * S) st) s
    traceRec c 0 1 mask (tTfmt w + tPasses w * 16 + tM w * 64) 0 s

/-- An array of the group that ran down in an unplanned gap ramps up from its present fraction (R92). -/
def rampUp (A : ArrSt) : ArrSt :=
  if A.gap = .unplanned && !A.ballast then { A with ramp := if A.frac < A.density then 1 else 0 } else A

/-- TILE_GROUP_START (R79): the next group starts once it is closed, filled and no other work stands before it; a change of
composition first brings a fence (R84), which is no gap (R90), and an array that has ramped down in an unplanned gap first ramps
up (R92). -/
def groupStart (c : Nat) (s : State) : State :=
  match nextGroup s c with
  | none => s
  | some (g, ts) =>
    if (core s c).fence || gated s c 4 || ts.any fun x => gated s c x.1 then s
    else if !compMatches s c ts then
      if (List.range 4).any fun a => (arr s c a).streaming then s
      else
        let s := (List.range 4).foldl (fun st a => endUnplanned c a st) s
        traceRec c 0 2 0 268 0 (bump (cntCore c 20) 1 (modCore c (fun C => { C with fence := true, prevStream := 0 }) s))
    else if !ts.all (fun x => x.2.filled && frontIs g (queueOf s c x.1)) then s
    else
      let s := ts.foldl (fun st x => modArr c x.1 rampUp st) s
      if ts.any fun x => (arr s c x.1).ramp != 0 then s else startGroup c ts s

def execTileGroupStart (c : CoreId) (s : State) : Host.Outcome State Fault Refusal := .next (groupStart c.val s)

/-- FENCE_END (R84): the pipelines have drained; the cells take the next group's composition. An array whose TILE still waits for
its fill is then in a gap. -/
def fenceEnd (c : Nat) (s : State) : State :=
  if (core s c).fence then
    let s := modCore c (fun C => { C with fence := false }) s
    let s := match nextGroup s c with
      | some (_, ts) => setComp c ts s
      | none => s
    (List.range 4).foldl (fun st a => gapCheck c a st) s
  else s

def execFenceEnd (c : CoreId) (s : State) : Host.Outcome State Fault Refusal := .next (fenceEnd c.val s)

/-! ### Completion -/

/-- The product bucket of a TILE (R384). -/
def productBucket (w : InstrWord) : Nat :=
  let sf := (statFmt (tSfmt w)).getD .bf16
  let tc := match fmtD ((streamFmt (tTfmt w)).getD .bf16) with
    | 1 => 0
    | 2 => 1
    | 4 => 2
    | _ => 3
  let sc := match sf with
    | .mxe2m1 | .int4 => 0
    | .bf16 | .int8 | .mxint8 => 2
    | .fp16 => 3
    | _ => 1
  if sf = .tc4 then 48 + 4 * (tPasses w - 1) + tc else 16 * (tPasses w - 1) + 4 * sc + tc

/-- Once no array of the core streams, the arrays that had no TILE in the group end its ballast. -/
def endGroup (c : Nat) (s : State) : State :=
  if (List.range 4).any fun a => (arr s c a).streaming then s
  else (List.range 4).foldl (fun st a =>
    if (arr st c a).gap = .group then
      gapCheck c a (modArr c a (fun A => { A with gap := .none, ballast := false, frac := 0 }) st)
    else st) s

/-- TILE_COMPLETE (R169): the oldest started TILE of an array has its sums in the bank; the rows of LAST and SINGLE are
converted and written. -/
def tileComplete (c a : Nat) (s : State) : State :=
  match queueOf s c a with
  | .tile t :: rest =>
    if !t.started then s
    else
      let w := BitVec.ofNat 128 t.w
      let s := if tDrains w then
          convertOut c a (readOut s c t.out) (t.rows.map fun r => r.map dec42) t.bad t.poison s
        else s
      let more := match rest with
        | .tile u :: _ => u.started
        | _ => false
      let s := modArr c a (fun A => { A with queue := rest, streaming := more, skip := more && A.skip }) s
      let s := bump (cntCore c (48 + productBucket w)) (tK w * tN w * tM w * tPasses w) s
      endGroup c (afterArr c a (asyncDone c t.thread (iCntEn w) (iCnt w) s))
  | _ => s

def execTileComplete (c : CoreId) (a : ArrayId) (s : State) : Host.Outcome State Fault Refusal :=
  .next (tileComplete c.val a.val s)

def dropTbl : List ArrOp → List ArrOp
  | [] => []
  | .tbl _ _ :: rest => rest
  | o :: rest => o :: dropTbl rest

/-- TBL_COMPLETE (R86): COUNT codebooks go from scratch into the slots of one array's table memory. -/
def tblComplete (c a : Nat) (s : State) : State :=
  match nextTbl (queueOf s c a) with
  | none => s
  | some (t, x) =>
    let w := BitVec.ofNat 128 x
    let bytes := scrBytes s c (tblSrc w) (32 * tblCount w)
    let poison := anyPoison s (scratchAddr c (tblSrc w)) (32 * tblCount w)
    let s := if poison then corePoison c 5 (scratchAddr c (tblSrc w)) s else s
    let s := modArr c a (fun A =>
      { A with queue := dropTbl A.queue, table := ssetRun byteD A.table (32 * tblSlot w) bytes }) s
    afterArr c a (asyncDone c t (iCntEn w) (iCnt w) s)

def execTblComplete (c : CoreId) (a : ArrayId) (s : State) : Host.Outcome State Fault Refusal :=
  .next (tblComplete c.val a.val s)

/-- IDLEs over all four arrays that stand in a queue: each stands in every queue in the same order. -/
def idlesIn (l : List ArrOp) : Nat := (l.filter fun o => match o with
  | .idle _ y _ => idleAll (BitVec.ofNat 128 y)
  | _ => false).length

/-- IDLE_END (R90): the planned gap ends; an IDLE over all four arrays completes with its last array. -/
def idleEnd (c a : Nat) (s : State) : State :=
  match queueOf s c a with
  | .idle t x true :: rest =>
    let w := BitVec.ofNat 128 x
    let s := modArr c a (fun A => { A with queue := rest, gap := .none, ballast := false, ramp := 0, frac := 0 }) s
    let others := idleAll w && (List.range 4).any fun b => decide (idlesIn rest < idlesIn (queueOf s c b))
    afterArr c a (if others then s else asyncDone c t (iCntEn w) (iCnt w) s)
  | _ => s

def execIdleEnd (c : CoreId) (a : ArrayId) (s : State) : Host.Outcome State Fault Refusal := .next (idleEnd c.val a.val s)

/-- RAMP_STEP (R91): the toggle fraction moves by one sixteenth between zero and the gap's DENSITY. In a long planned gap an idle
array begins its ramp up. -/
def rampStep (c a : Nat) (s : State) : State :=
  let A := arr s c a
  let count := bump (cntCore c (4 + a)) (rampStepLen s c a)
  if A.ramp = -1 then
    count (modArr c a (fun B => { B with frac := B.frac - 1, ramp := if B.frac ≤ 1 then 0 else -1 }) s)
  else if A.ramp = 1 || (A.gap = .planned && !A.ballast && decide (A.frac < A.density)) then
    count (modArr c a (fun B => { B with frac := B.frac + 1, ramp := if B.density ≤ B.frac + 1 then 0 else 1 }) s)
  else s

def execRampStep (c : CoreId) (a : ArrayId) (s : State) : Host.Outcome State Fault Refusal := .next (rampStep c.val a.val s)

/-- UNPLANNED_GAP_TIMEOUT (R92): after 2,600 cycles of ballast the array ramps down. -/
def gapTimeout (c a : Nat) (s : State) : State :=
  if (arr s c a).gap = .unplanned && (arr s c a).ballast then
    bump (cntCore c (4 + a)) 2600 (modArr c a (fun A =>
      { A with ballast := false, ramp := if A.frac = 0 then 0 else -1 }) s)
  else s

def execUnplannedGapTimeout (c : CoreId) (a : ArrayId) (s : State) : Host.Outcome State Fault Refusal :=
  .next (gapTimeout c.val a.val s)

end Sys2Proof.Machine
end

