-- ==== Sys2Proof/Machine/Cox.lean ====
section
/-! DEFINITION. The cox at a step boundary (R122 to R152): the global records of the step, norms and norm jumps, the
policy, storms, recovery from lost history, and the history of the last 16 steps. -/

namespace Sys2Proof.Machine

open Sys2Proof

/-! ### Layer events (R124, R143) -/

/-- Any record of a layer carries a flag. -/
def layerHas (recs : List StatRec) (bit layer : Nat) : Bool := recs.any fun r => r.layer == layer && bitN r.flags bit

/-! ### Norms and norm jumps (R129, R130) -/

/-- The norm of a reduced sum of squares. -/
def normOf (sum : Nat) : Word := sqrt32 (fp32Of42 sum)

/-- Reduced gradient sum of a layer; none where no device owns weights of it. -/
def gradSum (s : State) (layer : Nat) : Option Nat := (normSums s layer).map (·.2.1)

/-- The weight, gradient and update norm of each layer that has weights. -/
def layerNormsOf (s : State) (pk : Pkg) : List (Nat × Nat × Nat × Nat) :=
  (List.range pk.layers.length).filterMap fun y => (normSums s y).map fun x =>
    (y, (normOf x.1).toNat, (normOf x.2.1).toNat, (normOf x.2.2).toNat)

/-- SUMSQ of the global record of a layer's output tensor. -/
def outSum (recs : List StatRec) (y : LayerDesc) : Option Nat := (recs.find? fun r => r.tensor == y.out).map (·.sumsq)

/-- x lies above m * 2^J or below m / 2^J, exactly. -/
def outOfBand (j : Nat) (x m : Word) : Bool :=
  vLt (vScale j (dec32 m)) (dec32 x) || vLt (dec32 x) (vScale (-(j : Int)) (dec32 m))

/-- One norm at a boundary: its jump, and the average and fill count after it. -/
def normStep (j : Nat) (x : Word) (st : Nat × Nat) : Bool × (Nat × Nat) :=
  let m := BitVec.ofNat 32 st.1
  let jump := decide (16 ≤ st.2) && lt32 0 m && outOfBand j x m
  let m1 := if st.2 = 0 then x else round32 (vAdd (dec32 m) (vScale (-4) (vSub (dec32 x) (dec32 m))))
  (jump, (m1.toNat, min (st.2 + 1) 16))

def normD : Nat → Nat × Nat := fun _ => (0, 0)

/-- Test and average one norm of a layer: `k` 0 output, 1 gradient. -/
def normLayer (layer k : Nat) (sum : Option Nat) (s : State) : Bool × State :=
  match sum with
  | none => (false, s)
  | some v =>
    let x := normOf v
    if s.run.skipped || !vFinite (dec32 x) then (false, s)
    else
      let r := normStep (bitsN (cap s 0x6018) 8 2) x (sget normD s.cox.norm (2 * layer + k))
      (r.1, { s with cox := { s.cox with norm := sset normD s.cox.norm (2 * layer + k) r.2 } })

/-- The layers whose norms jump, with the averages advanced. -/
def normJumps (recs : List StatRec) (ys : List (LayerDesc × Nat)) (s : State) : List Nat × State :=
  ys.foldl (fun acc x =>
    let a := normLayer x.2 0 (outSum recs x.1) acc.2
    let b := normLayer x.2 1 (gradSum s x.2) a.2
    (if a.1 || b.1 then acc.1 ++ [x.2] else acc.1, b.2)) ([], s)

/-! ### Shares (R128) and agreement (R149) -/

def exceeds (num t den : Nat) : Bool := decide (t * den < num * 2 ^ 32)
def belowShare (num t den : Nat) : Bool := decide (num * 2 ^ 32 < t * den)
def nonzeroCount (r : StatRec) : Nat := r.elements - r.zeros
def vanCount (r : StatRec) : Nat := r.vanished + r.vBlockElems

/-- sqrt(DIFF / REF) in FP32. -/
def agreeErr (r : StatRec) : Word :=
  let d := fp32Of42 r.agreeDiff
  let f := fp32Of42 r.agreeRef
  if vIsZero (dec32 f) then (if vIsZero (dec32 d) then 0 else 0x7F800000#32) else sqrt32 (div32 d f)

/-- The raise that a pair's record asks for: 1 share, 2 agreement, 0 none. -/
def raiseCause (s : State) (r : StatRec) : Nat :=
  let d := nonzeroCount r
  if exceeds r.saturated (cap s 0x6004) d || exceeds (vanCount r) (cap s 0x6008) d then 1
  else if bitsN (cap s 0x6000) 0 2 = 1 && r.agreeTiles != 0 && lt32 (BitVec.ofNat 32 (cap s 0x6014)) (agreeErr r) then 2
  else 0

def quietRec (s : State) (r : StatRec) : Bool :=
  let d := nonzeroCount r
  belowShare r.saturated (cap s 0x600C) d && belowShare (vanCount r) (cap s 0x6010) d && r.nonfinite == 0

/-! ### Storms (R146) -/

/-- Layers with at least one role that is unpinned and has two or more used rungs. -/
def steerableLayers (s : State) (pk : Pkg) : Nat :=
  ((pk.layers.zipIdx).filter fun (y, i) => layerSteered s i y).length

/-- Count storm steps; a storm takes place when the count reaches STORM_RUN. -/
def stormTest (ovr : Nat) (pk : Pkg) (s : State) : Bool × State :=
  let n := if steerableLayers s pk < 2 * ovr then s.cox.stormCount + 1 else 0
  let v := cap s 0x6018
  if bitN v 24 && decide (bitsN v 12 4 ≤ n) then
    (true, attn 1 (logEv 0x0104 (b4 ovr) (bump (cntDev 9) 1 { s with cox := { s.cox with stormCount := 0 } })))
  else (false, { s with cox := { s.cox with stormCount := min n 255 } })

/-! ### The policy (R138 to R140) -/

/-- The events of a layer at the boundary. -/
structure LayerEv where
  ovr : Bool
  flagged : Bool
  jump : Bool
  storm : Bool
  deriving DecidableEq, Repr

/-- A decision: the new rung, the cause of R453 (0 for none), and the quiet count. -/
structure CoxDec where
  rung : Nat
  cause : Nat
  quiet : Nat
  deriving DecidableEq, Repr

def clampRung (lo hi n : Nat) : Nat := if n < lo then lo else if hi < n then hi else n

/-- The ordinary decision before the storm and the clamp: rung and cause. -/
def ordinary (s : State) (ev : LayerEv) (cur q rc : Nat) : Nat × Nat :=
  let v := cap s 0x6018
  if ev.flagged then (cur + 2, 4)
  else if rc != 0 then (cur + 1, rc)
  else if ev.jump then (cur + 1, 3)
  else if s.cox.recovery = 1 && decide (16 ≤ q) then (cur - 1, 6)
  else if bitN v 25 && s.cox.hold = 0 && s.cox.recovery = 0 && decide (bitsN v 0 8 ≤ q) then (cur - 1, 7)
  else (cur, 0)

/-- The decision of R138 for a pair that has one. `lo` and `hi` are its bounds. -/
def decideRung (s : State) (ev : LayerEv) (r : StatRec) (cur q lo hi : Nat) : CoxDec :=
  let rc := raiseCause s r
  let q1 := if quietRec s r && !ev.jump && !ev.ovr && !s.run.skipped then q + 1 else 0
  let o := ordinary s ev cur q1 rc
  let o := if ev.storm && decide (o.1 < cur + 1) then (cur + 1, 5) else o
  { rung := clampRung lo hi o.1, cause := if o.2 = 0 && clampRung lo hi o.1 != cur then 8 else o.2, quiet := q1 }

/-- COX_CHANGE of a pair; a changed rung (outcome 1) is counted (R140, R381). -/
def logChange (layer role old new cause outcome : Nat) (s : State) : State :=
  logEv 0x0101 (b4 s.run.step ++ b4 layer ++ b4 role ++ b4 old ++ b4 new ++ b4 cause ++ b4 outcome)
    (if outcome = 1 then bump (cntDev 10) 1 s else s)

/-- The rung lies in the plan's admissible set. -/
def admissible (s : State) (key n : Nat) : Bool :=
  match s.plan.bind fun p => p.admissible.find? fun a => a.1 == key with
  | some a => bitN a.2 (n - 1)
  | none => false

def planDue (s : State) : State := { s with run := { s.run with planDue := true } }

/-- Apply a decision to a pair. -/
def takeDecision (layer role cur : Nat) (d : CoxDec) (s : State) : State :=
  let s := setQuiet layer role (if d.rung = cur then d.quiet else 0) s
  let s := if d.rung ≠ cur then attn 1 (logChange layer role cur d.rung d.cause 1 (setRung layer role d.rung s))
    else if d.cause ≠ 0 ∧ d.cause ≤ 5 then logChange layer role cur cur d.cause 2 s
    else s
  if admissible s (pairKey layer role) d.rung then s else planDue s

/-- One steering pair at the boundary. `fresh`: pairs released at this very boundary, which keep their rung. -/
def coxPair (recs : List StatRec) (fresh : List Nat) (ev : LayerEv) (layer role : Nat) (y : LayerDesc) (s : State) : State :=
  let k := pairKey layer role
  let l := layerLadder y role
  let cur := rungOf s layer role
  if (usedRungs l).length < 2 || pinOf s layer role != 0 || fresh.contains k then s
  else
    let r := (recs.find? fun x => x.layer == layer && x.role == role).getD (blankRec noTensor layer role cur s.run.step 0)
    let hi := if s.cox.withdrawn.contains k then min cur l.ceil else l.ceil
    let s := { s with cox := { s.cox with released := s.cox.released.filter (· != k) } }
    if nonzeroCount r = 0 && !ev.flagged && !ev.jump && !ev.storm && decide (l.floor ≤ cur) && decide (cur ≤ hi) then s
    else takeDecision layer role cur (decideRung s ev r cur (quietOf s layer role) l.floor hi) s

/-- The storm hold and the recovery count at the end of action 2. -/
def endCox (storm : Bool) (s : State) : State :=
  let h := if storm then bitsN (cap s 0x6018) 16 8 else s.cox.hold - 1
  let ended := s.cox.recovery == 1
  let s := { s with cox := { s.cox with hold := h, recovery := s.cox.recovery - 1 } }
  if ended then attn 1 (logEv 0x0105 (b4 0) s) else s

/-- R32 action 2 after a commit. -/
def coxBoundary (recs : List StatRec) (fresh : List Nat) (s : State) : State :=
  match s.pkg with
  | none => s
  | some pk =>
    let ys := pk.layers.zipIdx
    let jumps := normJumps recs ys { s with cox := { s.cox with layerNorm := layerNormsOf s pk } }
    let ovr := (ys.filter fun x => layerHas recs 0 x.2 || s.cox.ovr.contains x.2).map (·.2)
    let flagged := (ys.filter fun x => layerHas recs 2 x.2 || s.cox.flagged.contains x.2).map (·.2)
    let storm := stormTest ovr.length pk jumps.2
    let prs := pairRecords recs (pairs pk)
    let s := { storm.2 with cox := { storm.2.cox with flaggedPrev := flagged } }
    let s := forEach (pairs pk) (fun x t => coxPair prs fresh
      { ovr := ovr.contains x.1, flagged := flagged.contains x.1, jump := jumps.1.contains x.1, storm := storm.1 }
      x.1 x.2.1 x.2.2 t) s
    endCox storm.1 s

/-- The global records of the step join the history of the last 16 (R151). -/
def keepHistory (recs : List StatRec) (s : State) : State :=
  { s with cox := { s.cox with history := ((s.run.step, recs) :: s.cox.history).take 16 } }

/-! ### Lost history (R152) -/

/-- The rung that a pair starts from when its history is lost; `rec_` is its recorded rung, 0 for none. -/
def recoverRung (l : Ladder) (rec_ : Nat) : Nat :=
  if rec_ = 0 then clampRung l.floor l.ceil 3 else min l.ceil (rec_ + 1)

/-- The cox starts to recover before the first new step. -/
def startRecovery (pk : Pkg) (s : State) : State :=
  let s := { s with cox := { s.cox with history := [], norm := [], quiet := [], stormCount := 0, hold := 0, recovery := 16 } }
  let s := forEach (pairs pk) (fun x t =>
    if pinOf t x.1 x.2.1 != 0 then t
    else
      let cur := rungOf t x.1 x.2.1
      let n := recoverRung (layerLadder x.2.2 x.2.1) cur
      if n = cur then t else logChange x.1 x.2.1 cur n 6 1 (setRung x.1 x.2.1 n t)) s
  planDue (attn 1 (logEv 0x0105 (b4 16) s))

/-! ### Run-wide pins (R135, R344) -/

/-- The pins of a run-wide PLAN take effect: a pinned role that moves is logged; the keys of released roles. -/
def pinChange (x : Nat × Nat × Nat) (s : State) : State :=
  let cur := rungOf s x.1 x.2.1
  let s := applyPin x s
  if rungOf s x.1 x.2.1 = cur then s
  else attn 1 (logChange x.1 x.2.1 cur (rungOf s x.1 x.2.1) 8 1 s)

def releasedBy (pins : List (Nat × Nat × Nat)) : List Nat := (pins.filter fun x => x.2.2 == 0).map fun x => pairKey x.1 x.2.1

end Sys2Proof.Machine
end

