-- ==== Sys2Proof/Machine/Boundary.lean ====
section
/-! DEFINITION. The step boundary (R32 to R36): commit, precision, replan with the failure paths (R235, R236, R318 to R327),
resilience with the secure stop (R306, R307, R314 to R317), and the reply (R203, R344). -/

namespace Sys2Proof.Machine

open Sys2Proof

/-! ### Action 1: commit (R32, R112, R192, R204, R309) -/

/-- Commit exchanges the two copies of every stored weight: the plan's places follow. -/
def swapPlan (rel : Nat → Nat) (p : Plan) : Plan :=
  { p with
    tensors := p.tensors.map fun t => if t.kind = 2 then { t with plane0 := rel t.plane0, plane1 := rel t.plane1 } else t,
    convs := p.convs.map fun c => { c with src := rel c.src, srcScale := rel c.srcScale },
    books := p.books.map fun g => { g with src := rel g.src },
    pieces := p.pieces.map fun x => { x with cur := x.other, curScale := x.otherScale, other := x.cur, otherScale := x.curScale } }

def swapCopies (s : State) : State :=
  { s with plan := s.plan.map (swapPlan (otherCopy s)),
           run := { s.run with copies := s.run.copies.map fun c => (c.2.1, c.1, c.2.2) } }

/-- LOSS of R204. -/
def lossOf (sum tokens : Nat) : Word := if tokens = 0 then nan32 else div32 (fp32Of42 sum) (ofNat32 tokens)

/-- A slot of the committed step is free again, with its use count one higher. -/
def usedSlot (n : Nat) (r : SlotRec) : SlotRec :=
  if r.state = 3 ∧ r.step = n then { slotD 0 with use := (r.use + 1) % 2 ^ 36 } else r

def freeSlots (n : Nat) (s : State) : State :=
  { s with adm := { s.adm with slots := s.adm.slots.foldl (fun m x => smod slotD m x.1 (usedSlot n)) s.adm.slots,
                               segments := s.adm.segments.filter fun g => g.step != n } }

/-- Codebooks rebuilt during the distribution become current; so do moments, p1 and p2 and the other copies of the weights,
of which a skipped step changed none. -/
def commitUpdates (s : State) : State :=
  let s := writeAll s.run.bookWrites s
  let s := { s with run := { s.run with bookWrites := [] } }
  if s.run.skipped then { s with run := { s.run with moments := [] } }
  else
    let s := swapCopies (writeAll s.run.moments s)
    let powers := s.run.opt.map fun x => match optEntry s x.1 with
      | some e => (x.1, advPowers e x.2)
      | none => x
    { s with run := { s.run with moments := [], opt := powers } }

def commit (s : State) : State :=
  let n := s.run.step
  let tokens := (exchanged s).tokens % 2 ^ 32
  let loss := lossOf (exchanged s).loss tokens
  let s := freeSlots n (commitUpdates s)
  let s := { s with
    run := { s.run with last := some n, loss := loss, tokens := BitVec.ofNat 32 tokens, losses := s.run.losses ++ [(n, loss)],
                        snapLast := s.run.snap, lastSkipped := s.run.skipped },
    res := { s.res with sinceImage := s.res.sinceImage + 1 } }
  let s := bump (cntDev 12) 1 s
  let s := if s.run.skipped then bump (cntDev 13) 1 s else s
  let s := if s.run.excludedFlag || s.run.skipped then attn 4 s else s
  (List.range (enabledCores s)).foldl (fun t c => traceRec c 0 0x0A 0 n 0 t) s

/-! ### Run-wide PLAN (R344) -/

/-- A PLAN held on every device takes effect: its captured registers and its pins; the roles that it releases. -/
def runWidePlan (s : State) : List Nat × State :=
  match s.host.rwPlan with
  | some r =>
    if !(exchanged s).planHeld || !s.run.carried.contains r.ring then ([], s)
    else
      let s := forEach r.pins pinChange { s with captured := r.regs }
      (releasedBy r.pins, planDue { s with run := { s.run with fin := { s.run.fin with planActed := true } } })
  | none => ([], s)

/-! ### Action 3: failure paths (R318, R322, R325, R326) -/

/-- RSL_PATH of a path that has a code. -/
def logPath (f : FailPath) (s : State) : State :=
  if f.code = 0 then s
  else
    let t := pathEv f.code s.run.fin.step f.pos f.part (b2n (f.code == 3 && f.arg == 1)) s
    { t with res := { t.res with path := if t.res.path = 0 then f.code else t.res.path } }

def addInput (kind pos part arg : Nat) (s : State) : State :=
  planDue { s with failInputs := addFail { kind := kind, pos := pos, part := part, arg := arg } s.failInputs }

/-- A core that fails the self-test is disabled; it leaves the numbering at the replan (R433). -/
def disableCore (c : Nat) (s : State) : State :=
  let m := s.disabled ||| 2 ^ physCore s c
  lifeWrite { s with disabled := m, mgmt := { s.mgmt with life := sset natD s.mgmt.life 0x58 m } }

/-- What the paths of a boundary ask for, and whether a replan waits for its digest exchange. -/
structure PathOut where
  st : State
  rollback : Bool
  hold : Nat
  waits : Bool := false

/-- One path of R318. A core whose self-test has failed has argument 1. -/
def takePath (f : FailPath) (o : PathOut) : PathOut :=
  let s := logPath f o.st
  match f.code with
  | 1 => { o with st := addInput 1 f.pos f.part f.arg s }
  | 2 => { o with st := addInput 2 f.pos f.part 0 s }
  | 3 => { o with st := if f.arg = 2 then planDue s
      else if f.arg = 1 then { s with res := { s.res with secureDue := true } } else s }
  | 4 => { o with st := s, rollback := true }
  | 5 =>
    if f.arg = 1 then { o with st := addInput 3 f.pos f.part 0 (if f.pos = myPos s then disableCore f.part s else s) }
    else { o with st := s }
  | 6 => { o with st := s, hold := 2 }
  | _ => { o with st := s, hold := if f.arg = 9 then 9 else 3 }

/-- The replica of a position in the partition as first made. -/
def baseReplica (s : State) (p : Plan) (pos : Nat) : Nat :=
  let gone := (s.failInputs.filter fun f => f.kind == 4 && f.arg != 0xFFFF).map (·.pos)
  let base := (((amended s).filter fun x => !x.spare).map (·.pos) ++ gone).mergeSort fun a b => decide (a ≤ b)
  if base.contains pos then base.idxOf pos / (p.t * p.p) else 0xFFFF

def retiredReplicas (s : State) : List Nat :=
  ((s.failInputs.filter fun f => f.kind == 4 && f.arg != 0xFFFF).map (·.arg)).eraseDups

/-- The butty for a lost position: the free spare with the fewest total hops to its planned peers, but not its buddy. -/
def buttyFor (s : State) (p : Plan) (pos : Nat) : Option Nat :=
  let buddy := match posEntry s pos with | some e => e.buddy | none => 0xFFFF
  let peers := plannedPeers s pos
  let ds := ((amended s).filter fun x => x.pos != pos).map (dropPorts fun _ e => entryPos e == pos)
  let cost := fun (x : MapDev) => let t := hopsFrom ds x.pos
    peers.foldl (fun m q => m + hopsOf t q) 0
  if p.t * p.p = 1 then none
  else (bestOf (fun (a b : MapDev) => decide ([cost a, a.pos] < [cost b, b.pos]))
    ((freeSpares s).filter fun x => x.pos != buddy)).map (·.pos)

/-- RSL_DROPPED for each admitted sequence of a retired replica; its slots are free. -/
def dropReplica (s : State) : State :=
  let s := (List.range 4096).foldl (fun t i =>
    let r := slot t i
    if r.state = 2 || r.state = 3 then logEv 0x0708 (b4 r.source ++ b8 r.sample) t else t) s
  { s with adm := { slots := s.adm.slots.filterMap fun x =>
      if x.2.use = 0 then none else some (x.1, { slotD 0 with use := x.2.use }) } }

/-- A lost device: a spare leaves the map; else its replica is retired or a butty takes its position (R325, R326). -/
def takeLost (pos : Nat) (o : PathOut) : PathOut :=
  match o.st.plan with
  | none => o
  | some p =>
    let spare := match posEntry o.st pos with | some e => e.spare | none => true
    if spare then { o with st := addInput 4 pos 0 0xFFFF o.st }
    else match buttyFor o.st p pos with
      | some q =>
        let s := logPath { code := 8, pos := pos, part := 0, arg := 0 } o.st
        let fill := q == myPos s || (match posEntry s pos with | some e => e.buddy == myPos s | none => false)
        let s := { s with res := { s.res with secureDue := true, filling := s.res.filling || fill } }
        let s := if q = myPos s then { s with plan := some { p with pos := pos } } else s
        { st := addInput 5 pos 0 q s, rollback := true, hold := o.hold }
      | none =>
        let s := logPath { code := 7, pos := pos, part := 0, arg := 0 } o.st
        let rep := baseReplica s p pos
        let s := if rep = baseReplica s p (myPos s) then dropReplica s else s
        let s := addInput 4 pos 0 rep s
        { st := if s.res.rollback then { s with res := { s.res with compare := false } } else s,
          rollback := o.rollback || s.res.rollback,
          hold := if p.r0 ≤ (retiredReplicas s).length then max o.hold 7 else o.hold }

/-- Devices lost and not yet dealt with. -/
def newLost (s : State) : List Nat := (s.res.lost.filter fun q => (devAt (amended s) q).isSome).mergeSort fun a b => decide (a ≤ b)

/-- Every path of the boundary, as the exchange has collected them in one order on every device. Paths 1 to 6 wait for the end of
a rollback in progress (R322), and a failure found since the exchange began for the next one. -/
def takeAll (s : State) : PathOut :=
  let waits := fun (f : FailPath) => s.res.rollback && decide (1 ≤ f.code) && decide (f.code ≤ 6)
  let ps := (exchanged s).paths
  let lost := newLost s
  let s1 := { s with res := { s.res with paths := s.res.paths.filter fun f => waits f || !ps.contains f } }
  let o := (ps.filter fun f => !waits f).foldl (fun o f => takePath f o) { st := s1, rollback := false, hold := 0 }
  let o := lost.foldl (fun o q => takeLost q o) o
  { o with st := { o.st with res := { o.st.res with lost := [], declared := o.st.res.declared.filter fun x => !lost.contains x.1 } } }

/-- The paths, and whether one of them asks for a secure stop at this very boundary (R307): it has changed a buddy or removed a kept
image, or found the journal full. -/
def takePaths (s : State) : PathOut :=
  let o := takeAll { s with res := { s.res with secureDue := false } }
  { o with st := { o.st with
      res := { o.st.res with secureDue := s.res.secureDue || o.st.res.secureDue },
      run := { o.st.run with fin := { o.st.run.fin with secure := o.st.run.fin.secure || o.st.res.secureDue } } } }

/-! ### Action 3: the replan (R235, R236) -/

/-- Rung increases outside the old admissible sets, in the order in which they are withdrawn. -/
def increases (pk : Pkg) (old : List (Nat × Nat)) (s : State) : List (Nat × Nat) :=
  let l := ((List.range pk.layers.length).reverse).flatMap fun i => [2, 1, 0].map fun r => (i, r)
  l.filter fun x =>
    let k := pairKey x.1 x.2
    decide (sget natD old k < rungOf s x.1 x.2) && pinOf s x.1 x.2 == 0 && !admissible s k (rungOf s x.1 x.2)

/-- One increase is withdrawn: the old rung, at its ceiling until the next replan. -/
def withdraw (old : List (Nat × Nat)) (x : Nat × Nat) (s : State) : State :=
  let k := pairKey x.1 x.2
  let s := setRung x.1 x.2 (sget natD old k) s
  attn 1 (logEv 0x0402 (b4 x.1 ++ b4 x.2) { s with cox := { s.cox with withdrawn := s.cox.withdrawn ++ [k] } })

/-- Plan, and plan again after each withdrawal until the plan fits. -/
def planWithdraw (pk : Pkg) (n : Nat) (old : List (Nat × Nat)) : List (Nat × Nat) → State → State × Option Plan
  | [], s => match makePlan s pk n true with
    | (0, some pl) => (s, some pl)
    | _ => (s, none)
  | x :: t, s => match makePlan s pk n true with
    | (0, some pl) => (s, some pl)
    | _ => planWithdraw pk n old t (withdraw old x s)

/-- The bytes of stored tensors whose homes differ between two plans, to be written at their new places. -/
def movedTensors (s : State) (old new : Plan) : List (Nat × List Byte) :=
  ((old.tensors.zip new.tensors).filter fun x => isStored x.2 && x.1.dims == x.2.dims && x.1.fmt == x.2.fmt).flatMap fun x =>
    (if x.1.plane0 = x.2.plane0 then [] else [(x.2.plane0, memBytes s x.1.plane0 (planeBytes x.2))]) ++
      (if x.1.plane1 = x.2.plane1 then [] else [(x.2.plane1, memBytes s x.1.plane1 (scaleBytes x.2))])

/-- Some device has another buddy in the new plan (R307). -/
def buddyMoved (a b : Plan) : Bool := a.positions.any fun e => b.positions.any fun f => f.pos == e.pos && f.buddy != e.buddy

/-- A replan's plan takes effect: threads stopped, homes moved, descriptors, programs and routes written, the link epoch
advanced and the digests sent (R160, R234, R235, R281, R282). -/
def installReplan (pl : Plan) (s : State) : State :=
  match s.plan with
  | none => s
  | some old =>
    let was := old.copies
    let now := pl.copies
    let moved := buddyMoved old pl
    let s0 := stopThreads { s with renumbered := s.disabled }
    let s1 := installPlan pl s0
    let s1 := { s1 with run := { s1.run with copies := now } }
    let s1 := if was = now && s.run.copies != was then swapCopies s1 else s1
    let bytes := match s1.plan with | some q => movedTensors s old q | none => []
    let s1 := forEach bytes (fun x t => memStore x.1 x.2 t) s1
    let s1 := { s1 with
      red := { s1.red with scalesKnown := s1.red.scalesKnown && (old.regions == pl.regions) },
      run := { s1.run with boundLen := 1 + pl.window, enter := true, replanned := true, planDue := false,
                           fin := { s1.run.fin with secure := s1.run.fin.secure || moved } },
      res := { s1.res with secureDue := s1.res.secureDue || moved },
      link := { s1.link with digestIn := [] } }
    sendDigest (nextEpoch (planGroups (logShared pl (bump (cntDev 11) 1 s1))))

/-- The replan of the boundary, when one is due: a hold with cause 7 when no plan fits, else the digest exchange begins. -/
def replan (old : List (Nat × Nat)) (n : Nat) (o : PathOut) : PathOut :=
  match o.st.pkg with
  | none => o
  | some pk =>
    if !o.st.run.planDue then o
    else
      let s := { o.st with cox := { o.st.cox with withdrawn := [] } }
      match planWithdraw pk n old (increases pk old s) s with
      | (s, none) => { o with st := { s with run := { s.run with planDue := false } }, hold := max o.hold 7 }
      | (s, some pl) =>
        let s := installReplan pl s
        { o with st := if pl.positions.any (·.shared) then attn 2 s else s, waits := true }

/-! ### Rollback (R320, R327) -/

/-- The image that the system rolls back to: the buddies' images, else the host copies; none when a host copy is missing. -/
def rollbackImage (b : BoundaryIn) (d : DevRec) : Option (List Byte) :=
  if securedOk b.image && !d.imageBad then some b.image
  else if securedOk b.hostImage && !d.noCopy then some b.hostImage
  else none

/-- What the plan of a rollback reads of the image: the cox state, or, where it is lost, the recovery from lost history. -/
def preLoad (pk : Pkg) (d : List Byte) (s : State) : State :=
  let s := loadInput (runInput (imgSection d 7)) s
  if imgSectionOk d 3 then planDue { s with cox := loadCox pk (imgSection d 3) s.cox }
  else startRecovery pk { s with cox := loadRungs (imgSection d 7) s.cox }

/-- The replay begins: from the step after the image's to the last committed one, with the decisions recorded since. -/
def beginReplay (upTo : Option Nat) (losses : List (Nat × Word)) (live : List JournalEntry) (s : State) : State :=
  let more := match upTo, s.run.last with | some a, some c => decide (c < a) | _, _ => false
  { s with run := { s.run with losses := [] },
           res := { s.res with rollback := more, replayTo := if more then upTo else none, replayLosses := losses,
                               replayJournal := s.res.replayJournal ++ live, sinceImage := 0 } }

/-- No image and no host copy: the run stops (R327). -/
def unrecoverable (s : State) : State :=
  allGroupsOn (attn 6 (logEv 0x0709 (b4 (stepField s))
    { s with res := { s.res with path := 0xF, rollback := false }, run := { s.run with fin := { s.run.fin with hold := 10 } }, dev := DevState.stopped }))

/-- Action 3 as a whole: paths, rollback and the one replan. -/
def actionThree (b : BoundaryIn) (old : List (Nat × Nat)) (n : Nat) (s : State) : State :=
  let o := takePaths s
  let done := fun (o : PathOut) =>
    { o.st with run := { o.st.run with boundWait := o.waits, fin := { o.st.run.fin with hold := max o.st.run.fin.hold o.hold } } }
  if !o.rollback then done (replan old n o)
  else match rollbackImage b (exchanged s), o.st.pkg with
    | some d, some pk =>
      let upTo := if s.res.rollback then s.res.replayTo else s.run.last
      let losses := if s.res.rollback then s.res.replayLosses else s.run.losses
      let t := preLoad pk d o.st
      let o := replan t.cox.rung (leAt d 0x10 8 + 1) { o with st := t }
      let u := loadImage pk d (done o)
      let u := { u with cox := if imgSectionOk d 3 then u.cox else t.cox,
                        run := { u.run with boundLen := u.run.boundLen + stopStrokes u, enter := true } }
      beginReplay upTo losses s.res.journal u
    | _, _ => unrecoverable (done o)

/-! ### Action 4: resilience (R306, R307, R316) -/

/-- The inputs of the health monitor at the reduced level, as a mask. -/
def riskInputs (s : State) (level : Nat) : Nat :=
  if s.run.sentRisk < level then 0 else
    let l := inputLevels s
    let m := l.foldl max 0
    (l.zipIdx.filter fun x => x.1 == m && m != 0).foldl (fun a x => a + 2 ^ x.2) 0

def riskAction (s : State) : State :=
  let d := exchanged s
  let t := { s with res := { s.res with sysRisk := d.risk } }
  if s.res.sysRisk < d.risk then
    attn 2 (logEv 0x0701 (b4 d.risk ++ b4 (riskInputs s d.risk) ++ d.riskAt.flatMap b4) t)
  else t

/-- The next stop falls due while a host copy runs: an optional one is abandoned, a mandatory one holds the stop. -/
def stopDue (s : State) : State :=
  let s := { s with dev := .securing }
  if s.res.hcopyState != 1 then stopBegins s
  else if hostCopyRequired s then { s with res := { s.res with stopWaits := true } }
  else stopBegins (logEv 0x0704 (b4 3 ++ b4 s.res.hcopyPercent) { s with res := { s.res with hcopyState := 3 } })

/-! ### Action 5: the reply (R203, R344) -/

def stepFlags (s : State) : Nat :=
  if !s.run.fin.committed then 0
  else b2n s.run.skipped + 2 * b2n s.run.excludedFlag + 4 * b2n s.run.replanned + 8 * b2n s.run.secured +
    16 * b2n (exchanged s).repeated

/-- The step reply. A held step's reply carries the last committed step; a replayed step has had its reply. -/
def stepReply (s : State) : State :=
  let f := s.run.fin
  let n := if f.committed then f.step else stepField s
  if f.replayed then s
  else
    let body := b4 n ++ b4 s.run.loss.toNat ++ b4 s.run.tokens.toNat ++ leBytes 2 (stepFlags s) ++ leBytes 2 (min s.run.easy 0xFFFF) ++
      b4 f.refused ++ b4 (s.stroke.count + 1 - s.run.startStroke)
    let s := reply s.host.runRing (n % 65536) 0x80 0 body s
    { s with host := { s.host with attnStep := 0 }, adm := { s.adm with refused := 0 } }

/-- The run-wide commands that acted at this boundary are replied to: PLAN, SECURE, and PAUSE. -/
def planReply (s : State) : State :=
  if !s.run.fin.planActed then s
  else match s.host.rwPlan, s.plan with
    | some r, some p =>
      complete r.ring s.run.fin.planCode (if s.run.fin.planCode = 0 then p.planDigest.take 16 ++ b4 p.fromStep else [])
        { s with host := { s.host with rwPlan := none } }
    | _, _ => s

def secureReplies (s : State) : State :=
  if !s.run.secured then s
  else forEach (s.host.rwSecure.filter s.run.carried.contains) (fun q t => complete q 0 (b4 (stepField t) ++ b4 0 ++ b8 t.res.stepBytes) t)
    { s with host := { s.host with rwSecure := s.host.rwSecure.filter fun q => !s.run.carried.contains q } }

def pauseReplies (s : State) : State :=
  if s.run.fin.pause && s.run.fin.hold = 1 then
    forEach ((s.host.rwPause.map (·.1)).filter s.run.carried.contains) (fun q t => complete q 0 (lastStep t) t)
      { s with host := { s.host with rwPause := s.host.rwPause.filter fun x => !s.run.carried.contains x.1 } }
  else s

def runWideReplies (s : State) : State := pauseReplies (secureReplies (planReply s))

/-- A run that holds aborts the run-wide commands still pending. -/
def abortPending (s : State) : State :=
  let qs := (match s.host.rwPlan with | some r => [r.ring] | none => []) ++ s.host.rwSecure ++ s.host.rwPause.map (·.1)
  forEach qs (fun q t => complete q 8 [] t) { s with host := { s.host with rwPlan := none, rwSecure := [], rwPause := [] } }

/-- The device's state behind the boundary: held for the host, on its way through a failure path, or running. -/
def afterBoundary (s : State) : State :=
  let f := s.run.fin
  let s := { s with run := { s.run with boundDone := true } }
  if f.hold = 10 then s
  else if f.hold != 0 then
    let s := nextEpoch { s with run := { s.run with heldCause := f.hold, ready := false, enter := true }, dev := .held }
    let s := if f.hold = 1 || f.hold = 2 then s else attn 6 { s with host := { s.host with attnHeld := true } }
    if f.hold = 1 && f.pauseEnd then endRun s else s
  else if s.res.path != 0 || s.res.rollback then { s with dev := .recovering }
  else { s with dev := .running }

/-- Action 5, after a secure stop if one was taken. -/
def finishBoundary (s : State) : State :=
  let s := stepReply s
  let s := runWideReplies s
  let s := if s.run.fin.hold != 0 || !s.run.fin.committed then abortPending s else s
  afterBoundary s

/-! ### STEP_BOUNDARY -/

/-- After each replayed step its LOSS is compared with the one first replied; the last one ends the rollback (R320, R327). -/
def replayCompare (n : Nat) (s : State) : State :=
  if !s.res.rollback then s
  else
    let first := (s.res.replayLosses.find? fun x => x.1 == n).map (·.2)
    let bad := s.res.compare && match first with | some l => l != s.run.loss | none => false
    let ends := match s.res.replayTo with | some m => decide (m ≤ n) | none => true
    let s := if bad then
        let s := logEv 0x0706 (b4 n ++ b4 s.run.loss.toNat ++ b4 (match first with | some l => l.toNat | none => 0) ++ b4 2) s
        { s with run := { s.run with fin := { s.run.fin with hold := 3 } } }
      else s
    if !ends then s
    else
      let s := if s.res.compare then s else logEv 0x0706 (b4 n ++ b4 s.run.loss.toNat ++ b4 0 ++ b4 3) s
      { s with res := { s.res with rollback := false, replayTo := none, replayLosses := [], replayJournal := [], compare := true } }

/-- The holds that a committed boundary takes: a PAUSE, the hold limit, a lost host (R321, R344, R345). -/
def boundaryHold (s : State) : State :=
  let f := s.run.fin
  let d := exchanged s
  let limit := s.run.limit != 0xFFFFFFFF && decide (s.run.limit ≤ f.step)
  let s := if d.hostLost then { s with res := { s.res with path := if s.res.path = 0 then 6 else s.res.path } } else s
  let s := if d.hostLost && !d.paths.any (fun x => x.code == 6) then logPath { code := 6, pos := myPos s, part := 0, arg := 0 } s else s
  let h := if f.hold != 0 then f.hold else if d.pause then 1 else if d.hostLost then 2 else if limit then 1 else 0
  { s with run := { s.run with fin := { f with hold := h, pause := d.pause, pauseEnd := d.pause && d.pauseEnd } } }

/-- Actions 4 and 5. -/
def actionsFourFive (s : State) : State :=
  let s := riskAction s
  let code := if s.run.fin.hold = 7 then 0x23 else if s.run.fin.hold = 6 then 0x2B else 0
  let s := { s with run := { s.run with fin := { s.run.fin with planCode := code } } }
  if s.dev != .stopped && !s.res.rollback && ((exchanged s).secure || s.run.fin.secure) then stopDue s else finishBoundary s

/-- Actions 4 and 5 follow at once, or, after a replan, once its digest exchange is over (R32, R234). -/
def afterThree (s : State) : State := if s.run.boundWait then s else actionsFourFive s

/-- The digest exchange after a replan is over: a mismatch holds the run with the state of the last committed step (R234). -/
def resumeBoundary (ok : Bool) (s : State) : State :=
  if !s.run.boundWait then s
  else
    let f := s.run.fin
    actionsFourFive { s with run := { s.run with boundWait := false, fin := if ok then f else { f with hold := max f.hold 6 } } }

/-- The state after actions 1 and 2, with the step's number advanced: the commit, the run-wide PLAN, and the cox. -/
def decided (s : State) : State :=
  let n := s.run.step
  let fin : BoundFin := { committed := true, step := n, refused := (exchanged s).refused, replayed := s.res.rollback }
  let s := { s with run := { s.run with fin := fin } }
  let recs := globalRecords s
  let s := commit s
  let rw := runWidePlan s
  let s := coxBoundary recs rw.1 (keepHistory recs rw.2)
  { s with run := { s.run with step := n + 1 } }

/-- The boundary of a step that ran to its end. -/
def committedBoundary (b : BoundaryIn) (s : State) : State :=
  let n := s.run.step
  afterThree (boundaryHold (actionThree b s.cox.rung (n + 1) (replayCompare n (decided s))))

/-- A held step comes to its boundary: nothing is committed, and action 2 decides nothing. A hold for a lost host stays held. -/
def heldStart (s : State) : State :=
  let fin : BoundFin := { committed := false, step := s.run.step, refused := (exchanged s).refused,
                          hold := if s.run.heldCause = 2 then 2 else 0 }
  { s with run := { s.run with fin := fin, heldCause := 0 }, res := { s.res with secureDue := s.res.secureDue || s.res.journalFull } }

/-- The boundary of a held step: actions 2 to 5 without a commit (R319). -/
def heldBoundary (b : BoundaryIn) (s : State) : State := afterThree (actionThree b s.cox.rung s.run.step (heldStart s))

/-- The reduced values that a boundary acts on are held: those of the exchange, and the statistics of a step that ran to its end. -/
def boundaryReady (s : State) : Bool := resultsHeld s 2 && (s.run.heldCause != 0 || resultsHeld s 1)

/-- STEP_BOUNDARY: the actions of R32, once, on the reduced values. -/
def stepBoundary (b : BoundaryIn) (s : State) : State :=
  if s.run.phase != .boundary || s.run.boundDone || s.run.boundWait || !(s.dev == .running || s.dev == .recovering) ||
      !boundaryReady s then s
  else if s.run.heldCause = 0 then committedBoundary b s else heldBoundary b s

end Sys2Proof.Machine
end

