-- ==== Sys2Proof/Machine/Secure.lean ====
section
/-! DEFINITION. The end of a secure stop (R315 to R317), RESTORE and REPLAY_CHECK (R152, R328 to R330). -/

namespace Sys2Proof.Machine

open Sys2Proof

/-! ### SECURE_STOP_COMPLETE -/

/-- Sample indices of source `i` in the slots in use. -/
def samplesOf (a : AdmSt) (i : Nat) : List Nat := (a.slots.filter fun x => x.2.state != 0 && x.2.source == i).map fun x => x.2.sample

/-- RELEASED advances to the first sample index of the step that the image's replay check replays (R189). -/
def releaseSource (i : Nat) (s : State) : State :=
  let first := fun (x : Source) => minOr x.next (samplesOf s.run.snapLast.adm i ++ samplesOf s.adm i)
  writeCounts i (modSource i (fun x => { x with released := max x.released (first x) }) s)

/-- The images that this device keeps as buddy are those of the stop. -/
def keptImages (info : ImageInfo) (s : State) : List (Nat × ImageInfo) :=
  match s.plan with
  | some p => (p.positions.filter fun e => !e.spare && e.buddy == p.pos).map fun e => (e.pos, { info with bytes := imageSize s e.pos })
  | none => []

/-- The copy to the host begins (R316). -/
def startHostCopy (s : State) : State :=
  if (bitN (reg s 0xA004) 3 || hostCopyRequired s) && bitN (reg s 0xA00C) 31 then
    { s with res := { s.res with hcopyState := 1, hcopyPercent := 0, hcopyBytes := 0 } }
  else s

/-- Every image is kept and the system weight digest is `wd`. -/
def stopKept (p : Plan) (pk : Pkg) (wd : Nat) (s : State) : State :=
  let img := makeImage s p pk wd
  let n := stepField s
  let info : ImageInfo := { step := n, bytes := img.length, loss := s.run.loss, tokens := s.run.tokens, wdigest := wd, valid := true }
  let dur := (s.stroke.count - s.res.secStart) * p.period / 1000
  let s := attn 3 (logEv 0x0703 (b8 wd ++ b4 n ++ b8 s.res.secStart ++ b4 dur ++ b8 img.length) s)
  let s := lifeAdd 0x20 8 1 (bump (cntDev 15) 1 (emptyJournal s))
  let s := { s with
    run := { s.run with secured := true, losses := [] },
    res := { s.res with journalFull := false, secureDue := false, ue := false, imgStep := s.run.last, sinceImage := 0, imgValid := true,
                        own := some info, ownData := img, kept := keptImages info s } }
  finishBoundary (startHostCopy (forEach (List.range 16) releaseSource s))

/-- The images that this device keeps when a stop is abandoned: those that have arrived whole are valid, the others are lost with the
images that they were overwriting (R317). -/
def keptAbandoned (s : State) : List (Nat × ImageInfo) :=
  let info : ImageInfo := { step := stepField s, bytes := 0, loss := s.run.loss, tokens := s.run.tokens, wdigest := 0, valid := true }
  (keptImages info s).map fun x =>
    (x.1, { x.2 with valid := (imageIn s x.1).all fun f => s.res.imageEnds.contains f.id })

/-- A failure struck during the stop: it is abandoned at its end, the failure paths follow, and a new stop is due. -/
def stopAbandoned (kept : Bool) (s : State) : State :=
  let s := { s with res := { s.res with secureDue := true, imgValid := kept, kept := keptAbandoned s, own := s.res.own.map fun x => { x with valid := kept } } }
  let cause := max 3 s.run.holdDue
  holdNow cause (finishBoundary s)

/-- The buddy has acknowledged this device's image on every flow: its header is written (R314). -/
def imageKept (s : State) : Bool := (imageFlows s).all fun f => s.res.imageAcks.contains f.id

/-- SECURE_STOP_COMPLETE: the "image kept" AND and the SUM of the weight digests over the system are held (R284, R315). -/
def secureStopComplete (s : State) : State :=
  match s.plan, s.pkg with
  | some p, some pk =>
    if s.dev != .securing || s.res.stopWaits || s.run.secLeft != 0 then s
    else if s.run.holdDue != 0 || !s.res.paths.isEmpty then stopAbandoned (imageKept s) s
    else match s.res.keptRes, s.res.wsumRes with
      | some k, some w => if k % 2 = 1 then stopKept p pk w s else s
      | _, _ => s
  | _, _ => s

/-! ### RESTORE (R328) -/

/-- Positions, ports and CORES of a map. -/
def shapeOf (ds : List MapDev) : List (Nat × Nat × List Nat) := ds.map fun x => (x.pos, x.cores, x.ports)

/-- The image's map, as its failure inputs amend it, has the shape of the current one, and the image is this position's. -/
def shapeMatches (s : State) (d : List Byte) : Bool :=
  let inp := runInput (imgSection d 7)
  leAt d 8 2 == myPos s && shapeOf ((recFails inp).foldl amend (parseMap (recMap inp))) == shapeOf (amended s)

/-- The checks of an image in the order of R328; 0 when all hold. -/
def restoreCode (s : State) (pk : Pkg) (d : List Byte) : Nat :=
  if !imgHas d then 0x38
  else if !securedOk d then 0x39
  else if slice d 0x60 48 != pk.digest then 0x3A
  else if !shapeMatches s d then 0x3B
  else if !sourcesAgree s (imgSection d 5) then 0x1A
  else 0

/-- The state that the lockkeeper replans from: the image's input record with the current map. -/
def restoreInput (pk : Pkg) (d : List Byte) (s : State) : State :=
  let inp := runInput (imgSection d 7)
  let s := loadInput inp { s with failInputs := (recFails inp).filter fun f => f.kind == 4 }
  { s with cox := if imgSectionOk d 3 then loadCox pk (imgSection d 3) s.cox else loadRungs (imgSection d 7) s.cox }

/-- The image is loaded: the device is RESTORED at the boundary of step n. -/
def restoreLoad (pk : Pkg) (pl : Plan) (d : List Byte) (s : State) : State :=
  let s := installPlan pl s
  let s := loadImage pk d { s with run := { s.run with copies := pl.copies } }
  let s := emptyJournal s
  sendDigest { s with
    run := { s.run with phase := .boundary, boundDone := true, heldCause := 1, enter := true, losses := [] },
    link := { s.link with epoch := leAt d 0x28 2 },
    res := { s.res with restorePending := true, restoreBad := false, journalFull := false },
    dev := DevState.restored }

def restoreBody (q : Nat) (image : HostData) (e : List Byte) (s : State) : State :=
  match s.pkg with
  | none => complete q 2 [] s
  | some pk =>
    let d := image.bytes
    if leAt e 8 1 = 1 && !hostRange s (leAt e 0x10 8) (max 256 d.length) then complete q 3 [] s
    else if image.poison then complete q 4 [] s
    else match restoreCode s pk d with
      | 0 =>
        let w := restoreInput pk d s
        (match makePlan w pk (leAt d 0x10 8 + 1) true with
          | (0, some pl) => let t := restoreLoad pk pl d w; complete q 0 (b4 (stepField t)) t
          | (code, _) => complete q code [] s)
      | code => complete q code [] s

/-! ### REPLAY_CHECK (R329, R330) -/

/-- RSL_REPLAY of a replay check: step, both losses, outcome 1 match or 2 mismatch. -/
def logReplay (loss : Word) (outcome : Nat) (s : State) : State :=
  logEv 0x0706 (b4 (stepField s) ++ b4 loss.toNat ++ b4 s.run.loss.toNat ++ b4 outcome) s

/-- A passed check: HELD at the boundary of step n. Lost cox history then recovers, with a replan before the first new step. -/
def replayPassed (pk : Pkg) (s : State) : State :=
  let s := { s with res := { s.res with restorePending := false }, dev := .held }
  if !s.res.coxLost then s
  else
    let t := startRecovery pk { s with res := { s.res with coxLost := false } }
    (replan t.cox.rung t.run.step { st := t, rollback := false, hold := 0 }).st

def replayBody (q : Nat) (loss tokens : Word) (wsum : Nat) (e : List Byte) (s : State) : State :=
  let wd := (ownWeightDigest s + wsum) % 2 ^ 64
  let ok := !s.res.restoreBad && loss == s.run.loss && tokens == s.run.tokens && (leAt e 8 1 == 0 || wd == leAt e 0x10 8)
  match s.pkg with
  | none => complete q 2 [] s
  | some pk =>
    if ok then complete q 0 (b4 loss.toNat ++ b4 tokens.toNat ++ b8 wd) (replayPassed pk (logReplay loss 1 s))
    else complete q 0x3C [] (logReplay loss 2 { s with res := { s.res with restoreBad := true } })

end Sys2Proof.Machine
end

