-- ==== Sys2Proof/Machine/Course.lean ====
section
/-! DEFINITION. The course of a run at its strokes (R31, R206, R215, R216, R234, R284 to R288): what the device does with the result of
a control reduction, the phases of a step, the stroke edge and the guard point. -/

namespace Sys2Proof.Machine

open Sys2Proof

/-! ### The digest exchange (R234) -/

/-- The OR of the mismatch flags: PLANNED when it is 0, else LKP_MISMATCH with a port and both digests. After a replan the boundary
goes on with its actions 4 and 5. -/
def digestResult (acc : Nat) (s : State) : State :=
  let ok := acc % 2 == 0
  let mine := match s.plan with | some p => p.planDigest | none => []
  let bad := (s.link.digestIn.find? fun x => x.2 != mine)
  let s := { s with link := { s.link with digestOk := ok, digestDone := true, digestSent := false, digestIn := [] } }
  if ok then resumeBoundary true (if s.dev == .loaded && s.plan.isSome then { s with dev := DevState.planned } else s)
  else resumeBoundary false (logEv 0x0401 (b4 (match bad with | some x => x.1 / 2 | none => 0xFFFFFFFF) ++ (mine.take 8) ++
    ((match bad with | some x => x.2 | none => mine).take 8)) s)

/-! ### What the device does with the result of a control reduction -/

def ctlResult (id acc : Nat) (s : State) : State :=
  if id = ctlReady then startCheck { s with run := { s.run with readyRes := some acc } }
  else if id = ctlLimit then startCheck { s with run := { s.run with limitRes := some acc } }
  else if id = ctlDigest then digestResult acc s
  else if id = ctlDist then
    (if acc % 2 = 1 && s.run.phase == .distribution then { s with run := { s.run with distDone := true } } else s)
  else if id = ctlFlags then holdFrom acc s
  else if id = ctlKept then { s with res := { s.res with keptRes := some acc } }
  else if id = ctlWsum then { s with res := { s.res with wsumRes := some (acc % 2 ^ 64) } }
  else if 0x100000 ≤ id then instanceResult (id - 0x100000) acc s
  else redResult redFuel id acc s

/-- Every multicast pass of the phase has completed here: the device's AND operand. -/
def distCheck (s : State) : State :=
  if s.run.phase == .distribution && !s.run.distDone && !(ctlGet s ctlDist).own && (distLegs s).all (fun f => legSettled s f.id) then
    ctlOwn (ctlResult ctlDist) ctlDist 1 s
  else s

/-- Every usable port has delivered its digest: the device's mismatch flag. -/
def digestCheck (s : State) : State :=
  match s.plan with
  | none => s
  | some p =>
    let inn := fun (q : Nat × Nat) => s.link.digestIn.any fun x => x.1 == 2 * q.1 + q.2
    if s.link.digestSent && !s.link.digestDone && !(ctlGet s ctlDigest).own && (usablePorts s).all inn then
      ctlOwn (ctlResult ctlDigest) ctlDigest (b2n (s.link.digestIn.any fun x => x.2 != p.planDigest)) s
    else s

/-- The ready and limit operands of a stroke. -/
def readyStroke (s : State) : State :=
  if s.plan.isNone || !s.link.digestOk || inRun s || (ctlGet s ctlReady).own || (ctlGet s ctlLimit).own then s
  else
    let r := s.run.ready && s.run.startAt.isNone
    ctlOwn (ctlResult ctlReady) ctlReady (b2n r) (ctlOwn (ctlResult ctlLimit) ctlLimit (if r then limitOperand s.run.limit else 0) s)

/-- The planned strokes of a secure stop are over and the buddy keeps this device's image: the operands of the "image kept" AND and
of the weight-digest SUM (R315). -/
def keptCheck (s : State) : State :=
  if s.dev == .securing && !s.res.stopWaits && s.run.secLeft = 0 && imageKept s && s.res.keptRes.isNone && !(ctlGet s ctlKept).own then
    ctlOwn (ctlResult ctlKept) ctlKept 1 (ctlOwn (ctlResult ctlWsum) ctlWsum (ownWeightDigest s) s)
  else s

/-! ### Progress of a step at a stroke edge (R195, R288, R293, R298) -/

/-- Recorded heartbeat and EASY-limit decisions of a replayed step are applied, where the device concerned is still in the map; those
of the two deadlines are applied by their phases (R37). -/
def replayDecisions (s : State) : State :=
  let there := fun (e : JournalEntry) => (devAt (amended s) e.pos).isSome
  let s := ((recorded s 3).filter there).foldl (fun t e => portLost (e.arg % 16) [e.pos] t) s
  ((recorded s 4).filter there).foldl (fun t e => straggler e.arg { t with stroke := { t.stroke with lastRaiser := e.pos } }) s

/-- The phase that a stroke edge begins, if any. `s.stroke.slot` is the slot of the new stroke. -/
def nextPhase (s : State) : State :=
  match s.plan with
  | none => s
  | some p =>
    match s.run.phase with
    | .compute =>
      if slotsIn s < p.c then s
      else if !s.red.scalesKnown && !s.red.scaleFind then startScaleFind s
      else if s.red.scaleFind then s
      else startReduction (startStats (setPhase .reduction s))
    | .reduction => if s.run.redDone then combineRound 1 (setPhase .update s) else s
    | .update =>
      if slotsIn s < p.u then s
      else
        let s := setPhase .distribution (takeScales s)
        let rep := (recorded s 2).map (·.pos)
        distCheck { s with link := { s.link with failedLegs :=
          ((distLegs s).filter fun f => rep.contains f.peer).map (·.id) } }
    | .distribution => if s.run.distDone then startExchange (setPhase .exchange s) else s
    | .exchange => if slotsIn s < p.x || !resultsHeld s 2 then s else setPhase .boundary s
    | .boundary =>
      if s.run.boundDone && (s.dev == .running || s.dev == .recovering) && decide (s.run.boundLen ≤ slotsIn s) then
        replayDecisions (beginStep s)
      else s
    | .none => s

/-- Reduction strokes past the Q planned ones keep the slot (R293). -/
def slotHeld (s : State) : Bool :=
  match s.plan with
  | none => true
  | some p => s.run.phase == .reduction && decide (p.q ≤ slotsIn s + 1) && !s.run.redDone

/-! ### The stroke edge -/

/-- An array with nothing left to do runs planned ballast and ramps through an EASY stroke (R216). -/
def easyArray (c a : Nat) (s : State) : State :=
  let A := arr s c a
  if A.queue.isEmpty && !A.streaming && A.gap == .none then beginGap c a (strokeCycles s) s else s

/-- The edge begins an EASY stroke (R216). -/
def easyEdge (s : State) : State :=
  let s := { s with stroke := { s.stroke with easy := true, easyRun := s.stroke.easyRun + 1, lastRaiser := s.stroke.raiser,
                                              lastEasy := s.stroke.count },
                    run := { s.run with easy := s.run.easy + 1 } }
  let s := lifeAdd 0x30 8 1 (bump (cntDev 1) 1 s)
  (List.range (enabledCores s)).foldl (fun t c =>
    (List.range 4).foldl (fun u a => easyArray c a u) (traceRec c 0 3 0 t.stroke.count t.stroke.raiser t)) s

/-- A stroke of the schedule: the slot advances, but for reduction strokes past the plan and outside a run. -/
def slotEdge (s : State) : State :=
  let s := { s with stroke := { s.stroke with easy := false, easyRun := 0 } }
  if !inRun s then s
  else if slotHeld s then
    (if s.run.phase == .reduction then bump (cntDev 4) 1 { s with run := { s.run with redExt := s.run.redExt + 1 } } else s)
  else { s with stroke := { s.stroke with slot := s.stroke.slot + 1 } }

/-- What follows the phases at an edge: a stop, the start, the reductions of the stroke, and what each stroke sends. -/
def edgeRest (s : State) : State :=
  let s := readyStroke (keptCheck (digestCheck (startEdge (secureEdge s))))
  let s := avsRequest 1 (avsRequest 0 { s with trace := { s.trace with moved := 0 } })
  wakeAll (dueSnapshots (sendCatch (copyStroke s)))

/-- The counter goes on, and the cores' clock by the cycles of a stroke. -/
def edgeCount (s : State) : State :=
  lifeAdd 0x18 8 1 (residencies { s with stroke := { s.stroke with
    count := (s.stroke.count + 1) % 2 ^ 48, guard := false, raised := false, ticks := s.stroke.ticks + 13 * periodNs s } })

/-- The edge once the stroke that ends is closed: the slot and the phase go on, or an EASY stroke begins. -/
def edgeFrom (s : State) : State :=
  edgeRest (if s.stroke.raised then easyEdge (edgeCount s) else nextPhase (slotEdge (edgeCount s)))

/-- A stroke edge: what the strokes close, the slot and the phase, what each stroke sends. -/
def strokeEdge (s : State) : State := edgeFrom (takeRaised (closeHealth (closeCatch (closeLock (standEdge s)))))

/-- An edge before the lengthsman runs, or in recovery: the counter in the AON domain counts (R207). -/
def countEdge (s : State) : State :=
  { s with stroke := { s.stroke with count := (s.stroke.count + 1) % 2 ^ 48, ticks := s.stroke.ticks + 13 * periodNs s } }

/-! ### The guard point (R206, R215) -/

/-- A thread has work in the present slot: it runs, or waits for anything but a later slot (R167, R215). -/
def threadBusy (slot : Nat) (T : Thread) : Bool :=
  match T.state, T.wait with
  | .running, _ => true
  | .waiting, .stroke n => decide (n ≤ slot)
  | .waiting, _ => true
  | _, _ => false

/-- A core has work in the present slot: a busy thread or a queued instruction. -/
def coreBusy (slot : Nat) (C : CoreSt) : Bool :=
  C.threads.any (fun x => threadBusy slot x.2) || C.arrays.any (fun x => !x.2.queue.isEmpty) || !C.vec.isEmpty || !C.xu.isEmpty ||
    !C.str.isEmpty

/-- An update engine still has blocks to update (R196). -/
def updatesLeft (s : State) : Bool :=
  match s.plan with
  | some p => !s.run.skipped && (List.range 16).any fun e => (engineNext e p.pieces 0 (sget natD s.run.upd e)).isSome
  | none => false

/-- The device's work for the present slot is unfinished (R215): threads, queues and passes of the stream engine in compute, engines and
passes in update, the reduced values in the exchange, the actions of the boundary with its replan. -/
def slotUnfinished (s : State) : Bool :=
  match s.run.phase with
  | .compute => s.cores.any (fun x => coreBusy s.stroke.slot x.2) || decide (0 < activePasses s) || s.red.scaleFind
  | .update => updatesLeft s || decide (0 < activePasses s)
  | .exchange => !resultsHeld s 2
  | .boundary => !s.run.boundDone && s.dev != .securing
  | _ => false

/-- GUARD_POINT: EASY where work is unfinished, legs behind, and the OR of the fault and poison flags, which holds the step. The
operand is the unequal comparisons of the self-test of path 5, which is run if the step is held (R96, R318). -/
def guardPoint (selfTest : List Nat) (s : State) : State :=
  let s := { s with stroke := { s.stroke with guard := true }, res := { s.res with selfTest := selfTest } }
  let s := markBehind (raiseEasy (slotUnfinished s) s)
  if !inStep s then s
  else if floodedHold s != 0 then holdFrom (floodedHold s) s
  else if (ctlGet s ctlFlags).own then s
  else ctlOwn (ctlResult ctlFlags) ctlFlags (guardFlags s) s

end Sys2Proof.Machine
end

