-- ==== Sys2Proof/Machine/Arrive.lean ====
section
/-! DEFINITION. Packets at their destination but for the gradient entries (R212, R215, R234, R277, R280, R282, R284, R286, R299), and the
distribution deadline (R288). -/

namespace Sys2Proof.Machine

open Sys2Proof

/-! ### Control reductions and digests -/

/-- REDUCE_UP: a child's operand joins this device's (R284). -/
def reduceUp (h : PktHdr) (body : List Byte) (s : State) : State :=
  let id := h.arg
  if !(ctlTree s id).2.contains h.src || (ctlGet s id).heard.contains h.src then s
  else ctlStep (ctlResult id) id (ctlMod id (fun c =>
    { c with acc := ctlCombine (ctlOp id) c.acc (ctlOperand id body), heard := c.heard ++ [h.src] }) s)

/-- REDUCE_DOWN: the result is passed to the children and held (R284). -/
def reduceDown (h : PktHdr) (body : List Byte) (s : State) : State :=
  let id := h.arg
  let v := ctlOperand id body
  ctlResult id v (ctlClear id (ctlSendDown id v s))

/-- DIGEST (R234). -/
def digestPacket (p b : Nat) (body : List Byte) (s : State) : State :=
  let l := s.link.digestIn.filter fun x => x.1 != 2 * p + b
  digestCheck { s with link := { s.link with digestIn := l ++ [(2 * p + b, body)] } }

/-! ### Flows (R280, R286) -/

/-- END_ACK: the receiver of a flow or leg has the whole pass. -/
def endAckPacket (h : PktHdr) (s : State) : State :=
  let dist := (distLegs s).any fun f => f.id == h.flow
  let img := (imageFlows s).any fun f => f.id == h.flow
  let s := ackLeg h.flow s
  if img then keptCheck { s with res := { s.res with imageAcks := insertNat h.flow s.res.imageAcks } }
  else if dist then
    distCheck { s with link := { s.link with legsDone := insertNat h.flow s.link.legsDone } }
  else s

/-- The receiving descriptor of a packet's flow. -/
def rxDesc (s : State) (h : PktHdr) : Option Nat :=
  (rxCtx s h.flow).bind fun c => match c.target with | .descriptor d => some d | _ => none

/-- A GEN older than the destination descriptor's is stale (R282). -/
def genStale (s : State) (h : PktHdr) (d : Nat) : Bool := epochOlder h.gen ((desc s d).gen % 65536)

/-- DATA: the bytes are written at the next position of the destination pass; ARG only checks it. -/
def dataPacket (p : Nat) (h : PktHdr) (body : List Byte) (s : State) : State :=
  match rxDesc s h with
  | none => if (rxResult s h).isSome then resultData p h body s else badPacket p (hdrNat h) s
  | some d =>
    let y := descOf s d
    let n := (desc s d).inDone
    if genStale s h d then bump (cntDev 24) 1 s
    else if h.arg != n / 4 % 2 ^ 24 then badPacket p (hdrNat h) s
    else
      let s := destPut y (blockList s y) n body h.poison s
      returnCredit h (modDesc d (fun D => { D with inDone := n + body.length }) s)

/-- END: REMOTE adds POST_INC to the destination's POST_MARK, and END_ACK returns. -/
def endPacket (p : Nat) (h : PktHdr) (s : State) : State :=
  match rxDesc s h with
  | none => (match rxResult s h with
    | some q => resultEnd p q h s
    | none => badPacket p (hdrNat h) s)
  | some d =>
    let y := descOf s d
    let n := (desc s d).inDone
    if genStale s h d then bump (cntDev 24) 1 s
    else if h.arg != n / 4 % 2 ^ 24 then badPacket p (hdrNat h) s
    else
      let s := if y.mode != 0 then (match blockList s y with
          | b :: _ => skewZeros y b.base (8 * n / max 1 (vecBits y)) s
          | [] => s) else s
      let s := modDesc d (fun D => { D with inDone := 0 }) s
      let s := if y.postMark != 0xFFFF then addMark y.postMark y.postInc s else s
      let body := b4 d ++ b4 (desc s d).gen ++ b8 0
      let s := if (imageIn s h.src).any fun f => f.id == h.flow then
          { s with res := { s.res with imageEnds := insertNat h.flow s.res.imageEnds } } else s
      settle (sendTo (newHdr s 0 6 h.src h.flow h.gen 0 body) body s)

/-! ### The distribution deadline (R288) -/

def distributionDeadline (s : State) : State :=
  if s.run.phase != .distribution || s.run.distDone || !distDue s || !(recorded s 2).isEmpty then s
  else if (distLegs s).all (fun f => legSettled s f.id) then s
  else
    let s := (distLegs s).foldl (fun t f => if legSettled t f.id then t else failLeg f t) s
    distCheck { s with res := { s.res with path := lostCode s } }

def execDistributionDeadline (s : State) : Host.Outcome State Fault Refusal := .next (distributionDeadline s)

/-! ### The commands, and packets that have waited for their epoch (R282) -/

/-- A packet of any kind arrives again once the receiver has reached its epoch. A catch marker then serves as a heartbeat
alone. -/
def deliverPacket (p b hdr : Nat) (body : List Byte) (s : State) : State :=
  let h := readHdr hdr
  arrive h.cls h.kind p b hdr body (fun h u =>
    if h.cls = 0 then
      match h.kind with
      | 0 => modPort p (fun P => { P with catchSeen := true }) u
      | 1 => easyPacket body u
      | 2 => reduceUp h body u
      | 3 => reduceDown h body u
      | 4 => digestPacket p b body u
      | 5 => creditPacket body u
      | _ => endAckPacket h u
    else if h.cls = 3 then
      match h.kind with
      | 0 => raPacket false h body u
      | 1 => raPacket true h body u
      | 2 => scaleUp h body u
      | 3 => scaleDown h body u
      | _ => sumsPacket h body u
    else if h.kind = 0 then dataPacket p h body u else endPacket p h u) s

/-- Packets that have waited for an epoch arrive once the device has reached it. -/
def deliverEarly (s : State) : State :=
  let l := s.link.early
  l.foldl (fun t x => deliverPacket (x.1 / 2) (x.1 % 2) (leAt x.2 0 16) (x.2.drop 16) t) { s with link := { s.link with early := [] } }

/-- Once the link epoch has advanced, the packets that waited for it arrive (R282). -/
def atEpoch (s t : State) : State := if t.link.epoch = s.link.epoch then t else deliverEarly t

def execCatchMarker (p : PortId) (sub : SubId) (hdr : InstrWord) (body : List Byte) (phase : Int) (s : State) :
    Host.Outcome State Fault Refusal :=
  .next (arrive 0 0 p.val sub.val hdr.toNat body (fun _ u => catchPacket p.val sub.val phase body u) s)
def execEasy (p : PortId) (sub : SubId) (hdr : InstrWord) (body : List Byte) (s : State) : Host.Outcome State Fault Refusal :=
  .next (arrive 0 1 p.val sub.val hdr.toNat body (fun _ u => easyPacket body u) s)
def execReduceUp (p : PortId) (sub : SubId) (hdr : InstrWord) (body : List Byte) (s : State) : Host.Outcome State Fault Refusal :=
  .next (atEpoch s (arrive 0 2 p.val sub.val hdr.toNat body (fun h u => reduceUp h body u) s))
def execReduceDown (p : PortId) (sub : SubId) (hdr : InstrWord) (body : List Byte) (s : State) : Host.Outcome State Fault Refusal :=
  .next (atEpoch s (arrive 0 3 p.val sub.val hdr.toNat body (fun h u => reduceDown h body u) s))
def execDigest (p : PortId) (sub : SubId) (hdr : InstrWord) (body : List Byte) (s : State) : Host.Outcome State Fault Refusal :=
  .next (atEpoch s (arrive 0 4 p.val sub.val hdr.toNat body (fun _ u => digestPacket p.val sub.val body u) s))
def execCredit (p : PortId) (sub : SubId) (hdr : InstrWord) (body : List Byte) (s : State) : Host.Outcome State Fault Refusal :=
  .next (arrive 0 5 p.val sub.val hdr.toNat body (fun _ u => creditPacket body u) s)
def execEndAck (p : PortId) (sub : SubId) (hdr : InstrWord) (body : List Byte) (s : State) : Host.Outcome State Fault Refusal :=
  .next (arrive 0 6 p.val sub.val hdr.toNat body (fun h u => endAckPacket h u) s)

/-- DATA and END travel in the point-to-point and the multicast class. -/
def flowClass (hdr : Nat) : Nat := if (readHdr hdr).cls = 2 then 2 else 1

def execData (p : PortId) (sub : SubId) (hdr : InstrWord) (body : List Byte) (s : State) : Host.Outcome State Fault Refusal :=
  .next (arrive (flowClass hdr.toNat) 0 p.val sub.val hdr.toNat body (fun h u => dataPacket p.val h body u) s)
def execEndPass (p : PortId) (sub : SubId) (hdr : InstrWord) (body : List Byte) (s : State) : Host.Outcome State Fault Refusal :=
  .next (arrive (flowClass hdr.toNat) 1 p.val sub.val hdr.toNat body (fun h u => endPacket p.val h u) s)

/-! ### Strokes and boundaries -/

/-- STROKE_EDGE: while VDD_AON is up every edge counts (R207). -/
def execStrokeEdge (s : State) : Host.Outcome State Fault Refusal :=
  .next (if !s.pins.aon then s else if s.dev == .boot || s.dev == .recovery then countEdge s else atEpoch s (strokeEdge s))

def execGuardPoint (selfTest : List Nat) (s : State) : Host.Outcome State Fault Refusal := .next (atEpoch s (guardPoint selfTest s))

def execStepBoundary (reads : BoundaryIn) (s : State) : Host.Outcome State Fault Refusal := .next (atEpoch s (stepBoundary reads s))

/-! ### Securing and restoring -/

def execSecureStopComplete (s : State) : Host.Outcome State Fault Refusal := .next (atEpoch s (secureStopComplete s))

def execRestore (q : RingId) (image : HostData) (s : State) : Host.Outcome State Fault Refusal :=
  .next (atEpoch s (ringCommand q.val 0x19 (fun e => decide (leAt e 8 1 ≤ 1) && zeroAt e 9 7 && (leAt e 8 1 == 1 || zeroAt e 0x10 8) &&
    zeroAt e 0x18 40) (statesOk [.planned]) (restoreBody q.val image) s))

def execReplayCheck (q : RingId) (loss tokens : Word) (wsum : DWord) (s : State) : Host.Outcome State Fault Refusal :=
  .next (atEpoch s (ringCommand q.val 0x1A (fun e => decide (leAt e 8 1 ≤ 1) && zeroAt e 9 7 && zeroAt e 0x18 40) (statesOk [.restored])
    (replayBody q.val loss tokens wsum.toNat) s))

end Sys2Proof.Machine
end

