-- ==== Sys2Proof/Machine/Ctl.lean ====
section
/-! DEFINITION. CTL instructions (R168): scalar arithmetic and control flow. -/

namespace Sys2Proof.Machine

open Sys2Proof

def cD (w : InstrWord) : Nat := iF w 24 5
def cS1 (w : InstrWord) : Nat := iF w 29 5
def cS2 (w : InstrWord) : Nat := iF w 34 5
def cFunc (w : InstrWord) : Nat := iF w 39 4
def cCond (w : InstrWord) : Nat := iF w 43 4
/-- IMM, sign-extended to 64 bits. -/
def cImm (w : InstrWord) : Nat := toTwos 64 (sInt 32 (iF w 64 32))

/-- The FUNC codes, modulo 2^64. -/
def aluFn (f x y : Nat) : Nat :=
  let n := y % 64
  match f with
  | 0 => (x + y) % 2 ^ 64
  | 1 => (x + (2 ^ 64 - y % 2 ^ 64)) % 2 ^ 64
  | 2 => x &&& y
  | 3 => x ||| y
  | 4 => x ^^^ y
  | 5 => x * 2 ^ n % 2 ^ 64
  | 6 => x / 2 ^ n
  | 7 => toTwos 64 (sInt 64 x / ((2 ^ n : Nat) : Int))
  | 8 => x * y % 2 ^ 64
  | 9 => if sInt 64 x ≤ sInt 64 y then x else y
  | 10 => if sInt 64 x ≤ sInt 64 y then y else x
  | 11 => b2n (decide (sInt 64 x < sInt 64 y))
  | _ => b2n (decide (x < y))

/-- The COND codes. -/
def condMet (c x y : Nat) : Bool :=
  match c with
  | 0 => x == y
  | 1 => x != y
  | 2 => decide (sInt 64 x < sInt 64 y)
  | 3 => decide (sInt 64 y ≤ sInt 64 x)
  | 4 => decide (x < y)
  | _ => decide (y ≤ x)

def setPc (c t pc : Nat) (s : State) : State := modThread c t (fun T => { T with pc := pc }) s

/-- The checks of a CTL instruction: CNT_EN is 0, the fields of the OP, reserved codes. -/
def ctlCause (fields : List (Nat × Nat)) (bad : Bool) (w : InstrWord) : Nat :=
  causeIf (iCntEn w || !onlyBits w fields || bad) 2

def issueCtl (op : Nat) (fields : List (Nat × Nat)) (bad : Bool) (body : State → State)
    (c : CoreId) (t : ThreadId) (w : InstrWord) (s : State) : State :=
  issue c.val t.val w 7 op (fun _ => ctlCause fields bad w) (fun _ => false) body s

def execNop (c : CoreId) (t : ThreadId) (w : InstrWord) (s : State) : Host.Outcome State Fault Refusal :=
  .next (issueCtl 0 [] false (fun u => u) c t w s)

def execAlu (c : CoreId) (t : ThreadId) (w : InstrWord) (s : State) : Host.Outcome State Fault Refusal :=
  .next (issueCtl 1 [(24, 19)] (decide (12 < cFunc w))
    (fun u => setS c.val t.val (cD w) (aluFn (cFunc w) (sReg u c.val t.val (cS1 w)) (sReg u c.val t.val (cS2 w))) u) c t w s)

def execAlui (c : CoreId) (t : ThreadId) (w : InstrWord) (s : State) : Host.Outcome State Fault Refusal :=
  .next (issueCtl 2 [(24, 10), (39, 4), (64, 32)] (decide (12 < cFunc w))
    (fun u => setS c.val t.val (cD w) (aluFn (cFunc w) (sReg u c.val t.val (cS1 w)) (cImm w)) u) c t w s)

/-- PC = IMM: the 16 bits of the PC (R159). -/
def jumpTo (c t : Nat) (w : InstrWord) (s : State) : State := setPc c t (iF w 64 32 % 2 ^ 16) s

def execBr (c : CoreId) (t : ThreadId) (w : InstrWord) (s : State) : Host.Outcome State Fault Refusal :=
  .next (issueCtl 3 [(29, 10), (43, 4), (64, 32)] (decide (5 < cCond w))
    (fun u => if condMet (cCond w) (sReg u c.val t.val (cS1 w)) (sReg u c.val t.val (cS2 w)) then jumpTo c.val t.val w u
      else u) c t w s)

def execJmp (c : CoreId) (t : ThreadId) (w : InstrWord) (s : State) : Host.Outcome State Fault Refusal :=
  .next (issueCtl 4 [(64, 32)] false (jumpTo c.val t.val w) c t w s)

/-- HALT: the thread halts; a custom program's span may end here (R175). -/
def execHalt (c : CoreId) (t : ThreadId) (w : InstrWord) (s : State) : Host.Outcome State Fault Refusal :=
  .next (issueCtl 5 [] false
    (fun u => overrun c.val t.val (modThread c.val t.val (fun T => { T with state := .halted }) u)) c t w s)

def execAdda (c : CoreId) (t : ThreadId) (w : InstrWord) (s : State) : Host.Outcome State Fault Refusal :=
  .next (issueCtl 6 [(24, 4), (29, 4), (64, 32)] false
    (fun u => setA c.val t.val (iF w 24 4) ((aReg u c.val t.val (iF w 29 4) + iF w 64 32) % 2 ^ 32) u) c t w s)

end Sys2Proof.Machine
end

