-- ==== Sys2Proof/Machine/Mov.lean ====
section
/-! DEFINITION. MOV instructions (R165): loads and stores of scratch, registers, CSRs and copies. -/

namespace Sys2Proof.Machine

open Sys2Proof

def mSreg (w : InstrWord) : Nat := iF w 24 5
def mAreg (w : InstrWord) : Nat := iF w 29 4
def mSize (w : InstrWord) : Nat := 2 ^ iF w 33 2
def mSext (w : InstrWord) : Bool := bitN w.toNat 35
def mOff (w : InstrWord) : Nat := iF w 36 20
def mAddr (s : State) (c t : Nat) (w : InstrWord) : Nat := opAddr s c t (mAreg w) (mOff w)
def mAddr2 (s : State) (c t : Nat) (w : InstrWord) : Nat := opAddr s c t (iF w 56 4) (iF w 60 20)
def mLen (w : InstrWord) : Nat := iF w 80 12

/-- The checks of a MOV: CNT_EN is 0 (R161), the fields of the OP, then `extra`. -/
def movCause (fields : List (Nat × Nat)) (w : InstrWord) (extra : List Nat) : Nat :=
  leastCause (causeIf (iCntEn w || !onlyBits w fields) 2 :: extra)

def issueMov (op : Nat) (fields : List (Nat × Nat)) (extra : State → List Nat) (body : State → State)
    (c : CoreId) (t : ThreadId) (w : InstrWord) (s : State) : State :=
  issue c.val t.val w 4 op (fun u => movCause fields w (extra u)) (fun _ => false) body s

/-- Poison in the source of a scalar access reaches the core. -/
def movPoison (c addr n : Nat) (s : State) : State :=
  if anyPoison s (scratchAddr c addr) n then corePoison c 5 (scratchAddr c addr) s else s

/-- LD: 2^SIZE bytes, zero- or sign-extended. -/
def movLoad (c t : Nat) (w : InstrWord) (s : State) : State :=
  let a := mAddr s c t w
  let v := leNat (scrBytes s c a (mSize w))
  setS c t (mSreg w) (if mSext w then toTwos 64 (sInt (8 * mSize w) v) else v) (movPoison c a (mSize w) s)

def execMovLd (c : CoreId) (t : ThreadId) (w : InstrWord) (s : State) : Host.Outcome State Fault Refusal :=
  .next (issueMov 0 [(24, 32)] (fun u => [rangeCause u c.val t.val [(mAddr u c.val t.val w, mSize w, mSize w)]])
    (movLoad c.val t.val w) c t w s)

/-- ST: the low 2^SIZE bytes of s[SREG]. -/
def movStore (c t : Nat) (w : InstrWord) (s : State) : State :=
  scrWrite c (mAddr s c t w) (leBytes (mSize w) (sReg s c t (mSreg w))) s

def execMovSt (c : CoreId) (t : ThreadId) (w : InstrWord) (s : State) : Host.Outcome State Fault Refusal :=
  .next (issueMov 1 [(24, 11), (36, 20)] (fun u => [rangeCause u c.val t.val [(mAddr u c.val t.val w, mSize w, mSize w)]])
    (movStore c.val t.val w) c t w s)

def execMovLdi (c : CoreId) (t : ThreadId) (w : InstrWord) (s : State) : Host.Outcome State Fault Refusal :=
  .next (issueMov 2 [(24, 5), (64, 64)] (fun _ => []) (setS c.val t.val (mSreg w) (iF w 64 64)) c t w s)

def execMovMvas (c : CoreId) (t : ThreadId) (w : InstrWord) (s : State) : Host.Outcome State Fault Refusal :=
  .next (issueMov 3 [(24, 9)] (fun _ => []) (fun u => setS c.val t.val (mSreg w) (aReg u c.val t.val (mAreg w)) u) c t w s)

def execMovMvsa (c : CoreId) (t : ThreadId) (w : InstrWord) (s : State) : Host.Outcome State Fault Refusal :=
  .next (issueMov 4 [(24, 9)] (fun _ => []) (fun u => setA c.val t.val (mAreg w) (sReg u c.val t.val (mSreg w)) u) c t w s)

/-- The checks of a CSR access: within the core's window, word-aligned; a custom thread reaches only its own CORE_RNG
registers (R173). -/
def csrCause (s : State) (c t : Nat) (w : InstrWord) : List Nat :=
  let o := mOff w
  let own := 0x1000 + t * 0x40
  [causeIf (decide (0x20000 ≤ o)) 2, causeIf (o % 4 != 0) 3,
   causeIf (isCustom s c t && !(decide (own + 0x18 ≤ o) && decide (o < own + 0x30))) 7]

def execMovRdcsr (c : CoreId) (t : ThreadId) (w : InstrWord) (s : State) : Host.Outcome State Fault Refusal :=
  .next (issueMov 5 [(24, 5), (36, 20)] (fun u => csrCause u c.val t.val w)
    (fun u => setS c.val t.val (mSreg w) (readReg u (coreWindow c.val + mOff w)) u) c t w s)

/-- WRCSR: the RW fields of the register take s[SREG]; a reserved encoding leaves it and is counted as a refused write
(R17). RUN_LOCK stops host writes only (R176). -/
def csrWrite (off v : Nat) (s : State) : State :=
  match regInfo off with
  | none => refuseWrite s
  | some r => if r.rw = 0 || !regOk off (v &&& r.rw) then refuseWrite s else setReg off (v &&& r.rw) s

def execMovWrcsr (c : CoreId) (t : ThreadId) (w : InstrWord) (s : State) : Host.Outcome State Fault Refusal :=
  .next (issueMov 6 [(24, 5), (36, 20)] (fun u => csrCause u c.val t.val w)
    (fun u => csrWrite (coreWindow c.val + mOff w) (sReg u c.val t.val (mSreg w) % 2 ^ 32) u) c t w s)

/-- COPY: LEN bytes; one that takes more than 32 cycles holds the thread until MOV_COMPLETE (R169). -/
def movCopy (c t : Nat) (w : InstrWord) (s : State) : State :=
  let a := mAddr s c t w
  let n := mLen w
  let b := mAddr2 s c t w
  let poison := anyPoison s (scratchAddr c a) n
  let s := unitStore c b poison (scrBytes s c a n) (movPoison c a n s)
  if 32 < 8 + ceilDiv n 64 then modThread c t (fun T => { T with wait := .mov }) s else s

def execMovCopy (c : CoreId) (t : ThreadId) (w : InstrWord) (s : State) : Host.Outcome State Fault Refusal :=
  .next (issueMov 7 [(29, 4), (36, 56)] (fun u => [causeIf (mLen w == 0) 2,
    rangeCause u c.val t.val [(mAddr u c.val t.val w, mLen w, 1), (mAddr2 u c.val t.val w, mLen w, 1)]])
    (movCopy c.val t.val w) c t w s)

/-- MOV_COMPLETE (R169): the thread's MOV has finished; it is ready again. -/
def execMovComplete (c : CoreId) (t : ThreadId) (s : State) : Host.Outcome State Fault Refusal :=
  .next (if (thread s c.val t.val).wait == .mov then modThread c.val t.val (fun T => { T with wait := .none }) s else s)

end Sys2Proof.Machine
end

