-- ==== Sys2Proof/Machine/LogDomain.lean ====
section
/-! DEFINITION. The log-domain unit (R115 to R118): values as log2 |x| with 16 fraction bits, the log-addition, softmax, and the
operations that R118 bounds without stating their results. -/

namespace Sys2Proof.Machine

open Sys2Proof

/-! ### Correctly rounded references -/

/-- ln m in units of 2^-256, for `m` of `l + 1` bits, and below it the part of the exponent `k`: the logarithm of m * 2^e with
k = l + e. -/
def fxLog (m : Nat) (e : Int) : Int :=
  let l := Nat.log2 m
  let z := (m - 2 ^ l) * fxOne / (m + 2 ^ l)
  2 * (atanhAux (z * z / fxOne) 110 1 z : Nat) + ((l : Int) + e) * (fxLn2 : Int)

/-- log2 of m * 2^e in units of 2^-256. -/
def fxLog2 (m : Nat) (e : Int) : Int :=
  let l := Nat.log2 m
  let z := (m - 2 ^ l) * fxOne / (m + 2 ^ l)
  (2 * atanhAux (z * z / fxOne) 110 1 z * fxOne / fxLn2 : Nat) + ((l : Int) + e) * (fxOne : Int)

/-- 2 to the power `x * 2^-256` as an FP32 magnitude, rounded to nearest even. -/
def exp2Fx (x : Int) : Word :=
  let k : Int := x / (fxOne : Int)
  let r : Nat := (x - k * (fxOne : Int)).toNat
  if r = 0 then round32 (.fin false 1 k)
  else round32 (.fin false (2 * expAux (r * fxLn2 / fxOne) 80 1 fxOne + 1) (k - 257))

/-- A finite value as an integer in units of 2^-256, lower bits dropped. -/
def fxOf : Val → Int
  | .fin s m e =>
    let n : Int := if 0 ≤ 256 + e then (m * 2 ^ (256 + e).toNat : Nat) else (m / 2 ^ (-(256 + e)).toNat : Nat)
    if s then -n else n
  | _ => 0

def exp2Val32 : Val → Word
  | .nan => nan32
  | .inf s => if s then 0#32 else BitVec.ofNat 32 (infCode fmtFP32 false)
  | .fin s m e =>
    if magLt 256 0 m e then (if s then 0#32 else BitVec.ofNat 32 (infCode fmtFP32 false)) else exp2Fx (fxOf (.fin s m e))

def log2Val32 : Val → Word
  | .nan => nan32
  | .inf s => if s then nan32 else BitVec.ofNat 32 (infCode fmtFP32 false)
  | .fin s m e =>
    if m = 0 then BitVec.ofNat 32 (infCode fmtFP32 true)
    else if s then nan32
    else if m = 2 ^ Nat.log2 m then round32 (vOfInt ((Nat.log2 m : Int) + e) 0 false)
    else round32 (vOfInt (2 * fxLog2 m e + 1) (-257) false)

/-- 1 / sqrt x: the square root of 2^k / m for an even exponent left over, with a sticky bit. -/
def rsqVal32 : Val → Word
  | .nan => nan32
  | .inf s => if s then nan32 else 0#32
  | .fin s m e =>
    if m = 0 then BitVec.ofNat 32 (infCode fmtFP32 s)
    else if s then nan32
    else
      let e2 := if e % 2 = 0 then e else e - 1
      let m2 := if e % 2 = 0 then m else 2 * m
      let q := 2 ^ 256 / m2
      let r := isqrt q
      let x := 2 * r + (if r * r = q && q * m2 = 2 ^ 256 then 0 else 1)
      round32 (.fin false x (-(e2 / 2) - 129))

/-- The correctly rounded result of an operation: 8 EXP, 9 EXP2, 10 LOG, 11 LOG2, 12 RCP, 13 RSQ, 14 DIV, 15 LADD. -/
def logRef (op : Nat) (a b : Val) : Word :=
  if op = 8 then expVal32 a
  else if op = 9 then exp2Val32 a
  else if op = 0x0A then logVal32 a
  else if op = 0x0B then log2Val32 a
  else if op = 0x0C then divVal32 (.fin false 1 0) a
  else if op = 0x0D then rsqVal32 a
  else if op = 0x0E then divVal32 a b
  else round32 (vAdd a b)

/-! ### Bounds (R118) -/

/-- The distance of R118's bound, less half a last place of the reference: absolute 2^-16 for the logarithms, relative 2^-15 for
exp, exp2 and division, 2^-16 for the reciprocals, 2^-14 for a log-addition. -/
def logTol (op : Nat) (ref : Val) : Val :=
  if op = 0x0A ∨ op = 0x0B then .fin false 1 (-17)
  else
    let k := if op = 0x0C ∨ op = 0x0D then 16 else if op = 0x0F then 14 else 15
    vMul (.fin false (2 ^ (23 - k) - 1) (-23)) (vAbs ref)

/-- The result of an operation that R118 bounds (DESIGN CHOICE, log 119): Config's where it lies within the bound of the correctly
rounded result, else that result; where the exact result is no finite non-zero FP32 value, the manual states none: Config's. -/
def bounded (op : Nat) (a b : Word) : Word :=
  let r := logRef op (dec32 a) (dec32 b)
  let x := Config.logDomain op a b
  if !vFinite (dec32 r) || (vIsZero (dec32 r) && op != 0x0A && op != 0x0B && op != 0x0F) then x
  else if vFinite (dec32 x) && !vLt (logTol op (dec32 r)) (vAbs (vSub (dec32 x) (dec32 r))) then x
  else r

/-! ### Values and conversions (R115) -/

/-- L is a 25-bit two's-complement number. -/
def clampLog (l : Int) : Int := max (-(2 ^ 24 : Int)) (min (2 ^ 24 - 1) l)

/-- L = log2 |x| with 16 fraction bits of a finite non-zero FP32 value: exact for a power of two, else one of the two neighbours of
the exact logarithm, which one the manual leaves open (DESIGN CHOICE, log 119). -/
def toLog (x : Word) : Int :=
  match dec32 x with
  | .fin _ m e =>
    if m = 2 ^ Nat.log2 m then ((Nat.log2 m : Int) + e) * 65536
    else fxLog2 m e / (2 ^ 240 : Int) + (if Config.logUp x then 1 else 0)
  | _ => 0

/-- 2^L with a sign, rounded to nearest even into FP32 (DEDUCED from R118's derivation, log 119). -/
def fromLog (neg : Bool) (l : Int) : Word :=
  let r := exp2Fx (l * 2 ^ 240)
  if neg then neg32 r else r

/-- The log-domain value of e^x, x an FP32 value: x log2 e with 16 fraction bits, in the range of L. -/
def expLog (x : Word) : Int :=
  clampLog (match dec32 x with
    | .fin s m e =>
      if m = 0 then 0
      else fxOf (.fin s m e) * (fxOne : Int) / (fxLn2 : Int) / (2 ^ 240 : Int) + (if Config.expUp x then 1 else 0)
    | .inf s => if s then -(2 ^ 24 : Int) else 2 ^ 24 - 1
    | .nan => 0)

/-! ### Log-addition (R116) -/

/-- Rounded to the nearest integer, ties to even: `n / d`, `d` positive. -/
def rneInt (n : Int) (d : Nat) : Int :=
  if 0 ≤ n then (rneDiv n.toNat d : Nat) else -((rneDiv (-n).toNat d : Nat) : Int)

/-- Entry `i` of the table of R116: log2(1 + 2^(-i/64)) with 16 fraction bits. -/
def logEntry (i : Nat) : Int :=
  let y := expAux (fxLn2 - i % 64 * fxLn2 / 64) 80 1 fxOne / 2 / 2 ^ (i / 64)
  let z := y * fxOne / (2 * fxOne + y)
  let ln := 2 * atanhAux (z * z / fxOne) 110 1 z
  (rneDiv (ln * 65536) fxLn2 : Nat)

/-- f of R116 at a distance of `d` units of 2^-16: linear between entries 1/64 apart, the increment rounded to nearest with ties to
even (DESIGN CHOICE, log 120: the manual names no rounding of the interpolated result); 0 from 16 on. The last interval has no
upper entry in the table: a free value between 0 and its lower entry. -/
def logF (d : Nat) : Int :=
  if 16 * 65536 ≤ d then 0
  else if 1023 * 1024 < d then max 0 (min (logEntry 1023) (Config.logAddTable d))
  else
    let i := d / 1024
    logEntry i + rneInt ((logEntry (i + 1) - logEntry i) * ((d % 1024 : Nat) : Int)) 1024

/-- A log-addition of two terms (R116). -/
def logAdd (a b : Int) : Int := clampLog (max a b + logF (a - b).natAbs)
def logAddO : Option Int → Option Int → Option Int
  | some a, some b => some (logAdd a b)
  | some a, none => some a
  | none, b => b

/-- LADD (R116): through the log domain; operands of opposite sign, whose rule the manual leaves to the operation, are held to R118's
bound alone; non-finite ones give the IEEE 754 result of the sum (R115). -/
def ladd32 (a b : Word) : Word :=
  let x := dec32 a
  let y := dec32 b
  if !vFinite x || !vFinite y then round32 (vAdd x y)
  else if vIsZero x && vIsZero y then round32 (vAdd x y)
  else if vIsZero x then fromLog (vSign y) (toLog b)
  else if vIsZero y then fromLog (vSign x) (toLog a)
  else if vSign x == vSign y then fromLog (vSign x) (logAdd (toLog a) (toLog b))
  else bounded 0x0F a b

/-- The log-domain functions of one operand: non-finite inputs give the IEEE 754 results (R115). -/
def logFn (op : Nat) (a : Word) : Word :=
  match dec32 a with
  | .nan => nan32
  | .inf neg =>
    if op = 8 ∨ op = 9 then (if neg then 0#32 else BitVec.ofNat 32 (infCode fmtFP32 false))
    else if op = 0x0C then BitVec.ofNat 32 (zeroCode fmtFP32 neg)
    else if op = 0x0D then (if neg then nan32 else 0#32)
    else if neg then nan32 else BitVec.ofNat 32 (infCode fmtFP32 false)
  | .fin _ _ _ => bounded op a 0#32

def logDiv (a b : Word) : Word :=
  if vFinite (dec32 a) && vFinite (dec32 b) then bounded 0x0E a b else div32 a b

end Sys2Proof.Machine
end

