-- ==== Sys2Proof/Machine/Vec.lean ====
section
/-! DEFINITION. The vector and log-domain unit (R163, R164, R105, R112, R115 to R118): operand checks shared with the
exact unit, the operations, and completion. -/

namespace Sys2Proof.Machine

open Sys2Proof

/-! ### Fields and checks (R163) -/

def vCount (w : InstrWord) : Nat := iF w 96 19
def vOutd (w : InstrWord) : Bool := bitN w.toNat 115
def vFmtA (w : InstrWord) : Nat := iF w 116 4
def vFmtB (w : InstrWord) : Nat := iF w 120 4
def vFmtD (w : InstrWord) : Nat := iF w 124 4

/-- What an operation does with its operands: B present or holding INT32, W42 operands, D read; elements of A, B and D; rows of D
and their length as the converter gets them. -/
structure VecShape where
  hasB : Bool
  intB : Bool
  w42 : Bool
  mxA : Bool
  readsD : Bool
  nA : Nat
  nB : Nat
  nD : Nat
  dRows : Nat
  dLen : Nat
  deriving DecidableEq, Repr

/-- Two operands of `n` elements, one row out. -/
def shapeTwo (n : Nat) : VecShape :=
  { hasB := true, intB := false, w42 := false, mxA := false, readsD := false, nA := n, nB := n, nD := n, dRows := 1, dLen := n }
def shapeOne (n : Nat) : VecShape := { shapeTwo n with hasB := false, nB := 0 }
/-- `m` rows of `k` elements out. -/
def outRows (m k : Nat) (x : VecShape) : VecShape := { x with nD := m * k, dRows := m, dLen := k }

/-- The shape of a VEC operation for COUNT `n` and s28 `r`. -/
def vecShape (op n r : Nat) : VecShape :=
  if op = 2 then { shapeTwo n with readsD := true }
  else if op ≤ 4 ∨ op = 0x0E ∨ op = 0x0F then shapeTwo n
  else if op = 5 then { shapeOne n with mxA := true }
  else if op = 6 then { shapeTwo n with w42 := true }
  else if op = 0x10 then outRows n r (shapeOne (n * r))
  else if op = 0x11 ∨ op = 0x12 then outRows 1 n (shapeOne (n * r))
  else shapeOne n

/-- The shape of an XU operation for COUNT `n`, s28 `r` and s29 `q` (R171). The table of ROPE is one head wide (DESIGN CHOICE, log
118); the rows of A in a GATHER and of D in a SCAT follow the indices. -/
def xuShape (op n r q : Nat) : VecShape :=
  if op = 2 then { shapeTwo n with readsD := true }
  else if op ≤ 1 then shapeTwo n
  else if op = 3 then { shapeOne n with mxA := true }
  else if op = 4 then outRows (n / q) q { shapeTwo n with nA := n / q * r, nB := r * q }
  else if op = 5 then outRows n r { shapeTwo n with intB := true, nA := 0 }
  else if op = 6 then outRows 0 r { shapeTwo n with intB := true, nA := n * r }
  else if op = 7 then { shapeTwo n with nB := r }
  else if op = 8 then { shapeTwo n with intB := true, nA := n * r }
  else if op = 9 then outRows n r { shapeTwo n with intB := true, nA := n * r }
  else outRows n 2 (shapeOne (n * r))

/-- A format code permitted for an input operand (R163). -/
def inFmtOk (mx : Bool) (code : Nat) : Bool :=
  match fmtOfCode code with
  | some f => decide (1 ≤ code ∧ code ≤ 5) || code == 12 || (mx && isMx f)
  | none => false
/-- A format code permitted for a plain destination. -/
def dFmtOk (code : Nat) : Bool := decide (1 ≤ code) && decide (code ≤ 3)

def opBytes (code n : Nat) : Nat :=
  match fmtOfCode code with
  | some f => elemBytes f n
  | none => 4 * n

/-- Bytes of operands A and B. -/
def bytesA (sh : VecShape) (w : InstrWord) : Nat := if sh.w42 then 8 * sh.nA else opBytes (vFmtA w) sh.nA
def bytesB (sh : VecShape) (w : InstrWord) : Nat :=
  if !sh.hasB then 0 else if sh.w42 then 8 * sh.nB else if sh.intB then 4 * sh.nB else opBytes (vFmtB w) sh.nB

/-- The checks of a VEC or XU instruction; `rows` are the places of rows that indices select. -/
def vecCause (shape : VecShape) (rows : List (Nat × Nat × Nat)) (c t : Nat) (w : InstrWord) (s : State) : Nat :=
  let a := opAddr s c t (iF w 24 4) (iF w 28 20)
  let b := opAddr s c t (iF w 48 4) (iF w 52 20)
  let d := opAddr s c t (iF w 72 4) (iF w 76 20)
  let outd := vOutd w
  leastCause [
    causeIf (!onlyBits w [(24, 104)] || vCount w == 0 ||
      (!shape.hasB && (iF w 48 4 != 0 || iF w 52 20 != 0 || vFmtB w != 0))) 2,
    rangeCause s c t (
      [(a, bytesA shape w, 1)] ++ (if shape.hasB then [(b, bytesB shape w, 1)] else []) ++ rows ++
      [if outd then (d, 32, 32) else (d, if shape.w42 then 8 * shape.nD else opBytes (vFmtD w) shape.nD, 1)]),
    cntCause s c t w,
    causeIf ((if shape.w42 then vFmtA w != 0 || vFmtB w != 0 else
        !inFmtOk shape.mxA (vFmtA w) || (shape.hasB && (if shape.intB then vFmtB w != 0 else !inFmtOk false (vFmtB w)))) ||
      (if outd || shape.w42 then vFmtD w != 0 else !dFmtOk (vFmtD w))) 8,
    if outd then outCause s c t d shape.dRows shape.dLen else 0]

/-- The layers whose tiles the present mode samples, and N (R147). -/
def sampledLayer (s : State) (layer : Nat) : Bool :=
  let m := cap s 0x6000 % 4
  if m = 1 then
    match s.pkg.bind fun p => p.layers[layer]? with
    | some y => layerSteered s layer y
    | none => false
  else m == 2 && decide (bitsN (cap s 0x601C) 0 14 ≤ layer) && decide (layer ≤ bitsN (cap s 0x601C) 16 14)
def sampleN (s : State) : Nat := if cap s 0x6000 % 4 = 1 then 2 ^ bitsN (cap s 0x6000) 16 4 else 1

/-- The comparison that a W42ADD makes in the running step (R148): output tile i of a sampled layer's product where
i mod N = n mod N, and not in a repeat, whose statistics stay those of the first attempt (R142). -/
def sampleAt (s : State) (c pc : Nat) : Option (Nat × Nat) :=
  match s.plan.bind fun p => Config.agreeAt p.inputRec p.pos c pc with
  | some (t, i, tag) =>
    let layer := ((planTensor s t).map (·.steerLayer)).getD 0xFFFF
    if sampledLayer s layer && i % sampleN s == s.run.step % sampleN s && !(ovfOf s c tag).again then some (t, tag) else none
  | none => none

/-- The instance tag that a unit's output descriptor names; 0xFFFF without one. -/
def outTag (s : State) (c d : Nat) (w : InstrWord) : Nat := if vOutd w then (readOut s c d).inst else 0xFFFF

/-- The tokens of an XENT (R204). -/
def lossTokens (s : State) (c tag : Nat) : Nat × Nat :=
  match s.plan with
  | some p => Config.lossAt p.inputRec p.pos c tag (ovfOf s c tag).xents
  | none => (0, 0)

/-- What issue reads for a unit's queue (R159, R163): the exponents of its operands' tensors, and the plan's part in it. -/
def unitOp (s : State) (c t : Nat) (w : InstrWord) : UnitOp :=
  let pc := (thread s c t).pc
  let d := opAddr s c t (iF w 72 4) (iF w 76 20)
  { thread := t, w := w.toNat, addrA := opAddr s c t (iF w 24 4) (iF w 28 20),
    addrB := opAddr s c t (iF w 48 4) (iF w 52 20), addrD := d,
    s28 := sReg s c t 28, s29 := sReg s c t 29,
    rngKey := [0x20, 0x24, 0x28, 0x2C].flatMap fun o => leBytes 4 (reg s (thrReg c t o)),
    rngCtr := reg s (thrReg c t 0x18) + reg s (thrReg c t 0x1C) * 2 ^ 32,
    texpA := operandTexp s c pc 0, texpB := operandTexp s c pc 1,
    agree := sampleAt s c pc, loss := lossTokens s c (outTag s c d w) }

/-- Issue of a VEC operation into the vector unit's queue of 16. -/
def issueVec (op : Nat) (c : CoreId) (t : ThreadId) (w : InstrWord) (s : State) : State :=
  let o := unitOp s c.val t.val w
  issue c.val t.val w 2 op (vecCause (vecShape op (vCount w) o.s28) [] c.val t.val w)
    (fun u => decide (16 ≤ (core u c.val).vec.length))
    (fun u => asyncBegin c.val t.val (modCore c.val (fun C => { C with vec := C.vec ++ [o] }) u)) s

def execVecAdd (c : CoreId) (t : ThreadId) (w : InstrWord) (s : State) : Host.Outcome State Fault Refusal :=
  .next (issueVec 0 c t w s)
def execVecMul (c : CoreId) (t : ThreadId) (w : InstrWord) (s : State) : Host.Outcome State Fault Refusal :=
  .next (issueVec 1 c t w s)
def execVecFma (c : CoreId) (t : ThreadId) (w : InstrWord) (s : State) : Host.Outcome State Fault Refusal :=
  .next (issueVec 2 c t w s)
def execVecMax (c : CoreId) (t : ThreadId) (w : InstrWord) (s : State) : Host.Outcome State Fault Refusal :=
  .next (issueVec 3 c t w s)
def execVecMin (c : CoreId) (t : ThreadId) (w : InstrWord) (s : State) : Host.Outcome State Fault Refusal :=
  .next (issueVec 4 c t w s)
def execVecCvt (c : CoreId) (t : ThreadId) (w : InstrWord) (s : State) : Host.Outcome State Fault Refusal :=
  .next (issueVec 5 c t w s)
def execW42add (c : CoreId) (t : ThreadId) (w : InstrWord) (s : State) : Host.Outcome State Fault Refusal :=
  .next (issueVec 6 c t w s)
def execDrop (c : CoreId) (t : ThreadId) (w : InstrWord) (s : State) : Host.Outcome State Fault Refusal :=
  .next (issueVec 7 c t w s)
def execExp (c : CoreId) (t : ThreadId) (w : InstrWord) (s : State) : Host.Outcome State Fault Refusal :=
  .next (issueVec 8 c t w s)
def execExp2 (c : CoreId) (t : ThreadId) (w : InstrWord) (s : State) : Host.Outcome State Fault Refusal :=
  .next (issueVec 9 c t w s)
def execLog (c : CoreId) (t : ThreadId) (w : InstrWord) (s : State) : Host.Outcome State Fault Refusal :=
  .next (issueVec 0x0A c t w s)
def execLog2 (c : CoreId) (t : ThreadId) (w : InstrWord) (s : State) : Host.Outcome State Fault Refusal :=
  .next (issueVec 0x0B c t w s)
def execRcp (c : CoreId) (t : ThreadId) (w : InstrWord) (s : State) : Host.Outcome State Fault Refusal :=
  .next (issueVec 0x0C c t w s)
def execRsq (c : CoreId) (t : ThreadId) (w : InstrWord) (s : State) : Host.Outcome State Fault Refusal :=
  .next (issueVec 0x0D c t w s)
def execDiv (c : CoreId) (t : ThreadId) (w : InstrWord) (s : State) : Host.Outcome State Fault Refusal :=
  .next (issueVec 0x0E c t w s)
def execLadd (c : CoreId) (t : ThreadId) (w : InstrWord) (s : State) : Host.Outcome State Fault Refusal :=
  .next (issueVec 0x0F c t w s)
def execSmax (c : CoreId) (t : ThreadId) (w : InstrWord) (s : State) : Host.Outcome State Fault Refusal :=
  .next (issueVec 0x10 c t w s)
def execRsum (c : CoreId) (t : ThreadId) (w : InstrWord) (s : State) : Host.Outcome State Fault Refusal :=
  .next (issueVec 0x11 c t w s)
def execRmax (c : CoreId) (t : ThreadId) (w : InstrWord) (s : State) : Host.Outcome State Fault Refusal :=
  .next (issueVec 0x12 c t w s)

/-! ### Arithmetic on FP32 words -/

/-- A value on its way into the unit: FP32, exact but for an integer of a large exponent. -/
def toWord (v : Val) : Word := round32 v

/-- max and min; operands that are NaN, and zeros of opposite sign, are left to Config (R163 states no case). -/
def max32 (a b : Val) : Word :=
  if vIsNan a || vIsNan b || (vIsZero a && vIsZero b && vSign a != vSign b) then Config.maxCorner (round32 a) (round32 b)
  else if vLt a b then round32 b else round32 a
def min32 (a b : Val) : Word :=
  if vIsNan a || vIsNan b || (vIsZero a && vIsZero b && vSign a != vSign b) then Config.minCorner (round32 a) (round32 b)
  else if vLt b a then round32 b else round32 a

/-- One level of the tree of R105: lane 2i receives lane 2i + 1. A lane that holds no element contributes nothing, so a lone lane
passes through as it is (DESIGN CHOICE, log 122: the manual does not say what lanes beyond a short row hold). -/
def treeLevel {α : Type} (f : α → α → α) : List α → List α
  | a :: b :: rest => f a b :: treeLevel f rest
  | l => l

/-- The tree of R105 over the lanes that hold an element. -/
def treeFold {α : Type} (f : α → α → α) (z : α) : Nat → List α → α
  | 0, l => l.headD z
  | n + 1, l => treeFold f z n (treeLevel f l)

/-- A row over a unit of `lanes` lanes taken register by register, the results in ascending order (R105). -/
def regFold (f : Word → Word → Word) (lanes : Nat) (l : List Word) : Word :=
  match (chunks lanes (l.length / lanes + 1) l).map (treeFold f 0#32 10) with
  | [] => 0#32
  | x :: rest => rest.foldl f x

/-- The larger of two FP32 values in a reduction. -/
def maxOf (a b : Word) : Word := max32 (dec32 a) (dec32 b)

/-- Softmax of one row (R117). -/
def softmaxRow (xs : List Word) : List Word :=
  let inf := BitVec.ofNat 32 (infCode fmtFP32 false)
  let ninf := BitVec.ofNat 32 (infCode fmtFP32 true)
  if xs.any (fun x => vIsNan (dec32 x) || x == inf) || xs.all (· == ninf) then xs.map fun _ => nan32
  else
    let m := regFold maxOf 512 xs
    let ls := xs.map fun x => if x == ninf then none else some (expLog (sub32 x m))
    let groups := (chunks 32 (xs.length / 32 + 1) ls).map (treeFold logAddO none 5)
    let sums := groups.map fun g => match g with
      | some l => fromLog false l
      | none => 0#32
    let S := match sums with
      | [] => 0#32
      | x :: rest => rest.foldl add32 x
    ls.map fun o => match o with
      | some l => fromLog false (clampLog (l - toLog S))
      | none => 0#32

/-! ### Destinations -/

/-- A result list written at D: rows through the output descriptor when OUTD is set, else packed in FMT_D. No descriptor then names
an OVF_MODE: FP32 takes mode 1, BF16 and FP16 mode 0 (DESIGN CHOICE, log 23). -/
def writeD (c point : Nat) (o : UnitOp) (rows : List (List Val)) (bad poison : Bool) (s : State) : State :=
  let w := BitVec.ofNat 128 o.w
  if vOutd w then convertOut c point (readOut s c o.addrD) rows bad poison s
  else match fmtOfCode (vFmtD w) with
    | some f => unitStore c o.addrD poison
        (packCodes (fmtWidth f) (rows.flatten.map fun v => (encPlain f 0 (f == .fp32) v).1)) s
    | none => unitStore c o.addrD poison (rows.flatten.flatMap fun v => w42Bytes (enc42 v)) s

/-- The `n` values that an output descriptor's first row holds. -/
def readOutRow (s : State) (c : Nat) (d : OutDesc) (n : Nat) : List Val :=
  if d.pass then (w42Codes s c d.dest n).map dec42
  else match fmtOfCode d.fmt with
    | some f =>
      if isMx f then
        (unpackCodes (fmtWidth f) n (scrBytes s c d.dest (ceilDiv n 32 * (4 * fmtWidth f)))).zipIdx.map fun x =>
          mxVal f (memByte s (scratchAddr c (d.dscale + x.2 / 32))).toNat x.1
      else elemVals s c f d.texp d.dest n
    | none => []

/-- The present values of D for an operation that reads it: through the output descriptor when OUTD is set. -/
def readD (s : State) (c : Nat) (o : UnitOp) (n : Nat) : List Val :=
  let w := BitVec.ofNat 128 o.w
  if vOutd w then readOutRow s c (readOut s c o.addrD) n
  else match fmtOfCode (vFmtD w) with
    | some f => elemVals s c f 0 o.addrD n
    | none => []

/-- The values of an operand; `texp` is the exponent of its tensor (R44). -/
def unitVals (s : State) (c : Nat) (texp : Int) (code addr n : Nat) : List Val :=
  match fmtOfCode code with
  | some f => elemVals s c f texp addr n
  | none => []
def valsA (s : State) (c : Nat) (o : UnitOp) (sh : VecShape) : List Val :=
  unitVals s c o.texpA (vFmtA (BitVec.ofNat 128 o.w)) o.addrA sh.nA
def valsB (s : State) (c : Nat) (o : UnitOp) (sh : VecShape) : List Val :=
  if sh.hasB && !sh.intB then unitVals s c o.texpB (vFmtB (BitVec.ofNat 128 o.w)) o.addrB sh.nB else []

def rowsOf32 (r : Nat) (l : List Val) : List (List Val) := chunks r l.length l

/-- The rows that a VEC operation writes. -/
def vecRows (s : State) (c : Nat) (o : UnitOp) : List (List Val) :=
  let w := BitVec.ofNat 128 o.w
  let op := iOp w
  let n := vCount w
  let sh := vecShape op n o.s28
  if op = 6 then
    [((w42Codes s c o.addrA n).zip (w42Codes s c o.addrB n)).map fun p => dec42 (w42Add p.1 p.2)]
  else
    let a := valsA s c o sh
    let b := valsB s c o sh
    let zip2 := fun (f : Val → Val → Word) => [(a.zip b).map fun p => dec32 (f p.1 p.2)]
    let each := fun (f : Word → Word) => [a.map fun v => dec32 (f (toWord v))]
    if op = 0 then zip2 fun x y => round32 (vAdd x y)
    else if op = 1 then zip2 fun x y => round32 (vMul x y)
    else if op = 2 then
      [((a.zip b).zip (readD s c o n)).map fun p => dec32 (round32 (vAdd (vMul p.1.1 p.1.2) p.2))]
    else if op = 3 then zip2 max32
    else if op = 4 then zip2 min32
    else if op = 5 then [a]
    else if op = 7 then
      let k := BitVec.ofNat 32 o.s29
      [a.zipIdx.map fun x =>
        if o.s28 % 2 ^ 16 ≤ rngSlice (rngWord o.rngKey (o.rngCtr + x.2 / 8)) x.2 then dec32 (round32 (vMul x.1 (dec32 k)))
        else vZero false]
    else if op ≤ 0x0D then each (logFn op)
    else if op = 0x0E then zip2 fun x y => logDiv (toWord x) (toWord y)
    else if op = 0x0F then zip2 fun x y => ladd32 (toWord x) (toWord y)
    else
      let rows := (rowsOf32 o.s28 a).map fun r => r.map toWord
      if op = 0x10 then rows.map fun r => (softmaxRow r).map dec32
      else if op = 0x11 then [rows.map fun r => dec32 (regFold add32 512 r)]
      else [rows.map fun r => dec32 (regFold maxOf 512 r)]

/-- An operand element was not finite, the third operand of an FMA included (R141). -/
def unitBad (s : State) (c : Nat) (o : UnitOp) (sh : VecShape) : Bool :=
  if sh.w42 then (w42Codes s c o.addrA sh.nA ++ w42Codes s c o.addrB sh.nB).any fun x => !vFinite (dec42 x)
  else (valsA s c o sh ++ valsB s c o sh ++ if sh.readsD then readD s c o sh.nD else []).any fun v => !vFinite v

/-- Where an operation's D lies as a whole: offset, bytes. -/
def placeD (s : State) (c : Nat) (o : UnitOp) (sh : VecShape) : List (Nat × Nat × Nat) :=
  let w := BitVec.ofNat 128 o.w
  if vOutd w then outPlanes (readOut s c o.addrD) sh.dRows sh.dLen
  else [(o.addrD, if sh.w42 then 8 * sh.nD else opBytes (vFmtD w) sh.nD, 1)]

/-- An operand was poison. -/
def unitPoisoned (s : State) (c : Nat) (o : UnitOp) (sh : VecShape) : Bool :=
  let w := BitVec.ofNat 128 o.w
  anyPoison s (scratchAddr c o.addrA) (bytesA sh w) || (sh.hasB && anyPoison s (scratchAddr c o.addrB) (bytesB sh w)) ||
    (sh.readsD && (placeD s c o sh).any fun x => anyPoison s (scratchAddr c x.1) x.2.1)

/-- Lane-cycles per element (R163). -/
def vecL (op : Nat) : Nat :=
  if 8 ≤ op ∧ op ≤ 0x0D then 4 else if op = 0x0E then 6 else if op = 0x0F then 2 else if op = 0x10 then 8 else 1

/-- Bytes that an operation writes, and reads at its D. -/
def bytesD (s : State) (c : Nat) (o : UnitOp) (sh : VecShape) (n : Nat) : Nat :=
  let w := BitVec.ofNat 128 o.w
  if sh.w42 then 8 * n
  else if vOutd w then
    let d := readOut s c o.addrD
    if d.pass then 8 * n else opBytes d.fmt n
  else opBytes (vFmtD w) n

/-- A sampled comparison (R149): A holds y and B y_ref; the collector takes d² and y_ref², each squared in FP32. -/
def agreeCollect (s : State) (c : Nat) (o : UnitOp) (tensor : Nat) (st : State) : State :=
  let n := vCount (BitVec.ofNat 128 o.w)
  let pairs := (w42Codes s c o.addrA n).zip (w42Codes s c o.addrB n)
  collect (c * 6 + 4) tensor (fun r =>
    let r1 := pairs.foldl (fun (q : StatRec) p =>
      let d := fp32Of42 (enc42 (vSub (dec42 p.1) (dec42 p.2)))
      let y := fp32Of42 p.2
      { q with agreeDiff := w42AddVal (dec42 q.agreeDiff) (dec32 (mul32 d d)),
               agreeRef := w42AddVal (dec42 q.agreeRef) (dec32 (mul32 y y)) }) r
    { r1 with agreeTiles := r1.agreeTiles + 1, agreeRung := bitsN (cap s 0x6000) 8 8, flags := r1.flags ||| 8 }) st

/-- The rows of a sampled comparison: d = w42_add(y, −y_ref). -/
def agreeRows (s : State) (c : Nat) (o : UnitOp) : List (List Val) :=
  let n := vCount (BitVec.ofNat 128 o.w)
  [((w42Codes s c o.addrA n).zip (w42Codes s c o.addrB n)).map fun p => dec42 (w42AddVal (dec42 p.1) (vNeg (dec42 p.2)))]

/-- VEC_COMPLETE (R164): the oldest queued VEC instruction completes. -/
def vecComplete (c : Nat) (s : State) : State :=
  match (core s c).vec with
  | [] => s
  | o :: rest =>
    if gated s c 5 then s else
    let w := BitVec.ofNat 128 o.w
    let op := iOp w
    let sh := vecShape op (vCount w) o.s28
    let poison := unitPoisoned s c o sh
    let rows : List (List Val) := match o.agree with
      | some _ => if op = 6 then agreeRows s c o else vecRows s c o
      | none => vecRows s c o
    let busy := occupancy (sh.nA * vecL op) 512 (bytesA sh w + bytesB sh w + if sh.readsD then bytesD s c o sh sh.nD else 0) 1024
      (bytesD s c o sh sh.nD) 512
    let s1 := writeD c 4 o rows (unitBad s c o sh) poison s
    let s2 := match o.agree with
      | some t => if op = 6 then agreeCollect s c o t.1 s1 else s1
      | none => s1
    let s3 := if poison then corePoison c 5 (scratchAddr c o.addrA) s2 else s2
    let s4 := bump (cntCore c 21) busy (modCore c (fun C => { C with vec := rest }) s3)
    asyncDone c o.thread (iCntEn w) (iCnt w) s4

def execVecComplete (c : CoreId) (s : State) : Host.Outcome State Fault Refusal := .next (vecComplete c.val s)

end Sys2Proof.Machine
end

