-- ==== Sys2Proof/Machine/Xu.lean ====
section
/-! DEFINITION. The exact unit (R171): plain FP32, each operation rounded once, sums in a fixed order. -/

namespace Sys2Proof.Machine

open Sys2Proof

/-- The row of A that an index of GATHER selects, by the row's bytes: offset, bytes. An index outside the scratch gives no place in
it. -/
def indexRow (base bytes : Nat) (i : Int) : Nat × Nat × Nat :=
  if i < 0 then (0x100000, bytes, 1) else (base + i.toNat * bytes, bytes, 1)

/-- The output descriptor of row `i` of D in a SCAT: its planes from that row on, along columns (DESIGN CHOICE, log 123). -/
def rowOut (d : OutDesc) (r : Nat) (i : Nat) : OutDesc :=
  match fmtOfCode d.fmt with
  | some f =>
    let bytes := if d.pass then 8 * r else if isMx f then ceilDiv r 32 * (4 * fmtWidth f) else ceilDiv (r * fmtWidth f) 8
    let at_ := i * (if d.stride = 0 then bytes else 16 * d.stride)
    let sc := if isMx f && !d.pass then i * ceilDiv r 32 else 0
    { d with dest := d.dest + at_, dscale := d.dscale + sc, res := if d.res = 0xFFFFFFFF then d.res else d.res + at_,
             rscale := d.rscale + sc, axis := false }
  | none => { d with dest := d.dest + i * (if d.stride = 0 then 8 * r else 16 * d.stride), axis := false }

/-- Where the rows that the indices of a GATHER or SCAT select lie (R171), by the indices that B holds now. -/
def indexPlaces (s : State) (c op : Nat) (o : UnitOp) : List (Nat × Nat × Nat) :=
  let w := BitVec.ofNat 128 o.w
  let idx := int32s s c o.addrB (vCount w)
  if op = 5 then idx.map (indexRow o.addrA (opBytes (vFmtA w) o.s28))
  else if op = 6 then
    idx.flatMap fun i => if i < 0 then [(0x100000, 1, 1)]
      else if vOutd w then outPlanes (rowOut (readOut s c o.addrD) o.s28 i.toNat) 1 o.s28
      else [indexRow o.addrD (opBytes (vFmtD w) o.s28) i]
  else []

/-- Issue of an XU operation into the exact unit's queue of 16. The rows that indices select are checked as B stands at issue (DESIGN
CHOICE, log 123). -/
def issueXu (op : Nat) (c : CoreId) (t : ThreadId) (w : InstrWord) (s : State) : State :=
  let o := unitOp s c.val t.val w
  let tag := outTag s c.val o.addrD w
  issue c.val t.val w 3 op (vecCause (xuShape op (vCount w) o.s28 o.s29) (indexPlaces s c.val op o) c.val t.val w)
    (fun u => decide (16 ≤ (core u c.val).xu.length))
    (fun u =>
      let u := asyncBegin c.val t.val (modCore c.val (fun C => { C with xu := C.xu ++ [o] }) u)
      if op = 8 then modOvf c.val tag (fun v => { v with xents := v.xents + 1 }) u else u) s

def execXuAdd (c : CoreId) (t : ThreadId) (w : InstrWord) (s : State) : Host.Outcome State Fault Refusal :=
  .next (issueXu 0 c t w s)
def execXuMul (c : CoreId) (t : ThreadId) (w : InstrWord) (s : State) : Host.Outcome State Fault Refusal :=
  .next (issueXu 1 c t w s)
def execXuFma (c : CoreId) (t : ThreadId) (w : InstrWord) (s : State) : Host.Outcome State Fault Refusal :=
  .next (issueXu 2 c t w s)
def execXuCvt (c : CoreId) (t : ThreadId) (w : InstrWord) (s : State) : Host.Outcome State Fault Refusal :=
  .next (issueXu 3 c t w s)
def execDot (c : CoreId) (t : ThreadId) (w : InstrWord) (s : State) : Host.Outcome State Fault Refusal :=
  .next (issueXu 4 c t w s)
def execGather (c : CoreId) (t : ThreadId) (w : InstrWord) (s : State) : Host.Outcome State Fault Refusal :=
  .next (issueXu 5 c t w s)
def execScat (c : CoreId) (t : ThreadId) (w : InstrWord) (s : State) : Host.Outcome State Fault Refusal :=
  .next (issueXu 6 c t w s)
def execRope (c : CoreId) (t : ThreadId) (w : InstrWord) (s : State) : Host.Outcome State Fault Refusal :=
  .next (issueXu 7 c t w s)
def execXent (c : CoreId) (t : ThreadId) (w : InstrWord) (s : State) : Host.Outcome State Fault Refusal :=
  .next (issueXu 8 c t w s)
def execXgrad (c : CoreId) (t : ThreadId) (w : InstrWord) (s : State) : Host.Outcome State Fault Refusal :=
  .next (issueXu 9 c t w s)
def execNstat (c : CoreId) (t : ThreadId) (w : InstrWord) (s : State) : Host.Outcome State Fault Refusal :=
  .next (issueXu 0x0A c t w s)

/-- Lane j of 64 takes elements j, j + 64, ... and adds them in ascending order; then the tree of R105. -/
def laneFold (f : Word → Word → Word) (l : List Word) : Word :=
  let regs := chunks 64 (l.length / 64 + 1) l
  match regs with
  | [] => 0#32
  | first :: rest =>
    let lanes := first.zipIdx.map fun x => rest.foldl (fun (acc : Word) r => match r[x.2]? with
      | some v => f acc v
      | none => acc) x.1
    treeFold f 0#32 7 lanes

/-- Row maximum, S = Σ exp(x − m) in lane order (R171). -/
def rowMax (xs : List Word) : Word := laneFold maxOf xs
def rowExpSum (xs : List Word) : Word :=
  let m := rowMax xs
  laneFold add32 (xs.map fun x => exp32 (sub32 x m))

/-- The element at an INT32 index of a row; an index outside the row other than −1 selects no element: a free value. -/
def pickAt (xs : List Word) (i : Int) (free : Word) : Word :=
  if 0 ≤ i then xs.getD i.toNat free else free

/-- loss = (log S + m) − x_target (R171). -/
def xentLoss (xs : List Word) (target : Int) (free : Word) : Word :=
  sub32 (add32 (log32 (rowExpSum xs)) (rowMax xs)) (pickAt xs target free)

/-- exp(x − m) ÷ S, minus 1 at the target; +0 in a row whose target is −1. -/
def xgradRow (xs : List Word) (target : Int) : List Word :=
  if target = -1 then xs.map fun _ => 0#32
  else
    let m := rowMax xs
    let S := rowExpSum xs
    xs.zipIdx.map fun x =>
      let p := div32 (exp32 (sub32 x.1 m)) S
      if (x.2 : Int) = target then sub32 p one32 else p

/-- The pairs of ROPE in one head: y0 = fma(x0, c, −(x1 × s)), y1 = fma(x0, s, x1 × c), by the head's table (DESIGN CHOICE, log 118:
adjacent elements are pairs, and every head of the operand reads the same table). -/
def ropePairs : List Word → List Word → List Word
  | x0 :: x1 :: xs, c :: d :: cs => fma32 x0 c (neg32 (mul32 x1 d)) :: fma32 x0 d (mul32 x1 c) :: ropePairs xs cs
  | xs, _ => xs

/-- One output of DOT: a chain of FMAs in ascending k. -/
def dotChain (a b : List Word) : Word := (a.zip b).foldl (fun acc p => fma32 p.1 p.2 acc) 0#32

/-- The core's scratch holds a row that a completing GATHER or SCAT reaches, and so do its thread's bounds (R170, R173). -/
def rowHeld (s : State) (c t : Nat) (l : List (Nat × Nat × Nat)) : Bool := rangeCause s c t l == 0

/-- The rows that an XU operation other than SCAT writes; `fr` gives the free value where the manual states none. -/
def xuRows (s : State) (c : Nat) (o : UnitOp) : List (List Val) :=
  let w := BitVec.ofNat 128 o.w
  let op := iOp w
  let n := vCount w
  let r := o.s28
  let sh := xuShape op n o.s28 o.s29
  let a := valsA s c o sh
  let b := valsB s c o sh
  let idx := if sh.intB then int32s s c o.addrB n else []
  let fr := fun i => BitVec.ofNat 32 (freeBits s (i + 1) 32)
  let zip2 := fun (f : Val → Val → Word) => [(a.zip b).map fun p => dec32 (f p.1 p.2)]
  let rows := (rowsOf32 r a).map fun l => l.map toWord
  if op = 0 then zip2 fun x y => round32 (vAdd x y)
  else if op = 1 then zip2 fun x y => round32 (vMul x y)
  else if op = 2 then [((a.zip b).zip (readD s c o n)).map fun p => dec32 (round32 (vAdd (vMul p.1.1 p.1.2) p.2))]
  else if op = 3 then [a]
  else if op = 4 then
    let bw := b.map toWord
    rows.map fun x => (List.range o.s29).map fun j =>
      dec32 (dotChain x ((List.range r).map fun k => bw.getD (k * o.s29 + j) 0#32))
  else if op = 5 then
    idx.zipIdx.map fun x =>
      let p := indexRow o.addrA (opBytes (vFmtA w) r) x.1
      if rowHeld s c o.thread [p] then unitVals s c o.texpA (vFmtA w) p.1 r
      else (List.range r).map fun i => dec32 (fr (x.2 * r + i))
  else if op = 7 then [rows.flatMap fun x => (ropePairs x (b.map toWord)).map dec32]
  else if op = 8 then
    [(rows.zip idx).zipIdx.filterMap fun x =>
      if x.1.2 = -1 then none else some (dec32 (xentLoss x.1.1 x.1.2 (fr x.2)))]
  else if op = 9 then (rows.zip idx).map fun x => (xgradRow x.1 x.2).map dec32
  else rows.map fun x => [dec32 (laneFold add32 x), dec32 (laneFold add32 (x.map fun v => mul32 v v))]

/-- The output descriptor that a SCAT's row `i` takes: OUTD's, or a plain row in FMT_D without statistics. -/
def scatOut (s : State) (c : Nat) (o : UnitOp) (i : Nat) : OutDesc :=
  let w := BitVec.ofNat 128 o.w
  if vOutd w then rowOut (readOut s c o.addrD) o.s28 i
  else { dest := o.addrD + i * opBytes (vFmtD w) o.s28, dscale := 0, res := 0xFFFFFFFF, rscale := 0, tensor := 0xFFFFFFFF,
         fmt := vFmtD w, pass := false, axis := false, ovfMode := vFmtD w == 1, ovfChk := false, texp := 0, satTol := 0,
         inst := 0xFFFF, stride := 0 }

/-- One row of a SCAT: D row B[i] += A row i, one FP32 addition per element, through the exact unit's converter (R54, R141). -/
def scatRow (c : Nat) (o : UnitOp) (i : Int) (row : List Val) (poison : Bool) (s : State) : State :=
  let d := scatOut s c o i.toNat
  let pl := outPlanes d 1 o.s28
  if i < 0 || !rowHeld s c o.thread pl then s
  else
    let old := readOutRow s c d o.s28
    let bad := (old ++ row).any fun v => !vFinite v
    let was := pl.any fun x => anyPoison s (scratchAddr c x.1) x.2.1
    convertOut c 5 d [(old.zip row).map fun p => dec32 (round32 (vAdd p.1 p.2))] bad (poison || was) s

/-- SCAT (R171): for i ascending, D row B[i] += A row i. -/
def scatOp (c : Nat) (o : UnitOp) (poison : Bool) (s : State) : State :=
  let w := BitVec.ofNat 128 o.w
  let n := vCount w
  let rows := rowsOf32 o.s28 (unitVals s c o.texpA (vFmtA w) o.addrA (n * o.s28))
  (rows.zip (int32s s c o.addrB n)).foldl (fun st x => scatRow c o x.2 x.1 poison st) s

/-- A row that a GATHER selects was not finite, or was poison. -/
def gatherBad (o : UnitOp) (rows : List (List Val)) : Bool :=
  iOp (BitVec.ofNat 128 o.w) == 5 && rows.any fun r => r.any fun v => !vFinite v
def gatherPoison (s : State) (c : Nat) (o : UnitOp) : Bool :=
  iOp (BitVec.ofNat 128 o.w) == 5 && (indexPlaces s c 5 o).any fun x => anyPoison s (scratchAddr c x.1) x.2.1

/-- Lane-cycles per element (R171). -/
def xuL (op s28 : Nat) : Nat :=
  if op ≤ 3 ∨ op = 5 ∨ op = 6 then 1 else if op = 4 then s28 else if op = 7 ∨ op = 0x0A then 2
  else if op = 8 then 10 else 12

/-- The losses of XENT in a run, by micro-batch and token; a repeat's replace those of its first attempt (R85, R204). -/
def addLosses (o : UnitOp) (targets : List Int) (losses : List Val) (s : State) : State :=
  if !inRun s then s
  else
    let at_ := (targets.zipIdx.filter fun x => x.1 != -1).map fun x => o.loss.1 * 2 ^ 32 + o.loss.2 + x.2
    let m := (at_.zip losses).foldl (fun m x => sset (fun _ => none) m x.1 (some (round32 x.2))) s.run.losses32
    { s with run := { s.run with losses32 := m } }

/-- XU_COMPLETE (R164): the oldest queued XU instruction completes. -/
def xuComplete (c : Nat) (s : State) : State :=
  match (core s c).xu with
  | [] => s
  | o :: rest =>
    if gated s c 6 then s else
    let w := BitVec.ofNat 128 o.w
    let op := iOp w
    let sh := xuShape op (vCount w) o.s28 o.s29
    let poison := unitPoisoned s c o sh || gatherPoison s c o
    let rows := if op = 6 then [] else xuRows s c o
    let elems := if op = 4 then vCount w else max sh.nA (vCount w * o.s28)
    let extra := if op = 5 then opBytes (vFmtA w) (vCount w * o.s28)
      else if op = 6 then bytesD s c o sh (vCount w * o.s28) else if sh.readsD then bytesD s c o sh sh.nD else 0
    let busy := occupancy ((if op ≤ 3 ∨ op = 7 then vCount w else elems) * xuL op o.s28) 64 (bytesA sh w + bytesB sh w + extra) 768
      (bytesD s c o sh (if op = 6 then vCount w * o.s28 else sh.nD)) 256
    let s1 := if op = 6 then scatOp c o poison s else writeD c 5 o rows (unitBad s c o sh || gatherBad o rows) poison s
    let s2 := if op = 8 then addLosses o (int32s s c o.addrB (vCount w)) rows.flatten s1 else s1
    let s3 := if poison then corePoison c 5 (scratchAddr c o.addrA) s2 else s2
    let s4 := useFree (bump (cntCore c 22) busy (modCore c (fun C => { C with xu := rest }) s3))
    asyncDone c o.thread (iCntEn w) (iCnt w) s4

def execXuComplete (c : CoreId) (s : State) : Host.Outcome State Fault Refusal := .next (xuComplete c.val s)

end Sys2Proof.Machine
end

