-- ==== Sys2Proof/Machine/Dispatch.lean ====
section
/-! DEFINITION. The dispatch: one arm per constructor of `Instr`, each a direct call of its meaning. -/

namespace Sys2Proof.Machine

open Sys2Proof

/-- The effect of a command on everything but the queue. -/
def exec (i : Instr) (s : State) : Host.Outcome State Fault Refusal :=
  match i with
  | .loadPackage q data => Sys2Proof.Machine.execLoadPackage q data s
  | .bindSource q => Sys2Proof.Machine.execBindSource q s
  | .plan q map pins => Sys2Proof.Machine.execPlan q map pins s
  | .planRead q => Sys2Proof.Machine.execPlanRead q s
  | .start q => Sys2Proof.Machine.execStart q s
  | .step q => Sys2Proof.Machine.execStep q s
  | .pause q => Sys2Proof.Machine.execPause q s
  | .secure q => Sys2Proof.Machine.execSecure q s
  | .restore q image => Sys2Proof.Machine.execRestore q image s
  | .replayCheck q loss tokens wsum => Sys2Proof.Machine.execReplayCheck q loss tokens wsum s
  | .readStats q => Sys2Proof.Machine.execReadStats q s
  | .snapshot q => Sys2Proof.Machine.execSnapshot q s
  | .traceCtl q => Sys2Proof.Machine.execTraceCtl q s
  | .copy q data found => Sys2Proof.Machine.execCopy q data found s
  | .fwWrite q image => Sys2Proof.Machine.execFwWrite q image s
  | .echo q => Sys2Proof.Machine.execEcho q s
  | .fullReset q => Sys2Proof.Machine.execFullReset q s
  | .sqTail q off v => Sys2Proof.Machine.execSqTail q off v s
  | .sqEntryFetched q r => Sys2Proof.Machine.execSqEntryFetched q r s
  | .rqHead q v => Sys2Proof.Machine.execRqHead q v s
  | .ringEnable q v => Sys2Proof.Machine.execRingEnable q v s
  | .pwrMoor v => Sys2Proof.Machine.execPwrMoor v s
  | .pwrNext v => Sys2Proof.Machine.execPwrNext v s
  | .cntSnap v => Sys2Proof.Machine.execCntSnap v s
  | .mgtPositionWrite v => Sys2Proof.Machine.execMgtPositionWrite v s
  | .portEnable p v => Sys2Proof.Machine.execPortEnable p v s
  | .portSplitChange p v => Sys2Proof.Machine.execPortSplitChange p v s
  | .inlineEccChange v => Sys2Proof.Machine.execInlineEccChange v s
  | .aliasWrite off v => Sys2Proof.Machine.execAliasWrite off v s
  | .registerWrite off size v => Sys2Proof.Machine.execRegisterWrite off size v s
  | .bar4Read off size ecc => Sys2Proof.Machine.execBar4Read off size ecc s
  | .bar4Write off bytes => Sys2Proof.Machine.execBar4Write off bytes s
  | .d3hotEntry => Sys2Proof.Machine.execD3hotEntry s
  | .d0Return => Sys2Proof.Machine.execD0Return s
  | .mboxLogRead src => Sys2Proof.Machine.execMboxLogRead src s
  | .mboxLifeRead src => Sys2Proof.Machine.execMboxLifeRead src s
  | .mboxMoor src => Sys2Proof.Machine.execMboxMoor src s
  | .mboxWake src => Sys2Proof.Machine.execMboxWake src s
  | .mboxReset src => Sys2Proof.Machine.execMboxReset src s
  | .tile c t w => Sys2Proof.Machine.execTile c t w s
  | .tbl c t w => Sys2Proof.Machine.execTbl c t w s
  | .idle c t w => Sys2Proof.Machine.execIdle c t w s
  | .vecAdd c t w => Sys2Proof.Machine.execVecAdd c t w s
  | .vecMul c t w => Sys2Proof.Machine.execVecMul c t w s
  | .vecFma c t w => Sys2Proof.Machine.execVecFma c t w s
  | .vecMax c t w => Sys2Proof.Machine.execVecMax c t w s
  | .vecMin c t w => Sys2Proof.Machine.execVecMin c t w s
  | .vecCvt c t w => Sys2Proof.Machine.execVecCvt c t w s
  | .w42add c t w => Sys2Proof.Machine.execW42add c t w s
  | .drop c t w => Sys2Proof.Machine.execDrop c t w s
  | .exp c t w => Sys2Proof.Machine.execExp c t w s
  | .exp2 c t w => Sys2Proof.Machine.execExp2 c t w s
  | .log c t w => Sys2Proof.Machine.execLog c t w s
  | .log2 c t w => Sys2Proof.Machine.execLog2 c t w s
  | .rcp c t w => Sys2Proof.Machine.execRcp c t w s
  | .rsq c t w => Sys2Proof.Machine.execRsq c t w s
  | .div c t w => Sys2Proof.Machine.execDiv c t w s
  | .ladd c t w => Sys2Proof.Machine.execLadd c t w s
  | .smax c t w => Sys2Proof.Machine.execSmax c t w s
  | .rsum c t w => Sys2Proof.Machine.execRsum c t w s
  | .rmax c t w => Sys2Proof.Machine.execRmax c t w s
  | .xuAdd c t w => Sys2Proof.Machine.execXuAdd c t w s
  | .xuMul c t w => Sys2Proof.Machine.execXuMul c t w s
  | .xuFma c t w => Sys2Proof.Machine.execXuFma c t w s
  | .xuCvt c t w => Sys2Proof.Machine.execXuCvt c t w s
  | .dot c t w => Sys2Proof.Machine.execDot c t w s
  | .gather c t w => Sys2Proof.Machine.execGather c t w s
  | .scat c t w => Sys2Proof.Machine.execScat c t w s
  | .rope c t w => Sys2Proof.Machine.execRope c t w s
  | .xent c t w => Sys2Proof.Machine.execXent c t w s
  | .xgrad c t w => Sys2Proof.Machine.execXgrad c t w s
  | .nstat c t w => Sys2Proof.Machine.execNstat c t w s
  | .movLd c t w => Sys2Proof.Machine.execMovLd c t w s
  | .movSt c t w => Sys2Proof.Machine.execMovSt c t w s
  | .movLdi c t w => Sys2Proof.Machine.execMovLdi c t w s
  | .movMvas c t w => Sys2Proof.Machine.execMovMvas c t w s
  | .movMvsa c t w => Sys2Proof.Machine.execMovMvsa c t w s
  | .movRdcsr c t w => Sys2Proof.Machine.execMovRdcsr c t w s
  | .movWrcsr c t w => Sys2Proof.Machine.execMovWrcsr c t w s
  | .movCopy c t w => Sys2Proof.Machine.execMovCopy c t w s
  | .movComplete c t => Sys2Proof.Machine.execMovComplete c t s
  | .strRun c t w => Sys2Proof.Machine.execStrRun c t w s
  | .strRearm c t w => Sys2Proof.Machine.execStrRearm c t w s
  | .strMark c t w => Sys2Proof.Machine.execStrMark c t w s
  | .strTrace c t w => Sys2Proof.Machine.execStrTrace c t w s
  | .waitc c t w => Sys2Proof.Machine.execWaitc c t w s
  | .setc c t w => Sys2Proof.Machine.execSetc c t w s
  | .bar c t w => Sys2Proof.Machine.execBar c t w s
  | .wstroke c t w => Sys2Proof.Machine.execWstroke c t w s
  | .ovfx c t w => Sys2Proof.Machine.execOvfx c t w s
  | .drain c t w => Sys2Proof.Machine.execDrain c t w s
  | .nop c t w => Sys2Proof.Machine.execNop c t w s
  | .alu c t w => Sys2Proof.Machine.execAlu c t w s
  | .alui c t w => Sys2Proof.Machine.execAlui c t w s
  | .br c t w => Sys2Proof.Machine.execBr c t w s
  | .jmp c t w => Sys2Proof.Machine.execJmp c t w s
  | .halt c t w => Sys2Proof.Machine.execHalt c t w s
  | .adda c t w => Sys2Proof.Machine.execAdda c t w s
  | .fill c a => Sys2Proof.Machine.execFill c a s
  | .tileGroupStart c => Sys2Proof.Machine.execTileGroupStart c s
  | .fenceEnd c => Sys2Proof.Machine.execFenceEnd c s
  | .tileComplete c a => Sys2Proof.Machine.execTileComplete c a s
  | .tblComplete c a => Sys2Proof.Machine.execTblComplete c a s
  | .idleEnd c a => Sys2Proof.Machine.execIdleEnd c a s
  | .rampStep c a => Sys2Proof.Machine.execRampStep c a s
  | .unplannedGapTimeout c a => Sys2Proof.Machine.execUnplannedGapTimeout c a s
  | .vecComplete c => Sys2Proof.Machine.execVecComplete c s
  | .xuComplete c => Sys2Proof.Machine.execXuComplete c s
  | .descCacheFill d => Sys2Proof.Machine.execDescCacheFill d s
  | .streamTransferComplete d gen data ecc => Sys2Proof.Machine.execStreamTransferComplete d gen data ecc s
  | .routerTargetOff addr inReset d => Sys2Proof.Machine.execRouterTargetOff addr inReset d s
  | .writeBufferFlush c => Sys2Proof.Machine.execWriteBufferFlush c s
  | .lpddrRefresh c => Sys2Proof.Machine.execLpddrRefresh c s
  | .lpddrTempRead c celsius => Sys2Proof.Machine.execLpddrTempRead c celsius s
  | .lpddrInitDone c => Sys2Proof.Machine.execLpddrInitDone c s
  | .holdInitDone n => Sys2Proof.Machine.execHoldInitDone n s
  | .scrubRead u addr o => Sys2Proof.Machine.execScrubRead u addr o s
  | .strokeEdge => Sys2Proof.Machine.execStrokeEdge s
  | .guardPoint selfTest => Sys2Proof.Machine.execGuardPoint selfTest s
  | .easyLimit cause => Sys2Proof.Machine.execEasyLimit cause s
  | .lockGained => Sys2Proof.Machine.execLockGained s
  | .lockLost => Sys2Proof.Machine.execLockLost s
  | .reductionDeadline => Sys2Proof.Machine.execReductionDeadline s
  | .distributionDeadline => Sys2Proof.Machine.execDistributionDeadline s
  | .optimiserUpdate piece block => Sys2Proof.Machine.execOptimiserUpdate piece block s
  | .weightConversion tensor => Sys2Proof.Machine.execWeightConversion tensor s
  | .codebookRebuild layer group => Sys2Proof.Machine.execCodebookRebuild layer group s
  | .admissionPick produced => Sys2Proof.Machine.execAdmissionPick produced s
  | .sampleTokensRead desc tokens => Sys2Proof.Machine.execSampleTokensRead desc tokens s
  | .stepBoundary reads => Sys2Proof.Machine.execStepBoundary reads s
  | .secureStopComplete => Sys2Proof.Machine.execSecureStopComplete s
  | .standingReply => Sys2Proof.Machine.execStandingReply s
  | .hostLost => Sys2Proof.Machine.execHostLost s
  | .heartbeatLimit p => Sys2Proof.Machine.execHeartbeatLimit p s
  | .controlReductionStall id => Sys2Proof.Machine.execControlReductionStall id s
  | .wedgeTimeout u => Sys2Proof.Machine.execWedgeTimeout u s
  | .frameReceived p sub frame uncorrectable corrected => Sys2Proof.Machine.execFrameReceived p sub frame uncorrectable corrected s
  | .laneFail p lane => Sys2Proof.Machine.execLaneFail p lane s
  | .laneDrop p lane seq => Sys2Proof.Machine.execLaneDrop p lane seq s
  | .laneDropTimeout p => Sys2Proof.Machine.execLaneDropTimeout p s
  | .portTrained p sub peer latency lanes => Sys2Proof.Machine.execPortTrained p sub peer latency lanes s
  | .packetForward p sub hdr body => Sys2Proof.Machine.execPacketForward p sub hdr body s
  | .catchMarker p sub hdr body phase => Sys2Proof.Machine.execCatchMarker p sub hdr body phase s
  | .easy p sub hdr body => Sys2Proof.Machine.execEasy p sub hdr body s
  | .reduceUp p sub hdr body => Sys2Proof.Machine.execReduceUp p sub hdr body s
  | .reduceDown p sub hdr body => Sys2Proof.Machine.execReduceDown p sub hdr body s
  | .digest p sub hdr body => Sys2Proof.Machine.execDigest p sub hdr body s
  | .credit p sub hdr body => Sys2Proof.Machine.execCredit p sub hdr body s
  | .endAck p sub hdr body => Sys2Proof.Machine.execEndAck p sub hdr body s
  | .data p sub hdr body => Sys2Proof.Machine.execData p sub hdr body s
  | .endPass p sub hdr body => Sys2Proof.Machine.execEndPass p sub hdr body s
  | .raBf16 p sub hdr body => Sys2Proof.Machine.execRaBf16 p sub hdr body s
  | .raFp8 p sub hdr body => Sys2Proof.Machine.execRaFp8 p sub hdr body s
  | .scaleUp p sub hdr body => Sys2Proof.Machine.execScaleUp p sub hdr body s
  | .scaleDown p sub hdr body => Sys2Proof.Machine.execScaleDown p sub hdr body s
  | .sums p sub hdr body => Sys2Proof.Machine.execSums p sub hdr body s
  | .powerStateEntry sc tNext => Sys2Proof.Machine.execPowerStateEntry sc tNext s
  | .powerStateExit sc => Sys2Proof.Machine.execPowerStateExit sc s
  | .powerExitComplete sc late => Sys2Proof.Machine.execPowerExitComplete sc late s
  | .unplannedWake sc => Sys2Proof.Machine.execUnplannedWake sc s
  | .drainTimeout sc count => Sys2Proof.Machine.execDrainTimeout sc count s
  | .avsAck r => Sys2Proof.Machine.execAvsAck r s
  | .avsAckTimeout r => Sys2Proof.Machine.execAvsAckTimeout r s
  | .droopEvent hold g => Sys2Proof.Machine.execDroopEvent hold g s
  | .sensorSample quarters => Sys2Proof.Machine.execSensorSample quarters s
  | .thermTrip => Sys2Proof.Machine.execThermTrip s
  | .regulatorPoll r reading => Sys2Proof.Machine.execRegulatorPoll r reading s
  | .logFlush => Sys2Proof.Machine.execLogFlush s
  | .lifetimeRecordWrite => Sys2Proof.Machine.execLifetimeRecordWrite s
  | .traceDrain => Sys2Proof.Machine.execTraceDrain s
  | .vddAonUp => Sys2Proof.Machine.execVddAonUp s
  | .perstAssert => Sys2Proof.Machine.execPerstAssert s
  | .perstDeassert => Sys2Proof.Machine.execPerstDeassert s
  | .sysPwrgoodFall => Sys2Proof.Machine.execSysPwrgoodFall s
  | .sysPwrgoodRise => Sys2Proof.Machine.execSysPwrgoodRise s
  | .spdmGetVersion tr => Sys2Proof.Machine.execSpdmGetVersion tr s
  | .spdmGetCapabilities tr => Sys2Proof.Machine.execSpdmGetCapabilities tr s
  | .spdmNegotiateAlgorithms tr request => Sys2Proof.Machine.execSpdmNegotiateAlgorithms tr request s
  | .spdmGetDigests tr => Sys2Proof.Machine.execSpdmGetDigests tr s
  | .spdmGetCertificate tr offset length => Sys2Proof.Machine.execSpdmGetCertificate tr offset length s
  | .spdmChallenge tr nonce => Sys2Proof.Machine.execSpdmChallenge tr nonce s
  | .spdmGetMeasurements tr index nonce => Sys2Proof.Machine.execSpdmGetMeasurements tr index nonce s
  | .mctpControl request => Sys2Proof.Machine.execMctpControl request s
  | .pldmDiscovery request => Sys2Proof.Machine.execPldmDiscovery request s
  | .pldmGetPdr record => Sys2Proof.Machine.execPldmGetPdr record s
  | .pldmGetSensorReading sensor => Sys2Proof.Machine.execPldmGetSensorReading sensor s
  | .pldmGetStateSensorReadings sensor => Sys2Proof.Machine.execPldmGetStateSensorReadings sensor s
  | .jtagBypass tdi => Sys2Proof.Machine.execJtagBypass tdi s
  | .jtagIdcode => Sys2Proof.Machine.execJtagIdcode s
  | .jtagSamplePreload cells => Sys2Proof.Machine.execJtagSamplePreload cells s
  | .jtagExtest cells => Sys2Proof.Machine.execJtagExtest cells s
  | .jtagClamp => Sys2Proof.Machine.execJtagClamp s
  | .jtagHighz => Sys2Proof.Machine.execJtagHighz s
  | .jtagExtestPulse cells => Sys2Proof.Machine.execJtagExtestPulse cells s
  | .jtagExtestTrain cells => Sys2Proof.Machine.execJtagExtestTrain cells s
  | .strokeInEdge inTolerance => Sys2Proof.Machine.execStrokeInEdge inTolerance s
  | .declaration p kind pos by_ => Sys2Proof.Machine.execDeclaration p kind pos by_ s

end Sys2Proof.Machine
end

