-- ==== Sys2Proof/WellFormed.lean ====
section
/-! DEFINITION. The well-formed commands: the sizes and ranges that the manual gives to what a command carries. Types give
the ranges of cores, threads, arrays, ports, rings and controllers (R10); this file checks the rest. `exec` needs no
well-formedness: a short operand reads as zero beyond its end, a long one is cut. -/

namespace Sys2Proof

/-- The packet body of a 16-byte header: whole 4-byte words, at most 2,028 bytes (R276). -/
def wfBody (body : List Byte) : Bool := body.length % 4 == 0 && decide (body.length ≤ 2028)

/-- A read entry has 64 bytes (R337). -/
def wfFetch : FetchResult → Bool
  | .ok e => e.length == 64
  | .error => true
  | .poisoned => true

/-- The address of a scrub read lies in the unit (R239, R252). -/
def wfScrub : MemUnit → Nat → Bool
  | .hold n, a => decide (n.val * 0x2000000 ≤ a) && decide (a < (n.val + 1) * 0x2000000)
  | .lpddr c, a => decide (0x100000000000 ≤ a) && decide (a < 0x100000000000 + 512 * 2 ^ 30) &&
      decide ((a - 0x100000000000) / 128 % 16 = c.val)

/-- The stroke step of 62.5 ps units: a marker's phase lies within a stroke (R213, R234). -/
def wfPhase (phase : Int) : Bool := decide (phase.natAbs < 2 ^ 31)

/-- The command carries what the manual gives it. -/
def Instr.wf : Instr → Bool
  | .loadPackage _ d => decide (d.bytes.length < 2 ^ 48)
  | .bindSource _ => true
  | .plan _ m p => decide (m.bytes.length < 2 ^ 32) && decide (p.bytes.length < 2 ^ 32)
  | .planRead _ => true
  | .start _ => true
  | .step _ => true
  | .pause _ => true
  | .secure _ => true
  | .restore _ i => decide (i.bytes.length < 2 ^ 48)
  | .replayCheck _ _ _ _ => true
  | .readStats _ => true
  | .snapshot _ => true
  | .traceCtl _ => true
  | .copy _ d _ => decide (d.bytes.length < 2 ^ 32)
  | .fwWrite _ d => decide (d.bytes.length ≤ 2 ^ 24)
  | .echo _ => true
  | .fullReset _ => true
  | .sqTail _ off _ => off % 4 == 0
  | .sqEntryFetched _ r => wfFetch r
  | .rqHead _ _ => true
  | .ringEnable _ _ => true
  | .pwrMoor _ => true
  | .pwrNext _ => true
  | .cntSnap _ => true
  | .mgtPositionWrite _ => true
  | .portEnable _ _ => true
  | .portSplitChange _ _ => true
  | .inlineEccChange _ => true
  | .aliasWrite off _ => off % 4 == 0
  | .registerWrite off size _ => (size == 4 || size == 8) && off % size == 0
  | .bar4Read _ size _ => decide (0 < size) && decide (size ≤ 4096)
  | .bar4Write _ l => decide (0 < l.length) && decide (l.length ≤ 4096)
  | .d3hotEntry => true
  | .d0Return => true
  | .mboxLogRead _ => true
  | .mboxLifeRead _ => true
  | .mboxMoor _ => true
  | .mboxWake _ => true
  | .mboxReset _ => true
  | .tile _ _ _ => true
  | .tbl _ _ _ => true
  | .idle _ _ _ => true
  | .vecAdd _ _ _ => true
  | .vecMul _ _ _ => true
  | .vecFma _ _ _ => true
  | .vecMax _ _ _ => true
  | .vecMin _ _ _ => true
  | .vecCvt _ _ _ => true
  | .w42add _ _ _ => true
  | .drop _ _ _ => true
  | .exp _ _ _ => true
  | .exp2 _ _ _ => true
  | .log _ _ _ => true
  | .log2 _ _ _ => true
  | .rcp _ _ _ => true
  | .rsq _ _ _ => true
  | .div _ _ _ => true
  | .ladd _ _ _ => true
  | .smax _ _ _ => true
  | .rsum _ _ _ => true
  | .rmax _ _ _ => true
  | .xuAdd _ _ _ => true
  | .xuMul _ _ _ => true
  | .xuFma _ _ _ => true
  | .xuCvt _ _ _ => true
  | .dot _ _ _ => true
  | .gather _ _ _ => true
  | .scat _ _ _ => true
  | .rope _ _ _ => true
  | .xent _ _ _ => true
  | .xgrad _ _ _ => true
  | .nstat _ _ _ => true
  | .movLd _ _ _ => true
  | .movSt _ _ _ => true
  | .movLdi _ _ _ => true
  | .movMvas _ _ _ => true
  | .movMvsa _ _ _ => true
  | .movRdcsr _ _ _ => true
  | .movWrcsr _ _ _ => true
  | .movCopy _ _ _ => true
  | .movComplete _ _ => true
  | .strRun _ _ _ => true
  | .strRearm _ _ _ => true
  | .strMark _ _ _ => true
  | .strTrace _ _ _ => true
  | .waitc _ _ _ => true
  | .setc _ _ _ => true
  | .bar _ _ _ => true
  | .wstroke _ _ _ => true
  | .ovfx _ _ _ => true
  | .drain _ _ _ => true
  | .nop _ _ _ => true
  | .alu _ _ _ => true
  | .alui _ _ _ => true
  | .br _ _ _ => true
  | .jmp _ _ _ => true
  | .halt _ _ _ => true
  | .adda _ _ _ => true
  | .fill _ _ => true
  | .tileGroupStart _ => true
  | .fenceEnd _ => true
  | .tileComplete _ _ => true
  | .tblComplete _ _ => true
  | .idleEnd _ _ => true
  | .rampStep _ _ => true
  | .unplannedGapTimeout _ _ => true
  | .vecComplete _ => true
  | .xuComplete _ => true
  | .descCacheFill _ => true
  | .streamTransferComplete _ _ d _ => decide (d.bytes.length < 2 ^ 32)
  | .routerTargetOff _ _ _ => true
  | .writeBufferFlush _ => true
  | .lpddrRefresh _ => true
  | .lpddrTempRead _ t => decide (-128 ≤ t) && decide (t < 256)
  | .lpddrInitDone _ => true
  | .holdInitDone _ => true
  | .scrubRead u a _ => wfScrub u a
  | .strokeEdge => true
  | .guardPoint l => l.all (decide <| · < 384)
  | .easyLimit _ => true
  | .lockGained => true
  | .lockLost => true
  | .reductionDeadline => true
  | .distributionDeadline => true
  | .optimiserUpdate _ _ => true
  | .weightConversion _ => true
  | .codebookRebuild _ _ => true
  | .admissionPick _ => true
  | .sampleTokensRead d _ => d.length == 32
  | .stepBoundary _ => true
  | .secureStopComplete => true
  | .standingReply => true
  | .hostLost => true
  | .heartbeatLimit _ => true
  | .controlReductionStall _ => true
  | .wedgeTimeout _ => true
  | .frameReceived _ _ f _ c => f.length == 256 && decide (c.length ≤ 4)
  | .laneFail _ _ => true
  | .laneDrop _ _ q => decide (q < 4096)
  | .laneDropTimeout _ => true
  | .portTrained _ _ _ l _ => decide (l < 2 ^ 16)
  | .packetForward _ _ _ b => wfBody b
  | .catchMarker _ _ _ b ph => wfBody b && wfPhase ph
  | .easy _ _ _ b => wfBody b
  | .reduceUp _ _ _ b => wfBody b
  | .reduceDown _ _ _ b => wfBody b
  | .digest _ _ _ b => wfBody b
  | .credit _ _ _ b => wfBody b
  | .endAck _ _ _ b => wfBody b
  | .data _ _ _ b => wfBody b
  | .endPass _ _ _ b => wfBody b
  | .raBf16 _ _ _ b => wfBody b
  | .raFp8 _ _ _ b => wfBody b
  | .scaleUp _ _ _ b => wfBody b
  | .scaleDown _ _ _ b => wfBody b
  | .sums _ _ _ b => wfBody b
  | .powerStateEntry _ _ => true
  | .powerStateExit _ => true
  | .powerExitComplete _ _ => true
  | .unplannedWake _ => true
  | .drainTimeout _ _ => true
  | .avsAck _ => true
  | .avsAckTimeout _ => true
  | .droopEvent _ _ => true
  | .sensorSample q => q.length == 30
  | .thermTrip => true
  | .regulatorPoll _ _ => true
  | .logFlush => true
  | .lifetimeRecordWrite => true
  | .traceDrain => true
  | .vddAonUp => true
  | .perstAssert => true
  | .perstDeassert => true
  | .sysPwrgoodFall => true
  | .sysPwrgoodRise => true
  | .spdmGetVersion _ => true
  | .spdmGetCapabilities _ => true
  | .spdmNegotiateAlgorithms _ _ => true
  | .spdmGetDigests _ => true
  | .spdmGetCertificate _ _ _ => true
  | .spdmChallenge _ n => n.length == 32
  | .spdmGetMeasurements _ _ n => n.length == 32
  | .mctpControl _ => true
  | .pldmDiscovery _ => true
  | .pldmGetPdr _ => true
  | .pldmGetSensorReading _ => true
  | .pldmGetStateSensorReadings _ => true
  | .jtagBypass _ => true
  | .jtagIdcode => true
  | .jtagSamplePreload _ => true
  | .jtagExtest _ => true
  | .jtagClamp => true
  | .jtagHighz => true
  | .jtagExtestPulse _ => true
  | .jtagExtestTrain _ => true
  | .strokeInEdge _ => true
  | .declaration _ _ _ _ => true

end Sys2Proof
end

