-- ==== Sys2Proof/Safety.lean ====
section
/-! DEFINITION. What holds of the device in every state that its commands reach from a state in which it holds: the
canonical form of memory and registers, the bounds that the manual gives to counts, and what no command changes. -/

namespace Sys2Proof.Machine

open Sys2Proof

/-- Memory is in its canonical form: addresses strictly rising, no byte that reads as an unlisted one, no word listed as
poison that is not. -/
def Memory.wf (m : MemSt) : Bool := swf byteD m.data && swf poisonD m.poison

/-- The register file is in its canonical form: a listed register differs from its Reset value. -/
def regsWf (s : State) : Bool := swf regReset s.regs

/-- Every counter is at or below the count at which its visible value stops, 2^48 - 1 (R380). -/
def countersOk (s : State) : Prop := ∀ e ∈ s.cnt.exact, e.2 ≤ (2 ^ 48 - 1) * cntUnit e.1

/-- The invariant of the device: canonical memory and registers, counters within their range (R380), a decision journal of
at most 8,192 entries (R311), at most 8,192 log entries waiting for the flash (R408), ATTN_SEQ of 8 bits (R348). -/
structure Inv (s : State) : Prop where
  regs : regsWf s = true
  mem : Memory.wf s.mem = true
  counters : countersOk s
  journal : s.res.journal.length ≤ 8192
  log : s.log.waiting ≤ 8192
  attn : s.host.attnSeq < 256

/-- The fuses that no command blows (R88, R370, R400, R431, R432): anti-rollback and revocation bits are the others. -/
def fixedFuses (f : Fuses) : Fuses := { f with revoked := 0, svnBits := 0 }

/-- What every command does at most to the rest of the device: the queue and the fixed fuses stay, the invariant holds on. -/
structure Keeps (s t : State) : Prop where
  queue : t.pending = s.pending
  fuses : fixedFuses t.fuses = fixedFuses s.fuses
  inv : Inv s → Inv t

/-! ### Frames -/

/-- The addresses of the event log's ring, where a logged event is seen (R408). -/
def logRing (a : Nat) : Prop := 0xF000040000 ≤ a ∧ a < 0xF0000C0000

/-- What a counter brings when it saturates: the count, attention and an event-log entry (R380); nothing else differs. -/
structure CountsOnly (s t : State) : Prop where
  rest : t = { s with cnt := t.cnt, log := t.log, host := t.host }
  host : t.host = { s.host with attnSeq := t.host.attnSeq, attnStep := t.host.attnStep,
                                attnStanding := t.host.attnStanding, events := t.host.events }
  mem : ∀ a, ¬ logRing a → memByte t a = memByte s a

/-- Beside what counting brings, nothing but memory and the state of its controllers differs (R244, R246). -/
structure MemOnly (s t : State) : Prop where
  rest : t = { s with mem := t.mem, cnt := t.cnt, log := t.log, host := t.host }
  host : t.host = { s.host with attnSeq := t.host.attnSeq, attnStep := t.host.attnStep,
                                attnStanding := t.host.attnStanding, events := t.host.events }

/-- Beside what counting brings, nothing but core `c` differs: no register, no byte of memory, no stream, no other core. -/
structure CoreOnly (c : Nat) (s t : State) : Prop where
  rest : t = { s with cores := t.cores, cnt := t.cnt, log := t.log, host := t.host }
  host : t.host = { s.host with attnSeq := t.host.attnSeq, attnStep := t.host.attnStep,
                                attnStanding := t.host.attnStanding, events := t.host.events }
  mem : ∀ a, ¬ logRing a → memByte t a = memByte s a
  cores : ∀ d, d ≠ c → core t d = core s d

/-- Beside what counting brings, nothing but thread `u` of core `c` and the core's cycle count differs: no other thread, no
array, no queue and no completion counter of the core. -/
structure ThreadOnly (c u : Nat) (s t : State) : Prop extends CoreOnly c s t where
  core : core t c = { core s c with threads := (Machine.core t c).threads, cycle := (Machine.core t c).cycle }
  threads : ∀ v, v ≠ u → thread t c v = thread s c v

/-- Thread `t` of core `c` is ready, its PC lies in the scratch, and `w` is the instruction at its PC (R157, R159, R160). -/
def Ready (s : State) (c t : Nat) (w : InstrWord) : Prop := canIssue s c t w = true ∧ pcBeyond s c t = false

/-- The thread has gone on by one instruction: PC + 1 of 16 bits (R159). -/
def WentOn (s t : State) (c u : Nat) : Prop := (thread t c u).pc = ((thread s c u).pc + 1) % 2 ^ 16

/-! ### Core instructions -/

/-- `w` is operation `op` of class `cls`, counts no completion, and uses the fields of `fields` alone (R161, R170). -/
def Codes (w : InstrWord) (cls op : Nat) (fields : List (Nat × Nat)) : Prop :=
  iClass w = cls ∧ iOp w = op ∧ iCntEn w = false ∧ onlyBits w fields = true

/-- The `n` bytes at scratch offset `a` may be accessed by the thread: aligned, inside the scratch, and for a custom thread
inside its bounds (R159, R170, R173). -/
def InScratch (s : State) (c t a n align : Nat) : Prop :=
  a % align = 0 ∧ a + n ≤ 0x100000 ∧ (isCustom s c t = true → boundLo s c t ≤ a ∧ a + n ≤ boundHi s c t)

/-- Thread `t` of core `c` has issued an instruction that completes at once, and nothing but its own registers has changed:
it goes on with the next instruction, runs as before, and the rest of the device is as it was. -/
structure Issued (c t : Nat) (s u : State) : Prop where
  went : WentOn s u c t
  thread : thread u c t = { thread s c t with s := (Machine.thread u c t).s, a := (Machine.thread u c t).a,
                                              pc := (Machine.thread u c t).pc, measured := (Machine.thread u c t).measured }
  only : ThreadOnly c t s u

/-- Of the thread's registers, s[n] alone is written, with `v` of 64 bits; s0 takes nothing (R159). -/
def WritesS (c t n v : Nat) (s u : State) : Prop :=
  (∀ m, sReg u c t m = if m = n ∧ m ≠ 0 then v % 2 ^ 64 else sReg s c t m) ∧ ∀ m, aReg u c t m = aReg s c t m

/-- Of the thread's registers, a[n] alone is written, with `v` of 32 bits (R159). -/
def WritesA (c t n v : Nat) (s u : State) : Prop :=
  (∀ m, aReg u c t m = if m = n then v % 2 ^ 32 else aReg s c t m) ∧ ∀ m, sReg u c t m = sReg s c t m

/-- No register of the thread is written. -/
def WritesNone (c t : Nat) (s u : State) : Prop :=
  (∀ m, sReg u c t m = sReg s c t m) ∧ ∀ m, aReg u c t m = aReg s c t m

/-- Thread `t` of core `c` has issued a store of `l` at device address `a`: those bytes hold `l`, and every other byte of
memory outside the event log's ring, every register of the thread and the rest of the device are as they were. -/
structure Stored (c t a : Nat) (l : List Byte) (s u : State) : Prop where
  went : WentOn s u c t
  thread : thread u c t = { thread s c t with pc := (Machine.thread u c t).pc, measured := (Machine.thread u c t).measured }
  core : core u c = { core s c with threads := (Machine.core u c).threads, cycle := (Machine.core u c).cycle }
  threads : ∀ v, v ≠ t → Machine.thread u c v = Machine.thread s c v
  cores : ∀ d, d ≠ c → Machine.core u d = Machine.core s d
  rest : u = { s with cores := u.cores, cnt := u.cnt, log := u.log, host := u.host,
                      mem := { s.mem with data := u.mem.data, poison := u.mem.poison, ue := u.mem.ue } }
  host : u.host = { s.host with attnSeq := u.host.attnSeq, attnStep := u.host.attnStep,
                                attnStanding := u.host.attnStanding, events := u.host.events }
  written : memBytes u a l.length = l
  mem : ∀ x, ¬ logRing x → x < a ∨ a + l.length ≤ x → memByte u x = memByte s x

/-- Thread `t` of core `c` has issued and now waits for `x`, or runs on if `met`; other threads are as they were, but that
those whose wait is met run on (R167). -/
structure Waits (c t : Nat) (x : ThrWait) (met : Prop) (s u : State) : Prop where
  went : WentOn s u c t
  waits : ¬ met → (thread u c t).state = .waiting ∧ (thread u c t).wait = x
  runs : met → (thread u c t).state = .running ∧ (thread u c t).wait = .none
  regs : WritesNone c t s u
  others : ∀ v, v ≠ t → Machine.thread u c v = Machine.thread s c v ∨
    Machine.thread u c v = { Machine.thread s c v with state := .running, wait := .none }
  core : core u c = { core s c with threads := (Machine.core u c).threads, cycle := (Machine.core u c).cycle }
  only : CoreOnly c s u

/-- Thread `t` of core `c` has entered FAULTED with `cause`, the record holding its PC; no other thread has changed, no
register and no byte of memory outside the event log's ring, and in a run the core's fault flag is set (R170). -/
structure FaultsWith (c t cause : Nat) (s u : State) : Prop where
  thread : thread u c t = { thread s c t with state := .faulted, wait := .none, cause := cause, faultPc := (Machine.thread s c t).pc }
  threads : ∀ v, v ≠ t → Machine.thread u c v = Machine.thread s c v
  core : core u c = { core s c with threads := (Machine.core u c).threads, fault := (Machine.core s c).fault || inRun s }
  cores : ∀ d, d ≠ c → Machine.core u d = Machine.core s d
  rest : u = { s with cores := u.cores, cnt := u.cnt, log := u.log, host := u.host, trace := u.trace }
  mem : ∀ x, ¬ logRing x → memByte u x = memByte s x

/-- Thread `t` of core `c` has issued an asynchronous instruction: it goes on with one more outstanding, no register of any
thread, no other core, no byte of memory outside the event log's ring and nothing else of the device has changed (R158). -/
structure IssuedAsync (c t : Nat) (s u : State) : Prop where
  went : WentOn s u c t
  thread : thread u c t = { thread s c t with pc := (Machine.thread u c t).pc, measured := (Machine.thread u c t).measured,
                                              outstanding := (Machine.thread s c t).outstanding + 1 }
  threads : ∀ v, v ≠ t → Machine.thread u c v = Machine.thread s c v
  only : CoreOnly c s u

/-- An asynchronous instruction of thread `t` has completed: it is outstanding no longer, counter `k` has risen by 1 when
CNT_EN is set, and waits that are met have ended; no register, no byte of memory outside the event log's ring and nothing
else has changed but what the end of a custom program's measured span brings (R158, R175). -/
structure Completes (c t : Nat) (en : Bool) (k : Nat) (s u : State) : Prop where
  counters : ∀ j, kGet u c j = if en = true ∧ j = k then (kGet s c j + 1) % 2 ^ 32 else kGet s c j
  outstanding : ∀ v, (thread u c v).outstanding = if v = t then (thread s c v).outstanding - 1 else (thread s c v).outstanding
  regs : ∀ v n, sReg u c v n = sReg s c v n ∧ aReg u c v n = aReg s c v n
  pcs : ∀ v, (thread u c v).pc = (thread s c v).pc
  core : core u c = { core s c with threads := (Machine.core u c).threads, k := (Machine.core u c).k }
  cores : ∀ d, d ≠ c → Machine.core u d = Machine.core s d
  rest : u = { s with cores := u.cores, cnt := u.cnt, log := u.log, host := u.host, trace := u.trace }
  mem : ∀ x, ¬ logRing x → memByte u x = memByte s x

/-- An issue into a full queue leaves the slot empty: an issue stall is counted, and nothing else changes (R169). -/
def Stalls (c : Nat) (s u : State) : Prop := u = bump (cntCore c 24) 1 s

/-- Addresses whose bytes the journal, the save area and the event log do not show (R368, R408). -/
def plainAddr (a : Nat) : Prop := ¬ (sharedBase ≤ a ∧ a < sharedBase + 0x30000) ∧ ¬ logRing a

/-- CSR accesses that the thread is permitted. -/
def csrOk (s : State) (c t : Nat) (w : InstrWord) : Prop :=
  mOff w < 0x20000 ∧ mOff w % 4 = 0 ∧ (isCustom s c t = true → 0x1000 + t * 0x40 + 0x18 ≤ mOff w ∧ mOff w < 0x1000 + t * 0x40 + 0x30)

/-- The rows that a core instruction word can be, for thread `t` of core `c`. -/
def coreRows (c : CoreId) (t : ThreadId) (w : InstrWord) : List Instr :=
  [.tile c t w, .tbl c t w, .idle c t w, .vecAdd c t w, .vecMul c t w, .vecFma c t w, .vecMax c t w, .vecMin c t w,
   .vecCvt c t w, .w42add c t w, .drop c t w, .exp c t w, .exp2 c t w, .log c t w, .log2 c t w, .rcp c t w, .rsq c t w,
   .div c t w, .ladd c t w, .smax c t w, .rsum c t w, .rmax c t w, .xuAdd c t w, .xuMul c t w, .xuFma c t w, .xuCvt c t w,
   .dot c t w, .gather c t w, .scat c t w, .rope c t w, .xent c t w, .xgrad c t w, .nstat c t w, .movLd c t w, .movSt c t w,
   .movLdi c t w, .movMvas c t w, .movMvsa c t w, .movRdcsr c t w, .movWrcsr c t w, .movCopy c t w, .strRun c t w,
   .strRearm c t w, .strMark c t w, .strTrace c t w, .waitc c t w, .setc c t w, .bar c t w, .wstroke c t w, .ovfx c t w,
   .drain c t w, .nop c t w, .alu c t w, .alui c t w, .br c t w, .jmp c t w, .halt c t w, .adda c t w]

/-- An array's queue once its front has left: an IDLE that comes to the front begins (R90). -/
def begun : List ArrOp → List ArrOp
  | .idle t w false :: rest => .idle t w true :: rest
  | l => l

/-- Array `A` is `B` with queue `q`: beside it, only gap fields may have changed (R90 to R92). -/
def Queued (A B : ArrSt) (q : List ArrOp) : Prop := A = { B with
  queue := q, frac := A.frac, ramp := A.ramp, ballast := A.ballast, gap := A.gap, gapFrom := A.gapFrom, density := A.density }

/-- The bytes of rows that a unit's operation without OUTD writes at its D: packed in FMT_D, or W42 containers (R163). -/
def unitBytes (w : InstrWord) (rows : List (List Val)) : List Byte :=
  match fmtOfCode (vFmtD w) with
  | some f => packCodes (fmtWidth f) (rows.flatten.map fun v => (encPlain f 0 (f == .fp32) v).1)
  | none => rows.flatten.flatMap fun v => w42Bytes (enc42 v)

/-! ### Streams, the host interface and links -/

/-- No command waits in an STR queue. -/
def strIdle (s : State) : Prop := ∀ d, d < 96 → (core s d).str = []

/-- The block lists of a descriptor and of the one that it names lie outside the event log's memory, which counting can write. -/
def ListsApart (s : State) (x : DescImg) : Prop :=
  ∀ y ∈ [x, descOf s x.dest], ∀ i, i < 16 * y.nblk → ¬ logRing (y.blist + i)

/-- Entry `e` stands at the front of ring `q`, is command `op`, has zero common bytes, and the function is in D0 (R337 to R342). -/
def Front (s : State) (q op : Nat) (e : List Byte) : Prop :=
  frontEntry s q op = some e ∧ zeroAt e 1 1 = true ∧ zeroAt e 4 4 = true

/-- The front entry of ring `q` is accepted and waits for its reply; no other ring has changed (R341). -/
structure Accepted (q : Nat) (s u : State) : Prop where
  accepted : ring u q = { ring s q with accepted := true }
  rings : ∀ r, r ≠ q → ring u r = ring s r
  mem : ∀ x, memByte u x = memByte s x

/-- What replies, counts and log entries change: the host interface, counters, the log, and what is sent. -/
structure HostOnly (s u : State) : Prop where
  rest : u = { s with cnt := u.cnt, log := u.log, host := u.host, out := u.out }
  mem : ∀ x, ¬ logRing x → memByte u x = memByte s x

/-- What sending packets changes: the ports' streams, sequence numbers, retry buffers and credits, what is sent, and what
counting brings (R272 to R281). -/
structure NetOnly (s u : State) : Prop where
  rest : u = { s with
    cnt := u.cnt, log := u.log, host := u.host, out := u.out, link := { s.link with port := u.link.port } }
  host : u.host = { s.host with attnSeq := u.host.attnSeq, attnStep := u.host.attnStep, attnStanding := u.host.attnStanding, events := u.host.events }
  mem : ∀ x, ¬ logRing x → memByte u x = memByte s x

/-! ### Registers -/

/-- A doorbell or register access has ended a declaration or started the exit from G3 or G4; beside that only the host
interface, what is sent and what counting brings have changed (R363, R364). -/
def Touched (s u : State) : Prop := u = { s with
  host := u.host, out := u.out, cnt := u.cnt, log := u.log,
  pwr := { s.pwr with nextAt := u.pwr.nextAt, exiting := s.pwr.exiting || (s.pwr.state == .g3 || s.pwr.state == .g4) } }

/-- The register at `off` answers and takes writes in all its RW fields (R425, R427, R428). -/
structure Writable (s : State) (off : Nat) : Prop where
  booted : s.dev ≠ .boot
  seen : recoveryHides s off = false
  here : instanceExists s off = true
  on : domainOff s off = false
  free : regLocked s off = false

/-- Writes of these registers do nothing beside storing the value: not HST_RING_CTL, MGT_POSITION, PWR_CMD, PWR_NEXT,
MBX_OP, CNT_SNAP_CTL, MEM_CTL or LNK_CTL. -/
def silent (off : Nat) : Prop :=
  ¬ (0x3000 ≤ off ∧ off < 0x3800 ∧ off % 0x20 = 0x10) ∧ off ∉ [0x10, 0xB000, 0xB008, 0x100004, 0x200000, 0x400000] ∧
    ¬ (0x300000 ≤ off ∧ off < 0x400000 ∧ off % 0x10000 = 0)

/-- The mailbox operation has ended with a code; one that a message asked for is answered with its completion and the code
(R418, R419). -/
def MboxReplied (src : MboxSrc) (code : Nat) (t : State) : Prop :=
  t.mgmt.mboxCode = code ∧ ∀ a b, src = .mctp a b → t.out.head? = some (.mctp [0x7E, BitVec.ofNat 8 code])

/-- What a read finds in its words brings counters, lifetime fields, the health monitor's inputs, and the words that are known
to be lost or hold poison (R242, R251, R252, R304). -/
structure EccOnly (s u : State) : Prop where
  rest : u = { s with cnt := u.cnt, log := u.log, host := u.host, mgmt := { s.mgmt with life := u.mgmt.life },
                      res := { s.res with ue := u.res.ue, now := u.res.now }
                      mem := { s.mem with ue := u.mem.ue, poison := u.mem.poison } }
  mem : ∀ x, ¬ logRing x → memByte u x = memByte s x

/-- The pass of descriptor `d` has ended, and no RUN waits for it: its mark is posted, its shadow taken with GEN one higher, and
its issuer counted (R258, R261, R263). -/
structure PassEnded (d : Nat) (s u : State) : Prop where
  pass : (desc u d).pass = none
  others : ∀ e, e ≠ d → desc u e = desc s e
  shadow : (desc u d).shadow = none
  gen : (desc u d).gen = if (desc s d).shadow = none then (desc s d).gen else ((desc s d).gen + 1) % 2 ^ 32
  marks : ∀ m, mark u m = if bitN (descOf s d).action 0 = true ∧ m = (descOf s d).postMark ∧ m ≠ 0xFFFF then
    (mark s m + (descOf s d).postInc) % 2 ^ 32 else mark s m
  queues : ∀ c, (core u c).str = (core s c).str
  rest : u = { s with cnt := u.cnt, log := u.log, host := u.host, trace := u.trace, cores := u.cores, mem := u.mem
                      stm := { s.stm with desc := u.stm.desc, marks := u.stm.marks } }

/-! ### Ports -/

/-- What a port changes beside sending: its own state, what is sent, the health monitor's inputs, lifetime fields, and what
counting brings (R272 to R275). -/
structure PortOnly (s u : State) : Prop where
  rest : u = { s with cnt := u.cnt, log := u.log, host := u.host, out := u.out, link := { s.link with port := u.link.port },
                      mgmt := { s.mgmt with life := u.mgmt.life }, res := { s.res with now := u.res.now } }
  mem : ∀ x, ¬ logRing x → memByte u x = memByte s x

/-- The symbols that a frame's codewords correct on one lane of a port: a sub-port's lanes follow each other (R275). -/
def laneSymbols (b lane : Nat) (corrected : List Nat) : Nat :=
  ((corrected.zipIdx.filter fun x => (2 * b + x.2) % 4 == lane).map (·.1)).sum

/-- Port `p` has gone down: neither sub-port carries frames, the other ports are as they were, and in a run the step is held
and the port's path stands for the resilience controller (R273, R275, R318). -/
structure PortFails (p : Nat) (s u : State) : Prop where
  down : (port u p).sub0.up = false ∧ (port u p).sub1.up = false
  peers : (port u p).sub0.peerValid = false ∧ (port u p).sub1.peerValid = false
  ports : ∀ q, q ≠ p → port u q = port s q
  path : inRun s = true → ({ code := 2, pos := myPos s, part := p, arg := 0 } : FailPath) ∈ u.res.paths ∧ 11 ≤ u.run.holdDue
  rest : u = { s with cnt := u.cnt, log := u.log, host := u.host, out := u.out, link := { s.link with port := u.link.port },
                      mgmt := { s.mgmt with life := u.mgmt.life }, res := { s.res with now := u.res.now, paths := u.res.paths },
                      run := { s.run with holdDue := u.run.holdDue } }
  mem : ∀ x, ¬ logRing x → memByte u x = memByte s x

/-- What holding the result `x` of control reduction `id` brings where it starts nothing further: from `s`, whose operands have been
passed on in `v`, the device comes to `u` (R209, R284, R288, R293, R315, R345; the identifiers are the model's, log entry 53). -/
structure ResultHeld (s : State) (id x : Nat) (v u : State) : Prop where
  ready : id = ctlReady → s.run.limitRes = none → u = { v with run := { v.run with readyRes := some x } }
  limit : id = ctlLimit → s.run.readyRes = none → u = { v with run := { v.run with limitRes := some x } }
  dist : id = ctlDist → x % 2 = 1 → s.run.phase = .distribution → u = { v with run := { v.run with distDone := true } }
  flags : id = ctlFlags → x = 0 → u = v
  kept : id = ctlKept → u = { v with res := { v.res with keptRes := some x } }
  wsum : id = ctlWsum → u = { v with res := { v.res with wsumRes := some (x % 2 ^ 64) } }
  scale : id = ctlScale → x % 2 = 1 → u = { v with red := { v.red with scaleFind := false, scalesKnown := true } }
  digest : id = ctlDigest → s.run.boundWait = false → u.link.digestOk = (x % 2 == 0) ∧ u.link.digestDone = true ∧
    (x % 2 = 0 → s.dev = .loaded → s.plan ≠ none → u.dev = .planned) ∧ (x % 2 = 1 → u.dev = s.dev)

/-! ### Packets -/

/-- A well-formed packet of class `cls` and kind `kind` arrives on a port that is up, for this device and in its own link
epoch (R276, R277, R282). -/
structure Arrives (s : State) (p b hdr : Nat) (body : List Byte) (cls kind : Nat) : Prop where
  up : (subp s p b).up = true
  cls : (readHdr hdr).cls = cls
  kind : (readHdr hdr).kind = kind
  ok : hdrBad hdr body = false
  mine : forMe s (readHdr hdr) = true
  epoch : (readHdr hdr).epoch = s.link.epoch

/-- What sending on flows changes beside `NetOnly`: the credit in use and the packets that wait for it (R280). -/
structure FlowOnly (s u : State) : Prop where
  rest : u = { s with cnt := u.cnt, log := u.log, host := u.host, out := u.out,
                      link := { s.link with port := u.link.port, credit := u.link.credit }, red := { s.red with outq := u.red.outq } }
  mem : ∀ x, ¬ logRing x → memByte u x = memByte s x

/-! ### Strokes -/

/-- A stroke edge in which no start, digest exchange or secure stop is under way. -/
structure PlainEdge (s : State) : Prop where
  aon : s.pins.aon = true
  dev : s.dev ≠ .boot ∧ s.dev ≠ .recovery ∧ s.dev ≠ .securing
  start : s.run.startAt = none
  digest : s.link.digestSent = false
  where_ : inRun s = true ∨ s.plan = none

/-- What every stroke edge brings: the counter has gone on by 1 of 48 bits, the cores' clock by the cycles of a stroke, the markers
are out, lock, the plan, registers and memory are as before. -/
structure Ticked (s t : State) : Prop where
  count : t.stroke.count = (s.stroke.count + 1) % 2 ^ 48
  ticks : t.stroke.ticks = s.stroke.ticks + 13 * periodNs s
  guard : t.stroke.guard = false
  same : t.stroke.locked = s.stroke.locked ∧ t.stroke.master = s.stroke.master ∧ t.stroke.noParent = s.stroke.noParent
  plan : t.plan = s.plan
  regs : t.regs = s.regs
  mem : ∀ x, ¬ logRing x → memByte t x = memByte s x
  catch_ : ∀ q ∈ activePorts t, ∃ h, Output.packet q.1 q.2 h (b8 t.stroke.count ++ b4 0 ++ b4 (b2n t.stroke.locked)) ∈ t.out
  pulse : bitN (reg s 0x4000) 1 = true → Output.strokeOut ∈ t.out

/-- What sending and combining the parts of a round changes: the exchange's own records, flows, what is sent, and what counting
brings (R31, R299, R300). -/
structure SumsOnly (s u : State) : Prop where
  rest : u = { s with
    cnt := u.cnt, log := u.log, host := u.host, out := u.out, link := { s.link with port := u.link.port, credit := u.link.credit }
    red := { s.red with outq := u.red.outq, parts := u.red.parts, closed := u.red.closed, combined := u.red.combined
                        results := u.red.results, sums := u.red.sums } }
  mem : ∀ x, ¬ logRing x → memByte u x = memByte s x

/-- The step of `s` is held with `cause`: its boundary begins with nothing of it staged, passes are aborted, threads stop, the link
epoch advances, and the step's decisions leave the journal (R170, R253, R264, R311, R319). -/
structure Held (cause : Nat) (s t : State) : Prop where
  run : t.run = { s.run with
    holdDue := 0, heldCause := cause, boundDone := false, boundWait := false, enter := true, moments := [], bookWrites := [], booksDone := []
    converted := [], norms := [], losses32 := [], phase := .boundary, phaseStart := s.stroke.count, slotStart := s.stroke.slot
    carried := carriedRings s, sentRisk := s.res.risk }
  same : t.stroke = s.stroke ∧ t.dev = s.dev ∧ t.plan = s.plan ∧ t.regs = s.regs ∧ t.adm = s.adm ∧ t.sources = s.sources ∧ t.cox = s.cox
  epoch : t.link.epoch = (s.link.epoch + 1) % 65536
  early : t.link.early = s.link.early
  red : t.red = { scalesKnown := s.red.scalesKnown, outq := t.red.outq, parts := t.red.parts, closed := t.red.closed
                  combined := t.red.combined, results := t.red.results, sums := t.red.sums }
  passes : ∀ d, (desc t d).pass = none
  threads : ∀ c v, (thread t c v).state = .stopped
  res : t.res = { s.res with journal := s.res.journal.filter fun e => e.step != s.run.step }

/-- The failure paths that a hold records: they join the others, and counting and the planner copy may follow. -/
structure PathsOnly (s u : State) : Prop where
  rest : u = { s with res := u.res, mem := u.mem, cnt := u.cnt, log := u.log, host := u.host }
  res : u.res = { s.res with paths := u.res.paths, kept := u.res.kept, secureDue := u.res.secureDue }
  paths : ∀ f ∈ s.res.paths, f ∈ u.res.paths
  host : u.host = { s.host with attnSeq := u.host.attnSeq, attnStep := u.host.attnStep, attnStanding := u.host.attnStanding, events := u.host.events }
/-- The OR of the flags holds the step of `s` in `t`: the cause is the greatest flag, this device's failures take their paths, a faulted
core of a lockkeeper program path 5 with what its self-test found, and memory stays but for a planner copy that was bad (R170, R253,
R254, R318, R319). -/
def HeldFrom (flags : Nat) (s t : State) : Prop :=
  ∃ w, Held (Nat.log2 flags) w t ∧ PathsOnly { s with res := { s.res with badAddrs := [] } } w ∧
    ((∀ x ∈ s.res.badAddrs, ¬ (plannerCopy s ≤ x.1 ∧ x.1 < traceRegion s)) → t.mem = s.mem) ∧
    ∀ c ∈ faultedCores s, customFault s c = false →
      ({ code := 5, pos := myPos s, part := c, arg := b2n (s.res.selfTest.any fun x => x / 4 == c) } : FailPath) ∈ w.res.paths

/-! ### The step boundary -/

/-- What the cox changes at a boundary: its own state, the need for a replan, and what counting and tracing bring. -/
structure CoxOnly (s u : State) : Prop where
  rest : u = { s with
    cox := u.cox, run := { s.run with planDue := u.run.planDue }, cnt := u.cnt, log := u.log, host := u.host, trace := u.trace }
  host : u.host = { s.host with attnSeq := u.host.attnSeq, attnStep := u.host.attnStep, attnStanding := u.host.attnStanding, events := u.host.events }
  due : s.run.planDue = true → u.run.planDue = true
  mem : ∀ x, ¬ logRing x → memByte u x = memByte s x

/-- The writes that the commit of a step makes (R32, R201, R309): codebooks rebuilt in the distribution, and the moments of the
update; a skipped step has no moments. -/
def staged (s : State) : List (Nat × List Byte) := s.run.bookWrites ++ if s.run.skipped then [] else s.run.moments

/-- The step of `s` is committed in `d` (R32 action 1): the reduced loss and tokens of the exchange are the last ones, its slots
are free, and its updates are current unless it was skipped. -/
structure Committed (s d : State) : Prop where
  last : d.run.last = some s.run.step
  step : d.run.step = s.run.step + 1
  tokens : d.run.tokens = BitVec.ofNat 32 (exchanged s).tokens
  loss : d.run.loss = lossOf (exchanged s).loss ((exchanged s).tokens % 2 ^ 32)
  losses : d.run.losses = s.run.losses ++ [(s.run.step, d.run.loss)]
  slots : ∀ i, slot d i = usedSlot s.run.step (slot s i)
  segments : d.adm.segments = s.adm.segments.filter fun g => g.step != s.run.step
  skipped : s.run.skipped = true → d.plan = s.plan ∧ d.run.copies = s.run.copies ∧ d.run.opt = s.run.opt
  swapped : s.run.skipped = false → d.plan = s.plan.map (swapPlan (otherCopy s)) ∧
    d.run.copies = (s.run.copies.map fun c => (c.2.1, c.1, c.2.2)) ∧
    d.run.opt = (s.run.opt.map fun x => match optEntry s x.1 with | some e => (x.1, advPowers e x.2) | none => x)
  memory : (∀ x, ¬ logRing x → (∀ y ∈ staged s, x < y.1 ∨ y.1 + y.2.length ≤ x) → memByte d x = memByte s x) ∧
    ∀ (l r : List (Nat × List Byte)) (a : Nat) (m : List Byte), staged s = l ++ (a, m) :: r →
      (∀ y ∈ r, a + m.length ≤ y.1 ∨ y.1 + y.2.length ≤ a) → (∀ j, j < m.length → plainAddr (a + j)) → memBytes d a m.length = m
  fin : d.run.fin = { committed := true, step := s.run.step, refused := (exchanged s).refused, replayed := s.res.rollback }
  run : d.run = { s.run with
    fin := d.run.fin, last := d.run.last, step := d.run.step, loss := d.run.loss, tokens := d.run.tokens, losses := d.run.losses
    snapLast := s.run.snap, lastSkipped := s.run.skipped, moments := [], bookWrites := [], opt := d.run.opt, copies := d.run.copies
    planDue := d.run.planDue }
  host : d.host = { s.host with attnSeq := d.host.attnSeq, attnStep := d.host.attnStep, attnStanding := d.host.attnStanding, events := d.host.events }
  rest : d = { s with
    run := d.run, res := { s.res with sinceImage := s.res.sinceImage + 1 }, adm := { s.adm with slots := d.adm.slots, segments := d.adm.segments }
    plan := d.plan, mem := d.mem, cox := d.cox, trace := d.trace, cnt := d.cnt, log := d.log, host := d.host }

/-- Actions 3 and 4 of a boundary find nothing to do in `d`: no device has reported a failure, a stop, a pause or a lost host, no
run-wide command waits, and no replan is due. -/
structure QuietEnd (d : State) : Prop where
  plan : d.run.planDue = false ∧ d.run.boundWait = false
  back : d.res.rollback = false
  paths : (exchanged d).paths = [] ∧ d.res.lost = [] ∧ d.res.path = 0 ∧ d.res.secureDue = false
  hold : d.run.fin.hold = 0 ∧ d.run.fin.pause = false ∧ d.run.fin.pauseEnd = false ∧ d.run.fin.planActed = false ∧
    d.run.fin.secure = false ∧ d.run.secured = false
  commands : d.host.rwPause = [] ∧ d.host.rwPlan = none ∧ d.host.rwSecure = []
  asked : (exchanged d).pause = false ∧ (exchanged d).secure = false ∧ (exchanged d).hostLost = false
  dev : d.dev = .running ∨ d.dev = .recovering

/-- The boundary ends with the run going on: the reply is due, the count of refusals starts again, and nothing else changes
but the risk level of the system and what the host interface holds. -/
structure BoundaryEnds (d t : State) : Prop where
  dev : t.dev = .running
  run : t.run = { d.run with boundDone := true, fin := t.run.fin }
  fin : t.run.fin.hold = 0 ∧ t.run.fin.committed = d.run.fin.committed ∧ t.run.fin.step = d.run.fin.step
  risk : t.res = { d.res with sysRisk := (exchanged d).risk }
  mem : ∀ x, ¬ logRing x → memByte t x = memByte d x
  rest : t = { d with
    dev := t.dev, run := t.run, res := t.res, adm := { d.adm with refused := t.adm.refused }, cnt := t.cnt, log := t.log, host := t.host, out := t.out }
  refused : d.run.fin.replayed = false → t.adm.refused = 0
  reply : d.run.fin.replayed = false → ringEnabled d d.host.runRing = true → rqFull d d.host.runRing = false → d.host.d3hot = false →
    (ring d d.host.runRing).queued = [] → hostRange d (rqBase d d.host.runRing + 32 * (ring d d.host.runRing).rqTail) 32 = true →
    Output.hostWrite (rqBase d d.host.runRing + 32 * (ring d d.host.runRing).rqTail + 8)
      (padTo 24 (b4 (if d.run.fin.committed then d.run.fin.step else stepField d) ++ b4 d.run.loss.toNat ++ b4 d.run.tokens.toNat ++
        leBytes 2 (stepFlags d) ++ leBytes 2 (min d.run.easy 0xFFFF) ++ b4 d.run.fin.refused ++ b4 (d.stroke.count + 1 - d.run.startStroke))) ∈ t.out

end Sys2Proof.Machine
end

