-- ==== Sys2Proof/Certificates/Slice0/Obligations.lean ====
section
/-! DEFINITION. The statements for the provers. Each says what commands answer, under hypotheses on the state and the
operands alone, and what they leave unchanged; the rules of spec/ that it rests on stand in its docstring, and so do the
rows of the assumption log where it rests on a choice of the model. -/

open Sys2Proof hiding core
open Sys2Proof.Machine

/-- A step runs the command at the front of the queue (12_host_rings, 95_what_each_step_holds). For every command c
and state, step with c at the front of the queue is exec of c with the rest of the queue; an empty queue leaves the
state as it is. The queue is the model's choice (log entry 1). -/
def Obligations.StepRunsFront : Prop :=
  (∀ (c : Instr) (s : State), step { s with pending := c :: s.pending } = exec c s) ∧
  (∀ (c : Instr) (l : List Instr) (s : State), s.pending = c :: l → step s = exec c { s with pending := l }) ∧
  ∀ s : State, s.pending = [] → step s = .next s

/-- Every command completes, and leaves the queue and the fixed fuses alone (R88, R370, R400, R402, R431, R432). For
every command c and every state, exec answers a next state with the same queue and the same fuses, except
anti-rollback and revocation bits, which alone are blown after manufacture. That every command completes is the
model's choice for events that the state cannot bring about (log entry 2). -/
def Obligations.QueueAndFuses : Prop :=
  ∀ (c : Instr) (s : State), ∃ t, exec c s = .next t ∧ t.pending = s.pending ∧ fixedFuses t.fuses = fixedFuses s.fuses

/-- Every step keeps the invariant of the device (R311, R348, R379, R380, R408, R409). For every state with the
invariant, a step that answers a next state answers one with the invariant: register file and memory in canonical form
with poison marks, every counter at most 2^48 - 1 units, at most 8,192 journal entries, at most 8,192 log entries that
wait for the flash, ATTN_SEQ below 256. The canonical form is the model's (log entry 9). -/
def Obligations.InvariantKept : Prop :=
  ∀ s s' : State, Inv s → step s = .next s' → Inv s'

/-- The state after reset has the invariant (R311, R348, R380, R408, R427). The invariant of InvariantKept holds of
State.reset. -/
def Obligations.InvariantAtReset : Prop := Inv State.reset

/-- E8M0 scale codes: 2^(code - 127), and 0xFF makes a NaN block (R46). For every MX element format and element code,
scale code 255 gives NaN, and every code from 0 to 254 gives the element value times 2^(code - 127). -/
def Obligations.BlockScales : Prop :=
  ∀ (f : Fmt) (e : Nat), mxVal f 255 e = .nan ∧ ∀ c, c ≤ 254 → mxVal f c e = vScale ((c : Int) - 127) (decElem f e)

/-- Window registers do not move while a core's RUN_LOCK reads 1 (R335). While RUN_LOCK of any core reads 1, a 4-byte
or 8-byte write, and a write of an alias word, of a window register is ignored and counted as a refused write; every
register keeps its value. -/
def Obligations.WindowRegisters : Prop :=
  (∀ (off : Nat) (v : DWord) (s : State) (c : Nat), 0x3800 ≤ off → off < 0x3900 → off % 4 = 0 → runLock s c = true →
    ∃ t, exec (.registerWrite off 4 v) s = .next (refuseWrite t) ∧ t = wakeAccess s ∧ CountsOnly t (refuseWrite t) ∧
      ∀ o, reg (refuseWrite t) o = reg s o) ∧
  (∀ (off : Nat) (v : DWord) (s : State) (c : Nat), 0x3800 ≤ off → off < 0x3900 → off % 8 = 0 → runLock s c = true →
    ∃ t, exec (.registerWrite off 8 v) s = .next (refuseWrite t) ∧ t = refuseWrite (wakeAccess s) ∧ CountsOnly t (refuseWrite t) ∧
      ∀ o, reg (refuseWrite t) o = reg s o) ∧
  ∀ (x b : Nat) (v : Word) (s : State) (c : Nat), 0x3800 ≤ x → x < 0x3900 → x % 4 = 0 → b < 32 → runLock s c = true →
    ∃ t, exec (.aliasWrite (0x2000000 + (x * 8 + b) * 4) v) s = .next (refuseWrite t) ∧ t = wakeAccess s ∧
      CountsOnly t (refuseWrite t) ∧ ∀ o, reg (refuseWrite t) o = reg s o

/-- The update equations of SGD, AdamW and Lion (R198). For each algorithm the new weight and moments of an element
are the pseudocode's fused and rounded operations, in its order; the clip bounds the gradient to [-CLIP, CLIP] and
leaves NaN; sgn is -1, 0, +1 and the canonical NaN of NaN. -/
def Obligations.OptimiserEquations : Prop :=
  (∀ (e : OptEntry) (k : UpdScalars) (g w m v : Word), e.algo = 0 →
    updElem e k g w m v = (fma32 (neg32 k.lr) (fma32 e.beta1 m (fma32 e.wd w g)) w, fma32 e.beta1 m (fma32 e.wd w g), v)) ∧
  (∀ (e : OptEntry) (k : UpdScalars) (g w m v m1 v1 : Word), e.algo = 1 →
    m1 = fma32 k.c1 g (mul32 e.beta1 m) → v1 = fma32 k.c2 (mul32 g g) (mul32 e.beta2 v) →
    updElem e k g w m v = (sub32 (fma32 (neg32 k.dk) w w) (div32 (mul32 k.a m1) (add32 (div32 (sqrt32 v1) k.q) e.eps)), m1, v1)) ∧
  (∀ (e : OptEntry) (k : UpdScalars) (g w m v c : Word), e.algo = 2 → c = fma32 k.c1 g (mul32 e.beta1 m) →
    updElem e k g w m v = (fma32 (neg32 k.lr) (sgn32 c) (fma32 (neg32 k.dk) w w), fma32 k.c2 g (mul32 e.beta2 m), v)) ∧
  (∀ (e : OptEntry) (g : Word), (e.clipEn = false ∨ vIsNan (dec32 g) = true → clipGrad e g = g) ∧
    (e.clipEn = true → vIsNan (dec32 g) = false →
      (lt32 g (neg32 e.clip) = true → clipGrad e g = neg32 e.clip) ∧
      (lt32 g (neg32 e.clip) = false → lt32 e.clip g = true → clipGrad e g = e.clip) ∧
      (lt32 g (neg32 e.clip) = false → lt32 e.clip g = false → clipGrad e g = g))) ∧
  ∀ c : Word, (vIsNan (dec32 c) = true → sgn32 c = nan32) ∧
    (vIsNan (dec32 c) = false → (lt32 c 0 = true → sgn32 c = neg32 one32) ∧ (lt32 c 0 = false → lt32 0 c = true → sgn32 c = one32) ∧
      (lt32 c 0 = false → lt32 0 c = false → sgn32 c = 0))

/-- ALU function codes and branch condition codes (R168). FUNC codes 0 to 12 are the 64-bit operations of the table,
with shifts by the low 6 bits of the count; COND codes 0 to 5 are EQ, NE, LT, GE, LTU and GEU. -/
def Obligations.FunctionCodes : Prop :=
  (∀ x y : BitVec 64, let n := y.toNat % 64
    aluFn 0 x.toNat y.toNat = (x + y).toNat ∧ aluFn 1 x.toNat y.toNat = (x - y).toNat ∧
    aluFn 2 x.toNat y.toNat = (x &&& y).toNat ∧ aluFn 3 x.toNat y.toNat = (x ||| y).toNat ∧
    aluFn 4 x.toNat y.toNat = (x ^^^ y).toNat ∧ aluFn 5 x.toNat y.toNat = (x <<< n).toNat ∧
    aluFn 6 x.toNat y.toNat = (x >>> n).toNat ∧ aluFn 7 x.toNat y.toNat = (x.sshiftRight n).toNat ∧
    aluFn 8 x.toNat y.toNat = (x * y).toNat ∧ aluFn 9 x.toNat y.toNat = (if x.sle y then x else y).toNat ∧
    aluFn 10 x.toNat y.toNat = (if x.sle y then y else x).toNat ∧
    aluFn 11 x.toNat y.toNat = (if x.slt y then 1 else 0) ∧ aluFn 12 x.toNat y.toNat = (if x.ult y then 1 else 0)) ∧
  (∀ x y : BitVec 64,
    condMet 0 x.toNat y.toNat = (x == y) ∧ condMet 1 x.toNat y.toNat = (x != y) ∧ condMet 2 x.toNat y.toNat = x.slt y ∧
    condMet 3 x.toNat y.toNat = y.sle x ∧ condMet 4 x.toNat y.toNat = x.ult y ∧ condMet 5 x.toNat y.toNat = y.ule x)

/-- ALU, ALUI and ADDA: result and frame (R157, R159, R161, R168). A ready ALU, ALUI or ADDA issues: it writes its one
destination with the function of its operands (s0 discards the write), moves the PC on by one, and changes no other
register, thread, core, stream or byte of memory outside the event log. -/
def Obligations.ScalarInstructions : Prop :=
  (∀ (c : CoreId) (t : ThreadId) (w : InstrWord) (s : State), Ready s c t w → Codes w 7 1 [(24, 19)] → cFunc w ≤ 12 →
    ∃ u, exec (.alu c t w) s = .next u ∧ Issued c t s u ∧
      WritesS c t (cD w) (aluFn (cFunc w) (sReg s c t (cS1 w)) (sReg s c t (cS2 w))) s u) ∧
  (∀ (c : CoreId) (t : ThreadId) (w : InstrWord) (s : State), Ready s c t w →
    Codes w 7 2 [(24, 10), (39, 4), (64, 32)] → cFunc w ≤ 12 →
    ∃ u, exec (.alui c t w) s = .next u ∧ Issued c t s u ∧
      WritesS c t (cD w) (aluFn (cFunc w) (sReg s c t (cS1 w)) (cImm w)) s u) ∧
  (∀ (c : CoreId) (t : ThreadId) (w : InstrWord) (s : State), Ready s c t w → Codes w 7 6 [(24, 4), (29, 4), (64, 32)] →
    ∃ u, exec (.adda c t w) s = .next u ∧ Issued c t s u ∧
      WritesA c t (iF w 24 4) (aReg s c t (iF w 29 4) + iF w 64 32) s u)

/-- NOP, BR, JMP and HALT (R157, R160, R168, R175). NOP writes nothing; BR goes to IMM where its condition holds and
on by one elsewhere; JMP goes to IMM; HALT halts its own thread. No register or byte of memory outside the event log
changes. -/
def Obligations.ControlFlow : Prop :=
  (∀ (c : CoreId) (t : ThreadId) (w : InstrWord) (s : State), Ready s c t w → Codes w 7 0 [] →
    ∃ u, exec (.nop c t w) s = .next u ∧ Issued c t s u ∧ WritesNone c t s u) ∧
  (∀ (c : CoreId) (t : ThreadId) (w : InstrWord) (s : State), Ready s c t w → Codes w 7 3 [(29, 10), (43, 4), (64, 32)] →
    cCond w ≤ 5 →
    ∃ u, exec (.br c t w) s = .next u ∧ WritesNone c t s u ∧ ThreadOnly c t s u ∧
      (thread u c t).state = (thread s c t).state ∧
      (thread u c t).pc = if condMet (cCond w) (sReg s c t (cS1 w)) (sReg s c t (cS2 w)) then iF w 64 32 % 2 ^ 16
        else ((thread s c t).pc + 1) % 2 ^ 16) ∧
  (∀ (c : CoreId) (t : ThreadId) (w : InstrWord) (s : State), Ready s c t w → Codes w 7 4 [(64, 32)] →
    ∃ u, exec (.jmp c t w) s = .next u ∧ WritesNone c t s u ∧ ThreadOnly c t s u ∧
      (thread u c t).state = (thread s c t).state ∧ (thread u c t).pc = iF w 64 32 % 2 ^ 16) ∧
  (∀ (c : CoreId) (t : ThreadId) (w : InstrWord) (s : State), Ready s c t w → Codes w 7 5 [] →
    ∃ u, exec (.halt c t w) s = .next u ∧ WritesNone c t s u ∧ (thread u c t).state = .halted ∧
      (∀ v, v ≠ t.val → (thread u c v).state = (thread s c v).state) ∧
      ((thread s c t).prog = none → ThreadOnly c t s u))

/-- LDI, MVAS, MVSA, RDCSR and WRCSR (R159, R165, R173, R176, R424, R425). LDI, MVAS and MVSA write their destination
register; RDCSR writes the value of a register of the own core's window, read after the PC has moved on (log entry
16); WRCSR stores the masked value in that register, in a run too (log entry 18), and no other register of the device
changes. -/
def Obligations.RegisterMoves : Prop :=
  ((∀ (c : CoreId) (t : ThreadId) (w : InstrWord) (s : State), Ready s c t w → Codes w 4 2 [(24, 5), (64, 64)] →
    ∃ u, exec (.movLdi c t w) s = .next u ∧ Issued c t s u ∧ WritesS c t (mSreg w) (iF w 64 64) s u) ∧
  (∀ (c : CoreId) (t : ThreadId) (w : InstrWord) (s : State), Ready s c t w → Codes w 4 3 [(24, 9)] →
    ∃ u, exec (.movMvas c t w) s = .next u ∧ Issued c t s u ∧ WritesS c t (mSreg w) (aReg s c t (mAreg w)) s u) ∧
  (∀ (c : CoreId) (t : ThreadId) (w : InstrWord) (s : State), Ready s c t w → Codes w 4 4 [(24, 9)] →
    ∃ u, exec (.movMvsa c t w) s = .next u ∧ Issued c t s u ∧ WritesA c t (mAreg w) (sReg s c t (mSreg w)) s u)) ∧
  ((∀ (c : CoreId) (t : ThreadId) (w : InstrWord) (s : State), Ready s c t w → Codes w 4 5 [(24, 5), (36, 20)] →
    csrOk s c t w →
    ∃ u, exec (.movRdcsr c t w) s = .next u ∧ Issued c t s u ∧
      WritesS c t (mSreg w) (readReg (advance c t s) (coreWindow c + mOff w)) s u) ∧
  (∀ (c : CoreId) (t : ThreadId) (w : InstrWord) (s : State) (r : RegInfo), Ready s c t w →
    Codes w 4 6 [(24, 5), (36, 20)] → csrOk s c t w → regInfo (coreWindow c + mOff w) = some r → r.rw ≠ 0 →
    regOk (coreWindow c + mOff w) (sReg s c t (mSreg w) % 2 ^ 32 &&& r.rw) = true →
    ∃ u, exec (.movWrcsr c t w) s = .next u ∧ WentOn s u c t ∧ WritesNone c t s u ∧
      reg u (coreWindow c + mOff w) = sReg s c t (mSreg w) % 2 ^ 32 &&& r.rw ∧
      (∀ o, o ≠ coreWindow c + mOff w → reg u o = reg s o) ∧ (∀ x, ¬ logRing x → memByte u x = memByte s x) ∧
      u = { s with cores := u.cores, cnt := u.cnt, log := u.log, host := u.host, regs := u.regs }))

/-- LD and ST of scratch (R9, R159, R165, R173, R250, R253). A ready LD with an address in range writes the
little-endian bytes at its scratch address, sign-extended where asked; poison raises the core's flag in a run. A ready
ST writes exactly its bytes at the address it computes; every other byte reads as before. -/
def Obligations.ScratchAccess : Prop :=
  (∀ (c : CoreId) (t : ThreadId) (w : InstrWord) (s : State), Ready s c t w → Codes w 4 0 [(24, 32)] →
    InScratch s c t (mAddr s c t w) (mSize w) (mSize w) →
    ∃ u, exec (.movLd c t w) s = .next u ∧ WentOn s u c t ∧
      WritesS c t (mSreg w)
        (if mSext w then toTwos 64 (sInt (8 * mSize w) (leNat (memBytes s (scratchAddr c (mAddr s c t w)) (mSize w))))
          else leNat (memBytes s (scratchAddr c (mAddr s c t w)) (mSize w))) s u ∧
      (∀ x, ¬ logRing x → memByte u x = memByte s x) ∧ (∀ v, v ≠ t.val → thread u c v = thread s c v) ∧
      (anyPoison s (scratchAddr c (mAddr s c t w)) (mSize w) = false → Issued c t s u) ∧
      (anyPoison s (scratchAddr c (mAddr s c t w)) (mSize w) = true → inRun s = true → (core u c).poison = true)) ∧
  (∀ (c : CoreId) (t : ThreadId) (w : InstrWord) (s : State), Ready s c t w → Codes w 4 1 [(24, 11), (36, 20)] →
    InScratch s c t (mAddr s c t w) (mSize w) (mSize w) →
    ∃ u, exec (.movSt c t w) s = .next u ∧
      Stored c t (scratchAddr c (mAddr s c t w)) (leBytes (mSize w) (sReg s c t (mSreg w))) s u ∧ u.mem.poison = s.mem.poison)

/-- COPY and MOV_COMPLETE (R156, R159, R165). COPY within scratch moves LEN bytes and leaves every byte outside its
destination; the thread waits for MOV_COMPLETE where LEN exceeds 1,536 (the threshold is the model's choice, log entry
17), which ends the wait and changes nothing else. -/
def Obligations.Copies : Prop :=
  (∀ (c : CoreId) (t : ThreadId) (w : InstrWord) (s : State), Ready s c t w → Codes w 4 7 [(29, 4), (36, 56)] →
    1 ≤ mLen w → InScratch s c t (mAddr s c t w) (mLen w) 1 → InScratch s c t (mAddr2 s c t w) (mLen w) 1 →
    anyPoison s (scratchAddr c (mAddr s c t w)) (mLen w) = false →
    ∃ u, exec (.movCopy c t w) s = .next u ∧ WentOn s u c t ∧
      memBytes u (scratchAddr c (mAddr2 s c t w)) (mLen w) = memBytes s (scratchAddr c (mAddr s c t w)) (mLen w) ∧
      (∀ x, ¬ logRing x → x < scratchAddr c (mAddr2 s c t w) ∨ scratchAddr c (mAddr2 s c t w) + mLen w ≤ x →
        memByte u x = memByte s x) ∧
      WritesNone c t s u ∧ (∀ v, v ≠ t.val → thread u c v = thread s c v) ∧
      (thread u c t).wait = if 1536 < mLen w then .mov else .none) ∧
  (∀ (c : CoreId) (t : ThreadId) (s : State), (thread s c t).wait = .mov →
    ∃ u, exec (.movComplete c t) s = .next u ∧ thread u c t = { thread s c t with wait := .none } ∧ ThreadOnly c t s u)

/-- WAITC, BAR, WSTROKE, DRAIN and SETC (R158, R159, R167, R169, R173). Each wait leaves its thread running where its
condition holds already and waiting on it elsewhere; the last thread of a barrier frees every thread of its mask; SETC
sets its one counter and ends exactly the waits that its value meets. -/
def Obligations.SyncInstructions : Prop :=
  ((∀ (c : CoreId) (t : ThreadId) (w : InstrWord) (s : State), Ready s c t w → Codes w 6 0 [(24, 14), (64, 32)] →
    (isCustom s c t = true → inKRange s c t (yKidx w) = true) →
    ∃ u, exec (.waitc c t w) s = .next u ∧
      Waits c t (.counter (yKidx w) (yV s c t w))
        (0 ≤ (BitVec.ofNat 32 (kGet s c (yKidx w)) - BitVec.ofNat 32 (yV s c t w)).toInt) s u) ∧
  (∀ (c : CoreId) (t : ThreadId) (w : InstrWord) (s : State), Ready s c t w → Codes w 6 2 [(96, 32)] →
    bitN (yMask w) t = true →
    ∃ u, exec (.bar c t w) s = .next u ∧
      Waits c t (.barrier (yMask w))
        (∀ i, i < 32 → bitN (yMask w) i = true → i ≠ t.val → (thread s c i).wait = .barrier (yMask w)) s u ∧
      ((∀ i, i < 32 → bitN (yMask w) i = true → i ≠ t.val → (thread s c i).wait = .barrier (yMask w)) →
        ∀ i, i < 32 → bitN (yMask w) i = true → (thread u c i).state = .running ∧ (thread u c i).wait = .none)) ∧
  (∀ (c : CoreId) (t : ThreadId) (w : InstrWord) (s : State), Ready s c t w → Codes w 6 3 [(32, 6), (64, 32)] →
    ∃ u, exec (.wstroke c t w) s = .next u ∧ Waits c t (.stroke (yV s c t w)) (yV s c t w ≤ s.stroke.slot) s u) ∧
  (∀ (c : CoreId) (t : ThreadId) (w : InstrWord) (s : State), Ready s c t w → Codes w 6 5 [] →
    ∃ u, exec (.drain c t w) s = .next u ∧ Waits c t .drain ((thread s c t).outstanding = 0) s u)) ∧
  (∀ (c : CoreId) (t : ThreadId) (w : InstrWord) (s : State), Ready s c t w → Codes w 6 1 [(24, 14), (64, 32)] →
    (isCustom s c t = true → inKRange s c t (yKidx w) = true) →
    ∃ u, exec (.setc c t w) s = .next u ∧ WentOn s u c t ∧ WritesNone c t s u ∧ CoreOnly c s u ∧
      kGet u c (yKidx w) = yV s c t w ∧ (∀ k, k ≠ yKidx w → kGet u c k = kGet s c k) ∧
      (∀ v x, v < 32 → (thread s c v).wait = .counter (yKidx w) x →
        0 ≤ (BitVec.ofNat 32 (yV s c t w) - BitVec.ofNat 32 x).toInt →
        (thread u c v).state = .running ∧ (thread u c v).wait = .none) ∧
      ∀ v, v < 32 → v ≠ t.val → (∀ x, (thread s c v).wait ≠ .counter (yKidx w) x) →
        waitMet (core s c) s.stroke.slot (thread s c v) = false → thread u c v = thread s c v)

/-- VEC and XU instructions enter their unit's queue or stall (R157, R158, R163, R164, R169, R171). A ready VEC or XU
instruction without a cause enters its unit's queue of 16 and adds one to its thread's outstanding count; into a full
queue it stalls, counted, with nothing else changed. -/
def Obligations.UnitIssue : Prop :=
  (∀ (c : CoreId) (t : ThreadId) (w : InstrWord) (s : State) (i : Instr) (op : Nat),
    (i, op) ∈ [(Instr.vecAdd c t w, 0x00), (.vecMul c t w, 0x01), (.vecFma c t w, 0x02), (.vecMax c t w, 0x03),
      (.vecMin c t w, 0x04), (.vecCvt c t w, 0x05), (.w42add c t w, 0x06), (.drop c t w, 0x07), (.exp c t w, 0x08),
      (.exp2 c t w, 0x09), (.log c t w, 0x0A), (.log2 c t w, 0x0B), (.rcp c t w, 0x0C), (.rsq c t w, 0x0D),
      (.div c t w, 0x0E), (.ladd c t w, 0x0F), (.smax c t w, 0x10), (.rsum c t w, 0x11), (.rmax c t w, 0x12)] →
    Ready s c t w → iClass w = 2 → iOp w = op → vecCause (vecShape op (vCount w) (sReg s c t 28)) [] c t w s = 0 →
    ((core s c).vec.length < 16 → ∃ u, exec i s = .next u ∧ IssuedAsync c t s u ∧
      core u c = { core s c with
        threads := (core u c).threads, cycle := (core u c).cycle, vec := (core s c).vec ++ [unitOp s c t w] }) ∧
    (16 ≤ (core s c).vec.length → ∃ u, exec i s = .next u ∧ Stalls c s u)) ∧
  (∀ (c : CoreId) (t : ThreadId) (w : InstrWord) (s : State) (i : Instr) (op : Nat),
    (i, op) ∈ [(Instr.xuAdd c t w, 0x00), (.xuMul c t w, 0x01), (.xuFma c t w, 0x02), (.xuCvt c t w, 0x03), (.dot c t w, 0x04),
      (.gather c t w, 0x05), (.scat c t w, 0x06), (.rope c t w, 0x07), (.xent c t w, 0x08), (.xgrad c t w, 0x09),
      (.nstat c t w, 0x0A)] →
    Ready s c t w → iClass w = 3 → iOp w = op →
    vecCause (xuShape op (vCount w) (sReg s c t 28) (sReg s c t 29)) (indexPlaces s c op (unitOp s c t w)) c t w s = 0 →
    ((core s c).xu.length < 16 → ∃ u, exec i s = .next u ∧ IssuedAsync c t s u ∧
      core u c = { core s c with
        threads := (core u c).threads, cycle := (core u c).cycle, ovf := (core u c).ovf, xu := (core s c).xu ++ [unitOp s c t w] } ∧
      (op ≠ 8 → (core u c).ovf = (core s c).ovf) ∧
      (op = 8 → ∀ k, ovfOf u c k = if k = outTag s c (unitOp s c t w).addrD w then
        { ovfOf s c k with xents := (ovfOf s c k).xents + 1 } else ovfOf s c k)) ∧
    (16 ≤ (core s c).xu.length → ∃ u, exec i s = .next u ∧ Stalls c s u))

/-- TILE, TBL and IDLE enter the arrays' queues or stall (R74, R79, R86, R90, R158, R162, R169). A ready TILE, TBL or
IDLE without a cause enters the queue of its array, or of each named array, and no other array changes; an IDLE that
stands alone begins; beside the queue only the gap of the array changes, and none outside the schedule of a run; GROUP_END
closes the TILE group; into a full queue of 16 it stalls. -/
def Obligations.ArrayIssue : Prop :=
  (∀ (c : CoreId) (t : ThreadId) (w : InstrWord) (s : State) (q : List ArrOp), Ready s c t w → iClass w = 1 → iOp w = 0 →
    tileCause c t w s = 0 → (arr s c (tArray w)).queue.length < 16 →
    q = begun ((arr s c (tArray w)).queue ++ [.tile {
      thread := t, w := w.toNat, feed := aReg s c t (tFeeda w), out := aReg s c t (tOuta w), filled := false, started := false,
      grp := (core s c).grpNo, bad := false, poison := false, texp := operandTexp s c (thread s c t).pc 0,
      real := min (operandReal s c (thread s c t).pc 0 ((statFmt (tSfmt w)).getD .bf16) (tK w))
        (operandReal s c (thread s c t).pc 1 ((streamFmt (tTfmt w)).getD .bf16) (tK w)), rows := [] }]) →
    ∃ u, exec (.tile c t w) s = .next u ∧ IssuedAsync c t s u ∧ Queued (arr u c (tArray w)) (arr s c (tArray w)) q ∧
      (underSchedule s = false → arr u c (tArray w) = { arr s c (tArray w) with queue := q }) ∧
      (underSchedule s = true → (arr s c (tArray w)).queue = [] → (core s c).fence = false → (arr s c (tArray w)).gap = .none →
        (arr u c (tArray w)).gap = .unplanned ∧ (arr u c (tArray w)).ballast = true ∧
        (arr u c (tArray w)).density = density s c (tArray w)) ∧
      (∀ a, a ≠ tArray w → arr u c a = arr s c a) ∧
      (core u c).grpNo = if tEnd w then (core s c).grpNo + 1 else (core s c).grpNo) ∧
  (∀ (c : CoreId) (t : ThreadId) (w : InstrWord) (s : State), Ready s c t w → iClass w = 1 → iOp w = 1 →
    tblCause c t w s = 0 → (arr s c (tArray w)).queue.length < 16 →
    ∃ u, exec (.tbl c t w) s = .next u ∧ IssuedAsync c t s u ∧
      (arr u c (tArray w)) = { arr s c (tArray w) with queue := (arr s c (tArray w)).queue ++ [.tbl t w.toNat] } ∧
      (∀ a, a ≠ tArray w → arr u c a = arr s c a)) ∧
  (∀ (c : CoreId) (t : ThreadId) (w : InstrWord) (s : State), Ready s c t w → iClass w = 1 → iOp w = 2 →
    idleCause c t w s = 0 → (∀ a ∈ idleArrays w, (arr s c a).queue.length < 16) →
    ∃ u, exec (.idle c t w) s = .next u ∧ IssuedAsync c t s u ∧
      (∀ a ∈ idleArrays w, Queued (arr u c a) (arr s c a) (begun ((arr s c a).queue ++ [.idle t w.toNat false])) ∧
        (underSchedule s = false → arr u c a = { arr s c a with queue := begun ((arr s c a).queue ++ [.idle t w.toNat false]) })) ∧
      (∀ a, a ∉ idleArrays w → arr u c a = arr s c a)) ∧
  (∀ (c : CoreId) (t : ThreadId) (w : InstrWord) (s : State), Ready s c t w → iClass w = 1 →
    (iOp w = 0 → tileCause c t w s = 0 → 16 ≤ (arr s c (tArray w)).queue.length →
      ∃ u, exec (.tile c t w) s = .next u ∧ Stalls c s u) ∧
    (iOp w = 1 → tblCause c t w s = 0 → 16 ≤ (arr s c (tArray w)).queue.length →
      ∃ u, exec (.tbl c t w) s = .next u ∧ Stalls c s u) ∧
    (iOp w = 2 → idleCause c t w s = 0 → (∃ a ∈ idleArrays w, 16 ≤ (arr s c a).queue.length) →
      ∃ u, exec (.idle c t w) s = .next u ∧ Stalls c s u))

/-- Reserved classes and operations fault with cause 1 (R157, R160, R161, R170). An instruction that its thread may
issue, whose class or operation is reserved or whose address lies beyond scratch, faults its thread with cause 1 and
has no other effect, whatever row its word is taken by (log entries 13 and 14). -/
def Obligations.ReservedInstructions : Prop :=
  ∀ (c : CoreId) (t : ThreadId) (w : InstrWord) (s : State) (i : Instr), i ∈ coreRows c t w → canIssue s c t w = true →
    (0xFFFF0 < progAddr s c t ∨
      (iClass w = 0 ∨ 8 ≤ iClass w) ∨ (iClass w = 1 ∧ 2 < iOp w) ∨ (iClass w = 2 ∧ 0x12 < iOp w) ∨
      (iClass w = 3 ∧ 0x0A < iOp w) ∨ (iClass w = 4 ∧ 7 < iOp w) ∨ (iClass w = 5 ∧ 3 < iOp w) ∨
      (iClass w = 6 ∧ 5 < iOp w) ∨ (iClass w = 7 ∧ 6 < iOp w)) →
    ∃ u, exec i s = .next u ∧ FaultsWith c t 1 s u

/-- Invalid instructions fault with the cause of their rule (R161, R162, R165, R167, R168, R170, R173). Reserved
fields and function codes give cause 2; misaligned or out-of-range addresses 3; custom programs beyond their scratch
or counters 4; ARRAY instructions of another thread 5, in an open group 6; CSRs outside a custom program's reach 7.
The thread faults and nothing else happens. -/
def Obligations.InvalidInstructions : Prop :=
  ∀ (c : CoreId) (t : ThreadId) (w : InstrWord) (s : State), Ready s c t w →
    (iClass w = 7 → iOp w = 0 → (iCntEn w = true ∨ onlyBits w [] = false) →
      ∃ u, exec (.nop c t w) s = .next u ∧ FaultsWith c t 2 s u) ∧
    (Codes w 7 1 [(24, 19)] → 12 < cFunc w → ∃ u, exec (.alu c t w) s = .next u ∧ FaultsWith c t 2 s u) ∧
    (Codes w 4 0 [(24, 32)] → (mAddr s c t w % mSize w ≠ 0 ∨ 0x100000 ≤ mAddr s c t w) →
      ∃ u, exec (.movLd c t w) s = .next u ∧ FaultsWith c t 3 s u) ∧
    (Codes w 4 1 [(24, 11), (36, 20)] → (mAddr s c t w % mSize w ≠ 0 ∨ 0x100000 ≤ mAddr s c t w) →
      ∃ u, exec (.movSt c t w) s = .next u ∧ FaultsWith c t 3 s u) ∧
    (Codes w 4 1 [(24, 11), (36, 20)] → mAddr s c t w % mSize w = 0 → mAddr s c t w + mSize w ≤ 0x100000 →
      isCustom s c t = true → (mAddr s c t w < boundLo s c t ∨ boundHi s c t < mAddr s c t w + mSize w) →
      ∃ u, exec (.movSt c t w) s = .next u ∧ FaultsWith c t 4 s u) ∧
    (Codes w 6 1 [(24, 14), (64, 32)] → isCustom s c t = true → inKRange s c t (yKidx w) = false →
      ∃ u, exec (.setc c t w) s = .next u ∧ FaultsWith c t 4 s u) ∧
    (iClass w = 1 → iOp w = 2 → onlyBits w [(24, 35)] = true → idleCycles w ≠ 0 → isCustom s c t = false →
      arrayThread s c ≠ t.val → ∃ u, exec (.idle c t w) s = .next u ∧ FaultsWith c t 5 s u) ∧
    (iClass w = 1 → iOp w = 2 → onlyBits w [(24, 35)] = true → idleCycles w ≠ 0 → isCustom s c t = false →
      arrayThread s c = t.val → groupOpen s c = true → ∃ u, exec (.idle c t w) s = .next u ∧ FaultsWith c t 6 s u) ∧
    (Codes w 4 5 [(24, 5), (36, 20)] → mOff w < 0x20000 → mOff w % 4 = 0 → isCustom s c t = true →
      (mOff w < 0x1000 + t * 0x40 + 0x18 ∨ 0x1000 + t * 0x40 + 0x30 ≤ mOff w) →
      ∃ u, exec (.movRdcsr c t w) s = .next u ∧ FaultsWith c t 7 s u)

/-- OVFX hands in the overflow flag and takes the decision (R141, R142, R144, R167, R172, R284, R285). OVFX waits and
hands the core's flag to the control reduction by OR, which the device enters at the last expected one of the
instance; the result frees every waiting thread with s[REG] 0 without overflow, and with 1 and the next rungs in s1 to
s3 where a repeat follows. -/
def Obligations.OverflowExchange : Prop :=
  (∀ (c : CoreId) (t : ThreadId) (w : InstrWord) (s : State), Ready s c t w → Codes w 6 4 [(32, 6), (64, 32)] →
    ∃ u, WentOn s u c t ∧ WritesNone c t s u ∧
      (thread u c t).state = .waiting ∧ (thread u c t).wait = .ovfx (yV s c t w % 2 ^ 16) (ySreg w) ∧
      (∀ v, v ≠ t.val → thread u c v = thread s c v) ∧
      ovfFlag (ovfOf u c (yV s c t w % 2 ^ 16)) = false ∧
      (ctlGet u (ctlInstance (yV s c t w % 2 ^ 16))).acc =
        (ctlGet s (ctlInstance (yV s c t w % 2 ^ 16))).acc ||| (if ovfFlag (ovfOf s c (yV s c t w % 2 ^ 16)) then 1 else 0) ∧
      (ovfxWaiters u (yV s c t w % 2 ^ 16)).length ≤ (ovfxWaiters s (yV s c t w % 2 ^ 16)).length + 1 ∧
      ((ovfxWaiters u (yV s c t w % 2 ^ 16)).length < ovfxExpected s (yV s c t w % 2 ^ 16) → exec (.ovfx c t w) s = .next u) ∧
      (ovfxExpected s (yV s c t w % 2 ^ 16) ≤ (ovfxWaiters u (yV s c t w % 2 ^ 16)).length →
        exec (.ovfx c t w) s = .next (ctlOwn (instanceResult (yV s c t w % 2 ^ 16)) (ctlInstance (yV s c t w % 2 ^ 16)) 0 u))) ∧
  (∀ (inst acc : Nat) (s : State) (c t r : Nat), c < 96 → t < 32 → (thread s c t).wait = .ovfx inst r →
    let layer := (instanceOf s inst).1
    let u := instanceResult inst acc s
    (thread u c t).state = .running ∧ (thread u c t).wait = .none ∧
    (acc % 2 = 0 → sReg u c t r = 0) ∧
    (∀ y : LayerDesc, s.pkg.bind (fun p => p.layers[layer]?) = some y → acc % 2 = 1 →
      (mayRepeat s layer y = false → sReg u c t r = 0) ∧
      (mayRepeat s layer y = true → (∀ x ∈ ovfxWaiters s inst, (ovfOf s x.1 inst).again = false) → 3 < r →
        sReg u c t r = 1 ∧ sReg u c t 1 = repeatRung s layer y true 0 % 2 ^ 64 ∧
        sReg u c t 2 = repeatRung s layer y true 1 % 2 ^ 64 ∧ sReg u c t 3 = repeatRung s layer y true 2 % 2 ^ 64)))

/-- VEC_COMPLETE and XU_COMPLETE (R54, R55, R105, R158, R163, R169, R171, R204). The front operation of an ungated
unit completes: it leaves the queue, its thread's outstanding count falls, its completion counter rises where CNT_EN
is set; without OUTD its destination holds the encoded rows and no byte outside it changes, with OUTD and for SCAT the
output converter's bytes are written; XENT's losses of a run stand by token. -/
def Obligations.UnitCompletion : Prop :=
  (∀ (c : CoreId) (s : State) (o : UnitOp) (rest : List UnitOp) (w : InstrWord) (sh : VecShape) (rows : List (List Val)),
    (core s c).vec = o :: rest → gated s c 5 = false → w = BitVec.ofNat 128 o.w → sh = vecShape (iOp w) (vCount w) o.s28 →
    rows = (if iOp w = 6 ∧ o.agree ≠ none then agreeRows s c o else vecRows s c o) →
    ∃ u v, exec (.vecComplete c) s = .next u ∧ Completes c o.thread (iCntEn w) (iCnt w) v u ∧
      core v c = { core s c with vec := rest, ovf := (core v c).ovf, poison := (core v c).poison } ∧
      (∀ d, d ≠ c.val → core v d = core s d) ∧ u.run = s.run ∧
      (vOutd w = true → ∀ x, ¬ logRing x → memByte u x =
        memByte (convertOut c 4 (readOut s c o.addrD) rows (unitBad s c o sh) (unitPoisoned s c o sh) s) x) ∧
      ∀ b : List Byte, vOutd w = false → b = unitBytes w rows → 0 < b.length → o.addrD + b.length ≤ 0x100000 →
        memBytes u (scratchAddr c o.addrD) b.length = b ∧
        ∀ x, ¬ logRing x → x < scratchAddr c o.addrD ∨ scratchAddr c o.addrD + b.length ≤ x → memByte u x = memByte s x) ∧
  (∀ (c : CoreId) (s : State) (o : UnitOp) (rest : List UnitOp) (w : InstrWord) (sh : VecShape) (poison : Bool),
    (core s c).xu = o :: rest → gated s c 6 = false → w = BitVec.ofNat 128 o.w → sh = xuShape (iOp w) (vCount w) o.s28 o.s29 →
    poison = (unitPoisoned s c o sh || gatherPoison s c o) →
    ∃ u v, exec (.xuComplete c) s = .next u ∧ Completes c o.thread (iCntEn w) (iCnt w) v u ∧
      core v c = { core s c with xu := rest, ovf := (core v c).ovf, poison := (core v c).poison } ∧
      (∀ d, d ≠ c.val → core v d = core s d) ∧ u.run = { s.run with losses32 := u.run.losses32 } ∧
      (iOp w = 6 → ∀ x, ¬ logRing x → memByte u x = memByte (scatOp c o poison s) x) ∧
      (iOp w ≠ 6 → vOutd w = true → ∀ x, ¬ logRing x → memByte u x = memByte (convertOut c 5 (readOut s c o.addrD) (xuRows s c o)
        (unitBad s c o sh || gatherBad o (xuRows s c o)) poison s) x) ∧
      (∀ b : List Byte, iOp w ≠ 6 → vOutd w = false → b = unitBytes w (xuRows s c o) → 0 < b.length → o.addrD + b.length ≤ 0x100000 →
        memBytes u (scratchAddr c o.addrD) b.length = b ∧
        ∀ x, ¬ logRing x → x < scratchAddr c o.addrD ∨ scratchAddr c o.addrD + b.length ≤ x → memByte u x = memByte s x) ∧
      (iOp w ≠ 8 ∨ inRun s = false → u.run = s.run) ∧
      (iOp w = 8 → inRun s = true → ∀ i k v, (int32s s c o.addrB (vCount w))[i]? = some k → k ≠ -1 →
        (xuRows s c o).flatten[(((int32s s c o.addrB (vCount w)).take i).filter fun x => x != -1).length]? = some v →
        sget (fun _ => none) u.run.losses32 (o.loss.1 * 2 ^ 32 + o.loss.2 + i) = some (round32 v)))

/-- FILL, FENCE_END and TBL_COMPLETE (R64, R76, R77, R78, R79, R84, R86, R87, R169). FILL loads the shadow set of the
first array, in ascending order, that the fill unit can serve, and marks its TILE; FENCE_END sets the composition of the
next group; TBL_COMPLETE writes exactly its slots of the table memory from scratch and counts the completion. -/
def Obligations.ArrayFills : Prop :=
  (∀ (c : CoreId) (a : ArrayId) (s : State) (t : TileOp) (w : InstrWord), nextFill (arr s c a).queue = some t →
    (arr s c a).full = false → (core s c).fence = false → gated s c 4 = false → compMatches s c (groupTiles s c t.grp) = true →
    (∀ b, b < a.val → fillReady s c b = none) → w = BitVec.ofNat 128 t.w →
    ∃ u, exec (.fill c a) s = .next u ∧ (arr u c a).shadow = readStat s c a w t.texp t.real (tSaddr w) ∧ (arr u c a).full = true ∧
      (arr u c a).queue = modTile (fun x => !x.filled) (fun x => { x with filled := true }) (arr s c a).queue ∧
      (arr u c a).live = (arr s c a).live ∧ (arr u c a).bank = (arr s c a).bank ∧ (arr u c a).table = (arr s c a).table ∧
      (∀ b, b ≠ a.val → ∃ n, arr u c b = { arr s c b with width := n }) ∧
      (∀ x, ¬ logRing x → memByte u x = memByte s x) ∧ ∀ d v, thread u d v = thread s d v) ∧
  (∀ (c : CoreId) (a : ArrayId) (s : State), nextFill (arr s c a).queue = none ∨ (arr s c a).full = true ∨ (core s c).fence = true ∨
      gated s c 4 = true ∨ (∃ b, b < a.val ∧ fillReady s c b ≠ none) → exec (.fill c a) s = .next s) ∧
  (∀ (c : CoreId) (s : State), (core s c).fence = true →
    ∃ u, exec (.fenceEnd c) s = .next u ∧ (core u c).fence = false ∧ (∀ d v, thread u d v = thread s d v) ∧
      (∀ x, memByte u x = memByte s x) ∧ (∀ a, (arr u c a).queue = (arr s c a).queue ∧ (arr u c a).bank = (arr s c a).bank) ∧
      ∀ g ts, nextGroup s c = some (g, ts) → (∀ y ∈ ts, ∀ z ∈ ts, y.1 = z.1 → y = z) →
        (∀ y ∈ ts, (arr u c y.1).width = (tileComp (BitVec.ofNat 128 y.2.w)).1)) ∧
  (∀ (c : CoreId) (a : ArrayId) (s : State) (t x : Nat) (w : InstrWord), nextTbl (arr s c a).queue = some (t, x) → w = BitVec.ofNat 128 x →
    ∃ u, exec (.tblComplete c a) s = .next u ∧ (arr u c a).queue = begun (dropTbl (arr s c a).queue) ∧
      (∀ b, b ≠ a.val → Queued (arr u c b) (arr s c b) (arr s c b).queue) ∧
      (∀ j, (thread u c j).outstanding = if j = t then (thread s c j).outstanding - 1 else (thread s c j).outstanding) ∧
      (∀ j, kGet u c j = if iCntEn w = true ∧ j = iCnt w then (kGet s c j + 1) % 2 ^ 32 else kGet s c j) ∧
      (∀ z, ¬ logRing z → memByte u z = memByte s z) ∧
      (∀ i, i < 32 * tblCount w → sget byteD (arr u c a).table (32 * tblSlot w + i) = memByte s (scratchAddr c (tblSrc w) + i)) ∧
      ∀ i, i < 32 * tblSlot w ∨ 32 * tblSlot w + 32 * tblCount w ≤ i →
        sget byteD (arr u c a).table i = sget byteD (arr s c a).table i)

/-- TILE groups, gaps and ramps (R66, R67, R68, R75, R79, R80, R90, R91, R92, R100, R162, R169). A closed and filled
group starts: on every array of it the sets swap, every accumulator of the TILE becomes its sum over the feed, no other
accumulator changes (at the start, log entry 32); TILE_COMPLETE and IDLE_END end their operation with its counts; RAMP_STEP
moves the toggle fraction by one step (log entry 109), the timeout of an unplanned gap ramps down. -/
def Obligations.ArrayStreaming : Prop :=
  ((∀ (c : CoreId) (s : State) (g m0 : Nat) (x : Nat × TileOp) (ts : List (Nat × TileOp)) (d : FeedDesc),
    nextGroup s c = some (g, x :: ts) → d = readFeed s c x.2.feed → m0 = (if d.runStart then 0 else (core s c).mPrime) →
    (core s c).fence = false → gated s c 4 = false → compMatches s c (x :: ts) = true → ((x :: ts).map (·.1)).Nodup →
    (∀ y ∈ x :: ts, gated s c y.1 = false ∧ y.2.filled = true ∧ frontIs g (arr s c y.1).queue = true ∧ (arr s c y.1).ramp = 0 ∧
      ((arr s c y.1).gap = .unplanned → (arr s c y.1).ballast = false → (arr s c y.1).density ≤ (arr s c y.1).frac) ∧
      ∀ f, streamFmt (tTfmt (BitVec.ofNat 128 y.2.w)) = some f → 0 < d.words ∧ d.ring + d.words * 16 * fmtWidth f ≤ 0x100000 ∧
        (isMx f = true → d.sring + d.words * 4 ≤ 0x100000)) →
    ∃ u, exec (.tileGroupStart c) s = .next u ∧
      (∀ (a : Nat) (t : TileOp) (w : InstrWord) (sf f : Fmt) (A B : ArrSt) (res : StatSet), (a, t) ∈ x :: ts → w = BitVec.ofNat 128 t.w →
        statFmt (tSfmt w) = some sf → streamFmt (tTfmt w) = some f → A = arr s c a → B = arr u c a →
        res = (if tPasses w = 3 then readStat s c a w t.texp t.real (tRaddr w) else A.shadow) →
        B.live = res ∧ B.shadow = (if tPasses w = 3 then A.shadow else A.live) ∧ B.full = false ∧ B.streaming = true ∧ B.gap = .none ∧
        B.ballast = false ∧
        (∀ m n, m < tM w → n < tN w → sget natD B.bank (m * 128 + n) =
          tileAcc A.shadow.real (statElem (rowMap s c a) (colMap s c a) A.shadow) (statElem (rowMap s c a) (colMap s c a) res)
            (feedElem s c f d) (usesWindow sf f) m0 (tM w) (tPasses w) (tK w / 32) m n
            (if tFresh w then 0 else sget natD A.bank (m * 128 + n))) ∧
        ∀ i, (tM w * 128 ≤ i ∨ tN w ≤ i % 128) → sget natD B.bank i = sget natD A.bank i) ∧
      (∀ b, b ∉ (x :: ts).map (·.1) → Queued (arr u c b) (arr s c b) (arr s c b).queue) ∧
      (core u c).mPrime = m0 + tPasses (BitVec.ofNat 128 x.2.w) * tM (BitVec.ofNat 128 x.2.w) ∧
      (∀ z, ¬ logRing z → memByte u z = memByte s z) ∧ ∀ v, thread u c v = thread s c v) ∧
  (∀ (c : CoreId) (a : ArrayId) (s : State) (t : TileOp) (rest : List ArrOp) (w : InstrWord), (arr s c a).queue = .tile t :: rest →
    t.started = true → w = BitVec.ofNat 128 t.w →
    ∃ u, exec (.tileComplete c a) s = .next u ∧ (arr u c a).queue = begun rest ∧ (arr u c a).bank = (arr s c a).bank ∧
      (∀ b, b ≠ a.val → Queued (arr u c b) (arr s c b) (arr s c b).queue) ∧
      (∀ j, (thread u c j).outstanding =
        if j = t.thread then (thread s c j).outstanding - 1 else (thread s c j).outstanding) ∧
      (∀ j, kGet u c j = if iCntEn w = true ∧ j = iCnt w then (kGet s c j + 1) % 2 ^ 32 else kGet s c j) ∧
      (∀ v n, sReg u c v n = sReg s c v n ∧ aReg u c v n = aReg s c v n) ∧
      (tDrains w = true → ∀ x, ¬ logRing x → memByte u x =
        memByte (convertOut c a (readOut s c t.out) (t.rows.map fun r => r.map dec42) t.bad t.poison s) x) ∧
      (tDrains w = false → ∀ x, ¬ logRing x → memByte u x = memByte s x))) ∧
  ((∀ (c : CoreId) (a : ArrayId) (s : State) (t x : Nat) (rest : List ArrOp) (w : InstrWord) (ends : Bool),
    (arr s c a).queue = .idle t x true :: rest → w = BitVec.ofNat 128 x →
    (ends = false ↔ idleAll w = true ∧ ∃ b, b < 4 ∧ b ≠ a.val ∧ idlesIn rest < idlesIn (arr s c b).queue) →
    ∃ u, exec (.idleEnd c a) s = .next u ∧ (arr u c a).queue = begun rest ∧ (arr u c a).bank = (arr s c a).bank ∧
      (underSchedule s = false → (arr u c a).ramp = 0 ∧ (arr u c a).ballast = false ∧ (arr u c a).gap = .none) ∧
      (∀ b, b ≠ a.val → Queued (arr u c b) (arr s c b) (arr s c b).queue) ∧
      (∀ j, (thread u c j).outstanding =
        if ends = true ∧ j = t then (thread s c j).outstanding - 1 else (thread s c j).outstanding) ∧
      (∀ j, kGet u c j = if ends = true ∧ iCntEn w = true ∧ j = iCnt w then (kGet s c j + 1) % 2 ^ 32 else kGet s c j) ∧
      ∀ y, ¬ logRing y → memByte u y = memByte s y) ∧
  (∀ (c : CoreId) (a : ArrayId) (s : State),
    ((arr s c a).ramp = -1 → ∃ u, exec (.rampStep c a) s = .next u ∧ CoreOnly c s u ∧
      (arr u c a).frac = (arr s c a).frac - 1 ∧ (arr u c a).ramp = if (arr s c a).frac ≤ 1 then 0 else -1) ∧
    ((arr s c a).ramp = 1 ∨ ((arr s c a).ramp = 0 ∧ (arr s c a).gap = .planned ∧ (arr s c a).ballast = false ∧
        (arr s c a).frac < (arr s c a).density) →
      ∃ u, exec (.rampStep c a) s = .next u ∧ CoreOnly c s u ∧ (arr u c a).frac = (arr s c a).frac + 1 ∧
      (arr u c a).ramp = if (arr s c a).density ≤ (arr s c a).frac + 1 then 0 else 1) ∧
    ((arr s c a).gap = .unplanned → (arr s c a).ballast = true → ∃ u, exec (.unplannedGapTimeout c a) s = .next u ∧
      CoreOnly c s u ∧ (arr u c a).ballast = false ∧ (arr u c a).gap = .unplanned ∧
      (arr u c a).ramp = if (arr s c a).frac = 0 then 0 else -1)))

/-- RUN, REARM, MARK and TRACE (R158, R166, R169, R255, R256, R258, R260, R262, R263, R265). A ready STR instruction
without a cause enters the queue of 32 or stalls. Where no queue waits: MARK raises one mark; TRACE records; RUN of a
cached descriptor with its mark met begins its pass; REARM writes the image at once without a pass, raising GEN, and
the shadow under one. -/
def Obligations.StreamInstructions : Prop :=
  (∀ (c : CoreId) (t : ThreadId) (w : InstrWord) (s : State) (i : Instr) (op cause addr : Nat),
    (i, op, cause, addr) ∈
      [(Instr.strRun c t w, 0, strCause [(24, 20)] (fun _ => 0) c t w s, 0),
       (.strRearm c t w, 1, strCause [(24, 44)] (fun v => rangeCause v c t [(opAddr v c t (iF w 44 4) (iF w 48 20), 64, 64)]) c t w s,
          opAddr s c t (iF w 44 4) (iF w 48 20)),
       (.strMark c t w, 2, strCause [(68, 32)] (fun _ => 0) c t w s, 0),
       (.strTrace c t w, 3, strCause [(100, 13)] (fun _ => causeIf (decide (iF w 105 8 < 0x40)) 2) c t w s,
          sReg s c t (iF w 100 5))] →
    Ready s c t w → iClass w = 5 → iOp w = op → cause = 0 →
    ((core s c).str.length < 32 → ∃ u v, exec i s = .next u ∧ u = settle v ∧ IssuedAsync c t s v ∧
      core v c = { core s c with threads := (core v c).threads, cycle := (core v c).cycle, str := (core s c).str ++
        [{ thread := t, w := w.toNat, addr := addr, pc := (thread s c t).pc, missed := false }] }) ∧
    (32 ≤ (core s c).str.length → ∃ u, exec i s = .next u ∧ Stalls c s u)) ∧
  (∀ (c : CoreId) (t : ThreadId) (w : InstrWord) (s : State), Ready s c t w → strIdle s → iClass w = 5 →
    (iOp w = 2 → strCause [(68, 32)] (fun _ => 0) c t w s = 0 →
      ∃ u, exec (.strMark c t w) s = .next u ∧ WentOn s u c t ∧ WritesNone c t s u ∧ strIdle u ∧
        mark u (iF w 68 16) = (mark s (iF w 68 16) + iF w 84 16) % 2 ^ 32 ∧
        (∀ m, m ≠ iF w 68 16 → mark u m = mark s m) ∧ (∀ d, desc u d = desc s d) ∧
        (thread u c t).outstanding = (thread s c t).outstanding ∧
        (∀ j, kGet u c j = if iCntEn w = true ∧ j = iCnt w then (kGet s c j + 1) % 2 ^ 32 else kGet s c j) ∧
        ∀ x, ¬ logRing x → memByte u x = memByte s x) ∧
    (iOp w = 3 → strCause [(100, 13)] (fun _ => causeIf (decide (iF w 105 8 < 0x40)) 2) c t w s = 0 →
      ∃ u, exec (.strTrace c t w) s = .next u ∧ WentOn s u c t ∧ WritesNone c t s u ∧ strIdle u ∧ u.stm = s.stm ∧
        (thread u c t).outstanding = (thread s c t).outstanding ∧
        (∀ j, kGet u c j = if iCntEn w = true ∧ j = iCnt w then (kGet s c j + 1) % 2 ^ 32 else kGet s c j) ∧
        ∀ x, ¬ logRing x → memByte u x = memByte s x) ∧
    (∀ d : Nat, d = strDesc w → iOp w = 0 → strCause [(24, 20)] (fun _ => 0) c t w s = 0 → (desc s d).cached = true →
      ListsApart s (descOf s d) → descPoison s d = none → markMet s (descImage s d) = true → runCause s c t d = 0 → (desc s d).pass = none →
      ∃ u, exec (.strRun c t w) s = .next u ∧ WentOn s u c t ∧ WritesNone c t s u ∧ strIdle u ∧
        (desc u d).pass = some {
          issuer := some { core := c, thread := t, pc := (thread s c t).pc, cntEn := iCntEn w, cnt := iCnt w }, gen := (desc s d).gen,
          done := 0, total := blkBytes (blockList s (descOf s d)), poisoned := false,
          legs := (legsOf s (descOf s d)).map fun f => (f.id, 0, false) } ∧
        (∀ e, e ≠ d → desc u e = desc s e) ∧
        (thread u c t).outstanding = (thread s c t).outstanding + 1 ∧ (∀ m, mark u m = mark s m) ∧
        ((descOf s d).dest = 0xFFFFFFFF ∨ (descOf s (descOf s d).dest).mode = 0 → ∀ x, ¬ logRing x → memByte u x = memByte s x)) ∧
    (∀ (d : Nat) (b : List Byte), d = strDesc w → b = scrBytes s c (opAddr s c t (iF w 44 4) (iF w 48 20)) 64 → iOp w = 1 →
      strCause [(24, 44)] (fun v => rangeCause v c t [(opAddr v c t (iF w 44 4) (iF w 48 20), 64, 64)]) c t w s = 0 →
      (desc s d).cached = true → ListsApart s (parseDesc b) → rearmCause s c t d b = 0 → shadowsUsed s < 4096 →
      ∃ u, exec (.strRearm c t w) s = .next u ∧ WentOn s u c t ∧ WritesNone c t s u ∧ strIdle u ∧
        ((desc s d).pass ≠ none → (desc u d).shadow = some b ∧ (desc u d).gen = (desc s d).gen ∧ (desc u d).pass = (desc s d).pass ∧
          ∀ x, ¬ logRing x → memByte u x = memByte s x) ∧
        ((desc s d).pass = none → (desc u d).shadow = none ∧ (desc u d).pass = none ∧
          (desc u d).gen = ((desc s d).gen + 1) % 2 ^ 32 ∧ memBytes u (descTable s + 64 * d) 0x24 = b.take 0x24 ∧
          ∀ x, ¬ logRing x → x < descTable s + 64 * d ∨ descTable s + 64 * d + 64 ≤ x → memByte u x = memByte s x) ∧
        (∀ e, e ≠ d → desc u e = desc s e) ∧ (∀ m, mark u m = mark s m) ∧
        (thread u c t).outstanding = (thread s c t).outstanding ∧
        (∀ j, kGet u c j = if iCntEn w = true ∧ j = iCnt w then (kGet s c j + 1) % 2 ^ 32 else kGet s c j)))

/-- What completing a ring command writes (R336, R339, R340, R341, R348, R360, R380). A completed command leaves its
ring, is counted, and its reply with the status word, code and payload is written at RQ_TAIL with the phase bit, or
queued while the reply ring is full or the function is in D3hot; no other ring changes. -/
def Obligations.RingReplies : Prop :=
  ∀ (q code : Nat) (payload e : List Byte) (rest : List (List Byte)) (s : State), (ring s q).fetched = e :: rest →
    (∀ y, rest.head? = some y → knownOpcode (leAt y 0 1) = true) → ringEnabled s q = true →
    cntSat (cntDev 0) (cntExact (cntAdd (cntDev 0) 1 s) (cntDev 0)) = false →
    let u := complete q code payload s
    let head := leBytes 1 code ++ leBytes 1 (max s.host.attnStep (attnLevel s)) ++ leBytes 1 s.host.attnSeq ++
      leBytes 1 (devCode s.dev) ++ leBytes 2 (leAt e 2 2) ++ leBytes 1 (leAt e 0 1)
    (ring u q).fetched = rest ∧ (ring u q).accepted = false ∧ cntExact u (cntDev 0) = min (cntExact s (cntDev 0) + 1) (2 ^ 48 - 1) ∧
    (∀ r, r ≠ q → ring u r = ring s r) ∧ u = { s with cnt := u.cnt, log := u.log, host := u.host, out := u.out } ∧
    (∀ x, ¬ logRing x → memByte u x = memByte s x) ∧
    ((rqFull s q = true ∨ s.host.d3hot = true ∨ (ring s q).queued ≠ []) → u.out = s.out ∧
      (ring u q).queued = (ring s q).queued ++ [head ++ [0] ++ padTo 24 payload] ∧ (ring u q).rqTail = (ring s q).rqTail) ∧
    (rqFull s q = false → s.host.d3hot = false → (ring s q).queued = [] →
      hostRange s (rqBase s q + 32 * (ring s q).rqTail) 32 = true →
      u.out = .hostWrite (rqBase s q + 32 * (ring s q).rqTail) (head ++ [if (ring s q).phase then 1 else 0]) ::
        .hostWrite (rqBase s q + 32 * (ring s q).rqTail + 8) (padTo 24 payload) :: s.out ∧
      (ring u q).rqTail = ((ring s q).rqTail + 1) % 2 ^ ringLog2 s q true ∧ (ring u q).queued = [] ∧
      (ring u q).phase = if (ring u q).rqTail = 0 then !(ring s q).phase else (ring s q).phase)

/-- Ring commands refused in WEDGED, by encoding and by state (R17, R342, R343, R349, R350, R353). Each of the 17 ring
commands completes with WEDGED in that state (FULL_RESET runs), with RESERVED where a byte or field of its entry is
reserved, and with the code of its state otherwise; the order of the checks is the model's choice (log entry 44). -/
def Obligations.RingRefusals : Prop :=
  ∀ (q : RingId) (data pins image : HostData) (found : List (Nat × EccOutcome)) (loss tokens : Word) (wsum : DWord) (s : State)
    (i : Instr) (op : Nat) (enc : List Byte → Bool) (st : State → Option Nat),
    (i, op, enc, st) ∈ [
      (Instr.loadPackage q data, 0x01, (fun e => zeroAt e 0x18 40), powersUp (statesRun [.idle, .loaded, .planned, .stopped])),
      (.bindSource q, 0x02, (fun e => zeroAt e 0xA 2 && zeroAt e 0x24 4 && zeroAt e 0x38 8), statesRun [.loaded, .planned]),
      (.plan q data pins, 0x03, (fun e => decide (leAt e 0x14 2 ≤ 16384) && zeroAt e 0x16 2 && zeroAt e 0x20 32),
        powersUp (statesOk [.loaded, .planned, .running])),
      (.planRead q, 0x04, (fun e => zeroAt e 0x18 40), plannedLater),
      (.start q, 0x10, (fun e => decide (leAt e 8 1 ≤ 63) && zeroAt e 9 3 && zeroAt e 0x10 48), startState),
      (.step q, 0x11, (fun e => decide (leAt e 8 1 ≤ 63) && zeroAt e 9 3 && decide (1 ≤ leAt e 0xC 4) && zeroAt e 0x10 48),
        statesOk [.held]),
      (.pause q, 0x12, (fun e => decide (leAt e 8 1 ≤ 1) && zeroAt e 9 55), statesOk [.starting, .running]),
      (.secure q, 0x18, (fun e => zeroAt e 8 56), statesOk [.running]),
      (.restore q image, 0x19, (fun e => decide (leAt e 8 1 ≤ 1) && zeroAt e 9 7 && (leAt e 8 1 == 1 || zeroAt e 0x10 8) &&
        zeroAt e 0x18 40), statesOk [.planned]),
      (.replayCheck q loss tokens wsum, 0x1A, (fun e => decide (leAt e 8 1 ≤ 1) && zeroAt e 9 7 && zeroAt e 0x18 40),
        statesOk [.restored]),
      (.readStats q, 0x20, (fun e => decide (leAt e 8 1 ≤ 2) && decide (leAt e 9 1 ≤ 15) && zeroAt e 0xA 2 && zeroAt e 0x14 4 &&
        zeroAt e 0x20 32), loadedLater),
      (.snapshot q, 0x21, (fun e => decide (leAt e 8 1 < 32) && decide (leAt e 9 1 ≤ 1) && zeroAt e 0xA 6 &&
        decide (leAt e 0x10 8 < 2 ^ 48) && zeroAt e 0x18 40), workState),
      (.traceCtl q, 0x22, traceEncOk, workState),
      (.copy q data found, 0x30, (fun e => decide (1 ≤ leAt e 0x18 8) && decide (leAt e 0x18 8 ≤ 2 ^ 40) && zeroAt e 0x20 32), copyStates),
      (.fwWrite q image, 0x31, (fun e => zeroAt e 0x18 40), statesRun [.idle, .loaded, .planned, .recovery, .stopped]),
      (.echo q, 0x32, (fun e => zeroAt e 0x20 32), anyState),
      (.fullReset q, 0x3F, (fun e => zeroAt e 8 56), anyState)] →
    ∀ e, frontEntry s q op = some e →
      (s.dev = .wedged → op ≠ 0x3F → exec i s = .next (complete q 0xFE [] s)) ∧
      (s.dev ≠ .wedged → (zeroAt e 1 1 && zeroAt e 4 4 && enc e) = false → exec i s = .next (complete q 1 [] s)) ∧
      (s.dev ≠ .wedged → (zeroAt e 1 1 && zeroAt e 4 4 && enc e) = true → ∀ code, st s = some code →
        exec i s = .next (complete q code [] s))

/-- START, STEP, PAUSE and SECURE (R33, R209, R341, R343, R344, R345). START and STEP are accepted with their hold
limit and make the ready operand 1 at lock; PAUSE and SECURE wait for the boundary exchange; PAUSE in STARTING takes
the start back with OK, and the START is ABORTED (log entry 49). -/
def Obligations.RunCommands : Prop :=
  ((∀ (q : RingId) (e : List Byte) (s : State), Front s q 0x10 e → s.dev = .planned ∨ s.dev = .held → leAt e 8 1 ≤ 63 →
    zeroAt e 9 3 = true → zeroAt e 0x10 48 = true →
    ∃ u, exec (.start q) s = .next u ∧ Accepted q s u ∧
      u.host = { s.host with rings := u.host.rings, startRing := some q.val, runRing := leAt e 8 1 } ∧
      u.run = { s.run with limit := leAt e 0xC 4, startAt := none, ready := s.run.ready || s.stroke.locked } ∧
      u = { s with host := u.host, run := u.run, dev := u.dev } ∧
      (s.stroke.locked = true → s.run.ready = false → u.dev = .starting) ∧ (s.stroke.locked = false → u.dev = s.dev)) ∧
  (∀ (q : RingId) (e : List Byte) (s : State), Front s q 0x11 e → s.dev = .held → leAt e 8 1 ≤ 63 → zeroAt e 9 3 = true →
    1 ≤ leAt e 0xC 4 → zeroAt e 0x10 48 = true →
    (2 ^ 32 ≤ stepLimit s (leAt e 0xC 4) → exec (.step q) s = .next (complete q 0x30 [] s)) ∧
    (stepLimit s (leAt e 0xC 4) < 2 ^ 32 → ∃ u, exec (.step q) s = .next u ∧ Accepted q s u ∧
      u.host = { s.host with rings := u.host.rings, startRing := some q.val, runRing := leAt e 8 1 } ∧
      u.run = { s.run with limit := (match s.run.last with | some n => n | none => 0) + leAt e 0xC 4 - (if s.run.last = none then 1 else 0),
                           startAt := none, ready := s.run.ready || s.stroke.locked } ∧
      u = { s with host := u.host, run := u.run, dev := u.dev } ∧
      (s.stroke.locked = true → s.run.ready = false → u.dev = .starting))) ∧
  (∀ (q : RingId) (e : List Byte) (s : State), Front s q 0x12 e → leAt e 8 1 ≤ 1 → zeroAt e 9 55 = true →
    (s.dev = .running ∨ (s.dev = .starting ∧ s.run.startAt ≠ none) → ∃ u, exec (.pause q) s = .next u ∧ Accepted q s u ∧
      u.host.rwPause = s.host.rwPause ++ [(q.val, leAt e 8 1 == 1)] ∧ u = { s with host := u.host } ∧
      u.host = { s.host with rings := u.host.rings, rwPause := u.host.rwPause })) ∧
  (∀ (q : RingId) (e : List Byte) (s : State), Front s q 0x18 e → s.dev = .running → zeroAt e 8 56 = true →
    ∃ u, exec (.secure q) s = .next u ∧ Accepted q s u ∧ u.host.rwSecure = s.host.rwSecure ++ [q.val] ∧
      u = { s with host := u.host } ∧ u.host = { s.host with rings := u.host.rings, rwSecure := u.host.rwSecure })) ∧
  (∀ (q : RingId) (e : List Byte) (s : State), Front s q 0x12 e → leAt e 8 1 ≤ 1 → zeroAt e 9 55 = true → s.dev = .starting →
    s.run.startAt = none → ∀ p, s.host.startRing = some p → p ≠ q.val →
    ∃ v, exec (.pause q) s = .next (complete q 0 (b4 (stepField s)) v) ∧
      (s.run.heldCause = 0 → v = complete p 8 [] { s with
        run := { s.run with ready := false, startAt := none }, dev := .planned, host := { s.host with startRing := none } }) ∧
      (s.run.heldCause ≠ 0 → leAt e 8 1 = 0 → v = complete p 8 [] { s with
        run := { s.run with ready := false, startAt := none }, dev := .held, host := { s.host with startRing := none } }))

/-- ECHO, PLAN_READ, READ_STATS, SNAPSHOT and TRACE_CTL (R237, R343, R386, R387, R392). ECHO returns its bytes;
PLAN_READ writes the plan image where it fits and returns its size; READ_STATS writes the chosen rows; SNAPSHOT copies
and clears the named counters, or waits for its stroke (log entry 47); TRACE_CTL starts or stops a session. -/
def Obligations.ObservingCommands : Prop :=
  (∀ (q : RingId) (e : List Byte) (s : State), Front s q 0x32 e → s.dev ≠ .wedged → zeroAt e 0x20 32 = true →
    exec (.echo q) s = .next (complete q 0 (slice e 8 24) s)) ∧
  (∀ (q : RingId) (e : List Byte) (s : State) (pl : Plan), Front s q 4 e → s.dev ≠ .wedged → 4 ≤ devCode s.dev →
    zeroAt e 0x18 40 = true → s.plan = some pl → (
    (planImage s pl).length ≤ leAt e 0x10 8 → hostRange s (leAt e 8 8) (planImage s pl).length = true → exec (.planRead q) s =
      .next (complete q 0 (b8 (planImage s pl).length) (emit (.hostWrite (leAt e 8 8) (planImage s pl)) s))) ∧
    (leAt e 0x10 8 < (planImage s pl).length → hostRange s (leAt e 8 8) 1 = true →
      exec (.planRead q) s = .next (complete q 0 (b8 (planImage s pl).length) s))) ∧
  (∀ (q : RingId) (e : List Byte) (s : State) (n : Nat) (rows : List (List Byte)), Front s q 0x20 e → s.dev ≠ .wedged →
    3 ≤ devCode s.dev → leAt e 8 1 ≤ 2 → leAt e 9 1 ≤ 15 → zeroAt e 0xA 2 = true → zeroAt e 0x14 4 = true →
    zeroAt e 0x20 32 = true → statsRows s (leAt e 8 1) (leAt e 9 1) = (n, rows) →
    hostRange s (leAt e 0x18 8) (max 1 ((rows.drop (leAt e 0xC 4)).take (leAt e 0x10 4)).flatten.length) = true →
    ((rows.drop (leAt e 0xC 4)).take (leAt e 0x10 4)).flatten ≠ [] →
    exec (.readStats q) s = .next (complete q 0 (b4 n ++ b4 ((rows.drop (leAt e 0xC 4)).take (leAt e 0x10 4)).length)
      (emit (.hostWrite (leAt e 0x18 8) ((rows.drop (leAt e 0xC 4)).take (leAt e 0x10 4)).flatten) s))) ∧
  (∀ (q : RingId) (e : List Byte) (s : State), Front s q 0x21 e → s.dev ≠ .wedged → s.dev ≠ .boot → s.dev ≠ .recovery →
    leAt e 8 1 < 32 → leAt e 9 1 ≤ 1 → zeroAt e 0xA 6 = true → leAt e 0x10 8 < 2 ^ 48 → zeroAt e 0x18 40 = true →
    (leAt e 9 1 = 0 ∨ leAt e 0x10 8 ≤ s.stroke.count →
      ∃ v, exec (.snapshot q) s = .next (complete q 0 (b4 v.cnt.seq ++ b4 (leAt e 9 1) ++ b8 v.cnt.stroke ++ b4 v.cnt.cycle) v) ∧
        v = { s with cnt := v.cnt, free := v.free } ∧ v.cnt.seq = (s.cnt.seq + 1) % 2 ^ 32 ∧ v.cnt.stroke = s.stroke.count ∧
        (∀ k, cntExact v k = if bitN (leAt e 8 1) (cntGroup k) then 0 else cntExact s k)) ∧
    (leAt e 9 1 = 1 → s.stroke.count < leAt e 0x10 8 → s.cnt.pending.length < 16 →
      ∃ u, exec (.snapshot q) s = .next u ∧ Accepted q s u ∧ u = { s with host := u.host, cnt := u.cnt } ∧
        u.host = { s.host with rings := u.host.rings } ∧
        u.cnt = { s.cnt with pending := s.cnt.pending ++ [{ ring := q.val, clear := leAt e 8 1, stroke := leAt e 0x10 8 }] })) ∧
  (∀ (q : RingId) (e : List Byte) (s : State), Front s q 0x22 e → s.dev ≠ .wedged → s.dev ≠ .boot → s.dev ≠ .recovery →
    traceEncOk e = true → (leAt e 8 1 = 1 → traceDestOk s (leAt e 0x10 8) (leAt e 0x18 8) = true) →
    (traceEmpty s = true ∨ s.trace.session = none →
      ∃ v, exec (.traceCtl q) s = .next (complete q 0 (match s.trace.session with
          | some t => b8 t.drained ++ b8 t.dropped | none => b8 0 ++ b8 0) v) ∧
        v = { s with trace := v.trace } ∧ v.trace.session = (if leAt e 8 1 = 1 then some (traceSession e) else none) ∧
        v.trace.bufs = [] ∧ v.trace.waiting = none ∧ v.trace.wptr = (if leAt e 8 1 = 1 then 0 else s.trace.wptr)) ∧
    (traceEmpty s = false → s.trace.session ≠ none →
      ∃ u, exec (.traceCtl q) s = .next u ∧ Accepted q s u ∧ u = { s with host := u.host, trace := u.trace } ∧
        u.trace = { s.trace with waiting := some { ring := q.val, next := if leAt e 8 1 = 1 then some (traceSession e) else none } }))

/-- LOAD_PACKAGE and BIND_SOURCE (R177, R178, R187, R249, R343, R350). A package that passes its checks is loaded, its
bytes stand in the package region, sources are unbound and no plan is held; one that fails leaves the device and its
memory as they were and completes with its code (log entry 46). BIND_SOURCE binds its source with its fields and no
other. -/
def Obligations.PackageCommand : Prop :=
  (∀ (q : RingId) (data : HostData) (e : List Byte) (s : State), Front s q 1 e →
    s.dev ∈ [DevState.idle, .loaded, .planned, .stopped] → avsBlocks s = false → zeroAt e 0x18 40 = true →
    hostRange s (leAt e 8 8) (leAt e 0x10 8) = true → data.poison = false → leAt e 0x10 8 ≤ 2 ^ 32 →
    ∀ d, d = padTo (leAt e 0x10 8) data.bytes →
    (∀ p, checkPkg d (leAt e 0x10 8) = (0, some p, none) →
      ∃ v, exec (.loadPackage q data) s = .next (complete q 0 [] v) ∧ v.pkg = some p ∧ v.plan = none ∧ v.sources = [] ∧
        v.dev = .loaded ∧ v.adm = {} ∧ v.run = {} ∧ v.cores = s.cores ∧ memBytes v (pkgRegion s) d.length = d ∧
        ∀ x, ¬ logRing x → x < pkgRegion s ∨ pkgRegion s + d.length ≤ x → memByte v x = memByte s x) ∧
    (∀ code w, checkPkg d (leAt e 0x10 8) = (code, none, w) → code ≠ 0 →
      ∃ v, exec (.loadPackage q data) s = .next (complete q code [] v) ∧ v = { s with cnt := v.cnt, log := v.log, host := v.host } ∧
        ∀ x, ¬ logRing x → memByte v x = memByte s x)) ∧
  (∀ (q : RingId) (e : List Byte) (s : State) (p : Pkg), Front s q 2 e → s.dev = .loaded ∨ s.dev = .planned →
    zeroAt e 0xA 2 = true → zeroAt e 0x24 4 = true → zeroAt e 0x38 8 = true → s.pkg = some p →
    leAt e 8 1 ≤ 15 → 1 ≤ leAt e 9 1 → 8 ≤ leAt e 0x20 4 → leAt e 0x20 4 ≤ 24 →
    (leAt e 0x18 8 ≠ 0 → leAt e 0x18 8 % 32 = 0 ∧ hostRange s (leAt e 0x18 8) (32 * 2 ^ leAt e 0x20 4) = true) →
    (leAt e 0x28 8 ≠ 0 → leAt e 0x28 8 % 8 = 0 ∧ hostRange s (leAt e 0x28 8) 8 = true) →
    (leAt e 0x30 8 ≠ 0 → leAt e 0x30 8 % 16 = 0 ∧ hostRange s (leAt e 0x30 8) 16 = true) →
    2 ≤ leAt e 0xC 4 → leAt e 0xC 4 ≤ p.mbTokens → leAt e 0x10 8 ≠ 0 →
    (∀ i x, i < 16 → i ≠ leAt e 8 1 → source s i = some x → x.seed ≠ leAt e 0x10 8) →
    ∃ v, exec (.bindSource q) s = .next (complete q 0 [] v) ∧ v = { s with sources := v.sources } ∧
      source v (leAt e 8 1) = some {
        weight := leAt e 9 1, seqMax := leAt e 0xC 4, seed := leAt e 0x10 8, ring := leAt e 0x18 8,
        log2 := leAt e 0x20 4, prod := leAt e 0x28 8, cons := leAt e 0x30 8, credit := 0, next := 0, admitted := 0, released := 0 } ∧
      ∀ i, i ≠ leAt e 8 1 → source v i = source s i)

/-- PLAN: a fresh plan, and the run-wide form (R30, R135, R137, R219, R220, R221, R223, R234, R344, R428). A PLAN
whose map and pins pass the checks captures registers, applies pins and holds the planner's plan for step 0, then
sends its digest, or completes with the planner's code and no other effect; in a run, with the same map, it waits for
the boundary with its pins and captured registers. The planner's encoding is Config's (log entry 52). -/
def Obligations.PlanCommand : Prop :=
  (∀ (q : RingId) (map pins : HostData) (e d : List Byte) (s w : State) (ps : List (Nat × Nat × Nat)) (pk : Pkg),
    Front s q 3 e → s.dev = .loaded ∨ s.dev = .planned → avsBlocks s = false → leAt e 0x14 2 ≤ 16384 → zeroAt e 0x16 2 = true →
    zeroAt e 0x20 32 = true → s.pkg = some pk → hostRange s (leAt e 8 8) (leAt e 0x10 4) = true →
    hostRange s (leAt e 0x18 8) (4 * leAt e 0x14 2) = true → map.poison = false → pins.poison = false →
    d = padTo (leAt e 0x10 4) map.bytes → ps = readPins pins.bytes (leAt e 0x14 2) → (source s 0).isSome = true →
    pinsOk pk ps = true → compareOk s pk = true → mapForm d (leAt e 0x10 4) = true → linksMatch (parseMap d) = true →
    slowPort s (parseMap d) = false → ownRecordOk s (parseMap d) = true →
    w = forEach ps applyPin { s with
      captured := captureRegs s, map := parseMap d, mapBytes := d, failInputs := [],
      cox := { s.cox with withdrawn := [], flaggedPrev := [] } } →
    (∀ pl, makePlan w pk 0 false = (0, some pl) → ∃ v u, exec (.plan q map pins) s = .next u ∧
      NetOnly { complete q 0 (pl.planDigest.take 16 ++ b4 pl.fromStep) v with
        link := { v.link with digestSent := true, digestOk := false, digestDone := false } } u ∧
      v.plan = some pl ∧ v.dev = .loaded ∧ v.captured = captureRegs s ∧ v.map = parseMap d ∧ v.mapBytes = d ∧
      v.failInputs = [] ∧ v.pkg = s.pkg ∧ v.sources = s.sources ∧ v.cores = s.cores ∧
      v.run = { opt := (List.range pk.opts.length).map fun i => (i, one32.toNat, one32.toNat),
                copies := pl.copies }) ∧
    ∀ code o, makePlan w pk 0 false = (code, o) → code ≠ 0 → exec (.plan q map pins) s = .next (complete q code [] s)) ∧
  (∀ (q : RingId) (map pins : HostData) (e : List Byte) (s : State) (pk : Pkg), Front s q 3 e → s.dev = .running →
    leAt e 0x14 2 ≤ 16384 → zeroAt e 0x16 2 = true → zeroAt e 0x20 32 = true → s.pkg = some pk →
    hostRange s (leAt e 8 8) (leAt e 0x10 4) = true → hostRange s (leAt e 0x18 8) (4 * leAt e 0x14 2) = true →
    map.poison = false → pins.poison = false → padTo (leAt e 0x10 4) map.bytes = s.mapBytes →
    pinsOk pk (readPins pins.bytes (leAt e 0x14 2)) = true → compareOk s pk = true → s.host.rwPlan = none →
    ∃ u, exec (.plan q map pins) s = .next u ∧ Accepted q s u ∧ u = { s with host := u.host } ∧
      u.host = { s.host with rings := u.host.rings, rwPlan := some {
        ring := q.val, pins := readPins pins.bytes (leAt e 0x14 2), regs := captureRegs s } })

/-- RESTORE and REPLAY_CHECK (R308, R328, R329, R343, R350). RESTORE of an image that passes its checks plans from its
inputs and loads it, in RESTORED; otherwise it completes with its code. REPLAY_CHECK with equal loss, tokens and
weight digest brings the device to HELD; any difference refuses it, and later ones (log entries 91, 92). -/
def Obligations.RestoreCommand : Prop :=
  (∀ (q : RingId) (image : HostData) (e : List Byte) (s w : State) (pk : Pkg) (pl : Plan), Front s q 0x19 e → s.dev = .planned →
    leAt e 8 1 ≤ 1 → zeroAt e 9 7 = true → (leAt e 8 1 = 0 → zeroAt e 0x10 8 = true) → zeroAt e 0x18 40 = true →
    s.pkg = some pk → (leAt e 8 1 = 1 → hostRange s (leAt e 0x10 8) (max 256 image.bytes.length) = true) → image.poison = false →
    (restoreCode s pk image.bytes ≠ 0 →
      exec (.restore q image) s = .next (complete q (restoreCode s pk image.bytes) [] s)) ∧
    (restoreCode s pk image.bytes = 0 → w = restoreInput pk image.bytes s →
      makePlan w pk (leAt image.bytes 0x10 8 + 1) true = (0, some pl) →
      ∃ v, exec (.restore q image) s = .next (atEpoch s (complete q 0 (b4 (stepField v)) v)) ∧ v.dev = .restored ∧
        v.run.heldCause = 1 ∧ v.run.phase = .boundary ∧ v.res.restorePending = true ∧ v.res.journal = [] ∧
        v.link.epoch = leAt image.bytes 0x28 2 ∧ (v.link.early = [] → atEpoch s (complete q 0 (b4 (stepField v)) v) = complete q 0 (b4 (stepField v)) v))) ∧
  (∀ (q : RingId) (loss tokens : Word) (wsum : DWord) (e : List Byte) (s : State) (pk : Pkg), Front s q 0x1A e →
    s.dev = .restored → leAt e 8 1 ≤ 1 → zeroAt e 9 7 = true → zeroAt e 0x18 40 = true → s.pkg = some pk →
    (loss = s.run.loss → tokens = s.run.tokens → s.res.restoreBad = false → s.res.coxLost = false →
      (leAt e 8 1 = 1 → (ownWeightDigest s + wsum.toNat) % 2 ^ 64 = leAt e 0x10 8) →
      ∃ v, exec (.replayCheck q loss tokens wsum) s = .next (complete q 0 (b4 loss.toNat ++ b4 tokens.toNat ++
          b8 ((ownWeightDigest s + wsum.toNat) % 2 ^ 64)) v) ∧ v.dev = .held ∧ v.res = { s.res with restorePending := false } ∧
        v = { s with cnt := v.cnt, log := v.log, host := v.host, res := v.res, dev := v.dev } ∧
        ∀ x, ¬ logRing x → memByte v x = memByte s x) ∧
    ((loss ≠ s.run.loss ∨ tokens ≠ s.run.tokens ∨ s.res.restoreBad = true ∨
        (leAt e 8 1 = 1 ∧ (ownWeightDigest s + wsum.toNat) % 2 ^ 64 ≠ leAt e 0x10 8)) →
      ∃ v, exec (.replayCheck q loss tokens wsum) s = .next (complete q 0x3C [] v) ∧ v.dev = .restored ∧
        v.res = { s.res with restoreBad := true }))

/-- FW_WRITE and FULL_RESET (R249, R352, R398, R399, R400, R401, R402, R404, R405, R411, R427). An image is read from its
bytes and passes through the staging region; one that verifies, with an SVN not below N, is stored for the next boot, counted
and written to the lifetime record; an unverified or older one is refused, and so are a bad size and poisoned bytes.
FULL_RESET returns every register to its reset value but those that the exceptions keep, drops package, plan and run, and
boots a good image to IDLE. -/
def Obligations.FirmwareWrite : Prop :=
  (∀ (q : RingId) (data : HostData) (i : FwImage) (e d : List Byte) (s : State), Front s q 0x31 e →
    s.dev ∈ [DevState.idle, .loaded, .planned, .stopped] → zeroAt e 0x18 40 = true → hostRange s (leAt e 8 8) (leAt e 0x10 8) = true →
    (data.poison = true → exec (.fwWrite q data) s = .next (complete q 4 [] s)) ∧
    (data.poison = false → leAt e 0x10 8 ≤ 2 ^ 24 → d = padTo (leAt e 0x10 8) data.bytes → i = parseImage d →
      (leAt e 0x10 8 ≠ 4096 + i.bodyBytes ∨ leAt e 0x10 8 < 4097 → exec (.fwWrite q data) s = .next (complete q 0x42 [] s)) ∧
      (leAt e 0x10 8 = 4096 + i.bodyBytes → 4097 ≤ leAt e 0x10 8 →
        ∃ w, MemOnly s w ∧ memBytes w (staging s) d.length = d ∧
          (∀ x, ¬ logRing x → x < staging s ∨ staging s + d.length ≤ x → memByte w x = memByte s x) ∧
          (imageVerifies s i = false → exec (.fwWrite q data) s = .next (complete q 0x40 [] w)) ∧
          (imageVerifies s i = true → i.svn < svnCount s → exec (.fwWrite q data) s = .next (complete q 0x41 [] w)) ∧
          (imageVerifies s i = true → svnCount s ≤ i.svn →
            ∃ v, exec (.fwWrite q data) s = .next (complete q 0 (b4 i.fwVersion ++ leBytes 1 i.svn ++ leBytes 1 i.slot ++
                leBytes 2 0 ++ leBytes 2 i.planner) v) ∧
              v.flash = { s.flash with image := i, valid := true, lifeSlot := v.flash.lifeSlot, life := v.flash.life } ∧
              v.flash.life.head? = some v.mgmt.life ∧ v.boot = { s.boot with first := true } ∧
              v = { w with flash := v.flash, boot := v.boot, mgmt := { s.mgmt with life := v.mgmt.life }
                           cnt := v.cnt, log := v.log, host := v.host } ∧
              ∀ x, ¬ logRing x → memByte v x = memByte w x)))) ∧
  (∀ (q : RingId) (e : List Byte) (s : State), Front s q 0x3F e → zeroAt e 8 56 = true →
    ∃ u, exec (.fullReset q) s = .next u ∧ u.pkg = none ∧ u.plan = none ∧ u.sources = [] ∧ u.run = {} ∧ u.cox = {} ∧
      u.adm = {} ∧ u.cores = [] ∧ u.red = {} ∧ u.res.journal = [] ∧ u.flash.image = s.flash.image ∧
      (∀ o, keptAtReset o = false → reg u o = (regReset o).toNat) ∧
      (∀ o, keptAtReset o = true → reg u o = reg s o) ∧
      (s.pins.perst = false → s.pins.pwrgood = true → s.flash.valid = true → s.flash.image.formOk = true →
        keyOk s s.flash.image = true → s.flash.image.ecdsaOk = true → s.flash.image.lmsOk = true →
        s.flash.image.digestOk = true → svnCount s ≤ s.flash.image.svn → u.dev = .idle ∧ u.pwr.domains = true))

/-- Doorbells, and the fetch of submission entries (R336, R337, R338, R339, R340, R342, R354, R360). An aligned doorbell in
range of an enabled ring sets its tail or head alone; any other is refused and counted, with an error report where the
ring is off. A fetch waits for P0; it appends the entry at SQ_HEAD and moves SQ_HEAD on; an error or a bad
address sets FETCH_ERR and replies BAD_ADDRESS. -/
def Obligations.DoorbellsAndFetch : Prop :=
  ((∀ (q : RingId) (v : Word) (s : State), ringEnabled s q = true → v.toNat % 2 ^ 16 < 2 ^ ringLog2 s q false →
    ∃ u, exec (.sqTail q 0 v) s = .next u ∧ Touched s u ∧ ring u q = { ring s q with sqTail := v.toNat % 2 ^ 16 } ∧
      (∀ r, r ≠ q.val → ring u r = ring s r) ∧ ∀ x, memByte u x = memByte s x) ∧
  (∀ (q : RingId) (v : Word) (s : State), ringEnabled s q = true → v.toNat % 2 ^ 16 < 2 ^ ringLog2 s q true →
    ∃ u, exec (.rqHead q v) s = .next u ∧ Touched s u ∧ (ring u q).rqHead = v.toNat % 2 ^ 16 ∧ (∀ r, r ≠ q.val → ring u r = ring s r) ∧
      ((ring s q).queued = [] → ring u q = { ring s q with rqHead := v.toNat % 2 ^ 16 } ∧ u.out = s.out)) ∧
  (∀ (q : RingId) (off : Nat) (v : Word) (s : State), off ≠ 0 ∨ (ringEnabled s q = true ∧ 2 ^ ringLog2 s q false ≤ v.toNat % 2 ^ 16) →
    exec (.sqTail q off v) s = .next (refuseWrite (doorbellTouch s))) ∧
  (∀ (q : RingId) (v : Word) (s : State), ringEnabled s q = false →
    exec (.sqTail q 0 v) s = .next (emit (.aer 2) (refuseWrite (doorbellTouch s))) ∧
    exec (.rqHead q v) s = .next (emit (.aer 2) (refuseWrite (doorbellTouch s)))) ∧
  ∀ (q : RingId) (v : Word) (s : State), ringEnabled s q = true → 2 ^ ringLog2 s q true ≤ v.toNat % 2 ^ 16 →
    exec (.rqHead q v) s = .next (refuseWrite (doorbellTouch s))) ∧
  (∀ (q : RingId) (s : State), ringEnabled s q = true → (ring s q).sqHead ≠ (ring s q).sqTail → (ring s q).fetchErr = false →
    (ring s q).queued.length < 64 → s.host.d3hot = false →
    (s.pwr.state ≠ .p0 → ∀ x, exec (.sqEntryFetched q x) s = .next s) ∧
    (s.pwr.state = .p0 → (∀ e, hostRange s (entryAddr s q) 64 = true →
      ∃ v, v = { s with host := { s.host with rings := v.host.rings } } ∧
        ring v q = { ring s q with sqHead := ((ring s q).sqHead + 1) % 2 ^ ringLog2 s q false,
                                   fetched := (ring s q).fetched ++ [padTo 64 e] } ∧ (∀ r, r ≠ q.val → ring v r = ring s r) ∧
        ((∀ y, (ring v q).fetched.head? = some y → knownOpcode (leAt y 0 1) = true) → exec (.sqEntryFetched q (.ok e)) s = .next v) ∧
        ((ring s q).fetched = [] → (ring s q).accepted = false → knownOpcode (leAt (padTo 64 e) 0 1) = false →
          exec (.sqEntryFetched q (.ok e)) s = .next (finish q (if s.dev == .wedged then 0xFE else 1) [] v))) ∧
    ∀ x, x = .error ∨ x = .poisoned ∨ hostRange s (entryAddr s q) 64 = false →
      ∃ u, exec (.sqEntryFetched q x) s = .next (reply q 0xFFFF 0 3 [] u) ∧ ring u q = { ring s q with fetchErr := true } ∧
        u = { s with host := { s.host with rings := u.host.rings }, out := .aer 1 :: s.out } ∧ ∀ r, r ≠ q.val → ring u r = ring s r))

/-- BAR0 writes, alias words and refused writes (R13, R14, R17, R395, R424, R425, R427, R429). A 4-byte write, or an
alias write of one bit, of a writable register stores its RW fields and changes no other register; unaligned sizes,
unmapped, read-only, locked or dark registers and reserved encodings are refused and counted; an 8-byte write is its
two halves. -/
def Obligations.RegisterWrites : Prop :=
  ((∀ (off : Nat) (v : DWord) (s : State) (r : RegInfo), Writable (wakeAccess s) off → off < 0x2000000 → off % 4 = 0 → regInfo off = some r →
    r.rw ≠ 0 → silent off → regOk off (v.toNat % 2 ^ 32 &&& r.rw) = true →
    ∃ u, exec (.registerWrite off 4 v) s = .next u ∧ reg u off = (v.toNat % 2 ^ 32 &&& r.rw) ∧ (∀ o, o ≠ off → reg u o = reg s o) ∧
      u = { s with regs := u.regs, pwr := { s.pwr with exiting := s.pwr.exiting || (s.pwr.state == .g3 || s.pwr.state == .g4) } }) ∧
  (∀ (x b : Nat) (v : Word) (s : State) (r : RegInfo), Writable (wakeAccess s) x → recoveryHides s (0x2000000 + (x * 8 + b) * 4) = false →
    x < 0x100000 → x % 4 = 0 → b < 32 →
    regInfo x = some r → bitN r.rw b = true → silent x → regOk x ((reg s x &&& (r.rw ^^^ 2 ^ b)) ||| v.toNat % 2 * 2 ^ b) = true →
    ∃ u, exec (.aliasWrite (0x2000000 + (x * 8 + b) * 4) v) s = .next u ∧
      (∀ k, k < 32 → bitN r.rw k = true → bitN (reg u x) k = if k = b then decide (v.toNat % 2 = 1) else bitN (reg s x) k) ∧
      (∀ o, o ≠ x → reg u o = reg s o) ∧
      u = { s with regs := u.regs, pwr := { s.pwr with exiting := s.pwr.exiting || (s.pwr.state == .g3 || s.pwr.state == .g4) } })) ∧
  ((∀ (off size : Nat) (v : DWord) (s : State), ¬ (size = 4 ∧ off % 4 = 0) → ¬ (size = 8 ∧ off % 8 = 0) →
    exec (.registerWrite off size v) s = .next (refuseWrite (wakeAccess s))) ∧
  (∀ (off : Nat) (v : DWord) (s : State), off % 4 = 0 → off < 0x2000000 →
    s.dev = .boot ∨ recoveryHides s off = true ∨ regInfo off = none ∨ instanceExists s off = false ∨ domainOff s off = true ∨
      regLocked s off = true ∨ (∃ r, regInfo off = some r ∧ r.rw = 0 ∧ r.cmd = 0) ∨
      (lockedFields s off = 0 ∧ ∃ r, regInfo off = some r ∧ regOk off (v.toNat % 2 ^ 32 &&& r.rw) = false) →
    exec (.registerWrite off 4 v) s = .next (refuseWrite (wakeAccess s))) ∧
  (∀ (off : Nat) (v : DWord) (s : State), off % 8 = 0 → ∃ u, exec (.registerWrite off 4 v) s = .next u ∧
    exec (.registerWrite off 8 v) s = exec (.registerWrite (off + 4) 4 (BitVec.ofNat 64 (v.toNat / 2 ^ 32))) u))

/-- Register writes with an effect (R244, R248, R270, R302, R336, R354, R360, R363, R377, R386, R396, R431). RING_ENABLE,
PWR_NEXT, CNT_SNAP, MGT_POSITION, LNK_CTL, MEM_CTL and PWR_CMD writes store their fields and have their effect: rings
empty but for FETCH_ERR, a declaration is made, a snapshot is taken, the identity exchange runs, ports retrain or stop,
LPDDR5X is initialised and its package and kept images are gone, the device moors or refuses. -/
def Obligations.RegisterEvents : Prop :=
  (∀ (q : RingId) (v : Word) (s : State), Writable (wakeAccess s) (ringReg q 0x10) → ringEnabled s q = false →
    4 ≤ bitsN v.toNat 0 5 → bitsN v.toNat 0 5 ≤ 16 → 4 ≤ bitsN v.toNat 8 5 → bitsN v.toNat 8 5 ≤ 16 →
    ∃ u, exec (.ringEnable q v) s = .next u ∧ reg u (ringReg q 0x10) = (v.toNat &&& 0x11F1F) ∧
      (∀ o, o ≠ ringReg q 0x10 → reg u o = reg s o) ∧
      ring u q = (if bitN v.toNat 16 then { fetchErr := (ring s q).fetchErr } else { ring s q with fetchErr := false }) ∧ (∀ r, r ≠ q.val → ring u r = ring s r) ∧
      u = { s with regs := u.regs, host := { s.host with rings := u.host.rings }, pwr := u.pwr }) ∧
  (∀ (v : Word) (s : State), Writable (wakeAccess s) 0xB008 →
    ∃ u, exec (.pwrNext v) s = .next u ∧ reg u 0xB008 = v.toNat ∧
      u.pwr.nextAt = (if v.toNat = 0 then none else some (s.boot.uptime + 1000 * v.toNat)) ∧
      u = { s with regs := u.regs, pwr := { s.pwr with nextAt := u.pwr.nextAt, exiting := u.pwr.exiting } }) ∧
  (∀ (v : Word) (s : State), Writable (wakeAccess s) 0x200000 → bitN v.toNat 0 = true →
    ∃ u, exec (.cntSnap v) s = .next u ∧ u = { s with regs := u.regs, cnt := u.cnt, free := s.free + 1, pwr := u.pwr } ∧
      u.cnt.seq = (s.cnt.seq + 1) % 2 ^ 32 ∧ u.cnt.stroke = s.stroke.count ∧
      (∀ k, cntExact u k = if bitN (bitsN v.toNat 8 5) (cntGroup k) then 0 else cntExact s k)) ∧
  (∀ (v : Word) (s : State), Writable (wakeAccess s) 0x10 →
    ∃ u, exec (.mgtPositionWrite v) s = .next u ∧ reg u 0x10 = (v.toNat &&& 0x80000FFF) ∧
      u = { s with regs := u.regs, out := u.out, pwr := u.pwr } ∧
      ∀ p, p < 16 → (port s p).sub0.up = true ∨ (port s p).sub1.up = true → Output.identity p ∈ u.out) ∧
  (∀ (p : PortId) (v : Word) (s : State), Writable (wakeAccess s) (portReg p 0) → s.plan = none → bitN v.toNat 0 = true →
    bitN (reg s (portReg p 0)) 0 = false ∨ bitN (reg s (portReg p 0)) 1 ≠ bitN v.toNat 1 →
    ∃ u, exec (.portEnable p v) s = .next u ∧ exec (.portSplitChange p v) s = .next u ∧ reg u (portReg p 0) = (v.toNat &&& 7) ∧
      (port u p).sub0 = { (port s p).sub0 with up := false, training := true, lanes := 0, peerValid := false } ∧
      (port u p).sub1 = { (port s p).sub1 with up := false, training := bitN v.toNat 1, lanes := 0, peerValid := false } ∧
      (port u p).failedLanes = 0 ∧ (port u p).spared = false ∧ (∀ q, q ≠ p.val → port u q = port s q) ∧
      u = { s with regs := u.regs, link := { s.link with port := u.link.port }, pwr := u.pwr }) ∧
  (∀ (p : PortId) (v : Word) (s : State), Writable (wakeAccess s) (portReg p 0) → s.plan = none → bitN v.toNat 0 = false →
    bitN (reg s (portReg p 0)) 0 = true →
    ∃ u, exec (.portEnable p v) s = .next u ∧ (port u p).sub0.up = false ∧ (port u p).sub1.up = false ∧
      (port u p).sub0.peerValid = false ∧ ∀ q, q ≠ p.val → port u q = port s q) ∧
  (∀ (v : Word) (s : State), Writable (wakeAccess s) 0x400000 → s.plan = none → bitN (reg s 0x400000) 0 ≠ bitN v.toNat 0 →
    ∃ u, exec (.inlineEccChange v) s = .next u ∧ reg u 0x400000 = (v.toNat &&& 3) ∧ (∀ c, c < 16 → (ch u c).init = true) ∧
      (∀ x, lpddrBase ≤ x → x < lpddrBase + 2 ^ 40 → memByte u x = 0) ∧
      u = { s with regs := u.regs, mem := u.mem, pwr := u.pwr, res := { s.res with kept := [] }, pkg := none, sources := [], map := []
                   mapBytes := [], failInputs := [], dev := if s.dev == .loaded then .idle else s.dev }) ∧
  (∀ (v : Word) (s : State), Writable (wakeAccess s) 0xB000 → bitN v.toNat 0 = true →
    (moorAllowed s = true → ∃ u, exec (.pwrMoor v) s = .next u ∧ u.pwr.state = .g5 ∧ u.pwr.domains = false ∧
      u.host.linkUp = false ∧ u.link.port = [] ∧ u.dev = s.dev ∧ u.pkg = s.pkg) ∧
    (moorAllowed s = false → ∃ u, exec (.pwrMoor v) s = .next (refuseWrite u) ∧ u = { s with regs := u.regs, pwr := u.pwr } ∧
      u.pwr.state = s.pwr.state))

/-- COPY and the BAR4 window (R239, R242, R250, R251, R258, R334, R343, R346, R347). COPY moves its bytes within device memory
and changes no other byte; in a run every destination but host windows and the trace region is refused, addresses that do
not exist are refused, counted and logged. BAR4 reads deliver memory or poison with its reason; writes outside a run change
exactly their bytes; writes in a run (log entry 43) or into closed or absent memory are refused and counted. -/
def Obligations.HostMemoryAccess : Prop :=
  (∀ (q : RingId) (data : HostData) (found : List (Nat × EccOutcome)) (e : List Byte) (s : State) (src dst n : Nat), Front s q 0x30 e →
    s.dev ≠ .wedged → copyStates s = none → src = leAt e 8 8 → dst = leAt e 0x10 8 → n = leAt e 0x18 8 → 1 ≤ n → n ≤ 2 ^ 40 →
    zeroAt e 0x20 32 = true →
    (runActive s = true → isHostAddr dst = false → ¬ (traceRegion s ≤ dst ∧ dst + n ≤ pkgRegion s) →
      exec (.copy q data found) s = .next (complete q 6 [] s)) ∧
    (runActive s = false → (memReason s src n = 4 ∨ destOk s dst n = false) →
      exec (.copy q data found) s = .next (complete q 5 [] (refuseHost s))) ∧
    (runActive s = false → memReason s src n = 0 → destOk s dst n = true → writeReason s dst n = 0 →
      (∀ i, i < n → isHostAddr (src + i) = false ∧ devToHost s (dst + i) = none ∧ plainAddr (dst + i)) →
      (∀ y ∈ found, y.2 = .clean ∨ y.2 = .corrected ∨ y.2 = .linkCorrected ∨ y.2 = .linkRepeated) →
      ∃ u v, exec (.copy q data found) s = .next u ∧ u = complete q 0 [] v ∧
        v = { s with mem := v.mem, cnt := v.cnt, log := v.log, host := v.host, mgmt := { s.mgmt with life := v.mgmt.life }
                     res := { s.res with now := v.res.now } } ∧
        memBytes v dst n = memBytes s src n ∧ ∀ x, ¬ logRing x → x < dst ∨ dst + n ≤ x → memByte v x = memByte s x)) ∧
  ((∀ (off size a : Nat) (o : EccOutcome) (s v : State), v = bump (cntDev 47) 1 (wakeAccess s) → a = diagBase s + off →
    ∃ t w, exec (.bar4Read off size o) s = .next t ∧ EccOnly v w ∧
      (bar4Reason v a size o = 0 → t = emit (.barRead (memBytes w a size) false false) w) ∧
      (bar4Reason v a size o = 4 → t = emit (.aer 3) (emit (.barRead [] false true) (bump (cntDev 21) 1 w))) ∧
      (∀ r, bar4Reason v a size o = r → r = 1 ∨ r = 2 ∨ r = 5 →
        t = emit (.aer 4) (emit (.barRead (List.replicate size 0xFF) true false) (bump (cntDev (17 + r)) 1 w)))) ∧
  (∀ (off a : Nat) (bytes : List Byte) (s : State), bytes ≠ [] → a = diagBase s + off → runActive s = false →
    writeReason s a bytes.length = 0 →
    (∀ i, i < bytes.length → plainAddr (a + i) ∧ closedTo s (a + i) = false ∧
      ∃ m, memRegion s (a + i) = some m ∧ m ≠ .aon ∧ ∀ w, m ≠ .host w) →
    ∃ u, exec (.bar4Write off bytes) s = .next u ∧ memBytes u a bytes.length = bytes ∧
      (∀ x, ¬ logRing x → x < a ∨ a + bytes.length ≤ x → memByte u x = memByte s x) ∧
      u = { s with mem := u.mem, cnt := u.cnt, log := u.log, host := u.host, pwr := { s.pwr with exiting := u.pwr.exiting } }) ∧
  (∀ (off : Nat) (bytes : List Byte) (s : State), bytes ≠ [] → (runActive s = true ∨ ∃ i, i < bytes.length ∧
      (closedTo s (diagBase s + off + i) = true ∨ memRegion s (diagBase s + off + i) = none ∨
        memRegion s (diagBase s + off + i) = some .aon)) →
    exec (.bar4Write off bytes) s = .next (refuseWrite (wakeAccess s))))

/-- Mailbox operations (R360, R364, R406, R410, R411, R418, R419, R421). LOG_READ and LIFE_READ place their bytes in the
shared buffer; MOOR and WAKE act where their conditions hold and answer code 4 elsewhere; RESET is a full reset; while
an operation is busy every other answers code 1. A message from MCTP is answered with the code. -/
def Obligations.MailboxOperations : Prop :=
  ((∀ (src : MboxSrc) (s : State) (b : List Byte), s.mgmt.mboxBusy = false → 1 ≤ (mboxArgs src s).2 → (mboxArgs src s).2 ≤ 4096 →
    b = ((List.range (mboxArgs src s).2).flatMap fun i =>
      match s.flash.log.find? fun e => e.seq % 2 ^ 32 == ((mboxArgs src s).1 + i) % 2 ^ 32 with
      | some e => logBytes e
      | none => List.replicate 64 0) →
    ∃ t, exec (.mboxLogRead src) s = .next t ∧ MboxReplied src 0 t ∧ (b.length ≤ 262144 → memBytes t mboxArea b.length = b) ∧
      t = { s with mem := t.mem, mgmt := { s.mgmt with mboxCode := 0 }, out := t.out } ∧
      ∀ x, x < mboxArea ∨ mboxArea + b.length ≤ x → memByte t x = memByte s x) ∧
  (∀ (src : MboxSrc) (s : State), s.mgmt.mboxBusy = false → (mboxArgs src s).2 = 0 ∨ 4096 < (mboxArgs src s).2 →
    ∃ t, exec (.mboxLogRead src) s = .next t ∧ MboxReplied src 3 t ∧
      t = { s with mgmt := { s.mgmt with mboxCode := 3 }, out := t.out }) ∧
  (∀ (src : MboxSrc) (s : State), s.mgmt.mboxBusy = false →
    ∃ t, exec (.mboxLifeRead src) s = .next t ∧ MboxReplied src 0 t ∧ t.mgmt = { (lifeWrite s).mgmt with mboxCode := 0 } ∧
      t.flash = (lifeWrite s).flash ∧ t = { s with mem := t.mem, mgmt := t.mgmt, flash := t.flash, out := t.out } ∧
      ((lifeBytes (lifeWrite s)).length ≤ 262144 → memBytes t mboxArea (lifeBytes (lifeWrite s)).length = lifeBytes (lifeWrite s)) ∧
      ∀ x, x < mboxArea ∨ mboxArea + (lifeBytes (lifeWrite s)).length ≤ x → memByte t x = memByte s x) ∧
  ∀ (src : MboxSrc) (s : State), s.mgmt.mboxBusy = true → ∀ c, c ∈ [Instr.mboxLogRead src, .mboxLifeRead src, .mboxMoor src,
      .mboxWake src, .mboxReset src] →
    ∃ t, exec c s = .next t ∧ MboxReplied src 1 t ∧ t = { s with mgmt := { s.mgmt with mboxCode := 1 }, out := t.out }) ∧
  (∀ (src : MboxSrc) (s : State), s.mgmt.mboxBusy = false →
    (moorAllowed s = true → s.pwr.state ≠ .g5 →
      ∃ t, exec (.mboxMoor src) s = .next t ∧ MboxReplied src 0 t ∧ t.pwr.state = .g5 ∧ t.pwr.domains = false ∧
        t.host.linkUp = false ∧ t.link.port = [] ∧ t.dev = s.dev ∧ t.pkg = s.pkg) ∧
    (moorAllowed s = false ∨ s.pwr.state = .g5 →
      ∃ t, exec (.mboxMoor src) s = .next t ∧ MboxReplied src 4 t ∧ t = { s with mgmt := { s.mgmt with mboxCode := 4 }, out := t.out }) ∧
    (s.pwr.state = .g5 → ∃ t, exec (.mboxWake src) s = .next t ∧ MboxReplied src 0 t ∧
      t = { s with pwr := { s.pwr with exiting := true }, mgmt := { s.mgmt with mboxCode := 0 }, out := t.out }) ∧
    (s.pwr.state ≠ .g5 → ∃ t, exec (.mboxWake src) s = .next t ∧ MboxReplied src 4 t ∧
      t = { s with mgmt := { s.mgmt with mboxCode := 4 }, out := t.out }) ∧
    ∃ t, exec (.mboxReset src) s = .next t ∧ MboxReplied src 0 t ∧ t.pkg = none ∧ t.plan = none ∧ t.cores = [] ∧
      t.run = {} ∧ t.sources = [] ∧ t.adm = {} ∧ t.cox = {})

/-- Memory controllers, hold partitions and scrubbing (R242, R243, R246, R248, R251, R252, R254, R266, R304). A flush sends
out the least recent block and counts its merge; refresh, temperature, LPDDR5X and hold initialisation change their unit
alone, memory reads as before but for the end of an initialisation. A scrub read counts a corrected word; an uncorrectable
or poisoned one is logged once per pass, marks the health monitor, and in a run the plan's words ask for their path. -/
def Obligations.MemoryUnits : Prop :=
  ((∀ (c : CtrlId) (s : State), ∃ u, exec (.writeBufferFlush c) s = .next u ∧ ((ch s c).buffers = [] → u = s) ∧
    ((ch s c).buffers ≠ [] → cntExact u (cntCh c 7) = min (cntExact s (cntCh c 7) + 1) (2 ^ 48 - 1)) ∧
    ch u c = { ch s c with buffers := (ch s c).buffers.dropLast } ∧ (∀ d, d ≠ c.val → ch u d = ch s d) ∧
    u = { s with mem := { s.mem with ch := u.mem.ch }, cnt := u.cnt, log := u.log, host := u.host } ∧
    ∀ x, ¬ logRing x → memByte u x = memByte s x) ∧
  (∀ (c : CtrlId) (s : State), (ch s c).trained = true → (ch s c).selfRefresh = false →
    ∃ u, exec (.lpddrRefresh c) s = .next u ∧ ch u c = { ch s c with refreshes := (ch s c).refreshes + 1 } ∧
      (∀ d, d ≠ c.val → ch u d = ch s d) ∧ u = { s with mem := { s.mem with ch := u.mem.ch } }) ∧
  (∀ (c : CtrlId) (t : Int) (s : State), s.pwr.domains = true → s.pwr.state ≠ .g4 → s.pwr.state ≠ .g5 →
    ∃ u, exec (.lpddrTempRead c t) s = .next u ∧ ch u c = { ch s c with hot := decide (85 < t) } ∧
      (∀ d, d ≠ c.val → ch u d = ch s d) ∧ sget (fun _ => (0 : Int)) u.mgmt.lpddrTemp c = t ∧
      u = { s with mem := { s.mem with ch := u.mem.ch }, mgmt := { s.mgmt with lpddrTemp := u.mgmt.lpddrTemp }
                   pwr := { s.pwr with throttle := u.pwr.throttle }, cnt := u.cnt, log := u.log, host := u.host } ∧
      ∀ x, ¬ logRing x → memByte u x = memByte s x) ∧
  (∀ (c : CtrlId) (s : State), (ch s c).init = true →
    ∃ u, exec (.lpddrInitDone c) s = .next u ∧ MemOnly s u ∧
      (∀ d, ch u d = { (if d = c.val then { ch s c with init := false, trained := true, scrubbing := true } else ch s d) with
        buffers := (ch u d).buffers }) ∧
      ((∃ d, d < 16 ∧ d ≠ c.val ∧ (ch s d).init = true) → (∀ d, (ch u d).buffers = (ch s d).buffers) ∧
        u = { s with mem := { s.mem with ch := u.mem.ch } })) ∧
  ∀ (n : CoreId) (s : State), (part s n).init = true →
    ∃ u, exec (.holdInitDone n) s = .next u ∧ part u n = { part s n with init := false, scrubbing := true } ∧
      (∀ m, m ≠ n.val → part u m = part s m) ∧ u = { s with mem := { s.mem with part := u.mem.part } }) ∧
  (∀ (u : MemUnit) (a w : Nat) (o : EccOutcome) (s v : State), scrubs s u = true → inUnit s u a = true →
    w = codeWord s a → v = passStart u w s →
    (isPoisoned s w = false → eccSeen s w o ≠ .uncorrectable → eccSeen s w o ≠ .asPoison →
      ∃ t, exec (.scrubRead u a o) s = .next t ∧ t = eccRead true w o v ∧ EccOnly v t ∧
        (eccSeen s w o = .corrected → (∀ n, memRegion s w = some (.hold n) → cntExact t (cntPart n 1) = min (cntExact s (cntPart n 1) + 1) (2 ^ 48 - 1)) ∧
          (memRegion s w = some .lpddr → cntExact t (cntCh (lpddrCtrl w) 3) =
            min (cntExact s (cntCh (lpddrCtrl w) 3) + 1) (2 ^ 48 - 1)))) ∧
    ((isPoisoned s w = true ∨ eccSeen s w o = .uncorrectable ∨ eccSeen s w o = .asPoison) →
      (v.mem.logged.contains w = true → exec (.scrubRead u a o) s = .next v) ∧
      (v.mem.logged.contains w = false →
        ∃ t, exec (.scrubRead u a o) s = .next t ∧ t.mem.logged = v.mem.logged ++ [w] ∧ t.cores = s.cores ∧
          t.run = { s.run with holdDue := t.run.holdDue } ∧
          (eccSeen s w o = .uncorrectable → inUnit s u w = true → t.res.ue = true) ∧
          (¬ (plannerCopy s ≤ w ∧ w < traceRegion s) → (∀ x, ¬ logRing x → memByte t x = memByte s x) ∧
            (inRun s = true → planUses s w = true → 4 ≤ t.run.holdDue ∧
              (w, if eccSeen s w o = .uncorrectable then 1 else 5) ∈ t.res.badAddrs)))))

/-- Power-state entries and drain timeouts (R359, R360, R361, R363, R365, R366). Idle units enter G1, idle groups G2
and the device G3 or G4, the deepest that is allowed, and a domain with work outstanding drains first; a drain timeout
bars its domain from the entry. Conditions that the manual leaves open are log entry 99. -/
def Obligations.PowerEntries : Prop :=
  (∀ (c : CoreId) (u : Fin 7) (n : Nat) (s : State), unitIdle s c u = true → gated s c u = false →
    chooseState [.g1] (some n) (latTol s) false = .g1 →
    ∃ t, exec (.powerStateEntry (.unit c u) n) s = .next t ∧ gated t c u = true ∧
      (∀ d v, v < 8 → d ≠ c.val ∨ v ≠ u.val → gated t d v = gated s d v) ∧
      t = { s with pwr := { s.pwr with units := t.pwr.units, unitExit := t.pwr.unitExit } }) ∧
  (∀ (g : GroupId) (n : Nat) (s : State), group s g = .p0 → s.pwr.barred.contains g.val = false → avsWaits s = false →
    groupIdle s g = true → chooseState [.g2] (some n) (latTol s) false = .g2 →
    ∃ t, exec (.powerStateEntry (.group g) n) s = .next t ∧ (∀ h, h ≠ g.val → group t h = group s h) ∧
      t = { s with pwr := { s.pwr with groups := t.pwr.groups, draining := t.pwr.draining } } ∧
      (groupBusy s g = false → group t g = .g2 ∧ t.pwr.draining.contains g.val = false) ∧
      (groupBusy s g = true → group t g = .p0 ∧ t.pwr.draining.contains g.val = true)) ∧
  (∀ (n : Nat) (s : State) (p : PowerState), moorAllowed s = true → s.pwr.state = .p0 → s.pwr.barred.contains 12 = false →
    avsWaits s = false → hostQuiet s = true → p = chooseState [.g3, .g4] (deviceNext s) (latTol s) (deepEn s) → p ≠ .p0 →
    ∃ t, exec (.powerStateEntry .device n) s = .next t ∧ t.dev = s.dev ∧ t.pkg = s.pkg ∧
      (activePasses s = 0 → t.pwr.state = p) ∧
      (0 < activePasses s → t.pwr.draining.contains 12 = true ∧ t = { s with pwr := { s.pwr with draining := t.pwr.draining } })) ∧
  (∀ (sc : PowerScope) (count d : Nat) (s : State), d = (match sc with | .unit c _ => groupOf s c | .group g => g | .device => 12) →
    s.pwr.draining.contains d = true →
    ∃ t, exec (.drainTimeout sc count) s = .next t ∧ t.pwr.barred = s.pwr.barred ++ [d] ∧ t.pwr.draining.contains d = false ∧
      t.pwr.state = s.pwr.state ∧ t.pwr.groups = s.pwr.groups ∧ ∀ x, ¬ logRing x → memByte t x = memByte s x)

/-- Power-state exits, D3hot and D0 (R359, R360, R361, R364, R366). An exit that is begun, unplanned or not, ends in
P0 for its own scope alone and leaves memory; D3hot takes the device to G4 where mooring is allowed, groups to G2 in
PLANNED, and stops replies alone in a run; D0 ends it. -/
def Obligations.PowerExits : Prop :=
  ((∀ (c : CoreId) (u : Fin 7) (s : State), gated s c u = true →
    ∃ t, exec (.powerStateExit (.unit c u)) s = .next t ∧ exec (.unplannedWake (.unit c u)) s = .next (bump (cntDev 31) 1 t) ∧
      sget (fun _ => false) t.pwr.unitExit (c * 8 + u) = true ∧ t = { s with pwr := { s.pwr with unitExit := t.pwr.unitExit } }) ∧
  (∀ (g : GroupId) (s : State), group s g = .g2 →
    ∃ t, exec (.powerStateExit (.group g)) s = .next t ∧ exec (.unplannedWake (.group g)) s = .next (bump (cntDev 31) 1 t) ∧
      sget (fun _ => false) t.pwr.groupExit g = true ∧ t = { s with pwr := { s.pwr with groupExit := t.pwr.groupExit } }) ∧
  (∀ s : State, s.host.d3hot = false → s.pwr.state = .g3 ∨ s.pwr.state = .g4 → ∀ i, i ∈ [Instr.powerStateExit .device, .unplannedWake .device] →
    exec i s = .next { s with pwr := { s.pwr with exiting := true } }) ∧
  (∀ (c : CoreId) (u : Fin 7) (late : Nat) (s : State), sget (fun _ => false) s.pwr.unitExit (c * 8 + u) = true →
    ∃ t, exec (.powerExitComplete (.unit c u) late) s = .next t ∧ gated t c u = false ∧
      (∀ d v, v < 8 → d ≠ c.val ∨ v ≠ u.val → gated t d v = gated s d v) ∧ ∀ x, ¬ logRing x → memByte t x = memByte s x) ∧
  (∀ (g : GroupId) (late : Nat) (s : State), sget (fun _ => false) s.pwr.groupExit g = true →
    ∃ t, exec (.powerExitComplete (.group g) late) s = .next t ∧ group t g = .p0 ∧ (∀ h, h ≠ g.val → group t h = group s h) ∧
      ∀ x, ¬ logRing x → memByte t x = memByte s x) ∧
  (∀ (s : State), s.pwr.exiting = true →
    ∃ t, exec (.powerExitComplete .device 0) s = .next t ∧ t.pwr.state = .p0 ∧ t.pwr.exiting = false ∧ t.pwr.domains = true ∧ t.dev = s.dev ∧ t.pkg = s.pkg)) ∧
  ((∀ s : State, moorAllowed s = true → s.pwr.state = .p0 ∨ s.pwr.state = .g3 →
    ∃ t, exec .d3hotEntry s = .next t ∧ t.host.d3hot = true ∧ t.pwr.state = .g4 ∧ t.dev = s.dev ∧ t.pkg = s.pkg) ∧
  (∀ s : State, s.dev = .planned → ∃ t, exec .d3hotEntry s = .next t ∧ t.host = { s.host with d3hot := true } ∧
    (∀ g, g < 12 → group s g = .p0 → group t g = .g2) ∧ t = { s with host := t.host, pwr := { s.pwr with groups := t.pwr.groups } }) ∧
  (∀ s : State, runActive s = true → exec .d3hotEntry s = .next { s with host := { s.host with d3hot := true } }) ∧
  ∀ s : State, s.host.d3hot = true → (∀ q, (ring s q).queued = []) →
    ∃ t, exec .d0Return s = .next t ∧ t.host = { s.host with d3hot := false } ∧
      t.pwr.exiting = (s.pwr.exiting || (s.pwr.state == .g3 || s.pwr.state == .g4)) ∧
      (s.dev = .planned → ∀ g, g < 12 → group s g = .g2 → sget (fun _ => false) t.pwr.groupExit g = true) ∧
      t = { s with host := t.host, pwr := { s.pwr with exiting := t.pwr.exiting, groupExit := t.pwr.groupExit } })

/-- AVS requests, droop, sensors and regulators (R370, R371, R373, R374, R375, R411, R412, R413, R414). An
acknowledged AVS request is the rail's level; three retries precede a fault; droops are counted; sensors follow their
readings and fail outside -40 to 150 °C; THERM_TRIP_N is asserted once; a regulator that misses three polls has
failed. -/
def Obligations.SuppliesAndHeat : Prop :=
  ((∀ (r : Fin 2) (s : State), (railAvs s r).pending = true →
    ∃ t, exec (.avsAck r) s = .next t ∧ railAvs t r = { railAvs s r with
      pending := false, acked := (railAvs s r).requested, fault := false, upFault := false } ∧
      (∀ k, k ≠ r.val → railAvs t k = railAvs s k) ∧ t = { s with pwr := { s.pwr with rails := t.pwr.rails } }) ∧
  (∀ (r : Fin 2) (s : State), (railAvs s r).pending = true → (railAvs s r).retries < 3 →
    ∃ t, exec (.avsAckTimeout r) s = .next t ∧ t.out = .avs r (railAvs s r).requested :: s.out ∧
      cntExact t (cntDev 26) = min (cntExact s (cntDev 26) + 1) (2 ^ 48 - 1) ∧
      railAvs t r = { railAvs s r with retries := (railAvs s r).retries + 1 } ∧ (∀ k, k ≠ r.val → railAvs t k = railAvs s k) ∧
      t = { s with pwr := { s.pwr with rails := t.pwr.rails }, out := t.out, cnt := t.cnt, log := t.log, host := t.host }) ∧
  (∀ (r : Fin 2) (s : State) (up : Bool), (railAvs s r).pending = true → (railAvs s r).retries = 3 →
    up = decide (railVolt s r < (railAvs s r).requested) →
    ∃ t, exec (.avsAckTimeout r) s = .next t ∧ railAvs t r = { railAvs s r with pending := false, fault := true, upFault := up } ∧
      (∀ k, k ≠ r.val → railAvs t k = railAvs s k) ∧
      t.run = { s.run with devFault := s.run.devFault || (up && inRun s) } ∧ t.dev = s.dev ∧ ∀ x, ¬ logRing x → memByte t x = memByte s x) ∧
  ∀ (hold : Bool) (g : GroupId) (s : State),
    ∃ t, exec (.droopEvent hold g) s = .next t ∧
      cntExact t (cntDev (if hold then 28 else 27)) = min (cntExact s (cntDev (if hold then 28 else 27)) + 1) (2 ^ 48 - 1) ∧
      sget natD t.res.now 3 = sget natD s.res.now 3 + 1 ∧
      t = { s with cnt := t.cnt, log := t.log, host := t.host, res := { s.res with now := t.res.now } } ∧
      ∀ x, ¬ logRing x → memByte t x = memByte s x) ∧
  ((∀ (l : List Int) (i : Nat) (s : State), s.dev ≠ .boot → s.dev ≠ .recovery → i < 30 → (sensor s i).fail = false →
    ∃ t, exec (.sensorSample l) s = .next t ∧ (sensor t i).valid = true ∧
      (-160 ≤ l.getD i 0 → l.getD i 0 ≤ 600 → (sensor s i).still + 1 < 10000 →
        (sensor t i).reading = l.getD i 0 ∧ (sensor t i).fail = false) ∧
      (l.getD i 0 < -160 ∨ 600 < l.getD i 0 → (sensor t i).reading = 400 ∧ (sensor t i).fail = true)) ∧
  (∀ s : State, s.pins.thermTrip = false →
    ∃ t, exec .thermTrip s = .next t ∧ t.pins = { s.pins with thermTrip := true } ∧ t.out = .thermTripN true :: s.out ∧
      t.flash.life.head? = some t.mgmt.life ∧ t.pwr = s.pwr ∧ t.dev = s.dev) ∧
  (∀ s : State, s.pins.thermTrip = true → exec .thermTrip s = .next s) ∧
  ∀ (r : Fin 10) (s : State), bitN (reg s (0x100200 + 8 * r.val)) 7 = true →
    (∀ v : RailReading, ∃ t, exec (.regulatorPoll r (some v)) s = .next t ∧
      railTel t r = { vout := v.voutMv, iout := v.iout100ma, missed := 0, failed := false } ∧
      (∀ k, k ≠ r.val → railTel t k = railTel s k) ∧
      t = { s with mgmt := { s.mgmt with rails := t.mgmt.rails }, out := .pmbusPoll r :: s.out }) ∧
    ∃ t, exec (.regulatorPoll r none) s = .next t ∧
      railTel t r = { railTel s r with missed := (railTel s r).missed + 1, failed := decide (3 ≤ (railTel s r).missed + 1) } ∧
      (∀ k, k ≠ r.val → railTel t k = railTel s k) ∧ t.out = .pmbusPoll r :: s.out ∧ ∀ x, ¬ logRing x → memByte t x = memByte s x)

/-- Log, lifetime and trace records, and the power pins (R352, R393, R401, R408, R409, R410, R411, R427, R444, R445).
LOG_FLUSH puts waiting entries in the flash; a lifetime write takes the next slot; a trace drain moves one record;
VDD_AON, PERST_N and SYS_PWRGOOD start the boot, the full reset and the loss of power (log entry 101); flash image and
fuses stay. -/
def Obligations.ManagementRecords : Prop :=
  ((∀ s : State, s.dev ≠ .boot → s.dev ≠ .recovery →
    ∃ u, exec .logFlush s = .next u ∧ (s.log.dropped = 0 → u.log = { s.log with waiting := 0 }) ∧
      (∀ e ∈ s.log.ring, s.log.next ≤ e.2.seq + s.log.waiting + s.log.dropped →
        s.flash.log.length + s.log.ring.length ≤ 262144 → ∃ f ∈ u.flash.log, f.seq = e.2.seq) ∧
      ∀ x, ¬ logRing x → memByte u x = memByte s x) ∧
  (∀ s : State, s.dev ≠ .boot → s.dev ≠ .recovery →
    ∃ u, exec .lifetimeRecordWrite s = .next u ∧ lifeGet u 0x08 = min (lifeGet s 0x08 + 1) (2 ^ 64 - 1) ∧
      u.flash = { s.flash with life := (u.mgmt.life :: s.flash.life).take 1024, lifeSlot := (s.flash.lifeSlot + 1) % 1024 } ∧
      u = { s with mgmt := { s.mgmt with life := u.mgmt.life }, flash := u.flash }) ∧
  (∀ s : State, s.dev = .boot ∨ s.dev = .recovery → exec .logFlush s = .next s ∧ exec .lifetimeRecordWrite s = .next s) ∧
  ∀ (s : State) (t : TraceSession) (c : Nat) (r : List Byte) (rest : List (List Byte)), s.trace.session = some t → s.trace.waiting = none →
    s.trace.moved < drainBudget s t → drainCore s t = some c → (sget bufD s.trace.bufs c).recs = r :: rest →
    t.mode ≠ 1 ∨ s.trace.wptr < t.bytes / 32 →
    ∃ u a, exec .traceDrain s = .next u ∧ a = t.dest + 32 * (s.trace.wptr % (t.bytes / 32)) ∧
      sget bufD u.trace.bufs c = { sget bufD s.trace.bufs c with recs := rest } ∧
      (∀ d, d ≠ c → sget bufD u.trace.bufs d = sget bufD s.trace.bufs d) ∧
      u.trace = { s.trace with bufs := u.trace.bufs, session := some { t with drained := t.drained + 1, last := c }
                               wptr := s.trace.wptr + 1, moved := s.trace.moved + 1 } ∧
      (∀ h, devToHost s a = some h → u.out = .hostWrite h r :: s.out ∧ ∀ x, ¬ logRing x → memByte u x = memByte s x) ∧
      (devToHost s a = none → (∀ i, i < r.length → plainAddr (a + i)) → memBytes u a r.length = r ∧ u.out = s.out ∧
        ∀ x, ¬ logRing x → x < a ∨ a + r.length ≤ x → memByte u x = memByte s x) ∧
      u = { s with trace := u.trace, mem := u.mem, out := u.out, cnt := u.cnt, log := u.log, host := u.host }) ∧
  ((∀ s : State, ∃ u, exec .vddAonUp s = .next u ∧ u.fuses = s.fuses ∧ u.flash = s.flash ∧ u.pending = s.pending ∧ u.cores = [] ∧
    u.pkg = none ∧ u.plan = none ∧ u.mem.data = [] ∧ u.regs = [] ∧ u.log.ring = [] ∧
    (s.flash.valid = true → s.flash.image.formOk = true → keyOk s s.flash.image = true → s.flash.image.ecdsaOk = true →
      s.flash.image.lmsOk = true → svnCount s ≤ s.flash.image.svn → u.dev = .boot ∧ u.boot.waiting = true)) ∧
  (∀ s : State, s.pins.perst = false → s.pins.pwrgood = true → s.pins.thermTrip = false →
    ∃ u, exec .perstAssert s = .next u ∧ u.pins.perst = true ∧ u.dev = .boot ∧ u.pkg = none ∧ u.plan = none ∧ u.cores = [] ∧
      u.flash.image = s.flash.image ∧ u.fuses = s.fuses ∧ u.regs = s.regs.filter fun x => keptAtReset x.1) ∧
  (∀ s : State, s.pins.perst = true → s.pins.pwrgood = true → s.dev = .boot → s.boot.recovery = false → s.boot.bodyRead = false →
    s.boot.waiting = false → s.flash.valid = true → s.flash.image.formOk = true → keyOk s s.flash.image = true →
    s.flash.image.ecdsaOk = true → s.flash.image.lmsOk = true → s.flash.image.digestOk = true → svnCount s ≤ s.flash.image.svn →
    ∃ u, exec .perstDeassert s = .next u ∧ u.dev = .idle ∧ u.pwr.domains = true ∧ u.pkg = s.pkg ∧ u.regs = s.regs) ∧
  (∀ s : State, s.pins.pwrgood = true →
    ∃ u, exec .sysPwrgoodFall s = .next u ∧ u.pins.pwrgood = false ∧ u.dev = .boot ∧ u.pwr.domains = false ∧ u.boot.memLost = true ∧
      u.host.linkUp = false ∧ u.run = {} ∧ u.plan = none ∧ u.fuses = s.fuses ∧ u.flash.life.head? = some u.mgmt.life) ∧
  ∀ s : State, s.pins.pwrgood = false → s.pins.fell = true →
    ∃ u, exec .sysPwrgoodRise s = .next u ∧ u.pkg = none ∧ u.plan = none ∧ u.cores = [] ∧ u.run = {} ∧
      u.regs = s.regs.filter fun x => keptAtReset x.1)

/-- SPDM, MCTP, PLDM and the TAP (R416, R417, R418, R420, R430). Each request answers one response and changes its
connection state, the endpoint identifier or the TAP's instruction alone; EXTEST, CLAMP and HIGHZ drive pins only
while PERST_N is asserted. What the named standards give beyond the manual is presumed (log entries 102 to 105). -/
def Obligations.ManagementProtocols : Prop :=
  ((∀ (tr : SpdmTransport) (s : State), s.dev ≠ .boot → s.dev ≠ .recovery →
    ∃ u, exec (.spdmGetVersion tr) s = .next u ∧ u.out = .spdm (tr == .mctp) 4 [0, 1, 0, 0x12] :: s.out ∧ spdmState u tr = 1 ∧
      u = { s with out := u.out, mgmt := { s.mgmt with spdm := u.mgmt.spdm } }) ∧
  (∀ (tr : SpdmTransport) (s : State), s.dev ≠ .boot → s.dev ≠ .recovery → 1 ≤ spdmState s tr →
    ∃ u, exec (.spdmGetCapabilities tr) s = .next u ∧ u.out = .spdm (tr == .mctp) 0x61 Config.spdmCapabilities :: s.out ∧
      spdmState u tr = 2 ∧ u = { s with out := u.out, mgmt := { s.mgmt with spdm := u.mgmt.spdm } }) ∧
  (∀ (tr : SpdmTransport) (r : List Byte) (s : State), s.dev ≠ .boot → s.dev ≠ .recovery → 2 ≤ spdmState s tr →
    ∃ u, exec (.spdmNegotiateAlgorithms tr r) s = .next u ∧ u.out = .spdm (tr == .mctp) 0x63 (Config.spdmAlgorithms r) :: s.out ∧
      spdmState u tr = 3 ∧ u = { s with out := u.out, mgmt := { s.mgmt with spdm := u.mgmt.spdm } }) ∧
  (∀ (tr : SpdmTransport) (s : State) (b : List Byte), s.dev ≠ .boot → s.dev ≠ .recovery → 3 ≤ spdmState s tr →
    exec (.spdmGetDigests tr) s = .next { s with out := .spdm (tr == .mctp) 1 (sha384 Config.certChain) :: s.out } ∧
    (∀ o n, b = (Config.certChain.drop o).take n → exec (.spdmGetCertificate tr o n) s = .next { s with
      out := .spdm (tr == .mctp) 2 (leBytes 2 b.length ++ leBytes 2 (Config.certChain.length - o - b.length) ++ b) :: s.out }) ∧
    (∀ n, b = sha384 Config.certChain ++ n → exec (.spdmChallenge tr n) s = .next { s with
      out := .spdm (tr == .mctp) 3 (b ++ Config.sign b) :: s.out }) ∧
    (∀ i n, 1 ≤ i → i ≤ 6 → b = leBytes 1 1 ++ measBlock s i ++ n → exec (.spdmGetMeasurements tr i n) s = .next { s with
      out := .spdm (tr == .mctp) 0x60 (b ++ Config.sign b) :: s.out }) ∧
    (∀ n, b = leBytes 1 6 ++ ([1, 2, 3, 4, 5, 6].flatMap (measBlock s)) ++ n → exec (.spdmGetMeasurements tr 255 n) s = .next { s with
      out := .spdm (tr == .mctp) 0x60 (b ++ Config.sign b) :: s.out }) ∧
    (∀ n, b = leBytes 1 6 ++ n → exec (.spdmGetMeasurements tr 0 n) s = .next { s with
      out := .spdm (tr == .mctp) 0x60 (b ++ Config.sign b) :: s.out })) ∧
  ∀ (tr : SpdmTransport) (s : State) (c : Instr), c ∈ [Instr.spdmGetVersion tr, .spdmGetCapabilities tr, .spdmGetDigests tr] →
    s.dev = .boot ∨ s.dev = .recovery → exec c s = .next s) ∧
  (∀ (r : List Byte) (n : Nat) (s : State),
    (∃ u, exec (.mctpControl r) s = .next u ∧ u.mgmt.mctpEid = (if leAt r 1 1 = 1 then leAt r 3 1 else s.mgmt.mctpEid) ∧
      u.out = .mctp (0 :: Config.mctpReply r u.mgmt.mctpEid) :: s.out ∧
      u = { s with out := u.out, mgmt := { s.mgmt with mctpEid := u.mgmt.mctpEid } }) ∧
    exec (.pldmDiscovery r) s = .next { s with out := .mctp (1 :: Config.pldmReply 0 r) :: s.out } ∧
    exec (.pldmGetPdr n) s = .next { s with out := .mctp (1 :: Config.pldmReply 2 (leBytes 4 n)) :: s.out } ∧
    (∀ v, pldmReading s n = some v →
      exec (.pldmGetSensorReading n) s = .next { s with out := .mctp (1 :: 0 :: leBytes 2 (toTwos 16 v)) :: s.out }) ∧
    (pldmReading s n = none → exec (.pldmGetSensorReading n) s = .next { s with out := .mctp [1, 0x80] :: s.out }) ∧
    exec (.pldmGetStateSensorReadings 48) s = .next { s with out := .mctp [1, 0, BitVec.ofNat 8 (devCode s.dev)] :: s.out } ∧
    exec (.pldmGetStateSensorReadings 49) s = .next { s with
      out := .mctp [1, 0, BitVec.ofNat 8 (max s.host.attnStep (attnLevel s))] :: s.out }) ∧
  ((∀ (b : List Bool) (s : State), exec (.jtagBypass b) s = .next { s with
      out := .tdo ((false :: b).take b.length) :: s.out, mgmt := { s.mgmt with jtag := 1 } } ∧
    exec .jtagIdcode s = .next { s with out := .tdo ((List.range 32).map fun i => bitN 0x1F202E8F i) :: s.out, mgmt := { s.mgmt with jtag := 0 } } ∧
    exec (.jtagSamplePreload b) s = .next { s with
      out := .tdo (Config.boundaryCells s.out.length) :: s.out, mgmt := { s.mgmt with jtag := 2, boundary := b } }) ∧
  (∀ (b : List Bool) (n : Nat) (c : Instr) (s : State), s.pins.perst = true →
    (c, n) ∈ [(Instr.jtagExtest b, 3), (.jtagExtestPulse b, 6), (.jtagExtestTrain b, 7)] →
    exec c s = .next { s with out := .tdo (Config.boundaryCells s.out.length) :: .pins b :: s.out, mgmt := { s.mgmt with jtag := n, boundary := b } }) ∧
  (∀ s : State, s.pins.perst = true →
    exec .jtagClamp s = .next { s with out := .pins s.mgmt.boundary :: s.out, mgmt := { s.mgmt with jtag := 4 } } ∧
    exec .jtagHighz s = .next { s with out := .pins [] :: s.out, mgmt := { s.mgmt with jtag := 5 } }) ∧
  ∀ (b : List Bool) (s : State), s.pins.perst = false →
    (∀ c, c ∈ [Instr.jtagExtest b, .jtagExtestPulse b, .jtagExtestTrain b] → exec c s = exec (.jtagBypass b) (refuseWrite s)) ∧
    ∀ c, c ∈ [Instr.jtagClamp, .jtagHighz] → exec c s = exec (.jtagBypass []) (refuseWrite s))

/-- Frames, lane failures and training (R270, R272, R273, R274, R275, R302, R318). A good frame in sequence
acknowledges and advances; a NAK replays; a bad frame sends a NAK, and the eighth in a row takes the port down; a lane
whose corrected symbols pass its limit fails; a lane failure drops to three lanes once and takes the port down after, and one
that is known to have failed counts no second time; a lane-drop that does not complete takes the port down, which then trains
again; training brings a port up with its identity. -/
def Obligations.FramesAndLanes : Prop :=
  (∀ (p : PortId) (b : SubId) (frame : List Byte) (unc : Bool) (c : List Nat) (s : State) (f : FrameHdr) (ok within : Prop) (past : Nat → Prop),
    (subp s p b).up = true → f = readFrame (padTo 256 frame) →
    (ok ↔ unc = false ∧ leAt (padTo 256 frame) 248 4 = (crc32 ((padTo 256 frame).take 248)).toNat) →
    (∀ lane, past lane ↔ bitsN (reg s (portReg p 0x18)) 8 8 * 1024 < sget natD (port s p).laneSyms lane + laneSymbols b lane c) →
    (within ↔ ∀ lane, lane < 4 → ¬ past lane) →
    (ok → within → f.nak = false → f.ftype = 1 → f.seq = (subp s p b).rxSeq → (port s p).dropPending = none →
      ∃ u, exec (.frameReceived p b frame unc c) s = .next u ∧ PortOnly s u ∧
        (subp u p b).rxSeq = ((subp s p b).rxSeq + 1) % 4096 ∧ (subp u p b).nakSent = false ∧ (subp u p b).failRun = 0 ∧
        (f.crCount = 0 → (subp u p b).retry = ackFrames f.ack (subp s p b).retry ∧ u.out = s.out)) ∧
    (ok → within → f.nak = true → f.ftype = 0 → f.crCount = 0 → (port s p).dropPending = none →
      ∃ u, exec (.frameReceived p b frame unc c) s = .next u ∧ PortOnly s u ∧
        subp u p b = { subp s p b with retry := ackFrames f.ack (subp s p b).retry } ∧
        (port u p).replays = (port s p).replays + 1 ∧
        u.out = (ackFrames f.ack (subp s p b).retry).map (fun x => .frame p b x.2) ++ s.out) ∧
    (¬ ok → within → (subp s p b).failRun < 7 →
      ∃ u, exec (.frameReceived p b frame unc c) s = .next u ∧ PortOnly s u ∧
        subp u p b = { subp s p b with nakSent := true, failRun := (subp s p b).failRun + 1 } ∧
        u.out = .frame p b (idleFrame (subp s p b).txSeq (lastRx (subp s p b)) true 0 0 0) :: s.out) ∧
    (¬ ok → 7 ≤ (subp s p b).failRun → ∃ u, exec (.frameReceived p b frame unc c) s = .next u ∧ PortFails p s u) ∧
    (∀ (lane : Nat) (l : Nat), l = reg s (portReg p 0) → lane < 4 → past lane → (∀ i, i < 4 → i ≠ lane → ¬ past i) →
      ok → f.nak = false → f.ftype = 0 → f.crCount = 0 → (port s p).dropPending = none → bitN (port s p).failedLanes lane = false →
      bitN l 1 = false → bitN l 2 = true → (port s p).spared = false → (port s p).sub0.up = true →
      ∃ u, exec (.frameReceived p b frame unc c) s = .next u ∧ PortOnly s u ∧
        (port u p).dropPending = some (lane, (port s p).sub0.txSeq) ∧ u.out = .laneDropFrame p lane (port s p).sub0.txSeq :: s.out)) ∧
  ((∀ (p : PortId) (lane : Fin 4) (s : State) (l : Nat), l = reg s (portReg p 0) →
    (port s p).sub0.up = true ∨ (port s p).sub1.up = true → bitN (port s p).failedLanes lane = false →
    (bitN l 1 = false → bitN l 2 = true → (port s p).spared = false → (port s p).dropPending = none →
      ∃ u, exec (.laneFail p lane) s = .next u ∧ PortOnly s u ∧
        port u p = { port s p with dropPending := some (lane.val, (port s p).sub0.txSeq) } ∧ (∀ q, q ≠ p.val → port u q = port s q) ∧
        u.out = .laneDropFrame p lane (port s p).sub0.txSeq :: s.out) ∧
    (bitN l 1 = true ∨ bitN l 2 = false ∨ (port s p).spared = true ∨ (∃ x, (port s p).dropPending = some x ∧ x.1 ≠ lane) →
      (∀ x, (port s p).dropPending = some x → x.1 ≠ lane) → ∃ u, exec (.laneFail p lane) s = .next u ∧ PortFails p s u)) ∧
  (∀ (p : PortId) (lane : Fin 4) (s : State), (port s p).sub0.up = false ∧ (port s p).sub1.up = false ∨
    bitN (port s p).failedLanes lane = true ∨ (∃ q, (port s p).dropPending = some (lane.val, q)) →
    exec (.laneFail p lane) s = .next s) ∧
  (∀ (p : PortId) (lane : Fin 4) (n : Nat) (s : State), (port s p).sub0.up = true →
    ((port s p).spared = false →
      ∃ u, exec (.laneDrop p lane n) s = .next u ∧
        port u p = { port s p with spared := true, failedLanes := (port s p).failedLanes ||| 2 ^ lane.val, dropPending := none,
                                   sub0 := { (port s p).sub0 with lanes := 3 } } ∧
        (∀ q, q ≠ p.val → port u q = port s q) ∧ u.out = (port s p).sub0.retry.map (fun x => .frame p 0 x.2) ++ s.out ∧
        ({ code := 1, pos := myPos s, part := p, arg := 2 ^ lane.val } : FailPath) ∈ u.res.paths ∧ u.run = s.run ∧
        ∀ x, ¬ logRing x → memByte u x = memByte s x) ∧
    ((port s p).spared = true → bitN (port s p).failedLanes lane = false →
      ∃ u, exec (.laneDrop p lane n) s = .next u ∧ PortFails p s u)) ∧
  (∀ (p : PortId) (s : State), (port s p).dropPending ≠ none →
    ∃ u, exec (.laneDropTimeout p) s = .next u ∧ PortFails p s u ∧ (port u p).dropPending = none ∧
      (port u p).sub0.training = true ∧ (port u p).spared = false ∧ (port u p).failedLanes = 0) ∧
  ∀ (p : PortId) (b : SubId) (x : PeerId) (d : Nat) (n : Fin 5) (s : State), (subp s p b).training = true → n.val ≠ 0 →
    ∃ u, exec (.portTrained p b x d n) s = .next u ∧ u.out = .identity p :: s.out ∧
      subp u p b = { up := true, lanes := n, latency := d, peerPos := x.pos.val, peerPort := x.port.val, peerSub := x.sub.val,
                     peerSerial := x.serial.toNat, peerValid := true } ∧
      (∀ q, q ≠ p.val → port u q = port s q) ∧ u = { s with out := u.out, link := { s.link with port := u.link.port } })

/-- What every packet meets before its kind (R276, R277, R278, R281, R282). Each of the 14 kinds: a malformed packet
is counted; one for another position is forwarded with one hop more; one of an older epoch is counted and dropped; one
of a newer epoch waits. -/
def Obligations.PacketArrival : Prop :=
  (∀ (p : PortId) (b : SubId) (w : InstrWord) (body : List Byte) (phase : Int) (i : Instr) (cls kind : Nat) (s : State) (h : PktHdr),
    (i, cls, kind) ∈ [(Instr.catchMarker p b w body phase, 0, 0), (.easy p b w body, 0, 1), (.reduceUp p b w body, 0, 2),
      (.reduceDown p b w body, 0, 3), (.digest p b w body, 0, 4), (.credit p b w body, 0, 5), (.endAck p b w body, 0, 6),
      (.data p b w body, flowClass w.toNat, 0), (.endPass p b w body, flowClass w.toNat, 1), (.raBf16 p b w body, 3, 0),
      (.raFp8 p b w body, 3, 1), (.scaleUp p b w body, 3, 2), (.scaleDown p b w body, 3, 3), (.sums p b w body, 3, 4)] →
    h = readHdr w.toNat → (subp s p b).up = true → h.cls = cls → h.kind = kind →
    (hdrBad w.toNat body = true → ∃ u, exec i s = .next u ∧ CountsOnly s u) ∧
    (hdrBad w.toNat body = false → forMe s h = false → h.hops < 18 →
      ∃ u, exec i s = .next u ∧ NetOnly s u ∧ u = returnHop p b h (sendTo { h with hops := h.hops + 1 } body s)) ∧
    (hdrBad w.toNat body = false → forMe s h = true → epochOlder h.epoch s.link.epoch = true →
      ∃ u, exec i s = .next u ∧ NetOnly s u ∧ u = returnHop p b h (bump (cntDev 24) 1 s)) ∧
    (hdrBad w.toNat body = false → forMe s h = true → epochOlder h.epoch s.link.epoch = false →
      epochOlder s.link.epoch h.epoch = true →
      exec i s = .next { s with link := { s.link with early := s.link.early ++ [(2 * p.val + b.val, leBytes 16 w.toNat ++ body)] } })) ∧
  (∀ (p : PortId) (b : SubId) (hdr : InstrWord) (body : List Byte) (s : State) (h : PktHdr), (subp s p b).up = true →
    h = readHdr hdr.toNat → forMe s h = false →
    (hdrBad hdr.toNat body = false → h.hops < 18 → ∃ u, exec (.packetForward p b hdr body) s = .next u ∧ NetOnly s u ∧
      u = returnHop p b h (sendTo { h with hops := h.hops + 1 } body s)) ∧
    (hdrBad hdr.toNat body = true → ∃ u, exec (.packetForward p b hdr body) s = .next u ∧ u.out = s.out ∧ CountsOnly s u))

/-- CATCH and EASY (R211, R212, R213, R214, R215, R216, R283). A CATCH from the parent carries the stroke number to an
unlocked device and the phase to a locked one; from any other port it is a heartbeat, and it is checked against the expected
edge and counted, not used (what the check counts is the model's choice, log entry 129). A new EASY marker is flooded on
every active port and kept once, a known one has no effect. -/
def Obligations.Markers : Prop :=
  (∀ (p : PortId) (b : SubId) (w : InstrWord) (body : List Byte) (phase : Int) (s : State) (n : Nat) (lk take : Bool) (off : Prop),
    Arrives s p b w.toNat body 0 0 → n = leAt body 0 8 % 2 ^ 48 → lk = (leAt body 12 4 % 2 == 1) →
    take = (!s.stroke.locked && lk && !runActive s) → (off ↔ s.stroke.locked = true ∧ (n ≠ s.stroke.count ∨ 64 < phase ∨ phase < -64)) →
    ∃ u, exec (.catchMarker p b w body phase) s = .next u ∧ (port u p).catchSeen = true ∧
      (∀ q, q ≠ p.val → port u q = port s q) ∧ (∀ c, subp u p c = subp s p c) ∧
      PortOnly { s with stroke := u.stroke } u ∧ u.out = s.out ∧
      (s.stroke.noParent = true ∨ s.stroke.parentPort ≠ p ∨ s.stroke.parentSub ≠ b →
        u.stroke = s.stroke ∧ (port u p).markers = (port s p).markers + 1 ∧
        (off → cntExact u (cntPort p 10) = min (cntExact s (cntPort p 10) + 1) (2 ^ 48 - 1)) ∧
        (¬ off → cntExact u (cntPort p 10) = cntExact s (cntPort p 10))) ∧
      (s.stroke.noParent = false → s.stroke.parentPort = p → s.stroke.parentSub = b →
        u = { s with stroke := u.stroke, link := { s.link with port := u.link.port } } ∧ (port u p).markers = (port s p).markers ∧
        (take = true → u.stroke = { s.stroke with count := n, numbered := true, marker := true, markerLocked := true, offset := phase }) ∧
        (take = false → n = s.stroke.count → u.stroke = { s.stroke with marker := true, markerLocked := lk, offset := phase }) ∧
        (take = false → n ≠ s.stroke.count → u.stroke = s.stroke))) ∧
  (∀ (p : PortId) (b : SubId) (w : InstrWord) (body : List Byte) (s : State) (n r : Nat),
    Arrives s p b w.toNat body 0 1 → n = leAt body 0 8 % 2 ^ 48 → r = leAt body 8 4 →
    (s.stroke.seen.contains (n, r) = true → exec (.easy p b w body) s = .next s) ∧
    (s.stroke.seen.contains (n, r) = false → ∃ u, exec (.easy p b w body) s = .next u ∧
      u.stroke = { s.stroke with seen := s.stroke.seen ++ [(n, r)] } ∧
      (∀ q ∈ activePorts s, ∃ h, Output.packet q.1 q.2 h (easyBody n r) ∈ u.out) ∧
      (s.stroke.count ≤ n → u.res = s.res) ∧
      PortOnly { s with stroke := u.stroke } u))

/-- REDUCE_UP, REDUCE_DOWN and DIGEST (R209, R234, R277, R284, R285, R288, R345). A child's operand combines in; when
all of the subtree and the own operand are in, the result goes up, or at the root becomes the result, which takes
effect by its identifier; a result that comes down is passed to every child and takes effect; the digests of all usable ports are
compared with the plan's and the mismatch flag goes into the OR of the system. Identifiers and bodies are the
model's (log entries 53, 54). -/
def Obligations.ControlReductions : Prop :=
  (∀ (p : PortId) (b : SubId) (w : InstrWord) (body : List Byte) (s : State) (h : PktHdr) (c : CtlRed),
    Arrives s p b w.toNat body 0 2 → h = readHdr w.toNat → (ctlTree s h.arg).2.contains h.src = true →
    (ctlGet s h.arg).heard.contains h.src = false →
    c = { ctlGet s h.arg with acc := ctlCombine (ctlOp h.arg) (ctlGet s h.arg).acc (ctlOperand h.arg body),
                              heard := (ctlGet s h.arg).heard ++ [h.src] } →
    (c.own = false ∨ c.sent = true ∨ (∃ x ∈ (ctlTree s h.arg).2, x ∉ c.heard) →
      ∃ u, exec (.reduceUp p b w body) s = .next u ∧ ctlGet u h.arg = c ∧ (∀ j, j ≠ h.arg → ctlGet u j = ctlGet s j) ∧
        u = { s with link := { s.link with ctl := u.link.ctl } }) ∧
    (∀ q, c.own = true → c.sent = false → (∀ x ∈ (ctlTree s h.arg).2, x ∈ c.heard) → (ctlTree s h.arg).1 = some q →
      ∃ u, exec (.reduceUp p b w body) s = .next u ∧ ctlGet u h.arg = { c with sent := true } ∧
        (∀ j, j ≠ h.arg → ctlGet u j = ctlGet s j) ∧
        NetOnly { s with link := { s.link with ctl := u.link.ctl } } u ∧
        ∀ x, routeOf s q = some x → (subp s x.1 x.2).up = true →
          ∃ g, Output.packet x.1 x.2 g (ctlBody h.arg c.acc) ∈ u.out) ∧
    (c.own = true → c.sent = false → (∀ x ∈ (ctlTree s h.arg).2, x ∈ c.heard) → (ctlTree s h.arg).1 = none →
      ∃ v u, exec (.reduceUp p b w body) s = .next u ∧ ctlGet v h.arg = ctlD h.arg ∧
        NetOnly { s with link := { s.link with ctl := v.link.ctl } } v ∧ u = atEpoch s (ctlResult h.arg c.acc v) ∧
        ResultHeld s h.arg c.acc v u)) ∧
  (∀ (p : PortId) (b : SubId) (w : InstrWord) (body : List Byte) (s : State) (h : PktHdr) (x : Nat),
    Arrives s p b w.toNat body 0 3 → h = readHdr w.toNat → x = ctlOperand h.arg body →
    ∃ v u, exec (.reduceDown p b w body) s = .next u ∧ ctlGet v h.arg = ctlD h.arg ∧
      NetOnly { s with link := { s.link with ctl := v.link.ctl } } v ∧ u = atEpoch s (ctlResult h.arg x v) ∧
      (∀ y ∈ (ctlTree s h.arg).2, ∀ q, routeOf s y = some q → (subp s q.1 q.2).up = true →
        ∃ g, Output.packet q.1 q.2 g (ctlBody h.arg x) ∈ v.out) ∧
      ResultHeld s h.arg x v u) ∧
  ∀ (p : PortId) (b : SubId) (w : InstrWord) (body : List Byte) (s v : State) (d : CtlRed), Arrives s p b w.toNat body 0 4 →
    v = { s with link := { s.link with digestIn := (s.link.digestIn.filter fun x => x.1 != 2 * p.val + b.val) ++ [(2 * p.val + b.val, body)] } } →
    (s.link.digestSent = false ∨ (∃ q ∈ usablePorts s, ∀ x ∈ v.link.digestIn, x.1 ≠ 2 * q.1 + q.2) → exec (.digest p b w body) s = .next v) ∧
    (∀ pl, s.plan = some pl → s.link.digestSent = true → s.link.digestDone = false → (ctlGet s ctlDigest).own = false →
      (∀ q ∈ usablePorts s, ∃ x ∈ v.link.digestIn, x.1 = 2 * q.1 + q.2) →
      d = { ctlGet s ctlDigest with own := true, since := s.stroke.count
                                    acc := (ctlGet s ctlDigest).acc ||| b2n (v.link.digestIn.any fun x => x.2 != pl.planDigest) } →
      (d.sent = true ∨ (∃ x ∈ (ctlTree s ctlDigest).2, x ∉ d.heard) →
        ∃ u, exec (.digest p b w body) s = .next u ∧ ctlGet u ctlDigest = d ∧ (∀ j, j ≠ ctlDigest → ctlGet u j = ctlGet s j) ∧
          u = { v with link := { v.link with ctl := u.link.ctl } }) ∧
      (∀ q, d.sent = false → (∀ x ∈ (ctlTree s ctlDigest).2, x ∈ d.heard) → (ctlTree s ctlDigest).1 = some q →
        ∃ u, exec (.digest p b w body) s = .next u ∧ ctlGet u ctlDigest = { d with sent := true } ∧
          NetOnly { v with link := { v.link with ctl := u.link.ctl } } u ∧
          ∀ x, routeOf s q = some x → (subp s x.1 x.2).up = true → ∃ g, Output.packet x.1 x.2 g (ctlBody ctlDigest d.acc) ∈ u.out) ∧
      (d.sent = false → (∀ x ∈ (ctlTree s ctlDigest).2, x ∈ d.heard) → (ctlTree s ctlDigest).1 = none →
        ∃ z u, exec (.digest p b w body) s = .next u ∧ ctlGet z ctlDigest = ctlD ctlDigest ∧
          NetOnly { v with link := { v.link with ctl := z.link.ctl } } z ∧ u = atEpoch s (ctlResult ctlDigest d.acc z) ∧
          ResultHeld s ctlDigest d.acc z u))

/-- CREDIT, END_ACK, DATA and END (R258, R260, R261, R263, R277, R279, R280, R286). Credit frees waiting packets of
its flow; END_ACK settles its leg, and the last ends the pass; DATA in order is written at the destination, with
credit returned; END in order ends the incoming pass, posts its mark and is acknowledged; stale or out-of-order
packets change nothing. On a result leg of a combining device the bytes join the stream (the stream's layout is the model's,
log entry 126). -/
def Obligations.FlowPackets : Prop :=
  (∀ (p : PortId) (b : SubId) (w : InstrWord) (body : List Byte) (s : State) (f n : Nat), Arrives s p b w.toNat body 0 5 →
    f = leAt body 0 4 → n = leAt body 4 4 →
    ∃ u, exec (.credit p b w body) s = .next u ∧ FlowOnly s u ∧ (∀ g, g ≠ f → creditUsed u g = creditUsed s g) ∧
      ((∀ x ∈ s.red.outq, x.1 ≠ f) → creditUsed u f = creditUsed s f - n ∧ u.red.outq = s.red.outq ∧ u.out = s.out) ∧
      (∀ k a d x, s.red.outq = [(f, k, a, d)] → legCtx s f = some x → creditUsed s f - n < x.credits →
        u.red.outq = [] ∧ creditUsed u f = creditUsed s f - n + 1)) ∧
  (∀ (p : PortId) (b : SubId) (w : InstrWord) (body : List Byte) (s : State) (f : Nat) (dist img : Bool), Arrives s p b w.toNat body 0 6 →
    f = (readHdr w.toNat).flow → dist = ((distLegs s).any fun x => x.id == f) → img = ((imageFlows s).any fun x => x.id == f) →
    (legPass s f = none → dist = false → img = false → exec (.endAck p b w body) s = .next s) ∧
    (∀ d q, legPass s f = some d → (desc s d).pass = some q → dist = false → img = false →
      ∃ v u, exec (.endAck p b w body) s = .next u ∧
        (desc v d).pass = some { q with legs := q.legs.map fun l => if l.1 == f then (f, legCursor q f, true) else l } ∧
        (∀ e, e ≠ d → desc v e = desc s e) ∧ v = { s with stm := { s.stm with desc := v.stm.desc } } ∧
        ((∃ l ∈ q.legs, l.1 ≠ f ∧ l.2.2 = false) → u = v) ∧
        ((∀ l ∈ q.legs, l.1 ≠ f → l.2.2 = true) → u = settle (endPass d v) ∧
          (strIdle s → (desc s d).waiting = [] → PassEnded d v u))) ∧
    (legPass s f = none → dist = true → img = false → (∃ x ∈ distLegs s, x.id ≠ f ∧ legSettled s x.id = false) →
      exec (.endAck p b w body) s = .next { s with link := { s.link with legsDone := insertNat f s.link.legsDone } }) ∧
    (legPass s f = none → img = true → s.dev ≠ .securing ∨ (∃ x ∈ imageFlows s, x.id ≠ f ∧ x.id ∉ s.res.imageAcks) →
      exec (.endAck p b w body) s = .next { s with res := { s.res with imageAcks := insertNat f s.res.imageAcks } })) ∧
  (∀ (p : PortId) (b : SubId) (w : InstrWord) (body : List Byte) (s : State) (h : PktHdr) (d n : Nat) (y : DescImg),
    Arrives s p b w.toNat body (flowClass w.toNat) 0 → h = readHdr w.toNat → rxDesc s h = some d → y = descOf s d →
    n = (desc s d).inDone →
    (genStale s h d = true → ∃ u, exec (.data p b w body) s = .next u ∧ NetOnly s u) ∧
    (genStale s h d = false → h.arg ≠ n / 4 % 2 ^ 24 → ∃ u, exec (.data p b w body) s = .next u ∧ NetOnly s u) ∧
    (genStale s h d = false → h.arg = n / 4 % 2 ^ 24 →
      ∃ u, exec (.data p b w body) s = .next u ∧
        NetOnly (modDesc d (fun D => { D with inDone := n + body.length }) (destPut y (blockList s y) n body h.poison s)) u ∧
        (desc u d).inDone = n + body.length ∧
        (∀ x, routeOf s h.src = some x → (subp s x.1 x.2).up = true →
          ∃ g, Output.packet x.1 x.2 g (leBytes 4 h.flow ++ leBytes 4 1 ++ List.replicate 8 0) ∈ u.out) ∧
        (∀ a r, y.mode = 0 → blockAt (blockList s y) n = some (a, r) → body.length ≤ r → devToHost s a = none →
          (∀ i, i < body.length → plainAddr (a + i)) →
          memBytes u a body.length = body ∧ ∀ x, ¬ logRing x → x < a ∨ a + body.length ≤ x → memByte u x = memByte s x))) ∧
  (∀ (p : PortId) (b : SubId) (w : InstrWord) (body : List Byte) (s : State) (h : PktHdr) (d n : Nat) (y : DescImg) (img : Bool),
    Arrives s p b w.toNat body (flowClass w.toNat) 1 → h = readHdr w.toNat → rxDesc s h = some d → y = descOf s d →
    n = (desc s d).inDone → img = ((imageIn s h.src).any fun f => f.id == h.flow) →
    (genStale s h d = true → ∃ u, exec (.endPass p b w body) s = .next u ∧ NetOnly s u) ∧
    (genStale s h d = false → h.arg ≠ n / 4 % 2 ^ 24 → ∃ u, exec (.endPass p b w body) s = .next u ∧ NetOnly s u) ∧
    (genStale s h d = false → h.arg = n / 4 % 2 ^ 24 → y.mode = 0 →
      ∃ v u, exec (.endPass p b w body) s = .next u ∧ u = returnHop p b h (settle v) ∧ (strIdle s → NetOnly v u) ∧
        (desc v d).inDone = 0 ∧ (∀ e, e ≠ d → desc v e = desc s e) ∧
        (∀ m, mark v m = if m = y.postMark ∧ m ≠ 0xFFFF then (mark s m + y.postInc) % 2 ^ 32 else mark s m) ∧
        (∀ x, routeOf s h.src = some x → (subp s x.1 x.2).up = true →
          ∃ g, Output.packet x.1 x.2 g (b4 d ++ b4 (desc s d).gen ++ b8 0) ∈ v.out) ∧
        v.res = { s.res with imageEnds := if img then insertNat h.flow s.res.imageEnds else s.res.imageEnds } ∧
        NetOnly { s with stm := { s.stm with desc := v.stm.desc, marks := v.stm.marks }, res := v.res } v)) ∧
  ∀ (p : PortId) (b : SubId) (w : InstrWord) (body l : List Byte) (s : State) (h : PktHdr) (q : Nat),
    h = readHdr w.toNat → rxDesc s h = none → rxResult s h = some q → l = sget inboxD s.red.inbox h.flow →
    (Arrives s p b w.toNat body (flowClass w.toNat) 0 →
      (h.arg ≠ l.length / 4 % 2 ^ 24 → ∃ u, exec (.data p b w body) s = .next u ∧ NetOnly s u) ∧
      (h.arg = l.length / 4 % 2 ^ 24 → ∃ u, exec (.data p b w body) s = .next u ∧ sget inboxD u.red.inbox h.flow = l ++ body ∧
        (∀ f, f ≠ h.flow → sget inboxD u.red.inbox f = sget inboxD s.red.inbox f) ∧
        NetOnly { s with red := { s.red with inbox := u.red.inbox } } u)) ∧
    (Arrives s p b w.toNat body (flowClass w.toNat) 1 →
      (h.arg ≠ l.length / 4 % 2 ^ 24 → ∃ u, exec (.endPass p b w body) s = .next u ∧ NetOnly s u) ∧
      (h.arg = l.length / 4 % 2 ^ 24 → ∃ u, exec (.endPass p b w body) s = .next u ∧ sget inboxD u.red.inbox h.flow = [] ∧
        (∀ f, f ≠ h.flow → sget inboxD u.red.inbox f = sget inboxD s.red.inbox f) ∧
        u.red.results = s.red.results ++ (readResults l.length l).1 ∧ u.red.ended = s.red.ended ++ [((readResults l.length l).2, q)] ∧
        NetOnly { s with red := { s.red with inbox := u.red.inbox, results := u.red.results, ended := u.red.ended } } u))

/-- RA, SCALE and SUMS packets (R289, R290, R291, R292, R293, R297, R298, R299, R300). RA entries add into the owner's
accumulators by the rows of the adder table and only in the reduction phase and generation; scales up and down take
the agreed exponents; SUMS bring the parts of records to their combining device, which combines and multicasts a round once its
parts are in. GEN, indices and the layout of parts and results are the model's (log entries 62, 65, 126). -/
def Obligations.ReducePackets : Prop :=
  (∀ (p : PortId) (b : SubId) (w : InstrWord) (body : List Byte) (s : State) (h : PktHdr) (c : FlowCtx) (i : Nat) (r : Region)
    (x : Instr) (fp8 : Bool) (kind : Nat), (x, fp8, kind) ∈ [(Instr.raBf16 p b w body, false, 0), (.raFp8 p b w body, true, 1)] →
    Arrives s p b w.toNat body 3 kind → h = readHdr w.toNat → rxCtx s h.flow = some c → c.target = .region i →
    planRegion s i = some r →
    (owns s r = false ∨ h.gen ≠ s.red.gen % 2 ^ 16 ∨ s.run.phase ≠ .reduction → ∃ u, exec x s = .next u ∧ NetOnly s u) ∧
    (owns s r = true → h.gen = s.red.gen % 2 ^ 16 → s.run.phase = .reduction → ∃ v u, exec x s = .next u ∧
      v = (entriesOf fp8 body).zipIdx.foldl (fun t y => settleBlk i r (h.arg + y.2) 300 (addEntry i r fp8 (h.arg + y.2) y.1 t)) s ∧
      u = returnHop p b h (redCheck (returnCredit h v)) ∧
      ((v.red.pass = 3 → allFull v = false) →
        (v.red.pass = 1 ∨ v.red.pass = 4 → passDone v = false ∨ (ctlGet v ctlRedDone).own = true) → NetOnly v u) ∧
      ∀ e, entriesOf fp8 body = [e] → s.red.again = [] → v = addEntry i r fp8 h.arg e s)) ∧
  (∀ (i : Nat) (r : Region) (fp8 : Bool) (b : Nat) (e : Entry) (s u : State) (k : AccBlk), k = readBlk s (blkAddr r b) →
    u = addEntry i r fp8 b e s → e.codes.length = 32 → (∀ j, j < 208 → plainAddr (blkAddr r b + j)) →
    (r.blocks ≤ b ∨ e.s ≠ k.scale → CountsOnly s u) ∧
    (b < r.blocks → e.s = k.scale → s.red.excluded.contains e.contrib = true → u = s) ∧
    (b < r.blocks → e.s = k.scale → s.red.excluded.contains e.contrib = false →
      (e.nf = true → memBytes u (blkAddr r b) 208 = blkBytes' { k with emax := max k.emax e.emax, nf := true } ∧
        e.contrib ∈ (regionSt u i).nonfinite) ∧
      (e.nf = false → e.ovf = true → memBytes u (blkAddr r b) 208 = blkBytes' { k with emax := max k.emax e.emax, ovf := true } ∧
        (regionSt u i).nonfinite = (regionSt s i).nonfinite) ∧
      (e.nf = false → e.ovf = false → memBytes u (blkAddr r b) 208 = blkBytes' { k with
          emax := max k.emax e.emax, acc := (k.acc.zip e.codes).map (fun y => y.1 + accTerm fp8 y.2), count := k.count + 1 } ∧
        (regionSt u i).nonfinite = (regionSt s i).nonfinite) ∧
      (e.last = true → e.contrib ∈ (regionSt u i).present) ∧
      (e.last = false → (regionSt u i).present = (regionSt s i).present) ∧
      (∀ j, j ≠ i → regionSt u j = regionSt s j) ∧
      (∀ x, ¬ logRing x → x < blkAddr r b ∨ blkAddr r b + 208 ≤ x → memByte u x = memByte s x) ∧
      u = { s with cnt := u.cnt, log := u.log, host := u.host, mem := u.mem,
                   red := { s.red with regions := u.red.regions, ovfBy := u.red.ovfBy, heard := u.red.heard } } ∧
      (s.red.again.contains (bkey i b) = true → e.contrib ∈ sget heardD u.red.heard (bkey i b)) ∧
      (s.red.again.contains (bkey i b) = false → u.red.heard = s.red.heard))) ∧
  (∀ (p : PortId) (b : SubId) (w : InstrWord) (body : List Byte) (s : State) (h : PktHdr) (c : FlowCtx) (i : Nat) (r : Region),
    Arrives s p b w.toNat body 3 2 → h = readHdr w.toNat → rxCtx s h.flow = some c → c.target = .region i → planRegion s i = some r →
    ∃ v u, exec (.scaleUp p b w body) s = .next u ∧
      v = body.zipIdx.foldl (fun t x => hearEmax i r (replicaOf s h.src) (h.arg + x.2) x.1.toNat t) s ∧
      u = returnHop p b h (scaleCheck (returnCredit h v)) ∧
      (v.red.scaleFind = false ∨ scalesDone v = false ∨ (ctlGet v ctlScale).own = true → NetOnly v u) ∧
      (s.red.scaleFind = false → NetOnly v u ∧
        v = { s with red := { s.red with emaxUp := v.red.emaxUp, upFrom := v.red.upFrom } } ∧
        ∀ j x, body[j]? = some x →
          sget natD v.red.emaxUp (bkey i (h.arg + j)) = max x.toNat (sget natD s.red.emaxUp (bkey i (h.arg + j))) ∧
          replicaOf s h.src * 2 ^ 24 + (h.arg + j) ∈ sget (fun _ => []) v.red.upFrom i)) ∧
  (∀ (p : PortId) (b : SubId) (w : InstrWord) (body : List Byte) (s : State) (h : PktHdr) (c : FlowCtx) (i : Nat) (r : Region),
    Arrives s p b w.toNat body 3 3 → h = readHdr w.toNat → rxCtx s h.flow = some c → c.target = .region i → planRegion s i = some r →
    (∀ j, j < body.length → plainAddr (r.scales + h.arg + j)) →
    ∃ v u, exec (.scaleDown p b w body) s = .next u ∧ memBytes v (r.scales + h.arg) body.length = body ∧
      (∀ x, ¬ logRing x → x < r.scales + h.arg ∨ r.scales + h.arg + body.length ≤ x → memByte v x = memByte s x) ∧
      NetOnly { s with mem := v.mem } v ∧
      u = returnHop p b h (newScales i r ((List.range body.length).map (h.arg + ·)) v) ∧
      (s.red.scaleFind = false → s.run.phase ≠ .reduction ∨ s.red.excluded.contains (myReplica s) = true → NetOnly v u) ∧
      (s.red.scaleFind = false → s.run.phase = .reduction → s.red.excluded.contains (myReplica s) = false → FlowOnly v u)) ∧
  ∀ (p : PortId) (b : SubId) (w : InstrWord) (body : List Byte) (s v : State) (h : PktHdr) (c : FlowCtx) (base : Nat) (ready : Nat → Prop),
    Arrives s p b w.toNat body 3 4 → h = readHdr w.toNat → rxCtx s h.flow = some c → c.target = .combining base →
    v = { s with red := (if ixClose ≤ h.arg then { s.red with closed := s.red.closed ++ [(h.arg - ixClose, h.src)] }
                         else { s.red with parts := s.red.parts ++ [(h.arg, h.src, readVal h.arg body)] }) } →
    (∀ k, ready k ↔ s.red.combined.contains k = false ∧ (liveCombiners s).contains (myPos s) = true ∧ roundReady v k = true) →
    (¬ ready 1 → ¬ ready 2 → ∃ u, exec (.sums p b w body) s = .next u ∧ NetOnly v u) ∧
    ∀ k rs, k = 1 ∨ k = 2 → ready k → ¬ ready (3 - k) →
      rs = (roundIndices v k).filterMap (fun i => (combineVal (partsOf v i)).map fun x => (i, x)) →
      ∃ u, exec (.sums p b w body) s = .next u ∧ u.red.combined = s.red.combined ++ [k] ∧ u.red.results = s.red.results ++ rs ∧
        u.red.parts = (v.red.parts.filter fun x => roundOf x.1 != k) ∧
        FlowOnly { v with red := { v.red with combined := u.red.combined, results := u.red.results, parts := u.red.parts, sums := u.red.sums } } u

/-- Stream transfers, descriptor cache and routers that are off (R29, R250, R251, R255, R256, R258, R259, R261, R262,
R263, R264). A transfer moves one piece to its destination and no other byte; poison travels; a write that its target refuses stores
nothing; the end of a pass posts its mark, takes the shadow and raises GEN; a reply of an older generation is discarded and
counted; a cache fill evicts the least recently used idle descriptor; a target that is off gives a poisoned completion. -/
def Obligations.StreamTransfers : Prop :=
  ((∀ (d : Fin 1048576) (g : Word) (data : HostData) (ecc : EccOutcome) (s : State) (now : Nat),
    now = (match (desc s d).pass with | some q => q.gen | none => (desc s d).gen) → (desc s d).pass = none ∨ g.toNat ≠ now →
    (genOlder g.toNat now = true → ∃ u, exec (.streamTransferComplete d g data ecc) s = .next u ∧ CountsOnly s u ∧
      cntExact u (cntDev 24) = min (cntExact s (cntDev 24) + 1) (2 ^ 48 - 1)) ∧
    (genOlder g.toNat now = false → exec (.streamTransferComplete d g data ecc) s = .next s)) ∧
  (∀ (d : Fin 1048576) (g : Word) (data : HostData) (ecc : EccOutcome) (s : State) (q : PassSt) (x y : DescImg) (a left b room n r : Nat)
    (l : List Byte), (desc s d).pass = some q → g.toNat = q.gen → s.pwr.draining = [] → x = descOf s d → x.dest ≠ 0xFFFFFFFF →
    y = descOf s x.dest → y.mode = 0 → blockAt (blockList s x) q.done = some (a, left) → blockAt (blockList s y) q.done = some (b, room) →
    n = min (min left room) (min (unitRoom s a) (unitRoom s b)) → readSource s a n data ecc = (l, r) →
    devToHost s b = none → (∀ i, i < n → plainAddr (b + i)) →
    ∃ v u, exec (.streamTransferComplete d g data ecc) s = .next u ∧
      desc v d = { desc s d with pass := some { q with done := q.done + n, poisoned := q.poisoned || r != 0 } } ∧
      (∀ e, e ≠ d.val → desc v e = desc s e) ∧ (writeReason s b n = 0 → memBytes v b n = l) ∧
      (∀ z, ¬ logRing z → writeReason s b n ≠ 0 ∨ z < b ∨ b + n ≤ z → memByte v z = memByte s z) ∧
      (r = 0 → writeReason s b n = 0 →
        v = { s with cnt := v.cnt, log := v.log, host := v.host, out := v.out, mem := v.mem, mgmt := { s.mgmt with life := v.mgmt.life },
                     res := { s.res with ue := v.res.ue, now := v.res.now }, stm := { s.stm with desc := v.stm.desc } }) ∧
      (q.done + n < q.total → u = v) ∧
      (q.total ≤ q.done + n → u = settle (endPass d v) ∧ (r = 0 → writeReason s b n = 0 → strIdle s → (desc s d).waiting = [] → PassEnded d v u))) ∧
  (∀ (d : Fin 1048576) (k : Word) (data : HostData) (ecc : EccOutcome) (s : State) (q : PassSt) (x : DescImg) (f c : Nat),
    (desc s d).pass = some q → k.toNat = q.gen → s.pwr.draining = [] → x = descOf s d → x.dest = 0xFFFFFFFF → q.legs = [(f, c, false)] →
    (legReady s f = false → exec (.streamTransferComplete d k data ecc) s = .next s) ∧
    (∀ g a left n l r, legReady s f = true → legCtx s f = some g → c < q.total → blockAt (blockList s x) c = some (a, left) →
      n = min (min 256 left) (q.total - c) → readSource s a n data ecc = (l, r) →
      ∃ u, exec (.streamTransferComplete d k data ecc) s = .next u ∧
        desc u d = { desc s d with pass := some { q with legs := [(f, c + n, false)] } } ∧ (∀ e, e ≠ d.val → desc u e = desc s e) ∧
        creditUsed u f = creditUsed s f + 1 ∧ (∀ h, h ≠ f → creditUsed u h = creditUsed s h) ∧
        (∀ z, ¬ logRing z → memByte u z = memByte s z))) ∧
  ∀ (d : Nat) (s : State) (q : PassSt), (desc s d).pass = some q → (desc s d).waiting = [] → PassEnded d s (endPass d s)) ∧
  ((∀ (d : Fin 1048576) (s : State), (s.stm.desc.filter fun x => x.2.cached).length < 65536 →
    ∃ v u, exec (.descCacheFill d) s = .next u ∧ u = settle v ∧ (strIdle s → u = v) ∧
      desc v d = { desc s d with cached := true, lastUse := s.stm.clock } ∧ (∀ e, e ≠ d.val → desc v e = desc s e) ∧
      v = { s with stm := { s.stm with desc := v.stm.desc, clock := s.stm.clock + 1 } }) ∧
  (∀ (d : Fin 1048576) (s : State), 65536 ≤ (s.stm.desc.filter fun x => x.2.cached).length →
    (∃ x ∈ s.stm.desc, x.2.cached = true ∧ x.2.pass = none ∧ x.2.shadow = none) →
    ∃ v u x, exec (.descCacheFill d) s = .next u ∧ u = settle v ∧ (strIdle s → u = v) ∧
      x ∈ s.stm.desc ∧ x.2.cached = true ∧ x.2.pass = none ∧ x.2.shadow = none ∧
      (∀ z ∈ s.stm.desc, z.2.cached = true → z.2.pass = none → z.2.shadow = none → x.2.lastUse ≤ z.2.lastUse) ∧
      (desc v d).cached = true ∧ (x.1 ≠ d.val → desc v x.1 = { desc s x.1 with cached := false }) ∧
      (∀ e, e ≠ d.val → e ≠ x.1 → desc v e = desc s e) ∧
      memBytes v (descTable s + 64 * x.1 + 0x24) 4 = leBytes 4 x.2.gen ∧
      ∀ z, ¬ logRing z → z < descTable s + 64 * x.1 + 0x24 ∨ descTable s + 64 * x.1 + 0x28 ≤ z → memByte v z = memByte s z) ∧
  (∀ (a : Nat) (k : Bool) (d : Option (Fin 1048576)) (s : State), awayNow s a k = false → exec (.routerTargetOff a k d) s = .next s) ∧
  (∀ (a r : Nat) (k : Bool) (s : State), awayNow s a k = true → r = (if k then 3 else 2) →
    ∃ u, exec (.routerTargetOff a k none) s = .next u ∧ HostOnly s u ∧ u.out = .poisonedCompletion r a :: s.out ∧
      ∀ d : Fin 1048576, (desc s d).pass = none → ∃ t, exec (.routerTargetOff a k (some d)) s = .next t ∧ HostOnly u t ∧ t.out = u.out) ∧
  ∀ (a r : Nat) (k : Bool) (d : Fin 1048576) (s : State) (q : PassSt) (x y : DescImg) (e left b room n : Nat), awayNow s a k = true →
    r = (if k then 3 else 2) → (desc s d).pass = some q → x = descOf s d → x.dest ≠ 0xFFFFFFFF → y = descOf s x.dest → y.mode = 0 →
    blockAt (blockList s x) q.done = some (e, left) → blockAt (blockList s y) q.done = some (b, room) →
    n = min left (min (min room (unitRoom s b)) (unitRoom s e)) →
    ∃ v u, exec (.routerTargetOff a k (some d)) s = .next u ∧ (e ≠ a → v.out = .poisonedCompletion r a :: s.out) ∧
      desc v d = { desc s d with pass := some { q with done := q.done + n, poisoned := true } } ∧
      (∀ j, j ≠ d.val → desc v j = desc s j) ∧
      (e ≠ a → ∀ z, ¬ logRing z → memByte v z = memByte s z) ∧
      (e = a → devToHost s b = none → (∀ i, i < n → plainAddr (b + i)) → (∀ i, i < n → ¬ logRing (e + i)) →
        memBytes v b n = memBytes s e n ∧ ∀ z, ¬ logRing z → z < b ∨ b + n ≤ z → memByte v z = memByte s z) ∧
      (q.done + n < q.total → u = v) ∧ (q.total ≤ q.done + n → u = settle (endPass d v)))

/-- Stroke edges and lock (R195, R207, R210, R212, R213, R214, R216, R218, R238, R288, R293). A plain stroke edge counts on, sends
CATCH on every active port and ends phases when their conditions hold: the exchange begins with the phase, and ends once every
result is held; an EASY stroke stands the slot still, and arrays with nothing to do run a planned gap; before the lengthsman runs,
and in recovery, the counter alone goes on; lock is gained after 16 good strokes, by a master without SOURCE at once, and
lost after 16 bad ones, logged. -/
def Obligations.StrokesAndLock : Prop :=
  ((∀ s : State, s.pins.aon = false → exec .strokeEdge s = .next s) ∧
  (∀ s : State, s.pins.aon = true → s.dev = .boot ∨ s.dev = .recovery → exec .strokeEdge s = .next { s with
    stroke := { s.stroke with count := (s.stroke.count + 1) % 2 ^ 48, ticks := s.stroke.ticks + 13 * periodNs s } }) ∧
  (∀ (s : State) (r : Nat), PlainEdge s → inRun s = true → (s.stroke.count, r) ∈ s.stroke.seen →
    ∃ t, exec .strokeEdge s = .next t ∧ Ticked s t ∧ t.dev = s.dev ∧ t.stroke.slot = s.stroke.slot ∧ t.stroke.easy = true ∧
      t.stroke.easyRun = s.stroke.easyRun + 1 ∧ t.run = { s.run with easy := s.run.easy + 1 } ∧ t.red = s.red ∧
      (∀ c a, c < enabledCores s → a < 4 → (arr s c a).queue = [] → (arr s c a).streaming = false → (arr s c a).gap = .none →
        (arr t c a).gap = .planned) ∧
      ∀ c a, (arr s c a).queue ≠ [] ∨ (arr s c a).streaming = true ∨ (arr s c a).gap ≠ .none → arr t c a = arr s c a) ∧
  (∀ (s : State) (p : Plan), PlainEdge s → inRun s = true → s.plan = some p → (∀ r, (s.stroke.count, r) ∉ s.stroke.seen) →
    (s.run.phase = .compute → s.stroke.slot + 1 - s.run.slotStart < p.c →
      ∃ t, exec .strokeEdge s = .next t ∧ Ticked s t ∧ t.dev = s.dev ∧ t.stroke.slot = s.stroke.slot + 1 ∧ t.stroke.easy = false ∧
        t.stroke.easyRun = 0 ∧ t.run = s.run ∧ t.red = s.red) ∧
    (s.run.phase = .reduction → s.run.redDone = false → p.q ≤ s.stroke.slot - s.run.slotStart + 1 →
      ∃ t, exec .strokeEdge s = .next t ∧ Ticked s t ∧ t.dev = s.dev ∧ t.stroke.slot = s.stroke.slot ∧
        t.run = { s.run with redExt := s.run.redExt + 1 } ∧ t.red = s.red) ∧
    (s.run.phase = .reduction → s.run.redDone = true →
      ∃ t, exec .strokeEdge s = .next t ∧ Ticked s t ∧ t.dev = s.dev ∧ t.stroke.slot = s.stroke.slot + 1 ∧
        t.run = { s.run with phase := .update, phaseStart := (s.stroke.count + 1) % 2 ^ 48, slotStart := s.stroke.slot + 1 } ∧
        t.red = { s.red with outq := t.red.outq, parts := t.red.parts, closed := t.red.closed, combined := t.red.combined
                             results := t.red.results, sums := t.red.sums }) ∧
    (s.run.phase = .distribution → s.run.distDone = true →
      ∃ t, exec .strokeEdge s = .next t ∧ Ticked s t ∧ t.dev = s.dev ∧ t.stroke.slot = s.stroke.slot + 1 ∧
        (∃ w, t.run = { s.run with phase := .exchange, phaseStart := (s.stroke.count + 1) % 2 ^ 48, slotStart := s.stroke.slot + 1
                                   carried := carriedRings s, sentRisk := w }) ∧
        t.red = { s.red with outq := t.red.outq, parts := t.red.parts, closed := t.red.closed, combined := t.red.combined
                             results := t.red.results, sums := t.red.sums }) ∧
    (s.run.phase = .exchange → p.x ≤ s.stroke.slot + 1 - s.run.slotStart → resultsHeld s 2 = true →
      ∃ t, exec .strokeEdge s = .next t ∧ Ticked s t ∧ t.dev = s.dev ∧ t.stroke.slot = s.stroke.slot + 1 ∧
        t.run = { s.run with phase := .boundary, phaseStart := (s.stroke.count + 1) % 2 ^ 48, slotStart := s.stroke.slot + 1 } ∧
        t.red = s.red) ∧
    (s.run.phase = .exchange → s.stroke.slot + 1 - s.run.slotStart < p.x ∨ resultsHeld s 2 = false →
      ∃ t, exec .strokeEdge s = .next t ∧ Ticked s t ∧ t.dev = s.dev ∧ t.stroke.slot = s.stroke.slot + 1 ∧ t.run = s.run ∧ t.red = s.red)) ∧
  (∀ s : State, PlainEdge s → inRun s = false → (∀ r, (s.stroke.count, r) ∉ s.stroke.seen) →
    ∃ t, exec .strokeEdge s = .next t ∧ Ticked s t ∧ t.dev = s.dev ∧ t.stroke.slot = s.stroke.slot ∧ t.run = s.run ∧ t.red = s.red)) ∧
  ((∀ (g : Bool) (s : State), bitN (reg s 0x4000) 0 = true →
    exec (.strokeInEdge g) s = .next { s with stroke := { s.stroke with inGood := if g then s.stroke.inGood + 1 else 0 } }) ∧
  (∀ (g : Bool) (s : State), bitN (reg s 0x4000) 0 = false → exec (.strokeInEdge g) s = .next s) ∧
  (∀ s : State, s.stroke.locked = false →
    (s.stroke.master = true ∧ (bitN (reg s 0x4000) 0 = true → 16 ≤ s.stroke.inGood)) ∨
    (s.stroke.master = false ∧ s.stroke.noParent = false ∧ 16 ≤ s.stroke.good) →
    ∃ t, exec .lockGained s = .next t ∧ t.stroke = { s.stroke with locked := true, numbered := true, bad := 0 } ∧
      (s.host.startRing = none → t = { s with stroke := t.stroke }) ∧
      (s.host.startRing.isSome → t.run.ready = true ∧ (s.run.ready = false → t.dev = .starting) ∧
        t = { s with stroke := t.stroke, run := { s.run with ready := true }, dev := t.dev })) ∧
  (∀ s : State, s.stroke.locked = true ∨ (s.stroke.master = true ∧ bitN (reg s 0x4000) 0 = true ∧ s.stroke.inGood < 16) ∨
      (s.stroke.master = false ∧ (s.stroke.noParent = true ∨ s.stroke.good < 16)) → exec .lockGained s = .next s) ∧
  (∀ s : State, s.stroke.locked = true → s.stroke.noParent = false → 16 ≤ s.stroke.bad →
    ∃ t, exec .lockLost s = .next t ∧ t.stroke = { s.stroke with locked := false, good := 0 } ∧
      sget natD t.res.now 7 = sget natD s.res.now 7 + 1 ∧
      t = { s with stroke := t.stroke, res := { s.res with now := t.res.now }, cnt := t.cnt, log := t.log, host := t.host } ∧
      (s.dev ≠ .recovery → s.log.waiting < 8191 → s.log.dropped = 0 →
        (s.log.next % 8192, mkEntry 0x0301 (b8 s.stroke.count ++ b4 (toTwos 32 s.stroke.offset)) s) ∈ t.log.ring)) ∧
  (∀ s : State, s.stroke.locked = false ∨ s.stroke.noParent = true ∨ s.stroke.bad < 16 → exec .lockLost s = .next s))

/-- The guard point raises EASY or holds the step (R170, R206, R215, R253, R254, R264, R284, R311, R318, R319, R374). At the guard
point unfinished work raises EASY once and floods it; the device's fault and poison flags join their control reduction, and a
result that is not 0, or a failure that every device knows of, holds the step: passes are aborted, threads stop, the epoch
advances, nothing of the step is committed, the journal loses the step's entries and memory keeps its bytes. -/
def Obligations.GuardPoints : Prop :=
  ∀ (st : List Nat) (s : State), ∃ v,
    v = { s with
      stroke := { s.stroke with guard := true, seen := v.stroke.seen }, res := { s.res with selfTest := st }
      cnt := v.cnt, log := v.log, host := v.host, out := v.out
      link := { s.link with port := v.link.port, behindLogged := v.link.behindLogged } } ∧
    (∀ x, ¬ logRing x → memByte v x = memByte s x) ∧
    (inRun s = true → slotUnfinished s = true → easyPhase s = true → (s.stroke.count, myPos s) ∈ v.stroke.seen ∧
      ((s.stroke.count, myPos s) ∉ s.stroke.seen →
        ∀ x ∈ activePorts s, ∃ h, Output.packet x.1 x.2 h (easyBody s.stroke.count (myPos s)) ∈ v.out)) ∧
    (slotUnfinished s = false ∨ easyPhase s = false → throttleDue s = false → v.stroke.seen = s.stroke.seen) ∧
    (inStep s = false ∨ (floodedHold s = 0 ∧ (ctlGet s ctlFlags).own = true) → exec (.guardPoint st) s = .next v) ∧
    (inStep s = true → floodedHold s ≠ 0 → ∃ t, exec (.guardPoint st) s = .next (deliverEarly t) ∧ HeldFrom (floodedHold s) v t ∧
      t.run.heldCause = s.run.holdDue ∧ (s.link.early = [] → deliverEarly t = t)) ∧
    ∀ c, inStep s = true → floodedHold s = 0 → (ctlGet s ctlFlags).own = false →
      c = { ctlGet s ctlFlags with own := true, since := s.stroke.count, acc := (ctlGet s ctlFlags).acc ||| guardFlags s } →
      (c.sent = true ∨ (∃ x ∈ (ctlTree s ctlFlags).2, x ∉ c.heard) → ∃ t, exec (.guardPoint st) s = .next t ∧ ctlGet t ctlFlags = c ∧
        (∀ j, j ≠ ctlFlags → ctlGet t j = ctlGet s j) ∧ t = { v with link := { v.link with ctl := t.link.ctl } }) ∧
      (∀ q, c.sent = false → (∀ x ∈ (ctlTree s ctlFlags).2, x ∈ c.heard) → (ctlTree s ctlFlags).1 = some q →
        ∃ t, exec (.guardPoint st) s = .next t ∧ ctlGet t ctlFlags = { c with sent := true } ∧
          NetOnly { v with link := { v.link with ctl := t.link.ctl } } t ∧
          ∀ x, routeOf s q = some x → (subp s x.1 x.2).up = true → ∃ g, Output.packet x.1 x.2 g (ctlBody ctlFlags c.acc) ∈ t.out) ∧
      (c.sent = false → (∀ x ∈ (ctlTree s ctlFlags).2, x ∈ c.heard) → (ctlTree s ctlFlags).1 = none →
        ∃ z, ctlGet z ctlFlags = ctlD ctlFlags ∧ NetOnly { v with link := { v.link with ctl := z.link.ctl } } z ∧
          (c.acc = 0 → exec (.guardPoint st) s = .next z) ∧
          (c.acc ≠ 0 → ∃ t, exec (.guardPoint st) s = .next (deliverEarly t) ∧ HeldFrom c.acc z t ∧ (s.link.early = [] → deliverEarly t = t)))

/-- Standing replies, host loss and the wedge (R321, R349, R351, R353). A due standing reply is written with its
fields, and none is in BOOT, RECOVERY, G5 or a wedged interface (log entry 76); a host is lost when its link is down
or a ring stays full; a unit with work pending that makes no progress wedges the device, logged. -/
def Obligations.HostAndWedge : Prop :=
  ((∀ (s : State) (a : Nat), a = reg s 0x2008 + reg s 0x200C * 2 ^ 32 → s.dev ≠ .boot → s.dev ≠ .recovery → s.pwr.state ≠ .g5 →
    s.host.stuck = false → bitN (reg s 0x2010) 16 = true → bitsN (reg s 0x2010) 0 16 ≤ s.host.standCount →
    (hostRange s a 32 = true → ∃ t, exec .standingReply s = .next t ∧
      t.out = .hostWrite a (statusWord s 0 s.host.attnStanding ++ leBytes 2 0xFFFF ++ [0x81, if s.host.standPhase then 1 else 0] ++
        b8 s.stroke.count ++ b4 (stepField s) ++ b4 (s.host.standSeq + 1) ++ b4 s.host.events ++ leBytes 1 s.res.sysRisk ++ leBytes 3 0) :: s.out ∧
      t = { s with out := t.out, host := { s.host with standCount := 0, standPhase := !s.host.standPhase,
                                                       standSeq := (s.host.standSeq + 1) % 2 ^ 32, attnStanding := 0 } }) ∧
    (hostRange s a 32 = false → ∃ t, exec .standingReply s = .next t ∧ HostOnly s t ∧ t.out = s.out ∧
      t.host.standSeq = (s.host.standSeq + 1) % 2 ^ 32)) ∧
  (∀ s : State, s.dev = .boot ∨ s.dev = .recovery ∨ s.pwr.state = .g5 ∨ s.host.stuck = true ∨ bitN (reg s 0x2010) 16 = false ∨
    s.host.standCount < bitsN (reg s 0x2010) 0 16 → exec .standingReply s = .next s)) ∧
  ((∀ s : State, s.host.linkUp = false ∨ (∃ x ∈ s.host.rings, x.2.queued ≠ []) →
    exec .hostLost s = .next { s with host := { s.host with lost := true, lostRequest := s.host.lostRequest || inRun s } }) ∧
  (∀ s : State, s.host.linkUp = true → (∀ x ∈ s.host.rings, x.2.queued = []) → exec .hostLost s = .next s) ∧
  (∀ (u : WedgeUnit) (s : State), s.dev ≠ .boot → s.dev ≠ .recovery → s.dev ≠ .wedged → pendingFor s u = true →
    ∃ t, exec (.wedgeTimeout u) s = .next t ∧ t.dev = .wedged ∧ (t.host.stuck = true ↔ u = .hostInterface) ∧ t.run = s.run ∧
      t.regs = s.regs ∧ t.plan = s.plan ∧ t.mem = s.mem ∧ t.cores = s.cores ∧ s.log.next < t.log.next ∧
      (s.log.dropped = 0 → s.log.waiting < 8191 → (s.log.next % 8192, mkEntry 0x0901 (b4 (wedgeCode u)) s) ∈ t.log.ring)) ∧
  (∀ (u : WedgeUnit) (s : State), s.dev = .boot ∨ s.dev = .recovery ∨ s.dev = .wedged ∨ pendingFor s u = false →
    exec (.wedgeTimeout u) s = .next s))

/-- EASY limit, heartbeat limit and declarations (R37, R218, R283, R311, R318, R323, R324). At the EASY limit the raiser's cause, the
greatest that any device gives, decides between a hold and a lost device, journalled; a neighbour that misses the heartbeat limit
is declared and flooded, and in a run its port takes its path; a device is lost when every planned neighbour has declared it; a
full journal takes no decision and raises the fault flag; a replay that has recorded decisions takes no new one. -/
def Obligations.LostDevices : Prop :=
  (∀ (c : Fin 3) (s : State) (p : Plan) (k : Nat), s.plan = some p → inRun s = true → p.easyLimit < s.stroke.easyRun → recorded s 4 = [] →
    s.run.holdDue = 0 → s.stroke.lastRaiser ∉ s.res.lost →
    k = max c.val (if s.stroke.lastRaiser ≠ myPos s then 0 else if s.adm.waitingHost = true then 1 else 2) →
    (s.res.journal.length < 8192 → ∃ t, exec (.easyLimit c) s = .next t ∧
      t.res.journal = s.res.journal ++ [{ kind := 4, step := s.run.step, stroke := s.stroke.count, pos := s.stroke.lastRaiser, arg := k }] ∧
      t = { s with run := { s.run with holdDue := t.run.holdDue }, res := t.res, cnt := t.cnt, log := t.log, host := t.host, out := t.out } ∧
      (k = 1 → t.res.path = 6 ∧ t.run.holdDue = 2 ∧ t.res.lost = s.res.lost ∧
        ({ code := 6, pos := s.stroke.lastRaiser, part := 0, arg := 0 } : FailPath) ∈ t.res.paths ∧
        (s.stroke.lastRaiser = myPos s → t.host.lost = true ∧ t.host.lostRequest = true)) ∧
      (k ≠ 1 → s.stroke.lastRaiser ∈ t.res.lost ∧ 5 ≤ t.run.holdDue ∧ (t.res.path = 7 ∨ t.res.path = 8))) ∧
    (8192 ≤ s.res.journal.length → exec (.easyLimit c) s =
      .next { s with res := { s.res with journalFull := true }, run := { s.run with holdDue := 8 } })) ∧
  (∀ (c : Fin 3) (s : State), inRun s = false ∨ (∀ p, s.plan = some p → s.stroke.easyRun ≤ p.easyLimit) ∨ recorded s 4 ≠ [] ∨
    s.run.holdDue ≠ 0 ∨ s.stroke.lastRaiser ∈ s.res.lost → exec (.easyLimit c) s = .next s) ∧
  (∀ (p : PortId) (s : State) (x : MapDev), (port s p).lost = false → bitsN (reg s 0xA008) 0 12 ≤ (port s p).catchMissed →
    p.val ∈ plannedPorts s → recorded s 3 = [] → devAt (amended s) (myPos s) = some x →
    (s.res.journal.length < 8192 → ∃ t, exec (.heartbeatLimit p) s = .next t ∧ (port t p).lost = true ∧
      (∃ q, t.res.journal = s.res.journal ++ [{ kind := 3, step := s.run.step, stroke := s.stroke.count, pos := q, arg := p }]) ∧
      (inRun s = true → ({ code := 2, pos := myPos s, part := p, arg := 0 } : FailPath) ∈ t.res.paths ∧ 11 ≤ t.run.holdDue) ∧
      t = { s with run := { s.run with holdDue := t.run.holdDue }, res := t.res, cnt := t.cnt, log := t.log, host := t.host, out := t.out
                   link := { s.link with port := t.link.port } } ∧ (∀ q, q ≠ p.val → port t q = port s q) ∧
      ∀ b, b < 2 → entryLanes (x.ports.getD (2 * p + b) 0) ≠ 0 →
        (entryPos (x.ports.getD (2 * p + b) 0), myPos s) ∈ t.res.declared ∧
        ∀ y ∈ activePorts s, Output.declaration y.1 y.2 0 (entryPos (x.ports.getD (2 * p + b) 0)) (myPos s) ∈ t.out) ∧
    (8192 ≤ s.res.journal.length → exec (.heartbeatLimit p) s =
      .next { s with res := { s.res with journalFull := true }, run := { s.run with holdDue := max s.run.holdDue 8 } })) ∧
  (∀ (p : PortId) (s : State), (port s p).lost = true ∨ (port s p).catchMissed < bitsN (reg s 0xA008) 0 12 ∨ p.val ∉ plannedPorts s ∨
    recorded s 3 ≠ [] → exec (.heartbeatLimit p) s = .next s) ∧
  (∀ (p : PortId) (k : DeclKind) (pos by_ : Fin 4096) (s : State), (port s p).sub0.up = true ∨ (port s p).sub1.up = true →
    (k = .portLost → (pos.val, by_.val) ∉ s.res.declared → ∃ t, exec (.declaration p k pos by_) s = .next t ∧
      (pos.val, by_.val) ∈ t.res.declared ∧
      t = { s with run := { s.run with holdDue := t.run.holdDue }, res := { s.res with declared := t.res.declared, lost := t.res.lost }
                   cnt := t.cnt, log := t.log, host := t.host, out := t.out } ∧
      (∀ y ∈ activePorts s, Output.declaration y.1 y.2 0 pos by_ ∈ t.out) ∧
      (plannedPeers s pos ≠ [] → (∀ q ∈ plannedPeers s pos, q = by_.val ∨ (pos.val, q) ∈ s.res.declared) →
        pos.val ∈ t.res.lost ∧ (inRun s = true → pos.val ∉ s.res.lost → 5 ≤ t.run.holdDue))) ∧
    (k = .receiverFailed → pos.val ∉ s.res.lost → ∃ t, exec (.declaration p k pos by_) s = .next t ∧ pos.val ∈ t.res.lost ∧ t.run = s.run ∧
      ∀ y ∈ activePorts s, Output.declaration y.1 y.2 1 pos by_ ∈ t.out) ∧
    (k = .straggler → pos.val ∉ s.res.lost → ∃ t, exec (.declaration p k pos by_) s = .next t ∧ pos.val ∈ t.res.lost ∧
      (inRun s = true → 5 ≤ t.run.holdDue) ∧ ∀ y ∈ activePorts s, Output.declaration y.1 y.2 2 pos by_ ∈ t.out) ∧
    ((k = .portLost ∧ (pos.val, by_.val) ∈ s.res.declared) ∨ (k ≠ .portLost ∧ pos.val ∈ s.res.lost) → exec (.declaration p k pos by_) s = .next s)) ∧
  (∀ (p : PortId) (k : DeclKind) (pos by_ : Fin 4096) (s : State), (port s p).sub0.up = false → (port s p).sub1.up = false →
    exec (.declaration p k pos by_) s = .next s)

/-- Control stalls and the deadlines of reduction and distribution (R37, R284, R285, R288, R293, R294, R295, R311, R323). A control
reduction in which this device has waited for 64 strokes is reported once; a due reduction deadline forces the checkpoint with
missing and non-finite operands, and too many exclusions skip the step; a due distribution deadline loses each receiver that has
not settled, journalled and flooded, and this device's part of the completion is then given; a full journal holds the step instead,
and neither deadline is decided again where a replay has it recorded (the stroke of the own operand as the start of the 64 is the
model's reading, log entry 73). -/
def Obligations.Deadlines : Prop :=
  ((∀ (id : Nat) (s : State), (ctlGet s id).own = true → (ctlGet s id).stalled = false → (ctlGet s id).since + 64 ≤ s.stroke.count →
    ∃ t, exec (.controlReductionStall id) s = .next t ∧ ctlGet t id = { ctlGet s id with stalled := true } ∧
      (∀ j, j ≠ id → ctlGet t j = ctlGet s j) ∧ sget natD t.res.now 7 = sget natD s.res.now 7 + 1 ∧
      t = { s with link := { s.link with ctl := t.link.ctl }, res := { s.res with now := t.res.now } }) ∧
  ∀ (id : Nat) (s : State), (ctlGet s id).own = false ∨ (ctlGet s id).stalled = true ∨ s.stroke.count < (ctlGet s id).since + 64 →
    exec (.controlReductionStall id) s = .next s) ∧
  ((∀ s : State, s.run.phase ≠ .reduction ∨ redDue s = false ∨ recorded s 1 ≠ [] ∨ s.red.pass ∉ [1, 3, 4] → exec .reductionDeadline s = .next s) ∧
  (∀ s : State, s.run.phase = .reduction → redDue s = true → recorded s 1 = [] → s.red.pass ∈ [1, 3, 4] →
    ((∀ id ∈ [ctlMissing, ctlNonfinite, ctlOvf], ∃ x ∈ (ctlTree s id).2, x ∉ (ctlGet s id).heard) →
      ∃ t, exec .reductionDeadline s = .next t ∧ t.red = { s.red with pass := 2, byDeadline := true, got := [] } ∧
        ctlGet t ctlRedDone = ctlD ctlRedDone ∧
        (∀ x ∈ [(ctlMissing, myMissing s), (ctlNonfinite, myNonfinite s), (ctlOvf, b2n (myOvf s))],
          ctlGet t x.1 = { ctlGet s x.1 with own := true, since := s.stroke.count, acc := ctlCombine (ctlOp x.1) (ctlGet s x.1).acc x.2 }) ∧
        t = { s with red := t.red, link := { s.link with ctl := t.link.ctl } }) ∧
    (∀ q, (∀ id ∈ [ctlMissing, ctlNonfinite, ctlOvf], ctlTree s id = (some q, []) ∧ ctlGet s id = ctlD id) →
      ∃ t, exec .reductionDeadline s = .next t ∧ t.red = { s.red with pass := 2, byDeadline := true, got := [] } ∧
        NetOnly { s with red := t.red, link := { s.link with ctl := t.link.ctl } } t ∧
        ∀ y, routeOf s q = some y → (subp s y.1 y.2).up = true →
          ∀ x ∈ [(ctlMissing, myMissing s), (ctlNonfinite, myNonfinite s), (ctlOvf, b2n (myOvf s))],
            ∃ g, Output.packet y.1 y.2 g (ctlBody x.1 (ctlCombine (ctlOp x.1) (ctlD x.1).acc x.2)) ∈ t.out)) ∧
  (∀ (p : PortId) (b : SubId) (w : InstrWord) (body : List Byte) (s : State) (pl : Plan) (m f : Nat),
    Arrives s p b w.toNat body 0 3 → (readHdr w.toNat).arg = ctlOvf → s.run.phase = .reduction → s.plan = some pl → s.red.byDeadline = false →
    s.red.missing = [m] → s.red.nfSet = [f] → s.red.got = [ctlMissing, ctlNonfinite] →
    (f ≠ 0 ∧ pl.nfSkip = true) ∨ pl.r ≤ s.red.excluded.length →
    ∃ t, exec (.reduceDown p b w body) s = .next t ∧ t.run = { s.run with skipped := true, redDone := true } ∧ t.red.pass = 5 ∧ t.dev = s.dev)) ∧
  ((∀ s : State, s.run.phase ≠ .distribution ∨ s.run.distDone = true ∨ distDue s = false ∨ recorded s 2 ≠ [] ∨
    (∀ f ∈ distLegs s, legSettled s f.id = true) → exec .distributionDeadline s = .next s) ∧
  (∀ s : State, s.run.phase = .distribution → s.run.distDone = false → distDue s = true → recorded s 2 = [] →
    (∃ f ∈ distLegs s, legSettled s f.id = false) → 8192 ≤ s.res.journal.length →
    exec .distributionDeadline s = .next { s with
      res := { s.res with journalFull := true, path := lostCode s }, run := { s.run with holdDue := max s.run.holdDue 8 } }) ∧
  (∀ s : State, s.run.phase = .distribution → s.run.distDone = false → distDue s = true → recorded s 2 = [] →
    (∃ f ∈ distLegs s, legSettled s f.id = false) →
    s.res.journal.length + (distLegs s).length ≤ 8192 → ((distLegs s).map (·.id)).Nodup →
    ∃ v, v.run = { s.run with holdDue := v.run.holdDue } ∧ v.dev = s.dev ∧ v.res.path = lostCode v ∧
      (∀ f ∈ distLegs s, legSettled v f.id = true) ∧
      (∀ f ∈ distLegs s, legSettled s f.id = false → f.peer ∈ v.res.lost ∧
        ({ kind := 2, step := s.run.step, stroke := s.stroke.count, pos := f.peer, arg := 0 } : JournalEntry) ∈ v.res.journal ∧
        ∀ y ∈ activePorts s, Output.declaration y.1 y.2 1 f.peer (myPos s) ∈ v.out) ∧
      exec .distributionDeadline s = .next (distCheck v) ∧
      ((ctlGet s ctlDist).own = true → distCheck v = v) ∧
      ((ctlGet s ctlDist).own = false → (∃ x ∈ (ctlTree v ctlDist).2, x ∉ (ctlGet s ctlDist).heard) →
        ∃ u, distCheck v = u ∧
          ctlGet u ctlDist = { ctlGet s ctlDist with own := true, since := s.stroke.count, acc := ctlCombine (ctlOp ctlDist) (ctlGet s ctlDist).acc 1 } ∧
          u = { v with link := { v.link with ctl := u.link.ctl } }) ∧
      ∀ q, ctlTree v ctlDist = (some q, []) → ctlGet s ctlDist = ctlD ctlDist →
        ∃ u, distCheck v = u ∧ NetOnly { v with link := { v.link with ctl := u.link.ctl } } u ∧
          ∀ y, routeOf s q = some y → (subp s y.1 y.2).up = true →
            ∃ g, Output.packet y.1 y.2 g (ctlBody ctlDist (ctlCombine (ctlOp ctlDist) (ctlD ctlDist).acc 1)) ∈ u.out))

/-- OPTIMISER_UPDATE (R129, R196, R197, R199, R309). The next block of an update engine writes the new weights into
the other copy and nothing else of memory, stages its moments for the commit (log entry 77), adds its norms and
statistics; any other block has no effect. -/
def Obligations.OptimiserUpdates : Prop :=
  (∀ (i b : Nat) (s : State), (∀ pl, s.plan = some pl → s.run.phase ≠ .update ∨ s.run.skipped = true ∨
      engineNext (b % 16) pl.pieces 0 (sget natD s.run.upd (b % 16)) ≠ some (i, b)) →
    exec (.optimiserUpdate i b) s = .next s) ∧
  ∀ (i b : Nat) (s : State) (pl : Plan) (p : Piece) (e : OptEntry) (f : Fmt), s.plan = some pl → s.run.phase = .update → s.run.skipped = false →
    engineNext (b % 16) pl.pieces 0 (sget natD s.run.upd (b % 16)) = some (i, b) → pl.pieces[i]? = some p →
    optEntry s p.opt = some e → fmtOfCode p.fmt = some f →
    ∃ t, exec (.optimiserUpdate i b) s = .next t ∧
      t.run = { s.run with
        moments := s.run.moments ++ momentWrites p e f b s, norms := blockNorms p e f b s, updEntry := sset natD s.run.updEntry (b % 16) p.opt
        nonfinite := s.run.nonfinite || decide (blockBad p e f b s ≠ 0), upd := smod natD s.run.upd (b % 16) (· + 1) } ∧
      t.collectors = (blockStats p e f b s s).collectors ∧
      ((∀ j, j < (weightsOut p e f b s).1.length → plainAddr (p.other + 64 * b + j)) →
        memBytes t (p.other + 64 * b) (weightsOut p e f b s).1.length = (weightsOut p e f b s).1) ∧
      (∀ x, ¬ logRing x → x < p.other + 64 * b ∨ p.other + 64 * b + (weightsOut p e f b s).1.length ≤ x → memByte t x = memByte s x) ∧
      t = { s with run := t.run, mem := t.mem, collectors := t.collectors, cnt := t.cnt, log := t.log, host := t.host }

/-- WEIGHT_CONVERSION and CODEBOOK_REBUILD (R52, R57, R180, R199, R200, R201). In the compute phase, once the codebooks of its layers
that are due are rebuilt, a conversion writes the array planes of its tensor, and no other byte; a codebook is rebuilt at the
steps of its period alone, from the finite weights of its group's rows (log entry 80), in compute at once and in distribution, from
the copy that the next step reads, for the boundary. -/
def Obligations.WeightConversions : Prop :=
  ((∀ (k : Nat) (s : State), s.plan = none ∨ s.run.phase ≠ .compute ∨
      (∀ pl, s.plan = some pl → ∃ c ∈ pl.convs, c.tensor = k ∧ booksReady s pl c.layer = false) → exec (.weightConversion k) s = .next s) ∧
  ∀ (k : Nat) (s : State) (pl : Plan) (cs : List Conv), s.plan = some pl → s.run.phase = .compute → cs = pl.convs.filter (fun c => c.tensor == k) →
    (∀ c ∈ cs, bookPeriod s c.layer = 0 ∨ s.run.step % bookPeriod s c.layer ≠ 0 ∨
      ∀ g ∈ pl.books, g.layer = c.layer → (s.run.step, c.layer, g.group) ∈ s.run.booksDone) →
    ∃ t, exec (.weightConversion k) s = .next t ∧
      (∀ (l r : List (Nat × List Byte)) (a : Nat) (b : List Byte), convWrites s cs = l ++ (a, b) :: r →
        (∀ y ∈ r, a + b.length ≤ y.1 ∨ y.1 + y.2.length ≤ a) → (∀ j, j < b.length → plainAddr (a + j)) → memBytes t a b.length = b) ∧
      (∀ x, (∀ y ∈ convWrites s cs, x < y.1 ∨ y.1 + y.2.length ≤ x) → memByte t x = memByte s x) ∧
      t.collectors = (convStats s cs s).collectors ∧
      t.run = { s.run with converted := if k ∈ s.run.converted then s.run.converted else s.run.converted ++ [k] } ∧
      t = { s with mem := t.mem, collectors := t.collectors, run := t.run }) ∧
  ((∀ (l g : Nat) (s : State), (s.run.phase ≠ .compute ∧ s.run.phase ≠ .distribution) ∨
      (∀ pk y, s.pkg = some pk → pk.layers[l]? = some y → y.cbPeriod = 0 ∨ bookStep s % y.cbPeriod ≠ 0) ∨
      (∀ pl, s.plan = some pl → pl.books.find? (fun b => b.layer == l && b.group == g) = none) → exec (.codebookRebuild l g) s = .next s) ∧
  ∀ (l g : Nat) (s : State) (pk : Pkg) (y : LayerDesc) (pl : Plan) (b : BookGroup) (src : Nat) (bytes : List Byte),
    s.pkg = some pk → pk.layers[l]? = some y → y.cbPeriod ≠ 0 → bookStep s % y.cbPeriod = 0 →
    s.plan = some pl → pl.books.find? (fun b => b.layer == l && b.group == g) = some b →
    src = (if s.run.phase = .distribution ∧ s.run.skipped = false then otherCopy s b.src else b.src) →
    bytes = (buildBook ((((List.range (elemsOf b.dims)).filter fun i => axisRow b.dims b.baxis i / 128 == b.group).map fun i =>
      loadScalar s ((fmtOfCode b.fmt).getD .bf16) (src + 2 * i)).filter fun w => vFinite (dec32 w))).flatMap (leBytes 2) →
    (s.run.phase = .compute → ∃ t, exec (.codebookRebuild l g) s = .next t ∧
      ((∀ j, j < bytes.length → plainAddr (b.book + j)) → memBytes t b.book bytes.length = bytes) ∧
      (∀ x, x < b.book ∨ b.book + bytes.length ≤ x → memByte t x = memByte s x) ∧
      t = { s with mem := t.mem, run := { s.run with booksDone := s.run.booksDone ++ [(s.run.step, l, g)] } }) ∧
    (s.run.phase = .distribution →
      exec (.codebookRebuild l g) s = .next { s with run := { s.run with
        bookWrites := s.run.bookWrites ++ [(b.book, bytes)], booksDone := s.run.booksDone ++ [(s.run.step + 1, l, g)] } }))

/-- ADMISSION_PICK (R189, R190, R192, R193, R381). The source with the greatest credit after its weight is added, the
lowest number on a tie, is picked with its next sample and the lowest free slot; its credit falls by the sum of
weights, and the reader asks for the descriptor in the sample's ring entry; a host that has produced no sample makes the
reader wait, counted once. -/
def Obligations.AdmissionPicks : Prop :=
  (∀ (n : DWord) (s : State), admitting s = false ∨ s.adm.pick ≠ none ∨ (∀ i, i < 16 → source s i = none) ∨ (∀ k, k < 4096 → (slot s k).state ≠ 0) →
    exec (.admissionPick n) s = .next s) ∧
  ∀ (n : DWord) (s : State) (p k : Nat) (x : Source), admitting s = true → s.adm.pick = none → p < 16 → source s p = some x →
    (∀ i y, i < 16 → source s i = some y →
      y.credit + y.weight < x.credit + x.weight ∨ (y.credit + y.weight = x.credit + x.weight ∧ p ≤ i)) →
    k < 4096 → (slot s k).state = 0 → (∀ j, j < k → (slot s j).state ≠ 0) →
    (isReader s = true → n.toNat ≤ x.next →
      (s.adm.waitingHost = true → exec (.admissionPick n) s = .next s) ∧
      (s.adm.waitingHost = false → ∃ t, exec (.admissionPick n) s = .next t ∧ t.adm = { s.adm with waitingHost := true } ∧
        t = bump (cntDev 29) 1 { s with adm := t.adm } ∧ CountsOnly { s with adm := t.adm } t)) ∧
    (isReader s = false ∨ x.next < n.toNat →
      ∃ t, exec (.admissionPick n) s = .next t ∧ t.adm.pick = some (p, x.next, k) ∧
        slot t k = { source := p, state := 1, mb := 0, step := 0, sample := x.next, length := 0, fetched := 0, use := (slot s k).use } ∧
        (∀ j, j ≠ k → slot t j = slot s j) ∧
        source t p = some { x with credit := x.credit + x.weight - (boundSources s).foldl (fun (m : Int) y => m + y.2.weight) 0, next := x.next + 1 } ∧
        (∀ i y, i < 16 → i ≠ p → source s i = some y → source t i = some { y with credit := y.credit + y.weight }) ∧
        t.out = (if isReader s = true then [Output.hostRead (x.ring + 32 * (x.next % 2 ^ x.log2)) 32] else []) ++ s.out ∧
        t = { s with adm := { s.adm with waitingHost := false, pick := t.adm.pick, slots := t.adm.slots }, sources := t.sources, out := t.out })

/-- SAMPLE_TOKENS_READ (R188, R189, R191, R192, R193). The reader asks for the tokens at the descriptor's ADDR. A sample that meets a reason for refusal frees its slot, is
counted and logged by the reader alone; any other is packed by next fit, its tokens are written at their homes and no
other byte, its counts advance and the reader reports them. -/
def Obligations.SampleTokens : Prop :=
  (∀ (desc tokens : List Byte) (s : State), admitting s = false ∨ s.adm.pick = none ∨ s.pkg = none ∨ s.plan = none →
    exec (.sampleTokensRead desc tokens) s = .next s) ∧
  (∀ (desc tokens : List Byte) (s : State) (p n k len : Nat) (pk : Pkg) (pl : Plan) (x : Source) (toks : List Int),
    admitting s = true → s.adm.pick = some (p, n, k) → s.pkg = some pk → s.plan = some pl → source s p = some x → len = leAt desc 8 4 →
    toks = tokensOf (min len 65536) (padTo (4 * min len 65536) tokens) →
    ∀ asked, asked = (if isReader s = true ∧ 2 ≤ len ∧ len ≤ x.seqMax then [Output.hostRead (leAt desc 0 8) (4 * len)] else []) →
    (∀ c, sampleCode pk x.seqMax len toks = c → c ≠ 0 →
      ∃ t, exec (.sampleTokensRead desc tokens) s = .next t ∧ t.adm.pick = none ∧
        slot t k = { slotD 0 with use := (slot s k).use } ∧ (∀ j, j ≠ k → slot t j = slot s j) ∧
        source t p = some { x with admitted := x.admitted + 1 } ∧ (∀ i, i ≠ p → source t i = source s i) ∧
        t.adm.refused = s.adm.refused + b2n (isReader s) ∧
        (isReader s = true → s.dev ≠ .recovery → s.log.next < t.log.next) ∧
        t = { s with adm := { s.adm with pick := none, slots := t.adm.slots, refused := t.adm.refused }, sources := t.sources, cnt := t.cnt,
                     log := t.log, host := t.host, out := t.out } ∧
        (∀ y ∈ asked, y ∈ t.out)) ∧
    (sampleCode pk x.seqMax len toks = 0 → ∀ g, g = newSegment pk pl k len s →
      ∃ t, exec (.sampleTokensRead desc tokens) s = .next t ∧
        t.adm = { packed pk pl k len (leAt desc 0x10 8) s with pick := none, slots := t.adm.slots } ∧
        slot t k = { slot s k with
          state := if g.step = s.run.step ∧ inRun s = true then 3 else 2, mb := g.mb, step := g.step, length := len, fetched := len } ∧
        (∀ j, j ≠ k → slot t j = slot s j) ∧
        source t p = some { x with admitted := x.admitted + 1 } ∧ (∀ i, i ≠ p → source t i = source s i) ∧
        (isReader s = true → x.cons ≠ 0 → hostRange s x.cons 16 = true →
          Output.hostWrite x.cons (b8 (x.admitted + 1) ++ b8 x.released) ∈ t.out) ∧
        (∀ (l r : List (Nat × List Byte)) (a : Nat) (b : List Byte), admitWrites pk pl k len toks s = l ++ (a, b) :: r →
          (∀ y ∈ r, a + b.length ≤ y.1 ∨ y.1 + y.2.length ≤ a) → (∀ j, j < b.length → plainAddr (a + j)) → memBytes t a b.length = b) ∧
        (∀ y, ¬ logRing y → (∀ z ∈ admitWrites pk pl k len toks s, y < z.1 ∨ z.1 + z.2.length ≤ y) → memByte t y = memByte s y) ∧
        FlowOnly { s with adm := t.adm, sources := t.sources, mem := t.mem } t ∧ (∀ y ∈ asked, y ∈ t.out))) ∧
  (∀ (pk : Pkg) (seqMax len : Nat) (toks : List Int),
    (seqMax < len → sampleCode pk seqMax len toks = 1) ∧ (len ≤ seqMax → len < 2 → sampleCode pk seqMax len toks = 2) ∧
    (len ≤ seqMax → 2 ≤ len →
      ((∃ v ∈ toks, v < 0 ∨ ∃ n, embedRows pk = some n ∧ (n : Int) ≤ v) → sampleCode pk seqMax len toks = 3) ∧
      ((∀ v ∈ toks, 0 ≤ v ∧ ∀ n, embedRows pk = some n → v < n) → sampleCode pk seqMax len toks = 0))) ∧
  ∀ (mbTokens mbPer len : Nat) (a : AdmSt),
    (a.fill + len ≤ mbTokens → place mbTokens mbPer len a = ({ a with fill := a.fill + len, count := a.count + 1 }, (a.step, a.mb, a.fill))) ∧
    (mbTokens < a.fill + len → a.mb + 1 < mbPer →
      place mbTokens mbPer len a = ({ a with mb := a.mb + 1, fill := len, count := a.count + 1 }, (a.step, a.mb + 1, 0))) ∧
    (mbTokens < a.fill + len → mbPer ≤ a.mb + 1 →
      place mbTokens mbPer len a = ({ a with step := a.step + 1, mb := 0, fill := len, count := 1 }, (a.step + 1, 0, 0)))

/-- STEP_BOUNDARY: commit, hold and reply (R31, R32, R192, R197, R203, R204, R234, R282, R309, R319, R344). Once the reduced values
are held, the boundary of a step that ran to its end commits it: loss, tokens, weights, moments, codebooks, powers and slots, then the
later actions run in order; without anything to decide the run goes on and the reply is written; a PLAN that every device holds is
taken after the commit; a held boundary commits nothing. -/
def Obligations.StepBoundaries : Prop :=
  (∀ (b : BoundaryIn) (s : State), s.run.phase ≠ .boundary ∨ s.run.boundDone = true ∨ s.run.boundWait = true ∨
      (s.dev ≠ .running ∧ s.dev ≠ .recovering) ∨ resultsHeld s 2 = false ∨ (s.run.heldCause = 0 ∧ resultsHeld s 1 = false) →
    exec (.stepBoundary b) s = .next s) ∧
  (∀ (b : BoundaryIn) (s : State), s.run.phase = .boundary → s.run.boundDone = false → s.run.boundWait = false →
    s.dev = .running ∨ s.dev = .recovering → resultsHeld s 2 = true → resultsHeld s 1 = true → s.run.heldCause = 0 →
    exec (.stepBoundary b) s = .next (atEpoch s (afterThree (boundaryHold (actionThree b s.cox.rung (s.run.step + 1)
      (replayCompare s.run.step (decided s)))))) ∧
    ((∀ r, s.host.rwPlan = some r → (exchanged s).planHeld = false ∨ r.ring ∉ s.run.carried) → Committed s (decided s)) ∧
    (∀ r, s.host.rwPlan = some r → (exchanged s).planHeld = true → r.ring ∈ s.run.carried →
      (decided s).captured = r.regs ∧ (decided s).run.planDue = true ∧ (decided s).run.fin.planActed = true ∧
      (decided s).run.last = some s.run.step ∧ (decided s).run.step = s.run.step + 1) ∧
    ((decided s).run.planDue = false → s.res.rollback = false → (exchanged s).paths = [] → s.res.lost = [] → s.res.path = 0 →
      s.res.secureDue = false → s.run.secured = false → s.host.rwPause = [] → s.host.rwPlan = none → s.host.rwSecure = [] →
      (exchanged s).pause = false → (exchanged s).secure = false → (exchanged s).hostLost = false →
      s.run.limit = 0xFFFFFFFF ∨ s.run.step < s.run.limit → ∃ t, exec (.stepBoundary b) s = .next t ∧ BoundaryEnds (decided s) t)) ∧
  (∀ (b : BoundaryIn) (s : State), s.run.phase = .boundary → s.run.boundDone = false → s.run.boundWait = false →
    s.dev = .running ∨ s.dev = .recovering → resultsHeld s 2 = true → s.run.heldCause ≠ 0 →
    exec (.stepBoundary b) s = .next (atEpoch s (afterThree (actionThree b s.cox.rung s.run.step (heldStart s)))) ∧
    (QuietEnd (heldStart s) → ∃ t, exec (.stepBoundary b) s = .next t ∧ BoundaryEnds (heldStart s) t ∧
      t.run = { s.run with boundDone := true, heldCause := 0, fin := t.run.fin } ∧ t.plan = s.plan ∧ t.mem = s.mem ∧ t.adm.slots = s.adm.slots))

/-- SECURE_STOP_COMPLETE (R189, R282, R308, R311, R314, R315, R316, R317). A stop that every device has kept makes the image
of the state and the system's weight digest the secured ones, empties the journal, releases samples and goes on; a failure in
the stop abandons it, and the step at whose boundary it stood is held. -/
def Obligations.SecureStops : Prop :=
  (∀ s : State, s.plan = none ∨ s.pkg = none ∨ s.dev ≠ .securing ∨ s.res.stopWaits = true ∨ s.run.secLeft ≠ 0 ∨
      (s.run.holdDue = 0 ∧ s.res.paths = [] ∧ (s.res.keptRes = none ∨ s.res.wsumRes = none ∨ ∃ k, s.res.keptRes = some k ∧ k % 2 = 0)) →
    exec .secureStopComplete s = .next s) ∧
  (∀ (s : State) (p : Plan) (pk : Pkg) (k wd : Nat) (info : ImageInfo), s.plan = some p → s.pkg = some pk → s.dev = .securing →
    s.res.stopWaits = false → s.run.secLeft = 0 → s.run.holdDue = 0 → s.res.paths = [] → s.res.keptRes = some k → k % 2 = 1 →
    s.res.wsumRes = some wd →
    info = { step := stepField s, bytes := (makeImage s p pk wd).length, loss := s.run.loss, tokens := s.run.tokens, wdigest := wd, valid := true } →
    ∃ v, exec .secureStopComplete s = .next (atEpoch s (finishBoundary v)) ∧
      v.run = { s.run with secured := true, losses := [] } ∧
      v.res = { s.res with
        journal := [], journalFull := false, secureDue := false, ue := false, imgStep := s.run.last, sinceImage := 0, imgValid := true
        own := some info, ownData := makeImage s p pk wd, kept := keptImages info s, hcopyState := v.res.hcopyState
        hcopyPercent := v.res.hcopyPercent, hcopyBytes := v.res.hcopyBytes } ∧
      (∀ i x, i < 16 → source s i = some x →
        source v i = some { x with released := max x.released (minOr x.next (samplesOf s.run.snapLast.adm i ++ samplesOf s.adm i)) }) ∧
      v = { s with run := v.run, res := v.res, sources := v.sources, mem := v.mem, mgmt := v.mgmt, out := v.out, cnt := v.cnt, log := v.log, host := v.host } ∧
      (s.run.fin.hold = 0 → s.res.path = 0 → s.res.rollback = false → ∃ t, exec .secureStopComplete s = .next t ∧
        t.dev = .running ∧ t.run = { s.run with secured := true, losses := [], boundDone := true } ∧ t.res = v.res)) ∧
  (∀ (s : State) (p : Plan) (pk : Pkg) (r : ResSt), s.plan = some p → s.pkg = some pk → s.dev = .securing → s.res.stopWaits = false →
    s.run.secLeft = 0 → s.run.holdDue ≠ 0 ∨ s.res.paths ≠ [] →
    r = { s.res with
      secureDue := true, imgValid := imageKept s, kept := keptAbandoned s, own := s.res.own.map fun x => { x with valid := imageKept s } } →
    exec .secureStopComplete s = .next (atEpoch s (holdNow (max 3 s.run.holdDue) (finishBoundary { s with res := r }))) ∧
    (s.run.fin.hold = 0 → s.res.path = 0 → s.res.rollback = false → ∃ t u, exec .secureStopComplete s = .next (deliverEarly t) ∧
      Held (max 3 s.run.holdDue) u t ∧ u.dev = .running ∧ u.run = { s.run with boundDone := true } ∧ u.res = r ∧ u.stroke = s.stroke ∧
      (s.link.early = [] → deliverEarly t = t)))
end

