-- ==== Sys2Proof/Laws/Sparse.lean ====
section
/-! SUPPORT. The laws of sparse maps: reading after a write, and that every operation keeps the canonical form. -/

namespace Sys2Proof.Machine

open Sys2Proof

theorem sabove_mono {α : Type} {lo hi : Nat} {m : List (Nat × α)} (h : lo ≤ hi) (w : sabove hi m = true) :
    sabove lo m = true := by
  cases m with
  | nil => rfl
  | cons e t => simp only [sabove, decide_eq_true_eq] at *; omega

@[simp] theorem swf_nil {α : Type} [DecidableEq α] (d : Nat → α) : swf d [] = true := rfl

theorem swf_cons {α : Type} [DecidableEq α] {d : Nat → α} {k : Nat} {v : α} {t : List (Nat × α)} :
    swf d ((k, v) :: t) = true ↔ v ≠ d k ∧ sabove k t = true ∧ swf d t = true := by
  simp [swf, and_assoc]

/-- A canonical map lists only keys above `lo` once its first key is. -/
theorem sabove_mem {α : Type} [DecidableEq α] {d : Nat → α} {lo : Nat} {m : List (Nat × α)} (w : swf d m = true)
    (h : sabove lo m = true) : ∀ e ∈ m, lo < e.1 := by
  induction m generalizing lo with
  | nil => simp
  | cons e t ih =>
    obtain ⟨_, hk, ht⟩ := swf_cons.1 w
    have hl : lo < e.1 := by simpa [sabove] using h
    intro x hx
    rcases List.mem_cons.1 hx with rfl | hx
    · exact hl
    · exact ih ht (sabove_mono (Nat.le_of_lt hl) hk) x hx

theorem sabove_of_mem {α : Type} {lo : Nat} {m : List (Nat × α)} (h : ∀ e ∈ m, lo < e.1) : sabove lo m = true := by
  cases m with
  | nil => rfl
  | cons e t => simpa [sabove] using h e (List.mem_cons_self ..)

theorem mem_sput {α : Type} {m : List (Nat × α)} {i : Nat} {v : α} {e : Nat × α} (h : e ∈ sput i v m) :
    e = (i, v) ∨ e ∈ m := by
  induction m with
  | nil => simpa [sput] using h
  | cons x t ih =>
    obtain ⟨k, w⟩ := x
    simp only [sput] at h
    split at h
    · simpa using h
    · split at h
      · rcases List.mem_cons.1 h with h | h
        · exact .inl h
        · exact .inr (List.mem_cons_of_mem _ h)
      · rcases List.mem_cons.1 h with h | h
        · exact .inr (h ▸ List.mem_cons_self ..)
        · rcases ih h with h | h
          · exact .inl h
          · exact .inr (List.mem_cons_of_mem _ h)

theorem mem_sset {α : Type} [DecidableEq α] {d : Nat → α} {m : List (Nat × α)} {i : Nat} {v : α} {e : Nat × α}
    (h : e ∈ sset d m i v) : e = (i, v) ∨ e ∈ m := by
  unfold sset at h
  split at h
  · exact .inr (List.mem_of_mem_filter h)
  · exact mem_sput h

theorem swf_filter {α : Type} [DecidableEq α] {d : Nat → α} {m : List (Nat × α)} (w : swf d m = true) (p : Nat × α → Bool) :
    swf d (m.filter p) = true := by
  induction m with
  | nil => rfl
  | cons x t ih =>
    obtain ⟨k, u⟩ := x
    obtain ⟨hu, hk, ht⟩ := swf_cons.1 w
    rw [List.filter_cons]
    split
    · refine swf_cons.2 ⟨hu, sabove_of_mem fun e he => ?_, ih ht⟩
      exact sabove_mem ht hk e (List.mem_of_mem_filter he)
    · exact ih ht

theorem swf_sput {α : Type} [DecidableEq α] {d : Nat → α} {m : List (Nat × α)} (w : swf d m = true) (i : Nat) {v : α}
    (hv : v ≠ d i) : swf d (sput i v m) = true := by
  induction m with
  | nil => simp [sput, swf, sabove, hv]
  | cons x t ih =>
    obtain ⟨k, u⟩ := x
    obtain ⟨hu, hk, ht⟩ := swf_cons.1 w
    simp only [sput]
    split
    · rename_i hik
      exact swf_cons.2 ⟨hv, by simpa [sabove] using hik, w⟩
    · split
      · rename_i hik
        subst hik
        exact swf_cons.2 ⟨hv, hk, ht⟩
      · refine swf_cons.2 ⟨hu, sabove_of_mem ?_, ih ht⟩
        intro e he
        rcases mem_sput he with rfl | he
        · show k < i; omega
        · exact sabove_mem ht hk e he

/-- Writing keeps the canonical form. -/
theorem swf_sset {α : Type} [DecidableEq α] {d : Nat → α} {m : List (Nat × α)} (w : swf d m = true) (i : Nat) (v : α) :
    swf d (sset d m i v) = true := by
  unfold sset
  split
  · exact swf_filter w _
  · exact swf_sput w i (by assumption)

theorem swf_smod {α : Type} [DecidableEq α] {d : Nat → α} {m : List (Nat × α)} (w : swf d m = true) (i : Nat) (f : α → α) :
    swf d (smod d m i f) = true := swf_sset w i _

theorem swf_serase {α : Type} [DecidableEq α] {d : Nat → α} {m : List (Nat × α)} (w : swf d m = true) (lo hi : Nat) :
    swf d (serase lo hi m) = true := swf_filter w _

theorem swf_ssetRun {α : Type} [DecidableEq α] {d : Nat → α} {m : List (Nat × α)} (w : swf d m = true) (lo : Nat)
    (vs : List α) : swf d (ssetRun d m lo vs) = true := by
  induction vs generalizing m lo with
  | nil => exact w
  | cons v vs ih => exact ih (swf_sset w lo v) _

theorem swf_foldl_sset {α β : Type} [DecidableEq α] {d : Nat → α} (l : List β) (k : β → Nat) (v : β → α)
    {m : List (Nat × α)} (w : swf d m = true) : swf d (l.foldl (fun m x => sset d m (k x) (v x)) m) = true := by
  induction l generalizing m with
  | nil => exact w
  | cons x l ih => exact ih (swf_sset w _ _)

theorem sget_filter {α : Type} {d : Nat → α} {m : List (Nat × α)} {p : Nat × α → Bool} {j : Nat}
    (h : ∀ v, p (j, v) = true) : sget d (m.filter p) j = sget d m j := by
  induction m with
  | nil => rfl
  | cons x t ih =>
    obtain ⟨k, u⟩ := x
    rw [List.filter_cons]
    by_cases e : j = k
    · subst e; simp [h, sget]
    · split <;> simp [sget, e, ih]

theorem sget_filter_none {α : Type} {d : Nat → α} {m : List (Nat × α)} {p : Nat × α → Bool} {j : Nat}
    (h : ∀ v, p (j, v) = false) : sget d (m.filter p) j = d j := by
  induction m with
  | nil => rfl
  | cons x t ih =>
    obtain ⟨k, u⟩ := x
    rw [List.filter_cons]
    by_cases e : j = k
    · subst e; simp [h, ih]
    · split <;> simp [sget, e, ih]

theorem sget_sput {α : Type} {d : Nat → α} {m : List (Nat × α)} (i j : Nat) (v : α) :
    sget d (sput i v m) j = if j = i then v else sget d m j := by
  induction m with
  | nil => simp [sput, sget]
  | cons x t ih =>
    obtain ⟨k, u⟩ := x
    simp only [sput]
    split
    · simp [sget]
    · split
      · rename_i h
        subst h
        by_cases e : j = i <;> simp [sget, e]
      · rename_i h
        by_cases e : j = k
        · subst e; simp [sget, Ne.symm h]
        · simp [sget, e, ih]

/-- Reading after a write: the written key gives the value written, every other key what it gave before. -/
theorem sget_sset {α : Type} [DecidableEq α] {d : Nat → α} {m : List (Nat × α)} (i j : Nat) (v : α) :
    sget d (sset d m i v) j = if j = i then v else sget d m j := by
  unfold sset
  split
  · rename_i h
    by_cases e : j = i
    · subst e; rw [if_pos rfl, h]; exact sget_filter_none (by simp)
    · rw [if_neg e]; exact sget_filter (by simp [e])
  · exact sget_sput i j v

@[simp] theorem sget_sset_self {α : Type} [DecidableEq α] {d : Nat → α} {m : List (Nat × α)} (i : Nat) (v : α) :
    sget d (sset d m i v) i = v := by simp [sget_sset]

theorem sget_sset_ne {α : Type} [DecidableEq α] {d : Nat → α} {m : List (Nat × α)} (i j : Nat) (v : α) (h : j ≠ i) :
    sget d (sset d m i v) j = sget d m j := by simp [sget_sset, h]

theorem sget_smod {α : Type} [DecidableEq α] {d : Nat → α} {m : List (Nat × α)} (i j : Nat) (f : α → α) :
    sget d (smod d m i f) j = if j = i then f (sget d m i) else sget d m j := sget_sset i j _

@[simp] theorem sget_smod_self {α : Type} [DecidableEq α] {d : Nat → α} {m : List (Nat × α)} (i : Nat) (f : α → α) :
    sget d (smod d m i f) i = f (sget d m i) := by simp [sget_smod]

theorem sget_smod_ne {α : Type} [DecidableEq α] {d : Nat → α} {m : List (Nat × α)} (i j : Nat) (f : α → α) (h : j ≠ i) :
    sget d (smod d m i f) j = sget d m j := by simp [sget_smod, h]

/-- Reading after a run of writes. -/
theorem sget_ssetRun {α : Type} [DecidableEq α] {d : Nat → α} {m : List (Nat × α)} (lo j : Nat) (vs : List α) :
    sget d (ssetRun d m lo vs) j = if lo ≤ j then (vs[j - lo]?).getD (sget d m j) else sget d m j := by
  induction vs generalizing m lo with
  | nil => simp [ssetRun]
  | cons v vs ih =>
    rw [ssetRun, ih, sget_sset]
    by_cases h : lo + 1 ≤ j
    · rw [if_pos h, if_neg (by omega), if_pos (by omega)]
      have : j - lo = j - (lo + 1) + 1 := by omega
      rw [this, List.getElem?_cons_succ]
    · rw [if_neg h]
      by_cases e : j = lo
      · subst e; simp
      · rw [if_neg e, if_neg (by omega)]

/-- Reading after keys are erased. -/
theorem sget_serase {α : Type} {d : Nat → α} {m : List (Nat × α)} (lo hi j : Nat) :
    sget d (serase lo hi m) j = if lo ≤ j ∧ j < hi then d j else sget d m j := by
  unfold serase
  split
  · rename_i h
    exact sget_filter_none (by simp [h])
  · rename_i h
    refine sget_filter fun v => ?_
    by_cases a : lo ≤ j
    · have : ¬ j < hi := fun b => h ⟨a, b⟩
      simp [this]
    · simp [a]

theorem sget_of_sabove {α : Type} [DecidableEq α] {d : Nat → α} {m : List (Nat × α)} {i : Nat} (w : swf d m = true)
    (h : sabove i m = true) : sget d m i = d i := by
  induction m with
  | nil => rfl
  | cons x t ih =>
    obtain ⟨k, u⟩ := x
    obtain ⟨_, hk, ht⟩ := swf_cons.1 w
    have hik : i < k := by simpa [sabove] using h
    rw [sget, if_neg (by omega)]
    exact ih ht (sabove_mono (Nat.le_of_lt hik) hk)

/-- Maps that read alike and are canonical are equal. -/
theorem swf_ext {α : Type} [DecidableEq α] {d : Nat → α} {m n : List (Nat × α)} (hm : swf d m = true) (hn : swf d n = true)
    (h : ∀ i, sget d m i = sget d n i) : m = n := by
  induction m generalizing n with
  | nil =>
    cases n with
    | nil => rfl
    | cons y n =>
      obtain ⟨hu, _, _⟩ := swf_cons.1 hn
      have := h y.1
      simp [sget] at this
      exact absurd this.symm hu
  | cons x m ih =>
    obtain ⟨kx, vx⟩ := x
    obtain ⟨hx, hkx, htx⟩ := swf_cons.1 hm
    cases n with
    | nil =>
      have := h kx
      simp [sget] at this
      exact absurd this hx
    | cons y n =>
      obtain ⟨ky, vy⟩ := y
      obtain ⟨hy, hky, hty⟩ := swf_cons.1 hn
      have hxy : kx = ky := by
        rcases Nat.lt_trichotomy kx ky with l | e | l
        · have e := h kx
          rw [sget, if_pos rfl, sget, if_neg (by omega), sget_of_sabove hty (sabove_mono (Nat.le_of_lt l) hky)] at e
          exact absurd e hx
        · exact e
        · have e := h ky
          rw [sget, if_neg (by omega), sget, if_pos rfl, sget_of_sabove htx (sabove_mono (Nat.le_of_lt l) hkx)] at e
          exact absurd e.symm hy
      subst hxy
      have hv : vx = vy := by simpa [sget] using h kx
      subst hv
      congr 1
      refine ih htx hty fun i => ?_
      by_cases e : i = kx
      · rw [e, sget_of_sabove htx hkx, sget_of_sabove hty hky]
      · simpa [sget, e] using h i

end Sys2Proof.Machine
end

