-- ==== Sys2Proof/Laws/State.lean ====
section
/-! SUPPORT. What each named operation leaves unchanged: one lemma per field of the state, so that no later proof unfolds a
record update. -/

namespace Sys2Proof.Machine

open Sys2Proof

/-! `modRing` -/

@[simp] theorem modRing_pending (q : Nat) (f : RingSt → RingSt) (s : State) : (modRing q f s).pending = s.pending := rfl
@[simp] theorem modRing_free (q : Nat) (f : RingSt → RingSt) (s : State) : (modRing q f s).free = s.free := rfl
@[simp] theorem modRing_out (q : Nat) (f : RingSt → RingSt) (s : State) : (modRing q f s).out = s.out := rfl
@[simp] theorem modRing_regs (q : Nat) (f : RingSt → RingSt) (s : State) : (modRing q f s).regs = s.regs := rfl
@[simp] theorem modRing_fuses (q : Nat) (f : RingSt → RingSt) (s : State) : (modRing q f s).fuses = s.fuses := rfl
@[simp] theorem modRing_flash (q : Nat) (f : RingSt → RingSt) (s : State) : (modRing q f s).flash = s.flash := rfl
@[simp] theorem modRing_disabled (q : Nat) (f : RingSt → RingSt) (s : State) : (modRing q f s).disabled = s.disabled := rfl
@[simp] theorem modRing_renumbered (q : Nat) (f : RingSt → RingSt) (s : State) : (modRing q f s).renumbered = s.renumbered := rfl
@[simp] theorem modRing_pins (q : Nat) (f : RingSt → RingSt) (s : State) : (modRing q f s).pins = s.pins := rfl
@[simp] theorem modRing_boot (q : Nat) (f : RingSt → RingSt) (s : State) : (modRing q f s).boot = s.boot := rfl
@[simp] theorem modRing_dev (q : Nat) (f : RingSt → RingSt) (s : State) : (modRing q f s).dev = s.dev := rfl
@[simp] theorem modRing_cnt (q : Nat) (f : RingSt → RingSt) (s : State) : (modRing q f s).cnt = s.cnt := rfl
@[simp] theorem modRing_trace (q : Nat) (f : RingSt → RingSt) (s : State) : (modRing q f s).trace = s.trace := rfl
@[simp] theorem modRing_log (q : Nat) (f : RingSt → RingSt) (s : State) : (modRing q f s).log = s.log := rfl
@[simp] theorem modRing_mgmt (q : Nat) (f : RingSt → RingSt) (s : State) : (modRing q f s).mgmt = s.mgmt := rfl
@[simp] theorem modRing_stroke (q : Nat) (f : RingSt → RingSt) (s : State) : (modRing q f s).stroke = s.stroke := rfl
@[simp] theorem modRing_pkg (q : Nat) (f : RingSt → RingSt) (s : State) : (modRing q f s).pkg = s.pkg := rfl
@[simp] theorem modRing_sources (q : Nat) (f : RingSt → RingSt) (s : State) : (modRing q f s).sources = s.sources := rfl
@[simp] theorem modRing_captured (q : Nat) (f : RingSt → RingSt) (s : State) : (modRing q f s).captured = s.captured := rfl
@[simp] theorem modRing_mapBytes (q : Nat) (f : RingSt → RingSt) (s : State) : (modRing q f s).mapBytes = s.mapBytes := rfl
@[simp] theorem modRing_map (q : Nat) (f : RingSt → RingSt) (s : State) : (modRing q f s).map = s.map := rfl
@[simp] theorem modRing_plan (q : Nat) (f : RingSt → RingSt) (s : State) : (modRing q f s).plan = s.plan := rfl
@[simp] theorem modRing_failInputs (q : Nat) (f : RingSt → RingSt) (s : State) : (modRing q f s).failInputs = s.failInputs := rfl
@[simp] theorem modRing_run (q : Nat) (f : RingSt → RingSt) (s : State) : (modRing q f s).run = s.run := rfl
@[simp] theorem modRing_cox (q : Nat) (f : RingSt → RingSt) (s : State) : (modRing q f s).cox = s.cox := rfl
@[simp] theorem modRing_collectors (q : Nat) (f : RingSt → RingSt) (s : State) : (modRing q f s).collectors = s.collectors := rfl
@[simp] theorem modRing_adm (q : Nat) (f : RingSt → RingSt) (s : State) : (modRing q f s).adm = s.adm := rfl
@[simp] theorem modRing_cores (q : Nat) (f : RingSt → RingSt) (s : State) : (modRing q f s).cores = s.cores := rfl
@[simp] theorem modRing_mem (q : Nat) (f : RingSt → RingSt) (s : State) : (modRing q f s).mem = s.mem := rfl
@[simp] theorem modRing_stm (q : Nat) (f : RingSt → RingSt) (s : State) : (modRing q f s).stm = s.stm := rfl
@[simp] theorem modRing_link (q : Nat) (f : RingSt → RingSt) (s : State) : (modRing q f s).link = s.link := rfl
@[simp] theorem modRing_red (q : Nat) (f : RingSt → RingSt) (s : State) : (modRing q f s).red = s.red := rfl
@[simp] theorem modRing_res (q : Nat) (f : RingSt → RingSt) (s : State) : (modRing q f s).res = s.res := rfl
@[simp] theorem modRing_pwr (q : Nat) (f : RingSt → RingSt) (s : State) : (modRing q f s).pwr = s.pwr := rfl

/-! `modCore` -/

@[simp] theorem modCore_pending (c : Nat) (f : CoreSt → CoreSt) (s : State) : (modCore c f s).pending = s.pending := rfl
@[simp] theorem modCore_free (c : Nat) (f : CoreSt → CoreSt) (s : State) : (modCore c f s).free = s.free := rfl
@[simp] theorem modCore_out (c : Nat) (f : CoreSt → CoreSt) (s : State) : (modCore c f s).out = s.out := rfl
@[simp] theorem modCore_regs (c : Nat) (f : CoreSt → CoreSt) (s : State) : (modCore c f s).regs = s.regs := rfl
@[simp] theorem modCore_fuses (c : Nat) (f : CoreSt → CoreSt) (s : State) : (modCore c f s).fuses = s.fuses := rfl
@[simp] theorem modCore_flash (c : Nat) (f : CoreSt → CoreSt) (s : State) : (modCore c f s).flash = s.flash := rfl
@[simp] theorem modCore_disabled (c : Nat) (f : CoreSt → CoreSt) (s : State) : (modCore c f s).disabled = s.disabled := rfl
@[simp] theorem modCore_renumbered (c : Nat) (f : CoreSt → CoreSt) (s : State) : (modCore c f s).renumbered = s.renumbered := rfl
@[simp] theorem modCore_pins (c : Nat) (f : CoreSt → CoreSt) (s : State) : (modCore c f s).pins = s.pins := rfl
@[simp] theorem modCore_boot (c : Nat) (f : CoreSt → CoreSt) (s : State) : (modCore c f s).boot = s.boot := rfl
@[simp] theorem modCore_dev (c : Nat) (f : CoreSt → CoreSt) (s : State) : (modCore c f s).dev = s.dev := rfl
@[simp] theorem modCore_host (c : Nat) (f : CoreSt → CoreSt) (s : State) : (modCore c f s).host = s.host := rfl
@[simp] theorem modCore_cnt (c : Nat) (f : CoreSt → CoreSt) (s : State) : (modCore c f s).cnt = s.cnt := rfl
@[simp] theorem modCore_trace (c : Nat) (f : CoreSt → CoreSt) (s : State) : (modCore c f s).trace = s.trace := rfl
@[simp] theorem modCore_log (c : Nat) (f : CoreSt → CoreSt) (s : State) : (modCore c f s).log = s.log := rfl
@[simp] theorem modCore_mgmt (c : Nat) (f : CoreSt → CoreSt) (s : State) : (modCore c f s).mgmt = s.mgmt := rfl
@[simp] theorem modCore_stroke (c : Nat) (f : CoreSt → CoreSt) (s : State) : (modCore c f s).stroke = s.stroke := rfl
@[simp] theorem modCore_pkg (c : Nat) (f : CoreSt → CoreSt) (s : State) : (modCore c f s).pkg = s.pkg := rfl
@[simp] theorem modCore_sources (c : Nat) (f : CoreSt → CoreSt) (s : State) : (modCore c f s).sources = s.sources := rfl
@[simp] theorem modCore_captured (c : Nat) (f : CoreSt → CoreSt) (s : State) : (modCore c f s).captured = s.captured := rfl
@[simp] theorem modCore_mapBytes (c : Nat) (f : CoreSt → CoreSt) (s : State) : (modCore c f s).mapBytes = s.mapBytes := rfl
@[simp] theorem modCore_map (c : Nat) (f : CoreSt → CoreSt) (s : State) : (modCore c f s).map = s.map := rfl
@[simp] theorem modCore_plan (c : Nat) (f : CoreSt → CoreSt) (s : State) : (modCore c f s).plan = s.plan := rfl
@[simp] theorem modCore_failInputs (c : Nat) (f : CoreSt → CoreSt) (s : State) : (modCore c f s).failInputs = s.failInputs := rfl
@[simp] theorem modCore_run (c : Nat) (f : CoreSt → CoreSt) (s : State) : (modCore c f s).run = s.run := rfl
@[simp] theorem modCore_cox (c : Nat) (f : CoreSt → CoreSt) (s : State) : (modCore c f s).cox = s.cox := rfl
@[simp] theorem modCore_collectors (c : Nat) (f : CoreSt → CoreSt) (s : State) : (modCore c f s).collectors = s.collectors := rfl
@[simp] theorem modCore_adm (c : Nat) (f : CoreSt → CoreSt) (s : State) : (modCore c f s).adm = s.adm := rfl
@[simp] theorem modCore_mem (c : Nat) (f : CoreSt → CoreSt) (s : State) : (modCore c f s).mem = s.mem := rfl
@[simp] theorem modCore_stm (c : Nat) (f : CoreSt → CoreSt) (s : State) : (modCore c f s).stm = s.stm := rfl
@[simp] theorem modCore_link (c : Nat) (f : CoreSt → CoreSt) (s : State) : (modCore c f s).link = s.link := rfl
@[simp] theorem modCore_red (c : Nat) (f : CoreSt → CoreSt) (s : State) : (modCore c f s).red = s.red := rfl
@[simp] theorem modCore_res (c : Nat) (f : CoreSt → CoreSt) (s : State) : (modCore c f s).res = s.res := rfl
@[simp] theorem modCore_pwr (c : Nat) (f : CoreSt → CoreSt) (s : State) : (modCore c f s).pwr = s.pwr := rfl

/-! `modThread` -/

@[simp] theorem modThread_pending (c t : Nat) (f : Thread → Thread) (s : State) : (modThread c t f s).pending = s.pending := rfl
@[simp] theorem modThread_free (c t : Nat) (f : Thread → Thread) (s : State) : (modThread c t f s).free = s.free := rfl
@[simp] theorem modThread_out (c t : Nat) (f : Thread → Thread) (s : State) : (modThread c t f s).out = s.out := rfl
@[simp] theorem modThread_regs (c t : Nat) (f : Thread → Thread) (s : State) : (modThread c t f s).regs = s.regs := rfl
@[simp] theorem modThread_fuses (c t : Nat) (f : Thread → Thread) (s : State) : (modThread c t f s).fuses = s.fuses := rfl
@[simp] theorem modThread_flash (c t : Nat) (f : Thread → Thread) (s : State) : (modThread c t f s).flash = s.flash := rfl
@[simp] theorem modThread_disabled (c t : Nat) (f : Thread → Thread) (s : State) : (modThread c t f s).disabled = s.disabled := rfl
@[simp] theorem modThread_renumbered (c t : Nat) (f : Thread → Thread) (s : State) : (modThread c t f s).renumbered = s.renumbered := rfl
@[simp] theorem modThread_pins (c t : Nat) (f : Thread → Thread) (s : State) : (modThread c t f s).pins = s.pins := rfl
@[simp] theorem modThread_boot (c t : Nat) (f : Thread → Thread) (s : State) : (modThread c t f s).boot = s.boot := rfl
@[simp] theorem modThread_dev (c t : Nat) (f : Thread → Thread) (s : State) : (modThread c t f s).dev = s.dev := rfl
@[simp] theorem modThread_host (c t : Nat) (f : Thread → Thread) (s : State) : (modThread c t f s).host = s.host := rfl
@[simp] theorem modThread_cnt (c t : Nat) (f : Thread → Thread) (s : State) : (modThread c t f s).cnt = s.cnt := rfl
@[simp] theorem modThread_trace (c t : Nat) (f : Thread → Thread) (s : State) : (modThread c t f s).trace = s.trace := rfl
@[simp] theorem modThread_log (c t : Nat) (f : Thread → Thread) (s : State) : (modThread c t f s).log = s.log := rfl
@[simp] theorem modThread_mgmt (c t : Nat) (f : Thread → Thread) (s : State) : (modThread c t f s).mgmt = s.mgmt := rfl
@[simp] theorem modThread_stroke (c t : Nat) (f : Thread → Thread) (s : State) : (modThread c t f s).stroke = s.stroke := rfl
@[simp] theorem modThread_pkg (c t : Nat) (f : Thread → Thread) (s : State) : (modThread c t f s).pkg = s.pkg := rfl
@[simp] theorem modThread_sources (c t : Nat) (f : Thread → Thread) (s : State) : (modThread c t f s).sources = s.sources := rfl
@[simp] theorem modThread_captured (c t : Nat) (f : Thread → Thread) (s : State) : (modThread c t f s).captured = s.captured := rfl
@[simp] theorem modThread_mapBytes (c t : Nat) (f : Thread → Thread) (s : State) : (modThread c t f s).mapBytes = s.mapBytes := rfl
@[simp] theorem modThread_map (c t : Nat) (f : Thread → Thread) (s : State) : (modThread c t f s).map = s.map := rfl
@[simp] theorem modThread_plan (c t : Nat) (f : Thread → Thread) (s : State) : (modThread c t f s).plan = s.plan := rfl
@[simp] theorem modThread_failInputs (c t : Nat) (f : Thread → Thread) (s : State) : (modThread c t f s).failInputs = s.failInputs := rfl
@[simp] theorem modThread_run (c t : Nat) (f : Thread → Thread) (s : State) : (modThread c t f s).run = s.run := rfl
@[simp] theorem modThread_cox (c t : Nat) (f : Thread → Thread) (s : State) : (modThread c t f s).cox = s.cox := rfl
@[simp] theorem modThread_collectors (c t : Nat) (f : Thread → Thread) (s : State) : (modThread c t f s).collectors = s.collectors := rfl
@[simp] theorem modThread_adm (c t : Nat) (f : Thread → Thread) (s : State) : (modThread c t f s).adm = s.adm := rfl
@[simp] theorem modThread_mem (c t : Nat) (f : Thread → Thread) (s : State) : (modThread c t f s).mem = s.mem := rfl
@[simp] theorem modThread_stm (c t : Nat) (f : Thread → Thread) (s : State) : (modThread c t f s).stm = s.stm := rfl
@[simp] theorem modThread_link (c t : Nat) (f : Thread → Thread) (s : State) : (modThread c t f s).link = s.link := rfl
@[simp] theorem modThread_red (c t : Nat) (f : Thread → Thread) (s : State) : (modThread c t f s).red = s.red := rfl
@[simp] theorem modThread_res (c t : Nat) (f : Thread → Thread) (s : State) : (modThread c t f s).res = s.res := rfl
@[simp] theorem modThread_pwr (c t : Nat) (f : Thread → Thread) (s : State) : (modThread c t f s).pwr = s.pwr := rfl

/-! `modArr` -/

@[simp] theorem modArr_pending (c a : Nat) (f : ArrSt → ArrSt) (s : State) : (modArr c a f s).pending = s.pending := rfl
@[simp] theorem modArr_free (c a : Nat) (f : ArrSt → ArrSt) (s : State) : (modArr c a f s).free = s.free := rfl
@[simp] theorem modArr_out (c a : Nat) (f : ArrSt → ArrSt) (s : State) : (modArr c a f s).out = s.out := rfl
@[simp] theorem modArr_regs (c a : Nat) (f : ArrSt → ArrSt) (s : State) : (modArr c a f s).regs = s.regs := rfl
@[simp] theorem modArr_fuses (c a : Nat) (f : ArrSt → ArrSt) (s : State) : (modArr c a f s).fuses = s.fuses := rfl
@[simp] theorem modArr_flash (c a : Nat) (f : ArrSt → ArrSt) (s : State) : (modArr c a f s).flash = s.flash := rfl
@[simp] theorem modArr_disabled (c a : Nat) (f : ArrSt → ArrSt) (s : State) : (modArr c a f s).disabled = s.disabled := rfl
@[simp] theorem modArr_renumbered (c a : Nat) (f : ArrSt → ArrSt) (s : State) : (modArr c a f s).renumbered = s.renumbered := rfl
@[simp] theorem modArr_pins (c a : Nat) (f : ArrSt → ArrSt) (s : State) : (modArr c a f s).pins = s.pins := rfl
@[simp] theorem modArr_boot (c a : Nat) (f : ArrSt → ArrSt) (s : State) : (modArr c a f s).boot = s.boot := rfl
@[simp] theorem modArr_dev (c a : Nat) (f : ArrSt → ArrSt) (s : State) : (modArr c a f s).dev = s.dev := rfl
@[simp] theorem modArr_host (c a : Nat) (f : ArrSt → ArrSt) (s : State) : (modArr c a f s).host = s.host := rfl
@[simp] theorem modArr_cnt (c a : Nat) (f : ArrSt → ArrSt) (s : State) : (modArr c a f s).cnt = s.cnt := rfl
@[simp] theorem modArr_trace (c a : Nat) (f : ArrSt → ArrSt) (s : State) : (modArr c a f s).trace = s.trace := rfl
@[simp] theorem modArr_log (c a : Nat) (f : ArrSt → ArrSt) (s : State) : (modArr c a f s).log = s.log := rfl
@[simp] theorem modArr_mgmt (c a : Nat) (f : ArrSt → ArrSt) (s : State) : (modArr c a f s).mgmt = s.mgmt := rfl
@[simp] theorem modArr_stroke (c a : Nat) (f : ArrSt → ArrSt) (s : State) : (modArr c a f s).stroke = s.stroke := rfl
@[simp] theorem modArr_pkg (c a : Nat) (f : ArrSt → ArrSt) (s : State) : (modArr c a f s).pkg = s.pkg := rfl
@[simp] theorem modArr_sources (c a : Nat) (f : ArrSt → ArrSt) (s : State) : (modArr c a f s).sources = s.sources := rfl
@[simp] theorem modArr_captured (c a : Nat) (f : ArrSt → ArrSt) (s : State) : (modArr c a f s).captured = s.captured := rfl
@[simp] theorem modArr_mapBytes (c a : Nat) (f : ArrSt → ArrSt) (s : State) : (modArr c a f s).mapBytes = s.mapBytes := rfl
@[simp] theorem modArr_map (c a : Nat) (f : ArrSt → ArrSt) (s : State) : (modArr c a f s).map = s.map := rfl
@[simp] theorem modArr_plan (c a : Nat) (f : ArrSt → ArrSt) (s : State) : (modArr c a f s).plan = s.plan := rfl
@[simp] theorem modArr_failInputs (c a : Nat) (f : ArrSt → ArrSt) (s : State) : (modArr c a f s).failInputs = s.failInputs := rfl
@[simp] theorem modArr_run (c a : Nat) (f : ArrSt → ArrSt) (s : State) : (modArr c a f s).run = s.run := rfl
@[simp] theorem modArr_cox (c a : Nat) (f : ArrSt → ArrSt) (s : State) : (modArr c a f s).cox = s.cox := rfl
@[simp] theorem modArr_collectors (c a : Nat) (f : ArrSt → ArrSt) (s : State) : (modArr c a f s).collectors = s.collectors := rfl
@[simp] theorem modArr_adm (c a : Nat) (f : ArrSt → ArrSt) (s : State) : (modArr c a f s).adm = s.adm := rfl
@[simp] theorem modArr_mem (c a : Nat) (f : ArrSt → ArrSt) (s : State) : (modArr c a f s).mem = s.mem := rfl
@[simp] theorem modArr_stm (c a : Nat) (f : ArrSt → ArrSt) (s : State) : (modArr c a f s).stm = s.stm := rfl
@[simp] theorem modArr_link (c a : Nat) (f : ArrSt → ArrSt) (s : State) : (modArr c a f s).link = s.link := rfl
@[simp] theorem modArr_red (c a : Nat) (f : ArrSt → ArrSt) (s : State) : (modArr c a f s).red = s.red := rfl
@[simp] theorem modArr_res (c a : Nat) (f : ArrSt → ArrSt) (s : State) : (modArr c a f s).res = s.res := rfl
@[simp] theorem modArr_pwr (c a : Nat) (f : ArrSt → ArrSt) (s : State) : (modArr c a f s).pwr = s.pwr := rfl

/-! `modPort` -/

@[simp] theorem modPort_pending (p : Nat) (f : PortSt → PortSt) (s : State) : (modPort p f s).pending = s.pending := rfl
@[simp] theorem modPort_free (p : Nat) (f : PortSt → PortSt) (s : State) : (modPort p f s).free = s.free := rfl
@[simp] theorem modPort_out (p : Nat) (f : PortSt → PortSt) (s : State) : (modPort p f s).out = s.out := rfl
@[simp] theorem modPort_regs (p : Nat) (f : PortSt → PortSt) (s : State) : (modPort p f s).regs = s.regs := rfl
@[simp] theorem modPort_fuses (p : Nat) (f : PortSt → PortSt) (s : State) : (modPort p f s).fuses = s.fuses := rfl
@[simp] theorem modPort_flash (p : Nat) (f : PortSt → PortSt) (s : State) : (modPort p f s).flash = s.flash := rfl
@[simp] theorem modPort_disabled (p : Nat) (f : PortSt → PortSt) (s : State) : (modPort p f s).disabled = s.disabled := rfl
@[simp] theorem modPort_renumbered (p : Nat) (f : PortSt → PortSt) (s : State) : (modPort p f s).renumbered = s.renumbered := rfl
@[simp] theorem modPort_pins (p : Nat) (f : PortSt → PortSt) (s : State) : (modPort p f s).pins = s.pins := rfl
@[simp] theorem modPort_boot (p : Nat) (f : PortSt → PortSt) (s : State) : (modPort p f s).boot = s.boot := rfl
@[simp] theorem modPort_dev (p : Nat) (f : PortSt → PortSt) (s : State) : (modPort p f s).dev = s.dev := rfl
@[simp] theorem modPort_host (p : Nat) (f : PortSt → PortSt) (s : State) : (modPort p f s).host = s.host := rfl
@[simp] theorem modPort_cnt (p : Nat) (f : PortSt → PortSt) (s : State) : (modPort p f s).cnt = s.cnt := rfl
@[simp] theorem modPort_trace (p : Nat) (f : PortSt → PortSt) (s : State) : (modPort p f s).trace = s.trace := rfl
@[simp] theorem modPort_log (p : Nat) (f : PortSt → PortSt) (s : State) : (modPort p f s).log = s.log := rfl
@[simp] theorem modPort_mgmt (p : Nat) (f : PortSt → PortSt) (s : State) : (modPort p f s).mgmt = s.mgmt := rfl
@[simp] theorem modPort_stroke (p : Nat) (f : PortSt → PortSt) (s : State) : (modPort p f s).stroke = s.stroke := rfl
@[simp] theorem modPort_pkg (p : Nat) (f : PortSt → PortSt) (s : State) : (modPort p f s).pkg = s.pkg := rfl
@[simp] theorem modPort_sources (p : Nat) (f : PortSt → PortSt) (s : State) : (modPort p f s).sources = s.sources := rfl
@[simp] theorem modPort_captured (p : Nat) (f : PortSt → PortSt) (s : State) : (modPort p f s).captured = s.captured := rfl
@[simp] theorem modPort_mapBytes (p : Nat) (f : PortSt → PortSt) (s : State) : (modPort p f s).mapBytes = s.mapBytes := rfl
@[simp] theorem modPort_map (p : Nat) (f : PortSt → PortSt) (s : State) : (modPort p f s).map = s.map := rfl
@[simp] theorem modPort_plan (p : Nat) (f : PortSt → PortSt) (s : State) : (modPort p f s).plan = s.plan := rfl
@[simp] theorem modPort_failInputs (p : Nat) (f : PortSt → PortSt) (s : State) : (modPort p f s).failInputs = s.failInputs := rfl
@[simp] theorem modPort_run (p : Nat) (f : PortSt → PortSt) (s : State) : (modPort p f s).run = s.run := rfl
@[simp] theorem modPort_cox (p : Nat) (f : PortSt → PortSt) (s : State) : (modPort p f s).cox = s.cox := rfl
@[simp] theorem modPort_collectors (p : Nat) (f : PortSt → PortSt) (s : State) : (modPort p f s).collectors = s.collectors := rfl
@[simp] theorem modPort_adm (p : Nat) (f : PortSt → PortSt) (s : State) : (modPort p f s).adm = s.adm := rfl
@[simp] theorem modPort_cores (p : Nat) (f : PortSt → PortSt) (s : State) : (modPort p f s).cores = s.cores := rfl
@[simp] theorem modPort_mem (p : Nat) (f : PortSt → PortSt) (s : State) : (modPort p f s).mem = s.mem := rfl
@[simp] theorem modPort_stm (p : Nat) (f : PortSt → PortSt) (s : State) : (modPort p f s).stm = s.stm := rfl
@[simp] theorem modPort_red (p : Nat) (f : PortSt → PortSt) (s : State) : (modPort p f s).red = s.red := rfl
@[simp] theorem modPort_res (p : Nat) (f : PortSt → PortSt) (s : State) : (modPort p f s).res = s.res := rfl
@[simp] theorem modPort_pwr (p : Nat) (f : PortSt → PortSt) (s : State) : (modPort p f s).pwr = s.pwr := rfl

/-! `modSub` -/

@[simp] theorem modSub_pending (p b : Nat) (f : SubPort → SubPort) (s : State) : (modSub p b f s).pending = s.pending := rfl
@[simp] theorem modSub_free (p b : Nat) (f : SubPort → SubPort) (s : State) : (modSub p b f s).free = s.free := rfl
@[simp] theorem modSub_out (p b : Nat) (f : SubPort → SubPort) (s : State) : (modSub p b f s).out = s.out := rfl
@[simp] theorem modSub_regs (p b : Nat) (f : SubPort → SubPort) (s : State) : (modSub p b f s).regs = s.regs := rfl
@[simp] theorem modSub_fuses (p b : Nat) (f : SubPort → SubPort) (s : State) : (modSub p b f s).fuses = s.fuses := rfl
@[simp] theorem modSub_flash (p b : Nat) (f : SubPort → SubPort) (s : State) : (modSub p b f s).flash = s.flash := rfl
@[simp] theorem modSub_disabled (p b : Nat) (f : SubPort → SubPort) (s : State) : (modSub p b f s).disabled = s.disabled := rfl
@[simp] theorem modSub_renumbered (p b : Nat) (f : SubPort → SubPort) (s : State) : (modSub p b f s).renumbered = s.renumbered := rfl
@[simp] theorem modSub_pins (p b : Nat) (f : SubPort → SubPort) (s : State) : (modSub p b f s).pins = s.pins := rfl
@[simp] theorem modSub_boot (p b : Nat) (f : SubPort → SubPort) (s : State) : (modSub p b f s).boot = s.boot := rfl
@[simp] theorem modSub_dev (p b : Nat) (f : SubPort → SubPort) (s : State) : (modSub p b f s).dev = s.dev := rfl
@[simp] theorem modSub_host (p b : Nat) (f : SubPort → SubPort) (s : State) : (modSub p b f s).host = s.host := rfl
@[simp] theorem modSub_cnt (p b : Nat) (f : SubPort → SubPort) (s : State) : (modSub p b f s).cnt = s.cnt := rfl
@[simp] theorem modSub_trace (p b : Nat) (f : SubPort → SubPort) (s : State) : (modSub p b f s).trace = s.trace := rfl
@[simp] theorem modSub_log (p b : Nat) (f : SubPort → SubPort) (s : State) : (modSub p b f s).log = s.log := rfl
@[simp] theorem modSub_mgmt (p b : Nat) (f : SubPort → SubPort) (s : State) : (modSub p b f s).mgmt = s.mgmt := rfl
@[simp] theorem modSub_stroke (p b : Nat) (f : SubPort → SubPort) (s : State) : (modSub p b f s).stroke = s.stroke := rfl
@[simp] theorem modSub_pkg (p b : Nat) (f : SubPort → SubPort) (s : State) : (modSub p b f s).pkg = s.pkg := rfl
@[simp] theorem modSub_sources (p b : Nat) (f : SubPort → SubPort) (s : State) : (modSub p b f s).sources = s.sources := rfl
@[simp] theorem modSub_captured (p b : Nat) (f : SubPort → SubPort) (s : State) : (modSub p b f s).captured = s.captured := rfl
@[simp] theorem modSub_mapBytes (p b : Nat) (f : SubPort → SubPort) (s : State) : (modSub p b f s).mapBytes = s.mapBytes := rfl
@[simp] theorem modSub_map (p b : Nat) (f : SubPort → SubPort) (s : State) : (modSub p b f s).map = s.map := rfl
@[simp] theorem modSub_plan (p b : Nat) (f : SubPort → SubPort) (s : State) : (modSub p b f s).plan = s.plan := rfl
@[simp] theorem modSub_failInputs (p b : Nat) (f : SubPort → SubPort) (s : State) : (modSub p b f s).failInputs = s.failInputs := rfl
@[simp] theorem modSub_run (p b : Nat) (f : SubPort → SubPort) (s : State) : (modSub p b f s).run = s.run := rfl
@[simp] theorem modSub_cox (p b : Nat) (f : SubPort → SubPort) (s : State) : (modSub p b f s).cox = s.cox := rfl
@[simp] theorem modSub_collectors (p b : Nat) (f : SubPort → SubPort) (s : State) : (modSub p b f s).collectors = s.collectors := rfl
@[simp] theorem modSub_adm (p b : Nat) (f : SubPort → SubPort) (s : State) : (modSub p b f s).adm = s.adm := rfl
@[simp] theorem modSub_cores (p b : Nat) (f : SubPort → SubPort) (s : State) : (modSub p b f s).cores = s.cores := rfl
@[simp] theorem modSub_mem (p b : Nat) (f : SubPort → SubPort) (s : State) : (modSub p b f s).mem = s.mem := rfl
@[simp] theorem modSub_stm (p b : Nat) (f : SubPort → SubPort) (s : State) : (modSub p b f s).stm = s.stm := rfl
@[simp] theorem modSub_red (p b : Nat) (f : SubPort → SubPort) (s : State) : (modSub p b f s).red = s.red := rfl
@[simp] theorem modSub_res (p b : Nat) (f : SubPort → SubPort) (s : State) : (modSub p b f s).res = s.res := rfl
@[simp] theorem modSub_pwr (p b : Nat) (f : SubPort → SubPort) (s : State) : (modSub p b f s).pwr = s.pwr := rfl

/-! `modDesc` -/

@[simp] theorem modDesc_pending (d : Nat) (f : DescSt → DescSt) (s : State) : (modDesc d f s).pending = s.pending := rfl
@[simp] theorem modDesc_free (d : Nat) (f : DescSt → DescSt) (s : State) : (modDesc d f s).free = s.free := rfl
@[simp] theorem modDesc_out (d : Nat) (f : DescSt → DescSt) (s : State) : (modDesc d f s).out = s.out := rfl
@[simp] theorem modDesc_regs (d : Nat) (f : DescSt → DescSt) (s : State) : (modDesc d f s).regs = s.regs := rfl
@[simp] theorem modDesc_fuses (d : Nat) (f : DescSt → DescSt) (s : State) : (modDesc d f s).fuses = s.fuses := rfl
@[simp] theorem modDesc_flash (d : Nat) (f : DescSt → DescSt) (s : State) : (modDesc d f s).flash = s.flash := rfl
@[simp] theorem modDesc_disabled (d : Nat) (f : DescSt → DescSt) (s : State) : (modDesc d f s).disabled = s.disabled := rfl
@[simp] theorem modDesc_renumbered (d : Nat) (f : DescSt → DescSt) (s : State) : (modDesc d f s).renumbered = s.renumbered := rfl
@[simp] theorem modDesc_pins (d : Nat) (f : DescSt → DescSt) (s : State) : (modDesc d f s).pins = s.pins := rfl
@[simp] theorem modDesc_boot (d : Nat) (f : DescSt → DescSt) (s : State) : (modDesc d f s).boot = s.boot := rfl
@[simp] theorem modDesc_dev (d : Nat) (f : DescSt → DescSt) (s : State) : (modDesc d f s).dev = s.dev := rfl
@[simp] theorem modDesc_host (d : Nat) (f : DescSt → DescSt) (s : State) : (modDesc d f s).host = s.host := rfl
@[simp] theorem modDesc_cnt (d : Nat) (f : DescSt → DescSt) (s : State) : (modDesc d f s).cnt = s.cnt := rfl
@[simp] theorem modDesc_trace (d : Nat) (f : DescSt → DescSt) (s : State) : (modDesc d f s).trace = s.trace := rfl
@[simp] theorem modDesc_log (d : Nat) (f : DescSt → DescSt) (s : State) : (modDesc d f s).log = s.log := rfl
@[simp] theorem modDesc_mgmt (d : Nat) (f : DescSt → DescSt) (s : State) : (modDesc d f s).mgmt = s.mgmt := rfl
@[simp] theorem modDesc_stroke (d : Nat) (f : DescSt → DescSt) (s : State) : (modDesc d f s).stroke = s.stroke := rfl
@[simp] theorem modDesc_pkg (d : Nat) (f : DescSt → DescSt) (s : State) : (modDesc d f s).pkg = s.pkg := rfl
@[simp] theorem modDesc_sources (d : Nat) (f : DescSt → DescSt) (s : State) : (modDesc d f s).sources = s.sources := rfl
@[simp] theorem modDesc_captured (d : Nat) (f : DescSt → DescSt) (s : State) : (modDesc d f s).captured = s.captured := rfl
@[simp] theorem modDesc_mapBytes (d : Nat) (f : DescSt → DescSt) (s : State) : (modDesc d f s).mapBytes = s.mapBytes := rfl
@[simp] theorem modDesc_map (d : Nat) (f : DescSt → DescSt) (s : State) : (modDesc d f s).map = s.map := rfl
@[simp] theorem modDesc_plan (d : Nat) (f : DescSt → DescSt) (s : State) : (modDesc d f s).plan = s.plan := rfl
@[simp] theorem modDesc_failInputs (d : Nat) (f : DescSt → DescSt) (s : State) : (modDesc d f s).failInputs = s.failInputs := rfl
@[simp] theorem modDesc_run (d : Nat) (f : DescSt → DescSt) (s : State) : (modDesc d f s).run = s.run := rfl
@[simp] theorem modDesc_cox (d : Nat) (f : DescSt → DescSt) (s : State) : (modDesc d f s).cox = s.cox := rfl
@[simp] theorem modDesc_collectors (d : Nat) (f : DescSt → DescSt) (s : State) : (modDesc d f s).collectors = s.collectors := rfl
@[simp] theorem modDesc_adm (d : Nat) (f : DescSt → DescSt) (s : State) : (modDesc d f s).adm = s.adm := rfl
@[simp] theorem modDesc_cores (d : Nat) (f : DescSt → DescSt) (s : State) : (modDesc d f s).cores = s.cores := rfl
@[simp] theorem modDesc_mem (d : Nat) (f : DescSt → DescSt) (s : State) : (modDesc d f s).mem = s.mem := rfl
@[simp] theorem modDesc_link (d : Nat) (f : DescSt → DescSt) (s : State) : (modDesc d f s).link = s.link := rfl
@[simp] theorem modDesc_red (d : Nat) (f : DescSt → DescSt) (s : State) : (modDesc d f s).red = s.red := rfl
@[simp] theorem modDesc_res (d : Nat) (f : DescSt → DescSt) (s : State) : (modDesc d f s).res = s.res := rfl
@[simp] theorem modDesc_pwr (d : Nat) (f : DescSt → DescSt) (s : State) : (modDesc d f s).pwr = s.pwr := rfl

/-! `modCh` -/

@[simp] theorem modCh_pending (c : Nat) (f : ChSt → ChSt) (s : State) : (modCh c f s).pending = s.pending := rfl
@[simp] theorem modCh_free (c : Nat) (f : ChSt → ChSt) (s : State) : (modCh c f s).free = s.free := rfl
@[simp] theorem modCh_out (c : Nat) (f : ChSt → ChSt) (s : State) : (modCh c f s).out = s.out := rfl
@[simp] theorem modCh_regs (c : Nat) (f : ChSt → ChSt) (s : State) : (modCh c f s).regs = s.regs := rfl
@[simp] theorem modCh_fuses (c : Nat) (f : ChSt → ChSt) (s : State) : (modCh c f s).fuses = s.fuses := rfl
@[simp] theorem modCh_flash (c : Nat) (f : ChSt → ChSt) (s : State) : (modCh c f s).flash = s.flash := rfl
@[simp] theorem modCh_disabled (c : Nat) (f : ChSt → ChSt) (s : State) : (modCh c f s).disabled = s.disabled := rfl
@[simp] theorem modCh_renumbered (c : Nat) (f : ChSt → ChSt) (s : State) : (modCh c f s).renumbered = s.renumbered := rfl
@[simp] theorem modCh_pins (c : Nat) (f : ChSt → ChSt) (s : State) : (modCh c f s).pins = s.pins := rfl
@[simp] theorem modCh_boot (c : Nat) (f : ChSt → ChSt) (s : State) : (modCh c f s).boot = s.boot := rfl
@[simp] theorem modCh_dev (c : Nat) (f : ChSt → ChSt) (s : State) : (modCh c f s).dev = s.dev := rfl
@[simp] theorem modCh_host (c : Nat) (f : ChSt → ChSt) (s : State) : (modCh c f s).host = s.host := rfl
@[simp] theorem modCh_cnt (c : Nat) (f : ChSt → ChSt) (s : State) : (modCh c f s).cnt = s.cnt := rfl
@[simp] theorem modCh_trace (c : Nat) (f : ChSt → ChSt) (s : State) : (modCh c f s).trace = s.trace := rfl
@[simp] theorem modCh_log (c : Nat) (f : ChSt → ChSt) (s : State) : (modCh c f s).log = s.log := rfl
@[simp] theorem modCh_mgmt (c : Nat) (f : ChSt → ChSt) (s : State) : (modCh c f s).mgmt = s.mgmt := rfl
@[simp] theorem modCh_stroke (c : Nat) (f : ChSt → ChSt) (s : State) : (modCh c f s).stroke = s.stroke := rfl
@[simp] theorem modCh_pkg (c : Nat) (f : ChSt → ChSt) (s : State) : (modCh c f s).pkg = s.pkg := rfl
@[simp] theorem modCh_sources (c : Nat) (f : ChSt → ChSt) (s : State) : (modCh c f s).sources = s.sources := rfl
@[simp] theorem modCh_captured (c : Nat) (f : ChSt → ChSt) (s : State) : (modCh c f s).captured = s.captured := rfl
@[simp] theorem modCh_mapBytes (c : Nat) (f : ChSt → ChSt) (s : State) : (modCh c f s).mapBytes = s.mapBytes := rfl
@[simp] theorem modCh_map (c : Nat) (f : ChSt → ChSt) (s : State) : (modCh c f s).map = s.map := rfl
@[simp] theorem modCh_plan (c : Nat) (f : ChSt → ChSt) (s : State) : (modCh c f s).plan = s.plan := rfl
@[simp] theorem modCh_failInputs (c : Nat) (f : ChSt → ChSt) (s : State) : (modCh c f s).failInputs = s.failInputs := rfl
@[simp] theorem modCh_run (c : Nat) (f : ChSt → ChSt) (s : State) : (modCh c f s).run = s.run := rfl
@[simp] theorem modCh_cox (c : Nat) (f : ChSt → ChSt) (s : State) : (modCh c f s).cox = s.cox := rfl
@[simp] theorem modCh_collectors (c : Nat) (f : ChSt → ChSt) (s : State) : (modCh c f s).collectors = s.collectors := rfl
@[simp] theorem modCh_adm (c : Nat) (f : ChSt → ChSt) (s : State) : (modCh c f s).adm = s.adm := rfl
@[simp] theorem modCh_cores (c : Nat) (f : ChSt → ChSt) (s : State) : (modCh c f s).cores = s.cores := rfl
@[simp] theorem modCh_stm (c : Nat) (f : ChSt → ChSt) (s : State) : (modCh c f s).stm = s.stm := rfl
@[simp] theorem modCh_link (c : Nat) (f : ChSt → ChSt) (s : State) : (modCh c f s).link = s.link := rfl
@[simp] theorem modCh_red (c : Nat) (f : ChSt → ChSt) (s : State) : (modCh c f s).red = s.red := rfl
@[simp] theorem modCh_res (c : Nat) (f : ChSt → ChSt) (s : State) : (modCh c f s).res = s.res := rfl
@[simp] theorem modCh_pwr (c : Nat) (f : ChSt → ChSt) (s : State) : (modCh c f s).pwr = s.pwr := rfl

/-! `modPart` -/

@[simp] theorem modPart_pending (n : Nat) (f : PartSt → PartSt) (s : State) : (modPart n f s).pending = s.pending := rfl
@[simp] theorem modPart_free (n : Nat) (f : PartSt → PartSt) (s : State) : (modPart n f s).free = s.free := rfl
@[simp] theorem modPart_out (n : Nat) (f : PartSt → PartSt) (s : State) : (modPart n f s).out = s.out := rfl
@[simp] theorem modPart_regs (n : Nat) (f : PartSt → PartSt) (s : State) : (modPart n f s).regs = s.regs := rfl
@[simp] theorem modPart_fuses (n : Nat) (f : PartSt → PartSt) (s : State) : (modPart n f s).fuses = s.fuses := rfl
@[simp] theorem modPart_flash (n : Nat) (f : PartSt → PartSt) (s : State) : (modPart n f s).flash = s.flash := rfl
@[simp] theorem modPart_disabled (n : Nat) (f : PartSt → PartSt) (s : State) : (modPart n f s).disabled = s.disabled := rfl
@[simp] theorem modPart_renumbered (n : Nat) (f : PartSt → PartSt) (s : State) : (modPart n f s).renumbered = s.renumbered := rfl
@[simp] theorem modPart_pins (n : Nat) (f : PartSt → PartSt) (s : State) : (modPart n f s).pins = s.pins := rfl
@[simp] theorem modPart_boot (n : Nat) (f : PartSt → PartSt) (s : State) : (modPart n f s).boot = s.boot := rfl
@[simp] theorem modPart_dev (n : Nat) (f : PartSt → PartSt) (s : State) : (modPart n f s).dev = s.dev := rfl
@[simp] theorem modPart_host (n : Nat) (f : PartSt → PartSt) (s : State) : (modPart n f s).host = s.host := rfl
@[simp] theorem modPart_cnt (n : Nat) (f : PartSt → PartSt) (s : State) : (modPart n f s).cnt = s.cnt := rfl
@[simp] theorem modPart_trace (n : Nat) (f : PartSt → PartSt) (s : State) : (modPart n f s).trace = s.trace := rfl
@[simp] theorem modPart_log (n : Nat) (f : PartSt → PartSt) (s : State) : (modPart n f s).log = s.log := rfl
@[simp] theorem modPart_mgmt (n : Nat) (f : PartSt → PartSt) (s : State) : (modPart n f s).mgmt = s.mgmt := rfl
@[simp] theorem modPart_stroke (n : Nat) (f : PartSt → PartSt) (s : State) : (modPart n f s).stroke = s.stroke := rfl
@[simp] theorem modPart_pkg (n : Nat) (f : PartSt → PartSt) (s : State) : (modPart n f s).pkg = s.pkg := rfl
@[simp] theorem modPart_sources (n : Nat) (f : PartSt → PartSt) (s : State) : (modPart n f s).sources = s.sources := rfl
@[simp] theorem modPart_captured (n : Nat) (f : PartSt → PartSt) (s : State) : (modPart n f s).captured = s.captured := rfl
@[simp] theorem modPart_mapBytes (n : Nat) (f : PartSt → PartSt) (s : State) : (modPart n f s).mapBytes = s.mapBytes := rfl
@[simp] theorem modPart_map (n : Nat) (f : PartSt → PartSt) (s : State) : (modPart n f s).map = s.map := rfl
@[simp] theorem modPart_plan (n : Nat) (f : PartSt → PartSt) (s : State) : (modPart n f s).plan = s.plan := rfl
@[simp] theorem modPart_failInputs (n : Nat) (f : PartSt → PartSt) (s : State) : (modPart n f s).failInputs = s.failInputs := rfl
@[simp] theorem modPart_run (n : Nat) (f : PartSt → PartSt) (s : State) : (modPart n f s).run = s.run := rfl
@[simp] theorem modPart_cox (n : Nat) (f : PartSt → PartSt) (s : State) : (modPart n f s).cox = s.cox := rfl
@[simp] theorem modPart_collectors (n : Nat) (f : PartSt → PartSt) (s : State) : (modPart n f s).collectors = s.collectors := rfl
@[simp] theorem modPart_adm (n : Nat) (f : PartSt → PartSt) (s : State) : (modPart n f s).adm = s.adm := rfl
@[simp] theorem modPart_cores (n : Nat) (f : PartSt → PartSt) (s : State) : (modPart n f s).cores = s.cores := rfl
@[simp] theorem modPart_stm (n : Nat) (f : PartSt → PartSt) (s : State) : (modPart n f s).stm = s.stm := rfl
@[simp] theorem modPart_link (n : Nat) (f : PartSt → PartSt) (s : State) : (modPart n f s).link = s.link := rfl
@[simp] theorem modPart_red (n : Nat) (f : PartSt → PartSt) (s : State) : (modPart n f s).red = s.red := rfl
@[simp] theorem modPart_res (n : Nat) (f : PartSt → PartSt) (s : State) : (modPart n f s).res = s.res := rfl
@[simp] theorem modPart_pwr (n : Nat) (f : PartSt → PartSt) (s : State) : (modPart n f s).pwr = s.pwr := rfl

/-! `addMark` -/

@[simp] theorem addMark_pending (m n : Nat) (s : State) : (addMark m n s).pending = s.pending := rfl
@[simp] theorem addMark_free (m n : Nat) (s : State) : (addMark m n s).free = s.free := rfl
@[simp] theorem addMark_out (m n : Nat) (s : State) : (addMark m n s).out = s.out := rfl
@[simp] theorem addMark_regs (m n : Nat) (s : State) : (addMark m n s).regs = s.regs := rfl
@[simp] theorem addMark_fuses (m n : Nat) (s : State) : (addMark m n s).fuses = s.fuses := rfl
@[simp] theorem addMark_flash (m n : Nat) (s : State) : (addMark m n s).flash = s.flash := rfl
@[simp] theorem addMark_disabled (m n : Nat) (s : State) : (addMark m n s).disabled = s.disabled := rfl
@[simp] theorem addMark_renumbered (m n : Nat) (s : State) : (addMark m n s).renumbered = s.renumbered := rfl
@[simp] theorem addMark_pins (m n : Nat) (s : State) : (addMark m n s).pins = s.pins := rfl
@[simp] theorem addMark_boot (m n : Nat) (s : State) : (addMark m n s).boot = s.boot := rfl
@[simp] theorem addMark_dev (m n : Nat) (s : State) : (addMark m n s).dev = s.dev := rfl
@[simp] theorem addMark_host (m n : Nat) (s : State) : (addMark m n s).host = s.host := rfl
@[simp] theorem addMark_cnt (m n : Nat) (s : State) : (addMark m n s).cnt = s.cnt := rfl
@[simp] theorem addMark_trace (m n : Nat) (s : State) : (addMark m n s).trace = s.trace := rfl
@[simp] theorem addMark_log (m n : Nat) (s : State) : (addMark m n s).log = s.log := rfl
@[simp] theorem addMark_mgmt (m n : Nat) (s : State) : (addMark m n s).mgmt = s.mgmt := rfl
@[simp] theorem addMark_stroke (m n : Nat) (s : State) : (addMark m n s).stroke = s.stroke := rfl
@[simp] theorem addMark_pkg (m n : Nat) (s : State) : (addMark m n s).pkg = s.pkg := rfl
@[simp] theorem addMark_sources (m n : Nat) (s : State) : (addMark m n s).sources = s.sources := rfl
@[simp] theorem addMark_captured (m n : Nat) (s : State) : (addMark m n s).captured = s.captured := rfl
@[simp] theorem addMark_mapBytes (m n : Nat) (s : State) : (addMark m n s).mapBytes = s.mapBytes := rfl
@[simp] theorem addMark_map (m n : Nat) (s : State) : (addMark m n s).map = s.map := rfl
@[simp] theorem addMark_plan (m n : Nat) (s : State) : (addMark m n s).plan = s.plan := rfl
@[simp] theorem addMark_failInputs (m n : Nat) (s : State) : (addMark m n s).failInputs = s.failInputs := rfl
@[simp] theorem addMark_run (m n : Nat) (s : State) : (addMark m n s).run = s.run := rfl
@[simp] theorem addMark_cox (m n : Nat) (s : State) : (addMark m n s).cox = s.cox := rfl
@[simp] theorem addMark_collectors (m n : Nat) (s : State) : (addMark m n s).collectors = s.collectors := rfl
@[simp] theorem addMark_adm (m n : Nat) (s : State) : (addMark m n s).adm = s.adm := rfl
@[simp] theorem addMark_cores (m n : Nat) (s : State) : (addMark m n s).cores = s.cores := rfl
@[simp] theorem addMark_mem (m n : Nat) (s : State) : (addMark m n s).mem = s.mem := rfl
@[simp] theorem addMark_link (m n : Nat) (s : State) : (addMark m n s).link = s.link := rfl
@[simp] theorem addMark_red (m n : Nat) (s : State) : (addMark m n s).red = s.red := rfl
@[simp] theorem addMark_res (m n : Nat) (s : State) : (addMark m n s).res = s.res := rfl
@[simp] theorem addMark_pwr (m n : Nat) (s : State) : (addMark m n s).pwr = s.pwr := rfl

/-! `modAvs` -/

@[simp] theorem modAvs_pending (i : Nat) (f : RailAvs → RailAvs) (s : State) : (modAvs i f s).pending = s.pending := rfl
@[simp] theorem modAvs_free (i : Nat) (f : RailAvs → RailAvs) (s : State) : (modAvs i f s).free = s.free := rfl
@[simp] theorem modAvs_out (i : Nat) (f : RailAvs → RailAvs) (s : State) : (modAvs i f s).out = s.out := rfl
@[simp] theorem modAvs_regs (i : Nat) (f : RailAvs → RailAvs) (s : State) : (modAvs i f s).regs = s.regs := rfl
@[simp] theorem modAvs_fuses (i : Nat) (f : RailAvs → RailAvs) (s : State) : (modAvs i f s).fuses = s.fuses := rfl
@[simp] theorem modAvs_flash (i : Nat) (f : RailAvs → RailAvs) (s : State) : (modAvs i f s).flash = s.flash := rfl
@[simp] theorem modAvs_disabled (i : Nat) (f : RailAvs → RailAvs) (s : State) : (modAvs i f s).disabled = s.disabled := rfl
@[simp] theorem modAvs_renumbered (i : Nat) (f : RailAvs → RailAvs) (s : State) : (modAvs i f s).renumbered = s.renumbered := rfl
@[simp] theorem modAvs_pins (i : Nat) (f : RailAvs → RailAvs) (s : State) : (modAvs i f s).pins = s.pins := rfl
@[simp] theorem modAvs_boot (i : Nat) (f : RailAvs → RailAvs) (s : State) : (modAvs i f s).boot = s.boot := rfl
@[simp] theorem modAvs_dev (i : Nat) (f : RailAvs → RailAvs) (s : State) : (modAvs i f s).dev = s.dev := rfl
@[simp] theorem modAvs_host (i : Nat) (f : RailAvs → RailAvs) (s : State) : (modAvs i f s).host = s.host := rfl
@[simp] theorem modAvs_cnt (i : Nat) (f : RailAvs → RailAvs) (s : State) : (modAvs i f s).cnt = s.cnt := rfl
@[simp] theorem modAvs_trace (i : Nat) (f : RailAvs → RailAvs) (s : State) : (modAvs i f s).trace = s.trace := rfl
@[simp] theorem modAvs_log (i : Nat) (f : RailAvs → RailAvs) (s : State) : (modAvs i f s).log = s.log := rfl
@[simp] theorem modAvs_mgmt (i : Nat) (f : RailAvs → RailAvs) (s : State) : (modAvs i f s).mgmt = s.mgmt := rfl
@[simp] theorem modAvs_stroke (i : Nat) (f : RailAvs → RailAvs) (s : State) : (modAvs i f s).stroke = s.stroke := rfl
@[simp] theorem modAvs_pkg (i : Nat) (f : RailAvs → RailAvs) (s : State) : (modAvs i f s).pkg = s.pkg := rfl
@[simp] theorem modAvs_sources (i : Nat) (f : RailAvs → RailAvs) (s : State) : (modAvs i f s).sources = s.sources := rfl
@[simp] theorem modAvs_captured (i : Nat) (f : RailAvs → RailAvs) (s : State) : (modAvs i f s).captured = s.captured := rfl
@[simp] theorem modAvs_mapBytes (i : Nat) (f : RailAvs → RailAvs) (s : State) : (modAvs i f s).mapBytes = s.mapBytes := rfl
@[simp] theorem modAvs_map (i : Nat) (f : RailAvs → RailAvs) (s : State) : (modAvs i f s).map = s.map := rfl
@[simp] theorem modAvs_plan (i : Nat) (f : RailAvs → RailAvs) (s : State) : (modAvs i f s).plan = s.plan := rfl
@[simp] theorem modAvs_failInputs (i : Nat) (f : RailAvs → RailAvs) (s : State) : (modAvs i f s).failInputs = s.failInputs := rfl
@[simp] theorem modAvs_run (i : Nat) (f : RailAvs → RailAvs) (s : State) : (modAvs i f s).run = s.run := rfl
@[simp] theorem modAvs_cox (i : Nat) (f : RailAvs → RailAvs) (s : State) : (modAvs i f s).cox = s.cox := rfl
@[simp] theorem modAvs_collectors (i : Nat) (f : RailAvs → RailAvs) (s : State) : (modAvs i f s).collectors = s.collectors := rfl
@[simp] theorem modAvs_adm (i : Nat) (f : RailAvs → RailAvs) (s : State) : (modAvs i f s).adm = s.adm := rfl
@[simp] theorem modAvs_cores (i : Nat) (f : RailAvs → RailAvs) (s : State) : (modAvs i f s).cores = s.cores := rfl
@[simp] theorem modAvs_mem (i : Nat) (f : RailAvs → RailAvs) (s : State) : (modAvs i f s).mem = s.mem := rfl
@[simp] theorem modAvs_stm (i : Nat) (f : RailAvs → RailAvs) (s : State) : (modAvs i f s).stm = s.stm := rfl
@[simp] theorem modAvs_link (i : Nat) (f : RailAvs → RailAvs) (s : State) : (modAvs i f s).link = s.link := rfl
@[simp] theorem modAvs_red (i : Nat) (f : RailAvs → RailAvs) (s : State) : (modAvs i f s).red = s.red := rfl
@[simp] theorem modAvs_res (i : Nat) (f : RailAvs → RailAvs) (s : State) : (modAvs i f s).res = s.res := rfl

/-! `setGroup` -/

@[simp] theorem setGroup_pending (g : Nat) (p : PowerState) (s : State) : (setGroup g p s).pending = s.pending := rfl
@[simp] theorem setGroup_free (g : Nat) (p : PowerState) (s : State) : (setGroup g p s).free = s.free := rfl
@[simp] theorem setGroup_out (g : Nat) (p : PowerState) (s : State) : (setGroup g p s).out = s.out := rfl
@[simp] theorem setGroup_regs (g : Nat) (p : PowerState) (s : State) : (setGroup g p s).regs = s.regs := rfl
@[simp] theorem setGroup_fuses (g : Nat) (p : PowerState) (s : State) : (setGroup g p s).fuses = s.fuses := rfl
@[simp] theorem setGroup_flash (g : Nat) (p : PowerState) (s : State) : (setGroup g p s).flash = s.flash := rfl
@[simp] theorem setGroup_disabled (g : Nat) (p : PowerState) (s : State) : (setGroup g p s).disabled = s.disabled := rfl
@[simp] theorem setGroup_renumbered (g : Nat) (p : PowerState) (s : State) : (setGroup g p s).renumbered = s.renumbered := rfl
@[simp] theorem setGroup_pins (g : Nat) (p : PowerState) (s : State) : (setGroup g p s).pins = s.pins := rfl
@[simp] theorem setGroup_boot (g : Nat) (p : PowerState) (s : State) : (setGroup g p s).boot = s.boot := rfl
@[simp] theorem setGroup_dev (g : Nat) (p : PowerState) (s : State) : (setGroup g p s).dev = s.dev := rfl
@[simp] theorem setGroup_host (g : Nat) (p : PowerState) (s : State) : (setGroup g p s).host = s.host := rfl
@[simp] theorem setGroup_cnt (g : Nat) (p : PowerState) (s : State) : (setGroup g p s).cnt = s.cnt := rfl
@[simp] theorem setGroup_trace (g : Nat) (p : PowerState) (s : State) : (setGroup g p s).trace = s.trace := rfl
@[simp] theorem setGroup_log (g : Nat) (p : PowerState) (s : State) : (setGroup g p s).log = s.log := rfl
@[simp] theorem setGroup_mgmt (g : Nat) (p : PowerState) (s : State) : (setGroup g p s).mgmt = s.mgmt := rfl
@[simp] theorem setGroup_stroke (g : Nat) (p : PowerState) (s : State) : (setGroup g p s).stroke = s.stroke := rfl
@[simp] theorem setGroup_pkg (g : Nat) (p : PowerState) (s : State) : (setGroup g p s).pkg = s.pkg := rfl
@[simp] theorem setGroup_sources (g : Nat) (p : PowerState) (s : State) : (setGroup g p s).sources = s.sources := rfl
@[simp] theorem setGroup_captured (g : Nat) (p : PowerState) (s : State) : (setGroup g p s).captured = s.captured := rfl
@[simp] theorem setGroup_mapBytes (g : Nat) (p : PowerState) (s : State) : (setGroup g p s).mapBytes = s.mapBytes := rfl
@[simp] theorem setGroup_map (g : Nat) (p : PowerState) (s : State) : (setGroup g p s).map = s.map := rfl
@[simp] theorem setGroup_plan (g : Nat) (p : PowerState) (s : State) : (setGroup g p s).plan = s.plan := rfl
@[simp] theorem setGroup_failInputs (g : Nat) (p : PowerState) (s : State) : (setGroup g p s).failInputs = s.failInputs := rfl
@[simp] theorem setGroup_run (g : Nat) (p : PowerState) (s : State) : (setGroup g p s).run = s.run := rfl
@[simp] theorem setGroup_cox (g : Nat) (p : PowerState) (s : State) : (setGroup g p s).cox = s.cox := rfl
@[simp] theorem setGroup_collectors (g : Nat) (p : PowerState) (s : State) : (setGroup g p s).collectors = s.collectors := rfl
@[simp] theorem setGroup_adm (g : Nat) (p : PowerState) (s : State) : (setGroup g p s).adm = s.adm := rfl
@[simp] theorem setGroup_cores (g : Nat) (p : PowerState) (s : State) : (setGroup g p s).cores = s.cores := rfl
@[simp] theorem setGroup_mem (g : Nat) (p : PowerState) (s : State) : (setGroup g p s).mem = s.mem := rfl
@[simp] theorem setGroup_stm (g : Nat) (p : PowerState) (s : State) : (setGroup g p s).stm = s.stm := rfl
@[simp] theorem setGroup_link (g : Nat) (p : PowerState) (s : State) : (setGroup g p s).link = s.link := rfl
@[simp] theorem setGroup_red (g : Nat) (p : PowerState) (s : State) : (setGroup g p s).red = s.red := rfl
@[simp] theorem setGroup_res (g : Nat) (p : PowerState) (s : State) : (setGroup g p s).res = s.res := rfl

/-! `modSource` -/

@[simp] theorem modSource_pending (i : Nat) (f : Source → Source) (s : State) : (modSource i f s).pending = s.pending := rfl
@[simp] theorem modSource_free (i : Nat) (f : Source → Source) (s : State) : (modSource i f s).free = s.free := rfl
@[simp] theorem modSource_out (i : Nat) (f : Source → Source) (s : State) : (modSource i f s).out = s.out := rfl
@[simp] theorem modSource_regs (i : Nat) (f : Source → Source) (s : State) : (modSource i f s).regs = s.regs := rfl
@[simp] theorem modSource_fuses (i : Nat) (f : Source → Source) (s : State) : (modSource i f s).fuses = s.fuses := rfl
@[simp] theorem modSource_flash (i : Nat) (f : Source → Source) (s : State) : (modSource i f s).flash = s.flash := rfl
@[simp] theorem modSource_disabled (i : Nat) (f : Source → Source) (s : State) : (modSource i f s).disabled = s.disabled := rfl
@[simp] theorem modSource_renumbered (i : Nat) (f : Source → Source) (s : State) : (modSource i f s).renumbered = s.renumbered := rfl
@[simp] theorem modSource_pins (i : Nat) (f : Source → Source) (s : State) : (modSource i f s).pins = s.pins := rfl
@[simp] theorem modSource_boot (i : Nat) (f : Source → Source) (s : State) : (modSource i f s).boot = s.boot := rfl
@[simp] theorem modSource_dev (i : Nat) (f : Source → Source) (s : State) : (modSource i f s).dev = s.dev := rfl
@[simp] theorem modSource_host (i : Nat) (f : Source → Source) (s : State) : (modSource i f s).host = s.host := rfl
@[simp] theorem modSource_cnt (i : Nat) (f : Source → Source) (s : State) : (modSource i f s).cnt = s.cnt := rfl
@[simp] theorem modSource_trace (i : Nat) (f : Source → Source) (s : State) : (modSource i f s).trace = s.trace := rfl
@[simp] theorem modSource_log (i : Nat) (f : Source → Source) (s : State) : (modSource i f s).log = s.log := rfl
@[simp] theorem modSource_mgmt (i : Nat) (f : Source → Source) (s : State) : (modSource i f s).mgmt = s.mgmt := rfl
@[simp] theorem modSource_stroke (i : Nat) (f : Source → Source) (s : State) : (modSource i f s).stroke = s.stroke := rfl
@[simp] theorem modSource_pkg (i : Nat) (f : Source → Source) (s : State) : (modSource i f s).pkg = s.pkg := rfl
@[simp] theorem modSource_captured (i : Nat) (f : Source → Source) (s : State) : (modSource i f s).captured = s.captured := rfl
@[simp] theorem modSource_mapBytes (i : Nat) (f : Source → Source) (s : State) : (modSource i f s).mapBytes = s.mapBytes := rfl
@[simp] theorem modSource_map (i : Nat) (f : Source → Source) (s : State) : (modSource i f s).map = s.map := rfl
@[simp] theorem modSource_plan (i : Nat) (f : Source → Source) (s : State) : (modSource i f s).plan = s.plan := rfl
@[simp] theorem modSource_failInputs (i : Nat) (f : Source → Source) (s : State) : (modSource i f s).failInputs = s.failInputs := rfl
@[simp] theorem modSource_run (i : Nat) (f : Source → Source) (s : State) : (modSource i f s).run = s.run := rfl
@[simp] theorem modSource_cox (i : Nat) (f : Source → Source) (s : State) : (modSource i f s).cox = s.cox := rfl
@[simp] theorem modSource_collectors (i : Nat) (f : Source → Source) (s : State) : (modSource i f s).collectors = s.collectors := rfl
@[simp] theorem modSource_adm (i : Nat) (f : Source → Source) (s : State) : (modSource i f s).adm = s.adm := rfl
@[simp] theorem modSource_cores (i : Nat) (f : Source → Source) (s : State) : (modSource i f s).cores = s.cores := rfl
@[simp] theorem modSource_mem (i : Nat) (f : Source → Source) (s : State) : (modSource i f s).mem = s.mem := rfl
@[simp] theorem modSource_stm (i : Nat) (f : Source → Source) (s : State) : (modSource i f s).stm = s.stm := rfl
@[simp] theorem modSource_link (i : Nat) (f : Source → Source) (s : State) : (modSource i f s).link = s.link := rfl
@[simp] theorem modSource_red (i : Nat) (f : Source → Source) (s : State) : (modSource i f s).red = s.red := rfl
@[simp] theorem modSource_res (i : Nat) (f : Source → Source) (s : State) : (modSource i f s).res = s.res := rfl
@[simp] theorem modSource_pwr (i : Nat) (f : Source → Source) (s : State) : (modSource i f s).pwr = s.pwr := rfl

/-! `modSlot` -/

@[simp] theorem modSlot_pending (i : Nat) (f : SlotRec → SlotRec) (s : State) : (modSlot i f s).pending = s.pending := rfl
@[simp] theorem modSlot_free (i : Nat) (f : SlotRec → SlotRec) (s : State) : (modSlot i f s).free = s.free := rfl
@[simp] theorem modSlot_out (i : Nat) (f : SlotRec → SlotRec) (s : State) : (modSlot i f s).out = s.out := rfl
@[simp] theorem modSlot_regs (i : Nat) (f : SlotRec → SlotRec) (s : State) : (modSlot i f s).regs = s.regs := rfl
@[simp] theorem modSlot_fuses (i : Nat) (f : SlotRec → SlotRec) (s : State) : (modSlot i f s).fuses = s.fuses := rfl
@[simp] theorem modSlot_flash (i : Nat) (f : SlotRec → SlotRec) (s : State) : (modSlot i f s).flash = s.flash := rfl
@[simp] theorem modSlot_disabled (i : Nat) (f : SlotRec → SlotRec) (s : State) : (modSlot i f s).disabled = s.disabled := rfl
@[simp] theorem modSlot_renumbered (i : Nat) (f : SlotRec → SlotRec) (s : State) : (modSlot i f s).renumbered = s.renumbered := rfl
@[simp] theorem modSlot_pins (i : Nat) (f : SlotRec → SlotRec) (s : State) : (modSlot i f s).pins = s.pins := rfl
@[simp] theorem modSlot_boot (i : Nat) (f : SlotRec → SlotRec) (s : State) : (modSlot i f s).boot = s.boot := rfl
@[simp] theorem modSlot_dev (i : Nat) (f : SlotRec → SlotRec) (s : State) : (modSlot i f s).dev = s.dev := rfl
@[simp] theorem modSlot_host (i : Nat) (f : SlotRec → SlotRec) (s : State) : (modSlot i f s).host = s.host := rfl
@[simp] theorem modSlot_cnt (i : Nat) (f : SlotRec → SlotRec) (s : State) : (modSlot i f s).cnt = s.cnt := rfl
@[simp] theorem modSlot_trace (i : Nat) (f : SlotRec → SlotRec) (s : State) : (modSlot i f s).trace = s.trace := rfl
@[simp] theorem modSlot_log (i : Nat) (f : SlotRec → SlotRec) (s : State) : (modSlot i f s).log = s.log := rfl
@[simp] theorem modSlot_mgmt (i : Nat) (f : SlotRec → SlotRec) (s : State) : (modSlot i f s).mgmt = s.mgmt := rfl
@[simp] theorem modSlot_stroke (i : Nat) (f : SlotRec → SlotRec) (s : State) : (modSlot i f s).stroke = s.stroke := rfl
@[simp] theorem modSlot_pkg (i : Nat) (f : SlotRec → SlotRec) (s : State) : (modSlot i f s).pkg = s.pkg := rfl
@[simp] theorem modSlot_sources (i : Nat) (f : SlotRec → SlotRec) (s : State) : (modSlot i f s).sources = s.sources := rfl
@[simp] theorem modSlot_captured (i : Nat) (f : SlotRec → SlotRec) (s : State) : (modSlot i f s).captured = s.captured := rfl
@[simp] theorem modSlot_mapBytes (i : Nat) (f : SlotRec → SlotRec) (s : State) : (modSlot i f s).mapBytes = s.mapBytes := rfl
@[simp] theorem modSlot_map (i : Nat) (f : SlotRec → SlotRec) (s : State) : (modSlot i f s).map = s.map := rfl
@[simp] theorem modSlot_plan (i : Nat) (f : SlotRec → SlotRec) (s : State) : (modSlot i f s).plan = s.plan := rfl
@[simp] theorem modSlot_failInputs (i : Nat) (f : SlotRec → SlotRec) (s : State) : (modSlot i f s).failInputs = s.failInputs := rfl
@[simp] theorem modSlot_run (i : Nat) (f : SlotRec → SlotRec) (s : State) : (modSlot i f s).run = s.run := rfl
@[simp] theorem modSlot_cox (i : Nat) (f : SlotRec → SlotRec) (s : State) : (modSlot i f s).cox = s.cox := rfl
@[simp] theorem modSlot_collectors (i : Nat) (f : SlotRec → SlotRec) (s : State) : (modSlot i f s).collectors = s.collectors := rfl
@[simp] theorem modSlot_cores (i : Nat) (f : SlotRec → SlotRec) (s : State) : (modSlot i f s).cores = s.cores := rfl
@[simp] theorem modSlot_mem (i : Nat) (f : SlotRec → SlotRec) (s : State) : (modSlot i f s).mem = s.mem := rfl
@[simp] theorem modSlot_stm (i : Nat) (f : SlotRec → SlotRec) (s : State) : (modSlot i f s).stm = s.stm := rfl
@[simp] theorem modSlot_link (i : Nat) (f : SlotRec → SlotRec) (s : State) : (modSlot i f s).link = s.link := rfl
@[simp] theorem modSlot_red (i : Nat) (f : SlotRec → SlotRec) (s : State) : (modSlot i f s).red = s.red := rfl
@[simp] theorem modSlot_res (i : Nat) (f : SlotRec → SlotRec) (s : State) : (modSlot i f s).res = s.res := rfl
@[simp] theorem modSlot_pwr (i : Nat) (f : SlotRec → SlotRec) (s : State) : (modSlot i f s).pwr = s.pwr := rfl

/-! `modRegion` -/

@[simp] theorem modRegion_pending (i : Nat) (f : RegionSt → RegionSt) (s : State) : (modRegion i f s).pending = s.pending := rfl
@[simp] theorem modRegion_free (i : Nat) (f : RegionSt → RegionSt) (s : State) : (modRegion i f s).free = s.free := rfl
@[simp] theorem modRegion_out (i : Nat) (f : RegionSt → RegionSt) (s : State) : (modRegion i f s).out = s.out := rfl
@[simp] theorem modRegion_regs (i : Nat) (f : RegionSt → RegionSt) (s : State) : (modRegion i f s).regs = s.regs := rfl
@[simp] theorem modRegion_fuses (i : Nat) (f : RegionSt → RegionSt) (s : State) : (modRegion i f s).fuses = s.fuses := rfl
@[simp] theorem modRegion_flash (i : Nat) (f : RegionSt → RegionSt) (s : State) : (modRegion i f s).flash = s.flash := rfl
@[simp] theorem modRegion_disabled (i : Nat) (f : RegionSt → RegionSt) (s : State) : (modRegion i f s).disabled = s.disabled := rfl
@[simp] theorem modRegion_renumbered (i : Nat) (f : RegionSt → RegionSt) (s : State) : (modRegion i f s).renumbered = s.renumbered := rfl
@[simp] theorem modRegion_pins (i : Nat) (f : RegionSt → RegionSt) (s : State) : (modRegion i f s).pins = s.pins := rfl
@[simp] theorem modRegion_boot (i : Nat) (f : RegionSt → RegionSt) (s : State) : (modRegion i f s).boot = s.boot := rfl
@[simp] theorem modRegion_dev (i : Nat) (f : RegionSt → RegionSt) (s : State) : (modRegion i f s).dev = s.dev := rfl
@[simp] theorem modRegion_host (i : Nat) (f : RegionSt → RegionSt) (s : State) : (modRegion i f s).host = s.host := rfl
@[simp] theorem modRegion_cnt (i : Nat) (f : RegionSt → RegionSt) (s : State) : (modRegion i f s).cnt = s.cnt := rfl
@[simp] theorem modRegion_trace (i : Nat) (f : RegionSt → RegionSt) (s : State) : (modRegion i f s).trace = s.trace := rfl
@[simp] theorem modRegion_log (i : Nat) (f : RegionSt → RegionSt) (s : State) : (modRegion i f s).log = s.log := rfl
@[simp] theorem modRegion_mgmt (i : Nat) (f : RegionSt → RegionSt) (s : State) : (modRegion i f s).mgmt = s.mgmt := rfl
@[simp] theorem modRegion_stroke (i : Nat) (f : RegionSt → RegionSt) (s : State) : (modRegion i f s).stroke = s.stroke := rfl
@[simp] theorem modRegion_pkg (i : Nat) (f : RegionSt → RegionSt) (s : State) : (modRegion i f s).pkg = s.pkg := rfl
@[simp] theorem modRegion_sources (i : Nat) (f : RegionSt → RegionSt) (s : State) : (modRegion i f s).sources = s.sources := rfl
@[simp] theorem modRegion_captured (i : Nat) (f : RegionSt → RegionSt) (s : State) : (modRegion i f s).captured = s.captured := rfl
@[simp] theorem modRegion_mapBytes (i : Nat) (f : RegionSt → RegionSt) (s : State) : (modRegion i f s).mapBytes = s.mapBytes := rfl
@[simp] theorem modRegion_map (i : Nat) (f : RegionSt → RegionSt) (s : State) : (modRegion i f s).map = s.map := rfl
@[simp] theorem modRegion_plan (i : Nat) (f : RegionSt → RegionSt) (s : State) : (modRegion i f s).plan = s.plan := rfl
@[simp] theorem modRegion_failInputs (i : Nat) (f : RegionSt → RegionSt) (s : State) : (modRegion i f s).failInputs = s.failInputs := rfl
@[simp] theorem modRegion_run (i : Nat) (f : RegionSt → RegionSt) (s : State) : (modRegion i f s).run = s.run := rfl
@[simp] theorem modRegion_cox (i : Nat) (f : RegionSt → RegionSt) (s : State) : (modRegion i f s).cox = s.cox := rfl
@[simp] theorem modRegion_collectors (i : Nat) (f : RegionSt → RegionSt) (s : State) : (modRegion i f s).collectors = s.collectors := rfl
@[simp] theorem modRegion_adm (i : Nat) (f : RegionSt → RegionSt) (s : State) : (modRegion i f s).adm = s.adm := rfl
@[simp] theorem modRegion_cores (i : Nat) (f : RegionSt → RegionSt) (s : State) : (modRegion i f s).cores = s.cores := rfl
@[simp] theorem modRegion_mem (i : Nat) (f : RegionSt → RegionSt) (s : State) : (modRegion i f s).mem = s.mem := rfl
@[simp] theorem modRegion_stm (i : Nat) (f : RegionSt → RegionSt) (s : State) : (modRegion i f s).stm = s.stm := rfl
@[simp] theorem modRegion_link (i : Nat) (f : RegionSt → RegionSt) (s : State) : (modRegion i f s).link = s.link := rfl
@[simp] theorem modRegion_res (i : Nat) (f : RegionSt → RegionSt) (s : State) : (modRegion i f s).res = s.res := rfl
@[simp] theorem modRegion_pwr (i : Nat) (f : RegionSt → RegionSt) (s : State) : (modRegion i f s).pwr = s.pwr := rfl

/-! `lifeAdd` -/

@[simp] theorem lifeAdd_pending (o w n : Nat) (s : State) : (lifeAdd o w n s).pending = s.pending := rfl
@[simp] theorem lifeAdd_free (o w n : Nat) (s : State) : (lifeAdd o w n s).free = s.free := rfl
@[simp] theorem lifeAdd_out (o w n : Nat) (s : State) : (lifeAdd o w n s).out = s.out := rfl
@[simp] theorem lifeAdd_regs (o w n : Nat) (s : State) : (lifeAdd o w n s).regs = s.regs := rfl
@[simp] theorem lifeAdd_fuses (o w n : Nat) (s : State) : (lifeAdd o w n s).fuses = s.fuses := rfl
@[simp] theorem lifeAdd_flash (o w n : Nat) (s : State) : (lifeAdd o w n s).flash = s.flash := rfl
@[simp] theorem lifeAdd_disabled (o w n : Nat) (s : State) : (lifeAdd o w n s).disabled = s.disabled := rfl
@[simp] theorem lifeAdd_renumbered (o w n : Nat) (s : State) : (lifeAdd o w n s).renumbered = s.renumbered := rfl
@[simp] theorem lifeAdd_pins (o w n : Nat) (s : State) : (lifeAdd o w n s).pins = s.pins := rfl
@[simp] theorem lifeAdd_boot (o w n : Nat) (s : State) : (lifeAdd o w n s).boot = s.boot := rfl
@[simp] theorem lifeAdd_dev (o w n : Nat) (s : State) : (lifeAdd o w n s).dev = s.dev := rfl
@[simp] theorem lifeAdd_host (o w n : Nat) (s : State) : (lifeAdd o w n s).host = s.host := rfl
@[simp] theorem lifeAdd_cnt (o w n : Nat) (s : State) : (lifeAdd o w n s).cnt = s.cnt := rfl
@[simp] theorem lifeAdd_trace (o w n : Nat) (s : State) : (lifeAdd o w n s).trace = s.trace := rfl
@[simp] theorem lifeAdd_log (o w n : Nat) (s : State) : (lifeAdd o w n s).log = s.log := rfl
@[simp] theorem lifeAdd_stroke (o w n : Nat) (s : State) : (lifeAdd o w n s).stroke = s.stroke := rfl
@[simp] theorem lifeAdd_pkg (o w n : Nat) (s : State) : (lifeAdd o w n s).pkg = s.pkg := rfl
@[simp] theorem lifeAdd_sources (o w n : Nat) (s : State) : (lifeAdd o w n s).sources = s.sources := rfl
@[simp] theorem lifeAdd_captured (o w n : Nat) (s : State) : (lifeAdd o w n s).captured = s.captured := rfl
@[simp] theorem lifeAdd_mapBytes (o w n : Nat) (s : State) : (lifeAdd o w n s).mapBytes = s.mapBytes := rfl
@[simp] theorem lifeAdd_map (o w n : Nat) (s : State) : (lifeAdd o w n s).map = s.map := rfl
@[simp] theorem lifeAdd_plan (o w n : Nat) (s : State) : (lifeAdd o w n s).plan = s.plan := rfl
@[simp] theorem lifeAdd_failInputs (o w n : Nat) (s : State) : (lifeAdd o w n s).failInputs = s.failInputs := rfl
@[simp] theorem lifeAdd_run (o w n : Nat) (s : State) : (lifeAdd o w n s).run = s.run := rfl
@[simp] theorem lifeAdd_cox (o w n : Nat) (s : State) : (lifeAdd o w n s).cox = s.cox := rfl
@[simp] theorem lifeAdd_collectors (o w n : Nat) (s : State) : (lifeAdd o w n s).collectors = s.collectors := rfl
@[simp] theorem lifeAdd_adm (o w n : Nat) (s : State) : (lifeAdd o w n s).adm = s.adm := rfl
@[simp] theorem lifeAdd_cores (o w n : Nat) (s : State) : (lifeAdd o w n s).cores = s.cores := rfl
@[simp] theorem lifeAdd_mem (o w n : Nat) (s : State) : (lifeAdd o w n s).mem = s.mem := rfl
@[simp] theorem lifeAdd_stm (o w n : Nat) (s : State) : (lifeAdd o w n s).stm = s.stm := rfl
@[simp] theorem lifeAdd_link (o w n : Nat) (s : State) : (lifeAdd o w n s).link = s.link := rfl
@[simp] theorem lifeAdd_red (o w n : Nat) (s : State) : (lifeAdd o w n s).red = s.red := rfl
@[simp] theorem lifeAdd_res (o w n : Nat) (s : State) : (lifeAdd o w n s).res = s.res := rfl
@[simp] theorem lifeAdd_pwr (o w n : Nat) (s : State) : (lifeAdd o w n s).pwr = s.pwr := rfl

/-! `emit` -/

@[simp] theorem emit_pending (o : Output) (s : State) : (emit o s).pending = s.pending := rfl
@[simp] theorem emit_free (o : Output) (s : State) : (emit o s).free = s.free := rfl
@[simp] theorem emit_regs (o : Output) (s : State) : (emit o s).regs = s.regs := rfl
@[simp] theorem emit_fuses (o : Output) (s : State) : (emit o s).fuses = s.fuses := rfl
@[simp] theorem emit_flash (o : Output) (s : State) : (emit o s).flash = s.flash := rfl
@[simp] theorem emit_disabled (o : Output) (s : State) : (emit o s).disabled = s.disabled := rfl
@[simp] theorem emit_renumbered (o : Output) (s : State) : (emit o s).renumbered = s.renumbered := rfl
@[simp] theorem emit_pins (o : Output) (s : State) : (emit o s).pins = s.pins := rfl
@[simp] theorem emit_boot (o : Output) (s : State) : (emit o s).boot = s.boot := rfl
@[simp] theorem emit_dev (o : Output) (s : State) : (emit o s).dev = s.dev := rfl
@[simp] theorem emit_host (o : Output) (s : State) : (emit o s).host = s.host := rfl
@[simp] theorem emit_cnt (o : Output) (s : State) : (emit o s).cnt = s.cnt := rfl
@[simp] theorem emit_trace (o : Output) (s : State) : (emit o s).trace = s.trace := rfl
@[simp] theorem emit_log (o : Output) (s : State) : (emit o s).log = s.log := rfl
@[simp] theorem emit_mgmt (o : Output) (s : State) : (emit o s).mgmt = s.mgmt := rfl
@[simp] theorem emit_stroke (o : Output) (s : State) : (emit o s).stroke = s.stroke := rfl
@[simp] theorem emit_pkg (o : Output) (s : State) : (emit o s).pkg = s.pkg := rfl
@[simp] theorem emit_sources (o : Output) (s : State) : (emit o s).sources = s.sources := rfl
@[simp] theorem emit_captured (o : Output) (s : State) : (emit o s).captured = s.captured := rfl
@[simp] theorem emit_mapBytes (o : Output) (s : State) : (emit o s).mapBytes = s.mapBytes := rfl
@[simp] theorem emit_map (o : Output) (s : State) : (emit o s).map = s.map := rfl
@[simp] theorem emit_plan (o : Output) (s : State) : (emit o s).plan = s.plan := rfl
@[simp] theorem emit_failInputs (o : Output) (s : State) : (emit o s).failInputs = s.failInputs := rfl
@[simp] theorem emit_run (o : Output) (s : State) : (emit o s).run = s.run := rfl
@[simp] theorem emit_cox (o : Output) (s : State) : (emit o s).cox = s.cox := rfl
@[simp] theorem emit_collectors (o : Output) (s : State) : (emit o s).collectors = s.collectors := rfl
@[simp] theorem emit_adm (o : Output) (s : State) : (emit o s).adm = s.adm := rfl
@[simp] theorem emit_cores (o : Output) (s : State) : (emit o s).cores = s.cores := rfl
@[simp] theorem emit_mem (o : Output) (s : State) : (emit o s).mem = s.mem := rfl
@[simp] theorem emit_stm (o : Output) (s : State) : (emit o s).stm = s.stm := rfl
@[simp] theorem emit_link (o : Output) (s : State) : (emit o s).link = s.link := rfl
@[simp] theorem emit_red (o : Output) (s : State) : (emit o s).red = s.red := rfl
@[simp] theorem emit_res (o : Output) (s : State) : (emit o s).res = s.res := rfl
@[simp] theorem emit_pwr (o : Output) (s : State) : (emit o s).pwr = s.pwr := rfl

/-! `useFree` -/

@[simp] theorem useFree_pending (s : State) : (useFree s).pending = s.pending := rfl
@[simp] theorem useFree_out (s : State) : (useFree s).out = s.out := rfl
@[simp] theorem useFree_regs (s : State) : (useFree s).regs = s.regs := rfl
@[simp] theorem useFree_fuses (s : State) : (useFree s).fuses = s.fuses := rfl
@[simp] theorem useFree_flash (s : State) : (useFree s).flash = s.flash := rfl
@[simp] theorem useFree_disabled (s : State) : (useFree s).disabled = s.disabled := rfl
@[simp] theorem useFree_renumbered (s : State) : (useFree s).renumbered = s.renumbered := rfl
@[simp] theorem useFree_pins (s : State) : (useFree s).pins = s.pins := rfl
@[simp] theorem useFree_boot (s : State) : (useFree s).boot = s.boot := rfl
@[simp] theorem useFree_dev (s : State) : (useFree s).dev = s.dev := rfl
@[simp] theorem useFree_host (s : State) : (useFree s).host = s.host := rfl
@[simp] theorem useFree_cnt (s : State) : (useFree s).cnt = s.cnt := rfl
@[simp] theorem useFree_trace (s : State) : (useFree s).trace = s.trace := rfl
@[simp] theorem useFree_log (s : State) : (useFree s).log = s.log := rfl
@[simp] theorem useFree_mgmt (s : State) : (useFree s).mgmt = s.mgmt := rfl
@[simp] theorem useFree_stroke (s : State) : (useFree s).stroke = s.stroke := rfl
@[simp] theorem useFree_pkg (s : State) : (useFree s).pkg = s.pkg := rfl
@[simp] theorem useFree_sources (s : State) : (useFree s).sources = s.sources := rfl
@[simp] theorem useFree_captured (s : State) : (useFree s).captured = s.captured := rfl
@[simp] theorem useFree_mapBytes (s : State) : (useFree s).mapBytes = s.mapBytes := rfl
@[simp] theorem useFree_map (s : State) : (useFree s).map = s.map := rfl
@[simp] theorem useFree_plan (s : State) : (useFree s).plan = s.plan := rfl
@[simp] theorem useFree_failInputs (s : State) : (useFree s).failInputs = s.failInputs := rfl
@[simp] theorem useFree_run (s : State) : (useFree s).run = s.run := rfl
@[simp] theorem useFree_cox (s : State) : (useFree s).cox = s.cox := rfl
@[simp] theorem useFree_collectors (s : State) : (useFree s).collectors = s.collectors := rfl
@[simp] theorem useFree_adm (s : State) : (useFree s).adm = s.adm := rfl
@[simp] theorem useFree_cores (s : State) : (useFree s).cores = s.cores := rfl
@[simp] theorem useFree_mem (s : State) : (useFree s).mem = s.mem := rfl
@[simp] theorem useFree_stm (s : State) : (useFree s).stm = s.stm := rfl
@[simp] theorem useFree_link (s : State) : (useFree s).link = s.link := rfl
@[simp] theorem useFree_red (s : State) : (useFree s).red = s.red := rfl
@[simp] theorem useFree_res (s : State) : (useFree s).res = s.res := rfl
@[simp] theorem useFree_pwr (s : State) : (useFree s).pwr = s.pwr := rfl

/-! `cntAdd` -/

@[simp] theorem cntAdd_pending (off n : Nat) (s : State) : (cntAdd off n s).pending = s.pending := rfl
@[simp] theorem cntAdd_free (off n : Nat) (s : State) : (cntAdd off n s).free = s.free := rfl
@[simp] theorem cntAdd_out (off n : Nat) (s : State) : (cntAdd off n s).out = s.out := rfl
@[simp] theorem cntAdd_regs (off n : Nat) (s : State) : (cntAdd off n s).regs = s.regs := rfl
@[simp] theorem cntAdd_fuses (off n : Nat) (s : State) : (cntAdd off n s).fuses = s.fuses := rfl
@[simp] theorem cntAdd_flash (off n : Nat) (s : State) : (cntAdd off n s).flash = s.flash := rfl
@[simp] theorem cntAdd_disabled (off n : Nat) (s : State) : (cntAdd off n s).disabled = s.disabled := rfl
@[simp] theorem cntAdd_renumbered (off n : Nat) (s : State) : (cntAdd off n s).renumbered = s.renumbered := rfl
@[simp] theorem cntAdd_pins (off n : Nat) (s : State) : (cntAdd off n s).pins = s.pins := rfl
@[simp] theorem cntAdd_boot (off n : Nat) (s : State) : (cntAdd off n s).boot = s.boot := rfl
@[simp] theorem cntAdd_dev (off n : Nat) (s : State) : (cntAdd off n s).dev = s.dev := rfl
@[simp] theorem cntAdd_host (off n : Nat) (s : State) : (cntAdd off n s).host = s.host := rfl
@[simp] theorem cntAdd_trace (off n : Nat) (s : State) : (cntAdd off n s).trace = s.trace := rfl
@[simp] theorem cntAdd_log (off n : Nat) (s : State) : (cntAdd off n s).log = s.log := rfl
@[simp] theorem cntAdd_mgmt (off n : Nat) (s : State) : (cntAdd off n s).mgmt = s.mgmt := rfl
@[simp] theorem cntAdd_stroke (off n : Nat) (s : State) : (cntAdd off n s).stroke = s.stroke := rfl
@[simp] theorem cntAdd_pkg (off n : Nat) (s : State) : (cntAdd off n s).pkg = s.pkg := rfl
@[simp] theorem cntAdd_sources (off n : Nat) (s : State) : (cntAdd off n s).sources = s.sources := rfl
@[simp] theorem cntAdd_captured (off n : Nat) (s : State) : (cntAdd off n s).captured = s.captured := rfl
@[simp] theorem cntAdd_mapBytes (off n : Nat) (s : State) : (cntAdd off n s).mapBytes = s.mapBytes := rfl
@[simp] theorem cntAdd_map (off n : Nat) (s : State) : (cntAdd off n s).map = s.map := rfl
@[simp] theorem cntAdd_plan (off n : Nat) (s : State) : (cntAdd off n s).plan = s.plan := rfl
@[simp] theorem cntAdd_failInputs (off n : Nat) (s : State) : (cntAdd off n s).failInputs = s.failInputs := rfl
@[simp] theorem cntAdd_run (off n : Nat) (s : State) : (cntAdd off n s).run = s.run := rfl
@[simp] theorem cntAdd_cox (off n : Nat) (s : State) : (cntAdd off n s).cox = s.cox := rfl
@[simp] theorem cntAdd_collectors (off n : Nat) (s : State) : (cntAdd off n s).collectors = s.collectors := rfl
@[simp] theorem cntAdd_adm (off n : Nat) (s : State) : (cntAdd off n s).adm = s.adm := rfl
@[simp] theorem cntAdd_cores (off n : Nat) (s : State) : (cntAdd off n s).cores = s.cores := rfl
@[simp] theorem cntAdd_mem (off n : Nat) (s : State) : (cntAdd off n s).mem = s.mem := rfl
@[simp] theorem cntAdd_stm (off n : Nat) (s : State) : (cntAdd off n s).stm = s.stm := rfl
@[simp] theorem cntAdd_link (off n : Nat) (s : State) : (cntAdd off n s).link = s.link := rfl
@[simp] theorem cntAdd_red (off n : Nat) (s : State) : (cntAdd off n s).red = s.red := rfl
@[simp] theorem cntAdd_res (off n : Nat) (s : State) : (cntAdd off n s).res = s.res := rfl
@[simp] theorem cntAdd_pwr (off n : Nat) (s : State) : (cntAdd off n s).pwr = s.pwr := rfl

/-! `setReg` -/

@[simp] theorem setReg_pending (off v : Nat) (s : State) : (setReg off v s).pending = s.pending := rfl
@[simp] theorem setReg_free (off v : Nat) (s : State) : (setReg off v s).free = s.free := rfl
@[simp] theorem setReg_out (off v : Nat) (s : State) : (setReg off v s).out = s.out := rfl
@[simp] theorem setReg_fuses (off v : Nat) (s : State) : (setReg off v s).fuses = s.fuses := rfl
@[simp] theorem setReg_flash (off v : Nat) (s : State) : (setReg off v s).flash = s.flash := rfl
@[simp] theorem setReg_disabled (off v : Nat) (s : State) : (setReg off v s).disabled = s.disabled := rfl
@[simp] theorem setReg_renumbered (off v : Nat) (s : State) : (setReg off v s).renumbered = s.renumbered := rfl
@[simp] theorem setReg_pins (off v : Nat) (s : State) : (setReg off v s).pins = s.pins := rfl
@[simp] theorem setReg_boot (off v : Nat) (s : State) : (setReg off v s).boot = s.boot := rfl
@[simp] theorem setReg_dev (off v : Nat) (s : State) : (setReg off v s).dev = s.dev := rfl
@[simp] theorem setReg_host (off v : Nat) (s : State) : (setReg off v s).host = s.host := rfl
@[simp] theorem setReg_cnt (off v : Nat) (s : State) : (setReg off v s).cnt = s.cnt := rfl
@[simp] theorem setReg_trace (off v : Nat) (s : State) : (setReg off v s).trace = s.trace := rfl
@[simp] theorem setReg_log (off v : Nat) (s : State) : (setReg off v s).log = s.log := rfl
@[simp] theorem setReg_mgmt (off v : Nat) (s : State) : (setReg off v s).mgmt = s.mgmt := rfl
@[simp] theorem setReg_stroke (off v : Nat) (s : State) : (setReg off v s).stroke = s.stroke := rfl
@[simp] theorem setReg_pkg (off v : Nat) (s : State) : (setReg off v s).pkg = s.pkg := rfl
@[simp] theorem setReg_sources (off v : Nat) (s : State) : (setReg off v s).sources = s.sources := rfl
@[simp] theorem setReg_captured (off v : Nat) (s : State) : (setReg off v s).captured = s.captured := rfl
@[simp] theorem setReg_mapBytes (off v : Nat) (s : State) : (setReg off v s).mapBytes = s.mapBytes := rfl
@[simp] theorem setReg_map (off v : Nat) (s : State) : (setReg off v s).map = s.map := rfl
@[simp] theorem setReg_plan (off v : Nat) (s : State) : (setReg off v s).plan = s.plan := rfl
@[simp] theorem setReg_failInputs (off v : Nat) (s : State) : (setReg off v s).failInputs = s.failInputs := rfl
@[simp] theorem setReg_run (off v : Nat) (s : State) : (setReg off v s).run = s.run := rfl
@[simp] theorem setReg_cox (off v : Nat) (s : State) : (setReg off v s).cox = s.cox := rfl
@[simp] theorem setReg_collectors (off v : Nat) (s : State) : (setReg off v s).collectors = s.collectors := rfl
@[simp] theorem setReg_adm (off v : Nat) (s : State) : (setReg off v s).adm = s.adm := rfl
@[simp] theorem setReg_cores (off v : Nat) (s : State) : (setReg off v s).cores = s.cores := rfl
@[simp] theorem setReg_mem (off v : Nat) (s : State) : (setReg off v s).mem = s.mem := rfl
@[simp] theorem setReg_stm (off v : Nat) (s : State) : (setReg off v s).stm = s.stm := rfl
@[simp] theorem setReg_link (off v : Nat) (s : State) : (setReg off v s).link = s.link := rfl
@[simp] theorem setReg_red (off v : Nat) (s : State) : (setReg off v s).red = s.red := rfl
@[simp] theorem setReg_res (off v : Nat) (s : State) : (setReg off v s).res = s.res := rfl
@[simp] theorem setReg_pwr (off v : Nat) (s : State) : (setReg off v s).pwr = s.pwr := rfl

/-! `memWrite` -/

@[simp] theorem memWrite_pending (a : Nat) (l : List Byte) (s : State) : (memWrite a l s).pending = s.pending := rfl
@[simp] theorem memWrite_free (a : Nat) (l : List Byte) (s : State) : (memWrite a l s).free = s.free := rfl
@[simp] theorem memWrite_out (a : Nat) (l : List Byte) (s : State) : (memWrite a l s).out = s.out := rfl
@[simp] theorem memWrite_regs (a : Nat) (l : List Byte) (s : State) : (memWrite a l s).regs = s.regs := rfl
@[simp] theorem memWrite_fuses (a : Nat) (l : List Byte) (s : State) : (memWrite a l s).fuses = s.fuses := rfl
@[simp] theorem memWrite_flash (a : Nat) (l : List Byte) (s : State) : (memWrite a l s).flash = s.flash := rfl
@[simp] theorem memWrite_disabled (a : Nat) (l : List Byte) (s : State) : (memWrite a l s).disabled = s.disabled := rfl
@[simp] theorem memWrite_renumbered (a : Nat) (l : List Byte) (s : State) : (memWrite a l s).renumbered = s.renumbered := rfl
@[simp] theorem memWrite_pins (a : Nat) (l : List Byte) (s : State) : (memWrite a l s).pins = s.pins := rfl
@[simp] theorem memWrite_boot (a : Nat) (l : List Byte) (s : State) : (memWrite a l s).boot = s.boot := rfl
@[simp] theorem memWrite_dev (a : Nat) (l : List Byte) (s : State) : (memWrite a l s).dev = s.dev := rfl
@[simp] theorem memWrite_host (a : Nat) (l : List Byte) (s : State) : (memWrite a l s).host = s.host := rfl
@[simp] theorem memWrite_cnt (a : Nat) (l : List Byte) (s : State) : (memWrite a l s).cnt = s.cnt := rfl
@[simp] theorem memWrite_trace (a : Nat) (l : List Byte) (s : State) : (memWrite a l s).trace = s.trace := rfl
@[simp] theorem memWrite_log (a : Nat) (l : List Byte) (s : State) : (memWrite a l s).log = s.log := rfl
@[simp] theorem memWrite_mgmt (a : Nat) (l : List Byte) (s : State) : (memWrite a l s).mgmt = s.mgmt := rfl
@[simp] theorem memWrite_stroke (a : Nat) (l : List Byte) (s : State) : (memWrite a l s).stroke = s.stroke := rfl
@[simp] theorem memWrite_pkg (a : Nat) (l : List Byte) (s : State) : (memWrite a l s).pkg = s.pkg := rfl
@[simp] theorem memWrite_sources (a : Nat) (l : List Byte) (s : State) : (memWrite a l s).sources = s.sources := rfl
@[simp] theorem memWrite_captured (a : Nat) (l : List Byte) (s : State) : (memWrite a l s).captured = s.captured := rfl
@[simp] theorem memWrite_mapBytes (a : Nat) (l : List Byte) (s : State) : (memWrite a l s).mapBytes = s.mapBytes := rfl
@[simp] theorem memWrite_map (a : Nat) (l : List Byte) (s : State) : (memWrite a l s).map = s.map := rfl
@[simp] theorem memWrite_plan (a : Nat) (l : List Byte) (s : State) : (memWrite a l s).plan = s.plan := rfl
@[simp] theorem memWrite_failInputs (a : Nat) (l : List Byte) (s : State) : (memWrite a l s).failInputs = s.failInputs := rfl
@[simp] theorem memWrite_run (a : Nat) (l : List Byte) (s : State) : (memWrite a l s).run = s.run := rfl
@[simp] theorem memWrite_cox (a : Nat) (l : List Byte) (s : State) : (memWrite a l s).cox = s.cox := rfl
@[simp] theorem memWrite_collectors (a : Nat) (l : List Byte) (s : State) : (memWrite a l s).collectors = s.collectors := rfl
@[simp] theorem memWrite_adm (a : Nat) (l : List Byte) (s : State) : (memWrite a l s).adm = s.adm := rfl
@[simp] theorem memWrite_cores (a : Nat) (l : List Byte) (s : State) : (memWrite a l s).cores = s.cores := rfl
@[simp] theorem memWrite_stm (a : Nat) (l : List Byte) (s : State) : (memWrite a l s).stm = s.stm := rfl
@[simp] theorem memWrite_link (a : Nat) (l : List Byte) (s : State) : (memWrite a l s).link = s.link := rfl
@[simp] theorem memWrite_red (a : Nat) (l : List Byte) (s : State) : (memWrite a l s).red = s.red := rfl
@[simp] theorem memWrite_res (a : Nat) (l : List Byte) (s : State) : (memWrite a l s).res = s.res := rfl
@[simp] theorem memWrite_pwr (a : Nat) (l : List Byte) (s : State) : (memWrite a l s).pwr = s.pwr := rfl

/-! `zeroMem` -/

@[simp] theorem zeroMem_pending (a n : Nat) (s : State) : (zeroMem a n s).pending = s.pending := rfl
@[simp] theorem zeroMem_free (a n : Nat) (s : State) : (zeroMem a n s).free = s.free := rfl
@[simp] theorem zeroMem_out (a n : Nat) (s : State) : (zeroMem a n s).out = s.out := rfl
@[simp] theorem zeroMem_regs (a n : Nat) (s : State) : (zeroMem a n s).regs = s.regs := rfl
@[simp] theorem zeroMem_fuses (a n : Nat) (s : State) : (zeroMem a n s).fuses = s.fuses := rfl
@[simp] theorem zeroMem_flash (a n : Nat) (s : State) : (zeroMem a n s).flash = s.flash := rfl
@[simp] theorem zeroMem_disabled (a n : Nat) (s : State) : (zeroMem a n s).disabled = s.disabled := rfl
@[simp] theorem zeroMem_renumbered (a n : Nat) (s : State) : (zeroMem a n s).renumbered = s.renumbered := rfl
@[simp] theorem zeroMem_pins (a n : Nat) (s : State) : (zeroMem a n s).pins = s.pins := rfl
@[simp] theorem zeroMem_boot (a n : Nat) (s : State) : (zeroMem a n s).boot = s.boot := rfl
@[simp] theorem zeroMem_dev (a n : Nat) (s : State) : (zeroMem a n s).dev = s.dev := rfl
@[simp] theorem zeroMem_host (a n : Nat) (s : State) : (zeroMem a n s).host = s.host := rfl
@[simp] theorem zeroMem_cnt (a n : Nat) (s : State) : (zeroMem a n s).cnt = s.cnt := rfl
@[simp] theorem zeroMem_trace (a n : Nat) (s : State) : (zeroMem a n s).trace = s.trace := rfl
@[simp] theorem zeroMem_log (a n : Nat) (s : State) : (zeroMem a n s).log = s.log := rfl
@[simp] theorem zeroMem_mgmt (a n : Nat) (s : State) : (zeroMem a n s).mgmt = s.mgmt := rfl
@[simp] theorem zeroMem_stroke (a n : Nat) (s : State) : (zeroMem a n s).stroke = s.stroke := rfl
@[simp] theorem zeroMem_pkg (a n : Nat) (s : State) : (zeroMem a n s).pkg = s.pkg := rfl
@[simp] theorem zeroMem_sources (a n : Nat) (s : State) : (zeroMem a n s).sources = s.sources := rfl
@[simp] theorem zeroMem_captured (a n : Nat) (s : State) : (zeroMem a n s).captured = s.captured := rfl
@[simp] theorem zeroMem_mapBytes (a n : Nat) (s : State) : (zeroMem a n s).mapBytes = s.mapBytes := rfl
@[simp] theorem zeroMem_map (a n : Nat) (s : State) : (zeroMem a n s).map = s.map := rfl
@[simp] theorem zeroMem_plan (a n : Nat) (s : State) : (zeroMem a n s).plan = s.plan := rfl
@[simp] theorem zeroMem_failInputs (a n : Nat) (s : State) : (zeroMem a n s).failInputs = s.failInputs := rfl
@[simp] theorem zeroMem_run (a n : Nat) (s : State) : (zeroMem a n s).run = s.run := rfl
@[simp] theorem zeroMem_cox (a n : Nat) (s : State) : (zeroMem a n s).cox = s.cox := rfl
@[simp] theorem zeroMem_collectors (a n : Nat) (s : State) : (zeroMem a n s).collectors = s.collectors := rfl
@[simp] theorem zeroMem_adm (a n : Nat) (s : State) : (zeroMem a n s).adm = s.adm := rfl
@[simp] theorem zeroMem_cores (a n : Nat) (s : State) : (zeroMem a n s).cores = s.cores := rfl
@[simp] theorem zeroMem_stm (a n : Nat) (s : State) : (zeroMem a n s).stm = s.stm := rfl
@[simp] theorem zeroMem_link (a n : Nat) (s : State) : (zeroMem a n s).link = s.link := rfl
@[simp] theorem zeroMem_red (a n : Nat) (s : State) : (zeroMem a n s).red = s.red := rfl
@[simp] theorem zeroMem_res (a n : Nat) (s : State) : (zeroMem a n s).res = s.res := rfl
@[simp] theorem zeroMem_pwr (a n : Nat) (s : State) : (zeroMem a n s).pwr = s.pwr := rfl

/-! `memPoison` -/

@[simp] theorem memPoison_pending (a : Nat) (n : Nat) (s : State) : (memPoison a n s).pending = s.pending := rfl
@[simp] theorem memPoison_free (a : Nat) (n : Nat) (s : State) : (memPoison a n s).free = s.free := rfl
@[simp] theorem memPoison_out (a : Nat) (n : Nat) (s : State) : (memPoison a n s).out = s.out := rfl
@[simp] theorem memPoison_regs (a : Nat) (n : Nat) (s : State) : (memPoison a n s).regs = s.regs := rfl
@[simp] theorem memPoison_fuses (a : Nat) (n : Nat) (s : State) : (memPoison a n s).fuses = s.fuses := rfl
@[simp] theorem memPoison_flash (a : Nat) (n : Nat) (s : State) : (memPoison a n s).flash = s.flash := rfl
@[simp] theorem memPoison_disabled (a : Nat) (n : Nat) (s : State) : (memPoison a n s).disabled = s.disabled := rfl
@[simp] theorem memPoison_renumbered (a : Nat) (n : Nat) (s : State) : (memPoison a n s).renumbered = s.renumbered := rfl
@[simp] theorem memPoison_pins (a : Nat) (n : Nat) (s : State) : (memPoison a n s).pins = s.pins := rfl
@[simp] theorem memPoison_boot (a : Nat) (n : Nat) (s : State) : (memPoison a n s).boot = s.boot := rfl
@[simp] theorem memPoison_dev (a : Nat) (n : Nat) (s : State) : (memPoison a n s).dev = s.dev := rfl
@[simp] theorem memPoison_host (a : Nat) (n : Nat) (s : State) : (memPoison a n s).host = s.host := rfl
@[simp] theorem memPoison_cnt (a : Nat) (n : Nat) (s : State) : (memPoison a n s).cnt = s.cnt := rfl
@[simp] theorem memPoison_trace (a : Nat) (n : Nat) (s : State) : (memPoison a n s).trace = s.trace := rfl
@[simp] theorem memPoison_log (a : Nat) (n : Nat) (s : State) : (memPoison a n s).log = s.log := rfl
@[simp] theorem memPoison_mgmt (a : Nat) (n : Nat) (s : State) : (memPoison a n s).mgmt = s.mgmt := rfl
@[simp] theorem memPoison_stroke (a : Nat) (n : Nat) (s : State) : (memPoison a n s).stroke = s.stroke := rfl
@[simp] theorem memPoison_pkg (a : Nat) (n : Nat) (s : State) : (memPoison a n s).pkg = s.pkg := rfl
@[simp] theorem memPoison_sources (a : Nat) (n : Nat) (s : State) : (memPoison a n s).sources = s.sources := rfl
@[simp] theorem memPoison_captured (a : Nat) (n : Nat) (s : State) : (memPoison a n s).captured = s.captured := rfl
@[simp] theorem memPoison_mapBytes (a : Nat) (n : Nat) (s : State) : (memPoison a n s).mapBytes = s.mapBytes := rfl
@[simp] theorem memPoison_map (a : Nat) (n : Nat) (s : State) : (memPoison a n s).map = s.map := rfl
@[simp] theorem memPoison_plan (a : Nat) (n : Nat) (s : State) : (memPoison a n s).plan = s.plan := rfl
@[simp] theorem memPoison_failInputs (a : Nat) (n : Nat) (s : State) : (memPoison a n s).failInputs = s.failInputs := rfl
@[simp] theorem memPoison_run (a : Nat) (n : Nat) (s : State) : (memPoison a n s).run = s.run := rfl
@[simp] theorem memPoison_cox (a : Nat) (n : Nat) (s : State) : (memPoison a n s).cox = s.cox := rfl
@[simp] theorem memPoison_collectors (a : Nat) (n : Nat) (s : State) : (memPoison a n s).collectors = s.collectors := rfl
@[simp] theorem memPoison_adm (a : Nat) (n : Nat) (s : State) : (memPoison a n s).adm = s.adm := rfl
@[simp] theorem memPoison_cores (a : Nat) (n : Nat) (s : State) : (memPoison a n s).cores = s.cores := rfl
@[simp] theorem memPoison_stm (a : Nat) (n : Nat) (s : State) : (memPoison a n s).stm = s.stm := rfl
@[simp] theorem memPoison_link (a : Nat) (n : Nat) (s : State) : (memPoison a n s).link = s.link := rfl
@[simp] theorem memPoison_red (a : Nat) (n : Nat) (s : State) : (memPoison a n s).red = s.red := rfl
@[simp] theorem memPoison_res (a : Nat) (n : Nat) (s : State) : (memPoison a n s).res = s.res := rfl
@[simp] theorem memPoison_pwr (a : Nat) (n : Nat) (s : State) : (memPoison a n s).pwr = s.pwr := rfl

/-! `modOvf` -/

@[simp] theorem modOvf_pending (c inst : Nat) (f : OvfSt → OvfSt) (s : State) : (modOvf c inst f s).pending = s.pending := rfl
@[simp] theorem modOvf_free (c inst : Nat) (f : OvfSt → OvfSt) (s : State) : (modOvf c inst f s).free = s.free := rfl
@[simp] theorem modOvf_out (c inst : Nat) (f : OvfSt → OvfSt) (s : State) : (modOvf c inst f s).out = s.out := rfl
@[simp] theorem modOvf_regs (c inst : Nat) (f : OvfSt → OvfSt) (s : State) : (modOvf c inst f s).regs = s.regs := rfl
@[simp] theorem modOvf_fuses (c inst : Nat) (f : OvfSt → OvfSt) (s : State) : (modOvf c inst f s).fuses = s.fuses := rfl
@[simp] theorem modOvf_flash (c inst : Nat) (f : OvfSt → OvfSt) (s : State) : (modOvf c inst f s).flash = s.flash := rfl
@[simp] theorem modOvf_disabled (c inst : Nat) (f : OvfSt → OvfSt) (s : State) : (modOvf c inst f s).disabled = s.disabled := rfl
@[simp] theorem modOvf_renumbered (c inst : Nat) (f : OvfSt → OvfSt) (s : State) : (modOvf c inst f s).renumbered = s.renumbered := rfl
@[simp] theorem modOvf_pins (c inst : Nat) (f : OvfSt → OvfSt) (s : State) : (modOvf c inst f s).pins = s.pins := rfl
@[simp] theorem modOvf_boot (c inst : Nat) (f : OvfSt → OvfSt) (s : State) : (modOvf c inst f s).boot = s.boot := rfl
@[simp] theorem modOvf_dev (c inst : Nat) (f : OvfSt → OvfSt) (s : State) : (modOvf c inst f s).dev = s.dev := rfl
@[simp] theorem modOvf_host (c inst : Nat) (f : OvfSt → OvfSt) (s : State) : (modOvf c inst f s).host = s.host := rfl
@[simp] theorem modOvf_cnt (c inst : Nat) (f : OvfSt → OvfSt) (s : State) : (modOvf c inst f s).cnt = s.cnt := rfl
@[simp] theorem modOvf_trace (c inst : Nat) (f : OvfSt → OvfSt) (s : State) : (modOvf c inst f s).trace = s.trace := rfl
@[simp] theorem modOvf_log (c inst : Nat) (f : OvfSt → OvfSt) (s : State) : (modOvf c inst f s).log = s.log := rfl
@[simp] theorem modOvf_mgmt (c inst : Nat) (f : OvfSt → OvfSt) (s : State) : (modOvf c inst f s).mgmt = s.mgmt := rfl
@[simp] theorem modOvf_stroke (c inst : Nat) (f : OvfSt → OvfSt) (s : State) : (modOvf c inst f s).stroke = s.stroke := rfl
@[simp] theorem modOvf_pkg (c inst : Nat) (f : OvfSt → OvfSt) (s : State) : (modOvf c inst f s).pkg = s.pkg := rfl
@[simp] theorem modOvf_sources (c inst : Nat) (f : OvfSt → OvfSt) (s : State) : (modOvf c inst f s).sources = s.sources := rfl
@[simp] theorem modOvf_captured (c inst : Nat) (f : OvfSt → OvfSt) (s : State) : (modOvf c inst f s).captured = s.captured := rfl
@[simp] theorem modOvf_mapBytes (c inst : Nat) (f : OvfSt → OvfSt) (s : State) : (modOvf c inst f s).mapBytes = s.mapBytes := rfl
@[simp] theorem modOvf_map (c inst : Nat) (f : OvfSt → OvfSt) (s : State) : (modOvf c inst f s).map = s.map := rfl
@[simp] theorem modOvf_plan (c inst : Nat) (f : OvfSt → OvfSt) (s : State) : (modOvf c inst f s).plan = s.plan := rfl
@[simp] theorem modOvf_failInputs (c inst : Nat) (f : OvfSt → OvfSt) (s : State) : (modOvf c inst f s).failInputs = s.failInputs := rfl
@[simp] theorem modOvf_run (c inst : Nat) (f : OvfSt → OvfSt) (s : State) : (modOvf c inst f s).run = s.run := rfl
@[simp] theorem modOvf_cox (c inst : Nat) (f : OvfSt → OvfSt) (s : State) : (modOvf c inst f s).cox = s.cox := rfl
@[simp] theorem modOvf_collectors (c inst : Nat) (f : OvfSt → OvfSt) (s : State) : (modOvf c inst f s).collectors = s.collectors := rfl
@[simp] theorem modOvf_adm (c inst : Nat) (f : OvfSt → OvfSt) (s : State) : (modOvf c inst f s).adm = s.adm := rfl
@[simp] theorem modOvf_mem (c inst : Nat) (f : OvfSt → OvfSt) (s : State) : (modOvf c inst f s).mem = s.mem := rfl
@[simp] theorem modOvf_stm (c inst : Nat) (f : OvfSt → OvfSt) (s : State) : (modOvf c inst f s).stm = s.stm := rfl
@[simp] theorem modOvf_link (c inst : Nat) (f : OvfSt → OvfSt) (s : State) : (modOvf c inst f s).link = s.link := rfl
@[simp] theorem modOvf_red (c inst : Nat) (f : OvfSt → OvfSt) (s : State) : (modOvf c inst f s).red = s.red := rfl
@[simp] theorem modOvf_res (c inst : Nat) (f : OvfSt → OvfSt) (s : State) : (modOvf c inst f s).res = s.res := rfl
@[simp] theorem modOvf_pwr (c inst : Nat) (f : OvfSt → OvfSt) (s : State) : (modOvf c inst f s).pwr = s.pwr := rfl

/-! `setA` -/

@[simp] theorem setA_pending (c t n v : Nat) (s : State) : (setA c t n v s).pending = s.pending := rfl
@[simp] theorem setA_free (c t n v : Nat) (s : State) : (setA c t n v s).free = s.free := rfl
@[simp] theorem setA_out (c t n v : Nat) (s : State) : (setA c t n v s).out = s.out := rfl
@[simp] theorem setA_regs (c t n v : Nat) (s : State) : (setA c t n v s).regs = s.regs := rfl
@[simp] theorem setA_fuses (c t n v : Nat) (s : State) : (setA c t n v s).fuses = s.fuses := rfl
@[simp] theorem setA_flash (c t n v : Nat) (s : State) : (setA c t n v s).flash = s.flash := rfl
@[simp] theorem setA_disabled (c t n v : Nat) (s : State) : (setA c t n v s).disabled = s.disabled := rfl
@[simp] theorem setA_renumbered (c t n v : Nat) (s : State) : (setA c t n v s).renumbered = s.renumbered := rfl
@[simp] theorem setA_pins (c t n v : Nat) (s : State) : (setA c t n v s).pins = s.pins := rfl
@[simp] theorem setA_boot (c t n v : Nat) (s : State) : (setA c t n v s).boot = s.boot := rfl
@[simp] theorem setA_dev (c t n v : Nat) (s : State) : (setA c t n v s).dev = s.dev := rfl
@[simp] theorem setA_host (c t n v : Nat) (s : State) : (setA c t n v s).host = s.host := rfl
@[simp] theorem setA_cnt (c t n v : Nat) (s : State) : (setA c t n v s).cnt = s.cnt := rfl
@[simp] theorem setA_trace (c t n v : Nat) (s : State) : (setA c t n v s).trace = s.trace := rfl
@[simp] theorem setA_log (c t n v : Nat) (s : State) : (setA c t n v s).log = s.log := rfl
@[simp] theorem setA_mgmt (c t n v : Nat) (s : State) : (setA c t n v s).mgmt = s.mgmt := rfl
@[simp] theorem setA_stroke (c t n v : Nat) (s : State) : (setA c t n v s).stroke = s.stroke := rfl
@[simp] theorem setA_pkg (c t n v : Nat) (s : State) : (setA c t n v s).pkg = s.pkg := rfl
@[simp] theorem setA_sources (c t n v : Nat) (s : State) : (setA c t n v s).sources = s.sources := rfl
@[simp] theorem setA_captured (c t n v : Nat) (s : State) : (setA c t n v s).captured = s.captured := rfl
@[simp] theorem setA_mapBytes (c t n v : Nat) (s : State) : (setA c t n v s).mapBytes = s.mapBytes := rfl
@[simp] theorem setA_map (c t n v : Nat) (s : State) : (setA c t n v s).map = s.map := rfl
@[simp] theorem setA_plan (c t n v : Nat) (s : State) : (setA c t n v s).plan = s.plan := rfl
@[simp] theorem setA_failInputs (c t n v : Nat) (s : State) : (setA c t n v s).failInputs = s.failInputs := rfl
@[simp] theorem setA_run (c t n v : Nat) (s : State) : (setA c t n v s).run = s.run := rfl
@[simp] theorem setA_cox (c t n v : Nat) (s : State) : (setA c t n v s).cox = s.cox := rfl
@[simp] theorem setA_collectors (c t n v : Nat) (s : State) : (setA c t n v s).collectors = s.collectors := rfl
@[simp] theorem setA_adm (c t n v : Nat) (s : State) : (setA c t n v s).adm = s.adm := rfl
@[simp] theorem setA_mem (c t n v : Nat) (s : State) : (setA c t n v s).mem = s.mem := rfl
@[simp] theorem setA_stm (c t n v : Nat) (s : State) : (setA c t n v s).stm = s.stm := rfl
@[simp] theorem setA_link (c t n v : Nat) (s : State) : (setA c t n v s).link = s.link := rfl
@[simp] theorem setA_red (c t n v : Nat) (s : State) : (setA c t n v s).red = s.red := rfl
@[simp] theorem setA_res (c t n v : Nat) (s : State) : (setA c t n v s).res = s.res := rfl
@[simp] theorem setA_pwr (c t n v : Nat) (s : State) : (setA c t n v s).pwr = s.pwr := rfl

/-! `kAdd` -/

@[simp] theorem kAdd_pending (c k n : Nat) (s : State) : (kAdd c k n s).pending = s.pending := rfl
@[simp] theorem kAdd_free (c k n : Nat) (s : State) : (kAdd c k n s).free = s.free := rfl
@[simp] theorem kAdd_out (c k n : Nat) (s : State) : (kAdd c k n s).out = s.out := rfl
@[simp] theorem kAdd_regs (c k n : Nat) (s : State) : (kAdd c k n s).regs = s.regs := rfl
@[simp] theorem kAdd_fuses (c k n : Nat) (s : State) : (kAdd c k n s).fuses = s.fuses := rfl
@[simp] theorem kAdd_flash (c k n : Nat) (s : State) : (kAdd c k n s).flash = s.flash := rfl
@[simp] theorem kAdd_disabled (c k n : Nat) (s : State) : (kAdd c k n s).disabled = s.disabled := rfl
@[simp] theorem kAdd_renumbered (c k n : Nat) (s : State) : (kAdd c k n s).renumbered = s.renumbered := rfl
@[simp] theorem kAdd_pins (c k n : Nat) (s : State) : (kAdd c k n s).pins = s.pins := rfl
@[simp] theorem kAdd_boot (c k n : Nat) (s : State) : (kAdd c k n s).boot = s.boot := rfl
@[simp] theorem kAdd_dev (c k n : Nat) (s : State) : (kAdd c k n s).dev = s.dev := rfl
@[simp] theorem kAdd_host (c k n : Nat) (s : State) : (kAdd c k n s).host = s.host := rfl
@[simp] theorem kAdd_cnt (c k n : Nat) (s : State) : (kAdd c k n s).cnt = s.cnt := rfl
@[simp] theorem kAdd_trace (c k n : Nat) (s : State) : (kAdd c k n s).trace = s.trace := rfl
@[simp] theorem kAdd_log (c k n : Nat) (s : State) : (kAdd c k n s).log = s.log := rfl
@[simp] theorem kAdd_mgmt (c k n : Nat) (s : State) : (kAdd c k n s).mgmt = s.mgmt := rfl
@[simp] theorem kAdd_stroke (c k n : Nat) (s : State) : (kAdd c k n s).stroke = s.stroke := rfl
@[simp] theorem kAdd_pkg (c k n : Nat) (s : State) : (kAdd c k n s).pkg = s.pkg := rfl
@[simp] theorem kAdd_sources (c k n : Nat) (s : State) : (kAdd c k n s).sources = s.sources := rfl
@[simp] theorem kAdd_captured (c k n : Nat) (s : State) : (kAdd c k n s).captured = s.captured := rfl
@[simp] theorem kAdd_mapBytes (c k n : Nat) (s : State) : (kAdd c k n s).mapBytes = s.mapBytes := rfl
@[simp] theorem kAdd_map (c k n : Nat) (s : State) : (kAdd c k n s).map = s.map := rfl
@[simp] theorem kAdd_plan (c k n : Nat) (s : State) : (kAdd c k n s).plan = s.plan := rfl
@[simp] theorem kAdd_failInputs (c k n : Nat) (s : State) : (kAdd c k n s).failInputs = s.failInputs := rfl
@[simp] theorem kAdd_run (c k n : Nat) (s : State) : (kAdd c k n s).run = s.run := rfl
@[simp] theorem kAdd_cox (c k n : Nat) (s : State) : (kAdd c k n s).cox = s.cox := rfl
@[simp] theorem kAdd_collectors (c k n : Nat) (s : State) : (kAdd c k n s).collectors = s.collectors := rfl
@[simp] theorem kAdd_adm (c k n : Nat) (s : State) : (kAdd c k n s).adm = s.adm := rfl
@[simp] theorem kAdd_mem (c k n : Nat) (s : State) : (kAdd c k n s).mem = s.mem := rfl
@[simp] theorem kAdd_stm (c k n : Nat) (s : State) : (kAdd c k n s).stm = s.stm := rfl
@[simp] theorem kAdd_link (c k n : Nat) (s : State) : (kAdd c k n s).link = s.link := rfl
@[simp] theorem kAdd_red (c k n : Nat) (s : State) : (kAdd c k n s).red = s.red := rfl
@[simp] theorem kAdd_res (c k n : Nat) (s : State) : (kAdd c k n s).res = s.res := rfl
@[simp] theorem kAdd_pwr (c k n : Nat) (s : State) : (kAdd c k n s).pwr = s.pwr := rfl

/-! `wakeCore` -/

@[simp] theorem wakeCore_pending (c : Nat) (s : State) : (wakeCore c s).pending = s.pending := rfl
@[simp] theorem wakeCore_free (c : Nat) (s : State) : (wakeCore c s).free = s.free := rfl
@[simp] theorem wakeCore_out (c : Nat) (s : State) : (wakeCore c s).out = s.out := rfl
@[simp] theorem wakeCore_regs (c : Nat) (s : State) : (wakeCore c s).regs = s.regs := rfl
@[simp] theorem wakeCore_fuses (c : Nat) (s : State) : (wakeCore c s).fuses = s.fuses := rfl
@[simp] theorem wakeCore_flash (c : Nat) (s : State) : (wakeCore c s).flash = s.flash := rfl
@[simp] theorem wakeCore_disabled (c : Nat) (s : State) : (wakeCore c s).disabled = s.disabled := rfl
@[simp] theorem wakeCore_renumbered (c : Nat) (s : State) : (wakeCore c s).renumbered = s.renumbered := rfl
@[simp] theorem wakeCore_pins (c : Nat) (s : State) : (wakeCore c s).pins = s.pins := rfl
@[simp] theorem wakeCore_boot (c : Nat) (s : State) : (wakeCore c s).boot = s.boot := rfl
@[simp] theorem wakeCore_dev (c : Nat) (s : State) : (wakeCore c s).dev = s.dev := rfl
@[simp] theorem wakeCore_host (c : Nat) (s : State) : (wakeCore c s).host = s.host := rfl
@[simp] theorem wakeCore_cnt (c : Nat) (s : State) : (wakeCore c s).cnt = s.cnt := rfl
@[simp] theorem wakeCore_trace (c : Nat) (s : State) : (wakeCore c s).trace = s.trace := rfl
@[simp] theorem wakeCore_log (c : Nat) (s : State) : (wakeCore c s).log = s.log := rfl
@[simp] theorem wakeCore_mgmt (c : Nat) (s : State) : (wakeCore c s).mgmt = s.mgmt := rfl
@[simp] theorem wakeCore_stroke (c : Nat) (s : State) : (wakeCore c s).stroke = s.stroke := rfl
@[simp] theorem wakeCore_pkg (c : Nat) (s : State) : (wakeCore c s).pkg = s.pkg := rfl
@[simp] theorem wakeCore_sources (c : Nat) (s : State) : (wakeCore c s).sources = s.sources := rfl
@[simp] theorem wakeCore_captured (c : Nat) (s : State) : (wakeCore c s).captured = s.captured := rfl
@[simp] theorem wakeCore_mapBytes (c : Nat) (s : State) : (wakeCore c s).mapBytes = s.mapBytes := rfl
@[simp] theorem wakeCore_map (c : Nat) (s : State) : (wakeCore c s).map = s.map := rfl
@[simp] theorem wakeCore_plan (c : Nat) (s : State) : (wakeCore c s).plan = s.plan := rfl
@[simp] theorem wakeCore_failInputs (c : Nat) (s : State) : (wakeCore c s).failInputs = s.failInputs := rfl
@[simp] theorem wakeCore_run (c : Nat) (s : State) : (wakeCore c s).run = s.run := rfl
@[simp] theorem wakeCore_cox (c : Nat) (s : State) : (wakeCore c s).cox = s.cox := rfl
@[simp] theorem wakeCore_collectors (c : Nat) (s : State) : (wakeCore c s).collectors = s.collectors := rfl
@[simp] theorem wakeCore_adm (c : Nat) (s : State) : (wakeCore c s).adm = s.adm := rfl
@[simp] theorem wakeCore_mem (c : Nat) (s : State) : (wakeCore c s).mem = s.mem := rfl
@[simp] theorem wakeCore_stm (c : Nat) (s : State) : (wakeCore c s).stm = s.stm := rfl
@[simp] theorem wakeCore_link (c : Nat) (s : State) : (wakeCore c s).link = s.link := rfl
@[simp] theorem wakeCore_red (c : Nat) (s : State) : (wakeCore c s).red = s.red := rfl
@[simp] theorem wakeCore_res (c : Nat) (s : State) : (wakeCore c s).res = s.res := rfl
@[simp] theorem wakeCore_pwr (c : Nat) (s : State) : (wakeCore c s).pwr = s.pwr := rfl

/-! `asyncBegin` -/

@[simp] theorem asyncBegin_pending (c t : Nat) (s : State) : (asyncBegin c t s).pending = s.pending := rfl
@[simp] theorem asyncBegin_free (c t : Nat) (s : State) : (asyncBegin c t s).free = s.free := rfl
@[simp] theorem asyncBegin_out (c t : Nat) (s : State) : (asyncBegin c t s).out = s.out := rfl
@[simp] theorem asyncBegin_regs (c t : Nat) (s : State) : (asyncBegin c t s).regs = s.regs := rfl
@[simp] theorem asyncBegin_fuses (c t : Nat) (s : State) : (asyncBegin c t s).fuses = s.fuses := rfl
@[simp] theorem asyncBegin_flash (c t : Nat) (s : State) : (asyncBegin c t s).flash = s.flash := rfl
@[simp] theorem asyncBegin_disabled (c t : Nat) (s : State) : (asyncBegin c t s).disabled = s.disabled := rfl
@[simp] theorem asyncBegin_renumbered (c t : Nat) (s : State) : (asyncBegin c t s).renumbered = s.renumbered := rfl
@[simp] theorem asyncBegin_pins (c t : Nat) (s : State) : (asyncBegin c t s).pins = s.pins := rfl
@[simp] theorem asyncBegin_boot (c t : Nat) (s : State) : (asyncBegin c t s).boot = s.boot := rfl
@[simp] theorem asyncBegin_dev (c t : Nat) (s : State) : (asyncBegin c t s).dev = s.dev := rfl
@[simp] theorem asyncBegin_host (c t : Nat) (s : State) : (asyncBegin c t s).host = s.host := rfl
@[simp] theorem asyncBegin_cnt (c t : Nat) (s : State) : (asyncBegin c t s).cnt = s.cnt := rfl
@[simp] theorem asyncBegin_trace (c t : Nat) (s : State) : (asyncBegin c t s).trace = s.trace := rfl
@[simp] theorem asyncBegin_log (c t : Nat) (s : State) : (asyncBegin c t s).log = s.log := rfl
@[simp] theorem asyncBegin_mgmt (c t : Nat) (s : State) : (asyncBegin c t s).mgmt = s.mgmt := rfl
@[simp] theorem asyncBegin_stroke (c t : Nat) (s : State) : (asyncBegin c t s).stroke = s.stroke := rfl
@[simp] theorem asyncBegin_pkg (c t : Nat) (s : State) : (asyncBegin c t s).pkg = s.pkg := rfl
@[simp] theorem asyncBegin_sources (c t : Nat) (s : State) : (asyncBegin c t s).sources = s.sources := rfl
@[simp] theorem asyncBegin_captured (c t : Nat) (s : State) : (asyncBegin c t s).captured = s.captured := rfl
@[simp] theorem asyncBegin_mapBytes (c t : Nat) (s : State) : (asyncBegin c t s).mapBytes = s.mapBytes := rfl
@[simp] theorem asyncBegin_map (c t : Nat) (s : State) : (asyncBegin c t s).map = s.map := rfl
@[simp] theorem asyncBegin_plan (c t : Nat) (s : State) : (asyncBegin c t s).plan = s.plan := rfl
@[simp] theorem asyncBegin_failInputs (c t : Nat) (s : State) : (asyncBegin c t s).failInputs = s.failInputs := rfl
@[simp] theorem asyncBegin_run (c t : Nat) (s : State) : (asyncBegin c t s).run = s.run := rfl
@[simp] theorem asyncBegin_cox (c t : Nat) (s : State) : (asyncBegin c t s).cox = s.cox := rfl
@[simp] theorem asyncBegin_collectors (c t : Nat) (s : State) : (asyncBegin c t s).collectors = s.collectors := rfl
@[simp] theorem asyncBegin_adm (c t : Nat) (s : State) : (asyncBegin c t s).adm = s.adm := rfl
@[simp] theorem asyncBegin_mem (c t : Nat) (s : State) : (asyncBegin c t s).mem = s.mem := rfl
@[simp] theorem asyncBegin_stm (c t : Nat) (s : State) : (asyncBegin c t s).stm = s.stm := rfl
@[simp] theorem asyncBegin_link (c t : Nat) (s : State) : (asyncBegin c t s).link = s.link := rfl
@[simp] theorem asyncBegin_red (c t : Nat) (s : State) : (asyncBegin c t s).red = s.red := rfl
@[simp] theorem asyncBegin_res (c t : Nat) (s : State) : (asyncBegin c t s).res = s.res := rfl
@[simp] theorem asyncBegin_pwr (c t : Nat) (s : State) : (asyncBegin c t s).pwr = s.pwr := rfl

/-! `waitFor` -/

@[simp] theorem waitFor_pending (c t : Nat) (x : ThrWait) (s : State) : (waitFor c t x s).pending = s.pending := rfl
@[simp] theorem waitFor_free (c t : Nat) (x : ThrWait) (s : State) : (waitFor c t x s).free = s.free := rfl
@[simp] theorem waitFor_out (c t : Nat) (x : ThrWait) (s : State) : (waitFor c t x s).out = s.out := rfl
@[simp] theorem waitFor_regs (c t : Nat) (x : ThrWait) (s : State) : (waitFor c t x s).regs = s.regs := rfl
@[simp] theorem waitFor_fuses (c t : Nat) (x : ThrWait) (s : State) : (waitFor c t x s).fuses = s.fuses := rfl
@[simp] theorem waitFor_flash (c t : Nat) (x : ThrWait) (s : State) : (waitFor c t x s).flash = s.flash := rfl
@[simp] theorem waitFor_disabled (c t : Nat) (x : ThrWait) (s : State) : (waitFor c t x s).disabled = s.disabled := rfl
@[simp] theorem waitFor_renumbered (c t : Nat) (x : ThrWait) (s : State) : (waitFor c t x s).renumbered = s.renumbered := rfl
@[simp] theorem waitFor_pins (c t : Nat) (x : ThrWait) (s : State) : (waitFor c t x s).pins = s.pins := rfl
@[simp] theorem waitFor_boot (c t : Nat) (x : ThrWait) (s : State) : (waitFor c t x s).boot = s.boot := rfl
@[simp] theorem waitFor_dev (c t : Nat) (x : ThrWait) (s : State) : (waitFor c t x s).dev = s.dev := rfl
@[simp] theorem waitFor_host (c t : Nat) (x : ThrWait) (s : State) : (waitFor c t x s).host = s.host := rfl
@[simp] theorem waitFor_cnt (c t : Nat) (x : ThrWait) (s : State) : (waitFor c t x s).cnt = s.cnt := rfl
@[simp] theorem waitFor_trace (c t : Nat) (x : ThrWait) (s : State) : (waitFor c t x s).trace = s.trace := rfl
@[simp] theorem waitFor_log (c t : Nat) (x : ThrWait) (s : State) : (waitFor c t x s).log = s.log := rfl
@[simp] theorem waitFor_mgmt (c t : Nat) (x : ThrWait) (s : State) : (waitFor c t x s).mgmt = s.mgmt := rfl
@[simp] theorem waitFor_stroke (c t : Nat) (x : ThrWait) (s : State) : (waitFor c t x s).stroke = s.stroke := rfl
@[simp] theorem waitFor_pkg (c t : Nat) (x : ThrWait) (s : State) : (waitFor c t x s).pkg = s.pkg := rfl
@[simp] theorem waitFor_sources (c t : Nat) (x : ThrWait) (s : State) : (waitFor c t x s).sources = s.sources := rfl
@[simp] theorem waitFor_captured (c t : Nat) (x : ThrWait) (s : State) : (waitFor c t x s).captured = s.captured := rfl
@[simp] theorem waitFor_mapBytes (c t : Nat) (x : ThrWait) (s : State) : (waitFor c t x s).mapBytes = s.mapBytes := rfl
@[simp] theorem waitFor_map (c t : Nat) (x : ThrWait) (s : State) : (waitFor c t x s).map = s.map := rfl
@[simp] theorem waitFor_plan (c t : Nat) (x : ThrWait) (s : State) : (waitFor c t x s).plan = s.plan := rfl
@[simp] theorem waitFor_failInputs (c t : Nat) (x : ThrWait) (s : State) : (waitFor c t x s).failInputs = s.failInputs := rfl
@[simp] theorem waitFor_run (c t : Nat) (x : ThrWait) (s : State) : (waitFor c t x s).run = s.run := rfl
@[simp] theorem waitFor_cox (c t : Nat) (x : ThrWait) (s : State) : (waitFor c t x s).cox = s.cox := rfl
@[simp] theorem waitFor_collectors (c t : Nat) (x : ThrWait) (s : State) : (waitFor c t x s).collectors = s.collectors := rfl
@[simp] theorem waitFor_adm (c t : Nat) (x : ThrWait) (s : State) : (waitFor c t x s).adm = s.adm := rfl
@[simp] theorem waitFor_mem (c t : Nat) (x : ThrWait) (s : State) : (waitFor c t x s).mem = s.mem := rfl
@[simp] theorem waitFor_stm (c t : Nat) (x : ThrWait) (s : State) : (waitFor c t x s).stm = s.stm := rfl
@[simp] theorem waitFor_link (c t : Nat) (x : ThrWait) (s : State) : (waitFor c t x s).link = s.link := rfl
@[simp] theorem waitFor_red (c t : Nat) (x : ThrWait) (s : State) : (waitFor c t x s).red = s.red := rfl
@[simp] theorem waitFor_res (c t : Nat) (x : ThrWait) (s : State) : (waitFor c t x s).res = s.res := rfl
@[simp] theorem waitFor_pwr (c t : Nat) (x : ThrWait) (s : State) : (waitFor c t x s).pwr = s.pwr := rfl

/-! `setPc` -/

@[simp] theorem setPc_pending (c t pc : Nat) (s : State) : (setPc c t pc s).pending = s.pending := rfl
@[simp] theorem setPc_free (c t pc : Nat) (s : State) : (setPc c t pc s).free = s.free := rfl
@[simp] theorem setPc_out (c t pc : Nat) (s : State) : (setPc c t pc s).out = s.out := rfl
@[simp] theorem setPc_regs (c t pc : Nat) (s : State) : (setPc c t pc s).regs = s.regs := rfl
@[simp] theorem setPc_fuses (c t pc : Nat) (s : State) : (setPc c t pc s).fuses = s.fuses := rfl
@[simp] theorem setPc_flash (c t pc : Nat) (s : State) : (setPc c t pc s).flash = s.flash := rfl
@[simp] theorem setPc_disabled (c t pc : Nat) (s : State) : (setPc c t pc s).disabled = s.disabled := rfl
@[simp] theorem setPc_renumbered (c t pc : Nat) (s : State) : (setPc c t pc s).renumbered = s.renumbered := rfl
@[simp] theorem setPc_pins (c t pc : Nat) (s : State) : (setPc c t pc s).pins = s.pins := rfl
@[simp] theorem setPc_boot (c t pc : Nat) (s : State) : (setPc c t pc s).boot = s.boot := rfl
@[simp] theorem setPc_dev (c t pc : Nat) (s : State) : (setPc c t pc s).dev = s.dev := rfl
@[simp] theorem setPc_host (c t pc : Nat) (s : State) : (setPc c t pc s).host = s.host := rfl
@[simp] theorem setPc_cnt (c t pc : Nat) (s : State) : (setPc c t pc s).cnt = s.cnt := rfl
@[simp] theorem setPc_trace (c t pc : Nat) (s : State) : (setPc c t pc s).trace = s.trace := rfl
@[simp] theorem setPc_log (c t pc : Nat) (s : State) : (setPc c t pc s).log = s.log := rfl
@[simp] theorem setPc_mgmt (c t pc : Nat) (s : State) : (setPc c t pc s).mgmt = s.mgmt := rfl
@[simp] theorem setPc_stroke (c t pc : Nat) (s : State) : (setPc c t pc s).stroke = s.stroke := rfl
@[simp] theorem setPc_pkg (c t pc : Nat) (s : State) : (setPc c t pc s).pkg = s.pkg := rfl
@[simp] theorem setPc_sources (c t pc : Nat) (s : State) : (setPc c t pc s).sources = s.sources := rfl
@[simp] theorem setPc_captured (c t pc : Nat) (s : State) : (setPc c t pc s).captured = s.captured := rfl
@[simp] theorem setPc_mapBytes (c t pc : Nat) (s : State) : (setPc c t pc s).mapBytes = s.mapBytes := rfl
@[simp] theorem setPc_map (c t pc : Nat) (s : State) : (setPc c t pc s).map = s.map := rfl
@[simp] theorem setPc_plan (c t pc : Nat) (s : State) : (setPc c t pc s).plan = s.plan := rfl
@[simp] theorem setPc_failInputs (c t pc : Nat) (s : State) : (setPc c t pc s).failInputs = s.failInputs := rfl
@[simp] theorem setPc_run (c t pc : Nat) (s : State) : (setPc c t pc s).run = s.run := rfl
@[simp] theorem setPc_cox (c t pc : Nat) (s : State) : (setPc c t pc s).cox = s.cox := rfl
@[simp] theorem setPc_collectors (c t pc : Nat) (s : State) : (setPc c t pc s).collectors = s.collectors := rfl
@[simp] theorem setPc_adm (c t pc : Nat) (s : State) : (setPc c t pc s).adm = s.adm := rfl
@[simp] theorem setPc_mem (c t pc : Nat) (s : State) : (setPc c t pc s).mem = s.mem := rfl
@[simp] theorem setPc_stm (c t pc : Nat) (s : State) : (setPc c t pc s).stm = s.stm := rfl
@[simp] theorem setPc_link (c t pc : Nat) (s : State) : (setPc c t pc s).link = s.link := rfl
@[simp] theorem setPc_red (c t pc : Nat) (s : State) : (setPc c t pc s).red = s.red := rfl
@[simp] theorem setPc_res (c t pc : Nat) (s : State) : (setPc c t pc s).res = s.res := rfl
@[simp] theorem setPc_pwr (c t pc : Nat) (s : State) : (setPc c t pc s).pwr = s.pwr := rfl

/-! `setCycle` -/

@[simp] theorem setCycle_pending (c n : Nat) (s : State) : (setCycle c n s).pending = s.pending := rfl
@[simp] theorem setCycle_free (c n : Nat) (s : State) : (setCycle c n s).free = s.free := rfl
@[simp] theorem setCycle_out (c n : Nat) (s : State) : (setCycle c n s).out = s.out := rfl
@[simp] theorem setCycle_regs (c n : Nat) (s : State) : (setCycle c n s).regs = s.regs := rfl
@[simp] theorem setCycle_fuses (c n : Nat) (s : State) : (setCycle c n s).fuses = s.fuses := rfl
@[simp] theorem setCycle_flash (c n : Nat) (s : State) : (setCycle c n s).flash = s.flash := rfl
@[simp] theorem setCycle_disabled (c n : Nat) (s : State) : (setCycle c n s).disabled = s.disabled := rfl
@[simp] theorem setCycle_renumbered (c n : Nat) (s : State) : (setCycle c n s).renumbered = s.renumbered := rfl
@[simp] theorem setCycle_pins (c n : Nat) (s : State) : (setCycle c n s).pins = s.pins := rfl
@[simp] theorem setCycle_boot (c n : Nat) (s : State) : (setCycle c n s).boot = s.boot := rfl
@[simp] theorem setCycle_dev (c n : Nat) (s : State) : (setCycle c n s).dev = s.dev := rfl
@[simp] theorem setCycle_host (c n : Nat) (s : State) : (setCycle c n s).host = s.host := rfl
@[simp] theorem setCycle_cnt (c n : Nat) (s : State) : (setCycle c n s).cnt = s.cnt := rfl
@[simp] theorem setCycle_trace (c n : Nat) (s : State) : (setCycle c n s).trace = s.trace := rfl
@[simp] theorem setCycle_log (c n : Nat) (s : State) : (setCycle c n s).log = s.log := rfl
@[simp] theorem setCycle_mgmt (c n : Nat) (s : State) : (setCycle c n s).mgmt = s.mgmt := rfl
@[simp] theorem setCycle_stroke (c n : Nat) (s : State) : (setCycle c n s).stroke = s.stroke := rfl
@[simp] theorem setCycle_pkg (c n : Nat) (s : State) : (setCycle c n s).pkg = s.pkg := rfl
@[simp] theorem setCycle_sources (c n : Nat) (s : State) : (setCycle c n s).sources = s.sources := rfl
@[simp] theorem setCycle_captured (c n : Nat) (s : State) : (setCycle c n s).captured = s.captured := rfl
@[simp] theorem setCycle_mapBytes (c n : Nat) (s : State) : (setCycle c n s).mapBytes = s.mapBytes := rfl
@[simp] theorem setCycle_map (c n : Nat) (s : State) : (setCycle c n s).map = s.map := rfl
@[simp] theorem setCycle_plan (c n : Nat) (s : State) : (setCycle c n s).plan = s.plan := rfl
@[simp] theorem setCycle_failInputs (c n : Nat) (s : State) : (setCycle c n s).failInputs = s.failInputs := rfl
@[simp] theorem setCycle_run (c n : Nat) (s : State) : (setCycle c n s).run = s.run := rfl
@[simp] theorem setCycle_cox (c n : Nat) (s : State) : (setCycle c n s).cox = s.cox := rfl
@[simp] theorem setCycle_collectors (c n : Nat) (s : State) : (setCycle c n s).collectors = s.collectors := rfl
@[simp] theorem setCycle_adm (c n : Nat) (s : State) : (setCycle c n s).adm = s.adm := rfl
@[simp] theorem setCycle_mem (c n : Nat) (s : State) : (setCycle c n s).mem = s.mem := rfl
@[simp] theorem setCycle_stm (c n : Nat) (s : State) : (setCycle c n s).stm = s.stm := rfl
@[simp] theorem setCycle_link (c n : Nat) (s : State) : (setCycle c n s).link = s.link := rfl
@[simp] theorem setCycle_red (c n : Nat) (s : State) : (setCycle c n s).red = s.red := rfl
@[simp] theorem setCycle_res (c n : Nat) (s : State) : (setCycle c n s).res = s.res := rfl
@[simp] theorem setCycle_pwr (c n : Nat) (s : State) : (setCycle c n s).pwr = s.pwr := rfl

/-! `accept` -/

@[simp] theorem accept_pending (q : Nat) (s : State) : (accept q s).pending = s.pending := rfl
@[simp] theorem accept_free (q : Nat) (s : State) : (accept q s).free = s.free := rfl
@[simp] theorem accept_out (q : Nat) (s : State) : (accept q s).out = s.out := rfl
@[simp] theorem accept_regs (q : Nat) (s : State) : (accept q s).regs = s.regs := rfl
@[simp] theorem accept_fuses (q : Nat) (s : State) : (accept q s).fuses = s.fuses := rfl
@[simp] theorem accept_flash (q : Nat) (s : State) : (accept q s).flash = s.flash := rfl
@[simp] theorem accept_disabled (q : Nat) (s : State) : (accept q s).disabled = s.disabled := rfl
@[simp] theorem accept_renumbered (q : Nat) (s : State) : (accept q s).renumbered = s.renumbered := rfl
@[simp] theorem accept_pins (q : Nat) (s : State) : (accept q s).pins = s.pins := rfl
@[simp] theorem accept_boot (q : Nat) (s : State) : (accept q s).boot = s.boot := rfl
@[simp] theorem accept_dev (q : Nat) (s : State) : (accept q s).dev = s.dev := rfl
@[simp] theorem accept_cnt (q : Nat) (s : State) : (accept q s).cnt = s.cnt := rfl
@[simp] theorem accept_trace (q : Nat) (s : State) : (accept q s).trace = s.trace := rfl
@[simp] theorem accept_log (q : Nat) (s : State) : (accept q s).log = s.log := rfl
@[simp] theorem accept_mgmt (q : Nat) (s : State) : (accept q s).mgmt = s.mgmt := rfl
@[simp] theorem accept_stroke (q : Nat) (s : State) : (accept q s).stroke = s.stroke := rfl
@[simp] theorem accept_pkg (q : Nat) (s : State) : (accept q s).pkg = s.pkg := rfl
@[simp] theorem accept_sources (q : Nat) (s : State) : (accept q s).sources = s.sources := rfl
@[simp] theorem accept_captured (q : Nat) (s : State) : (accept q s).captured = s.captured := rfl
@[simp] theorem accept_mapBytes (q : Nat) (s : State) : (accept q s).mapBytes = s.mapBytes := rfl
@[simp] theorem accept_map (q : Nat) (s : State) : (accept q s).map = s.map := rfl
@[simp] theorem accept_plan (q : Nat) (s : State) : (accept q s).plan = s.plan := rfl
@[simp] theorem accept_failInputs (q : Nat) (s : State) : (accept q s).failInputs = s.failInputs := rfl
@[simp] theorem accept_run (q : Nat) (s : State) : (accept q s).run = s.run := rfl
@[simp] theorem accept_cox (q : Nat) (s : State) : (accept q s).cox = s.cox := rfl
@[simp] theorem accept_collectors (q : Nat) (s : State) : (accept q s).collectors = s.collectors := rfl
@[simp] theorem accept_adm (q : Nat) (s : State) : (accept q s).adm = s.adm := rfl
@[simp] theorem accept_cores (q : Nat) (s : State) : (accept q s).cores = s.cores := rfl
@[simp] theorem accept_mem (q : Nat) (s : State) : (accept q s).mem = s.mem := rfl
@[simp] theorem accept_stm (q : Nat) (s : State) : (accept q s).stm = s.stm := rfl
@[simp] theorem accept_link (q : Nat) (s : State) : (accept q s).link = s.link := rfl
@[simp] theorem accept_red (q : Nat) (s : State) : (accept q s).red = s.red := rfl
@[simp] theorem accept_res (q : Nat) (s : State) : (accept q s).res = s.res := rfl
@[simp] theorem accept_pwr (q : Nat) (s : State) : (accept q s).pwr = s.pwr := rfl

/-! `health` -/

@[simp] theorem health_pending (input n : Nat) (s : State) : (health input n s).pending = s.pending := rfl
@[simp] theorem health_free (input n : Nat) (s : State) : (health input n s).free = s.free := rfl
@[simp] theorem health_out (input n : Nat) (s : State) : (health input n s).out = s.out := rfl
@[simp] theorem health_regs (input n : Nat) (s : State) : (health input n s).regs = s.regs := rfl
@[simp] theorem health_fuses (input n : Nat) (s : State) : (health input n s).fuses = s.fuses := rfl
@[simp] theorem health_flash (input n : Nat) (s : State) : (health input n s).flash = s.flash := rfl
@[simp] theorem health_disabled (input n : Nat) (s : State) : (health input n s).disabled = s.disabled := rfl
@[simp] theorem health_renumbered (input n : Nat) (s : State) : (health input n s).renumbered = s.renumbered := rfl
@[simp] theorem health_pins (input n : Nat) (s : State) : (health input n s).pins = s.pins := rfl
@[simp] theorem health_boot (input n : Nat) (s : State) : (health input n s).boot = s.boot := rfl
@[simp] theorem health_dev (input n : Nat) (s : State) : (health input n s).dev = s.dev := rfl
@[simp] theorem health_host (input n : Nat) (s : State) : (health input n s).host = s.host := rfl
@[simp] theorem health_cnt (input n : Nat) (s : State) : (health input n s).cnt = s.cnt := rfl
@[simp] theorem health_trace (input n : Nat) (s : State) : (health input n s).trace = s.trace := rfl
@[simp] theorem health_log (input n : Nat) (s : State) : (health input n s).log = s.log := rfl
@[simp] theorem health_mgmt (input n : Nat) (s : State) : (health input n s).mgmt = s.mgmt := rfl
@[simp] theorem health_stroke (input n : Nat) (s : State) : (health input n s).stroke = s.stroke := rfl
@[simp] theorem health_pkg (input n : Nat) (s : State) : (health input n s).pkg = s.pkg := rfl
@[simp] theorem health_sources (input n : Nat) (s : State) : (health input n s).sources = s.sources := rfl
@[simp] theorem health_captured (input n : Nat) (s : State) : (health input n s).captured = s.captured := rfl
@[simp] theorem health_mapBytes (input n : Nat) (s : State) : (health input n s).mapBytes = s.mapBytes := rfl
@[simp] theorem health_map (input n : Nat) (s : State) : (health input n s).map = s.map := rfl
@[simp] theorem health_plan (input n : Nat) (s : State) : (health input n s).plan = s.plan := rfl
@[simp] theorem health_failInputs (input n : Nat) (s : State) : (health input n s).failInputs = s.failInputs := rfl
@[simp] theorem health_run (input n : Nat) (s : State) : (health input n s).run = s.run := rfl
@[simp] theorem health_cox (input n : Nat) (s : State) : (health input n s).cox = s.cox := rfl
@[simp] theorem health_collectors (input n : Nat) (s : State) : (health input n s).collectors = s.collectors := rfl
@[simp] theorem health_adm (input n : Nat) (s : State) : (health input n s).adm = s.adm := rfl
@[simp] theorem health_cores (input n : Nat) (s : State) : (health input n s).cores = s.cores := rfl
@[simp] theorem health_mem (input n : Nat) (s : State) : (health input n s).mem = s.mem := rfl
@[simp] theorem health_stm (input n : Nat) (s : State) : (health input n s).stm = s.stm := rfl
@[simp] theorem health_link (input n : Nat) (s : State) : (health input n s).link = s.link := rfl
@[simp] theorem health_red (input n : Nat) (s : State) : (health input n s).red = s.red := rfl
@[simp] theorem health_pwr (input n : Nat) (s : State) : (health input n s).pwr = s.pwr := rfl

/-! `attnBase` -/

@[simp] theorem attnBase_pending (cls : Nat) (s : State) : (attnBase cls s).pending = s.pending := rfl
@[simp] theorem attnBase_free (cls : Nat) (s : State) : (attnBase cls s).free = s.free := rfl
@[simp] theorem attnBase_out (cls : Nat) (s : State) : (attnBase cls s).out = s.out := rfl
@[simp] theorem attnBase_regs (cls : Nat) (s : State) : (attnBase cls s).regs = s.regs := rfl
@[simp] theorem attnBase_fuses (cls : Nat) (s : State) : (attnBase cls s).fuses = s.fuses := rfl
@[simp] theorem attnBase_flash (cls : Nat) (s : State) : (attnBase cls s).flash = s.flash := rfl
@[simp] theorem attnBase_disabled (cls : Nat) (s : State) : (attnBase cls s).disabled = s.disabled := rfl
@[simp] theorem attnBase_renumbered (cls : Nat) (s : State) : (attnBase cls s).renumbered = s.renumbered := rfl
@[simp] theorem attnBase_pins (cls : Nat) (s : State) : (attnBase cls s).pins = s.pins := rfl
@[simp] theorem attnBase_boot (cls : Nat) (s : State) : (attnBase cls s).boot = s.boot := rfl
@[simp] theorem attnBase_dev (cls : Nat) (s : State) : (attnBase cls s).dev = s.dev := rfl
@[simp] theorem attnBase_trace (cls : Nat) (s : State) : (attnBase cls s).trace = s.trace := rfl
@[simp] theorem attnBase_log (cls : Nat) (s : State) : (attnBase cls s).log = s.log := rfl
@[simp] theorem attnBase_mgmt (cls : Nat) (s : State) : (attnBase cls s).mgmt = s.mgmt := rfl
@[simp] theorem attnBase_stroke (cls : Nat) (s : State) : (attnBase cls s).stroke = s.stroke := rfl
@[simp] theorem attnBase_pkg (cls : Nat) (s : State) : (attnBase cls s).pkg = s.pkg := rfl
@[simp] theorem attnBase_sources (cls : Nat) (s : State) : (attnBase cls s).sources = s.sources := rfl
@[simp] theorem attnBase_captured (cls : Nat) (s : State) : (attnBase cls s).captured = s.captured := rfl
@[simp] theorem attnBase_mapBytes (cls : Nat) (s : State) : (attnBase cls s).mapBytes = s.mapBytes := rfl
@[simp] theorem attnBase_map (cls : Nat) (s : State) : (attnBase cls s).map = s.map := rfl
@[simp] theorem attnBase_plan (cls : Nat) (s : State) : (attnBase cls s).plan = s.plan := rfl
@[simp] theorem attnBase_failInputs (cls : Nat) (s : State) : (attnBase cls s).failInputs = s.failInputs := rfl
@[simp] theorem attnBase_run (cls : Nat) (s : State) : (attnBase cls s).run = s.run := rfl
@[simp] theorem attnBase_cox (cls : Nat) (s : State) : (attnBase cls s).cox = s.cox := rfl
@[simp] theorem attnBase_collectors (cls : Nat) (s : State) : (attnBase cls s).collectors = s.collectors := rfl
@[simp] theorem attnBase_adm (cls : Nat) (s : State) : (attnBase cls s).adm = s.adm := rfl
@[simp] theorem attnBase_cores (cls : Nat) (s : State) : (attnBase cls s).cores = s.cores := rfl
@[simp] theorem attnBase_mem (cls : Nat) (s : State) : (attnBase cls s).mem = s.mem := rfl
@[simp] theorem attnBase_stm (cls : Nat) (s : State) : (attnBase cls s).stm = s.stm := rfl
@[simp] theorem attnBase_link (cls : Nat) (s : State) : (attnBase cls s).link = s.link := rfl
@[simp] theorem attnBase_red (cls : Nat) (s : State) : (attnBase cls s).red = s.red := rfl
@[simp] theorem attnBase_res (cls : Nat) (s : State) : (attnBase cls s).res = s.res := rfl
@[simp] theorem attnBase_pwr (cls : Nat) (s : State) : (attnBase cls s).pwr = s.pwr := rfl

/-! `setS` -/

@[simp] theorem setS_pending (c t n v : Nat) (s : State) : (setS c t n v s).pending = s.pending := by unfold setS; split <;> rfl
@[simp] theorem setS_free (c t n v : Nat) (s : State) : (setS c t n v s).free = s.free := by unfold setS; split <;> rfl
@[simp] theorem setS_out (c t n v : Nat) (s : State) : (setS c t n v s).out = s.out := by unfold setS; split <;> rfl
@[simp] theorem setS_regs (c t n v : Nat) (s : State) : (setS c t n v s).regs = s.regs := by unfold setS; split <;> rfl
@[simp] theorem setS_fuses (c t n v : Nat) (s : State) : (setS c t n v s).fuses = s.fuses := by unfold setS; split <;> rfl
@[simp] theorem setS_flash (c t n v : Nat) (s : State) : (setS c t n v s).flash = s.flash := by unfold setS; split <;> rfl
@[simp] theorem setS_disabled (c t n v : Nat) (s : State) : (setS c t n v s).disabled = s.disabled := by unfold setS; split <;> rfl
@[simp] theorem setS_renumbered (c t n v : Nat) (s : State) : (setS c t n v s).renumbered = s.renumbered := by unfold setS; split <;> rfl
@[simp] theorem setS_pins (c t n v : Nat) (s : State) : (setS c t n v s).pins = s.pins := by unfold setS; split <;> rfl
@[simp] theorem setS_boot (c t n v : Nat) (s : State) : (setS c t n v s).boot = s.boot := by unfold setS; split <;> rfl
@[simp] theorem setS_dev (c t n v : Nat) (s : State) : (setS c t n v s).dev = s.dev := by unfold setS; split <;> rfl
@[simp] theorem setS_host (c t n v : Nat) (s : State) : (setS c t n v s).host = s.host := by unfold setS; split <;> rfl
@[simp] theorem setS_cnt (c t n v : Nat) (s : State) : (setS c t n v s).cnt = s.cnt := by unfold setS; split <;> rfl
@[simp] theorem setS_trace (c t n v : Nat) (s : State) : (setS c t n v s).trace = s.trace := by unfold setS; split <;> rfl
@[simp] theorem setS_log (c t n v : Nat) (s : State) : (setS c t n v s).log = s.log := by unfold setS; split <;> rfl
@[simp] theorem setS_mgmt (c t n v : Nat) (s : State) : (setS c t n v s).mgmt = s.mgmt := by unfold setS; split <;> rfl
@[simp] theorem setS_stroke (c t n v : Nat) (s : State) : (setS c t n v s).stroke = s.stroke := by unfold setS; split <;> rfl
@[simp] theorem setS_pkg (c t n v : Nat) (s : State) : (setS c t n v s).pkg = s.pkg := by unfold setS; split <;> rfl
@[simp] theorem setS_sources (c t n v : Nat) (s : State) : (setS c t n v s).sources = s.sources := by unfold setS; split <;> rfl
@[simp] theorem setS_captured (c t n v : Nat) (s : State) : (setS c t n v s).captured = s.captured := by unfold setS; split <;> rfl
@[simp] theorem setS_mapBytes (c t n v : Nat) (s : State) : (setS c t n v s).mapBytes = s.mapBytes := by unfold setS; split <;> rfl
@[simp] theorem setS_map (c t n v : Nat) (s : State) : (setS c t n v s).map = s.map := by unfold setS; split <;> rfl
@[simp] theorem setS_plan (c t n v : Nat) (s : State) : (setS c t n v s).plan = s.plan := by unfold setS; split <;> rfl
@[simp] theorem setS_failInputs (c t n v : Nat) (s : State) : (setS c t n v s).failInputs = s.failInputs := by unfold setS; split <;> rfl
@[simp] theorem setS_run (c t n v : Nat) (s : State) : (setS c t n v s).run = s.run := by unfold setS; split <;> rfl
@[simp] theorem setS_cox (c t n v : Nat) (s : State) : (setS c t n v s).cox = s.cox := by unfold setS; split <;> rfl
@[simp] theorem setS_collectors (c t n v : Nat) (s : State) : (setS c t n v s).collectors = s.collectors := by unfold setS; split <;> rfl
@[simp] theorem setS_adm (c t n v : Nat) (s : State) : (setS c t n v s).adm = s.adm := by unfold setS; split <;> rfl
@[simp] theorem setS_mem (c t n v : Nat) (s : State) : (setS c t n v s).mem = s.mem := by unfold setS; split <;> rfl
@[simp] theorem setS_stm (c t n v : Nat) (s : State) : (setS c t n v s).stm = s.stm := by unfold setS; split <;> rfl
@[simp] theorem setS_link (c t n v : Nat) (s : State) : (setS c t n v s).link = s.link := by unfold setS; split <;> rfl
@[simp] theorem setS_red (c t n v : Nat) (s : State) : (setS c t n v s).red = s.red := by unfold setS; split <;> rfl
@[simp] theorem setS_res (c t n v : Nat) (s : State) : (setS c t n v s).res = s.res := by unfold setS; split <;> rfl
@[simp] theorem setS_pwr (c t n v : Nat) (s : State) : (setS c t n v s).pwr = s.pwr := by unfold setS; split <;> rfl

/-! `logEnter` -/

@[simp] theorem logEnter_pending (typ : Nat) (args : List Byte) (s : State) : (logEnter typ args s).pending = s.pending := rfl
@[simp] theorem logEnter_free (typ : Nat) (args : List Byte) (s : State) : (logEnter typ args s).free = s.free := rfl
@[simp] theorem logEnter_out (typ : Nat) (args : List Byte) (s : State) : (logEnter typ args s).out = s.out := rfl
@[simp] theorem logEnter_regs (typ : Nat) (args : List Byte) (s : State) : (logEnter typ args s).regs = s.regs := rfl
@[simp] theorem logEnter_fuses (typ : Nat) (args : List Byte) (s : State) : (logEnter typ args s).fuses = s.fuses := rfl
@[simp] theorem logEnter_flash (typ : Nat) (args : List Byte) (s : State) : (logEnter typ args s).flash = s.flash := rfl
@[simp] theorem logEnter_disabled (typ : Nat) (args : List Byte) (s : State) : (logEnter typ args s).disabled = s.disabled := rfl
@[simp] theorem logEnter_renumbered (typ : Nat) (args : List Byte) (s : State) : (logEnter typ args s).renumbered = s.renumbered := rfl
@[simp] theorem logEnter_pins (typ : Nat) (args : List Byte) (s : State) : (logEnter typ args s).pins = s.pins := rfl
@[simp] theorem logEnter_boot (typ : Nat) (args : List Byte) (s : State) : (logEnter typ args s).boot = s.boot := rfl
@[simp] theorem logEnter_dev (typ : Nat) (args : List Byte) (s : State) : (logEnter typ args s).dev = s.dev := rfl
@[simp] theorem logEnter_cnt (typ : Nat) (args : List Byte) (s : State) : (logEnter typ args s).cnt = s.cnt := rfl
@[simp] theorem logEnter_trace (typ : Nat) (args : List Byte) (s : State) : (logEnter typ args s).trace = s.trace := rfl
@[simp] theorem logEnter_mgmt (typ : Nat) (args : List Byte) (s : State) : (logEnter typ args s).mgmt = s.mgmt := rfl
@[simp] theorem logEnter_stroke (typ : Nat) (args : List Byte) (s : State) : (logEnter typ args s).stroke = s.stroke := rfl
@[simp] theorem logEnter_pkg (typ : Nat) (args : List Byte) (s : State) : (logEnter typ args s).pkg = s.pkg := rfl
@[simp] theorem logEnter_sources (typ : Nat) (args : List Byte) (s : State) : (logEnter typ args s).sources = s.sources := rfl
@[simp] theorem logEnter_captured (typ : Nat) (args : List Byte) (s : State) : (logEnter typ args s).captured = s.captured := rfl
@[simp] theorem logEnter_mapBytes (typ : Nat) (args : List Byte) (s : State) : (logEnter typ args s).mapBytes = s.mapBytes := rfl
@[simp] theorem logEnter_map (typ : Nat) (args : List Byte) (s : State) : (logEnter typ args s).map = s.map := rfl
@[simp] theorem logEnter_plan (typ : Nat) (args : List Byte) (s : State) : (logEnter typ args s).plan = s.plan := rfl
@[simp] theorem logEnter_failInputs (typ : Nat) (args : List Byte) (s : State) : (logEnter typ args s).failInputs = s.failInputs := rfl
@[simp] theorem logEnter_run (typ : Nat) (args : List Byte) (s : State) : (logEnter typ args s).run = s.run := rfl
@[simp] theorem logEnter_cox (typ : Nat) (args : List Byte) (s : State) : (logEnter typ args s).cox = s.cox := rfl
@[simp] theorem logEnter_collectors (typ : Nat) (args : List Byte) (s : State) : (logEnter typ args s).collectors = s.collectors := rfl
@[simp] theorem logEnter_adm (typ : Nat) (args : List Byte) (s : State) : (logEnter typ args s).adm = s.adm := rfl
@[simp] theorem logEnter_cores (typ : Nat) (args : List Byte) (s : State) : (logEnter typ args s).cores = s.cores := rfl
@[simp] theorem logEnter_mem (typ : Nat) (args : List Byte) (s : State) : (logEnter typ args s).mem = s.mem := rfl
@[simp] theorem logEnter_stm (typ : Nat) (args : List Byte) (s : State) : (logEnter typ args s).stm = s.stm := rfl
@[simp] theorem logEnter_link (typ : Nat) (args : List Byte) (s : State) : (logEnter typ args s).link = s.link := rfl
@[simp] theorem logEnter_red (typ : Nat) (args : List Byte) (s : State) : (logEnter typ args s).red = s.red := rfl
@[simp] theorem logEnter_res (typ : Nat) (args : List Byte) (s : State) : (logEnter typ args s).res = s.res := rfl
@[simp] theorem logEnter_pwr (typ : Nat) (args : List Byte) (s : State) : (logEnter typ args s).pwr = s.pwr := rfl

/-! `logEv` -/

@[simp] theorem logEv_pending (typ : Nat) (args : List Byte) (s : State) : (logEv typ args s).pending = s.pending := by
  unfold logEv; split
  · rfl
  · dsimp only; split <;> split <;> rfl
@[simp] theorem logEv_free (typ : Nat) (args : List Byte) (s : State) : (logEv typ args s).free = s.free := by
  unfold logEv; split
  · rfl
  · dsimp only; split <;> split <;> rfl
@[simp] theorem logEv_out (typ : Nat) (args : List Byte) (s : State) : (logEv typ args s).out = s.out := by
  unfold logEv; split
  · rfl
  · dsimp only; split <;> split <;> rfl
@[simp] theorem logEv_regs (typ : Nat) (args : List Byte) (s : State) : (logEv typ args s).regs = s.regs := by
  unfold logEv; split
  · rfl
  · dsimp only; split <;> split <;> rfl
@[simp] theorem logEv_fuses (typ : Nat) (args : List Byte) (s : State) : (logEv typ args s).fuses = s.fuses := by
  unfold logEv; split
  · rfl
  · dsimp only; split <;> split <;> rfl
@[simp] theorem logEv_flash (typ : Nat) (args : List Byte) (s : State) : (logEv typ args s).flash = s.flash := by
  unfold logEv; split
  · rfl
  · dsimp only; split <;> split <;> rfl
@[simp] theorem logEv_disabled (typ : Nat) (args : List Byte) (s : State) : (logEv typ args s).disabled = s.disabled := by
  unfold logEv; split
  · rfl
  · dsimp only; split <;> split <;> rfl
@[simp] theorem logEv_renumbered (typ : Nat) (args : List Byte) (s : State) : (logEv typ args s).renumbered = s.renumbered := by
  unfold logEv; split
  · rfl
  · dsimp only; split <;> split <;> rfl
@[simp] theorem logEv_pins (typ : Nat) (args : List Byte) (s : State) : (logEv typ args s).pins = s.pins := by
  unfold logEv; split
  · rfl
  · dsimp only; split <;> split <;> rfl
@[simp] theorem logEv_boot (typ : Nat) (args : List Byte) (s : State) : (logEv typ args s).boot = s.boot := by
  unfold logEv; split
  · rfl
  · dsimp only; split <;> split <;> rfl
@[simp] theorem logEv_dev (typ : Nat) (args : List Byte) (s : State) : (logEv typ args s).dev = s.dev := by
  unfold logEv; split
  · rfl
  · dsimp only; split <;> split <;> rfl
@[simp] theorem logEv_cnt (typ : Nat) (args : List Byte) (s : State) : (logEv typ args s).cnt = s.cnt := by
  unfold logEv; split
  · rfl
  · dsimp only; split <;> split <;> rfl
@[simp] theorem logEv_trace (typ : Nat) (args : List Byte) (s : State) : (logEv typ args s).trace = s.trace := by
  unfold logEv; split
  · rfl
  · dsimp only; split <;> split <;> rfl
@[simp] theorem logEv_mgmt (typ : Nat) (args : List Byte) (s : State) : (logEv typ args s).mgmt = s.mgmt := by
  unfold logEv; split
  · rfl
  · dsimp only; split <;> split <;> rfl
@[simp] theorem logEv_stroke (typ : Nat) (args : List Byte) (s : State) : (logEv typ args s).stroke = s.stroke := by
  unfold logEv; split
  · rfl
  · dsimp only; split <;> split <;> rfl
@[simp] theorem logEv_pkg (typ : Nat) (args : List Byte) (s : State) : (logEv typ args s).pkg = s.pkg := by
  unfold logEv; split
  · rfl
  · dsimp only; split <;> split <;> rfl
@[simp] theorem logEv_sources (typ : Nat) (args : List Byte) (s : State) : (logEv typ args s).sources = s.sources := by
  unfold logEv; split
  · rfl
  · dsimp only; split <;> split <;> rfl
@[simp] theorem logEv_captured (typ : Nat) (args : List Byte) (s : State) : (logEv typ args s).captured = s.captured := by
  unfold logEv; split
  · rfl
  · dsimp only; split <;> split <;> rfl
@[simp] theorem logEv_mapBytes (typ : Nat) (args : List Byte) (s : State) : (logEv typ args s).mapBytes = s.mapBytes := by
  unfold logEv; split
  · rfl
  · dsimp only; split <;> split <;> rfl
@[simp] theorem logEv_map (typ : Nat) (args : List Byte) (s : State) : (logEv typ args s).map = s.map := by
  unfold logEv; split
  · rfl
  · dsimp only; split <;> split <;> rfl
@[simp] theorem logEv_plan (typ : Nat) (args : List Byte) (s : State) : (logEv typ args s).plan = s.plan := by
  unfold logEv; split
  · rfl
  · dsimp only; split <;> split <;> rfl
@[simp] theorem logEv_failInputs (typ : Nat) (args : List Byte) (s : State) : (logEv typ args s).failInputs = s.failInputs := by
  unfold logEv; split
  · rfl
  · dsimp only; split <;> split <;> rfl
@[simp] theorem logEv_run (typ : Nat) (args : List Byte) (s : State) : (logEv typ args s).run = s.run := by
  unfold logEv; split
  · rfl
  · dsimp only; split <;> split <;> rfl
@[simp] theorem logEv_cox (typ : Nat) (args : List Byte) (s : State) : (logEv typ args s).cox = s.cox := by
  unfold logEv; split
  · rfl
  · dsimp only; split <;> split <;> rfl
@[simp] theorem logEv_collectors (typ : Nat) (args : List Byte) (s : State) : (logEv typ args s).collectors = s.collectors := by
  unfold logEv; split
  · rfl
  · dsimp only; split <;> split <;> rfl
@[simp] theorem logEv_adm (typ : Nat) (args : List Byte) (s : State) : (logEv typ args s).adm = s.adm := by
  unfold logEv; split
  · rfl
  · dsimp only; split <;> split <;> rfl
@[simp] theorem logEv_cores (typ : Nat) (args : List Byte) (s : State) : (logEv typ args s).cores = s.cores := by
  unfold logEv; split
  · rfl
  · dsimp only; split <;> split <;> rfl
@[simp] theorem logEv_mem (typ : Nat) (args : List Byte) (s : State) : (logEv typ args s).mem = s.mem := by
  unfold logEv; split
  · rfl
  · dsimp only; split <;> split <;> rfl
@[simp] theorem logEv_stm (typ : Nat) (args : List Byte) (s : State) : (logEv typ args s).stm = s.stm := by
  unfold logEv; split
  · rfl
  · dsimp only; split <;> split <;> rfl
@[simp] theorem logEv_link (typ : Nat) (args : List Byte) (s : State) : (logEv typ args s).link = s.link := by
  unfold logEv; split
  · rfl
  · dsimp only; split <;> split <;> rfl
@[simp] theorem logEv_red (typ : Nat) (args : List Byte) (s : State) : (logEv typ args s).red = s.red := by
  unfold logEv; split
  · rfl
  · dsimp only; split <;> split <;> rfl
@[simp] theorem logEv_res (typ : Nat) (args : List Byte) (s : State) : (logEv typ args s).res = s.res := by
  unfold logEv; split
  · rfl
  · dsimp only; split <;> split <;> rfl
@[simp] theorem logEv_pwr (typ : Nat) (args : List Byte) (s : State) : (logEv typ args s).pwr = s.pwr := by
  unfold logEv; split
  · rfl
  · dsimp only; split <;> split <;> rfl

/-! `satEvent` -/

@[simp] theorem satEvent_pending (off : Nat) (s : State) : (satEvent off s).pending = s.pending := by simp [satEvent]
@[simp] theorem satEvent_free (off : Nat) (s : State) : (satEvent off s).free = s.free := by simp [satEvent]
@[simp] theorem satEvent_out (off : Nat) (s : State) : (satEvent off s).out = s.out := by simp [satEvent]
@[simp] theorem satEvent_regs (off : Nat) (s : State) : (satEvent off s).regs = s.regs := by simp [satEvent]
@[simp] theorem satEvent_fuses (off : Nat) (s : State) : (satEvent off s).fuses = s.fuses := by simp [satEvent]
@[simp] theorem satEvent_flash (off : Nat) (s : State) : (satEvent off s).flash = s.flash := by simp [satEvent]
@[simp] theorem satEvent_disabled (off : Nat) (s : State) : (satEvent off s).disabled = s.disabled := by simp [satEvent]
@[simp] theorem satEvent_renumbered (off : Nat) (s : State) : (satEvent off s).renumbered = s.renumbered := by simp [satEvent]
@[simp] theorem satEvent_pins (off : Nat) (s : State) : (satEvent off s).pins = s.pins := by simp [satEvent]
@[simp] theorem satEvent_boot (off : Nat) (s : State) : (satEvent off s).boot = s.boot := by simp [satEvent]
@[simp] theorem satEvent_dev (off : Nat) (s : State) : (satEvent off s).dev = s.dev := by simp [satEvent]
@[simp] theorem satEvent_trace (off : Nat) (s : State) : (satEvent off s).trace = s.trace := by simp [satEvent]
@[simp] theorem satEvent_mgmt (off : Nat) (s : State) : (satEvent off s).mgmt = s.mgmt := by simp [satEvent]
@[simp] theorem satEvent_stroke (off : Nat) (s : State) : (satEvent off s).stroke = s.stroke := by simp [satEvent]
@[simp] theorem satEvent_pkg (off : Nat) (s : State) : (satEvent off s).pkg = s.pkg := by simp [satEvent]
@[simp] theorem satEvent_sources (off : Nat) (s : State) : (satEvent off s).sources = s.sources := by simp [satEvent]
@[simp] theorem satEvent_captured (off : Nat) (s : State) : (satEvent off s).captured = s.captured := by simp [satEvent]
@[simp] theorem satEvent_mapBytes (off : Nat) (s : State) : (satEvent off s).mapBytes = s.mapBytes := by simp [satEvent]
@[simp] theorem satEvent_map (off : Nat) (s : State) : (satEvent off s).map = s.map := by simp [satEvent]
@[simp] theorem satEvent_plan (off : Nat) (s : State) : (satEvent off s).plan = s.plan := by simp [satEvent]
@[simp] theorem satEvent_failInputs (off : Nat) (s : State) : (satEvent off s).failInputs = s.failInputs := by simp [satEvent]
@[simp] theorem satEvent_run (off : Nat) (s : State) : (satEvent off s).run = s.run := by simp [satEvent]
@[simp] theorem satEvent_cox (off : Nat) (s : State) : (satEvent off s).cox = s.cox := by simp [satEvent]
@[simp] theorem satEvent_collectors (off : Nat) (s : State) : (satEvent off s).collectors = s.collectors := by simp [satEvent]
@[simp] theorem satEvent_adm (off : Nat) (s : State) : (satEvent off s).adm = s.adm := by simp [satEvent]
@[simp] theorem satEvent_cores (off : Nat) (s : State) : (satEvent off s).cores = s.cores := by simp [satEvent]
@[simp] theorem satEvent_mem (off : Nat) (s : State) : (satEvent off s).mem = s.mem := by simp [satEvent]
@[simp] theorem satEvent_stm (off : Nat) (s : State) : (satEvent off s).stm = s.stm := by simp [satEvent]
@[simp] theorem satEvent_link (off : Nat) (s : State) : (satEvent off s).link = s.link := by simp [satEvent]
@[simp] theorem satEvent_red (off : Nat) (s : State) : (satEvent off s).red = s.red := by simp [satEvent]
@[simp] theorem satEvent_res (off : Nat) (s : State) : (satEvent off s).res = s.res := by simp [satEvent]
@[simp] theorem satEvent_pwr (off : Nat) (s : State) : (satEvent off s).pwr = s.pwr := by simp [satEvent]

/-! `bump` -/

@[simp] theorem bump_pending (off n : Nat) (s : State) : (bump off n s).pending = s.pending := by unfold bump; dsimp only; split <;> simp
@[simp] theorem bump_free (off n : Nat) (s : State) : (bump off n s).free = s.free := by unfold bump; dsimp only; split <;> simp
@[simp] theorem bump_out (off n : Nat) (s : State) : (bump off n s).out = s.out := by unfold bump; dsimp only; split <;> simp
@[simp] theorem bump_regs (off n : Nat) (s : State) : (bump off n s).regs = s.regs := by unfold bump; dsimp only; split <;> simp
@[simp] theorem bump_fuses (off n : Nat) (s : State) : (bump off n s).fuses = s.fuses := by unfold bump; dsimp only; split <;> simp
@[simp] theorem bump_flash (off n : Nat) (s : State) : (bump off n s).flash = s.flash := by unfold bump; dsimp only; split <;> simp
@[simp] theorem bump_disabled (off n : Nat) (s : State) : (bump off n s).disabled = s.disabled := by unfold bump; dsimp only; split <;> simp
@[simp] theorem bump_renumbered (off n : Nat) (s : State) : (bump off n s).renumbered = s.renumbered := by unfold bump; dsimp only; split <;> simp
@[simp] theorem bump_pins (off n : Nat) (s : State) : (bump off n s).pins = s.pins := by unfold bump; dsimp only; split <;> simp
@[simp] theorem bump_boot (off n : Nat) (s : State) : (bump off n s).boot = s.boot := by unfold bump; dsimp only; split <;> simp
@[simp] theorem bump_dev (off n : Nat) (s : State) : (bump off n s).dev = s.dev := by unfold bump; dsimp only; split <;> simp
@[simp] theorem bump_trace (off n : Nat) (s : State) : (bump off n s).trace = s.trace := by unfold bump; dsimp only; split <;> simp
@[simp] theorem bump_mgmt (off n : Nat) (s : State) : (bump off n s).mgmt = s.mgmt := by unfold bump; dsimp only; split <;> simp
@[simp] theorem bump_stroke (off n : Nat) (s : State) : (bump off n s).stroke = s.stroke := by unfold bump; dsimp only; split <;> simp
@[simp] theorem bump_pkg (off n : Nat) (s : State) : (bump off n s).pkg = s.pkg := by unfold bump; dsimp only; split <;> simp
@[simp] theorem bump_sources (off n : Nat) (s : State) : (bump off n s).sources = s.sources := by unfold bump; dsimp only; split <;> simp
@[simp] theorem bump_captured (off n : Nat) (s : State) : (bump off n s).captured = s.captured := by unfold bump; dsimp only; split <;> simp
@[simp] theorem bump_mapBytes (off n : Nat) (s : State) : (bump off n s).mapBytes = s.mapBytes := by unfold bump; dsimp only; split <;> simp
@[simp] theorem bump_map (off n : Nat) (s : State) : (bump off n s).map = s.map := by unfold bump; dsimp only; split <;> simp
@[simp] theorem bump_plan (off n : Nat) (s : State) : (bump off n s).plan = s.plan := by unfold bump; dsimp only; split <;> simp
@[simp] theorem bump_failInputs (off n : Nat) (s : State) : (bump off n s).failInputs = s.failInputs := by unfold bump; dsimp only; split <;> simp
@[simp] theorem bump_run (off n : Nat) (s : State) : (bump off n s).run = s.run := by unfold bump; dsimp only; split <;> simp
@[simp] theorem bump_cox (off n : Nat) (s : State) : (bump off n s).cox = s.cox := by unfold bump; dsimp only; split <;> simp
@[simp] theorem bump_collectors (off n : Nat) (s : State) : (bump off n s).collectors = s.collectors := by unfold bump; dsimp only; split <;> simp
@[simp] theorem bump_adm (off n : Nat) (s : State) : (bump off n s).adm = s.adm := by unfold bump; dsimp only; split <;> simp
@[simp] theorem bump_cores (off n : Nat) (s : State) : (bump off n s).cores = s.cores := by unfold bump; dsimp only; split <;> simp
@[simp] theorem bump_mem (off n : Nat) (s : State) : (bump off n s).mem = s.mem := by unfold bump; dsimp only; split <;> simp
@[simp] theorem bump_stm (off n : Nat) (s : State) : (bump off n s).stm = s.stm := by unfold bump; dsimp only; split <;> simp
@[simp] theorem bump_link (off n : Nat) (s : State) : (bump off n s).link = s.link := by unfold bump; dsimp only; split <;> simp
@[simp] theorem bump_red (off n : Nat) (s : State) : (bump off n s).red = s.red := by unfold bump; dsimp only; split <;> simp
@[simp] theorem bump_res (off n : Nat) (s : State) : (bump off n s).res = s.res := by unfold bump; dsimp only; split <;> simp
@[simp] theorem bump_pwr (off n : Nat) (s : State) : (bump off n s).pwr = s.pwr := by unfold bump; dsimp only; split <;> simp

/-! `attn` -/

@[simp] theorem attn_pending (cls : Nat) (s : State) : (attn cls s).pending = s.pending := by unfold attn; dsimp only; split <;> simp
@[simp] theorem attn_free (cls : Nat) (s : State) : (attn cls s).free = s.free := by unfold attn; dsimp only; split <;> simp
@[simp] theorem attn_out (cls : Nat) (s : State) : (attn cls s).out = s.out := by unfold attn; dsimp only; split <;> simp
@[simp] theorem attn_regs (cls : Nat) (s : State) : (attn cls s).regs = s.regs := by unfold attn; dsimp only; split <;> simp
@[simp] theorem attn_fuses (cls : Nat) (s : State) : (attn cls s).fuses = s.fuses := by unfold attn; dsimp only; split <;> simp
@[simp] theorem attn_flash (cls : Nat) (s : State) : (attn cls s).flash = s.flash := by unfold attn; dsimp only; split <;> simp
@[simp] theorem attn_disabled (cls : Nat) (s : State) : (attn cls s).disabled = s.disabled := by unfold attn; dsimp only; split <;> simp
@[simp] theorem attn_renumbered (cls : Nat) (s : State) : (attn cls s).renumbered = s.renumbered := by unfold attn; dsimp only; split <;> simp
@[simp] theorem attn_pins (cls : Nat) (s : State) : (attn cls s).pins = s.pins := by unfold attn; dsimp only; split <;> simp
@[simp] theorem attn_boot (cls : Nat) (s : State) : (attn cls s).boot = s.boot := by unfold attn; dsimp only; split <;> simp
@[simp] theorem attn_dev (cls : Nat) (s : State) : (attn cls s).dev = s.dev := by unfold attn; dsimp only; split <;> simp
@[simp] theorem attn_trace (cls : Nat) (s : State) : (attn cls s).trace = s.trace := by unfold attn; dsimp only; split <;> simp
@[simp] theorem attn_mgmt (cls : Nat) (s : State) : (attn cls s).mgmt = s.mgmt := by unfold attn; dsimp only; split <;> simp
@[simp] theorem attn_stroke (cls : Nat) (s : State) : (attn cls s).stroke = s.stroke := by unfold attn; dsimp only; split <;> simp
@[simp] theorem attn_pkg (cls : Nat) (s : State) : (attn cls s).pkg = s.pkg := by unfold attn; dsimp only; split <;> simp
@[simp] theorem attn_sources (cls : Nat) (s : State) : (attn cls s).sources = s.sources := by unfold attn; dsimp only; split <;> simp
@[simp] theorem attn_captured (cls : Nat) (s : State) : (attn cls s).captured = s.captured := by unfold attn; dsimp only; split <;> simp
@[simp] theorem attn_mapBytes (cls : Nat) (s : State) : (attn cls s).mapBytes = s.mapBytes := by unfold attn; dsimp only; split <;> simp
@[simp] theorem attn_map (cls : Nat) (s : State) : (attn cls s).map = s.map := by unfold attn; dsimp only; split <;> simp
@[simp] theorem attn_plan (cls : Nat) (s : State) : (attn cls s).plan = s.plan := by unfold attn; dsimp only; split <;> simp
@[simp] theorem attn_failInputs (cls : Nat) (s : State) : (attn cls s).failInputs = s.failInputs := by unfold attn; dsimp only; split <;> simp
@[simp] theorem attn_run (cls : Nat) (s : State) : (attn cls s).run = s.run := by unfold attn; dsimp only; split <;> simp
@[simp] theorem attn_cox (cls : Nat) (s : State) : (attn cls s).cox = s.cox := by unfold attn; dsimp only; split <;> simp
@[simp] theorem attn_collectors (cls : Nat) (s : State) : (attn cls s).collectors = s.collectors := by unfold attn; dsimp only; split <;> simp
@[simp] theorem attn_adm (cls : Nat) (s : State) : (attn cls s).adm = s.adm := by unfold attn; dsimp only; split <;> simp
@[simp] theorem attn_cores (cls : Nat) (s : State) : (attn cls s).cores = s.cores := by unfold attn; dsimp only; split <;> simp
@[simp] theorem attn_mem (cls : Nat) (s : State) : (attn cls s).mem = s.mem := by unfold attn; dsimp only; split <;> simp
@[simp] theorem attn_stm (cls : Nat) (s : State) : (attn cls s).stm = s.stm := by unfold attn; dsimp only; split <;> simp
@[simp] theorem attn_link (cls : Nat) (s : State) : (attn cls s).link = s.link := by unfold attn; dsimp only; split <;> simp
@[simp] theorem attn_red (cls : Nat) (s : State) : (attn cls s).red = s.red := by unfold attn; dsimp only; split <;> simp
@[simp] theorem attn_res (cls : Nat) (s : State) : (attn cls s).res = s.res := by unfold attn; dsimp only; split <;> simp
@[simp] theorem attn_pwr (cls : Nat) (s : State) : (attn cls s).pwr = s.pwr := by unfold attn; dsimp only; split <;> simp

/-! `advance` -/

@[simp] theorem advance_pending (c t : Nat) (s : State) : (advance c t s).pending = s.pending := by simp [advance]
@[simp] theorem advance_free (c t : Nat) (s : State) : (advance c t s).free = s.free := by simp [advance]
@[simp] theorem advance_out (c t : Nat) (s : State) : (advance c t s).out = s.out := by simp [advance]
@[simp] theorem advance_regs (c t : Nat) (s : State) : (advance c t s).regs = s.regs := by simp [advance]
@[simp] theorem advance_fuses (c t : Nat) (s : State) : (advance c t s).fuses = s.fuses := by simp [advance]
@[simp] theorem advance_flash (c t : Nat) (s : State) : (advance c t s).flash = s.flash := by simp [advance]
@[simp] theorem advance_disabled (c t : Nat) (s : State) : (advance c t s).disabled = s.disabled := by simp [advance]
@[simp] theorem advance_renumbered (c t : Nat) (s : State) : (advance c t s).renumbered = s.renumbered := by simp [advance]
@[simp] theorem advance_pins (c t : Nat) (s : State) : (advance c t s).pins = s.pins := by simp [advance]
@[simp] theorem advance_boot (c t : Nat) (s : State) : (advance c t s).boot = s.boot := by simp [advance]
@[simp] theorem advance_dev (c t : Nat) (s : State) : (advance c t s).dev = s.dev := by simp [advance]
@[simp] theorem advance_trace (c t : Nat) (s : State) : (advance c t s).trace = s.trace := by simp [advance]
@[simp] theorem advance_mgmt (c t : Nat) (s : State) : (advance c t s).mgmt = s.mgmt := by simp [advance]
@[simp] theorem advance_stroke (c t : Nat) (s : State) : (advance c t s).stroke = s.stroke := by simp [advance]
@[simp] theorem advance_pkg (c t : Nat) (s : State) : (advance c t s).pkg = s.pkg := by simp [advance]
@[simp] theorem advance_sources (c t : Nat) (s : State) : (advance c t s).sources = s.sources := by simp [advance]
@[simp] theorem advance_captured (c t : Nat) (s : State) : (advance c t s).captured = s.captured := by simp [advance]
@[simp] theorem advance_mapBytes (c t : Nat) (s : State) : (advance c t s).mapBytes = s.mapBytes := by simp [advance]
@[simp] theorem advance_map (c t : Nat) (s : State) : (advance c t s).map = s.map := by simp [advance]
@[simp] theorem advance_plan (c t : Nat) (s : State) : (advance c t s).plan = s.plan := by simp [advance]
@[simp] theorem advance_failInputs (c t : Nat) (s : State) : (advance c t s).failInputs = s.failInputs := by simp [advance]
@[simp] theorem advance_run (c t : Nat) (s : State) : (advance c t s).run = s.run := by simp [advance]
@[simp] theorem advance_cox (c t : Nat) (s : State) : (advance c t s).cox = s.cox := by simp [advance]
@[simp] theorem advance_collectors (c t : Nat) (s : State) : (advance c t s).collectors = s.collectors := by simp [advance]
@[simp] theorem advance_adm (c t : Nat) (s : State) : (advance c t s).adm = s.adm := by simp [advance]
@[simp] theorem advance_mem (c t : Nat) (s : State) : (advance c t s).mem = s.mem := by simp [advance]
@[simp] theorem advance_stm (c t : Nat) (s : State) : (advance c t s).stm = s.stm := by simp [advance]
@[simp] theorem advance_link (c t : Nat) (s : State) : (advance c t s).link = s.link := by simp [advance]
@[simp] theorem advance_red (c t : Nat) (s : State) : (advance c t s).red = s.red := by simp [advance]
@[simp] theorem advance_res (c t : Nat) (s : State) : (advance c t s).res = s.res := by simp [advance]
@[simp] theorem advance_pwr (c t : Nat) (s : State) : (advance c t s).pwr = s.pwr := by simp [advance]

/-! `traceRec` -/

end Sys2Proof.Machine
end

