-- ==== Sys2Proof/Laws/Ops.lean ====
section
/-! SUPPORT. What the named operations read after a write, and what counting an event can change. -/

namespace Sys2Proof.Machine

open Sys2Proof

/-! ### Numbered families -/

theorem core_modCore (s : State) (c d : Nat) (f : CoreSt → CoreSt) :
    core (modCore c f s) d = if d = c then f (core s c) else core s d := sget_smod ..
@[simp] theorem core_modCore_self (s : State) (c : Nat) (f : CoreSt → CoreSt) : core (modCore c f s) c = f (core s c) := by
  simp [core_modCore]
theorem core_modCore_ne (s : State) {c d : Nat} (f : CoreSt → CoreSt) (h : d ≠ c) : core (modCore c f s) d = core s d := by
  simp [core_modCore, h]

theorem core_modThread (s : State) (c t d : Nat) (f : Thread → Thread) :
    core (modThread c t f s) d =
      if d = c then { core s c with threads := smod thrD (core s c).threads t f } else core s d := core_modCore ..
theorem core_modThread_ne (s : State) {c t d : Nat} (f : Thread → Thread) (h : d ≠ c) :
    core (modThread c t f s) d = core s d := by simp [core_modThread, h]
theorem thread_modThread (s : State) (c t u : Nat) (f : Thread → Thread) :
    thread (modThread c t f s) c u = if u = t then f (thread s c t) else thread s c u := by
  simp only [thread, core_modThread, if_pos, sget_smod]
@[simp] theorem thread_modThread_self (s : State) (c t : Nat) (f : Thread → Thread) :
    thread (modThread c t f s) c t = f (thread s c t) := by simp [thread_modThread]
theorem thread_modThread_ne (s : State) {c t u : Nat} (f : Thread → Thread) (h : u ≠ t) :
    thread (modThread c t f s) c u = thread s c u := by simp [thread_modThread, h]

theorem arr_modArr (s : State) (c a b : Nat) (f : ArrSt → ArrSt) :
    arr (modArr c a f s) c b = if b = a then f (arr s c a) else arr s c b := by
  simp only [arr, modArr, core_modCore_self, sget_smod]
@[simp] theorem arr_modArr_self (s : State) (c a : Nat) (f : ArrSt → ArrSt) : arr (modArr c a f s) c a = f (arr s c a) := by
  simp [arr_modArr]

@[simp] theorem ring_modRing_self (s : State) (q : Nat) (f : RingSt → RingSt) : ring (modRing q f s) q = f (ring s q) :=
  sget_smod_self ..
theorem ring_modRing_ne (s : State) {q r : Nat} (f : RingSt → RingSt) (h : r ≠ q) : ring (modRing q f s) r = ring s r :=
  sget_smod_ne _ _ _ h
@[simp] theorem port_modPort_self (s : State) (p : Nat) (f : PortSt → PortSt) : port (modPort p f s) p = f (port s p) :=
  sget_smod_self ..
theorem port_modPort_ne (s : State) {p r : Nat} (f : PortSt → PortSt) (h : r ≠ p) : port (modPort p f s) r = port s r :=
  sget_smod_ne _ _ _ h
@[simp] theorem desc_modDesc_self (s : State) (d : Nat) (f : DescSt → DescSt) : desc (modDesc d f s) d = f (desc s d) :=
  sget_smod_self ..
theorem desc_modDesc_ne (s : State) {d e : Nat} (f : DescSt → DescSt) (h : e ≠ d) : desc (modDesc d f s) e = desc s e :=
  sget_smod_ne _ _ _ h
@[simp] theorem ch_modCh_self (s : State) (c : Nat) (f : ChSt → ChSt) : ch (modCh c f s) c = f (ch s c) := sget_smod_self ..
@[simp] theorem part_modPart_self (s : State) (n : Nat) (f : PartSt → PartSt) : part (modPart n f s) n = f (part s n) :=
  sget_smod_self ..
@[simp] theorem mark_addMark_self (s : State) (m n : Nat) : mark (addMark m n s) m = (mark s m + n) % 2 ^ 32 := by
  simp [mark, addMark]
theorem mark_addMark_ne (s : State) {m k : Nat} (n : Nat) (h : k ≠ m) : mark (addMark m n s) k = mark s k := by
  simp [mark, addMark, sget_smod, h]
@[simp] theorem railAvs_modAvs_self (s : State) (i : Nat) (f : RailAvs → RailAvs) : railAvs (modAvs i f s) i = f (railAvs s i) :=
  sget_smod_self ..
theorem railAvs_modAvs_ne (s : State) {i j : Nat} (f : RailAvs → RailAvs) (h : j ≠ i) :
    railAvs (modAvs i f s) j = railAvs s j := sget_smod_ne _ _ _ h
@[simp] theorem group_setGroup_self (s : State) (g : Nat) (p : PowerState) : group (setGroup g p s) g = p := sget_sset_self ..
theorem group_setGroup_ne (s : State) {g k : Nat} (p : PowerState) (h : k ≠ g) : group (setGroup g p s) k = group s k :=
  sget_sset_ne _ _ _ h
@[simp] theorem slot_modSlot_self (s : State) (i : Nat) (f : SlotRec → SlotRec) : slot (modSlot i f s) i = f (slot s i) :=
  sget_smod_self ..
@[simp] theorem regionSt_modRegion_self (s : State) (i : Nat) (f : RegionSt → RegionSt) :
    regionSt (modRegion i f s) i = f (regionSt s i) := sget_smod_self ..
@[simp] theorem source_modSource_self (s : State) (i : Nat) (f : Source → Source) :
    source (modSource i f s) i = (source s i).map f := sget_smod_self ..
theorem lifeGet_lifeAdd_self (s : State) (o w n : Nat) :
    lifeGet (lifeAdd o w n s) o = min (lifeGet s o + n) (2 ^ (8 * w) - 1) := by simp [lifeGet, lifeAdd]

/-! ### Registers -/

@[simp] theorem regW_setReg_self (s : State) (o v : Nat) : regW (setReg o v s) o = BitVec.ofNat 32 v := sget_sset_self ..
theorem regW_setReg_ne (s : State) {o p : Nat} (v : Nat) (h : p ≠ o) : regW (setReg o v s) p = regW s p := sget_sset_ne _ _ _ h
theorem reg_setReg_self (s : State) (o v : Nat) : reg (setReg o v s) o = v % 2 ^ 32 := by simp [reg]
theorem reg_setReg_ne (s : State) {o p : Nat} (v : Nat) (h : p ≠ o) : reg (setReg o v s) p = reg s p := by
  simp [reg, regW_setReg_ne s v h]

/-! ### Thread registers (R159) -/

theorem sReg_setS (s : State) (c t n v : Nat) : sReg (setS c t n v s) c t n = if n = 0 then 0 else v % 2 ^ 64 := by
  unfold sReg setS
  split
  · rfl
  · simp
theorem sReg_setS_ne (s : State) {c t n m : Nat} (v : Nat) (h : m ≠ n) : sReg (setS c t n v s) c t m = sReg s c t m := by
  unfold sReg setS
  split
  · rfl
  · split
    · rfl
    · simp [sget_sset, h]
@[simp] theorem aReg_setA_self (s : State) (c t n v : Nat) : aReg (setA c t n v s) c t n = v % 2 ^ 32 := by simp [aReg, setA]
theorem aReg_setA_ne (s : State) {c t n m : Nat} (v : Nat) (h : m ≠ n) : aReg (setA c t n v s) c t m = aReg s c t m := by
  simp [aReg, setA, sget_sset, h]
@[simp] theorem pc_setS (s : State) (c t n v : Nat) : (thread (setS c t n v s) c t).pc = (thread s c t).pc := by
  unfold setS; split <;> simp
@[simp] theorem pc_setA (s : State) (c t n v : Nat) : (thread (setA c t n v s) c t).pc = (thread s c t).pc := by simp [setA]

/-! ### Counters (R378 to R380) -/

@[simp] theorem cntExact_cntAdd_self (s : State) (o n : Nat) :
    cntExact (cntAdd o n s) o = min (cntExact s o + n) ((2 ^ 48 - 1) * cntUnit o) := by simp [cntExact, cntAdd]
theorem cntExact_cntAdd_ne (s : State) {o p : Nat} (n : Nat) (h : p ≠ o) : cntExact (cntAdd o n s) p = cntExact s p := by
  simp [cntExact, cntAdd, sget_smod, h]

/-! ### Memory (R239 to R251) -/

/-- A byte reads alike in states that hold the same memory, journal, save area and event log. -/
theorem memByte_congr {s t : State} (a : Nat) (h1 : t.mem.data = s.mem.data) (h2 : t.res.journal = s.res.journal)
    (h3 : t.pwr.save = s.pwr.save) (h4 : t.log.ring = s.log.ring) : memByte t a = memByte s a := by
  unfold memByte; rw [h1, h2, h3, h4]

@[simp] theorem memByte_modCore (c : Nat) (f : CoreSt → CoreSt) (s : State) (x : Nat) :
    memByte (modCore c f s) x = memByte s x := memByte_congr x rfl rfl rfl rfl
@[simp] theorem memByte_modArr (c a : Nat) (f : ArrSt → ArrSt) (s : State) (x : Nat) :
    memByte (modArr c a f s) x = memByte s x := memByte_modCore ..

/-- Outside the event log's ring, a byte reads alike whatever the log holds. -/
theorem memByte_log {s t : State} (a : Nat) (h1 : t.mem.data = s.mem.data) (h2 : t.res.journal = s.res.journal)
    (h3 : t.pwr.save = s.pwr.save) (h : ¬ logRing a) : memByte t a = memByte s a := by
  unfold memByte logRing at *
  rw [h1, h2, h3]
  have h : ¬ (sharedBase + 0x40000 ≤ a ∧ a < sharedBase + 0xC0000) := h
  rw [if_neg h, if_neg h]


theorem memByte_plain (s : State) {a : Nat} (h : plainAddr a) : memByte s a = sget byteD s.mem.data a := by
  have h1 : ¬ (sharedBase ≤ a ∧ a < sharedBase + 0x20000) := fun x => h.1 ⟨x.1, by omega⟩
  have h2 : ¬ (sharedBase + 0x20000 ≤ a ∧ a < sharedBase + 0x30000) := fun x => h.1 ⟨by omega, x.2⟩
  have h3 : ¬ (sharedBase + 0x40000 ≤ a ∧ a < sharedBase + 0xC0000) := h.2
  unfold memByte
  rw [if_neg h1, if_neg h2, if_neg h3]

theorem data_memWrite (s : State) (a : Nat) (l : List Byte) (x : Nat) :
    sget byteD (memWrite a l s).mem.data x = if a ≤ x then (l[x - a]?).getD (sget byteD s.mem.data x) else sget byteD s.mem.data x :=
  sget_ssetRun ..

/-- Reading a byte after bytes are written at `a`. -/
theorem memByte_memWrite (s : State) (a : Nat) (l : List Byte) {x : Nat} (h : plainAddr x) :
    memByte (memWrite a l s) x = if a ≤ x then (l[x - a]?).getD (memByte s x) else memByte s x := by
  rw [memByte_plain _ h, memByte_plain _ h, data_memWrite]

/-- A byte outside the bytes written reads as before. -/
theorem memByte_memWrite_ne (s : State) (a : Nat) (l : List Byte) {x : Nat} (h : x < a ∨ a + l.length ≤ x) :
    memByte (memWrite a l s) x = memByte s x := by
  have e : sget byteD (memWrite a l s).mem.data x = sget byteD s.mem.data x := by
    rw [data_memWrite]
    split
    · rw [List.getElem?_eq_none (by omega)]; rfl
    · rfl
  unfold memByte
  simp only [memWrite_res, memWrite_pwr, memWrite_log, e]

/-- The bytes written read back. -/
theorem memBytes_memWrite (s : State) (a : Nat) (l : List Byte) (h : ∀ i, i < l.length → plainAddr (a + i)) :
    memBytes (memWrite a l s) a l.length = l := by
  apply List.ext_getElem
  · simp [memBytes]
  · intro i h1 h2
    simp only [memBytes, List.getElem_map, List.getElem_range]
    rw [memByte_memWrite s a l (h i h2), if_pos (Nat.le_add_right ..), Nat.add_sub_cancel_left]
    simp [h2]

theorem length_leBytes (k n : Nat) : (leBytes k n).length = k := by
  induction k generalizing n with
  | zero => rfl
  | succ k ih => simp [leBytes, ih]

/-- Bytes written little-endian read back as the number (R9). -/
theorem leNat_leBytes (k n : Nat) : leNat (leBytes k n) = n % 256 ^ k := by
  induction k generalizing n with
  | zero => simp [leBytes, leNat, Nat.mod_one]
  | succ k ih =>
    simp only [leBytes, leNat, ih, BitVec.toNat_ofNat, Nat.reducePow]
    rw [Nat.pow_succ, Nat.mul_comm (256 ^ k), Nat.mod_mul]

/-! ### Counting (R379, R380) -/

theorem CountsOnly.refl (s : State) : CountsOnly s s := ⟨rfl, rfl, fun _ _ => rfl⟩

/-- Logging changes the log and the host interface's count of events alone. -/
theorem logEv_eq (typ : Nat) (args : List Byte) (s : State) : logEv typ args s =
    { s with log := (logEv typ args s).log, host := { s.host with events := (logEv typ args s).host.events } } := by
  have h0 : ∀ (l : LogSt) (n : Nat) (k : Nat) (x : List Byte),
      logEnter k x { s with log := l, host := { s.host with events := n } } =
        { s with log := (logEnter k x { s with log := l, host := { s.host with events := n } }).log,
                 host := { s.host with events := n + 1 } } := fun _ _ _ _ => rfl
  have h1 : ∀ (l : LogSt) (n : Nat), ∃ l' n', (if l.waiting < 8192 then
        logEnter typ args { s with log := l, host := { s.host with events := n } }
      else { s with log := { l with next := l.next + 1, dropped := l.dropped + 1 }, host := { s.host with events := n } }) =
        { s with log := l', host := { s.host with events := n' } } := by
    intro l n
    split
    · exact ⟨_, _, h0 l n typ args⟩
    · exact ⟨_, _, rfl⟩
  have h2 : ∃ l n, logEv typ args s = { s with log := l, host := { s.host with events := n } } := by
    unfold logEv
    by_cases hr : (s.dev == .recovery) = true
    · rw [if_pos hr]; exact ⟨_, _, rfl⟩
    · rw [if_neg hr]
      by_cases hd : (decide (0 < s.log.dropped) && decide (s.log.waiting < 8191)) = true
      · rw [if_pos hd]; exact h1 _ _
      · rw [if_neg hd]; exact h1 _ _
  obtain ⟨l, n, e⟩ := h2
  rw [e]

theorem attnBase_eq (cls : Nat) (s : State) : attnBase cls s =
    { s with cnt := (attnBase cls s).cnt,
             host := { s.host with attnSeq := (attnBase cls s).host.attnSeq, attnStep := (attnBase cls s).host.attnStep,
                                   attnStanding := (attnBase cls s).host.attnStanding } } := rfl

/-- Counting changes the counters, the log and the attention alone. -/
theorem bump_eq (o n : Nat) (s : State) : bump o n s =
    { s with cnt := (bump o n s).cnt, log := (bump o n s).log,
             host := { s.host with attnSeq := (bump o n s).host.attnSeq, attnStep := (bump o n s).host.attnStep,
                                   attnStanding := (bump o n s).host.attnStanding, events := (bump o n s).host.events } } := by
  unfold bump
  dsimp only
  split
  · unfold satEvent
    rw [logEv_eq]
    rfl
  · rfl

theorem bump_countsOnly (o n : Nat) (s : State) : CountsOnly s (bump o n s) where
  rest := by rw [bump_eq]
  host := by rw [bump_eq]
  mem a h := memByte_log a (by simp) (by simp) (by simp) h

/-- Unless the counter saturates, counting changes the counter alone. -/
theorem bump_plain (s : State) (o n : Nat) (h : cntSat o (cntExact (cntAdd o n s) o) = false) : bump o n s = cntAdd o n s := by
  unfold bump
  dsimp only
  rw [h, Bool.false_and, if_neg Bool.false_ne_true]

@[simp] theorem core_bump (s : State) (o n c : Nat) : core (bump o n s) c = core s c := by simp [core]
@[simp] theorem thread_bump (s : State) (o n c t : Nat) : thread (bump o n s) c t = thread s c t := by simp [thread]
@[simp] theorem arr_bump (s : State) (o n c a : Nat) : arr (bump o n s) c a = arr s c a := by simp [arr]
@[simp] theorem reg_bump (s : State) (o n r : Nat) : reg (bump o n s) r = reg s r := by simp [reg, regW]
@[simp] theorem sReg_bump (s : State) (o n c t r : Nat) : sReg (bump o n s) c t r = sReg s c t r := by simp [sReg]
@[simp] theorem aReg_bump (s : State) (o n c t r : Nat) : aReg (bump o n s) c t r = aReg s c t r := by simp [aReg]

/-! ### Frames of a core -/

theorem CoreOnly.refl (c : Nat) (s : State) : CoreOnly c s s := ⟨rfl, rfl, fun _ _ => rfl, fun _ _ => rfl⟩

theorem CoreOnly.trans {c : Nat} {s t u : State} (h : CoreOnly c s t) (k : CoreOnly c t u) : CoreOnly c s u where
  rest := by rw [k.rest, h.rest]
  host := by rw [k.host, h.host]
  mem a n := (k.mem a n).trans (h.mem a n)
  cores d n := (k.cores d n).trans (h.cores d n)

theorem CountsOnly.coreOnly {s t : State} (h : CountsOnly s t) (c : Nat) : CoreOnly c s t where
  rest := by rw [h.rest]
  host := h.host
  mem := h.mem
  cores d _ := by rw [h.rest]; rfl

theorem CoreOnly.modCore (c : Nat) (f : CoreSt → CoreSt) (s : State) : CoreOnly c s (modCore c f s) where
  rest := rfl
  host := rfl
  mem _ _ := rfl
  cores _ h := core_modCore_ne s f h

theorem CoreOnly.bump (c o n : Nat) (s : State) : CoreOnly c s (bump o n s) := (bump_countsOnly o n s).coreOnly c

theorem ThreadOnly.refl (c u : Nat) (s : State) : ThreadOnly c u s s :=
  { CoreOnly.refl c s with core := rfl, threads := fun _ _ => rfl }

theorem ThreadOnly.trans {c u : Nat} {s t v : State} (h : ThreadOnly c u s t) (k : ThreadOnly c u t v) : ThreadOnly c u s v :=
  { h.toCoreOnly.trans k.toCoreOnly with
    core := by rw [k.core, h.core]
    threads := fun x n => (k.threads x n).trans (h.threads x n) }

theorem ThreadOnly.modThread (c u : Nat) (f : Thread → Thread) (s : State) : ThreadOnly c u s (modThread c u f s) :=
  { CoreOnly.modCore c _ s with
    core := by simp [core_modThread]
    threads := fun _ h => thread_modThread_ne s f h }

theorem CountsOnly.threadOnly {s t : State} (h : CountsOnly s t) (c u : Nat) : ThreadOnly c u s t :=
  { h.coreOnly c with
    core := by rw [h.rest]; rfl
    threads := fun _ _ => by rw [h.rest]; rfl }

theorem ThreadOnly.bump (c u o n : Nat) (s : State) : ThreadOnly c u s (bump o n s) := (bump_countsOnly o n s).threadOnly c u

theorem ThreadOnly.setS (c u n v : Nat) (s : State) : ThreadOnly c u s (setS c u n v s) := by
  unfold Machine.setS
  split
  · exact ThreadOnly.refl c u s
  · exact ThreadOnly.modThread c u _ s

theorem ThreadOnly.setA (c u n v : Nat) (s : State) : ThreadOnly c u s (setA c u n v s) := ThreadOnly.modThread c u _ s

@[simp] theorem thread_setCycle (s : State) (c n d t : Nat) : thread (setCycle c n s) d t = thread s d t := by
  unfold thread setCycle
  by_cases h : d = c
  · subst h; rw [core_modCore_self]
  · rw [core_modCore_ne s _ h]

theorem ThreadOnly.setCycle (c u n : Nat) (s : State) : ThreadOnly c u s (setCycle c n s) :=
  { CoreOnly.modCore c _ s with
    core := by simp only [Machine.setCycle, core_modCore_self]
    threads := fun _ _ => thread_setCycle .. }

theorem advance_eq (c u : Nat) (s : State) : advance c u s = bump (cntCore c 23) 1 (modThread c u (fun T =>
    { T with pc := (T.pc + 1) % 2 ^ 16, measured := if T.measured = 0 then slotCycle s c u else T.measured })
    (setCycle c (slotCycle s c u) s)) := rfl

theorem ThreadOnly.advance (c u : Nat) (s : State) : ThreadOnly c u s (advance c u s) :=
  (ThreadOnly.setCycle c u _ s).trans ((ThreadOnly.modThread c u _ _).trans (ThreadOnly.bump c u _ _ _))

/-! ### Issue (R157, R160) -/

@[simp] theorem pc_advance (s : State) (c t : Nat) : (thread (advance c t s) c t).pc = ((thread s c t).pc + 1) % 2 ^ 16 := by
  simp [advance_eq]
@[simp] theorem state_advance (s : State) (c t : Nat) : (thread (advance c t s) c t).state = (thread s c t).state := by
  simp [advance_eq]
@[simp] theorem sReg_advance (s : State) (c t n : Nat) : sReg (advance c t s) c t n = sReg s c t n := by simp [sReg, advance_eq]
@[simp] theorem aReg_advance (s : State) (c t n : Nat) : aReg (advance c t s) c t n = aReg s c t n := by simp [aReg, advance_eq]

/-- An instruction that passes its checks and finds room issues: the thread goes on, and `body` is its effect. -/
theorem issue_runs {c t : Nat} {w : InstrWord} {cls op : Nat} {cause : State → Nat} {full : State → Bool}
    {body : State → State} {s : State} (h : Ready s c t w) (hk : knownOp cls op = true) (hc : iClass w = cls) (ho : iOp w = op)
    (h0 : cause s = 0) (hf : full s = false) : issue c t w cls op cause full body s = body (advance c t s) := by
  obtain ⟨h1, h2⟩ := h
  subst hc ho
  unfold issue
  simp [h1, h2, hk, h0, hf]

/-- An instruction whose checks fail faults its thread with their cause. -/
theorem issue_faults {c t : Nat} {w : InstrWord} {cls op : Nat} {cause : State → Nat} {full : State → Bool}
    {body : State → State} {s : State} (h : Ready s c t w) (hk : knownOp cls op = true) (hc : iClass w = cls) (ho : iOp w = op)
    (h0 : cause s ≠ 0) : issue c t w cls op cause full body s = faultThread c t (cause s) s := by
  obtain ⟨h1, h2⟩ := h
  subst hc ho
  unfold issue
  simp [h1, h2, hk, h0]

end Sys2Proof.Machine
end

