-- ==== Sys2Proof/Laws/Core.lean ====
section
/-! SUPPORT. Core instructions: what issuing does, and how the frames of `Safety` are built up from the named operations. -/

namespace Sys2Proof.Machine

open Sys2Proof

theorem issueCtl_runs {op : Nat} {fields : List (Nat × Nat)} {bad : Bool} {body : State → State} {c : CoreId} {t : ThreadId}
    {w : InstrWord} {s : State} (h : Ready s c t w) (hw : Codes w 7 op fields) (hk : op ≤ 6) (hb : bad = false) :
    issueCtl op fields bad body c t w s = body (advance c t s) := by
  obtain ⟨h1, h2, h3, h4⟩ := hw
  exact issue_runs h (by simp [knownOp, hk]) h1 h2 (by simp [ctlCause, h3, h4, hb, causeIf]) rfl

theorem thread_advance (c t : Nat) (s : State) : thread (advance c t s) c t = { thread s c t with
    pc := ((thread s c t).pc + 1) % 2 ^ 16, measured := (thread (advance c t s) c t).measured } := by simp [advance_eq]

theorem Issued.advance (c t : Nat) (s : State) : Issued c t s (advance c t s) where
  went := pc_advance ..
  thread := by rw [thread_advance]
  only := ThreadOnly.advance ..

theorem Issued.setS {c t : Nat} {s u : State} (h : Issued c t s u) (n v : Nat) : Issued c t s (setS c t n v u) where
  went := by unfold WentOn; rw [pc_setS]; exact h.went
  thread := by
    unfold Machine.setS; split
    · exact h.thread
    · rw [thread_modThread_self, h.thread]
  only := h.only.trans (ThreadOnly.setS ..)

theorem Issued.setA {c t : Nat} {s u : State} (h : Issued c t s u) (n v : Nat) : Issued c t s (setA c t n v u) where
  went := by unfold WentOn; rw [pc_setA]; exact h.went
  thread := by unfold Machine.setA; rw [thread_modThread_self, h.thread]
  only := h.only.trans (ThreadOnly.setA ..)

theorem aReg_setS (s : State) (c t n v m : Nat) : aReg (setS c t n v s) c t m = aReg s c t m := by
  unfold setS; split
  · rfl
  · simp [aReg]
theorem sReg_setA (s : State) (c t n v m : Nat) : sReg (setA c t n v s) c t m = sReg s c t m := by
  unfold setA; simp [sReg]

theorem WritesS.setS (c t n v : Nat) (s u : State) (h : WritesNone c t s u) : WritesS c t n v s (setS c t n v u) := by
  refine ⟨fun m => ?_, fun m => (aReg_setS ..).trans (h.2 m)⟩
  by_cases e : m = n
  · subst e; rw [sReg_setS]
    by_cases z : m = 0
    · subst z; simp [sReg]
    · simp [z]
  · rw [sReg_setS_ne _ _ e, h.1]; simp [e]

theorem WritesA.setA (c t n v : Nat) (s u : State) (h : WritesNone c t s u) : WritesA c t n v s (setA c t n v u) := by
  refine ⟨fun m => ?_, fun m => (sReg_setA ..).trans (h.1 m)⟩
  by_cases e : m = n
  · subst e; simp
  · rw [aReg_setA_ne _ _ e, h.2]; simp [e]

theorem WritesNone.advance (c t : Nat) (s : State) : WritesNone c t s (advance c t s) :=
  ⟨fun _ => sReg_advance .., fun _ => aReg_advance ..⟩

theorem WritesNone.setPc {c t : Nat} {s u : State} (h : WritesNone c t s u) (p : Nat) : WritesNone c t s (setPc c t p u) := by
  refine ⟨fun m => ?_, fun m => ?_⟩
  · rw [← h.1]; simp [sReg, Machine.setPc]
  · rw [← h.2]; simp [aReg, Machine.setPc]

theorem halt_plain {s : State} {c t : Nat} (h : (thread s c t).prog = none) : overrun c t s = s := by
  unfold overrun; rw [h]; split <;> first | rfl | simp_all

/-- A trace record changes the trace buffers, and what counting it brings (R389, R393). -/
theorem traceRec_eq (c thr typ arg d0 d1 : Nat) (s : State) : ∃ T, CountsOnly { s with trace := T } (traceRec c thr typ arg d0 d1 s) := by
  have h : ∀ (b : Prop) [Decidable b] (x y : State), (∃ T, CountsOnly { s with trace := T } x) →
      (∃ T, CountsOnly { s with trace := T } y) → ∃ T, CountsOnly { s with trace := T } (if b then x else y) := by
    intro b _ x y hx hy; split <;> assumption
  have h0 : ∃ T, CountsOnly { s with trace := T } s := ⟨s.trace, CountsOnly.refl s⟩
  have h1 : ∀ o n T, ∃ T', CountsOnly { s with trace := T' } (bump o n { s with trace := T }) :=
    fun o n T => ⟨T, bump_countsOnly o n { s with trace := T }⟩
  unfold traceRec
  split
  · exact h0
  · exact h _ _ _ h0 (h _ _ _ (h1 ..) (h1 ..))

theorem CountsOnly.cores {s t : State} (h : CountsOnly s t) : t.cores = s.cores := by rw [h.rest]

@[simp] theorem traceRec_cores (c thr typ arg d0 d1 : Nat) (s : State) : (traceRec c thr typ arg d0 d1 s).cores = s.cores := by
  obtain ⟨T, h⟩ := traceRec_eq c thr typ arg d0 d1 s
  exact h.cores

/-- Clearing the measured spans changes nothing else of a thread. -/
theorem measured_fold (c : Nat) (l : List Nat) (s : State) (v : Nat) :
    ∃ m, thread (l.foldl (fun st u => modThread c u (fun T => { T with measured := 0 }) st) s) c v =
      { thread s c v with measured := m } := by
  induction l generalizing s with
  | nil => exact ⟨_, rfl⟩
  | cons x l ih =>
    obtain ⟨m, e⟩ := ih (modThread c x (fun T => { T with measured := 0 }) s)
    refine ⟨m, ?_⟩
    rw [List.foldl_cons, e, thread_modThread]
    split
    · next h => subst h; rfl
    · rfl

theorem thread_congr {s t : State} (h : t.cores = s.cores) (c v : Nat) : thread t c v = thread s c v := by
  unfold thread core; rw [h]

/-- The end of a custom program's span changes the measured spans of its threads alone. -/
theorem thread_overrun (c t : Nat) (s : State) (v : Nat) :
    ∃ m, thread (overrun c t s) c v = { thread s c v with measured := m } := by
  unfold overrun
  split
  · dsimp only
    split
    · split
      · split
        · obtain ⟨m, e⟩ := measured_fold c ((List.range 32).filter fun u => (thread s c u).prog == some _) s v
          refine ⟨m, ?_⟩
          rw [← e]
          exact thread_congr (by simp; rfl) c v
        · exact measured_fold c _ s v
      · exact measured_fold c _ s v
    · exact ⟨_, rfl⟩
  · exact ⟨_, rfl⟩

theorem sget_thread_of_core (s : State) (c t : Nat) : sget thrD (core s c).threads t = thread s c t := rfl

theorem sget_wokenThreads_aux (C : CoreSt) (slot : Nat) (l : List Nat) (m : List (Nat × Thread)) (hl : l.Nodup) (v : Nat) :
    sget thrD (l.foldl (fun (m : List (Nat × Thread)) i =>
      if waitMet C slot (sget thrD C.threads i) then smod thrD m i (fun T => { T with state := .running, wait := .none })
      else m) m) v =
    if v ∈ l ∧ waitMet C slot (sget thrD C.threads v) = true then
      { sget thrD m v with state := .running, wait := .none } else sget thrD m v := by
  induction l generalizing m with
  | nil => simp
  | cons x l ih =>
    obtain ⟨hx, hl⟩ := List.nodup_cons.1 hl
    rw [List.foldl_cons, ih _ hl]
    by_cases e : v = x
    · subst e
      by_cases hw : waitMet C slot (sget thrD C.threads v) = true <;> simp [hx, hw]
    · by_cases hw : waitMet C slot (sget thrD C.threads x) = true <;> simp [hw, e, sget_smod]

/-- A thread whose wait is met runs on; the others are as they were (R167). -/
theorem thread_wakeCore (c : Nat) (s : State) (v : Nat) : thread (wakeCore c s) c v =
    if v < 32 ∧ waitMet (core s c) s.stroke.slot (thread s c v) = true then
      { thread s c v with state := .running, wait := .none } else thread s c v := by
  unfold wakeCore
  rw [thread, core_modCore_self]
  unfold wokenThreads
  rw [sget_wokenThreads_aux _ _ _ _ List.nodup_range]
  simp only [List.mem_range]
  rfl

theorem core_wakeCore (c : Nat) (s : State) : core (wakeCore c s) c = { core s c with threads := (core (wakeCore c s) c).threads } := by
  simp [wakeCore]

theorem CoreOnly.wakeCore (c : Nat) (s : State) : CoreOnly c s (wakeCore c s) := CoreOnly.modCore ..

/-- `reached` compares 32-bit values as R167 says. -/
theorem reached_iff (k v : Nat) : reached k v = true ↔ 0 ≤ (BitVec.ofNat 32 k - BitVec.ofNat 32 v).toInt := by
  unfold reached sInt
  rw [BitVec.toInt_eq_toNat_cond]
  simp only [decide_eq_true_eq, BitVec.toNat_sub, BitVec.toNat_ofNat]
  have e : (k % 2 ^ 32 + 2 ^ 32 - v % 2 ^ 32) % 2 ^ 32 = (2 ^ 32 - v % 2 ^ 32 + k % 2 ^ 32) % 2 ^ 32 := by
    congr 1; have := Nat.mod_lt v (show 0 < 2 ^ 32 by decide); omega
  rw [e]
  split <;> split <;> omega

/-- What `waitFor` makes of the core's threads: `met` says whether the wait ends at once. -/
theorem thread_waitFor_ne (s : State) (c t : Nat) (x : ThrWait) {v : Nat} (h : v ≠ t) :
    thread (waitFor c t x s) c v = thread s c v ∨
      thread (waitFor c t x s) c v = { thread s c v with state := .running, wait := .none } := by
  unfold waitFor
  rw [thread_wakeCore]
  split
  · right; rw [thread_modThread_ne _ _ h]
  · left; rw [thread_modThread_ne _ _ h]

theorem thread_waitFor_self (s : State) {c t : Nat} (ht : t < 32) (x : ThrWait) :
    thread (waitFor c t x s) c t =
      if waitMet (core (modThread c t (fun T => { T with state := .waiting, wait := x }) s) c) s.stroke.slot
          { thread s c t with state := .waiting, wait := x } = true then
        { thread s c t with state := .running, wait := .none }
      else { thread s c t with state := .waiting, wait := x } := by
  unfold waitFor
  rw [thread_wakeCore, thread_modThread_self]
  simp only [ht, true_and, modThread_stroke]

/-- A SYNC that waits: what its thread, the other threads and the rest of the device are after it. -/
theorem waitFor_waits {s : State} {c t : Nat} (ht : t < 32) (x : ThrWait) {met : Prop}
    (hm : waitMet (core (modThread c t (fun T => { T with state := .waiting, wait := x }) (advance c t s)) c)
      (advance c t s).stroke.slot { thread (advance c t s) c t with state := .waiting, wait := x } = true ↔ met) :
    Waits c t x met s (waitFor c t x (advance c t s)) := by
  have hs := thread_waitFor_self (advance c t s) (c := c) ht x
  refine ⟨?_, fun h => ?_, fun h => ?_, ⟨fun m => ?_, fun m => ?_⟩, fun v hv => ?_, ?_, ?_⟩
  · unfold WentOn; rw [hs]; split <;> simp
  · rw [hs, if_neg (fun k => h (hm.1 k))]; exact ⟨rfl, rfl⟩
  · rw [hs, if_pos (hm.2 h)]; exact ⟨rfl, rfl⟩
  · rw [← sReg_advance s c t m]; unfold sReg; rw [hs]; split <;> [rfl; (split <;> rfl)]
  · rw [← aReg_advance s c t m]; unfold aReg; rw [hs]; split <;> rfl
  · have := thread_waitFor_ne (advance c t s) c t x hv
    rwa [(ThreadOnly.advance c t s).threads v hv] at this
  · unfold waitFor
    rw [core_wakeCore, core_modThread, if_pos rfl, (ThreadOnly.advance c t s).core]
  · exact (CoreOnly.trans (ThreadOnly.advance c t s).toCoreOnly
      ((ThreadOnly.modThread c t _ _).toCoreOnly)).trans (CoreOnly.wakeCore ..)

theorem leastCause_zero (l : List Nat) (hl : ∀ x ∈ l, x = 0) : leastCause l = 0 := by
  unfold leastCause
  induction l with
  | nil => rfl
  | cons x l ih => simp [hl x (by simp), ih fun y hy => hl y (by simp [hy])]

theorem issueSync_runs {op : Nat} {fields : List (Nat × Nat)} {extra : State → List Nat} {body : State → State} {c : CoreId}
    {t : ThreadId} {w : InstrWord} {s : State} (h : Ready s c t w) (hw : Codes w 6 op fields) (hk : op ≤ 5)
    (hx : ∀ x ∈ extra s, x = 0) : issueSync op fields extra body c t w s = body (advance c t s) := by
  obtain ⟨h1, h2, h3, h4⟩ := hw
  refine issue_runs h (by simp [knownOp, hk]) h1 h2 ?_ rfl
  simp only [syncCause, h3, h4]
  apply leastCause_zero
  intro x hm
  simp only [List.mem_cons] at hm
  rcases hm with rfl | hm
  · rfl
  · exact hx x hm

theorem rangeCause_zero {s : State} {c t : Nat} {l : List (Nat × Nat × Nat)}
    (h : ∀ x ∈ l, 0 < x.2.1 ∧ InScratch s c t x.1 x.2.1 x.2.2) : rangeCause s c t l = 0 := by
  unfold rangeCause
  rw [if_neg, if_neg]
  · rw [Bool.and_eq_true, List.any_eq_true]
    rintro ⟨hc, x, hx, hb⟩
    have := (h x hx).2.2.2 hc
    simp at hb; omega
  · rw [List.any_eq_true]
    rintro ⟨x, hx, hb⟩
    have := h x hx
    unfold InScratch at this
    simp at hb; omega

theorem issueMov_runs {op : Nat} {fields : List (Nat × Nat)} {extra : State → List Nat} {body : State → State} {c : CoreId}
    {t : ThreadId} {w : InstrWord} {s : State} (h : Ready s c t w) (hw : Codes w 4 op fields) (hk : op ≤ 7)
    (hx : ∀ x ∈ extra s, x = 0) : issueMov op fields extra body c t w s = body (advance c t s) := by
  obtain ⟨h1, h2, h3, h4⟩ := hw
  refine issue_runs h (by simp [knownOp, hk]) h1 h2 ?_ rfl
  simp only [movCause, h3, h4]
  apply leastCause_zero
  intro x hm
  simp only [List.mem_cons] at hm
  rcases hm with rfl | hm
  · rfl
  · exact hx x hm

theorem CountsOnly.trans {s t u : State} (h : CountsOnly s t) (k : CountsOnly t u) : CountsOnly s u where
  rest := by rw [k.rest, h.rest]
  host := by rw [k.host, h.host]
  mem a n := (k.mem a n).trans (h.mem a n)

/-- Counting, then a trace record: counters, log, attention and the trace buffers alone. -/
theorem bump_traceRec_eq (o n c thr typ arg d0 d1 : Nat) (s : State) :
    ∃ T, CountsOnly { s with trace := T } (traceRec c thr typ arg d0 d1 (bump o n s)) := by
  obtain ⟨T, h⟩ := traceRec_eq c thr typ arg d0 d1 (bump o n s)
  have k := bump_countsOnly o n s
  refine ⟨T, CountsOnly.trans (t := { bump o n s with trace := T }) ⟨by rw [k.rest], k.host, k.mem⟩ h⟩

/-- Poison that reaches a core sets its flag in a run; otherwise it is counted and traced (R253). -/
theorem corePoison_eq (c reason addr : Nat) (s : State) : ∃ T u, CountsOnly { s with trace := T } u ∧
    corePoison c reason addr s = if inRun s then modCore c (fun C => { C with poison := true }) u else u := by
  obtain ⟨T, h⟩ := bump_traceRec_eq (cntCore c 42) 1 c 0 8 reason addr 0 s
  refine ⟨T, _, h, ?_⟩
  have e : inRun (traceRec c 0 8 reason addr 0 (bump (cntCore c 42) 1 s)) = inRun s := by
    unfold inRun; rw [h.rest]
  unfold corePoison
  dsimp only
  rw [e]

theorem CountsOnly.thread {s t : State} (h : CountsOnly s t) (c v : Nat) : Machine.thread t c v = Machine.thread s c v :=
  thread_congr h.cores c v

theorem thread_corePoison (c reason addr : Nat) (s : State) (d v : Nat) :
    thread (corePoison c reason addr s) d v = thread s d v := by
  obtain ⟨T, u, h, e⟩ := corePoison_eq c reason addr s
  rw [e]
  have k := h.thread d v
  split
  · rw [← show thread { s with trace := T } d v = thread s d v from rfl, ← k]
    unfold thread
    rw [core_modCore]; split
    · next hd => subst hd; rfl
    · rfl
  · exact k

theorem memByte_corePoison (c reason addr : Nat) (s : State) {x : Nat} (hx : ¬ logRing x) :
    memByte (corePoison c reason addr s) x = memByte s x := by
  obtain ⟨T, u, h, e⟩ := corePoison_eq c reason addr s
  rw [e]; split <;> exact h.mem x hx

theorem poison_corePoison (c reason addr : Nat) (s : State) (h : inRun s = true) :
    (core (corePoison c reason addr s) c).poison = true := by
  obtain ⟨T, u, _, e⟩ := corePoison_eq c reason addr s
  rw [e, if_pos h, core_modCore_self]

theorem thread_setS_ne {s : State} {c t v n x : Nat} (h : v ≠ t) : thread (setS c t n x s) c v = thread s c v :=
  (ThreadOnly.setS c t n x s).threads v h

theorem core_setS (c t n v : Nat) (s : State) : core (setS c t n v s) c = { core s c with threads := (core (setS c t n v s) c).threads } := by
  unfold setS
  split
  · rfl
  · unfold modThread; simp
theorem memByte_setS (c t n v : Nat) (s : State) (x : Nat) : memByte (setS c t n v s) x = memByte s x := by
  unfold setS; split <;> rfl

theorem inRun_advance (c t : Nat) (s : State) : inRun (advance c t s) = inRun s := by simp [inRun, advance]
theorem anyPoison_advance (c t : Nat) (s : State) (a n : Nat) : anyPoison (advance c t s) a n = anyPoison s a n := by
  unfold anyPoison isPoisoned codeWord inlineEcc lpddrTop fromTop inlineEcc reg regW advance; simp

theorem scratch_not_log {c : CoreId} {x : Nat} (h : x < 0x100000) : ¬ logRing (scratchAddr c x) := by
  unfold logRing scratchAddr; have := c.isLt; omega
theorem scratch_plain {c : CoreId} {x : Nat} (h : x < 0x100000) : plainAddr (scratchAddr c x) := by
  unfold plainAddr logRing scratchAddr sharedBase; have := c.isLt; omega
theorem scratchAddr_add (c a i : Nat) : scratchAddr c a + i = scratchAddr c (a + i) := by unfold scratchAddr; omega

theorem memBytes_congr {s t : State} {a n : Nat} (h : ∀ i, i < n → memByte t (a + i) = memByte s (a + i)) :
    memBytes t a n = memBytes s a n := List.map_congr_left fun i hi => h i (List.mem_range.1 hi)

theorem mAddr_advance (c t : Nat) (w : InstrWord) (s : State) (c' t' : Nat) :
    mAddr (advance c t s) c' t' w = mAddr s c' t' w := by
  simp only [mAddr, opAddr, aReg, advance_eq]
  congr 2
  rw [thread_bump]
  by_cases h : c' = c
  · subst h; rw [thread_modThread]; split
    · next h => subst h; rw [thread_setCycle]
    · rw [thread_setCycle]
  · unfold thread; rw [core_modThread_ne _ _ h]; exact congrArg (fun x : Thread => sget natD x.a _) (thread_setCycle s c _ c' t')

theorem mAddr2_advance (c t : Nat) (w : InstrWord) (s : State) : mAddr2 (advance c t s) c t w = mAddr2 s c t w := by
  simp [mAddr2, opAddr]

/-- A unit's write that lies in the scratch. -/
theorem unitStore_plain {c off : Nat} {l : List Byte} (s : State) (h0 : 0 < l.length) (h : off + l.length ≤ 0x100000) :
    unitStore c off false l s = memWrite (scratchAddr c off) l s := by
  unfold unitStore unitWrite scrWrite
  rw [if_neg (by simp), if_neg (by omega), List.take_of_length_le (by omega)]

theorem thread_memWrite (a : Nat) (l : List Byte) (s : State) (c t : Nat) : thread (memWrite a l s) c t = thread s c t := rfl
theorem core_memWrite (a : Nat) (l : List Byte) (s : State) (c : Nat) : core (memWrite a l s) c = core s c := rfl

/-- An instruction that passes its checks and finds its queue full leaves the slot empty. -/
theorem issue_stalls {c t : Nat} {w : InstrWord} {cls op : Nat} {cause : State → Nat} {full : State → Bool}
    {body : State → State} {s : State} (h : Ready s c t w) (hk : knownOp cls op = true) (hc : iClass w = cls) (ho : iOp w = op)
    (h0 : cause s = 0) (hf : full s = true) : issue c t w cls op cause full body s = bump (cntCore c 24) 1 s := by
  obtain ⟨h1, h2⟩ := h
  subst hc ho
  unfold issue
  simp [h1, h2, hk, h0, hf]

/-- Queueing an operation that leaves the threads alone, then counting it as outstanding. -/
theorem issuedAsync_queue (c t : Nat) (f : CoreSt → CoreSt) (s : State) (hf : ∀ C, (f C).threads = C.threads) :
    IssuedAsync c t s (asyncBegin c t (modCore c f (advance c t s))) := by
  have ht : ∀ v, thread (modCore c f (advance c t s)) c v = thread (advance c t s) c v := by
    intro v; unfold thread; rw [core_modCore_self, hf]
  refine ⟨?_, ?_, fun v hv => ?_, ?_⟩
  · unfold WentOn asyncBegin; rw [thread_modThread_self, ht]; exact pc_advance s c t
  · unfold asyncBegin; rw [thread_modThread_self, ht, thread_advance]
  · unfold asyncBegin; rw [thread_modThread_ne _ _ hv, ht]; exact (ThreadOnly.advance c t s).threads v hv
  · exact ((ThreadOnly.advance c t s).toCoreOnly.trans (CoreOnly.modCore ..)).trans (ThreadOnly.modThread ..).toCoreOnly

theorem core_advance (c t : Nat) (s : State) : core (advance c t s) c =
    { core s c with threads := (core (advance c t s) c).threads, cycle := (core (advance c t s) c).cycle } :=
  (ThreadOnly.advance c t s).core

theorem core_asyncBegin (c t : Nat) (f : CoreSt → CoreSt) (s : State) : core (asyncBegin c t (modCore c f (advance c t s))) c =
    { f { core s c with threads := (core (advance c t s) c).threads, cycle := (core (advance c t s) c).cycle } with
      threads := (core (asyncBegin c t (modCore c f (advance c t s))) c).threads } := by
  unfold asyncBegin
  rw [core_modThread, if_pos rfl, core_modCore_self, core_advance]

theorem arr_advance (c t : Nat) (s : State) (a : Nat) : arr (advance c t s) c a = arr s c a := by
  unfold arr; rw [core_advance]

theorem arr_asyncBegin (c t : Nat) (s : State) (a : Nat) : arr (asyncBegin c t s) c a = arr s c a := by
  unfold arr asyncBegin; rw [core_modThread, if_pos rfl]

/-- A change that leaves every core's threads as they are. -/
theorem thread_of_cores_map {s u : State} (h : ∀ c, (core u c).threads = (core s c).threads) (c t : Nat) :
    thread u c t = thread s c t := by unfold thread; rw [h]

theorem logEv_countsOnly (typ : Nat) (args : List Byte) (s : State) : CountsOnly s (logEv typ args s) where
  rest := by rw [logEv_eq]
  host := by rw [logEv_eq]
  mem a h := memByte_log a (by rw [logEv_eq]) (by rw [logEv_eq]) (by rw [logEv_eq]) h

theorem attnBase_countsOnly (cls : Nat) (s : State) : CountsOnly s (attnBase cls s) :=
  ⟨rfl, rfl, fun _ _ => rfl⟩

theorem attn_countsOnly (cls : Nat) (s : State) : CountsOnly s (attn cls s) := by
  unfold attn
  dsimp only
  split
  · exact ((attnBase_countsOnly cls s).trans (attnBase_countsOnly 2 _)).trans (logEv_countsOnly ..)
  · exact attnBase_countsOnly cls s

theorem core_of_cores {s u : State} (h : u.cores = s.cores) (c : Nat) : core u c = core s c := by unfold core; rw [h]

/-- A thread that faults (R170). -/
theorem faultThread_faults (c t cause : Nat) (s : State) : FaultsWith c t cause s (faultThread c t cause s) := by
  let a := modThread c t (fun T => { T with state := .faulted, wait := .none, cause := cause, faultPc := (thread s c t).pc }) s
  obtain ⟨T, h⟩ := bump_traceRec_eq (cntCore c (31 + cause)) 1 c t 6 cause (thread s c t).pc 0 a
  generalize hb : traceRec c t 6 cause (thread s c t).pc 0 (bump (cntCore c (31 + cause)) 1 a) = b at h
  have hr : inRun b = inRun s := by unfold inRun; rw [h.rest]; rfl
  have key : ∀ u, CountsOnly (if inRun b then modCore c (fun C => { C with fault := true }) b else b) u → FaultsWith c t cause s u := by
    intro u hu
    have hth : ∀ v, thread u c v = thread a c v := by
      intro v
      rw [hu.thread c v]
      split
      · show (sget thrD (core _ c).threads v) = _
        rw [core_modCore_self]; exact h.thread c v
      · exact h.thread c v
    have hcore : core u c = { core a c with fault := (core s c).fault || inRun s } := by
      have e : core u c = core (if inRun b then modCore c (fun C => { C with fault := true }) b else b) c := by
        unfold core; rw [hu.cores]
      rw [e, hr]
      have eb : core b c = core a c := by unfold core; rw [h.cores]
      have ef : (core a c).fault = (core s c).fault := by
        show (core (modThread c t _ s) c).fault = _
        rw [core_modThread, if_pos rfl]
      cases inRun s
      · simp [eb, ← ef]
      · simp [eb]
    refine ⟨?_, fun v hv => ?_, ?_, fun d hd => ?_, ?_, fun x hx => ?_⟩
    · rw [hth]; exact thread_modThread_self ..
    · rw [hth]; exact thread_modThread_ne _ _ hv
    · rw [hcore]
      have ea : core a c = { core s c with threads := (core a c).threads } := by
        show core (modThread c t _ s) c = _
        rw [core_modThread, if_pos rfl]
      rw [ea]
    · have e : core u d = core (if inRun b then modCore c (fun C => { C with fault := true }) b else b) d := by
        unfold core; rw [hu.cores]
      rw [e]
      have eb : core b d = core s d := by
        have : core b d = core a d := by unfold core; rw [h.cores]
        rw [this]; exact core_modThread_ne _ _ hd
      split
      · rw [core_modCore_ne _ _ hd, eb]
      · exact eb
    · have e := hu.rest
      rw [e]
      have e2 := h.rest
      have e3 : ∀ v w x y z, { (if inRun b then modCore c (fun C => { C with fault := true }) b else b) with
          cnt := v, log := w, host := x, cores := y, trace := z } = { s with cnt := v, log := w, host := x, cores := y, trace := z } := by
        intro v w x y z
        split
        · rw [e2]; rfl
        · rw [e2]; rfl
      exact (e3 u.cnt u.log u.host _ _)
    · rw [hu.mem x hx]
      split
      · exact h.mem x hx
      · exact h.mem x hx
  unfold faultThread
  dsimp only
  rw [show traceRec c t 6 cause (thread s c t).pc 0 (bump (cntCore c (31 + cause)) 1 (modThread c t (fun T => { T with state := .faulted, wait := .none, cause := cause, faultPc := (thread s c t).pc }) s)) = b from hb]
  generalize (if inRun b then modCore c (fun C => { C with fault := true }) b else b) = X at key ⊢
  split
  · exact key _ ((logEv_countsOnly ..).trans (attn_countsOnly ..))
  · exact key _ (CountsOnly.refl _)

theorem thread_modOvf (c inst : Nat) (f : OvfSt → OvfSt) (s : State) (d v : Nat) : thread (modOvf c inst f s) d v = thread s d v := by
  unfold modOvf thread
  rw [core_modCore]
  split
  · next h => subst h; rfl
  · rfl

@[simp] theorem ovfOf_modOvf_self (c inst : Nat) (f : OvfSt → OvfSt) (s : State) : ovfOf (modOvf c inst f s) c inst = f (ovfOf s c inst) := by
  unfold modOvf ovfOf
  rw [core_modCore_self]; exact sget_smod_self ..

theorem thread_ctlMod (id : Nat) (f : CtlRed → CtlRed) (s : State) (d v : Nat) : thread (ctlMod id f s) d v = thread s d v := rfl
theorem ovfOf_ctlMod (id : Nat) (f : CtlRed → CtlRed) (s : State) (c inst : Nat) : ovfOf (ctlMod id f s) c inst = ovfOf s c inst := rfl
@[simp] theorem ctlGet_ctlMod_self (id : Nat) (f : CtlRed → CtlRed) (s : State) : ctlGet (ctlMod id f s) id = f (ctlGet s id) := by
  unfold ctlMod ctlGet; exact sget_smod_self ..
theorem ctlGet_modOvf (c inst : Nat) (f : OvfSt → OvfSt) (s : State) (id : Nat) : ctlGet (modOvf c inst f s) id = ctlGet s id := rfl
theorem ctlGet_modThread (c t : Nat) (f : Thread → Thread) (s : State) (id : Nat) : ctlGet (modThread c t f s) id = ctlGet s id := rfl
theorem ctlGet_advance (c t : Nat) (s : State) (id : Nat) : ctlGet (advance c t s) id = ctlGet s id := by unfold ctlGet advance; simp
theorem ovfOf_modThread (c t : Nat) (f : Thread → Thread) (s : State) (inst : Nat) : ovfOf (modThread c t f s) c inst = ovfOf s c inst := by
  unfold ovfOf; rw [core_modThread, if_pos rfl]
theorem ovfOf_advance (c t : Nat) (s : State) (inst : Nat) : ovfOf (advance c t s) c inst = ovfOf s c inst := by
  unfold ovfOf; rw [core_advance]
theorem plan_modOvf (c inst : Nat) (f : OvfSt → OvfSt) (s : State) : (modOvf c inst f s).plan = s.plan := rfl
theorem plan_advance (c t : Nat) (s : State) : (advance c t s).plan = s.plan := by simp [advance_eq]

theorem thread_modThread_all (s : State) (c t d v : Nat) (f : Thread → Thread) :
    thread (modThread c t f s) d v = if d = c ∧ v = t then f (thread s c t) else thread s d v := by
  by_cases hd : d = c
  · subst hd; rw [thread_modThread]; simp
  · rw [if_neg (by tauto)]; unfold thread; rw [core_modThread_ne _ _ hd]

/-- The end of a custom program's span, as one change of the core's threads and of what it counts and traces (R175). -/
theorem overrun_eq (c t : Nat) (s : State) : ∃ v T, v = { s with cores := v.cores } ∧ (∀ d, d ≠ c → core v d = core s d) ∧
    core v c = { core s c with threads := (core v c).threads } ∧ CountsOnly { v with trace := T } (overrun c t s) := by
  have fold : ∀ (l : List Nat) (u : State), u = { s with cores := u.cores } → (∀ d, d ≠ c → core u d = core s d) →
      core u c = { core s c with threads := (core u c).threads } →
      let v := l.foldl (fun st u => modThread c u (fun T => { T with measured := 0 }) st) u
      v = { s with cores := v.cores } ∧ (∀ d, d ≠ c → core v d = core s d) ∧ core v c = { core s c with threads := (core v c).threads } := by
    intro l
    induction l with
    | nil => exact fun u h1 h2 h3 => ⟨h1, h2, h3⟩
    | cons x l ih =>
      intro u h1 h2 h3
      refine ih _ ?_ (fun d hd => ?_) ?_
      · rw [h1]; rfl
      · rw [core_modThread_ne _ _ hd]; exact h2 d hd
      · rw [core_modThread, if_pos rfl, h3]
  have triv : ∃ v T, v = { s with cores := v.cores } ∧ (∀ d, d ≠ c → core v d = core s d) ∧
      core v c = { core s c with threads := (core v c).threads } ∧ CountsOnly { v with trace := T } s :=
    ⟨s, s.trace, rfl, fun _ _ => rfl, rfl, CountsOnly.refl s⟩
  unfold overrun
  split
  · dsimp only
    split
    · obtain ⟨h1, h2, h3⟩ := fold ((List.range 32).filter fun u => (thread s c u).prog == some _) s rfl (fun _ _ => rfl) rfl
      generalize List.foldl _ s _ = v at h1 h2 h3 ⊢
      split
      · split
        · have g : ∀ id l w x y, ∃ T, CountsOnly { v with trace := T } (traceRec c t 7 id w x (logEv 0x0202 l (bump (cntCore c 40) y v))) := by
            intro id l w x y
            obtain ⟨T, h⟩ := traceRec_eq c t 7 id w x (logEv 0x0202 l (bump (cntCore c 40) y v))
            refine ⟨T, CountsOnly.trans (t := { logEv 0x0202 l (bump (cntCore c 40) y v) with trace := T }) ?_ h⟩
            have k := (bump_countsOnly (cntCore c 40) y v).trans (logEv_countsOnly 0x0202 l (bump (cntCore c 40) y v))
            exact ⟨by rw [k.rest], k.host, k.mem⟩
          obtain ⟨T, h⟩ := g _ _ _ _ _
          exact ⟨v, T, h1, h2, h3, h⟩
        · exact ⟨v, v.trace, h1, h2, h3, CountsOnly.refl v⟩
      · exact ⟨v, v.trace, h1, h2, h3, CountsOnly.refl v⟩
    · exact triv
  · exact triv

theorem thread_kAdd (c k n : Nat) (s : State) (d v : Nat) : thread (kAdd c k n s) d v = thread s d v := by
  unfold kAdd thread; rw [core_modCore]; split
  · next h => subst h; rfl
  · rfl

theorem Completes.overrun {c t : Nat} {en : Bool} {k : Nat} {s u : State} (h : Completes c t en k s u) :
    Completes c t en k s (overrun c t u) := by
  obtain ⟨v, T, e1, e2, e3, e4⟩ := overrun_eq c t u
  have ht : ∀ j, ∃ m, Machine.thread (Machine.overrun c t u) c j = { Machine.thread u c j with measured := m } := thread_overrun c t u
  have hc : Machine.core (Machine.overrun c t u) c = Machine.core v c := core_of_cores e4.cores c
  refine ⟨fun j => ?_, fun j => ?_, fun j n => ?_, fun j => ?_, ?_, fun d hd => ?_, ?_, fun x hx => ?_⟩
  · rw [← h.counters j]; unfold kGet; rw [hc, e3]
  · obtain ⟨m, e⟩ := ht j; rw [e]; exact h.outstanding j
  · obtain ⟨m, e⟩ := ht j; unfold sReg aReg; rw [e]; exact h.regs j n
  · obtain ⟨m, e⟩ := ht j; rw [e]; exact h.pcs j
  · rw [hc, e3, h.core]
  · rw [core_of_cores e4.cores d]; exact (e2 d hd).trans (h.cores d hd)
  · rw [e4.rest, e1, h.rest]
  · rw [e4.mem x hx, show memByte { v with trace := T } x = memByte v x from rfl, e1]; exact h.mem x hx

theorem Completes.wake {c t : Nat} {en : Bool} {k : Nat} {s u : State} (h : Completes c t en k s u) :
    Completes c t en k s (wakeCore c u) := by
  have ht : ∀ j, (Machine.thread (wakeCore c u) c j) = { Machine.thread u c j with state := (Machine.thread (wakeCore c u) c j).state, wait := (Machine.thread (wakeCore c u) c j).wait } := by
    intro j; rw [thread_wakeCore]; split <;> rfl
  refine ⟨fun j => ?_, fun j => ?_, fun j n => ?_, fun j => ?_, ?_, fun d hd => ?_, ?_, fun x hx => ?_⟩
  · rw [← h.counters j]; unfold kGet; rw [core_wakeCore]
  · rw [ht]; exact h.outstanding j
  · unfold sReg aReg; rw [ht]; exact h.regs j n
  · rw [ht]; exact h.pcs j
  · rw [core_wakeCore, h.core]
  · exact ((CoreOnly.wakeCore c u).cores d hd).trans (h.cores d hd)
  · rw [h.rest]; rfl
  · exact ((CoreOnly.wakeCore c u).mem x hx).trans (h.mem x hx)

/-- What the completion of an asynchronous instruction does (R158). -/
theorem asyncDone_completes (c t : Nat) (en : Bool) (k : Nat) (s : State) : Completes c t en k s (asyncDone c t en k s) := by
  unfold asyncDone
  refine (Completes.wake ?_).overrun
  have base : Completes c t false k s (modThread c t (fun T => { T with outstanding := T.outstanding - 1 }) s) := by
    refine ⟨fun j => ?_, fun j => ?_, fun j n => ?_, fun j => ?_, ?_, fun d hd => ?_, rfl, fun x _ => rfl⟩
    · rw [if_neg (by simp)]; unfold kGet; rw [core_modThread, if_pos rfl]
    · rw [thread_modThread]; split
      · next h => subst h; rfl
      · rfl
    · have e : ∀ f : Thread → Thread, (∀ T, (f T).s = T.s ∧ (f T).a = T.a) → (Machine.thread (modThread c t f s) c j).s = (Machine.thread s c j).s ∧
          (Machine.thread (modThread c t f s) c j).a = (Machine.thread s c j).a := by
        intro f hf
        rw [thread_modThread]; split
        · next h => subst h; exact hf _
        · exact ⟨rfl, rfl⟩
      obtain ⟨e1, e2⟩ := e (fun T => { T with outstanding := T.outstanding - 1 }) fun _ => ⟨rfl, rfl⟩
      unfold sReg aReg; rw [e1, e2]; exact ⟨rfl, rfl⟩
    · rw [thread_modThread]; split
      · next h => subst h; rfl
      · rfl
    · rw [core_modThread, if_pos rfl]
    · exact core_modThread_ne _ _ hd
  cases en
  · exact base
  · rw [if_pos rfl]
    generalize modThread c t (fun T => { T with outstanding := T.outstanding - 1 }) s = a at base
    refine ⟨fun j => ?_, fun j => ?_, fun j n => ?_, fun j => ?_, ?_, fun d hd => ?_, ?_, fun x hx => ?_⟩
    · have := base.counters j
      rw [if_neg (by simp)] at this
      unfold kGet at *
      unfold kAdd
      rw [core_modCore_self, sget_smod]
      by_cases e : j = k
      · subst e; rw [if_pos rfl, if_pos ⟨rfl, rfl⟩, this]
      · rw [if_neg e, if_neg (by tauto), this]
    · rw [thread_kAdd]; exact base.outstanding j
    · unfold sReg aReg; rw [thread_kAdd]; exact base.regs j n
    · rw [thread_kAdd]; exact base.pcs j
    · unfold kAdd; rw [core_modCore_self, base.core]
    · unfold kAdd; rw [core_modCore_ne _ _ hd]; exact base.cores d hd
    · rw [base.rest]; rfl
    · exact base.mem x hx

end Sys2Proof.Machine
end

