-- ==== Sys2Proof/Laws/Store.lean ====
section
/-! SUPPORT. What a store through the memory controllers changes: its bytes, the poison and lost marks of the code words it
covers, the write buffers, and what counting brings (R244, R246, R251). -/

namespace Sys2Proof.Machine

open Sys2Proof

theorem MemOnly.refl (s : State) : MemOnly s s := ⟨rfl, rfl⟩
theorem MemOnly.trans {s t u : State} (h : MemOnly s t) (k : MemOnly t u) : MemOnly s u :=
  ⟨by rw [k.rest, h.rest], by rw [k.host, h.host]⟩
theorem MemOnly.counts {s t : State} (h : CountsOnly s t) : MemOnly s t := ⟨by rw [h.rest], h.host⟩
theorem MemOnly.mem (m : MemSt) (s : State) : MemOnly s { s with mem := m } := ⟨rfl, rfl⟩
theorem MemOnly.memWrite (a : Nat) (l : List Byte) (s : State) : MemOnly s (memWrite a l s) := ⟨rfl, rfl⟩
theorem MemOnly.memPoison (a n : Nat) (s : State) : MemOnly s (memPoison a n s) := ⟨rfl, rfl⟩
theorem MemOnly.fold {α : Type} {f : State → α → State} (hf : ∀ u x, MemOnly u (f u x)) (l : List α) (s : State) : MemOnly s (l.foldl f s) := by
  induction l generalizing s with
  | nil => exact .refl s
  | cons x l ih => exact (hf s x).trans (ih _)
theorem MemOnly.ite {s a b : State} {p : Prop} [Decidable p] (h1 : MemOnly s a) (h2 : MemOnly s b) : MemOnly s (if p then a else b) := by
  split <;> assumption

/-- Nothing but the write buffers and what counting brings differs; outside the event log every byte reads as before. -/
structure StoreOnly (s t : State) : Prop where
  rest : t = { s with mem := { s.mem with ch := t.mem.ch }, cnt := t.cnt, log := t.log, host := t.host }
  host : t.host = { s.host with attnSeq := t.host.attnSeq, attnStep := t.host.attnStep,
                                attnStanding := t.host.attnStanding, events := t.host.events }

theorem StoreOnly.refl (s : State) : StoreOnly s s := ⟨rfl, rfl⟩
theorem StoreOnly.trans {s t u : State} (h : StoreOnly s t) (k : StoreOnly t u) : StoreOnly s u :=
  ⟨by rw [k.rest, h.rest], by rw [k.host, h.host]⟩
theorem StoreOnly.counts {s t : State} (h : CountsOnly s t) : StoreOnly s t := ⟨by rw [h.rest], h.host⟩
theorem StoreOnly.modCh (c : Nat) (f : ChSt → ChSt) (s : State) : StoreOnly s (modCh c f s) := ⟨rfl, rfl⟩
theorem StoreOnly.ite {s a b : State} {p : Prop} [Decidable p] (h1 : StoreOnly s a) (h2 : StoreOnly s b) : StoreOnly s (if p then a else b) := by
  split <;> assumption
theorem StoreOnly.fold {α : Type} {f : State → α → State} (hf : ∀ u x, StoreOnly u (f u x)) (l : List α) (s : State) : StoreOnly s (l.foldl f s) := by
  induction l generalizing s with
  | nil => exact .refl s
  | cons x l ih => exact (hf s x).trans (ih _)
theorem StoreOnly.mem {s t : State} (h : StoreOnly s t) (x : Nat) (hx : ¬ logRing x) : memByte t x = memByte s x :=
  memByte_log x (by rw [h.rest]) (by rw [h.rest]) (by rw [h.rest]) hx
theorem StoreOnly.memOnly {s t : State} (h : StoreOnly s t) : MemOnly s t := ⟨by rw [h.rest], h.host⟩
theorem StoreOnly.bufferLine (x : Nat × Nat) (s : State) : StoreOnly s (bufferLine x s) := by
  unfold Machine.bufferLine
  extract_lets pl blk held slots rest s1
  have h1 : StoreOnly s s1 := .ite (.refl s) (.counts (bump_countsOnly ..))
  exact h1.trans (.modCh ..)
theorem StoreOnly.bufferWrite (a n : Nat) (s : State) : StoreOnly s (bufferWrite a n s) :=
  .ite (.fold (fun _ _ => .bufferLine ..) _ _) (.refl s)

/-- A store is the bytes, and then the buffers. -/
theorem memStore_only (a : Nat) (l : List Byte) (s : State) : StoreOnly (memWrite a l s) (memStore a l s) := .bufferWrite ..
theorem MemOnly.memStore (a : Nat) (l : List Byte) (s : State) : MemOnly s (memStore a l s) :=
  (MemOnly.memWrite a l s).trans (memStore_only a l s).memOnly
/-- Where no write buffer stands, a store is its bytes alone. -/
theorem memStore_plain {a : Nat} (l : List Byte) {s : State} (h : memRegion s a ≠ some .lpddr) : memStore a l s = memWrite a l s := by
  have e : memRegion (memWrite a l s) a = memRegion s a := rfl
  unfold Machine.memStore Machine.bufferWrite
  rw [e, if_neg (by simp [h])]
theorem memByte_memStore (s : State) (a : Nat) (l : List Byte) {x : Nat} (h : plainAddr x) :
    memByte (memStore a l s) x = if a ≤ x then (l[x - a]?).getD (memByte s x) else memByte s x := by
  rw [(memStore_only a l s).mem x h.2, memByte_memWrite s a l h]
theorem memByte_memStore_ne (s : State) (a : Nat) (l : List Byte) {x : Nat} (hx : ¬ logRing x) (h : x < a ∨ a + l.length ≤ x) :
    memByte (memStore a l s) x = memByte s x := by
  rw [(memStore_only a l s).mem x hx, memByte_memWrite_ne s a l h]
theorem memBytes_memStore (s : State) (a : Nat) (l : List Byte) (h : ∀ i, i < l.length → plainAddr (a + i)) :
    memBytes (memStore a l s) a l.length = l := by
  rw [memBytes_congr (s := memWrite a l s) fun i hi => (memStore_only a l s).mem _ (h i hi).2]
  exact memBytes_memWrite s a l h

/-! ### Counts of bytes (R385) -/

theorem CountsOnly.fold {α : Type} {f : State → α → State} (hf : ∀ u x, CountsOnly u (f u x)) (l : List α) (s : State) :
    CountsOnly s (l.foldl f s) := by
  induction l generalizing s with
  | nil => exact .refl s
  | cons x l ih => exact (hf s x).trans (ih _)
theorem countBytes_counts (b : Bool) (a n o : Nat) (s : State) : CountsOnly s (countBytes b a n o s) := by
  unfold countBytes
  split
  · exact bump_countsOnly ..
  · split
    · exact .refl s
    · exact bump_countsOnly ..
  · exact .refl s
theorem countRange_counts (b : Bool) (a n : Nat) (s : State) : CountsOnly s (countRange b a n s) :=
  .fold (fun _ _ => countBytes_counts ..) _ _

end Sys2Proof.Machine
end

