-- ==== Sys2Proof/Laws/Units.lean ====
section
/-! SUPPORT. What the vector unit, the exact unit and the output converters can change as they write results. -/

namespace Sys2Proof.Machine

open Sys2Proof

/-- What a unit of core `c` may change as it writes results: memory, the collectors, the overflow flags and the poison flag
of the core, and what counting and tracing bring. No thread, no queue, no completion counter. -/
structure UnitWrites (c : Nat) (s u : State) : Prop where
  core : core u c = { core s c with ovf := (Machine.core u c).ovf, poison := (Machine.core u c).poison }
  cores : ∀ d, d ≠ c → Machine.core u d = Machine.core s d
  rest : u = { s with cores := u.cores, cnt := u.cnt, log := u.log, host := u.host, trace := u.trace, collectors := u.collectors,
                      mem := { s.mem with data := u.mem.data, poison := u.mem.poison, ue := u.mem.ue } }

theorem UnitWrites.refl (c : Nat) (s : State) : UnitWrites c s s := ⟨rfl, fun _ _ => rfl, rfl⟩

theorem UnitWrites.trans {c : Nat} {s t u : State} (h : UnitWrites c s t) (k : UnitWrites c t u) : UnitWrites c s u where
  core := by rw [k.core, h.core]
  cores d hd := (k.cores d hd).trans (h.cores d hd)
  rest := by rw [k.rest, h.rest]

theorem UnitWrites.memWrite (c a : Nat) (l : List Byte) (s : State) : UnitWrites c s (memWrite a l s) := ⟨rfl, fun _ _ => rfl, rfl⟩
theorem UnitWrites.memPoison (c a n : Nat) (s : State) : UnitWrites c s (memPoison a n s) := ⟨rfl, fun _ _ => rfl, rfl⟩
theorem UnitWrites.collect (c p t : Nat) (f : StatRec → StatRec) (s : State) : UnitWrites c s (collect p t f s) := ⟨rfl, fun _ _ => rfl, rfl⟩
theorem UnitWrites.counts {c : Nat} {s u : State} (h : CountsOnly s u) : UnitWrites c s u where
  core := by rw [core_of_cores h.cores]
  cores d _ := core_of_cores h.cores d
  rest := by rw [h.rest]
theorem UnitWrites.modOvf (c i : Nat) (f : OvfSt → OvfSt) (s : State) : UnitWrites c s (modOvf c i f s) where
  core := by unfold Machine.modOvf; rw [core_modCore_self]
  cores d hd := by unfold Machine.modOvf; rw [core_modCore_ne _ _ hd]
  rest := rfl
theorem UnitWrites.corePoison (c r a : Nat) (s : State) : UnitWrites c s (corePoison c r a s) := by
  obtain ⟨T, u, h, e⟩ := corePoison_eq c r a s
  have k : UnitWrites c s u := ⟨by rw [core_of_cores h.cores]; rfl, fun d _ => core_of_cores h.cores d, by rw [h.rest]⟩
  rw [e]
  split
  · refine k.trans ⟨by rw [core_modCore_self], fun d hd => core_modCore_ne _ _ hd, rfl⟩
  · exact k

theorem UnitWrites.fold {α : Type} {c : Nat} {f : State → α → State} (hf : ∀ u x, UnitWrites c u (f u x)) (l : List α) (s : State) :
    UnitWrites c s (l.foldl f s) := by
  induction l generalizing s with
  | nil => exact .refl c s
  | cons x l ih => exact (hf s x).trans (ih _)

theorem UnitWrites.unitStore (c off : Nat) (p : Bool) (l : List Byte) (s : State) : UnitWrites c s (unitStore c off p l s) := by
  have w : UnitWrites c s (unitWrite c off l s) := by
    unfold unitWrite; split
    · exact .refl c s
    · exact .memWrite ..
  unfold Machine.unitStore
  split
  · refine w.trans ?_
    unfold unitPoison; split
    · exact .refl c _
    · exact .memPoison ..
  · exact w

theorem UnitWrites.ite {c : Nat} {s a b : State} {p : Prop} [Decidable p] (h1 : UnitWrites c s a) (h2 : UnitWrites c s b) :
    UnitWrites c s (if p then a else b) := by split <;> assumption

theorem UnitWrites.convertOut (c p : Nat) (d : OutDesc) (rows : List (List Val)) (bad poison : Bool) (s : State) :
    UnitWrites c s (convertOut c p d rows bad poison s) := by
  have ov : ∀ mx cs u, UnitWrites c u (ovfOutput c p d mx bad cs u) := fun _ _ _ => .modOvf ..
  have wb : ∀ f e sc nb l u, UnitWrites c u (writeBlocks c f d e sc nb poison l u) := fun _ _ _ _ _ _ =>
    .fold (fun _ _ => (UnitWrites.unitStore ..).trans (.unitStore ..)) _ _
  unfold Machine.convertOut
  split
  · exact .fold (fun _ _ => .unitStore ..) _ _
  · split
    · exact .refl c s
    · split
      · unfold convertMx
        dsimp only
        have h3 := fun g l f e sc nb m =>
          ((ov true l s).trans (UnitWrites.ite (p := countsStats (ovfOutput c p d true bad l s) c d = true)
            (.collect c (c * 6 + p) d.tensor g _) (.refl ..))).trans (wb f e sc nb m _)
        exact UnitWrites.ite (h3 ..) ((h3 ..).trans (wb ..))
      · unfold convertPlain
        dsimp only
        rename_i f _ _ _
        have put : ∀ base (codes : List (List Nat)) u, UnitWrites c u (codes.zipIdx.foldl (fun (v : State) x =>
            Machine.unitStore c (rowOff d base x.2 (packCodes (fmtWidth f) x.1).length) poison (packCodes (fmtWidth f) x.1) v) u) :=
          fun _ _ _ => .fold (fun _ _ => .unitStore ..) _ _
        have h3 := fun g l base codes =>
          ((ov false l s).trans (UnitWrites.ite (p := countsStats (ovfOutput c p d false bad l s) c d = true)
            (.collect c (c * 6 + p) d.tensor g _) (.refl ..))).trans (put base codes _)
        exact UnitWrites.ite (h3 ..) ((h3 ..).trans (put ..))
    · exact .refl c s

theorem UnitWrites.writeD (c p : Nat) (o : UnitOp) (rows : List (List Val)) (bad poison : Bool) (s : State) :
    UnitWrites c s (writeD c p o rows bad poison s) := by
  unfold Machine.writeD
  dsimp only
  split
  · exact .convertOut ..
  · split <;> exact .unitStore ..

theorem UnitWrites.scatOp (c : Nat) (o : UnitOp) (poison : Bool) (s : State) : UnitWrites c s (scatOp c o poison s) := by
  unfold Machine.scatOp scatRow
  exact .fold (fun _ _ => .ite (.refl ..) (.convertOut ..)) _ _

theorem UnitWrites.agreeCollect (c : Nat) (s0 : State) (o : UnitOp) (t : Nat) (s : State) : UnitWrites c s (agreeCollect s0 c o t s) := by
  unfold Machine.agreeCollect; exact .collect ..

/-- Losses change nothing else. -/
theorem addLosses_only (o : UnitOp) (ts : List Int) (l : List Val) (s : State) :
    addLosses o ts l s = { s with run := { s.run with losses32 := (addLosses o ts l s).run.losses32 } } := by
  unfold addLosses
  split <;> rfl

theorem UnitWrites.arr {c : Nat} {s u : State} (h : UnitWrites c s u) (a : Nat) : arr u c a = Machine.arr s c a := by
  unfold Machine.arr; rw [h.core]
theorem UnitWrites.thread {c : Nat} {s u : State} (h : UnitWrites c s u) (d v : Nat) : thread u d v = Machine.thread s d v := by
  unfold Machine.thread
  by_cases e : d = c
  · subst e; rw [h.core]
  · rw [h.cores d e]
theorem UnitWrites.kGet {c : Nat} {s u : State} (h : UnitWrites c s u) (j : Nat) : kGet u c j = Machine.kGet s c j := by
  unfold Machine.kGet; rw [h.core]

end Sys2Proof.Machine
end

