-- ==== Sys2Proof/Laws/Arrays.lean ====
section
/-! SUPPORT. What fills, TILE groups, gaps and completions can change on the arrays of a core. -/

namespace Sys2Proof.Machine

open Sys2Proof

theorem thread_modArr (c a : Nat) (f : ArrSt → ArrSt) (s : State) (d v : Nat) : thread (modArr c a f s) d v = thread s d v := by
  unfold modArr thread; rw [core_modCore]; split
  · next h => subst h; rfl
  · rfl
theorem thread_mod (c : Nat) (f : CoreSt → CoreSt) (hf : ∀ C, (f C).threads = C.threads) (s : State) (d v : Nat) :
    thread (modCore c f s) d v = thread s d v := by
  unfold thread; rw [core_modCore]; split
  · next h => subst h; rw [hf]
  · rfl
theorem kGet_modArr (c a : Nat) (f : ArrSt → ArrSt) (s : State) (j : Nat) : kGet (modArr c a f s) c j = kGet s c j := by
  unfold modArr kGet; rw [core_modCore_self]
theorem arr_mod (c : Nat) (f : CoreSt → CoreSt) (hf : ∀ C, (f C).arrays = C.arrays) (s : State) (b : Nat) :
    arr (modCore c f s) c b = arr s c b := by
  unfold arr; rw [core_modCore_self, hf]

/-- What `setComp` changes: widths and digits. -/
structure CompSet (c : Nat) (s u : State) : Prop where
  thread : ∀ d v, thread u d v = thread s d v
  mem : ∀ x, memByte u x = memByte s x
  arr : ∀ b, ∃ w, arr u c b = { arr s c b with width := w }
  core : core u c = { core s c with arrays := (Machine.core u c).arrays, digits := (Machine.core u c).digits }
  rest : u = { s with cores := u.cores }

theorem CompSet.refl (c : Nat) (s : State) : CompSet c s s := ⟨fun _ _ => rfl, fun _ => rfl, fun _ => ⟨_, rfl⟩, rfl, rfl⟩
theorem CompSet.trans {c : Nat} {s t u : State} (h : CompSet c s t) (k : CompSet c t u) : CompSet c s u where
  thread d v := (k.thread d v).trans (h.thread d v)
  mem x := (k.mem x).trans (h.mem x)
  arr b := by
    obtain ⟨w, e⟩ := h.arr b; obtain ⟨w', e'⟩ := k.arr b
    exact ⟨w', by rw [e', e]⟩
  core := by rw [k.core, h.core]
  rest := by rw [k.rest, h.rest]

theorem comp_one (c : Nat) (x : Nat × TileOp) (s : State) :
    CompSet c s (modArr c x.1 (fun A => { A with width := (tileComp (BitVec.ofNat 128 x.2.w)).1 })
      (modCore c (fun C => { C with digits := (tileComp (BitVec.ofNat 128 x.2.w)).2 }) s)) where
  thread d v := by rw [thread_modArr]; exact thread_mod c (fun C => { C with digits := (tileComp (BitVec.ofNat 128 x.2.w)).2 }) (fun _ => rfl) s d v
  mem _ := rfl
  arr b := by
    simp only [arr_modArr, arr_mod c (fun C => { C with digits := (tileComp (BitVec.ofNat 128 x.2.w)).2 }) (fun _ => rfl)]
    split
    · next h => subst h; exact ⟨_, rfl⟩
    · exact ⟨_, rfl⟩
  core := by unfold modArr; rw [core_modCore_self, core_modCore_self]
  rest := rfl

theorem comp_set (c : Nat) (ts : List (Nat × TileOp)) (s : State) : CompSet c s (setComp c ts s) := by
  unfold setComp
  induction ts generalizing s with
  | nil => exact .refl c s
  | cons x l ih => exact (comp_one c x s).trans (ih _)

theorem comp_width (c : Nat) (ts : List (Nat × TileOp)) (s : State) (y : Nat × TileOp)
    (h : y ∈ ts ∨ (arr s c y.1).width = (tileComp (BitVec.ofNat 128 y.2.w)).1) (hu : ∀ z ∈ ts, z.1 = y.1 → z = y) :
    (arr (setComp c ts s) c y.1).width = (tileComp (BitVec.ofNat 128 y.2.w)).1 := by
  unfold setComp
  induction ts generalizing s with
  | nil => rcases h with h | h <;> [cases h; exact h]
  | cons x l ih =>
    rw [List.foldl_cons]
    refine ih _ ?_ (fun z hz => hu z (by simp [hz]))
    by_cases e : x.1 = y.1
    · have := hu x (by simp) e; subst this
      right; rw [arr_modArr_self]
    · rcases h with h | h
      · rcases List.mem_cons.1 h with h | h
        · subst h; exact absurd rfl e
        · exact .inl h
      · right
        rw [arr_modArr, if_neg (Ne.symm e), arr_mod c (fun C => { C with digits := (tileComp (BitVec.ofNat 128 x.2.w)).2 }) (fun _ => rfl), h]

/-- What queues, gaps, ballast and ramps change: the queues and gap fields of the arrays of core `c`, and what counting and tracing
bring. -/
structure ArrOnly (c : Nat) (s u : State) : Prop where
  arr : ∀ b, arr u c b = { arr s c b with
    queue := (Machine.arr u c b).queue, frac := (Machine.arr u c b).frac, ramp := (Machine.arr u c b).ramp
    ballast := (Machine.arr u c b).ballast, gap := (Machine.arr u c b).gap, gapFrom := (Machine.arr u c b).gapFrom
    density := (Machine.arr u c b).density }
  core : core u c = { core s c with arrays := (Machine.core u c).arrays }
  cores : ∀ d, d ≠ c → Machine.core u d = Machine.core s d
  rest : u = { s with cores := u.cores, cnt := u.cnt, log := u.log, host := u.host, trace := u.trace }
  mem : ∀ x, ¬ logRing x → memByte u x = memByte s x

/-- What gaps, ballast and ramps change: no queue. -/
structure GapsOnly (c : Nat) (s u : State) : Prop extends ArrOnly c s u where
  queue : ∀ b, (Machine.arr u c b).queue = (Machine.arr s c b).queue

theorem ArrOnly.trans {c : Nat} {s t u : State} (h : ArrOnly c s t) (k : ArrOnly c t u) : ArrOnly c s u where
  arr b := by rw [k.arr, h.arr]
  core := by rw [k.core, h.core]
  cores d hd := (k.cores d hd).trans (h.cores d hd)
  rest := by rw [k.rest, h.rest]
  mem x hx := (k.mem x hx).trans (h.mem x hx)
/-- An update of an array that keeps all but its queue and gap fields. -/
theorem ArrOnly.modArr (c a : Nat) {f : ArrSt → ArrSt} (hf : ∀ A, f A = { A with
    queue := (f A).queue, frac := (f A).frac, ramp := (f A).ramp, ballast := (f A).ballast, gap := (f A).gap, gapFrom := (f A).gapFrom
    density := (f A).density }) (s : State) : ArrOnly c s (modArr c a f s) where
  arr b := by
    rw [arr_modArr]
    split
    · next h => rw [h]; exact hf _
    · rfl
  core := by unfold Machine.modArr; rw [core_modCore_self]
  cores d hd := by unfold Machine.modArr; rw [core_modCore_ne _ _ hd]
  rest := rfl
  mem _ _ := rfl
theorem ArrOnly.thread {c : Nat} {s u : State} (h : ArrOnly c s u) (d v : Nat) : thread u d v = Machine.thread s d v := by
  unfold Machine.thread
  by_cases e : d = c
  · subst e; rw [h.core]
  · rw [h.cores d e]
theorem ArrOnly.kGet {c : Nat} {s u : State} (h : ArrOnly c s u) (j : Nat) : kGet u c j = Machine.kGet s c j := by
  unfold Machine.kGet; rw [h.core]
theorem ArrOnly.regs {c : Nat} {s u : State} (h : ArrOnly c s u) (d v n : Nat) :
    sReg u d v n = sReg s d v n ∧ aReg u d v n = aReg s d v n := by unfold sReg aReg; rw [h.thread]; exact ⟨rfl, rfl⟩

theorem GapsOnly.refl (c : Nat) (s : State) : GapsOnly c s s := ⟨⟨fun _ => rfl, rfl, fun _ _ => rfl, rfl, fun _ _ => rfl⟩, fun _ => rfl⟩
theorem GapsOnly.trans {c : Nat} {s t u : State} (h : GapsOnly c s t) (k : GapsOnly c t u) : GapsOnly c s u :=
  ⟨h.toArrOnly.trans k.toArrOnly, fun b => (k.queue b).trans (h.queue b)⟩
theorem GapsOnly.ite {c : Nat} {s a b : State} {p : Prop} [Decidable p] (h1 : GapsOnly c s a) (h2 : GapsOnly c s b) :
    GapsOnly c s (if p then a else b) := by split <;> assumption
theorem GapsOnly.fold {α : Type} {c : Nat} {f : State → α → State} (hf : ∀ u x, GapsOnly c u (f u x)) (l : List α) (s : State) :
    GapsOnly c s (l.foldl f s) := by
  induction l generalizing s with
  | nil => exact .refl c s
  | cons x l ih => exact (hf s x).trans (ih _)
theorem GapsOnly.counts {c : Nat} {s u : State} (h : CountsOnly s u) : GapsOnly c s u where
  arr b := by unfold Machine.arr; rw [core_of_cores h.cores]
  core := by rw [core_of_cores h.cores]
  cores d _ := core_of_cores h.cores d
  rest := by rw [h.rest]
  mem := h.mem
  queue b := by unfold Machine.arr; rw [core_of_cores h.cores]
theorem GapsOnly.traceRec (c e thr typ arg d0 d1 : Nat) (s : State) : GapsOnly c s (traceRec e thr typ arg d0 d1 s) := by
  obtain ⟨T, h⟩ := traceRec_eq e thr typ arg d0 d1 s
  exact (show GapsOnly c s { s with trace := T } from ⟨⟨fun _ => rfl, rfl, fun _ _ => rfl, rfl, fun _ _ => rfl⟩, fun _ => rfl⟩).trans (.counts h)
/-- An update of an array that keeps all but its gap fields. -/
theorem GapsOnly.modArr (c a : Nat) {f : ArrSt → ArrSt} (hf : ∀ A, f A = { A with
    frac := (f A).frac, ramp := (f A).ramp, ballast := (f A).ballast, gap := (f A).gap, gapFrom := (f A).gapFrom, density := (f A).density })
    (s : State) : GapsOnly c s (modArr c a f s) where
  toArrOnly := .modArr c a (f := f) (fun A => (hf A).trans (by rw [show (f A).queue = A.queue by rw [hf]])) s
  queue b := by
    rw [arr_modArr]
    split
    · next h => rw [h, hf]
    · rfl

theorem GapsOnly.beginGap (c a n : Nat) (s : State) : GapsOnly c s (beginGap c a n s) := by
  unfold Machine.beginGap
  exact .ite (.refl c s) (.ite ((GapsOnly.modArr c a (fun _ => rfl) s).trans (.counts (bump_countsOnly ..))) (.modArr c a (fun _ => rfl) s))
theorem GapsOnly.gapCheck (c a : Nat) (s : State) : GapsOnly c s (gapCheck c a s) := by
  unfold Machine.gapCheck
  split
  · exact .ite (.refl c s) (.modArr c a (fun _ => rfl) s)
  · exact .refl c s
theorem GapsOnly.endUnplanned (c a : Nat) (s : State) : GapsOnly c s (endUnplanned c a s) := by
  unfold Machine.endUnplanned
  split
  · extract_lets n s1 s2 s3
    have h1 : GapsOnly c s s1 := .counts (bump_countsOnly ..)
    have h2 : GapsOnly c s s2 := .ite (h1.trans (.counts (bump_countsOnly ..))) h1
    have h3 : GapsOnly c s s3 := h2.trans (.modArr c a (fun _ => rfl) _)
    exact .ite h3 (h3.trans (.traceRec ..))
  · exact .refl c s
theorem GapsOnly.groupGap (c a n : Nat) (s : State) : GapsOnly c s (groupGap c a n s) := by
  unfold Machine.groupGap
  exact .ite (.refl c s) (((GapsOnly.endUnplanned c a s).trans (.modArr c a (fun _ => rfl) _)).trans (.counts (bump_countsOnly ..)))
theorem GapsOnly.fillStall (c : Nat) (ts : List (Nat × TileOp)) (n : Nat) (s : State) : GapsOnly c s (fillStall c ts n s) := by
  unfold Machine.fillStall
  exact .ite (.refl c s) ((GapsOnly.fold (fun u x => .counts (bump_countsOnly ..)) ts s).trans (.traceRec ..))
theorem GapsOnly.endGroup (c : Nat) (s : State) : GapsOnly c s (endGroup c s) := by
  unfold Machine.endGroup
  exact .ite (.refl c s) (.fold (fun u x => .ite ((GapsOnly.modArr c x (fun _ => rfl) u).trans (.gapCheck ..)) (.refl c u)) _ s)

theorem begun_id {l : List ArrOp} (h : ∀ t w rest, l ≠ .idle t w false :: rest) : begun l = l := by
  unfold begun
  split
  · exact absurd rfl (h _ _ _)
  · rfl

/-- What follows when the front of an array's queue has changed: an IDLE at the front begins, and gap fields change. -/
theorem afterArr_spec (c a : Nat) (s : State) : ArrOnly c s (afterArr c a s) ∧
    (arr (afterArr c a s) c a).queue = begun (arr s c a).queue ∧ ∀ b, b ≠ a → (arr (afterArr c a s) c b).queue = (arr s c b).queue := by
  unfold afterArr advanceArr queueOf
  split
  · next t w rest h =>
    have G := (GapsOnly.beginGap c a (idleCycles (BitVec.ofNat 128 w)) (modArr c a (fun A => { A with queue := .idle t w true :: rest }) s)).trans
      (.gapCheck c a _)
    refine ⟨(ArrOnly.modArr c a (f := fun A => { A with queue := .idle t w true :: rest }) (fun _ => rfl) s).trans G.toArrOnly, ?_, fun b hb => ?_⟩
    · rw [G.queue, arr_modArr_self, h]; rfl
    · rw [G.queue, arr_modArr, if_neg hb]
  · next h =>
    have G := GapsOnly.gapCheck c a s
    exact ⟨G.toArrOnly, by rw [G.queue, begun_id h], fun b _ => G.queue b⟩

theorem arr_beginGap_ne {c a n b : Nat} (u : State) (h : b ≠ a) : arr (beginGap c a n u) c b = arr u c b := by
  unfold beginGap
  split
  · rfl
  · split
    · rw [arr_bump, arr_modArr, if_neg h]
    · rw [arr_modArr, if_neg h]
theorem arr_gapCheck_ne {c a b : Nat} (u : State) (h : b ≠ a) : arr (gapCheck c a u) c b = arr u c b := by
  unfold gapCheck
  split
  · split
    · rfl
    · rw [arr_modArr, if_neg h]
  · rfl
theorem afterArr_ne {c a b : Nat} (s : State) (h : b ≠ a) : arr (afterArr c a s) c b = arr s c b := by
  unfold afterArr advanceArr
  rw [arr_gapCheck_ne _ h]
  split
  · rw [arr_beginGap_ne _ h, arr_modArr, if_neg h]
  · rfl
/-- Outside the schedule of a run an array without work is idle (R93). -/
theorem afterArr_idle (c a : Nat) {s : State} (h : underSchedule s = false) :
    arr (afterArr c a s) c a = { arr s c a with queue := begun (arr s c a).queue } := by
  have g : ∀ u, underSchedule u = false → gapCheck c a u = u := fun u hu => by
    unfold gapCheck
    split
    · rw [if_pos (by simp [hu])]
    · rfl
  unfold afterArr advanceArr queueOf
  split
  · next t w rest e =>
    have b : ∀ n u, underSchedule u = false → beginGap c a n u = u := fun n u hu => by
      unfold beginGap; exact if_pos (by simp [hu])
    rw [b _ (modArr c a _ s) h, g (modArr c a _ s) h, arr_modArr_self, e]; rfl
  · next e =>
    rw [g _ h, begun_id e]

theorem arr_completes {c t : Nat} {en : Bool} {k : Nat} {s u : State} (h : Completes c t en k s u) (a : Nat) : arr u c a = arr s c a := by
  unfold arr; rw [h.core]

/-- An entry has left an array's queue, and its instruction completes. -/
theorem leave_queue (c a t : Nat) (en : Bool) (k : Nat) (b u : State) (h : GapsOnly c (afterArr c a (asyncDone c t en k b)) u) :
    (arr u c a).queue = begun (arr b c a).queue ∧ (∀ j, j ≠ a → (arr u c j).queue = (arr b c j).queue) ∧
    (∀ j, arr u c j = { arr b c j with
      queue := (arr u c j).queue, frac := (arr u c j).frac, ramp := (arr u c j).ramp, ballast := (arr u c j).ballast, gap := (arr u c j).gap
      gapFrom := (arr u c j).gapFrom, density := (arr u c j).density }) ∧
    (∀ j, (thread u c j).outstanding = if j = t then (thread b c j).outstanding - 1 else (thread b c j).outstanding) ∧
    (∀ j, kGet u c j = if en = true ∧ j = k then (kGet b c j + 1) % 2 ^ 32 else kGet b c j) ∧
    (∀ v n, sReg u c v n = sReg b c v n ∧ aReg u c v n = aReg b c v n) ∧
    ∀ y, ¬ logRing y → memByte u y = memByte b y := by
  have C := asyncDone_completes c t en k b
  generalize asyncDone c t en k b = x at C h
  obtain ⟨A, q, qs⟩ := afterArr_spec c a x
  have B := A.trans h.toArrOnly
  have ha := arr_completes C
  refine ⟨by rw [h.queue, q, ha], fun j hj => by rw [h.queue, qs j hj, ha], fun j => by rw [B.arr, ha], fun j => ?_, fun j => ?_,
    fun v n => ?_, fun y hy => ?_⟩
  · rw [B.thread]; exact C.outstanding j
  · rw [B.kGet]; exact C.counters j
  · obtain ⟨e1, e2⟩ := B.regs c v n
    rw [e1, e2]; exact C.regs v n
  · rw [B.mem y hy]; exact C.mem y hy

theorem ite_cases {α : Type} (p : Prop) [Decidable p] (x y : α) : (if p then x else y) = x ∨ (if p then x else y) = y := by
  split
  · exact .inl rfl
  · exact .inr rfl

theorem bank_rows (N : Nat) (hN : N ≤ 128) (rows : List (List Nat)) (hr : ∀ r ∈ rows, r.length = N) (k : Nat) (b : List (Nat × Nat)) (i : Nat) :
    sget natD ((rows.zipIdx k).foldl (fun (b : List (Nat × Nat)) r => ssetRun natD b (r.2 * 128) r.1) b) i =
      if k ≤ i / 128 ∧ i / 128 < k + rows.length ∧ i % 128 < N then (rows.getD (i / 128 - k) []).getD (i % 128) 0 else sget natD b i := by
  induction rows generalizing k b with
  | nil => simp only [List.zipIdx_nil, List.foldl_nil]; rw [if_neg (by simp; omega)]
  | cons r rows ih =>
    rw [List.zipIdx_cons, List.foldl_cons, ih (fun x hx => hr x (by simp [hx]))]
    have hl := hr r (by simp)
    rw [sget_ssetRun]
    simp only [List.length_cons]
    by_cases h1 : k + 1 ≤ i / 128 ∧ i / 128 < k + 1 + rows.length ∧ i % 128 < N
    · rw [if_pos h1, if_pos (by omega)]
      rw [show i / 128 - k = (i / 128 - (k + 1)) + 1 by omega, List.getD_cons_succ]
    · rw [if_neg h1]
      by_cases h2 : k ≤ i / 128 ∧ i / 128 < k + (rows.length + 1) ∧ i % 128 < N
      · have hk : i / 128 = k := by omega
        rw [if_pos h2, if_pos (by omega), hk, Nat.sub_self]
        have : i - k * 128 = i % 128 := by omega
        rw [this]
        have hlt : i % 128 < r.length := by omega
        simp [hlt]
      · rw [if_neg h2]
        split
        · rw [List.getElem?_eq_none (by omega), Option.getD_none]
        · rfl

theorem tN_le (w : InstrWord) : tN w ≤ 128 := by
  unfold tN iF bitsN
  have := Nat.mod_lt (w.toNat / 2 ^ 30) (show 0 < 2 ^ 7 by decide)
  omega


/-- What running TILEs changes: the arrays and the poison flag of core `c`, and what counting and tracing bring. -/
structure TilesOnly (c : Nat) (s u : State) : Prop where
  core : core u c = { core s c with arrays := (Machine.core u c).arrays, poison := (Machine.core u c).poison }
  cores : ∀ d, d ≠ c → Machine.core u d = Machine.core s d
  rest : u = { s with cores := u.cores, cnt := u.cnt, log := u.log, host := u.host, trace := u.trace }
  mem : ∀ x, ¬ logRing x → memByte u x = memByte s x

theorem TilesOnly.refl (c : Nat) (s : State) : TilesOnly c s s := ⟨rfl, fun _ _ => rfl, rfl, fun _ _ => rfl⟩
theorem TilesOnly.trans {c : Nat} {s t u : State} (h : TilesOnly c s t) (k : TilesOnly c t u) : TilesOnly c s u where
  core := by rw [k.core, h.core]
  cores d hd := (k.cores d hd).trans (h.cores d hd)
  rest := by rw [k.rest, h.rest]
  mem x hx := (k.mem x hx).trans (h.mem x hx)
theorem TilesOnly.arrOnly {c : Nat} {s u : State} (h : ArrOnly c s u) : TilesOnly c s u := ⟨by rw [h.core], h.cores, h.rest, h.mem⟩
theorem TilesOnly.counts {c : Nat} {s u : State} (h : CountsOnly s u) : TilesOnly c s u := .arrOnly (GapsOnly.counts h).toArrOnly
theorem TilesOnly.modArr (c a : Nat) (f : ArrSt → ArrSt) (s : State) : TilesOnly c s (modArr c a f s) where
  core := by unfold Machine.modArr; rw [core_modCore_self]
  cores d hd := by unfold Machine.modArr; rw [core_modCore_ne _ _ hd]
  rest := rfl
  mem _ _ := rfl
theorem TilesOnly.thread {c : Nat} {s u : State} (h : TilesOnly c s u) (d v : Nat) : thread u d v = Machine.thread s d v := by
  unfold Machine.thread
  by_cases e : d = c
  · subst e; rw [h.core]
  · rw [h.cores d e]
/-- Poison at a core: no array changes. -/
theorem TilesOnly.corePoison (c r a : Nat) (s : State) : TilesOnly c s (corePoison c r a s) ∧ ∀ b, arr (corePoison c r a s) c b = arr s c b := by
  obtain ⟨T, u, h, e⟩ := corePoison_eq c r a s
  have k : TilesOnly c s u := ⟨by rw [core_of_cores h.cores]; rfl, fun d _ => core_of_cores h.cores d, by rw [h.rest], fun x hx => h.mem x hx⟩
  have ka : ∀ b, arr u c b = arr s c b := fun b => by unfold arr; rw [core_of_cores h.cores]; rfl
  rw [e]
  split
  · refine ⟨k.trans ⟨by rw [core_modCore_self], fun d hd => core_modCore_ne _ _ hd, rfl, fun _ _ => rfl⟩, fun b => ?_⟩
    rw [← ka b]; unfold arr; rw [core_modCore_self]
  · exact ⟨k, ka⟩

theorem arr_counts {s u : State} (h : CountsOnly s u) (c a : Nat) : arr u c a = arr s c a := by
  unfold arr; rw [core_of_cores h.cores]

theorem planeLen_le (f : Fmt) : planeLen f + scaleLen f ≤ 0x10000 := by cases f <;> decide

/-- A fill reads the same set from a state that differs by running TILEs. -/
theorem readStat_tiles {c a addr : Nat} {s u : State} (h : TilesOnly c s u) (ht : (arr u c a).table = (arr s c a).table) (hc : c < 96)
    (ha : addr < 2 ^ 20) (w : InstrWord) (texp : Int) (real : Nat) : readStat u c a w texp real addr = readStat s c a w texp real addr := by
  have hm : ∀ n i, n ≤ 0x10000 → i < n → memByte u (scratchAddr c addr + i) = memByte s (scratchAddr c addr + i) := fun n i h1 h2 =>
    h.mem _ (by unfold scratchAddr logRing; omega)
  have L := planeLen_le ((statFmt (tSfmt w)).getD .bf16)
  have e1 : scrBytes u c addr (planeLen ((statFmt (tSfmt w)).getD .bf16)) = scrBytes s c addr (planeLen ((statFmt (tSfmt w)).getD .bf16)) :=
    memBytes_congr fun i hi => hm _ i (by omega) hi
  have e2 : scrBytes u c (addr + planeLen ((statFmt (tSfmt w)).getD .bf16)) (scaleLen ((statFmt (tSfmt w)).getD .bf16)) =
      scrBytes s c (addr + planeLen ((statFmt (tSfmt w)).getD .bf16)) (scaleLen ((statFmt (tSfmt w)).getD .bf16)) :=
    memBytes_congr fun i hi => by rw [← scratchAddr_add, Nat.add_assoc]; exact hm 0x10000 _ (by omega) (by omega)
  have e3 : rowMap u c a = rowMap s c a := by rw [h.rest]; rfl
  have e4 : colMap u c a = colMap s c a := by rw [h.rest]; rfl
  have e5 : ∀ x n, anyPoison u x n = anyPoison s x n := fun x n => by rw [h.rest]; rfl
  unfold readStat
  simp only [e1, e2, e3, e4, e5, ht]

/-- A stream whose rings lie in scratch reads the same from a state that differs by running TILEs. -/
theorem feedElem_tiles {c : Nat} {f : Fmt} {d : FeedDesc} {s u : State} (h : TilesOnly c s u) (hc : c < 96) (hw : 0 < d.words)
    (hr : d.ring + d.words * 16 * fmtWidth f ≤ 0x100000) (hs : isMx f = true → d.sring + d.words * 4 ≤ 0x100000) (m k : Nat) (hk : k < 128) :
    feedElem u c f d m k = feedElem s c f d m k := by
  have hm : ∀ x, x < 0x100000 → memByte u (scratchAddr c x) = memByte s (scratchAddr c x) := fun x hx =>
    h.mem _ (by unfold scratchAddr logRing; omega)
  have e : feedCode u c f d m k = feedCode s c f d m k := by
    unfold feedCode
    extract_lets w word
    have : word % d.words * (16 * w) + 16 * w ≤ d.words * (16 * w) := by
      have := Nat.mod_lt word hw
      calc word % d.words * (16 * w) + 16 * w = (word % d.words + 1) * (16 * w) := by rw [Nat.add_mul, Nat.one_mul]
        _ ≤ d.words * (16 * w) := Nat.mul_le_mul_right _ this
    have q : scrBytes u c (d.ring + word % d.words * (16 * w)) (16 * w) = scrBytes s c (d.ring + word % d.words * (16 * w)) (16 * w) :=
      memBytes_congr fun i hi => by
        rw [scratchAddr_add]; refine hm _ ?_
        have : d.words * 16 * fmtWidth f = d.words * (16 * w) := Nat.mul_assoc ..
        omega
    rw [q]
  unfold feedElem
  rw [e]
  split
  · next hx =>
    have := hs hx
    have l := Nat.mod_lt m hw
    rw [hm _ (by omega)]
  · rfl

theorem tK_le (w : InstrWord) : tK w / 32 ≤ 4 := by
  unfold tK iF bitsN
  omega

/-- A sum looks at the rows of its groups alone. -/
theorem tileAcc_congr {real : Nat} {main res st st' : Nat → Nat → Val} {window : Bool} {m0 M passes groups m n acc : Nat} (hg : groups ≤ 4)
    (h : ∀ v k, k < 128 → st v k = st' v k) :
    tileAcc real main res st window m0 M passes groups m n acc = tileAcc real main res st' window m0 M passes groups m n acc := by
  have key : ∀ (x : Nat → Nat → Val) v g, g < 4 → tileSum real x st window v n g = tileSum real x st' window v n g := fun x v g hg => by
    unfold tileSum
    congr 1
    refine List.map_congr_left fun i hi => ?_
    have := List.mem_range.1 (List.mem_filter.1 hi).1
    rw [h v _ (by omega)]
  unfold tileAcc
  refine List.foldl_ext _ _ _ fun a p _ => List.foldl_ext _ _ _ fun b g hg' => ?_
  have := List.mem_range.1 hg'
  rw [key _ _ _ (by omega)]

/-- What a TILE of a started group leaves in its array: the sets have swapped, each accumulator of the TILE is its sum over the stream
`st`, and no other has changed (R66, R68, R75). -/
structure TileRan (c m0 : Nat) (st : Nat → Nat → Val) (s : State) (sf f : Fmt) (t : TileOp) (A B : ArrSt) (res : StatSet) (pr pc : List Nat) : Prop where
  sets : B.live = res ∧ B.shadow = (if tPasses (BitVec.ofNat 128 t.w) = 3 then A.shadow else A.live) ∧ B.full = false
  now : B.streaming = true ∧ B.gap = .none ∧ B.ballast = false ∧ B.frac = 0 ∧ B.ramp = 0
  table : B.table = A.table
  bank : ∀ i, sget natD B.bank i =
    if i / 128 < tM (BitVec.ofNat 128 t.w) ∧ i % 128 < tN (BitVec.ofNat 128 t.w) then
      tileAcc A.shadow.real (statElem pr pc A.shadow) (statElem pr pc res) st (usesWindow sf f) m0 (tM (BitVec.ofNat 128 t.w))
        (tPasses (BitVec.ofNat 128 t.w)) (tK (BitVec.ofNat 128 t.w) / 32) (i / 128) (i % 128)
        (if tFresh (BitVec.ofNat 128 t.w) then 0 else sget natD A.bank i)
    else sget natD A.bank i

theorem runTile_only (c a m0 : Nat) (d : FeedDesc) (t : TileOp) (s : State) :
    TilesOnly c s (runTile c a m0 d t s) ∧ ∀ b, b ≠ a → arr (runTile c a m0 d t s) c b = arr s c b := by
  unfold runTile
  extract_lets w A main res pr pc M groups skip acc0
  split
  · extract_lets window stream rows badHere poisonHere bad poison cycles bank s1 s2 s3
    have both : ∀ (p : Prop) [Decidable p] (x y : State), (TilesOnly c s x ∧ ∀ b, arr x c b = arr s c b) →
        (TilesOnly c s y ∧ ∀ b, arr y c b = arr s c b) → TilesOnly c s (if p then x else y) ∧ ∀ b, arr (if p then x else y) c b = arr s c b :=
      fun p _ x y hx hy => by split <;> assumption
    have h1 : TilesOnly c s s1 ∧ ∀ b, arr s1 c b = arr s c b := both _ _ _ (TilesOnly.corePoison ..) ⟨.refl c s, fun _ => rfl⟩
    have h2 : TilesOnly c s s2 ∧ ∀ b, arr s2 c b = arr s c b :=
      both _ _ _ ⟨h1.1.trans (.counts (bump_countsOnly ..)), fun b => by rw [arr_bump, h1.2]⟩ h1
    have h3 : TilesOnly c s s3 := h2.1.trans (.counts (bump_countsOnly ..))
    refine ⟨h3.trans (.modArr ..), fun b hb => ?_⟩
    rw [arr_modArr, if_neg hb]
    show arr (bump _ _ s2) c b = _
    rw [arr_bump, h2.2]
  · exact ⟨.refl c s, fun _ _ => rfl⟩

/-- A TILE of a started group runs (R66, R75, R79). -/
theorem runTile_spec {c a m0 : Nat} {d : FeedDesc} {t : TileOp} {s : State} {sf f : Fmt} (hsf : statFmt (tSfmt (BitVec.ofNat 128 t.w)) = some sf)
    (hf : streamFmt (tTfmt (BitVec.ofNat 128 t.w)) = some f) :
    TileRan c m0 (feedElem s c f d) s sf f t (arr s c a) (arr (runTile c a m0 d t s) c a)
      (if tPasses (BitVec.ofNat 128 t.w) = 3 then readStat s c a (BitVec.ofNat 128 t.w) t.texp t.real (tRaddr (BitVec.ofNat 128 t.w))
        else (arr s c a).shadow) (rowMap s c a) (colMap s c a) := by
  unfold runTile
  extract_lets w A main res pr pc M groups skip acc0
  simp -zeta only [show statFmt (tSfmt w) = some sf from hsf, show streamFmt (tTfmt w) = some f from hf]
  extract_lets window stream rows badHere poisonHere bad poison cycles bank s1 s2 s3
  have a1 : arr s1 c a = arr s c a := by
    show arr (if _ then _ else _) c a = _
    split
    · exact (TilesOnly.corePoison ..).2 a
    · rfl
  have a2 : arr s2 c a = arr s c a := by
    show arr (if _ then _ else _) c a = _
    split
    · rw [arr_bump, a1]
    · exact a1
  have a3 : arr s3 c a = arr s c a := by show arr (bump _ _ s2) c a = _; rw [arr_bump, a2]
  rw [arr_modArr_self, a3]
  refine ⟨⟨rfl, rfl, rfl⟩, ⟨rfl, rfl, rfl, rfl, rfl⟩, rfl, fun i => ?_⟩
  have hrl : ∀ r ∈ rows, r.length = tN w := by
    intro r hr
    obtain ⟨m, _, rfl⟩ := List.mem_map.1 hr
    simp
  have hlen : rows.length = M := by show (List.map _ (List.range M)).length = M; simp
  show sget natD ((rows.zipIdx 0).foldl _ A.bank) i = _
  rw [bank_rows (tN w) (tN_le w) rows hrl 0 A.bank i, hlen, Nat.sub_zero, Nat.zero_add]
  by_cases h : i / 128 < M ∧ i % 128 < tN w
  · rw [if_pos ⟨Nat.zero_le _, h.1, h.2⟩, if_pos h]
    have hm : rows.getD (i / 128) [] = (List.range (tN w)).map fun n =>
        tileAcc main.real (statElem pr pc main) (statElem pr pc res) stream window m0 M (tPasses w) groups (i / 128) n (acc0 (i / 128) n) := by
      show List.getD ((List.range M).map _) _ _ = _
      rw [List.getD_eq_getElem?_getD, List.getElem?_map, List.getElem?_range h.1]; rfl
    rw [hm, List.getD_eq_getElem?_getD, List.getElem?_map, List.getElem?_range h.2]
    show tileAcc main.real (statElem pr pc main) (statElem pr pc res) stream window m0 M (tPasses w) groups (i / 128) (i % 128)
      (if tFresh w then 0 else sget natD A.bank (i / 128 * 128 + i % 128)) = _
    rw [show i / 128 * 128 + i % 128 = i by omega]
  · rw [if_neg (by tauto), if_neg h]

/-- The arrays `A` and `B` differ in their gap fields alone. -/
def SameSets (A B : ArrSt) : Prop := A = { B with
  frac := A.frac, ramp := A.ramp, ballast := A.ballast, gap := A.gap, gapFrom := A.gapFrom, density := A.density }

theorem GapsOnly.same {c : Nat} {s u : State} (h : GapsOnly c s u) (b : Nat) : SameSets (arr u c b) (arr s c b) := by
  have := h.arr b
  rw [h.queue] at this
  exact this

/-- The TILEs of a group, one to an array, run over the state before the group's start. -/
theorem runTiles_spec {c m0 : Nat} {d : FeedDesc} {s : State} (hc : c < 96) (L : List (Nat × TileOp)) (hn : (L.map (·.1)).Nodup) (u : State)
    (hu : TilesOnly c s u) (hA : ∀ y ∈ L, SameSets (arr u c y.1) (arr s c y.1))
    (hd : ∀ y ∈ L, ∀ f, streamFmt (tTfmt (BitVec.ofNat 128 y.2.w)) = some f → 0 < d.words ∧
      d.ring + d.words * 16 * fmtWidth f ≤ 0x100000 ∧ (isMx f = true → d.sring + d.words * 4 ≤ 0x100000)) :
    let v := L.foldl (fun st y => runTile c y.1 m0 d y.2 st) u
    TilesOnly c s v ∧ (∀ b, b ∉ L.map (·.1) → arr v c b = arr u c b) ∧
    ∀ y ∈ L, ∀ sf f, statFmt (tSfmt (BitVec.ofNat 128 y.2.w)) = some sf → streamFmt (tTfmt (BitVec.ofNat 128 y.2.w)) = some f →
      TileRan c m0 (feedElem s c f d) s sf f y.2 (arr s c y.1) (arr v c y.1)
        (if tPasses (BitVec.ofNat 128 y.2.w) = 3 then
          readStat s c y.1 (BitVec.ofNat 128 y.2.w) y.2.texp y.2.real (tRaddr (BitVec.ofNat 128 y.2.w)) else (arr s c y.1).shadow)
        (rowMap s c y.1) (colMap s c y.1) := by
  induction L generalizing u with
  | nil => exact ⟨hu, fun _ _ => rfl, by simp⟩
  | cons x L ih =>
    intro v
    rw [List.map_cons, List.nodup_cons] at hn
    obtain ⟨R, O⟩ := runTile_only c x.1 m0 d x.2 u
    have ne : ∀ y ∈ L, y.1 ≠ x.1 := fun y hy e => hn.1 (e ▸ List.mem_map_of_mem hy)
    obtain ⟨i1, i2, i3⟩ := ih hn.2 (runTile c x.1 m0 d x.2 u) (hu.trans R)
      (fun y hy => by rw [O _ (ne y hy)]; exact hA y (List.mem_cons_of_mem _ hy)) (fun y hy => hd y (List.mem_cons_of_mem _ hy))
    refine ⟨i1, fun b hb => ?_, fun y hy sf f hsf hf => ?_⟩
    · rw [List.map_cons, List.mem_cons, not_or] at hb
      exact (i2 b hb.2).trans (O b hb.1)
    · rcases List.mem_cons.1 hy with rfl | hy
      · have B := hA y (by simp)
        obtain ⟨w1, w2, w3⟩ := hd y (by simp) f hf
        have T := runTile_spec (c := c) (a := y.1) (m0 := m0) (d := d) (t := y.2) (s := u) hsf hf
        rw [← i2 y.1 hn.1] at T
        change TileRan _ _ _ _ _ _ _ _ (arr v c y.1) _ _ _ at T
        have e1 : rowMap u c y.1 = rowMap s c y.1 := by rw [hu.rest]; rfl
        have e2 : colMap u c y.1 = colMap s c y.1 := by rw [hu.rest]; rfl
        have b1 : (arr u c y.1).shadow = (arr s c y.1).shadow := by rw [B]
        have b2 : (arr u c y.1).live = (arr s c y.1).live := by rw [B]
        have b3 : (arr u c y.1).table = (arr s c y.1).table := by rw [B]
        have b4 : (arr u c y.1).bank = (arr s c y.1).bank := by rw [B]
        have e3 : readStat u c y.1 (BitVec.ofNat 128 y.2.w) y.2.texp y.2.real (tRaddr (BitVec.ofNat 128 y.2.w)) =
            readStat s c y.1 (BitVec.ofNat 128 y.2.w) y.2.texp y.2.real (tRaddr (BitVec.ofNat 128 y.2.w)) :=
          readStat_tiles hu b3 hc (Nat.mod_lt _ (by decide)) _ _ _
        rw [e1, e2, e3, b1] at T
        refine ⟨⟨T.sets.1, by rw [T.sets.2.1, b1, b2], T.sets.2.2⟩, T.now, T.table.trans b3, fun i => ?_⟩
        have := T.bank i
        rw [b1, b4] at this
        rw [this]
        split
        · rw [tileAcc_congr (tK_le _) fun v k hk => feedElem_tiles hu hc w1 w2 w3 v k hk]
        · rfl
      · exact i3 y hy sf f hsf hf

/-- An array that is ready keeps its ramp. -/
theorem rampUp_ready {A : ArrSt} (h1 : A.ramp = 0) (h2 : A.gap = .unplanned → A.ballast = false → A.density ≤ A.frac) : rampUp A = A := by
  unfold rampUp
  split
  · next h =>
    simp only [Bool.and_eq_true, decide_eq_true_eq, Bool.not_eq_true'] at h
    have := h2 h.1 h.2
    cases A
    simp only at h1 this
    simp only [ArrSt.mk.injEq, and_true, true_and]
    rw [if_neg (by omega), h1]
  · rfl

theorem rampUps_spec (c : Nat) (L : List (Nat × TileOp)) (s : State) (h : ∀ y ∈ L, rampUp (arr s c y.1) = arr s c y.1) :
    let u := L.foldl (fun st x => modArr c x.1 rampUp st) s
    (∀ b, arr u c b = arr s c b) ∧ core u c = { core s c with arrays := (core u c).arrays } ∧ (∀ d, d ≠ c → core u d = core s d) ∧
      u = { s with cores := u.cores } := by
  induction L generalizing s with
  | nil => exact ⟨fun _ => rfl, rfl, fun _ _ => rfl, rfl⟩
  | cons x L ih =>
    have a : ∀ b, arr (modArr c x.1 rampUp s) c b = arr s c b := fun b => by
      rw [arr_modArr]; split
      · next e => rw [e, h x (by simp)]
      · rfl
    obtain ⟨i1, i2, i3, i4⟩ := ih (modArr c x.1 rampUp s) fun y hy => by rw [a]; exact h y (List.mem_cons_of_mem _ hy)
    refine ⟨fun b => (i1 b).trans (a b), i2.trans ?_, fun d hd => (i3 d hd).trans ?_, i4.trans rfl⟩
    · unfold modArr; rw [core_modCore_self]; rfl
    · unfold modArr; rw [core_modCore_ne _ _ hd]

end Sys2Proof.Machine
end

