-- ==== Sys2Proof/Laws/Host.lean ====
section
/-! SUPPORT. What replies, ring commands and packets change, and what they do (R272 to R281, R339 to R342). -/

namespace Sys2Proof.Machine

open Sys2Proof

theorem HostOnly.refl (s : State) : HostOnly s s := ⟨rfl, fun _ _ => rfl⟩

theorem HostOnly.trans {s t u : State} (h : HostOnly s t) (k : HostOnly t u) : HostOnly s u where
  rest := by rw [k.rest, h.rest]
  mem x hx := (k.mem x hx).trans (h.mem x hx)

theorem HostOnly.counts {s u : State} (h : CountsOnly s u) : HostOnly s u where
  rest := by rw [h.rest]
  mem := h.mem

theorem HostOnly.host (s : State) (h : HostSt) (o : List Output) : HostOnly s { s with host := h, out := o } :=
  ⟨rfl, fun x _ => memByte_congr x rfl rfl rfl rfl⟩

theorem HostOnly.modRing (q : Nat) (f : RingSt → RingSt) (s : State) : HostOnly s (modRing q f s) := .host s _ s.out

theorem HostOnly.emit (o : Output) (s : State) : HostOnly s (emit o s) := .host s s.host _

theorem HostOnly.bump (o n : Nat) (s : State) : HostOnly s (bump o n s) := .counts (bump_countsOnly ..)

theorem HostOnly.logEv (t : Nat) (a : List Byte) (s : State) : HostOnly s (logEv t a s) := .counts (logEv_countsOnly ..)

theorem HostOnly.attn (c : Nat) (s : State) : HostOnly s (attn c s) := .counts (attn_countsOnly ..)

theorem HostOnly.ite {s a b : State} {p : Prop} [Decidable p] (h1 : HostOnly s a) (h2 : HostOnly s b) : HostOnly s (if p then a else b) := by
  split <;> assumption

theorem HostOnly.writeReply (q : Nat) (r : List Byte) (s : State) : HostOnly s (writeReply q r s) := by
  unfold Machine.writeReply
  extract_lets a first s1
  exact .trans (.ite (.trans (.emit ..) (.emit ..)) (.bump ..)) (.modRing ..)

theorem HostOnly.reply (q tag op code : Nat) (p : List Byte) (s : State) : HostOnly s (reply q tag op code p s) := by
  unfold Machine.reply
  extract_lets r
  exact .ite (.refl s) (.ite (.modRing ..) (.writeReply ..))

theorem HostOnly.finish (q code : Nat) (p : List Byte) (s : State) : HostOnly s (finish q code p s) := by
  unfold Machine.finish
  split
  · exact .refl s
  · exact .trans (.trans (.bump ..) (.reply ..)) (.modRing ..)

theorem HostOnly.dropReserved (q n : Nat) (s : State) : HostOnly s (dropReserved q n s) := by
  induction n generalizing s with
  | zero => exact .refl s
  | succ n ih =>
    unfold Machine.dropReserved
    split
    · exact .ite (.trans (.finish ..) (ih _)) (.refl s)
    · exact .refl s

theorem HostOnly.complete (q code : Nat) (p : List Byte) (s : State) : HostOnly s (complete q code p s) := by
  unfold Machine.complete
  exact .trans (.finish ..) (.dropReserved ..)

theorem HostOnly.drainReplies (q n : Nat) (s : State) : HostOnly s (drainReplies q n s) := by
  induction n generalizing s with
  | zero => exact .refl s
  | succ n ih =>
    unfold Machine.drainReplies
    split
    · exact .refl s
    · exact .ite (.refl s) (.trans (.trans (.modRing ..) (.writeReply ..)) (ih _))

theorem ringCommand_checks {q op : Nat} {enc : List Byte → Bool} {st : State → Option Nat} {body : List Byte → State → State} {s : State}
    {e : List Byte} (h : frontEntry s q op = some e) :
    (s.dev = .wedged → op ≠ 0x3F → ringCommand q op enc st body s = complete q 0xFE [] s) ∧
    (s.dev ≠ .wedged → (zeroAt e 1 1 && zeroAt e 4 4 && enc e) = false → ringCommand q op enc st body s = complete q 1 [] s) ∧
    (s.dev ≠ .wedged → (zeroAt e 1 1 && zeroAt e 4 4 && enc e) = true → ∀ code, st s = some code →
      ringCommand q op enc st body s = complete q code [] s) := by
  unfold ringCommand
  rw [h]
  refine ⟨fun h1 h2 => ?_, fun h1 h2 => ?_, fun h1 h2 code h3 => ?_⟩
  · simp [h1, h2]
  · have : (s.dev == DevState.wedged) = false := by simpa using h1
    simp [this, h2]
  · have : (s.dev == DevState.wedged) = false := by simpa using h1
    simp [this, h2, h3]

theorem ringCommand_runs {q op : Nat} {enc : List Byte → Bool} {st : State → Option Nat} {body : List Byte → State → State} {s : State}
    {e : List Byte} (h : Front s q op e) (hd : s.dev ≠ .wedged) (he : enc e = true) (hs : st s = none) :
    ringCommand q op enc st body s = body e s := by
  unfold ringCommand
  have : (s.dev == DevState.wedged) = false := by simpa using hd
  rw [h.1]; simp [this, h.2.1, h.2.2, he, hs]

theorem ring_eq_of {s u : State} (h : u.host.rings = s.host.rings) (q : Nat) : ring u q = ring s q := by unfold ring; rw [h]

theorem finish_eq {q code : Nat} {payload e : List Byte} {rest : List (List Byte)} {s : State} (h : (ring s q).fetched = e :: rest)
    (hc : cntSat (cntDev 0) (cntExact (cntAdd (cntDev 0) 1 s) (cntDev 0)) = false) :
    finish q code payload s = modRing q (fun R => { R with fetched := rest, accepted := false })
      (reply q (leAt e 2 2) (leAt e 0 1) code payload (cntAdd (cntDev 0) 1 s)) := by
  unfold finish; rw [h]; simp only; rw [bump_plain _ _ _ hc]

theorem dropReserved_id {q : Nat} {s : State} (n : Nat) (h : ∀ y, (ring s q).fetched.head? = some y → knownOpcode (leAt y 0 1) = true) :
    dropReserved q n s = s := by
  cases n with
  | zero => rfl
  | succ n =>
    unfold dropReserved
    split
    · next e l hh => rw [if_neg]; rw [h e (by rw [hh]; rfl)]; simp
    · rfl

theorem reply_cases (q tag op code : Nat) (payload : List Byte) (s : State) (h : ringEnabled s q = true) :
    let r := statusWord s code s.host.attnStep ++ leBytes 2 tag ++ leBytes 1 op ++ [0] ++ padTo 24 payload
    ((rqFull s q = true ∨ s.host.d3hot = true ∨ (ring s q).queued ≠ []) →
      reply q tag op code payload s = modRing q (fun R => { R with queued := R.queued ++ [r] }) s) ∧
    (rqFull s q = false → s.host.d3hot = false → (ring s q).queued = [] → reply q tag op code payload s = writeReply q r s) := by
  intro r
  unfold reply
  extract_lets
  rw [h, if_neg (by simp)]
  refine ⟨fun g => if_pos ?_, fun g1 g2 g3 => if_neg ?_⟩
  · rcases g with g | g | g
    · simp [g]
    · simp [g]
    · cases hh : (ring s q).queued with
      | nil => exact absurd hh g
      | cons a l => simp
  · rw [g1, g2, g3]; decide

theorem statusWord_len (s : State) (c a : Nat) : (statusWord s c a).length = 4 := by
  unfold statusWord; simp [length_leBytes]

theorem padTo_len (n : Nat) (l : List Byte) : (padTo n l).length = n := by
  unfold padTo; rw [List.length_take, List.length_append, List.length_replicate]; omega

theorem cntExact_logEv (typ : Nat) (args : List Byte) (s : State) (p : Nat) : cntExact (logEv typ args s) p = cntExact s p := by
  rw [logEv_eq]; rfl

theorem cntExact_bump_ne (s : State) {o p : Nat} (n : Nat) (h : p ≠ o) (h' : p ≠ cntDev 16) : cntExact (bump o n s) p = cntExact s p := by
  unfold bump satEvent
  extract_lets t
  split
  · rw [cntExact_logEv]
    unfold attnBase
    rw [cntExact_cntAdd_ne _ _ h']
    exact cntExact_cntAdd_ne _ _ h
  · exact cntExact_cntAdd_ne _ _ h

/-- A count adds up to the counter's largest value (R380). -/
theorem cntExact_bump_self (s : State) {o : Nat} (n : Nat) (h : o ≠ cntDev 16) :
    cntExact (bump o n s) o = min (cntExact s o + n) ((2 ^ 48 - 1) * cntUnit o) := by
  unfold bump satEvent
  extract_lets t
  have e := cntExact_cntAdd_self s o n
  split
  · rw [cntExact_logEv]
    unfold attnBase
    rw [cntExact_cntAdd_ne _ _ h]
    exact e
  · exact e
theorem cntUnit_ch {c k : Nat} (h : c < 16) (h1 : 2 ≤ k) (h2 : k < 32) : cntUnit (cntCh c k) = 1 := by
  unfold cntUnit cntCh
  rw [if_neg (by omega), if_neg (by omega), if_neg (by omega), if_pos (by omega), if_neg (by omega)]
theorem cntUnit_port {p k : Nat} (h : p < 16) (h1 : 2 ≤ k) (h2 : k < 32) : cntUnit (cntPort p k) = 1 := by
  unfold cntUnit cntPort
  rw [if_neg (by omega), if_neg (by omega), if_pos (by omega), if_neg (by omega)]
theorem cntUnit_part {c k : Nat} (h : k < 4) : cntUnit (cntPart c k) = 1 := by
  unfold cntUnit cntPart
  rw [if_neg (by omega), if_neg (by omega), if_neg (by omega), if_neg (by omega), if_neg (by omega)]
/-- A device counter that counts events. -/
theorem cntExact_bump_dev (s : State) {k : Nat} (h : k < 32) (h16 : k ≠ 16) :
    cntExact (bump (cntDev k) 1 s) (cntDev k) = min (cntExact s (cntDev k) + 1) (2 ^ 48 - 1) := by
  have u : cntUnit (cntDev k) = 1 := by
    unfold cntUnit cntDev
    rw [if_pos (by omega)]
    extract_lets j
    have : j = k := by show (0x200100 + 8 * k - 0x200100) / 8 = k; omega
    rw [this, if_neg (by omega), if_neg (by omega)]
  rw [cntExact_bump_self s 1 (by unfold cntDev; omega), u, Nat.mul_one]
theorem cntExact_of {s t : State} (h : t.cnt = s.cnt) (o : Nat) : cntExact t o = cntExact s o := by unfold cntExact; rw [h]

theorem ring_counts {s u : State} (h : CountsOnly s u) (q : Nat) : ring u q = ring s q := by
  unfold ring; rw [h.host]

theorem statesOk_mem {l : List DevState} {s : State} (h : s.dev ∈ l) : statesOk l s = none := by
  unfold statesOk; rw [if_pos (by simpa using h)]

theorem acc_of {q : Nat} {s v u : State} (h1 : u.host.rings = (accept q v).host.rings) (h2 : v.host.rings = s.host.rings)
    (hm : ∀ x, memByte u x = memByte s x) : Accepted q s u where
  accepted := by
    unfold ring; rw [h1]
    show ring (accept q v) q = _
    unfold accept; rw [ring_modRing_self]; unfold ring; rw [h2]
  rings r hr := by
    unfold ring; rw [h1]
    show ring (accept q v) r = _
    unfold accept; rw [ring_modRing_ne _ _ hr]; unfold ring; rw [h2]
  mem := hm

theorem beginStart_spec (q r l : Nat) (s : State) : Accepted q s (beginStart q r l s) ∧
    (beginStart q r l s).host = { s.host with rings := (beginStart q r l s).host.rings, startRing := some q, runRing := r } ∧
    (beginStart q r l s).run = { s.run with limit := l, startAt := none, ready := s.run.ready || s.stroke.locked } ∧
    beginStart q r l s = { s with host := (beginStart q r l s).host, run := (beginStart q r l s).run, dev := (beginStart q r l s).dev } ∧
    (s.stroke.locked = true → s.run.ready = false → (beginStart q r l s).dev = .starting) ∧
    (s.stroke.locked = false → (beginStart q r l s).dev = s.dev) := by
  unfold beginStart setReady
  split
  · next hh =>
    have h2 : s.stroke.locked = true ∧ s.run.ready = false := by simpa [accept, modRing] using hh
    refine ⟨acc_of (v := s) rfl rfl fun x => memByte_congr x rfl rfl rfl rfl, rfl, ?_, rfl, fun _ _ => rfl, fun h => ?_⟩
    · simp [accept, modRing, h2]
    · rw [h2.1] at h; cases h
  · next hh =>
    have h2 : s.stroke.locked = true → s.run.ready = true := by simpa [accept, modRing] using hh
    refine ⟨acc_of (v := s) rfl rfl fun x => memByte_congr x rfl rfl rfl rfl, rfl, ?_, rfl, fun h1 h3 => ?_, fun _ => rfl⟩
    · simp only [accept, modRing]
      cases h3 : s.stroke.locked
      · simp
      · simp [h2 h3]
    · rw [h2 h1] at h3; cases h3

theorem takeSnapshot_spec (n : Nat) (s : State) : takeSnapshot n s = { s with cnt := (takeSnapshot n s).cnt, free := s.free + 1 } ∧
    (takeSnapshot n s).cnt.seq = (s.cnt.seq + 1) % 2 ^ 32 ∧ (takeSnapshot n s).cnt.stroke = s.stroke.count ∧
    ∀ k, cntExact (takeSnapshot n s) k = if bitN n (cntGroup k) then 0 else cntExact s k := by
  refine ⟨rfl, rfl, rfl, fun k => ?_⟩
  unfold cntExact
  show sget natD (s.cnt.exact.filter fun x => !bitN n (cntGroup x.1)) k = _
  cases h : bitN n (cntGroup k)
  · exact sget_filter (fun v => by show (!bitN n (cntGroup k)) = true; rw [h]; rfl)
  · exact sget_filter_none (fun v => by show (!bitN n (cntGroup k)) = false; rw [h]; rfl)

theorem NetOnly.refl (s : State) : NetOnly s s := ⟨rfl, rfl, fun _ _ => rfl⟩

theorem NetOnly.trans {s t u : State} (h : NetOnly s t) (k : NetOnly t u) : NetOnly s u where
  rest := by rw [k.rest, h.rest]
  host := by rw [k.host, h.host]
  mem x hx := (k.mem x hx).trans (h.mem x hx)

theorem NetOnly.counts {s u : State} (h : CountsOnly s u) : NetOnly s u where
  rest := by rw [h.rest]
  host := h.host
  mem := h.mem

theorem NetOnly.bump (o n : Nat) (s : State) : NetOnly s (bump o n s) := .counts (bump_countsOnly ..)

theorem NetOnly.ports (s : State) (p : List (Nat × PortSt)) (o : List Output) :
    NetOnly s { s with out := o, link := { s.link with port := p } } :=
  ⟨rfl, rfl, fun x _ => memByte_congr x rfl rfl rfl rfl⟩

theorem NetOnly.modSub (p b : Nat) (f : SubPort → SubPort) (s : State) : NetOnly s (modSub p b f s) := .ports s _ s.out

theorem NetOnly.emit (o : Output) (s : State) : NetOnly s (emit o s) := .ports s s.link.port _

theorem NetOnly.ite {s a b : State} {p : Prop} [Decidable p] (h1 : NetOnly s a) (h2 : NetOnly s b) : NetOnly s (if p then a else b) := by
  split <;> assumption

theorem NetOnly.forEach {α : Type} {f : α → State → State} (hf : ∀ x u, NetOnly u (f x u)) (l : List α) (s : State) :
    NetOnly s (forEach l f s) := by
  unfold Machine.forEach
  induction l generalizing s with
  | nil => exact .refl s
  | cons x l ih => exact (hf x s).trans (ih _)

theorem NetOnly.sendFrame (p b : Nat) (l : List Byte) (s : State) : NetOnly s (sendFrame p b l s) := by
  unfold Machine.sendFrame
  extract_lets S f
  unfold txFrame
  exact .trans (.trans (.modSub ..) (.bump ..)) (.emit ..)

theorem NetOnly.wire (p b : Nat) (h : PktHdr) (body : List Byte) (s : State) : NetOnly s (wire p b h body s) := by
  unfold Machine.wire
  exact .trans (.emit ..) (.forEach (fun _ _ => .sendFrame ..) _ _)

theorem NetOnly.pump (p b n : Nat) (s : State) : NetOnly s (pump p b n s) := by
  induction n generalizing s with
  | zero => exact .refl s
  | succ n ih =>
    unfold Machine.pump
    extract_lets S
    refine .ite (.refl s) ?_
    split
    · exact .refl s
    · exact .trans (.trans (.trans (.modSub ..) (.modSub ..)) (.wire ..)) (ih _)

theorem NetOnly.sendOn (p b : Nat) (h : PktHdr) (body : List Byte) (s : State) : NetOnly s (sendOn p b h body s) := by
  unfold Machine.sendOn
  refine .ite (.ite (.wire ..) (.refl s)) ?_
  extract_lets bytes v
  exact .trans (.modSub ..) (.pump ..)

theorem NetOnly.sendTo (h : PktHdr) (body : List Byte) (s : State) : NetOnly s (sendTo h body s) := by
  unfold Machine.sendTo
  split
  · exact .sendOn ..
  · exact .refl s

theorem NetOnly.flood (kind : Nat) (body : List Byte) (s : State) : NetOnly s (flood kind body s) := .forEach (fun _ _ => .sendOn ..) _ _

/-- The digest exchange begins (R234). -/
theorem NetOnly.sendDigest {s : State} {pl : Plan} (h : s.plan = some pl) :
    NetOnly { s with link := { s.link with digestSent := true, digestOk := false, digestDone := false } } (sendDigest s) := by
  unfold Machine.sendDigest
  rw [h]
  exact .forEach (fun _ _ => .sendOn ..) _ _

theorem powersUp_none {f : State → Option Nat} {s : State} (h : avsBlocks s = false) : powersUp f s = f s := by
  unfold powersUp; rw [h]; rfl

theorem statesRun_mem {l : List DevState} {s : State} (h : s.dev ∈ l) : statesRun l s = none := by
  unfold statesRun; rw [if_pos (by simpa using h)]

theorem pkgRegion_plain (s : State) (n : Nat) : plainAddr (pkgRegion s + n) := by
  have h : 480 * 2 ^ 30 ≤ lpddrSize s := by unfold lpddrSize; split <;> omega
  have : lpddrBase ≤ pkgRegion s := by unfold pkgRegion fromTop; split <;> omega
  unfold lpddrBase at this
  unfold plainAddr logRing sharedBase
  omega

theorem allGroupsOn_eq (s : State) : ∃ g, allGroupsOn s = { s with pwr := { s.pwr with groups := g } } := by
  unfold allGroupsOn
  have : ∀ (l : List Nat) (s : State), ∃ g, l.foldl (fun t g => groupOn g t) s = { s with pwr := { s.pwr with groups := g } } := by
    intro l
    induction l with
    | nil => intro s; exact ⟨s.pwr.groups, rfl⟩
    | cons x l ih =>
      intro s
      obtain ⟨g, e⟩ := ih (groupOn x s)
      rw [List.foldl_cons, e]
      unfold groupOn
      split
      · exact ⟨g, rfl⟩
      · exact ⟨g, rfl⟩
  exact this _ s

end Sys2Proof.Machine
end

