-- ==== Sys2Proof/Laws/Stream.lean ====
section
/-! SUPPORT. What the STR queues and passes do (R166, R258 to R263). -/

namespace Sys2Proof.Machine

open Sys2Proof

theorem drainStr_stop {c : Nat} {s : State} (h : strHead c s = none) (n : Nat) : drainStr c n s = s := by
  cases n with
  | zero => rfl
  | succ n => unfold drainStr; rw [h]

theorem strHead_nil {c : Nat} {s : State} (h : (core s c).str = []) : strHead c s = none := by unfold strHead; rw [h]

theorem queue_round {c : Nat} {v u : State} (L : List Nat) (hu : ∀ d ∈ L, (core u d).str = []) (hv : ∀ d ∈ L, d ≠ c → (core v d).str = [])
    (h : strHead c v = some u) (hs : (core v c).str ≠ []) :
    L.foldl (fun st c => if (core st c).str.isEmpty then st else drainStr c 64 st) v = if c ∈ L then u else v := by
  have idle : ∀ (L : List Nat), (∀ d ∈ L, (core u d).str = []) →
      L.foldl (fun st c => if (core st c).str.isEmpty then st else drainStr c 64 st) u = u := by
    intro L hL
    induction L with
    | nil => rfl
    | cons x L ih =>
      rw [List.foldl_cons, if_pos (by rw [hL x (by simp)]; rfl), ih fun d hd => hL d (by simp [hd])]
  induction L with
  | nil => simp
  | cons x L ih =>
    rw [List.foldl_cons]
    by_cases e : x = c
    · subst e
      rw [if_neg (by simpa using hs), if_pos (by simp)]
      rw [show drainStr x 64 v = u by
        show (match strHead x v with | some t => drainStr x 63 t | none => v) = u
        rw [h]; exact drainStr_stop (strHead_nil (hu x (by simp))) 63]
      exact idle L fun d hd => hu d (by simp [hd])
    · rw [if_pos (by rw [hv x (by simp) e]; rfl), ih (fun d hd => hu d (by simp [hd])) fun d hd => hv d (by simp [hd])]
      by_cases m : c ∈ L
      · rw [if_pos m, if_pos (by simp [m])]
      · rw [if_neg m, if_neg (by simp [m, Ne.symm e])]

theorem drainAll_idle {s : State} (h : ∀ d, d < 96 → (core s d).str = []) (n : Nat) : drainAll n s = s := by
  have e : (List.range 96).foldl (fun st c => if (core st c).str.isEmpty then st else drainStr c 64 st) s = s := by
    have : ∀ (L : List Nat), (∀ d ∈ L, d < 96) → L.foldl (fun st c => if (core st c).str.isEmpty then st else drainStr c 64 st) s = s := by
      intro L hL
      induction L with
      | nil => rfl
      | cons x L ih => rw [List.foldl_cons, if_pos (by rw [h x (hL x (by simp))]; rfl), ih fun d hd => hL d (by simp [hd])]
    exact this _ fun d hd => List.mem_range.1 hd
  cases n with
  | zero => rfl
  | succ n => unfold drainAll; simp only [e, if_true]

theorem settle_one {c : Nat} {v u : State} (hc : c < 96) (hu : ∀ d, d < 96 → (core u d).str = [])
    (hv : ∀ d, d < 96 → d ≠ c → (core v d).str = []) (h : strHead c v = some u) (hs : (core v c).str ≠ []) : settle v = u := by
  unfold settle
  have e := queue_round (List.range 96) (fun d hd => hu d (List.mem_range.1 hd)) (fun d hd => hv d (List.mem_range.1 hd)) h hs
  rw [if_pos (List.mem_range.2 hc)] at e
  unfold drainAll
  simp only [e]
  split
  · rfl
  · exact drainAll_idle hu 63

theorem core_popStr (c : Nat) (s : State) : core (popStr c s) c = { core s c with str := (core s c).str.drop 1 } := by
  unfold popStr; rw [core_modCore_self]

theorem after_str {c : CoreId} {t : ThreadId} {s v b u : State} {o : StrOp} {en : Bool} {k : Nat} (I : IssuedAsync c t s v)
    (hc : core v c = { core s c with threads := (core v c).threads, cycle := (core v c).cycle, str := [o] }) (hb : b.cores = (popStr c v).cores)
    (K : Completes c t en k b u) (hi : strIdle s) :
    WentOn s u c t ∧ WritesNone c t s u ∧ strIdle u ∧ (thread u c t).outstanding = (thread s c t).outstanding ∧
      ∀ j, kGet u c j = if en = true ∧ j = k then (kGet s c j + 1) % 2 ^ 32 else kGet s c j := by
  have cb : ∀ d, core b d = core (popStr c v) d := core_of_cores hb
  have tb : ∀ x, thread b c x = thread v c x := fun x => by
    unfold thread; rw [cb, core_popStr]
  have kb : ∀ j, kGet b c j = kGet s c j := fun j => by
    unfold kGet; rw [cb, core_popStr, hc]
  refine ⟨?_, ⟨fun m => ?_, fun m => ?_⟩, fun d hd => ?_, ?_, fun j => ?_⟩
  · unfold WentOn; rw [K.pcs, tb]; exact I.went
  · rw [(K.regs t m).1]; unfold sReg; rw [tb, I.thread]
  · rw [(K.regs t m).2]; unfold aReg; rw [tb, I.thread]
  · by_cases e : d = c.val
    · subst e; rw [K.core]; show (core b c).str = []
      rw [cb, core_popStr]; show (core v c).str.drop 1 = []
      rw [hc]; rfl
    · rw [K.cores d e, cb, popStr, core_modCore_ne _ _ e, I.only.cores d e]; exact hi d hd
  · rw [K.outstanding, if_pos rfl, tb, I.thread]; exact Nat.add_sub_cancel ..
  · rw [K.counters, kb]

theorem queued_idle {c : CoreId} {t : ThreadId} {s v : State} {o : StrOp} (I : IssuedAsync c t s v)
    (hc : core v c = { core s c with threads := (core v c).threads, cycle := (core v c).cycle, str := [o] }) (hi : strIdle s) :
    (∀ d, d < 96 → d ≠ c.val → (core v d).str = []) ∧ (core v c).str = [o] :=
  ⟨fun d hd e => by rw [I.only.cores d e]; exact hi d hd, by rw [hc]⟩

theorem marks_of {s v : State} (h : v.stm = s.stm) (m : Nat) : mark v m = mark s m := by unfold mark; rw [h]

theorem desc_of {s v : State} (h : v.stm = s.stm) (m : Nat) : desc v m = desc s m := by unfold desc; rw [h]

theorem desc_congr {s u : State} (h : u.stm.desc = s.stm.desc) (d : Nat) : desc u d = desc s d := by unfold desc; rw [h]

theorem desc_useDesc (e : Nat) (s : State) (d : Nat) : desc (useDesc e s) d = if d = e then { desc s d with lastUse := s.stm.clock } else desc s d := by
  unfold useDesc
  split
  · next h => subst h; rw [desc_modDesc_self]; rfl
  · next h => rw [desc_modDesc_ne _ _ h]; rfl

theorem core_queued (c t : Nat) (o : StrOp) (s : State) (h : (core s c).str = []) :
    core (asyncBegin c t (modCore c (fun C => { C with str := C.str ++ [o] }) (advance c t s))) c =
      { core s c with
        threads := (core (asyncBegin c t (modCore c (fun C => { C with str := C.str ++ [o] }) (advance c t s))) c).threads
        cycle := (core (asyncBegin c t (modCore c (fun C => { C with str := C.str ++ [o] }) (advance c t s))) c).cycle, str := [o] } := by
  have e := core_asyncBegin c t (fun C => { C with str := C.str ++ [o] }) s
  generalize core (asyncBegin c t (modCore c (fun C => { C with str := C.str ++ [o] }) (advance c t s))) c = X at e ⊢
  rw [h] at e
  rw [e]; rfl

theorem str_queued (c : CoreId) (t : ThreadId) (w : InstrWord) (s : State) (op : Nat) (fields) (extra ad : State → Nat) (hk : op ≤ 3)
    (h : Ready s c t w) (hi : strIdle s) (h1 : iClass w = 5) (h2 : iOp w = op) (h0 : strCause fields extra c t w s = 0) :
    ∃ v, issueStr op fields extra ad c t w s = settle v ∧ IssuedAsync c t s v ∧ v = { advance c t s with cores := v.cores } ∧
      core v c = { core s c with threads := (core v c).threads, cycle := (core v c).cycle, str :=
        [{ thread := t, w := w.toNat, addr := ad s, pc := (thread s c t).pc, missed := false }] } ∧
      (thread v c t).prog = (thread s c t).prog := by
  have hn : knownOp 5 op = true := by simp [knownOp, hk]
  refine ⟨asyncBegin c t (modCore c (fun C => { C with str := C.str ++
    [{ thread := t, w := w.toNat, addr := ad s, pc := (thread s c t).pc, missed := false }] }) (advance c t s)), ?_, ?_, rfl, ?_, ?_⟩
  · unfold issueStr; exact issue_runs h hn h1 h2 h0 (decide_eq_false (by rw [hi c c.isLt]; decide))
  · exact issuedAsync_queue c t (fun C => { C with str := C.str ++
      [{ thread := t, w := w.toNat, addr := ad s, pc := (thread s c t).pc, missed := false }] }) s fun _ => rfl
  · exact core_queued c t _ s (hi c c.isLt)
  · have := (issuedAsync_queue c t (fun C => { C with str := C.str ++
      [{ thread := t, w := w.toNat, addr := ad s, pc := (thread s c t).pc, missed := false }] }) s fun _ => rfl).thread
    rw [this]

theorem MemOnly.zeroField (y : DescImg) (base word k : Nat) (s : State) : MemOnly s (zeroField y base word k s) :=
  .fold (fun _ _ => .memStore ..) _ _

theorem MemOnly.skewZeros (y : DescImg) (base n : Nat) (s : State) : MemOnly s (skewZeros y base n s) := by
  unfold Machine.skewZeros
  split
  · exact .fold (fun _ _ => .fold (fun _ _ => .memStore ..) _ _) _ _
  · split
    · extract_lets d s1 s2
      have h1 : MemOnly s s1 := .fold (fun _ _ => .fold (fun _ _ => .zeroField ..) _ _) _ _
      have h2 : MemOnly s1 s2 := .ite (.fold (fun _ _ => .fold (fun _ _ => .ite (.zeroField ..) (.refl _)) _ _) _ _) (.refl _)
      split
      · exact (h1.trans h2).trans (.fold (fun _ _ => .fold (fun _ _ => .ite (.zeroField ..) (.refl _)) _ _) _ _)
      · exact h1.trans h2
    · exact .refl s

/-- What the start of a pass does (R258). -/
theorem beginPass_eq (d : Nat) (i : Option Issuer) (s : State) : ∃ m, MemOnly s m ∧
    ((descOf s d).dest = 0xFFFFFFFF ∨ (descOf s (descOf s d).dest).mode = 0 → m = s) ∧
    beginPass d i s = modDesc d (fun D => { D with pass := some {
      issuer := i, gen := D.gen, done := 0,
      total := blkBytes (blockList s (descOf s d)), poisoned := false,
      legs := (legsOf s (descOf s d)).map fun f => (f.id, 0, false) } }) m := by
  unfold beginPass
  extract_lets x total legs y b
  refine ⟨b, ?_, fun h => ?_, rfl⟩
  · show MemOnly s (if _ then _ else _)
    refine .ite ?_ (.refl s)
    split
    · exact .skewZeros ..
    · exact .refl s
  · exact if_neg (by rcases h with h | h <;> simp [x, y, h])

theorem descTable_ge (s : State) : lpddrBase ≤ descTable s := by
  have h : 480 * 2 ^ 30 ≤ lpddrSize s := by unfold lpddrSize; split <;> omega
  unfold descTable fromTop; split <;> omega

theorem descTable_plain (s : State) (n : Nat) : plainAddr (descTable s + n) := by
  have := descTable_ge s
  unfold lpddrBase at this
  unfold plainAddr logRing sharedBase
  omega

/-- `v` differs from `s` by cores and what counting brings: it holds the same descriptors and refuses the same ones (R256, R265). -/
structure Beside (s v : State) : Prop where
  rest : v = { s with cores := v.cores, cnt := v.cnt, log := v.log, host := v.host }
  mem : ∀ x, ¬ logRing x → memByte v x = memByte s x
theorem Beside.table {s v : State} (h : Beside s v) : descTable v = descTable s := by rw [h.rest]; rfl
theorem Beside.image {s v : State} (h : Beside s v) (d : Nat) : descImage v d = descImage s d := by
  unfold descImage
  rw [h.table]
  exact memBytes_congr fun i _ => h.mem _ (by rw [Nat.add_assoc]; exact (descTable_plain s _).2)
theorem Beside.descOf {s v : State} (h : Beside s v) (d : Nat) : descOf v d = Machine.descOf s d := by unfold Machine.descOf; rw [h.image]
theorem Beside.region {s v : State} (h : Beside s v) : memRegion v = memRegion s := by funext a; rw [h.rest]; rfl
theorem Beside.closed {s v : State} (h : Beside s v) : closedTo v = closedTo s := by funext a; rw [h.rest]; rfl
theorem Beside.blkOk {s v : State} (h : Beside s v) : blkOk v = Machine.blkOk s := by
  funext b k; unfold Machine.blkOk; rw [h.region, h.closed]
theorem Beside.legs {s v : State} (h : Beside s v) : legsOf v = legsOf s := by funext a; rw [h.rest]; rfl
theorem Beside.list {s v : State} (h : Beside s v) {x : DescImg} (hx : ∀ i, i < 16 * x.nblk → ¬ logRing (x.blist + i)) :
    blockList v x = blockList s x := by
  unfold blockList
  refine List.map_congr_left fun i hi => ?_
  have := List.mem_range.1 hi
  congr 1
  refine memBytes_congr fun j hj => h.mem _ ?_
  rw [Nat.add_assoc]; exact hx _ (by omega)
theorem Beside.pair {s v : State} (h : Beside s v) {b : List Byte} (hx : ListsApart s (parseDesc b)) : pairCause v b = pairCause s b := by
  unfold pairCause
  have e1 : blockList v (parseDesc b) = blockList s (parseDesc b) := h.list (hx _ (by simp))
  have e2 : blockList v (Machine.descOf s (parseDesc b).dest) = blockList s (Machine.descOf s (parseDesc b).dest) := h.list (hx _ (by simp))
  simp only [h.descOf, e1, e2, h.blkOk, h.legs, h.image]
theorem Beside.foreign {s v : State} (h : Beside s v) {c t d : Nat} (hp : (thread v c t).prog = (thread s c t).prog) (b : List Byte) :
    foreignDesc v c t d b = foreignDesc s c t d b := by
  have : isCustom v c t = isCustom s c t := by unfold isCustom; rw [h.rest]; rfl
  unfold foreignDesc
  rw [this, hp, h.descOf]
theorem Beside.poison {s v : State} (h : Beside s v) (d : Nat) : descPoison v d = descPoison s d := by
  have e : memReason v = memReason s := by funext a n; rw [h.rest]; rfl
  unfold descPoison
  simp only [h.descOf, h.table, e]
theorem Beside.run {s v : State} (h : Beside s v) {c t d : Nat} (hp : (thread v c t).prog = (thread s c t).prog)
    (hx : ListsApart s (Machine.descOf s d)) : runCause v c t d = runCause s c t d := by
  unfold runCause
  rw [h.image, h.foreign hp, h.pair hx]
theorem Beside.rearm {s v : State} (h : Beside s v) {c t d : Nat} {b : List Byte} (hp : (thread v c t).prog = (thread s c t).prog)
    (hx : ListsApart s (parseDesc b)) : rearmCause v c t d b = rearmCause s c t d b := by
  unfold rearmCause
  have e1 : blockList v (parseDesc b) = blockList s (parseDesc b) := h.list (hx _ (by simp))
  simp only [h.foreign hp, h.pair hx, e1, h.blkOk]

theorem mAddr_bound {s : State} {c t : Nat} {a : Nat} (h : rangeCause s c t [(a, 64, 64)] = 0) : a + 64 ≤ 0x100000 := by
  unfold rangeCause at h
  simp at h
  split at h
  · simp at h
  · next g => simp at g; omega

theorem leastCause_none (l : List Nat) : leastCause l = 0 → ∀ x ∈ l, x = 0 := by
  have : ∀ a, l.foldl (fun a x => if x = 0 then a else if a = 0 then x else min a x) a = 0 → a = 0 ∧ ∀ x ∈ l, x = 0 := by
    induction l with
    | nil => intro a h; exact ⟨h, by simp⟩
    | cons y l ih =>
      intro a h
      rw [List.foldl_cons] at h
      obtain ⟨h1, h2⟩ := ih _ h
      split at h1
      · next e => exact ⟨h1, fun x hx => by rcases List.mem_cons.1 hx with rfl | hx <;> [exact e; exact h2 x hx]⟩
      · split at h1
        · next e e' => exact absurd h1 e
        · omega
  intro h; exact (this 0 h).2

theorem scrBytes_congr {s v : State} (c : CoreId) {a n : Nat} (h : a + n ≤ 0x100000) (hm : ∀ x, ¬ logRing x → memByte v x = memByte s x) :
    scrBytes v c a n = scrBytes s c a n := by
  refine memBytes_congr fun i hi => hm _ ?_
  rw [scratchAddr_add]; exact scratch_not_log (by omega)

theorem putImage_data {s t : State} (h1 : s.mem.data = t.mem.data) (h2 : s.regs = t.regs) (d g : Nat) (b : List Byte) :
    (putImage d g b s).mem.data = (putImage d g b t).mem.data := by
  unfold putImage
  rw [(memStore_only _ _ s).rest, (memStore_only _ _ t).rest]
  show (memWrite _ _ s).mem.data = (memWrite _ _ t).mem.data
  unfold memWrite descTable fromTop inlineEcc reg regW
  simp only [h1, h2]

/-- The state from which a REARM's completion goes on: its shadow set, or taken at once. -/
def rearmed (c d : Nat) (b : List Byte) (v : State) : State :=
  let s := modDesc d (fun D => { D with shadow := some b }) (useDesc d (popStr c v))
  if (desc s d).pass.isSome then s else takeShadow d s

theorem rearmed_spec (c d : Nat) (b : List Byte) (v : State) :
    (rearmed c d b v).cores = (popStr c v).cores ∧ (rearmed c d b v).stm.marks = v.stm.marks ∧
    (∀ n, n ≠ d → desc (rearmed c d b v) n = desc v n) ∧
    ((desc v d).pass ≠ none → rearmed c d b v = modDesc d (fun D => { D with shadow := some b }) (useDesc d (popStr c v))) ∧
    ((desc v d).pass = none → (desc (rearmed c d b v) d).shadow = none ∧ (desc (rearmed c d b v) d).pass = none ∧
      (desc (rearmed c d b v) d).gen = ((desc v d).gen + 1) % 2 ^ 32 ∧
      (rearmed c d b v).mem.data = (putImage d (((desc v d).gen + 1) % 2 ^ 32) b v).mem.data ∧ (rearmed c d b v).res = v.res ∧
      (rearmed c d b v).pwr = v.pwr) := by
  have e0 : desc (modDesc d (fun D => { D with shadow := some b }) (useDesc d (popStr c v))) d =
      { desc v d with lastUse := v.stm.clock, shadow := some b } := by
    rw [desc_modDesc_self, desc_useDesc, if_pos rfl]; rfl
  have en : ∀ n, n ≠ d → desc (modDesc d (fun D => { D with shadow := some b }) (useDesc d (popStr c v))) n = desc v n := fun n hn => by
    rw [desc_modDesc_ne _ _ hn, desc_useDesc, if_neg hn]; rfl
  unfold rearmed
  simp only
  by_cases hp : (desc v d).pass = none
  · rw [if_neg (by rw [e0]; simp [hp])]
    unfold takeShadow
    rw [e0]
    simp only
    have M : MemOnly (modDesc d (fun D => { D with shadow := some b }) (useDesc d (popStr c v)))
      (putImage d (((desc v d).gen + 1) % 2 ^ 32) b (modDesc d (fun D => { D with shadow := some b }) (useDesc d (popStr c v)))) := .memStore ..
    have P := putImage_data (t := v) (s := modDesc d (fun D => { D with shadow := some b }) (useDesc d (popStr c v))) rfl rfl d (((desc v d).gen + 1) % 2 ^ 32) b
    generalize putImage d (((desc v d).gen + 1) % 2 ^ 32) b (modDesc d (fun D => { D with shadow := some b }) (useDesc d (popStr c v))) = Y at M P
    have yd : ∀ n, desc Y n = desc (modDesc d (fun D => { D with shadow := some b }) (useDesc d (popStr c v))) n := fun n => by
      unfold desc; rw [M.rest]
    refine ⟨?_, ?_, fun n hn => ?_, fun h => absurd hp h, fun _ => ⟨?_, ?_, ?_, P, ?_, ?_⟩⟩
    · show Y.cores = _; rw [M.rest]; rfl
    · show Y.stm.marks = _; rw [M.rest]; rfl
    · rw [desc_modDesc_ne _ _ hn, yd]; exact en n hn
    · rw [desc_modDesc_self]
    · rw [desc_modDesc_self, yd, e0]; exact hp
    · rw [desc_modDesc_self]
    · show Y.res = _; rw [M.rest]; rfl
    · show Y.pwr = _; rw [M.rest]; rfl
  · have : (desc v d).pass.isSome = true := by cases h : (desc v d).pass <;> simp_all
    rw [if_pos (by rw [e0]; exact this)]
    exact ⟨rfl, rfl, en, fun _ => rfl, fun h => absurd h hp⟩

end Sys2Proof.Machine
end

