-- ==== Sys2Proof/Laws/Memory.lean ====
section
/-! SUPPORT. What the memory controllers count and log (R244, R252, R254). -/

namespace Sys2Proof.Machine

open Sys2Proof

theorem EccOnly.of {s u : State} (h : u = { s with
    cnt := u.cnt, log := u.log, host := u.host, mgmt := { s.mgmt with life := u.mgmt.life }
    res := { s.res with ue := u.res.ue, now := u.res.now }
    mem := { s.mem with ue := u.mem.ue, poison := u.mem.poison } }) : EccOnly s u :=
  ⟨h, fun x hx => memByte_log x (by rw [h]) (by rw [h]) (by rw [h]) hx⟩
theorem EccOnly.trans {s t u : State} (h : EccOnly s t) (k : EccOnly t u) : EccOnly s u :=
  EccOnly.of (s := s) (u := u) (by rw [k.rest, h.rest])
theorem EccOnly.counts {s u : State} (h : CountsOnly s u) : EccOnly s u :=
  EccOnly.of (s := s) (u := u) (by rw [h.rest])
theorem EccOnly.life (o w n : Nat) (s : State) : EccOnly s (lifeAdd o w n s) := by
  apply EccOnly.of; unfold lifeAdd; rfl
theorem EccOnly.health (i n : Nat) (s : State) : EccOnly s (health i n s) := .of rfl
theorem EccOnly.ue (b : Bool) (s : State) : EccOnly s { s with res := { s.res with ue := b } } := .of rfl
theorem EccOnly.lose (a : Nat) (s : State) : EccOnly s (loseWord a s) := .of rfl
theorem EccOnly.poison (a n : Nat) (s : State) : EccOnly s (memPoison a n s) := .of rfl
theorem EccOnly.bump (o n : Nat) (s : State) : EccOnly s (bump o n s) := .counts (bump_countsOnly ..)
theorem EccOnly.refl (s : State) : EccOnly s s := .of rfl
theorem EccOnly.ite {s a b : State} {p : Prop} [Decidable p] (h1 : EccOnly s a) (h2 : EccOnly s b) : EccOnly s (if p then a else b) := by
  split <;> assumption
theorem EccOnly.fold {α : Type} {f : State → α → State} (hf : ∀ u x, EccOnly u (f u x)) (l : List α) (s : State) : EccOnly s (l.foldl f s) := by
  induction l generalizing s with
  | nil => exact .refl s
  | cons x l ih => exact (hf s x).trans (ih _)
/-- Everything that the counting of a read can do (R242, R385, R410). -/
theorem eccRead_only (b : Bool) (a : Nat) (o : EccOutcome) (s : State) : EccOnly s (eccRead b a o s) := by
  unfold eccRead
  extract_lets c
  split
  · exact ((EccOnly.bump ..).trans (.health ..)).trans (.life ..)
  · exact ((EccOnly.lose ..).trans (.bump ..)).trans (.life ..)
  · exact ((EccOnly.bump ..).trans (.health ..)).trans (.life ..)
  · exact ((EccOnly.lose ..).trans (.bump ..)).trans (.life ..)
  · exact .bump ..
  · exact .bump ..
  · exact (((EccOnly.ue ..).trans (.bump ..)).trans (.bump ..)).trans (.life ..)
  · exact .poison ..
  · exact .refl s
theorem readCount_only (a n : Nat) (o : EccOutcome) (s : State) : EccOnly s (readCount a n o s) := by
  unfold readCount
  extract_lets lost
  exact (eccRead_only ..).trans (.fold (fun _ _ => eccRead_only ..) _ _)
theorem scrubCount_only (a : Nat) (s : State) : EccOnly s (scrubCount a s) := by
  unfold scrubCount
  split
  · exact (EccOnly.bump ..).trans (.life ..)
  · exact (EccOnly.bump ..).trans (.life ..)
  · exact .refl s
/-- An uncorrectable word sets the flag that fails START (R254), and stays lost. -/
theorem eccRead_ue {b : Bool} {a : Nat} {o : EccOutcome} {s : State} (h : (∃ n, memRegion s a = some (.hold n)) ∨ memRegion s a = some .lpddr)
    (ho : eccSeen s a o = .uncorrectable) : (eccRead b a o s).res.ue = true ∧ codeWord s a ∈ (eccRead b a o s).mem.ue := by
  unfold eccRead
  have g : ∀ k n o w (v : State), (lifeAdd o w 1 (bump k n v)).res = v.res ∧ (lifeAdd o w 1 (bump k n v)).mem = v.mem := fun k n o w v => by
    rw [lifeAdd_res, lifeAdd_mem, (bump_countsOnly k n v).rest]; exact ⟨rfl, rfl⟩
  have m : codeWord s a ∈ (loseWord a s).mem.ue := by
    show codeWord s a ∈ if s.mem.ue.contains (codeWord s a) = true then s.mem.ue else codeWord s a :: s.mem.ue
    split
    · exact List.contains_iff_mem.mp ‹_›
    · exact List.mem_cons_self ..
  rcases h with ⟨n, h⟩ | h
  · rw [h, ho]; simp only [(g ..).1, (g ..).2]; exact ⟨rfl, m⟩
  · rw [h, ho]; simp only [(g ..).1, (g ..).2]; exact ⟨rfl, m⟩
theorem inUnit_region {s : State} {u : MemUnit} {a : Nat} (h : inUnit s u a = true) :
    (∃ n, memRegion s a = some (.hold n)) ∨ memRegion s a = some .lpddr := by
  unfold inUnit at h
  cases u with
  | hold n => exact .inl ⟨n.val, by simpa using h⟩
  | lpddr c => simp at h; exact .inr h.1
theorem part_modPart_ne (s : State) {n m : Nat} (f : PartSt → PartSt) (h : m ≠ n) : part (modPart n f s) m = part s m := sget_smod_ne _ _ _ h
theorem passStart_eq (u : MemUnit) (w : Nat) (s : State) : passStart u w s = { s with mem := { s.mem with logged := (passStart u w s).mem.logged } } := by
  unfold passStart; split <;> rfl
theorem buddyHit_res (w : Nat) (s : State) : buddyHit w s =
    { s with res := { s.res with kept := (buddyHit w s).res.kept, secureDue := (buddyHit w s).res.secureDue } } := by
  unfold buddyHit; split <;> rfl
/-- What a bad word asks for beyond its log entry (R254). -/
structure ScrubPath (w r : Nat) (s u : State) : Prop where
  rest : u = { s with
    mem := u.mem, cnt := u.cnt, log := u.log, host := u.host
    res := { s.res with kept := u.res.kept, secureDue := u.res.secureDue, badAddrs := u.res.badAddrs }
    run := { s.run with holdDue := u.run.holdDue } }
  logged : u.mem.logged = s.mem.logged
  mem : ¬ (plannerCopy s ≤ w ∧ w < traceRegion s) → ∀ x, memByte u x = memByte s x
  path : ¬ (plannerCopy s ≤ w ∧ w < traceRegion s) → inRun s = true → planUses s w = true →
    (w, r) ∈ u.res.badAddrs ∧ 4 ≤ u.run.holdDue
theorem plannerCopied_logged (s : State) : (plannerCopied s).mem.logged = s.mem.logged := by
  have h := (memStore_only (plannerCopy s) (Config.plannerBytes s.boot.running.planner) s).rest
  show (memStore (plannerCopy s) (Config.plannerBytes s.boot.running.planner) s).mem.logged = _
  rw [h]; rfl
theorem scrubPath_spec (w r : Nat) (s : State) : ScrubPath w r s (scrubPath w r s) := by
  unfold scrubPath
  extract_lets t
  have e' : t = { s with res := { s.res with kept := t.res.kept, secureDue := t.res.secureDue } } := buddyHit_res w s
  have m : ∀ x, memByte t x = memByte s x := fun x => memByte_congr x (by rw [e']) (by rw [e']) (by rw [e']) (by rw [e'])
  have q1 : plannerCopy t = plannerCopy s := by rw [e']; rfl
  have q2 : traceRegion t = traceRegion s := by rw [e']; rfl
  have q3 : inRun t = inRun s := by rw [e']; rfl
  have q4 : planUses t w = planUses s w := by rw [e']; rfl
  rw [q1, q2, q3, q4]
  clear_value t
  split
  · have M := (MemOnly.memStore (plannerCopy t) (Config.plannerBytes t.boot.running.planner) t).trans
      (.memWrite (sharedBase + 0x30000) (sha384 (Config.plannerBytes t.boot.running.planner)) _)
    refine ⟨?_, ?_, fun h => absurd ‹_› h, fun h => absurd ‹_› h⟩
    · rw [show plannerCopied t = _ from M.rest, e']
    · rw [plannerCopied_logged, e']
  · split
    · obtain ⟨k, d, rfl⟩ : ∃ k d, t = { s with res := { s.res with kept := k, secureDue := d } } := ⟨_, _, e'⟩
      refine ⟨rfl, rfl, fun _ x => ?_, fun _ _ _ => ⟨?_, ?_⟩⟩
      · rw [← m x]; exact memByte_congr x rfl rfl rfl rfl
      · exact List.mem_append_right _ (List.mem_singleton.mpr rfl)
      · exact Nat.le_max_right ..
    · rename_i _ h
      refine ⟨by rw [e'], by rw [e'], fun _ => m, fun _ h1 h2 => absurd (by rw [h1, h2]; rfl) h⟩
theorem memRegion_congr {s t : State} (h1 : t.regs = s.regs) (h2 : t.renumbered = s.renumbered) (a : Nat) : memRegion t a = memRegion s a := by
  unfold memRegion enabledCores lpddrSize inlineEcc devToHost winCovers winBase reg regW
  rw [h1, h2]
/-- What a scrub read answers (R252). -/
theorem scrub_eq (u : MemUnit) (a : Nat) (o : EccOutcome) (s : State) (hs : scrubs s u = true) (hu : inUnit s u a = true) :
    scrub u a o s =
      let w := codeWord s a
      let v := passStart u w s
      if (!isPoisoned s w && eccSeen s w o != .uncorrectable && eccSeen s w o != .asPoison) = true then eccRead true w o v
      else if v.mem.logged.contains w = true then v
      else logEv 0x0501 (b8 w) (scrubPath w (if eccSeen s w o == .uncorrectable then 1 else 5)
        (noteBad w (if (if eccSeen s w o == .uncorrectable then 1 else 5) = 5 then scrubCount w (eccRead true w o v) else eccRead true w o v))) := by
  have e := passStart_eq u (codeWord s a) s
  have e1 : isPoisoned (passStart u (codeWord s a) s) (codeWord s a) = isPoisoned s (codeWord s a) := by rw [e]; rfl
  have e2 : eccSeen (passStart u (codeWord s a) s) (codeWord s a) o = eccSeen s (codeWord s a) o := by rw [e]; rfl
  unfold scrub
  rw [hs, hu, if_neg (by decide)]
  simp only [e1, e2]
theorem CountsOnly.parts {s t : State} (h : CountsOnly s t) : t.mem = s.mem ∧ t.cores = s.cores ∧ t.run = s.run ∧ t.res = s.res ∧
    t.pwr = s.pwr ∧ t.mgmt = s.mgmt ∧ t.link = s.link ∧ t.regs = s.regs ∧ t.stm = s.stm ∧ t.dev = s.dev ∧ t.out = s.out ∧
    t.pins = s.pins ∧ t.stroke = s.stroke ∧ t.red = s.red ∧ t.plan = s.plan ∧ t.boot = s.boot ∧ t.cox = s.cox ∧ t.adm = s.adm := by
  have := h.rest
  and_intros <;> rw [this]

end Sys2Proof.Machine
end

