-- ==== Sys2Proof/Laws/Links.lean ====
section
/-! SUPPORT. What ports change: frames, lanes and what sending leaves alone (R272 to R281). -/

namespace Sys2Proof.Machine

open Sys2Proof

theorem PortOnly.of {s u : State} (h : u = { s with
    cnt := u.cnt, log := u.log, host := u.host, out := u.out, link := { s.link with port := u.link.port },
    mgmt := { s.mgmt with life := u.mgmt.life }, res := { s.res with now := u.res.now } }) : PortOnly s u :=
  ⟨h, fun x hx => memByte_log x (by rw [h]) (by rw [h]) (by rw [h]) hx⟩
theorem PortOnly.refl (s : State) : PortOnly s s := .of rfl
theorem PortOnly.trans {s t u : State} (h : PortOnly s t) (k : PortOnly t u) : PortOnly s u :=
  PortOnly.of (s := s) (u := u) (by rw [k.rest, h.rest])
theorem PortOnly.net {s u : State} (h : NetOnly s u) : PortOnly s u := PortOnly.of (s := s) (u := u) (by rw [h.rest])
theorem PortOnly.counts {s u : State} (h : CountsOnly s u) : PortOnly s u := PortOnly.of (s := s) (u := u) (by rw [h.rest])
theorem PortOnly.bump (o n : Nat) (s : State) : PortOnly s (bump o n s) := .counts (bump_countsOnly ..)
theorem PortOnly.life (o w n : Nat) (s : State) : PortOnly s (lifeAdd o w n s) := by
  apply PortOnly.of; unfold lifeAdd; rfl
theorem PortOnly.health (i n : Nat) (s : State) : PortOnly s (health i n s) := .of rfl
theorem PortOnly.modPort (p : Nat) (f : PortSt → PortSt) (s : State) : PortOnly s (modPort p f s) := .of rfl
theorem PortOnly.modSub (p b : Nat) (f : SubPort → SubPort) (s : State) : PortOnly s (modSub p b f s) := .of rfl
theorem PortOnly.emit (o : Output) (s : State) : PortOnly s (emit o s) := .of rfl
theorem PortOnly.ite {s a b : State} {p : Prop} [Decidable p] (h1 : PortOnly s a) (h2 : PortOnly s b) : PortOnly s (if p then a else b) := by
  split <;> assumption
theorem PortOnly.fold {α : Type} {f : State → α → State} (hf : ∀ u x, PortOnly u (f u x)) (l : List α) (s : State) :
    PortOnly s (l.foldl f s) := by
  induction l generalizing s with
  | nil => exact .refl s
  | cons x l ih => exact (hf s x).trans (ih _)
theorem PortOnly.sendIdle (p b : Nat) (nak : Bool) (h c n : Nat) (s : State) : PortOnly s (sendIdle p b nak h c n s) := by
  unfold Machine.sendIdle txFrame; exact (PortOnly.bump ..).trans (.emit ..)
theorem PortOnly.countFec (p b : Nat) (l : List Nat) (s : State) : PortOnly s (countFec p b l s) := by
  unfold Machine.countFec
  exact (PortOnly.health ..).trans (.fold (fun u x => by
    dsimp only; split
    · exact .refl u
    · exact (((((PortOnly.bump ..).trans (.life ..)).trans (.modPort ..)).trans (.health ..)).trans (.health ..))) _ _)
theorem PortOnly.resendAll (p b : Nat) (s : State) : PortOnly s (resendAll p b s) := by
  unfold Machine.resendAll txFrame
  exact .fold (fun u x => (PortOnly.bump ..).trans (.emit ..)) _ _
theorem PortOnly.replayFrames (p b : Nat) (s : State) : PortOnly s (replayFrames p b s) := by
  unfold Machine.replayFrames
  refine PortOnly.trans ?_ (.resendAll ..)
  exact ((PortOnly.modPort ..).trans (.bump ..)).trans (.ite ((PortOnly.bump ..).trans (.health ..)) (.refl _))

theorem link_bump (o n : Nat) (s : State) : (bump o n s).link = s.link := (bump_countsOnly o n s).parts.2.2.2.2.2.2.1
theorem port_of {s u : State} (h : u.link = s.link) (p : Nat) : port u p = port s p := by unfold port; rw [h]
theorem port_bump (o n : Nat) (s : State) (p : Nat) : port (bump o n s) p = port s p := port_of (link_bump ..) p
theorem port_txFrame (p b : Nat) (f : List Byte) (s : State) (q : Nat) : port (txFrame p b f s) q = port s q := port_of (link_bump ..) q
theorem port_resendAll (p b : Nat) (s : State) (q : Nat) : port (resendAll p b s) q = port s q := by
  unfold resendAll
  generalize (subp s p b).retry.reverse = l
  induction l generalizing s with
  | nil => rfl
  | cons x l ih => rw [List.foldl_cons, ih, port_txFrame]
theorem out_txFrame (p b : Nat) (f : List Byte) (s : State) : (txFrame p b f s).out = .frame p b f :: s.out := by
  show Output.frame p b f :: (bump _ _ s).out = _
  rw [(bump_countsOnly _ _ s).parts.2.2.2.2.2.2.2.2.2.2.1]
theorem out_resendAll (p b : Nat) (s : State) : (resendAll p b s).out = (subp s p b).retry.map (fun x => .frame p b x.2) ++ s.out := by
  unfold resendAll
  rw [← List.reverse_reverse (subp s p b).retry]
  generalize (subp s p b).retry.reverse = l
  rw [List.reverse_reverse]
  induction l generalizing s with
  | nil => rfl
  | cons x l ih => rw [List.foldl_cons, ih, out_txFrame]; simp
theorem subp_modSub (p b : Nat) (f : SubPort → SubPort) (s : State) : subp (modSub p b f s) p b = f (subp s p b) := by
  unfold subp modSub subOf; rw [port_modPort_self]; by_cases h : b = 0 <;> simp [h]
theorem port_modSub_ne {p q : Nat} (b : Nat) (f : SubPort → SubPort) (s : State) (h : q ≠ p) : port (modSub p b f s) q = port s q :=
  port_modPort_ne s _ h
theorem port_health (i n : Nat) (s : State) (q : Nat) : port (health i n s) q = port s q := rfl
theorem port_lifeAdd (o w n : Nat) (s : State) (q : Nat) : port (lifeAdd o w n s) q = port s q := rfl
theorem out_health (i n : Nat) (s : State) : (health i n s).out = s.out := rfl
theorem out_modPort (p : Nat) (f : PortSt → PortSt) (s : State) : (modPort p f s).out = s.out := rfl
theorem out_lifeAdd (o w n : Nat) (s : State) : (lifeAdd o w n s).out = s.out := rfl
theorem out_bump (o n : Nat) (s : State) : (bump o n s).out = s.out := (bump_countsOnly _ _ s).parts.2.2.2.2.2.2.2.2.2.2.1
/-- A port's corrected symbols are its only change. -/
theorem port_countFec (p b : Nat) (l : List Nat) (s : State) (q : Nat) :
    (∃ x, port (countFec p b l s) q = { port s q with laneSyms := x }) ∧ (countFec p b l s).out = s.out := by
  unfold countFec
  rw [← port_health (32 + p) 1 s q, ← out_health (32 + p) 1 s]
  generalize health (32 + p) 1 s = s
  dsimp only
  generalize l.zipIdx = l
  induction l generalizing s with
  | nil => exact ⟨⟨_, rfl⟩, rfl⟩
  | cons x l ih =>
    rw [List.foldl_cons]
    refine Exists.elim (ih _).1 fun y hy => ⟨⟨y, hy.trans ?_⟩, (ih _).2.trans ?_⟩
    · split
      · rfl
      · rw [port_health, port_health]
        by_cases h : q = p
        · subst h; rw [port_modPort_self, port_lifeAdd, port_bump]
        · rw [port_modPort_ne _ _ h, port_lifeAdd, port_bump]
    · split
      · rfl
      · rw [out_health, out_health, out_modPort, out_lifeAdd, out_bump]
/-- Sending changes neither what a port has received nor a lane drop in progress. -/
structure SameRx (s u : State) : Prop where
  same : ∀ q, (port u q).dropPending = (port s q).dropPending ∧ ∀ c, (subp u q c).rxSeq = (subp s q c).rxSeq
  syms : ∀ q, (port u q).laneSyms = (port s q).laneSyms
theorem SameRx.refl (s : State) : SameRx s s := ⟨fun _ => ⟨rfl, fun _ => rfl⟩, fun _ => rfl⟩
theorem SameRx.trans {s t u : State} (h : SameRx s t) (k : SameRx t u) : SameRx s u :=
  ⟨fun q => ⟨(k.same q).1.trans (h.same q).1, fun c => ((k.same q).2 c).trans ((h.same q).2 c)⟩, fun q => (k.syms q).trans (h.syms q)⟩
theorem SameRx.of {s u : State} (h : ∀ q, port u q = port s q) : SameRx s u :=
  ⟨fun q => by unfold subp; rw [h]; exact ⟨rfl, fun _ => rfl⟩, fun q => by rw [h]⟩
theorem SameRx.modSub (p b : Nat) (f : SubPort → SubPort) (s : State) (hf : ∀ S, (f S).rxSeq = S.rxSeq) : SameRx s (modSub p b f s) := by
  refine ⟨fun q => ?_, fun q => ?_⟩
  · unfold subp subOf
    by_cases h : q = p
    · subst h
      unfold Machine.modSub
      rw [port_modPort_self]
      by_cases hb : b = 0
      · rw [if_pos hb]; exact ⟨rfl, fun c => by by_cases hc : c = 0 <;> simp [hc, hf]⟩
      · rw [if_neg hb]; exact ⟨rfl, fun c => by by_cases hc : c = 0 <;> simp [hc, hf]⟩
    · rw [port_modSub_ne _ _ _ h]; exact ⟨rfl, fun _ => rfl⟩
  · by_cases h : q = p
    · subst h
      unfold Machine.modSub
      rw [port_modPort_self]; split <;> rfl
    · rw [port_modSub_ne _ _ _ h]
theorem SameRx.sendFrame (p b : Nat) (l : List Byte) (s : State) : SameRx s (sendFrame p b l s) := by
  unfold Machine.sendFrame
  extract_lets S f
  exact SameRx.trans (SameRx.modSub p b (fun S => { S with txSeq := (S.txSeq + 1) % 4096, retry := ((S.txSeq, f) :: S.retry).take 256 }) s fun _ => rfl)
    (.of fun q => port_txFrame ..)
theorem SameRx.wire (p b : Nat) (h : PktHdr) (body : List Byte) (s : State) : SameRx s (wire p b h body s) := by
  unfold Machine.wire Machine.forEach
  refine SameRx.trans (t := emit (.packet p b (hdrNat h) body) s) (.of fun _ => rfl) ?_
  extract_lets bytes
  generalize chunks 240 3 bytes = l
  generalize emit _ s = v
  induction l generalizing v with
  | nil => exact .refl v
  | cons x l ih => exact (SameRx.sendFrame ..).trans (ih _)
theorem SameRx.pump (p b n : Nat) (s : State) : SameRx s (pump p b n s) := by
  induction n generalizing s with
  | zero => exact .refl s
  | succ n ih =>
    unfold Machine.pump
    extract_lets S
    split
    · exact .refl s
    · split
      · exact .refl s
      · refine SameRx.trans (SameRx.trans ?_ (.wire ..)) (ih _)
        unfold addHop
        refine SameRx.trans ?_ (.modSub _ _ _ _ ?_)
        · refine .modSub _ _ _ _ ?_; exact fun _ => rfl
        · exact fun _ => rfl
/-- Lanes within their limit stay as they are (R275). -/
theorem limitLanes_within {p : Nat} {s : State}
    (h : ∀ lane, lane < 4 → sget natD (port s p).laneSyms lane ≤ bitsN (reg s (portReg p 0x18)) 8 8 * 1024) : limitLanes p s = s := by
  unfold limitLanes
  extract_lets limit
  have e : ∀ lane, lane < 4 → (if limit < sget natD (port s p).laneSyms lane then laneFails p lane s else s) = s := fun lane hl =>
    if_neg (Nat.not_lt.mpr (h lane hl))
  rw [show List.range 4 = [0, 1, 2, 3] from rfl, List.foldl_cons, List.foldl_cons, List.foldl_cons, List.foldl_cons, List.foldl_nil,
    e 0 (by decide), e 1 (by decide), e 2 (by decide), e 3 (by decide)]
/-- A port that is down has no lane to lose. -/
theorem limitLanes_down {p : Nat} {s : State} (h : (port s p).sub0.up = false ∧ (port s p).sub1.up = false) : limitLanes p s = s := by
  unfold limitLanes
  extract_lets limit
  have e : ∀ lane, (if limit < sget natD (port s p).laneSyms lane then laneFails p lane s else s) = s := fun lane => by
    split
    · unfold laneFails; rw [if_pos (by rw [h.1, h.2]; rfl)]
    · rfl
  rw [show List.range 4 = [0, 1, 2, 3] from rfl, List.foldl_cons, List.foldl_cons, List.foldl_cons, List.foldl_cons, List.foldl_nil,
    e 0, e 1, e 2, e 3]
/-- One lane past its limit, the others within it, is the one that fails (R275). -/
theorem limitLanes_one {p lane : Nat} {s : State} (hl : lane < 4)
    (h : bitsN (reg s (portReg p 0x18)) 8 8 * 1024 < sget natD (port s p).laneSyms lane)
    (ho : ∀ i, i < 4 → i ≠ lane → sget natD (port s p).laneSyms i ≤ bitsN (reg s (portReg p 0x18)) 8 8 * 1024)
    (hk : (port (laneFails p lane s) p).laneSyms = (port s p).laneSyms) : limitLanes p s = laneFails p lane s := by
  unfold limitLanes
  extract_lets limit
  have key : ∀ (l : List Nat) (hd : l.Nodup), (∀ i ∈ l, i < 4) → ∀ t : State, (t = s ∨ (t = laneFails p lane s ∧ lane ∉ l)) →
      l.foldl (fun t i => if limit < sget natD (port t p).laneSyms i then laneFails p i t else t) t =
        if lane ∈ l then laneFails p lane s else t := by
    intro l hd hi t ht
    induction l generalizing t with
    | nil => rfl
    | cons i l ih =>
      rw [List.foldl_cons]
      have hd' := List.nodup_cons.mp hd
      have i4 : i < 4 := hi i List.mem_cons_self
      have il : ∀ j ∈ l, j < 4 := fun j hj => hi j (List.mem_cons_of_mem _ hj)
      by_cases e : i = lane
      · subst e
        have : t = s := by
          rcases ht with h1 | h1
          · exact h1
          · exact absurd List.mem_cons_self h1.2
        rw [this, if_pos h, ih hd'.2 il _ (.inr ⟨rfl, hd'.1⟩), if_neg hd'.1, if_pos List.mem_cons_self]
      · have hs : (port t p).laneSyms = (port s p).laneSyms := by
          rcases ht with h1 | h1
          · rw [h1]
          · rw [h1.1, hk]
        rw [hs, if_neg (Nat.not_lt.mpr (ho i i4 e)), ih hd'.2 il t (ht.imp id fun x => ⟨x.1, fun m => x.2 (List.mem_cons_of_mem _ m)⟩)]
        simp [Ne.symm e]
  rw [key _ (List.nodup_range) (fun i hi => List.mem_range.mp hi) s (.inl rfl), if_pos (List.mem_range.mpr hl)]
/-- The symbols that a frame corrects are added lane by lane (R275). -/
theorem syms_countFec (p b : Nat) (l : List Nat) (s : State) (lane : Nat) :
    sget natD (port (countFec p b l s) p).laneSyms lane = sget natD (port s p).laneSyms lane + laneSymbols b lane l := by
  unfold countFec laneSymbols
  rw [← port_health (32 + p) 1 s p]
  generalize health (32 + p) 1 s = s
  dsimp only
  generalize l.zipIdx = l
  induction l generalizing s with
  | nil => rfl
  | cons x l ih =>
    rw [List.foldl_cons, ih]
    by_cases hx : x.1 = 0
    · rw [if_pos hx]
      by_cases hl : (2 * b + x.2) % 4 = lane
      · rw [List.filter_cons_of_pos (by simp [hl])]; simp [hx]
      · rw [List.filter_cons_of_neg (by simp [hl])]
    · rw [if_neg hx, port_health, port_health, port_modPort_self]
      by_cases hl : (2 * b + x.2) % 4 = lane
      · rw [List.filter_cons_of_pos (by simp [hl]), hl, sget_smod_self, port_lifeAdd, port_bump]
        simp [Nat.add_assoc]
      · rw [List.filter_cons_of_neg (by simp [hl]), sget_smod_ne _ _ _ (Ne.symm hl), port_lifeAdd, port_bump]
theorem portDown_fails (p : Nat) (s : State) : port (portDown p s) p = { port s p with
    sub0 := { (port s p).sub0 with up := false, training := false, lanes := 0, peerValid := false },
    sub1 := { (port s p).sub1 with up := false, training := false, lanes := 0, peerValid := false } } := port_modPort_self ..
theorem mem_addPath (f : FailPath) (s : State) : f ∈ (addPath f s).res.paths := by
  unfold addPath; split
  · next h => simpa using h
  · show f ∈ s.res.paths ++ [f]; simp
theorem portFails_spec (p : Nat) {s v : State} (h : PortOnly s v) (hq : ∀ q, q ≠ p → port v q = port s q) :
    PortFails p s (portFails p v) ∧ (port (portFails p v) p).dropPending = (port v p).dropPending := by
  have hi : inRun v = inRun s := by unfold inRun; rw [h.rest]
  have hm : myPos v = myPos s := by unfold myPos; rw [h.rest]
  have hn : ∀ q, q ≠ p → port (portDown p v) q = port s q := fun q e => (port_modPort_ne v _ e).trans (hq q e)
  have key : ∀ u : State, u.link = (portDown p v).link → (u = { v with link := u.link, res := { v.res with paths := u.res.paths }, run := { v.run with holdDue := u.run.holdDue } }) →
      (inRun s = true → ({ code := 2, pos := myPos s, part := p, arg := 0 } : FailPath) ∈ u.res.paths ∧ 11 ≤ u.run.holdDue) →
      PortFails p s u ∧ (port u p).dropPending = (port v p).dropPending := fun u h1 h2 h3 => by
    have e := portDown_fails p v
    rw [← port_of h1] at e
    refine ⟨⟨by rw [e]; exact ⟨rfl, rfl⟩, by rw [e]; exact ⟨rfl, rfl⟩, fun q g => by rw [port_of h1]; exact hn q g, h3, ?_, fun x hx => ?_⟩, by rw [e]⟩
    · rw [h2, h1, h.rest]; rfl
    · rw [← h.mem x hx]
      exact memByte_log x (by rw [h2]) (by rw [h2]) (by rw [h2]) hx
  unfold portFails
  extract_lets w
  split
  · next g =>
    have ga : inRun s = true := by rw [← hi]; exact g
    generalize hw : { w with run := { w.run with holdDue := max w.run.holdDue 11 } } = w'
    generalize hf : ({ code := 2, pos := myPos w, part := p, arg := 0 } : FailPath) = f
    have hf' : f = { code := 2, pos := myPos s, part := p, arg := 0 } := by rw [← hf, ← hm]; rfl
    have e1 : (addPath f w').link = w'.link ∧ (addPath f w').run = w'.run ∧ addPath f w' = { w' with res := { w'.res with paths := (addPath f w').res.paths } } := by
      unfold addPath; split <;> exact ⟨rfl, rfl, rfl⟩
    refine key _ (e1.1.trans (by rw [← hw])) (by
      have := e1.2.2
      rw [this, ← hw]; rfl) fun _ => ⟨by rw [← hf']; exact mem_addPath .., ?_⟩
    rw [e1.2.1, ← hw]; exact Nat.le_max_right ..
  · next g =>
    exact key _ rfl rfl fun a => absurd (hi.trans a) g
theorem port_countFec_ne {p q : Nat} (b : Nat) (l : List Nat) (s : State) (h : q ≠ p) : port (countFec p b l s) q = port s q := by
  unfold countFec
  rw [← port_health (32 + p) 1 s q]
  generalize health (32 + p) 1 s = s
  dsimp only
  generalize l.zipIdx = l
  induction l generalizing s with
  | nil => rfl
  | cons x l ih =>
    rw [List.foldl_cons]
    refine (ih _).trans ?_
    split
    · rfl
    · rw [port_health, port_health, port_modPort_ne _ _ h, port_lifeAdd, port_bump]
/-- The first lane that fails on a port that can spare one: a lane-drop frame, and nothing else of the port (R275). -/
theorem laneFails_spare {p lane : Nat} {s : State} (hu : (port s p).sub0.up = true ∨ (port s p).sub1.up = true)
    (hf : bitN (port s p).failedLanes lane = false) (h1 : bitN (reg s (portReg p 0)) 1 = false) (h2 : bitN (reg s (portReg p 0)) 2 = true)
    (h3 : (port s p).spared = false) (h4 : (port s p).dropPending = none) :
    PortOnly s (laneFails p lane s) ∧
      port (laneFails p lane s) p = { port s p with dropPending := some (lane, (port s p).sub0.txSeq) } ∧
      (∀ q, q ≠ p → port (laneFails p lane s) q = port s q) ∧
      (laneFails p lane s).out = .laneDropFrame p lane (port s p).sub0.txSeq :: s.out := by
  unfold laneFails
  rw [if_neg (by rw [hf, h4]; rcases hu with h | h <;> simp [h])]
  extract_lets v c q
  have hv : PortOnly s v := (PortOnly.life ..).trans (.bump ..)
  have pv : ∀ q, port v q = port s q := fun q => by rw [show port v q = _ from port_bump .., port_lifeAdd]
  have hc : c = reg s (portReg p 0) := by show reg (bump _ _ _) _ = _; rw [reg_bump]; rfl
  rw [if_neg (by simp [hc, h1, h2, pv, h3, h4])]
  refine ⟨hv.trans ((PortOnly.modPort ..).trans ((PortOnly.health ..).trans (.emit ..))), ?_, fun r e => ?_, ?_⟩
  · show port (modPort p _ v) p = _
    rw [port_modPort_self, pv, show q = (port s p).sub0.txSeq from by rw [← pv]]
  · show port (modPort p _ v) r = _
    rw [port_modPort_ne _ _ e, pv]
  · show Output.laneDropFrame p lane q :: v.out = _
    rw [show q = (port s p).sub0.txSeq from by rw [← pv], show v.out = s.out from (out_bump ..).trans rfl]
theorem NetOnly.returnHop (p b : Nat) (h : PktHdr) (s : State) : NetOnly s (returnHop p b h s) := by
  unfold Machine.returnHop sendIdle txFrame
  exact .ite (.refl s) ((NetOnly.bump ..).trans (.emit ..))

/-! ### Packets -/

theorem arrive_runs {s : State} {p b hdr cls kind : Nat} {body : List Byte} (A : Arrives s p b hdr body cls kind) (f : PktHdr → State → State) :
    arrive cls kind p b hdr body f s = returnHop p b (readHdr hdr) (f (readHdr hdr) s) := by
  have he : ∀ a, epochOlder a a = false := fun a => by simp [epochOlder]
  unfold arrive
  simp only [A.up, A.cls, A.kind, A.ok, A.mine, A.epoch, he, Bool.not_true, Bool.false_eq_true, if_false, bne_self_eq_false, Bool.or_self]
theorem returnHop_ctl {p b : Nat} {h : PktHdr} (hc : h.cls = 0) (s : State) : returnHop p b h s = s := if_pos hc
/-- What has been sent stays sent. -/
structure Grows (s u : State) : Prop where
  sent : ∀ o ∈ s.out, o ∈ u.out
theorem Grows.refl (s : State) : Grows s s := ⟨fun _ h => h⟩
theorem Grows.trans {s t u : State} (h : Grows s t) (k : Grows t u) : Grows s u := ⟨fun o ho => k.sent o (h.sent o ho)⟩
theorem Grows.of {s u : State} (h : u.out = s.out) : Grows s u := ⟨fun o ho => by rw [h]; exact ho⟩
theorem Grows.emit (o : Output) (s : State) : Grows s (emit o s) := ⟨fun _ h => List.mem_cons_of_mem _ h⟩
theorem Grows.sendFrame (p b : Nat) (l : List Byte) (s : State) : Grows s (sendFrame p b l s) := by
  unfold Machine.sendFrame
  extract_lets S f
  refine ⟨fun o ho => ?_⟩
  rw [out_txFrame]
  exact List.mem_cons_of_mem _ ho
theorem Grows.forEach {α : Type} {f : α → State → State} (hf : ∀ x u, Grows u (f x u)) (l : List α) (s : State) : Grows s (forEach l f s) := by
  unfold Machine.forEach
  induction l generalizing s with
  | nil => exact .refl _
  | cons x l ih => exact (hf x s).trans (ih _)
theorem Grows.wire (p b : Nat) (h : PktHdr) (body : List Byte) (s : State) : Grows s (wire p b h body s) := by
  unfold Machine.wire
  exact (Grows.emit _ s).trans (.forEach (fun _ _ => .sendFrame ..) _ _)
theorem wire_sends (p b : Nat) (h : PktHdr) (body : List Byte) (s : State) : Output.packet p b (hdrNat h) body ∈ (wire p b h body s).out := by
  unfold wire
  exact (Grows.forEach (fun _ _ => .sendFrame ..) _ _).sent _ (List.mem_cons_self ..)
theorem Grows.pump (p b n : Nat) (s : State) : Grows s (pump p b n s) := by
  induction n generalizing s with
  | zero => exact .refl _
  | succ n ih =>
    unfold Machine.pump
    extract_lets S
    split
    · exact .refl _
    · split
      · exact .refl _
      · exact Grows.trans (Grows.trans (Grows.of (by rfl)) (.wire ..)) (ih _)
theorem Grows.sendOn (p b : Nat) (h : PktHdr) (body : List Byte) (s : State) : Grows s (sendOn p b h body s) := by
  unfold Machine.sendOn
  split
  · split
    · exact .wire ..
    · exact .refl _
  · exact Grows.trans (Grows.of (by rfl)) (.pump ..)
theorem sendOn_sends {p b : Nat} {h : PktHdr} (hc : h.cls = 0) (body : List Byte) {s : State} (hu : (subp s p b).up = true) :
    Output.packet p b (hdrNat h) body ∈ (sendOn p b h body s).out := by
  unfold sendOn; rw [if_pos hc, if_pos hu]; exact wire_sends ..
theorem Grows.sendTo (h : PktHdr) (body : List Byte) (s : State) : Grows s (sendTo h body s) := by
  unfold Machine.sendTo
  split
  · exact .sendOn ..
  · exact .refl _
/-- A port that is up stays up while packets are sent. -/
structure SameUp (s u : State) : Prop where
  same : ∀ q c, (subp u q c).up = (subp s q c).up
theorem SameUp.trans {s t u : State} (h : SameUp s t) (k : SameUp t u) : SameUp s u := ⟨fun q c => (k.same q c).trans (h.same q c)⟩
theorem SameUp.refl (s : State) : SameUp s s := ⟨fun _ _ => rfl⟩
theorem SameUp.of {s u : State} (h : ∀ q, port u q = port s q) : SameUp s u := ⟨fun q c => by unfold subp; rw [h]⟩
theorem SameUp.modSub (p b : Nat) (f : SubPort → SubPort) (s : State) (hf : ∀ S, (f S).up = S.up) : SameUp s (modSub p b f s) := by
  refine ⟨fun q c => ?_⟩
  unfold subp subOf
  by_cases h : q = p
  · subst h
    unfold Machine.modSub
    rw [port_modPort_self]
    by_cases hb : b = 0
    · rw [if_pos hb]; by_cases hc : c = 0 <;> simp [hc, hf]
    · rw [if_neg hb]; by_cases hc : c = 0 <;> simp [hc, hf]
  · rw [port_modSub_ne _ _ _ h]
theorem SameUp.forEach {α : Type} {f : α → State → State} (hf : ∀ x u, SameUp u (f x u)) (l : List α) (s : State) : SameUp s (forEach l f s) := by
  unfold Machine.forEach
  induction l generalizing s with
  | nil => exact .refl s
  | cons x l ih => exact (hf x s).trans (ih _)
theorem SameUp.wire (p b : Nat) (h : PktHdr) (body : List Byte) (s : State) : SameUp s (wire p b h body s) := by
  unfold Machine.wire
  refine SameUp.trans (t := Machine.emit (.packet p b (hdrNat h) body) s) (.of fun _ => rfl) (.forEach (fun x u => ?_) _ _)
  unfold Machine.sendFrame
  extract_lets S f
  exact SameUp.trans (SameUp.modSub p b (fun S => { S with txSeq := (S.txSeq + 1) % 4096, retry := ((S.txSeq, f) :: S.retry).take 256 }) u fun _ => rfl)
    (.of fun q => port_txFrame ..)
theorem SameUp.sendCtl {p b : Nat} {h : PktHdr} (hc : h.cls = 0) (body : List Byte) (s : State) : SameUp s (sendOn p b h body s) := by
  unfold Machine.sendOn; rw [if_pos hc]
  split
  · exact .wire ..
  · exact .refl s
theorem flood_over (kind : Nat) (body : List Byte) (l : List (Nat × Nat)) (s : State) (hup : ∀ q ∈ l, (subp s q.1 q.2).up = true) :
    ∀ q ∈ l, ∃ h, Output.packet q.1 q.2 h body ∈ (Machine.forEach l (fun q t => sendOn q.1 q.2 (newHdr t 0 kind (subp t q.1 q.2).peerPos 0 0 0 body) body t) s).out := by
  induction l generalizing s with
  | nil => exact fun q h => absurd h (List.not_mem_nil)
  | cons x l ih =>
    intro q hq
    have e : ∀ F : Nat × Nat → State → State, Machine.forEach (x :: l) F s = Machine.forEach l F (F x s) := fun _ => rfl
    rw [e]
    rcases List.mem_cons.1 hq with rfl | hq
    · exact ⟨_, (Grows.forEach (fun _ _ => .sendOn ..) _ _).sent _ (sendOn_sends rfl body (hup _ (List.mem_cons_self ..)))⟩
    · exact ih _ (fun q h => by rw [(SameUp.sendCtl rfl ..).same]; exact hup q (List.mem_cons_of_mem _ h)) q hq
/-- A flood puts one packet on every port that is up. -/
theorem flood_sends (kind : Nat) (body : List Byte) (s : State) : ∀ q ∈ activePorts s, ∃ h, Output.packet q.1 q.2 h body ∈ (flood kind body s).out :=
  flood_over kind body _ s fun q h => by unfold activePorts at h; exact (List.mem_filter.1 h).2
theorem sendTo_sends {h : PktHdr} (hc : h.cls = 0) (body : List Byte) {s : State} {x : Nat × Nat} (hr : routeOf s h.dest = some x)
    (hu : (subp s x.1 x.2).up = true) : Output.packet x.1 x.2 (hdrNat h) body ∈ (sendTo h body s).out := by
  unfold sendTo; rw [hr]; exact sendOn_sends hc body hu
theorem NetOnly.ctlSendDown (id acc : Nat) (s : State) : NetOnly s (ctlSendDown id acc s) := by
  unfold Machine.ctlSendDown; exact .forEach (fun _ _ => .sendTo ..) _ _
theorem ctlGet_ctlMod_ne {id j : Nat} (f : CtlRed → CtlRed) (s : State) (h : j ≠ id) : ctlGet (ctlMod id f s) j = ctlGet s j := sget_smod_ne _ _ _ h
theorem ctlGet_of {s u : State} (h : u.link.ctl = s.link.ctl) (j : Nat) : ctlGet u j = ctlGet s j := by unfold ctlGet; rw [h]
theorem ctlTree_of {s u : State} (h : u = { s with link := u.link }) (j : Nat) : ctlTree u j = ctlTree s j := by
  unfold ctlTree amended myPos; rw [h]
theorem startCheck_half {s : State} (h : s.run.limitRes = none) : startCheck s = s := by
  unfold startCheck
  split
  · next h2 => rw [h] at h2; exact absurd h2 (by simp)
  · rfl
theorem ctlNext_up {s : State} {id q : Nat} (h1 : (ctlGet s id).own = true) (h2 : (ctlGet s id).sent = false)
    (h3 : ∀ x ∈ (ctlTree s id).2, x ∈ (ctlGet s id).heard) : ((ctlTree s id).1 = some q → ctlNext s id = .up q (ctlGet s id).acc) ∧
      ((ctlTree s id).1 = none → ctlNext s id = .result (ctlGet s id).acc) := by
  have : (ctlTree s id).2.all (fun x => (ctlGet s id).heard.contains x) = true := by
    rw [List.all_eq_true]; intro x hx; simpa using h3 x hx
  constructor <;> intro h <;> unfold ctlNext <;> simp only [h1, h2, this, h, Bool.not_true, Bool.or_self, Bool.false_eq_true, if_false]
theorem ctlNext_wait {s : State} {id : Nat} (h : (ctlGet s id).own = false ∨ (ctlGet s id).sent = true ∨ ∃ x ∈ (ctlTree s id).2, x ∉ (ctlGet s id).heard) :
    ctlNext s id = .wait := by
  unfold ctlNext
  extract_lets c tr
  refine if_pos ?_
  rcases h with h | h | ⟨x, hx, hn⟩
  · simp [c, h]
  · simp [c, h]
  · have : tr.2.all (fun x => c.heard.contains x) = false := by
      rw [List.all_eq_false]; exact ⟨x, hx, by simpa using hn⟩
    rw [this]; simp
theorem down_spec (id acc : Nat) (s : State) : ∃ v, v = ctlClear id (ctlSendDown id acc s) ∧ ctlGet v id = ctlD id ∧
    NetOnly { s with link := { s.link with ctl := v.link.ctl } } v := by
  have D := NetOnly.ctlSendDown id acc s
  refine ⟨_, rfl, sget_sset_self .., ?_⟩
  generalize ctlSendDown id acc s = x at D
  unfold ctlClear
  have hl : x.link.ctl = s.link.ctl := by rw [D.rest]
  generalize sset ctlD x.link.ctl id (ctlD id) = m
  refine ⟨?_, by rw [D.host], fun y hy => ?_⟩
  · rw [D.rest]
  · have h1 : memByte { x with link := { x.link with ctl := m } } y = memByte x y := memByte_congr y rfl rfl rfl rfl
    have h2 : memByte { s with link := { s.link with ctl := m } } y = memByte s y := memByte_congr y rfl rfl rfl rfl
    rw [h1, h2]; exact D.mem y hy

/-! ### Flows -/

theorem FlowOnly.of {s u : State} (h : u = { s with
    cnt := u.cnt, log := u.log, host := u.host, out := u.out, link := { s.link with port := u.link.port, credit := u.link.credit },
    red := { s.red with outq := u.red.outq } }) : FlowOnly s u :=
  ⟨h, fun x hx => memByte_log x (by rw [h]) (by rw [h]) (by rw [h]) hx⟩
theorem FlowOnly.refl (s : State) : FlowOnly s s := .of rfl
theorem FlowOnly.trans {s t u : State} (h : FlowOnly s t) (k : FlowOnly t u) : FlowOnly s u :=
  FlowOnly.of (s := s) (u := u) (by rw [k.rest, h.rest])
theorem FlowOnly.net {s u : State} (h : NetOnly s u) : FlowOnly s u := FlowOnly.of (s := s) (u := u) (by rw [h.rest])
theorem FlowOnly.creditAdd (f : Nat) (g : Nat → Nat) (s : State) : FlowOnly s (creditAdd f g s) := .of rfl
theorem FlowOnly.outq (q : List (Nat × Nat × Nat × List Byte)) (s : State) : FlowOnly s { s with red := { s.red with outq := q } } := .of rfl
theorem FlowOnly.pumpFlow (f n : Nat) (s : State) : FlowOnly s (pumpFlow f n s) := by
  induction n generalizing s with
  | zero => exact .refl s
  | succ n ih =>
    unfold Machine.pumpFlow
    split
    · exact .refl s
    · split
      · exact .refl s
      · split
        · exact .refl s
        · extract_lets q i _ t
          have h1 : FlowOnly s t := .outq _ s
          exact ((h1.trans (.creditAdd ..)).trans (.net (.sendTo ..))).trans (ih _)
theorem FlowOnly.sendReduce (f kind : Nat) (l : List (Nat × List Byte)) (s : State) : FlowOnly s (sendReduce f kind l s) := by
  unfold Machine.sendReduce
  extract_lets _ t
  have h1 : FlowOnly s t := .outq _ s
  exact h1.trans (.pumpFlow ..)
theorem creditUsed_add (f g : Nat) (k : Nat → Nat) (s : State) : creditUsed (creditAdd f k s) g = if g = f then k (creditUsed s g) else creditUsed s g := by
  unfold creditUsed creditAdd
  by_cases h : g = f
  · subst h; rw [if_pos rfl]; exact sget_smod_self ..
  · rw [if_neg h]; exact sget_smod_ne _ _ _ h
theorem creditUsed_net {s u : State} (h : NetOnly s u) (g : Nat) : creditUsed u g = creditUsed s g := by unfold creditUsed; rw [h.rest]
theorem pumpFlow_others (f n : Nat) (s : State) (g : Nat) (hg : g ≠ f) : creditUsed (pumpFlow f n s) g = creditUsed s g := by
  induction n generalizing s with
  | zero => rfl
  | succ n ih =>
    unfold pumpFlow
    split
    · rfl
    · split
      · rfl
      · split
        · rfl
        · extract_lets q i _ t
          rw [ih, creditUsed_net (.sendTo ..), creditUsed_add, if_neg hg]; rfl
theorem pumpFlow_none (f n : Nat) (s : State) (h : ∀ x ∈ s.red.outq, x.1 ≠ f) : pumpFlow f n s = s := by
  cases n with
  | zero => rfl
  | succ n =>
    unfold pumpFlow
    have : s.red.outq.find? (fun x => x.1 == f) = none := List.find?_eq_none.2 fun x hx => by simpa using h x hx
    rw [this]
theorem pumpFlow_one {f k a : Nat} {d : List Byte} {x : FlowCtx} {s : State} (h : s.red.outq = [(f, k, a, d)]) (hl : legCtx s f = some x)
    (hc : creditUsed s f < x.credits) : (pumpFlow f 1 s).red.outq = [] ∧ creditUsed (pumpFlow f 1 s) f = creditUsed s f + 1 := by
  unfold pumpFlow
  have e1 : s.red.outq.find? (fun x => x.1 == f) = some (f, k, a, d) := by rw [h]; simp
  have e2 : legReady s f = true := by unfold legReady; rw [hl]; simpa using hc
  rw [e1]
  simp only [e2, hl, Bool.not_true, Bool.false_eq_true, if_false]
  unfold pumpFlow
  generalize hg : newHdr _ _ _ _ _ _ _ _ = g
  have N := fun v => NetOnly.sendTo g d v
  refine ⟨?_, ?_⟩
  · rw [(N _).rest]
    show s.red.outq.eraseIdx (s.red.outq.findIdx fun y => y.1 == f) = []
    rw [h]; simp [List.findIdx_cons]
  · rw [creditUsed_net (N _), creditUsed_add, if_pos rfl]; rfl
theorem NetOnly.returnCredit (h : PktHdr) (s : State) : NetOnly s (returnCredit h s) := by unfold Machine.returnCredit; exact .sendTo ..
theorem returnCredit_sends {h : PktHdr} {s : State} {x : Nat × Nat} (hr : routeOf s h.src = some x) (hu : (subp s x.1 x.2).up = true) :
    ∃ g, Output.packet x.1 x.2 g (leBytes 4 h.flow ++ leBytes 4 1 ++ List.replicate 8 0) ∈ (returnCredit h s).out := by
  unfold returnCredit
  exact ⟨_, sendTo_sends rfl _ hr hu⟩
theorem desc_net {s u : State} (h : NetOnly s u) (d : Nat) : desc u d = desc s d := by unfold desc; rw [h.rest]
theorem Grows.returnHop (p b : Nat) (h : PktHdr) (s : State) : Grows s (returnHop p b h s) := by
  unfold Machine.returnHop
  split
  · exact .refl s
  · unfold sendIdle; refine ⟨fun o ho => ?_⟩; rw [out_txFrame]; exact List.mem_cons_of_mem _ ho
theorem NetOnly.badPacket (p h : Nat) (s : State) : NetOnly s (badPacket p h s) := by
  unfold Machine.badPacket
  exact .counts ((bump_countsOnly ..).trans (logEv_countsOnly ..))
/-- What delivering bytes of a pass changes: memory, its controllers, counters, and what goes to the host. -/
structure DeliverOnly (s u : State) : Prop where
  rest : u = { s with cnt := u.cnt, log := u.log, host := u.host, out := u.out, mem := u.mem }
theorem DeliverOnly.refl (s : State) : DeliverOnly s s := ⟨rfl⟩
theorem DeliverOnly.trans {s t u : State} (h : DeliverOnly s t) (k : DeliverOnly t u) : DeliverOnly s u := ⟨by rw [k.rest, h.rest]⟩
theorem DeliverOnly.mem {s u : State} (h : MemOnly s u) : DeliverOnly s u := by
  exact ⟨by rw [h.rest]⟩
theorem DeliverOnly.counts {s u : State} (h : CountsOnly s u) : DeliverOnly s u := ⟨by rw [h.rest]⟩
theorem DeliverOnly.fold {α : Type} {f : State → α → State} (hf : ∀ u x, DeliverOnly u (f u x)) (l : List α) (s : State) :
    DeliverOnly s (l.foldl f s) := by
  induction l generalizing s with
  | nil => exact .refl s
  | cons x l ih => exact (hf s x).trans (ih _)
theorem DeliverOnly.ite {s a b : State} {p : Prop} [Decidable p] (h1 : DeliverOnly s a) (h2 : DeliverOnly s b) : DeliverOnly s (if p then a else b) := by
  split <;> assumption
theorem DeliverOnly.deliver (a : Nat) (l : List Byte) (p : Bool) (s : State) : DeliverOnly s (deliver a l p s) := by
  unfold Machine.deliver
  split
  · exact ⟨rfl⟩
  · extract_lets t
    have h : DeliverOnly s t := .mem (.memStore ..)
    exact .ite (h.trans (.mem (.memPoison ..))) h
theorem DeliverOnly.blocksPut (dst : List Blk) (p : Bool) (n off : Nat) (l : List Byte) (s : State) : DeliverOnly s (blocksPut dst p n off l s) := by
  induction n generalizing off l s with
  | zero => exact .refl s
  | succ n ih =>
    unfold Machine.blocksPut
    split
    · exact .refl s
    · split
      · exact (DeliverOnly.deliver ..).trans (ih _ _ _)
      · exact .refl s
theorem MemOnly.skewPut (y : DescImg) (base off : Nat) (l : List Byte) (p : Bool) (s : State) : MemOnly s (skewPut y base off l p s) := by
  unfold Machine.skewPut
  split
  · exact .fold (fun u x => .ite ((MemOnly.memStore ..).trans (.memPoison ..)) (.memStore ..)) _ _
  · exact .fold (fun u x => .fold (fun v k => .ite ((MemOnly.memStore ..).trans (.memPoison ..)) (.memStore ..)) _ _) _ _
theorem DeliverOnly.destPut (y : DescImg) (dst : List Blk) (off : Nat) (l : List Byte) (p : Bool) (s : State) : DeliverOnly s (destPut y dst off l p s) := by
  unfold Machine.destPut
  split
  · exact .blocksPut ..
  · split
    · exact .mem (.skewPut ..)
    · exact .refl s
/-- Delivered bytes are in memory, and no other byte has changed. -/
theorem deliver_mem {a : Nat} {l : List Byte} {s : State} (hd : devToHost s a = none) (hp : ∀ i, i < l.length → plainAddr (a + i)) :
    memBytes (deliver a l false s) a l.length = l ∧
      ∀ x, ¬ logRing x → x < a ∨ a + l.length ≤ x → memByte (deliver a l false s) x = memByte s x := by
  unfold deliver
  rw [hd]
  simp only [Bool.false_eq_true, if_false]
  exact ⟨memBytes_memStore s a l hp, fun x hx ho => memByte_memStore_ne s a l hx ho⟩
theorem destPut_block {y : DescImg} {dst : List Blk} {off a r : Nat} {l : List Byte} {s : State} (hm : y.mode = 0) (hb : blockAt dst off = some (a, r))
    (hl : l.length ≤ r) (hn : l ≠ []) : destPut y dst off l false s = deliver a l false s := by
  unfold destPut
  rw [if_pos hm]
  obtain ⟨x, t, rfl⟩ : ∃ x t, l = x :: t := by cases l with | nil => exact absurd rfl hn | cons x t => exact ⟨x, t, rfl⟩
  show blocksPut dst false (t.length + 1) off (x :: t) s = _
  unfold blocksPut
  rw [hb]
  simp only [List.isEmpty_cons, Bool.false_eq_true, if_false]
  rw [List.take_of_length_le hl, List.drop_of_length_le hl]
  cases t with
  | nil => rfl
  | cons z t => rfl

end Sys2Proof.Machine
end

