-- ==== Sys2Proof/Laws/Reduce.lean ====
section
/-! SUPPORT. What the reduction engine does with packets (R289 to R300). -/

namespace Sys2Proof.Machine

open Sys2Proof

theorem mem_insertNat (n : Nat) (l : List Nat) : n ∈ insertNat n l := by
  unfold insertNat; split
  · next h => simpa using h
  · simp
theorem mem_insertNat_of {m : Nat} (n : Nat) {l : List Nat} (h : m ∈ l) : m ∈ insertNat n l := by
  unfold insertNat; split
  · exact h
  · simp [h]
/-- The owner hears consecutive blocks, each once. -/
theorem hear_fold (i : Nat) (r : Region) (who k : Nat) (l : List Byte) (n : Nat) (s : State) (hf : s.red.scaleFind = false) : ∃ v,
    v = (l.zipIdx n).foldl (fun t x => hearEmax i r who (k + x.2) x.1.toNat t) s ∧
    v = { s with red := { s.red with emaxUp := v.red.emaxUp, upFrom := v.red.upFrom } } ∧
    (∀ j x, l[j]? = some x → sget natD v.red.emaxUp (bkey i (k + n + j)) = max x.toNat (sget natD s.red.emaxUp (bkey i (k + n + j))) ∧
      who * 2 ^ 24 + (k + n + j) ∈ sget (fun _ => []) v.red.upFrom i) ∧
    (∀ m, m < k + n ∨ k + n + l.length ≤ m → sget natD v.red.emaxUp (bkey i m) = sget natD s.red.emaxUp (bkey i m)) ∧
    ∀ m, m ∈ sget (fun _ => ([] : List Nat)) s.red.upFrom i → m ∈ sget (fun _ => []) v.red.upFrom i := by
  induction l generalizing n s with
  | nil => exact ⟨s, rfl, rfl, fun j x h => by simp at h, fun _ _ => rfl, fun _ h => h⟩
  | cons y l ih =>
    have e : hearEmax i r who (k + n) y.toNat s = { s with red := { s.red with
      emaxUp := smod natD s.red.emaxUp (bkey i (k + n)) (max y.toNat),
      upFrom := smod (fun _ => []) s.red.upFrom i (insertNat (who * 2 ^ 24 + (k + n))) } } := by
      unfold hearEmax; simp only [hf, Bool.false_eq_true, if_false]
    have js : ∀ m, sget natD (hearEmax i r who (k + n) y.toNat s).red.emaxUp (bkey i m) =
        if m = k + n then max y.toNat (sget natD s.red.emaxUp (bkey i m)) else sget natD s.red.emaxUp (bkey i m) := fun m => by
      rw [e]; show sget natD (smod natD s.red.emaxUp (bkey i (k + n)) (max y.toNat)) (bkey i m) = _
      rw [sget_smod]
      by_cases h : m = k + n
      · subst h; rw [if_pos rfl, if_pos rfl]
      · rw [if_neg (by unfold bkey; omega), if_neg h]
    have ju : ∀ m, m ∈ sget (fun _ => ([] : List Nat)) (hearEmax i r who (k + n) y.toNat s).red.upFrom i ↔
        m ∈ insertNat (who * 2 ^ 24 + (k + n)) (sget (fun _ => []) s.red.upFrom i) := fun m => by
      rw [e]; show m ∈ sget _ (smod (fun _ => []) s.red.upFrom i _) i ↔ _
      rw [sget_smod_self]
    obtain ⟨v, hv, v1, v2, v3, v4⟩ := ih (n + 1) (hearEmax i r who (k + n) y.toNat s) (by rw [e]; exact hf)
    refine ⟨v, by rw [hv, List.zipIdx_cons, List.foldl_cons], by rw [v1, e], fun j x h => ?_, fun m hm => ?_, fun m hm => ?_⟩
    · cases j with
      | zero =>
        simp at h; subst h
        exact ⟨by rw [v3 _ (.inl (by omega)), js, if_pos (Nat.add_zero _)], v4 _ ((ju _).2 (mem_insertNat ..))⟩
      | succ j =>
        have := v2 j x (by simpa using h)
        rw [show k + (n + 1) + j = k + n + (j + 1) by omega] at this
        exact ⟨by rw [this.1, js, if_neg (by omega)], this.2⟩
    · rw [v3 m (by simp at hm; omega), js, if_neg (by simp at hm; omega)]
    · exact v4 m ((ju m).2 (mem_insertNat_of _ hm))
theorem blkBytes_length {k : AccBlk} (h : k.acc.length = 32) : (blkBytes' k).length = 208 := by
  have : ∀ l : List Int, (l.flatMap fun v => leBytes 6 (toTwos 48 v)).length = 6 * l.length := fun l => by
    induction l with
    | nil => rfl
    | cons x l ih => simp [List.flatMap_cons, ih, length_leBytes]; omega
  unfold blkBytes'
  simp [this, h, length_leBytes]
theorem readBlk_length (s : State) (a : Nat) : (readBlk s a).acc.length = 32 := by unfold readBlk; simp
theorem writeBlk_mem {a : Nat} {k : AccBlk} {s : State} (hk : k.acc.length = 32) (hp : ∀ j, j < 208 → plainAddr (a + j)) :
    memBytes (writeBlk a k s) a 208 = blkBytes' k ∧ ∀ x, x < a ∨ a + 208 ≤ x → memByte (writeBlk a k s) x = memByte s x := by
  have hl := blkBytes_length hk
  unfold writeBlk
  refine ⟨?_, fun x hx => memByte_memWrite_ne s a _ (by rw [hl]; exact hx)⟩
  have := memBytes_memWrite s a (blkBytes' k) (by rw [hl]; exact hp)
  rw [hl] at this; exact this
theorem regionSt_writeBlk (a : Nat) (k : AccBlk) (s : State) (j : Nat) : regionSt (writeBlk a k s) j = regionSt s j := rfl
theorem regionSt_ne {i j : Nat} (f : RegionSt → RegionSt) (s : State) (h : j ≠ i) : regionSt (modRegion i f s) j = regionSt s j := sget_smod_ne _ _ _ h
theorem countAdder_counts (a : Nat) (s : State) : CountsOnly s (countAdder a s) := by
  unfold countAdder; split
  · exact bump_countsOnly ..
  · exact bump_countsOnly ..
  · exact .refl s
theorem sendEntries_only (r : Region) (l : List Nat) (b : Bool) (s : State) : FlowOnly s (sendEntries r l b s) := by
  unfold sendEntries; exact .sendReduce ..
theorem addEntry_spec (i : Nat) (r : Region) (fp8 : Bool) (b : Nat) (e : Entry) (s : State) (k : AccBlk) (hk : k = readBlk s (blkAddr r b))
    (hl : e.codes.length = 32) (hp : ∀ j, j < 208 → plainAddr (blkAddr r b + j)) (h1 : b < r.blocks) (h2 : e.s = k.scale)
    (h3 : s.red.excluded.contains e.contrib = false) : ∃ u k', u = addEntry i r fp8 b e s ∧
      memBytes u (blkAddr r b) 208 = blkBytes' k' ∧
      (e.nf = true → k' = { k with emax := max k.emax e.emax, nf := true } ∧ e.contrib ∈ (regionSt u i).nonfinite) ∧
      (e.nf = false → e.ovf = true → k' = { k with emax := max k.emax e.emax, ovf := true } ∧ (regionSt u i).nonfinite = (regionSt s i).nonfinite) ∧
      (e.nf = false → e.ovf = false → k' = { k with
          emax := max k.emax e.emax, acc := (k.acc.zip e.codes).map (fun y => y.1 + accTerm fp8 y.2), count := k.count + 1 } ∧
        (regionSt u i).nonfinite = (regionSt s i).nonfinite) ∧
      (e.last = true → e.contrib ∈ (regionSt u i).present) ∧
      (e.last = false → (regionSt u i).present = (regionSt s i).present) ∧
      (∀ j, j ≠ i → regionSt u j = regionSt s j) ∧
      (∀ x, ¬ logRing x → x < blkAddr r b ∨ blkAddr r b + 208 ≤ x → memByte u x = memByte s x) ∧
      u = { s with cnt := u.cnt, log := u.log, host := u.host, mem := u.mem,
                   red := { s.red with regions := u.red.regions, ovfBy := u.red.ovfBy, heard := u.red.heard } } ∧
      (s.red.again.contains (bkey i b) = true → e.contrib ∈ sget heardD u.red.heard (bkey i b)) ∧
      (s.red.again.contains (bkey i b) = false → u.red.heard = s.red.heard) := by
  refine ⟨_, if e.nf then { k with emax := max k.emax e.emax, nf := true } else if e.ovf then { k with emax := max k.emax e.emax, ovf := true }
    else { k with emax := max k.emax e.emax, acc := (k.acc.zip e.codes).map (fun y => y.1 + accTerm fp8 y.2), count := k.count + 1 }, rfl, ?_⟩
  unfold addEntry
  simp only
  rw [if_neg (by rw [← hk]; simp [h2]; omega), h3, if_neg (by decide), ← hk]
  generalize blkAddr r b = a at hk hp
  have hkl : k.acc.length = 32 := by rw [hk]; exact readBlk_length ..
  have C0 := countAdder_counts a s
  generalize countAdder a s = v0 at C0
  generalize hv : (if v0.red.again.contains (bkey i b) = true then
    { v0 with red := { v0.red with heard := smod heardD v0.red.heard (bkey i b) (insertNat e.contrib) } } else v0 : State) = v
  have r0 : v0.red = s.red := by rw [C0.rest]
  have C : v = { s with cnt := v.cnt, log := v.log, host := v.host, red := { s.red with heard := v.red.heard } } := by
    rw [← hv]; split
    · rw [C0.rest]
    · rw [C0.rest]
  have rv : ∀ j, regionSt v j = regionSt s j := fun j => by unfold regionSt; rw [C]
  have mv : ∀ x, ¬ logRing x → memByte v x = memByte s x := fun x hx => by
    rw [← C0.mem x hx, ← hv]; split <;> rfl
  have H : (s.red.again.contains (bkey i b) = true → e.contrib ∈ sget heardD v.red.heard (bkey i b)) ∧
      (s.red.again.contains (bkey i b) = false → v.red.heard = s.red.heard) := by
    rw [← hv, r0]
    refine ⟨fun h => ?_, fun h => ?_⟩
    · rw [if_pos h]; show _ ∈ sget heardD (smod heardD _ _ _) _; rw [sget_smod_self]; exact mem_insertNat ..
    · rw [if_neg (by rw [h]; decide), r0]
  have mr : ∀ f (w : State) x, memByte (modRegion i f w) x = memByte w x := fun f w x => memByte_congr x rfl rfl rfl rfl
  have mo : ∀ (m : List (Nat × List Nat)) (w : State) x, memByte { w with red := { w.red with ovfBy := m } } x = memByte w x :=
    fun m w x => memByte_congr x rfl rfl rfl rfl
  -- the block and the bitmaps after the row of R292, and then the present bitmap
  have fin : ∀ (w : State) (k' : AccBlk), memBytes w a 208 = blkBytes' k' → (∀ x, ¬ logRing x → x < a ∨ a + 208 ≤ x → memByte w x = memByte s x) →
      (∀ j, j ≠ i → regionSt w j = regionSt s j) → (regionSt w i).present = (regionSt s i).present →
      w = { s with cnt := w.cnt, log := w.log, host := w.host, mem := w.mem, red := { s.red with regions := w.red.regions, ovfBy := w.red.ovfBy, heard := w.red.heard } } →
      w.red.heard = v.red.heard →
      ∃ u, u = (if e.last = true then modRegion i (fun g => { g with present := insertNat e.contrib g.present }) w else w) ∧
        memBytes u a 208 = blkBytes' k' ∧ (regionSt u i).nonfinite = (regionSt w i).nonfinite ∧
        (e.last = true → e.contrib ∈ (regionSt u i).present) ∧ (e.last = false → (regionSt u i).present = (regionSt s i).present) ∧
        (∀ j, j ≠ i → regionSt u j = regionSt s j) ∧
        (∀ x, ¬ logRing x → x < a ∨ a + 208 ≤ x → memByte u x = memByte s x) ∧
        u = { s with cnt := u.cnt, log := u.log, host := u.host, mem := u.mem, red := { s.red with regions := u.red.regions, ovfBy := u.red.ovfBy, heard := u.red.heard } } ∧
        u.red.heard = v.red.heard := by
    intro w k' w1 w2 w3 w4 w5 w6
    refine ⟨_, rfl, ?_⟩
    cases hla : e.last
    · rw [if_neg (by decide)]
      exact ⟨w1, rfl, fun h => absurd h (by decide), fun _ => w4, w3, w2, w5, w6⟩
    · rw [if_pos rfl]
      refine ⟨(memBytes_congr fun j _ => mr ..).trans w1, ?_, fun _ => ?_, fun h => absurd h (by decide), fun j hj => (regionSt_ne _ w hj).trans (w3 j hj),
        fun x hx ho => (mr ..).trans (w2 x hx ho), ?_, w6⟩
      · rw [regionSt_modRegion_self]
      · rw [regionSt_modRegion_self]; exact mem_insertNat ..
      · rw [w5]; rfl
  cases hnf : e.nf
  · cases hov : e.ovf
    · have B := writeBlk_mem (k := { k with emax := max k.emax e.emax, acc := (k.acc.zip e.codes).map (fun y => y.1 + accTerm fp8 y.2), count := k.count + 1 }) (s := v)
        (by simp [hkl, hl]) hp
      obtain ⟨u, hu, u1, u2, u3, u4, u5, u6, u7, u8⟩ := fin (writeBlk a { k with emax := max k.emax e.emax, acc := (k.acc.zip e.codes).map (fun y => y.1 + accTerm fp8 y.2), count := k.count + 1 } v) _ B.1
        (fun x hx ho => (B.2 x ho).trans (mv x hx)) (fun j _ => rv j) (by rw [regionSt_writeBlk, rv]) (by unfold writeBlk memWrite; rw [C]) rfl
      rw [regionSt_writeBlk, rv] at u2
      simp only [Bool.false_eq_true, if_false]
      rw [← hu]
      exact ⟨u1, fun h => absurd h (by decide), fun _ h => absurd h (by decide), fun _ _ => ⟨trivial, u2⟩, u3, u4, u5, u6, u7, fun h => by rw [u8]; exact H.1 h, fun h => u8.trans (H.2 h)⟩
    · have B := writeBlk_mem (k := { k with emax := max k.emax e.emax, ovf := true }) (s := v) hkl hp
      generalize hm : smod (fun _ => ([] : List Nat)) (writeBlk a { k with emax := max k.emax e.emax, ovf := true } v).red.ovfBy (bkey i b) (insertNat e.contrib) = m
      generalize hw : ({ writeBlk a { k with emax := max k.emax e.emax, ovf := true } v with
        red := { (writeBlk a { k with emax := max k.emax e.emax, ovf := true } v).red with ovfBy := m } } : State) = w
      have wr : ∀ j, regionSt w j = regionSt s j := fun j => by rw [← hw, ← rv]; rfl
      have wm : ∀ x, memByte w x = memByte (writeBlk a { k with emax := max k.emax e.emax, ovf := true } v) x := fun x => by rw [← hw]; exact mo ..
      obtain ⟨u, hu, u1, u2, u3, u4, u5, u6, u7, u8⟩ := fin w _ ((memBytes_congr fun j _ => wm _).trans B.1)
        (fun x hx ho => ((wm x).trans (B.2 x ho)).trans (mv x hx)) (fun j _ => wr j) (by rw [wr]) (by rw [← hw]; unfold writeBlk memWrite; rw [C]) (by rw [← hw]; rfl)
      rw [wr] at u2
      simp only [Bool.false_eq_true, if_false, if_true]
      rw [← hu]
      exact ⟨u1, fun h => absurd h (by decide), fun _ _ => ⟨trivial, u2⟩, fun _ h => absurd h (by decide), u3, u4, u5, u6, u7, fun h => by rw [u8]; exact H.1 h, fun h => u8.trans (H.2 h)⟩
  · have B := writeBlk_mem (k := { k with emax := max k.emax e.emax, nf := true }) (s := v) hkl hp
    generalize hw : modRegion i (fun g => { g with nonfinite := insertNat e.contrib g.nonfinite }) (writeBlk a { k with emax := max k.emax e.emax, nf := true } v) = w
    have wr : ∀ j, j ≠ i → regionSt w j = regionSt s j := fun j hj => by rw [← hw, regionSt_ne _ _ hj, regionSt_writeBlk, rv]
    have wi : regionSt w i = { regionSt s i with nonfinite := insertNat e.contrib (regionSt s i).nonfinite } := by
      rw [← hw, regionSt_modRegion_self, regionSt_writeBlk, rv]
    have wm : ∀ x, memByte w x = memByte (writeBlk a { k with emax := max k.emax e.emax, nf := true } v) x := fun x => by rw [← hw]; exact mr ..
    obtain ⟨u, hu, u1, u2, u3, u4, u5, u6, u7, u8⟩ := fin w _ ((memBytes_congr fun j _ => wm _).trans B.1)
      (fun x hx ho => ((wm x).trans (B.2 x ho)).trans (mv x hx)) wr (by rw [wi]) (by rw [← hw]; unfold modRegion writeBlk memWrite; rw [C]) (by rw [← hw]; rfl)
    simp only [if_true]
    rw [← hu]
    exact ⟨u1, fun _ => ⟨trivial, by rw [u2, wi]; exact mem_insertNat ..⟩, fun h => absurd h (by decide), fun h => absurd h (by decide), u3, u4, u5, u6, u7, fun h => by rw [u8]; exact H.1 h, fun h => u8.trans (H.2 h)⟩
theorem addEntry_again (i : Nat) (r : Region) (fp8 : Bool) (b : Nat) (e : Entry) (s : State) : (addEntry i r fp8 b e s).red.again = s.red.again := by
  unfold addEntry
  extract_lets a k v _ v' k' s1 _ w
  split
  · rw [show (bump (cntDev 24) 1 s).red = s.red by rw [(bump_countsOnly ..).rest]]
  · split
    · rfl
    · have h0 : v.red.again = s.red.again := by show (countAdder a s).red.again = _; rw [(countAdder_counts a s).rest]
      have hv : v'.red.again = s.red.again := by
        rw [← h0]
        show (if _ then _ else _ : State).red.again = _
        split <;> rfl
      have hw : w.red.again = s.red.again := by
        rw [← hv]
        show (if _ then _ else if _ then _ else _ : State).red.again = _
        split
        · rfl
        · split <;> rfl
      split
      · exact hw
      · exact hw

/-! ### Records and sums at a combining device (R299, R300) -/

/-- What a combining device still lacks keeps a round open. -/
theorem combineRound_open {k : Nat} {s : State} (h : ¬ (s.red.combined.contains k = false ∧ (liveCombiners s).contains (myPos s) = true ∧ roundReady s k = true)) :
    combineRound k s = s := by
  unfold combineRound
  refine if_pos ?_
  cases h1 : s.red.combined.contains k
  · cases h2 : (liveCombiners s).contains (myPos s)
    · rfl
    · cases h3 : roundReady s k
      · rfl
      · exact absurd ⟨h1, h2, h3⟩ h
  · rfl
theorem sendResults_only (k : Nat) (l : List (Nat × SumVal)) (s : State) : FlowOnly s (sendResults k l s) := by
  unfold sendResults
  extract_lets d pkts
  generalize resultLegs s = fs
  unfold forEach
  induction fs generalizing s with
  | nil => exact .refl s
  | cons x fs ih => exact ((FlowOnly.sendReduce ..).trans (.sendReduce ..)).trans (ih _)
/-- A round whose parts are in is combined and its results go out (R299, R300). -/
theorem combineRound_spec {k : Nat} {s : State} (h : s.red.combined.contains k = false ∧ (liveCombiners s).contains (myPos s) = true ∧ roundReady s k = true) :
    (combineRound k s).red.combined = s.red.combined ++ [k] ∧
    (combineRound k s).red.results = s.red.results ++ (roundIndices s k).filterMap (fun i => (combineVal (partsOf s i)).map fun x => (i, x)) ∧
    (combineRound k s).red.parts = (s.red.parts.filter fun x => roundOf x.1 != k) ∧
    FlowOnly { s with red := { s.red with combined := (combineRound k s).red.combined, results := (combineRound k s).red.results,
                                          parts := (combineRound k s).red.parts, sums := (combineRound k s).red.sums } } (combineRound k s) := by
  unfold combineRound
  rw [if_neg (by rw [h.1, h.2.1, h.2.2]; decide)]
  extract_lets l rs w
  have hr : rs = (roundIndices s k).filterMap (fun i => (combineVal (partsOf s i)).map fun x => (i, x)) := by
    show List.filterMap _ (List.map _ _) = _
    rw [List.filterMap_map]; rfl
  have key : ∀ (m : List (Nat × SumReg)) (z : State), z = { s with red := { s.red with
        sums := m, combined := s.red.combined ++ [k], results := s.red.results ++ rs, parts := s.red.parts.filter fun x => roundOf x.1 != k } } →
      (sendResults k rs z).red.combined = s.red.combined ++ [k] ∧
      (sendResults k rs z).red.results = s.red.results ++ (roundIndices s k).filterMap (fun i => (combineVal (partsOf s i)).map fun x => (i, x)) ∧
      (sendResults k rs z).red.parts = (s.red.parts.filter fun x => roundOf x.1 != k) ∧
      FlowOnly { s with red := { s.red with combined := (sendResults k rs z).red.combined, results := (sendResults k rs z).red.results,
                                            parts := (sendResults k rs z).red.parts, sums := (sendResults k rs z).red.sums } } (sendResults k rs z) := by
    intro m z hz
    have F := sendResults_only k rs z
    generalize sendResults k rs z = u at F
    have r1 : u.red.combined = z.red.combined := by rw [F.rest]
    have r2 : u.red.results = z.red.results := by rw [F.rest]
    have r3 : u.red.parts = z.red.parts := by rw [F.rest]
    have r4 : u.red.sums = z.red.sums := by rw [F.rest]
    rw [r1, r2, r3, r4]
    refine ⟨by rw [hz], by rw [hz, hr], by rw [hz], ?_⟩
    have : ({ s with red := { s.red with combined := z.red.combined, results := z.red.results, parts := z.red.parts, sums := z.red.sums } } : State) = z := by
      rw [hz]
    rw [this]; exact F
  exact key _ _ rfl

end Sys2Proof.Machine
end

