-- ==== Sys2Proof/Laws/Passes.lean ====
section
/-! SUPPORT. What transfers and the end of a pass do (R253, R258, R261, R263). -/

namespace Sys2Proof.Machine

open Sys2Proof

/-- What poison brings: counters, log, trace, core flags, the addresses kept for the boundary, and a hold. -/
structure PoisonOnly (s u : State) : Prop where
  rest : u = { s with cnt := u.cnt, log := u.log, host := u.host, trace := u.trace, cores := u.cores,
                      res := { s.res with badAddrs := u.res.badAddrs }, run := { s.run with holdDue := u.run.holdDue } }
theorem PoisonOnly.refl (s : State) : PoisonOnly s s := ⟨rfl⟩
theorem PoisonOnly.trans {s t u : State} (h : PoisonOnly s t) (k : PoisonOnly t u) : PoisonOnly s u := ⟨by rw [k.rest, h.rest]⟩
theorem PoisonOnly.counts {s u : State} (h : CountsOnly s u) : PoisonOnly s u := ⟨by rw [h.rest]⟩
theorem PoisonOnly.ite {s a b : State} {p : Prop} [Decidable p] (h1 : PoisonOnly s a) (h2 : PoisonOnly s b) : PoisonOnly s (if p then a else b) := by
  split <;> assumption
theorem PoisonOnly.mem {s u : State} (h : PoisonOnly s u) {x : Nat} (hx : ¬ logRing x) : memByte u x = memByte s x :=
  memByte_log x (by rw [h.rest]) (by rw [h.rest]) (by rw [h.rest]) hx
theorem countPoison_counts (r : Nat) (s : State) : CountsOnly s (countPoison r s) := by
  unfold countPoison; split
  · exact bump_countsOnly ..
  · exact .refl s
theorem PoisonOnly.core (c r a : Nat) (s : State) : PoisonOnly s (corePoison c r a s) := by
  obtain ⟨T, u, h, e⟩ := corePoison_eq c r a s
  rw [e]
  have hu : PoisonOnly s u := ⟨by rw [h.rest]⟩
  split
  · exact ⟨by unfold modCore; rw [hu.rest]⟩
  · exact hu
theorem transferPoison_only (d a r : Nat) (c : Option Nat) (s : State) : PoisonOnly s (transferPoison d a r c s) := by
  unfold transferPoison
  extract_lets v _ w
  have hv : PoisonOnly s v := .counts ((countPoison_counts ..).trans (logEv_countsOnly ..))
  have bad : ∀ (x : State) (l : List (Nat × Nat)), PoisonOnly x { x with res := { x.res with badAddrs := l } } := fun _ _ => ⟨rfl⟩
  have due : ∀ (x : State) (n : Nat), PoisonOnly x { x with run := { x.run with holdDue := n } } := fun _ _ => ⟨rfl⟩
  have hw : PoisonOnly s w := by
    show PoisonOnly s (if _ then _ else _)
    split
    · exact hv.trans (bad ..)
    · exact hv
  clear_value w
  split
  · exact hw.trans (.core ..)
  · split
    · exact hw.trans (due ..)
    · exact hw
theorem devToHost_of {s u : State} (h : u.regs = s.regs) (a : Nat) : devToHost u a = devToHost s a := by
  unfold devToHost winBase winCovers winBase reg regW; rw [h]
theorem readSource_length {s : State} {a n r : Nat} {data : HostData} {ecc : EccOutcome} {l : List Byte} (h : readSource s a n data ecc = (l, r)) :
    l.length = n := by
  unfold readSource at h
  split at h
  · have := (Prod.mk.inj h).1; rw [← this]; exact padTo_len ..
  · have := (Prod.mk.inj h).1; rw [← this]; simp [memBytes]
/-- Delivered bytes, poisoned or not, are in memory, and no other byte has changed. -/
theorem length_memBytes (s : State) (a n : Nat) : (memBytes s a n).length = n := by unfold memBytes; simp
theorem deliver_put {a : Nat} {l : List Byte} {b : Bool} {s : State} (hd : devToHost s a = none) (hp : ∀ i, i < l.length → plainAddr (a + i)) :
    memBytes (deliver a l b s) a l.length = l ∧
      ∀ x, ¬ logRing x → x < a ∨ a + l.length ≤ x → memByte (deliver a l b s) x = memByte s x := by
  have M := deliver_mem hd hp
  have e : ∀ x, memByte (deliver a l b s) x = memByte (deliver a l false s) x := fun x => by
    unfold deliver; rw [hd]
    cases b
    · rfl
    · simp only [if_true, Bool.false_eq_true, if_false]
      exact memByte_congr x rfl rfl rfl rfl
  exact ⟨(memBytes_congr fun i _ => e _).trans M.1, fun x hx ho => (e x).trans (M.2 x hx ho)⟩
theorem destPut_put {y : DescImg} {dst : List Blk} {off a r : Nat} {l : List Byte} {b : Bool} {s : State} (hm : y.mode = 0)
    (hb : blockAt dst off = some (a, r)) (hl : l.length ≤ r) (hd : devToHost s a = none) (hp : ∀ i, i < l.length → plainAddr (a + i)) :
    memBytes (destPut y dst off l b s) a l.length = l ∧
      ∀ x, ¬ logRing x → x < a ∨ a + l.length ≤ x → memByte (destPut y dst off l b s) x = memByte s x := by
  cases l with
  | nil => unfold destPut; rw [if_pos hm]; exact ⟨rfl, fun _ _ _ => rfl⟩
  | cons z t =>
    have : destPut y dst off (z :: t) b s = deliver a (z :: t) b s := by
      unfold destPut
      rw [if_pos hm]
      show blocksPut dst b (t.length + 1) off (z :: t) s = _
      unfold blocksPut
      rw [hb]
      simp only [List.isEmpty_cons, Bool.false_eq_true, if_false]
      rw [List.take_of_length_le hl, List.drop_of_length_le hl]
      cases t with
      | nil => rfl
      | cons z t => rfl
    rw [this]
    exact deliver_put hd hp
theorem traceRec_stm (c thr typ arg d0 d1 : Nat) (s : State) : (traceRec c thr typ arg d0 d1 s).stm = s.stm := by
  obtain ⟨T, h⟩ := traceRec_eq c thr typ arg d0 d1 s
  rw [h.rest]
/-- POST at the end of a pass. -/
theorem passPost_spec (x : DescImg) (s : State) : (passPost x s).stm = { s.stm with marks := (passPost x s).stm.marks } ∧
    (∀ m, mark (passPost x s) m = if bitN x.action 0 = true ∧ m = x.postMark ∧ m ≠ 0xFFFF then
      (mark s m + x.postInc) % 2 ^ 32 else mark s m) := by
  unfold passPost
  by_cases h : (bitN x.action 0 && x.postMark != 65535) = true
  · rw [if_pos h]
    refine ⟨rfl, fun m => ?_⟩
    simp only [Bool.and_eq_true, bne_iff_ne] at h
    by_cases g : m = x.postMark
    · subst g; rw [mark_addMark_self, if_pos ⟨h.1, rfl, h.2⟩]
    · rw [mark_addMark_ne _ _ g, if_neg (fun k => g k.2.1)]
  · rw [if_neg h]
    refine ⟨rfl, fun m => ?_⟩
    rw [if_neg]
    rintro ⟨h1, h2, h3⟩
    exact h (by simp [h1, ← h2, h3])
theorem passTrace_stm (d : Nat) (p : PassSt) (x : DescImg) (s : State) : (passTrace d p x s).stm = s.stm := by
  unfold passTrace; split
  · exact traceRec_stm ..
  · rfl
theorem passCount_stm (p : PassSt) (s : State) : (passCount p s).stm = s.stm := by
  unfold passCount; split
  · rw [(asyncDone_completes ..).rest]
  · rfl
/-- What the actions of a completing pass leave alone. -/
theorem passActions_spec (d : Nat) (p : PassSt) (s : State) : (passActions d p s).stm = { s.stm with marks := (passActions d p s).stm.marks } ∧
    (∀ m, mark (passActions d p s) m = if bitN (descOf s d).action 0 = true ∧ m = (descOf s d).postMark ∧ m ≠ 0xFFFF then
      (mark s m + (descOf s d).postInc) % 2 ^ 32 else mark s m) := by
  obtain ⟨h1, h2⟩ := passPost_spec (descOf s d) s
  have h : (passActions d p s).stm = (passPost (descOf s d) s).stm := (passCount_stm ..).trans (passTrace_stm ..)
  exact ⟨by rw [h]; exact h1, fun m => (marks_of h m).trans (h2 m)⟩
theorem desc_of_marks {s u : State} (h : u.stm = { s.stm with marks := u.stm.marks }) (d : Nat) : desc u d = desc s d := by unfold desc; rw [h]

/-- What the actions of a completing pass may change. -/
theorem passActions_rest (d : Nat) (p : PassSt) (s : State) : (∀ c, (core (passActions d p s) c).str = (core s c).str) ∧
    passActions d p s = { s with
          cnt := (passActions d p s).cnt, log := (passActions d p s).log, host := (passActions d p s).host
          trace := (passActions d p s).trace, cores := (passActions d p s).cores, stm := { s.stm with marks := (passActions d p s).stm.marks } } := by
  have A := (passActions_spec d p s).1
  have P : ∀ x : DescImg, passPost x s = { s with stm := { s.stm with marks := (passPost x s).stm.marks } } := fun x => by
    unfold passPost; split <;> rfl
  unfold passActions at A ⊢
  generalize descOf s d = x at A ⊢
  have hP := P x
  generalize passPost x s = v at A hP ⊢
  have hT : (∀ c, core (passTrace d p x v) c = core v c) ∧ passTrace d p x v = { v with
          cnt := (passTrace d p x v).cnt, log := (passTrace d p x v).log, host := (passTrace d p x v).host, trace := (passTrace d p x v).trace } := by
    unfold passTrace
    split
    · obtain ⟨T, h⟩ := traceRec_eq (match p.issuer with | some i => i.core | none => 0) (match p.issuer with | some i => i.thread | none => 0)
        5 0 (d + p.gen * 2 ^ 32) p.total v
      generalize traceRec _ _ 5 0 _ _ v = y at h
      have e : y = { v with trace := y.trace, cnt := y.cnt, log := y.log, host := y.host } := by rw [h.rest]
      exact ⟨fun c => by rw [e]; rfl, by rw [e]⟩
    · exact ⟨fun _ => rfl, rfl⟩
  generalize passTrace d p x v = w at A hT ⊢
  have hC : (∀ c, (core (passCount p w) c).str = (core w c).str) ∧ passCount p w = { w with
          cnt := (passCount p w).cnt, log := (passCount p w).log, host := (passCount p w).host
          trace := (passCount p w).trace, cores := (passCount p w).cores } := by
    unfold passCount
    split
    · next i _ =>
      have C := asyncDone_completes i.core i.thread i.cntEn i.cnt w
      refine ⟨fun c => ?_, by rw [C.rest]⟩
      by_cases e : c = i.core
      · subst e; rw [C.core]
      · rw [C.cores c e]
    · exact ⟨fun _ => rfl, rfl⟩
  generalize passCount p w = u at A hC ⊢
  refine ⟨fun c => ?_, ?_⟩
  · rw [hC.1, hT.1, hP]; rfl
  · have e1 := hC.2
    rw [hT.2, hP] at e1
    have e2 : u.stm.marks = v.stm.marks := by rw [e1]
    rw [e2]
    rw [e1]
/-- The end of a pass for which no RUN waits. -/
theorem endPass_ended {d : Nat} {s : State} {q : PassSt} (hq : (desc s d).pass = some q) (hw : (desc s d).waiting = []) :
    PassEnded d s (endPass d s) := by
  unfold endPass
  rw [hq]
  simp only
  obtain ⟨A1, A2⟩ := passActions_spec d q s
  obtain ⟨R1, R2⟩ := passActions_rest d q s
  generalize passActions d q s = v at A1 A2 R1 R2
  have ad : ∀ j, desc v j = desc s j := desc_of_marks A1
  have sp := fun j => (show desc (modDesc d (fun D => { D with pass := none }) v) j = if j = d then { desc s d with pass := none } else desc s j from by
    by_cases hj : j = d
    · subst hj; rw [desc_modDesc_self, if_pos rfl, ad]
    · rw [desc_modDesc_ne _ _ hj, if_neg hj, ad])
  have sm : (modDesc d (fun D => { D with pass := none }) v).stm.marks = v.stm.marks := rfl
  have wr : modDesc d (fun D => { D with pass := none }) v =
    { v with stm := { v.stm with desc := (modDesc d (fun D => { D with pass := none }) v).stm.desc } } := rfl
  generalize modDesc d (fun D => { D with pass := none }) v = w at sp sm wr
  have T : (∀ j, desc (takeShadow d w) j = if j = d then { desc s d with
        pass := none, shadow := none, gen := if (desc s d).shadow = none then (desc s d).gen else ((desc s d).gen + 1) % 2 ^ 32 } else desc s j) ∧
      (takeShadow d w).stm.marks = w.stm.marks ∧
      takeShadow d w = { w with
          mem := (takeShadow d w).mem, cnt := (takeShadow d w).cnt, log := (takeShadow d w).log, host := (takeShadow d w).host, stm := { w.stm with desc := (takeShadow d w).stm.desc } } := by
    unfold takeShadow
    rw [sp d, if_pos rfl]
    simp only
    cases hs : (desc s d).shadow with
    | none =>
      simp only [if_true]
      refine ⟨fun j => ?_, trivial, trivial⟩
      rw [sp j]; split
      · simp [hs]
      · rfl
    | some img =>
      simp only [reduceCtorEq, if_false]
      have P : MemOnly w (putImage d (((desc s d).gen + 1) % 2 ^ 32) img w) := .memStore ..
      generalize putImage d (((desc s d).gen + 1) % 2 ^ 32) img w = z at P
      have zd : ∀ j, desc z j = desc w j := fun j => by unfold desc; rw [P.rest]
      refine ⟨fun j => ?_, by show z.stm.marks = _; rw [P.rest], ?_⟩
      · by_cases hj : j = d
        · subst hj; rw [desc_modDesc_self, if_pos rfl, zd, sp, if_pos rfl]
        · rw [desc_modDesc_ne _ _ hj, if_neg hj, zd, sp, if_neg hj]
      · have e := P.rest
        show modDesc d _ z = { w with
          mem := z.mem, cnt := z.cnt, log := z.log, host := z.host, stm := { w.stm with desc := (modDesc d _ z).stm.desc } }
        unfold modDesc
        have es : z.stm = w.stm := by rw [e]
        dsimp only
        rw [es]
        rw [e]
  obtain ⟨T1, T2, T3⟩ := T
  generalize takeShadow d w = z at T1 T2 T3
  have zw : (desc z d).waiting = [] := by rw [T1, if_pos rfl]; exact hw
  rw [zw]
  unfold startWaiting
  refine ⟨by rw [T1, if_pos rfl], fun j hj => by rw [T1, if_neg hj], by rw [T1, if_pos rfl], by rw [T1, if_pos rfl], fun m => ?_, fun c => ?_, ?_⟩
  · rw [← A2]
    show sget _ z.stm.marks m = _
    rw [T2, sm]; rfl
  · rw [T3, wr]; exact R1 c
  · rw [wr] at T3
    rw [R2] at T3
    have e1 : z.stm.marks = v.stm.marks := T2.trans sm
    rw [e1]
    rw [T3]

end Sys2Proof.Machine
end

