-- ==== Sys2Proof/Laws/Strokes.lean ====
section
/-! SUPPORT. What strokes, phases and the guard point do to the state: the calm part of an edge, the edge around its phases,
EASY markers, and a hold (R206 to R216, R319). -/

namespace Sys2Proof.Machine

open Sys2Proof

/-- Strokes, the course of the run, the plan, registers and ports are as before, and what has been sent stays sent. -/
structure Calm (s u : State) : Prop where
  stroke : u.stroke = s.stroke
  run : u.run = s.run
  plan : u.plan = s.plan
  dev : u.dev = s.dev
  regs : u.regs = s.regs
  red : u.red = s.red
  link : u.link = { s.link with port := u.link.port }
  ups : SameUp s u
  sent : Grows s u
  mem : ∀ x, ¬ logRing x → memByte u x = memByte s x
  arrs : ∀ c a, arr u c a = arr s c a
theorem Calm.refl (s : State) : Calm s s := ⟨rfl, rfl, rfl, rfl, rfl, rfl, rfl, .refl s, .refl s, fun _ _ => rfl, fun _ _ => rfl⟩
theorem Calm.trans {s t u : State} (h : Calm s t) (k : Calm t u) : Calm s u :=
  ⟨k.stroke.trans h.stroke, k.run.trans h.run, k.plan.trans h.plan, k.dev.trans h.dev, k.regs.trans h.regs, k.red.trans h.red, by rw [k.link, h.link], h.ups.trans k.ups, h.sent.trans k.sent,
   fun x hx => (k.mem x hx).trans (h.mem x hx), fun c a => (k.arrs c a).trans (h.arrs c a)⟩
theorem Calm.counts {s u : State} (h : CountsOnly s u) : Calm s u := by
  have p := h.parts
  obtain ⟨-, -, h3, -, -, -, h7, h8, -, h10, h11, -, h13, h14, h15, -⟩ := p
  exact ⟨h13, h3, h15, h10, h8, h14, by rw [h7], .of fun q => port_of h7 q, .of h11, h.mem, fun c a => by unfold arr core; rw [h.rest]⟩
theorem Calm.bump (o n : Nat) (s : State) : Calm s (bump o n s) := .counts (bump_countsOnly ..)
theorem Calm.ite {s a b : State} {p : Prop} [Decidable p] (h1 : Calm s a) (h2 : Calm s b) : Calm s (if p then a else b) := by
  split <;> assumption
theorem Calm.fold {α : Type} {f : State → α → State} (hf : ∀ u x, Calm u (f u x)) (l : List α) (s : State) : Calm s (l.foldl f s) := by
  induction l generalizing s with
  | nil => exact .refl s
  | cons x l ih => exact (hf s x).trans (ih _)
theorem Calm.emit (o : Output) (s : State) : Calm s (emit o s) := ⟨rfl, rfl, rfl, rfl, rfl, rfl, rfl, .of fun _ => rfl, .emit o s, fun _ _ => rfl, fun _ _ => rfl⟩
theorem Calm.of {s u : State} (h1 : u.stroke = s.stroke) (h2 : u.run = s.run) (h3 : u.plan = s.plan) (h4 : u.dev = s.dev) (h5 : u.regs = s.regs)
    (h6 : u.link = s.link) (h7 : u.out = s.out) (h8 : u.red = s.red) (h9 : ∀ x, ¬ logRing x → memByte u x = memByte s x)
    (h10 : ∀ c a, arr u c a = arr s c a) : Calm s u :=
  ⟨h1, h2, h3, h4, h5, h8, by rw [h6], .of fun q => port_of h6 q, .of h7, h9, h10⟩
theorem Calm.life (o w n : Nat) (s : State) : Calm s (lifeAdd o w n s) := .of rfl rfl rfl rfl rfl rfl rfl rfl (fun _ _ => rfl) fun _ _ => rfl
theorem Calm.wakeCore (c : Nat) (s : State) : Calm s (wakeCore c s) := by
  refine .of rfl rfl rfl rfl rfl rfl rfl rfl (fun _ _ => rfl) fun d a => ?_
  unfold Machine.wakeCore arr
  by_cases h : d = c
  · subst h; rw [core_modCore_self]
  · rw [core_modCore_ne _ _ h]
theorem Calm.wakeAll (s : State) : Calm s (wakeAll s) := .fold (fun u _ => .ite (.refl u) (.wakeCore ..)) _ s
theorem Calm.modRing (q : Nat) (f : RingSt → RingSt) (s : State) : Calm s (modRing q f s) := .of rfl rfl rfl rfl rfl rfl rfl rfl (fun _ _ => rfl) fun _ _ => rfl
theorem Calm.writeReply (q : Nat) (r : List Byte) (s : State) : Calm s (writeReply q r s) := by
  unfold Machine.writeReply
  extract_lets a first s1
  refine Calm.trans ?_ (.modRing ..)
  exact .ite ((Calm.emit ..).trans (.emit ..)) (.bump ..)
theorem Calm.reply (q tag op code : Nat) (p : List Byte) (s : State) : Calm s (reply q tag op code p s) := by
  unfold Machine.reply
  exact .ite (.refl s) (.ite (.modRing ..) (.writeReply ..))
theorem Calm.finish (q code : Nat) (p : List Byte) (s : State) : Calm s (finish q code p s) := by
  unfold Machine.finish
  split
  · exact .refl s
  · refine Calm.trans ?_ (Calm.modRing ..)
    exact (Calm.bump (cntDev 0) 1 s).trans (.reply ..)
theorem Calm.dropReserved (q n : Nat) (s : State) : Calm s (dropReserved q n s) := by
  induction n generalizing s with
  | zero => exact .refl s
  | succ n ih =>
    unfold Machine.dropReserved
    split
    · exact .ite (Calm.trans (Calm.finish ..) (ih _)) (.refl s)
    · exact .refl s
theorem Calm.complete (q code : Nat) (p : List Byte) (s : State) : Calm s (complete q code p s) := by
  unfold Machine.complete
  exact (Calm.finish ..).trans (.dropReserved ..)
theorem Calm.dueSnapshots (s : State) : Calm s (dueSnapshots s) := by
  unfold Machine.dueSnapshots
  extract_lets due _ s1 s2
  refine .ite (.refl s) ?_
  refine Calm.trans (t := s2) ?_ (.fold (fun u x => .complete ..) _ _)
  have h : Calm s s1 := .of rfl rfl rfl rfl rfl rfl rfl rfl (fun _ _ => rfl) fun _ _ => rfl
  refine h.trans ?_
  exact .of rfl rfl rfl rfl rfl rfl rfl rfl (fun _ _ => rfl) fun _ _ => rfl
theorem Calm.copyStroke (s : State) : Calm s (copyStroke s) := by
  unfold Machine.copyStroke
  refine .ite (.refl s) ?_
  extract_lets total n
  refine .ite ?_ (.of rfl rfl rfl rfl rfl rfl rfl rfl (fun _ _ => rfl) fun _ _ => rfl)
  unfold copyDone
  extract_lets
  exact ⟨rfl, rfl, rfl, rfl, rfl, rfl, rfl, .of fun _ => rfl, ⟨fun o h => List.mem_cons_of_mem _ (List.mem_cons_of_mem _ h)⟩, fun _ _ => rfl, fun _ _ => rfl⟩
theorem Calm.sendCtl {p b : Nat} {h : PktHdr} (hc : h.cls = 0) (body : List Byte) (s : State) : Calm s (sendOn p b h body s) := by
  have r := (NetOnly.sendOn p b h body s).rest
  exact ⟨by rw [r], by rw [r], by rw [r], by rw [r], by rw [r], by rw [r], by rw [r], .sendCtl hc .., .sendOn .., (NetOnly.sendOn p b h body s).mem, fun _ _ => by rw [r]; rfl⟩
theorem Calm.forEach {α : Type} {f : α → State → State} (hf : ∀ x u, Calm u (f x u)) (l : List α) (s : State) : Calm s (forEach l f s) :=
  .fold (fun u x => hf x u) l s
theorem Calm.sendCatch (s : State) : Calm s (sendCatch s) ∧
    (∀ q ∈ activePorts s, ∃ h, Output.packet q.1 q.2 h (b8 s.stroke.count ++ b4 0 ++ b4 (b2n s.stroke.locked)) ∈ (Machine.sendCatch s).out) ∧
    (bitN (reg s 0x4000) 1 = true → Output.strokeOut ∈ (Machine.sendCatch s).out) := by
  unfold Machine.sendCatch
  extract_lets body s1
  have h1 : Calm s s1 := .forEach (fun x u => .sendCtl rfl ..) _ _
  have h2 : Calm s1 (if bitN (reg s1 0x4000) 1 = true then Machine.emit .strokeOut s1 else s1) := .ite (.emit ..) (.refl _)
  refine ⟨h1.trans h2, fun q hq => ?_, fun hb => ?_⟩
  · obtain ⟨h, hh⟩ := flood_sends 0 body s q hq
    exact ⟨h, h2.sent.sent _ hh⟩
  · have : bitN (reg s1 0x4000) 1 = true := by unfold reg regW at *; rw [h1.regs]; exact hb
    rw [if_pos this]; exact List.mem_cons_self ..
theorem activePorts_up {s u : State} (h : SameUp s u) : activePorts u = activePorts s := by
  unfold activePorts; exact List.filter_congr fun x _ => by rw [h.same]
theorem Calm.avsRequest (r : Nat) (s : State) : Calm s (avsRequest r s) := by
  unfold Machine.avsRequest
  extract_lets
  exact .ite (.refl s) ⟨rfl, rfl, rfl, rfl, rfl, rfl, rfl, .of fun _ => rfl, ⟨fun _ h => List.mem_cons_of_mem _ h⟩, fun _ _ => rfl, fun _ _ => rfl⟩
theorem Calm.traceRec (c thr typ arg d0 d1 : Nat) (s : State) : Calm s (traceRec c thr typ arg d0 d1 s) := by
  obtain ⟨T, h⟩ := traceRec_eq c thr typ arg d0 d1 s
  exact Calm.trans (t := { s with trace := T }) (.of rfl rfl rfl rfl rfl rfl rfl rfl (fun _ _ => rfl) fun _ _ => rfl) (.counts h)
theorem Calm.residencies (s : State) : Calm s (residencies s) := by
  unfold Machine.residencies
  extract_lets p _ s1 s2 s3
  have h1 : Calm s s1 := .of rfl rfl rfl rfl rfl rfl rfl rfl (fun _ _ => rfl) fun _ _ => rfl
  have h2 : Calm s1 s2 := .ite (.bump ..) (.ite (.bump ..) (.refl _))
  have h3 : Calm s2 s3 := .fold (fun u x => .ite (.bump ..) (.refl u)) _ _
  exact h1.trans (h2.trans (h3.trans (.ite (.bump ..) (.refl _))))

theorem counts_cores {s u : State} (h : CountsOnly s u) : u.cores = s.cores := by rw [h.rest]
theorem residencies_counts (s : State) : ∃ B, CountsOnly { s with boot := B } (residencies s) := by
  refine ⟨{ s.boot with uptime := s.boot.uptime + periodNs s }, ?_⟩
  unfold residencies
  extract_lets p _ s1 s2 s3
  have ite : ∀ {u a b : State} {q : Prop} [Decidable q], CountsOnly u a → CountsOnly u b → CountsOnly u (if q then a else b) := by
    intro u a b q _ h1 h2; split <;> assumption
  have h2 : CountsOnly s1 s2 := ite (bump_countsOnly ..) (ite (bump_countsOnly ..) (.refl _))
  have h3 : CountsOnly s2 s3 := by
    unfold s3
    generalize s2 = v
    induction List.range 12 generalizing v with
    | nil => exact .refl v
    | cons x l ih => exact (ite (bump_countsOnly ..) (.refl v)).trans (ih _)
  exact h2.trans (h3.trans (ite (bump_countsOnly ..) (.refl _)))
theorem residencies_cores (s : State) : (residencies s).cores = s.cores := by
  obtain ⟨B, h⟩ := residencies_counts s
  rw [h.rest]

/-- What the exchange of a boundary reads beside the reduced values, and the cores that the fuses leave on. -/
def exchSame (s : State) : Nat × List Nat × Option PlanReq × List Nat × List (Nat × Bool) :=
  (s.renumbered, s.res.lost, s.host.rwPlan, s.host.rwSecure, s.host.rwPause)
theorem counts_exch {s u : State} (h : CountsOnly s u) : exchSame u = exchSame s := by
  unfold exchSame
  rw [show u.renumbered = s.renumbered by rw [h.rest], show u.res = s.res by rw [h.rest], h.host]
theorem residencies_exch (s : State) : exchSame (residencies s) = exchSame s := by
  obtain ⟨B, h⟩ := residencies_counts s
  exact (counts_exch h).trans rfl

/-- The edge before the counter goes on. -/
structure Ends (s u : State) : Prop where
  run : u.run = s.run
  plan : u.plan = s.plan
  dev : u.dev = s.dev
  regs : u.regs = s.regs
  red : u.red = s.red
  link : u.link = { s.link with port := u.link.port }
  stroke : u.stroke = { s.stroke with good := u.stroke.good, bad := u.stroke.bad, missed := u.stroke.missed, marker := u.stroke.marker }
  mem : ∀ x, ¬ logRing x → memByte u x = memByte s x
  cores : u.cores = s.cores
  exch : exchSame u = exchSame s
theorem Ends.refl (s : State) : Ends s s := ⟨rfl, rfl, rfl, rfl, rfl, rfl, rfl, fun _ _ => rfl, rfl, rfl⟩
theorem Ends.trans {s t u : State} (h : Ends s t) (k : Ends t u) : Ends s u :=
  ⟨k.run.trans h.run, k.plan.trans h.plan, k.dev.trans h.dev, k.regs.trans h.regs, k.red.trans h.red, by rw [k.link, h.link], by rw [k.stroke, h.stroke],
   fun x hx => (k.mem x hx).trans (h.mem x hx), k.cores.trans h.cores, k.exch.trans h.exch⟩
theorem Ends.ite {s a b : State} {p : Prop} [Decidable p] (h1 : Ends s a) (h2 : Ends s b) : Ends s (if p then a else b) := by
  split <;> assumption
theorem Ends.fold {α : Type} {f : State → α → State} (hf : ∀ u x, Ends u (f u x)) (l : List α) (s : State) : Ends s (l.foldl f s) := by
  induction l generalizing s with
  | nil => exact .refl s
  | cons x l ih => exact (hf s x).trans (ih _)
theorem Ends.counts {s u : State} (h : CountsOnly s u) : Ends s u := by
  have p := h.rest
  exact ⟨by rw [p], by rw [p], by rw [p], by rw [p], by rw [p], by rw [p], by rw [p], h.mem, by rw [p], counts_exch h⟩
theorem Ends.bump (o n : Nat) (s : State) : Ends s (Machine.bump o n s) := .counts (bump_countsOnly ..)
theorem Ends.modPort (p : Nat) (f : PortSt → PortSt) (s : State) : Ends s (modPort p f s) := ⟨rfl, rfl, rfl, rfl, rfl, rfl, rfl, fun _ _ => rfl, rfl, rfl⟩
theorem Ends.closeLock (s : State) : Ends s (closeLock s) := by
  unfold Machine.closeLock
  extract_lets k ok k2 lost s1
  refine .ite ⟨rfl, rfl, rfl, rfl, rfl, rfl, rfl, fun _ _ => rfl, rfl, rfl⟩ ?_
  have h : Ends s s1 := ⟨rfl, rfl, rfl, rfl, rfl, rfl, rfl, fun _ _ => rfl, rfl, rfl⟩
  exact h.trans (.ite (.bump ..) (.refl _))
theorem Ends.closeCatch (s : State) : Ends s (closeCatch s) := by
  unfold Machine.closeCatch
  extract_lets s1
  have h : Ends s s1 := .fold (fun u x => .ite (.modPort ..) (.trans (.modPort ..) (.bump ..))) _ _
  exact h.trans (.fold (fun u x => .modPort ..) _ _)
theorem Ends.closeHealth (s : State) : Ends s (closeHealth s) := by
  unfold Machine.closeHealth
  extract_lets s1 _r
  have h1 : Ends s (rollHealth s) := by unfold rollHealth; extract_lets; exact ⟨rfl, rfl, rfl, rfl, rfl, rfl, rfl, fun _ _ => rfl, rfl, rfl⟩
  have h2 : Ends (rollHealth s) s1 := by
    unfold s1 laneRatios
    refine .fold (fun u x => ?_) _ _
    extract_lets
    exact .ite (.refl u) ⟨rfl, rfl, rfl, rfl, rfl, rfl, rfl, fun _ _ => rfl, rfl, rfl⟩
  exact h1.trans (h2.trans ⟨rfl, rfl, rfl, rfl, rfl, rfl, rfl, fun _ _ => rfl, rfl, rfl⟩)
theorem Ends.standEdge (s : State) : Ends s (standEdge s) := ⟨rfl, rfl, rfl, rfl, rfl, rfl, rfl, fun _ _ => rfl, rfl, rfl⟩
theorem taken_stroke (k s : StrokeSt) (h : k = { s with good := k.good, bad := k.bad, missed := k.missed, marker := k.marker })
    (r : Bool) (n : Nat) (l : List (Nat × Nat)) : { k with raised := r, raiser := n, seen := l } =
      { s with good := k.good, bad := k.bad, missed := k.missed, marker := k.marker, raised := r, raiser := n, seen := l } := by
  cases k; cases s
  simp only [StrokeSt.mk.injEq] at h ⊢
  simp [h]
/-- The end of the stroke that ends: nothing but lock, markers and the holder of EASY changes of the strokes. -/
theorem edge_ends (s : State) : ∃ a, takeRaised (closeHealth (closeCatch (closeLock (standEdge s)))) = a ∧ Ends s { a with stroke := { a.stroke with
      raised := s.stroke.raised, raiser := s.stroke.raiser, seen := s.stroke.seen } } ∧
    a.stroke.raised = !(s.stroke.seen.filter fun x => x.1 == s.stroke.count).isEmpty ∧
    a.stroke = { s.stroke with good := a.stroke.good, bad := a.stroke.bad, missed := a.stroke.missed, marker := a.stroke.marker,
                               raised := a.stroke.raised, raiser := a.stroke.raiser, seen := a.stroke.seen } := by
  have h := ((Ends.standEdge s).trans (.closeLock _)).trans ((Ends.closeCatch _).trans (.closeHealth _))
  generalize closeHealth (closeCatch (closeLock (standEdge s))) = u at h ⊢
  refine ⟨_, rfl, ?_⟩
  unfold takeRaised
  extract_lets mine
  refine ⟨⟨h.run, h.plan, h.dev, h.regs, h.red, h.link, ?_, h.mem, h.cores, h.exch⟩, ?_, ?_⟩
  · have := taken_stroke u.stroke s.stroke h.stroke s.stroke.raised s.stroke.raiser s.stroke.seen
    exact this
  · have e1 : u.stroke.seen = s.stroke.seen := by rw [h.stroke]
    have e2 : u.stroke.count = s.stroke.count := by rw [h.stroke]
    simp only [mine, e1, e2]
  · exact taken_stroke u.stroke s.stroke h.stroke _ _ _

/-- What follows the phases at an edge, with nothing under way. -/
theorem edge_tail (v : State) (h1 : v.dev ≠ .securing) (h2 : v.run.startAt = none) (h3 : v.link.digestSent = false) (h4 : inRun v = true ∨ v.plan = none) :
    ∃ w, Calm { v with trace := { v.trace with moved := 0 } } w ∧
      readyStroke (keptCheck (digestCheck (startEdge (secureEdge v)))) = v ∧
      sendCatch (copyStroke (avsRequest 1 (avsRequest 0 { v with trace := { v.trace with moved := 0 } }))) = w ∧
      (∀ q ∈ activePorts w, ∃ h, Output.packet q.1 q.2 h (b8 v.stroke.count ++ b4 0 ++ b4 (b2n v.stroke.locked)) ∈ w.out) ∧
      (bitN (reg v 0x4000) 1 = true → Output.strokeOut ∈ w.out) := by
  have c := ((Calm.avsRequest 0 { v with trace := { v.trace with moved := 0 } }).trans (.avsRequest 1 _))
  have e1 : secureEdge v = v := by unfold secureEdge; rw [if_pos]; simpa using h1
  have e2 : startEdge v = v := by unfold startEdge; rw [h2]
  have e3 : digestCheck v = v := by
    unfold digestCheck
    split
    · rfl
    · extract_lets; rw [if_neg]; simp [h3]
  have e5 : keptCheck v = v := by
    unfold keptCheck; rw [if_neg]; simp [h1]
  have e4 : readyStroke v = v := by
    unfold readyStroke; rw [if_pos]
    rcases h4 with h | h <;> simp [h]
  refine ⟨_, ?_, ?_, rfl, ?_, ?_⟩
  · exact c.trans ((Calm.copyStroke _).trans (Calm.sendCatch _).1)
  · rw [e1, e2, e3, e5, e4]
  · have d := c.trans (Calm.copyStroke _)
    have := (Calm.sendCatch (copyStroke (avsRequest 1 (avsRequest 0 { v with trace := { v.trace with moved := 0 } }))))
    rw [activePorts_up this.1.ups]
    have hs := d.stroke
    intro q hq
    have := this.2.1 q hq
    rw [hs] at this
    exact this
  · intro hb
    refine (Calm.sendCatch _).2.2 ?_
    have d := (c.trans (Calm.copyStroke _)).regs
    unfold reg regW at *; rw [d]; exact hb

theorem arr_of {s u : State} (h : u.cores = s.cores) (c a : Nat) : arr u c a = arr s c a := by unfold arr core; rw [h]

theorem exch_of {s u : State} (h : exchSame u = exchSame s) (hp : u.plan = s.plan) (hr : u.red = s.red) :
    resultsHeld u 2 = resultsHeld s 2 ∧ carriedRings u = carriedRings s ∧ enabledCores u = enabledCores s := by
  unfold exchSame at h
  simp only [Prod.mk.injEq] at h
  obtain ⟨h1, h2, h3, h4, h5⟩ := h
  refine ⟨?_, ?_, ?_⟩
  · unfold resultsHeld liveCombiners myPos; rw [hp, hr, h2]
  · unfold carriedRings; rw [h3, h4, h5]
  · unfold enabledCores; rw [h1]
theorem lifeAdd_exch (o w n : Nat) (s : State) : exchSame (lifeAdd o w n s) = exchSame s := rfl
theorem edgeCount_spec (a : State) : ∃ b, b = { a with stroke := { a.stroke with
    count := (a.stroke.count + 1) % 2 ^ 48, guard := false, raised := false, ticks := a.stroke.ticks + 13 * periodNs a } } ∧
    Calm b (edgeCount a) ∧ (edgeCount a).cores = b.cores ∧ exchSame (edgeCount a) = exchSame b := by
  refine ⟨_, rfl, ?_⟩
  unfold edgeCount
  have key : ∀ b : State, Calm b (lifeAdd 0x18 8 1 (residencies b)) ∧ (lifeAdd 0x18 8 1 (residencies b)).cores = b.cores ∧
      exchSame (lifeAdd 0x18 8 1 (residencies b)) = exchSame b := fun b =>
    ⟨(Calm.residencies b).trans (.life ..), by rw [lifeAdd_cores, residencies_cores], (lifeAdd_exch ..).trans (residencies_exch b)⟩
  exact key _
/-- A stroke edge with nothing under way: all but the phases. `c` is the device before them, `m` after them. -/
theorem edge_spec (s : State) (P : PlainEdge s) :
    ∃ c, c.run = s.run ∧ c.plan = s.plan ∧ c.dev = s.dev ∧ c.regs = s.regs ∧ c.red = s.red ∧ c.link = { s.link with port := c.link.port } ∧
      c.cores = s.cores ∧ (∀ x, ¬ logRing x → memByte c x = memByte s x) ∧ c.stroke = { s.stroke with
        good := c.stroke.good, bad := c.stroke.bad, missed := c.stroke.missed, marker := c.stroke.marker, ticks := s.stroke.ticks + 13 * periodNs s
        raiser := c.stroke.raiser, seen := c.stroke.seen, count := (s.stroke.count + 1) % 2 ^ 48, guard := false, raised := false } ∧
      (resultsHeld c 2 = resultsHeld s 2 ∧ carriedRings c = carriedRings s ∧ enabledCores c = enabledCores s) ∧
      ∀ m, m = (if (s.stroke.seen.filter fun x => x.1 == s.stroke.count).isEmpty then nextPhase (slotEdge c) else easyEdge c) →
        m.dev = c.dev → m.run.startAt = none → m.link.digestSent = false → m.link.epoch = s.link.epoch → m.plan = c.plan → m.regs = c.regs →
        (∀ x, ¬ logRing x → memByte m x = memByte c x) →
        (∃ (e : Bool) (n r l k : Nat), m.stroke = { c.stroke with easy := e, easyRun := n, lastRaiser := r, lastEasy := l, slot := k }) →
        ∃ t, exec .strokeEdge s = .next t ∧ Ticked s t ∧ Calm { m with trace := { m.trace with moved := 0 } } t ∧ t.dev = s.dev := by
  obtain ⟨a, ha, E, a7, a8⟩ := edge_ends s
  have ep : periodNs a = periodNs s := by unfold periodNs reg regW; rw [show a.plan = s.plan from E.plan, show a.regs = s.regs from E.regs]
  have he : strokeEdge s = edgeRest (if (s.stroke.seen.filter fun x => x.1 == s.stroke.count).isEmpty then
      nextPhase (slotEdge (edgeCount a)) else easyEdge (edgeCount a)) := by
    unfold strokeEdge
    rw [ha]
    unfold edgeFrom
    rw [a7]
    cases (s.stroke.seen.filter fun x => x.1 == s.stroke.count).isEmpty <;> rfl
  obtain ⟨b, hb, hc, hk, hx⟩ := edgeCount_spec a
  generalize edgeCount a = c at hc hk he hx
  refine ⟨c, ?_⟩
  subst hb
  have sk : c.stroke = { s.stroke with
        good := c.stroke.good, bad := c.stroke.bad, missed := c.stroke.missed, marker := c.stroke.marker, ticks := s.stroke.ticks + 13 * periodNs s
        raiser := c.stroke.raiser, seen := c.stroke.seen, count := (s.stroke.count + 1) % 2 ^ 48, guard := false, raised := false } := by
    rw [hc.stroke]; dsimp only; rw [ep, a8]
  have lk : c.link = { s.link with port := c.link.port } := by rw [hc.link, show a.link = _ from E.link]
  refine ⟨hc.run.trans E.run, hc.plan.trans E.plan, hc.dev.trans E.dev, hc.regs.trans E.regs, hc.red.trans E.red, lk, hk.trans E.cores,
    fun x hx => (hc.mem x hx).trans (E.mem x hx), sk, exch_of (hx.trans E.exch) (hc.plan.trans E.plan) (hc.red.trans E.red), ?_⟩
  intro m hm m1 m2 m3 m3' m4 m5 m6 ⟨e, n, r, l, k, m7⟩
  have hd : c.dev = s.dev := hc.dev.trans E.dev
  have hp : c.plan = s.plan := hc.plan.trans E.plan
  have hr : c.regs = s.regs := hc.regs.trans E.regs
  obtain ⟨w, w1, w2, w3, w4, w5⟩ := edge_tail m (by rw [m1, hd]; exact P.dev.2.2) m2 m3
    (by rcases P.where_ with h | h; exact .inl (by unfold inRun at *; rw [m1, hd]; exact h); exact .inr (by rw [m4, hp]; exact h))
  have hf : Calm w (wakeAll (dueSnapshots w)) := (Calm.dueSnapshots w).trans (.wakeAll _)
  have ht : strokeEdge s = wakeAll (dueSnapshots w) := by
    rw [he, ← hm]; unfold edgeRest; dsimp only; rw [w2, w3]
  have W := w1.trans hf
  rw [← ht] at hf W
  have hl : (strokeEdge s).link.epoch = s.link.epoch := by
    rw [W.link]; exact m3'
  refine ⟨strokeEdge s, ?_, ?_, W, W.dev.trans (m1.trans hd)⟩
  · show execStrokeEdge s = _
    unfold execStrokeEdge
    rw [if_neg (by rw [P.aon]; decide), if_neg (by simp [P.dev.1, P.dev.2.1]), show atEpoch s (strokeEdge s) = strokeEdge s from if_pos hl]
  · have st : (strokeEdge s).stroke = m.stroke := W.stroke
    refine ⟨?_, ?_, ?_, ?_, W.plan.trans (m4.trans hp), W.regs.trans (m5.trans hr), fun x hx => (W.mem x hx).trans ((m6 x hx).trans ((hc.mem x hx).trans (E.mem x hx))), ?_, ?_⟩
    · rw [st, m7, sk]
    · rw [st, m7, sk]
    · rw [st, m7, sk]
    · rw [st, m7, sk]; exact ⟨rfl, rfl, rfl⟩
    · intro q hq
      rw [activePorts_up hf.ups] at hq
      obtain ⟨h, hh⟩ := w4 q hq
      exact ⟨h, by rw [st]; exact hf.sent.sent _ hh⟩
    · exact fun h => hf.sent.sent _ (w5 (by unfold reg regW at *; rw [m5, hr]; exact h))

theorem seen_empty {s : State} (h : ∀ r, (s.stroke.count, r) ∉ s.stroke.seen) : (s.stroke.seen.filter fun x => x.1 == s.stroke.count).isEmpty = true := by
  rw [List.isEmpty_iff, List.filter_eq_nil_iff]
  rintro ⟨a, b⟩ hx hb
  have : a = s.stroke.count := by simpa using hb
  exact h b (this ▸ hx)
theorem seen_some {s : State} {r : Nat} (h : (s.stroke.count, r) ∈ s.stroke.seen) : (s.stroke.seen.filter fun x => x.1 == s.stroke.count).isEmpty = false := by
  rw [List.isEmpty_eq_false_iff]
  exact List.ne_nil_of_mem (List.mem_filter.2 ⟨h, by simp⟩)
/-- An array with nothing left to do (R216). -/
def idleArr (A : ArrSt) : Prop := A.queue = [] ∧ A.streaming = false ∧ A.gap = .none

/-- What an EASY stroke brings to the cores: a planned gap on arrays with nothing left to do, trace and counting; no other array. -/
structure EasyArrs (s u : State) : Prop where
  rest : u = { s with cores := u.cores, cnt := u.cnt, log := u.log, host := u.host, trace := u.trace }
  mem : ∀ x, ¬ logRing x → memByte u x = memByte s x
  arrs : ∀ c a, arr u c a = arr s c a ∨ (idleArr (arr s c a) ∧ (arr u c a).gap = .planned)
theorem EasyArrs.refl (s : State) : EasyArrs s s := ⟨rfl, fun _ _ => rfl, fun _ _ => .inl rfl⟩
theorem EasyArrs.trans {s t u : State} (h : EasyArrs s t) (k : EasyArrs t u) : EasyArrs s u where
  rest := by rw [k.rest, h.rest]
  mem x hx := (k.mem x hx).trans (h.mem x hx)
  arrs c a := by
    rcases h.arrs c a with e | ⟨e1, e2⟩
    · rcases k.arrs c a with g | g
      · exact .inl (g.trans e)
      · rw [e] at g; exact .inr g
    · rcases k.arrs c a with g | g
      · exact .inr ⟨e1, by rw [g]; exact e2⟩
      · rw [g.1.2.2] at e2; cases e2
theorem EasyArrs.kept {s u : State} (h : EasyArrs s u) {c a : Nat} (g : (arr s c a).gap = .planned) : (arr u c a).gap = .planned := by
  rcases h.arrs c a with e | e
  · rw [e]; exact g
  · exact e.2
theorem EasyArrs.trace (c thr typ arg d0 d1 : Nat) (s : State) : EasyArrs s (traceRec c thr typ arg d0 d1 s) := by
  obtain ⟨T, h⟩ := traceRec_eq c thr typ arg d0 d1 s
  exact ⟨by rw [h.rest], fun x hx => (h.mem x hx).trans rfl, fun c a => .inl (by unfold arr core; rw [h.rest])⟩
theorem EasyArrs.one (c a : Nat) (s : State) (hu : underSchedule s = true) :
    EasyArrs s (easyArray c a s) ∧ (idleArr (arr s c a) → (arr (easyArray c a s) c a).gap = .planned) := by
  unfold easyArray
  extract_lets A
  have hi : (A.queue.isEmpty && !A.streaming && A.gap == .none) = true ↔ idleArr A := by
    unfold idleArr
    rw [Bool.and_eq_true, Bool.and_eq_true, List.isEmpty_iff, Bool.not_eq_true', beq_iff_eq, and_assoc]
  have gp : (arr (beginGap c a (strokeCycles s) s) c a).gap = .planned := by
    unfold beginGap
    rw [if_neg (by simp [hu])]
    split
    · rw [arr_bump, arr_modArr_self]
    · rw [arr_modArr_self]
  by_cases h : idleArr A
  · rw [if_pos (hi.2 h)]
    have G := GapsOnly.beginGap c a (strokeCycles s) s
    refine ⟨⟨G.rest, G.mem, fun d b => ?_⟩, fun _ => gp⟩
    by_cases hd : d = c
    · subst hd
      by_cases hb : b = a
      · subst hb; exact .inr ⟨h, gp⟩
      · exact .inl (arr_beginGap_ne _ hb)
    · exact .inl (by unfold arr; rw [G.cores d hd])
  · rw [if_neg fun e => h (hi.1 e)]
    exact ⟨.refl s, fun e => absurd e h⟩
theorem EasyArrs.under {s u : State} (h : EasyArrs s u) : underSchedule u = underSchedule s := by unfold underSchedule; rw [h.rest]
theorem EasyArrs.gone {s u : State} (h : EasyArrs s u) {c a : Nat} (hi : idleArr (arr s c a)) : idleArr (arr u c a) ∨ (arr u c a).gap = .planned := by
  rcases h.arrs c a with e | e
  · rw [e]; exact .inl hi
  · exact .inr e.2
theorem EasyArrs.row (c : Nat) (l : List Nat) (s : State) (hu : underSchedule s = true) :
    EasyArrs s (l.foldl (fun u a => easyArray c a u) s) ∧
    ∀ a ∈ l, idleArr (arr s c a) → (arr (l.foldl (fun u a => easyArray c a u) s) c a).gap = .planned := by
  induction l generalizing s with
  | nil => exact ⟨.refl s, fun a h => absurd h List.not_mem_nil⟩
  | cons b l ih =>
    rw [List.foldl_cons]
    obtain ⟨h1, h2⟩ := EasyArrs.one c b s hu
    obtain ⟨k1, k2⟩ := ih (easyArray c b s) (h1.under.trans hu)
    refine ⟨h1.trans k1, fun a ha hi => ?_⟩
    rcases List.mem_cons.1 ha with rfl | ha
    · exact k1.kept (h2 hi)
    · rcases h1.gone hi with g | g
      · exact k2 a ha g
      · exact k1.kept g
/-- One core at an EASY edge. -/
def easyCore (t : State) (c : Nat) : State :=
  (List.range 4).foldl (fun u a => easyArray c a u) (traceRec c 0 3 0 t.stroke.count t.stroke.raiser t)
theorem EasyArrs.ofCore (c : Nat) (s : State) (hu : underSchedule s = true) : EasyArrs s (easyCore s c) ∧
    ∀ a, a < 4 → idleArr (arr s c a) → (arr (easyCore s c) c a).gap = .planned := by
  have T := EasyArrs.trace c 0 3 0 s.stroke.count s.stroke.raiser s
  unfold easyCore
  obtain ⟨h1, h2⟩ := EasyArrs.row c (List.range 4) _ (T.under.trans hu)
  refine ⟨T.trans h1, fun a ha hi => ?_⟩
  rcases T.gone hi with g | g
  · exact h2 a (List.mem_range.2 ha) g
  · exact h1.kept g
theorem EasyArrs.cores (l : List Nat) (s : State) (hu : underSchedule s = true) : EasyArrs s (l.foldl easyCore s) ∧
    ∀ c ∈ l, ∀ a, a < 4 → idleArr (arr s c a) → (arr (l.foldl easyCore s) c a).gap = .planned := by
  induction l generalizing s with
  | nil => exact ⟨.refl s, fun a h => absurd h List.not_mem_nil⟩
  | cons b l ih =>
    rw [List.foldl_cons]
    obtain ⟨h1, h2⟩ := EasyArrs.ofCore b s hu
    obtain ⟨k1, k2⟩ := ih (easyCore s b) (h1.under.trans hu)
    refine ⟨h1.trans k1, fun c hc a ha hi => ?_⟩
    rcases List.mem_cons.1 hc with rfl | hc
    · exact k1.kept (h2 a ha hi)
    · rcases h1.gone hi with g | g
      · exact k2 c hc a ha g
      · exact k1.kept g

/-- An EASY stroke begins (R216). -/
theorem easyEdge_spec (c : State) (hu : underSchedule c = true) : ∃ m, easyEdge c = m ∧ m.dev = c.dev ∧ m.run = { c.run with easy := c.run.easy + 1 } ∧
    m.plan = c.plan ∧ m.regs = c.regs ∧ m.link = c.link ∧ m.red = c.red ∧ (∀ x, ¬ logRing x → memByte m x = memByte c x) ∧
    m.stroke = { c.stroke with easy := true, easyRun := c.stroke.easyRun + 1, lastRaiser := c.stroke.raiser, lastEasy := c.stroke.count } ∧
    (∀ k a, ¬ idleArr (arr c k a) → arr m k a = arr c k a) ∧
    ∀ k a, k < enabledCores c → a < 4 → idleArr (arr c k a) → (arr m k a).gap = .planned := by
  have key : ∀ s1 : State, s1 = { c with
        stroke := { c.stroke with easy := true, easyRun := c.stroke.easyRun + 1, lastRaiser := c.stroke.raiser, lastEasy := c.stroke.count }
        run := { c.run with easy := c.run.easy + 1 } } →
      ∃ s2, s2 = lifeAdd 0x30 8 1 (bump (cntDev 1) 1 s1) ∧ CountsOnly s1 { s2 with mgmt := s1.mgmt } ∧ enabledCores s2 = enabledCores c := by
    intro s1 h
    have B := bump_countsOnly (cntDev 1) 1 s1
    refine ⟨_, rfl, ⟨?_, B.host, B.mem⟩, ?_⟩
    · show ({ Machine.bump (cntDev 1) 1 s1 with mgmt := s1.mgmt } : State) = _
      rw [B.rest]; rfl
    · show enabledCores (Machine.bump (cntDev 1) 1 s1) = _
      rw [show enabledCores (Machine.bump (cntDev 1) 1 s1) = enabledCores s1 by unfold enabledCores; rw [B.rest], h]; rfl
  obtain ⟨s2, e2, C, ce⟩ := key _ rfl
  have he : easyEdge c = (List.range (enabledCores s2)).foldl easyCore s2 := by rw [e2]; rfl
  have hu2 : underSchedule s2 = true := by
    rw [← hu]; show underSchedule { s2 with mgmt := c.mgmt } = _
    rw [C.rest]; rfl
  obtain ⟨E, F⟩ := EasyArrs.cores (List.range (enabledCores s2)) s2 hu2
  rw [← he] at E F
  clear he e2
  have p := C.parts
  have ar : ∀ k a, arr s2 k a = arr c k a := fun k a => arr_of (show ({ s2 with mgmt := c.mgmt } : State).cores = c.cores by rw [C.rest]) k a
  refine ⟨_, rfl, ?_, ?_, ?_, ?_, ?_, ?_, fun x hx => (E.mem x hx).trans (C.mem x hx), ?_, fun k a hi => ?_, fun k a hk ha hi => ?_⟩
  · rw [E.rest]; show ({ s2 with mgmt := c.mgmt } : State).dev = _; rw [C.rest]
  · rw [E.rest]; show ({ s2 with mgmt := c.mgmt } : State).run = _; rw [C.rest]
  · rw [E.rest]; show ({ s2 with mgmt := c.mgmt } : State).plan = _; rw [C.rest]
  · rw [E.rest]; show ({ s2 with mgmt := c.mgmt } : State).regs = _; rw [C.rest]
  · rw [E.rest]; show ({ s2 with mgmt := c.mgmt } : State).link = _; rw [C.rest]
  · rw [E.rest]; show ({ s2 with mgmt := c.mgmt } : State).red = _; rw [C.rest]
  · rw [E.rest]; show ({ s2 with mgmt := c.mgmt } : State).stroke = _; rw [C.rest]
  · rcases E.arrs k a with e | e
    · exact e.trans (ar k a)
    · rw [ar k a] at e; exact absurd e.1 hi
  · exact F k (List.mem_range.2 (by rw [ce]; exact hk)) a ha (by rw [ar]; exact hi)
theorem slotEdge_out {c : State} (h : inRun c = false) : slotEdge c = { c with stroke := { c.stroke with easy := false, easyRun := 0 } } := by
  unfold slotEdge
  extract_lets _ s1
  rw [if_pos]
  show (!inRun s1) = true
  rw [show inRun s1 = inRun c from rfl, h]; rfl
theorem slotEdge_goes {c : State} (h : inRun c = true) (hh : slotHeld c = false) :
    slotEdge c = { c with stroke := { c.stroke with easy := false, easyRun := 0, slot := c.stroke.slot + 1 } } := by
  unfold slotEdge
  extract_lets _ s1
  rw [if_neg, if_neg]
  · show ¬ slotHeld s1 = true
    rw [show slotHeld s1 = slotHeld c from rfl, hh]; simp
  · show ¬ (!inRun s1) = true
    rw [show inRun s1 = inRun c from rfl, h]; simp
theorem slotEdge_holds {c : State} (h : inRun c = true) (hh : slotHeld c = true) (hp : c.run.phase = .reduction) :
    ∃ m, slotEdge c = m ∧ m.dev = c.dev ∧ m.run = { c.run with redExt := c.run.redExt + 1 } ∧ m.plan = c.plan ∧ m.regs = c.regs ∧
    m.link = c.link ∧ m.red = c.red ∧ (∀ x, ¬ logRing x → memByte m x = memByte c x) ∧ m.stroke = { c.stroke with easy := false, easyRun := 0 } := by
  refine ⟨_, rfl, ?_⟩
  unfold slotEdge
  extract_lets _ s1
  rw [if_neg, if_pos, if_pos]
  · have h := bump_countsOnly (cntDev 4) 1 { s1 with run := { s1.run with redExt := s1.run.redExt + 1 } }
    have p := h.parts
    exact ⟨p.2.2.2.2.2.2.2.2.2.1, p.2.2.1, by rw [h.rest], p.2.2.2.2.2.2.2.1, p.2.2.2.2.2.2.1, by rw [h.rest], h.mem, by rw [h.rest]⟩
  · show (c.run.phase == .reduction) = true
    rw [hp]; rfl
  · show slotHeld c = true
    exact hh
  · show ¬ (!inRun c) = true
    rw [h]; simp
theorem FlowOnly.forEach {α : Type} {f : α → State → State} (hf : ∀ x u, FlowOnly u (f x u)) (l : List α) (s : State) : FlowOnly s (forEach l f s) := by
  unfold Machine.forEach
  induction l generalizing s with
  | nil => exact .refl s
  | cons x l ih => exact (hf x s).trans (ih _)
theorem nextPhase_compute {c : State} {p : Plan} (hp : c.plan = some p) (h : c.run.phase = .compute) (hs : slotsIn c < p.c) : nextPhase c = c := by
  unfold nextPhase; rw [hp, h]; dsimp only; rw [if_pos hs]
theorem nextPhase_waits {c : State} {p : Plan} (hp : c.plan = some p) (h : c.run.phase = .reduction) (hs : c.run.redDone = false) : nextPhase c = c := by
  unfold nextPhase; rw [hp, h]; dsimp only; rw [hs]; rfl
theorem nextPhase_update {c : State} {p : Plan} (hp : c.plan = some p) (h : c.run.phase = .reduction) (hs : c.run.redDone = true) :
    nextPhase c = combineRound 1 (setPhase .update c) := by
  unfold nextPhase; rw [hp, h]; dsimp only; rw [if_pos hs]
theorem nextPhase_exchange {c : State} {p : Plan} (hp : c.plan = some p) (h : c.run.phase = .distribution) (hs : c.run.distDone = true) :
    nextPhase c = startExchange (setPhase .exchange c) := by
  unfold nextPhase; rw [hp, h]; dsimp only; rw [if_pos hs]
theorem nextPhase_boundary {c : State} {p : Plan} (hp : c.plan = some p) (h : c.run.phase = .exchange) (hs : p.x ≤ slotsIn c)
    (hr : resultsHeld c 2 = true) : nextPhase c = setPhase .boundary c := by
  unfold nextPhase; rw [hp, h]; dsimp only; rw [if_neg]
  simp [hr, Nat.not_lt.2 hs]
theorem nextPhase_stays {c : State} {p : Plan} (hp : c.plan = some p) (h : c.run.phase = .exchange)
    (hr : slotsIn c < p.x ∨ resultsHeld c 2 = false) : nextPhase c = c := by
  unfold nextPhase; rw [hp, h]; dsimp only; rw [if_pos]
  rcases hr with hr | hr <;> simp [hr]

/-- What the guard point brings when it holds nothing: EASY markers, legs behind, and what sending and counting bring. -/
structure EasyOnly (s u : State) : Prop where
  rest : u = { s with
    stroke := { s.stroke with seen := u.stroke.seen },
    cnt := u.cnt, log := u.log, host := u.host, out := u.out, link := { s.link with port := u.link.port, behindLogged := u.link.behindLogged } }
  grows : Grows s u
  up : SameUp s u
  mem : ∀ x, ¬ logRing x → memByte u x = memByte s x
theorem EasyOnly.refl (s : State) : EasyOnly s s := ⟨rfl, .refl s, .refl s, fun _ _ => rfl⟩
theorem EasyOnly.trans {s t u : State} (h : EasyOnly s t) (k : EasyOnly t u) : EasyOnly s u :=
  ⟨by rw [k.rest, h.rest], h.grows.trans k.grows, h.up.trans k.up, fun x hx => (k.mem x hx).trans (h.mem x hx)⟩
theorem EasyOnly.counts {s u : State} (h : CountsOnly s u) : EasyOnly s u :=
  ⟨by rw [h.rest], .of h.parts.2.2.2.2.2.2.2.2.2.2.1, .of fun q => port_of h.parts.2.2.2.2.2.2.1 q, h.mem⟩
theorem EasyOnly.fold {α : Type} {f : State → α → State} (hf : ∀ u x, EasyOnly u (f u x)) (l : List α) (s : State) : EasyOnly s (l.foldl f s) := by
  induction l generalizing s with
  | nil => exact .refl s
  | cons x l ih => exact (hf s x).trans (ih _)
theorem EasyOnly.ite {s a b : State} {p : Prop} [Decidable p] (h1 : EasyOnly s a) (h2 : EasyOnly s b) : EasyOnly s (if p then a else b) := by
  split <;> assumption
theorem EasyOnly.sendCtl {p b : Nat} {h : PktHdr} (hc : h.cls = 0) (body : List Byte) (s : State) : EasyOnly s (sendOn p b h body s) :=
  ⟨by rw [(NetOnly.sendOn p b h body s).rest], .sendOn .., .sendCtl hc .., (NetOnly.sendOn p b h body s).mem⟩
theorem EasyOnly.floodEasy (n r : Nat) (s : State) : EasyOnly s (floodEasy n r s) := by
  unfold Machine.floodEasy
  refine .ite (.refl s) ?_
  extract_lets _ s1
  refine EasyOnly.trans (t := s1) ⟨rfl, .of rfl, .of fun _ => rfl, fun _ _ => rfl⟩ ?_
  unfold Machine.flood Machine.forEach
  exact .fold (fun u x => .sendCtl rfl ..) _ _
theorem EasyOnly.raiseEasy (u : Bool) (s : State) : EasyOnly s (raiseEasy u s) := by
  unfold Machine.raiseEasy
  refine .ite (.refl s) (.ite (.floodEasy ..) (.ite ?_ (.refl s)))
  exact EasyOnly.trans (.counts (bump_countsOnly (cntDev 2) 1 s)) (.floodEasy ..)
theorem EasyOnly.modPort (p : Nat) (f : PortSt → PortSt) (hf : ∀ P, (f P).sub0 = P.sub0 ∧ (f P).sub1 = P.sub1) (s : State) : EasyOnly s (modPort p f s) := by
  refine ⟨rfl, .of rfl, ⟨fun q c => ?_⟩, fun _ _ => rfl⟩
  unfold subp
  by_cases h : q = p
  · subst h; rw [port_modPort_self]; unfold subOf; rw [(hf _).1, (hf _).2]
  · rw [port_modPort_ne _ _ h]
theorem EasyOnly.showBehind (l : List FlowCtx) (s : State) : EasyOnly s (showBehind l s) := by
  unfold Machine.showBehind
  refine .fold (fun u x => ?_) _ _
  exact .modPort x (fun P => { P with behind := l.any fun f => f.port == x }) (fun _ => ⟨rfl, rfl⟩) u
theorem EasyOnly.logBehind (f : FlowCtx) (s : State) : EasyOnly s (logBehind f s) := by
  unfold Machine.logBehind
  refine .ite (.refl s) ?_
  refine EasyOnly.trans (t := Machine.bump (cntPort f.port 13) 1 { s with link := { s.link with behindLogged := s.link.behindLogged ++ [f.id] } })
    (EasyOnly.trans (t := { s with link := { s.link with behindLogged := s.link.behindLogged ++ [f.id] } }) ⟨rfl, .of rfl, .of fun _ => rfl, fun _ _ => rfl⟩
      (.counts (bump_countsOnly ..))) (.counts (logEv_countsOnly ..))
theorem EasyOnly.markBehind (s : State) : EasyOnly s (markBehind s) :=
  (EasyOnly.showBehind ..).trans (.fold (fun u x => .logBehind x u) _ _)
theorem floodEasy_seen (n r : Nat) (s : State) : (n, r) ∈ (floodEasy n r s).stroke.seen ∧
    ((n, r) ∉ s.stroke.seen → ∀ x ∈ activePorts s, ∃ h, Output.packet x.1 x.2 h (easyBody n r) ∈ (floodEasy n r s).out) := by
  unfold floodEasy
  by_cases hm : (n, r) ∈ s.stroke.seen
  · rw [if_pos (by simpa using hm)]; exact ⟨hm, fun h => absurd hm h⟩
  · rw [if_neg (by simpa using hm)]
    extract_lets _ s1
    refine ⟨?_, fun _ x hx => flood_sends 1 _ s1 x hx⟩
    rw [(NetOnly.flood 1 (easyBody n r) s1).rest]
    show (n, r) ∈ s.stroke.seen ++ [(n, r)]
    simp
theorem stroke_fold {α : Type} (f : State → α → State) (hf : ∀ u x, (f u x).stroke = u.stroke) (l : List α) (s : State) : (l.foldl f s).stroke = s.stroke := by
  induction l generalizing s with
  | nil => rfl
  | cons x l ih => exact (ih _).trans (hf s x)
theorem logBehind_stroke (f : FlowCtx) (s : State) : (logBehind f s).stroke = s.stroke := by
  unfold logBehind
  split
  · rfl
  · rw [(logEv_countsOnly ..).parts.2.2.2.2.2.2.2.2.2.2.2.2.1, (bump_countsOnly ..).parts.2.2.2.2.2.2.2.2.2.2.2.2.1]
theorem showBehind_stroke (l : List FlowCtx) (s : State) : (showBehind l s).stroke = s.stroke := by
  unfold showBehind
  refine stroke_fold _ ?_ _ _
  intro u x
  rfl
theorem markBehind_seen (s : State) : (markBehind s).stroke.seen = s.stroke.seen := by
  unfold markBehind
  rw [stroke_fold _ (fun u x => logBehind_stroke x u)]
  rw [showBehind_stroke]

/-! The failure paths that a hold records. -/

theorem PathsOnly.refl (s : State) : PathsOnly s s := ⟨rfl, rfl, fun _ h => h, rfl⟩
theorem PathsOnly.trans {s t u : State} (h : PathsOnly s t) (k : PathsOnly t u) : PathsOnly s u :=
  ⟨by rw [k.rest, h.rest], by rw [k.res, h.res], fun f hf => k.paths f (h.paths f hf), by rw [k.host, h.host]⟩
theorem PathsOnly.fold {α : Type} {f : State → α → State} (hf : ∀ u x, PathsOnly u (f u x)) (l : List α) (s : State) : PathsOnly s (l.foldl f s) := by
  induction l generalizing s with
  | nil => exact .refl s
  | cons x l ih => exact (hf s x).trans (ih _)
theorem PathsOnly.ite {s a b : State} {p : Prop} [Decidable p] (h1 : PathsOnly s a) (h2 : PathsOnly s b) : PathsOnly s (if p then a else b) := by
  split <;> assumption
theorem PathsOnly.counts {s u : State} (h : CountsOnly s u) : PathsOnly s u :=
  ⟨by rw [h.rest], by rw [h.parts.2.2.2.1], fun f hf => by rw [h.parts.2.2.2.1]; exact hf, h.host⟩
theorem PathsOnly.add (f : FailPath) (s : State) : PathsOnly s (addPath f s) := by
  unfold addPath; exact .ite (.refl s) ⟨rfl, rfl, fun _ h => List.mem_append_left _ h, rfl⟩
theorem addPath_mem (f : FailPath) (s : State) : f ∈ (addPath f s).res.paths := by
  unfold addPath
  split
  · next h => simpa using h
  · exact List.mem_append_right _ (List.mem_singleton.2 rfl)
theorem addPath_memory (f : FailPath) (s : State) : (addPath f s).mem = s.mem := by unfold addPath; split <;> rfl
theorem counts_memory {s u : State} (h : CountsOnly s u) : u.mem = s.mem := by rw [h.rest]
theorem forEach_counts {α : Type} {f : α → State → State} (hf : ∀ x u, CountsOnly u (f x u)) (l : List α) (s : State) : CountsOnly s (forEach l f s) := by
  unfold forEach
  induction l generalizing s with
  | nil => exact .refl s
  | cons x l ih => exact (hf x s).trans (ih _)
theorem countTest_counts (c : Nat) (s : State) : CountsOnly s (countTest c s) := by
  unfold countTest
  split
  · exact .refl s
  · exact forEach_counts (fun x u => bump_countsOnly ..) _ _
/-- What a faulted core records. -/
def coreFault (t : State) (c : Nat) : State :=
  addPath (if customFault t c then { code := 0, pos := myPos t, part := c, arg := 6 }
    else { code := 5, pos := myPos t, part := c, arg := b2n (t.res.selfTest.any fun x => x / 4 == c) }) (countTest c t)
theorem coreFault_spec (c : Nat) (s : State) : PathsOnly s (coreFault s c) ∧ (coreFault s c).mem = s.mem ∧
    (customFault s c = false → ({ code := 5, pos := myPos s, part := c, arg := b2n (s.res.selfTest.any fun x => x / 4 == c) } : FailPath) ∈ (coreFault s c).res.paths) := by
  refine ⟨(PathsOnly.counts (countTest_counts c s)).trans (.add ..), (addPath_memory ..).trans (counts_memory (countTest_counts c s)), fun h => ?_⟩
  have := addPath_mem (if customFault s c then { code := 0, pos := myPos s, part := c, arg := 6 }
    else { code := 5, pos := myPos s, part := c, arg := b2n (s.res.selfTest.any fun x => x / 4 == c) }) (countTest c s)
  rw [h, if_neg (by simp)] at this
  unfold coreFault
  rw [h, if_neg (by simp)]
  exact this
theorem coreFaults_spec (l : List Nat) (s : State) : PathsOnly s (l.foldl coreFault s) ∧ (l.foldl coreFault s).mem = s.mem ∧
    ∀ c ∈ l, customFault s c = false →
      ({ code := 5, pos := myPos s, part := c, arg := b2n (s.res.selfTest.any fun x => x / 4 == c) } : FailPath) ∈ (l.foldl coreFault s).res.paths := by
  induction l generalizing s with
  | nil => exact ⟨.refl s, rfl, fun c h => absurd h List.not_mem_nil⟩
  | cons x l ih =>
    rw [List.foldl_cons]
    obtain ⟨h1, h2, h3⟩ := coreFault_spec x s
    obtain ⟨k1, k2, k3⟩ := ih (coreFault s x)
    refine ⟨h1.trans k1, k2.trans h2, fun c hc hf => ?_⟩
    rcases List.mem_cons.1 hc with rfl | hc
    · exact k1.paths _ (h3 hf)
    · have e1 : customFault (coreFault s x) c = customFault s c := by unfold customFault thread core isCustom; rw [h1.rest]; rfl
      have e2 : myPos (coreFault s x) = myPos s := by unfold myPos; rw [h1.rest]
      have e3 : (coreFault s x).res.selfTest = s.res.selfTest := by rw [h1.res]
      have := k3 c hc (e1.trans hf)
      rw [e2, e3] at this
      exact this
theorem faultPaths_spec (s : State) : PathsOnly s (faultPaths s) ∧ (faultPaths s).mem = s.mem ∧
    ∀ c ∈ faultedCores s, customFault s c = false →
      ({ code := 5, pos := myPos s, part := c, arg := b2n (s.res.selfTest.any fun x => x / 4 == c) } : FailPath) ∈ (faultPaths s).res.paths := by
  obtain ⟨h1, h2, h3⟩ := coreFaults_spec (faultedCores s) s
  unfold faultPaths
  extract_lets s1 s2
  have e : s1 = (faultedCores s).foldl coreFault s := rfl
  rw [← e] at h1 h2 h3
  clear_value s1
  have k : PathsOnly s1 s2 ∧ s2.mem = s1.mem := by
    unfold s2; split
    · exact ⟨.add .., addPath_memory ..⟩
    · exact ⟨.refl _, rfl⟩
  clear_value s2
  split
  · exact ⟨h1.trans (k.1.trans (.add ..)), (addPath_memory ..).trans (k.2.trans h2), fun c hc hf => (PathsOnly.add ..).paths _ (k.1.paths _ (h3 c hc hf))⟩
  · exact ⟨h1.trans k.1, k.2.trans h2, fun c hc hf => k.1.paths _ (h3 c hc hf)⟩
theorem PathsOnly.buddy (a : Nat) (s : State) : PathsOnly s (buddyHit a s) := by
  have h := buddyHit_res a s
  have hp : (buddyHit a s).res.paths = s.res.paths := by rw [h]
  exact ⟨by rw [h], by rw [h], fun f hf => by rw [hp]; exact hf, by rw [h]⟩
theorem PathsOnly.memory {s u : State} (h : MemOnly s u) : PathsOnly s u :=
  ⟨by rw [h.rest], by rw [h.rest], fun f hf => by rw [show u.res = s.res by rw [h.rest]]; exact hf, h.host⟩
theorem PathsOnly.planner (s : State) : PathsOnly s (plannerCopied s) := .memory ((MemOnly.memStore ..).trans (.memWrite ..))
theorem PathsOnly.cls (k : DataClass) (a : Nat) (s : State) : PathsOnly s (classPath k a s) := by
  cases k
  · exact .add _ s
  · exact .add _ s
  · exact .add _ s
  · exact .add _ s
  · exact .buddy ..
  · exact .ite (.planner s) (.refl s)
theorem PathsOnly.poison (x : Nat × Nat) (s : State) : PathsOnly s (poisonPath x s) := by
  unfold poisonPath
  exact .ite (.add ..) (.cls ..)
theorem classPath_memory {k : DataClass} {a : Nat} {s : State} (h : ¬ (plannerCopy s ≤ a ∧ a < traceRegion s)) : (classPath k a s).mem = s.mem := by
  cases k
  · exact addPath_memory ..
  · exact addPath_memory ..
  · exact addPath_memory ..
  · exact addPath_memory ..
  · show (buddyHit a s).mem = _
    rw [buddyHit_res]
  · show (if _ then _ else _ : State).mem = _
    rw [if_neg h]
theorem poisons_memory (l : List (Nat × Nat)) (s : State) (h : ∀ x ∈ l, ¬ (plannerCopy s ≤ x.1 ∧ x.1 < traceRegion s)) :
    (l.foldl (fun t a => poisonPath a t) s).mem = s.mem := by
  induction l generalizing s with
  | nil => rfl
  | cons x l ih =>
    have P := PathsOnly.poison x s
    have e1 : plannerCopy (poisonPath x s) = plannerCopy s := by
      show fromTop _ _ = _
      rw [P.rest]; rfl
    have e2 : traceRegion (poisonPath x s) = traceRegion s := by
      show fromTop _ _ = _
      rw [P.rest]; rfl
    rw [List.foldl_cons, ih _ (fun y hy => by rw [e1, e2]; exact h y (List.mem_cons_of_mem _ hy))]
    unfold poisonPath
    split
    · exact addPath_memory ..
    · exact classPath_memory (h x (List.mem_cons_self ..))

theorem sget_all {α : Type} (P : α → Prop) (d : Nat → α) (l : List (Nat × α)) (k : Nat) (hd : P (d k)) (h : ∀ x ∈ l, P x.2) : P (sget d l k) := by
  induction l with
  | nil => exact hd
  | cons x l ih =>
    unfold sget
    split
    · exact h x (List.mem_cons_self ..)
    · exact ih fun y hy => h y (List.mem_cons_of_mem _ hy)
theorem stopThreads_thread (s : State) (c v : Nat) : (thread (stopThreads s) c v).state = .stopped := by
  unfold thread
  refine sget_all (fun (x : Thread) => x.state = .stopped) _ _ _ rfl ?_
  have : ∀ (C : CoreSt), (∀ x ∈ C.threads, x.2.state = .stopped) → ∀ x ∈ C.threads, x.2.state = .stopped := fun _ h => h
  refine sget_all (fun (C : CoreSt) => ∀ x ∈ C.threads, x.2.state = .stopped) coreD _ c (fun x hx => absurd hx List.not_mem_nil) ?_
  unfold stopThreads
  intro x hx y hy
  obtain ⟨z, hz, rfl⟩ := List.mem_map.1 (List.mem_filter.1 hx).1
  unfold stopCore at hy
  obtain ⟨w, hw, rfl⟩ := List.mem_map.1 (List.mem_filter.1 hy).1
  rfl
theorem abortPasses_pass (s : State) (d : Nat) : (desc (abortPasses s) d).pass = none := by
  unfold desc
  refine sget_all (fun (x : DescSt) => x.pass = none) descD _ d rfl ?_
  unfold abortPasses
  intro x hx
  obtain ⟨z, hz, rfl⟩ := List.mem_map.1 hx
  dsimp only
  split
  · rfl
  · next h => cases hp : z.2.pass with
    | none => rfl
    | some p => rw [hp] at h; exact absurd rfl h
theorem SumsOnly.refl (s : State) : SumsOnly s s := ⟨rfl, fun _ _ => rfl⟩
theorem SumsOnly.trans {s t u : State} (h : SumsOnly s t) (k : SumsOnly t u) : SumsOnly s u :=
  ⟨by rw [k.rest, h.rest], fun x hx => (k.mem x hx).trans (h.mem x hx)⟩
theorem SumsOnly.flow {s u : State} (h : FlowOnly s u) : SumsOnly s u := ⟨by rw [h.rest], h.mem⟩
theorem SumsOnly.forEach {α : Type} {f : α → State → State} (hf : ∀ x u, SumsOnly u (f x u)) (l : List α) (s : State) : SumsOnly s (forEach l f s) := by
  unfold Machine.forEach
  induction l generalizing s with
  | nil => exact .refl s
  | cons x l ih => exact (hf x s).trans (ih _)
theorem SumsOnly.sendPart (i : Nat) (v : SumVal) (s : State) : SumsOnly s (sendPart i v s) := by
  unfold Machine.sendPart
  split
  · exact .refl s
  · split
    · exact ⟨rfl, fun _ _ => rfl⟩
    · split
      · exact .flow (.sendReduce ..)
      · exact .refl s
theorem SumsOnly.closeRound (n : Nat) (s : State) : SumsOnly s (closeRound n s) := by
  unfold Machine.closeRound
  refine .forEach (fun q u => ?_) _ _
  split
  · exact ⟨rfl, fun _ _ => rfl⟩
  · split
    · exact .flow (.sendReduce ..)
    · exact .refl u
theorem SumsOnly.combineRound (k : Nat) (s : State) : SumsOnly s (combineRound k s) := by
  by_cases h : s.red.combined.contains k = false ∧ (liveCombiners s).contains (myPos s) = true ∧ roundReady s k = true
  · obtain ⟨-, -, -, F⟩ := combineRound_spec h
    revert F
    generalize Machine.combineRound k s = u
    intro F
    exact ⟨by rw [F.rest], F.mem⟩
  · rw [combineRound_open h]; exact .refl s
/-- The boundary exchange begins: parts go out, and the rings whose commands it carries are noted (R31, R33). -/
theorem startExchange_only (s : State) :
    SumsOnly { s with run := { s.run with carried := carriedRings s, sentRisk := s.res.risk } } (startExchange s) := by
  unfold startExchange
  extract_lets _ s1 d s2 s3
  have h2 : SumsOnly s1 s2 := .forEach (fun x u => .sendPart ..) _ _
  have h3 : SumsOnly s2 s3 := .forEach (fun x u => .sendPart ..) _ _
  exact h2.trans (h3.trans ((SumsOnly.sendPart ..).trans ((SumsOnly.closeRound ..).trans ((SumsOnly.combineRound ..).trans (.combineRound ..)))))
theorem counts_of_mem {s u : State} (h : SumsOnly s u) : u.mem = s.mem := by rw [h.rest]

/-- The device as a hold leaves it before the exchange of its boundary. -/
def stopped (cause : Nat) (s : State) : State :=
  { dropDecisions (stopThreads (abortPasses s)) with
    run := { s.run with holdDue := 0, heldCause := cause, boundDone := false, boundWait := false, enter := true, moments := []
                        bookWrites := [], booksDone := [], converted := [], norms := [], losses32 := []
                        phase := .boundary, phaseStart := s.stroke.count, slotStart := s.stroke.slot }
    red := { scalesKnown := s.red.scalesKnown }, collectors := []
    link := { s.link with ctl := [], credit := [], legsDone := [], failedLegs := [], behindLogged := [], epoch := (s.link.epoch + 1) % 65536 } }
theorem stopped_same (cause : Nat) (s : State) : (stopped cause s).stroke = s.stroke ∧ (stopped cause s).dev = s.dev ∧ (stopped cause s).plan = s.plan ∧
    (stopped cause s).regs = s.regs ∧ (stopped cause s).adm = s.adm ∧ (stopped cause s).sources = s.sources ∧ (stopped cause s).cox = s.cox ∧
    (stopped cause s).host = s.host := by
  unfold stopped
  refine ⟨?_, ?_, ?_, ?_, ?_, ?_, ?_, ?_⟩ <;> rfl
theorem holdNow_eq (cause : Nat) (s : State) : holdNow cause s = startExchange (stopped cause s) := rfl
theorem holdNow_spec (cause : Nat) (s : State) : Held cause s (holdNow cause s) ∧ (holdNow cause s).mem = s.mem := by
  have hd := abortPasses_pass s
  have ht := stopThreads_thread (abortPasses s)
  rw [holdNow_eq]
  have w : (stopped cause s).stm = (abortPasses s).stm ∧ (stopped cause s).cores = (stopThreads (abortPasses s)).cores ∧
      (stopped cause s).run = { s.run with
                        holdDue := 0, heldCause := cause, boundDone := false, boundWait := false, enter := true, moments := []
                        bookWrites := [], booksDone := [], converted := [], norms := [], losses32 := []
                        phase := .boundary, phaseStart := s.stroke.count, slotStart := s.stroke.slot } ∧
      (stopped cause s).red = { scalesKnown := s.red.scalesKnown } ∧ (stopped cause s).link.epoch = (s.link.epoch + 1) % 65536 ∧
      (stopped cause s).link.early = s.link.early ∧ (stopped cause s).mem = s.mem ∧ carriedRings (stopped cause s) = carriedRings s ∧
      (stopped cause s).res = { s.res with journal := s.res.journal.filter fun e => e.step != s.run.step } :=
    ⟨rfl, rfl, rfl, rfl, rfl, rfl, rfl, by unfold carriedRings; rfl, rfl⟩
  have k : (stopped cause s).stroke = s.stroke ∧ (stopped cause s).dev = s.dev ∧ (stopped cause s).plan = s.plan ∧ (stopped cause s).regs = s.regs ∧
      (stopped cause s).adm = s.adm ∧ (stopped cause s).sources = s.sources ∧ (stopped cause s).cox = s.cox ∧ (stopped cause s).host = s.host :=
    stopped_same cause s
  generalize stopped cause s = v at w k
  obtain ⟨w1, w2, w3, w4, w5, w6, w7, w8, w9⟩ := w
  obtain ⟨k1, k2, k3, k4, k5, k6, k7, k8⟩ := k
  have X := startExchange_only v
  generalize startExchange v = u at X
  have r : u.run = { v.run with carried := carriedRings v, sentRisk := v.res.risk } := by rw [X.rest]
  refine ⟨⟨?_, ?_, ?_, ?_, ?_, fun d => ?_, fun c x => ?_, ?_⟩, by rw [X.rest]; exact w7⟩
  · rw [r, w3, w8, w9]
  · rw [X.rest]; exact ⟨k1, k2, k3, k4, k5, k6, k7⟩
  · rw [X.rest]; exact w5
  · rw [X.rest]; exact w6
  · have := X.rest
    have q : u.red = { v.red with outq := u.red.outq, parts := u.red.parts, closed := u.red.closed, combined := u.red.combined
                                  results := u.red.results, sums := u.red.sums } := by rw [this]
    rw [q, w4]
  · have := hd d
    unfold desc at *
    rw [show u.stm = v.stm by rw [X.rest], w1]; exact this
  · have := ht c x
    unfold thread core at *
    rw [show u.cores = v.cores by rw [X.rest], w2]; exact this
  · rw [show u.res = v.res by rw [X.rest]]; exact w9

/-- The OR of the flags holds the step: this device's own failures take their paths, and the step is held (R170, R253, R319). -/
theorem holdFrom_spec (flags : Nat) (s : State) (h1 : flags ≠ 0) (h2 : inStep s = true) :
    HeldFrom flags s (holdFrom flags s) := by
  unfold holdFrom
  rw [if_neg (by simp [h1, h2])]
  extract_lets s1 s2
  obtain ⟨F1, F2, F3⟩ := faultPaths_spec s
  have hs1 : faultPaths s = s1 := rfl
  rw [hs1] at F1 F2 F3
  clear_value s1
  have P2 : PathsOnly s1 s2 := .fold (fun u x => .poison ..) _ _
  have e1 : plannerCopy s1 = plannerCopy s := by
    show fromTop _ _ = _
    rw [F1.rest]; rfl
  have e2 : traceRegion s1 = traceRegion s := by
    show fromTop _ _ = _
    rw [F1.rest]; rfl
  have m2 : (∀ x ∈ s.res.badAddrs, ¬ (plannerCopy s ≤ x.1 ∧ x.1 < traceRegion s)) → s2.mem = s.mem := fun hb => by
    have hb' : s1.res.badAddrs = s.res.badAddrs := by rw [F1.res]
    exact (poisons_memory s1.res.badAddrs s1 (by rw [hb', e1, e2]; exact hb)).trans F2
  have P := F1.trans P2
  clear_value s2
  obtain ⟨H1, H2⟩ := holdNow_spec (Nat.log2 flags) { s2 with res := { s2.res with badAddrs := [] } }
  refine ⟨_, H1, ⟨?_, ?_, P.paths, P.host⟩, fun hb => H2.trans (m2 hb), fun c hc hf => P2.paths _ (F3 c hc hf)⟩
  · have := P.rest
    show ({ s2 with res := { s2.res with badAddrs := [] } } : State) = { s with res := { s2.res with badAddrs := [] }, mem := s2.mem, cnt := s2.cnt, log := s2.log, host := s2.host }
    rw [this]
  · show ({ s2.res with badAddrs := [] } : ResSt) = _
    rw [P.res]

/-- An event that the log takes stands in its ring (R408). -/
theorem logEv_enters (n : Nat) (a : List Byte) (s : State) (h1 : s.dev ≠ .recovery) (h2 : s.log.waiting < 8192) (h3 : s.log.dropped = 0) :
    (s.log.next % 8192, mkEntry n a s) ∈ (logEv n a s).log.ring := by
  have e : logEv n a s = logEnter n a s := by
    have hd : (s.dev == .recovery) = false := by simpa using h1
    unfold logEv; simp [hd, h3, h2]
  rw [e]
  unfold logEnter ringPut
  exact List.mem_append_left _ (List.mem_append_right _ (List.mem_singleton.2 rfl))
theorem logEnter_next (n : Nat) (a : List Byte) (s : State) : (logEnter n a s).log.next = s.log.next + 1 := rfl
theorem logEv_next (n : Nat) (a : List Byte) (s : State) (h1 : s.dev ≠ .recovery) : s.log.next < (logEv n a s).log.next := by
  have hd : (s.dev == .recovery) = false := by simpa using h1
  unfold logEv
  rw [hd, if_neg (by simp)]
  extract_lets n0 _ s1
  have h : s.log.next ≤ s1.log.next := by
    unfold s1
    split
    · show _ ≤ s.log.next + 1; omega
    · exact Nat.le_refl _
  split
  · rw [logEnter_next]; omega
  · show _ < s1.log.next + 1; omega

/-- What declarations and lost devices bring: the declared and the lost, the hold that is due, what is sent, and what counting
brings (R323). -/
structure Declares (s u : State) : Prop where
  rest : u = { s with
    res := { s.res with declared := u.res.declared, lost := u.res.lost }, run := { s.run with holdDue := u.run.holdDue },
    cnt := u.cnt, log := u.log, host := u.host, out := u.out }
  declared : ∀ x ∈ s.res.declared, x ∈ u.res.declared
  lost : ∀ x ∈ s.res.lost, x ∈ u.res.lost
  due : s.run.holdDue ≤ u.run.holdDue
  sent : Grows s u
theorem Declares.refl (s : State) : Declares s s := ⟨rfl, fun _ h => h, fun _ h => h, Nat.le_refl _, .refl s⟩
theorem Declares.trans {s t u : State} (h : Declares s t) (k : Declares t u) : Declares s u :=
  ⟨by rw [k.rest, h.rest], fun x y => k.declared x (h.declared x y), fun x y => k.lost x (h.lost x y), Nat.le_trans h.due k.due, h.sent.trans k.sent⟩
theorem Declares.counts {s u : State} (h : CountsOnly s u) : Declares s u := by
  have p := h.parts
  exact ⟨by rw [h.rest], fun x hx => by rw [p.2.2.2.1]; exact hx, fun x hx => by rw [p.2.2.2.1]; exact hx, by rw [p.2.2.1],
    .of p.2.2.2.2.2.2.2.2.2.2.1⟩
theorem Declares.ite {s a b : State} {p : Prop} [Decidable p] (h1 : Declares s a) (h2 : Declares s b) : Declares s (if p then a else b) := by
  split <;> assumption
theorem Declares.fold {α : Type} {f : State → α → State} (hf : ∀ u x, Declares u (f u x)) (l : List α) (s : State) : Declares s (l.foldl f s) := by
  induction l generalizing s with
  | nil => exact .refl s
  | cons x l ih => exact (hf s x).trans (ih _)
theorem Declares.lose (pos cause : Nat) (s : State) : Declares s (loseDevice pos cause s) ∧ pos ∈ (loseDevice pos cause s).res.lost ∧
    (loseDevice pos cause s).run = s.run ∧ (loseDevice pos cause s).out = s.out := by
  unfold loseDevice
  by_cases hm : pos ∈ s.res.lost
  · rw [if_pos (by simpa using hm)]; exact ⟨.refl s, hm, rfl, rfl⟩
  · rw [if_neg (by simpa using hm)]
    have h0 : Declares s { s with res := { s.res with lost := s.res.lost ++ [pos] } } :=
      ⟨rfl, fun _ h => h, fun x h => List.mem_append_left _ h, Nat.le_refl _, .of rfl⟩
    have hc := logEv_countsOnly 0x0707 (b4 pos ++ b4 cause ++ b8 s.stroke.count) { s with res := { s.res with lost := s.res.lost ++ [pos] } }
    refine ⟨h0.trans (.counts hc), ?_, hc.parts.2.2.1, hc.parts.2.2.2.2.2.2.2.2.2.2.1⟩
    rw [hc.parts.2.2.2.1]
    exact List.mem_append_right _ (List.mem_singleton.2 rfl)
theorem Declares.loseHold (pos cause : Nat) (s : State) : Declares s (loseAndHold pos cause s) ∧ pos ∈ (loseAndHold pos cause s).res.lost ∧
    (inRun s = true → pos ∉ s.res.lost → 5 ≤ (loseAndHold pos cause s).run.holdDue) ∧ (loseAndHold pos cause s).out = s.out := by
  unfold loseAndHold
  by_cases hm : pos ∈ s.res.lost
  · rw [if_pos (by simpa using hm)]; exact ⟨.refl s, hm, fun _ h => absurd hm h, rfl⟩
  · rw [if_neg (by simpa using hm)]
    obtain ⟨h1, h2, h3, h4⟩ := Declares.lose pos cause s
    extract_lets v
    have hd : inRun v = inRun s := by unfold v inRun; rw [h1.rest]
    cases hr : inRun s with
    | true =>
      rw [if_pos (by rw [hd, hr])]
      refine ⟨h1.trans ⟨rfl, fun _ h => h, fun _ h => h, Nat.le_max_left .., ⟨fun _ h => h⟩⟩, h2, fun _ _ => Nat.le_max_right .., h4⟩
    | false =>
      rw [if_neg (by rw [hd, hr]; simp)]
      exact ⟨h1, h2, fun h => absurd h (by simp), h4⟩
theorem Declares.emit (o : Output) (s : State) : Declares s (emit o s) := ⟨rfl, fun _ h => h, fun _ h => h, Nat.le_refl _, .emit o s⟩
theorem floodDecl_spec (k pos by_ : Nat) (s : State) : Declares s (floodDecl k pos by_ s) ∧
    floodDecl k pos by_ s = { s with out := (floodDecl k pos by_ s).out } ∧
    ∀ y ∈ activePorts s, Output.declaration y.1 y.2 k pos by_ ∈ (floodDecl k pos by_ s).out := by
  unfold floodDecl forEach
  generalize activePorts s = l
  induction l generalizing s with
  | nil => exact ⟨.refl s, rfl, fun y h => absurd h List.not_mem_nil⟩
  | cons x l ih =>
    rw [List.foldl_cons]
    obtain ⟨h1, h2, h3⟩ := ih (Machine.emit (.declaration x.1 x.2 k pos by_) s)
    refine ⟨(Declares.emit _ s).trans h1, h2.trans rfl, fun y hy => ?_⟩
    rcases List.mem_cons.1 hy with rfl | hy
    · exact h1.sent.sent _ (List.mem_cons_self ..)
    · exact h3 y hy
theorem portDeclared_spec (pos by_ : Nat) (s : State) : Declares s (portDeclared pos by_ s) ∧ (pos, by_) ∈ (portDeclared pos by_ s).res.declared ∧
    (plannedPeers s pos ≠ [] → (∀ q ∈ plannedPeers s pos, q = by_ ∨ (pos, q) ∈ s.res.declared) →
        pos ∈ (portDeclared pos by_ s).res.lost ∧ (inRun s = true → pos ∉ s.res.lost → 5 ≤ (portDeclared pos by_ s).run.holdDue)) := by
  have key : ∃ v, v = (if s.res.declared.contains (pos, by_) then s else { s with res := { s.res with declared := s.res.declared ++ [(pos, by_)] } }) ∧
      Declares s v ∧ (pos, by_) ∈ v.res.declared ∧ v.res.lost = s.res.lost ∧ inRun v = inRun s ∧ plannedPeers v pos = plannedPeers s pos := by
    refine ⟨_, rfl, ?_⟩
    by_cases hm : (pos, by_) ∈ s.res.declared
    · rw [if_pos (by simpa using hm)]; exact ⟨.refl s, hm, rfl, rfl, rfl⟩
    · rw [if_neg (by simpa using hm)]
      exact ⟨⟨rfl, fun x h => List.mem_append_left _ h, fun _ h => h, Nat.le_refl _, .of rfl⟩, List.mem_append_right _ (List.mem_singleton.2 rfl), rfl, rfl, rfl⟩
  obtain ⟨v, hv, v1, v2, v3, v4, v5⟩ := key
  unfold portDeclared
  rw [← hv]
  clear hv
  extract_lets _ peers
  obtain ⟨d1, d2, d3, d4⟩ := Declares.loseHold pos 1 v
  refine ⟨v1.trans (.ite d1 (.refl v)), ?_, ?_⟩
  · split
    · exact d1.declared _ v2
    · exact v2
  · intro h1 h2
    rw [if_pos]
    · exact ⟨d2, fun hr hn => d3 (by rw [v4]; exact hr) (by rw [v3]; exact hn)⟩
    · have : peers = plannedPeers s pos := v5
      rw [this, Bool.and_eq_true]
      refine ⟨by simpa using h1, ?_⟩
      rw [List.all_eq_true]
      intro q hq
      rcases h2 q hq with rfl | h
      · simpa using v2
      · simpa using v1.declared _ h
/-- A timed decision enters a journal that has room, and then takes effect (R309, R311). -/
theorem takeTimed_runs {kind pos arg : Nat} {f : State → State} {s : State} (h : s.res.journal.length < 8192) :
    takeTimed kind pos arg f s = f { s with res := { s.res with journal := s.res.journal ++
      [{ kind := kind, step := s.run.step, stroke := s.stroke.count, pos := pos, arg := arg }] } } := if_pos h

end Sys2Proof.Machine
end

