-- ==== Sys2Proof/Laws/Updates.lean ====
section
/-! SUPPORT. The update engines: records, non-finite results, conversions and codebooks (R196 to R201). -/

namespace Sys2Proof.Machine

open Sys2Proof

theorem blockStats_eq (p : Piece) (e : OptEntry) (f : Fmt) (b : Nat) (s t : State) :
    blockStats p e f b s t = { t with collectors := (blockStats p e f b s t).collectors } := by
  unfold blockStats; dsimp only; split <;> rfl
theorem collect_mem (k n : Nat) (g : StatRec → StatRec) (s : State) (m : MemSt) :
    collect k n g { s with mem := m } = { collect k n g s with mem := m } := rfl
theorem collect_eq (k n : Nat) (g : StatRec → StatRec) (s : State) : collect k n g s = { s with collectors := (collect k n g s).collectors } := rfl
theorem blockStats_mem (p : Piece) (e : OptEntry) (f : Fmt) (b : Nat) (s t : State) (m : MemSt) :
    (blockStats p e f b s { t with mem := m }).collectors = (blockStats p e f b s t).collectors := by
  unfold blockStats; dsimp only; split <;> rfl
theorem convStats_mem (s : State) (cs : List Conv) (t : State) (m : MemSt) : convStats s cs { t with mem := m } = { convStats s cs t with mem := m } := by
  unfold convStats
  have k : ∀ (c : Conv) (l : List (Nat × List (Nat × List Byte) × (StatRec → StatRec))) (u : State),
      l.foldl (fun v x => collect (576 + x.1 % 16) c.tensor x.2.2 v) { u with mem := m } =
        { l.foldl (fun v x => collect (576 + x.1 % 16) c.tensor x.2.2 v) u with mem := m } := fun c l => by
    induction l with
    | nil => exact fun _ => rfl
    | cons x l ih => intro u; rw [List.foldl_cons, List.foldl_cons, collect_mem, ih]
  induction cs generalizing t with
  | nil => rfl
  | cons c cs ih =>
    rw [List.foldl_cons, List.foldl_cons]
    split
    · exact ih t
    · rw [k]; exact ih _
theorem convStats_eq (s : State) (cs : List Conv) (t : State) : convStats s cs t = { t with collectors := (convStats s cs t).collectors } := by
  unfold convStats
  have k : ∀ (c : Conv) (l : List (Nat × List (Nat × List Byte) × (StatRec → StatRec))) (u : State),
      l.foldl (fun v x => collect (576 + x.1 % 16) c.tensor x.2.2 v) u =
        { u with collectors := (l.foldl (fun v x => collect (576 + x.1 % 16) c.tensor x.2.2 v) u).collectors } := fun c l => by
    induction l with
    | nil => exact fun _ => rfl
    | cons x l ih => intro u; rw [List.foldl_cons, ih, collect_eq]
  induction cs generalizing t with
  | nil => rfl
  | cons c cs ih =>
    rw [List.foldl_cons]
    split
    · exact ih t
    · rw [ih]
      rw [k]
theorem nonfiniteBlock_spec (p : Piece) (n : Nat) (s : State) :
    CountsOnly { s with run := { s.run with nonfinite := s.run.nonfinite || decide (n ≠ 0) } } (nonfiniteBlock p n s) := by
  unfold nonfiniteBlock
  by_cases h : n = 0
  · rw [if_pos h]
    have : ({ s with run := { s.run with nonfinite := s.run.nonfinite || decide (n ≠ 0) } } : State) = s := by
      rw [h]; simp
    rw [this]; exact .refl s
  · rw [if_neg h]
    have : decide (n ≠ 0) = true := by simpa using h
    rw [this, Bool.or_true]
    exact (logEv_countsOnly ..).trans (attn_countsOnly ..)
theorem writeAll_eq (l : List (Nat × List Byte)) (s : State) : writeAll l s = { s with mem := (writeAll l s).mem } := by
  unfold writeAll
  induction l generalizing s with
  | nil => rfl
  | cons x l ih => rw [List.foldl_cons, ih]; rfl
theorem writeAll_ne (l : List (Nat × List Byte)) (s : State) {x : Nat} (h : ∀ y ∈ l, x < y.1 ∨ y.1 + y.2.length ≤ x) :
    memByte (writeAll l s) x = memByte s x := by
  unfold writeAll
  induction l generalizing s with
  | nil => rfl
  | cons y l ih =>
    rw [List.foldl_cons, ih _ fun z hz => h z (List.mem_cons_of_mem _ hz)]
    exact memByte_memWrite_ne _ _ _ (h y List.mem_cons_self)
theorem writeAll_mem (l r : List (Nat × List Byte)) (a : Nat) (b : List Byte) (s : State)
    (h : ∀ y ∈ r, a + b.length ≤ y.1 ∨ y.1 + y.2.length ≤ a) (hp : ∀ j, j < b.length → plainAddr (a + j)) :
    memBytes (writeAll (l ++ (a, b) :: r) s) a b.length = b := by
  have e : writeAll (l ++ (a, b) :: r) s = writeAll r (memWrite a b (writeAll l s)) := by
    unfold writeAll; rw [List.foldl_append]; rfl
  rw [e]
  have k := memBytes_memWrite (writeAll l s) a b hp
  have q : memBytes (writeAll r (memWrite a b (writeAll l s))) a b.length = memBytes (memWrite a b (writeAll l s)) a b.length := by
    unfold memBytes
    refine List.map_congr_left fun i hi => writeAll_ne _ _ fun y hy => ?_
    have := List.mem_range.1 hi
    have := h y hy
    omega
  rw [q, k]
theorem bookRound_length (ws : List Word) (c : List Nat) : (bookRound ws c).length = c.length := by
  unfold bookRound; simp
theorem buildBook_length (ws : List Word) : (buildBook ws).length = 16 := by
  unfold buildBook
  split
  · rfl
  · rw [bookRound_length, bookRound_length]; simp
/-- A codebook is 16 BF16 entries in 32 bytes. -/
theorem bookBytes_length (ws : List Word) : ((buildBook ws).flatMap (leBytes 2)).length = 32 := by
  have h := buildBook_length ws
  have k : ∀ l : List Nat, (l.flatMap (leBytes 2)).length = 2 * l.length := fun l => by
    induction l with
    | nil => rfl
    | cons x l ih => rw [List.flatMap_cons, List.length_append, ih, length_leBytes, List.length_cons]; omega
  rw [k, h]

end Sys2Proof.Machine
end

