-- ==== Sys2Proof/Laws/Admission.lean ====
section
/-! SUPPORT. Admission: the pick by credits, the lowest free slot, counts written to the host, and packing (R188 to R193). -/

namespace Sys2Proof.Machine

open Sys2Proof

theorem mem_boundSources {s : State} {i : Nat} {x : Source} : (i, x) ∈ boundSources s ↔ i < 16 ∧ source s i = some x := by
  unfold boundSources
  simp only [List.mem_filterMap, List.mem_range, Option.map_eq_some_iff, Prod.mk.injEq]
  constructor
  · rintro ⟨j, hj, y, hy, rfl, rfl⟩; exact ⟨hj, hy⟩
  · rintro ⟨h1, h2⟩; exact ⟨i, h1, x, h2, rfl, rfl⟩
theorem boundSources_sorted (s : State) : (boundSources s).Pairwise fun a b => a.1 < b.1 := by
  unfold boundSources
  rw [List.pairwise_filterMap]
  refine List.Pairwise.imp ?_ (List.pairwise_lt_range (n := 16))
  intro a b h x hx y hy
  obtain ⟨u, -, rfl⟩ := Option.map_eq_some_iff.1 hx
  obtain ⟨v, -, rfl⟩ := Option.map_eq_some_iff.1 hy
  exact h
theorem bestOf_mem {l : List (Nat × Int)} {y : Nat × Int} (h : bestOf (fun a b => decide (b.2 < a.2)) l = some y) : y ∈ l := by
  induction l generalizing y with
  | nil => exact absurd h (by simp [bestOf])
  | cons x t ih =>
    unfold bestOf at h
    cases hb : bestOf (fun a b => decide (b.2 < a.2)) t with
    | none => rw [hb] at h; exact Option.some.inj h ▸ List.mem_cons_self
    | some z =>
      rw [hb] at h
      dsimp only at h
      split at h
      · exact Option.some.inj h ▸ List.mem_cons_of_mem _ (ih hb)
      · exact Option.some.inj h ▸ List.mem_cons_self
/-- The largest credit, the lowest number on a tie. -/
theorem bestOf_max {l : List (Nat × Int)} (hs : l.Pairwise fun a b => a.1 < b.1) {p : Nat} {c : Int} (hm : (p, c) ∈ l)
    (h : ∀ y ∈ l, y.2 < c ∨ (y.2 = c ∧ p ≤ y.1)) : bestOf (fun a b => decide (b.2 < a.2)) l = some (p, c) := by
  induction l with
  | nil => exact absurd hm List.not_mem_nil
  | cons x t ih =>
    rw [List.pairwise_cons] at hs
    unfold bestOf
    rcases List.mem_cons.1 hm with e | hm
    · subst e
      cases hb : bestOf (fun a b => decide (b.2 < a.2)) t with
      | none => rfl
      | some y =>
        dsimp only
        rw [if_neg]
        have := h y (List.mem_cons_of_mem _ (bestOf_mem hb))
        simp only [decide_eq_true_eq]; omega
    · rw [ih hs.2 hm fun y hy => h y (List.mem_cons_of_mem _ hy)]
      dsimp only
      rw [if_pos]
      have h1 := h x List.mem_cons_self
      have h2 := hs.1 _ hm
      dsimp only at h2
      simp only [decide_eq_true_eq]; omega
theorem pickSource_max {s : State} {p : Nat} {x : Source} (hp : p < 16) (hx : source s p = some x)
    (h : ∀ i y, i < 16 → source s i = some y → y.credit + y.weight < x.credit + x.weight ∨ (y.credit + y.weight = x.credit + x.weight ∧ p ≤ i)) :
    pickSource (gainCredit (boundSources s)) = some p := by
  unfold pickSource
  have hs : (gainCredit (boundSources s)).Pairwise fun a b => a.1 < b.1 := by
    unfold gainCredit; rw [List.pairwise_map]; exact boundSources_sorted s
  have hm : (p, x.credit + (x.weight : Int)) ∈ gainCredit (boundSources s) := by
    unfold gainCredit; exact List.mem_map.2 ⟨(p, x), mem_boundSources.2 ⟨hp, hx⟩, rfl⟩
  rw [bestOf_max hs hm]
  · rfl
  · intro y hy
    unfold gainCredit at hy
    obtain ⟨⟨i, z⟩, hz, rfl⟩ := List.mem_map.1 hy
    obtain ⟨h1, h2⟩ := mem_boundSources.1 hz
    exact h i z h1 h2
theorem pickSource_none {s : State} (h : ∀ i, i < 16 → source s i = none) : pickSource (gainCredit (boundSources s)) = none := by
  have : boundSources s = [] := by
    refine List.eq_nil_iff_forall_not_mem.2 fun ⟨i, x⟩ hx => ?_
    obtain ⟨h1, h2⟩ := mem_boundSources.1 hx
    rw [h i h1] at h2; exact absurd h2 (by simp)
  rw [this]; rfl
theorem source_modSource (s : State) (i j : Nat) (f : Source → Source) :
    source (modSource i f s) j = if j = i then (source s j).map f else source s j := by
  unfold source modSource
  by_cases h : j = i
  · subst h; rw [if_pos rfl]; exact sget_smod_self ..
  · rw [if_neg h]; exact sget_smod_ne _ _ _ h
theorem gainAll_spec (l : List (Nat × Source)) (hs : l.Pairwise fun a b => a.1 < b.1) (s : State) (t : State)
    (ht : t = forEach l (fun x t => modSource x.1 (fun y => { y with credit := y.credit + y.weight }) t) s) :
    (∀ i, (∃ x ∈ l, x.1 = i) → source t i = (source s i).map fun y => { y with credit := y.credit + y.weight }) ∧
    (∀ i, (∀ x ∈ l, x.1 ≠ i) → source t i = source s i) ∧ t = { s with sources := t.sources } := by
  unfold forEach at ht
  induction l generalizing s with
  | nil => subst ht; exact ⟨fun i h => (by obtain ⟨x, hx, -⟩ := h; exact absurd hx List.not_mem_nil), fun _ _ => rfl, rfl⟩
  | cons x l ih =>
    rw [List.foldl_cons] at ht
    rw [List.pairwise_cons] at hs
    obtain ⟨a, b, c⟩ := ih hs.2 _ ht
    refine ⟨fun i h => ?_, fun i h => ?_, by rw [c]; rfl⟩
    · by_cases e : x.1 = i
      · rw [b i fun y hy => by have := hs.1 y hy; omega, source_modSource, if_pos e.symm]
      · obtain ⟨y, hy, he⟩ := h
        have hy : y ∈ l := (List.mem_cons.1 hy).resolve_left fun q => e (q ▸ he)
        rw [a i ⟨y, hy, he⟩, source_modSource, if_neg (fun q => e q.symm)]
    · rw [b i fun y hy => h y (List.mem_cons_of_mem _ hy), source_modSource, if_neg (fun q => h x List.mem_cons_self q.symm)]
theorem freeSlot_least {s : State} {k : Nat} (h1 : k < 4096) (h2 : (slot s k).state = 0) (h3 : ∀ j, j < k → (slot s j).state ≠ 0) : freeSlot s = some k := by
  unfold freeSlot
  rw [List.find?_range_eq_some]
  refine ⟨by simpa using h2, by simpa using h1, fun j hj => ?_⟩
  have := h3 j hj
  simpa using this
theorem afterPick_spec (p : Nat) (s : State) (u : State) (hu : u = afterPick p s) :
    (∀ i x, i < 16 → source s i = some x → source u i = some (if i = p
      then { x with credit := x.credit + x.weight - (boundSources s).foldl (fun (m : Int) y => m + y.2.weight) 0, next := x.next + 1 }
      else { x with credit := x.credit + x.weight })) ∧ u = { s with sources := u.sources } := by
  unfold afterPick at hu
  dsimp only at hu
  obtain ⟨a, b, c⟩ := gainAll_spec (boundSources s) (boundSources_sorted s) s _ rfl
  generalize hv : forEach (boundSources s) (fun x t => modSource x.1 (fun y => { y with credit := y.credit + y.weight }) t) s = v at a b c hu
  refine ⟨fun i x h1 h2 => ?_, by rw [hu, c]; rfl⟩
  have e : source v i = some { x with credit := x.credit + x.weight } := by
    rw [a i ⟨(i, x), mem_boundSources.2 ⟨h1, h2⟩, rfl⟩, h2]; rfl
  rw [hu, source_modSource, e]
  by_cases q : i = p
  · rw [if_pos q, if_pos q]; rfl
  · rw [if_neg q, if_neg q]
theorem slot_modSlot_ne (s : State) {i j : Nat} (f : SlotRec → SlotRec) (h : j ≠ i) : slot (modSlot i f s) j = slot s j := sget_smod_ne _ _ _ h
theorem writeCounts_eq (p : Nat) (s : State) : writeCounts p s = { s with out := (writeCounts p s).out } := by
  unfold writeCounts
  split
  · split <;> rfl
  · rfl
theorem pickDone_spec (p : Nat) (s : State) (x : Source) (h : source s p = some x) (t : State) (ht : t = pickDone p s) :
    t = { s with adm := { s.adm with pick := none }, sources := t.sources, out := t.out } ∧ source t p = some { x with admitted := x.admitted + 1 } ∧
    (∀ i, i ≠ p → source t i = source s i) ∧
    (isReader s = true → x.cons ≠ 0 → hostRange s x.cons 16 = true → Output.hostWrite x.cons (b8 (x.admitted + 1) ++ b8 x.released) ∈ t.out) := by
  unfold pickDone at ht
  have e0 : source (modSource p (fun y => { y with admitted := y.admitted + 1 }) { s with adm := { s.adm with pick := none } }) p =
      some { x with admitted := x.admitted + 1 } := by
    rw [source_modSource, if_pos rfl]
    show (source s p).map _ = _
    rw [h]; rfl
  have e1 : ∀ i, i ≠ p → source (modSource p (fun y => { y with admitted := y.admitted + 1 }) { s with adm := { s.adm with pick := none } }) i =
      source s i := fun i hi => by rw [source_modSource, if_neg hi]; rfl
  generalize hv : modSource p (fun y => { y with admitted := y.admitted + 1 }) { s with adm := { s.adm with pick := none } } = v at *
  have ev : v = { s with adm := { s.adm with pick := none }, sources := v.sources } := by rw [← hv]; rfl
  have et := writeCounts_eq p v
  rw [← ht] at et
  have hs : ∀ i, source t i = source v i := fun i => by rw [et]; rfl
  refine ⟨by rw [et, ev], by rw [hs, e0], fun i hi => by rw [hs, e1 i hi], fun h1 h2 h3 => ?_⟩
  have r1 : isReader v = true := by rw [← h1, ev]; rfl
  have r2 : hostRange v x.cons 16 = true := by rw [← h3, ev]; rfl
  rw [ht]
  unfold writeCounts
  rw [e0]
  dsimp only
  rw [if_pos]
  · exact List.mem_cons_self
  · rw [r1, r2]; simpa using h2
theorem flow_sendSample (k : Nat) (g : Segment) (b : List Byte) (s : State) : FlowOnly s (sendSample k g b s) := by
  unfold sendSample
  split
  · exact .refl s
  · exact .forEach (fun _ _ => .sendReduce ..) _ s
theorem Grows.pumpFlow (f n : Nat) (s : State) : Grows s (pumpFlow f n s) := by
  induction n generalizing s with
  | zero => exact .refl s
  | succ n ih =>
    unfold Machine.pumpFlow
    split
    · exact .refl s
    · split
      · exact .refl s
      · split
        · exact .refl s
        · extract_lets q i _ s1
          have h1 : Grows s s1 := .of rfl
          have h2 : ∀ g, Grows s1 (creditAdd f g s1) := fun g => .of rfl
          exact h1.trans ((h2 _).trans ((Grows.sendTo ..).trans (ih _)))
theorem grows_sendSample (k : Nat) (g : Segment) (b : List Byte) (s : State) : Grows s (sendSample k g b s) := by
  unfold sendSample
  split
  · exact .refl s
  · refine .forEach (fun x u => ?_) _ s
    unfold sendReduce
    extract_lets _ s1
    exact Grows.trans (t := s1) (.of rfl) (.pumpFlow ..)
theorem packed_slots (pk : Pkg) (pl : Plan) (k len id : Nat) (s : State) : (packed pk pl k len id s).slots = s.adm.slots := by
  have h : (place pk.mbTokens pl.mbPerStep len s.adm).1.slots = s.adm.slots := by
    unfold place; split
    · rfl
    · split <;> rfl
  unfold packed closePacking
  extract_lets a _
  split
  · exact h
  · exact h
theorem logEv_next_le (n : Nat) (a : List Byte) (s : State) : s.log.next ≤ (logEv n a s).log.next := by
  by_cases h : s.dev = .recovery
  · unfold logEv
    rw [if_pos (by simpa using h)]
  · exact Nat.le_of_lt (logEv_next n a s h)
theorem bump_next (o n : Nat) (s : State) : s.log.next ≤ (bump o n s).log.next := by
  unfold bump
  dsimp only
  split
  · unfold satEvent
    exact logEv_next_le 0x0906 (b4 (cntBlock o).1 ++ b4 (cntBlock o).2) (attnBase 2 (cntAdd o n s))
  · exact Nat.le_refl _

end Sys2Proof.Machine
end

