-- ==== Sys2Proof/Laws/Boot.lean ====
section
/-! SUPPORT. What a plan coming into force, a boot and a full reset change (R30, R352, R401, R402). -/

namespace Sys2Proof.Machine

open Sys2Proof

theorem applyPin_eq (x : Nat × Nat × Nat) (s : State) : ∃ c, applyPin x s = { s with cox := c } := by
  unfold applyPin
  split
  · exact ⟨_, rfl⟩
  · exact ⟨_, rfl⟩

theorem applyPins_eq (l : List (Nat × Nat × Nat)) (s : State) : ∃ c, forEach l applyPin s = { s with cox := c } := by
  unfold forEach
  induction l generalizing s with
  | nil => exact ⟨s.cox, rfl⟩
  | cons x l ih =>
    obtain ⟨c, e⟩ := applyPin_eq x s
    obtain ⟨c', e'⟩ := ih (applyPin x s)
    exact ⟨c', by rw [List.foldl_cons, e', e]⟩

theorem CountsOnly.forEach {α : Type} {f : α → State → State} (hf : ∀ x u, CountsOnly u (f x u)) (l : List α) (s : State) :
    CountsOnly s (forEach l f s) := by
  unfold Machine.forEach
  induction l generalizing s with
  | nil => exact .refl s
  | cons x l ih => exact (hf x s).trans (ih _)

theorem MemOnly.forEach {α : Type} {f : α → State → State} (hf : ∀ x u, MemOnly u (f x u)) (l : List α) (s : State) :
    MemOnly s (forEach l f s) := MemOnly.fold (fun u x => hf x u) l s

theorem strokeRoles_eq (pl : Plan) (s : State) : ∃ t, strokeRoles pl s = { s with stroke := t } := by
  unfold strokeRoles
  split
  · exact ⟨_, rfl⟩
  · exact ⟨_, rfl⟩

/-- What the installation of a plan changes (R214, R231, R249). -/
theorem installPlan_eq (pl : Plan) (s : State) : installPlan pl s = { s with
    plan := some pl, mem := (installPlan pl s).mem, stroke := (installPlan pl s).stroke, cnt := (installPlan pl s).cnt
    log := (installPlan pl s).log, host := (installPlan pl s).host
    link := { s.link with route := (installPlan pl s).link.route, credit := [] } } := by
  unfold installPlan
  extract_lets s1 s2 s3 s4
  have h2 : MemOnly s1 s2 := .forEach (fun _ _ => .memStore ..) _ _
  have h3 : MemOnly s2 s3 := .forEach (fun _ _ => .memStore ..) _ _
  have h4 : MemOnly s3 s4 := .forEach (fun _ _ => .memStore ..) _ _
  have h := ((h2.trans h3).trans h4).rest
  clear_value s4 s3 s2
  generalize hv : ({ s4 with link := { s4.link with route := routeTable (amended s4) pl.pos, credit := [] } } : State) = v
  obtain ⟨t, e⟩ := strokeRoles_eq pl v
  rw [e, ← hv, h]

theorem MemOnly.zeroMem (a n : Nat) (s : State) : MemOnly s (zeroMem a n s) := ⟨rfl, rfl⟩
theorem MemOnly.plannerCopied (s : State) : MemOnly s (plannerCopied s) := (MemOnly.memStore ..).trans (.memWrite ..)

theorem MemOnly.initTensor (pl : Plan) (pk : Pkg) (d : List Byte) (i : Nat) (t : TensorDesc) (s : State) :
    MemOnly s (initTensor pl pk d i t s) := by
  unfold Machine.initTensor
  extract_lets s1
  have h1 : MemOnly s s1 := (MemOnly.zeroMem ..).trans (.zeroMem ..)
  split
  · refine .ite h1 ?_
    extract_lets a parts
    exact h1.trans ((MemOnly.memStore ..).trans (.memStore ..))
  · exact h1

/-- What a PLAN command's plan changes as it comes into force (R30, R179, R197). -/
theorem startPlan_eq (pl : Plan) (pk : Pkg) (s : State) : startPlan pl pk s = { s with
    plan := some pl, mem := (startPlan pl pk s).mem, stroke := (startPlan pl pk s).stroke, cnt := (startPlan pl pk s).cnt
    log := (startPlan pl pk s).log, host := (startPlan pl pk s).host
    link := { s.link with route := (startPlan pl pk s).link.route, credit := [] }
    pwr := { s.pwr with groups := (startPlan pl pk s).pwr.groups }, res := (startPlan pl pk s).res
    run := { opt := (List.range pk.opts.length).map fun i => (i, one32.toNat, one32.toNat), copies := pl.copies }
    dev := .loaded } := by
  unfold startPlan
  extract_lets s1 d s2 ps
  obtain ⟨g, e0⟩ := allGroupsOn_eq s
  have e1 := installPlan_eq pl (allGroupsOn s)
  have h2 : MemOnly s1 s2 := .fold (fun u x => .ite (.initTensor ..) (.refl u)) _ _
  have h2 := h2.rest
  change s1 = _ at e1
  clear_value s2 s1
  rw [h2, e1, e0]

theorem logEv_only (typ : Nat) (args : List Byte) (s : State) : logEv typ args s =
    { s with log := (logEv typ args s).log, host := (logEv typ args s).host } := by
  rw [logEv_eq]

/-- What a boot may change (R401): nothing of the package, the plan, the run or the cores. -/
def BootKeeps (s u : State) : Prop := u = { s with
  fuses := u.fuses, boot := u.boot, dev := u.dev, host := u.host, cnt := u.cnt, log := u.log, mgmt := u.mgmt, mem := u.mem,
  link := u.link, pwr := u.pwr, res := { s.res with kept := u.res.kept } }
theorem BootKeeps.trans {s t u : State} (h : BootKeeps s t) (k : BootKeeps t u) : BootKeeps s u := by
  unfold BootKeeps at *; rw [k, h]
theorem BootKeeps.counts {s u : State} (h : CountsOnly s u) : BootKeeps s u := by unfold BootKeeps; rw [h.rest]
theorem BootKeeps.ite {s a b : State} {p : Prop} [Decidable p] (h1 : BootKeeps s a) (h2 : BootKeeps s b) :
    BootKeeps s (if p then a else b) := by split <;> assumption
theorem BootKeeps.fold {α : Type} {f : State → α → State} (hf : ∀ u x, BootKeeps u (f u x)) (l : List α) (s : State) :
    BootKeeps s (l.foldl f s) := by
  induction l generalizing s with
  | nil => exact rfl
  | cons x l ih => exact (hf s x).trans (ih _)
theorem BootKeeps.mem {s u : State} (h : MemOnly s u) : BootKeeps s u := by unfold BootKeeps; rw [h.rest]

theorem BootKeeps.log {s v : State} (t : Nat) (a : List Byte) (h : BootKeeps s v) : BootKeeps s (logEv t a v) :=
  h.trans (.counts (logEv_countsOnly ..))
theorem BootKeeps.recovery (c : Nat) (s : State) : BootKeeps s (enterRecovery c s) := rfl
theorem BootKeeps.rom (s : State) : BootKeeps s (romSteps s) := by
  unfold romSteps
  exact .ite (.recovery ..) (.ite (.recovery ..) (.ite (.recovery ..) rfl))
theorem BootKeeps.body (s : State) : BootKeeps s (romBody s) := by
  unfold romBody
  exact .ite (.ite rfl (.recovery ..)) rfl
theorem BootKeeps.blow (s : State) : BootKeeps s (blowFuses s) := by
  unfold blowFuses
  extract_lets i bits s1 slots
  have h1 : BootKeeps s s1 := .ite (.fold (fun u b => by exact .log _ _ rfl) _ _) rfl
  exact h1.trans (.fold (fun u b => by exact .log _ _ rfl) _ _)
theorem BootKeeps.init (s : State) : BootKeeps s (initLpddr (initHold (trainPorts s))) := by
  have h1 : BootKeeps s (trainPorts s) := .fold (fun u p => by exact .ite rfl rfl) _ _
  have h2 : BootKeeps (trainPorts s) (dropHold (trainPorts s)) := rfl
  have h2' : BootKeeps (dropHold (trainPorts s)) (initHold (trainPorts s)) := .fold (fun u n => by exact rfl) _ _
  refine ((h1.trans h2).trans h2').trans ?_
  unfold initLpddr
  extract_lets s1
  have h3 : BootKeeps (initHold (trainPorts s)) s1 :=
    .ite rfl (.mem (.plannerCopied _))
  have h4 : BootKeeps s1 { s1 with boot := { s1.boot with memLost := false } } := rfl
  exact (h3.trans h4).trans (.fold (fun u n => by exact rfl) _ _)
theorem BootKeeps.up (s : State) : BootKeeps s (firmwareUp s) := by
  unfold firmwareUp
  extract_lets _ t
  have h1 : BootKeeps s (linkTrained { s with pwr := { s.pwr with domains := true } }) := rfl
  have h2 := h1.trans (.init _)
  have h3 : BootKeeps t { t with dev := .idle, boot := { t.boot with bodyRead := false } } := rfl
  exact h2.trans h3
theorem BootKeeps.prior (s : State) : BootKeeps s (logPrior s) := .ite (.log _ _ rfl) rfl
theorem BootKeeps.boot (s : State) : BootKeeps s (logBoot s) := .log _ _ rfl
theorem BootKeeps.first (s : State) : BootKeeps s (firstBoot s) := by
  have h6 : BootKeeps s { s with boot := { s.boot with first := false } } := rfl
  exact .ite (h6.trans (.blow _)) rfl
theorem BootKeeps.finish (s : State) : BootKeeps s (romFinish s) := by
  unfold romFinish
  refine .ite rfl (.ite rfl (.ite ?_ rfl))
  exact (((BootKeeps.up s).trans (.prior _)).trans (.boot _)).trans (.first _)
/-- What a boot leaves alone (R401). -/
theorem bootSequence_keeps (s : State) : BootKeeps s (bootSequence s) :=
  ((BootKeeps.rom s).trans (.body _)).trans (.finish _)

/-- What the zeroing of hold, the training of ports and the start of LPDDR5X change. -/
def InitOnly (s u : State) : Prop := u = { s with
  mem := u.mem, link := u.link, boot := u.boot, res := { s.res with kept := u.res.kept }, cnt := u.cnt, log := u.log, host := u.host }
theorem InitOnly.trans {s t u : State} (h : InitOnly s t) (k : InitOnly t u) : InitOnly s u := by
  unfold InitOnly at *; rw [k, h]
theorem InitOnly.ite {s a b : State} {p : Prop} [Decidable p] (h1 : InitOnly s a) (h2 : InitOnly s b) :
    InitOnly s (if p then a else b) := by split <;> assumption
theorem InitOnly.fold {α : Type} {f : State → α → State} (hf : ∀ u x, InitOnly u (f u x)) (l : List α) (s : State) :
    InitOnly s (l.foldl f s) := by
  induction l generalizing s with
  | nil => exact rfl
  | cons x l ih => exact (hf s x).trans (ih _)
theorem InitOnly.init (s : State) : InitOnly s (initLpddr (initHold (trainPorts s))) := by
  have h1 : InitOnly s (trainPorts s) := .fold (fun u p => by exact .ite rfl rfl) _ _
  have h2 : InitOnly (trainPorts s) (dropHold (trainPorts s)) := rfl
  have h2' : InitOnly (dropHold (trainPorts s)) (initHold (trainPorts s)) := .fold (fun u n => by exact rfl) _ _
  refine ((h1.trans h2).trans h2').trans ?_
  unfold initLpddr
  extract_lets s1
  have h3 : InitOnly (initHold (trainPorts s)) s1 := by
    refine .ite rfl ?_
    unfold InitOnly; rw [(MemOnly.plannerCopied (initHold (trainPorts s))).rest]
  have h4 : InitOnly s1 { s1 with boot := { s1.boot with memLost := false } } := rfl
  exact (h3.trans h4).trans (.fold (fun u n => by exact rfl) _ _)

/-- What blowing fuses changes (R402). -/
def BlowOnly (s u : State) : Prop := u = { s with fuses := u.fuses, log := u.log, host := u.host, cnt := u.cnt, boot := u.boot }
theorem BlowOnly.trans {s t u : State} (h : BlowOnly s t) (k : BlowOnly t u) : BlowOnly s u := by
  unfold BlowOnly at *; rw [k, h]
theorem BlowOnly.ite {s a b : State} {p : Prop} [Decidable p] (h1 : BlowOnly s a) (h2 : BlowOnly s b) :
    BlowOnly s (if p then a else b) := by split <;> assumption
theorem BlowOnly.fold {α : Type} {f : State → α → State} (hf : ∀ u x, BlowOnly u (f u x)) (l : List α) (s : State) :
    BlowOnly s (l.foldl f s) := by
  induction l generalizing s with
  | nil => exact rfl
  | cons x l ih => exact (hf s x).trans (ih _)
theorem BlowOnly.log {s v : State} (t : Nat) (a : List Byte) (h : BlowOnly s v) : BlowOnly s (logEv t a v) := by
  refine h.trans ?_
  unfold BlowOnly; rw [(logEv_countsOnly t a v).rest]
theorem BlowOnly.blow (s : State) : BlowOnly s (blowFuses s) := by
  unfold blowFuses
  extract_lets i bits s1 slots
  have h1 : BlowOnly s s1 := .ite (.fold (fun u b => by exact .log _ _ rfl) _ _) rfl
  exact h1.trans (.fold (fun u b => by exact .log _ _ rfl) _ _)

theorem firmwareUp_idle (s : State) : (firmwareUp s).dev = .idle ∧ (firmwareUp s).pwr.domains = true := by
  unfold firmwareUp
  extract_lets _ t
  refine ⟨rfl, ?_⟩
  have h : InitOnly (linkTrained { s with pwr := { s.pwr with domains := true } }) t := .init _
  unfold InitOnly at h
  show t.pwr.domains = true
  rw [h]
  rfl

/-- A boot whose image verifies ends in IDLE with the domains powered (R401). -/
theorem boot_idle (s : State) (h1 : s.pins.perst = false) (h2 : s.pins.pwrgood = true) (h3 : s.flash.valid = true)
    (h4 : s.flash.image.formOk = true) (h5 : keyOk s s.flash.image = true) (h6 : s.flash.image.ecdsaOk = true)
    (h7 : s.flash.image.lmsOk = true) (h8 : s.flash.image.digestOk = true) (h9 : svnCount s ≤ s.flash.image.svn)
    (h10 : s.boot.recovery = false) : (bootSequence s).dev = .idle ∧ (bootSequence s).pwr.domains = true := by
  have r : romSteps s = { s with boot := { s.boot with waiting := true } } := by
    unfold romSteps
    simp only [h3, h4, h5, h6, h7, Bool.not_true, Bool.or_false, Bool.false_eq_true, if_false]
    rw [if_neg (by omega)]
  have b : romBody (romSteps s) = { s with boot := { s.boot with waiting := false, bodyRead := true, running := s.flash.image } } := by
    rw [r]; unfold romBody
    simp only [h2, h8, Bool.and_true, if_true]
  have f : romFinish { s with boot := { s.boot with waiting := false, bodyRead := true, running := s.flash.image } } =
      firstBoot (logBoot (logPrior (firmwareUp { s with boot := { s.boot with waiting := false, bodyRead := true, running := s.flash.image } }))) := by
    unfold romFinish
    rw [if_neg (by simp [h1, h2]), if_neg (by simp [h10]), if_pos rfl]
  unfold bootSequence
  rw [b, f]
  have e := firmwareUp_idle { s with boot := { s.boot with waiting := false, bodyRead := true, running := s.flash.image } }
  generalize firmwareUp _ = u at e ⊢
  have h6 : BlowOnly (logBoot (logPrior u)) { (logBoot (logPrior u)) with boot := { (logBoot (logPrior u)).boot with first := false } } := rfl
  have h4 : BlowOnly u (logPrior u) := .ite (.log _ _ rfl) rfl
  have h5 : BlowOnly (logPrior u) (logBoot (logPrior u)) := .log _ _ rfl
  have h7 : BlowOnly (logBoot (logPrior u)) (firstBoot (logBoot (logPrior u))) := .ite (h6.trans (.blow _)) rfl
  have h8 := (h4.trans h5).trans h7
  unfold BlowOnly at h8
  rw [h8]
  exact e

/-- What a full reset clears and keeps, before the boot that follows (R352). -/
theorem fullReset_fields (t : State) : (fullReset t).pkg = none ∧ (fullReset t).plan = none ∧ (fullReset t).sources = [] ∧
    (fullReset t).run = {} ∧ (fullReset t).cox = {} ∧ (fullReset t).adm = {} ∧ (fullReset t).cores = [] ∧
    (fullReset t).red = {} ∧ (fullReset t).res.journal = [] ∧ (fullReset t).dev = .boot ∧
    (fullReset t).regs = (t.regs.filter fun x => keptAtReset x.1) ∧
    (fullReset t).pins.perst = t.pins.perst ∧ (fullReset t).pins.pwrgood = t.pins.pwrgood ∧ (fullReset t).flash = t.flash ∧
    (fullReset t).fuses = t.fuses ∧ (fullReset t).boot.recovery = false := by
  refine ⟨rfl, rfl, rfl, rfl, rfl, rfl, rfl, rfl, rfl, rfl, ?_, ?_, ?_, ?_, ?_, rfl⟩
  · unfold fullReset dropHold emptyJournal abortPasses lifeAdd zeroMem; rfl
  · unfold fullReset dropHold emptyJournal abortPasses lifeAdd zeroMem; rfl
  · unfold fullReset dropHold emptyJournal abortPasses lifeAdd zeroMem; rfl
  · unfold fullReset dropHold emptyJournal abortPasses lifeAdd; rfl
  · unfold fullReset dropHold emptyJournal abortPasses lifeAdd; rfl

end Sys2Proof.Machine
end

