-- ==== Sys2Proof/Laws/Boundary.lean ====
section
/-! SUPPORT. The step boundary: what the cox changes, what a commit writes, and the end of a boundary with nothing due
(R32, R138, R204, R319, R344). -/

namespace Sys2Proof.Machine

open Sys2Proof

theorem CoxOnly.refl (s : State) : CoxOnly s s := ⟨rfl, rfl, id, fun _ _ => rfl⟩
theorem CoxOnly.trans {s t u : State} (h : CoxOnly s t) (k : CoxOnly t u) : CoxOnly s u :=
  ⟨by rw [k.rest, h.rest], by rw [k.host, h.host], fun x => k.due (h.due x), fun x hx => by rw [k.mem x hx, h.mem x hx]⟩
theorem CoxOnly.counts {s u : State} (h : CountsOnly s u) : CoxOnly s u :=
  ⟨by rw [h.rest], h.host, fun x => by rw [h.parts.2.2.1]; exact x, h.mem⟩
theorem CoxOnly.of {s u : State} (h : u = { s with cox := u.cox, run := { s.run with planDue := u.run.planDue } }) (hd : s.run.planDue = true → u.run.planDue = true) :
    CoxOnly s u := ⟨by rw [h], by rw [h], hd, fun x _ => memByte_congr x (by rw [h]) (by rw [h]) (by rw [h]) (by rw [h])⟩
theorem CoxOnly.ite {s a b : State} {p : Prop} [Decidable p] (h1 : CoxOnly s a) (h2 : CoxOnly s b) : CoxOnly s (if p then a else b) := by
  split <;> assumption
theorem CoxOnly.forEach {α : Type} {f : α → State → State} (hf : ∀ x u, CoxOnly u (f x u)) (l : List α) (s : State) : CoxOnly s (forEach l f s) := by
  unfold Machine.forEach
  induction l generalizing s with
  | nil => exact .refl s
  | cons x l ih => exact (hf x s).trans (ih _)
theorem CoxOnly.traceRec (a b c d e f : Nat) (s : State) : CoxOnly s (traceRec a b c d e f s) := by
  obtain ⟨T, h⟩ := traceRec_eq a b c d e f s
  refine ⟨by rw [h.rest], by rw [h.host], fun x => by rw [h.rest]; exact x, fun x hx => ?_⟩
  rw [h.mem x hx]; exact memByte_congr x rfl rfl rfl rfl
theorem CoxOnly.setRung (l r n : Nat) (s : State) : CoxOnly s (setRung l r n s) := .of rfl id
theorem CoxOnly.setQuiet (l r n : Nat) (s : State) : CoxOnly s (setQuiet l r n s) := .of rfl id
theorem CoxOnly.planDue (s : State) : CoxOnly s (planDue s) := .of rfl fun _ => rfl
theorem CoxOnly.logChange (a b c d e f : Nat) (s : State) : CoxOnly s (logChange a b c d e f s) := by
  unfold Machine.logChange
  exact CoxOnly.trans (.ite (.counts (bump_countsOnly ..)) (.refl s)) (.counts (logEv_countsOnly ..))
theorem CoxOnly.attn (c : Nat) (s : State) : CoxOnly s (attn c s) := .counts (attn_countsOnly ..)
theorem CoxOnly.cox (c : CoxSt) (s : State) : CoxOnly s { s with cox := c } := .of rfl id
/-- A pin set or released changes the cox alone. -/
theorem CoxOnly.pinChange (x : Nat × Nat × Nat) (s : State) : CoxOnly s (pinChange x s) := by
  unfold Machine.pinChange
  extract_lets cur t
  have h : CoxOnly s t := by
    show CoxOnly s (applyPin x s)
    unfold applyPin
    exact .ite (.of rfl id) (.of rfl id)
  exact h.trans (.ite (.refl t) ((CoxOnly.logChange ..).trans (.attn ..)))
theorem CoxOnly.takeDecision (l r cur : Nat) (d : CoxDec) (s : State) : CoxOnly s (takeDecision l r cur d s) := by
  unfold Machine.takeDecision
  extract_lets s1 s2
  have h1 : CoxOnly s s1 := .setQuiet ..
  have h2 : CoxOnly s1 s2 := .ite ((CoxOnly.setRung ..).trans ((CoxOnly.logChange ..).trans (.attn ..))) (.ite (.logChange ..) (.refl _))
  exact h1.trans (h2.trans (.ite (.refl _) (.planDue _)))
theorem CoxOnly.pair (recs : List StatRec) (fresh : List Nat) (ev : LayerEv) (l r : Nat) (y : LayerDesc) (s : State) :
    CoxOnly s (coxPair recs fresh ev l r y s) := by
  unfold coxPair
  dsimp only
  refine .ite (.refl s) (.ite (.cox ..) ?_)
  exact CoxOnly.trans (.cox ..) (.takeDecision ..)
theorem normLayer_cox (l k : Nat) (x : Option Nat) (s : State) : CoxOnly s (normLayer l k x s).2 := by
  unfold normLayer
  split
  · exact .refl s
  · extract_lets x r
    split
    · exact .refl s
    · exact .cox ..
theorem normJumps_cox (recs : List StatRec) (ys : List (LayerDesc × Nat)) (s : State) : CoxOnly s (normJumps recs ys s).2 := by
  unfold normJumps
  have k : ∀ acc : List Nat × State, CoxOnly s acc.2 → CoxOnly s (ys.foldl (fun acc x =>
    let a := normLayer x.2 0 (outSum recs x.1) acc.2
    let b := normLayer x.2 1 (gradSum s x.2) a.2
    (if a.1 || b.1 then acc.1 ++ [x.2] else acc.1, b.2)) acc).2 := by
    induction ys with
    | nil => exact fun _ h => h
    | cons y ys ih =>
      intro acc h
      rw [List.foldl_cons]
      exact ih _ (h.trans ((normLayer_cox ..).trans (normLayer_cox ..)))
  exact k ([], s) (.refl s)
theorem stormTest_cox (n : Nat) (pk : Pkg) (s : State) : CoxOnly s (stormTest n pk s).2 := by
  unfold stormTest
  extract_lets m v
  split
  · exact (CoxOnly.cox ..).trans ((CoxOnly.counts ((bump_countsOnly ..).trans (logEv_countsOnly ..))).trans (.attn ..))
  · exact .cox ..
theorem CoxOnly.endCox (b : Bool) (s : State) : CoxOnly s (endCox b s) := by
  unfold Machine.endCox
  extract_lets h e _ s1
  have h1 : CoxOnly s s1 := .cox ..
  exact h1.trans (.ite ((CoxOnly.counts (logEv_countsOnly ..)).trans (.attn ..)) (.refl _))
/-- Action 2 of a boundary. -/
theorem CoxOnly.boundary (recs : List StatRec) (fresh : List Nat) (s : State) : CoxOnly s (coxBoundary recs fresh s) := by
  unfold coxBoundary
  split
  · exact .refl s
  · next pk _ =>
    extract_lets ys _ jumps ovr flagged storm prs _ _ s2 s3
    have h1 : CoxOnly s storm.2 := (CoxOnly.cox ..).trans ((normJumps_cox ..).trans (stormTest_cox ..))
    have h2 : CoxOnly storm.2 s2 := .cox ..
    have h3 : CoxOnly s2 s3 := .forEach (fun x u => .pair ..) _ _
    exact h1.trans (h2.trans (h3.trans (.endCox ..)))
theorem usedSlot_twice (n : Nat) (r : SlotRec) : usedSlot n (usedSlot n r) = usedSlot n r := by
  unfold usedSlot
  by_cases h : r.state = 3 ∧ r.step = n
  · rw [if_pos h]; exact if_neg (by simp [slotD])
  · rw [if_neg h, if_neg h]
theorem usedSlot_free (n i : Nat) : usedSlot n (slotD i) = slotD i := if_neg (by simp [slotD])
theorem usedSlots (n : Nat) (l m : List (Nat × SlotRec)) (i : Nat) :
    sget slotD (l.foldl (fun m x => smod slotD m x.1 (usedSlot n)) m) i =
      if i ∈ l.map (·.1) then usedSlot n (sget slotD m i) else sget slotD m i := by
  induction l generalizing m with
  | nil => simp
  | cons x l ih =>
    rw [List.foldl_cons, ih, sget_smod]
    by_cases hx : i = x.1
    · subst hx
      rw [if_pos rfl, usedSlot_twice, ite_self, if_pos (by simp)]
    · rw [if_neg hx]
      by_cases hl : i ∈ l.map (·.1)
      · rw [if_pos hl, if_pos (by rw [List.map_cons]; exact List.mem_cons_of_mem _ hl)]
      · rw [if_neg hl, if_neg (by rw [List.map_cons, List.mem_cons, not_or]; exact ⟨hx, hl⟩)]
theorem sget_absent {α : Type} (d : Nat → α) (l : List (Nat × α)) (i : Nat) (h : i ∉ l.map (·.1)) : sget d l i = d i := by
  induction l with
  | nil => rfl
  | cons x l ih =>
    rw [List.map_cons, List.mem_cons, not_or] at h
    obtain ⟨k, v⟩ := x
    show (if i = k then v else sget d l i) = _
    rw [if_neg h.1, ih h.2]
theorem freeSlots_slot (n : Nat) (s : State) (i : Nat) : slot (freeSlots n s) i = usedSlot n (slot s i) := by
  unfold slot freeSlots
  dsimp only
  rw [usedSlots n s.adm.slots s.adm.slots i]
  by_cases h : i ∈ s.adm.slots.map (·.1)
  · rw [if_pos h]
  · rw [if_neg h, sget_absent _ _ _ h, usedSlot_free]
theorem otherCopy_of {s t : State} (h : t.run.copies = s.run.copies) : otherCopy t = otherCopy s := by
  funext a; unfold otherCopy; rw [h]
theorem writeAll_run (l : List (Nat × List Byte)) (s : State) (r : RunSt) : writeAll l { s with run := r } = { writeAll l s with run := r } := by
  induction l generalizing s with
  | nil => rfl
  | cons x l ih => exact ih (memWrite x.1 x.2 s)
/-- The state once the codebooks of the distribution have been written. -/
theorem books_eq (s : State) : ∃ m, writeAll s.run.bookWrites s = { s with mem := m } := ⟨_, writeAll_eq ..⟩
theorem commitUpdates_skip {s : State} (h : s.run.skipped = true) :
    commitUpdates s = { s with mem := (writeAll s.run.bookWrites s).mem, run := { s.run with bookWrites := [], moments := [] } } := by
  obtain ⟨m, hm⟩ := books_eq s
  unfold commitUpdates
  rw [hm]
  exact if_pos h
theorem commitUpdates_swap {s : State} (h : s.run.skipped = false) :
    commitUpdates s = { s with
      plan := s.plan.map (swapPlan (otherCopy s)), mem := (writeAll s.run.moments (writeAll s.run.bookWrites s)).mem
      run := { s.run with
        bookWrites := [], moments := [], copies := s.run.copies.map fun c => (c.2.1, c.1, c.2.2)
        opt := s.run.opt.map fun x => match optEntry s x.1 with | some e => (x.1, advPowers e x.2) | none => x } } := by
  obtain ⟨m, hm⟩ := books_eq s
  unfold commitUpdates
  rw [hm]
  dsimp only
  rw [if_neg (by rw [h]; decide)]
  have w := writeAll_run s.run.moments { s with mem := m } { s.run with bookWrites := [] }
  rw [writeAll_eq s.run.moments { s with mem := m }] at w
  generalize (writeAll s.run.moments { s with mem := m }).mem = M at w ⊢
  dsimp only at w
  rw [w]
  rfl
theorem commitUpdates_eq (s : State) : commitUpdates s = { s with
    plan := (commitUpdates s).plan, mem := (commitUpdates s).mem
    run := { s.run with bookWrites := [], moments := [], opt := (commitUpdates s).run.opt, copies := (commitUpdates s).run.copies } } := by
  cases h : s.run.skipped with
  | true => rw [commitUpdates_skip h]
  | false => rw [commitUpdates_swap h]
theorem staged_mem (s : State) : (commitUpdates s).mem = (writeAll (staged s) s).mem := by
  unfold staged writeAll
  cases h : s.run.skipped with
  | true => rw [commitUpdates_skip h]; simp only [if_pos, List.append_nil]; rfl
  | false => rw [commitUpdates_swap h]; simp only [Bool.false_eq_true, if_false, List.foldl_append]; rfl
/-- What a commit writes, before the counters, the attention and the traces that follow it. -/
def committing (s : State) : State :=
  let n := s.run.step
  let tokens := (exchanged s).tokens % 2 ^ 32
  let loss := lossOf (exchanged s).loss tokens
  let t := freeSlots n (commitUpdates s)
  { t with
    run := { t.run with last := some n, loss := loss, tokens := BitVec.ofNat 32 tokens, losses := t.run.losses ++ [(n, loss)],
                        snapLast := t.run.snap, lastSkipped := t.run.skipped },
    res := { t.res with sinceImage := t.res.sinceImage + 1 } }
theorem commit_tail (s : State) : CoxOnly (committing s) (commit s) := by
  unfold commit
  extract_lets n tokens loss s1 _ _ s2 s3 s4 s5
  have h2 : committing s = s2 := rfl
  rw [h2]
  have h3 : CoxOnly s2 s3 := .counts (bump_countsOnly ..)
  have h4 : CoxOnly s3 s4 := .ite (.counts (bump_countsOnly ..)) (.refl _)
  have h5 : CoxOnly s4 s5 := .ite (.attn ..) (.refl _)
  refine h3.trans (h4.trans (h5.trans ?_))
  exact CoxOnly.forEach (f := fun c t => traceRec c 0 0x0A 0 n 0 t) (fun x u => .traceRec ..) _ _
theorem committing_eq (z : State) : ∃ l, (∀ i, sget slotD l i = usedSlot z.run.step (slot z i)) ∧ committing z = { z with
    plan := (commitUpdates z).plan, mem := (commitUpdates z).mem, res := { z.res with sinceImage := z.res.sinceImage + 1 }
    adm := { z.adm with slots := l, segments := z.adm.segments.filter fun g => g.step != z.run.step }
    run := { z.run with
      moments := [], bookWrites := [], opt := (commitUpdates z).run.opt, copies := (commitUpdates z).run.copies, last := some z.run.step
      loss := lossOf (exchanged z).loss ((exchanged z).tokens % 2 ^ 32), tokens := BitVec.ofNat 32 ((exchanged z).tokens % 2 ^ 32)
      losses := z.run.losses ++ [(z.run.step, lossOf (exchanged z).loss ((exchanged z).tokens % 2 ^ 32))]
      snapLast := z.run.snap, lastSkipped := z.run.skipped } } := by
  have u := commitUpdates_eq z
  refine ⟨(freeSlots z.run.step (commitUpdates z)).adm.slots, fun i => ?_, ?_⟩
  · refine (freeSlots_slot z.run.step (commitUpdates z) i).trans ?_
    rw [u]; rfl
  · unfold committing
    dsimp only
    generalize exchanged z = x
    generalize commitUpdates z = v at u
    rw [u]
    rfl
/-- Actions 1 and 2 where no run-wide PLAN takes effect, but for the step's number. -/
theorem decided_eq (s : State) (h : ∀ r, s.host.rwPlan = some r → (exchanged s).planHeld = false ∨ s.run.carried.contains r.ring = false)
    (f : BoundFin)
    (hf : f = { committed := true, step := s.run.step, refused := (exchanged s).refused, replayed := s.res.rollback }) :
    ∃ w, CoxOnly (committing { s with run := { s.run with fin := f } }) w ∧ decided s = { w with run := { w.run with step := s.run.step + 1 } } := by
  unfold decided
  extract_lets n fin _ s0 recs s1 rw_ s2
  have e0 : s0 = { s with run := { s.run with fin := f } } := by rw [hf]
  have k1 := commit_tail s0
  obtain ⟨l, -, hc⟩ := committing_eq s0
  have hr : s1.host.rwPlan = s.host.rwPlan ∧ exchanged s1 = exchanged s ∧ s1.run.carried = s.run.carried := by
    refine ⟨?_, ?_, ?_⟩
    · show (commit s0).host.rwPlan = _; rw [k1.host, hc]
    · show exchanged (commit s0) = _; rw [k1.rest, hc]; rfl
    · show (commit s0).run.carried = _; rw [k1.rest, hc]
  have e1 : rw_ = ([], s1) := by
    show runWidePlan s1 = _
    unfold runWidePlan
    split
    · next r hw =>
      rw [if_pos]
      rw [hr.2.1, hr.2.2]
      rw [hr.1] at hw
      rcases h r hw with k | k
      · rw [k]; rfl
      · rw [k]; exact Bool.or_true _
    · rfl
  have k2 : CoxOnly s1 s2 := by
    show CoxOnly s1 (coxBoundary recs rw_.1 (keepHistory recs rw_.2))
    rw [e1]
    exact CoxOnly.trans (.cox ..) (.boundary ..)
  exact ⟨s2, e0 ▸ k1.trans k2, rfl⟩
/-- What actions 1 and 2 leave where no run-wide PLAN takes effect. -/
theorem decided_spec (s : State) (h : ∀ r, s.host.rwPlan = some r → (exchanged s).planHeld = false ∨ s.run.carried.contains r.ring = false) : Committed s (decided s) := by
  obtain ⟨w, k, hd⟩ := decided_eq s h _ rfl
  generalize hf : ({ committed := true, step := s.run.step, refused := (exchanged s).refused, replayed := s.res.rollback } : BoundFin) = f at k
  generalize hz : ({ s with run := { s.run with fin := f } } : State) = z at k
  obtain ⟨l, hl, hc⟩ := committing_eq z
  have ex : exchanged z = exchanged s := by rw [← hz]; rfl
  rw [hc, ex] at k
  clear hc
  have ho : otherCopy z = otherCopy s := otherCopy_of (by rw [← hz])
  have hp : ∀ i, optEntry z i = optEntry s i := fun i => by rw [← hz]; rfl
  have hm : ∀ x, memByte z x = memByte s x := fun x => by rw [← hz]; exact memByte_congr x rfl rfl rfl rfl
  have hst : staged z = staged s := by rw [← hz]; rfl
  have vm := staged_mem z
  have sk : z.run.skipped = true → (commitUpdates z).plan = z.plan ∧ (commitUpdates z).run.copies = z.run.copies ∧ (commitUpdates z).run.opt = z.run.opt := fun hh => by
    rw [commitUpdates_skip hh]; exact ⟨rfl, rfl, rfl⟩
  have sw : z.run.skipped = false → (commitUpdates z).plan = z.plan.map (swapPlan (otherCopy z)) ∧
      (commitUpdates z).run.copies = (z.run.copies.map fun c => (c.2.1, c.1, c.2.2)) ∧
      (commitUpdates z).run.opt = (z.run.opt.map fun x => match optEntry z x.1 with | some e => (x.1, advPowers e x.2) | none => x) := fun hh => by
    rw [commitUpdates_swap hh]; exact ⟨rfl, rfl, rfl⟩
  generalize commitUpdates z = v at k vm sk sw
  have zs : z.run.skipped = s.run.skipped := by rw [← hz]
  rw [zs] at sk sw
  have hpo : (z.run.opt.map fun x => match optEntry z x.1 with | some e => (x.1, advPowers e x.2) | none => x) =
      s.run.opt.map fun x => match optEntry s x.1 with | some e => (x.1, advPowers e x.2) | none => x := by
    have e : z.run.opt = s.run.opt := by rw [← hz]
    rw [e]
    exact List.map_congr_left fun x _ => by rw [hp]
  rw [hpo] at sw
  have zp : z.plan = s.plan := by rw [← hz]
  have zc : z.run.copies = s.run.copies := by rw [← hz]
  have zo : z.run.opt = s.run.opt := by rw [← hz]
  rw [zp, zc] at sk sw
  rw [zo] at sk
  rw [ho] at sw
  have kr := k.rest
  have kh := k.host
  have hb : ∀ x, ¬ logRing x → memByte { w with run := { w.run with step := s.run.step + 1 } } x = memByte (writeAll (staged s) z) x := fun x hx => by
    have e1 : memByte { w with run := { w.run with step := s.run.step + 1 } } x = memByte w x := memByte_congr x rfl rfl rfl rfl
    have e := writeAll_eq (staged s) z
    rw [e1, k.mem x hx]
    rw [hst] at vm
    rw [vm]
    refine memByte_congr x ?_ ?_ ?_ ?_ <;> rw [e]
  have wr : w.run = { s.run with
      fin := f, moments := [], bookWrites := [], opt := v.run.opt, copies := v.run.copies, last := some s.run.step
      loss := lossOf (exchanged s).loss ((exchanged s).tokens % 2 ^ 32), tokens := BitVec.ofNat 32 ((exchanged s).tokens % 2 ^ 32)
      losses := s.run.losses ++ [(s.run.step, lossOf (exchanged s).loss ((exchanged s).tokens % 2 ^ 32))]
      snapLast := s.run.snap, lastSkipped := s.run.skipped, planDue := w.run.planDue } := by
    rw [kr, ← hz]
  have wa : w.adm = { s.adm with slots := l, segments := s.adm.segments.filter fun g => g.step != s.run.step } := by rw [kr, ← hz]
  have wp : w.plan = v.plan := by rw [kr]
  have hh : w.host = { s.host with attnSeq := w.host.attnSeq, attnStep := w.host.attnStep, attnStanding := w.host.attnStanding, events := w.host.events } := by
    rw [kh, ← hz]
  rw [hd]
  refine ⟨?_, rfl, ?_, ?_, ?_, fun i => ?_, ?_, fun hsk => ?_, fun hsk => ?_, ⟨fun x hx hy => ?_, fun lo hi a m hlm hdj hpl => ?_⟩, ?_, ?_, hh, ?_⟩
  · show w.run.last = _; rw [wr]
  · show w.run.tokens = _; rw [wr]
    apply BitVec.eq_of_toNat_eq; simp [BitVec.toNat_ofNat]
  · show w.run.loss = _; rw [wr]
  · show w.run.losses = s.run.losses ++ [(s.run.step, w.run.loss)]; rw [wr]
  · show sget slotD w.adm.slots i = _
    rw [wa]
    refine (hl i).trans ?_
    rw [← hz]; rfl
  · show w.adm.segments = _; rw [wa]
  · obtain ⟨a1, a2, a3⟩ := sk hsk
    refine ⟨?_, ?_, ?_⟩
    · show w.plan = _; rw [wp, a1]
    · show w.run.copies = _; rw [wr]; exact a2
    · show w.run.opt = _; rw [wr]; exact a3
  · obtain ⟨a1, a2, a3⟩ := sw hsk
    refine ⟨?_, ?_, ?_⟩
    · show w.plan = _; rw [wp, a1]
    · show w.run.copies = _; rw [wr]; exact a2
    · show w.run.opt = _; rw [wr]; exact a3
  · rw [hb x hx, writeAll_ne _ _ hy, hm]
  · have e : memBytes { w with run := { w.run with step := s.run.step + 1 } } a m.length = memBytes (writeAll (staged s) z) a m.length := by
      unfold memBytes
      exact List.map_congr_left fun j hj => hb _ (hpl j (List.mem_range.1 hj)).2
    rw [e, hlm]
    exact writeAll_mem lo hi a m z hdj hpl
  · show w.run.fin = _; rw [wr, hf]
  · show ({ w.run with step := s.run.step + 1 } : RunSt) = _
    rw [wr]
  · have wx : w = { s with
        run := w.run, res := { s.res with sinceImage := s.res.sinceImage + 1 }, adm := w.adm, plan := w.plan, mem := w.mem
        cox := w.cox, trace := w.trace, cnt := w.cnt, log := w.log, host := w.host } := by
      rw [kr, ← hz]
    have wb : w.adm = { s.adm with slots := w.adm.slots, segments := w.adm.segments } := by rw [wa]
    have wy : w = { s with
        run := w.run, res := { s.res with sinceImage := s.res.sinceImage + 1 }, adm := { s.adm with slots := w.adm.slots, segments := w.adm.segments }
        plan := w.plan, mem := w.mem, cox := w.cox, trace := w.trace, cnt := w.cnt, log := w.log, host := w.host } := by
      rw [← wb]; exact wx
    exact congrArg (fun y : State => { y with run := { w.run with step := s.run.step + 1 } }) wy

theorem takePaths_quiet {d : State} (h : QuietEnd d) : takePaths d = { st := d, rollback := false, hold := 0 } := by
  obtain ⟨p1, p2, p3, p4⟩ := h.paths
  obtain ⟨-, -, -, -, f5, -⟩ := h.hold
  have f0 : ({ d.res with secureDue := false } : ResSt) = d.res := by
    generalize d.res = r at p4
    cases r; simp only at p4; simp only [p4]
  have ha : takeAll d = { st := d, rollback := false, hold := 0 } := by
    unfold takeAll
    have hl : newLost d = [] := by unfold newLost; rw [p2]; simp
    dsimp only
    rw [p1, hl]
    simp only [List.filter_nil, List.foldl_nil]
    have e0 : (d.res.paths.filter fun f => (d.res.rollback && decide (1 ≤ f.code) && decide (f.code ≤ 6)) || !([] : List FailPath).contains f) = d.res.paths := by
      rw [List.filter_eq_self]; intro a _; simp
    have e1 : (d.res.declared.filter fun x => !([] : List Nat).contains x.1) = d.res.declared := by
      rw [List.filter_eq_self]; intro a _; rfl
    rw [e0, e1]
    have e2 : ({ d.res with paths := d.res.paths, lost := [], declared := d.res.declared } : ResSt) = d.res := by
      generalize d.res = r at p2
      cases r; simp only at p2; simp only [p2]
    exact congrArg (fun x => ({ st := { d with res := x }, rollback := false, hold := 0 } : PathOut)) e2
  unfold takePaths
  rw [f0, ha]
  have g0 : ({ d.res with secureDue := d.res.secureDue || d.res.secureDue } : ResSt) = d.res := by rw [Bool.or_self]
  have g1 : ({ d.run.fin with secure := d.run.fin.secure || d.res.secureDue } : BoundFin) = d.run.fin := by rw [p4, Bool.or_false]
  dsimp only
  rw [g0, g1]
theorem actionThree_quiet {b : BoundaryIn} {d : State} (h : QuietEnd d) (old : List (Nat × Nat)) (n : Nat) : actionThree b old n d = d := by
  have hr : replan old n { st := d, rollback := false, hold := 0 } = { st := d, rollback := false, hold := 0 } := by
    unfold replan
    split
    · rfl
    · dsimp only; rw [if_pos (by rw [h.plan.1]; rfl)]
  unfold actionThree
  rw [takePaths_quiet h]
  dsimp only
  rw [hr]
  simp only [Bool.not_false, if_true]
  have e1 : max d.run.fin.hold 0 = d.run.fin.hold := by omega
  have e2 : ({ d.run with boundWait := false, fin := { d.run.fin with hold := d.run.fin.hold } } : RunSt) = d.run := by
    have := h.plan.2
    generalize d.run = r at this
    cases r; simp only at this; simp only [this]
  rw [e1, e2]
theorem afterThree_quiet {d : State} (h : QuietEnd d) : afterThree d = actionsFourFive d := by
  unfold afterThree; rw [if_neg (by rw [h.plan.2]; decide)]
theorem replayCompare_quiet {d : State} (h : d.res.rollback = false) (n : Nat) : replayCompare n d = d := by
  unfold replayCompare; rw [if_pos (by rw [h]; rfl)]
theorem boundaryHold_quiet {d : State} (h : QuietEnd d) (hl : d.run.limit = 0xFFFFFFFF ∨ d.run.fin.step < d.run.limit) : boundaryHold d = d := by
  obtain ⟨f1, f2, f3, f4, -⟩ := h.hold
  obtain ⟨g1, -, g2⟩ := h.asked
  unfold boundaryHold
  simp only [g1, g2, f1, Bool.false_and, Bool.false_eq_true, if_false, bne_self_eq_false]
  have : (d.run.limit != 0xFFFFFFFF && decide (d.run.limit ≤ d.run.fin.step)) = false := by
    rcases hl with k | k
    · rw [k]; rfl
    · have : ¬ d.run.limit ≤ d.run.fin.step := by omega
      simp [this]
  rw [this]
  have e : ({ d.run.fin with hold := 0, pause := false, pauseEnd := false } : BoundFin) = d.run.fin := by
    generalize d.run.fin = f at f1 f2 f3
    cases f; simp only at f1 f2 f3; simp only [f1, f2, f3]
  simp only [Bool.false_eq_true, if_false]
  rw [e]
theorem riskAction_spec (d : State) : CountsOnly { d with res := { d.res with sysRisk := (exchanged d).risk } } (riskAction d) := by
  unfold riskAction
  extract_lets x _ t
  split
  · exact (logEv_countsOnly ..).trans (attn_countsOnly ..)
  · exact .refl _
/-- The reply of a command is written at once when its ring has room. -/
theorem reply_written {q tag op code : Nat} {p : List Byte} {s : State} (h1 : ringEnabled s q = true) (h2 : rqFull s q = false) (h3 : s.host.d3hot = false)
    (h4 : (ring s q).queued = []) (h5 : hostRange s (rqBase s q + 32 * (ring s q).rqTail) 32 = true) :
    Output.hostWrite (rqBase s q + 32 * (ring s q).rqTail + 8) (padTo 24 p) ∈ (reply q tag op code p s).out := by
  rw [(reply_cases q tag op code p s h1).2 h2 h3 h4]
  unfold writeReply
  extract_lets a first s1
  have : s1 = emit (.hostWrite a first) (emit (.hostWrite (a + 8) ((statusWord s code s.host.attnStep ++ leBytes 2 tag ++ leBytes 1 op ++ [0] ++ padTo 24 p).drop 8)) s) :=
    if_pos h5
  show _ ∈ s1.out
  rw [this]
  refine List.mem_cons_of_mem _ ?_
  have e : (statusWord s code s.host.attnStep ++ leBytes 2 tag ++ leBytes 1 op ++ [0] ++ padTo 24 p).drop 8 = padTo 24 p := by
    have l : (statusWord s code s.host.attnStep ++ leBytes 2 tag ++ leBytes 1 op ++ [0]).length = 8 := by
      simp [statusWord_len, length_leBytes]
    exact List.drop_left' l
  rw [e]
  exact List.mem_cons_self
/-- The step's reply: what the host interface holds, and the count of refused samples. -/
theorem stepReply_spec (v : State) : ∃ t, t = stepReply v ∧ HostOnly { v with adm := { v.adm with refused := t.adm.refused } } t ∧
    (v.run.fin.replayed = false → t.adm.refused = 0 ∧
      (ringEnabled v v.host.runRing = true → rqFull v v.host.runRing = false → v.host.d3hot = false →
        (ring v v.host.runRing).queued = [] → hostRange v (rqBase v v.host.runRing + 32 * (ring v v.host.runRing).rqTail) 32 = true →
        Output.hostWrite (rqBase v v.host.runRing + 32 * (ring v v.host.runRing).rqTail + 8)
          (padTo 24 (b4 (if v.run.fin.committed then v.run.fin.step else stepField v) ++ b4 v.run.loss.toNat ++ b4 v.run.tokens.toNat ++
            leBytes 2 (stepFlags v) ++ leBytes 2 (min v.run.easy 0xFFFF) ++ b4 v.run.fin.refused ++ b4 (v.stroke.count + 1 - v.run.startStroke))) ∈ t.out)) := by
  refine ⟨_, rfl, ?_⟩
  unfold stepReply
  extract_lets a0 f n body s1 hh0 aa0
  have e_hh : hh0 = s1.host := rfl
  have e_aa : aa0 = s1.adm := rfl
  have e_a0 : a0 = v.adm := rfl
  clear_value hh0 aa0 a0
  subst e_hh e_aa e_a0
  by_cases hr : f.replayed = true
  · rw [if_pos hr]
    exact ⟨.refl v, fun h => absurd hr (by show ¬ v.run.fin.replayed = true; rw [h]; decide)⟩
  · rw [if_neg hr]
    have h1 : HostOnly v s1 := .reply ..
    have hw : (ringEnabled v v.host.runRing = true → rqFull v v.host.runRing = false → v.host.d3hot = false →
        (ring v v.host.runRing).queued = [] → hostRange v (rqBase v v.host.runRing + 32 * (ring v v.host.runRing).rqTail) 32 = true →
        Output.hostWrite (rqBase v v.host.runRing + 32 * (ring v v.host.runRing).rqTail + 8) (padTo 24 body) ∈ s1.out) :=
      fun a1 a2 a3 a4 a5 => reply_written a1 a2 a3 a4 a5
    clear_value s1
    refine ⟨⟨?_, fun x hx => ?_⟩, fun _ => ⟨rfl, hw⟩⟩
    · have e := h1.rest
      rw [e]
    · have e1 : memByte { s1 with host := { s1.host with attnStep := 0 }, adm := { s1.adm with refused := 0 } } x = memByte s1 x :=
        memByte_congr x rfl rfl rfl rfl
      exact (e1.trans (h1.mem x hx)).trans (memByte_congr x rfl rfl rfl rfl)
theorem reply_host (q tag op code : Nat) (p : List Byte) (s : State) : (reply q tag op code p s).host = { s.host with
    rings := (reply q tag op code p s).host.rings, attnSeq := (reply q tag op code p s).host.attnSeq
    attnStep := (reply q tag op code p s).host.attnStep, attnStanding := (reply q tag op code p s).host.attnStanding
    events := (reply q tag op code p s).host.events } := by
  unfold reply
  extract_lets r
  split
  · rfl
  · split
    · rfl
    · unfold writeReply
      extract_lets a first s1
      have : s1.host = { s.host with attnSeq := s1.host.attnSeq, attnStep := s1.host.attnStep, attnStanding := s1.host.attnStanding, events := s1.host.events } := by
        unfold s1; split
        · rfl
        · exact (bump_countsOnly ..).host
      clear_value s1
      have hm : ∀ F, (Machine.modRing q F s1).host = { s.host with
          rings := (Machine.modRing q F s1).host.rings, attnSeq := s1.host.attnSeq, attnStep := s1.host.attnStep
          attnStanding := s1.host.attnStanding, events := s1.host.events } := fun F => by
        have h0 : (Machine.modRing q F s1).host = { s1.host with rings := (Machine.modRing q F s1).host.rings } := rfl
        rw [h0]
        generalize (Machine.modRing q F s1).host.rings = R
        rw [this]
      exact hm _
theorem stepReply_host (s : State) : (stepReply s).host.rwPlan = s.host.rwPlan ∧ (stepReply s).host.rwSecure = s.host.rwSecure ∧
    (stepReply s).host.rwPause = s.host.rwPause := by
  unfold stepReply
  extract_lets f n body s1 _ _
  have h : s1.host.rwPlan = s.host.rwPlan ∧ s1.host.rwSecure = s.host.rwSecure ∧ s1.host.rwPause = s.host.rwPause := by
    have := reply_host s.host.runRing (n % 65536) 0x80 0 body s
    unfold s1
    rw [this]
    exact ⟨rfl, rfl, rfl⟩
  clear_value s1
  split
  · exact ⟨rfl, rfl, rfl⟩
  · exact h
/-- Actions 4 and 5 of a quiet boundary. -/
theorem finish_quiet {d : State} (h : QuietEnd d) : BoundaryEnds d (actionsFourFive d) := by
  obtain ⟨f1, f2, f3, f4, f6, f5⟩ := h.hold
  obtain ⟨c2, c3, c4⟩ := h.commands
  unfold actionsFourFive
  extract_lets s1 code _ _ s2
  have k := riskAction_spec d
  have k1 : CountsOnly { d with res := { d.res with sysRisk := (exchanged d).risk } } s1 := k
  clear k
  have hs : s2 = { s1 with run := { s1.run with fin := { s1.run.fin with planCode := code } } } := rfl
  clear_value code s2 s1
  have r1 : s1.run = d.run := by rw [k1.rest]
  have r2 : s1.res = { d.res with sysRisk := (exchanged d).risk } := by rw [k1.rest]
  have r3 : s1.dev = d.dev := by rw [k1.rest]
  have r4 : s1.regs = d.regs := by rw [k1.rest]
  have r5 : s1.host.rwSecure = d.host.rwSecure := by rw [k1.host]
  have g1 : exchanged s2 = exchanged d := by rw [hs, k1.rest]; rfl
  have g2 : s2.run.fin.secure = false := by rw [hs]; show s1.run.fin.secure = _; rw [r1]; exact f6
  rw [if_neg (by rw [g1, h.asked.2.1, g2]; simp)]
  obtain ⟨v, hv, v1, v2⟩ := stepReply_spec s2
  have hh := stepReply_host s2
  unfold finishBoundary
  rw [← hv] at hh ⊢
  clear hv
  have q1 : v.run = s2.run := by rw [v1.rest]
  have q2 : s2.run.fin = { d.run.fin with planCode := code } := by rw [hs]; show ({ s1.run.fin with planCode := code } : BoundFin) = _; rw [r1]
  have q3 : v.run.fin.hold = 0 := by rw [q1, q2]; exact f1
  have q4 : v.run.fin.planActed = false := by rw [q1, q2]; exact f4
  have q5 : v.run.fin.pause = false := by rw [q1, q2]; exact f2
  have q6 : v.run.secured = false := by rw [q1, hs]; show s1.run.secured = _; rw [r1]; exact f5
  have w1 : runWideReplies v = v := by
    unfold runWideReplies pauseReplies secureReplies planReply
    simp only [q4, q5, q6, Bool.not_false, if_true, Bool.false_and, Bool.false_eq_true, if_false]
  have hd : s2.host = s1.host := by rw [hs]
  have hw1 : v.host.rwPlan = none := by rw [hh.1, hd, k1.host]; exact c3
  have hw2 : v.host.rwSecure = [] := by rw [hh.2.1, hd, k1.host]; exact c4
  have hw3 : v.host.rwPause = [] := by rw [hh.2.2, hd, k1.host]; exact c2
  have w2 : abortPending v = v := by
    unfold abortPending
    rw [hw1, hw2, hw3]
    show ({ v with host := { v.host with rwPlan := none, rwSecure := [], rwPause := [] } } : State) = v
    have : ({ v.host with rwPlan := none, rwSecure := [], rwPause := [] } : HostSt) = v.host := by
      generalize v.host = H at hw1 hw2 hw3
      cases H; simp only at hw1 hw2 hw3; simp only [hw1, hw2, hw3]
    rw [this]
  dsimp only
  rw [w1, w2, ite_self]
  have e1 : v.res = { d.res with sysRisk := (exchanged d).risk } := by rw [v1.rest, hs]; exact r2
  have w3 : afterBoundary v = { v with run := { v.run with boundDone := true }, dev := DevState.running } := by
    unfold afterBoundary
    dsimp only
    rw [if_neg (by rw [q3]; decide), if_neg (by rw [q3]; decide), if_neg]
    rw [e1]
    simp [h.paths.2.2.1, h.back]
  rw [w3]
  have h2 : s2.host = { d.host with attnSeq := s2.host.attnSeq, attnStep := s2.host.attnStep, attnStanding := s2.host.attnStanding, events := s2.host.events } := by
    rw [hd]; exact k1.host
  have e2 : s2 = { d with
      res := { d.res with sysRisk := (exchanged d).risk }, run := { d.run with fin := { d.run.fin with planCode := code } }
      cnt := s2.cnt, log := s2.log, host := s2.host } := by
    rw [hs, k1.rest]
  have m2 : ∀ x, ¬ logRing x → memByte s2 x = memByte d x := fun x hx => by
    have a1 : memByte s2 x = memByte s1 x := by rw [hs]; exact memByte_congr x rfl rfl rfl rfl
    rw [a1, k1.mem x hx]; exact memByte_congr x rfl rfl rfl rfl
  have vr : v.run = { d.run with fin := { d.run.fin with planCode := code } } := by rw [q1, e2]
  clear hs k1 r1 r2 r3 r4 r5 hd
  refine ⟨rfl, ?_, ?_, e1, fun x hx => ?_, ?_, fun hr => (v2 (by rw [q2]; exact hr)).1, fun hr a1 a2 a3 a4 a5 => ?_⟩
  · show ({ v.run with boundDone := true } : RunSt) = { d.run with boundDone := true, fin := v.run.fin }
    rw [vr]
  · show v.run.fin.hold = 0 ∧ v.run.fin.committed = _ ∧ v.run.fin.step = _
    rw [vr]; exact ⟨f1, rfl, rfl⟩
  · have a1 : memByte { v with run := { v.run with boundDone := true }, dev := DevState.running } x = memByte v x := memByte_congr x rfl rfl rfl rfl
    rw [a1, v1.mem x hx]
    have a2 : memByte { s2 with adm := { s2.adm with refused := v.adm.refused } } x = memByte s2 x := memByte_congr x rfl rfl rfl rfl
    rw [a2, m2 x hx]
  · have va : v.adm = { d.adm with refused := v.adm.refused } := by rw [v1.rest, e2]
    have vv : v = { d with res := v.res, run := v.run, adm := { d.adm with refused := v.adm.refused }, cnt := v.cnt, log := v.log, host := v.host, out := v.out } := by
      rw [v1.rest, e2]
    exact congrArg (fun y : State => { y with run := { v.run with boundDone := true }, dev := DevState.running }) vv
  · have c0 : s2.host.runRing = d.host.runRing := by rw [h2]
    have c1 : ∀ q, ring s2 q = ring d q := fun q => by unfold ring; rw [h2]
    have c2 : ∀ q, ringEnabled s2 q = ringEnabled d q := fun q => by unfold ringEnabled reg regW; rw [e2]
    have c3 : ∀ q, ringLog2 s2 q true = ringLog2 d q true := fun q => by unfold ringLog2 reg regW; rw [e2]
    have c4 : ∀ q, rqFull s2 q = rqFull d q := fun q => by unfold rqFull; rw [c1, c3]
    have c5 : s2.host.d3hot = d.host.d3hot := by rw [h2]
    have c6 : ∀ q, rqBase s2 q = rqBase d q := fun q => by unfold rqBase reg regW; rw [e2]
    have c7 : ∀ x n, hostRange s2 x n = hostRange d x n := fun x n => by
      have hw : ∀ w y, winCovers s2 w y = winCovers d w y := fun w y => by
        unfold winCovers winBase reg regW; rw [e2]
      unfold hostRange
      simp only [hw]
    have c8 : stepFlags s2 = stepFlags d := by unfold stepFlags; rw [g1, e2]
    have c9 : stepField s2 = stepField d := by unfold stepField; rw [e2]
    have k := (v2 (by rw [q2]; exact hr)).2
    rw [c0, c1, c2, c4, c5, c6, c7, c8, c9, q2] at k
    have k2 := k a1 a2 a3 a4 a5
    have d1 : s2.run.loss = d.run.loss := by rw [e2]
    have d2 : s2.run.tokens = d.run.tokens := by rw [e2]
    have d3 : s2.run.easy = d.run.easy := by rw [e2]
    have d4 : s2.run.startStroke = d.run.startStroke := by rw [e2]
    have d5 : s2.stroke = d.stroke := by rw [e2]
    rw [d1, d2, d3, d4, d5] at k2
    exact k2

theorem HostOnly.forEach {α : Type} {f : α → State → State} (hf : ∀ x u, HostOnly u (f x u)) (l : List α) (s : State) : HostOnly s (forEach l f s) := by
  unfold Machine.forEach
  induction l generalizing s with
  | nil => exact .refl s
  | cons x l ih => exact (hf x s).trans (ih _)
theorem HostOnly.setHost (s : State) (h : HostSt) : HostOnly s { s with host := h } := .host s h s.out
theorem HostOnly.abortPending (s : State) : HostOnly s (abortPending s) := by
  unfold Machine.abortPending
  exact (HostOnly.setHost s { s.host with rwPlan := none, rwSecure := [], rwPause := [] }).trans (.forEach (fun _ _ => .complete ..) _ _)
theorem HostOnly.runWide (s : State) : HostOnly s (runWideReplies s) := by
  have h1 : ∀ u, HostOnly u (planReply u) := fun u => by
    unfold planReply
    split
    · exact .refl u
    · split
      · exact (HostOnly.setHost u { u.host with rwPlan := none }).trans (.complete ..)
      · exact .refl u
  have h2 : ∀ u, HostOnly u (secureReplies u) := fun u => by
    unfold secureReplies
    split
    · exact .refl u
    · exact (HostOnly.setHost u { u.host with rwSecure := u.host.rwSecure.filter fun q => !u.run.carried.contains q }).trans (.forEach (fun _ _ => .complete ..) _ _)
  have h3 : ∀ u, HostOnly u (pauseReplies u) := fun u => by
    unfold pauseReplies
    split
    · exact (HostOnly.setHost u { u.host with rwPause := u.host.rwPause.filter fun x => !u.run.carried.contains x.1 }).trans (.forEach (fun _ _ => .complete ..) _ _)
    · exact .refl u
  exact (h1 s).trans ((h2 _).trans (h3 _))
/-- The end of a boundary whose run goes on. -/
theorem finishBoundary_goes {v : State} (h1 : v.run.fin.hold = 0) (h2 : v.res.path = 0) (h3 : v.res.rollback = false) :
    ∃ r u, HostOnly { v with adm := { v.adm with refused := r } } u ∧
      finishBoundary v = { u with run := { v.run with boundDone := true }, dev := DevState.running } := by
  unfold finishBoundary
  obtain ⟨w, hw, w1, -⟩ := stepReply_spec v
  rw [← hw]
  clear hw
  refine ⟨w.adm.refused, if ((runWideReplies w).run.fin.hold != 0 || !(runWideReplies w).run.fin.committed) = true then
      abortPending (runWideReplies w) else runWideReplies w, ?_, ?_⟩
  rotate_left
  · dsimp only
    have k : HostOnly w (if ((runWideReplies w).run.fin.hold != 0 || !(runWideReplies w).run.fin.committed) = true then
      abortPending (runWideReplies w) else runWideReplies w) := (HostOnly.runWide w).trans (.ite (.abortPending _) (.refl _))
    generalize (if ((runWideReplies w).run.fin.hold != 0 || !(runWideReplies w).run.fin.committed) = true then
      abortPending (runWideReplies w) else runWideReplies w) = u at k ⊢
    have r1 : u.run = v.run := by rw [k.rest, w1.rest]
    have r2 : u.res = v.res := by rw [k.rest, w1.rest]
    unfold afterBoundary
    dsimp only
    rw [if_neg (by rw [r1, h1]; decide), if_neg (by rw [r1, h1]; decide), if_neg (by rw [r2, h2, h3]; decide), r1]
  · exact w1.trans ((HostOnly.runWide w).trans (.ite (.abortPending _) (.refl _)))
theorem releaseAll_spec (l : List Nat) (hl : l.Nodup) (s : State) (t : State) (ht : t = forEach l releaseSource s) :
    (∀ i x, i ∈ l → source s i = some x →
      source t i = some { x with released := max x.released (minOr x.next (samplesOf s.run.snapLast.adm i ++ samplesOf s.adm i)) }) ∧
    (∀ i, i ∉ l → source t i = source s i) ∧ t = { s with sources := t.sources, out := t.out } := by
  unfold forEach at ht
  induction l generalizing s with
  | nil => subst ht; exact ⟨fun i x h => absurd h List.not_mem_nil, fun _ _ => rfl, rfl⟩
  | cons k l ih =>
    rw [List.foldl_cons] at ht
    rw [List.nodup_cons] at hl
    have e : releaseSource k s = { s with sources := (releaseSource k s).sources, out := (releaseSource k s).out } := by
      unfold releaseSource; rw [writeCounts_eq]; rfl
    have e1 : ∀ i, source (releaseSource k s) i = if i = k then (source s i).map fun x =>
        { x with released := max x.released (minOr x.next (samplesOf s.run.snapLast.adm k ++ samplesOf s.adm k)) } else source s i := fun i => by
      unfold releaseSource
      rw [writeCounts_eq]
      exact source_modSource ..
    obtain ⟨a, b, c⟩ := ih hl.2 _ ht
    generalize releaseSource k s = u at *
    have q1 : u.run = s.run := by rw [e]
    have q2 : u.adm = s.adm := by rw [e]
    rw [q1, q2] at a
    refine ⟨fun i x hi hx => ?_, fun i hi => ?_, by rw [c, e]⟩
    · by_cases hk : i = k
      · subst hk
        rw [b i hl.1, e1, if_pos rfl, hx]; rfl
      · have hi2 : i ∈ l := (List.mem_cons.1 hi).resolve_left hk
        exact a i x hi2 (by rw [e1, if_neg hk]; exact hx)
    · rw [List.mem_cons, not_or] at hi
      rw [b i hi.2, e1, if_neg hi.1]
theorem startHostCopy_eq (s : State) : startHostCopy s = { s with res := { s.res with
    hcopyState := (startHostCopy s).res.hcopyState, hcopyPercent := (startHostCopy s).res.hcopyPercent, hcopyBytes := (startHostCopy s).res.hcopyBytes } } := by
  unfold startHostCopy; split <;> rfl

end Sys2Proof.Machine
end

