-- ==== Sys2Proof/Laws/Control.lean ====
section
/-! SUPPORT. What a control reduction does once its operands are in, and what its result brings (R284). -/

namespace Sys2Proof.Machine

open Sys2Proof

theorem atEpoch_same {s t : State} (h : t.link.epoch = s.link.epoch) : atEpoch s t = t := if_pos h

/-- Every child of this device gets the result. -/
theorem down_sends (id acc : Nat) (s : State) (y : Nat) (hy : y ∈ (ctlTree s id).2) (q : Nat × Nat) (hr : routeOf s y = some q)
    (hu : (subp s q.1 q.2).up = true) : ∃ g, Output.packet q.1 q.2 g (ctlBody id acc) ∈ (ctlSendDown id acc s).out := by
  unfold ctlSendDown
  generalize (ctlTree s id).2 = l at hy
  have route : ∀ u, NetOnly s u → ∀ z, routeOf u z = routeOf s z := fun u h z => by unfold routeOf; rw [h.rest]
  have key : ∀ (l : List Nat) (t : State), y ∈ l → NetOnly s t → SameUp s t → ∃ g, Output.packet q.1 q.2 g (ctlBody id acc) ∈
      (forEach l (fun c t => sendTo (newHdr t 0 3 c 0 0 id (ctlBody id acc)) (ctlBody id acc) t) t).out := by
    intro l
    induction l with
    | nil => exact fun t h => absurd h List.not_mem_nil
    | cons x l ih =>
      intro t h hn hs
      have e : forEach (x :: l) (fun c t => sendTo (newHdr t 0 3 c 0 0 id (ctlBody id acc)) (ctlBody id acc) t) t =
        forEach l (fun c t => sendTo (newHdr t 0 3 c 0 0 id (ctlBody id acc)) (ctlBody id acc) t)
          (sendTo (newHdr t 0 3 x 0 0 id (ctlBody id acc)) (ctlBody id acc) t) := rfl
      rw [e]
      rcases List.mem_cons.1 h with rfl | h
      · exact ⟨_, (Grows.forEach (fun _ _ => .sendTo ..) _ _).sent _ (sendTo_sends rfl _ (x := q) (by rw [route t hn]; exact hr) (by rw [hs.same]; exact hu))⟩
      · refine ih _ h (hn.trans (.sendTo ..)) (hs.trans ?_)
        unfold sendTo
        split
        · exact SameUp.sendCtl rfl ..
        · exact .refl _
  exact key l s hy (.refl s) (.refl s)

/-- What a step of a control reduction does with the operands that it has (R284): it waits, sends them up, or holds the result. -/
theorem ctlStep_spec (f : Nat → State → State) (id : Nat) (v : State) {c : CtlRed} (hc : ctlGet v id = c) :
    (c.own = false ∨ c.sent = true ∨ (∃ x ∈ (ctlTree v id).2, x ∉ c.heard) → ctlStep f id v = v) ∧
    (∀ q, c.own = true → c.sent = false → (∀ x ∈ (ctlTree v id).2, x ∈ c.heard) → (ctlTree v id).1 = some q →
      ∃ u, ctlStep f id v = u ∧ ctlGet u id = { c with sent := true } ∧ (∀ j, j ≠ id → ctlGet u j = ctlGet v j) ∧
        NetOnly { v with link := { v.link with ctl := u.link.ctl } } u ∧
        ∀ x, routeOf v q = some x → (subp v x.1 x.2).up = true → ∃ g, Output.packet x.1 x.2 g (ctlBody id c.acc) ∈ u.out) ∧
    (c.own = true → c.sent = false → (∀ x ∈ (ctlTree v id).2, x ∈ c.heard) → (ctlTree v id).1 = none →
      ∃ z, ctlStep f id v = f c.acc z ∧ ctlGet z id = ctlD id ∧ NetOnly { v with link := { v.link with ctl := z.link.ctl } } z) := by
  subst hc
  refine ⟨fun hw => ?_, fun q k1 k2 k3 k4 => ⟨_, rfl, ?_⟩, fun k1 k2 k3 k4 => ?_⟩
  · unfold ctlStep
    rw [ctlNext_wait hw]
  · unfold ctlStep
    rw [(ctlNext_up k1 k2 k3).1 k4]
    simp only
    unfold ctlSendUp
    extract_lets body'
    generalize hy : ctlMod id (fun c => { c with sent := true }) v = y
    have y1 : ctlGet y id = { ctlGet v id with sent := true } := by rw [← hy, ctlGet_ctlMod_self]
    have y2 : ∀ j, j ≠ id → ctlGet y j = ctlGet v j := fun j hj => by rw [← hy, ctlGet_ctlMod_ne _ v hj]
    have y3 : y = { v with link := { v.link with ctl := y.link.ctl } } := by rw [← hy]; rfl
    have y4 : ∀ a, routeOf y a = routeOf v a := fun a => by unfold routeOf; rw [y3]
    have y6 : ∀ a b, (subp y a b).up = (subp v a b).up := fun a b => by unfold subp port; rw [y3]
    generalize hg : newHdr v 0 2 q 0 0 id body' = g
    have N := NetOnly.sendTo g body' y
    have S := fun x hr hu => sendTo_sends (h := g) (by rw [← hg]; rfl) body' (s := y) (x := x) hr hu
    have gd : g.dest = q := by rw [← hg]; rfl
    generalize sendTo g body' y = u at N S
    have hl : u.link.ctl = y.link.ctl := by rw [N.rest]
    exact ⟨(ctlGet_of hl _).trans y1, fun j hj => (ctlGet_of hl _).trans (y2 j hj), by rw [hl, ← y3]; exact N,
      fun x hx hu => ⟨hdrNat g, S x (by rw [gd, y4]; exact hx) (by rw [y6]; exact hu)⟩⟩
  · unfold ctlStep
    rw [(ctlNext_up (q := 0) k1 k2 k3).2 k4]
    obtain ⟨z, hz, z1, z2⟩ := down_spec id (ctlGet v id).acc v
    exact ⟨z, by simp only; rw [← hz], z1, z2⟩

/-- This device's own operand joins a control reduction (R284, R285): the reduction waits, goes up, or its result is held. -/
theorem ctlOwn_spec (f : Nat → State → State) (id n : Nat) (s : State) {c : CtlRed}
    (hc : c = { ctlGet s id with own := true, since := s.stroke.count, acc := ctlCombine (ctlOp id) (ctlGet s id).acc n }) :
    (c.sent = true ∨ (∃ x ∈ (ctlTree s id).2, x ∉ c.heard) → ∃ u, ctlOwn f id n s = u ∧ ctlGet u id = c ∧
      (∀ j, j ≠ id → ctlGet u j = ctlGet s j) ∧ u = { s with link := { s.link with ctl := u.link.ctl } }) ∧
    (∀ q, c.sent = false → (∀ x ∈ (ctlTree s id).2, x ∈ c.heard) → (ctlTree s id).1 = some q →
      ∃ u, ctlOwn f id n s = u ∧ ctlGet u id = { c with sent := true } ∧ (∀ j, j ≠ id → ctlGet u j = ctlGet s j) ∧
        NetOnly { s with link := { s.link with ctl := u.link.ctl } } u ∧
        ∀ x, routeOf s q = some x → (subp s x.1 x.2).up = true → ∃ g, Output.packet x.1 x.2 g (ctlBody id c.acc) ∈ u.out) ∧
    (c.sent = false → (∀ x ∈ (ctlTree s id).2, x ∈ c.heard) → (ctlTree s id).1 = none →
      ∃ z, ctlOwn f id n s = f c.acc z ∧ ctlGet z id = ctlD id ∧ NetOnly { s with link := { s.link with ctl := z.link.ctl } } z) := by
  unfold ctlOwn
  obtain ⟨v, hv, v1, v2, v3⟩ : ∃ v, v = ctlMod id (fun c => { c with own := true, since := s.stroke.count, acc := ctlCombine (ctlOp id) c.acc n }) s ∧
      ctlGet v id = c ∧ (∀ j, j ≠ id → ctlGet v j = ctlGet s j) ∧ v = { s with link := { s.link with ctl := v.link.ctl } } :=
    ⟨_, rfl, by rw [ctlGet_ctlMod_self, hc], fun j hj => ctlGet_ctlMod_ne _ s hj, rfl⟩
  rw [← hv]
  clear hv
  have ho : c.own = true := by rw [hc]
  have tr : ctlTree v id = ctlTree s id := by rw [v3]; rfl
  have sp : ∀ a b, (subp v a b).up = (subp s a b).up := fun a b => by unfold subp port; rw [v3]
  have ro : ∀ a, routeOf v a = routeOf s a := fun a => by unfold routeOf; rw [v3]
  have nn : ∀ l : List (Nat × CtlRed), ({ v with link := { v.link with ctl := l } } : State) = { s with link := { s.link with ctl := l } } := fun l => by rw [v3]
  obtain ⟨S1, S2, S3⟩ := ctlStep_spec f id v v1
  rw [tr] at S1 S2 S3
  refine ⟨fun h => ⟨v, S1 ?_, v1, v2, v3⟩, fun q h1 h2 h3 => ?_, fun h1 h2 h3 => ?_⟩
  · rcases h with h | h
    · exact .inr (.inl h)
    · exact .inr (.inr h)
  · obtain ⟨u, u1, u2, u3, u4, u5⟩ := S2 q ho h1 h2 h3
    exact ⟨u, u1, u2, fun j hj => (u3 j hj).trans (v2 j hj), by rw [← nn]; exact u4, fun x hx hu => u5 x (by rw [ro]; exact hx) (by rw [sp]; exact hu)⟩
  · obtain ⟨z, z1, z2, z3⟩ := S3 ho h1 h2 h3
    exact ⟨z, z1, z2, by rw [← nn]; exact z3⟩

/-- What the result of a control reduction brings at once (R209, R284, R288, R293, R315, R345). -/
theorem result_held {s v : State} (id x : Nat) (N : NetOnly { s with link := { s.link with ctl := v.link.ctl } } v) :
    ResultHeld s id x v (atEpoch s (ctlResult id x v)) := by
  have r1 : v.run = s.run := by rw [N.rest]
  have r2 : v.dev = s.dev := by rw [N.rest]
  have r3 : v.plan = s.plan := by rw [N.rest]
  have r4 : v.link.epoch = s.link.epoch := by rw [N.rest]
  have put : ∀ u, ctlResult id x v = u → u.link.epoch = v.link.epoch → atEpoch s (ctlResult id x v) = u := fun u h e => by
    rw [h]; exact atEpoch_same (e.trans r4)
  refine ⟨fun k h => put _ ?_ rfl, fun k h => put _ ?_ rfl, fun k h1 h2 => put _ ?_ rfl, fun k h => put _ ?_ rfl, fun k => put _ ?_ rfl,
    fun k => put _ ?_ rfl, fun k h => put _ ?_ rfl, fun k h => ?_⟩
  · rw [k]; unfold ctlResult
    rw [if_pos rfl, startCheck_half (by show v.run.limitRes = none; rw [r1, h])]
  · rw [k]; unfold ctlResult
    rw [if_neg (by decide), if_pos rfl]
    unfold startCheck
    rw [show ({ v with run := { v.run with limitRes := some x } } : State).run.readyRes = none from by show v.run.readyRes = none; rw [r1, h]]
  · rw [k]; unfold ctlResult
    rw [if_neg (by decide), if_neg (by decide), if_neg (by decide), if_pos rfl, if_pos (by rw [r1, h2]; simp [h1])]
  · rw [k]; unfold ctlResult
    iterate 4 rw [if_neg (by decide)]
    rw [if_pos rfl]
    unfold holdFrom
    rw [if_pos (by simp [h])]
  · rw [k]; unfold ctlResult
    iterate 5 rw [if_neg (by decide)]
    rw [if_pos rfl]
  · rw [k]; unfold ctlResult
    iterate 6 rw [if_neg (by decide)]
    rw [if_pos rfl]
  · rw [k]; unfold ctlResult
    iterate 8 rw [if_neg (by decide)]
    unfold redFuel redResult
    rw [if_neg (by simp), if_neg (by decide), if_neg (by decide), if_pos rfl, if_pos h]
  · have e : ctlResult id x v = digestResult x v := by
      rw [k]; unfold ctlResult; rw [if_neg (by decide), if_neg (by decide), if_pos rfl]
    have bw : ∀ (ok : Bool) (t : State), t.run = v.run → resumeBoundary ok t = t := fun ok t ht => by
      unfold resumeBoundary; rw [ht, r1, h]; rfl
    rw [e]
    unfold digestResult
    extract_lets ok mine bad _ w1
    have pe : ∀ a : List Byte, (logEv 0x0401 a w1).link = w1.link ∧ (logEv 0x0401 a w1).dev = s.dev ∧ (logEv 0x0401 a w1).run = v.run := fun a => by
      have C := logEv_countsOnly 0x0401 a w1
      exact ⟨C.parts.2.2.2.2.2.2.1, C.parts.2.2.2.2.2.2.2.2.2.1.trans r2, by rw [C.rest]⟩
    by_cases o : x % 2 = 0
    · have ho : ok = true := by show (x % 2 == 0) = true; simp [o]
      have hd : (x % 2 == 0) = true := by simp [o]
      rw [if_pos ho]
      by_cases hl : (w1.dev == .loaded && w1.plan.isSome) = true
      · rw [if_pos hl, bw true { w1 with dev := .planned } rfl, atEpoch_same (t := { w1 with dev := .planned }) r4]
        exact ⟨rfl, rfl, fun _ _ _ => rfl, fun g => by omega⟩
      · rw [if_neg hl, bw true w1 rfl, atEpoch_same (t := w1) r4]
        refine ⟨rfl, rfl, fun _ kd kp => absurd ?_ hl, fun g => by omega⟩
        show ((v.dev == .loaded) && v.plan.isSome) = true
        rw [r2, r3, kd]; cases hp : s.plan <;> simp_all
    · have ho : ok = false := by show (x % 2 == 0) = false; simp [o]
      rw [if_neg (by rw [ho]; decide)]
      generalize hA : (b4 _ ++ _ ++ _ : List Byte) = A
      obtain ⟨p1, p2, p3⟩ := pe A
      rw [bw false _ p3, atEpoch_same (by rw [p1]; exact r4), p1, p2]
      exact ⟨rfl, rfl, fun g => absurd g o, fun _ => rfl⟩

end Sys2Proof.Machine
end

