-- ==== Sys2Proof/Laws/Deadlines.lean ====
section
/-! SUPPORT. Deadlines of the reduction and the distribution: what STR queues and completing passes leave alone, the operands
of a checkpoint, the skip, and the legs that a deadline declares failed (R288, R293 to R295). -/

namespace Sys2Proof.Machine

open Sys2Proof

/-- What the STR queues and completing passes change: cores, streams, memory, traces, what counting brings, and the marks of poison
that a RUN meets (R253). -/
structure StrOnly (s u : State) : Prop where
  rest : u = { s with
    cores := u.cores, cnt := u.cnt, log := u.log, host := u.host, trace := u.trace, stm := u.stm, mem := u.mem
    res := { s.res with badAddrs := u.res.badAddrs }, run := { s.run with holdDue := u.run.holdDue } }
theorem StrOnly.refl (s : State) : StrOnly s s := ⟨rfl⟩
theorem StrOnly.trans {s t u : State} (h : StrOnly s t) (k : StrOnly t u) : StrOnly s u := ⟨by rw [k.rest, h.rest]⟩
theorem StrOnly.counts {s u : State} (h : CountsOnly s u) : StrOnly s u := ⟨by rw [h.rest]⟩
theorem StrOnly.mem {s u : State} (h : MemOnly s u) : StrOnly s u := ⟨by rw [h.rest]⟩
theorem StrOnly.ite {s a b : State} {p : Prop} [Decidable p] (h1 : StrOnly s a) (h2 : StrOnly s b) : StrOnly s (if p then a else b) := by
  split <;> assumption
theorem StrOnly.fold {α : Type} {f : State → α → State} (hf : ∀ u x, StrOnly u (f u x)) (l : List α) (s : State) : StrOnly s (l.foldl f s) := by
  induction l generalizing s with
  | nil => exact .refl s
  | cons x l ih => exact (hf s x).trans (ih _)
theorem StrOnly.bump (o n : Nat) (s : State) : StrOnly s (bump o n s) := .counts (bump_countsOnly ..)
theorem StrOnly.modCore (c : Nat) (f : CoreSt → CoreSt) (s : State) : StrOnly s (modCore c f s) := ⟨rfl⟩
theorem StrOnly.modThread (c t : Nat) (f : Thread → Thread) (s : State) : StrOnly s (modThread c t f s) := ⟨rfl⟩
theorem StrOnly.modDesc (d : Nat) (f : DescSt → DescSt) (s : State) : StrOnly s (modDesc d f s) := ⟨rfl⟩
theorem StrOnly.traceRec (a b c d e f : Nat) (s : State) : StrOnly s (traceRec a b c d e f s) := by
  obtain ⟨T, h⟩ := traceRec_eq a b c d e f s
  exact ⟨by rw [h.rest]⟩
theorem StrOnly.done (c t : Nat) (en : Bool) (k : Nat) (s : State) : StrOnly s (asyncDone c t en k s) :=
  ⟨by rw [(asyncDone_completes c t en k s).rest]⟩
theorem StrOnly.fault (c t k : Nat) (s : State) : StrOnly s (faultThread c t k s) := ⟨by rw [(faultThread_faults c t k s).rest]⟩
theorem StrOnly.useDesc (d : Nat) (s : State) : StrOnly s (useDesc d s) := ⟨rfl⟩
theorem StrOnly.takeShadow (d : Nat) (s : State) : StrOnly s (takeShadow d s) := by
  unfold Machine.takeShadow
  split
  · extract_lets g
    exact (StrOnly.mem (MemOnly.memStore ..)).trans (.modDesc ..)
  · exact .refl s
theorem StrOnly.begin_ (d : Nat) (i : Option Issuer) (s : State) : StrOnly s (beginPass d i s) := by
  unfold Machine.beginPass
  extract_lets x total legs y s1
  refine StrOnly.trans (t := s1) ?_ (.modDesc ..)
  refine .ite ?_ (.refl s)
  split
  · exact .mem (.skewZeros ..)
  · exact .refl s
theorem StrOnly.addMark (m n : Nat) (s : State) : StrOnly s (addMark m n s) := ⟨rfl⟩
theorem StrOnly.actions (d : Nat) (p : PassSt) (s : State) : StrOnly s (passActions d p s) := by
  unfold Machine.passActions
  have h1 : StrOnly s (passPost (descOf s d) s) := .ite (.addMark ..) (.refl s)
  have h2 : StrOnly (passPost (descOf s d) s) (passTrace d p (descOf s d) (passPost (descOf s d) s)) := .ite (.traceRec ..) (.refl _)
  refine h1.trans (h2.trans ?_)
  unfold passCount
  split
  · exact .done ..
  · exact .refl _
theorem StrOnly.refuse (c t pc d k n : Nat) (s : State) : StrOnly s (refuseStream c t pc d k n s) := by
  unfold Machine.refuseStream
  extract_lets s1 s2
  have h1 : StrOnly s s1 := (StrOnly.bump (cntDev 23) 1 s).trans (.counts (logEv_countsOnly ..))
  exact h1.trans ((StrOnly.modThread ..).trans ((StrOnly.fault c t k s2).trans (.modThread ..)))
theorem StrOnly.poison (d : Nat) (i : Issuer) (x : Nat × Nat) (s : State) : StrOnly s (poisonRun d i x s) :=
  StrOnly.trans ⟨by rw [(transferPoison_only d x.1 x.2 (some i.core) s).rest]⟩ (.done ..)
theorem StrOnly.waiting (d : Nat) (l : List Issuer) (s : State) : StrOnly s (startWaiting d l s) := by
  induction l generalizing s with
  | nil => exact .refl s
  | cons i l ih =>
    unfold startWaiting
    extract_lets v cause
    have hv : StrOnly s v := .modDesc ..
    clear_value v
    refine hv.trans ?_
    split
    · exact (StrOnly.poison ..).trans (ih _)
    · split
      · exact .begin_ ..
      · exact (StrOnly.refuse ..).trans (ih _)
theorem StrOnly.endPass (d : Nat) (s : State) : StrOnly s (endPass d s) := by
  unfold Machine.endPass
  split
  · exact .refl s
  · next p _ => exact (StrOnly.actions d p s).trans ((StrOnly.modDesc ..).trans ((StrOnly.takeShadow ..).trans (.waiting ..)))
theorem StrOnly.popStr (c : Nat) (s : State) : StrOnly s (popStr c s) := ⟨rfl⟩
theorem StrOnly.head {c : Nat} {s t : State} (h : strHead c s = some t) : StrOnly s t := by
  unfold strHead at h
  split at h
  · exact absurd h (by simp)
  · next o rest _ =>
    extract_lets w d miss i cause s1 b cause2 s2 s3 at h
    split at h
    · split at h
      · exact absurd h (by simp)
      · obtain rfl := Option.some.inj h
        exact (StrOnly.modCore ..).trans (.bump ..)
    · split at h
      · split at h
        · obtain rfl := Option.some.inj h
          exact (StrOnly.popStr c s).trans ((StrOnly.useDesc ..).trans (.poison ..))
        · split at h
          · exact absurd h (by simp)
          · split at h
            · obtain rfl := Option.some.inj h
              exact (StrOnly.popStr c s).trans (.refuse ..)
            · obtain rfl := Option.some.inj h
              have h1 : StrOnly s s1 := (StrOnly.popStr c s).trans (.useDesc ..)
              exact h1.trans (.ite (.modDesc ..) (.begin_ ..))
      · split at h
        · split at h
          · obtain rfl := Option.some.inj h
            exact (StrOnly.popStr c s).trans (.refuse ..)
          · split at h
            · exact absurd h (by simp)
            · obtain rfl := Option.some.inj h
              have h2 : StrOnly s s2 := (StrOnly.popStr c s).trans ((StrOnly.useDesc ..).trans (.modDesc ..))
              exact h2.trans (StrOnly.trans (.ite (.refl _) (.takeShadow ..)) (.done ..))
        · split at h
          · obtain rfl := Option.some.inj h
            exact (StrOnly.popStr c s).trans ((StrOnly.addMark ..).trans (.done ..))
          · obtain rfl := Option.some.inj h
            exact (StrOnly.popStr c s).trans ((StrOnly.traceRec ..).trans (.done ..))
theorem StrOnly.drainStr (c n : Nat) (s : State) : StrOnly s (drainStr c n s) := by
  induction n generalizing s with
  | zero => exact .refl s
  | succ n ih =>
    unfold Machine.drainStr
    split
    · next t h => exact (StrOnly.head h).trans (ih t)
    · exact .refl s
theorem StrOnly.drainAll (n : Nat) (s : State) : StrOnly s (drainAll n s) := by
  induction n generalizing s with
  | zero => exact .refl s
  | succ n ih =>
    unfold Machine.drainAll
    extract_lets t
    have h : StrOnly s t := .fold (fun u c => .ite (.refl u) (.drainStr ..)) _ s
    exact .ite h (h.trans (ih _))
/-- What the queues and the passes that they start change. -/
theorem StrOnly.settle (s : State) : StrOnly s (settle s) := .drainAll ..
theorem StrOnly.ackLeg (f : Nat) (s : State) : StrOnly s (ackLeg f s) := by
  unfold Machine.ackLeg
  split
  · exact .refl s
  · split
    · exact .refl s
    · next d _ q _ =>
      extract_lets s1
      have h : StrOnly s s1 := .modDesc ..
      exact .ite (h.trans ((StrOnly.endPass ..).trans (.settle _))) h
/-- An operand joins a reduction that a part of the tree still owes. -/
theorem ctlOwn_waits {g : Nat → State → State} {id v : Nat} {s : State} (h : ∃ x ∈ (ctlTree s id).2, x ∉ (ctlGet s id).heard) :
    ∃ u, ctlOwn g id v s = u ∧
      ctlGet u id = { ctlGet s id with own := true, since := s.stroke.count, acc := ctlCombine (ctlOp id) (ctlGet s id).acc v } ∧
      (∀ j, j ≠ id → ctlGet u j = ctlGet s j) ∧ u = { s with link := { s.link with ctl := u.link.ctl } } :=
  (ctlOwn_spec g id v s rfl).1 (.inr h)
/-- A leaf of the tree sends its operand up at once. -/
theorem ctlOwn_leaf {g : Nat → State → State} {id v q : Nat} {s : State} (h : ctlTree s id = (some q, [])) (hg : ctlGet s id = ctlD id) :
    ∃ t, ctlOwn g id v s = t ∧ NetOnly { s with link := { s.link with ctl := t.link.ctl } } t ∧ (∀ j, j ≠ id → ctlGet t j = ctlGet s j) ∧
      Grows s t ∧ SameUp s t ∧
      ∀ y, routeOf s q = some y → (subp s y.1 y.2).up = true →
        ∃ g, Output.packet y.1 y.2 g (ctlBody id (ctlCombine (ctlOp id) (ctlD id).acc v)) ∈ t.out := by
  obtain ⟨u, hu, -, u2, u3, u4⟩ := (ctlOwn_spec g id v s rfl).2.1 q (by rw [hg]; rfl) (by rw [h]; exact fun x hx => absurd hx List.not_mem_nil) (by rw [h])
  rw [hg] at u4
  suffices k : Grows s (ctlOwn g id v s) ∧ SameUp s (ctlOwn g id v s) by rw [hu] at k; exact ⟨u, hu, u3, u2, k.1, k.2, u4⟩
  clear hu u2 u3 u4 u
  unfold ctlOwn ctlStep
  have e := ctlGet_ctlMod_self id (fun c => { c with own := true, since := s.stroke.count, acc := ctlCombine (ctlOp id) c.acc v }) s
  generalize hu : ctlMod id (fun c => { c with own := true, since := s.stroke.count, acc := ctlCombine (ctlOp id) c.acc v }) s = u at e
  have ut : ctlTree u id = ctlTree s id := by rw [← hu]; exact ctlTree_of rfl id
  have n := (ctlNext_up (s := u) (id := id) (q := q) (by rw [e]) (by rw [e, hg]; rfl) (by rw [ut, h]; exact fun x hx => absurd hx List.not_mem_nil)).1 (by rw [ut, h])
  rw [n, e, hg]
  dsimp only
  unfold ctlSendUp
  extract_lets body
  generalize hw : ctlMod id (fun c => { c with sent := true }) u = w
  have hgr := Grows.sendTo (newHdr u 0 2 q 0 0 id body) body w
  have wl : w = { s with link := { s.link with ctl := w.link.ctl } } := by rw [← hw, ← hu]; rfl
  refine ⟨Grows.trans (.of (by rw [wl])) hgr, SameUp.trans (t := w) (.of fun p => by unfold port; rw [wl]) ?_⟩
  unfold sendTo
  split
  · exact .sendCtl rfl ..
  · exact .refl _
/-- The reduction's state once a deadline has ended its pass. -/
def redEnded (s : State) : State := ctlClear ctlRedDone { s with red := { s.red with pass := 2, byDeadline := true, got := [] } }
theorem redEnded_form (s : State) : ∃ K, redEnded s = { s with red := { s.red with pass := 2, byDeadline := true, got := [] }, link := { s.link with ctl := K } } ∧
    (∀ id, id ≠ ctlRedDone → sget ctlD K id = ctlGet s id) ∧ sget ctlD K ctlRedDone = ctlD ctlRedDone := by
  unfold redEnded ctlClear
  refine ⟨sset ctlD s.link.ctl ctlRedDone (ctlD ctlRedDone), ?_, fun id h => sget_sset_ne _ _ _ h, sget_sset_self ..⟩
  generalize sset ctlD s.link.ctl ctlRedDone (ctlD ctlRedDone) = K
  rfl
theorem redEnded_same (s : State) (p : Nat) (K : List (Nat × CtlRed)) (u : State)
    (hu : u = { s with red := { s.red with pass := p, byDeadline := true, got := [] }, link := { s.link with ctl := K } }) :
    myMissing u = myMissing s ∧ myNonfinite u = myNonfinite s ∧ myOvf u = myOvf s ∧ (∀ id, ctlTree u id = ctlTree s id) := by
  subst hu; exact ⟨rfl, rfl, rfl, fun _ => rfl⟩
theorem redEnded_spec (s : State) : myMissing (redEnded s) = myMissing s ∧ myNonfinite (redEnded s) = myNonfinite s ∧ myOvf (redEnded s) = myOvf s ∧
    (∀ id, ctlTree (redEnded s) id = ctlTree s id) ∧ (∀ id, id ≠ ctlRedDone → ctlGet (redEnded s) id = ctlGet s id) ∧
    ctlGet (redEnded s) ctlRedDone = ctlD ctlRedDone ∧
    redEnded s = { s with red := { s.red with pass := 2, byDeadline := true, got := [] }, link := { s.link with ctl := (redEnded s).link.ctl } } := by
  obtain ⟨K, h1, h2, h3⟩ := redEnded_form s
  obtain ⟨a, b, c, d⟩ := redEnded_same s 2 K _ h1
  have hk : (redEnded s).link.ctl = K := by rw [h1]
  refine ⟨a, b, c, d, fun id h => ?_, ?_, by rw [hk]; exact h1⟩
  · unfold ctlGet; rw [hk]; exact h2 id h
  · unfold ctlGet; rw [hk]; exact h3
theorem reductionDeadline_eq {s : State} (h1 : s.run.phase = .reduction) (h2 : redDue s = true) (h0 : recorded s 1 = []) (h3 : s.red.pass ∈ [1, 3, 4]) :
    ∃ F G H : Nat → State → State, reductionDeadline s = ctlOwn F ctlOvf (b2n (myOvf s)) (ctlOwn G ctlNonfinite (myNonfinite s)
      (ctlOwn H ctlMissing (myMissing s) (redEnded s))) := by
  obtain ⟨m1, m2, m3, -⟩ := redEnded_spec s
  refine ⟨redResult redFuel ctlOvf, redResult redFuel ctlNonfinite, redResult redFuel ctlMissing, ?_⟩
  rw [← m1, ← m2, ← m3]
  unfold reductionDeadline
  rw [if_neg]
  · simp only [redEnded]
  · simp only [List.mem_cons, List.not_mem_nil, or_false] at h3
    rcases h3 with h3 | h3 | h3 <;> simp [h1, h2, h0, h3]
theorem NetOnly.over {s u t : State} {r : RedSt} {k : List (Nat × CtlRed)} (h : NetOnly { u with link := { u.link with ctl := t.link.ctl } } t)
    (hu : NetOnly { s with red := r, link := { s.link with ctl := k } } u) : NetOnly { s with red := r, link := { s.link with ctl := t.link.ctl } } t := by
  refine ⟨?_, ?_, fun x hx => ?_⟩
  · rw [h.rest, hu.rest]
  · rw [h.host]; show ({ u.host with attnSeq := _, attnStep := _, attnStanding := _, events := _ } : HostSt) = _; rw [hu.host]
  · rw [h.mem x hx]
    have h1 : memByte { u with link := { u.link with ctl := t.link.ctl } } x = memByte u x := memByte_congr x rfl rfl rfl rfl
    have h2 : memByte { s with red := r, link := { s.link with ctl := k } } x = memByte { s with red := r, link := { s.link with ctl := t.link.ctl } } x :=
      memByte_congr x rfl rfl rfl rfl
    rw [h1, hu.mem x hx, h2]

/-- The state in which the third answer of the checkpoint decides. -/
def redAnswered (acc : Nat) (s : State) : State :=
  { s with red := { s.red with
    ovf := acc % 2 == 1, byDeadline := false, missing := [], nfSet := [], got := [], late := (s.red.late ++ maskReplicas s (s.red.missing.head?.getD 0)).eraseDups } }
theorem redDecide_skip {s : State} {m f : Nat} {pl : Plan} (hp : s.plan = some pl) (hb : s.red.byDeadline = false) (hm : s.red.missing = [m])
    (hf : s.red.nfSet = [f]) (h : (f ≠ 0 ∧ pl.nfSkip = true) ∨ pl.r ≤ s.red.excluded.length) :
    redDecide s = skipStep { s with red := { s.red with
      byDeadline := false, missing := [], nfSet := [], got := [], late := (s.red.late ++ maskReplicas s m).eraseDups } } := by
  have hm' : s.red.missing.head?.getD 0 = m := by rw [hm]; rfl
  have hf' : s.red.nfSet.head?.getD 0 = f := by rw [hf]; rfl
  unfold redDecide
  rw [hm', hf', hb]
  have no : ∀ a b : State, (if false = true then a else b) = b := fun _ _ => rfl
  simp only [no, hp]
  by_cases k : f ≠ 0 ∧ pl.nfSkip = true
  · rw [if_pos (by rw [k.2]; simpa using k.1)]
  · rw [if_neg (by simp only [Bool.and_eq_true, bne_iff_ne]; exact k), if_pos]
    have := h.resolve_left k
    have hr : ∀ r : RedSt, replicas { s with plan := some pl, red := r } = pl.r := fun r => by unfold replicas; rfl
    rw [hr, List.length_append]
    omega
theorem redResult_skip {n acc m f : Nat} {s : State} {pl : Plan} (hr : s.run.phase = .reduction) (hp : s.plan = some pl) (hb : s.red.byDeadline = false)
    (hm : s.red.missing = [m]) (hf : s.red.nfSet = [f]) (hg : s.red.got = [ctlMissing, ctlNonfinite])
    (h : (f ≠ 0 ∧ pl.nfSkip = true) ∨ pl.r ≤ s.red.excluded.length) :
    redResult (n + 1) ctlOvf acc s = skipStep (redAnswered acc s) := by
  unfold redResult
  rw [if_neg (by rw [hr]; decide), if_neg (by decide), if_pos (by simp)]
  rw [if_neg (by decide : ¬ ctlOvf = ctlMissing), if_neg (by decide : ¬ ctlOvf = ctlNonfinite), if_pos (rfl : ctlOvf = ctlOvf)]
  extract_lets _ s1 t t2
  have hs : s1.red = { s.red with ovf := acc % 2 == 1, got := insertNat ctlOvf s.red.got } := rfl
  have h3 : insertNat ctlOvf s.red.got = [ctlMissing, ctlNonfinite, ctlOvf] := by rw [hg]; decide
  have hd := redDecide_skip (s := s1) (m := m) (f := f) (pl := pl) hp hb hm hf h
  have hx : maskReplicas s1 m = maskReplicas s m := by unfold maskReplicas; rfl
  have hy : s1.red.late = s.red.late := rfl
  rw [hx, hy] at hd
  have hz : s.red.missing.head?.getD 0 = m := by rw [hm]; rfl
  unfold redAnswered
  rw [hz]
  generalize (s.red.late ++ maskReplicas s m).eraseDups = L at hd ⊢
  have hl : ¬ s1.red.got.length < 3 := by
    rw [hs]
    show ¬ (insertNat ctlOvf s.red.got).length < 3
    rw [h3]; decide
  have ht : t = skipStep { s with red := { s.red with
      ovf := acc % 2 == 1, byDeadline := false, missing := [], nfSet := [], got := [], late := L } } := hd
  rw [if_neg hl]
  clear_value t2 t
  have zp : t.red.pass = 5 := by rw [ht]; rfl
  rw [if_neg (by rw [zp]; simp), if_neg (by rw [zp]; simp)]
  exact ht

/-- What declaring the receivers of failed legs changes (R288). -/
structure LegsFail (s u : State) : Prop where
  rest : u = { s with
    cores := u.cores, cnt := u.cnt, log := u.log, host := u.host, trace := u.trace, stm := u.stm, mem := u.mem, out := u.out
    res := { s.res with journal := u.res.journal, lost := u.res.lost, badAddrs := u.res.badAddrs }
    run := { s.run with holdDue := u.run.holdDue }, link := { s.link with failedLegs := u.link.failedLegs } }
  out : ∀ x ∈ s.out, x ∈ u.out
  lost : ∀ x ∈ s.res.lost, x ∈ u.res.lost
  journal : ∀ x ∈ s.res.journal, x ∈ u.res.journal
  failed : ∀ x ∈ s.link.failedLegs, x ∈ u.link.failedLegs
theorem LegsFail.refl (s : State) : LegsFail s s := ⟨rfl, fun _ h => h, fun _ h => h, fun _ h => h, fun _ h => h⟩
theorem LegsFail.trans {s t u : State} (h : LegsFail s t) (k : LegsFail t u) : LegsFail s u :=
  ⟨by rw [k.rest, h.rest], fun x y => k.out x (h.out x y), fun x y => k.lost x (h.lost x y), fun x y => k.journal x (h.journal x y),
    fun x y => k.failed x (h.failed x y)⟩
theorem mem_insertNat_old {x n : Nat} {l : List Nat} (h : x ∈ l) : x ∈ insertNat n l := by
  unfold insertNat; split
  · exact h
  · exact List.mem_append_left _ h
theorem mem_insertNat_self (n : Nat) (l : List Nat) : n ∈ insertNat n l := by
  unfold insertNat
  by_cases h : n ∈ l
  · rw [if_pos (by simpa using h)]; exact h
  · rw [if_neg (by simpa using h)]; exact List.mem_append_right _ (List.mem_singleton.2 rfl)
theorem lose_journal (pos cause : Nat) (s : State) : (loseDevice pos cause s).res.journal = s.res.journal ∧
    loseDevice pos cause s = { s with
      cnt := (loseDevice pos cause s).cnt, log := (loseDevice pos cause s).log, host := (loseDevice pos cause s).host
      res := { s.res with lost := (loseDevice pos cause s).res.lost } } := by
  obtain ⟨d, -, hr, ho⟩ := Declares.lose pos cause s
  unfold loseDevice at *
  split
  · exact ⟨rfl, rfl⟩
  · have hc := logEv_countsOnly 0x0707 (b4 pos ++ b4 cause ++ b8 s.stroke.count) { s with res := { s.res with lost := s.res.lost ++ [pos] } }
    exact ⟨by rw [hc.rest], by rw [hc.rest]⟩
theorem failLeg_spec (f : FlowCtx) (s : State) (h : s.res.journal.length < 8192) :
    LegsFail s (failLeg f s) ∧ (failLeg f s).res.journal.length = s.res.journal.length + 1 ∧ (failLeg f s).link.failedLegs = insertNat f.id s.link.failedLegs ∧
      f.peer ∈ (failLeg f s).res.lost ∧
      ({ kind := 2, step := s.run.step, stroke := s.stroke.count, pos := f.peer, arg := 0 } : JournalEntry) ∈ (failLeg f s).res.journal ∧
      ∀ y ∈ activePorts s, Output.declaration y.1 y.2 1 f.peer (myPos s) ∈ (failLeg f s).out := by
  unfold failLeg
  rw [takeTimed_runs h]
  generalize hj : ({ kind := 2, step := s.run.step, stroke := s.stroke.count, pos := f.peer, arg := 0 } : JournalEntry) = j
  extract_lets r0 s1 r1 s2
  have c1 := (logEv_countsOnly 0x0604 (b4 s.run.step ++ b8 s.stroke.count ++ b4 f.peer) { s with res := { s.res with journal := s.res.journal ++ [j] } })
  have e1 : s1 = { s with res := { s.res with journal := s.res.journal ++ [j] }, cnt := s1.cnt, log := s1.log, host := s1.host } := c1.rest
  have c2 : StrOnly { s1 with link := { s1.link with failedLegs := insertNat f.id s1.link.failedLegs } } s2 := .ackLeg ..
  clear_value s2
  clear c1
  clear_value s1
  have e2 : s2 = { s with
      res := { s.res with journal := s.res.journal ++ [j], badAddrs := s2.res.badAddrs }, run := { s.run with holdDue := s2.run.holdDue }
      link := { s.link with failedLegs := insertNat f.id s.link.failedLegs }
      cores := s2.cores, cnt := s2.cnt, log := s2.log, host := s2.host, trace := s2.trace, stm := s2.stm, mem := s2.mem } := by
    refine c2.rest.trans ?_
    rw [e1]
  clear c2
  obtain ⟨-, d1, d2⟩ := floodDecl_spec 1 f.peer (myPos s) s2
  have hp : myPos s2 = myPos s := by rw [e2]; rfl
  have ha : activePorts s2 = activePorts s := by rw [e2]; rfl
  rw [hp]
  have hg : ∀ x ∈ s2.out, x ∈ (floodDecl 1 f.peer (myPos s) s2).out := (floodDecl_spec 1 f.peer (myPos s) s2).1.sent.sent
  generalize floodDecl 1 f.peer (myPos s) s2 = s3 at *
  obtain ⟨l1, l2, -, l4⟩ := Declares.lose f.peer 3 s3
  obtain ⟨m1, m2⟩ := lose_journal f.peer 3 s3
  have l5 := l1.lost
  generalize loseDevice f.peer 3 s3 = s4 at *
  have j3 : s4.res.journal = s.res.journal ++ [j] := by rw [m1, d1, e2]
  have o3 : s4.out = s3.out := l4
  have f3 : s4.link = { s.link with failedLegs := insertNat f.id s.link.failedLegs } := by rw [m2, d1, e2]
  refine ⟨⟨?_, fun x hx => ?_, fun x hx => ?_, fun x hx => ?_, fun x hx => ?_⟩, ?_, ?_, l2, ?_, fun y hy => ?_⟩
  · rw [f3, j3, m2, d1, e2]
  · rw [o3]; exact hg x (by rw [e2]; exact hx)
  · exact l5 x (by rw [d1, e2]; exact hx)
  · rw [j3]; exact List.mem_append_left _ hx
  · rw [f3]; exact mem_insertNat_old hx
  · rw [j3]; simp
  · rw [f3]
  · rw [j3]; simp
  · rw [o3]; exact d2 y (by rw [ha]; exact hy)
theorem failLegs_spec (l : List FlowCtx) (s : State) (h : s.res.journal.length + l.length ≤ 8192) (hn : (l.map (·.id)).Nodup) (v : State)
    (hv : v = l.foldl (fun t f => if legSettled t f.id then t else failLeg f t) s) :
    LegsFail s v ∧ (∀ f ∈ l, legSettled v f.id = true) ∧
      ∀ f ∈ l, legSettled s f.id = false → f.peer ∈ v.res.lost ∧
        ({ kind := 2, step := s.run.step, stroke := s.stroke.count, pos := f.peer, arg := 0 } : JournalEntry) ∈ v.res.journal ∧
        ∀ y ∈ activePorts s, Output.declaration y.1 y.2 1 f.peer (myPos s) ∈ v.out := by
  induction l generalizing s with
  | nil => subst hv; exact ⟨.refl _, by simp, by simp⟩
  | cons f l ih =>
    rw [List.foldl_cons] at hv
    rw [List.map_cons, List.nodup_cons] at hn
    rw [List.length_cons] at h
    have keep : ∀ (t u : State) (n : Nat), LegsFail t u → legSettled t n = true → legSettled u n = true := fun t u n k hs => by
      unfold legSettled at hs ⊢
      have hd : u.link.legsDone = t.link.legsDone := by rw [k.rest]
      rw [hd]
      simp only [Bool.or_eq_true, List.contains_iff_mem] at hs ⊢
      exact hs.imp id fun x => k.failed _ x
    by_cases hs : legSettled s f.id = true
    · rw [if_pos hs] at hv
      obtain ⟨a, b, c⟩ := ih s (by omega) hn.2 hv
      refine ⟨a, fun x hx => ?_, fun x hx hw => ?_⟩
      · rcases List.mem_cons.1 hx with rfl | hx
        · exact keep _ _ _ a hs
        · exact b x hx
      · rcases List.mem_cons.1 hx with rfl | hx
        · rw [hs] at hw; exact absurd hw (by decide)
        · exact c x hx hw
    · rw [if_neg hs] at hv
      obtain ⟨k, kl, kf, kp, kj, kd⟩ := failLeg_spec f s (by omega)
      generalize failLeg f s = t at *
      have hset : ∀ g ∈ l, legSettled t g.id = legSettled s g.id ∨ legSettled t g.id = true := fun g _ => by
        by_cases hx : legSettled t g.id = true
        · exact .inr hx
        · left
          have hy : ¬ legSettled s g.id = true := fun y => hx (keep _ _ _ k y)
          rw [Bool.not_eq_true] at hx hy
          rw [hx, hy]
      obtain ⟨a, b, c⟩ := ih t (by omega) hn.2 hv
      have e1 : t.run.step = s.run.step := by rw [k.rest]
      have e2 : t.stroke = s.stroke := by rw [k.rest]
      have e3 : activePorts t = activePorts s := by rw [k.rest]; rfl
      have e4 : myPos t = myPos s := by rw [k.rest]; rfl
      rw [e1, e2, e3, e4] at c
      have hf : legSettled t f.id = true := by
        unfold legSettled; rw [kf]
        have hm := mem_insertNat_self f.id s.link.failedLegs
        simp [hm]
      refine ⟨k.trans a, fun x hx => ?_, fun x hx hw => ?_⟩
      · rcases List.mem_cons.1 hx with rfl | hx
        · exact keep _ _ _ a hf
        · exact b x hx
      · rcases List.mem_cons.1 hx with rfl | hx
        · exact ⟨a.lost _ kp, a.journal _ kj, fun y hy => a.out _ (kd y hy)⟩
        · refine c x hx ?_
          have hne : x.id ≠ f.id := fun e => hn.1 (e ▸ List.mem_map_of_mem hx)
          have hd : t.link.legsDone = s.link.legsDone := by rw [k.rest]
          unfold legSettled at hw ⊢
          rw [kf, hd]
          unfold insertNat
          split
          · exact hw
          · simp only [Bool.or_eq_false_iff] at hw ⊢
            refine ⟨hw.1, ?_⟩
            have h2 := hw.2
            simp only [List.contains_eq_mem, decide_eq_false_iff_not, List.mem_append, List.mem_singleton, not_or] at h2 ⊢
            exact ⟨h2, hne⟩

end Sys2Proof.Machine
end

