-- ==== Sys2Proof/Laws/Issue.lean ====
section
/-! SUPPORT. What the issue of an instruction, its faults and the release of OVFX waiters do (R157 to R172, R284). -/

namespace Sys2Proof.Machine

open Sys2Proof

theorem sInt64 (x : BitVec 64) : sInt 64 x.toNat = x.toInt := by
  unfold sInt; rw [BitVec.toInt_eq_toNat_cond]; have := x.isLt
  simp only [Nat.mod_eq_of_lt this]
  split <;> split <;> omega

theorem csr_zero {s : State} {c t : Nat} {w : InstrWord} (h : csrOk s c t w) : ∀ x ∈ csrCause s c t w, x = 0 := by
  obtain ⟨h1, h2, h3⟩ := h
  unfold csrCause causeIf
  cases hc : isCustom s c t
  · simp [h1, h2]
  · have := h3 hc; simp [h1, h2]; omega

theorem k_zero {s : State} {c t : Nat} {w : InstrWord} (h : isCustom s c t = true → inKRange s c t (yKidx w) = true) :
    kidxCause s c t w = 0 := by
  unfold kidxCause causeIf
  cases hc : isCustom s c t
  · simp
  · simp [h hc]

theorem yV_advance (c t : Nat) (w : InstrWord) (s : State) : yV (advance c t s) c t w = yV s c t w := by simp [yV]

theorem k_advance (c t : Nat) (s : State) : (core (advance c t s) c).k = (core s c).k := by rw [(ThreadOnly.advance c t s).core]

theorem unitOp_of (s : State) (c t : Nat) (w : InstrWord) : (unitOp s c t w).s28 = sReg s c t 28 ∧ (unitOp s c t w).s29 = sReg s c t 29 := ⟨rfl, rfl⟩

theorem vec_core (c : CoreId) (t : ThreadId) (w : InstrWord) (s : State) (op : Nat) (h : Ready s c t w) (h1 : iClass w = 2)
    (h2 : iOp w = op) (hk : op ≤ 0x12) (h0 : vecCause (vecShape op (vCount w) (sReg s c t 28)) [] c t w s = 0) :
    ((core s c).vec.length < 16 → IssuedAsync c t s (issueVec op c t w s) ∧
      core (issueVec op c t w s) c = { core s c with
        threads := (core (issueVec op c t w s) c).threads, cycle := (core (issueVec op c t w s) c).cycle
        vec := (core s c).vec ++ [unitOp s c t w] }) ∧
    (16 ≤ (core s c).vec.length → Stalls c s (issueVec op c t w s)) := by
  have hn : knownOp 2 op = true := by simp [knownOp, hk]
  refine ⟨fun hl => ?_, fun hl => ?_⟩
  · have e : issueVec op c t w s = asyncBegin c t (modCore c (fun C => { C with vec := C.vec ++ [unitOp s c t w] }) (advance c t s)) := by
      unfold issueVec; exact (issue_runs h hn h1 h2 h0 (decide_eq_false (by omega))).trans rfl
    rw [e]
    exact ⟨issuedAsync_queue c t _ s fun _ => rfl, by rw [core_asyncBegin]⟩
  · unfold issueVec; exact issue_stalls h hn h1 h2 h0 (decide_eq_true hl)

/-- What the issue of an XENT adds to its instance (R204). -/
theorem CoreOnly.modOvf (c inst : Nat) (f : OvfSt → OvfSt) (s : State) : CoreOnly c s (modOvf c inst f s) := CoreOnly.modCore ..

theorem xu_core (c : CoreId) (t : ThreadId) (w : InstrWord) (s : State) (op : Nat) (h : Ready s c t w) (h1 : iClass w = 3)
    (h2 : iOp w = op) (hk : op ≤ 0x0A)
    (h0 : vecCause (xuShape op (vCount w) (sReg s c t 28) (sReg s c t 29)) (indexPlaces s c op (unitOp s c t w)) c t w s = 0) :
    ((core s c).xu.length < 16 → IssuedAsync c t s (issueXu op c t w s) ∧
      core (issueXu op c t w s) c = { core s c with
        threads := (core (issueXu op c t w s) c).threads, cycle := (core (issueXu op c t w s) c).cycle
        ovf := (core (issueXu op c t w s) c).ovf, xu := (core s c).xu ++ [unitOp s c t w] } ∧
      (op ≠ 8 → (core (issueXu op c t w s) c).ovf = (core s c).ovf) ∧
      (op = 8 → ∀ i, ovfOf (issueXu op c t w s) c i = if i = outTag s c (unitOp s c t w).addrD w then
        { ovfOf s c i with xents := (ovfOf s c i).xents + 1 } else ovfOf s c i)) ∧
    (16 ≤ (core s c).xu.length → Stalls c s (issueXu op c t w s)) := by
  have hn : knownOp 3 op = true := by simp [knownOp, hk]
  refine ⟨fun hl => ?_, fun hl => ?_⟩
  · have e : issueXu op c t w s = (fun u => if op = 8 then
        modOvf c (outTag s c (unitOp s c t w).addrD w) (fun v => { v with xents := v.xents + 1 }) u else u)
          (asyncBegin c t (modCore c (fun C => { C with xu := C.xu ++ [unitOp s c t w] }) (advance c t s))) := by
      unfold issueXu; exact issue_runs h hn h1 h2 h0 (decide_eq_false (by omega))
    dsimp only at e
    have I := issuedAsync_queue c t (fun C => { C with xu := C.xu ++ [unitOp s c t w] }) s fun _ => rfl
    have K := core_asyncBegin c t (fun C => { C with xu := C.xu ++ [unitOp s c t w] }) s
    generalize asyncBegin c t (modCore c (fun C => { C with xu := C.xu ++ [unitOp s c t w] }) (advance c t s)) = u at e I K
    have ko : (core u c).ovf = (core s c).ovf := by rw [K]
    by_cases h8 : op = 8
    · rw [if_pos h8] at e
      rw [e]
      refine ⟨⟨?_, ?_, fun x hx => ?_, I.only.trans (.modOvf ..)⟩, ?_, fun h => absurd h8 h, fun _ i => ?_⟩
      · unfold WentOn; rw [thread_modOvf]; exact I.went
      · rw [thread_modOvf]; exact I.thread
      · rw [thread_modOvf]; exact I.threads x hx
      · unfold modOvf; rw [core_modCore_self, K]
      · unfold ovfOf modOvf
        rw [core_modCore_self, sget_smod, ko]
        split
        · next q => rw [q]
        · rfl
    · rw [if_neg h8] at e
      rw [e]
      exact ⟨I, by rw [K], fun _ => ko, fun h => absurd h h8⟩
  · unfold issueXu; exact issue_stalls h hn h1 h2 h0 (decide_eq_true hl)

theorem arr_modCore_ne (s : State) (c a b : Nat) (f : ArrSt → ArrSt) (h : b ≠ a) : arr (modArr c a f s) c b = arr s c b := by
  rw [arr_modArr, if_neg h]

theorem grpNo_of {c : Nat} {s u : State} {x : List (Nat × Thread)} {y : List (Nat × ArrSt)}
    (h : core u c = { core s c with threads := x, arrays := y }) : (core u c).grpNo = (core s c).grpNo := by rw [h]

theorem iss_trans {c t : Nat} {s u v : State} (h : IssuedAsync c t s u) (k : CoreOnly c u v) (hv : ∀ x, thread v c x = thread u c x) :
    IssuedAsync c t s v where
  went := by unfold WentOn; rw [hv]; exact h.went
  thread := by rw [hv]; exact h.thread
  threads x hx := by rw [hv]; exact h.threads x hx
  only := h.only.trans k

theorem push_iss (c t a : Nat) (o : ArrOp) (s : State) : IssuedAsync c t s (asyncBegin c t (pushArr c a o (advance c t s))) :=
  issuedAsync_queue c t (fun k => { k with arrays := smod arrD k.arrays a (fun A => { A with queue := A.queue ++ [o] }) }) s (fun _ => rfl)

theorem push_arr (c t a b : Nat) (o : ArrOp) (s : State) : arr (asyncBegin c t (pushArr c a o (advance c t s))) c b =
    if b = a then { arr s c a with queue := (arr s c a).queue ++ [o] } else arr s c b := by
  rw [arr_asyncBegin, pushArr, arr_modArr, arr_advance, arr_advance]

theorem push_grp (c t a : Nat) (o : ArrOp) (s : State) : (core (asyncBegin c t (pushArr c a o (advance c t s))) c).grpNo = (core s c).grpNo := by
  have := core_asyncBegin c t (fun k => { k with arrays := smod arrD k.arrays a (fun A => { A with queue := A.queue ++ [o] }) }) s
  have e : core (asyncBegin c t (pushArr c a o (advance c t s))) c = _ := this
  rw [e]

theorem mod_iss {c t : Nat} {s u : State} (h : IssuedAsync c t s u) (f : CoreSt → CoreSt) (hf : ∀ C, (f C).threads = C.threads) :
    IssuedAsync c t s (modCore c f u) :=
  iss_trans h (CoreOnly.modCore ..) fun x => by unfold thread; rw [core_modCore_self, hf]

theorem bump_iss {c t : Nat} {s u : State} (h : IssuedAsync c t s u) (o n : Nat) : IssuedAsync c t s (bump o n u) :=
  iss_trans h (CoreOnly.bump ..) fun x => by simp

theorem arr_iss {c t : Nat} {s u : State} (h : IssuedAsync c t s u) (a : Nat) (f : ArrSt → ArrSt) : IssuedAsync c t s (modArr c a f u) :=
  mod_iss h (fun k => { k with arrays := smod arrD k.arrays a f }) fun _ => rfl

theorem beginGap_iss {c t : Nat} {s u : State} (h : IssuedAsync c t s u) (a n : Nat) : IssuedAsync c t s (beginGap c a n u) := by
  unfold beginGap
  split
  · exact h
  · split
    · exact bump_iss (arr_iss h _ _) _ _
    · exact arr_iss h _ _

theorem afterArr_iss {c t : Nat} {s u : State} (h : IssuedAsync c t s u) (a : Nat) : IssuedAsync c t s (afterArr c a u) := by
  have k : IssuedAsync c t s (advanceArr c a u) := by
    unfold advanceArr
    split
    · exact beginGap_iss (arr_iss h _ _) _ _
    · exact h
  unfold afterArr gapCheck
  split
  · split
    · exact k
    · exact arr_iss k _ _
  · exact k

/-- One array of an IDLE. -/
def idleOne (c t : Nat) (w : InstrWord) (u : State) (a : Nat) : State := afterArr c a (pushArr c a (.idle t w.toNat false) u)

theorem idleOne_iss {c t : Nat} {w : InstrWord} {s u : State} (h : IssuedAsync c t s u) (a : Nat) : IssuedAsync c t s (idleOne c t w u a) :=
  afterArr_iss (arr_iss h a _) a

theorem idleOne_ne (c t : Nat) (w : InstrWord) {a b : Nat} (u : State) (h : b ≠ a) : arr (idleOne c t w u a) c b = arr u c b := by
  unfold idleOne
  rw [afterArr_ne _ h, pushArr, arr_modArr, if_neg h]

theorem queued_after (c a : Nat) (o : ArrOp) (u : State) :
    Queued (arr (afterArr c a (pushArr c a o u)) c a) (arr u c a) (begun ((arr u c a).queue ++ [o])) ∧
    (underSchedule u = false → arr (afterArr c a (pushArr c a o u)) c a = { arr u c a with queue := begun ((arr u c a).queue ++ [o]) }) := by
  have e : arr (pushArr c a o u) c a = { arr u c a with queue := (arr u c a).queue ++ [o] } := arr_modArr_self ..
  refine ⟨?_, fun h => ?_⟩
  · obtain ⟨A, q, -⟩ := afterArr_spec c a (pushArr c a o u)
    have := A.arr a
    rw [q, e] at this
    exact this
  · rw [afterArr_idle c a (s := pushArr c a o u) h, e]

theorem underSchedule_after (c a : Nat) (o : ArrOp) (u : State) : underSchedule (afterArr c a (pushArr c a o u)) = underSchedule u := by
  have := (afterArr_spec c a (pushArr c a o u)).1.rest
  rw [this]; rfl

/-- The arrays of an IDLE. -/
theorem idles_spec (c t : Nat) (w : InstrWord) (L : List Nat) (hn : L.Nodup) (s u : State) (h : IssuedAsync c t s u) :
    let v := L.foldl (idleOne c t w) u
    IssuedAsync c t s v ∧ (∀ a, a ∉ L → arr v c a = arr u c a) ∧
    ∀ a ∈ L, Queued (arr v c a) (arr u c a) (begun ((arr u c a).queue ++ [.idle t w.toNat false])) ∧
      (underSchedule u = false → arr v c a = { arr u c a with queue := begun ((arr u c a).queue ++ [.idle t w.toNat false]) }) := by
  induction L generalizing u with
  | nil => exact ⟨h, fun _ _ => rfl, by simp⟩
  | cons x L ih =>
    intro v
    rw [List.nodup_cons] at hn
    obtain ⟨i1, i2, i3⟩ := ih hn.2 (idleOne c t w u x) (idleOne_iss h x)
    refine ⟨i1, fun a ha => ?_, fun a ha => ?_⟩
    · rw [List.mem_cons, not_or] at ha
      exact (i2 a ha.2).trans (idleOne_ne c t w u ha.1)
    · rcases List.mem_cons.1 ha with rfl | ha
      · have q := queued_after c a (.idle t w.toNat false) u
        change Queued (arr (idleOne c t w u a) c a) _ _ ∧ (_ → arr (idleOne c t w u a) c a = _) at q
        rw [← i2 a hn.1] at q
        exact q
      · have ne : a ≠ x := fun e => hn.1 (e ▸ ha)
        have := i3 a ha
        rw [idleOne_ne c t w u ne] at this
        exact ⟨this.1, fun hu => this.2 ((underSchedule_after ..).trans hu)⟩

theorem iss_begin (c t : Nat) (s : State) : IssuedAsync c t s (asyncBegin c t (advance c t s)) := by
  refine ⟨?_, ?_, fun v hv => ?_, ?_⟩
  · unfold WentOn asyncBegin; rw [thread_modThread_self]; exact pc_advance s c t
  · unfold asyncBegin; rw [thread_modThread_self, thread_advance]
  · unfold asyncBegin; rw [thread_modThread_ne _ _ hv]; exact (ThreadOnly.advance c t s).threads v hv
  · exact (ThreadOnly.advance c t s).toCoreOnly.trans (ThreadOnly.modThread ..).toCoreOnly

theorem issue_reserved {c t : Nat} {w : InstrWord} {cls op : Nat} {cause : State → Nat} {full : State → Bool}
    {body : State → State} {s : State} (h : canIssue s c t w = true) (hr : pcBeyond s c t = true ∨ knownOp (iClass w) (iOp w) = false) :
    issue c t w cls op cause full body s = faultThread c t 1 s := by
  unfold issue
  rcases hr with hr | hr <;> simp [h, hr]

theorem leastCause_ge (l : List Nat) (a : Nat) (ha : a ≠ 0) (hl : ∀ x ∈ l, x = 0 ∨ a ≤ x) : l.foldl (fun a x => if x = 0 then a else if a = 0 then x else min a x) a = a := by
  induction l with
  | nil => rfl
  | cons x l ih =>
    rw [List.foldl_cons]
    rcases hl x (by simp) with rfl | h
    · exact ih fun y hy => hl y (by simp [hy])
    · have : (if x = 0 then a else if a = 0 then x else min a x) = a := by
        rw [if_neg (by omega), if_neg ha]; omega
      rw [this]; exact ih fun y hy => hl y (by simp [hy])

theorem leastCause_head (l : List Nat) (a : Nat) (ha : a ≠ 0) (hl : ∀ x ∈ l, x = 0 ∨ a ≤ x) : leastCause (a :: l) = a := by
  unfold leastCause
  rw [List.foldl_cons]
  exact leastCause_ge l _ (by simp [ha]) (by simpa [ha] using hl) |>.trans (by simp [ha])

theorem leastCause_zero_cons (l : List Nat) : leastCause (0 :: l) = leastCause l := by
  unfold leastCause; rfl

theorem plan_ctlMod (id : Nat) (f : CtlRed → CtlRed) (s : State) : (ctlMod id f s).plan = s.plan := rfl

theorem filterMap_one {α β : Type} [DecidableEq α] (f g : α → Option β) (a : α) (L : List α) (hn : L.Nodup) (h : ∀ x, x ≠ a → f x = g x) :
    (L.filterMap f).length ≤ (L.filterMap g).length + 1 := by
  induction L with
  | nil => simp
  | cons x L ih =>
    obtain ⟨hx, hn⟩ := List.nodup_cons.1 hn
    by_cases e : x = a
    · subst e
      have : L.filterMap f = L.filterMap g := List.filterMap_congr fun y hy => h y (by rintro rfl; exact hx hy)
      simp only [List.filterMap_cons, this]
      split <;> split <;> (simp_all; try omega)
    · simp only [List.filterMap_cons, h x e]
      have := ih hn
      split
      · exact this
      · simp only [List.length_cons]; omega

theorem flatMap_one {α β : Type} [DecidableEq α] (F G : α → List β) (a : α) (L : List α) (hn : L.Nodup) (h : ∀ x, x ≠ a → F x = G x)
    (ha : (F a).length ≤ (G a).length + 1) : (L.flatMap F).length ≤ (L.flatMap G).length + 1 := by
  induction L with
  | nil => simp
  | cons x L ih =>
    obtain ⟨hx, hn⟩ := List.nodup_cons.1 hn
    simp only [List.flatMap_cons, List.length_append]
    by_cases e : x = a
    · subst e
      have : L.flatMap F = L.flatMap G := by
        unfold List.flatMap; congr 1
        exact List.map_congr_left fun y hy => h y (by rintro rfl; exact hx hy)
      rw [this]; omega
    · rw [h x e]; have := ih hn; omega

theorem ovfxWaiters_one {s u : State} {c t : Nat} (inst : Nat) (h : ∀ d v, (d = c → v ≠ t) → thread u d v = thread s d v) :
    (ovfxWaiters u inst).length ≤ (ovfxWaiters s inst).length + 1 := by
  unfold ovfxWaiters
  refine flatMap_one _ _ c _ List.nodup_range (fun d hd => ?_) (filterMap_one _ _ t _ List.nodup_range fun v hv => ?_)
  · exact List.filterMap_congr fun v _ => by rw [h d v (fun e => absurd e hd)]
  · rw [h c v (fun _ => hv)]

theorem cores_logEv (k : Nat) (l : List Byte) (s : State) : (logEv k l s).cores = s.cores := by simp

theorem cores_logRepeat (a b d : Nat) (r : Nat × Nat × Nat) (o : Nat) (s : State) : (logRepeat a b d r o s).cores = s.cores := by
  unfold logRepeat; simp

theorem cores_flagLayer (a : Nat) (s : State) : (flagLayer a s).cores = s.cores := by
  unfold flagLayer; split <;> simp

theorem cores_noteOver (a : Nat) (s : State) : (noteOver a s).cores = s.cores := by
  unfold noteOver; split <;> rfl

theorem cores_lifeAdd (o w n : Nat) (s : State) : (lifeAdd o w n s).cores = s.cores := rfl

theorem waiters_congr {s u : State} (h : u.cores = s.cores) (inst : Nat) : ovfxWaiters u inst = ovfxWaiters s inst := by
  unfold ovfxWaiters thread core; rw [h]

theorem mem_waiters {s : State} {inst c t r : Nat} (hc : c < 96) (ht : t < 32) (h : (thread s c t).wait = .ovfx inst r) :
    (c, t, r) ∈ ovfxWaiters s inst := by
  unfold ovfxWaiters
  rw [List.mem_flatMap]
  refine ⟨c, List.mem_range.2 hc, List.mem_filterMap.2 ⟨t, List.mem_range.2 ht, ?_⟩⟩
  rw [h]; simp

theorem of_waiters {s : State} {inst : Nat} {x : Nat × Nat × Nat} (h : x ∈ ovfxWaiters s inst) :
    (thread s x.1 x.2.1).wait = .ovfx inst x.2.2 := by
  unfold ovfxWaiters at h
  rw [List.mem_flatMap] at h
  obtain ⟨d, _, h⟩ := h
  obtain ⟨v, _, k⟩ := List.mem_filterMap.1 h
  clear h
  split at k
  · next i r e =>
    split at k
    · next hi => subst hi; cases k; exact e
    · cases k
  · cases k

/-- One waiter's release. -/
def relOne (inst res : Nat) (rungs : Nat × Nat × Nat) (st : State) (x : Nat × Nat × Nat) : State :=
  let st := modThread x.1 x.2.1 (fun T => { T with state := .running, wait := .none }) st
  let st := setS x.1 x.2.1 x.2.2 res st
  let st := if res = 1 then setS x.1 x.2.1 1 rungs.1 (setS x.1 x.2.1 2 rungs.2.1 (setS x.1 x.2.1 3 rungs.2.2 st)) else st
  let st := modOvf x.1 inst (fun o => { o with again := res == 1 }) st
  traceRec x.1 x.2.1 4 inst (res + rungs.1 * 2 ^ 8 + rungs.2.1 * 2 ^ 16 + rungs.2.2 * 2 ^ 24) 0 st

theorem thread_traceRec (a b e f g h : Nat) (s : State) (d v : Nat) : thread (traceRec a b e f g h s) d v = thread s d v :=
  thread_congr (traceRec_cores ..) d v

theorem thread_setS_all (s : State) (c t n x d v : Nat) (h : ¬ (d = c ∧ v = t)) : thread (setS c t n x s) d v = thread s d v := by
  unfold setS
  split
  · rfl
  · rw [thread_modThread_all, if_neg h]

theorem relOne_other (inst res : Nat) (rungs : Nat × Nat × Nat) (st : State) (x : Nat × Nat × Nat) (d v : Nat)
    (h : ¬ (d = x.1 ∧ v = x.2.1)) : thread (relOne inst res rungs st x) d v = thread st d v := by
  unfold relOne
  dsimp only
  rw [thread_traceRec, thread_modOvf]
  split
  · rw [thread_setS_all _ _ _ _ _ _ _ h, thread_setS_all _ _ _ _ _ _ _ h, thread_setS_all _ _ _ _ _ _ _ h,
      thread_setS_all _ _ _ _ _ _ _ h, thread_modThread_all, if_neg h]
  · rw [thread_setS_all _ _ _ _ _ _ _ h, thread_modThread_all, if_neg h]

theorem sReg_of_thread {s u : State} {c t : Nat} (h : thread u c t = thread s c t) (n : Nat) : sReg u c t n = sReg s c t n := by
  unfold sReg; rw [h]

/-- What a release leaves in a waiter. -/
def Released (c t r res : Nat) (rungs : Nat × Nat × Nat) (u : State) : Prop :=
  (thread u c t).state = .running ∧ (thread u c t).wait = .none ∧ (res = 0 → sReg u c t r = 0) ∧
    (res = 1 → 3 < r → sReg u c t r = 1 ∧ sReg u c t 1 = rungs.1 % 2 ^ 64 ∧ sReg u c t 2 = rungs.2.1 % 2 ^ 64 ∧
      sReg u c t 3 = rungs.2.2 % 2 ^ 64)

theorem state_setS (c t n v : Nat) (s : State) : (thread (setS c t n v s) c t).state = (thread s c t).state := by
  unfold setS; split <;> simp

theorem wait_setS (c t n v : Nat) (s : State) : (thread (setS c t n v s) c t).wait = (thread s c t).wait := by
  unfold setS; split <;> simp

theorem relOne_self (inst res : Nat) (rungs : Nat × Nat × Nat) (st : State) (c t r : Nat) :
    Released c t r res rungs (relOne inst res rungs st (c, t, r)) := by
  unfold relOne
  dsimp only
  generalize hY : (if res = 1 then _ else _ : State) = Y
  have e : thread (traceRec c t 4 inst (res + rungs.1 * 2 ^ 8 + rungs.2.1 * 2 ^ 16 + rungs.2.2 * 2 ^ 24) 0
      (modOvf c inst (fun o => { o with again := res == 1 }) Y)) c t = thread Y c t := by
    rw [thread_traceRec, thread_modOvf]
  unfold Released
  simp only [sReg_of_thread e]
  rw [e]
  subst hY
  refine ⟨?_, ?_, fun h0 => ?_, fun h1 h3 => ?_⟩
  · split <;> simp [state_setS]
  · split <;> simp [wait_setS]
  · rw [if_neg (by omega), sReg_setS, h0]; simp
  · rw [if_pos h1]
    refine ⟨?_, ?_, ?_, ?_⟩
    · rw [sReg_setS_ne _ _ (by omega), sReg_setS_ne _ _ (by omega), sReg_setS_ne _ _ (by omega), sReg_setS, if_neg (by omega), h1]; rfl
    · rw [sReg_setS, if_neg (by omega)]
    · rw [sReg_setS_ne _ _ (by omega), sReg_setS, if_neg (by omega)]
    · rw [sReg_setS_ne _ _ (by omega), sReg_setS_ne _ _ (by omega), sReg_setS, if_neg (by omega)]

theorem rel_fold (inst res : Nat) (rungs : Nat × Nat × Nat) (c t r : Nat) (L : List (Nat × Nat × Nat))
    (hL : ∀ x ∈ L, x = (c, t, r) ∨ ¬ (c = x.1 ∧ t = x.2.1)) (st : State) (h : (c, t, r) ∈ L ∨ Released c t r res rungs st) :
    Released c t r res rungs (L.foldl (relOne inst res rungs) st) := by
  induction L generalizing st with
  | nil => rcases h with h | h <;> [cases h; exact h]
  | cons x L ih =>
    rw [List.foldl_cons]
    apply ih (fun y hy => hL y (by simp [hy]))
    rcases hL x (by simp) with e | e
    · right; subst e; exact relOne_self ..
    · rcases h with h | h
      · rcases List.mem_cons.1 h with h | h
        · subst h; exact absurd ⟨rfl, rfl⟩ e
        · exact .inl h
      · right
        have k := relOne_other inst res rungs st x c t e
        unfold Released at *
        simp only [sReg_of_thread k]
        rw [k]; exact h

theorem release_spec {s u : State} (hu : u.cores = s.cores) (inst res : Nat) (rungs : Nat × Nat × Nat) {c t r : Nat} (hc : c < 96) (ht : t < 32)
    (h : (thread s c t).wait = .ovfx inst r) : Released c t r res rungs (releaseOvfx inst res rungs u) := by
  have e : releaseOvfx inst res rungs u = (ovfxWaiters u inst).foldl (relOne inst res rungs) u := rfl
  rw [e, waiters_congr hu]
  refine rel_fold inst res rungs c t r _ (fun x hx => ?_) u (.inl (mem_waiters hc ht h))
  by_cases k : c = x.1 ∧ t = x.2.1
  · left
    have := of_waiters hx
    rw [← k.1, ← k.2, h] at this
    injection this with _ hr
    obtain ⟨a, b, d⟩ := x
    simp_all
  · exact .inr k

theorem Released.zero {c t r : Nat} {g : Nat × Nat × Nat} {u : State} (h : Released c t r 0 g u) :
    (thread u c t).state = .running ∧ (thread u c t).wait = .none ∧ sReg u c t r = 0 := ⟨h.1, h.2.1, h.2.2.1 rfl⟩

end Sys2Proof.Machine
end

