-- ==== Sys2Proof/Laws/Kept.lean ====
section
/-! SUPPORT. How the laws of `Keeps` are proved: `Kept s0 t` says of the nine fields that the invariant reads what `Keeps`
says of the state, so that a change to any other field keeps it by definition. -/

namespace Sys2Proof.Machine

open Sys2Proof

/-- The part of `Keeps s0` that reads only these fields of a later state. -/
structure KeptP (s0 : State) (pending : List Instr) (fuses : Fuses) (regs : List (Nat × Word)) (data : List Host.Cell)
    (poison : List (Nat × Bool)) (exact_ : List (Nat × Nat)) (journal : List JournalEntry) (waiting attn : Nat) : Prop where
  queue : pending = s0.pending
  fuses : fixedFuses fuses = fixedFuses s0.fuses
  regs : Inv s0 → swf regReset regs = true
  data : Inv s0 → swf byteD data = true
  poison : Inv s0 → swf poisonD poison = true
  counters : Inv s0 → ∀ e ∈ exact_, e.2 ≤ (2 ^ 48 - 1) * cntUnit e.1
  journal : Inv s0 → journal.length ≤ 8192
  log : Inv s0 → waiting ≤ 8192
  attn : Inv s0 → attn < 256

def Kept (s0 t : State) : Prop :=
  KeptP s0 t.pending t.fuses t.regs t.mem.data t.mem.poison t.cnt.exact t.res.journal t.log.waiting t.host.attnSeq

theorem Kept.keeps {s t : State} (h : Kept s t) : Keeps s t where
  queue := h.queue
  fuses := h.fuses
  inv i := ⟨h.regs i, by simp [Memory.wf, h.data i, h.poison i], h.counters i, h.journal i, h.log i, h.attn i⟩

theorem Kept.refl (s : State) : Kept s s where
  queue := rfl
  fuses := rfl
  regs i := i.regs
  data i := by have := i.mem; simp only [Memory.wf, Bool.and_eq_true] at this; exact this.1
  poison i := by have := i.mem; simp only [Memory.wf, Bool.and_eq_true] at this; exact this.2
  counters i := i.counters
  journal i := i.journal
  log i := i.log
  attn i := i.attn

theorem Kept.ite {s0 a b : State} {c : Prop} [Decidable c] (h1 : Kept s0 a) (h2 : Kept s0 b) :
    Kept s0 (if c then a else b) := by split <;> assumption

theorem Kept.via {s0 t : State} {G : Prop} (h1 : Kept s0 t) (h2 : Kept s0 t → G) : G := h2 h1

theorem Kept.foldl {β : Type} {s0 s : State} {f : State → β → State} {l : List β} (h : Kept s0 s)
    (hf : ∀ t, Kept s0 t → ∀ x, Kept s0 (f t x)) : Kept s0 (l.foldl f s) := by
  induction l generalizing s with
  | nil => exact h
  | cons x l ih => exact ih (hf s h x)

theorem Kept.forEach {β : Type} {s0 s : State} {f : β → State → State} {l : List β} (h : Kept s0 s)
    (hf : ∀ t, Kept s0 t → ∀ x, Kept s0 (f x t)) : Kept s0 (forEach l f s) := Kept.foldl h hf

/-- A change to fields that `Kept` does not read. -/
theorem Kept.upd {s0 E : State} {free : Nat} {out : List Output} {flash : Flash} {disabled : Nat} {renumbered :
    Nat} {pins : Pins} {boot : Boot} {dev : DevState} {host : HostSt} {cnt : Counters} {trace : TraceSt} {log :
    LogSt} {mgmt : Mgmt} {stroke : StrokeSt} {pkg : Option Pkg} {sources : List (Nat × Option Source)} {captured :
    List (Nat × Word)} {mapBytes : List Byte} {map : List MapDev} {plan : Option Plan} {failInputs : List FailInput}
    {run : RunSt} {cox : CoxSt} {collectors : List (Nat × StatRec)} {adm : AdmSt} {cores : List (Nat × CoreSt)} {mem
    : MemSt} {stm : StmSt} {link : LinkSt} {red : RedSt} {res : ResSt} {pwr : PwrSt} (h : Kept s0 E)
    (h_mem_data : mem.data = E.mem.data) (h_mem_poison : mem.poison = E.mem.poison) (h_cnt_exact : cnt.exact =
    E.cnt.exact) (h_res_journal : res.journal = E.res.journal) (h_log_waiting : log.waiting = E.log.waiting)
    (h_host_attnSeq : host.attnSeq = E.host.attnSeq) :
    Kept s0 (State.mk E.pending free out E.regs E.fuses flash disabled renumbered pins boot dev host cnt trace
    log mgmt stroke pkg sources captured mapBytes map plan failInputs run cox collectors adm cores mem stm link red
    res pwr) := by
  unfold Kept at *
  simp only [*]

end Sys2Proof.Machine
end

