-- ==== Sys2Proof/Laws/KeptRegisters.lean ====
section
/-! SUPPORT. `Kept` of the operations of registers, packets, memory controllers and reset. -/

namespace Sys2Proof.Machine

open Sys2Proof

theorem setReg_kept {s0 s : State} {off v : Nat} (h : Kept s0 s) : Kept s0 (setReg off v s) :=
  { h with regs := fun i => swf_sset (h.regs i) _ _ }


end Sys2Proof.Machine

namespace Sys2Proof.Machine

open Sys2Proof

theorem modRing_kept {s0 s : State} {q : Nat} {f : RingSt → RingSt} (hk : Kept s0 s) :
    Kept s0 (modRing q f s) := by
  unfold modRing
  repeat' (first
    | with_reducible assumption
    | (with_reducible apply Kept.upd; on_goal 1 => (first | with_reducible assumption | with_reducible apply Kept.ite | with_reducible apply Kept.foldl | with_reducible apply Kept.forEach | (with_reducible apply Kept.upd; on_goal 1 => (first | with_reducible assumption))))
    | with_reducible rfl)

theorem modCore_kept {s0 s : State} {c : Nat} {f : CoreSt → CoreSt} (hk : Kept s0 s) :
    Kept s0 (modCore c f s) := by
  unfold modCore
  repeat' (first
    | with_reducible assumption
    | (with_reducible apply Kept.upd; on_goal 1 => (first | with_reducible assumption | with_reducible apply Kept.ite | with_reducible apply Kept.foldl | with_reducible apply Kept.forEach | (with_reducible apply Kept.upd; on_goal 1 => (first | with_reducible assumption))))
    | with_reducible rfl)

theorem modThread_kept {s0 s : State} {c t : Nat} {f : Thread → Thread} (hk : Kept s0 s) :
    Kept s0 (modThread c t f s) := by
  unfold modThread
  repeat' (first | with_reducible assumption | with_reducible apply modCore_kept)

theorem modArr_kept {s0 s : State} {c a : Nat} {f : ArrSt → ArrSt} (hk : Kept s0 s) :
    Kept s0 (modArr c a f s) := by
  unfold modArr
  repeat' (first | with_reducible assumption | with_reducible apply modCore_kept)

theorem modPort_kept {s0 s : State} {p : Nat} {f : PortSt → PortSt} (hk : Kept s0 s) :
    Kept s0 (modPort p f s) := by
  unfold modPort
  repeat' (first
    | with_reducible assumption
    | (with_reducible apply Kept.upd; on_goal 1 => (first | with_reducible assumption | with_reducible apply Kept.ite | with_reducible apply Kept.foldl | with_reducible apply Kept.forEach | (with_reducible apply Kept.upd; on_goal 1 => (first | with_reducible assumption))))
    | with_reducible rfl)

theorem modSub_kept {s0 s : State} {p b : Nat} {f : SubPort → SubPort} (hk : Kept s0 s) :
    Kept s0 (modSub p b f s) := by
  unfold modSub
  repeat' (first | with_reducible assumption | with_reducible apply modPort_kept)

theorem modDesc_kept {s0 s : State} {d : Nat} {f : DescSt → DescSt} (hk : Kept s0 s) :
    Kept s0 (modDesc d f s) := by
  unfold modDesc
  repeat' (first
    | with_reducible assumption
    | (with_reducible apply Kept.upd; on_goal 1 => (first | with_reducible assumption | with_reducible apply Kept.ite | with_reducible apply Kept.foldl | with_reducible apply Kept.forEach | (with_reducible apply Kept.upd; on_goal 1 => (first | with_reducible assumption))))
    | with_reducible rfl)

theorem modCh_kept {s0 s : State} {c : Nat} {f : ChSt → ChSt} (hk : Kept s0 s) :
    Kept s0 (modCh c f s) := by
  unfold modCh
  repeat' (first
    | with_reducible assumption
    | (with_reducible apply Kept.upd; on_goal 1 => (first | with_reducible assumption | with_reducible apply Kept.ite | with_reducible apply Kept.foldl | with_reducible apply Kept.forEach | (with_reducible apply Kept.upd; on_goal 1 => (first | with_reducible assumption))))
    | with_reducible rfl)

theorem modPart_kept {s0 s : State} {n : Nat} {f : PartSt → PartSt} (hk : Kept s0 s) :
    Kept s0 (modPart n f s) := by
  unfold modPart
  repeat' (first
    | with_reducible assumption
    | (with_reducible apply Kept.upd; on_goal 1 => (first | with_reducible assumption | with_reducible apply Kept.ite | with_reducible apply Kept.foldl | with_reducible apply Kept.forEach | (with_reducible apply Kept.upd; on_goal 1 => (first | with_reducible assumption))))
    | with_reducible rfl)

theorem addMark_kept {s0 s : State} {m n : Nat} (hk : Kept s0 s) :
    Kept s0 (addMark m n s) := by
  unfold addMark
  repeat' (first
    | with_reducible assumption
    | (with_reducible apply Kept.upd; on_goal 1 => (first | with_reducible assumption | with_reducible apply Kept.ite | with_reducible apply Kept.foldl | with_reducible apply Kept.forEach | (with_reducible apply Kept.upd; on_goal 1 => (first | with_reducible assumption))))
    | with_reducible rfl)

theorem modAvs_kept {s0 s : State} {i : Nat} {f : RailAvs → RailAvs} (hk : Kept s0 s) :
    Kept s0 (modAvs i f s) := by
  unfold modAvs
  repeat' (first
    | with_reducible assumption
    | (with_reducible apply Kept.upd; on_goal 1 => (first | with_reducible assumption | with_reducible apply Kept.ite | with_reducible apply Kept.foldl | with_reducible apply Kept.forEach | (with_reducible apply Kept.upd; on_goal 1 => (first | with_reducible assumption))))
    | with_reducible rfl)

theorem setGroup_kept {s0 s : State} {g : Nat} {p : PowerState} (hk : Kept s0 s) :
    Kept s0 (setGroup g p s) := by
  unfold setGroup
  repeat' (first
    | with_reducible assumption
    | (with_reducible apply Kept.upd; on_goal 1 => (first | with_reducible assumption | with_reducible apply Kept.ite | with_reducible apply Kept.foldl | with_reducible apply Kept.forEach | (with_reducible apply Kept.upd; on_goal 1 => (first | with_reducible assumption))))
    | with_reducible rfl)

theorem modSource_kept {s0 s : State} {i : Nat} {f : Source → Source} (hk : Kept s0 s) :
    Kept s0 (modSource i f s) := by
  unfold modSource
  repeat' (first
    | with_reducible assumption
    | (with_reducible apply Kept.upd; on_goal 1 => (first | with_reducible assumption | with_reducible apply Kept.ite | with_reducible apply Kept.foldl | with_reducible apply Kept.forEach | (with_reducible apply Kept.upd; on_goal 1 => (first | with_reducible assumption))))
    | with_reducible rfl)

theorem modSlot_kept {s0 s : State} {i : Nat} {f : SlotRec → SlotRec} (hk : Kept s0 s) :
    Kept s0 (modSlot i f s) := by
  unfold modSlot
  repeat' (first
    | with_reducible assumption
    | (with_reducible apply Kept.upd; on_goal 1 => (first | with_reducible assumption | with_reducible apply Kept.ite | with_reducible apply Kept.foldl | with_reducible apply Kept.forEach | (with_reducible apply Kept.upd; on_goal 1 => (first | with_reducible assumption))))
    | with_reducible rfl)

theorem modRegion_kept {s0 s : State} {i : Nat} {f : RegionSt → RegionSt} (hk : Kept s0 s) :
    Kept s0 (modRegion i f s) := by
  unfold modRegion
  repeat' (first
    | with_reducible assumption
    | (with_reducible apply Kept.upd; on_goal 1 => (first | with_reducible assumption | with_reducible apply Kept.ite | with_reducible apply Kept.foldl | with_reducible apply Kept.forEach | (with_reducible apply Kept.upd; on_goal 1 => (first | with_reducible assumption))))
    | with_reducible rfl)

theorem lifeAdd_kept {s0 s : State} {o w n : Nat} (hk : Kept s0 s) :
    Kept s0 (lifeAdd o w n s) := by
  unfold lifeAdd
  repeat' (first
    | with_reducible assumption
    | (with_reducible apply Kept.upd; on_goal 1 => (first | with_reducible assumption | with_reducible apply Kept.ite | with_reducible apply Kept.foldl | with_reducible apply Kept.forEach | (with_reducible apply Kept.upd; on_goal 1 => (first | with_reducible assumption))))
    | with_reducible rfl)

theorem emit_kept {s0 s : State} {o : Output} (hk : Kept s0 s) :
    Kept s0 (emit o s) := by
  unfold emit
  repeat' (first
    | with_reducible assumption
    | (with_reducible apply Kept.upd; on_goal 1 => (first | with_reducible assumption | with_reducible apply Kept.ite | with_reducible apply Kept.foldl | with_reducible apply Kept.forEach | (with_reducible apply Kept.upd; on_goal 1 => (first | with_reducible assumption))))
    | with_reducible rfl)

theorem useFree_kept {s0 s : State}  (hk : Kept s0 s) :
    Kept s0 (useFree  s) := by
  unfold useFree
  repeat' (first
    | with_reducible assumption
    | (with_reducible apply Kept.upd; on_goal 1 => (first | with_reducible assumption | with_reducible apply Kept.ite | with_reducible apply Kept.foldl | with_reducible apply Kept.forEach | (with_reducible apply Kept.upd; on_goal 1 => (first | with_reducible assumption))))
    | with_reducible rfl)

theorem cntAdd_kept {s0 s : State} {off n : Nat} (h : Kept s0 s) : Kept s0 (cntAdd off n s) :=
  { h with
    counters := fun i e he => by
      rcases mem_sset he with rfl | he
      · exact Nat.min_le_right ..
      · exact h.counters i e he }

theorem logEnter_kept {s0 s : State} {typ : Nat} {args : List Byte} (h : Kept s0 s) (w : s.log.waiting < 8192) :
    Kept s0 (logEnter typ args s) :=
  { h with log := fun _ => w }

theorem logEv_kept {s0 s : State} {typ : Nat} {args : List Byte} (h : Kept s0 s) : Kept s0 (logEv typ args s) := by
  unfold logEv
  apply Kept.ite h
  have h1 : Kept s0 (if (decide (0 < s.log.dropped) && decide (s.log.waiting < 8191)) = true then
      logEnter 2565 (b4 s.log.dropped) { s with log := { s.log with dropped := 0 } } else s) := by
    split
    · rename_i w
      simp only [Bool.and_eq_true, decide_eq_true_eq] at w
      exact logEnter_kept (s := { s with log := { s.log with dropped := 0 } }) h (by show s.log.waiting < 8192; omega)
    · exact h
  revert h1
  generalize (if (decide (0 < s.log.dropped) && decide (s.log.waiting < 8191)) = true then
      logEnter 2565 (b4 s.log.dropped) { s with log := { s.log with dropped := 0 } } else s) = u
  intro h1
  dsimp only
  split
  · exact logEnter_kept h1 (by assumption)
  · exact h1

theorem attnBase_kept {s0 s : State} {cls : Nat} (h : Kept s0 s) : Kept s0 (attnBase cls s) :=
  cntAdd_kept (s := { s with host := _ }) { h with attn := fun _ => Nat.mod_lt _ (by decide) }

theorem satEvent_kept {s0 s : State} {off : Nat} (hk : Kept s0 s) :
    Kept s0 (satEvent off s) := by
  unfold satEvent
  repeat' (first
    | with_reducible assumption
    | with_reducible apply logEv_kept
    | with_reducible apply attnBase_kept)

theorem bump_kept {s0 s : State} {off n : Nat} (hk : Kept s0 s) :
    Kept s0 (bump off n s) := by
  unfold bump
  repeat' (first
    | with_reducible assumption
    | with_reducible apply Kept.ite
    | with_reducible apply cntAdd_kept
    | with_reducible apply satEvent_kept)

theorem attn_kept {s0 s : State} {cls : Nat} (hk : Kept s0 s) :
    Kept s0 (attn cls s) := by
  unfold attn
  repeat' (first
    | with_reducible assumption
    | with_reducible apply Kept.ite
    | with_reducible apply attnBase_kept
    | with_reducible apply satEvent_kept)

theorem refuseWrite_kept {s0 s : State}  (hk : Kept s0 s) :
    Kept s0 (refuseWrite  s) := by
  unfold refuseWrite
  repeat' (first | with_reducible assumption | with_reducible apply bump_kept)

theorem writeReply_kept {s0 s : State} {q : Nat} {r : List Byte} (hk : Kept s0 s) :
    Kept s0 (writeReply q r s) := by
  unfold writeReply
  repeat' (first
    | with_reducible assumption
    | with_reducible apply Kept.ite
    | with_reducible apply emit_kept
    | with_reducible apply bump_kept
    | with_reducible apply modRing_kept)

theorem reply_kept {s0 s : State} {q tag op code : Nat} {payload : List Byte} (hk : Kept s0 s) :
    Kept s0 (reply q tag op code payload s) := by
  unfold reply
  repeat' (first
    | with_reducible assumption
    | with_reducible apply Kept.ite
    | with_reducible apply modRing_kept
    | with_reducible apply writeReply_kept)

theorem drainReplies_kept {s0 : State} {q : Nat} (n : Nat) : ∀ {s : State}, Kept s0 s → Kept s0 (drainReplies q n s) := by
  induction n with
  | zero => intro s hk; exact hk
  | succ n ih =>
    intro s hk
    unfold drainReplies
    repeat' (first
      | with_reducible assumption
      | with_reducible apply writeReply_kept
      | with_reducible apply modRing_kept
      | apply ih
      | split)

theorem finish_kept {s0 s : State} {q code : Nat} {payload : List Byte} (hk : Kept s0 s) :
    Kept s0 (finish q code payload s) := by
  unfold finish
  repeat' (first
    | with_reducible assumption
    | with_reducible apply reply_kept
    | with_reducible apply bump_kept
    | with_reducible apply modRing_kept
    | split)

theorem dropReserved_kept {s0 : State} {q : Nat} (n : Nat) : ∀ {s : State}, Kept s0 s → Kept s0 (dropReserved q n s) := by
  induction n with
  | zero => intro s hk; exact hk
  | succ n ih =>
    intro s hk
    unfold dropReserved
    repeat' (first
      | with_reducible assumption
      | with_reducible apply finish_kept
      | apply ih
      | split)

theorem complete_kept {s0 s : State} {q code : Nat} {payload : List Byte} (hk : Kept s0 s) :
    Kept s0 (complete q code payload s) := by
  unfold complete
  repeat' (first
    | with_reducible assumption
    | with_reducible apply finish_kept
    | with_reducible apply dropReserved_kept)

theorem ringCommand_kept {s0 s : State} {q op : Nat} {encOk : List Byte → Bool} {stateOk : State → Option Nat} {body : List Byte → State → State} (hk : Kept s0 s) (hk_body : ∀ u, Kept s0 u → ∀ y0, Kept s0 (body y0 u)) :
    Kept s0 (ringCommand q op encOk stateOk body s) := by
  unfold ringCommand
  repeat' (first
    | with_reducible assumption
    | with_reducible apply complete_kept
    | apply hk_body
    | split)

theorem accept_kept {s0 s : State} {q : Nat} (hk : Kept s0 s) :
    Kept s0 (accept q s) := by
  unfold accept
  repeat' (first | with_reducible assumption | with_reducible apply modRing_kept)

theorem memWrite_kept {s0 s : State} {a : Nat} {l : List Byte} (h : Kept s0 s) : Kept s0 (memWrite a l s) :=
  { h with
    data := fun i => swf_ssetRun (h.data i) _ _
    poison := fun i => swf_foldl_sset _ (fun x => x) (fun _ => false) (h.poison i) }

theorem zeroMem_kept {s0 s : State} {a n : Nat} (h : Kept s0 s) : Kept s0 (zeroMem a n s) :=
  { h with data := fun i => swf_serase (h.data i) _ _, poison := fun i => swf_serase (h.poison i) _ _ }

theorem memPoison_kept {s0 s : State} {a n : Nat} (h : Kept s0 s) : Kept s0 (memPoison a n s) :=
  { h with poison := fun i => swf_foldl_sset _ (fun j => codeWord s (a + j)) (fun _ => true) (h.poison i) }

theorem scrWrite_kept {s0 s : State} {c off : Nat} {l : List Byte} (hk : Kept s0 s) :
    Kept s0 (scrWrite c off l s) := by
  unfold scrWrite
  repeat' (first | with_reducible assumption | with_reducible apply memWrite_kept)

theorem takeTimed_kept {s0 s : State} {kind pos arg : Nat} {f : State → State} (h : Kept s0 s)
    (hf : ∀ u, Kept s0 u → Kept s0 (f u)) : Kept s0 (takeTimed kind pos arg f s) := by
  unfold takeTimed
  split
  · rename_i w
    refine hf _ { h with journal := fun _ => ?_ }
    simp only [List.length_append, List.length_cons, List.length_nil]
    omega
  · exact h

theorem pathEv_kept {s0 s : State} {code step pos part cause : Nat} (hk : Kept s0 s) :
    Kept s0 (pathEv code step pos part cause s) := by
  unfold pathEv
  repeat' (first | with_reducible assumption | with_reducible apply logEv_kept)

theorem countPoison_kept {s0 s : State} {reason : Nat} (hk : Kept s0 s) :
    Kept s0 (countPoison reason s) := by
  unfold countPoison
  repeat' (first
    | with_reducible assumption
    | with_reducible apply Kept.ite
    | with_reducible apply bump_kept)

theorem health_kept {s0 s : State} {input n : Nat} (hk : Kept s0 s) :
    Kept s0 (health input n s) := by
  unfold health
  repeat' (first
    | with_reducible assumption
    | (with_reducible apply Kept.upd; on_goal 1 => (first | with_reducible assumption | with_reducible apply Kept.ite | with_reducible apply Kept.foldl | with_reducible apply Kept.forEach | (with_reducible apply Kept.upd; on_goal 1 => (first | with_reducible assumption))))
    | with_reducible rfl)

theorem traceRec_kept {s0 s : State} {c thr typ arg d0 d1 : Nat} (hk : Kept s0 s) :
    Kept s0 (traceRec c thr typ arg d0 d1 s) := by
  unfold traceRec
  repeat' (first
    | with_reducible assumption
    | with_reducible apply bump_kept
    | (with_reducible apply Kept.upd; on_goal 1 => (first | with_reducible assumption | with_reducible apply Kept.ite | with_reducible apply bump_kept | with_reducible apply Kept.foldl | with_reducible apply Kept.forEach | (with_reducible apply Kept.upd; on_goal 1 => (first | with_reducible assumption | with_reducible apply bump_kept))))
    | (show _ = _; rfl)
    | split)


end Sys2Proof.Machine

namespace Sys2Proof.Machine

open Sys2Proof

theorem setRung_kept {s0 s : State} {layer role n : Nat} (hk : Kept s0 s) :
    Kept s0 (setRung layer role n s) := by
  unfold setRung
  repeat' (first
    | with_reducible assumption
    | (with_reducible apply Kept.upd; on_goal 1 => (first | with_reducible assumption | with_reducible apply Kept.ite | with_reducible apply Kept.foldl | with_reducible apply Kept.forEach | (with_reducible apply Kept.upd; on_goal 1 => (first | with_reducible assumption))))
    | with_reducible rfl)

theorem setPin_kept {s0 s : State} {layer role n : Nat} (hk : Kept s0 s) :
    Kept s0 (setPin layer role n s) := by
  unfold setPin
  repeat' (first
    | with_reducible assumption
    | (with_reducible apply Kept.upd; on_goal 1 => (first | with_reducible assumption | with_reducible apply Kept.ite | with_reducible apply Kept.foldl | with_reducible apply Kept.forEach | (with_reducible apply Kept.upd; on_goal 1 => (first | with_reducible assumption))))
    | with_reducible rfl)

theorem setQuiet_kept {s0 s : State} {layer role n : Nat} (hk : Kept s0 s) :
    Kept s0 (setQuiet layer role n s) := by
  unfold setQuiet
  repeat' (first
    | with_reducible assumption
    | (with_reducible apply Kept.upd; on_goal 1 => (first | with_reducible assumption | with_reducible apply Kept.ite | with_reducible apply Kept.foldl | with_reducible apply Kept.forEach | (with_reducible apply Kept.upd; on_goal 1 => (first | with_reducible assumption))))
    | with_reducible rfl)


end Sys2Proof.Machine

namespace Sys2Proof.Machine

open Sys2Proof

theorem txFrame_kept {s0 s : State} {p b : Nat} {f : List Byte} (hk : Kept s0 s) :
    Kept s0 (txFrame p b f s) := by
  unfold txFrame
  repeat' (first
    | with_reducible assumption
    | with_reducible apply emit_kept
    | with_reducible apply bump_kept)

theorem sendFrame_kept {s0 s : State} {p b : Nat} {payload : List Byte} (hk : Kept s0 s) :
    Kept s0 (sendFrame p b payload s) := by
  unfold sendFrame
  repeat' (first
    | with_reducible assumption
    | with_reducible apply txFrame_kept
    | with_reducible apply modSub_kept)

theorem wire_kept {s0 s : State} {p b : Nat} {h : PktHdr} {body : List Byte} (hk : Kept s0 s) :
    Kept s0 (wire p b h body s) := by
  unfold wire
  repeat' (first
    | with_reducible assumption
    | intro (x : State) hx
    | with_reducible apply sendFrame_kept
    | with_reducible apply emit_kept
    | with_reducible apply Kept.forEach
    | (lift_lets; intro x))

theorem addHop_kept {s0 s : State} {p b cls hop : Nat} {f : Nat → Nat} (hk : Kept s0 s) :
    Kept s0 (addHop p b cls hop f s) := by
  unfold addHop
  repeat' (first | with_reducible assumption | with_reducible apply modSub_kept)

theorem pump_kept {s0 : State} {p b : Nat} (n : Nat) : ∀ {s : State}, Kept s0 s → Kept s0 (pump p b n s) := by
  induction n with
  | zero => intro s hk; exact hk
  | succ n ih =>
    intro s hk
    unfold pump
    repeat' (first
      | with_reducible assumption
      | with_reducible apply Kept.ite
      | with_reducible apply wire_kept
      | with_reducible apply addHop_kept
      | with_reducible apply modSub_kept
      | apply ih
      | split)

theorem sendOn_kept {s0 s : State} {p b : Nat} {h : PktHdr} {body : List Byte} (hk : Kept s0 s) :
    Kept s0 (sendOn p b h body s) := by
  unfold sendOn
  repeat' (first
    | with_reducible assumption
    | with_reducible apply Kept.ite
    | with_reducible apply wire_kept
    | with_reducible apply modSub_kept
    | with_reducible apply pump_kept)

theorem sendTo_kept {s0 s : State} {h : PktHdr} {body : List Byte} (hk : Kept s0 s) :
    Kept s0 (sendTo h body s) := by
  unfold sendTo
  repeat' (first
    | with_reducible assumption
    | with_reducible apply sendOn_kept
    | split)

theorem flood_kept {s0 s : State} {kind : Nat} {body : List Byte} (hk : Kept s0 s) :
    Kept s0 (flood kind body s) := by
  unfold flood
  repeat' (first
    | with_reducible assumption
    | intro (x : State) hx
    | with_reducible apply sendOn_kept
    | with_reducible apply Kept.forEach
    | (lift_lets; intro x))

theorem sendDigest_kept {s0 s : State}  (hk : Kept s0 s) :
    Kept s0 (sendDigest  s) := by
  unfold sendDigest
  repeat' (first
    | with_reducible assumption
    | with_reducible apply sendOn_kept
    | (with_reducible apply Kept.upd; on_goal 1 => (first | with_reducible assumption | with_reducible apply Kept.ite | with_reducible apply sendOn_kept | with_reducible apply Kept.foldl | with_reducible apply Kept.forEach | (with_reducible apply Kept.upd; on_goal 1 => (first | with_reducible assumption | with_reducible apply sendOn_kept))))
    | (show _ = _; rfl)
    | intro x
    | split)

theorem ctlMod_kept {s0 s : State} {id : Nat} {f : CtlRed → CtlRed} (hk : Kept s0 s) :
    Kept s0 (ctlMod id f s) := by
  unfold ctlMod
  repeat' (first
    | with_reducible assumption
    | (with_reducible apply Kept.upd; on_goal 1 => (first | with_reducible assumption | with_reducible apply Kept.ite | with_reducible apply Kept.foldl | with_reducible apply Kept.forEach | (with_reducible apply Kept.upd; on_goal 1 => (first | with_reducible assumption))))
    | with_reducible rfl)

theorem ctlClear_kept {s0 s : State} {id : Nat} (hk : Kept s0 s) :
    Kept s0 (ctlClear id s) := by
  unfold ctlClear
  repeat' (first
    | with_reducible assumption
    | (with_reducible apply Kept.upd; on_goal 1 => (first | with_reducible assumption | with_reducible apply Kept.ite | with_reducible apply Kept.foldl | with_reducible apply Kept.forEach | (with_reducible apply Kept.upd; on_goal 1 => (first | with_reducible assumption))))
    | with_reducible rfl)

theorem ctlSendUp_kept {s0 s : State} {id parent acc : Nat} (hk : Kept s0 s) :
    Kept s0 (ctlSendUp id parent acc s) := by
  unfold ctlSendUp
  repeat' (first
    | with_reducible assumption
    | with_reducible apply sendTo_kept
    | with_reducible apply ctlMod_kept)

theorem ctlSendDown_kept {s0 s : State} {id acc : Nat} (hk : Kept s0 s) :
    Kept s0 (ctlSendDown id acc s) := by
  unfold ctlSendDown
  repeat' (first
    | with_reducible assumption
    | intro (x : State) hx
    | with_reducible apply sendTo_kept
    | with_reducible apply Kept.forEach
    | (lift_lets; intro x))

theorem ctlStep_kept {s0 s : State} {onResult : Nat → State → State} {id : Nat} (hk : Kept s0 s) (hk_onResult : ∀ u, Kept s0 u → ∀ y0, Kept s0 (onResult y0 u)) :
    Kept s0 (ctlStep onResult id s) := by
  unfold ctlStep
  repeat' (first
    | with_reducible assumption
    | with_reducible apply ctlSendUp_kept
    | with_reducible apply ctlClear_kept
    | with_reducible apply ctlSendDown_kept
    | apply hk_onResult
    | split)

theorem ctlOwn_kept {s0 s : State} {onResult : Nat → State → State} {id v : Nat} (hk : Kept s0 s) (hk_onResult : ∀ u, Kept s0 u → ∀ y0, Kept s0 (onResult y0 u)) :
    Kept s0 (ctlOwn onResult id v s) := by
  unfold ctlOwn
  repeat' (first
    | with_reducible assumption
    | with_reducible apply ctlStep_kept
    | with_reducible apply ctlMod_kept)


end Sys2Proof.Machine

namespace Sys2Proof.Machine

open Sys2Proof

theorem loseWord_kept {s0 s : State} {a : Nat} (hk : Kept s0 s) :
    Kept s0 (loseWord a s) := by
  unfold loseWord
  repeat' (first
    | with_reducible assumption
    | (with_reducible apply Kept.upd; on_goal 1 => (first | with_reducible assumption | with_reducible apply Kept.ite | with_reducible apply Kept.foldl | with_reducible apply Kept.forEach | (with_reducible apply Kept.upd; on_goal 1 => (first | with_reducible assumption))))
    | with_reducible rfl)

theorem eccRead_kept {s0 s : State} {scrubbing : Bool} {a : Nat} {o : EccOutcome} (hk : Kept s0 s) :
    Kept s0 (eccRead scrubbing a o s) := by
  unfold eccRead
  repeat' (first
    | with_reducible assumption
    | with_reducible apply lifeAdd_kept
    | with_reducible apply health_kept
    | with_reducible apply bump_kept
    | with_reducible apply loseWord_kept
    | with_reducible apply memPoison_kept
    | (with_reducible apply Kept.upd; on_goal 1 => (first | with_reducible assumption | with_reducible apply Kept.ite | with_reducible apply lifeAdd_kept | with_reducible apply health_kept | with_reducible apply bump_kept | with_reducible apply loseWord_kept | with_reducible apply memPoison_kept | with_reducible apply Kept.foldl | with_reducible apply Kept.forEach | (with_reducible apply Kept.upd; on_goal 1 => (first | with_reducible assumption | with_reducible apply lifeAdd_kept | with_reducible apply health_kept | with_reducible apply bump_kept | with_reducible apply loseWord_kept | with_reducible apply memPoison_kept))))
    | (show _ = _; rfl)
    | split)

theorem readCount_kept {s0 s : State} {a n : Nat} {o : EccOutcome} (hk : Kept s0 s) :
    Kept s0 (readCount a n o s) := by
  unfold readCount
  repeat' (first
    | with_reducible assumption
    | intro (x : State) hx
    | with_reducible apply eccRead_kept
    | with_reducible apply Kept.foldl
    | (lift_lets; intro x))

theorem countBytes_kept {s0 s : State} {write : Bool} {a n other : Nat} (hk : Kept s0 s) :
    Kept s0 (countBytes write a n other s) := by
  unfold countBytes
  repeat' (first
    | with_reducible assumption
    | with_reducible apply bump_kept
    | split)

theorem bufferLine_kept {s0 s : State} {x : Nat × Nat} (hk : Kept s0 s) :
    Kept s0 (bufferLine x s) := by
  unfold bufferLine
  repeat' (first
    | with_reducible assumption
    | with_reducible apply Kept.ite
    | with_reducible apply bump_kept
    | with_reducible apply modCh_kept)

theorem bufferWrite_kept {s0 s : State} {a n : Nat} (hk : Kept s0 s) :
    Kept s0 (bufferWrite a n s) := by
  unfold bufferWrite
  repeat' (first
    | with_reducible assumption
    | intro (x : State) hx
    | with_reducible apply Kept.ite
    | with_reducible apply bufferLine_kept
    | with_reducible apply Kept.foldl
    | (lift_lets; intro x))

theorem flushBuffer_kept {s0 s : State} {c : Nat} (hk : Kept s0 s) :
    Kept s0 (flushBuffer c s) := by
  unfold flushBuffer
  repeat' (first
    | with_reducible assumption
    | with_reducible apply Kept.ite
    | with_reducible apply modCh_kept
    | with_reducible apply bump_kept)

theorem countRange_kept {s0 s : State} {write : Bool} {a n : Nat} (hk : Kept s0 s) :
    Kept s0 (countRange write a n s) := by
  unfold countRange
  repeat' (first
    | with_reducible assumption
    | intro (x : State) hx
    | with_reducible apply countBytes_kept
    | with_reducible apply Kept.foldl
    | (lift_lets; intro x))

theorem memStore_kept {s0 s : State} {a : Nat} {l : List Byte} (hk : Kept s0 s) :
    Kept s0 (memStore a l s) := by
  unfold memStore
  repeat' (first
    | with_reducible assumption
    | with_reducible apply bufferWrite_kept
    | with_reducible apply memWrite_kept)

theorem deliver_kept {s0 s : State} {a : Nat} {bytes : List Byte} {poison : Bool} (hk : Kept s0 s) :
    Kept s0 (deliver a bytes poison s) := by
  unfold deliver
  repeat' (first
    | with_reducible assumption
    | with_reducible apply emit_kept
    | with_reducible apply memStore_kept
    | with_reducible apply memPoison_kept
    | split)


end Sys2Proof.Machine

namespace Sys2Proof.Machine

open Sys2Proof

theorem lifeWrite_kept {s0 s : State}  (hk : Kept s0 s) :
    Kept s0 (lifeWrite  s) := by
  unfold lifeWrite
  repeat' (first
    | with_reducible assumption
    | with_reducible apply lifeAdd_kept
    | (with_reducible apply Kept.upd; on_goal 1 => (first | with_reducible assumption | with_reducible apply Kept.ite | with_reducible apply lifeAdd_kept | with_reducible apply Kept.foldl | with_reducible apply Kept.forEach | (with_reducible apply Kept.upd; on_goal 1 => (first | with_reducible assumption | with_reducible apply lifeAdd_kept))))
    | with_reducible rfl)

theorem copyLog_kept {s0 s : State} (hk : Kept s0 s) : Kept s0 (copyLog s) := by
  have h : ∀ f : Flash, Kept s0 { s with flash := f, log := { s.log with waiting := 0 } } := fun f => { hk with log := fun _ => Nat.zero_le _ }
  unfold copyLog
  generalize flashKeep (s.flash.log ++ waitingEntries s) = l
  exact h _

theorem flushLog_kept {s0 s : State} (hk : Kept s0 s) : Kept s0 (flushLog s) := by
  have h : ∀ u : State, Kept s0 u → u.log.waiting = 0 → Kept s0 (if 0 < u.log.dropped then
      logEnter 0x0A05 (b4 u.log.dropped) { u with log := { u.log with dropped := 0 } } else u) := fun u hu hw => by
    apply Kept.ite
    · have h1 : Kept s0 { u with log := { u.log with dropped := 0 } } := { hu with log := hu.log }
      exact logEnter_kept h1 (by show u.log.waiting < 8192; omega)
    · exact hu
  exact h _ (copyLog_kept hk) rfl

theorem snapshotAt_kept {s0 s : State} {cyc clear : Nat} (hk : Kept s0 s) : Kept s0 (snapshotAt cyc clear s) :=
  { hk with counters := fun i e he => hk.counters i e (List.mem_of_mem_filter he) }

theorem takeSnapshot_kept {s0 s : State} {clear : Nat} (hk : Kept s0 s) :
    Kept s0 (takeSnapshot clear s) := by
  unfold takeSnapshot
  repeat' (first
    | with_reducible assumption
    | with_reducible apply useFree_kept
    | with_reducible apply snapshotAt_kept)

theorem dropHold_kept {s0 s : State}  (hk : Kept s0 s) :
    Kept s0 (dropHold  s) := by
  unfold dropHold
  repeat' (first
    | with_reducible assumption
    | with_reducible apply zeroMem_kept
    | (with_reducible apply Kept.upd; on_goal 1 => (first | with_reducible assumption | with_reducible apply Kept.ite | with_reducible apply zeroMem_kept | with_reducible apply Kept.foldl | with_reducible apply Kept.forEach | (with_reducible apply Kept.upd; on_goal 1 => (first | with_reducible assumption | with_reducible apply zeroMem_kept))))
    | with_reducible rfl)

theorem dropScratch_kept {s0 s : State}  (hk : Kept s0 s) :
    Kept s0 (dropScratch  s) := by
  unfold dropScratch
  repeat' (first | with_reducible assumption | with_reducible apply zeroMem_kept)

theorem dropLpddr_kept {s0 s : State}  (hk : Kept s0 s) :
    Kept s0 (dropLpddr  s) := by
  unfold dropLpddr
  repeat' (first
    | with_reducible assumption
    | with_reducible apply zeroMem_kept
    | (with_reducible apply Kept.upd; on_goal 1 => (first | with_reducible assumption | with_reducible apply Kept.ite | with_reducible apply zeroMem_kept | with_reducible apply Kept.foldl | with_reducible apply Kept.forEach | (with_reducible apply Kept.upd; on_goal 1 => (first | with_reducible assumption | with_reducible apply zeroMem_kept))))
    | with_reducible rfl)

theorem emptyJournal_kept {s0 s : State} (hk : Kept s0 s) : Kept s0 (emptyJournal s) :=
  { hk with data := fun i => swf_ssetRun (hk.data i) _ _, journal := fun _ => Nat.zero_le _ }

theorem abortPasses_kept {s0 s : State}  (hk : Kept s0 s) :
    Kept s0 (abortPasses  s) := by
  unfold abortPasses
  repeat' (first
    | with_reducible assumption
    | (with_reducible apply Kept.upd; on_goal 1 => (first | with_reducible assumption | with_reducible apply Kept.ite | with_reducible apply Kept.foldl | with_reducible apply Kept.forEach | (with_reducible apply Kept.upd; on_goal 1 => (first | with_reducible assumption))))
    | with_reducible rfl)

theorem fullReset_kept {s0 s : State} (hk : Kept s0 s) : Kept s0 (fullReset s) := by
  have h := lifeAdd_kept (o := 0x40) (w := 8) (n := 1) (dropHold_kept (emptyJournal_kept (abortPasses_kept hk)))
  exact
    { queue := h.queue
      fuses := h.fuses
      regs := fun i => swf_filter (h.regs i) _
      data := h.data
      poison := h.poison
      counters := fun _ e he => absurd he (List.not_mem_nil)
      journal := fun _ => Nat.zero_le _
      log := h.log
      attn := fun _ => (by decide : 0 < 256) }

theorem enterRecovery_kept {s0 s : State} {cause : Nat} (hk : Kept s0 s) :
    Kept s0 (enterRecovery cause s) := by
  unfold enterRecovery
  repeat' (first
    | with_reducible assumption
    | with_reducible apply lifeAdd_kept
    | (with_reducible apply Kept.upd; on_goal 1 => (first | with_reducible assumption | with_reducible apply Kept.ite | with_reducible apply lifeAdd_kept | with_reducible apply Kept.foldl | with_reducible apply Kept.forEach | (with_reducible apply Kept.upd; on_goal 1 => (first | with_reducible assumption | with_reducible apply lifeAdd_kept))))
    | with_reducible rfl)

theorem romSteps_kept {s0 s : State}  (hk : Kept s0 s) :
    Kept s0 (romSteps  s) := by
  unfold romSteps
  repeat' (first
    | with_reducible assumption
    | with_reducible apply enterRecovery_kept
    | (with_reducible apply Kept.upd; on_goal 1 => (first | with_reducible assumption | with_reducible apply Kept.ite | with_reducible apply enterRecovery_kept | with_reducible apply Kept.foldl | with_reducible apply Kept.forEach | (with_reducible apply Kept.upd; on_goal 1 => (first | with_reducible assumption | with_reducible apply enterRecovery_kept))))
    | with_reducible rfl)

theorem romBody_kept {s0 s : State}  (hk : Kept s0 s) :
    Kept s0 (romBody  s) := by
  unfold romBody
  repeat' (first
    | with_reducible assumption
    | with_reducible apply enterRecovery_kept
    | (with_reducible apply Kept.upd; on_goal 1 => (first | with_reducible assumption | with_reducible apply Kept.ite | with_reducible apply enterRecovery_kept | with_reducible apply Kept.foldl | with_reducible apply Kept.forEach | (with_reducible apply Kept.upd; on_goal 1 => (first | with_reducible assumption | with_reducible apply enterRecovery_kept))))
    | with_reducible rfl)

theorem blowFuses_kept {s0 s : State} (hk : Kept s0 s) : Kept s0 (blowFuses s) := by
  have step : ∀ (u : State) (f : Fuses), Kept s0 u → fixedFuses f = fixedFuses u.fuses → Kept s0 { u with fuses := f } :=
    fun u f h e => { h with fuses := e.trans h.fuses }
  unfold blowFuses
  apply Kept.foldl
  · apply Kept.ite
    · exact Kept.foldl hk fun t ht x => logEv_kept (step t _ ht rfl)
    · exact hk
  · exact fun t ht x => logEv_kept (step t _ ht rfl)

theorem linkTrained_kept {s0 s : State}  (hk : Kept s0 s) :
    Kept s0 (linkTrained  s) := by
  unfold linkTrained
  repeat' (first
    | with_reducible assumption
    | (with_reducible apply Kept.upd; on_goal 1 => (first | with_reducible assumption | with_reducible apply Kept.ite | with_reducible apply Kept.foldl | with_reducible apply Kept.forEach | (with_reducible apply Kept.upd; on_goal 1 => (first | with_reducible assumption))))
    | with_reducible rfl)

theorem trainPorts_kept {s0 s : State}  (hk : Kept s0 s) :
    Kept s0 (trainPorts  s) := by
  unfold trainPorts
  repeat' (first
    | with_reducible assumption
    | intro (x : State) hx
    | with_reducible apply Kept.ite
    | with_reducible apply modPort_kept
    | with_reducible apply Kept.foldl
    | (lift_lets; intro x))

theorem initHold_kept {s0 s : State}  (hk : Kept s0 s) :
    Kept s0 (initHold  s) := by
  unfold initHold
  repeat' (first
    | with_reducible assumption
    | intro (x : State) hx
    | with_reducible apply modPart_kept
    | with_reducible apply dropHold_kept
    | with_reducible apply Kept.foldl
    | (lift_lets; intro x))

theorem plannerCopied_kept {s0 s : State}  (hk : Kept s0 s) :
    Kept s0 (plannerCopied  s) := by
  unfold plannerCopied
  repeat' (first
    | with_reducible assumption
    | with_reducible apply memWrite_kept
    | with_reducible apply memStore_kept)

theorem initLpddr_kept {s0 s : State}  (hk : Kept s0 s) :
    Kept s0 (initLpddr  s) := by
  unfold initLpddr
  repeat' (first
    | with_reducible assumption
    | intro (x : State) hx
    | with_reducible apply dropLpddr_kept
    | with_reducible apply plannerCopied_kept
    | with_reducible apply modCh_kept
    | (with_reducible apply Kept.upd; on_goal 1 => (first | with_reducible assumption | with_reducible apply Kept.ite | with_reducible apply dropLpddr_kept | with_reducible apply plannerCopied_kept | with_reducible apply modCh_kept | with_reducible apply Kept.foldl | with_reducible apply Kept.forEach | (with_reducible apply Kept.upd; on_goal 1 => (first | with_reducible assumption | with_reducible apply dropLpddr_kept | with_reducible apply plannerCopied_kept | with_reducible apply modCh_kept))))
    | (show _ = _; rfl)
    | (lift_lets; intro x))

theorem firmwareUp_kept {s0 s : State}  (hk : Kept s0 s) :
    Kept s0 (firmwareUp  s) := by
  unfold firmwareUp
  repeat' (first
    | with_reducible assumption
    | with_reducible apply initLpddr_kept
    | with_reducible apply initHold_kept
    | with_reducible apply trainPorts_kept
    | with_reducible apply linkTrained_kept
    | (with_reducible apply Kept.upd; on_goal 1 => (first | with_reducible assumption | with_reducible apply Kept.ite | with_reducible apply initLpddr_kept | with_reducible apply initHold_kept | with_reducible apply trainPorts_kept | with_reducible apply linkTrained_kept | with_reducible apply Kept.foldl | with_reducible apply Kept.forEach | (with_reducible apply Kept.upd; on_goal 1 => (first | with_reducible assumption | with_reducible apply initLpddr_kept | with_reducible apply initHold_kept | with_reducible apply trainPorts_kept | with_reducible apply linkTrained_kept))))
    | with_reducible rfl)

theorem logPrior_kept {s0 s : State}  (hk : Kept s0 s) :
    Kept s0 (logPrior  s) := by
  unfold logPrior
  repeat' (first
    | with_reducible assumption
    | with_reducible apply logEv_kept
    | (with_reducible apply Kept.upd; on_goal 1 => (first | with_reducible assumption | with_reducible apply Kept.ite | with_reducible apply logEv_kept | with_reducible apply Kept.foldl | with_reducible apply Kept.forEach | (with_reducible apply Kept.upd; on_goal 1 => (first | with_reducible assumption | with_reducible apply logEv_kept))))
    | with_reducible rfl)

theorem logBoot_kept {s0 s : State}  (hk : Kept s0 s) :
    Kept s0 (logBoot  s) := by
  unfold logBoot
  repeat' (first | with_reducible assumption | with_reducible apply logEv_kept)

theorem firstBoot_kept {s0 s : State}  (hk : Kept s0 s) :
    Kept s0 (firstBoot  s) := by
  unfold firstBoot
  repeat' (first
    | with_reducible assumption
    | with_reducible apply blowFuses_kept
    | (with_reducible apply Kept.upd; on_goal 1 => (first | with_reducible assumption | with_reducible apply Kept.ite | with_reducible apply blowFuses_kept | with_reducible apply Kept.foldl | with_reducible apply Kept.forEach | (with_reducible apply Kept.upd; on_goal 1 => (first | with_reducible assumption | with_reducible apply blowFuses_kept))))
    | with_reducible rfl)

theorem romFinish_kept {s0 s : State}  (hk : Kept s0 s) :
    Kept s0 (romFinish  s) := by
  unfold romFinish
  repeat' (first
    | with_reducible assumption
    | with_reducible apply Kept.ite
    | with_reducible apply linkTrained_kept
    | with_reducible apply firstBoot_kept
    | with_reducible apply logBoot_kept
    | with_reducible apply logPrior_kept
    | with_reducible apply firmwareUp_kept)

theorem bootSequence_kept {s0 s : State}  (hk : Kept s0 s) :
    Kept s0 (bootSequence  s) := by
  unfold bootSequence
  repeat' (first
    | with_reducible assumption
    | with_reducible apply romFinish_kept
    | with_reducible apply romBody_kept
    | with_reducible apply romSteps_kept)

theorem resetAndBoot_kept {s0 s : State}  (hk : Kept s0 s) :
    Kept s0 (resetAndBoot  s) := by
  unfold resetAndBoot
  repeat' (first
    | with_reducible assumption
    | with_reducible apply bootSequence_kept
    | with_reducible apply fullReset_kept)

theorem dropCores_kept {s0 s : State} (hk : Kept s0 s) : Kept s0 (dropCores s) :=
  dropScratch_kept (s := { s with cores := _, regs := _ }) { hk with regs := fun i => swf_serase (hk.regs i) _ _ }

theorem dropTrace_kept {s0 s : State} {c : Nat} (hk : Kept s0 s) :
    Kept s0 (dropTrace c s) := by
  unfold dropTrace
  repeat' (first
    | with_reducible assumption
    | with_reducible apply bump_kept
    | (with_reducible apply Kept.upd; on_goal 1 => (first | with_reducible assumption | with_reducible apply Kept.ite | with_reducible apply bump_kept | with_reducible apply Kept.foldl | with_reducible apply Kept.forEach | (with_reducible apply Kept.upd; on_goal 1 => (first | with_reducible assumption | with_reducible apply bump_kept))))
    | with_reducible rfl)

theorem dropTraces_kept {s0 s : State}  (hk : Kept s0 s) :
    Kept s0 (dropTraces  s) := by
  unfold dropTraces
  repeat' (first
    | with_reducible assumption
    | intro (x : State) hx
    | with_reducible apply dropTrace_kept
    | with_reducible apply Kept.foldl
    | (lift_lets; intro x))

theorem saveRegs_kept {s0 s : State} {p : PowerState} (hk : Kept s0 s) :
    Kept s0 (saveRegs p s) := by
  unfold saveRegs
  repeat' (first
    | with_reducible assumption
    | (with_reducible apply Kept.upd; on_goal 1 => (first | with_reducible assumption | with_reducible apply Kept.ite | with_reducible apply Kept.foldl | with_reducible apply Kept.forEach | (with_reducible apply Kept.upd; on_goal 1 => (first | with_reducible assumption))))
    | with_reducible rfl)

theorem memOff_kept {s0 s : State} {p : PowerState} (hk : Kept s0 s) :
    Kept s0 (memOff p s) := by
  unfold memOff
  repeat' (first
    | with_reducible assumption
    | intro (x : State) hx
    | with_reducible apply Kept.ite
    | with_reducible apply modCh_kept
    | with_reducible apply dropHold_kept
    | with_reducible apply Kept.foldl
    | (lift_lets; intro x))

theorem linksOff_kept {s0 s : State} {p : PowerState} (hk : Kept s0 s) : Kept s0 (linksOff p s) := by
  unfold linksOff
  apply Kept.ite
  · exact { hk with regs := fun i => swf_filter (hk.regs i) _ }
  · exact hk

theorem railsDown_kept {s0 s : State} {p : PowerState} (hk : Kept s0 s) :
    Kept s0 (railsDown p s) := by
  unfold railsDown
  repeat' (first
    | with_reducible assumption
    | with_reducible apply Kept.ite
    | with_reducible apply modAvs_kept)

theorem nowIn_kept {s0 s : State} {p : PowerState} (hk : Kept s0 s) :
    Kept s0 (nowIn p s) := by
  unfold nowIn
  repeat' (first
    | with_reducible assumption
    | (with_reducible apply Kept.upd; on_goal 1 => (first | with_reducible assumption | with_reducible apply Kept.ite | with_reducible apply Kept.foldl | with_reducible apply Kept.forEach | (with_reducible apply Kept.upd; on_goal 1 => (first | with_reducible assumption))))
    | with_reducible rfl)

theorem enterDeep_kept {s0 s : State} {p : PowerState} (hk : Kept s0 s) :
    Kept s0 (enterDeep p s) := by
  unfold enterDeep
  repeat' (first
    | with_reducible assumption
    | with_reducible apply nowIn_kept
    | with_reducible apply railsDown_kept
    | with_reducible apply linksOff_kept
    | with_reducible apply memOff_kept
    | with_reducible apply dropCores_kept
    | with_reducible apply saveRegs_kept
    | with_reducible apply dropTraces_kept)

theorem moor_kept {s0 s : State}  (hk : Kept s0 s) :
    Kept s0 (moor  s) := by
  unfold moor
  repeat' (first
    | with_reducible assumption
    | with_reducible apply lifeWrite_kept
    | with_reducible apply enterDeep_kept)

theorem startExit_kept {s0 s : State}  (hk : Kept s0 s) :
    Kept s0 (startExit  s) := by
  unfold startExit
  repeat' (first
    | with_reducible assumption
    | (with_reducible apply Kept.upd; on_goal 1 => (first | with_reducible assumption | with_reducible apply Kept.ite | with_reducible apply Kept.foldl | with_reducible apply Kept.forEach | (with_reducible apply Kept.upd; on_goal 1 => (first | with_reducible assumption))))
    | with_reducible rfl)

theorem wakeAccess_kept {s0 s : State}  (hk : Kept s0 s) :
    Kept s0 (wakeAccess  s) := by
  unfold wakeAccess
  repeat' (first
    | with_reducible assumption
    | with_reducible apply Kept.ite
    | with_reducible apply startExit_kept)

theorem restoreRegs_kept {s0 s : State} (hk : Kept s0 s) : Kept s0 (restoreRegs s) :=
  { hk with regs := fun i => swf_foldl_sset _ (fun x : Nat × Word => x.1) (fun x => x.2) (hk.regs i) }

theorem backInP0_kept {s0 s : State}  (hk : Kept s0 s) :
    Kept s0 (backInP0  s) := by
  unfold backInP0
  repeat' (first
    | with_reducible assumption
    | (with_reducible apply Kept.upd; on_goal 1 => (first | with_reducible assumption | with_reducible apply Kept.ite | with_reducible apply Kept.foldl | with_reducible apply Kept.forEach | (with_reducible apply Kept.upd; on_goal 1 => (first | with_reducible assumption))))
    | with_reducible rfl)

theorem memOn_kept {s0 s : State}  (hk : Kept s0 s) :
    Kept s0 (memOn  s) := by
  unfold memOn
  repeat' (first
    | with_reducible assumption
    | intro (x : State) hx
    | with_reducible apply modCh_kept
    | with_reducible apply initHold_kept
    | with_reducible apply Kept.foldl
    | (lift_lets; intro x))

theorem railsUp_kept {s0 s : State}  (hk : Kept s0 s) :
    Kept s0 (railsUp  s) := by
  unfold railsUp
  repeat' (first | with_reducible assumption | with_reducible apply modAvs_kept)

theorem reloadPlanner_kept {s0 s : State}  (hk : Kept s0 s) :
    Kept s0 (reloadPlanner  s) := by
  unfold reloadPlanner
  repeat' (first
    | with_reducible assumption
    | with_reducible apply Kept.ite
    | with_reducible apply plannerCopied_kept)

theorem exitDeep_kept {s0 s : State}  (hk : Kept s0 s) :
    Kept s0 (exitDeep  s) := by
  unfold exitDeep
  repeat' (first
    | with_reducible assumption
    | with_reducible apply Kept.ite
    | with_reducible apply reloadPlanner_kept
    | with_reducible apply backInP0_kept
    | with_reducible apply restoreRegs_kept
    | with_reducible apply linkTrained_kept
    | with_reducible apply trainPorts_kept
    | with_reducible apply railsUp_kept
    | with_reducible apply memOn_kept)


end Sys2Proof.Machine

namespace Sys2Proof.Machine

open Sys2Proof

theorem setMbox_kept {s0 s : State} {code : Nat} (hk : Kept s0 s) :
    Kept s0 (setMbox code s) := by
  unfold setMbox
  repeat' (first
    | with_reducible assumption
    | (with_reducible apply Kept.upd; on_goal 1 => (first | with_reducible assumption | with_reducible apply Kept.ite | with_reducible apply Kept.foldl | with_reducible apply Kept.forEach | (with_reducible apply Kept.upd; on_goal 1 => (first | with_reducible assumption))))
    | with_reducible rfl)

theorem mboxLog_kept {s0 s : State} {a0 a1 : Nat} (hk : Kept s0 s) :
    Kept s0 (mboxLog a0 a1 s) := by
  unfold mboxLog
  repeat' (first
    | with_reducible assumption
    | with_reducible apply Kept.ite
    | with_reducible apply setMbox_kept
    | with_reducible apply memWrite_kept)

theorem mboxLife_kept {s0 s : State}  (hk : Kept s0 s) :
    Kept s0 (mboxLife  s) := by
  unfold mboxLife
  repeat' (first
    | with_reducible assumption
    | with_reducible apply Kept.ite
    | with_reducible apply setMbox_kept
    | with_reducible apply lifeWrite_kept
    | with_reducible apply memWrite_kept)

theorem mboxMoorOp_kept {s0 s : State}  (hk : Kept s0 s) :
    Kept s0 (mboxMoorOp  s) := by
  unfold mboxMoorOp
  repeat' (first
    | with_reducible assumption
    | with_reducible apply Kept.ite
    | with_reducible apply setMbox_kept
    | with_reducible apply moor_kept)

theorem mboxWakeOp_kept {s0 s : State}  (hk : Kept s0 s) :
    Kept s0 (mboxWakeOp  s) := by
  unfold mboxWakeOp
  repeat' (first
    | with_reducible assumption
    | with_reducible apply Kept.ite
    | with_reducible apply setMbox_kept
    | with_reducible apply startExit_kept)

theorem mboxResetOp_kept {s0 s : State}  (hk : Kept s0 s) :
    Kept s0 (mboxResetOp  s) := by
  unfold mboxResetOp
  repeat' (first
    | with_reducible assumption
    | with_reducible apply Kept.ite
    | with_reducible apply setMbox_kept
    | with_reducible apply resetAndBoot_kept)

theorem mboxOp_kept {s0 s : State} {op a0 a1 : Nat} (hk : Kept s0 s) :
    Kept s0 (mboxOp op a0 a1 s) := by
  unfold mboxOp
  repeat' (first
    | with_reducible assumption
    | with_reducible apply mboxLog_kept
    | with_reducible apply mboxLife_kept
    | with_reducible apply mboxMoorOp_kept
    | with_reducible apply mboxWakeOp_kept
    | with_reducible apply mboxResetOp_kept
    | with_reducible apply setMbox_kept
    | split)

theorem mboxAnswer_kept {s0 s : State} {src : MboxSrc} (hk : Kept s0 s) :
    Kept s0 (mboxAnswer src s) := by
  unfold mboxAnswer
  repeat' (first
    | with_reducible assumption
    | with_reducible apply emit_kept
    | split)

theorem portDown_kept {s0 s : State} {p : Nat} (hk : Kept s0 s) :
    Kept s0 (portDown p s) := by
  unfold portDown
  repeat' (first | with_reducible assumption | with_reducible apply modPort_kept)

theorem portTrain_kept {s0 s : State} {p : Nat} (hk : Kept s0 s) :
    Kept s0 (portTrain p s) := by
  unfold portTrain
  repeat' (first | with_reducible assumption | with_reducible apply modPort_kept)

theorem dropPkg_kept {s0 s : State}  (hk : Kept s0 s) :
    Kept s0 (dropPkg  s) := by
  unfold dropPkg
  repeat' (first
    | with_reducible assumption
    | (with_reducible apply Kept.upd; on_goal 1 => (first | with_reducible assumption | with_reducible apply Kept.ite | with_reducible apply Kept.foldl | with_reducible apply Kept.forEach | (with_reducible apply Kept.upd; on_goal 1 => (first | with_reducible assumption))))
    | with_reducible rfl)

theorem eccChanged_kept {s0 s : State}  (hk : Kept s0 s) :
    Kept s0 (eccChanged  s) := by
  unfold eccChanged
  repeat' (first
    | with_reducible assumption
    | intro (x : State) hx
    | with_reducible apply modCh_kept
    | with_reducible apply dropPkg_kept
    | with_reducible apply dropLpddr_kept
    | with_reducible apply Kept.foldl
    | (lift_lets; intro x))

theorem identityExchange_kept {s0 s : State}  (hk : Kept s0 s) :
    Kept s0 (identityExchange  s) := by
  unfold identityExchange
  repeat' (first
    | with_reducible assumption
    | intro (x : State) hx
    | with_reducible apply Kept.ite
    | with_reducible apply emit_kept
    | with_reducible apply Kept.foldl
    | (lift_lets; intro x))

theorem writeEffect_kept {s0 s : State} {off old new v mask : Nat} (hk : Kept s0 s) :
    Kept s0 (writeEffect off old new v mask s) := by
  unfold writeEffect
  repeat' (first
    | with_reducible assumption
    | with_reducible apply modRing_kept
    | with_reducible apply identityExchange_kept
    | with_reducible apply moor_kept
    | with_reducible apply refuseWrite_kept
    | with_reducible apply mboxOp_kept
    | with_reducible apply takeSnapshot_kept
    | with_reducible apply eccChanged_kept
    | with_reducible apply portTrain_kept
    | with_reducible apply portDown_kept
    | (with_reducible apply Kept.upd; on_goal 1 => (first | with_reducible assumption | with_reducible apply Kept.ite | with_reducible apply modRing_kept | with_reducible apply identityExchange_kept | with_reducible apply moor_kept | with_reducible apply refuseWrite_kept | with_reducible apply mboxOp_kept | with_reducible apply takeSnapshot_kept | with_reducible apply eccChanged_kept | with_reducible apply portTrain_kept | with_reducible apply portDown_kept | with_reducible apply Kept.foldl | with_reducible apply Kept.forEach | (with_reducible apply Kept.upd; on_goal 1 => (first | with_reducible assumption | with_reducible apply modRing_kept | with_reducible apply identityExchange_kept | with_reducible apply moor_kept | with_reducible apply refuseWrite_kept | with_reducible apply mboxOp_kept | with_reducible apply takeSnapshot_kept | with_reducible apply eccChanged_kept | with_reducible apply portTrain_kept | with_reducible apply portDown_kept))))
    | with_reducible rfl)

theorem writeMasked_kept {s0 s : State} {off v mask : Nat} (hk : Kept s0 s) :
    Kept s0 (writeMasked off v mask s) := by
  unfold writeMasked
  repeat' (first
    | with_reducible assumption
    | with_reducible apply Kept.ite
    | with_reducible apply refuseWrite_kept
    | with_reducible apply writeEffect_kept
    | with_reducible apply setReg_kept
    | split)

theorem writeAliasBit_kept {s0 s : State} {x b v : Nat} (hk : Kept s0 s) :
    Kept s0 (writeAliasBit x b v s) := by
  unfold writeAliasBit
  repeat' (first
    | with_reducible assumption
    | with_reducible apply refuseWrite_kept
    | with_reducible apply writeMasked_kept
    | split)

theorem writeAlias_kept {s0 s : State} {off v : Nat} (hk : Kept s0 s) :
    Kept s0 (writeAlias off v s) := by
  unfold writeAlias
  repeat' (first | with_reducible assumption | with_reducible apply writeAliasBit_kept)

theorem writeReg_kept {s0 s : State} {off v : Nat} (hk : Kept s0 s) :
    Kept s0 (writeReg off v s) := by
  unfold writeReg
  repeat' (first
    | with_reducible assumption
    | with_reducible apply Kept.ite
    | with_reducible apply wakeAccess_kept
    | with_reducible apply refuseWrite_kept
    | with_reducible apply writeAlias_kept
    | with_reducible apply writeMasked_kept)

theorem writeBar0_kept {s0 s : State} {off size v : Nat} (hk : Kept s0 s) :
    Kept s0 (writeBar0 off size v s) := by
  unfold writeBar0
  repeat' (first
    | with_reducible assumption
    | with_reducible apply Kept.ite
    | with_reducible apply writeReg_kept
    | with_reducible apply refuseWrite_kept
    | with_reducible apply wakeAccess_kept)

theorem bar4ReadOp_kept {s0 s : State} {off size : Nat} {o : EccOutcome} (hk : Kept s0 s) :
    Kept s0 (bar4ReadOp off size o s) := by
  unfold bar4ReadOp
  extract_lets u a r v
  have h : Kept s0 v := countRange_kept (readCount_kept (bump_kept (wakeAccess_kept hk)))
  clear_value v r a
  split
  · exact emit_kept h
  · exact emit_kept (emit_kept (countPoison_kept h))
  · exact emit_kept (emit_kept (countPoison_kept h))

theorem bar4WriteOp_kept {s0 s : State} {off : Nat} {bytes : List Byte} (hk : Kept s0 s) :
    Kept s0 (bar4WriteOp off bytes s) := by
  have h := wakeAccess_kept hk
  unfold bar4WriteOp
  generalize wakeAccess s = u at *
  refine Kept.ite h (Kept.ite (refuseWrite_kept h) (Kept.ite (refuseWrite_kept h) ?_))
  generalize diagBase u + off = a
  have k : Kept s0 (if writeReason u a bytes.length = 0 then countRange true a bytes.length (memStore a bytes u)
      else countPoison (writeReason u a bytes.length) u) := Kept.ite (countRange_kept (memStore_kept h)) (countPoison_kept h)
  cases memRegion u a with
  | none => exact k
  | some r =>
    cases r with
    | host w => cases devToHost u a with
      | none => exact h
      | some x => exact emit_kept h
    | _ => exact k


end Sys2Proof.Machine
end

