-- ==== Sys2Proof/Laws/KeptStreams.lean ====
section
/-! SUPPORT. `Kept` of the operations of operands, streams and memory units. -/

namespace Sys2Proof.Machine

open Sys2Proof

theorem collect_kept {s0 s : State} {point t : Nat} {f : StatRec → StatRec} (hk : Kept s0 s) :
    Kept s0 (collect point t f s) := by
  unfold collect
  repeat' (first
    | with_reducible assumption
    | (with_reducible apply Kept.upd; on_goal 1 => (first | with_reducible assumption | with_reducible apply Kept.ite | with_reducible apply Kept.foldl | with_reducible apply Kept.forEach | (with_reducible apply Kept.upd; on_goal 1 => (first | with_reducible assumption))))
    | with_reducible rfl)


end Sys2Proof.Machine

namespace Sys2Proof.Machine

open Sys2Proof

theorem setA_kept {s0 s : State} {c t n v : Nat} (hk : Kept s0 s) :
    Kept s0 (setA c t n v s) := by
  unfold setA
  repeat' (first | with_reducible assumption | with_reducible apply modThread_kept)

theorem setS_kept {s0 s : State} {c t n v : Nat} (hk : Kept s0 s) :
    Kept s0 (setS c t n v s) := by
  unfold setS
  repeat' (first
    | with_reducible assumption
    | with_reducible apply Kept.ite
    | with_reducible apply modThread_kept)

theorem faultThread_kept {s0 s : State} {c t cause : Nat} (hk : Kept s0 s) :
    Kept s0 (faultThread c t cause s) := by
  unfold faultThread
  repeat' (first
    | with_reducible assumption
    | with_reducible apply Kept.ite
    | with_reducible apply modThread_kept
    | with_reducible apply traceRec_kept
    | with_reducible apply bump_kept
    | with_reducible apply modCore_kept
    | with_reducible apply attn_kept
    | with_reducible apply logEv_kept)

theorem setCycle_kept {s0 s : State} {c n : Nat} (hk : Kept s0 s) :
    Kept s0 (setCycle c n s) := by
  unfold setCycle
  repeat' (first | with_reducible assumption | with_reducible apply modCore_kept)

theorem advance_kept {s0 s : State} {c t : Nat} (hk : Kept s0 s) :
    Kept s0 (advance c t s) := by
  unfold advance
  repeat' (first
    | with_reducible assumption
    | with_reducible apply bump_kept
    | with_reducible apply modThread_kept
    | with_reducible apply setCycle_kept
    | with_reducible apply modCore_kept)

theorem issue_kept {s0 s : State} {c t : Nat} {w : InstrWord} {cls op : Nat} {cause : State → Nat} {full : State → Bool} {body : State → State} (hk : Kept s0 s) (hk_body : ∀ u, Kept s0 u → Kept s0 (body  u)) :
    Kept s0 (issue c t w cls op cause full body s) := by
  unfold issue
  repeat' (first
    | with_reducible assumption
    | with_reducible apply Kept.ite
    | with_reducible apply faultThread_kept
    | with_reducible apply bump_kept
    | with_reducible apply advance_kept
    | apply hk_body)

theorem wakeCore_kept {s0 s : State} {c : Nat} (hk : Kept s0 s) :
    Kept s0 (wakeCore c s) := by
  unfold wakeCore
  repeat' (first | with_reducible assumption | with_reducible apply modCore_kept)

theorem waitFor_kept {s0 s : State} {c t : Nat} {x : ThrWait} (hk : Kept s0 s) :
    Kept s0 (waitFor c t x s) := by
  unfold waitFor
  repeat' (first
    | with_reducible assumption
    | with_reducible apply wakeCore_kept
    | with_reducible apply modThread_kept)

theorem kAdd_kept {s0 s : State} {c k n : Nat} (hk : Kept s0 s) :
    Kept s0 (kAdd c k n s) := by
  unfold kAdd
  repeat' (first | with_reducible assumption | with_reducible apply modCore_kept)

theorem overrun_kept {s0 s : State} {c t : Nat} (hk : Kept s0 s) :
    Kept s0 (overrun c t s) := by
  unfold overrun
  repeat' (first
    | with_reducible assumption
    | with_reducible apply Kept.ite
    | with_reducible apply modThread_kept
    | with_reducible apply traceRec_kept
    | with_reducible apply logEv_kept
    | with_reducible apply bump_kept
    | with_reducible apply Kept.foldl
    | intro x
    | split)

theorem asyncBegin_kept {s0 s : State} {c t : Nat} (hk : Kept s0 s) :
    Kept s0 (asyncBegin c t s) := by
  unfold asyncBegin
  repeat' (first | with_reducible assumption | with_reducible apply modThread_kept)

theorem asyncDone_kept {s0 s : State} {c t : Nat} {cntEn : Bool} {cnt : Nat} (hk : Kept s0 s) :
    Kept s0 (asyncDone c t cntEn cnt s) := by
  unfold asyncDone
  repeat' (first
    | with_reducible assumption
    | with_reducible apply Kept.ite
    | with_reducible apply modThread_kept
    | with_reducible apply overrun_kept
    | with_reducible apply wakeCore_kept
    | with_reducible apply kAdd_kept)

theorem corePoison_kept {s0 s : State} {c reason addr : Nat} (hk : Kept s0 s) :
    Kept s0 (corePoison c reason addr s) := by
  unfold corePoison
  repeat' (first
    | with_reducible assumption
    | with_reducible apply Kept.ite
    | with_reducible apply traceRec_kept
    | with_reducible apply bump_kept
    | with_reducible apply modCore_kept)

theorem unitWrite_kept {s0 s : State} {c off : Nat} {l : List Byte} (hk : Kept s0 s) :
    Kept s0 (unitWrite c off l s) := by
  unfold unitWrite
  repeat' (first
    | with_reducible assumption
    | with_reducible apply Kept.ite
    | with_reducible apply scrWrite_kept)

theorem unitPoison_kept {s0 s : State} {c off n : Nat} (hk : Kept s0 s) :
    Kept s0 (unitPoison c off n s) := by
  unfold unitPoison
  repeat' (first
    | with_reducible assumption
    | with_reducible apply Kept.ite
    | with_reducible apply memPoison_kept)

theorem unitStore_kept {s0 s : State} {c off : Nat} {poison : Bool} {l : List Byte} (hk : Kept s0 s) :
    Kept s0 (unitStore c off poison l s) := by
  unfold unitStore
  repeat' (first
    | with_reducible assumption
    | with_reducible apply Kept.ite
    | with_reducible apply unitPoison_kept
    | with_reducible apply unitWrite_kept)


end Sys2Proof.Machine

namespace Sys2Proof.Machine

open Sys2Proof

theorem modOvf_kept {s0 s : State} {c inst : Nat} {f : OvfSt → OvfSt} (hk : Kept s0 s) :
    Kept s0 (modOvf c inst f s) := by
  unfold modOvf
  repeat' (first | with_reducible assumption | with_reducible apply modCore_kept)

theorem ovfOutput_kept {s0 s : State} {c point : Nat} {d : OutDesc} {mx bad : Bool} {cs : List ConvClass} (hk : Kept s0 s) :
    Kept s0 (ovfOutput c point d mx bad cs s) := by
  unfold ovfOutput
  repeat' (first | with_reducible assumption | with_reducible apply modOvf_kept)

theorem writeBlocks_kept {s0 s : State} {c : Nat} {f : Fmt} {d : OutDesc} {e sc nb : Nat} {poison : Bool} {l : List (Nat × Nat × BlockOut)} (hk : Kept s0 s) :
    Kept s0 (writeBlocks c f d e sc nb poison l s) := by
  unfold writeBlocks
  repeat' (first
    | with_reducible assumption
    | intro (x : State) hx
    | with_reducible apply unitStore_kept
    | with_reducible apply Kept.foldl
    | (lift_lets; intro x))

theorem convertMx_kept {s0 s : State} {c point : Nat} {f : Fmt} {d : OutDesc} {rows : List (List Val)} {bad poison : Bool} (hk : Kept s0 s) :
    Kept s0 (convertMx c point f d rows bad poison s) := by
  unfold convertMx
  repeat' (first
    | with_reducible assumption
    | with_reducible apply Kept.ite
    | with_reducible apply ovfOutput_kept
    | with_reducible apply collect_kept
    | with_reducible apply writeBlocks_kept)

theorem convertPlain_kept {s0 s : State} {c point : Nat} {f : Fmt} {d : OutDesc} {rows : List (List Val)} {bad poison : Bool} (hk : Kept s0 s) :
    Kept s0 (convertPlain c point f d rows bad poison s) := by
  unfold convertPlain
  repeat' (first
    | with_reducible assumption
    | intro (x : State) hx
    | with_reducible apply Kept.ite
    | with_reducible apply ovfOutput_kept
    | with_reducible apply collect_kept
    | with_reducible apply unitStore_kept
    | with_reducible apply Kept.foldl
    | (lift_lets; intro x))

theorem passThrough_kept {s0 s : State} {c : Nat} {d : OutDesc} {rows : List (List Val)} {poison : Bool} (hk : Kept s0 s) :
    Kept s0 (passThrough c d rows poison s) := by
  unfold passThrough
  repeat' (first
    | with_reducible assumption
    | intro (x : State) hx
    | with_reducible apply unitStore_kept
    | with_reducible apply Kept.foldl
    | (lift_lets; intro x))

theorem convertOut_kept {s0 s : State} {c point : Nat} {d : OutDesc} {rows : List (List Val)} {bad poison : Bool} (hk : Kept s0 s) :
    Kept s0 (convertOut c point d rows bad poison s) := by
  unfold convertOut
  repeat' (first
    | with_reducible assumption
    | with_reducible apply passThrough_kept
    | with_reducible apply convertMx_kept
    | with_reducible apply convertPlain_kept
    | split)


end Sys2Proof.Machine

namespace Sys2Proof.Machine

open Sys2Proof

theorem putBit_kept {s0 s : State} {a b : Nat} {v : Bool} (hk : Kept s0 s) :
    Kept s0 (putBit a b v s) := by
  unfold putBit
  repeat' (first | with_reducible assumption | with_reducible apply memStore_kept)

theorem zeroField_kept {s0 s : State} {y : DescImg} {base word k : Nat} (hk : Kept s0 s) :
    Kept s0 (zeroField y base word k s) := by
  unfold zeroField
  repeat' (first
    | with_reducible assumption
    | intro (x : State) hx
    | with_reducible apply putBit_kept
    | with_reducible apply Kept.foldl
    | (lift_lets; intro x))

theorem skewZeros_kept {s0 s : State} {y : DescImg} {base vectors : Nat} (hk : Kept s0 s) :
    Kept s0 (skewZeros y base vectors s) := by
  unfold skewZeros
  repeat' (first
    | with_reducible assumption
    | intro (x : State) hx
    | with_reducible apply Kept.ite
    | with_reducible apply memStore_kept
    | with_reducible apply zeroField_kept
    | with_reducible apply Kept.foldl
    | (lift_lets; intro x))

theorem skewPut_kept {s0 s : State} {y : DescImg} {base off : Nat} {bytes : List Byte} {poison : Bool} (hk : Kept s0 s) :
    Kept s0 (skewPut y base off bytes poison s) := by
  unfold skewPut
  repeat' (first
    | with_reducible assumption
    | intro (x : State) hx
    | with_reducible apply Kept.ite
    | with_reducible apply memStore_kept
    | with_reducible apply memPoison_kept
    | with_reducible apply putBit_kept
    | with_reducible apply Kept.foldl
    | (lift_lets; intro x))

theorem blocksPut_kept {s0 : State} {dst : List Blk} {poison : Bool} (n : Nat) : ∀ {s : State} {off : Nat} {bytes : List Byte}, Kept s0 s →
    Kept s0 (blocksPut dst poison n off bytes s) := by
  induction n with
  | zero => intro s off bytes hk; exact hk
  | succ n ih =>
    intro s off bytes hk
    unfold blocksPut
    apply Kept.ite
    · exact hk
    · split
      · exact ih (deliver_kept hk)
      · exact hk

theorem destPut_kept {s0 s : State} {y : DescImg} {dst : List Blk} {off : Nat} {bytes : List Byte} {poison : Bool} (hk : Kept s0 s) :
    Kept s0 (destPut y dst off bytes poison s) := by
  unfold destPut
  apply Kept.ite
  · exact blocksPut_kept _ hk
  · split
    · exact skewPut_kept hk
    · exact hk

theorem transferPoison_kept {s0 s : State} {d addr reason : Nat} {core? : Option Nat} (hk : Kept s0 s) :
    Kept s0 (transferPoison d addr reason core? s) := by
  unfold transferPoison
  repeat' (first
    | with_reducible assumption
    | with_reducible apply logEv_kept
    | with_reducible apply countPoison_kept
    | with_reducible apply corePoison_kept
    | (with_reducible apply Kept.upd; on_goal 1 => (first | with_reducible assumption | with_reducible apply Kept.ite | with_reducible apply logEv_kept | with_reducible apply countPoison_kept | with_reducible apply corePoison_kept | with_reducible apply Kept.foldl | with_reducible apply Kept.forEach | (with_reducible apply Kept.upd; on_goal 1 => (first | with_reducible assumption | with_reducible apply logEv_kept | with_reducible apply countPoison_kept | with_reducible apply corePoison_kept))))
    | (show _ = _; rfl)
    | split)

theorem putImage_kept {s0 s : State} {d gen : Nat} {b : List Byte} (hk : Kept s0 s) :
    Kept s0 (putImage d gen b s) := by
  unfold putImage
  repeat' (first | with_reducible assumption | with_reducible apply memStore_kept)

theorem takeShadow_kept {s0 s : State} {d : Nat} (hk : Kept s0 s) :
    Kept s0 (takeShadow d s) := by
  unfold takeShadow
  repeat' (first
    | with_reducible assumption
    | with_reducible apply modDesc_kept
    | with_reducible apply putImage_kept
    | split)

theorem beginPass_kept {s0 s : State} {d : Nat} {issuer : Option Issuer} (hk : Kept s0 s) :
    Kept s0 (beginPass d issuer s) := by
  unfold beginPass
  repeat' (first
    | with_reducible assumption
    | with_reducible apply skewZeros_kept
    | with_reducible apply modDesc_kept
    | split)

theorem passPost_kept {s0 s : State} {x : DescImg} (hk : Kept s0 s) :
    Kept s0 (passPost x s) := by
  unfold passPost
  repeat' (first
    | with_reducible assumption
    | with_reducible apply Kept.ite
    | with_reducible apply addMark_kept)

theorem passTrace_kept {s0 s : State} {d : Nat} {p : PassSt} {x : DescImg} (hk : Kept s0 s) :
    Kept s0 (passTrace d p x s) := by
  unfold passTrace
  repeat' (first
    | with_reducible assumption
    | with_reducible apply Kept.ite
    | with_reducible apply traceRec_kept)

theorem passCount_kept {s0 s : State} {p : PassSt} (hk : Kept s0 s) :
    Kept s0 (passCount p s) := by
  unfold passCount
  repeat' (first
    | with_reducible assumption
    | with_reducible apply asyncDone_kept
    | split)

theorem passActions_kept {s0 s : State} {d : Nat} {p : PassSt} (hk : Kept s0 s) :
    Kept s0 (passActions d p s) := by
  unfold passActions
  repeat' (first
    | with_reducible assumption
    | with_reducible apply passCount_kept
    | with_reducible apply passTrace_kept
    | with_reducible apply passPost_kept)

theorem useDesc_kept {s0 s : State} {d : Nat} (hk : Kept s0 s) :
    Kept s0 (useDesc d s) := by
  unfold useDesc
  repeat' (first
    | with_reducible assumption
    | with_reducible apply modDesc_kept
    | (with_reducible apply Kept.upd; on_goal 1 => (first | with_reducible assumption | with_reducible apply Kept.ite | with_reducible apply modDesc_kept | with_reducible apply Kept.foldl | with_reducible apply Kept.forEach | (with_reducible apply Kept.upd; on_goal 1 => (first | with_reducible assumption | with_reducible apply modDesc_kept))))
    | with_reducible rfl)

theorem refuseStream_kept {s0 s : State} {c thr pc d cause case_ : Nat} (hk : Kept s0 s) :
    Kept s0 (refuseStream c thr pc d cause case_ s) := by
  unfold refuseStream
  repeat' (first
    | with_reducible assumption
    | with_reducible apply logEv_kept
    | with_reducible apply bump_kept
    | with_reducible apply modThread_kept
    | with_reducible apply faultThread_kept)

theorem poisonRun_kept {s0 s : State} {d : Nat} {i : Issuer} {x : Nat × Nat} (hk : Kept s0 s) :
    Kept s0 (poisonRun d i x s) := by
  unfold poisonRun
  repeat' (first
    | with_reducible assumption
    | with_reducible apply asyncDone_kept
    | with_reducible apply transferPoison_kept)

theorem startWaiting_kept {s0 : State} {d : Nat} (l : List Issuer) : ∀ {s : State}, Kept s0 s → Kept s0 (startWaiting d l s) := by
  induction l with
  | nil => intro s hk; exact hk
  | cons i l ih =>
    intro s hk
    unfold startWaiting
    have h : Kept s0 (modDesc d (fun D => { D with waiting := l }) s) := modDesc_kept hk
    dsimp only
    generalize modDesc d (fun D => { D with waiting := l }) s = u at *
    generalize runCause u i.core i.thread d = n
    generalize refuseCase u i.core i.thread d (descImage u d) = k
    cases descPoison u d with
    | some x => exact ih (poisonRun_kept h)
    | none => exact Kept.ite (beginPass_kept h) (ih (refuseStream_kept h))

theorem endPass_kept {s0 s : State} {d : Nat} (hk : Kept s0 s) : Kept s0 (endPass d s) := by
  unfold endPass
  split
  · exact hk
  · exact startWaiting_kept _ (takeShadow_kept (modDesc_kept (passActions_kept hk)))

theorem popStr_kept {s0 s : State} {c : Nat} (hk : Kept s0 s) :
    Kept s0 (popStr c s) := by
  unfold popStr
  repeat' (first | with_reducible assumption | with_reducible apply modCore_kept)

theorem strHead_kept {s0 s t : State} {c : Nat} (hk : Kept s0 s) (e : strHead c s = some t) : Kept s0 t := by
  unfold strHead at e
  split at e
  · exact absurd e (by simp)
  · dsimp only at e
    repeat' split at e
    all_goals cases e
    all_goals
      repeat' (first
        | with_reducible assumption
        | with_reducible apply bump_kept
        | with_reducible apply modCore_kept
        | with_reducible apply refuseStream_kept
        | with_reducible apply poisonRun_kept
        | with_reducible apply popStr_kept
        | with_reducible apply useDesc_kept
        | with_reducible apply modDesc_kept
        | with_reducible apply beginPass_kept
        | with_reducible apply asyncDone_kept
        | with_reducible apply takeShadow_kept
        | with_reducible apply addMark_kept
        | with_reducible apply traceRec_kept)

theorem drainStr_kept {s0 : State} {c : Nat} (n : Nat) : ∀ {s : State}, Kept s0 s → Kept s0 (drainStr c n s) := by
  induction n with
  | zero => intro s hk; exact hk
  | succ n ih =>
    intro s hk
    unfold drainStr
    split
    · rename_i t e
      exact ih (strHead_kept hk e)
    · exact hk

theorem drainAll_kept {s0 : State} (n : Nat) : ∀ {s : State}, Kept s0 s → Kept s0 (drainAll n s) := by
  induction n with
  | zero => intro s hk; exact hk
  | succ n ih =>
    intro s hk
    unfold drainAll
    generalize 64 = k
    have h : Kept s0 ((List.range 96).foldl (fun st c => if (core st c).str.isEmpty then st else drainStr c k st) s) :=
      Kept.foldl hk fun t ht x => Kept.ite ht (drainStr_kept _ ht)
    exact Kept.ite h (ih h)


theorem settle_kept {s0 s : State}  (hk : Kept s0 s) :
    Kept s0 (settle  s) := by
  unfold settle
  repeat' (first | with_reducible assumption | with_reducible apply drainAll_kept)

theorem issueStr_kept {s0 s : State} {op : Nat} {fields : List (Nat × Nat)} {extra : State → Nat} {addr : State → Nat} {c : CoreId} {t : ThreadId} {w : InstrWord} (hk : Kept s0 s) :
    Kept s0 (issueStr op fields extra addr c t w s) := by
  unfold issueStr
  repeat' (first
    | with_reducible assumption
    | intro (x : State) hx
    | with_reducible apply issue_kept
    | with_reducible apply settle_kept
    | with_reducible apply asyncBegin_kept
    | with_reducible apply modCore_kept)

theorem creditAdd_kept {s0 s : State} {f : Nat} {g : Nat → Nat} (hk : Kept s0 s) :
    Kept s0 (creditAdd f g s) := by
  unfold creditAdd
  repeat' (first
    | with_reducible assumption
    | (with_reducible apply Kept.upd; on_goal 1 => (first | with_reducible assumption | with_reducible apply Kept.ite | with_reducible apply Kept.foldl | with_reducible apply Kept.forEach | (with_reducible apply Kept.upd; on_goal 1 => (first | with_reducible assumption))))
    | with_reducible rfl)

theorem setLeg_kept {s0 s : State} {d f n : Nat} {ack : Bool} (hk : Kept s0 s) :
    Kept s0 (setLeg d f n ack s) := by
  unfold setLeg
  repeat' (first | with_reducible assumption | with_reducible apply modDesc_kept)

theorem sendLeg_kept {s0 s : State} {d f at_ n total gen : Nat} {bytes : List Byte} {poison : Bool} (hk : Kept s0 s) :
    Kept s0 (sendLeg d f at_ n total gen bytes poison s) := by
  unfold sendLeg
  repeat' (first
    | with_reducible assumption
    | with_reducible apply sendTo_kept
    | with_reducible apply setLeg_kept
    | with_reducible apply creditAdd_kept
    | split)

theorem legTransfer_kept {s0 s : State} {d : Nat} {p : PassSt} {src : List Blk} {data : HostData} {ecc : EccOutcome} (hk : Kept s0 s) :
    Kept s0 (legTransfer d p src data ecc s) := by
  unfold legTransfer
  repeat' (first
    | with_reducible assumption
    | intro (x : State) hx
    | with_reducible apply countBytes_kept
    | with_reducible apply readCount_kept
    | with_reducible apply transferPoison_kept
    | with_reducible apply sendLeg_kept
    | with_reducible apply Kept.foldl
    | (lift_lets; intro x)
    | split)

theorem moveBytes_kept {s0 s : State} {d : Nat} {p : PassSt} {y : DescImg} {dst : List Blk} {a b n : Nat} {data : HostData} {ecc : EccOutcome} (hk : Kept s0 s) :
    Kept s0 (moveBytes d p y dst a b n data ecc s) := by
  unfold moveBytes
  repeat' (first
    | with_reducible assumption
    | with_reducible apply Kept.ite
    | with_reducible apply countBytes_kept
    | with_reducible apply readCount_kept
    | with_reducible apply transferPoison_kept
    | with_reducible apply destPut_kept
    | with_reducible apply modDesc_kept
    | with_reducible apply settle_kept
    | with_reducible apply endPass_kept)

theorem copyTransfer_kept {s0 s : State} {d : Nat} {p : PassSt} {y : DescImg} {src goal : Option (Nat × Nat)} {dst : List Blk} {data : HostData} {ecc : EccOutcome} (hk : Kept s0 s) :
    Kept s0 (copyTransfer d p y src goal dst data ecc s) := by
  unfold copyTransfer
  repeat' (first
    | with_reducible assumption
    | with_reducible apply moveBytes_kept
    | with_reducible apply settle_kept
    | with_reducible apply endPass_kept
    | split)

theorem transfer_kept {s0 s : State} {d gen : Nat} {data : HostData} {ecc : EccOutcome} (hk : Kept s0 s) :
    Kept s0 (transfer d gen data ecc s) := by
  unfold transfer
  repeat' (first
    | with_reducible assumption
    | with_reducible apply Kept.ite
    | with_reducible apply bump_kept
    | with_reducible apply legTransfer_kept
    | with_reducible apply copyTransfer_kept
    | split)

theorem cacheFill_kept {s0 s : State} {d : Nat} (hk : Kept s0 s) :
    Kept s0 (cacheFill d s) := by
  unfold cacheFill
  repeat' (first
    | with_reducible assumption
    | with_reducible apply modDesc_kept
    | with_reducible apply memStore_kept
    | with_reducible apply settle_kept
    | with_reducible apply useDesc_kept
    | split)

theorem targetOffMove_kept {s0 s : State} {d : Nat} {p : PassSt} {y : DescImg} {dst : List Blk} {src : Option (Nat × Nat)} {addr : Nat} (hk : Kept s0 s) :
    Kept s0 (targetOffMove d p y dst src addr s) := by
  unfold targetOffMove
  repeat' (first
    | with_reducible assumption
    | with_reducible apply Kept.ite
    | with_reducible apply destPut_kept
    | with_reducible apply modDesc_kept
    | with_reducible apply settle_kept
    | with_reducible apply endPass_kept
    | split)

theorem targetOffPass_kept {s0 s : State} {d addr reason : Nat} {p : PassSt} (hk : Kept s0 s) :
    Kept s0 (targetOffPass d addr reason p s) := by
  unfold targetOffPass
  repeat' (first
    | with_reducible assumption
    | with_reducible apply Kept.ite
    | with_reducible apply transferPoison_kept
    | with_reducible apply targetOffMove_kept)

theorem targetOff_kept {s0 s : State} {addr : Nat} {inReset : Bool} {d : Option Nat} (hk : Kept s0 s) :
    Kept s0 (targetOff addr inReset d s) := by
  unfold targetOff
  repeat' (first
    | with_reducible assumption
    | with_reducible apply emit_kept
    | with_reducible apply countPoison_kept
    | with_reducible apply bump_kept
    | with_reducible apply targetOffPass_kept
    | (lift_lets; intro x)
    | intro x
    | split)


end Sys2Proof.Machine

namespace Sys2Proof.Machine

open Sys2Proof

theorem refresh_kept {s0 s : State} {c : Nat} (hk : Kept s0 s) :
    Kept s0 (refresh c s) := by
  unfold refresh
  repeat' (first
    | with_reducible assumption
    | with_reducible apply Kept.ite
    | with_reducible apply modCh_kept)

theorem lpddrTemp_kept {s0 s : State} {c : Nat} {celsius : Int} (hk : Kept s0 s) :
    Kept s0 (lpddrTemp c celsius s) := by
  unfold lpddrTemp
  repeat' (first
    | with_reducible assumption
    | with_reducible apply modCh_kept
    | (with_reducible apply Kept.upd; on_goal 1 => (first | with_reducible assumption | with_reducible apply Kept.ite | with_reducible apply modCh_kept | with_reducible apply Kept.foldl | with_reducible apply Kept.forEach | (with_reducible apply Kept.upd; on_goal 1 => (first | with_reducible assumption | with_reducible apply modCh_kept))))
    | with_reducible rfl)

theorem lpddrInit_kept {s0 s : State} {c : Nat} (hk : Kept s0 s) :
    Kept s0 (lpddrInit c s) := by
  unfold lpddrInit
  repeat' (first
    | with_reducible assumption
    | with_reducible apply Kept.ite
    | with_reducible apply modCh_kept
    | with_reducible apply plannerCopied_kept)

theorem holdInit_kept {s0 s : State} {n : Nat} (hk : Kept s0 s) :
    Kept s0 (holdInit n s) := by
  unfold holdInit
  repeat' (first
    | with_reducible assumption
    | with_reducible apply Kept.ite
    | with_reducible apply modPart_kept)

theorem buddyHit_kept {s0 s : State} {a : Nat} (hk : Kept s0 s) :
    Kept s0 (buddyHit a s) := by
  unfold buddyHit
  repeat' (first
    | with_reducible assumption
    | (with_reducible apply Kept.upd; on_goal 1 => (first | with_reducible assumption | with_reducible apply Kept.ite | with_reducible apply Kept.foldl | with_reducible apply Kept.forEach | (with_reducible apply Kept.upd; on_goal 1 => (first | with_reducible assumption))))
    | with_reducible rfl)

theorem passStart_kept {s0 s : State} {u : MemUnit} {w : Nat} (hk : Kept s0 s) :
    Kept s0 (passStart u w s) := by
  unfold passStart
  repeat' (first
    | with_reducible assumption
    | (with_reducible apply Kept.upd; on_goal 1 => (first | with_reducible assumption | with_reducible apply Kept.ite | with_reducible apply Kept.foldl | with_reducible apply Kept.forEach | (with_reducible apply Kept.upd; on_goal 1 => (first | with_reducible assumption))))
    | with_reducible rfl)

theorem noteBad_kept {s0 s : State} {w : Nat} (hk : Kept s0 s) :
    Kept s0 (noteBad w s) := by
  unfold noteBad
  repeat' (first
    | with_reducible assumption
    | (with_reducible apply Kept.upd; on_goal 1 => (first | with_reducible assumption | with_reducible apply Kept.ite | with_reducible apply Kept.foldl | with_reducible apply Kept.forEach | (with_reducible apply Kept.upd; on_goal 1 => (first | with_reducible assumption))))
    | with_reducible rfl)

theorem scrubPath_kept {s0 s : State} {w reason : Nat} (hk : Kept s0 s) :
    Kept s0 (scrubPath w reason s) := by
  unfold scrubPath
  repeat' (first
    | with_reducible assumption
    | with_reducible apply buddyHit_kept
    | with_reducible apply plannerCopied_kept
    | (with_reducible apply Kept.upd; on_goal 1 => (first | with_reducible assumption | with_reducible apply Kept.ite | with_reducible apply buddyHit_kept | with_reducible apply plannerCopied_kept | with_reducible apply Kept.foldl | with_reducible apply Kept.forEach | (with_reducible apply Kept.upd; on_goal 1 => (first | with_reducible assumption | with_reducible apply buddyHit_kept | with_reducible apply plannerCopied_kept))))
    | with_reducible rfl)

theorem scrubCount_kept {s0 s : State} {a : Nat} (hk : Kept s0 s) :
    Kept s0 (scrubCount a s) := by
  unfold scrubCount
  repeat' (first
    | with_reducible assumption
    | with_reducible apply lifeAdd_kept
    | with_reducible apply bump_kept
    | split)

theorem scrub_kept {s0 s : State} {u : MemUnit} {a : Nat} {o : EccOutcome} (hk : Kept s0 s) :
    Kept s0 (scrub u a o s) := by
  unfold scrub
  repeat' (first
    | with_reducible assumption
    | with_reducible apply Kept.ite
    | with_reducible apply passStart_kept
    | with_reducible apply eccRead_kept
    | with_reducible apply logEv_kept
    | with_reducible apply scrubPath_kept
    | with_reducible apply noteBad_kept
    | with_reducible apply scrubCount_kept)


end Sys2Proof.Machine
end

