-- ==== Sys2Proof/Laws/KeptHost.lean ====
section
/-! SUPPORT. `Kept` of the operations of host commands, power and management. -/

namespace Sys2Proof.Machine

open Sys2Proof

theorem doorbellTouch_kept {s0 s : State}  (hk : Kept s0 s) :
    Kept s0 (doorbellTouch  s) := by
  unfold doorbellTouch
  repeat' (first
    | with_reducible assumption
    | with_reducible apply wakeAccess_kept
    | (with_reducible apply Kept.upd; on_goal 1 => (first | with_reducible assumption | with_reducible apply Kept.ite | with_reducible apply wakeAccess_kept | with_reducible apply Kept.foldl | with_reducible apply Kept.forEach | (with_reducible apply Kept.upd; on_goal 1 => (first | with_reducible assumption | with_reducible apply wakeAccess_kept))))
    | with_reducible rfl)

theorem sqTailOp_kept {s0 s : State} {q off v : Nat} (hk : Kept s0 s) :
    Kept s0 (sqTailOp q off v s) := by
  unfold sqTailOp
  repeat' (first
    | with_reducible assumption
    | with_reducible apply Kept.ite
    | with_reducible apply doorbellTouch_kept
    | with_reducible apply refuseWrite_kept
    | with_reducible apply emit_kept
    | with_reducible apply modRing_kept)

theorem rqHeadOp_kept {s0 s : State} {q v : Nat} (hk : Kept s0 s) :
    Kept s0 (rqHeadOp q v s) := by
  unfold rqHeadOp
  repeat' (first
    | with_reducible assumption
    | with_reducible apply Kept.ite
    | with_reducible apply doorbellTouch_kept
    | with_reducible apply emit_kept
    | with_reducible apply refuseWrite_kept
    | with_reducible apply modRing_kept
    | with_reducible apply drainReplies_kept)

theorem fetchOp_kept {s0 s : State} {q : Nat} {r : FetchResult} (hk : Kept s0 s) : Kept s0 (fetchOp q r s) := by
  unfold fetchOp
  apply Kept.ite hk
  dsimp only
  generalize (if hostRange s (entryAddr s q) 64 then r else .error) = x
  cases x with
  | ok e => exact dropReserved_kept _ (modRing_kept hk)
  | _ => exact reply_kept (emit_kept (modRing_kept hk))

theorem groupOn_kept {s0 s : State} {g : Nat} (hk : Kept s0 s) :
    Kept s0 (groupOn g s) := by
  unfold groupOn
  repeat' (first
    | with_reducible assumption
    | with_reducible apply Kept.ite
    | with_reducible apply setGroup_kept)

theorem allGroupsOn_kept {s0 s : State}  (hk : Kept s0 s) :
    Kept s0 (allGroupsOn  s) := by
  unfold allGroupsOn
  repeat' (first
    | with_reducible assumption
    | intro (x : State) hx
    | with_reducible apply groupOn_kept
    | with_reducible apply Kept.foldl
    | (lift_lets; intro x))

theorem loadPkg_kept {s0 s : State} {p : Pkg} {d : List Byte} (hk : Kept s0 s) :
    Kept s0 (loadPkg p d s) := by
  unfold loadPkg
  repeat' (first
    | with_reducible assumption
    | with_reducible apply allGroupsOn_kept
    | with_reducible apply countRange_kept
    | with_reducible apply memStore_kept
    | (with_reducible apply Kept.upd; on_goal 1 => (first | with_reducible assumption | with_reducible apply Kept.ite | with_reducible apply allGroupsOn_kept | with_reducible apply countRange_kept | with_reducible apply memStore_kept | with_reducible apply Kept.foldl | with_reducible apply Kept.forEach | (with_reducible apply Kept.upd; on_goal 1 => (first | with_reducible assumption | with_reducible apply allGroupsOn_kept | with_reducible apply countRange_kept | with_reducible apply memStore_kept))))
    | with_reducible rfl)

theorem loadBody_kept {s0 s : State} {q : Nat} {data : HostData} {e : List Byte} (hk : Kept s0 s) :
    Kept s0 (loadBody q data e s) := by
  unfold loadBody
  repeat' (first
    | with_reducible assumption
    | with_reducible apply Kept.ite
    | with_reducible apply complete_kept
    | with_reducible apply loadPkg_kept
    | with_reducible apply logEv_kept
    | (lift_lets; intro x)
    | split)

theorem bindBody_kept {s0 s : State} {q : Nat} {e : List Byte} (hk : Kept s0 s) :
    Kept s0 (bindBody q e s) := by
  unfold bindBody
  repeat' (first
    | with_reducible assumption
    | with_reducible apply complete_kept
    | with_reducible apply logEv_kept
    | (with_reducible apply Kept.upd; on_goal 1 => (first | with_reducible assumption | with_reducible apply Kept.ite | with_reducible apply complete_kept | with_reducible apply logEv_kept | with_reducible apply Kept.foldl | with_reducible apply Kept.forEach | (with_reducible apply Kept.upd; on_goal 1 => (first | with_reducible assumption | with_reducible apply complete_kept | with_reducible apply logEv_kept))))
    | with_reducible rfl)

theorem applyPin_kept {s0 s : State} {x : Nat × Nat × Nat} (hk : Kept s0 s) :
    Kept s0 (applyPin x s) := by
  unfold applyPin
  repeat' (first
    | with_reducible assumption
    | with_reducible apply setPin_kept
    | with_reducible apply setQuiet_kept
    | with_reducible apply setRung_kept
    | (with_reducible apply Kept.upd; on_goal 1 => (first | with_reducible assumption | with_reducible apply Kept.ite | with_reducible apply setPin_kept | with_reducible apply setQuiet_kept | with_reducible apply setRung_kept | with_reducible apply Kept.foldl | with_reducible apply Kept.forEach | (with_reducible apply Kept.upd; on_goal 1 => (first | with_reducible assumption | with_reducible apply setPin_kept | with_reducible apply setQuiet_kept | with_reducible apply setRung_kept))))
    | with_reducible rfl)

theorem strokeRoles_kept {s0 s : State} {pl : Plan} (hk : Kept s0 s) :
    Kept s0 (strokeRoles pl s) := by
  unfold strokeRoles
  repeat' (first
    | with_reducible assumption
    | (with_reducible apply Kept.upd; on_goal 1 => (first | with_reducible assumption | with_reducible apply Kept.ite | with_reducible apply Kept.foldl | with_reducible apply Kept.forEach | (with_reducible apply Kept.upd; on_goal 1 => (first | with_reducible assumption))))
    | (show _ = _; rfl)
    | split)

theorem logShared_kept {s0 s : State} {pl : Plan} (hk : Kept s0 s) :
    Kept s0 (logShared pl s) := by
  unfold logShared
  repeat' (first
    | with_reducible assumption
    | intro (x : State) hx
    | with_reducible apply logEv_kept
    | with_reducible apply Kept.forEach
    | (lift_lets; intro x))

theorem installPlan_kept {s0 s : State} {pl : Plan} (hk : Kept s0 s) :
    Kept s0 (installPlan pl s) := by
  unfold installPlan
  repeat' (first
    | with_reducible assumption
    | intro (x : State) hx
    | with_reducible apply memStore_kept
    | with_reducible apply strokeRoles_kept
    | (with_reducible apply Kept.upd; on_goal 1 => (first | with_reducible assumption | with_reducible apply Kept.ite | with_reducible apply memStore_kept | with_reducible apply strokeRoles_kept | with_reducible apply Kept.foldl | with_reducible apply Kept.forEach | (with_reducible apply Kept.upd; on_goal 1 => (first | with_reducible assumption | with_reducible apply memStore_kept | with_reducible apply strokeRoles_kept))))
    | (show _ = _; rfl)
    | (lift_lets; intro x))

theorem initTensor_kept {s0 s : State} {pl : Plan} {pk : Pkg} {d : List Byte} {i : Nat} {t : TensorDesc} (hk : Kept s0 s) :
    Kept s0 (initTensor pl pk d i t s) := by
  unfold initTensor
  repeat' (first
    | with_reducible assumption
    | with_reducible apply zeroMem_kept
    | with_reducible apply memStore_kept
    | split)

theorem startPlan_kept {s0 s : State} {pl : Plan} {pk : Pkg} (hk : Kept s0 s) :
    Kept s0 (startPlan pl pk s) := by
  unfold startPlan
  repeat' (first
    | with_reducible assumption
    | intro (x : State) hx
    | with_reducible apply installPlan_kept
    | with_reducible apply allGroupsOn_kept
    | with_reducible apply initTensor_kept
    | (with_reducible apply Kept.upd; on_goal 1 => (first | with_reducible assumption | with_reducible apply Kept.ite | with_reducible apply installPlan_kept | with_reducible apply allGroupsOn_kept | with_reducible apply initTensor_kept | with_reducible apply Kept.foldl | with_reducible apply Kept.forEach | (with_reducible apply Kept.upd; on_goal 1 => (first | with_reducible assumption | with_reducible apply installPlan_kept | with_reducible apply allGroupsOn_kept | with_reducible apply initTensor_kept))))
    | (show _ = _; rfl)
    | (lift_lets; intro x))

theorem planFresh_kept {s0 s : State} {q : Nat} {mapD : List Byte} {bytes : Nat} {pins : List (Nat × Nat × Nat)} {pk : Pkg} (hk : Kept s0 s) :
    Kept s0 (planFresh q mapD bytes pins pk s) := by
  unfold planFresh
  repeat' (first
    | with_reducible assumption
    | intro (x : State) hx
    | with_reducible apply complete_kept
    | with_reducible apply applyPin_kept
    | with_reducible apply logShared_kept
    | with_reducible apply startPlan_kept
    | with_reducible apply sendDigest_kept
    | (with_reducible apply Kept.upd; on_goal 1 => (first | with_reducible assumption | with_reducible apply Kept.ite | with_reducible apply complete_kept | with_reducible apply applyPin_kept | with_reducible apply logShared_kept | with_reducible apply startPlan_kept | with_reducible apply sendDigest_kept | with_reducible apply Kept.foldl | with_reducible apply Kept.forEach | (with_reducible apply Kept.upd; on_goal 1 => (first | with_reducible assumption | with_reducible apply complete_kept | with_reducible apply applyPin_kept | with_reducible apply logShared_kept | with_reducible apply startPlan_kept | with_reducible apply sendDigest_kept))))
    | (show _ = _; rfl)
    | (lift_lets; intro x)
    | split)

theorem planRunWide_kept {s0 s : State} {q : Nat} {mapD : List Byte} {pins : List (Nat × Nat × Nat)} {pk : Pkg}
    (hk : Kept s0 s) : Kept s0 (planRunWide q mapD pins pk s) := by
  have h : ∀ (u : State) (p : Option PlanReq), Kept s0 u → Kept s0 (accept q { u with host := { u.host with rwPlan := p } }) :=
    fun u p h => accept_kept (s := { u with host := { u.host with rwPlan := p } }) h
  unfold planRunWide
  refine Kept.ite (complete_kept hk) (Kept.ite (complete_kept hk) (Kept.ite (complete_kept hk) ?_))
  split
  · exact h _ _ (complete_kept hk)
  · exact h _ _ hk

theorem planBody_kept {s0 s : State} {q : Nat} {map pins : HostData} {e : List Byte} (hk : Kept s0 s) :
    Kept s0 (planBody q map pins e s) := by
  unfold planBody
  repeat' (first
    | with_reducible assumption
    | with_reducible apply Kept.ite
    | with_reducible apply complete_kept
    | with_reducible apply planRunWide_kept
    | with_reducible apply planFresh_kept
    | split)

theorem planReadBody_kept {s0 s : State} {q : Nat} {e : List Byte} (hk : Kept s0 s) :
    Kept s0 (planReadBody q e s) := by
  unfold planReadBody
  repeat' (first
    | with_reducible assumption
    | with_reducible apply Kept.ite
    | with_reducible apply complete_kept
    | with_reducible apply emit_kept
    | split)

theorem readStatsBody_kept {s0 s : State} {q : Nat} {e : List Byte} (hk : Kept s0 s) :
    Kept s0 (readStatsBody q e s) := by
  unfold readStatsBody
  repeat' (first
    | with_reducible assumption
    | with_reducible apply Kept.ite
    | with_reducible apply complete_kept
    | with_reducible apply emit_kept)

theorem setReady_kept {s0 s : State}  (hk : Kept s0 s) :
    Kept s0 (setReady  s) := by
  unfold setReady
  repeat' (first
    | with_reducible assumption
    | (with_reducible apply Kept.upd; on_goal 1 => (first | with_reducible assumption | with_reducible apply Kept.ite | with_reducible apply Kept.foldl | with_reducible apply Kept.forEach | (with_reducible apply Kept.upd; on_goal 1 => (first | with_reducible assumption))))
    | with_reducible rfl)

theorem beginStart_kept {s0 s : State} {q runRing l : Nat} (hk : Kept s0 s) :
    Kept s0 (beginStart q runRing l s) := by
  unfold beginStart
  repeat' (first
    | with_reducible assumption
    | with_reducible apply setReady_kept
    | with_reducible apply accept_kept
    | (with_reducible apply Kept.upd; on_goal 1 => (first | with_reducible assumption | with_reducible apply Kept.ite | with_reducible apply setReady_kept | with_reducible apply accept_kept | with_reducible apply Kept.foldl | with_reducible apply Kept.forEach | (with_reducible apply Kept.upd; on_goal 1 => (first | with_reducible assumption | with_reducible apply setReady_kept | with_reducible apply accept_kept))))
    | with_reducible rfl)

theorem cancelStart_kept {s0 s : State} {code : Nat} (hk : Kept s0 s) :
    Kept s0 (cancelStart code s) := by
  unfold cancelStart
  repeat' (first
    | with_reducible assumption
    | with_reducible apply complete_kept
    | (with_reducible apply Kept.upd; on_goal 1 => (first | with_reducible assumption | with_reducible apply Kept.ite | with_reducible apply complete_kept | with_reducible apply Kept.foldl | with_reducible apply Kept.forEach | (with_reducible apply Kept.upd; on_goal 1 => (first | with_reducible assumption | with_reducible apply complete_kept))))
    | (show _ = _; rfl)
    | (lift_lets; intro x)
    | intro x
    | split)

theorem endRun_kept {s0 s : State}  (hk : Kept s0 s) :
    Kept s0 (endRun  s) := by
  unfold endRun
  repeat' (first
    | with_reducible assumption
    | (with_reducible apply Kept.upd; on_goal 1 => (first | with_reducible assumption | with_reducible apply Kept.ite | with_reducible apply Kept.foldl | with_reducible apply Kept.forEach | (with_reducible apply Kept.upd; on_goal 1 => (first | with_reducible assumption))))
    | with_reducible rfl)

theorem pauseBody_kept {s0 s : State} {q : Nat} {e : List Byte} (hk : Kept s0 s) :
    Kept s0 (pauseBody q e s) := by
  unfold pauseBody
  repeat' (first
    | with_reducible assumption
    | with_reducible apply cancelStart_kept
    | with_reducible apply complete_kept
    | with_reducible apply endRun_kept
    | with_reducible apply accept_kept
    | (with_reducible apply Kept.upd; on_goal 1 => (first | with_reducible assumption | with_reducible apply Kept.ite | with_reducible apply cancelStart_kept | with_reducible apply complete_kept | with_reducible apply endRun_kept | with_reducible apply accept_kept | with_reducible apply Kept.foldl | with_reducible apply Kept.forEach | (with_reducible apply Kept.upd; on_goal 1 => (first | with_reducible assumption | with_reducible apply cancelStart_kept | with_reducible apply complete_kept | with_reducible apply endRun_kept | with_reducible apply accept_kept))))
    | with_reducible rfl)

theorem snapshotBody_kept {s0 s : State} {q : Nat} {e : List Byte} (hk : Kept s0 s) :
    Kept s0 (snapshotBody q e s) := by
  unfold snapshotBody
  repeat' (first
    | with_reducible assumption
    | with_reducible apply complete_kept
    | with_reducible apply accept_kept
    | with_reducible apply takeSnapshot_kept
    | (with_reducible apply Kept.upd; on_goal 1 => (first | with_reducible assumption | with_reducible apply Kept.ite | with_reducible apply complete_kept | with_reducible apply accept_kept | with_reducible apply takeSnapshot_kept | with_reducible apply Kept.foldl | with_reducible apply Kept.forEach | (with_reducible apply Kept.upd; on_goal 1 => (first | with_reducible assumption | with_reducible apply complete_kept | with_reducible apply accept_kept | with_reducible apply takeSnapshot_kept))))
    | with_reducible rfl)

theorem traceSwitch_kept {s0 s : State} {q : Nat} {next : Option TraceSession} (hk : Kept s0 s) :
    Kept s0 (traceSwitch q next s) := by
  unfold traceSwitch
  repeat' (first
    | with_reducible assumption
    | with_reducible apply complete_kept
    | (with_reducible apply Kept.upd; on_goal 1 => (first | with_reducible assumption | with_reducible apply Kept.ite | with_reducible apply complete_kept | with_reducible apply Kept.foldl | with_reducible apply Kept.forEach | (with_reducible apply Kept.upd; on_goal 1 => (first | with_reducible assumption | with_reducible apply complete_kept))))
    | with_reducible rfl)

theorem traceCtlBody_kept {s0 s : State} {q : Nat} {e : List Byte} (hk : Kept s0 s) :
    Kept s0 (traceCtlBody q e s) := by
  unfold traceCtlBody
  repeat' (first
    | with_reducible assumption
    | with_reducible apply complete_kept
    | with_reducible apply accept_kept
    | with_reducible apply traceSwitch_kept
    | (with_reducible apply Kept.upd; on_goal 1 => (first | with_reducible assumption | with_reducible apply Kept.ite | with_reducible apply complete_kept | with_reducible apply accept_kept | with_reducible apply traceSwitch_kept | with_reducible apply Kept.foldl | with_reducible apply Kept.forEach | (with_reducible apply Kept.upd; on_goal 1 => (first | with_reducible assumption | with_reducible apply complete_kept | with_reducible apply accept_kept | with_reducible apply traceSwitch_kept))))
    | with_reducible rfl)

theorem storeBytes_kept {s0 s : State} {a : Nat} {l : List Byte} {poison : Bool} (hk : Kept s0 s) :
    Kept s0 (storeBytes a l poison s) := by
  unfold storeBytes
  repeat' (first
    | with_reducible assumption
    | with_reducible apply countRange_kept
    | with_reducible apply deliver_kept)

theorem copyRead_kept {s0 s : State} {src : Nat} {y x : Nat × Nat} {o : EccOutcome} {dst : Nat} (hk : Kept s0 s) :
    Kept s0 (copyRead src y x o dst s) := by
  unfold copyRead
  repeat' (first
    | with_reducible assumption
    | with_reducible apply countBytes_kept
    | with_reducible apply readCount_kept)

theorem copyMove_kept {s0 : State} {src dst : Nat} {data : HostData} {bytes : List Byte} {found : List (Nat × EccOutcome)}
    {x : Nat × Nat} {z : State × Bool} (hk : Kept s0 z.1) : Kept s0 (copyMove src dst data bytes found x z).1 := by
  unfold copyMove
  dsimp only
  generalize (if isHostAddr (src + x.1) then (if data.poison then 5 else 0) else if memReason z.1 (src + x.1) x.2 != 0 then
    memReason z.1 (src + x.1) x.2 else readReason z.1 (src + (foundIn found x).1) 1 (foundIn found x).2) = r
  generalize (if isHostAddr (dst + x.1) then 0 else writeReason z.1 (dst + x.1) x.2) = w
  have h := copyRead_kept (src := src) (y := ((foundIn found x).1, 0)) (x := x) (o := (foundIn found x).2) (dst := dst) hk
  by_cases c : (w != 0) = true
  · rw [if_pos c]; exact countPoison_kept h
  · rw [if_neg c]; exact countBytes_kept (deliver_kept (countPoison_kept h))

theorem refuseHost_kept {s0 s : State}  (hk : Kept s0 s) :
    Kept s0 (refuseHost  s) := by
  unfold refuseHost
  repeat' (first
    | with_reducible assumption
    | with_reducible apply logEv_kept
    | with_reducible apply bump_kept)

theorem copyBody_kept {s0 s : State} {q : Nat} {data : HostData} {found : List (Nat × EccOutcome)} {e : List Byte} (hk : Kept s0 s) :
    Kept s0 (copyBody q data found e s) := by
  unfold copyBody
  refine Kept.ite (complete_kept hk) (Kept.ite (complete_kept (refuseHost_kept hk)) (complete_kept ?_))
  generalize copyCuts s _ _ _ _ _ = l
  generalize loadBytes s _ _ _ = b
  have k : ∀ z : State × Bool, Kept s0 z.1 →
      Kept s0 (l.foldl (fun z x => copyMove (leAt e 8 8) (leAt e 0x10 8) data b found x z) z).1 := by
    induction l with
    | nil => exact fun z h => h
    | cons x l ih => exact fun z h => ih _ (copyMove_kept h)
  exact k (s, false) hk

theorem stageImage_kept {s0 s : State} {d : List Byte} (hk : Kept s0 s) :
    Kept s0 (stageImage d s) := by
  unfold stageImage
  repeat' (first
    | with_reducible assumption
    | with_reducible apply Kept.ite
    | with_reducible apply memStore_kept)

theorem storeImage_kept {s0 s : State} {q : Nat} {i : FwImage} (hk : Kept s0 s) :
    Kept s0 (storeImage q i s) := by
  unfold storeImage
  repeat' (first
    | with_reducible assumption
    | with_reducible apply lifeWrite_kept
    | with_reducible apply lifeAdd_kept
    | with_reducible apply logEv_kept
    | with_reducible apply complete_kept
    | (with_reducible apply Kept.upd; on_goal 1 => (first | with_reducible assumption | with_reducible apply Kept.ite | with_reducible apply lifeWrite_kept | with_reducible apply lifeAdd_kept | with_reducible apply logEv_kept | with_reducible apply complete_kept | with_reducible apply Kept.foldl | with_reducible apply Kept.forEach | (with_reducible apply Kept.upd; on_goal 1 => (first | with_reducible assumption | with_reducible apply lifeWrite_kept | with_reducible apply lifeAdd_kept | with_reducible apply logEv_kept | with_reducible apply complete_kept))))
    | with_reducible rfl)

theorem fwChecks_kept {s0 s : State} {q bytes : Nat} {i : FwImage} {d : List Byte} (hk : Kept s0 s) :
    Kept s0 (fwChecks q bytes i d s) := by
  unfold fwChecks
  repeat' (first
    | with_reducible assumption
    | with_reducible apply Kept.ite
    | with_reducible apply complete_kept
    | with_reducible apply stageImage_kept
    | with_reducible apply resetAndBoot_kept
    | with_reducible apply storeImage_kept)

theorem fwBody_kept {s0 s : State} {q : Nat} {data : HostData} {e : List Byte} (hk : Kept s0 s) :
    Kept s0 (fwBody q data e s) := by
  unfold fwBody
  repeat' (first
    | with_reducible assumption
    | with_reducible apply Kept.ite
    | with_reducible apply complete_kept
    | with_reducible apply fwChecks_kept)


end Sys2Proof.Machine

namespace Sys2Proof.Machine

open Sys2Proof

theorem groupOff_kept {s0 s : State} {g : Nat} (hk : Kept s0 s) : Kept s0 (groupOff g s) := by
  unfold groupOff
  refine setGroup_kept (Kept.foldl (s := { s with pwr := _ }) hk fun t ht c => modCore_kept ?_)
  have h := dropTrace_kept (c := c) ht
  exact
    { h with
      data := fun i => swf_serase (h.data i) _ _
      poison := fun i => swf_serase (h.poison i) _ _
      regs := fun i => swf_serase (h.regs i) _ _ }

theorem planGroups_kept {s0 s : State}  (hk : Kept s0 s) :
    Kept s0 (planGroups  s) := by
  unfold planGroups
  repeat' (first
    | with_reducible assumption
    | with_reducible apply groupOff_kept
    | with_reducible apply Kept.foldl
    | intro x
    | split)

theorem setUnit_kept {s0 s : State} {k : Nat} {v : Bool} (hk : Kept s0 s) :
    Kept s0 (setUnit k v s) := by
  unfold setUnit
  repeat' (first
    | with_reducible assumption
    | (with_reducible apply Kept.upd; on_goal 1 => (first | with_reducible assumption | with_reducible apply Kept.ite | with_reducible apply Kept.foldl | with_reducible apply Kept.forEach | (with_reducible apply Kept.upd; on_goal 1 => (first | with_reducible assumption))))
    | with_reducible rfl)

theorem startDrain_kept {s0 s : State} {d : Nat} (hk : Kept s0 s) :
    Kept s0 (startDrain d s) := by
  unfold startDrain
  repeat' (first
    | with_reducible assumption
    | (with_reducible apply Kept.upd; on_goal 1 => (first | with_reducible assumption | with_reducible apply Kept.ite | with_reducible apply Kept.foldl | with_reducible apply Kept.forEach | (with_reducible apply Kept.upd; on_goal 1 => (first | with_reducible assumption))))
    | with_reducible rfl)

theorem endDrain_kept {s0 s : State} {d : Nat} (hk : Kept s0 s) :
    Kept s0 (endDrain d s) := by
  unfold endDrain
  repeat' (first
    | with_reducible assumption
    | (with_reducible apply Kept.upd; on_goal 1 => (first | with_reducible assumption | with_reducible apply Kept.ite | with_reducible apply Kept.foldl | with_reducible apply Kept.forEach | (with_reducible apply Kept.upd; on_goal 1 => (first | with_reducible assumption))))
    | with_reducible rfl)

theorem unitEntry_kept {s0 s : State} {c u tNext : Nat} (hk : Kept s0 s) :
    Kept s0 (unitEntry c u tNext s) := by
  unfold unitEntry
  repeat' (first
    | with_reducible assumption
    | with_reducible apply Kept.ite
    | with_reducible apply setUnit_kept)

theorem groupEntry_kept {s0 s : State} {g tNext : Nat} (hk : Kept s0 s) :
    Kept s0 (groupEntry g tNext s) := by
  unfold groupEntry
  repeat' (first
    | with_reducible assumption
    | with_reducible apply Kept.ite
    | with_reducible apply startDrain_kept
    | with_reducible apply setGroup_kept
    | with_reducible apply endDrain_kept)

theorem deviceEntry_kept {s0 s : State}  (hk : Kept s0 s) :
    Kept s0 (deviceEntry  s) := by
  unfold deviceEntry
  repeat' (first
    | with_reducible assumption
    | with_reducible apply Kept.ite
    | with_reducible apply startDrain_kept
    | with_reducible apply enterDeep_kept
    | with_reducible apply endDrain_kept)

theorem beginUnitExit_kept {s0 s : State} {k : Nat} (hk : Kept s0 s) :
    Kept s0 (beginUnitExit k s) := by
  unfold beginUnitExit
  repeat' (first
    | with_reducible assumption
    | (with_reducible apply Kept.upd; on_goal 1 => (first | with_reducible assumption | with_reducible apply Kept.ite | with_reducible apply Kept.foldl | with_reducible apply Kept.forEach | (with_reducible apply Kept.upd; on_goal 1 => (first | with_reducible assumption))))
    | with_reducible rfl)

theorem beginGroupExit_kept {s0 s : State} {g : Nat} (hk : Kept s0 s) :
    Kept s0 (beginGroupExit g s) := by
  unfold beginGroupExit
  repeat' (first
    | with_reducible assumption
    | (with_reducible apply Kept.upd; on_goal 1 => (first | with_reducible assumption | with_reducible apply Kept.ite | with_reducible apply Kept.foldl | with_reducible apply Kept.forEach | (with_reducible apply Kept.upd; on_goal 1 => (first | with_reducible assumption))))
    | with_reducible rfl)

theorem scopeExit_kept {s0 s : State} {sc : PowerScope} (hk : Kept s0 s) :
    Kept s0 (scopeExit sc s) := by
  unfold scopeExit
  repeat' (first
    | with_reducible assumption
    | with_reducible apply beginUnitExit_kept
    | with_reducible apply beginGroupExit_kept
    | with_reducible apply startExit_kept
    | split)

theorem wakeStall_kept {s0 s : State} {c? : Option Nat} {late : Nat} (hk : Kept s0 s) :
    Kept s0 (wakeStall c? late s) := by
  unfold wakeStall
  repeat' (first
    | with_reducible assumption
    | with_reducible apply bump_kept
    | with_reducible apply traceRec_kept
    | split)

theorem exitComplete_kept {s0 s : State} {sc : PowerScope} {late : Nat} (hk : Kept s0 s) :
    Kept s0 (exitComplete sc late s) := by
  unfold exitComplete
  repeat' (first
    | with_reducible assumption
    | with_reducible apply wakeStall_kept
    | with_reducible apply setUnit_kept
    | with_reducible apply setGroup_kept
    | with_reducible apply exitDeep_kept
    | (with_reducible apply Kept.upd; on_goal 1 => (first | with_reducible assumption | with_reducible apply Kept.ite | with_reducible apply wakeStall_kept | with_reducible apply setUnit_kept | with_reducible apply setGroup_kept | with_reducible apply exitDeep_kept | with_reducible apply Kept.foldl | with_reducible apply Kept.forEach | (with_reducible apply Kept.upd; on_goal 1 => (first | with_reducible assumption | with_reducible apply wakeStall_kept | with_reducible apply setUnit_kept | with_reducible apply setGroup_kept | with_reducible apply exitDeep_kept))))
    | (show _ = _; rfl)
    | split)

theorem drainTimeout_kept {s0 s : State} {d count : Nat} (hk : Kept s0 s) :
    Kept s0 (drainTimeout d count s) := by
  unfold drainTimeout
  repeat' (first
    | with_reducible assumption
    | with_reducible apply endDrain_kept
    | with_reducible apply attn_kept
    | with_reducible apply logEv_kept
    | (with_reducible apply Kept.upd; on_goal 1 => (first | with_reducible assumption | with_reducible apply Kept.ite | with_reducible apply endDrain_kept | with_reducible apply attn_kept | with_reducible apply logEv_kept | with_reducible apply Kept.foldl | with_reducible apply Kept.forEach | (with_reducible apply Kept.upd; on_goal 1 => (first | with_reducible assumption | with_reducible apply endDrain_kept | with_reducible apply attn_kept | with_reducible apply logEv_kept))))
    | with_reducible rfl)

theorem d3hotEntry_kept {s0 s : State}  (hk : Kept s0 s) :
    Kept s0 (d3hotEntry  s) := by
  unfold d3hotEntry
  repeat' (first
    | with_reducible assumption
    | intro (x : State) hx
    | with_reducible apply enterDeep_kept
    | with_reducible apply setGroup_kept
    | (with_reducible apply Kept.upd; on_goal 1 => (first | with_reducible assumption | with_reducible apply Kept.ite | with_reducible apply enterDeep_kept | with_reducible apply setGroup_kept | with_reducible apply Kept.foldl | with_reducible apply Kept.forEach | (with_reducible apply Kept.upd; on_goal 1 => (first | with_reducible assumption | with_reducible apply enterDeep_kept | with_reducible apply setGroup_kept))))
    | (show _ = _; rfl)
    | (lift_lets; intro x))

theorem d0Return_kept {s0 s : State}  (hk : Kept s0 s) :
    Kept s0 (d0Return  s) := by
  unfold d0Return
  repeat' (first
    | with_reducible assumption
    | intro (x : State) hx
    | with_reducible apply startExit_kept
    | with_reducible apply beginGroupExit_kept
    | with_reducible apply drainReplies_kept
    | (with_reducible apply Kept.upd; on_goal 1 => (first | with_reducible assumption | with_reducible apply Kept.ite | with_reducible apply startExit_kept | with_reducible apply beginGroupExit_kept | with_reducible apply drainReplies_kept | with_reducible apply Kept.foldl | with_reducible apply Kept.forEach | (with_reducible apply Kept.upd; on_goal 1 => (first | with_reducible assumption | with_reducible apply startExit_kept | with_reducible apply beginGroupExit_kept | with_reducible apply drainReplies_kept))))
    | (show _ = _; rfl)
    | (lift_lets; intro x))

theorem avsRequest_kept {s0 s : State} {r : Nat} (hk : Kept s0 s) :
    Kept s0 (avsRequest r s) := by
  unfold avsRequest
  repeat' (first
    | with_reducible assumption
    | with_reducible apply Kept.ite
    | with_reducible apply emit_kept
    | with_reducible apply modAvs_kept)

theorem avsAck_kept {s0 s : State} {r : Nat} (hk : Kept s0 s) :
    Kept s0 (avsAck r s) := by
  unfold avsAck
  repeat' (first | with_reducible assumption | with_reducible apply modAvs_kept)

theorem avsTimeout_kept {s0 s : State} {r : Nat} (hk : Kept s0 s) :
    Kept s0 (avsTimeout r s) := by
  unfold avsTimeout
  repeat' (first
    | with_reducible assumption
    | with_reducible apply emit_kept
    | with_reducible apply bump_kept
    | with_reducible apply modAvs_kept
    | with_reducible apply attn_kept
    | with_reducible apply logEv_kept
    | (with_reducible apply Kept.upd; on_goal 1 => (first | with_reducible assumption | with_reducible apply Kept.ite | with_reducible apply emit_kept | with_reducible apply bump_kept | with_reducible apply modAvs_kept | with_reducible apply attn_kept | with_reducible apply logEv_kept | with_reducible apply Kept.foldl | with_reducible apply Kept.forEach | (with_reducible apply Kept.upd; on_goal 1 => (first | with_reducible assumption | with_reducible apply emit_kept | with_reducible apply bump_kept | with_reducible apply modAvs_kept | with_reducible apply attn_kept | with_reducible apply logEv_kept))))
    | with_reducible rfl)

theorem droop_kept {s0 s : State} {hold : Bool} (hk : Kept s0 s) :
    Kept s0 (droop hold s) := by
  unfold droop
  repeat' (first
    | with_reducible assumption
    | with_reducible apply health_kept
    | with_reducible apply bump_kept)

theorem sampleOne_kept {s0 s : State} {i : Nat} {r near : Int} (hk : Kept s0 s) :
    Kept s0 (sampleOne i r near s) := by
  unfold sampleOne
  repeat' (first
    | with_reducible assumption
    | with_reducible apply attn_kept
    | with_reducible apply logEv_kept
    | (with_reducible apply Kept.upd; on_goal 1 => (first | with_reducible assumption | with_reducible apply Kept.ite | with_reducible apply attn_kept | with_reducible apply logEv_kept | with_reducible apply Kept.foldl | with_reducible apply Kept.forEach | (with_reducible apply Kept.upd; on_goal 1 => (first | with_reducible assumption | with_reducible apply attn_kept | with_reducible apply logEv_kept))))
    | with_reducible rfl)

theorem updateBand_kept {s0 s : State} {r : Nat} (hk : Kept s0 s) :
    Kept s0 (updateBand r s) := by
  unfold updateBand
  repeat' (first
    | with_reducible assumption
    | with_reducible apply Kept.ite
    | with_reducible apply modAvs_kept)

theorem updateThrottle_kept {s0 s : State}  (hk : Kept s0 s) :
    Kept s0 (updateThrottle  s) := by
  unfold updateThrottle
  repeat' (first
    | with_reducible assumption
    | with_reducible apply logEv_kept
    | (with_reducible apply Kept.upd; on_goal 1 => (first | with_reducible assumption | with_reducible apply Kept.ite | with_reducible apply logEv_kept | with_reducible apply Kept.foldl | with_reducible apply Kept.forEach | (with_reducible apply Kept.upd; on_goal 1 => (first | with_reducible assumption | with_reducible apply logEv_kept))))
    | with_reducible rfl)

theorem lpddrTempRead_kept {s0 s : State} {c : Nat} {celsius : Int} (hk : Kept s0 s) :
    Kept s0 (lpddrTempRead c celsius s) := by
  unfold lpddrTempRead
  repeat' (first
    | with_reducible assumption
    | with_reducible apply Kept.ite
    | with_reducible apply updateThrottle_kept
    | with_reducible apply lpddrTemp_kept)

theorem lifeSecond_kept {s0 s : State} {o w : Nat} (hk : Kept s0 s) :
    Kept s0 (lifeSecond o w s) := by
  unfold lifeSecond
  repeat' (first
    | with_reducible assumption
    | with_reducible apply lifeAdd_kept
    | (with_reducible apply Kept.upd; on_goal 1 => (first | with_reducible assumption | with_reducible apply Kept.ite | with_reducible apply lifeAdd_kept | with_reducible apply Kept.foldl | with_reducible apply Kept.forEach | (with_reducible apply Kept.upd; on_goal 1 => (first | with_reducible assumption | with_reducible apply lifeAdd_kept))))
    | with_reducible rfl)

theorem lifeTick_kept {s0 s : State}  (hk : Kept s0 s) :
    Kept s0 (lifeTick  s) := by
  unfold lifeTick
  repeat' (first
    | with_reducible assumption
    | intro (x : State) hx
    | with_reducible apply lifeSecond_kept
    | (with_reducible apply Kept.upd; on_goal 1 => (first | with_reducible assumption | with_reducible apply Kept.ite | with_reducible apply lifeSecond_kept | with_reducible apply Kept.foldl | with_reducible apply Kept.forEach | (with_reducible apply Kept.upd; on_goal 1 => (first | with_reducible assumption | with_reducible apply lifeSecond_kept))))
    | (show _ = _; rfl)
    | (lift_lets; intro x))

theorem sensorSample_kept {s0 s : State} {q : List Int} (hk : Kept s0 s) :
    Kept s0 (sensorSample q s) := by
  unfold sensorSample
  repeat' (first
    | with_reducible assumption
    | intro (x : State) hx
    | with_reducible apply Kept.ite
    | with_reducible apply lifeTick_kept
    | with_reducible apply sampleOne_kept
    | with_reducible apply updateThrottle_kept
    | with_reducible apply updateBand_kept
    | with_reducible apply Kept.foldl
    | (lift_lets; intro x))

theorem thermTrip_kept {s0 s : State}  (hk : Kept s0 s) :
    Kept s0 (thermTrip  s) := by
  unfold thermTrip
  repeat' (first
    | with_reducible assumption
    | with_reducible apply emit_kept
    | with_reducible apply lifeWrite_kept
    | with_reducible apply lifeAdd_kept
    | with_reducible apply logEv_kept
    | (with_reducible apply Kept.upd; on_goal 1 => (first | with_reducible assumption | with_reducible apply Kept.ite | with_reducible apply emit_kept | with_reducible apply lifeWrite_kept | with_reducible apply lifeAdd_kept | with_reducible apply logEv_kept | with_reducible apply Kept.foldl | with_reducible apply Kept.forEach | (with_reducible apply Kept.upd; on_goal 1 => (first | with_reducible assumption | with_reducible apply emit_kept | with_reducible apply lifeWrite_kept | with_reducible apply lifeAdd_kept | with_reducible apply logEv_kept))))
    | with_reducible rfl)

theorem setRail_kept {s0 s : State} {r : Nat} {x : RailTel} (hk : Kept s0 s) :
    Kept s0 (setRail r x s) := by
  unfold setRail
  repeat' (first
    | with_reducible assumption
    | (with_reducible apply Kept.upd; on_goal 1 => (first | with_reducible assumption | with_reducible apply Kept.ite | with_reducible apply Kept.foldl | with_reducible apply Kept.forEach | (with_reducible apply Kept.upd; on_goal 1 => (first | with_reducible assumption))))
    | with_reducible rfl)

theorem regulatorPoll_kept {s0 s : State} {r : Nat} {a : Option RailReading} (hk : Kept s0 s) :
    Kept s0 (regulatorPoll r a s) := by
  unfold regulatorPoll
  repeat' (first
    | with_reducible assumption
    | with_reducible apply Kept.ite
    | with_reducible apply emit_kept
    | with_reducible apply setRail_kept
    | with_reducible apply logEv_kept
    | split)


end Sys2Proof.Machine

namespace Sys2Proof.Machine

open Sys2Proof

theorem traceWaitDone_kept {s0 s : State}  (hk : Kept s0 s) :
    Kept s0 (traceWaitDone  s) := by
  unfold traceWaitDone
  repeat' (first
    | with_reducible assumption
    | with_reducible apply traceSwitch_kept
    | split)

theorem traceDrain_kept {s0 s : State}  (hk : Kept s0 s) :
    Kept s0 (traceDrain  s) := by
  unfold traceDrain
  repeat' (first
    | with_reducible assumption
    | with_reducible apply traceWaitDone_kept
    | with_reducible apply bump_kept
    | with_reducible apply storeBytes_kept
    | (with_reducible apply Kept.upd; on_goal 1 => (first | with_reducible assumption | with_reducible apply Kept.ite | with_reducible apply traceWaitDone_kept | with_reducible apply bump_kept | with_reducible apply storeBytes_kept | with_reducible apply Kept.foldl | with_reducible apply Kept.forEach | (with_reducible apply Kept.upd; on_goal 1 => (first | with_reducible assumption | with_reducible apply traceWaitDone_kept | with_reducible apply bump_kept | with_reducible apply storeBytes_kept))))
    | (show _ = _; rfl)
    | split)

theorem aonUp_kept {s0 s : State} (hk : Kept s0 s) : Kept s0 (aonUp s) := by
  unfold aonUp
  apply romSteps_kept
  exact
    { queue := hk.queue
      fuses := hk.fuses
      regs := fun _ => rfl
      data := fun _ => rfl
      poison := fun _ => rfl
      counters := fun _ e he => absurd he List.not_mem_nil
      journal := fun _ => Nat.zero_le _
      log := fun _ => Nat.zero_le _
      attn := fun _ => Nat.succ_pos _ }

theorem tripClear_kept {s0 s : State}  (hk : Kept s0 s) :
    Kept s0 (tripClear  s) := by
  unfold tripClear
  repeat' (first
    | with_reducible assumption
    | with_reducible apply emit_kept
    | with_reducible apply thermTrip_kept
    | (with_reducible apply Kept.upd; on_goal 1 => (first | with_reducible assumption | with_reducible apply Kept.ite | with_reducible apply emit_kept | with_reducible apply thermTrip_kept | with_reducible apply Kept.foldl | with_reducible apply Kept.forEach | (with_reducible apply Kept.upd; on_goal 1 => (first | with_reducible assumption | with_reducible apply emit_kept | with_reducible apply thermTrip_kept))))
    | with_reducible rfl)

theorem perstAssert_kept {s0 s : State}  (hk : Kept s0 s) :
    Kept s0 (perstAssert  s) := by
  unfold perstAssert
  repeat' (first
    | with_reducible assumption
    | with_reducible apply tripClear_kept
    | with_reducible apply fullReset_kept
    | (with_reducible apply Kept.upd; on_goal 1 => (first | with_reducible assumption | with_reducible apply Kept.ite | with_reducible apply tripClear_kept | with_reducible apply fullReset_kept | with_reducible apply Kept.foldl | with_reducible apply Kept.forEach | (with_reducible apply Kept.upd; on_goal 1 => (first | with_reducible assumption | with_reducible apply tripClear_kept | with_reducible apply fullReset_kept))))
    | with_reducible rfl)

theorem bootOn_kept {s0 s : State}  (hk : Kept s0 s) :
    Kept s0 (bootOn  s) := by
  unfold bootOn
  repeat' (first
    | with_reducible assumption
    | with_reducible apply Kept.ite
    | with_reducible apply romFinish_kept
    | with_reducible apply romBody_kept
    | with_reducible apply bootSequence_kept)

theorem perstDeassert_kept {s0 s : State}  (hk : Kept s0 s) :
    Kept s0 (perstDeassert  s) := by
  unfold perstDeassert
  repeat' (first
    | with_reducible assumption
    | with_reducible apply bootOn_kept
    | (with_reducible apply Kept.upd; on_goal 1 => (first | with_reducible assumption | with_reducible apply Kept.ite | with_reducible apply bootOn_kept | with_reducible apply Kept.foldl | with_reducible apply Kept.forEach | (with_reducible apply Kept.upd; on_goal 1 => (first | with_reducible assumption | with_reducible apply bootOn_kept))))
    | with_reducible rfl)

theorem pwrgoodFall_kept {s0 s : State} (hk : Kept s0 s) : Kept s0 (pwrgoodFall s) := by
  have h : ∀ u : State, Kept s0 u → ∀ (p : Pins) (b : Boot) (w : PwrSt),
      Kept s0 { u with pins := p, boot := b, host := {}, link := {}, stm := {}, red := {}, run := {}, stroke := {},
                       adm := {}, cox := {}, plan := none, pkg := none, sources := [], pwr := w, dev := .boot } :=
    fun u h p b w => { h with attn := fun _ => Nat.succ_pos _ }
  unfold pwrgoodFall
  exact Kept.ite hk (h _ (dropHold_kept (dropCores_kept (dropTraces_kept (lifeWrite_kept (flushLog_kept hk))))) _ _ _)

theorem pwrgoodRise_kept {s0 s : State}  (hk : Kept s0 s) :
    Kept s0 (pwrgoodRise  s) := by
  unfold pwrgoodRise
  repeat' (first
    | with_reducible assumption
    | with_reducible apply fullReset_kept
    | with_reducible apply bootSequence_kept
    | with_reducible apply bootOn_kept
    | (with_reducible apply Kept.upd; on_goal 1 => (first | with_reducible assumption | with_reducible apply Kept.ite | with_reducible apply fullReset_kept | with_reducible apply bootSequence_kept | with_reducible apply bootOn_kept | with_reducible apply Kept.foldl | with_reducible apply Kept.forEach | (with_reducible apply Kept.upd; on_goal 1 => (first | with_reducible assumption | with_reducible apply fullReset_kept | with_reducible apply bootSequence_kept | with_reducible apply bootOn_kept))))
    | with_reducible rfl)

theorem setSpdm_kept {s0 s : State} {tr : SpdmTransport} {n : Nat} (hk : Kept s0 s) :
    Kept s0 (setSpdm tr n s) := by
  unfold setSpdm
  repeat' (first
    | with_reducible assumption
    | with_reducible apply spdm_kept
    | (with_reducible apply Kept.upd; on_goal 1 => (first | with_reducible assumption | with_reducible apply Kept.ite | with_reducible apply spdm_kept | with_reducible apply Kept.foldl | with_reducible apply Kept.forEach | (with_reducible apply Kept.upd; on_goal 1 => (first | with_reducible assumption | with_reducible apply spdm_kept))))
    | with_reducible rfl)

theorem spdmOut_kept {s0 s : State} {tr : SpdmTransport} {code : Nat} {body : List Byte} (hk : Kept s0 s) :
    Kept s0 (spdmOut tr code body s) := by
  unfold spdmOut
  repeat' (first | with_reducible assumption | with_reducible apply emit_kept)

theorem spdm_kept {s0 s : State} {tr : SpdmTransport} {need : Nat} {f : State → State} (hk : Kept s0 s) (hk_f : ∀ u, Kept s0 u → Kept s0 (f  u)) :
    Kept s0 (spdm tr need f s) := by
  unfold spdm
  repeat' (first
    | with_reducible assumption
    | with_reducible apply Kept.ite
    | with_reducible apply spdmOut_kept
    | apply hk_f)

theorem setJtag_kept {s0 s : State} {n : Nat} (hk : Kept s0 s) :
    Kept s0 (setJtag n s) := by
  unfold setJtag
  repeat' (first
    | with_reducible assumption
    | (with_reducible apply Kept.upd; on_goal 1 => (first | with_reducible assumption | with_reducible apply Kept.ite | with_reducible apply Kept.foldl | with_reducible apply Kept.forEach | (with_reducible apply Kept.upd; on_goal 1 => (first | with_reducible assumption))))
    | with_reducible rfl)

theorem bypassOut_kept {s0 s : State} {tdi : List Bool} (hk : Kept s0 s) :
    Kept s0 (bypassOut tdi s) := by
  unfold bypassOut
  repeat' (first
    | with_reducible assumption
    | with_reducible apply emit_kept
    | with_reducible apply setJtag_kept)

theorem jtagDrive_kept {s0 s : State} {tdi : List Bool} {f : State → State} (hk : Kept s0 s) (hk_f : ∀ u, Kept s0 u → Kept s0 (f  u)) :
    Kept s0 (jtagDrive tdi f s) := by
  unfold jtagDrive
  repeat' (first
    | with_reducible assumption
    | with_reducible apply Kept.ite
    | with_reducible apply bypassOut_kept
    | with_reducible apply refuseWrite_kept
    | apply hk_f)

theorem extest_kept {s0 s : State} {n : Nat} {cells : List Bool} (hk : Kept s0 s) :
    Kept s0 (extest n cells s) := by
  unfold extest
  repeat' (first
    | with_reducible assumption
    | with_reducible apply emit_kept
    | (with_reducible apply Kept.upd; on_goal 1 => (first | with_reducible assumption | with_reducible apply Kept.ite | with_reducible apply emit_kept | with_reducible apply Kept.foldl | with_reducible apply Kept.forEach | (with_reducible apply Kept.upd; on_goal 1 => (first | with_reducible assumption | with_reducible apply emit_kept))))
    | with_reducible rfl)


end Sys2Proof.Machine
end

