-- ==== Sys2Proof/Laws/KeptRun.lean ====
section
/-! SUPPORT. `Kept` of the operations of links, reduction, images and the run. -/

namespace Sys2Proof.Machine

open Sys2Proof

theorem addPath_kept {s0 s : State} {f : FailPath} (hk : Kept s0 s) :
    Kept s0 (addPath f s) := by
  unfold addPath
  repeat' (first
    | with_reducible assumption
    | (with_reducible apply Kept.upd; on_goal 1 => (first | with_reducible assumption | with_reducible apply Kept.ite | with_reducible apply Kept.foldl | with_reducible apply Kept.forEach | (with_reducible apply Kept.upd; on_goal 1 => (first | with_reducible assumption))))
    | with_reducible rfl)

theorem portFails_kept {s0 s : State} {p : Nat} (hk : Kept s0 s) :
    Kept s0 (portFails p s) := by
  unfold portFails
  repeat' (first
    | with_reducible assumption
    | with_reducible apply portDown_kept
    | with_reducible apply addPath_kept
    | (with_reducible apply Kept.upd; on_goal 1 => (first | with_reducible assumption | with_reducible apply Kept.ite | with_reducible apply portDown_kept | with_reducible apply addPath_kept | with_reducible apply Kept.foldl | with_reducible apply Kept.forEach | (with_reducible apply Kept.upd; on_goal 1 => (first | with_reducible assumption | with_reducible apply portDown_kept | with_reducible apply addPath_kept))))
    | with_reducible rfl)

theorem sendIdle_kept {s0 s : State} {p b : Nat} {nak : Bool} {hop cls count : Nat} (hk : Kept s0 s) :
    Kept s0 (sendIdle p b nak hop cls count s) := by
  unfold sendIdle
  repeat' (first | with_reducible assumption | with_reducible apply txFrame_kept)

theorem returnHop_kept {s0 s : State} {p b : Nat} {h : PktHdr} (hk : Kept s0 s) :
    Kept s0 (returnHop p b h s) := by
  unfold returnHop
  repeat' (first
    | with_reducible assumption
    | with_reducible apply Kept.ite
    | with_reducible apply sendIdle_kept)

theorem resendAll_kept {s0 s : State} {p b : Nat} (hk : Kept s0 s) :
    Kept s0 (resendAll p b s) := by
  unfold resendAll
  repeat' (first
    | with_reducible assumption
    | intro (x : State) hx
    | with_reducible apply txFrame_kept
    | with_reducible apply Kept.foldl
    | (lift_lets; intro x))

theorem replayFrames_kept {s0 s : State} {p b : Nat} (hk : Kept s0 s) :
    Kept s0 (replayFrames p b s) := by
  unfold replayFrames
  repeat' (first
    | with_reducible assumption
    | with_reducible apply Kept.ite
    | with_reducible apply bump_kept
    | with_reducible apply modPort_kept
    | with_reducible apply health_kept
    | with_reducible apply resendAll_kept)

theorem frameBad_kept {s0 s : State} {p b : Nat} (hk : Kept s0 s) :
    Kept s0 (frameBad p b s) := by
  unfold frameBad
  repeat' (first
    | with_reducible assumption
    | with_reducible apply Kept.ite
    | with_reducible apply portFails_kept
    | with_reducible apply sendIdle_kept
    | with_reducible apply modSub_kept)

theorem countFec_kept {s0 s : State} {p b : Nat} {corrected : List Nat} (hk : Kept s0 s) :
    Kept s0 (countFec p b corrected s) := by
  unfold countFec
  repeat' (first
    | with_reducible assumption
    | intro (x : State) hx
    | with_reducible apply Kept.ite
    | with_reducible apply health_kept
    | with_reducible apply lifeAdd_kept
    | with_reducible apply bump_kept
    | with_reducible apply modPort_kept
    | with_reducible apply Kept.foldl
    | (lift_lets; intro x))

theorem switchLanes_kept {s0 s : State} {p lane : Nat} (hk : Kept s0 s) :
    Kept s0 (switchLanes p lane s) := by
  unfold switchLanes
  repeat' (first
    | with_reducible assumption
    | with_reducible apply modPort_kept
    | with_reducible apply logEv_kept
    | with_reducible apply addPath_kept
    | with_reducible apply resendAll_kept)

theorem frameGood_kept {s0 s : State} {p b : Nat} {f : FrameHdr} (hk : Kept s0 s) :
    Kept s0 (frameGood p b f s) := by
  unfold frameGood
  repeat' (first
    | with_reducible assumption
    | with_reducible apply Kept.ite
    | with_reducible apply modSub_kept
    | with_reducible apply addHop_kept
    | with_reducible apply pump_kept
    | with_reducible apply replayFrames_kept
    | with_reducible apply switchLanes_kept
    | with_reducible apply sendIdle_kept
    | split)

theorem laneFails_kept {s0 s : State} {p lane : Nat} (hk : Kept s0 s) :
    Kept s0 (laneFails p lane s) := by
  unfold laneFails
  repeat' (first
    | with_reducible assumption
    | with_reducible apply Kept.ite
    | with_reducible apply bump_kept
    | with_reducible apply lifeAdd_kept
    | with_reducible apply portFails_kept
    | with_reducible apply modPort_kept
    | with_reducible apply emit_kept
    | with_reducible apply health_kept)

theorem limitLanes_kept {s0 s : State} {p : Nat} (hk : Kept s0 s) :
    Kept s0 (limitLanes p s) := by
  unfold limitLanes
  repeat' (first
    | with_reducible assumption
    | intro (x : State) hx
    | with_reducible apply Kept.ite
    | with_reducible apply laneFails_kept
    | with_reducible apply Kept.foldl
    | (lift_lets; intro x))

theorem frameReceived_kept {s0 s : State} {p b : Nat} {frame : List Byte} {unc : Bool} {corrected : List Nat} (hk : Kept s0 s) :
    Kept s0 (frameReceived p b frame unc corrected s) := by
  unfold frameReceived
  repeat' (first
    | with_reducible assumption
    | with_reducible apply Kept.ite
    | with_reducible apply limitLanes_kept
    | with_reducible apply countFec_kept
    | with_reducible apply bump_kept
    | with_reducible apply frameBad_kept
    | with_reducible apply frameGood_kept)

theorem laneDrop_kept {s0 s : State} {p lane : Nat} (hk : Kept s0 s) :
    Kept s0 (laneDrop p lane s) := by
  unfold laneDrop
  repeat' (first
    | with_reducible assumption
    | with_reducible apply Kept.ite
    | with_reducible apply portFails_kept
    | with_reducible apply switchLanes_kept)

theorem dropTimeout_kept {s0 s : State} {p : Nat} (hk : Kept s0 s) :
    Kept s0 (dropTimeout p s) := by
  unfold dropTimeout
  repeat' (first
    | with_reducible assumption
    | with_reducible apply Kept.ite
    | with_reducible apply portTrain_kept
    | with_reducible apply portFails_kept
    | with_reducible apply modPort_kept)

theorem portTrained_kept {s0 s : State} {p b : Nat} {peer : PeerId} {latency lanes : Nat} (hk : Kept s0 s) :
    Kept s0 (portTrained p b peer latency lanes s) := by
  unfold portTrained
  repeat' (first
    | with_reducible assumption
    | with_reducible apply Kept.ite
    | with_reducible apply modSub_kept
    | with_reducible apply emit_kept)

theorem badPacket_kept {s0 s : State} {p h : Nat} (hk : Kept s0 s) :
    Kept s0 (badPacket p h s) := by
  unfold badPacket
  repeat' (first
    | with_reducible assumption
    | with_reducible apply logEv_kept
    | with_reducible apply bump_kept)

theorem forward_kept {s0 s : State} {p b : Nat} {h : PktHdr} {body : List Byte} (hk : Kept s0 s) :
    Kept s0 (forward p b h body s) := by
  unfold forward
  repeat' (first
    | with_reducible assumption
    | with_reducible apply Kept.ite
    | with_reducible apply badPacket_kept
    | with_reducible apply returnHop_kept
    | with_reducible apply sendTo_kept)

theorem arrive_kept {s0 s : State} {cls kind p b hdr : Nat} {body : List Byte} {f : PktHdr → State → State} (hk : Kept s0 s) (hk_f : ∀ u, Kept s0 u → ∀ y0, Kept s0 (f y0 u)) :
    Kept s0 (arrive cls kind p b hdr body f s) := by
  unfold arrive
  repeat' (first
    | with_reducible assumption
    | with_reducible apply badPacket_kept
    | with_reducible apply forward_kept
    | with_reducible apply returnHop_kept
    | with_reducible apply bump_kept
    | apply hk_f
    | (with_reducible apply Kept.upd; on_goal 1 => (first | with_reducible assumption | with_reducible apply Kept.ite | with_reducible apply badPacket_kept | with_reducible apply forward_kept | with_reducible apply returnHop_kept | with_reducible apply bump_kept | with_reducible apply Kept.foldl | with_reducible apply Kept.forEach | (with_reducible apply Kept.upd; on_goal 1 => (first | with_reducible assumption | with_reducible apply badPacket_kept | with_reducible apply forward_kept | with_reducible apply returnHop_kept | with_reducible apply bump_kept))))
    | with_reducible rfl)

theorem packetForward_kept {s0 s : State} {p b hdr : Nat} {body : List Byte} (hk : Kept s0 s) :
    Kept s0 (packetForward p b hdr body s) := by
  unfold packetForward
  repeat' (first
    | with_reducible assumption
    | with_reducible apply Kept.ite
    | with_reducible apply badPacket_kept
    | with_reducible apply forward_kept)


end Sys2Proof.Machine

namespace Sys2Proof.Machine

open Sys2Proof

theorem writeBlk_kept {s0 s : State} {a : Nat} {k : AccBlk} (hk : Kept s0 s) :
    Kept s0 (writeBlk a k s) := by
  unfold writeBlk
  repeat' (first | with_reducible assumption | with_reducible apply memWrite_kept)

theorem clearBlk_kept {s0 s : State} {a : Nat} (hk : Kept s0 s) :
    Kept s0 (clearBlk a s) := by
  unfold clearBlk
  repeat' (first | with_reducible assumption | with_reducible apply writeBlk_kept)

theorem clearRegion_kept {s0 s : State} {i : Nat} {r : Region} (hk : Kept s0 s) :
    Kept s0 (clearRegion i r s) := by
  unfold clearRegion
  repeat' (first
    | with_reducible assumption
    | intro (x : State) hx
    | with_reducible apply modRegion_kept
    | with_reducible apply clearBlk_kept
    | with_reducible apply Kept.foldl
    | (lift_lets; intro x))

theorem countAdder_kept {s0 s : State} {a : Nat} (hk : Kept s0 s) :
    Kept s0 (countAdder a s) := by
  unfold countAdder
  repeat' (first
    | with_reducible assumption
    | with_reducible apply bump_kept
    | split)

theorem addEntry_kept {s0 s : State} {i : Nat} {r : Region} {fp8 : Bool} {b : Nat} {e : Entry} (hk : Kept s0 s) :
    Kept s0 (addEntry i r fp8 b e s) := by
  unfold addEntry
  repeat' (first
    | with_reducible assumption
    | with_reducible apply bump_kept
    | with_reducible apply countAdder_kept
    | with_reducible apply modRegion_kept
    | with_reducible apply writeBlk_kept
    | (with_reducible apply Kept.upd; on_goal 1 => (first | with_reducible assumption | with_reducible apply Kept.ite | with_reducible apply bump_kept | with_reducible apply countAdder_kept | with_reducible apply modRegion_kept | with_reducible apply writeBlk_kept | with_reducible apply Kept.foldl | with_reducible apply Kept.forEach | (with_reducible apply Kept.upd; on_goal 1 => (first | with_reducible assumption | with_reducible apply bump_kept | with_reducible apply countAdder_kept | with_reducible apply modRegion_kept | with_reducible apply writeBlk_kept))))
    | with_reducible rfl)

theorem pumpFlow_kept {s0 : State} {f : Nat} (n : Nat) : ∀ {s : State}, Kept s0 s → Kept s0 (pumpFlow f n s) := by
  induction n with
  | zero => intro s hk; exact hk
  | succ n ih =>
    intro s hk
    unfold pumpFlow
    repeat' (first
      | with_reducible assumption
      | with_reducible apply sendTo_kept
      | with_reducible apply creditAdd_kept
      | apply ih
      | (with_reducible apply Kept.upd; on_goal 1 => (first | with_reducible assumption | with_reducible apply Kept.ite | with_reducible apply sendTo_kept | with_reducible apply creditAdd_kept | with_reducible apply Kept.foldl | with_reducible apply Kept.forEach | (with_reducible apply Kept.upd; on_goal 1 => (first | with_reducible assumption | with_reducible apply sendTo_kept | with_reducible apply creditAdd_kept))))
      | (show _ = _; rfl)
      | split)

theorem sendReduce_kept {s0 s : State} {f kind : Nat} {pkts : List (Nat × List Byte)} (hk : Kept s0 s) :
    Kept s0 (sendReduce f kind pkts s) := by
  unfold sendReduce
  repeat' (first
    | with_reducible assumption
    | with_reducible apply pumpFlow_kept
    | (with_reducible apply Kept.upd; on_goal 1 => (first | with_reducible assumption | with_reducible apply Kept.ite | with_reducible apply pumpFlow_kept | with_reducible apply Kept.foldl | with_reducible apply Kept.forEach | (with_reducible apply Kept.upd; on_goal 1 => (first | with_reducible assumption | with_reducible apply pumpFlow_kept))))
    | with_reducible rfl)

theorem sendEntries_kept {s0 s : State} {r : Region} {blocks : List Nat} {resend : Bool} (hk : Kept s0 s) :
    Kept s0 (sendEntries r blocks resend s) := by
  unfold sendEntries
  repeat' (first | with_reducible assumption | with_reducible apply sendReduce_kept)

theorem addOwn_kept {s0 s : State} {i : Nat} {r : Region} {blocks : List Nat} {resend : Bool} (hk : Kept s0 s) :
    Kept s0 (addOwn i r blocks resend s) := by
  unfold addOwn
  repeat' (first
    | with_reducible assumption
    | intro (x : State) hx
    | with_reducible apply Kept.ite
    | with_reducible apply addEntry_kept
    | with_reducible apply Kept.foldl
    | (lift_lets; intro x))

theorem dropEntries_kept {s0 s : State}  (hk : Kept s0 s) :
    Kept s0 (dropEntries  s) := by
  unfold dropEntries
  repeat' (first
    | with_reducible assumption
    | (with_reducible apply Kept.upd; on_goal 1 => (first | with_reducible assumption | with_reducible apply Kept.ite | with_reducible apply Kept.foldl | with_reducible apply Kept.forEach | (with_reducible apply Kept.upd; on_goal 1 => (first | with_reducible assumption))))
    | with_reducible rfl)

theorem runPass_kept {s0 s : State} {resend : Bool} (hk : Kept s0 s) :
    Kept s0 (runPass resend s) := by
  unfold runPass
  repeat' (first
    | with_reducible assumption
    | with_reducible apply dropEntries_kept
    | with_reducible apply addOwn_kept
    | with_reducible apply clearRegion_kept
    | with_reducible apply sendEntries_kept
    | (with_reducible apply Kept.upd; on_goal 1 => (first | with_reducible assumption | with_reducible apply Kept.ite | with_reducible apply dropEntries_kept | with_reducible apply addOwn_kept | with_reducible apply clearRegion_kept | with_reducible apply sendEntries_kept | with_reducible apply Kept.foldl | with_reducible apply Kept.forEach | (with_reducible apply Kept.upd; on_goal 1 => (first | with_reducible assumption | with_reducible apply dropEntries_kept | with_reducible apply addOwn_kept | with_reducible apply clearRegion_kept | with_reducible apply sendEntries_kept))))
    | (show _ = _; rfl)
    | intro x
    | split)

theorem rereduce_kept {s0 s : State} {i : Nat} {r : Region} {b : Nat} (hk : Kept s0 s) :
    Kept s0 (rereduce i r b s) := by
  unfold rereduce
  repeat' (first
    | with_reducible assumption
    | intro (x : State) hx
    | with_reducible apply modRegion_kept
    | with_reducible apply writeBlk_kept
    | with_reducible apply sendReduce_kept
    | with_reducible apply addOwn_kept
    | (with_reducible apply Kept.upd; on_goal 1 => (first | with_reducible assumption | with_reducible apply Kept.ite | with_reducible apply modRegion_kept | with_reducible apply writeBlk_kept | with_reducible apply sendReduce_kept | with_reducible apply addOwn_kept | with_reducible apply Kept.foldl | with_reducible apply Kept.forEach | (with_reducible apply Kept.upd; on_goal 1 => (first | with_reducible assumption | with_reducible apply modRegion_kept | with_reducible apply writeBlk_kept | with_reducible apply sendReduce_kept | with_reducible apply addOwn_kept))))
    | (show _ = _; rfl)
    | (lift_lets; intro x))

theorem settleBlk_kept {s0 : State} {i : Nat} {r : Region} {b : Nat} (n : Nat) : ∀ {s : State}, Kept s0 s → Kept s0 (settleBlk i r b n s) := by
  induction n with
  | zero => intro s hk; exact hk
  | succ n ih =>
    intro s hk
    unfold settleBlk
    repeat' (first
      | with_reducible assumption
      | with_reducible apply rereduce_kept
      | apply ih
      | (with_reducible apply Kept.upd; on_goal 1 => (first | with_reducible assumption | with_reducible apply Kept.ite | with_reducible apply rereduce_kept | with_reducible apply Kept.foldl | with_reducible apply Kept.forEach | (with_reducible apply Kept.upd; on_goal 1 => (first | with_reducible assumption | with_reducible apply rereduce_kept))))
      | (show _ = _; rfl))

theorem startRereduce_kept {s0 s : State}  (hk : Kept s0 s) :
    Kept s0 (startRereduce  s) := by
  unfold startRereduce
  repeat' (first
    | with_reducible assumption
    | intro (x : State) hx
    | with_reducible apply settleBlk_kept
    | with_reducible apply rereduce_kept
    | (with_reducible apply Kept.upd; on_goal 1 => (first | with_reducible assumption | with_reducible apply Kept.ite | with_reducible apply settleBlk_kept | with_reducible apply rereduce_kept | with_reducible apply Kept.foldl | with_reducible apply Kept.forEach | (with_reducible apply Kept.upd; on_goal 1 => (first | with_reducible assumption | with_reducible apply settleBlk_kept | with_reducible apply rereduce_kept))))
    | (show _ = _; rfl)
    | (lift_lets; intro x))

theorem loseDevice_kept {s0 s : State} {pos cause : Nat} (hk : Kept s0 s) :
    Kept s0 (loseDevice pos cause s) := by
  unfold loseDevice
  repeat' (first
    | with_reducible assumption
    | with_reducible apply logEv_kept
    | (with_reducible apply Kept.upd; on_goal 1 => (first | with_reducible assumption | with_reducible apply Kept.ite | with_reducible apply logEv_kept | with_reducible apply Kept.foldl | with_reducible apply Kept.forEach | (with_reducible apply Kept.upd; on_goal 1 => (first | with_reducible assumption | with_reducible apply logEv_kept))))
    | with_reducible rfl)

theorem logSamples_kept {s0 s : State}  (hk : Kept s0 s) :
    Kept s0 (logSamples  s) := by
  unfold logSamples
  repeat' (first
    | with_reducible assumption
    | intro (x : State) hx
    | with_reducible apply Kept.ite
    | with_reducible apply logEv_kept
    | with_reducible apply Kept.foldl
    | (lift_lets; intro x))

theorem excludeOne_kept {s0 s : State} {cause : Nat} {c : Nat} (hk : Kept s0 s) :
    Kept s0 (excludeOne cause c s) := by
  unfold excludeOne
  repeat' (first
    | with_reducible assumption
    | with_reducible apply logEv_kept
    | with_reducible apply bump_kept
    | with_reducible apply logSamples_kept
    | (with_reducible apply Kept.upd; on_goal 1 => (first | with_reducible assumption | with_reducible apply Kept.ite | with_reducible apply logEv_kept | with_reducible apply bump_kept | with_reducible apply logSamples_kept | with_reducible apply Kept.foldl | with_reducible apply Kept.forEach | (with_reducible apply Kept.upd; on_goal 1 => (first | with_reducible assumption | with_reducible apply logEv_kept | with_reducible apply bump_kept | with_reducible apply logSamples_kept))))
    | with_reducible rfl)

theorem recordMissing_kept {s0 s : State} {m : Nat} (hk : Kept s0 s) :
    Kept s0 (recordMissing m s) := by
  unfold recordMissing
  repeat' (first
    | with_reducible assumption
    | intro (x : State) hx
    | with_reducible apply takeTimed_kept
    | with_reducible apply loseDevice_kept
    | with_reducible apply logEv_kept
    | with_reducible apply Kept.foldl
    | (lift_lets; intro x))

theorem skipStep_kept {s0 s : State}  (hk : Kept s0 s) :
    Kept s0 (skipStep  s) := by
  unfold skipStep
  repeat' (first
    | with_reducible assumption
    | with_reducible apply dropEntries_kept
    | (with_reducible apply Kept.upd; on_goal 1 => (first | with_reducible assumption | with_reducible apply Kept.ite | with_reducible apply dropEntries_kept | with_reducible apply Kept.foldl | with_reducible apply Kept.forEach | (with_reducible apply Kept.upd; on_goal 1 => (first | with_reducible assumption | with_reducible apply dropEntries_kept))))
    | with_reducible rfl)

theorem redDecide_kept {s0 s : State}  (hk : Kept s0 s) :
    Kept s0 (redDecide  s) := by
  unfold redDecide
  repeat' (first
    | with_reducible assumption
    | with_reducible apply recordMissing_kept
    | with_reducible apply skipStep_kept
    | with_reducible apply excludeOne_kept
    | with_reducible apply runPass_kept
    | with_reducible apply startRereduce_kept
    | (with_reducible apply Kept.upd; on_goal 1 => (first | with_reducible assumption | with_reducible apply Kept.ite | with_reducible apply recordMissing_kept | with_reducible apply skipStep_kept | with_reducible apply excludeOne_kept | with_reducible apply runPass_kept | with_reducible apply startRereduce_kept | with_reducible apply Kept.foldl | with_reducible apply Kept.forEach | (with_reducible apply Kept.upd; on_goal 1 => (first | with_reducible assumption | with_reducible apply recordMissing_kept | with_reducible apply skipStep_kept | with_reducible apply excludeOne_kept | with_reducible apply runPass_kept | with_reducible apply startRereduce_kept))))
    | (show _ = _; rfl)
    | intro x
    | split)

theorem redResult_kept {s0 : State} (n : Nat) : ∀ {id acc : Nat} {s : State}, Kept s0 s → Kept s0 (redResult n id acc s) := by
  induction n with
  | zero => intro id acc s hk; exact hk
  | succ n ih =>
    intro id acc s hk
    have hr : ∀ u : State, Kept s0 u → ∀ r : RedSt, Kept s0 { u with red := r } := fun u h r => h
    have ho : ∀ (u : State) (i v : Nat), Kept s0 u → Kept s0 (ctlOwn (redResult n i) i v u) :=
      fun u i v h => ctlOwn_kept h fun w hw y => ih hw
    unfold redResult
    generalize (2 : Nat) ^ 4096 - 1 = M
    dsimp only
    refine Kept.ite hk (Kept.ite (Kept.ite hk (Kept.ite ?_ (Kept.ite (ho _ _ _ (hr _ hk _)) hk)))
      (Kept.ite (Kept.ite (hr _ hk _) ?_) (Kept.ite (Kept.ite (hr _ hk _) hk) hk)))
    · exact ho _ _ _ (ho _ _ _ (ho _ _ _ (hr _ hk _)))
    · have h := redDecide_kept (hr _ hk { s.red with
        missing := if id = ctlMissing then [acc] else s.red.missing,
        nfSet := if id = ctlNonfinite then [acc] else s.red.nfSet,
        ovf := if id = ctlOvf then acc % 2 == 1 else s.red.ovf, got := insertNat id s.red.got })
      exact Kept.ite (Kept.ite (ho _ _ _ (startRereduce_kept h)) (startRereduce_kept h)) (Kept.ite (ho _ _ _ h) h)

theorem redCheck_kept {s0 s : State}  (hk : Kept s0 s) :
    Kept s0 (redCheck  s) := by
  unfold redCheck
  repeat' (first
    | with_reducible assumption
    | intro (x : State) hx
    | with_reducible apply Kept.ite
    | with_reducible apply startRereduce_kept
    | with_reducible apply ctlOwn_kept
    | with_reducible apply redResult_kept
    | (lift_lets; intro x))

theorem startReduction_kept {s0 s : State}  (hk : Kept s0 s) :
    Kept s0 (startReduction  s) := by
  unfold startReduction
  repeat' (first
    | with_reducible assumption
    | with_reducible apply redCheck_kept
    | with_reducible apply runPass_kept
    | (with_reducible apply Kept.upd; on_goal 1 => (first | with_reducible assumption | with_reducible apply Kept.ite | with_reducible apply redCheck_kept | with_reducible apply runPass_kept | with_reducible apply Kept.foldl | with_reducible apply Kept.forEach | (with_reducible apply Kept.upd; on_goal 1 => (first | with_reducible assumption | with_reducible apply redCheck_kept | with_reducible apply runPass_kept))))
    | with_reducible rfl)

theorem reductionDeadline_kept {s0 s : State}  (hk : Kept s0 s) :
    Kept s0 (reductionDeadline  s) := by
  unfold reductionDeadline
  repeat' (first
    | with_reducible assumption
    | intro (x : State) hx
    | with_reducible apply ctlClear_kept
    | with_reducible apply ctlOwn_kept
    | with_reducible apply redResult_kept
    | (with_reducible apply Kept.upd; on_goal 1 => (first | with_reducible assumption | with_reducible apply Kept.ite | with_reducible apply ctlClear_kept | with_reducible apply ctlOwn_kept | with_reducible apply redResult_kept | with_reducible apply Kept.foldl | with_reducible apply Kept.forEach | (with_reducible apply Kept.upd; on_goal 1 => (first | with_reducible assumption | with_reducible apply ctlClear_kept | with_reducible apply ctlOwn_kept | with_reducible apply redResult_kept))))
    | (show _ = _; rfl)
    | (lift_lets; intro x))

theorem findScale_kept {s0 s : State} {i : Nat} {r : Region} {b : Nat} (hk : Kept s0 s) :
    Kept s0 (findScale i r b s) := by
  unfold findScale
  repeat' (first
    | with_reducible assumption
    | intro (x : State) hx
    | with_reducible apply Kept.ite
    | with_reducible apply writeBlk_kept
    | with_reducible apply sendReduce_kept
    | with_reducible apply Kept.foldl
    | (lift_lets; intro x))

theorem startScaleFind_kept {s0 s : State}  (hk : Kept s0 s) :
    Kept s0 (startScaleFind  s) := by
  unfold startScaleFind
  repeat' (first
    | with_reducible assumption
    | with_reducible apply logEv_kept
    | with_reducible apply findScale_kept
    | with_reducible apply sendReduce_kept
    | with_reducible apply ctlOwn_kept
    | with_reducible apply redResult_kept
    | (with_reducible apply Kept.upd; on_goal 1 => (first | with_reducible assumption | with_reducible apply Kept.ite | with_reducible apply logEv_kept | with_reducible apply findScale_kept | with_reducible apply sendReduce_kept | with_reducible apply ctlOwn_kept | with_reducible apply redResult_kept | with_reducible apply Kept.foldl | with_reducible apply Kept.forEach | (with_reducible apply Kept.upd; on_goal 1 => (first | with_reducible assumption | with_reducible apply logEv_kept | with_reducible apply findScale_kept | with_reducible apply sendReduce_kept | with_reducible apply ctlOwn_kept | with_reducible apply redResult_kept))))
    | (show _ = _; rfl)
    | intro x
    | split)

theorem scaleCheck_kept {s0 s : State}  (hk : Kept s0 s) :
    Kept s0 (scaleCheck  s) := by
  unfold scaleCheck
  repeat' (first
    | with_reducible assumption
    | intro (x : State) hx
    | with_reducible apply Kept.ite
    | with_reducible apply ctlOwn_kept
    | with_reducible apply redResult_kept
    | (lift_lets; intro x))

theorem takeScales_kept {s0 s : State}  (hk : Kept s0 s) :
    Kept s0 (takeScales  s) := by
  unfold takeScales
  repeat' (first
    | with_reducible assumption
    | intro (x : State) hx
    | with_reducible apply Kept.ite
    | with_reducible apply writeBlk_kept
    | with_reducible apply Kept.foldl
    | (lift_lets; intro x))

theorem returnCredit_kept {s0 s : State} {h : PktHdr} (hk : Kept s0 s) :
    Kept s0 (returnCredit h s) := by
  unfold returnCredit
  repeat' (first | with_reducible assumption | with_reducible apply sendTo_kept)

theorem raPacket_kept {s0 s : State} {fp8 : Bool} {h : PktHdr} {body : List Byte} (hk : Kept s0 s) :
    Kept s0 (raPacket fp8 h body s) := by
  unfold raPacket
  repeat' (first
    | with_reducible assumption
    | with_reducible apply returnCredit_kept
    | with_reducible apply bump_kept
    | with_reducible apply settleBlk_kept
    | with_reducible apply addEntry_kept
    | with_reducible apply redCheck_kept
    | with_reducible apply Kept.foldl
    | intro x
    | split)

theorem hearEmax_kept {s0 s : State} {i : Nat} {r : Region} {who b x : Nat} (hk : Kept s0 s) :
    Kept s0 (hearEmax i r who b x s) := by
  unfold hearEmax
  repeat' (first
    | with_reducible assumption
    | with_reducible apply findScale_kept
    | (with_reducible apply Kept.upd; on_goal 1 => (first | with_reducible assumption | with_reducible apply Kept.ite | with_reducible apply findScale_kept | with_reducible apply Kept.foldl | with_reducible apply Kept.forEach | (with_reducible apply Kept.upd; on_goal 1 => (first | with_reducible assumption | with_reducible apply findScale_kept))))
    | with_reducible rfl)

theorem scaleUp_kept {s0 s : State} {h : PktHdr} {body : List Byte} (hk : Kept s0 s) :
    Kept s0 (scaleUp h body s) := by
  unfold scaleUp
  repeat' (first
    | with_reducible assumption
    | with_reducible apply hearEmax_kept
    | with_reducible apply scaleCheck_kept
    | with_reducible apply returnCredit_kept
    | with_reducible apply Kept.foldl
    | intro x
    | split)

theorem newScales_kept {s0 s : State} {i : Nat} {r : Region} {bs : List Nat} (hk : Kept s0 s) :
    Kept s0 (newScales i r bs s) := by
  unfold newScales
  repeat' (first
    | with_reducible assumption
    | with_reducible apply scaleCheck_kept
    | with_reducible apply sendEntries_kept
    | (with_reducible apply Kept.upd; on_goal 1 => (first | with_reducible assumption | with_reducible apply Kept.ite | with_reducible apply scaleCheck_kept | with_reducible apply sendEntries_kept | with_reducible apply Kept.foldl | with_reducible apply Kept.forEach | (with_reducible apply Kept.upd; on_goal 1 => (first | with_reducible assumption | with_reducible apply scaleCheck_kept | with_reducible apply sendEntries_kept))))
    | with_reducible rfl)

theorem scaleDown_kept {s0 s : State} {h : PktHdr} {body : List Byte} (hk : Kept s0 s) :
    Kept s0 (scaleDown h body s) := by
  unfold scaleDown
  repeat' (first
    | with_reducible assumption
    | with_reducible apply newScales_kept
    | with_reducible apply memWrite_kept
    | with_reducible apply returnCredit_kept
    | split)


end Sys2Proof.Machine

namespace Sys2Proof.Machine

open Sys2Proof

theorem writeRanges_kept {s0 s : State} {l : List (Nat × Nat)} {b : List Byte} (hk : Kept s0 s) :
    Kept s0 (writeRanges l b s) := by
  induction l generalizing b s with
  | nil => exact hk
  | cons x t ih => exact ih (memStore_kept hk)

theorem loadInput_kept {s0 s : State} {d : List Byte} (hk : Kept s0 s) :
    Kept s0 (loadInput d s) := by
  unfold loadInput
  repeat' (first
    | with_reducible assumption
    | (with_reducible apply Kept.upd; on_goal 1 => (first | with_reducible assumption | with_reducible apply Kept.ite | with_reducible apply Kept.foldl | with_reducible apply Kept.forEach | (with_reducible apply Kept.upd; on_goal 1 => (first | with_reducible assumption))))
    | with_reducible rfl)

theorem loadImage_kept {s0 s : State} {pk : Pkg} {d : List Byte} (hk : Kept s0 s) : Kept s0 (loadImage pk d s) := by
  have h1 := writeRanges_kept (l := momentRanges s) (b := imgSection d 2)
    (writeRanges_kept (l := weightRanges s) (b := imgSection d 1) hk)
  unfold loadImage
  dsimp only
  generalize writeRanges (momentRanges s) _ (writeRanges (weightRanges s) _ s) = u at *
  have h2 : Kept s0 (if imgSectionOk d 4 then writeRanges (scaleRanges u) (imgSection d 4) u else u) :=
    Kept.ite (writeRanges_kept h1) h1
  generalize (if imgSectionOk d 4 = true then writeRanges (scaleRanges u) (imgSection d 4) u else u) = v at *
  have h3 := writeRanges_kept (l := (planOf v (kindPlanes [2])).map fun x => (otherCopy v x.1, x.2))
    (b := slice (imgSection d 8) 4 (leAt (imgSection d 8) 0 4)) h2
  generalize writeRanges ((planOf v (kindPlanes [2])).map fun x => (otherCopy v x.1, x.2))
    (slice (imgSection d 8) 4 (leAt (imgSection d 8) 0 4)) v = z at *
  exact h3


end Sys2Proof.Machine

namespace Sys2Proof.Machine

open Sys2Proof

theorem issueSync_kept {s0 s : State} {op : Nat} {fields : List (Nat × Nat)} {extra : State → List Nat} {body : State → State} {c : CoreId} {t : ThreadId} {w : InstrWord} (hk : Kept s0 s) (hk_body : ∀ u, Kept s0 u → Kept s0 (body  u)) :
    Kept s0 (issueSync op fields extra body c t w s) := by
  unfold issueSync
  repeat' (first | with_reducible assumption | with_reducible apply issue_kept)

theorem setCounter_kept {s0 s : State} {c k v : Nat} (hk : Kept s0 s) :
    Kept s0 (setCounter c k v s) := by
  unfold setCounter
  repeat' (first
    | with_reducible assumption
    | with_reducible apply wakeCore_kept
    | with_reducible apply modCore_kept)

theorem releaseOvfx_kept {s0 s : State} {inst res : Nat} {rungs : Nat × Nat × Nat} (hk : Kept s0 s) :
    Kept s0 (releaseOvfx inst res rungs s) := by
  unfold releaseOvfx
  repeat' (first
    | with_reducible assumption
    | intro (x : State) hx
    | with_reducible apply Kept.ite
    | with_reducible apply modThread_kept
    | with_reducible apply setS_kept
    | with_reducible apply modOvf_kept
    | with_reducible apply traceRec_kept
    | with_reducible apply Kept.foldl
    | (lift_lets; intro x))

theorem logRepeat_kept {s0 s : State} {layer mb dir : Nat} {rungs : Nat × Nat × Nat} {outcome : Nat} (hk : Kept s0 s) :
    Kept s0 (logRepeat layer mb dir rungs outcome s) := by
  unfold logRepeat
  repeat' (first | with_reducible assumption | with_reducible apply logEv_kept)

theorem flagLayer_kept {s0 s : State} {layer : Nat} (hk : Kept s0 s) :
    Kept s0 (flagLayer layer s) := by
  unfold flagLayer
  repeat' (first
    | with_reducible assumption
    | with_reducible apply attn_kept
    | with_reducible apply logEv_kept
    | with_reducible apply bump_kept
    | (with_reducible apply Kept.upd; on_goal 1 => (first | with_reducible assumption | with_reducible apply Kept.ite | with_reducible apply attn_kept | with_reducible apply logEv_kept | with_reducible apply bump_kept | with_reducible apply Kept.foldl | with_reducible apply Kept.forEach | (with_reducible apply Kept.upd; on_goal 1 => (first | with_reducible assumption | with_reducible apply attn_kept | with_reducible apply logEv_kept | with_reducible apply bump_kept))))
    | with_reducible rfl)

theorem noteOver_kept {s0 s : State} {layer : Nat} (hk : Kept s0 s) :
    Kept s0 (noteOver layer s) := by
  unfold noteOver
  repeat' (first
    | with_reducible assumption
    | (with_reducible apply Kept.upd; on_goal 1 => (first | with_reducible assumption | with_reducible apply Kept.ite | with_reducible apply Kept.foldl | with_reducible apply Kept.forEach | (with_reducible apply Kept.upd; on_goal 1 => (first | with_reducible assumption))))
    | with_reducible rfl)

theorem instanceResult_kept {s0 s : State} {inst acc : Nat} (hk : Kept s0 s) :
    Kept s0 (instanceResult inst acc s) := by
  unfold instanceResult
  repeat' (first
    | with_reducible assumption
    | with_reducible apply releaseOvfx_kept
    | with_reducible apply flagLayer_kept
    | with_reducible apply bump_kept
    | with_reducible apply logRepeat_kept
    | with_reducible apply noteOver_kept
    | with_reducible apply attn_kept
    | with_reducible apply lifeAdd_kept
    | (with_reducible apply Kept.upd; on_goal 1 => (first | with_reducible assumption | with_reducible apply Kept.ite | with_reducible apply releaseOvfx_kept | with_reducible apply flagLayer_kept | with_reducible apply bump_kept | with_reducible apply logRepeat_kept | with_reducible apply noteOver_kept | with_reducible apply attn_kept | with_reducible apply lifeAdd_kept | with_reducible apply Kept.foldl | with_reducible apply Kept.forEach | (with_reducible apply Kept.upd; on_goal 1 => (first | with_reducible assumption | with_reducible apply releaseOvfx_kept | with_reducible apply flagLayer_kept | with_reducible apply bump_kept | with_reducible apply logRepeat_kept | with_reducible apply noteOver_kept | with_reducible apply attn_kept | with_reducible apply lifeAdd_kept))))
    | (show _ = _; rfl)
    | (lift_lets; intro x)
    | split)

theorem ovfxBody_kept {s0 s : State} {c t inst sreg : Nat} (hk : Kept s0 s) :
    Kept s0 (ovfxBody c t inst sreg s) := by
  unfold ovfxBody
  repeat' (first
    | with_reducible assumption
    | intro (x : State) hx
    | with_reducible apply Kept.ite
    | with_reducible apply modThread_kept
    | with_reducible apply modOvf_kept
    | with_reducible apply ctlMod_kept
    | with_reducible apply ctlOwn_kept
    | with_reducible apply instanceResult_kept
    | (lift_lets; intro x))


end Sys2Proof.Machine

namespace Sys2Proof.Machine

open Sys2Proof

theorem enterThread_kept {s0 s : State} {x : ThreadEntry} (hk : Kept s0 s) :
    Kept s0 (enterThread x s) := by
  unfold enterThread
  repeat' (first
    | with_reducible assumption
    | with_reducible apply Kept.ite
    | with_reducible apply setReg_kept
    | with_reducible apply modThread_kept)

theorem enterThreads_kept {s0 s : State}  (hk : Kept s0 s) :
    Kept s0 (enterThreads  s) := by
  unfold enterThreads
  repeat' (first
    | with_reducible assumption
    | with_reducible apply setReg_kept
    | with_reducible apply enterThread_kept
    | (with_reducible apply Kept.upd; on_goal 1 => (first | with_reducible assumption | with_reducible apply Kept.ite | with_reducible apply setReg_kept | with_reducible apply enterThread_kept | with_reducible apply Kept.foldl | with_reducible apply Kept.forEach | (with_reducible apply Kept.upd; on_goal 1 => (first | with_reducible assumption | with_reducible apply setReg_kept | with_reducible apply enterThread_kept))))
    | (show _ = _; rfl)
    | intro x
    | split)

theorem stepThread_kept {s0 s : State} {x : ThreadEntry} (hk : Kept s0 s) :
    Kept s0 (stepThread x s) := by
  unfold stepThread
  repeat' (first
    | with_reducible assumption
    | with_reducible apply setS_kept
    | with_reducible apply setReg_kept
    | with_reducible apply Kept.foldl
    | intro x
    | split)

theorem stepThreads_kept {s0 s : State}  (hk : Kept s0 s) :
    Kept s0 (stepThreads  s) := by
  unfold stepThreads
  repeat' (first
    | with_reducible assumption
    | with_reducible apply stepThread_kept
    | with_reducible apply Kept.forEach
    | intro x
    | split)

theorem stopThreads_kept {s0 s : State}  (hk : Kept s0 s) :
    Kept s0 (stopThreads  s) := by
  unfold stopThreads
  repeat' (first
    | with_reducible assumption
    | (with_reducible apply Kept.upd; on_goal 1 => (first | with_reducible assumption | with_reducible apply Kept.ite | with_reducible apply Kept.foldl | with_reducible apply Kept.forEach | (with_reducible apply Kept.upd; on_goal 1 => (first | with_reducible assumption))))
    | with_reducible rfl)

theorem setPhase_kept {s0 s : State} {p : Phase} (hk : Kept s0 s) :
    Kept s0 (setPhase p s) := by
  unfold setPhase
  repeat' (first
    | with_reducible assumption
    | (with_reducible apply Kept.upd; on_goal 1 => (first | with_reducible assumption | with_reducible apply Kept.ite | with_reducible apply Kept.foldl | with_reducible apply Kept.forEach | (with_reducible apply Kept.upd; on_goal 1 => (first | with_reducible assumption))))
    | with_reducible rfl)

theorem slotsEnter_kept {s0 s : State} {n : Nat} (hk : Kept s0 s) :
    Kept s0 (slotsEnter n s) := by
  unfold slotsEnter
  repeat' (first
    | with_reducible assumption
    | (with_reducible apply Kept.upd; on_goal 1 => (first | with_reducible assumption | with_reducible apply Kept.ite | with_reducible apply Kept.foldl | with_reducible apply Kept.forEach | (with_reducible apply Kept.upd; on_goal 1 => (first | with_reducible assumption))))
    | with_reducible rfl)

theorem beginStep_kept {s0 s : State}  (hk : Kept s0 s) :
    Kept s0 (beginStep  s) := by
  unfold beginStep
  repeat' (first
    | with_reducible assumption
    | with_reducible apply slotsEnter_kept
    | with_reducible apply setPhase_kept
    | with_reducible apply settle_kept
    | with_reducible apply stepThreads_kept
    | with_reducible apply enterThreads_kept
    | (with_reducible apply Kept.upd; on_goal 1 => (first | with_reducible assumption | with_reducible apply Kept.ite | with_reducible apply slotsEnter_kept | with_reducible apply setPhase_kept | with_reducible apply settle_kept | with_reducible apply stepThreads_kept | with_reducible apply enterThreads_kept | with_reducible apply Kept.foldl | with_reducible apply Kept.forEach | (with_reducible apply Kept.upd; on_goal 1 => (first | with_reducible assumption | with_reducible apply slotsEnter_kept | with_reducible apply setPhase_kept | with_reducible apply settle_kept | with_reducible apply stepThreads_kept | with_reducible apply enterThreads_kept))))
    | with_reducible rfl)

theorem startRun_kept {s0 s : State}  (hk : Kept s0 s) :
    Kept s0 (startRun  s) := by
  unfold startRun
  repeat' (first
    | with_reducible assumption
    | with_reducible apply planGroups_kept
    | with_reducible apply beginStep_kept
    | (with_reducible apply Kept.upd; on_goal 1 => (first | with_reducible assumption | with_reducible apply Kept.ite | with_reducible apply planGroups_kept | with_reducible apply beginStep_kept | with_reducible apply Kept.foldl | with_reducible apply Kept.forEach | (with_reducible apply Kept.upd; on_goal 1 => (first | with_reducible assumption | with_reducible apply planGroups_kept | with_reducible apply beginStep_kept))))
    | with_reducible rfl)

theorem startCheck_kept {s0 s : State} (hk : Kept s0 s) : Kept s0 (startCheck s) := by
  have hr : ∀ (u : State) (r : RunSt), Kept s0 u → Kept s0 { u with run := r } := fun u r h => h
  have hh : ∀ (u : State) (q : Option Nat), Kept s0 u → Kept s0 { u with host := { u.host with startRing := q } } :=
    fun u q h => h
  unfold startCheck
  split
  · rename_i r l _ _
    have h1 := hr s { s.run with readyRes := none, limitRes := none } hk
    dsimp only
    refine Kept.ite h1 (Kept.ite (cancelStart_kept h1) ?_)
    split
    · exact complete_kept (hh _ _ (hr _ _ h1))
    · exact hr _ _ h1
  · exact hk

theorem closeLock_kept {s0 s : State}  (hk : Kept s0 s) :
    Kept s0 (closeLock  s) := by
  unfold closeLock
  repeat' (first
    | with_reducible assumption
    | with_reducible apply bump_kept
    | (with_reducible apply Kept.upd; on_goal 1 => (first | with_reducible assumption | with_reducible apply Kept.ite | with_reducible apply bump_kept | with_reducible apply Kept.foldl | with_reducible apply Kept.forEach | (with_reducible apply Kept.upd; on_goal 1 => (first | with_reducible assumption | with_reducible apply bump_kept))))
    | with_reducible rfl)

theorem closeCatch_kept {s0 s : State}  (hk : Kept s0 s) :
    Kept s0 (closeCatch  s) := by
  unfold closeCatch
  repeat' (first
    | with_reducible assumption
    | intro (x : State) hx
    | with_reducible apply Kept.ite
    | with_reducible apply modPort_kept
    | with_reducible apply bump_kept
    | with_reducible apply Kept.foldl
    | (lift_lets; intro x))

theorem rollHealth_kept {s0 s : State}  (hk : Kept s0 s) :
    Kept s0 (rollHealth  s) := by
  unfold rollHealth
  repeat' (first
    | with_reducible assumption
    | (with_reducible apply Kept.upd; on_goal 1 => (first | with_reducible assumption | with_reducible apply Kept.ite | with_reducible apply Kept.foldl | with_reducible apply Kept.forEach | (with_reducible apply Kept.upd; on_goal 1 => (first | with_reducible assumption))))
    | with_reducible rfl)

theorem laneRatios_kept {s0 s : State}  (hk : Kept s0 s) :
    Kept s0 (laneRatios  s) := by
  unfold laneRatios
  repeat' (first
    | with_reducible assumption
    | (with_reducible apply Kept.upd; on_goal 1 => (first | with_reducible assumption | with_reducible apply Kept.ite | with_reducible apply Kept.foldl | with_reducible apply Kept.forEach | (with_reducible apply Kept.upd; on_goal 1 => (first | with_reducible assumption))))
    | (show _ = _; rfl)
    | intro x)

theorem closeHealth_kept {s0 s : State}  (hk : Kept s0 s) :
    Kept s0 (closeHealth  s) := by
  unfold closeHealth
  repeat' (first
    | with_reducible assumption
    | with_reducible apply laneRatios_kept
    | with_reducible apply rollHealth_kept
    | (with_reducible apply Kept.upd; on_goal 1 => (first | with_reducible assumption | with_reducible apply Kept.ite | with_reducible apply laneRatios_kept | with_reducible apply rollHealth_kept | with_reducible apply Kept.foldl | with_reducible apply Kept.forEach | (with_reducible apply Kept.upd; on_goal 1 => (first | with_reducible assumption | with_reducible apply laneRatios_kept | with_reducible apply rollHealth_kept))))
    | with_reducible rfl)

theorem copyDone_kept {s0 s : State} {total : Nat} (hk : Kept s0 s) :
    Kept s0 (copyDone total s) := by
  unfold copyDone
  repeat' (first
    | with_reducible assumption
    | with_reducible apply emit_kept
    | (with_reducible apply Kept.upd; on_goal 1 => (first | with_reducible assumption | with_reducible apply Kept.ite | with_reducible apply emit_kept | with_reducible apply Kept.foldl | with_reducible apply Kept.forEach | (with_reducible apply Kept.upd; on_goal 1 => (first | with_reducible assumption | with_reducible apply emit_kept))))
    | with_reducible rfl)

theorem copyStroke_kept {s0 s : State}  (hk : Kept s0 s) :
    Kept s0 (copyStroke  s) := by
  unfold copyStroke
  repeat' (first
    | with_reducible assumption
    | with_reducible apply copyDone_kept
    | (with_reducible apply Kept.upd; on_goal 1 => (first | with_reducible assumption | with_reducible apply Kept.ite | with_reducible apply copyDone_kept | with_reducible apply Kept.foldl | with_reducible apply Kept.forEach | (with_reducible apply Kept.upd; on_goal 1 => (first | with_reducible assumption | with_reducible apply copyDone_kept))))
    | with_reducible rfl)

theorem dueSnapshots_kept {s0 s : State}  (hk : Kept s0 s) :
    Kept s0 (dueSnapshots  s) := by
  unfold dueSnapshots
  repeat' (first
    | with_reducible assumption
    | intro (x : State) hx
    | with_reducible apply snapshotAt_kept
    | with_reducible apply complete_kept
    | (with_reducible apply Kept.upd; on_goal 1 => (first | with_reducible assumption | with_reducible apply Kept.ite | with_reducible apply snapshotAt_kept | with_reducible apply complete_kept | with_reducible apply Kept.foldl | with_reducible apply Kept.forEach | (with_reducible apply Kept.upd; on_goal 1 => (first | with_reducible assumption | with_reducible apply snapshotAt_kept | with_reducible apply complete_kept))))
    | (show _ = _; rfl)
    | (lift_lets; intro x))

theorem sendCatch_kept {s0 s : State}  (hk : Kept s0 s) :
    Kept s0 (sendCatch  s) := by
  unfold sendCatch
  repeat' (first
    | with_reducible assumption
    | intro (x : State) hx
    | with_reducible apply Kept.ite
    | with_reducible apply sendOn_kept
    | with_reducible apply emit_kept
    | with_reducible apply Kept.forEach
    | (lift_lets; intro x))

theorem residencies_kept {s0 s : State}  (hk : Kept s0 s) :
    Kept s0 (residencies  s) := by
  unfold residencies
  repeat' (first
    | with_reducible assumption
    | intro (x : State) hx
    | with_reducible apply bump_kept
    | (with_reducible apply Kept.upd; on_goal 1 => (first | with_reducible assumption | with_reducible apply Kept.ite | with_reducible apply bump_kept | with_reducible apply Kept.foldl | with_reducible apply Kept.forEach | (with_reducible apply Kept.upd; on_goal 1 => (first | with_reducible assumption | with_reducible apply bump_kept))))
    | (show _ = _; rfl)
    | (lift_lets; intro x))

theorem sendImage_kept {s0 s : State} {img : List Byte} (hk : Kept s0 s) :
    Kept s0 (sendImage img s) := by
  unfold sendImage
  repeat' (first
    | with_reducible assumption
    | intro (x : State) hx
    | with_reducible apply sendReduce_kept
    | with_reducible apply Kept.forEach
    | (lift_lets; intro x))

theorem stopBegins_kept {s0 s : State}  (hk : Kept s0 s) :
    Kept s0 (stopBegins  s) := by
  unfold stopBegins
  repeat' (first
    | with_reducible assumption
    | with_reducible apply sendImage_kept
    | (with_reducible apply Kept.upd; on_goal 1 => (first | with_reducible assumption | with_reducible apply Kept.ite | with_reducible apply sendImage_kept | with_reducible apply Kept.foldl | with_reducible apply Kept.forEach | (with_reducible apply Kept.upd; on_goal 1 => (first | with_reducible assumption | with_reducible apply sendImage_kept))))
    | (show _ = _; rfl)
    | split)

theorem secureEdge_kept {s0 s : State}  (hk : Kept s0 s) :
    Kept s0 (secureEdge  s) := by
  unfold secureEdge
  repeat' (first
    | with_reducible assumption
    | with_reducible apply bump_kept
    | with_reducible apply stopBegins_kept
    | (with_reducible apply Kept.upd; on_goal 1 => (first | with_reducible assumption | with_reducible apply Kept.ite | with_reducible apply bump_kept | with_reducible apply stopBegins_kept | with_reducible apply Kept.foldl | with_reducible apply Kept.forEach | (with_reducible apply Kept.upd; on_goal 1 => (first | with_reducible assumption | with_reducible apply bump_kept | with_reducible apply stopBegins_kept))))
    | with_reducible rfl)

theorem takeRaised_kept {s0 s : State}  (hk : Kept s0 s) :
    Kept s0 (takeRaised  s) := by
  unfold takeRaised
  repeat' (first
    | with_reducible assumption
    | (with_reducible apply Kept.upd; on_goal 1 => (first | with_reducible assumption | with_reducible apply Kept.ite | with_reducible apply Kept.foldl | with_reducible apply Kept.forEach | (with_reducible apply Kept.upd; on_goal 1 => (first | with_reducible assumption))))
    | with_reducible rfl)

theorem startEdge_kept {s0 s : State}  (hk : Kept s0 s) :
    Kept s0 (startEdge  s) := by
  unfold startEdge
  repeat' (first
    | with_reducible assumption
    | with_reducible apply startRun_kept
    | split)

theorem wakeAll_kept {s0 s : State}  (hk : Kept s0 s) :
    Kept s0 (wakeAll  s) := by
  unfold wakeAll
  repeat' (first
    | with_reducible assumption
    | intro (x : State) hx
    | with_reducible apply Kept.ite
    | with_reducible apply wakeCore_kept
    | with_reducible apply Kept.foldl
    | (lift_lets; intro x))

theorem standEdge_kept {s0 s : State}  (hk : Kept s0 s) :
    Kept s0 (standEdge  s) := by
  unfold standEdge
  repeat' (first
    | with_reducible assumption
    | (with_reducible apply Kept.upd; on_goal 1 => (first | with_reducible assumption | with_reducible apply Kept.ite | with_reducible apply Kept.foldl | with_reducible apply Kept.forEach | (with_reducible apply Kept.upd; on_goal 1 => (first | with_reducible assumption))))
    | with_reducible rfl)


end Sys2Proof.Machine
end

