-- ==== Sys2Proof/Laws/KeptStep.lean ====
section
/-! SUPPORT. `Kept` of the operations of packets, the exchange, guard point, optimiser, admission, arrays, the cox and the step boundary. -/

namespace Sys2Proof.Machine

open Sys2Proof

theorem otherMarker_kept {s0 s : State} {p n : Nat} {phase : Int} (hk : Kept s0 s) :
    Kept s0 (otherMarker p n phase s) := by
  unfold otherMarker
  repeat' (first
    | with_reducible assumption
    | with_reducible apply Kept.ite
    | with_reducible apply modPort_kept
    | with_reducible apply bump_kept)

theorem catchPacket_kept {s0 s : State} {p b : Nat} {phase : Int} {body : List Byte} (hk : Kept s0 s) :
    Kept s0 (catchPacket p b phase body s) := by
  unfold catchPacket
  repeat' (first
    | with_reducible assumption
    | with_reducible apply modPort_kept
    | with_reducible apply otherMarker_kept
    | (with_reducible apply Kept.upd; on_goal 1 => (first | with_reducible assumption | with_reducible apply Kept.ite | with_reducible apply modPort_kept | with_reducible apply otherMarker_kept | with_reducible apply Kept.foldl | with_reducible apply Kept.forEach | (with_reducible apply Kept.upd; on_goal 1 => (first | with_reducible assumption | with_reducible apply modPort_kept | with_reducible apply otherMarker_kept))))
    | with_reducible rfl)

theorem floodEasy_kept {s0 s : State} {stroke raiser : Nat} (hk : Kept s0 s) :
    Kept s0 (floodEasy stroke raiser s) := by
  unfold floodEasy
  repeat' (first
    | with_reducible assumption
    | with_reducible apply flood_kept
    | (with_reducible apply Kept.upd; on_goal 1 => (first | with_reducible assumption | with_reducible apply Kept.ite | with_reducible apply flood_kept | with_reducible apply Kept.foldl | with_reducible apply Kept.forEach | (with_reducible apply Kept.upd; on_goal 1 => (first | with_reducible assumption | with_reducible apply flood_kept))))
    | with_reducible rfl)

theorem easyPacket_kept {s0 s : State} {body : List Byte} (hk : Kept s0 s) :
    Kept s0 (easyPacket body s) := by
  unfold easyPacket
  repeat' (first
    | with_reducible assumption
    | with_reducible apply Kept.ite
    | with_reducible apply floodEasy_kept
    | with_reducible apply health_kept
    | with_reducible apply logEv_kept
    | with_reducible apply bump_kept)

theorem creditPacket_kept {s0 s : State} {body : List Byte} (hk : Kept s0 s) :
    Kept s0 (creditPacket body s) := by
  unfold creditPacket
  repeat' (first
    | with_reducible assumption
    | with_reducible apply creditAdd_kept
    | with_reducible apply pumpFlow_kept)

theorem ackLeg_kept {s0 s : State} {f : Nat} (hk : Kept s0 s) :
    Kept s0 (ackLeg f s) := by
  unfold ackLeg
  repeat' (first
    | with_reducible assumption
    | with_reducible apply setLeg_kept
    | with_reducible apply settle_kept
    | with_reducible apply endPass_kept
    | split)

theorem floodDecl_kept {s0 s : State} {k pos by_ : Nat} (hk : Kept s0 s) :
    Kept s0 (floodDecl k pos by_ s) := by
  unfold floodDecl
  repeat' (first
    | with_reducible assumption
    | intro (x : State) hx
    | with_reducible apply emit_kept
    | with_reducible apply Kept.forEach
    | (lift_lets; intro x))

theorem loseAndHold_kept {s0 s : State} {pos cause : Nat} (hk : Kept s0 s) :
    Kept s0 (loseAndHold pos cause s) := by
  unfold loseAndHold
  repeat' (first
    | with_reducible assumption
    | with_reducible apply loseDevice_kept
    | (with_reducible apply Kept.upd; on_goal 1 => (first | with_reducible assumption | with_reducible apply Kept.ite | with_reducible apply loseDevice_kept | with_reducible apply Kept.foldl | with_reducible apply Kept.forEach | (with_reducible apply Kept.upd; on_goal 1 => (first | with_reducible assumption | with_reducible apply loseDevice_kept))))
    | with_reducible rfl)

theorem portDeclared_kept {s0 s : State} {pos by_ : Nat} (hk : Kept s0 s) :
    Kept s0 (portDeclared pos by_ s) := by
  unfold portDeclared
  repeat' (first
    | with_reducible assumption
    | with_reducible apply loseAndHold_kept
    | (with_reducible apply Kept.upd; on_goal 1 => (first | with_reducible assumption | with_reducible apply Kept.ite | with_reducible apply loseAndHold_kept | with_reducible apply Kept.foldl | with_reducible apply Kept.forEach | (with_reducible apply Kept.upd; on_goal 1 => (first | with_reducible assumption | with_reducible apply loseAndHold_kept))))
    | with_reducible rfl)

theorem portLost_kept {s0 s : State} {p : Nat} {peers : List Nat} (hk : Kept s0 s) :
    Kept s0 (portLost p peers s) := by
  unfold portLost
  repeat' (first
    | with_reducible assumption
    | intro (x : State) hx
    | with_reducible apply modPort_kept
    | with_reducible apply portDeclared_kept
    | with_reducible apply floodDecl_kept
    | with_reducible apply pathEv_kept
    | with_reducible apply addPath_kept
    | (with_reducible apply Kept.upd; on_goal 1 => (first | with_reducible assumption | with_reducible apply Kept.ite | with_reducible apply modPort_kept | with_reducible apply portDeclared_kept | with_reducible apply floodDecl_kept | with_reducible apply pathEv_kept | with_reducible apply addPath_kept | with_reducible apply Kept.foldl | with_reducible apply Kept.forEach | (with_reducible apply Kept.upd; on_goal 1 => (first | with_reducible assumption | with_reducible apply modPort_kept | with_reducible apply portDeclared_kept | with_reducible apply floodDecl_kept | with_reducible apply pathEv_kept | with_reducible apply addPath_kept))))
    | (show _ = _; rfl)
    | (lift_lets; intro x))

theorem heartbeatLimit_kept {s0 s : State} {p : Nat} (hk : Kept s0 s) :
    Kept s0 (heartbeatLimit p s) := by
  unfold heartbeatLimit
  repeat' (first
    | with_reducible assumption
    | intro (x : State) hx
    | with_reducible apply Kept.ite
    | with_reducible apply takeTimed_kept
    | with_reducible apply portLost_kept)

theorem declare_kept {s0 s : State} {k : DeclKind} {pos by_ : Nat} (hk : Kept s0 s) :
    Kept s0 (declare k pos by_ s) := by
  unfold declare
  repeat' (first
    | with_reducible assumption
    | with_reducible apply floodDecl_kept
    | with_reducible apply portLost_kept
    | with_reducible apply portDeclared_kept
    | with_reducible apply loseDevice_kept
    | with_reducible apply straggler_kept
    | with_reducible apply loseAndHold_kept
    | split)

theorem failLeg_kept {s0 s : State} {f : FlowCtx} (hk : Kept s0 s) :
    Kept s0 (failLeg f s) := by
  unfold failLeg
  repeat' (first
    | with_reducible assumption
    | intro (x : State) hx
    | with_reducible apply takeTimed_kept
    | with_reducible apply logEv_kept
    | with_reducible apply ackLeg_kept
    | with_reducible apply loseDevice_kept
    | with_reducible apply floodDecl_kept
    | (with_reducible apply Kept.upd; on_goal 1 => (first | with_reducible assumption | with_reducible apply Kept.ite | with_reducible apply takeTimed_kept | with_reducible apply logEv_kept | with_reducible apply ackLeg_kept | with_reducible apply loseDevice_kept | with_reducible apply floodDecl_kept | with_reducible apply Kept.foldl | with_reducible apply Kept.forEach | (with_reducible apply Kept.upd; on_goal 1 => (first | with_reducible assumption | with_reducible apply takeTimed_kept | with_reducible apply logEv_kept | with_reducible apply ackLeg_kept | with_reducible apply loseDevice_kept | with_reducible apply floodDecl_kept))))
    | with_reducible rfl)

theorem controlStall_kept {s0 s : State} {id : Nat} (hk : Kept s0 s) :
    Kept s0 (controlStall id s) := by
  unfold controlStall
  repeat' (first
    | with_reducible assumption
    | with_reducible apply Kept.ite
    | with_reducible apply health_kept
    | with_reducible apply ctlMod_kept)

theorem nextEpoch_kept {s0 s : State}  (hk : Kept s0 s) :
    Kept s0 (nextEpoch  s) := by
  unfold nextEpoch
  repeat' (first
    | with_reducible assumption
    | (with_reducible apply Kept.upd; on_goal 1 => (first | with_reducible assumption | with_reducible apply Kept.ite | with_reducible apply Kept.foldl | with_reducible apply Kept.forEach | (with_reducible apply Kept.upd; on_goal 1 => (first | with_reducible assumption))))
    | with_reducible rfl)


end Sys2Proof.Machine

namespace Sys2Proof.Machine

open Sys2Proof

theorem joinPart_kept {s0 s : State} {i src : Nat} {v : SumVal} (hk : Kept s0 s) :
    Kept s0 (joinPart i src v s) := by
  unfold joinPart
  repeat' (first
    | with_reducible assumption
    | (with_reducible apply Kept.upd; on_goal 1 => (first | with_reducible assumption | with_reducible apply Kept.ite | with_reducible apply Kept.foldl | with_reducible apply Kept.forEach | (with_reducible apply Kept.upd; on_goal 1 => (first | with_reducible assumption))))
    | with_reducible rfl)

theorem joinClose_kept {s0 s : State} {round src : Nat} (hk : Kept s0 s) :
    Kept s0 (joinClose round src s) := by
  unfold joinClose
  repeat' (first
    | with_reducible assumption
    | (with_reducible apply Kept.upd; on_goal 1 => (first | with_reducible assumption | with_reducible apply Kept.ite | with_reducible apply Kept.foldl | with_reducible apply Kept.forEach | (with_reducible apply Kept.upd; on_goal 1 => (first | with_reducible assumption))))
    | with_reducible rfl)

theorem sendPart_kept {s0 s : State} {i : Nat} {v : SumVal} (hk : Kept s0 s) :
    Kept s0 (sendPart i v s) := by
  unfold sendPart
  repeat' (first
    | with_reducible assumption
    | with_reducible apply joinPart_kept
    | with_reducible apply sendReduce_kept
    | split)

theorem closeRound_kept {s0 s : State} {round : Nat} (hk : Kept s0 s) :
    Kept s0 (closeRound round s) := by
  unfold closeRound
  repeat' (first
    | with_reducible assumption
    | with_reducible apply joinClose_kept
    | with_reducible apply sendReduce_kept
    | with_reducible apply Kept.forEach
    | intro x
    | split)

theorem sendResults_kept {s0 s : State} {round : Nat} {l : List (Nat × SumVal)} (hk : Kept s0 s) :
    Kept s0 (sendResults round l s) := by
  unfold sendResults
  repeat' (first
    | with_reducible assumption
    | intro (x : State) hx
    | with_reducible apply sendReduce_kept
    | with_reducible apply Kept.forEach
    | (lift_lets; intro x))

theorem keepRegs_kept {s0 s : State} {l : List (Nat × List SumVal)} (hk : Kept s0 s) :
    Kept s0 (keepRegs l s) := by
  unfold keepRegs
  repeat' (first
    | with_reducible assumption
    | (with_reducible apply Kept.upd; on_goal 1 => (first | with_reducible assumption | with_reducible apply Kept.ite | with_reducible apply Kept.foldl | with_reducible apply Kept.forEach | (with_reducible apply Kept.upd; on_goal 1 => (first | with_reducible assumption))))
    | with_reducible rfl)

theorem combineRound_kept {s0 s : State} {round : Nat} (hk : Kept s0 s) :
    Kept s0 (combineRound round s) := by
  unfold combineRound
  repeat' (first
    | with_reducible assumption
    | with_reducible apply keepRegs_kept
    | with_reducible apply sendResults_kept
    | (with_reducible apply Kept.upd; on_goal 1 => (first | with_reducible assumption | with_reducible apply Kept.ite | with_reducible apply keepRegs_kept | with_reducible apply sendResults_kept | with_reducible apply Kept.foldl | with_reducible apply Kept.forEach | (with_reducible apply Kept.upd; on_goal 1 => (first | with_reducible assumption | with_reducible apply keepRegs_kept | with_reducible apply sendResults_kept))))
    | with_reducible rfl)

theorem combineRounds_kept {s0 s : State}  (hk : Kept s0 s) :
    Kept s0 (combineRounds  s) := by
  unfold combineRounds
  repeat' (first | with_reducible assumption | with_reducible apply combineRound_kept)

theorem sumsPacket_kept {s0 s : State} {h : PktHdr} {body : List Byte} (hk : Kept s0 s) :
    Kept s0 (sumsPacket h body s) := by
  unfold sumsPacket
  repeat' (first
    | with_reducible assumption
    | with_reducible apply returnCredit_kept
    | with_reducible apply combineRounds_kept
    | with_reducible apply joinClose_kept
    | with_reducible apply joinPart_kept
    | split)

theorem resultData_kept {s0 s : State} {p : Nat} {h : PktHdr} {body : List Byte} (hk : Kept s0 s) :
    Kept s0 (resultData p h body s) := by
  unfold resultData
  repeat' (first
    | with_reducible assumption
    | with_reducible apply badPacket_kept
    | with_reducible apply returnCredit_kept
    | (with_reducible apply Kept.upd; on_goal 1 => (first | with_reducible assumption | with_reducible apply Kept.ite | with_reducible apply badPacket_kept | with_reducible apply returnCredit_kept | with_reducible apply Kept.foldl | with_reducible apply Kept.forEach | (with_reducible apply Kept.upd; on_goal 1 => (first | with_reducible assumption | with_reducible apply badPacket_kept | with_reducible apply returnCredit_kept))))
    | with_reducible rfl)

theorem resultEnd_kept {s0 s : State} {p q : Nat} {h : PktHdr} (hk : Kept s0 s) :
    Kept s0 (resultEnd p q h s) := by
  unfold resultEnd
  repeat' (first
    | with_reducible assumption
    | with_reducible apply badPacket_kept
    | with_reducible apply sendTo_kept
    | (with_reducible apply Kept.upd; on_goal 1 => (first | with_reducible assumption | with_reducible apply Kept.ite | with_reducible apply badPacket_kept | with_reducible apply sendTo_kept | with_reducible apply Kept.foldl | with_reducible apply Kept.forEach | (with_reducible apply Kept.upd; on_goal 1 => (first | with_reducible assumption | with_reducible apply badPacket_kept | with_reducible apply sendTo_kept))))
    | with_reducible rfl)

theorem startStats_kept {s0 s : State}  (hk : Kept s0 s) :
    Kept s0 (startStats  s) := by
  unfold startStats
  repeat' (first
    | with_reducible assumption
    | intro (x : State) hx
    | with_reducible apply closeRound_kept
    | with_reducible apply sendPart_kept
    | with_reducible apply Kept.forEach
    | (lift_lets; intro x))

theorem startExchange_kept {s0 s : State}  (hk : Kept s0 s) :
    Kept s0 (startExchange  s) := by
  unfold startExchange
  repeat' (first
    | with_reducible assumption
    | intro (x : State) hx
    | with_reducible apply sendPart_kept
    | with_reducible apply combineRounds_kept
    | with_reducible apply closeRound_kept
    | (with_reducible apply Kept.upd; on_goal 1 => (first | with_reducible assumption | with_reducible apply Kept.ite | with_reducible apply sendPart_kept | with_reducible apply combineRounds_kept | with_reducible apply closeRound_kept | with_reducible apply Kept.foldl | with_reducible apply Kept.forEach | (with_reducible apply Kept.upd; on_goal 1 => (first | with_reducible assumption | with_reducible apply sendPart_kept | with_reducible apply combineRounds_kept | with_reducible apply closeRound_kept))))
    | (show _ = _; rfl)
    | (lift_lets; intro x))


end Sys2Proof.Machine

namespace Sys2Proof.Machine

open Sys2Proof

theorem classPath_kept {s0 s : State} {k : DataClass} {a : Nat} (hk : Kept s0 s) :
    Kept s0 (classPath k a s) := by
  unfold classPath
  repeat' (first
    | with_reducible assumption
    | with_reducible apply addPath_kept
    | with_reducible apply buddyHit_kept
    | with_reducible apply plannerCopied_kept
    | split)

theorem poisonPath_kept {s0 s : State} {x : Nat × Nat} (hk : Kept s0 s) :
    Kept s0 (poisonPath x s) := by
  unfold poisonPath
  repeat' (first
    | with_reducible assumption
    | with_reducible apply Kept.ite
    | with_reducible apply addPath_kept
    | with_reducible apply classPath_kept)

theorem dropDecisions_kept {s0 s : State} (hk : Kept s0 s) : Kept s0 (dropDecisions s) :=
  { hk with journal := fun i => Nat.le_trans (List.length_filter_le ..) (hk.journal i) }

theorem holdNow_kept {s0 s : State} {cause : Nat} (hk : Kept s0 s) :
    Kept s0 (holdNow cause s) := by
  unfold holdNow
  repeat' (first
    | with_reducible assumption
    | with_reducible apply dropDecisions_kept
    | with_reducible apply stopThreads_kept
    | with_reducible apply abortPasses_kept
    | with_reducible apply startExchange_kept
    | with_reducible apply nextEpoch_kept
    | with_reducible apply setPhase_kept
    | (with_reducible apply Kept.upd; on_goal 1 => (first | with_reducible assumption | with_reducible apply Kept.ite | with_reducible apply dropDecisions_kept | with_reducible apply stopThreads_kept | with_reducible apply abortPasses_kept | with_reducible apply startExchange_kept | with_reducible apply nextEpoch_kept | with_reducible apply setPhase_kept | with_reducible apply Kept.foldl | with_reducible apply Kept.forEach | (with_reducible apply Kept.upd; on_goal 1 => (first | with_reducible assumption | with_reducible apply dropDecisions_kept | with_reducible apply stopThreads_kept | with_reducible apply abortPasses_kept | with_reducible apply startExchange_kept | with_reducible apply nextEpoch_kept | with_reducible apply setPhase_kept))))
    | with_reducible rfl)

theorem countTest_kept {s0 s : State} {c : Nat} (hk : Kept s0 s) :
    Kept s0 (countTest c s) := by
  unfold countTest
  repeat' (first
    | with_reducible assumption
    | intro (x : State) hx
    | with_reducible apply Kept.ite
    | with_reducible apply bump_kept
    | with_reducible apply Kept.forEach
    | (lift_lets; intro x))

theorem faultPaths_kept {s0 s : State}  (hk : Kept s0 s) :
    Kept s0 (faultPaths  s) := by
  unfold faultPaths
  repeat' (first
    | with_reducible assumption
    | intro (x : State) hx
    | with_reducible apply Kept.ite
    | with_reducible apply addPath_kept
    | with_reducible apply countTest_kept
    | with_reducible apply Kept.foldl
    | (lift_lets; intro x))

theorem holdFrom_kept {s0 s : State} {flags : Nat} (hk : Kept s0 s) :
    Kept s0 (holdFrom flags s) := by
  unfold holdFrom
  repeat' (first
    | with_reducible assumption
    | intro (x : State) hx
    | with_reducible apply faultPaths_kept
    | with_reducible apply poisonPath_kept
    | with_reducible apply holdNow_kept
    | (with_reducible apply Kept.upd; on_goal 1 => (first | with_reducible assumption | with_reducible apply Kept.ite | with_reducible apply faultPaths_kept | with_reducible apply poisonPath_kept | with_reducible apply holdNow_kept | with_reducible apply Kept.foldl | with_reducible apply Kept.forEach | (with_reducible apply Kept.upd; on_goal 1 => (first | with_reducible assumption | with_reducible apply faultPaths_kept | with_reducible apply poisonPath_kept | with_reducible apply holdNow_kept))))
    | (show _ = _; rfl)
    | (lift_lets; intro x))

theorem raiseEasy_kept {s0 s : State} {unfinished : Bool} (hk : Kept s0 s) :
    Kept s0 (raiseEasy unfinished s) := by
  unfold raiseEasy
  repeat' (first
    | with_reducible assumption
    | with_reducible apply Kept.ite
    | with_reducible apply floodEasy_kept
    | with_reducible apply bump_kept)

theorem showBehind_kept {s0 s : State} {l : List FlowCtx} (hk : Kept s0 s) :
    Kept s0 (showBehind l s) := by
  unfold showBehind
  repeat' (first
    | with_reducible assumption
    | intro (x : State) hx
    | with_reducible apply modPort_kept
    | with_reducible apply Kept.foldl
    | (lift_lets; intro x))

theorem logBehind_kept {s0 s : State} {f : FlowCtx} (hk : Kept s0 s) :
    Kept s0 (logBehind f s) := by
  unfold logBehind
  repeat' (first
    | with_reducible assumption
    | with_reducible apply logEv_kept
    | with_reducible apply bump_kept
    | (with_reducible apply Kept.upd; on_goal 1 => (first | with_reducible assumption | with_reducible apply Kept.ite | with_reducible apply logEv_kept | with_reducible apply bump_kept | with_reducible apply Kept.foldl | with_reducible apply Kept.forEach | (with_reducible apply Kept.upd; on_goal 1 => (first | with_reducible assumption | with_reducible apply logEv_kept | with_reducible apply bump_kept))))
    | with_reducible rfl)

theorem markBehind_kept {s0 s : State}  (hk : Kept s0 s) :
    Kept s0 (markBehind  s) := by
  unfold markBehind
  repeat' (first
    | with_reducible assumption
    | intro (x : State) hx
    | with_reducible apply logBehind_kept
    | with_reducible apply showBehind_kept
    | with_reducible apply Kept.foldl
    | (lift_lets; intro x))

theorem straggler_kept {s0 s : State} {cause : Nat} (hk : Kept s0 s) :
    Kept s0 (straggler cause s) := by
  unfold straggler
  repeat' (first
    | with_reducible assumption
    | with_reducible apply pathEv_kept
    | with_reducible apply addPath_kept
    | with_reducible apply loseAndHold_kept
    | (with_reducible apply Kept.upd; on_goal 1 => (first | with_reducible assumption | with_reducible apply Kept.ite | with_reducible apply pathEv_kept | with_reducible apply addPath_kept | with_reducible apply loseAndHold_kept | with_reducible apply Kept.foldl | with_reducible apply Kept.forEach | (with_reducible apply Kept.upd; on_goal 1 => (first | with_reducible assumption | with_reducible apply pathEv_kept | with_reducible apply addPath_kept | with_reducible apply loseAndHold_kept))))
    | with_reducible rfl)

theorem easyLimit_kept {s0 s : State} {cause : Nat} (hk : Kept s0 s) :
    Kept s0 (easyLimit cause s) := by
  unfold easyLimit
  repeat' (first
    | with_reducible assumption
    | intro (x : State) hx
    | with_reducible apply takeTimed_kept
    | with_reducible apply straggler_kept
    | split)

theorem hostLost_kept {s0 s : State}  (hk : Kept s0 s) :
    Kept s0 (hostLost  s) := by
  unfold hostLost
  repeat' (first
    | with_reducible assumption
    | (with_reducible apply Kept.upd; on_goal 1 => (first | with_reducible assumption | with_reducible apply Kept.ite | with_reducible apply Kept.foldl | with_reducible apply Kept.forEach | (with_reducible apply Kept.upd; on_goal 1 => (first | with_reducible assumption))))
    | with_reducible rfl)

theorem standingReply_kept {s0 s : State}  (hk : Kept s0 s) :
    Kept s0 (standingReply  s) := by
  unfold standingReply
  repeat' (first
    | with_reducible assumption
    | with_reducible apply emit_kept
    | with_reducible apply bump_kept
    | (with_reducible apply Kept.upd; on_goal 1 => (first | with_reducible assumption | with_reducible apply Kept.ite | with_reducible apply emit_kept | with_reducible apply bump_kept | with_reducible apply Kept.foldl | with_reducible apply Kept.forEach | (with_reducible apply Kept.upd; on_goal 1 => (first | with_reducible assumption | with_reducible apply emit_kept | with_reducible apply bump_kept))))
    | with_reducible rfl)

theorem wedge_kept {s0 s : State} {u : WedgeUnit} (hk : Kept s0 s) :
    Kept s0 (wedge u s) := by
  unfold wedge
  repeat' (first
    | with_reducible assumption
    | with_reducible apply logEv_kept
    | (with_reducible apply Kept.upd; on_goal 1 => (first | with_reducible assumption | with_reducible apply Kept.ite | with_reducible apply logEv_kept | with_reducible apply Kept.foldl | with_reducible apply Kept.forEach | (with_reducible apply Kept.upd; on_goal 1 => (first | with_reducible assumption | with_reducible apply logEv_kept))))
    | with_reducible rfl)


end Sys2Proof.Machine

namespace Sys2Proof.Machine

open Sys2Proof

theorem stageBook_kept {s0 s : State} {a : Nat} {b : List Byte} (hk : Kept s0 s) :
    Kept s0 (stageBook a b s) := by
  unfold stageBook
  repeat' (first
    | with_reducible assumption
    | (with_reducible apply Kept.upd; on_goal 1 => (first | with_reducible assumption | with_reducible apply Kept.ite | with_reducible apply Kept.foldl | with_reducible apply Kept.forEach | (with_reducible apply Kept.upd; on_goal 1 => (first | with_reducible assumption))))
    | with_reducible rfl)

theorem blockStats_kept {s0 s : State} {p : Piece} {e : OptEntry} {f : Fmt} {b : Nat} {u : State} (hk : Kept s0 s) :
    Kept s0 (blockStats p e f b u s) := by
  unfold blockStats
  exact Kept.ite (collect_kept (collect_kept (collect_kept hk))) (collect_kept (collect_kept hk))

theorem nonfiniteBlock_kept {s0 s : State} {p : Piece} {bad : Nat} (hk : Kept s0 s) :
    Kept s0 (nonfiniteBlock p bad s) := by
  unfold nonfiniteBlock
  repeat' (first
    | with_reducible assumption
    | with_reducible apply attn_kept
    | with_reducible apply logEv_kept
    | (with_reducible apply Kept.upd; on_goal 1 => (first | with_reducible assumption | with_reducible apply Kept.ite | with_reducible apply attn_kept | with_reducible apply logEv_kept | with_reducible apply Kept.foldl | with_reducible apply Kept.forEach | (with_reducible apply Kept.upd; on_goal 1 => (first | with_reducible assumption | with_reducible apply attn_kept | with_reducible apply logEv_kept))))
    | with_reducible rfl)

theorem updateBlock_kept {s0 s : State} {b : Nat} {p : Piece} {e : OptEntry} {f : Fmt} (hk : Kept s0 s) :
    Kept s0 (updateBlock b p e f s) := by
  unfold updateBlock
  repeat' (first
    | with_reducible assumption
    | with_reducible apply nonfiniteBlock_kept
    | with_reducible apply blockStats_kept
    | with_reducible apply memWrite_kept
    | (with_reducible apply Kept.upd; on_goal 1 => (first | with_reducible assumption | with_reducible apply Kept.ite | with_reducible apply nonfiniteBlock_kept | with_reducible apply blockStats_kept | with_reducible apply memWrite_kept | with_reducible apply Kept.foldl | with_reducible apply Kept.forEach | (with_reducible apply Kept.upd; on_goal 1 => (first | with_reducible assumption | with_reducible apply nonfiniteBlock_kept | with_reducible apply blockStats_kept | with_reducible apply memWrite_kept))))
    | with_reducible rfl)

theorem optimiserUpdate_kept {s0 s : State} {i b : Nat} (hk : Kept s0 s) :
    Kept s0 (optimiserUpdate i b s) := by
  unfold optimiserUpdate
  repeat' (first
    | with_reducible assumption
    | with_reducible apply updateBlock_kept
    | split)

theorem convStats_kept {s0 s : State} {cs : List Conv} {u : State} (hk : Kept s0 s) : Kept s0 (convStats u cs s) := by
  unfold convStats
  exact Kept.foldl hk fun t ht c => Kept.ite ht (Kept.foldl ht fun v hv x => collect_kept hv)

theorem writeAll_kept {s0 s : State} {l : List (Nat × List Byte)} (hk : Kept s0 s) :
    Kept s0 (writeAll l s) := by
  unfold writeAll
  repeat' (first
    | with_reducible assumption
    | intro (x : State) hx
    | with_reducible apply memWrite_kept
    | with_reducible apply Kept.foldl
    | (lift_lets; intro x))

theorem weightConversion_kept {s0 s : State} {tensor : Nat} (hk : Kept s0 s) :
    Kept s0 (weightConversion tensor s) := by
  unfold weightConversion
  repeat' (first
    | with_reducible assumption
    | with_reducible apply convStats_kept
    | with_reducible apply writeAll_kept
    | (with_reducible apply Kept.upd; on_goal 1 => (first | with_reducible assumption | with_reducible apply Kept.ite | with_reducible apply convStats_kept | with_reducible apply writeAll_kept | with_reducible apply Kept.foldl | with_reducible apply Kept.forEach | (with_reducible apply Kept.upd; on_goal 1 => (first | with_reducible assumption | with_reducible apply convStats_kept | with_reducible apply writeAll_kept))))
    | (show _ = _; rfl)
    | split)

theorem codebookRebuild_kept {s0 s : State} {layer group_ : Nat} (hk : Kept s0 s) :
    Kept s0 (codebookRebuild layer group_ s) := by
  unfold codebookRebuild
  repeat' (first
    | with_reducible assumption
    | with_reducible apply stageBook_kept
    | with_reducible apply memWrite_kept
    | (with_reducible apply Kept.upd; on_goal 1 => (first | with_reducible assumption | with_reducible apply Kept.ite | with_reducible apply stageBook_kept | with_reducible apply memWrite_kept | with_reducible apply Kept.foldl | with_reducible apply Kept.forEach | (with_reducible apply Kept.upd; on_goal 1 => (first | with_reducible assumption | with_reducible apply stageBook_kept | with_reducible apply memWrite_kept))))
    | (show _ = _; rfl)
    | split)


end Sys2Proof.Machine

namespace Sys2Proof.Machine

open Sys2Proof

theorem afterPick_kept {s0 s : State} {p : Nat} (hk : Kept s0 s) :
    Kept s0 (afterPick p s) := by
  unfold afterPick
  repeat' (first
    | with_reducible assumption
    | intro (x : State) hx
    | with_reducible apply modSource_kept
    | with_reducible apply Kept.forEach
    | (lift_lets; intro x))

theorem askSample_kept {s0 s : State} {p n : Nat} (hk : Kept s0 s) :
    Kept s0 (askSample p n s) := by
  unfold askSample
  repeat' (first
    | with_reducible assumption
    | with_reducible apply emit_kept
    | split)

theorem admissionPick_kept {s0 s : State} {produced : Nat} (hk : Kept s0 s) : Kept s0 (admissionPick produced s) := by
  have ha : ∀ (u : State) (r : AdmSt), Kept s0 u → Kept s0 { u with adm := r } := fun u r h => h
  unfold admissionPick
  apply Kept.ite hk
  split
  · exact Kept.ite (Kept.ite hk (bump_kept (ha _ _ hk))) (askSample_kept (modSlot_kept (afterPick_kept (ha _ _ hk))))
  · exact hk

theorem writeCounts_kept {s0 s : State} {p : Nat} (hk : Kept s0 s) :
    Kept s0 (writeCounts p s) := by
  unfold writeCounts
  repeat' (first
    | with_reducible assumption
    | with_reducible apply emit_kept
    | split)

theorem pickDone_kept {s0 s : State} {p : Nat} (hk : Kept s0 s) :
    Kept s0 (pickDone p s) := by
  unfold pickDone
  repeat' (first
    | with_reducible assumption
    | with_reducible apply writeCounts_kept
    | with_reducible apply modSource_kept
    | (with_reducible apply Kept.upd; on_goal 1 => (first | with_reducible assumption | with_reducible apply Kept.ite | with_reducible apply writeCounts_kept | with_reducible apply modSource_kept | with_reducible apply Kept.foldl | with_reducible apply Kept.forEach | (with_reducible apply Kept.upd; on_goal 1 => (first | with_reducible assumption | with_reducible apply writeCounts_kept | with_reducible apply modSource_kept))))
    | with_reducible rfl)

theorem refuseSample_kept {s0 s : State} {p n k code : Nat} {id : Nat} (hk : Kept s0 s) :
    Kept s0 (refuseSample p n k code id s) := by
  unfold refuseSample
  repeat' (first
    | with_reducible assumption
    | with_reducible apply modSlot_kept
    | with_reducible apply logEv_kept
    | with_reducible apply bump_kept
    | with_reducible apply pickDone_kept
    | (with_reducible apply Kept.upd; on_goal 1 => (first | with_reducible assumption | with_reducible apply Kept.ite | with_reducible apply modSlot_kept | with_reducible apply logEv_kept | with_reducible apply bump_kept | with_reducible apply pickDone_kept | with_reducible apply Kept.foldl | with_reducible apply Kept.forEach | (with_reducible apply Kept.upd; on_goal 1 => (first | with_reducible assumption | with_reducible apply modSlot_kept | with_reducible apply logEv_kept | with_reducible apply bump_kept | with_reducible apply pickDone_kept))))
    | with_reducible rfl)

theorem sendSample_kept {s0 s : State} {k : Nat} {g : Segment} {tokens : List Byte} (hk : Kept s0 s) :
    Kept s0 (sendSample k g tokens s) := by
  unfold sendSample
  repeat' (first
    | with_reducible assumption
    | intro (x : State) hx
    | with_reducible apply Kept.ite
    | with_reducible apply sendReduce_kept
    | with_reducible apply Kept.forEach
    | (lift_lets; intro x))

theorem admitSample_kept {s0 s : State} {pk : Pkg} {pl : Plan} {p k len id : Nat} {toks : List Int} {bytes : List Byte} (hk : Kept s0 s) :
    Kept s0 (admitSample pk pl p k len id toks bytes s) := by
  unfold admitSample
  repeat' (first
    | with_reducible assumption
    | with_reducible apply writeAll_kept
    | with_reducible apply modSlot_kept
    | with_reducible apply sendSample_kept
    | with_reducible apply pickDone_kept
    | (with_reducible apply Kept.upd; on_goal 1 => (first | with_reducible assumption | with_reducible apply Kept.ite | with_reducible apply writeAll_kept | with_reducible apply modSlot_kept | with_reducible apply sendSample_kept | with_reducible apply pickDone_kept | with_reducible apply Kept.foldl | with_reducible apply Kept.forEach | (with_reducible apply Kept.upd; on_goal 1 => (first | with_reducible assumption | with_reducible apply writeAll_kept | with_reducible apply modSlot_kept | with_reducible apply sendSample_kept | with_reducible apply pickDone_kept))))
    | with_reducible rfl)

theorem askTokens_kept {s0 s : State} {desc : List Byte} {seqMax : Nat} (hk : Kept s0 s) :
    Kept s0 (askTokens desc seqMax s) := by
  unfold askTokens
  repeat' (first
    | with_reducible assumption
    | with_reducible apply Kept.ite
    | with_reducible apply emit_kept)

theorem sampleTokens_kept {s0 s : State} {desc tokens : List Byte} (hk : Kept s0 s) : Kept s0 (sampleTokens desc tokens s) := by
  unfold sampleTokens
  apply Kept.ite hk
  split
  · next p n k pk pl _ _ _ =>
    dsimp only
    have h : Kept s0 (askTokens desc (match source s p with | some x => x.seqMax | none => 0) s) := askTokens_kept hk
    generalize askTokens desc _ s = u at *
    split
    · exact admitSample_kept h
    · exact refuseSample_kept h
  · exact hk


end Sys2Proof.Machine

namespace Sys2Proof.Machine

open Sys2Proof

theorem pushArr_kept {s0 s : State} {c a : Nat} {o : ArrOp} (hk : Kept s0 s) :
    Kept s0 (pushArr c a o s) := by
  unfold pushArr
  repeat' (first | with_reducible assumption | with_reducible apply modArr_kept)

theorem beginGap_kept {s0 s : State} {c a cycles : Nat} (hk : Kept s0 s) :
    Kept s0 (beginGap c a cycles s) := by
  unfold beginGap
  repeat' (first
    | with_reducible assumption
    | with_reducible apply Kept.ite
    | with_reducible apply bump_kept
    | with_reducible apply modArr_kept)

theorem advanceArr_kept {s0 s : State} {c a : Nat} (hk : Kept s0 s) :
    Kept s0 (advanceArr c a s) := by
  unfold advanceArr
  repeat' (first
    | with_reducible assumption
    | with_reducible apply beginGap_kept
    | with_reducible apply modArr_kept
    | split)

theorem gapCheck_kept {s0 s : State} {c a : Nat} (hk : Kept s0 s) :
    Kept s0 (gapCheck c a s) := by
  unfold gapCheck
  repeat' (first
    | with_reducible assumption
    | with_reducible apply modArr_kept
    | split)

theorem afterArr_kept {s0 s : State} {c a : Nat} (hk : Kept s0 s) :
    Kept s0 (afterArr c a s) := by
  unfold afterArr
  repeat' (first
    | with_reducible assumption
    | with_reducible apply gapCheck_kept
    | with_reducible apply advanceArr_kept)

theorem queueTile_kept {s0 s : State} {c t pc : Nat} {w : InstrWord} (hk : Kept s0 s) :
    Kept s0 (queueTile c t pc w s) := by
  unfold queueTile
  repeat' (first
    | with_reducible assumption
    | with_reducible apply Kept.ite
    | with_reducible apply afterArr_kept
    | with_reducible apply asyncBegin_kept
    | with_reducible apply pushArr_kept
    | with_reducible apply modCore_kept)

theorem setComp_kept {s0 s : State} {c : Nat} {ts : List (Nat × TileOp)} (hk : Kept s0 s) :
    Kept s0 (setComp c ts s) := by
  unfold setComp
  repeat' (first
    | with_reducible assumption
    | intro (x : State) hx
    | with_reducible apply modArr_kept
    | with_reducible apply modCore_kept
    | with_reducible apply Kept.foldl
    | (lift_lets; intro x))

theorem fill_kept {s0 s : State} {c a : Nat} (hk : Kept s0 s) :
    Kept s0 (fill c a s) := by
  unfold fill
  repeat' (first
    | with_reducible assumption
    | with_reducible apply corePoison_kept
    | with_reducible apply modArr_kept
    | with_reducible apply setComp_kept
    | split)

theorem runTile_kept {s0 s : State} {c a m0 : Nat} {d : FeedDesc} {t : TileOp} (hk : Kept s0 s) :
    Kept s0 (runTile c a m0 d t s) := by
  unfold runTile
  dsimp only
  split
  · exact modArr_kept (bump_kept (Kept.ite (bump_kept (Kept.ite (corePoison_kept hk) hk)) (Kept.ite (corePoison_kept hk) hk)))
  · exact hk

theorem endUnplanned_kept {s0 s : State} {c a : Nat} (hk : Kept s0 s) :
    Kept s0 (endUnplanned c a s) := by
  unfold endUnplanned
  repeat' (first
    | with_reducible assumption
    | with_reducible apply Kept.ite
    | with_reducible apply bump_kept
    | with_reducible apply modArr_kept
    | with_reducible apply traceRec_kept)

theorem groupGap_kept {s0 s : State} {c a n : Nat} (hk : Kept s0 s) :
    Kept s0 (groupGap c a n s) := by
  unfold groupGap
  repeat' (first
    | with_reducible assumption
    | with_reducible apply Kept.ite
    | with_reducible apply endUnplanned_kept
    | with_reducible apply bump_kept
    | with_reducible apply modArr_kept)

theorem fillStall_kept {s0 s : State} {c : Nat} {ts : List (Nat × TileOp)} {n : Nat} (hk : Kept s0 s) :
    Kept s0 (fillStall c ts n s) := by
  unfold fillStall
  repeat' (first
    | with_reducible assumption
    | intro (x : State) hx
    | with_reducible apply Kept.ite
    | with_reducible apply traceRec_kept
    | with_reducible apply bump_kept
    | with_reducible apply Kept.foldl
    | (lift_lets; intro x))

theorem startGroup_kept {s0 s : State} {c : Nat} {ts : List (Nat × TileOp)} (hk : Kept s0 s) :
    Kept s0 (startGroup c ts s) := by
  unfold startGroup
  repeat' (first
    | with_reducible assumption
    | with_reducible apply fillStall_kept
    | with_reducible apply endUnplanned_kept
    | with_reducible apply runTile_kept
    | with_reducible apply modCore_kept
    | with_reducible apply groupGap_kept
    | with_reducible apply traceRec_kept
    | with_reducible apply Kept.foldl
    | intro x
    | split)

theorem groupStart_kept {s0 s : State} {c : Nat} (hk : Kept s0 s) :
    Kept s0 (groupStart c s) := by
  unfold groupStart
  repeat' (first
    | with_reducible assumption
    | with_reducible apply Kept.ite
    | with_reducible apply endUnplanned_kept
    | with_reducible apply traceRec_kept
    | with_reducible apply bump_kept
    | with_reducible apply modCore_kept
    | with_reducible apply modArr_kept
    | with_reducible apply startGroup_kept
    | with_reducible apply Kept.foldl
    | intro x
    | split)

theorem fenceEnd_kept {s0 s : State} {c : Nat} (hk : Kept s0 s) :
    Kept s0 (fenceEnd c s) := by
  unfold fenceEnd
  repeat' (first
    | with_reducible assumption
    | with_reducible apply modCore_kept
    | with_reducible apply setComp_kept
    | with_reducible apply gapCheck_kept
    | with_reducible apply Kept.foldl
    | intro x
    | split)

theorem endGroup_kept {s0 s : State} {c : Nat} (hk : Kept s0 s) :
    Kept s0 (endGroup c s) := by
  unfold endGroup
  repeat' (first
    | with_reducible assumption
    | intro (x : State) hx
    | with_reducible apply Kept.ite
    | with_reducible apply gapCheck_kept
    | with_reducible apply modArr_kept
    | with_reducible apply Kept.foldl
    | (lift_lets; intro x))

theorem tileComplete_kept {s0 s : State} {c a : Nat} (hk : Kept s0 s) :
    Kept s0 (tileComplete c a s) := by
  unfold tileComplete
  repeat' (first
    | with_reducible assumption
    | with_reducible apply convertOut_kept
    | with_reducible apply modArr_kept
    | with_reducible apply bump_kept
    | with_reducible apply endGroup_kept
    | with_reducible apply afterArr_kept
    | with_reducible apply asyncDone_kept
    | split)

theorem tblComplete_kept {s0 s : State} {c a : Nat} (hk : Kept s0 s) :
    Kept s0 (tblComplete c a s) := by
  unfold tblComplete
  repeat' (first
    | with_reducible assumption
    | with_reducible apply corePoison_kept
    | with_reducible apply modArr_kept
    | with_reducible apply afterArr_kept
    | with_reducible apply asyncDone_kept
    | split)

theorem idleEnd_kept {s0 s : State} {c a : Nat} (hk : Kept s0 s) :
    Kept s0 (idleEnd c a s) := by
  unfold idleEnd
  repeat' (first
    | with_reducible assumption
    | with_reducible apply modArr_kept
    | with_reducible apply afterArr_kept
    | with_reducible apply asyncDone_kept
    | split)

theorem rampStep_kept {s0 s : State} {c a : Nat} (hk : Kept s0 s) :
    Kept s0 (rampStep c a s) := by
  unfold rampStep
  repeat' (first
    | with_reducible assumption
    | with_reducible apply Kept.ite
    | with_reducible apply bump_kept
    | with_reducible apply modArr_kept)

theorem gapTimeout_kept {s0 s : State} {c a : Nat} (hk : Kept s0 s) :
    Kept s0 (gapTimeout c a s) := by
  unfold gapTimeout
  repeat' (first
    | with_reducible assumption
    | with_reducible apply Kept.ite
    | with_reducible apply bump_kept
    | with_reducible apply modArr_kept)


end Sys2Proof.Machine

namespace Sys2Proof.Machine

open Sys2Proof

theorem normLayer_kept {s0 s : State} {layer k : Nat} {sum : Option Nat} (hk : Kept s0 s) :
    Kept s0 (normLayer layer k sum s).2 := by
  have hc : ∀ (u : State) (c : CoxSt), Kept s0 u → Kept s0 { u with cox := c } := fun u c h => h
  unfold normLayer
  split
  · exact hk
  · dsimp only
    split
    · exact hk
    · exact hc _ _ hk

theorem normJumps_kept {s0 s : State} {recs : List StatRec} {ys : List (LayerDesc × Nat)}
    (hk : Kept s0 s) : Kept s0 (normJumps recs ys s).2 := by
  have h : ∀ acc : List Nat × State, Kept s0 acc.2 → Kept s0 (ys.foldl (fun acc x =>
      let a := normLayer x.2 0 (outSum recs x.1) acc.2
      let b := normLayer x.2 1 (gradSum s x.2) a.2
      (if a.1 || b.1 then acc.1 ++ [x.2] else acc.1, b.2)) acc).2 := by
    induction ys with
    | nil => exact fun _ h => h
    | cons y t ih => exact fun acc h => ih _ (normLayer_kept (normLayer_kept h))
  exact h ([], s) hk

theorem stormTest_kept {s0 s : State} {ovr : Nat} {pk : Pkg} (hk : Kept s0 s) : Kept s0 (stormTest ovr pk s).2 := by
  have hc : ∀ (u : State) (c : CoxSt), Kept s0 u → Kept s0 { u with cox := c } := fun u c h => h
  unfold stormTest
  dsimp only
  generalize (if steerableLayers s pk < 2 * ovr then s.cox.stormCount + 1 else 0) = n
  split
  · refine attn_kept (logEv_kept (bump_kept ?_))
    exact hc s { s.cox with stormCount := 0 } hk
  · exact hc s { s.cox with stormCount := _ } hk

theorem logChange_kept {s0 s : State} {layer role old new cause outcome : Nat} (hk : Kept s0 s) :
    Kept s0 (logChange layer role old new cause outcome s) := by
  unfold logChange
  repeat' (first
    | with_reducible assumption
    | with_reducible apply Kept.ite
    | with_reducible apply logEv_kept
    | with_reducible apply bump_kept)

theorem planDue_kept {s0 s : State}  (hk : Kept s0 s) :
    Kept s0 (planDue  s) := by
  unfold planDue
  repeat' (first
    | with_reducible assumption
    | (with_reducible apply Kept.upd; on_goal 1 => (first | with_reducible assumption | with_reducible apply Kept.ite | with_reducible apply Kept.foldl | with_reducible apply Kept.forEach | (with_reducible apply Kept.upd; on_goal 1 => (first | with_reducible assumption))))
    | with_reducible rfl)

theorem takeDecision_kept {s0 s : State} {layer role cur : Nat} {d : CoxDec} (hk : Kept s0 s) :
    Kept s0 (takeDecision layer role cur d s) := by
  unfold takeDecision
  repeat' (first
    | with_reducible assumption
    | with_reducible apply Kept.ite
    | with_reducible apply setQuiet_kept
    | with_reducible apply attn_kept
    | with_reducible apply logChange_kept
    | with_reducible apply setRung_kept
    | with_reducible apply planDue_kept)

theorem coxPair_kept {s0 s : State} {recs : List StatRec} {fresh : List Nat} {ev : LayerEv} {layer role : Nat} {y : LayerDesc} (hk : Kept s0 s) :
    Kept s0 (coxPair recs fresh ev layer role y s) := by
  unfold coxPair
  repeat' (first
    | with_reducible assumption
    | with_reducible apply takeDecision_kept
    | (with_reducible apply Kept.upd; on_goal 1 => (first | with_reducible assumption | with_reducible apply Kept.ite | with_reducible apply takeDecision_kept | with_reducible apply Kept.foldl | with_reducible apply Kept.forEach | (with_reducible apply Kept.upd; on_goal 1 => (first | with_reducible assumption | with_reducible apply takeDecision_kept))))
    | with_reducible rfl)

theorem endCox_kept {s0 s : State} {storm : Bool} (hk : Kept s0 s) :
    Kept s0 (endCox storm s) := by
  unfold endCox
  repeat' (first
    | with_reducible assumption
    | with_reducible apply attn_kept
    | with_reducible apply logEv_kept
    | (with_reducible apply Kept.upd; on_goal 1 => (first | with_reducible assumption | with_reducible apply Kept.ite | with_reducible apply attn_kept | with_reducible apply logEv_kept | with_reducible apply Kept.foldl | with_reducible apply Kept.forEach | (with_reducible apply Kept.upd; on_goal 1 => (first | with_reducible assumption | with_reducible apply attn_kept | with_reducible apply logEv_kept))))
    | with_reducible rfl)

theorem coxBoundary_kept {s0 s : State} {recs : List StatRec} {fresh : List Nat} (hk : Kept s0 s) :
    Kept s0 (coxBoundary recs fresh s) := by
  have hc : ∀ (u : State) (c : CoxSt), Kept s0 u → Kept s0 { u with cox := c } := fun u c h => h
  unfold coxBoundary
  split
  · exact hk
  · exact endCox_kept (Kept.forEach (hc _ _ (stormTest_kept (normJumps_kept (hc s _ hk)))) fun t ht x => coxPair_kept ht)

theorem keepHistory_kept {s0 s : State} {recs : List StatRec} (hk : Kept s0 s) :
    Kept s0 (keepHistory recs s) := by
  unfold keepHistory
  repeat' (first
    | with_reducible assumption
    | (with_reducible apply Kept.upd; on_goal 1 => (first | with_reducible assumption | with_reducible apply Kept.ite | with_reducible apply Kept.foldl | with_reducible apply Kept.forEach | (with_reducible apply Kept.upd; on_goal 1 => (first | with_reducible assumption))))
    | with_reducible rfl)

theorem startRecovery_kept {s0 s : State} {pk : Pkg} (hk : Kept s0 s) :
    Kept s0 (startRecovery pk s) := by
  unfold startRecovery
  repeat' (first
    | with_reducible assumption
    | intro (x : State) hx
    | with_reducible apply logChange_kept
    | with_reducible apply setRung_kept
    | with_reducible apply planDue_kept
    | with_reducible apply attn_kept
    | with_reducible apply logEv_kept
    | (with_reducible apply Kept.upd; on_goal 1 => (first | with_reducible assumption | with_reducible apply Kept.ite | with_reducible apply logChange_kept | with_reducible apply setRung_kept | with_reducible apply planDue_kept | with_reducible apply attn_kept | with_reducible apply logEv_kept | with_reducible apply Kept.foldl | with_reducible apply Kept.forEach | (with_reducible apply Kept.upd; on_goal 1 => (first | with_reducible assumption | with_reducible apply logChange_kept | with_reducible apply setRung_kept | with_reducible apply planDue_kept | with_reducible apply attn_kept | with_reducible apply logEv_kept))))
    | (show _ = _; rfl)
    | (lift_lets; intro x))

theorem pinChange_kept {s0 s : State} {x : Nat × Nat × Nat} (hk : Kept s0 s) :
    Kept s0 (pinChange x s) := by
  unfold pinChange
  repeat' (first
    | with_reducible assumption
    | with_reducible apply Kept.ite
    | with_reducible apply applyPin_kept
    | with_reducible apply attn_kept
    | with_reducible apply logChange_kept)


end Sys2Proof.Machine

namespace Sys2Proof.Machine

open Sys2Proof

theorem swapCopies_kept {s0 s : State}  (hk : Kept s0 s) :
    Kept s0 (swapCopies  s) := by
  unfold swapCopies
  repeat' (first
    | with_reducible assumption
    | (with_reducible apply Kept.upd; on_goal 1 => (first | with_reducible assumption | with_reducible apply Kept.ite | with_reducible apply Kept.foldl | with_reducible apply Kept.forEach | (with_reducible apply Kept.upd; on_goal 1 => (first | with_reducible assumption))))
    | with_reducible rfl)

theorem freeSlots_kept {s0 s : State} {n : Nat} (hk : Kept s0 s) :
    Kept s0 (freeSlots n s) := by
  unfold freeSlots
  repeat' (first
    | with_reducible assumption
    | (with_reducible apply Kept.upd; on_goal 1 => (first | with_reducible assumption | with_reducible apply Kept.ite | with_reducible apply Kept.foldl | with_reducible apply Kept.forEach | (with_reducible apply Kept.upd; on_goal 1 => (first | with_reducible assumption))))
    | with_reducible rfl)

theorem commitUpdates_kept {s0 s : State}  (hk : Kept s0 s) :
    Kept s0 (commitUpdates  s) := by
  unfold commitUpdates
  repeat' (first
    | with_reducible assumption
    | with_reducible apply writeAll_kept
    | with_reducible apply swapCopies_kept
    | (with_reducible apply Kept.upd; on_goal 1 => (first | with_reducible assumption | with_reducible apply Kept.ite | with_reducible apply writeAll_kept | with_reducible apply swapCopies_kept | with_reducible apply Kept.foldl | with_reducible apply Kept.forEach | (with_reducible apply Kept.upd; on_goal 1 => (first | with_reducible assumption | with_reducible apply writeAll_kept | with_reducible apply swapCopies_kept))))
    | with_reducible rfl)

theorem commit_kept {s0 s : State}  (hk : Kept s0 s) :
    Kept s0 (commit  s) := by
  unfold commit
  repeat' (first
    | with_reducible assumption
    | intro (x : State) hx
    | with_reducible apply freeSlots_kept
    | with_reducible apply commitUpdates_kept
    | with_reducible apply bump_kept
    | with_reducible apply attn_kept
    | with_reducible apply traceRec_kept
    | (with_reducible apply Kept.upd; on_goal 1 => (first | with_reducible assumption | with_reducible apply Kept.ite | with_reducible apply freeSlots_kept | with_reducible apply commitUpdates_kept | with_reducible apply bump_kept | with_reducible apply attn_kept | with_reducible apply traceRec_kept | with_reducible apply Kept.foldl | with_reducible apply Kept.forEach | (with_reducible apply Kept.upd; on_goal 1 => (first | with_reducible assumption | with_reducible apply freeSlots_kept | with_reducible apply commitUpdates_kept | with_reducible apply bump_kept | with_reducible apply attn_kept | with_reducible apply traceRec_kept))))
    | (show _ = _; rfl)
    | (lift_lets; intro x))

theorem runWidePlan_kept {s0 s : State} (hk : Kept s0 s) : Kept s0 (runWidePlan s).2 := by
  have h : ∀ (u : State) (r : List (Nat × Word)), Kept s0 u → Kept s0 { u with captured := r } := fun u r h => h
  have hr : ∀ (u : State) (r : RunSt), Kept s0 u → Kept s0 { u with run := r } := fun u r h => h
  unfold runWidePlan
  split
  · dsimp only
    split
    · exact hk
    · exact planDue_kept (hr _ _ (Kept.forEach (h _ _ hk) fun t ht x => pinChange_kept ht))
  · exact hk

theorem logPath_kept {s0 s : State} {f : FailPath} (hk : Kept s0 s) : Kept s0 (logPath f s) := by
  have hp : ∀ (u : State) (n : Nat), Kept s0 u → Kept s0 { u with res := { u.res with path := n } } := fun u n h => h
  exact Kept.ite hk (hp _ _ (logEv_kept hk))

theorem addInput_kept {s0 s : State} {kind pos part arg : Nat} (hk : Kept s0 s) :
    Kept s0 (addInput kind pos part arg s) := by
  unfold addInput
  repeat' (first
    | with_reducible assumption
    | with_reducible apply planDue_kept
    | (with_reducible apply Kept.upd; on_goal 1 => (first | with_reducible assumption | with_reducible apply Kept.ite | with_reducible apply planDue_kept | with_reducible apply Kept.foldl | with_reducible apply Kept.forEach | (with_reducible apply Kept.upd; on_goal 1 => (first | with_reducible assumption | with_reducible apply planDue_kept))))
    | with_reducible rfl)

theorem disableCore_kept {s0 s : State} {c : Nat} (hk : Kept s0 s) :
    Kept s0 (disableCore c s) := by
  unfold disableCore
  repeat' (first
    | with_reducible assumption
    | with_reducible apply lifeWrite_kept
    | (with_reducible apply Kept.upd; on_goal 1 => (first | with_reducible assumption | with_reducible apply Kept.ite | with_reducible apply lifeWrite_kept | with_reducible apply Kept.foldl | with_reducible apply Kept.forEach | (with_reducible apply Kept.upd; on_goal 1 => (first | with_reducible assumption | with_reducible apply lifeWrite_kept))))
    | with_reducible rfl)

theorem dropReplica_kept {s0 s : State}  (hk : Kept s0 s) :
    Kept s0 (dropReplica  s) := by
  unfold dropReplica
  repeat' (first
    | with_reducible assumption
    | intro (x : State) hx
    | with_reducible apply logEv_kept
    | (with_reducible apply Kept.upd; on_goal 1 => (first | with_reducible assumption | with_reducible apply Kept.ite | with_reducible apply logEv_kept | with_reducible apply Kept.foldl | with_reducible apply Kept.forEach | (with_reducible apply Kept.upd; on_goal 1 => (first | with_reducible assumption | with_reducible apply logEv_kept))))
    | (show _ = _; rfl)
    | (lift_lets; intro x))

theorem withdraw_kept {s0 s : State} {old : List (Nat × Nat)} {x : Nat × Nat} (hk : Kept s0 s) :
    Kept s0 (withdraw old x s) := by
  unfold withdraw
  repeat' (first
    | with_reducible assumption
    | with_reducible apply setRung_kept
    | with_reducible apply attn_kept
    | with_reducible apply logEv_kept
    | (with_reducible apply Kept.upd; on_goal 1 => (first | with_reducible assumption | with_reducible apply Kept.ite | with_reducible apply setRung_kept | with_reducible apply attn_kept | with_reducible apply logEv_kept | with_reducible apply Kept.foldl | with_reducible apply Kept.forEach | (with_reducible apply Kept.upd; on_goal 1 => (first | with_reducible assumption | with_reducible apply setRung_kept | with_reducible apply attn_kept | with_reducible apply logEv_kept))))
    | with_reducible rfl)

theorem planWithdraw_kept {s0 : State} {pk : Pkg} {n : Nat} {old l : List (Nat × Nat)} :
    ∀ {s : State}, Kept s0 s → Kept s0 (planWithdraw pk n old l s).1 := by
  induction l with
  | nil =>
    intro s hk
    unfold planWithdraw
    split <;> exact hk
  | cons x t ih =>
    intro s hk
    unfold planWithdraw
    split
    · exact hk
    · exact ih (withdraw_kept hk)

theorem installReplan_kept {s0 s : State} {pl : Plan} (hk : Kept s0 s) : Kept s0 (installReplan pl s) := by
  have hn : ∀ (u : State) (n : Nat), Kept s0 u → Kept s0 { u with renumbered := n } := fun u n h => h
  have hr : ∀ (u : State) (r : RunSt), Kept s0 u → Kept s0 { u with run := r } := fun u r h => h
  have hx : ∀ (u : State) (a : RedSt) (r : RunSt) (b : Bool) (l : LinkSt), Kept s0 u →
      Kept s0 { u with red := a, run := r, res := { u.res with secureDue := b }, link := l } := fun u a r b l h => h
  unfold installReplan
  split
  · exact hk
  · rename_i old _
    have h := hr _ { (installPlan pl (stopThreads { s with renumbered := s.disabled })).run with
      copies := pl.copies } (installPlan_kept (pl := pl) (stopThreads_kept (hn s s.disabled hk)))
    dsimp only at h ⊢
    refine sendDigest_kept (nextEpoch_kept (planGroups_kept (logShared_kept (bump_kept (hx _ _ _ _ _ ?_)))))
    refine Kept.forEach ?_ fun t ht x => memStore_kept ht
    exact Kept.ite (swapCopies_kept h) h

theorem preLoad_kept {s0 s : State} {pk : Pkg} {d : List Byte} (hk : Kept s0 s) : Kept s0 (preLoad pk d s) := by
  have hc : ∀ (u : State) (c : CoxSt), Kept s0 u → Kept s0 { u with cox := c } := fun u c h => h
  exact Kept.ite (planDue_kept (hc _ _ (loadInput_kept hk))) (startRecovery_kept (hc _ _ (loadInput_kept hk)))

theorem beginReplay_kept {s0 s : State} {upTo : Option Nat} {losses : List (Nat × Word)} {live : List JournalEntry} (hk : Kept s0 s) :
    Kept s0 (beginReplay upTo losses live s) := by
  unfold beginReplay
  repeat' (first
    | with_reducible assumption
    | (with_reducible apply Kept.upd; on_goal 1 => (first | with_reducible assumption | with_reducible apply Kept.ite | with_reducible apply Kept.foldl | with_reducible apply Kept.forEach | (with_reducible apply Kept.upd; on_goal 1 => (first | with_reducible assumption))))
    | with_reducible rfl)

theorem unrecoverable_kept {s0 s : State}  (hk : Kept s0 s) :
    Kept s0 (unrecoverable  s) := by
  unfold unrecoverable
  repeat' (first
    | with_reducible assumption
    | with_reducible apply allGroupsOn_kept
    | with_reducible apply attn_kept
    | with_reducible apply logEv_kept
    | (with_reducible apply Kept.upd; on_goal 1 => (first | with_reducible assumption | with_reducible apply Kept.ite | with_reducible apply allGroupsOn_kept | with_reducible apply attn_kept | with_reducible apply logEv_kept | with_reducible apply Kept.foldl | with_reducible apply Kept.forEach | (with_reducible apply Kept.upd; on_goal 1 => (first | with_reducible assumption | with_reducible apply allGroupsOn_kept | with_reducible apply attn_kept | with_reducible apply logEv_kept))))
    | with_reducible rfl)

theorem Kept.iteOut {s0 : State} {a b : PathOut} {c : Prop} [Decidable c] (h1 : Kept s0 a.st) (h2 : Kept s0 b.st) :
    Kept s0 (if c then a else b).st := by split <;> assumption

theorem takePath_kept {s0 : State} {f : FailPath} {o : PathOut} (hk : Kept s0 o.st) :
    Kept s0 (takePath f o).st := by
  have h := logPath_kept (f := f) hk
  have hs : ∀ u : State, Kept s0 u → Kept s0 { u with res := { u.res with secureDue := true } } := fun u h => h
  unfold takePath
  dsimp only
  split
  · exact addInput_kept h
  · exact addInput_kept h
  · dsimp only
    exact Kept.ite (planDue_kept h) (Kept.ite (hs _ h) h)
  · exact h
  · exact Kept.iteOut (addInput_kept (Kept.ite (disableCore_kept h) h)) h
  · exact h
  · exact h

theorem takeLost_kept {s0 : State} {pos : Nat} {o : PathOut} (hk : Kept s0 o.st) : Kept s0 (takeLost pos o).st := by
  have hr : ∀ (u : State) (a b : Bool), Kept s0 u → Kept s0 { u with res := { u.res with secureDue := a, filling := b } } :=
    fun u a b h => h
  have hc : ∀ (u : State) (a : Bool), Kept s0 u → Kept s0 { u with res := { u.res with compare := a } } := fun u a h => h
  have hp : ∀ (u : State) (p : Option Plan), Kept s0 u → Kept s0 { u with plan := p } := fun u p h => h
  unfold takeLost
  split
  · exact hk
  · rename_i p _
    dsimp only
    refine Kept.iteOut (addInput_kept hk) ?_
    · split
      · have h := logPath_kept (f := { code := 8, pos := pos, part := 0, arg := 0 }) hk
        generalize logPath { code := 8, pos := pos, part := 0, arg := 0 } o.st = u at *
        exact addInput_kept (Kept.ite (hp _ _ (hr u _ _ h)) (hr u _ _ h))
      · have h := logPath_kept (f := { code := 7, pos := pos, part := 0, arg := 0 }) hk
        generalize logPath { code := 7, pos := pos, part := 0, arg := 0 } o.st = u at *
        have h2 : Kept s0 (addInput 4 pos 0 (baseReplica u p pos)
            (if baseReplica u p pos = baseReplica u p (myPos u) then dropReplica u else u)) :=
          addInput_kept (Kept.ite (dropReplica_kept h) h)
        exact Kept.ite (hc _ _ h2) h2

theorem takeAll_kept {s0 s : State} (hk : Kept s0 s) : Kept s0 (takeAll s).st := by
  have h1 : ∀ (l : List FailPath) (o : PathOut), Kept s0 o.st → Kept s0 (l.foldl (fun o f => takePath f o) o).st := by
    intro l
    induction l with
    | nil => exact fun o h => h
    | cons x t ih => exact fun o h => ih _ (takePath_kept h)
  have h2 : ∀ (l : List Nat) (o : PathOut), Kept s0 o.st → Kept s0 (l.foldl (fun o q => takeLost q o) o).st := by
    intro l
    induction l with
    | nil => exact fun o h => h
    | cons x t ih => exact fun o h => ih _ (takeLost_kept h)
  have hr : ∀ (u : State) (a : List Nat) (d : List (Nat × Nat)), Kept s0 u →
      Kept s0 { u with res := { u.res with lost := a, declared := d } } := fun u a d h => h
  have hp : ∀ (u : State) (a : List FailPath), Kept s0 u → Kept s0 { u with res := { u.res with paths := a } } := fun u a h => h
  exact hr _ _ _ (h2 _ _ (h1 _ _ (hp _ _ hk)))

theorem takePaths_kept {s0 s : State} (hk : Kept s0 s) : Kept s0 (takePaths s).st := by
  have hd : ∀ (u : State) (b : Bool), Kept s0 u → Kept s0 { u with res := { u.res with secureDue := b } } := fun u b h => h
  have hr : ∀ (u : State) (b : Bool) (r : RunSt), Kept s0 u → Kept s0 { u with res := { u.res with secureDue := b }, run := r } :=
    fun u b r h => h
  exact hr _ _ _ (takeAll_kept (hd s false hk))

theorem replan_kept {s0 : State} {old : List (Nat × Nat)} {n : Nat} {o : PathOut} (hk : Kept s0 o.st) :
    Kept s0 (replan old n o).st := by
  have hc : ∀ (u : State) (c : CoxSt), Kept s0 u → Kept s0 { u with cox := c } := fun u c h => h
  have hr : ∀ (u : State) (r : RunSt), Kept s0 u → Kept s0 { u with run := r } := fun u r h => h
  unfold replan
  split
  · exact hk
  · rename_i pk _
    split
    · exact hk
    · dsimp only
      generalize hx : planWithdraw pk n old _ _ = x
      have h : Kept s0 x.1 := hx ▸ planWithdraw_kept (hc _ _ hk)
      obtain ⟨u, r⟩ := x
      cases r with
      | none => exact hr _ _ h
      | some pl =>
        dsimp only
        have h2 := installReplan_kept (pl := pl) h
        exact Kept.ite (c := (pl.positions.any (·.shared)) = true) (attn_kept (cls := 2) h2) h2

theorem actionThree_kept {s0 s : State} {b : BoundaryIn} {old : List (Nat × Nat)} {n : Nat} (hk : Kept s0 s) :
    Kept s0 (actionThree b old n s) := by
  have hr : ∀ (u : State) (r : RunSt), Kept s0 u → Kept s0 { u with run := r } := fun u r h => h
  have hcr : ∀ (u : State) (c : CoxSt) (r : RunSt), Kept s0 u → Kept s0 { u with cox := c, run := r } := fun u c r h => h
  have h := takePaths_kept hk
  unfold actionThree
  generalize takePaths s = o at *
  dsimp only
  split
  · exact hr _ _ (replan_kept h)
  · split
    · exact beginReplay_kept (hcr _ _ _ (loadImage_kept (hr _ _ (replan_kept (o := { o with st := _ }) (preLoad_kept h)))))
    · exact unrecoverable_kept (hr _ _ h)

theorem riskAction_kept {s0 s : State}  (hk : Kept s0 s) :
    Kept s0 (riskAction  s) := by
  unfold riskAction
  repeat' (first
    | with_reducible assumption
    | with_reducible apply attn_kept
    | with_reducible apply logEv_kept
    | (with_reducible apply Kept.upd; on_goal 1 => (first | with_reducible assumption | with_reducible apply Kept.ite | with_reducible apply attn_kept | with_reducible apply logEv_kept | with_reducible apply Kept.foldl | with_reducible apply Kept.forEach | (with_reducible apply Kept.upd; on_goal 1 => (first | with_reducible assumption | with_reducible apply attn_kept | with_reducible apply logEv_kept))))
    | with_reducible rfl)

theorem stopDue_kept {s0 s : State}  (hk : Kept s0 s) :
    Kept s0 (stopDue  s) := by
  unfold stopDue
  repeat' (first
    | with_reducible assumption
    | with_reducible apply stopBegins_kept
    | with_reducible apply logEv_kept
    | (with_reducible apply Kept.upd; on_goal 1 => (first | with_reducible assumption | with_reducible apply Kept.ite | with_reducible apply stopBegins_kept | with_reducible apply logEv_kept | with_reducible apply Kept.foldl | with_reducible apply Kept.forEach | (with_reducible apply Kept.upd; on_goal 1 => (first | with_reducible assumption | with_reducible apply stopBegins_kept | with_reducible apply logEv_kept))))
    | with_reducible rfl)

theorem stepReply_kept {s0 s : State}  (hk : Kept s0 s) :
    Kept s0 (stepReply  s) := by
  unfold stepReply
  repeat' (first
    | with_reducible assumption
    | with_reducible apply reply_kept
    | (with_reducible apply Kept.upd; on_goal 1 => (first | with_reducible assumption | with_reducible apply Kept.ite | with_reducible apply reply_kept | with_reducible apply Kept.foldl | with_reducible apply Kept.forEach | (with_reducible apply Kept.upd; on_goal 1 => (first | with_reducible assumption | with_reducible apply reply_kept))))
    | with_reducible rfl)

theorem planReply_kept {s0 s : State}  (hk : Kept s0 s) :
    Kept s0 (planReply  s) := by
  unfold planReply
  repeat' (first
    | with_reducible assumption
    | with_reducible apply complete_kept
    | (with_reducible apply Kept.upd; on_goal 1 => (first | with_reducible assumption | with_reducible apply Kept.ite | with_reducible apply complete_kept | with_reducible apply Kept.foldl | with_reducible apply Kept.forEach | (with_reducible apply Kept.upd; on_goal 1 => (first | with_reducible assumption | with_reducible apply complete_kept))))
    | (show _ = _; rfl)
    | split)

theorem secureReplies_kept {s0 s : State}  (hk : Kept s0 s) :
    Kept s0 (secureReplies  s) := by
  unfold secureReplies
  repeat' (first
    | with_reducible assumption
    | intro (x : State) hx
    | with_reducible apply complete_kept
    | (with_reducible apply Kept.upd; on_goal 1 => (first | with_reducible assumption | with_reducible apply Kept.ite | with_reducible apply complete_kept | with_reducible apply Kept.foldl | with_reducible apply Kept.forEach | (with_reducible apply Kept.upd; on_goal 1 => (first | with_reducible assumption | with_reducible apply complete_kept))))
    | (show _ = _; rfl)
    | (lift_lets; intro x))

theorem pauseReplies_kept {s0 s : State}  (hk : Kept s0 s) :
    Kept s0 (pauseReplies  s) := by
  unfold pauseReplies
  repeat' (first
    | with_reducible assumption
    | intro (x : State) hx
    | with_reducible apply complete_kept
    | (with_reducible apply Kept.upd; on_goal 1 => (first | with_reducible assumption | with_reducible apply Kept.ite | with_reducible apply complete_kept | with_reducible apply Kept.foldl | with_reducible apply Kept.forEach | (with_reducible apply Kept.upd; on_goal 1 => (first | with_reducible assumption | with_reducible apply complete_kept))))
    | (show _ = _; rfl)
    | (lift_lets; intro x))

theorem runWideReplies_kept {s0 s : State}  (hk : Kept s0 s) :
    Kept s0 (runWideReplies  s) := by
  unfold runWideReplies
  repeat' (first
    | with_reducible assumption
    | with_reducible apply pauseReplies_kept
    | with_reducible apply secureReplies_kept
    | with_reducible apply planReply_kept)

theorem abortPending_kept {s0 s : State}  (hk : Kept s0 s) :
    Kept s0 (abortPending  s) := by
  unfold abortPending
  repeat' (first
    | with_reducible assumption
    | intro (x : State) hx
    | with_reducible apply complete_kept
    | (with_reducible apply Kept.upd; on_goal 1 => (first | with_reducible assumption | with_reducible apply Kept.ite | with_reducible apply complete_kept | with_reducible apply Kept.foldl | with_reducible apply Kept.forEach | (with_reducible apply Kept.upd; on_goal 1 => (first | with_reducible assumption | with_reducible apply complete_kept))))
    | (show _ = _; rfl)
    | (lift_lets; intro x))

theorem afterBoundary_kept {s0 s : State}  (hk : Kept s0 s) :
    Kept s0 (afterBoundary  s) := by
  unfold afterBoundary
  repeat' (first
    | with_reducible assumption
    | with_reducible apply nextEpoch_kept
    | with_reducible apply attn_kept
    | with_reducible apply endRun_kept
    | (with_reducible apply Kept.upd; on_goal 1 => (first | with_reducible assumption | with_reducible apply Kept.ite | with_reducible apply nextEpoch_kept | with_reducible apply attn_kept | with_reducible apply endRun_kept | with_reducible apply Kept.foldl | with_reducible apply Kept.forEach | (with_reducible apply Kept.upd; on_goal 1 => (first | with_reducible assumption | with_reducible apply nextEpoch_kept | with_reducible apply attn_kept | with_reducible apply endRun_kept))))
    | with_reducible rfl)

theorem finishBoundary_kept {s0 s : State}  (hk : Kept s0 s) :
    Kept s0 (finishBoundary  s) := by
  unfold finishBoundary
  repeat' (first
    | with_reducible assumption
    | with_reducible apply Kept.ite
    | with_reducible apply stepReply_kept
    | with_reducible apply runWideReplies_kept
    | with_reducible apply abortPending_kept
    | with_reducible apply afterBoundary_kept)

theorem replayCompare_kept {s0 s : State} {n : Nat} (hk : Kept s0 s) :
    Kept s0 (replayCompare n s) := by
  unfold replayCompare
  repeat' (first
    | with_reducible assumption
    | with_reducible apply logEv_kept
    | (with_reducible apply Kept.upd; on_goal 1 => (first | with_reducible assumption | with_reducible apply Kept.ite | with_reducible apply logEv_kept | with_reducible apply Kept.foldl | with_reducible apply Kept.forEach | (with_reducible apply Kept.upd; on_goal 1 => (first | with_reducible assumption | with_reducible apply logEv_kept))))
    | with_reducible rfl)

theorem boundaryHold_kept {s0 s : State}  (hk : Kept s0 s) :
    Kept s0 (boundaryHold  s) := by
  unfold boundaryHold
  repeat' (first
    | with_reducible assumption
    | with_reducible apply logPath_kept
    | (with_reducible apply Kept.upd; on_goal 1 => (first | with_reducible assumption | with_reducible apply Kept.ite | with_reducible apply logPath_kept | with_reducible apply Kept.foldl | with_reducible apply Kept.forEach | (with_reducible apply Kept.upd; on_goal 1 => (first | with_reducible assumption | with_reducible apply logPath_kept))))
    | with_reducible rfl)

theorem actionsFourFive_kept {s0 s : State}  (hk : Kept s0 s) :
    Kept s0 (actionsFourFive  s) := by
  unfold actionsFourFive
  repeat' (first
    | with_reducible assumption
    | with_reducible apply riskAction_kept
    | with_reducible apply stopDue_kept
    | with_reducible apply finishBoundary_kept
    | (with_reducible apply Kept.upd; on_goal 1 => (first | with_reducible assumption | with_reducible apply Kept.ite | with_reducible apply riskAction_kept | with_reducible apply stopDue_kept | with_reducible apply finishBoundary_kept | with_reducible apply Kept.foldl | with_reducible apply Kept.forEach | (with_reducible apply Kept.upd; on_goal 1 => (first | with_reducible assumption | with_reducible apply riskAction_kept | with_reducible apply stopDue_kept | with_reducible apply finishBoundary_kept))))
    | with_reducible rfl)

theorem afterThree_kept {s0 s : State}  (hk : Kept s0 s) :
    Kept s0 (afterThree  s) := by
  unfold afterThree
  repeat' (first
    | with_reducible assumption
    | with_reducible apply Kept.ite
    | with_reducible apply actionsFourFive_kept)

theorem resumeBoundary_kept {s0 s : State} {ok : Bool} (hk : Kept s0 s) :
    Kept s0 (resumeBoundary ok s) := by
  unfold resumeBoundary
  repeat' (first
    | with_reducible assumption
    | with_reducible apply actionsFourFive_kept
    | (with_reducible apply Kept.upd; on_goal 1 => (first | with_reducible assumption | with_reducible apply Kept.ite | with_reducible apply actionsFourFive_kept | with_reducible apply Kept.foldl | with_reducible apply Kept.forEach | (with_reducible apply Kept.upd; on_goal 1 => (first | with_reducible assumption | with_reducible apply actionsFourFive_kept))))
    | with_reducible rfl)

theorem decided_kept {s0 s : State}  (hk : Kept s0 s) :
    Kept s0 (decided  s) := by
  unfold decided
  repeat' (first
    | with_reducible assumption
    | with_reducible apply commit_kept
    | with_reducible apply runWidePlan_kept
    | with_reducible apply coxBoundary_kept
    | with_reducible apply keepHistory_kept
    | (with_reducible apply Kept.upd; on_goal 1 => (first | with_reducible assumption | with_reducible apply Kept.ite | with_reducible apply commit_kept | with_reducible apply runWidePlan_kept | with_reducible apply coxBoundary_kept | with_reducible apply keepHistory_kept | with_reducible apply Kept.foldl | with_reducible apply Kept.forEach | (with_reducible apply Kept.upd; on_goal 1 => (first | with_reducible assumption | with_reducible apply commit_kept | with_reducible apply runWidePlan_kept | with_reducible apply coxBoundary_kept | with_reducible apply keepHistory_kept))))
    | with_reducible rfl)

theorem committedBoundary_kept {s0 s : State} {b : BoundaryIn} (hk : Kept s0 s) :
    Kept s0 (committedBoundary b s) := by
  unfold committedBoundary
  repeat' (first
    | with_reducible assumption
    | with_reducible apply afterThree_kept
    | with_reducible apply boundaryHold_kept
    | with_reducible apply actionThree_kept
    | with_reducible apply replayCompare_kept
    | with_reducible apply decided_kept)

theorem heldStart_kept {s0 s : State}  (hk : Kept s0 s) :
    Kept s0 (heldStart  s) := by
  unfold heldStart
  repeat' (first
    | with_reducible assumption
    | (with_reducible apply Kept.upd; on_goal 1 => (first | with_reducible assumption | with_reducible apply Kept.ite | with_reducible apply Kept.foldl | with_reducible apply Kept.forEach | (with_reducible apply Kept.upd; on_goal 1 => (first | with_reducible assumption))))
    | with_reducible rfl)

theorem heldBoundary_kept {s0 s : State} {b : BoundaryIn} (hk : Kept s0 s) :
    Kept s0 (heldBoundary b s) := by
  unfold heldBoundary
  repeat' (first
    | with_reducible assumption
    | with_reducible apply afterThree_kept
    | with_reducible apply actionThree_kept
    | with_reducible apply heldStart_kept)

theorem stepBoundary_kept {s0 s : State} {b : BoundaryIn} (hk : Kept s0 s) :
    Kept s0 (stepBoundary b s) := by
  unfold stepBoundary
  repeat' (first
    | with_reducible assumption
    | with_reducible apply Kept.ite
    | with_reducible apply committedBoundary_kept
    | with_reducible apply heldBoundary_kept)


end Sys2Proof.Machine
end

