-- ==== Sys2Proof/Laws/KeptUnits.lean ====
section
/-! SUPPORT. `Kept` of the operations of the core's units, arriving packets and secure stops. -/

namespace Sys2Proof.Machine

open Sys2Proof

theorem releaseSource_kept {s0 s : State} {i : Nat} (hk : Kept s0 s) :
    Kept s0 (releaseSource i s) := by
  unfold releaseSource
  repeat' (first
    | with_reducible assumption
    | with_reducible apply writeCounts_kept
    | with_reducible apply modSource_kept)

theorem startHostCopy_kept {s0 s : State}  (hk : Kept s0 s) :
    Kept s0 (startHostCopy  s) := by
  unfold startHostCopy
  repeat' (first
    | with_reducible assumption
    | (with_reducible apply Kept.upd; on_goal 1 => (first | with_reducible assumption | with_reducible apply Kept.ite | with_reducible apply Kept.foldl | with_reducible apply Kept.forEach | (with_reducible apply Kept.upd; on_goal 1 => (first | with_reducible assumption))))
    | with_reducible rfl)

theorem stopKept_kept {s0 s : State} {p : Plan} {pk : Pkg} {wd : Nat} (hk : Kept s0 s) :
    Kept s0 (stopKept p pk wd s) := by
  unfold stopKept
  repeat' (first
    | with_reducible assumption
    | intro (x : State) hx
    | with_reducible apply attn_kept
    | with_reducible apply logEv_kept
    | with_reducible apply lifeAdd_kept
    | with_reducible apply bump_kept
    | with_reducible apply emptyJournal_kept
    | with_reducible apply finishBoundary_kept
    | with_reducible apply startHostCopy_kept
    | with_reducible apply releaseSource_kept
    | (with_reducible apply Kept.upd; on_goal 1 => (first | with_reducible assumption | with_reducible apply Kept.ite | with_reducible apply attn_kept | with_reducible apply logEv_kept | with_reducible apply lifeAdd_kept | with_reducible apply bump_kept | with_reducible apply emptyJournal_kept | with_reducible apply finishBoundary_kept | with_reducible apply startHostCopy_kept | with_reducible apply releaseSource_kept | with_reducible apply Kept.foldl | with_reducible apply Kept.forEach | (with_reducible apply Kept.upd; on_goal 1 => (first | with_reducible assumption | with_reducible apply attn_kept | with_reducible apply logEv_kept | with_reducible apply lifeAdd_kept | with_reducible apply bump_kept | with_reducible apply emptyJournal_kept | with_reducible apply finishBoundary_kept | with_reducible apply startHostCopy_kept | with_reducible apply releaseSource_kept))))
    | (show _ = _; rfl)
    | (lift_lets; intro x))

theorem stopAbandoned_kept {s0 s : State} {kept : Bool} (hk : Kept s0 s) :
    Kept s0 (stopAbandoned kept s) := by
  unfold stopAbandoned
  repeat' (first
    | with_reducible assumption
    | with_reducible apply holdNow_kept
    | with_reducible apply finishBoundary_kept
    | (with_reducible apply Kept.upd; on_goal 1 => (first | with_reducible assumption | with_reducible apply Kept.ite | with_reducible apply holdNow_kept | with_reducible apply finishBoundary_kept | with_reducible apply Kept.foldl | with_reducible apply Kept.forEach | (with_reducible apply Kept.upd; on_goal 1 => (first | with_reducible assumption | with_reducible apply holdNow_kept | with_reducible apply finishBoundary_kept))))
    | with_reducible rfl)

theorem secureStopComplete_kept {s0 s : State}  (hk : Kept s0 s) :
    Kept s0 (secureStopComplete  s) := by
  unfold secureStopComplete
  repeat' (first
    | with_reducible assumption
    | with_reducible apply stopAbandoned_kept
    | with_reducible apply stopKept_kept
    | split)

theorem restoreInput_kept {s0 s : State} {pk : Pkg} {d : List Byte} (hk : Kept s0 s) :
    Kept s0 (restoreInput pk d s) := by
  unfold restoreInput
  repeat' (first
    | with_reducible assumption
    | with_reducible apply loadInput_kept
    | (with_reducible apply Kept.upd; on_goal 1 => (first | with_reducible assumption | with_reducible apply Kept.ite | with_reducible apply loadInput_kept | with_reducible apply Kept.foldl | with_reducible apply Kept.forEach | (with_reducible apply Kept.upd; on_goal 1 => (first | with_reducible assumption | with_reducible apply loadInput_kept))))
    | with_reducible rfl)

theorem restoreLoad_kept {s0 s : State} {pk : Pkg} {pl : Plan} {d : List Byte} (hk : Kept s0 s) :
    Kept s0 (restoreLoad pk pl d s) := by
  unfold restoreLoad
  repeat' (first
    | with_reducible assumption
    | with_reducible apply installPlan_kept
    | with_reducible apply loadImage_kept
    | with_reducible apply emptyJournal_kept
    | with_reducible apply sendDigest_kept
    | (with_reducible apply Kept.upd; on_goal 1 => (first | with_reducible assumption | with_reducible apply Kept.ite | with_reducible apply installPlan_kept | with_reducible apply loadImage_kept | with_reducible apply emptyJournal_kept | with_reducible apply sendDigest_kept | with_reducible apply Kept.foldl | with_reducible apply Kept.forEach | (with_reducible apply Kept.upd; on_goal 1 => (first | with_reducible assumption | with_reducible apply installPlan_kept | with_reducible apply loadImage_kept | with_reducible apply emptyJournal_kept | with_reducible apply sendDigest_kept))))
    | with_reducible rfl)

theorem restoreBody_kept {s0 s : State} {q : Nat} {image : HostData} {e : List Byte} (hk : Kept s0 s) :
    Kept s0 (restoreBody q image e s) := by
  unfold restoreBody
  repeat' (first
    | with_reducible assumption
    | with_reducible apply complete_kept
    | with_reducible apply restoreInput_kept
    | with_reducible apply restoreLoad_kept
    | (lift_lets; intro x)
    | split)

theorem logReplay_kept {s0 s : State} {loss : Word} {outcome : Nat} (hk : Kept s0 s) :
    Kept s0 (logReplay loss outcome s) := by
  unfold logReplay
  repeat' (first | with_reducible assumption | with_reducible apply logEv_kept)

theorem replayPassed_kept {s0 s : State} {pk : Pkg} (hk : Kept s0 s) : Kept s0 (replayPassed pk s) := by
  have hd : ∀ (u : State) (b : Bool) (d : DevState), Kept s0 u →
      Kept s0 { u with res := { u.res with restorePending := b }, dev := d } := fun u b d h => h
  have hc : ∀ (u : State) (b : Bool), Kept s0 u → Kept s0 { u with res := { u.res with coxLost := b } } := fun u b h => h
  have h := hd s false .held hk
  exact Kept.ite h (replan_kept (o := { st := _, rollback := false, hold := 0 }) (startRecovery_kept (hc _ _ h)))

theorem replayBody_kept {s0 s : State} {q : Nat} {loss tokens : Word} {wsum : Nat} {e : List Byte} (hk : Kept s0 s) :
    Kept s0 (replayBody q loss tokens wsum e s) := by
  unfold replayBody
  repeat' (first
    | with_reducible assumption
    | with_reducible apply complete_kept
    | with_reducible apply replayPassed_kept
    | with_reducible apply logReplay_kept
    | (with_reducible apply Kept.upd; on_goal 1 => (first | with_reducible assumption | with_reducible apply Kept.ite | with_reducible apply complete_kept | with_reducible apply replayPassed_kept | with_reducible apply logReplay_kept | with_reducible apply Kept.foldl | with_reducible apply Kept.forEach | (with_reducible apply Kept.upd; on_goal 1 => (first | with_reducible assumption | with_reducible apply complete_kept | with_reducible apply replayPassed_kept | with_reducible apply logReplay_kept))))
    | (show _ = _; rfl)
    | split)


end Sys2Proof.Machine

namespace Sys2Proof.Machine

open Sys2Proof

theorem digestResult_kept {s0 s : State} {acc : Nat} (hk : Kept s0 s) :
    Kept s0 (digestResult acc s) := by
  unfold digestResult
  repeat' (first
    | with_reducible assumption
    | with_reducible apply resumeBoundary_kept
    | with_reducible apply logEv_kept
    | (with_reducible apply Kept.upd; on_goal 1 => (first | with_reducible assumption | with_reducible apply Kept.ite | with_reducible apply resumeBoundary_kept | with_reducible apply logEv_kept | with_reducible apply Kept.foldl | with_reducible apply Kept.forEach | (with_reducible apply Kept.upd; on_goal 1 => (first | with_reducible assumption | with_reducible apply resumeBoundary_kept | with_reducible apply logEv_kept))))
    | with_reducible rfl)

theorem ctlResult_kept {s0 s : State} {id acc : Nat} (hk : Kept s0 s) :
    Kept s0 (ctlResult id acc s) := by
  unfold ctlResult
  repeat' (first
    | with_reducible assumption
    | with_reducible apply startCheck_kept
    | with_reducible apply digestResult_kept
    | with_reducible apply holdFrom_kept
    | with_reducible apply instanceResult_kept
    | with_reducible apply redResult_kept
    | (with_reducible apply Kept.upd; on_goal 1 => (first | with_reducible assumption | with_reducible apply Kept.ite | with_reducible apply startCheck_kept | with_reducible apply digestResult_kept | with_reducible apply holdFrom_kept | with_reducible apply instanceResult_kept | with_reducible apply redResult_kept | with_reducible apply Kept.foldl | with_reducible apply Kept.forEach | (with_reducible apply Kept.upd; on_goal 1 => (first | with_reducible assumption | with_reducible apply startCheck_kept | with_reducible apply digestResult_kept | with_reducible apply holdFrom_kept | with_reducible apply instanceResult_kept | with_reducible apply redResult_kept))))
    | with_reducible rfl)

theorem distCheck_kept {s0 s : State}  (hk : Kept s0 s) :
    Kept s0 (distCheck  s) := by
  unfold distCheck
  repeat' (first
    | with_reducible assumption
    | intro (x : State) hx
    | with_reducible apply Kept.ite
    | with_reducible apply ctlOwn_kept
    | with_reducible apply ctlResult_kept
    | (lift_lets; intro x))

theorem digestCheck_kept {s0 s : State}  (hk : Kept s0 s) :
    Kept s0 (digestCheck  s) := by
  unfold digestCheck
  repeat' (first
    | with_reducible assumption
    | with_reducible apply Kept.ite
    | with_reducible apply ctlOwn_kept
    | with_reducible apply ctlResult_kept
    | intro x
    | split)

theorem readyStroke_kept {s0 s : State}  (hk : Kept s0 s) :
    Kept s0 (readyStroke  s) := by
  unfold readyStroke
  repeat' (first
    | with_reducible assumption
    | intro (x : State) hx
    | with_reducible apply Kept.ite
    | with_reducible apply ctlOwn_kept
    | with_reducible apply ctlResult_kept
    | (lift_lets; intro x))

theorem keptCheck_kept {s0 s : State}  (hk : Kept s0 s) :
    Kept s0 (keptCheck  s) := by
  unfold keptCheck
  repeat' (first
    | with_reducible assumption
    | intro (x : State) hx
    | with_reducible apply Kept.ite
    | with_reducible apply ctlOwn_kept
    | with_reducible apply ctlResult_kept
    | (lift_lets; intro x))

theorem replayDecisions_kept {s0 s : State}  (hk : Kept s0 s) :
    Kept s0 (replayDecisions  s) := by
  unfold replayDecisions
  repeat' (first
    | with_reducible assumption
    | with_reducible apply portLost_kept
    | with_reducible apply straggler_kept
    | (with_reducible apply Kept.upd; on_goal 1 => (first | with_reducible assumption | with_reducible apply Kept.ite | with_reducible apply portLost_kept | with_reducible apply straggler_kept | with_reducible apply Kept.foldl | with_reducible apply Kept.forEach | (with_reducible apply Kept.upd; on_goal 1 => (first | with_reducible assumption | with_reducible apply portLost_kept | with_reducible apply straggler_kept))))
    | (show _ = _; rfl)
    | intro x)

theorem nextPhase_kept {s0 s : State}  (hk : Kept s0 s) :
    Kept s0 (nextPhase  s) := by
  unfold nextPhase
  repeat' (first
    | with_reducible assumption
    | with_reducible apply startScaleFind_kept
    | with_reducible apply startReduction_kept
    | with_reducible apply startStats_kept
    | with_reducible apply setPhase_kept
    | with_reducible apply combineRound_kept
    | with_reducible apply takeScales_kept
    | with_reducible apply distCheck_kept
    | with_reducible apply startExchange_kept
    | with_reducible apply replayDecisions_kept
    | with_reducible apply beginStep_kept
    | (with_reducible apply Kept.upd; on_goal 1 => (first | with_reducible assumption | with_reducible apply Kept.ite | with_reducible apply startScaleFind_kept | with_reducible apply startReduction_kept | with_reducible apply startStats_kept | with_reducible apply setPhase_kept | with_reducible apply combineRound_kept | with_reducible apply takeScales_kept | with_reducible apply distCheck_kept | with_reducible apply startExchange_kept | with_reducible apply replayDecisions_kept | with_reducible apply beginStep_kept | with_reducible apply Kept.foldl | with_reducible apply Kept.forEach | (with_reducible apply Kept.upd; on_goal 1 => (first | with_reducible assumption | with_reducible apply startScaleFind_kept | with_reducible apply startReduction_kept | with_reducible apply startStats_kept | with_reducible apply setPhase_kept | with_reducible apply combineRound_kept | with_reducible apply takeScales_kept | with_reducible apply distCheck_kept | with_reducible apply startExchange_kept | with_reducible apply replayDecisions_kept | with_reducible apply beginStep_kept))))
    | (show _ = _; rfl)
    | split)

theorem easyArray_kept {s0 s : State} {c a : Nat} (hk : Kept s0 s) :
    Kept s0 (easyArray c a s) := by
  unfold easyArray
  repeat' (first
    | with_reducible assumption
    | with_reducible apply Kept.ite
    | with_reducible apply beginGap_kept)

theorem easyEdge_kept {s0 s : State}  (hk : Kept s0 s) :
    Kept s0 (easyEdge  s) := by
  unfold easyEdge
  repeat' (first
    | with_reducible assumption
    | intro (x : State) hx
    | with_reducible apply lifeAdd_kept
    | with_reducible apply bump_kept
    | with_reducible apply easyArray_kept
    | with_reducible apply traceRec_kept
    | (with_reducible apply Kept.upd; on_goal 1 => (first | with_reducible assumption | with_reducible apply Kept.ite | with_reducible apply lifeAdd_kept | with_reducible apply bump_kept | with_reducible apply easyArray_kept | with_reducible apply traceRec_kept | with_reducible apply Kept.foldl | with_reducible apply Kept.forEach | (with_reducible apply Kept.upd; on_goal 1 => (first | with_reducible assumption | with_reducible apply lifeAdd_kept | with_reducible apply bump_kept | with_reducible apply easyArray_kept | with_reducible apply traceRec_kept))))
    | (show _ = _; rfl)
    | (lift_lets; intro x))

theorem slotEdge_kept {s0 s : State}  (hk : Kept s0 s) :
    Kept s0 (slotEdge  s) := by
  unfold slotEdge
  repeat' (first
    | with_reducible assumption
    | with_reducible apply bump_kept
    | (with_reducible apply Kept.upd; on_goal 1 => (first | with_reducible assumption | with_reducible apply Kept.ite | with_reducible apply bump_kept | with_reducible apply Kept.foldl | with_reducible apply Kept.forEach | (with_reducible apply Kept.upd; on_goal 1 => (first | with_reducible assumption | with_reducible apply bump_kept))))
    | with_reducible rfl)

theorem edgeRest_kept {s0 s : State}  (hk : Kept s0 s) :
    Kept s0 (edgeRest  s) := by
  unfold edgeRest
  repeat' (first
    | with_reducible assumption
    | with_reducible apply standEdge_kept
    | with_reducible apply takeRaised_kept
    | with_reducible apply closeHealth_kept
    | with_reducible apply closeCatch_kept
    | with_reducible apply closeLock_kept
    | with_reducible apply lifeAdd_kept
    | with_reducible apply residencies_kept
    | with_reducible apply easyEdge_kept
    | with_reducible apply nextPhase_kept
    | with_reducible apply slotEdge_kept
    | with_reducible apply readyStroke_kept
    | with_reducible apply keptCheck_kept
    | with_reducible apply digestCheck_kept
    | with_reducible apply startEdge_kept
    | with_reducible apply secureEdge_kept
    | with_reducible apply avsRequest_kept
    | with_reducible apply wakeAll_kept
    | with_reducible apply dueSnapshots_kept
    | with_reducible apply sendCatch_kept
    | with_reducible apply copyStroke_kept
    | (with_reducible apply Kept.upd; on_goal 1 => (first | with_reducible assumption | with_reducible apply Kept.ite | with_reducible apply standEdge_kept | with_reducible apply takeRaised_kept | with_reducible apply closeHealth_kept | with_reducible apply closeCatch_kept | with_reducible apply closeLock_kept | with_reducible apply lifeAdd_kept | with_reducible apply residencies_kept | with_reducible apply easyEdge_kept | with_reducible apply nextPhase_kept | with_reducible apply slotEdge_kept | with_reducible apply readyStroke_kept | with_reducible apply keptCheck_kept | with_reducible apply digestCheck_kept | with_reducible apply startEdge_kept | with_reducible apply secureEdge_kept | with_reducible apply avsRequest_kept | with_reducible apply wakeAll_kept | with_reducible apply dueSnapshots_kept | with_reducible apply sendCatch_kept | with_reducible apply copyStroke_kept | with_reducible apply Kept.foldl | with_reducible apply Kept.forEach | (with_reducible apply Kept.upd; on_goal 1 => (first | with_reducible assumption | with_reducible apply standEdge_kept | with_reducible apply takeRaised_kept | with_reducible apply closeHealth_kept | with_reducible apply closeCatch_kept | with_reducible apply closeLock_kept | with_reducible apply lifeAdd_kept | with_reducible apply residencies_kept | with_reducible apply easyEdge_kept | with_reducible apply nextPhase_kept | with_reducible apply slotEdge_kept | with_reducible apply readyStroke_kept | with_reducible apply keptCheck_kept | with_reducible apply digestCheck_kept | with_reducible apply startEdge_kept | with_reducible apply secureEdge_kept | with_reducible apply avsRequest_kept | with_reducible apply wakeAll_kept | with_reducible apply dueSnapshots_kept | with_reducible apply sendCatch_kept | with_reducible apply copyStroke_kept))))
    | with_reducible rfl)

theorem edgeCount_kept {s0 s : State}  (hk : Kept s0 s) :
    Kept s0 (edgeCount  s) := by
  unfold edgeCount
  repeat' (first
    | with_reducible assumption
    | with_reducible apply standEdge_kept
    | with_reducible apply takeRaised_kept
    | with_reducible apply closeHealth_kept
    | with_reducible apply closeCatch_kept
    | with_reducible apply closeLock_kept
    | with_reducible apply lifeAdd_kept
    | with_reducible apply residencies_kept
    | with_reducible apply easyEdge_kept
    | with_reducible apply nextPhase_kept
    | with_reducible apply slotEdge_kept
    | with_reducible apply readyStroke_kept
    | with_reducible apply keptCheck_kept
    | with_reducible apply digestCheck_kept
    | with_reducible apply startEdge_kept
    | with_reducible apply secureEdge_kept
    | with_reducible apply avsRequest_kept
    | with_reducible apply wakeAll_kept
    | with_reducible apply dueSnapshots_kept
    | with_reducible apply sendCatch_kept
    | with_reducible apply copyStroke_kept
    | (with_reducible apply Kept.upd; on_goal 1 => (first | with_reducible assumption | with_reducible apply Kept.ite | with_reducible apply standEdge_kept | with_reducible apply takeRaised_kept | with_reducible apply closeHealth_kept | with_reducible apply closeCatch_kept | with_reducible apply closeLock_kept | with_reducible apply lifeAdd_kept | with_reducible apply residencies_kept | with_reducible apply easyEdge_kept | with_reducible apply nextPhase_kept | with_reducible apply slotEdge_kept | with_reducible apply readyStroke_kept | with_reducible apply keptCheck_kept | with_reducible apply digestCheck_kept | with_reducible apply startEdge_kept | with_reducible apply secureEdge_kept | with_reducible apply avsRequest_kept | with_reducible apply wakeAll_kept | with_reducible apply dueSnapshots_kept | with_reducible apply sendCatch_kept | with_reducible apply copyStroke_kept | with_reducible apply Kept.foldl | with_reducible apply Kept.forEach | (with_reducible apply Kept.upd; on_goal 1 => (first | with_reducible assumption | with_reducible apply standEdge_kept | with_reducible apply takeRaised_kept | with_reducible apply closeHealth_kept | with_reducible apply closeCatch_kept | with_reducible apply closeLock_kept | with_reducible apply lifeAdd_kept | with_reducible apply residencies_kept | with_reducible apply easyEdge_kept | with_reducible apply nextPhase_kept | with_reducible apply slotEdge_kept | with_reducible apply readyStroke_kept | with_reducible apply keptCheck_kept | with_reducible apply digestCheck_kept | with_reducible apply startEdge_kept | with_reducible apply secureEdge_kept | with_reducible apply avsRequest_kept | with_reducible apply wakeAll_kept | with_reducible apply dueSnapshots_kept | with_reducible apply sendCatch_kept | with_reducible apply copyStroke_kept))))
    | with_reducible rfl)

theorem edgeFrom_kept {s0 s : State}  (hk : Kept s0 s) :
    Kept s0 (edgeFrom  s) := by
  unfold edgeFrom
  repeat' (first
    | with_reducible assumption
    | with_reducible apply edgeCount_kept
    | with_reducible apply Kept.ite
    | with_reducible apply edgeRest_kept
    | with_reducible apply standEdge_kept
    | with_reducible apply takeRaised_kept
    | with_reducible apply closeHealth_kept
    | with_reducible apply closeCatch_kept
    | with_reducible apply closeLock_kept
    | with_reducible apply lifeAdd_kept
    | with_reducible apply residencies_kept
    | with_reducible apply easyEdge_kept
    | with_reducible apply nextPhase_kept
    | with_reducible apply slotEdge_kept
    | with_reducible apply readyStroke_kept
    | with_reducible apply keptCheck_kept
    | with_reducible apply digestCheck_kept
    | with_reducible apply startEdge_kept
    | with_reducible apply secureEdge_kept
    | with_reducible apply avsRequest_kept
    | with_reducible apply wakeAll_kept
    | with_reducible apply dueSnapshots_kept
    | with_reducible apply sendCatch_kept
    | with_reducible apply copyStroke_kept
    | (with_reducible apply Kept.upd; on_goal 1 => (first | with_reducible assumption | with_reducible apply Kept.ite | with_reducible apply standEdge_kept | with_reducible apply takeRaised_kept | with_reducible apply closeHealth_kept | with_reducible apply closeCatch_kept | with_reducible apply closeLock_kept | with_reducible apply lifeAdd_kept | with_reducible apply residencies_kept | with_reducible apply easyEdge_kept | with_reducible apply nextPhase_kept | with_reducible apply slotEdge_kept | with_reducible apply readyStroke_kept | with_reducible apply keptCheck_kept | with_reducible apply digestCheck_kept | with_reducible apply startEdge_kept | with_reducible apply secureEdge_kept | with_reducible apply avsRequest_kept | with_reducible apply wakeAll_kept | with_reducible apply dueSnapshots_kept | with_reducible apply sendCatch_kept | with_reducible apply copyStroke_kept | with_reducible apply Kept.foldl | with_reducible apply Kept.forEach | (with_reducible apply Kept.upd; on_goal 1 => (first | with_reducible assumption | with_reducible apply standEdge_kept | with_reducible apply takeRaised_kept | with_reducible apply closeHealth_kept | with_reducible apply closeCatch_kept | with_reducible apply closeLock_kept | with_reducible apply lifeAdd_kept | with_reducible apply residencies_kept | with_reducible apply easyEdge_kept | with_reducible apply nextPhase_kept | with_reducible apply slotEdge_kept | with_reducible apply readyStroke_kept | with_reducible apply keptCheck_kept | with_reducible apply digestCheck_kept | with_reducible apply startEdge_kept | with_reducible apply secureEdge_kept | with_reducible apply avsRequest_kept | with_reducible apply wakeAll_kept | with_reducible apply dueSnapshots_kept | with_reducible apply sendCatch_kept | with_reducible apply copyStroke_kept))))
    | with_reducible rfl)

theorem strokeEdge_kept {s0 s : State}  (hk : Kept s0 s) :
    Kept s0 (strokeEdge  s) := by
  unfold strokeEdge
  repeat' (first
    | with_reducible assumption
    | with_reducible apply edgeFrom_kept
    | with_reducible apply standEdge_kept
    | with_reducible apply takeRaised_kept
    | with_reducible apply closeHealth_kept
    | with_reducible apply closeCatch_kept
    | with_reducible apply closeLock_kept
    | with_reducible apply lifeAdd_kept
    | with_reducible apply residencies_kept
    | with_reducible apply easyEdge_kept
    | with_reducible apply nextPhase_kept
    | with_reducible apply slotEdge_kept
    | with_reducible apply readyStroke_kept
    | with_reducible apply keptCheck_kept
    | with_reducible apply digestCheck_kept
    | with_reducible apply startEdge_kept
    | with_reducible apply secureEdge_kept
    | with_reducible apply avsRequest_kept
    | with_reducible apply wakeAll_kept
    | with_reducible apply dueSnapshots_kept
    | with_reducible apply sendCatch_kept
    | with_reducible apply copyStroke_kept
    | (with_reducible apply Kept.upd; on_goal 1 => (first | with_reducible assumption | with_reducible apply Kept.ite | with_reducible apply standEdge_kept | with_reducible apply takeRaised_kept | with_reducible apply closeHealth_kept | with_reducible apply closeCatch_kept | with_reducible apply closeLock_kept | with_reducible apply lifeAdd_kept | with_reducible apply residencies_kept | with_reducible apply easyEdge_kept | with_reducible apply nextPhase_kept | with_reducible apply slotEdge_kept | with_reducible apply readyStroke_kept | with_reducible apply keptCheck_kept | with_reducible apply digestCheck_kept | with_reducible apply startEdge_kept | with_reducible apply secureEdge_kept | with_reducible apply avsRequest_kept | with_reducible apply wakeAll_kept | with_reducible apply dueSnapshots_kept | with_reducible apply sendCatch_kept | with_reducible apply copyStroke_kept | with_reducible apply Kept.foldl | with_reducible apply Kept.forEach | (with_reducible apply Kept.upd; on_goal 1 => (first | with_reducible assumption | with_reducible apply standEdge_kept | with_reducible apply takeRaised_kept | with_reducible apply closeHealth_kept | with_reducible apply closeCatch_kept | with_reducible apply closeLock_kept | with_reducible apply lifeAdd_kept | with_reducible apply residencies_kept | with_reducible apply easyEdge_kept | with_reducible apply nextPhase_kept | with_reducible apply slotEdge_kept | with_reducible apply readyStroke_kept | with_reducible apply keptCheck_kept | with_reducible apply digestCheck_kept | with_reducible apply startEdge_kept | with_reducible apply secureEdge_kept | with_reducible apply avsRequest_kept | with_reducible apply wakeAll_kept | with_reducible apply dueSnapshots_kept | with_reducible apply sendCatch_kept | with_reducible apply copyStroke_kept))))
    | with_reducible rfl)


theorem countEdge_kept {s0 s : State}  (hk : Kept s0 s) :
    Kept s0 (countEdge  s) := by
  unfold countEdge
  repeat' (first
    | with_reducible assumption
    | (with_reducible apply Kept.upd; on_goal 1 => (first | with_reducible assumption | with_reducible apply Kept.ite | with_reducible apply Kept.foldl | with_reducible apply Kept.forEach | (with_reducible apply Kept.upd; on_goal 1 => (first | with_reducible assumption))))
    | with_reducible rfl)

theorem guardPoint_kept {s0 s : State} {selfTest : List Nat} (hk : Kept s0 s) :
    Kept s0 (guardPoint selfTest s) := by
  unfold guardPoint
  repeat' (first
    | with_reducible assumption
    | intro (x : State) hx
    | with_reducible apply markBehind_kept
    | with_reducible apply raiseEasy_kept
    | with_reducible apply holdFrom_kept
    | with_reducible apply ctlOwn_kept
    | with_reducible apply ctlResult_kept
    | (with_reducible apply Kept.upd; on_goal 1 => (first | with_reducible assumption | with_reducible apply Kept.ite | with_reducible apply markBehind_kept | with_reducible apply raiseEasy_kept | with_reducible apply holdFrom_kept | with_reducible apply ctlOwn_kept | with_reducible apply ctlResult_kept | with_reducible apply Kept.foldl | with_reducible apply Kept.forEach | (with_reducible apply Kept.upd; on_goal 1 => (first | with_reducible assumption | with_reducible apply markBehind_kept | with_reducible apply raiseEasy_kept | with_reducible apply holdFrom_kept | with_reducible apply ctlOwn_kept | with_reducible apply ctlResult_kept))))
    | (show _ = _; rfl)
    | (lift_lets; intro x))


end Sys2Proof.Machine

namespace Sys2Proof.Machine

open Sys2Proof

theorem reduceUp_kept {s0 s : State} {h : PktHdr} {body : List Byte} (hk : Kept s0 s) :
    Kept s0 (reduceUp h body s) := by
  unfold reduceUp
  repeat' (first
    | with_reducible assumption
    | intro (x : State) hx
    | with_reducible apply Kept.ite
    | with_reducible apply ctlStep_kept
    | with_reducible apply ctlResult_kept
    | with_reducible apply ctlMod_kept
    | (lift_lets; intro x))

theorem reduceDown_kept {s0 s : State} {h : PktHdr} {body : List Byte} (hk : Kept s0 s) :
    Kept s0 (reduceDown h body s) := by
  unfold reduceDown
  repeat' (first
    | with_reducible assumption
    | with_reducible apply ctlResult_kept
    | with_reducible apply ctlClear_kept
    | with_reducible apply ctlSendDown_kept)

theorem digestPacket_kept {s0 s : State} {p b : Nat} {body : List Byte} (hk : Kept s0 s) :
    Kept s0 (digestPacket p b body s) := by
  unfold digestPacket
  repeat' (first
    | with_reducible assumption
    | with_reducible apply digestCheck_kept
    | (with_reducible apply Kept.upd; on_goal 1 => (first | with_reducible assumption | with_reducible apply Kept.ite | with_reducible apply digestCheck_kept | with_reducible apply Kept.foldl | with_reducible apply Kept.forEach | (with_reducible apply Kept.upd; on_goal 1 => (first | with_reducible assumption | with_reducible apply digestCheck_kept))))
    | with_reducible rfl)

theorem endAckPacket_kept {s0 s : State} {h : PktHdr} (hk : Kept s0 s) :
    Kept s0 (endAckPacket h s) := by
  unfold endAckPacket
  repeat' (first
    | with_reducible assumption
    | with_reducible apply ackLeg_kept
    | with_reducible apply keptCheck_kept
    | with_reducible apply distCheck_kept
    | (with_reducible apply Kept.upd; on_goal 1 => (first | with_reducible assumption | with_reducible apply Kept.ite | with_reducible apply ackLeg_kept | with_reducible apply keptCheck_kept | with_reducible apply distCheck_kept | with_reducible apply Kept.foldl | with_reducible apply Kept.forEach | (with_reducible apply Kept.upd; on_goal 1 => (first | with_reducible assumption | with_reducible apply ackLeg_kept | with_reducible apply keptCheck_kept | with_reducible apply distCheck_kept))))
    | with_reducible rfl)

theorem dataPacket_kept {s0 s : State} {p : Nat} {h : PktHdr} {body : List Byte} (hk : Kept s0 s) :
    Kept s0 (dataPacket p h body s) := by
  unfold dataPacket
  repeat' (first
    | with_reducible assumption
    | with_reducible apply Kept.ite
    | with_reducible apply resultData_kept
    | with_reducible apply badPacket_kept
    | with_reducible apply bump_kept
    | with_reducible apply destPut_kept
    | with_reducible apply returnCredit_kept
    | with_reducible apply modDesc_kept
    | split)

theorem endPacket_kept {s0 s : State} {p : Nat} {h : PktHdr} (hk : Kept s0 s) :
    Kept s0 (endPacket p h s) := by
  unfold endPacket
  repeat' (first
    | with_reducible assumption
    | with_reducible apply resultEnd_kept
    | with_reducible apply badPacket_kept
    | with_reducible apply bump_kept
    | with_reducible apply skewZeros_kept
    | with_reducible apply modDesc_kept
    | with_reducible apply addMark_kept
    | with_reducible apply settle_kept
    | with_reducible apply sendTo_kept
    | (with_reducible apply Kept.upd; on_goal 1 => (first | with_reducible assumption | with_reducible apply Kept.ite | with_reducible apply resultEnd_kept | with_reducible apply badPacket_kept | with_reducible apply bump_kept | with_reducible apply skewZeros_kept | with_reducible apply modDesc_kept | with_reducible apply addMark_kept | with_reducible apply settle_kept | with_reducible apply sendTo_kept | with_reducible apply Kept.foldl | with_reducible apply Kept.forEach | (with_reducible apply Kept.upd; on_goal 1 => (first | with_reducible assumption | with_reducible apply resultEnd_kept | with_reducible apply badPacket_kept | with_reducible apply bump_kept | with_reducible apply skewZeros_kept | with_reducible apply modDesc_kept | with_reducible apply addMark_kept | with_reducible apply settle_kept | with_reducible apply sendTo_kept))))
    | (show _ = _; rfl)
    | split)

theorem distributionDeadline_kept {s0 s : State}  (hk : Kept s0 s) :
    Kept s0 (distributionDeadline  s) := by
  unfold distributionDeadline
  repeat' (first
    | with_reducible assumption
    | intro (x : State) hx
    | with_reducible apply failLeg_kept
    | with_reducible apply distCheck_kept
    | (with_reducible apply Kept.upd; on_goal 1 => (first | with_reducible assumption | with_reducible apply Kept.ite | with_reducible apply failLeg_kept | with_reducible apply distCheck_kept | with_reducible apply Kept.foldl | with_reducible apply Kept.forEach | (with_reducible apply Kept.upd; on_goal 1 => (first | with_reducible assumption | with_reducible apply failLeg_kept | with_reducible apply distCheck_kept))))
    | (show _ = _; rfl)
    | (lift_lets; intro x))

theorem deliverPacket_kept {s0 s : State} {p b hdr : Nat} {body : List Byte} (hk : Kept s0 s) :
    Kept s0 (deliverPacket p b hdr body s) := by
  unfold deliverPacket
  repeat' (first
    | with_reducible assumption
    | with_reducible apply arrive_kept
    | with_reducible apply modPort_kept
    | with_reducible apply easyPacket_kept
    | with_reducible apply reduceUp_kept
    | with_reducible apply reduceDown_kept
    | with_reducible apply digestPacket_kept
    | with_reducible apply creditPacket_kept
    | with_reducible apply endAckPacket_kept
    | with_reducible apply raPacket_kept
    | with_reducible apply scaleUp_kept
    | with_reducible apply scaleDown_kept
    | with_reducible apply sumsPacket_kept
    | with_reducible apply dataPacket_kept
    | with_reducible apply endPacket_kept
    | intro x
    | split)

theorem deliverEarly_kept {s0 s : State}  (hk : Kept s0 s) :
    Kept s0 (deliverEarly  s) := by
  unfold deliverEarly
  repeat' (first
    | with_reducible assumption
    | intro (x : State) hx
    | with_reducible apply deliverPacket_kept
    | (with_reducible apply Kept.upd; on_goal 1 => (first | with_reducible assumption | with_reducible apply Kept.ite | with_reducible apply deliverPacket_kept | with_reducible apply Kept.foldl | with_reducible apply Kept.forEach | (with_reducible apply Kept.upd; on_goal 1 => (first | with_reducible assumption | with_reducible apply deliverPacket_kept))))
    | (show _ = _; rfl)
    | (lift_lets; intro x))

theorem atEpoch_kept {s0 s t : State} (hk : Kept s0 t) : Kept s0 (atEpoch s t) := Kept.ite hk (deliverEarly_kept hk)


end Sys2Proof.Machine

namespace Sys2Proof.Machine

open Sys2Proof

theorem setPc_kept {s0 s : State} {c t pc : Nat} (hk : Kept s0 s) :
    Kept s0 (setPc c t pc s) := by
  unfold setPc
  repeat' (first | with_reducible assumption | with_reducible apply modThread_kept)

theorem issueCtl_kept {s0 s : State} {op : Nat} {fields : List (Nat × Nat)} {bad : Bool} {body : State → State} {c : CoreId} {t : ThreadId} {w : InstrWord} (hk : Kept s0 s) (hk_body : ∀ u, Kept s0 u → Kept s0 (body  u)) :
    Kept s0 (issueCtl op fields bad body c t w s) := by
  unfold issueCtl
  repeat' (first | with_reducible assumption | with_reducible apply issue_kept)

theorem jumpTo_kept {s0 s : State} {c t : Nat} {w : InstrWord} (hk : Kept s0 s) :
    Kept s0 (jumpTo c t w s) := by
  unfold jumpTo
  repeat' (first | with_reducible assumption | with_reducible apply setPc_kept)


end Sys2Proof.Machine

namespace Sys2Proof.Machine

open Sys2Proof

theorem issueMov_kept {s0 s : State} {op : Nat} {fields : List (Nat × Nat)} {extra : State → List Nat} {body : State → State} {c : CoreId} {t : ThreadId} {w : InstrWord} (hk : Kept s0 s) (hk_body : ∀ u, Kept s0 u → Kept s0 (body  u)) :
    Kept s0 (issueMov op fields extra body c t w s) := by
  unfold issueMov
  repeat' (first | with_reducible assumption | with_reducible apply issue_kept)

theorem movPoison_kept {s0 s : State} {c addr n : Nat} (hk : Kept s0 s) :
    Kept s0 (movPoison c addr n s) := by
  unfold movPoison
  repeat' (first
    | with_reducible assumption
    | with_reducible apply Kept.ite
    | with_reducible apply corePoison_kept)

theorem movLoad_kept {s0 s : State} {c t : Nat} {w : InstrWord} (hk : Kept s0 s) :
    Kept s0 (movLoad c t w s) := by
  unfold movLoad
  repeat' (first
    | with_reducible assumption
    | with_reducible apply setS_kept
    | with_reducible apply movPoison_kept)

theorem movStore_kept {s0 s : State} {c t : Nat} {w : InstrWord} (hk : Kept s0 s) :
    Kept s0 (movStore c t w s) := by
  unfold movStore
  repeat' (first | with_reducible assumption | with_reducible apply scrWrite_kept)

theorem csrWrite_kept {s0 s : State} {off v : Nat} (hk : Kept s0 s) :
    Kept s0 (csrWrite off v s) := by
  unfold csrWrite
  repeat' (first
    | with_reducible assumption
    | with_reducible apply refuseWrite_kept
    | with_reducible apply setReg_kept
    | split)

theorem movCopy_kept {s0 s : State} {c t : Nat} {w : InstrWord} (hk : Kept s0 s) :
    Kept s0 (movCopy c t w s) := by
  unfold movCopy
  repeat' (first
    | with_reducible assumption
    | with_reducible apply Kept.ite
    | with_reducible apply unitStore_kept
    | with_reducible apply movPoison_kept
    | with_reducible apply modThread_kept)


end Sys2Proof.Machine

namespace Sys2Proof.Machine

open Sys2Proof

theorem issueVec_kept {s0 s : State} {op : Nat} {c : CoreId} {t : ThreadId} {w : InstrWord} (hk : Kept s0 s) :
    Kept s0 (issueVec op c t w s) := by
  unfold issueVec
  repeat' (first
    | with_reducible assumption
    | intro (x : State) hx
    | with_reducible apply issue_kept
    | with_reducible apply asyncBegin_kept
    | with_reducible apply modCore_kept)

theorem writeD_kept {s0 s : State} {c point : Nat} {o : UnitOp} {rows : List (List Val)} {bad poison : Bool} (hk : Kept s0 s) :
    Kept s0 (writeD c point o rows bad poison s) := by
  unfold writeD
  repeat' (first
    | with_reducible assumption
    | with_reducible apply Kept.ite
    | with_reducible apply convertOut_kept
    | with_reducible apply unitStore_kept
    | split)

theorem agreeCollect_kept {s0 s st : State} {c : Nat} {o : UnitOp} {tensor : Nat} (hk : Kept s0 st) :
    Kept s0 (agreeCollect s c o tensor st) := collect_kept hk

theorem vecComplete_kept {s0 s : State} {c : Nat} (hk : Kept s0 s) :
    Kept s0 (vecComplete c s) := by
  unfold vecComplete
  repeat' (first
    | with_reducible assumption
    | with_reducible apply writeD_kept
    | with_reducible apply agreeCollect_kept
    | with_reducible apply corePoison_kept
    | with_reducible apply bump_kept
    | with_reducible apply modCore_kept
    | with_reducible apply asyncDone_kept
    | split)


end Sys2Proof.Machine

namespace Sys2Proof.Machine

open Sys2Proof

theorem issueXu_kept {s0 s : State} {op : Nat} {c : CoreId} {t : ThreadId} {w : InstrWord} (hk : Kept s0 s) :
    Kept s0 (issueXu op c t w s) := by
  unfold issueXu
  repeat' (first
    | with_reducible assumption
    | intro (x : State) hx
    | with_reducible apply Kept.ite
    | with_reducible apply issue_kept
    | with_reducible apply asyncBegin_kept
    | with_reducible apply modCore_kept
    | with_reducible apply modOvf_kept)

theorem scatRow_kept {s0 s : State} {c : Nat} {o : UnitOp} {i : Int} {row : List Val} {poison : Bool} (hk : Kept s0 s) :
    Kept s0 (scatRow c o i row poison s) := by
  unfold scatRow
  repeat' (first
    | with_reducible assumption
    | with_reducible apply Kept.ite
    | with_reducible apply convertOut_kept)

theorem scatOp_kept {s0 s : State} {c : Nat} {o : UnitOp} {poison : Bool} (hk : Kept s0 s) :
    Kept s0 (scatOp c o poison s) := by
  unfold scatOp
  repeat' (first
    | with_reducible assumption
    | intro (x : State) hx
    | with_reducible apply scatRow_kept
    | with_reducible apply Kept.foldl
    | (lift_lets; intro x))

theorem addLosses_kept {s0 s : State} {o : UnitOp} {targets : List Int} {losses : List Val} (hk : Kept s0 s) :
    Kept s0 (addLosses o targets losses s) := by
  unfold addLosses
  repeat' (first
    | with_reducible assumption
    | (with_reducible apply Kept.upd; on_goal 1 => (first | with_reducible assumption | with_reducible apply Kept.ite | with_reducible apply Kept.foldl | with_reducible apply Kept.forEach | (with_reducible apply Kept.upd; on_goal 1 => (first | with_reducible assumption))))
    | with_reducible rfl)

theorem xuComplete_kept {s0 s : State} {c : Nat} (hk : Kept s0 s) :
    Kept s0 (xuComplete c s) := by
  unfold xuComplete
  repeat' (first
    | with_reducible assumption
    | with_reducible apply scatOp_kept
    | with_reducible apply writeD_kept
    | with_reducible apply addLosses_kept
    | with_reducible apply corePoison_kept
    | with_reducible apply useFree_kept
    | with_reducible apply bump_kept
    | with_reducible apply modCore_kept
    | with_reducible apply asyncDone_kept
    | split)


end Sys2Proof.Machine
end

