-- ==== Sys2Proof/Laws/KeptExec.lean ====
section
/-! SUPPORT. `Kept` of the operations of each command, and every command. -/

namespace Sys2Proof.Machine

open Sys2Proof

theorem execDeclaration_kept {s0 s : State} (p : PortId) (kind : DeclKind) (pos : Fin 4096) (by_ : Fin 4096) (hk : Kept s0 s) : ∃ z, execDeclaration p kind pos by_ s = .next z ∧ Kept s0 z := by
  unfold execDeclaration
  refine ⟨_, rfl, ?_⟩
  repeat' (first
    | with_reducible assumption
    | intro (x : State) hx
    | intro _
    | with_reducible apply declare_kept
    | with_reducible apply Kept.ite)

theorem execStrokeInEdge_kept {s0 s : State} (inTolerance : Bool) (hk : Kept s0 s) : ∃ z, execStrokeInEdge inTolerance s = .next z ∧ Kept s0 z := by
  unfold execStrokeInEdge
  refine ⟨_, rfl, ?_⟩
  repeat' (first
    | with_reducible assumption
    | intro (x : State) hx
    | intro _
    | with_reducible apply Kept.ite
    | with_reducible apply Kept.upd
    | with_reducible rfl)

theorem execJtagExtestTrain_kept {s0 s : State} (cells : List Bool) (hk : Kept s0 s) : ∃ z, execJtagExtestTrain cells s = .next z ∧ Kept s0 z := by
  unfold execJtagExtestTrain
  refine ⟨_, rfl, ?_⟩
  repeat' (first
    | with_reducible assumption
    | intro (x : State) hx
    | intro _
    | with_reducible apply jtagDrive_kept
    | with_reducible apply extest_kept)

theorem execJtagExtestPulse_kept {s0 s : State} (cells : List Bool) (hk : Kept s0 s) : ∃ z, execJtagExtestPulse cells s = .next z ∧ Kept s0 z := by
  unfold execJtagExtestPulse
  refine ⟨_, rfl, ?_⟩
  repeat' (first
    | with_reducible assumption
    | intro (x : State) hx
    | intro _
    | with_reducible apply jtagDrive_kept
    | with_reducible apply extest_kept)

theorem execJtagHighz_kept {s0 s : State}  (hk : Kept s0 s) : ∃ z, execJtagHighz  s = .next z ∧ Kept s0 z := by
  unfold execJtagHighz
  refine ⟨_, rfl, ?_⟩
  repeat' (first
    | with_reducible assumption
    | intro (x : State) hx
    | intro _
    | with_reducible apply jtagDrive_kept
    | with_reducible apply emit_kept
    | with_reducible apply setJtag_kept)

theorem execJtagClamp_kept {s0 s : State}  (hk : Kept s0 s) : ∃ z, execJtagClamp  s = .next z ∧ Kept s0 z := by
  unfold execJtagClamp
  refine ⟨_, rfl, ?_⟩
  repeat' (first
    | with_reducible assumption
    | intro (x : State) hx
    | intro _
    | with_reducible apply jtagDrive_kept
    | with_reducible apply emit_kept
    | with_reducible apply setJtag_kept)

theorem execJtagExtest_kept {s0 s : State} (cells : List Bool) (hk : Kept s0 s) : ∃ z, execJtagExtest cells s = .next z ∧ Kept s0 z := by
  unfold execJtagExtest
  refine ⟨_, rfl, ?_⟩
  repeat' (first
    | with_reducible assumption
    | intro (x : State) hx
    | intro _
    | with_reducible apply jtagDrive_kept
    | with_reducible apply extest_kept)

theorem execJtagSamplePreload_kept {s0 s : State} (cells : List Bool) (hk : Kept s0 s) : ∃ z, execJtagSamplePreload cells s = .next z ∧ Kept s0 z := by
  unfold execJtagSamplePreload
  refine ⟨_, rfl, ?_⟩
  repeat' (first
    | with_reducible assumption
    | intro (x : State) hx
    | intro _
    | with_reducible apply emit_kept
    | with_reducible apply Kept.ite
    | with_reducible apply Kept.upd
    | with_reducible rfl)

theorem execJtagIdcode_kept {s0 s : State}  (hk : Kept s0 s) : ∃ z, execJtagIdcode  s = .next z ∧ Kept s0 z := by
  unfold execJtagIdcode
  refine ⟨_, rfl, ?_⟩
  repeat' (first
    | with_reducible assumption
    | intro (x : State) hx
    | intro _
    | with_reducible apply emit_kept
    | with_reducible apply setJtag_kept)

theorem execPldmGetStateSensorReadings_kept {s0 s : State} (sensor : Nat) (hk : Kept s0 s) : ∃ z, execPldmGetStateSensorReadings sensor s = .next z ∧ Kept s0 z := by
  unfold execPldmGetStateSensorReadings
  refine ⟨_, rfl, ?_⟩
  repeat' (first
    | with_reducible assumption
    | intro (x : State) hx
    | intro _
    | with_reducible apply emit_kept)

theorem execPldmGetSensorReading_kept {s0 s : State} (sensor : Nat) (hk : Kept s0 s) : ∃ z, execPldmGetSensorReading sensor s = .next z ∧ Kept s0 z := by
  unfold execPldmGetSensorReading
  refine ⟨_, rfl, ?_⟩
  repeat' (first
    | with_reducible assumption
    | intro (x : State) hx
    | intro _
    | with_reducible apply emit_kept)

theorem execPldmGetPdr_kept {s0 s : State} (record : Nat) (hk : Kept s0 s) : ∃ z, execPldmGetPdr record s = .next z ∧ Kept s0 z := by
  unfold execPldmGetPdr
  refine ⟨_, rfl, ?_⟩
  repeat' (first
    | with_reducible assumption
    | intro (x : State) hx
    | intro _
    | with_reducible apply emit_kept)

theorem execPldmDiscovery_kept {s0 s : State} (request : List Byte) (hk : Kept s0 s) : ∃ z, execPldmDiscovery request s = .next z ∧ Kept s0 z := by
  unfold execPldmDiscovery
  refine ⟨_, rfl, ?_⟩
  repeat' (first
    | with_reducible assumption
    | intro (x : State) hx
    | intro _
    | with_reducible apply emit_kept)

theorem execMctpControl_kept {s0 s : State} (request : List Byte) (hk : Kept s0 s) : ∃ z, execMctpControl request s = .next z ∧ Kept s0 z := by
  unfold execMctpControl
  refine ⟨_, rfl, ?_⟩
  repeat' (first
    | with_reducible assumption
    | intro (x : State) hx
    | intro _
    | with_reducible apply emit_kept
    | with_reducible apply Kept.ite
    | with_reducible apply Kept.upd
    | with_reducible rfl)

theorem execSpdmGetMeasurements_kept {s0 s : State} (tr : SpdmTransport) (index : Nat) (nonce : List Byte) (hk : Kept s0 s) : ∃ z, execSpdmGetMeasurements tr index nonce s = .next z ∧ Kept s0 z := by
  unfold execSpdmGetMeasurements
  refine ⟨_, rfl, ?_⟩
  repeat' (first
    | with_reducible assumption
    | intro (x : State) hx
    | intro _
    | with_reducible apply spdm_kept
    | with_reducible apply spdmOut_kept
    | with_reducible apply Kept.ite)

theorem execSpdmChallenge_kept {s0 s : State} (tr : SpdmTransport) (nonce : List Byte) (hk : Kept s0 s) : ∃ z, execSpdmChallenge tr nonce s = .next z ∧ Kept s0 z := by
  unfold execSpdmChallenge
  refine ⟨_, rfl, ?_⟩
  repeat' (first
    | with_reducible assumption
    | intro (x : State) hx
    | intro _
    | with_reducible apply spdm_kept
    | with_reducible apply spdmOut_kept)

theorem execSpdmGetCertificate_kept {s0 s : State} (tr : SpdmTransport) (offset length : Nat) (hk : Kept s0 s) : ∃ z, execSpdmGetCertificate tr offset length s = .next z ∧ Kept s0 z := by
  unfold execSpdmGetCertificate
  refine ⟨_, rfl, ?_⟩
  repeat' (first
    | with_reducible assumption
    | intro (x : State) hx
    | intro _
    | with_reducible apply spdm_kept
    | with_reducible apply spdmOut_kept)

theorem execSpdmGetDigests_kept {s0 s : State} (tr : SpdmTransport) (hk : Kept s0 s) : ∃ z, execSpdmGetDigests tr s = .next z ∧ Kept s0 z := by
  unfold execSpdmGetDigests
  refine ⟨_, rfl, ?_⟩
  repeat' (first
    | with_reducible assumption
    | intro (x : State) hx
    | intro _
    | with_reducible apply spdm_kept
    | with_reducible apply spdmOut_kept)

theorem execSpdmNegotiateAlgorithms_kept {s0 s : State} (tr : SpdmTransport) (request : List Byte) (hk : Kept s0 s) : ∃ z, execSpdmNegotiateAlgorithms tr request s = .next z ∧ Kept s0 z := by
  unfold execSpdmNegotiateAlgorithms
  refine ⟨_, rfl, ?_⟩
  repeat' (first
    | with_reducible assumption
    | intro (x : State) hx
    | intro _
    | with_reducible apply spdm_kept
    | with_reducible apply spdmOut_kept
    | with_reducible apply setSpdm_kept)

theorem execSpdmGetCapabilities_kept {s0 s : State} (tr : SpdmTransport) (hk : Kept s0 s) : ∃ z, execSpdmGetCapabilities tr s = .next z ∧ Kept s0 z := by
  unfold execSpdmGetCapabilities
  refine ⟨_, rfl, ?_⟩
  repeat' (first
    | with_reducible assumption
    | intro (x : State) hx
    | intro _
    | with_reducible apply spdm_kept
    | with_reducible apply spdmOut_kept
    | with_reducible apply setSpdm_kept)

theorem execSpdmGetVersion_kept {s0 s : State} (tr : SpdmTransport) (hk : Kept s0 s) : ∃ z, execSpdmGetVersion tr s = .next z ∧ Kept s0 z := by
  unfold execSpdmGetVersion
  refine ⟨_, rfl, ?_⟩
  repeat' (first
    | with_reducible assumption
    | intro (x : State) hx
    | intro _
    | with_reducible apply spdm_kept
    | with_reducible apply spdmOut_kept
    | with_reducible apply setSpdm_kept)

theorem execLifetimeRecordWrite_kept {s0 s : State}  (hk : Kept s0 s) : ∃ z, execLifetimeRecordWrite  s = .next z ∧ Kept s0 z := by
  unfold execLifetimeRecordWrite
  refine ⟨_, rfl, ?_⟩
  repeat' (first
    | with_reducible assumption
    | intro (x : State) hx
    | intro _
    | with_reducible apply lifeWrite_kept
    | with_reducible apply Kept.ite)

theorem execLogFlush_kept {s0 s : State}  (hk : Kept s0 s) : ∃ z, execLogFlush  s = .next z ∧ Kept s0 z := by
  unfold execLogFlush
  refine ⟨_, rfl, ?_⟩
  repeat' (first
    | with_reducible assumption
    | intro (x : State) hx
    | intro _
    | with_reducible apply flushLog_kept
    | with_reducible apply Kept.ite)

theorem execUnplannedWake_kept {s0 s : State} (sc : PowerScope) (hk : Kept s0 s) : ∃ z, execUnplannedWake sc s = .next z ∧ Kept s0 z := by
  unfold execUnplannedWake
  refine ⟨_, rfl, ?_⟩
  cases sc <;> simp only
  repeat' (first
    | with_reducible assumption
    | intro (x : State) hx
    | intro _
    | with_reducible apply bump_kept
    | with_reducible apply scopeExit_kept
    | with_reducible apply Kept.ite)

theorem execPowerStateEntry_kept {s0 s : State} (sc : PowerScope) (tNext : Nat) (hk : Kept s0 s) : ∃ z, execPowerStateEntry sc tNext s = .next z ∧ Kept s0 z := by
  unfold execPowerStateEntry
  refine ⟨_, rfl, ?_⟩
  cases sc <;> simp only
  repeat' (first
    | with_reducible assumption
    | intro (x : State) hx
    | intro _
    | with_reducible apply unitEntry_kept
    | with_reducible apply groupEntry_kept
    | with_reducible apply deviceEntry_kept)

theorem execSums_kept {s0 s : State} (p : PortId) (sub : SubId) (hdr : InstrWord) (body : List Byte) (hk : Kept s0 s) : ∃ z, execSums p sub hdr body s = .next z ∧ Kept s0 z := by
  unfold execSums
  refine ⟨_, rfl, ?_⟩
  repeat' (first
    | with_reducible assumption
    | intro (x : State) hx
    | intro _
    | with_reducible apply arrive_kept
    | with_reducible apply sumsPacket_kept)

theorem execScaleDown_kept {s0 s : State} (p : PortId) (sub : SubId) (hdr : InstrWord) (body : List Byte) (hk : Kept s0 s) : ∃ z, execScaleDown p sub hdr body s = .next z ∧ Kept s0 z := by
  unfold execScaleDown
  refine ⟨_, rfl, ?_⟩
  repeat' (first
    | with_reducible assumption
    | intro (x : State) hx
    | intro _
    | with_reducible apply arrive_kept
    | with_reducible apply scaleDown_kept)

theorem execScaleUp_kept {s0 s : State} (p : PortId) (sub : SubId) (hdr : InstrWord) (body : List Byte) (hk : Kept s0 s) : ∃ z, execScaleUp p sub hdr body s = .next z ∧ Kept s0 z := by
  unfold execScaleUp
  refine ⟨_, rfl, ?_⟩
  repeat' (first
    | with_reducible assumption
    | intro (x : State) hx
    | intro _
    | with_reducible apply arrive_kept
    | with_reducible apply scaleUp_kept)

theorem execRaFp8_kept {s0 s : State} (p : PortId) (sub : SubId) (hdr : InstrWord) (body : List Byte) (hk : Kept s0 s) : ∃ z, execRaFp8 p sub hdr body s = .next z ∧ Kept s0 z := by
  unfold execRaFp8
  refine ⟨_, rfl, ?_⟩
  repeat' (first
    | with_reducible assumption
    | intro (x : State) hx
    | intro _
    | with_reducible apply arrive_kept
    | with_reducible apply raPacket_kept)

theorem execRaBf16_kept {s0 s : State} (p : PortId) (sub : SubId) (hdr : InstrWord) (body : List Byte) (hk : Kept s0 s) : ∃ z, execRaBf16 p sub hdr body s = .next z ∧ Kept s0 z := by
  unfold execRaBf16
  refine ⟨_, rfl, ?_⟩
  repeat' (first
    | with_reducible assumption
    | intro (x : State) hx
    | intro _
    | with_reducible apply arrive_kept
    | with_reducible apply raPacket_kept)

theorem execEndPass_kept {s0 s : State} (p : PortId) (sub : SubId) (hdr : InstrWord) (body : List Byte) (hk : Kept s0 s) : ∃ z, execEndPass p sub hdr body s = .next z ∧ Kept s0 z := by
  unfold execEndPass
  refine ⟨_, rfl, ?_⟩
  repeat' (first
    | with_reducible assumption
    | intro (x : State) hx
    | intro _
    | with_reducible apply arrive_kept
    | with_reducible apply endPacket_kept)

theorem execData_kept {s0 s : State} (p : PortId) (sub : SubId) (hdr : InstrWord) (body : List Byte) (hk : Kept s0 s) : ∃ z, execData p sub hdr body s = .next z ∧ Kept s0 z := by
  unfold execData
  refine ⟨_, rfl, ?_⟩
  repeat' (first
    | with_reducible assumption
    | intro (x : State) hx
    | intro _
    | with_reducible apply arrive_kept
    | with_reducible apply dataPacket_kept)

theorem execEndAck_kept {s0 s : State} (p : PortId) (sub : SubId) (hdr : InstrWord) (body : List Byte) (hk : Kept s0 s) : ∃ z, execEndAck p sub hdr body s = .next z ∧ Kept s0 z := by
  unfold execEndAck
  refine ⟨_, rfl, ?_⟩
  repeat' (first
    | with_reducible assumption
    | intro (x : State) hx
    | intro _
    | with_reducible apply arrive_kept
    | with_reducible apply endAckPacket_kept)

theorem execCredit_kept {s0 s : State} (p : PortId) (sub : SubId) (hdr : InstrWord) (body : List Byte) (hk : Kept s0 s) : ∃ z, execCredit p sub hdr body s = .next z ∧ Kept s0 z := by
  unfold execCredit
  refine ⟨_, rfl, ?_⟩
  repeat' (first
    | with_reducible assumption
    | intro (x : State) hx
    | intro _
    | with_reducible apply arrive_kept
    | with_reducible apply creditPacket_kept)

theorem execDigest_kept {s0 s : State} (p : PortId) (sub : SubId) (hdr : InstrWord) (body : List Byte) (hk : Kept s0 s) : ∃ z, execDigest p sub hdr body s = .next z ∧ Kept s0 z := by
  unfold execDigest
  refine ⟨_, rfl, ?_⟩
  repeat' (first
    | with_reducible assumption
    | intro (x : State) hx
    | intro _
    | with_reducible apply atEpoch_kept
    | with_reducible apply arrive_kept
    | with_reducible apply digestPacket_kept)

theorem execReduceDown_kept {s0 s : State} (p : PortId) (sub : SubId) (hdr : InstrWord) (body : List Byte) (hk : Kept s0 s) : ∃ z, execReduceDown p sub hdr body s = .next z ∧ Kept s0 z := by
  unfold execReduceDown
  refine ⟨_, rfl, ?_⟩
  repeat' (first
    | with_reducible assumption
    | intro (x : State) hx
    | intro _
    | with_reducible apply atEpoch_kept
    | with_reducible apply arrive_kept
    | with_reducible apply reduceDown_kept)

theorem execReduceUp_kept {s0 s : State} (p : PortId) (sub : SubId) (hdr : InstrWord) (body : List Byte) (hk : Kept s0 s) : ∃ z, execReduceUp p sub hdr body s = .next z ∧ Kept s0 z := by
  unfold execReduceUp
  refine ⟨_, rfl, ?_⟩
  repeat' (first
    | with_reducible assumption
    | intro (x : State) hx
    | intro _
    | with_reducible apply atEpoch_kept
    | with_reducible apply arrive_kept
    | with_reducible apply reduceUp_kept)

theorem execEasy_kept {s0 s : State} (p : PortId) (sub : SubId) (hdr : InstrWord) (body : List Byte) (hk : Kept s0 s) : ∃ z, execEasy p sub hdr body s = .next z ∧ Kept s0 z := by
  unfold execEasy
  refine ⟨_, rfl, ?_⟩
  repeat' (first
    | with_reducible assumption
    | intro (x : State) hx
    | intro _
    | with_reducible apply arrive_kept
    | with_reducible apply easyPacket_kept)

theorem execCatchMarker_kept {s0 s : State} (p : PortId) (sub : SubId) (hdr : InstrWord) (body : List Byte) (phase : Int) (hk : Kept s0 s) : ∃ z, execCatchMarker p sub hdr body phase s = .next z ∧ Kept s0 z := by
  unfold execCatchMarker
  refine ⟨_, rfl, ?_⟩
  repeat' (first
    | with_reducible assumption
    | intro (x : State) hx
    | intro _
    | with_reducible apply arrive_kept
    | with_reducible apply catchPacket_kept)

theorem execStepBoundary_kept {s0 s : State} (reads : BoundaryIn) (hk : Kept s0 s) : ∃ z, execStepBoundary reads s = .next z ∧ Kept s0 z := by
  unfold execStepBoundary
  refine ⟨_, rfl, ?_⟩
  repeat' (first
    | with_reducible assumption
    | intro (x : State) hx
    | intro _
    | with_reducible apply atEpoch_kept
    | with_reducible apply stepBoundary_kept)

theorem execLockLost_kept {s0 s : State}  (hk : Kept s0 s) : ∃ z, execLockLost  s = .next z ∧ Kept s0 z := by
  unfold execLockLost
  refine ⟨_, rfl, ?_⟩
  repeat' (first
    | with_reducible assumption
    | intro (x : State) hx
    | intro _
    | with_reducible apply health_kept
    | with_reducible apply logEv_kept
    | with_reducible apply Kept.ite
    | with_reducible apply Kept.upd
    | with_reducible rfl)

theorem execLockGained_kept {s0 s : State}  (hk : Kept s0 s) : ∃ z, execLockGained  s = .next z ∧ Kept s0 z := by
  unfold execLockGained
  refine ⟨_, rfl, ?_⟩
  repeat' (first
    | with_reducible assumption
    | intro (x : State) hx
    | intro _
    | with_reducible apply setReady_kept
    | with_reducible apply Kept.ite
    | with_reducible apply Kept.upd
    | with_reducible rfl)

theorem execGuardPoint_kept {s0 s : State} (selfTest : List Nat) (hk : Kept s0 s) : ∃ z, execGuardPoint selfTest s = .next z ∧ Kept s0 z := by
  unfold execGuardPoint
  refine ⟨_, rfl, ?_⟩
  repeat' (first
    | with_reducible assumption
    | intro (x : State) hx
    | intro _
    | with_reducible apply atEpoch_kept
    | with_reducible apply guardPoint_kept)

theorem execStrokeEdge_kept {s0 s : State}  (hk : Kept s0 s) : ∃ z, execStrokeEdge  s = .next z ∧ Kept s0 z := by
  unfold execStrokeEdge
  refine ⟨_, rfl, ?_⟩
  repeat' (first
    | with_reducible assumption
    | intro (x : State) hx
    | intro _
    | with_reducible apply countEdge_kept
    | with_reducible apply atEpoch_kept
    | with_reducible apply strokeEdge_kept
    | with_reducible apply Kept.ite)

theorem execRouterTargetOff_kept {s0 s : State} (addr : Nat) (inReset : Bool) (d : Option (Fin 1048576)) (hk : Kept s0 s) : ∃ z, execRouterTargetOff addr inReset d s = .next z ∧ Kept s0 z := by
  unfold execRouterTargetOff
  refine ⟨_, rfl, ?_⟩
  repeat' (first
    | with_reducible assumption
    | intro (x : State) hx
    | intro _
    | with_reducible apply targetOff_kept)

theorem execAdda_kept {s0 s : State} (c : CoreId) (t : ThreadId) (w : InstrWord) (hk : Kept s0 s) : ∃ z, execAdda c t w s = .next z ∧ Kept s0 z := by
  unfold execAdda
  refine ⟨_, rfl, ?_⟩
  repeat' (first
    | with_reducible assumption
    | intro (x : State) hx
    | intro _
    | with_reducible apply issueCtl_kept
    | with_reducible apply setA_kept)

theorem execHalt_kept {s0 s : State} (c : CoreId) (t : ThreadId) (w : InstrWord) (hk : Kept s0 s) : ∃ z, execHalt c t w s = .next z ∧ Kept s0 z := by
  unfold execHalt
  refine ⟨_, rfl, ?_⟩
  repeat' (first
    | with_reducible assumption
    | intro (x : State) hx
    | intro _
    | with_reducible apply issueCtl_kept
    | with_reducible apply overrun_kept
    | with_reducible apply modThread_kept)

theorem execJmp_kept {s0 s : State} (c : CoreId) (t : ThreadId) (w : InstrWord) (hk : Kept s0 s) : ∃ z, execJmp c t w s = .next z ∧ Kept s0 z := by
  unfold execJmp
  refine ⟨_, rfl, ?_⟩
  repeat' (first
    | with_reducible assumption
    | intro (x : State) hx
    | intro _
    | with_reducible apply issueCtl_kept
    | with_reducible apply jumpTo_kept)

theorem execBr_kept {s0 s : State} (c : CoreId) (t : ThreadId) (w : InstrWord) (hk : Kept s0 s) : ∃ z, execBr c t w s = .next z ∧ Kept s0 z := by
  unfold execBr
  refine ⟨_, rfl, ?_⟩
  repeat' (first
    | with_reducible assumption
    | intro (x : State) hx
    | intro _
    | with_reducible apply issueCtl_kept
    | with_reducible apply jumpTo_kept
    | with_reducible apply Kept.ite)

theorem execAlui_kept {s0 s : State} (c : CoreId) (t : ThreadId) (w : InstrWord) (hk : Kept s0 s) : ∃ z, execAlui c t w s = .next z ∧ Kept s0 z := by
  unfold execAlui
  refine ⟨_, rfl, ?_⟩
  repeat' (first
    | with_reducible assumption
    | intro (x : State) hx
    | intro _
    | with_reducible apply issueCtl_kept
    | with_reducible apply setS_kept)

theorem execAlu_kept {s0 s : State} (c : CoreId) (t : ThreadId) (w : InstrWord) (hk : Kept s0 s) : ∃ z, execAlu c t w s = .next z ∧ Kept s0 z := by
  unfold execAlu
  refine ⟨_, rfl, ?_⟩
  repeat' (first
    | with_reducible assumption
    | intro (x : State) hx
    | intro _
    | with_reducible apply issueCtl_kept
    | with_reducible apply setS_kept)

theorem execNop_kept {s0 s : State} (c : CoreId) (t : ThreadId) (w : InstrWord) (hk : Kept s0 s) : ∃ z, execNop c t w s = .next z ∧ Kept s0 z := by
  unfold execNop
  refine ⟨_, rfl, ?_⟩
  repeat' (first
    | with_reducible assumption
    | intro (x : State) hx
    | intro _
    | with_reducible apply issueCtl_kept)

theorem execDrain_kept {s0 s : State} (c : CoreId) (t : ThreadId) (w : InstrWord) (hk : Kept s0 s) : ∃ z, execDrain c t w s = .next z ∧ Kept s0 z := by
  unfold execDrain
  refine ⟨_, rfl, ?_⟩
  repeat' (first
    | with_reducible assumption
    | intro (x : State) hx
    | intro _
    | with_reducible apply issueSync_kept
    | with_reducible apply waitFor_kept)

theorem execOvfx_kept {s0 s : State} (c : CoreId) (t : ThreadId) (w : InstrWord) (hk : Kept s0 s) : ∃ z, execOvfx c t w s = .next z ∧ Kept s0 z := by
  unfold execOvfx
  refine ⟨_, rfl, ?_⟩
  repeat' (first
    | with_reducible assumption
    | intro (x : State) hx
    | intro _
    | with_reducible apply issueSync_kept
    | with_reducible apply ovfxBody_kept)

theorem execWstroke_kept {s0 s : State} (c : CoreId) (t : ThreadId) (w : InstrWord) (hk : Kept s0 s) : ∃ z, execWstroke c t w s = .next z ∧ Kept s0 z := by
  unfold execWstroke
  refine ⟨_, rfl, ?_⟩
  repeat' (first
    | with_reducible assumption
    | intro (x : State) hx
    | intro _
    | with_reducible apply issueSync_kept
    | with_reducible apply waitFor_kept)

theorem execBar_kept {s0 s : State} (c : CoreId) (t : ThreadId) (w : InstrWord) (hk : Kept s0 s) : ∃ z, execBar c t w s = .next z ∧ Kept s0 z := by
  unfold execBar
  refine ⟨_, rfl, ?_⟩
  repeat' (first
    | with_reducible assumption
    | intro (x : State) hx
    | intro _
    | with_reducible apply issueSync_kept
    | with_reducible apply waitFor_kept)

theorem execSetc_kept {s0 s : State} (c : CoreId) (t : ThreadId) (w : InstrWord) (hk : Kept s0 s) : ∃ z, execSetc c t w s = .next z ∧ Kept s0 z := by
  unfold execSetc
  refine ⟨_, rfl, ?_⟩
  repeat' (first
    | with_reducible assumption
    | intro (x : State) hx
    | intro _
    | with_reducible apply issueSync_kept
    | with_reducible apply setCounter_kept)

theorem execWaitc_kept {s0 s : State} (c : CoreId) (t : ThreadId) (w : InstrWord) (hk : Kept s0 s) : ∃ z, execWaitc c t w s = .next z ∧ Kept s0 z := by
  unfold execWaitc
  refine ⟨_, rfl, ?_⟩
  repeat' (first
    | with_reducible assumption
    | intro (x : State) hx
    | intro _
    | with_reducible apply issueSync_kept
    | with_reducible apply waitFor_kept)

theorem execStrTrace_kept {s0 s : State} (c : CoreId) (t : ThreadId) (w : InstrWord) (hk : Kept s0 s) : ∃ z, execStrTrace c t w s = .next z ∧ Kept s0 z := by
  unfold execStrTrace
  refine ⟨_, rfl, ?_⟩
  repeat' (first
    | with_reducible assumption
    | intro (x : State) hx
    | intro _
    | with_reducible apply issueStr_kept)

theorem execStrRearm_kept {s0 s : State} (c : CoreId) (t : ThreadId) (w : InstrWord) (hk : Kept s0 s) : ∃ z, execStrRearm c t w s = .next z ∧ Kept s0 z := by
  unfold execStrRearm
  refine ⟨_, rfl, ?_⟩
  repeat' (first
    | with_reducible assumption
    | intro (x : State) hx
    | intro _
    | with_reducible apply issueStr_kept)

theorem execMovComplete_kept {s0 s : State} (c : CoreId) (t : ThreadId) (hk : Kept s0 s) : ∃ z, execMovComplete c t s = .next z ∧ Kept s0 z := by
  unfold execMovComplete
  refine ⟨_, rfl, ?_⟩
  repeat' (first
    | with_reducible assumption
    | intro (x : State) hx
    | intro _
    | with_reducible apply modThread_kept
    | with_reducible apply Kept.ite)

theorem execMovCopy_kept {s0 s : State} (c : CoreId) (t : ThreadId) (w : InstrWord) (hk : Kept s0 s) : ∃ z, execMovCopy c t w s = .next z ∧ Kept s0 z := by
  unfold execMovCopy
  refine ⟨_, rfl, ?_⟩
  repeat' (first
    | with_reducible assumption
    | intro (x : State) hx
    | intro _
    | with_reducible apply issueMov_kept
    | with_reducible apply movCopy_kept)

theorem execMovWrcsr_kept {s0 s : State} (c : CoreId) (t : ThreadId) (w : InstrWord) (hk : Kept s0 s) : ∃ z, execMovWrcsr c t w s = .next z ∧ Kept s0 z := by
  unfold execMovWrcsr
  refine ⟨_, rfl, ?_⟩
  repeat' (first
    | with_reducible assumption
    | intro (x : State) hx
    | intro _
    | with_reducible apply issueMov_kept
    | with_reducible apply csrWrite_kept)

theorem execMovRdcsr_kept {s0 s : State} (c : CoreId) (t : ThreadId) (w : InstrWord) (hk : Kept s0 s) : ∃ z, execMovRdcsr c t w s = .next z ∧ Kept s0 z := by
  unfold execMovRdcsr
  refine ⟨_, rfl, ?_⟩
  repeat' (first
    | with_reducible assumption
    | intro (x : State) hx
    | intro _
    | with_reducible apply issueMov_kept
    | with_reducible apply setS_kept)

theorem execMovMvsa_kept {s0 s : State} (c : CoreId) (t : ThreadId) (w : InstrWord) (hk : Kept s0 s) : ∃ z, execMovMvsa c t w s = .next z ∧ Kept s0 z := by
  unfold execMovMvsa
  refine ⟨_, rfl, ?_⟩
  repeat' (first
    | with_reducible assumption
    | intro (x : State) hx
    | intro _
    | with_reducible apply issueMov_kept
    | with_reducible apply setA_kept)

theorem execMovMvas_kept {s0 s : State} (c : CoreId) (t : ThreadId) (w : InstrWord) (hk : Kept s0 s) : ∃ z, execMovMvas c t w s = .next z ∧ Kept s0 z := by
  unfold execMovMvas
  refine ⟨_, rfl, ?_⟩
  repeat' (first
    | with_reducible assumption
    | intro (x : State) hx
    | intro _
    | with_reducible apply issueMov_kept
    | with_reducible apply setS_kept)

theorem execMovLdi_kept {s0 s : State} (c : CoreId) (t : ThreadId) (w : InstrWord) (hk : Kept s0 s) : ∃ z, execMovLdi c t w s = .next z ∧ Kept s0 z := by
  unfold execMovLdi
  refine ⟨_, rfl, ?_⟩
  repeat' (first
    | with_reducible assumption
    | intro (x : State) hx
    | intro _
    | with_reducible apply issueMov_kept
    | with_reducible apply setS_kept)

theorem execMovSt_kept {s0 s : State} (c : CoreId) (t : ThreadId) (w : InstrWord) (hk : Kept s0 s) : ∃ z, execMovSt c t w s = .next z ∧ Kept s0 z := by
  unfold execMovSt
  refine ⟨_, rfl, ?_⟩
  repeat' (first
    | with_reducible assumption
    | intro (x : State) hx
    | intro _
    | with_reducible apply issueMov_kept
    | with_reducible apply movStore_kept)

theorem execMovLd_kept {s0 s : State} (c : CoreId) (t : ThreadId) (w : InstrWord) (hk : Kept s0 s) : ∃ z, execMovLd c t w s = .next z ∧ Kept s0 z := by
  unfold execMovLd
  refine ⟨_, rfl, ?_⟩
  repeat' (first
    | with_reducible assumption
    | intro (x : State) hx
    | intro _
    | with_reducible apply issueMov_kept
    | with_reducible apply movLoad_kept)

theorem execIdle_kept {s0 s : State} (c : CoreId) (t : ThreadId) (w : InstrWord) (hk : Kept s0 s) : ∃ z, execIdle c t w s = .next z ∧ Kept s0 z := by
  unfold execIdle
  exact ⟨_, rfl, issue_kept hk fun u hu => Kept.foldl (asyncBegin_kept hu) fun v hv a => afterArr_kept (pushArr_kept hv)⟩

theorem execTbl_kept {s0 s : State} (c : CoreId) (t : ThreadId) (w : InstrWord) (hk : Kept s0 s) : ∃ z, execTbl c t w s = .next z ∧ Kept s0 z := by
  unfold execTbl
  refine ⟨_, rfl, ?_⟩
  repeat' (first
    | with_reducible assumption
    | intro (x : State) hx
    | intro _
    | with_reducible apply issue_kept
    | with_reducible apply asyncBegin_kept
    | with_reducible apply pushArr_kept)

theorem execTile_kept {s0 s : State} (c : CoreId) (t : ThreadId) (w : InstrWord) (hk : Kept s0 s) : ∃ z, execTile c t w s = .next z ∧ Kept s0 z := by
  unfold execTile
  refine ⟨_, rfl, ?_⟩
  repeat' (first
    | with_reducible assumption
    | intro (x : State) hx
    | intro _
    | with_reducible apply issue_kept
    | with_reducible apply queueTile_kept)

theorem execMboxReset_kept {s0 s : State} (src : MboxSrc) (hk : Kept s0 s) : ∃ z, execMboxReset src s = .next z ∧ Kept s0 z := by
  unfold execMboxReset
  refine ⟨_, rfl, ?_⟩
  repeat' (first
    | with_reducible assumption
    | intro (x : State) hx
    | intro _
    | with_reducible apply mboxAnswer_kept
    | with_reducible apply mboxResetOp_kept)

theorem execMboxWake_kept {s0 s : State} (src : MboxSrc) (hk : Kept s0 s) : ∃ z, execMboxWake src s = .next z ∧ Kept s0 z := by
  unfold execMboxWake
  refine ⟨_, rfl, ?_⟩
  repeat' (first
    | with_reducible assumption
    | intro (x : State) hx
    | intro _
    | with_reducible apply mboxAnswer_kept
    | with_reducible apply mboxWakeOp_kept)

theorem execMboxMoor_kept {s0 s : State} (src : MboxSrc) (hk : Kept s0 s) : ∃ z, execMboxMoor src s = .next z ∧ Kept s0 z := by
  unfold execMboxMoor
  refine ⟨_, rfl, ?_⟩
  repeat' (first
    | with_reducible assumption
    | intro (x : State) hx
    | intro _
    | with_reducible apply mboxAnswer_kept
    | with_reducible apply mboxMoorOp_kept)

theorem execMboxLifeRead_kept {s0 s : State} (src : MboxSrc) (hk : Kept s0 s) : ∃ z, execMboxLifeRead src s = .next z ∧ Kept s0 z := by
  unfold execMboxLifeRead
  refine ⟨_, rfl, ?_⟩
  repeat' (first
    | with_reducible assumption
    | intro (x : State) hx
    | intro _
    | with_reducible apply mboxAnswer_kept
    | with_reducible apply mboxLife_kept)

theorem execMboxLogRead_kept {s0 s : State} (src : MboxSrc) (hk : Kept s0 s) : ∃ z, execMboxLogRead src s = .next z ∧ Kept s0 z := by
  unfold execMboxLogRead
  refine ⟨_, rfl, ?_⟩
  repeat' (first
    | with_reducible assumption
    | intro (x : State) hx
    | intro _
    | with_reducible apply mboxAnswer_kept
    | with_reducible apply mboxLog_kept)

theorem execAliasWrite_kept {s0 s : State} (off : Nat) (v : Word) (hk : Kept s0 s) : ∃ z, execAliasWrite off v s = .next z ∧ Kept s0 z := by
  unfold execAliasWrite
  refine ⟨_, rfl, ?_⟩
  repeat' (first
    | with_reducible assumption
    | intro (x : State) hx
    | intro _
    | with_reducible apply writeReg_kept
    | with_reducible apply refuseWrite_kept
    | with_reducible apply wakeAccess_kept
    | with_reducible apply Kept.ite)

theorem execFullReset_kept {s0 s : State} (q : RingId) (hk : Kept s0 s) : ∃ z, execFullReset q s = .next z ∧ Kept s0 z := by
  unfold execFullReset
  refine ⟨_, rfl, ?_⟩
  repeat' (first
    | with_reducible assumption
    | intro (x : State) hx
    | intro _
    | with_reducible apply ringCommand_kept
    | with_reducible apply resetAndBoot_kept
    | with_reducible apply complete_kept)

theorem execEcho_kept {s0 s : State} (q : RingId) (hk : Kept s0 s) : ∃ z, execEcho q s = .next z ∧ Kept s0 z := by
  unfold execEcho
  refine ⟨_, rfl, ?_⟩
  repeat' (first
    | with_reducible assumption
    | intro (x : State) hx
    | intro _
    | with_reducible apply ringCommand_kept
    | with_reducible apply complete_kept)

theorem execFwWrite_kept {s0 s : State} (q : RingId) (data : HostData) (hk : Kept s0 s) : ∃ z, execFwWrite q data s = .next z ∧ Kept s0 z := by
  unfold execFwWrite
  refine ⟨_, rfl, ?_⟩
  repeat' (first
    | with_reducible assumption
    | intro (x : State) hx
    | intro _
    | with_reducible apply ringCommand_kept
    | with_reducible apply fwBody_kept)

theorem execCopy_kept {s0 s : State} (q : RingId) (data : HostData) (found : List (Nat × EccOutcome)) (hk : Kept s0 s) : ∃ z, execCopy q data found s = .next z ∧ Kept s0 z := by
  unfold execCopy
  refine ⟨_, rfl, ?_⟩
  repeat' (first
    | with_reducible assumption
    | intro (x : State) hx
    | intro _
    | with_reducible apply ringCommand_kept
    | with_reducible apply copyBody_kept)

theorem execTraceCtl_kept {s0 s : State} (q : RingId) (hk : Kept s0 s) : ∃ z, execTraceCtl q s = .next z ∧ Kept s0 z := by
  unfold execTraceCtl
  refine ⟨_, rfl, ?_⟩
  repeat' (first
    | with_reducible assumption
    | intro (x : State) hx
    | intro _
    | with_reducible apply ringCommand_kept
    | with_reducible apply traceCtlBody_kept)

theorem execSnapshot_kept {s0 s : State} (q : RingId) (hk : Kept s0 s) : ∃ z, execSnapshot q s = .next z ∧ Kept s0 z := by
  unfold execSnapshot
  refine ⟨_, rfl, ?_⟩
  repeat' (first
    | with_reducible assumption
    | intro (x : State) hx
    | intro _
    | with_reducible apply ringCommand_kept
    | with_reducible apply snapshotBody_kept)

theorem execReadStats_kept {s0 s : State} (q : RingId) (hk : Kept s0 s) : ∃ z, execReadStats q s = .next z ∧ Kept s0 z := by
  unfold execReadStats
  refine ⟨_, rfl, ?_⟩
  repeat' (first
    | with_reducible assumption
    | intro (x : State) hx
    | intro _
    | with_reducible apply ringCommand_kept
    | with_reducible apply readStatsBody_kept)

theorem execReplayCheck_kept {s0 s : State} (q : RingId) (loss tokens : Word) (wsum : DWord) (hk : Kept s0 s) : ∃ z, execReplayCheck q loss tokens wsum s = .next z ∧ Kept s0 z := by
  unfold execReplayCheck
  refine ⟨_, rfl, ?_⟩
  repeat' (first
    | with_reducible assumption
    | intro (x : State) hx
    | intro _
    | with_reducible apply ringCommand_kept
    | with_reducible apply atEpoch_kept
    | with_reducible apply replayBody_kept)

theorem execRestore_kept {s0 s : State} (q : RingId) (image : HostData) (hk : Kept s0 s) : ∃ z, execRestore q image s = .next z ∧ Kept s0 z := by
  unfold execRestore
  refine ⟨_, rfl, ?_⟩
  repeat' (first
    | with_reducible assumption
    | intro (x : State) hx
    | intro _
    | with_reducible apply ringCommand_kept
    | with_reducible apply atEpoch_kept
    | with_reducible apply restoreBody_kept)

theorem execSecure_kept {s0 s : State} (q : RingId) (hk : Kept s0 s) : ∃ z, execSecure q s = .next z ∧ Kept s0 z := by
  unfold execSecure
  refine ⟨_, rfl, ?_⟩
  repeat' (first
    | with_reducible assumption
    | intro (x : State) hx
    | intro _
    | with_reducible apply ringCommand_kept
    | with_reducible apply accept_kept
    | with_reducible apply Kept.ite
    | with_reducible apply Kept.upd
    | with_reducible rfl)

theorem execPause_kept {s0 s : State} (q : RingId) (hk : Kept s0 s) : ∃ z, execPause q s = .next z ∧ Kept s0 z := by
  unfold execPause
  refine ⟨_, rfl, ?_⟩
  repeat' (first
    | with_reducible assumption
    | intro (x : State) hx
    | intro _
    | with_reducible apply ringCommand_kept
    | with_reducible apply pauseBody_kept)

theorem execStep_kept {s0 s : State} (q : RingId) (hk : Kept s0 s) : ∃ z, execStep q s = .next z ∧ Kept s0 z := by
  unfold execStep
  refine ⟨_, rfl, ?_⟩
  repeat' (first
    | with_reducible assumption
    | intro (x : State) hx
    | intro _
    | with_reducible apply ringCommand_kept
    | with_reducible apply complete_kept
    | with_reducible apply beginStart_kept
    | with_reducible apply Kept.ite)

theorem execStart_kept {s0 s : State} (q : RingId) (hk : Kept s0 s) : ∃ z, execStart q s = .next z ∧ Kept s0 z := by
  unfold execStart
  refine ⟨_, rfl, ?_⟩
  repeat' (first
    | with_reducible assumption
    | intro (x : State) hx
    | intro _
    | with_reducible apply ringCommand_kept
    | with_reducible apply beginStart_kept)

theorem execPlanRead_kept {s0 s : State} (q : RingId) (hk : Kept s0 s) : ∃ z, execPlanRead q s = .next z ∧ Kept s0 z := by
  unfold execPlanRead
  refine ⟨_, rfl, ?_⟩
  repeat' (first
    | with_reducible assumption
    | intro (x : State) hx
    | intro _
    | with_reducible apply ringCommand_kept
    | with_reducible apply planReadBody_kept)

theorem execPlan_kept {s0 s : State} (q : RingId) (map pins : HostData) (hk : Kept s0 s) : ∃ z, execPlan q map pins s = .next z ∧ Kept s0 z := by
  unfold execPlan
  refine ⟨_, rfl, ?_⟩
  repeat' (first
    | with_reducible assumption
    | intro (x : State) hx
    | intro _
    | with_reducible apply ringCommand_kept
    | with_reducible apply planBody_kept)

theorem execBindSource_kept {s0 s : State} (q : RingId) (hk : Kept s0 s) : ∃ z, execBindSource q s = .next z ∧ Kept s0 z := by
  unfold execBindSource
  refine ⟨_, rfl, ?_⟩
  repeat' (first
    | with_reducible assumption
    | intro (x : State) hx
    | intro _
    | with_reducible apply ringCommand_kept
    | with_reducible apply bindBody_kept)

theorem execLoadPackage_kept {s0 s : State} (q : RingId) (data : HostData) (hk : Kept s0 s) : ∃ z, execLoadPackage q data s = .next z ∧ Kept s0 z := by
  unfold execLoadPackage
  refine ⟨_, rfl, ?_⟩
  repeat' (first
    | with_reducible assumption
    | intro (x : State) hx
    | intro _
    | with_reducible apply ringCommand_kept
    | with_reducible apply loadBody_kept)

/-- Every command answers a next state, and keeps what `Kept` says. -/
theorem exec_kept {s0 s : State} (c : Instr) (hk : Kept s0 s) : ∃ t, exec c s = .next t ∧ Kept s0 t := by
  cases c with
  | loadPackage => exact execLoadPackage_kept _ _ hk
  | bindSource => exact execBindSource_kept _ hk
  | plan => exact execPlan_kept _ _ _ hk
  | planRead => exact execPlanRead_kept _ hk
  | start => exact execStart_kept _ hk
  | step => exact execStep_kept _ hk
  | pause => exact execPause_kept _ hk
  | secure => exact execSecure_kept _ hk
  | restore => exact execRestore_kept _ _ hk
  | replayCheck => exact execReplayCheck_kept _ _ _ _ hk
  | readStats => exact execReadStats_kept _ hk
  | snapshot => exact execSnapshot_kept _ hk
  | traceCtl => exact execTraceCtl_kept _ hk
  | copy => exact execCopy_kept _ _ _ hk
  | fwWrite => exact execFwWrite_kept _ _ hk
  | echo => exact execEcho_kept _ hk
  | fullReset => exact execFullReset_kept _ hk
  | sqTail => exact ⟨_, rfl, sqTailOp_kept hk⟩
  | sqEntryFetched => exact ⟨_, rfl, fetchOp_kept hk⟩
  | rqHead => exact ⟨_, rfl, rqHeadOp_kept hk⟩
  | ringEnable => exact ⟨_, rfl, writeReg_kept hk⟩
  | pwrMoor => exact ⟨_, rfl, writeReg_kept hk⟩
  | pwrNext => exact ⟨_, rfl, writeReg_kept hk⟩
  | cntSnap => exact ⟨_, rfl, writeReg_kept hk⟩
  | mgtPositionWrite => exact ⟨_, rfl, writeReg_kept hk⟩
  | portEnable => exact ⟨_, rfl, writeReg_kept hk⟩
  | portSplitChange => exact ⟨_, rfl, writeBar0_kept hk⟩
  | inlineEccChange => exact ⟨_, rfl, writeReg_kept hk⟩
  | aliasWrite => exact execAliasWrite_kept _ _ hk
  | registerWrite => exact ⟨_, rfl, writeBar0_kept hk⟩
  | bar4Read => exact ⟨_, rfl, bar4ReadOp_kept hk⟩
  | bar4Write => exact ⟨_, rfl, bar4WriteOp_kept hk⟩
  | d3hotEntry => exact ⟨_, rfl, d3hotEntry_kept hk⟩
  | d0Return => exact ⟨_, rfl, d0Return_kept hk⟩
  | mboxLogRead => exact execMboxLogRead_kept _ hk
  | mboxLifeRead => exact execMboxLifeRead_kept _ hk
  | mboxMoor => exact execMboxMoor_kept _ hk
  | mboxWake => exact execMboxWake_kept _ hk
  | mboxReset => exact execMboxReset_kept _ hk
  | tile => exact execTile_kept _ _ _ hk
  | tbl => exact execTbl_kept _ _ _ hk
  | idle => exact execIdle_kept _ _ _ hk
  | vecAdd => exact ⟨_, rfl, issueVec_kept hk⟩
  | vecMul => exact ⟨_, rfl, issueVec_kept hk⟩
  | vecFma => exact ⟨_, rfl, issueVec_kept hk⟩
  | vecMax => exact ⟨_, rfl, issueVec_kept hk⟩
  | vecMin => exact ⟨_, rfl, issueVec_kept hk⟩
  | vecCvt => exact ⟨_, rfl, issueVec_kept hk⟩
  | w42add => exact ⟨_, rfl, issueVec_kept hk⟩
  | drop => exact ⟨_, rfl, issueVec_kept hk⟩
  | exp => exact ⟨_, rfl, issueVec_kept hk⟩
  | exp2 => exact ⟨_, rfl, issueVec_kept hk⟩
  | log => exact ⟨_, rfl, issueVec_kept hk⟩
  | log2 => exact ⟨_, rfl, issueVec_kept hk⟩
  | rcp => exact ⟨_, rfl, issueVec_kept hk⟩
  | rsq => exact ⟨_, rfl, issueVec_kept hk⟩
  | div => exact ⟨_, rfl, issueVec_kept hk⟩
  | ladd => exact ⟨_, rfl, issueVec_kept hk⟩
  | smax => exact ⟨_, rfl, issueVec_kept hk⟩
  | rsum => exact ⟨_, rfl, issueVec_kept hk⟩
  | rmax => exact ⟨_, rfl, issueVec_kept hk⟩
  | xuAdd => exact ⟨_, rfl, issueXu_kept hk⟩
  | xuMul => exact ⟨_, rfl, issueXu_kept hk⟩
  | xuFma => exact ⟨_, rfl, issueXu_kept hk⟩
  | xuCvt => exact ⟨_, rfl, issueXu_kept hk⟩
  | dot => exact ⟨_, rfl, issueXu_kept hk⟩
  | gather => exact ⟨_, rfl, issueXu_kept hk⟩
  | scat => exact ⟨_, rfl, issueXu_kept hk⟩
  | rope => exact ⟨_, rfl, issueXu_kept hk⟩
  | xent => exact ⟨_, rfl, issueXu_kept hk⟩
  | xgrad => exact ⟨_, rfl, issueXu_kept hk⟩
  | nstat => exact ⟨_, rfl, issueXu_kept hk⟩
  | movLd => exact execMovLd_kept _ _ _ hk
  | movSt => exact execMovSt_kept _ _ _ hk
  | movLdi => exact execMovLdi_kept _ _ _ hk
  | movMvas => exact execMovMvas_kept _ _ _ hk
  | movMvsa => exact execMovMvsa_kept _ _ _ hk
  | movRdcsr => exact execMovRdcsr_kept _ _ _ hk
  | movWrcsr => exact execMovWrcsr_kept _ _ _ hk
  | movCopy => exact execMovCopy_kept _ _ _ hk
  | movComplete => exact execMovComplete_kept _ _ hk
  | strRun => exact ⟨_, rfl, issueStr_kept hk⟩
  | strRearm => exact execStrRearm_kept _ _ _ hk
  | strMark => exact ⟨_, rfl, issueStr_kept hk⟩
  | strTrace => exact execStrTrace_kept _ _ _ hk
  | waitc => exact execWaitc_kept _ _ _ hk
  | setc => exact execSetc_kept _ _ _ hk
  | bar => exact execBar_kept _ _ _ hk
  | wstroke => exact execWstroke_kept _ _ _ hk
  | ovfx => exact execOvfx_kept _ _ _ hk
  | drain => exact execDrain_kept _ _ _ hk
  | nop => exact execNop_kept _ _ _ hk
  | alu => exact execAlu_kept _ _ _ hk
  | alui => exact execAlui_kept _ _ _ hk
  | br => exact execBr_kept _ _ _ hk
  | jmp => exact execJmp_kept _ _ _ hk
  | halt => exact execHalt_kept _ _ _ hk
  | adda => exact execAdda_kept _ _ _ hk
  | fill => exact ⟨_, rfl, fill_kept hk⟩
  | tileGroupStart => exact ⟨_, rfl, groupStart_kept hk⟩
  | fenceEnd => exact ⟨_, rfl, fenceEnd_kept hk⟩
  | tileComplete => exact ⟨_, rfl, tileComplete_kept hk⟩
  | tblComplete => exact ⟨_, rfl, tblComplete_kept hk⟩
  | idleEnd => exact ⟨_, rfl, idleEnd_kept hk⟩
  | rampStep => exact ⟨_, rfl, rampStep_kept hk⟩
  | unplannedGapTimeout => exact ⟨_, rfl, gapTimeout_kept hk⟩
  | vecComplete => exact ⟨_, rfl, vecComplete_kept hk⟩
  | xuComplete => exact ⟨_, rfl, xuComplete_kept hk⟩
  | descCacheFill => exact ⟨_, rfl, cacheFill_kept hk⟩
  | streamTransferComplete => exact ⟨_, rfl, transfer_kept hk⟩
  | routerTargetOff => exact execRouterTargetOff_kept _ _ _ hk
  | writeBufferFlush => exact ⟨_, rfl, flushBuffer_kept hk⟩
  | lpddrRefresh => exact ⟨_, rfl, refresh_kept hk⟩
  | lpddrTempRead => exact ⟨_, rfl, lpddrTempRead_kept hk⟩
  | lpddrInitDone => exact ⟨_, rfl, lpddrInit_kept hk⟩
  | holdInitDone => exact ⟨_, rfl, holdInit_kept hk⟩
  | scrubRead => exact ⟨_, rfl, scrub_kept hk⟩
  | strokeEdge => exact execStrokeEdge_kept hk
  | guardPoint => exact execGuardPoint_kept _ hk
  | easyLimit => exact ⟨_, rfl, easyLimit_kept hk⟩
  | lockGained => exact execLockGained_kept hk
  | lockLost => exact execLockLost_kept hk
  | reductionDeadline => exact ⟨_, rfl, reductionDeadline_kept hk⟩
  | distributionDeadline => exact ⟨_, rfl, distributionDeadline_kept hk⟩
  | optimiserUpdate => exact ⟨_, rfl, optimiserUpdate_kept hk⟩
  | weightConversion => exact ⟨_, rfl, weightConversion_kept hk⟩
  | codebookRebuild => exact ⟨_, rfl, codebookRebuild_kept hk⟩
  | admissionPick => exact ⟨_, rfl, admissionPick_kept hk⟩
  | sampleTokensRead => exact ⟨_, rfl, sampleTokens_kept hk⟩
  | stepBoundary => exact execStepBoundary_kept _ hk
  | secureStopComplete => exact ⟨_, rfl, atEpoch_kept (secureStopComplete_kept hk)⟩
  | standingReply => exact ⟨_, rfl, standingReply_kept hk⟩
  | hostLost => exact ⟨_, rfl, hostLost_kept hk⟩
  | heartbeatLimit => exact ⟨_, rfl, heartbeatLimit_kept hk⟩
  | controlReductionStall => exact ⟨_, rfl, controlStall_kept hk⟩
  | wedgeTimeout => exact ⟨_, rfl, wedge_kept hk⟩
  | frameReceived => exact ⟨_, rfl, frameReceived_kept hk⟩
  | laneFail => exact ⟨_, rfl, laneFails_kept hk⟩
  | laneDrop => exact ⟨_, rfl, laneDrop_kept hk⟩
  | laneDropTimeout => exact ⟨_, rfl, dropTimeout_kept hk⟩
  | portTrained => exact ⟨_, rfl, portTrained_kept hk⟩
  | packetForward => exact ⟨_, rfl, packetForward_kept hk⟩
  | catchMarker => exact execCatchMarker_kept _ _ _ _ _ hk
  | easy => exact execEasy_kept _ _ _ _ hk
  | reduceUp => exact execReduceUp_kept _ _ _ _ hk
  | reduceDown => exact execReduceDown_kept _ _ _ _ hk
  | digest => exact execDigest_kept _ _ _ _ hk
  | credit => exact execCredit_kept _ _ _ _ hk
  | endAck => exact execEndAck_kept _ _ _ _ hk
  | data => exact execData_kept _ _ _ _ hk
  | endPass => exact execEndPass_kept _ _ _ _ hk
  | raBf16 => exact execRaBf16_kept _ _ _ _ hk
  | raFp8 => exact execRaFp8_kept _ _ _ _ hk
  | scaleUp => exact execScaleUp_kept _ _ _ _ hk
  | scaleDown => exact execScaleDown_kept _ _ _ _ hk
  | sums => exact execSums_kept _ _ _ _ hk
  | powerStateEntry => exact execPowerStateEntry_kept _ _ hk
  | powerStateExit => exact ⟨_, rfl, scopeExit_kept hk⟩
  | powerExitComplete => exact ⟨_, rfl, exitComplete_kept hk⟩
  | unplannedWake => exact execUnplannedWake_kept _ hk
  | drainTimeout => exact ⟨_, rfl, drainTimeout_kept hk⟩
  | avsAck => exact ⟨_, rfl, avsAck_kept hk⟩
  | avsAckTimeout => exact ⟨_, rfl, avsTimeout_kept hk⟩
  | droopEvent => exact ⟨_, rfl, droop_kept hk⟩
  | sensorSample => exact ⟨_, rfl, sensorSample_kept hk⟩
  | thermTrip => exact ⟨_, rfl, thermTrip_kept hk⟩
  | regulatorPoll => exact ⟨_, rfl, regulatorPoll_kept hk⟩
  | logFlush => exact execLogFlush_kept hk
  | lifetimeRecordWrite => exact execLifetimeRecordWrite_kept hk
  | traceDrain => exact ⟨_, rfl, traceDrain_kept hk⟩
  | vddAonUp => exact ⟨_, rfl, aonUp_kept hk⟩
  | perstAssert => exact ⟨_, rfl, perstAssert_kept hk⟩
  | perstDeassert => exact ⟨_, rfl, perstDeassert_kept hk⟩
  | sysPwrgoodFall => exact ⟨_, rfl, pwrgoodFall_kept hk⟩
  | sysPwrgoodRise => exact ⟨_, rfl, pwrgoodRise_kept hk⟩
  | spdmGetVersion => exact execSpdmGetVersion_kept _ hk
  | spdmGetCapabilities => exact execSpdmGetCapabilities_kept _ hk
  | spdmNegotiateAlgorithms => exact execSpdmNegotiateAlgorithms_kept _ _ hk
  | spdmGetDigests => exact execSpdmGetDigests_kept _ hk
  | spdmGetCertificate => exact execSpdmGetCertificate_kept _ _ _ hk
  | spdmChallenge => exact execSpdmChallenge_kept _ _ hk
  | spdmGetMeasurements => exact execSpdmGetMeasurements_kept _ _ _ hk
  | mctpControl => exact execMctpControl_kept _ hk
  | pldmDiscovery => exact execPldmDiscovery_kept _ hk
  | pldmGetPdr => exact execPldmGetPdr_kept _ hk
  | pldmGetSensorReading => exact execPldmGetSensorReading_kept _ hk
  | pldmGetStateSensorReadings => exact execPldmGetStateSensorReadings_kept _ hk
  | jtagBypass => exact ⟨_, rfl, bypassOut_kept hk⟩
  | jtagIdcode => exact execJtagIdcode_kept hk
  | jtagSamplePreload => exact execJtagSamplePreload_kept _ hk
  | jtagExtest => exact execJtagExtest_kept _ hk
  | jtagClamp => exact execJtagClamp_kept hk
  | jtagHighz => exact execJtagHighz_kept hk
  | jtagExtestPulse => exact execJtagExtestPulse_kept _ hk
  | jtagExtestTrain => exact execJtagExtestTrain_kept _ hk
  | strokeInEdge => exact execStrokeInEdge_kept _ hk
  | declaration => exact execDeclaration_kept _ _ _ _ hk

end Sys2Proof.Machine
end

