-- ==== Sys2Proof/Laws/Registers.lean ====
section
/-! SUPPORT. What register and doorbell writes do (R17, R337, R395, R424 to R428). -/

namespace Sys2Proof.Machine

open Sys2Proof

theorem wakeAccess_eq (s : State) : wakeAccess s =
    { s with pwr := { s.pwr with exiting := s.pwr.exiting || (s.pwr.state == .g3 || s.pwr.state == .g4) } } := by
  unfold wakeAccess startExit
  cases s.pwr.state
  all_goals first
    | (show s = { s with pwr := { s.pwr with exiting := s.pwr.exiting || false } }; rw [Bool.or_false])
    | (show { s with pwr := { s.pwr with exiting := true } } = { s with pwr := { s.pwr with exiting := s.pwr.exiting || true } }
       rw [Bool.or_true])

theorem doorbellTouch_eq (s : State) : doorbellTouch s = { s with
    pwr := { s.pwr with nextAt := none, exiting := s.pwr.exiting || (s.pwr.state == .g3 || s.pwr.state == .g4) } } := by
  unfold doorbellTouch; rw [wakeAccess_eq]
theorem writeReply_rings (q : Nat) (l : List Byte) (s : State) :
    (ring (writeReply q l s) q).rqHead = (ring s q).rqHead ∧ ∀ r, r ≠ q → ring (writeReply q l s) r = ring s r := by
  unfold writeReply
  extract_lets a f s1
  have h : ∀ r, ring s1 r = ring s r := by
    intro r
    show ring (if hostRange s a 32 then _ else _) r = _
    split
    · rfl
    · exact ring_counts (bump_countsOnly ..) r
  exact ⟨by rw [ring_modRing_self, h], fun r hr => by rw [ring_modRing_ne _ _ hr, h]⟩
theorem drainReplies_rings (q n : Nat) (s : State) :
    (ring (drainReplies q n s) q).rqHead = (ring s q).rqHead ∧ ∀ r, r ≠ q → ring (drainReplies q n s) r = ring s r := by
  induction n generalizing s with
  | zero => exact ⟨rfl, fun _ _ => rfl⟩
  | succ n ih =>
    unfold drainReplies
    split
    · exact ⟨rfl, fun _ _ => rfl⟩
    · split
      · exact ⟨rfl, fun _ _ => rfl⟩
      · next l rest _ _ =>
        obtain ⟨a, b⟩ := ih (writeReply q l (modRing q (fun R => { R with queued := rest }) s))
        obtain ⟨c, d⟩ := writeReply_rings q l (modRing q (fun R => { R with queued := rest }) s)
        exact ⟨by rw [a, c, ring_modRing_self], fun r hr => by rw [b r hr, d r hr, ring_modRing_ne _ _ hr]⟩
theorem drainReplies_nil (q : Nat) (s : State) : drainReplies q ([] : List (List Byte)).length s = s := rfl

theorem mask_full {old v rw : Nat} (hb : old < 2 ^ 32) (hv : v < 2 ^ 32) :
    (old &&& (rw ^^^ (rw &&& 0xFFFFFFFF))) = 0 ∧ (v &&& rw &&& 0xFFFFFFFF) = (v &&& rw) := by
  refine ⟨?_, ?_⟩
  · apply Nat.eq_of_testBit_eq
    intro i
    by_cases hi : i < 32
    · have : Nat.testBit 0xFFFFFFFF i = true := by
        rw [show (0xFFFFFFFF : Nat) = 2 ^ 32 - 1 from rfl, Nat.testBit_two_pow_sub_one]; simp [hi]
      simp [this]
    · have : old.testBit i = false := Nat.testBit_lt_two_pow (Nat.lt_of_lt_of_le hb (Nat.pow_le_pow_right (by omega) (by omega)))
      simp [this]
  · rw [show (0xFFFFFFFF : Nat) = 2 ^ 32 - 1 from rfl, Nat.and_two_pow_sub_one_eq_mod]
    exact Nat.mod_eq_of_lt (Nat.lt_of_le_of_lt Nat.and_le_left hv)

/-- A write of all 32 bits of a register none of whose fields is locked (R17, R424, R428). -/
theorem writeReg_eq {s : State} {off v : Nat} {r : RegInfo} (h : Writable (wakeAccess s) off) (ho : off < 0x2000000)
    (hi : regInfo off = some r) (hc : r.rw ≠ 0 ∨ r.cmd ≠ 0) (hl : lockedFields s off = 0) (hv : v < 2 ^ 32)
    (hok : regOk off (v &&& r.rw) = true) :
    writeReg off v s = writeEffect off (reg s off) (v &&& r.rw) v 0xFFFFFFFF (setReg off (v &&& r.rw) (wakeAccess s)) := by
  have hr : reg (wakeAccess s) off = reg s off := by rw [wakeAccess_eq]; rfl
  have hl' : lockedFields (wakeAccess s) off = 0 := by
    have : lockedFields (wakeAccess s) off = lockedFields s off := by rw [wakeAccess_eq]; rfl
    rw [this, hl]
  have hb : reg s off < 2 ^ 32 := (regW s off).isLt
  obtain ⟨e1, e2⟩ := mask_full (rw := r.rw) hb hv
  unfold writeReg
  extract_lets t
  have hw : Writable t off := h
  rw [if_neg (by simp [hw.booted, hw.seen]), if_neg (by omega)]
  unfold writeMasked
  rw [hi]
  have hrc : (r.rw == 0 && r.cmd == 0) = false := by rcases hc with h | h <;> simp [h]
  have hr' : reg t off = reg s off := hr
  have hl'' : lockedFields t off = 0 := hl'
  simp only [hw.here, hw.on, hw.free, hrc, hr', hl'', e1, e2, Nat.and_zero, Nat.zero_or, Nat.xor_zero]
  rw [show (v &&& r.rw &&& r.rw) = (v &&& r.rw) by rw [Nat.and_assoc, Nat.and_self], hok]
  rfl
theorem refuse_of_locked {s : State} {off v : Nat} (ho : off < 0x2000000)
    (h : s.dev = .boot ∨ recoveryHides s off = true ∨ regInfo off = none ∨ instanceExists s off = false ∨ domainOff s off = true ∨
      regLocked s off = true ∨ (∃ r, regInfo off = some r ∧ r.rw = 0 ∧ r.cmd = 0)) :
    writeReg off v s = refuseWrite (wakeAccess s) := by
  have he := wakeAccess_eq s
  unfold writeReg
  extract_lets t
  have a1 : t.dev = s.dev := by show (wakeAccess s).dev = _; rw [he]
  have a2 : recoveryHides t off = recoveryHides s off := by show recoveryHides (wakeAccess s) off = _; rw [he]; rfl
  have a3 : instanceExists t off = instanceExists s off := by show instanceExists (wakeAccess s) off = _; rw [he]; rfl
  have a4 : domainOff t off = domainOff s off := by show domainOff (wakeAccess s) off = _; rw [he]; rfl
  have a5 : regLocked t off = regLocked s off := by show regLocked (wakeAccess s) off = _; rw [he]; rfl
  split
  · rfl
  · next z =>
    rw [if_neg (by omega)]
    unfold writeMasked
    split
    · rfl
    · next r hr =>
      rw [if_pos]
      rw [a3, a4, a5]
      rw [a1, a2] at z
      rcases h with h | h | h | h | h | h | ⟨r', h, h1, h2⟩
      · simp [h] at z
      · simp [h] at z
      · simp [h] at hr
      · simp [h]
      · simp [h]
      · simp [h]
      · rw [h] at hr; injection hr with hr; subst hr; simp [h1, h2]
theorem silent_locked {s : State} {off : Nat} (h : silent off) : lockedFields s off = 0 := by
  unfold lockedFields
  obtain ⟨a, b, c⟩ := h
  rw [if_neg (by simp at b; omega), if_neg c, if_neg a]
theorem silent_effect {s : State} {off old new v m : Nat} (h : silent off) : writeEffect off old new v m s = s := by
  obtain ⟨a, b, c⟩ := h
  simp only [List.mem_cons, not_or, List.not_mem_nil] at b
  unfold writeEffect
  rw [if_neg a, if_neg b.1, if_neg b.2.1, if_neg b.2.2.1, if_neg b.2.2.2.1, if_neg b.2.2.2.2.1, if_neg b.2.2.2.2.2.1, if_neg c]
theorem writeReg_bad {s : State} {off v : Nat} {r : RegInfo} (ho : off < 0x2000000) (hi : regInfo off = some r)
    (hl : lockedFields s off = 0) (hv : v < 2 ^ 32) (hok : regOk off (v &&& r.rw) = false) :
    writeReg off v s = refuseWrite (wakeAccess s) := by
  have hr : reg (wakeAccess s) off = reg s off := by rw [wakeAccess_eq]; rfl
  have hl' : lockedFields (wakeAccess s) off = 0 := by
    have : lockedFields (wakeAccess s) off = lockedFields s off := by rw [wakeAccess_eq]; rfl
    rw [this, hl]
  have hb : reg s off < 2 ^ 32 := (regW s off).isLt
  obtain ⟨e1, e2⟩ := mask_full (rw := r.rw) hb hv
  unfold writeReg
  extract_lets t
  have hr' : reg t off = reg s off := hr
  have hl'' : lockedFields t off = 0 := hl'
  split
  · rfl
  · rw [if_neg (by omega)]
    unfold writeMasked
    rw [hi]
    simp only [hr', hl'', e1, e2, Nat.and_zero, Nat.zero_or, Nat.xor_zero]
    rw [show (v &&& r.rw &&& r.rw) = (v &&& r.rw) by rw [Nat.and_assoc, Nat.and_self], hok]
    split <;> rfl
theorem bitN_testBit (n i : Nat) : bitN n i = n.testBit i := by
  rw [Nat.testBit_eq_decide_div_mod_eq]; unfold bitN
  by_cases h : n / 2 ^ i % 2 = 1 <;> simp [h]
theorem and_bit {rw b : Nat} (h : bitN rw b = true) : rw &&& 2 ^ b = 2 ^ b := by
  rw [bitN_testBit] at h
  apply Nat.eq_of_testBit_eq
  intro i
  rw [Nat.testBit_and, Nat.testBit_two_pow]
  by_cases e : b = i
  · subst e; simp [h]
  · simp [e]
theorem bit_and {v b : Nat} : (v % 2 * 2 ^ b) &&& 2 ^ b = v % 2 * 2 ^ b := by
  rcases Nat.mod_two_eq_zero_or_one v with h | h <;> rw [h] <;> simp
theorem bit_set {old rw v b k : Nat} (hk : bitN rw k = true) :
    bitN ((old &&& (rw ^^^ 2 ^ b)) ||| v % 2 * 2 ^ b) k = if k = b then decide (v % 2 = 1) else bitN old k := by
  simp only [bitN_testBit] at *
  rw [Nat.testBit_or, Nat.testBit_and, Nat.testBit_xor, hk, Nat.testBit_two_pow]
  by_cases e : b = k
  · subst e
    rcases Nat.mod_two_eq_zero_or_one v with h | h <;> rw [h] <;> simp [Nat.testBit_two_pow_self]
  · rw [if_neg (Ne.symm e)]
    rcases Nat.mod_two_eq_zero_or_one v with h | h <;> rw [h] <;> simp [e, Nat.testBit_two_pow]
theorem bit_in {old rw v b : Nat} (h : bitN rw b = true) :
    ((old &&& (rw ^^^ 2 ^ b)) ||| v % 2 * 2 ^ b) &&& rw = (old &&& (rw ^^^ 2 ^ b)) ||| v % 2 * 2 ^ b := by
  rw [bitN_testBit] at h
  apply Nat.eq_of_testBit_eq
  intro i
  rw [Nat.testBit_and, Nat.testBit_or, Nat.testBit_and, Nat.testBit_xor, Nat.testBit_two_pow]
  by_cases e : b = i
  · subst e; simp [h]
  · rcases Nat.mod_two_eq_zero_or_one v with hv | hv <;> rw [hv] <;> simp [e, Nat.testBit_two_pow, Bool.and_assoc]

end Sys2Proof.Machine
end

