-- ==== Sys2Proof/Laws/RegisterEvents.lean ====
section
/-! SUPPORT. What the writes of HST_RING_CTL, LNK_CTL, MEM_CTL and PWR_CMD bring with them (R248, R302, R354, R360). -/

namespace Sys2Proof.Machine

open Sys2Proof

theorem regInfo_ring {q : Nat} (h : q < 64) : regInfo (ringReg q 0x10) = rwReg 0x11F1F 0x404 := by
  unfold regInfo ringReg
  rw [if_neg (by omega), if_pos (by omega)]
  unfold regInfoSetup
  rw [if_neg (by omega), if_neg (by omega), if_neg (by omega), if_pos (by omega)]
  extract_lets o
  have ho : o = 0x10 := by show (0x3000 + q * 0x20 + 0x10) % 0x20 = 0x10; omega
  rw [ho]; rfl
theorem regInfo_port {p : Nat} (h : p < 16) : regInfo (portReg p 0) = rwReg 7 5 := by
  unfold regInfo portReg
  rw [if_neg (by omega), if_neg (by omega), if_neg (by omega), if_neg (by omega), if_pos (by omega),
    show (0x300000 + p * 0x10000 + 0) % 0x10000 = 0 by omega]; rfl
theorem ringEnabled_reg (s : State) (q : Nat) : ringEnabled s q = bitN (reg s (ringReg q 0x10)) 16 := rfl
theorem bit_masked {v m k : Nat} (h : bitN m k = true) : bitN (v &&& m) k = bitN v k := by
  simp only [bitN_testBit] at *
  rw [Nat.testBit_and, h, Bool.and_true]
theorem bitsN_masked {v m lo w : Nat} (h : ∀ i, i < w → bitN m (lo + i) = true) : bitsN (v &&& m) lo w = bitsN v lo w := by
  unfold bitsN
  apply Nat.eq_of_testBit_eq
  intro i
  rw [Nat.testBit_mod_two_pow, Nat.testBit_mod_two_pow, Nat.testBit_div_two_pow, Nat.testBit_div_two_pow, Nat.testBit_and]
  by_cases hi : i < w
  · have := h i hi
    rw [bitN_testBit, Nat.add_comm] at this
    simp [hi, this]
  · simp [hi]
theorem and_ones {v : Nat} (h : v < 2 ^ 32) : (v &&& 0xFFFFFFFF) = v := by
  rw [show (0xFFFFFFFF : Nat) = 2 ^ 32 - 1 from rfl, Nat.and_two_pow_sub_one_eq_mod]; exact Nat.mod_eq_of_lt h
theorem identityExchange_spec (s : State) : ∃ o, identityExchange s = { s with out := o ++ s.out } ∧
    ∀ p, p < 16 → (port s p).sub0.up = true ∨ (port s p).sub1.up = true → Output.identity p ∈ o := by
  have g : ∀ (l : List Nat) (s : State), ∃ o, l.foldl (fun t p => if (port t p).sub0.up || (port t p).sub1.up then emit (.identity p) t else t) s =
      { s with out := o ++ s.out } ∧ ∀ p ∈ l, (port s p).sub0.up = true ∨ (port s p).sub1.up = true → Output.identity p ∈ o := by
    intro l
    induction l with
    | nil => exact fun s => ⟨[], rfl, fun _ h => by simp at h⟩
    | cons x l ih =>
      intro s
      rw [List.foldl_cons]
      by_cases h : ((port s x).sub0.up || (port s x).sub1.up) = true
      · rw [if_pos h]
        obtain ⟨o, h1, h2⟩ := ih (emit (.identity x) s)
        refine ⟨o ++ [.identity x], by rw [h1]; simp [emit], fun p hp hu => ?_⟩
        rcases List.mem_cons.mp hp with rfl | hp
        · simp
        · exact List.mem_append_left _ (h2 p hp hu)
      · rw [if_neg h]
        obtain ⟨o, h1, h2⟩ := ih s
        refine ⟨o, h1, fun p hp hu => ?_⟩
        rcases List.mem_cons.mp hp with rfl | hp
        · exact absurd (by simpa using hu) h
        · exact h2 p hp hu
  obtain ⟨o, h1, h2⟩ := g (List.range 16) s
  exact ⟨o, h1, fun p hp => h2 p (by simp [hp])⟩
theorem port_write {s : State} {p v : Nat} (h : Writable (wakeAccess s) (portReg p 0)) (hp : p < 16) (hl : s.plan = none) (hv : v < 2 ^ 32) :
    writeReg (portReg p 0) v s =
      (if bitN v 0 then (if bitN (reg s (portReg p 0)) 0 && bitN (reg s (portReg p 0)) 1 == bitN v 1 then
          setReg (portReg p 0) (v &&& 7) (wakeAccess s) else portTrain p (setReg (portReg p 0) (v &&& 7) (wakeAccess s)))
        else if bitN (reg s (portReg p 0)) 0 then portDown p (setReg (portReg p 0) (v &&& 7) (wakeAccess s))
        else setReg (portReg p 0) (v &&& 7) (wakeAccess s)) := by
  have hlk : lockedFields s (portReg p 0) = 0 := by
    unfold lockedFields
    rw [if_neg (by unfold portReg; omega), if_pos (by unfold portReg; omega), hl]; rfl
  have hok : regOk (portReg p 0) (v &&& 7) = true := by
    unfold regOk
    iterate 3 rw [if_neg (by unfold portReg; omega)]
  rw [writeReg_eq h (by unfold portReg; omega) (regInfo_port hp) (.inl (by decide)) hlk hv hok]
  unfold writeEffect
  iterate 7 rw [if_neg (by unfold portReg; omega)]
  rw [if_pos (by unfold portReg; omega)]
  extract_lets k
  have hk : k = p := by show (portReg p 0 - 0x300000) / 0x10000 = p; unfold portReg; omega
  rw [hk, bit_masked (by decide), bit_masked (by decide)]
theorem ch_modCh_ne (s : State) {c r : Nat} (f : ChSt → ChSt) (h : r ≠ c) : ch (modCh c f s) r = ch s r := sget_smod_ne _ _ _ h
theorem ch_modAll (f : ChSt → ChSt) (hf : ∀ x, f (f x) = f x) (l : List Nat) (s : State) (c : Nat) :
    ch (l.foldl (fun t c => modCh c f t) s) c = if c ∈ l then f (ch s c) else ch s c := by
  induction l generalizing s with
  | nil => rfl
  | cons x l ih =>
    rw [List.foldl_cons, ih]
    by_cases h : c = x
    · subst h
      rw [ch_modCh_self, hf]
      simp
    · rw [ch_modCh_ne _ _ h]
      simp [h]
theorem modAll_eq (f : ChSt → ChSt) (l : List Nat) (s : State) :
    ∃ m, l.foldl (fun t c => modCh c f t) s = { s with mem := { s.mem with ch := m } } := by
  induction l generalizing s with
  | nil => exact ⟨s.mem.ch, rfl⟩
  | cons x l ih => obtain ⟨m, h⟩ := ih (modCh x f s); exact ⟨m, by rw [List.foldl_cons, h]; rfl⟩
theorem eccChanged_spec (s : State) : (∀ c, c < 16 → (ch (eccChanged s) c).init = true) ∧
    (∃ m, eccChanged s = { dropPkg (dropLpddr s) with mem := m }) ∧
    ∀ x, lpddrBase ≤ x → x < lpddrBase + 2 ^ 40 → memByte (eccChanged s) x = 0 := by
  obtain ⟨m, h⟩ := modAll_eq (fun C => { C with init := true, scrubbing := false, buffers := [] }) (List.range 16) (dropPkg (dropLpddr s))
  have e : eccChanged s = { dropPkg (dropLpddr s) with mem := { (dropPkg (dropLpddr s)).mem with ch := m } } := h
  refine ⟨fun c hc => ?_, ⟨_, e⟩, fun x h1 h2 => ?_⟩
  · have k := ch_modAll (fun C => { C with init := true, scrubbing := false, buffers := [] }) (fun _ => rfl) (List.range 16)
      (dropPkg (dropLpddr s)) c
    unfold eccChanged
    rw [k, if_pos (by simp [hc])]
  · rw [e]
    unfold memByte sharedBase
    unfold lpddrBase at h1 h2
    rw [if_neg (by omega), if_neg (by omega), if_neg (by omega)]
    show sget byteD (serase lpddrBase (lpddrBase + 2 ^ 40) s.mem.data) x = 0
    rw [sget_serase, if_pos (by unfold lpddrBase; omega)]; rfl
theorem dropTraces_same (s : State) : (dropTraces s).dev = s.dev ∧ (dropTraces s).pkg = s.pkg := by
  unfold dropTraces
  generalize List.range 96 = l
  induction l generalizing s with
  | nil => exact ⟨rfl, rfl⟩
  | cons x l ih =>
    rw [List.foldl_cons]
    obtain ⟨a, b⟩ := ih (dropTrace x s)
    have h : (dropTrace x s).dev = s.dev ∧ (dropTrace x s).pkg = s.pkg := by
      unfold dropTrace
      extract_lets n
      split
      · exact ⟨rfl, rfl⟩
      · rw [(bump_countsOnly ..).rest]; exact ⟨rfl, rfl⟩
    exact ⟨a.trans h.1, b.trans h.2⟩
theorem memOff_same (p : PowerState) (s : State) : (memOff p s).dev = s.dev ∧ (memOff p s).pkg = s.pkg := by
  unfold memOff
  split
  · obtain ⟨m, h⟩ := modAll_eq (fun C => { C with selfRefresh := true, scrubbing := false }) (List.range 16) (dropHold s)
    rw [h]; exact ⟨rfl, rfl⟩
  · exact ⟨rfl, rfl⟩
/-- What G5 leaves of the device (R359, R360). -/
theorem moor_fields (s : State) : (moor s).pwr.state = .g5 ∧ (moor s).pwr.domains = false ∧ (moor s).host.linkUp = false ∧
    (moor s).link.port = [] ∧ (moor s).dev = s.dev ∧ (moor s).pkg = s.pkg := by
  have h1 := dropTraces_same s
  unfold moor enterDeep
  generalize dropTraces s = w at *
  have h3 : (saveRegs .g5 w).dev = w.dev ∧ (saveRegs .g5 w).pkg = w.pkg := by unfold saveRegs; exact ⟨rfl, rfl⟩
  generalize saveRegs .g5 w = w' at *
  have h4 : (dropCores w').dev = w'.dev ∧ (dropCores w').pkg = w'.pkg := by unfold dropCores dropScratch; exact ⟨rfl, rfl⟩
  generalize dropCores w' = w'' at *
  have h2 := memOff_same .g5 w''
  generalize memOff .g5 w'' = v at *
  have h5 : ∀ v : State, (lifeWrite (nowIn .g5 (railsDown .g5 (linksOff .g5 v)))).dev = v.dev ∧ (lifeWrite (nowIn .g5 (railsDown .g5 (linksOff .g5 v)))).pkg = v.pkg := by
    intro v; unfold lifeWrite lifeAdd nowIn railsDown linksOff; exact ⟨rfl, rfl⟩
  refine ⟨rfl, rfl, rfl, rfl, (h5 v).1.trans (h2.1.trans (h4.1.trans (h3.1.trans h1.1))), (h5 v).2.trans (h2.2.trans (h4.2.trans (h3.2.trans h1.2)))⟩

end Sys2Proof.Machine
end

