-- ==== Sys2Proof/Laws/Power.lean ====
section
/-! SUPPORT. What entries into and exits from power states change (R359 to R366). -/

namespace Sys2Proof.Machine

open Sys2Proof

theorem wakeStall_parts (c : Option Nat) (n : Nat) (s : State) : (wakeStall c n s).pwr = s.pwr ∧ (wakeStall c n s).dev = s.dev ∧
    (wakeStall c n s).pkg = s.pkg ∧ ∀ x, ¬ logRing x → memByte (wakeStall c n s) x = memByte s x := by
  unfold wakeStall
  split
  · exact ⟨rfl, rfl, rfl, fun _ _ => rfl⟩
  · extract_lets k v
    have B := bump_countsOnly (cntDev 32) k s
    have hp : ∀ {a b : State}, CountsOnly a b → b.pkg = a.pkg := fun h => by rw [h.rest]
    have bp : v.pwr = s.pwr ∧ v.dev = s.dev ∧ v.pkg = s.pkg ∧ ∀ x, ¬ logRing x → memByte v x = memByte s x :=
      ⟨B.parts.2.2.2.2.1, B.parts.2.2.2.2.2.2.2.2.2.1, hp B, B.mem⟩
    clear_value v
    cases c with
    | none => exact bp
    | some c =>
      obtain ⟨T, h⟩ := traceRec_eq c 0 9 3 k 0 v
      have q := h.parts
      exact ⟨q.2.2.2.2.1.trans bp.1, q.2.2.2.2.2.2.2.2.2.1.trans bp.2.1, (hp h).trans bp.2.2.1,
        fun x hx => ((h.mem x hx).trans (memByte_congr x rfl rfl rfl rfl)).trans (bp.2.2.2 x hx)⟩
theorem gated_setUnit (k : Nat) (b : Bool) (s : State) (d v : Nat) : gated (setUnit k b s) d v = if d * 8 + v = k then b else gated s d v := by
  unfold gated setUnit
  by_cases h : d * 8 + v = k
  · rw [if_pos h, h]; exact sget_sset_self ..
  · rw [if_neg h]; exact sget_sset_ne _ _ _ h
theorem groups_fold (l : List Nat) (s : State) (g : Nat) :
    group (l.foldl (fun t g => if group t g == .p0 then setGroup g .g2 t else t) s) g = if g ∈ l ∧ group s g = .p0 then .g2 else group s g := by
  induction l generalizing s with
  | nil => simp
  | cons x l ih =>
    rw [List.foldl_cons, ih]
    have h : group (if (group s x == .p0) = true then setGroup x .g2 s else s) g = if g = x ∧ group s g = .p0 then .g2 else group s g := by
      split
      · next z =>
        by_cases e : g = x
        · subst e; rw [group_setGroup_self, if_pos ⟨rfl, by simpa using z⟩]
        · rw [group_setGroup_ne _ _ e, if_neg (fun k => e k.1)]
      · next z => rw [if_neg]; rintro ⟨e, k⟩; subst e; simp [k] at z
    rw [h]
    by_cases e : g = x <;> by_cases k : group s g = .p0 <;> simp [e, k]
    · subst e; simp [k]
    · subst e; simp [k]
theorem groups_fold_eq (f : Nat → State → State) (hf : ∀ g t, ∃ m, f g t = { t with pwr := { t.pwr with groups := m } }) (l : List Nat) (s : State) :
    ∃ m, l.foldl (fun t g => f g t) s = { s with pwr := { s.pwr with groups := m } } := by
  induction l generalizing s with
  | nil => exact ⟨s.pwr.groups, rfl⟩
  | cons x l ih =>
    obtain ⟨m, h⟩ := hf x s
    obtain ⟨m', h'⟩ := ih (f x s)
    exact ⟨m', by rw [List.foldl_cons, h', h]⟩
theorem exits_fold_eq (f : Nat → State → State) (hf : ∀ g t, ∃ m, f g t = { t with pwr := { t.pwr with groupExit := m } }) (l : List Nat) (s : State) :
    ∃ m, l.foldl (fun t g => f g t) s = { s with pwr := { s.pwr with groupExit := m } } := by
  induction l generalizing s with
  | nil => exact ⟨s.pwr.groupExit, rfl⟩
  | cons x l ih =>
    obtain ⟨m, h⟩ := hf x s
    obtain ⟨m', h'⟩ := ih (f x s)
    exact ⟨m', by rw [List.foldl_cons, h', h]⟩
theorem groupExit_self (s : State) (g : Nat) : sget (fun _ => false) (beginGroupExit g s).pwr.groupExit g = true :=
  sget_sset_self (d := fun _ => false) (m := s.pwr.groupExit) g true
theorem groupExit_ne (s : State) {g k : Nat} (h : k ≠ g) :
    sget (fun _ => false) (beginGroupExit g s).pwr.groupExit k = sget (fun _ => false) s.pwr.groupExit k :=
  sget_sset_ne (d := fun _ => false) (m := s.pwr.groupExit) g k true h
theorem exits_fold (l : List Nat) (s : State) (g : Nat) (h : g ∈ l ∨ sget (fun _ => false) s.pwr.groupExit g = true) (h2 : group s g = .g2) :
    sget (fun _ => false) (l.foldl (fun t g => if group t g == .g2 then beginGroupExit g t else t) s).pwr.groupExit g = true := by
  induction l generalizing s with
  | nil => simpa using h
  | cons x l ih =>
    rw [List.foldl_cons]
    by_cases e : g = x
    · subst e
      rw [if_pos (by simp [h2])]
      exact ih _ (.inr (groupExit_self ..)) h2
    · split
      · refine ih _ ?_ h2
        rcases h with h | h
        · simp [e] at h; exact .inl h
        · exact .inr ((groupExit_ne _ e).trans h)
      · refine ih _ ?_ h2
        rcases h with h | h
        · simp [e] at h; exact .inl h
        · exact .inr h
theorem drains_empty (l : List Nat) (s : State) (h : ∀ q, (ring s q).queued = []) :
    l.foldl (fun t q => drainReplies q (ring t q).queued.length t) s = s := by
  induction l with
  | nil => rfl
  | cons x l ih => rw [List.foldl_cons, h x]; exact ih
theorem dropTraces_d3 (s : State) : (dropTraces s).host.d3hot = s.host.d3hot := by
  unfold dropTraces
  generalize List.range 96 = l
  induction l generalizing s with
  | nil => rfl
  | cons x l ih =>
    rw [List.foldl_cons, ih]
    unfold dropTrace
    extract_lets n
    split
    · rfl
    · rw [(bump_countsOnly ..).host]
/-- What the entry of G3, G4 or G5 leaves (R359). -/
theorem enterDeep_fields (p : PowerState) (s : State) : (enterDeep p s).pwr.state = p ∧ (enterDeep p s).dev = s.dev ∧ (enterDeep p s).pkg = s.pkg ∧
    (enterDeep p s).host.d3hot = s.host.d3hot := by
  have h1 := dropTraces_same s
  have h0 := dropTraces_d3 s
  unfold enterDeep
  generalize dropTraces s = w at *
  have h3 : (saveRegs p w).dev = w.dev ∧ (saveRegs p w).pkg = w.pkg ∧ (saveRegs p w).host = w.host := by unfold saveRegs; exact ⟨rfl, rfl, rfl⟩
  generalize saveRegs p w = w' at *
  have h4 : (dropCores w').dev = w'.dev ∧ (dropCores w').pkg = w'.pkg ∧ (dropCores w').host = w'.host := by unfold dropCores dropScratch; exact ⟨rfl, rfl, rfl⟩
  generalize dropCores w' = w'' at *
  have h2 := memOff_same p w''
  have h2' : (memOff p w'').host = w''.host := by
    unfold memOff
    split
    · obtain ⟨m, h⟩ := modAll_eq (fun C => { C with selfRefresh := true, scrubbing := false }) (List.range 16) (dropHold w'')
      rw [h]; unfold dropHold; rfl
    · rfl
  generalize memOff p w'' = v at *
  have h5 : (linksOff p v).dev = v.dev ∧ (linksOff p v).pkg = v.pkg ∧ (linksOff p v).host.d3hot = v.host.d3hot := by
    unfold linksOff; split <;> exact ⟨rfl, rfl, rfl⟩
  generalize linksOff p v = v' at *
  have h6 : (railsDown p v').dev = v'.dev ∧ (railsDown p v').pkg = v'.pkg ∧ (railsDown p v').host = v'.host := by
    unfold railsDown; split <;> exact ⟨rfl, rfl, rfl⟩
  generalize railsDown p v' = v'' at *
  refine ⟨rfl, ?_, ?_, ?_⟩
  · show v''.dev = s.dev; rw [h6.1, h5.1, h2.1, h4.1, h3.1, h1.1]
  · show v''.pkg = s.pkg; rw [h6.2.1, h5.2.1, h2.2, h4.2.1, h3.2.1, h1.2]
  · show v''.host.d3hot = s.host.d3hot; rw [h6.2.2, h5.2.2, h2', h4.2.2, h3.2.2, h0]
theorem InitOnly.same {s u : State} (h : InitOnly s u) : u.dev = s.dev ∧ u.pkg = s.pkg ∧ u.pwr = s.pwr := by
  unfold InitOnly at h; refine ⟨?_, ?_, ?_⟩ <;> rw [h]
theorem reloadPlanner_only (s : State) : MemOnly s (reloadPlanner s) := by
  unfold reloadPlanner
  extract_lets n
  exact .ite (.plannerCopied s) (.refl s)
/-- What the exit from G3, G4 or G5 leaves (R359, R366). -/
theorem exitDeep_fields (s : State) : (exitDeep s).pwr.state = .p0 ∧ (exitDeep s).pwr.exiting = false ∧ (exitDeep s).pwr.domains = true ∧
    (exitDeep s).dev = s.dev ∧ (exitDeep s).pkg = s.pkg := by
  have h0 : ∀ s, (backInP0 (restoreRegs s)).pwr.state = .p0 ∧ (backInP0 (restoreRegs s)).pwr.exiting = false ∧
    (backInP0 (restoreRegs s)).pwr.domains = true ∧ (backInP0 (restoreRegs s)).dev = s.dev ∧ (backInP0 (restoreRegs s)).pkg = s.pkg := fun s => by
    unfold backInP0 restoreRegs; exact ⟨rfl, rfl, rfl, rfl, rfl⟩
  have hi : ∀ v, InitOnly v (initHold v) := fun v =>
    InitOnly.trans (t := dropHold v) (by unfold dropHold; rfl) (.fold (fun u n => by exact rfl) _ _)
  have hm : ∀ v, InitOnly v (memOn v) := fun v => (hi v).trans (by
    obtain ⟨m, h⟩ := modAll_eq (fun C => { C with selfRefresh := false, trained := true, scrubbing := true }) (List.range 16) (initHold v)
    show InitOnly (initHold v) (List.foldl _ _ _)
    unfold InitOnly; rw [h])
  have hr : ∀ v, (railsUp v).pwr.state = v.pwr.state ∧ (railsUp v).pwr.exiting = v.pwr.exiting ∧ (railsUp v).pwr.domains = v.pwr.domains ∧
    (railsUp v).dev = v.dev ∧ (railsUp v).pkg = v.pkg := fun v => ⟨rfl, rfl, rfl, rfl, rfl⟩
  have hl : ∀ v, (linkTrained v).pwr = v.pwr ∧ (linkTrained v).dev = v.dev ∧ (linkTrained v).pkg = v.pkg := fun v => ⟨rfl, rfl, rfl⟩
  have ht : ∀ v, InitOnly v (trainPorts v) := fun v => .fold (fun u p => by exact .ite rfl rfl) _ _
  obtain ⟨a1, a2, a3, a4, a5⟩ := h0 s
  unfold exitDeep
  extract_lets t
  have e : MemOnly (backInP0 (restoreRegs s)) t := reloadPlanner_only _
  have b : t.pwr.state = .p0 ∧ t.pwr.exiting = false ∧ t.pwr.domains = true ∧ t.dev = s.dev ∧ t.pkg = s.pkg := by
    rw [e.rest]; exact ⟨a1, a2, a3, a4, a5⟩
  clear_value t
  obtain ⟨m1, m2, m3⟩ := (hm t).same
  obtain ⟨r1, r2, r3, r4, r5⟩ := hr (memOn t)
  obtain ⟨t1, t2, t3⟩ := (ht (railsUp (memOn t))).same
  obtain ⟨l1, l2, l3⟩ := hl (trainPorts (railsUp (memOn t)))
  split
  · exact ⟨by rw [l1, t3, r1, m3]; exact b.1, by rw [l1, t3, r2, m3]; exact b.2.1, by rw [l1, t3, r3, m3]; exact b.2.2.1,
      by rw [l2, t1, r4, m1]; exact b.2.2.2.1, by rw [l3, t2, r5, m2]; exact b.2.2.2.2⟩
  · split
    · exact ⟨by rw [r1, m3]; exact b.1, by rw [r2, m3]; exact b.2.1, by rw [r3, m3]; exact b.2.2.1,
        by rw [r4, m1]; exact b.2.2.2.1, by rw [r5, m2]; exact b.2.2.2.2⟩
    · exact b

theorem railTel_setRail_self (s : State) (r : Nat) (x : RailTel) : railTel (setRail r x s) r = x := sget_sset_self ..
theorem railTel_setRail_ne (s : State) {r k : Nat} (x : RailTel) (h : k ≠ r) : railTel (setRail r x s) k = railTel s k := sget_sset_ne _ _ _ h
theorem railAvs_counts {s t : State} (h : CountsOnly s t) (k : Nat) : railAvs t k = railAvs s k := by unfold railAvs; rw [h.parts.2.2.2.2.1]
theorem railTel_counts {s t : State} (h : CountsOnly s t) (k : Nat) : railTel t k = railTel s k := by unfold railTel; rw [h.parts.2.2.2.2.2.1]
theorem sensor_counts {s t : State} (h : CountsOnly s t) (k : Nat) : sensor t k = sensor s k := by unfold sensor; rw [h.parts.2.2.2.2.2.1]
theorem sensor_life (o w n : Nat) (s : State) (k : Nat) : sensor (lifeAdd o w n s) k = sensor s k := rfl
theorem sensor_lifeSecond (o w : Nat) (s : State) (k : Nat) : sensor (lifeSecond o w s) k = sensor s k := by
  unfold lifeSecond; extract_lets n; split
  · rfl
  · rw [sensor_life]; rfl
theorem sensor_fold {α : Type} (f : State → α → State) (hf : ∀ t x k, sensor (f t x) k = sensor t k) (l : List α) (s : State) (k : Nat) :
    sensor (l.foldl f s) k = sensor s k := by
  induction l generalizing s with
  | nil => rfl
  | cons x l ih => rw [List.foldl_cons, ih, hf]
theorem sensor_lifeTick (s : State) (k : Nat) : sensor (lifeTick s) k = sensor s k := by
  unfold lifeTick
  split
  · rfl
  · extract_lets m s1 s2 s3
    rw [sensor_lifeSecond, sensor_lifeSecond, show sensor s3 k = sensor s2 k from sensor_fold _ (fun _ _ _ => sensor_lifeSecond ..) _ _ _,
      show sensor s2 k = sensor s1 k from sensor_fold _ (fun _ _ _ => sensor_lifeSecond ..) _ _ _]
    exact sensor_lifeSecond ..
theorem sensor_updateBand (r : Nat) (s : State) (k : Nat) : sensor (updateBand r s) k = sensor s k := by
  unfold updateBand; extract_lets v; split <;> rfl
theorem sensor_updateThrottle (s : State) (k : Nat) : sensor (updateThrottle s) k = sensor s k := by
  unfold updateThrottle; extract_lets h; split
  · rfl
  · rw [sensor_counts (logEv_countsOnly ..)]; rfl
/-- What one sample does to the sensor sampled (R412). -/
theorem sampleOne_self (i : Nat) (r near : Int) (s : State) (h : (sensor s i).fail = false) :
    (sensor (sampleOne i r near s) i).valid = true ∧
    (-160 ≤ r → r ≤ 600 → (sensor s i).still + 1 < 10000 → (sensor (sampleOne i r near s) i).reading = r ∧ (sensor (sampleOne i r near s) i).fail = false) ∧
    (r < -160 ∨ 600 < r → (sensor (sampleOne i r near s) i).reading = 400 ∧ (sensor (sampleOne i r near s) i).fail = true) := by
  have k : ∃ still base, sensor (sampleOne i r near s) i = {
      reading := if (decide (r < -160) || decide (600 < r) || (decide (10000 ≤ still) && base)) then 400 else r,
      valid := true, fail := decide (r < -160) || decide (600 < r) || (decide (10000 ≤ still) && base), still := still, base := (sensor (sampleOne i r near s) i).base } ∧ still ≤ (sensor s i).still + 1 := by
    unfold sampleOne
    extract_lets x same still base stuck bad y _ t
    rw [show x.fail = false from h, if_neg (by decide)]
    refine ⟨still, decide (20 ≤ near - base) || decide (20 ≤ base - near), ?_, ?_⟩
    · have ht : sensor t i = y := sget_sset_self ..
      have hs : sensor (if bad = true then attn 6 (logEv 0x0A06 (b4 i) t) else t) i = y := by
        split
        · rw [sensor_counts (attn_countsOnly ..), sensor_counts (logEv_countsOnly ..), ht]
        · exact ht
      rw [hs]
    · show (if same = true then x.still + 1 else 0) ≤ x.still + 1
      split <;> omega
  obtain ⟨still, base, e, hs⟩ := k
  refine ⟨by rw [e], fun h1 h2 h3 => ?_, fun h1 => ?_⟩
  · have : (decide (r < -160) || decide (600 < r) || (decide (10000 ≤ still) && base)) = false := by
      simp; refine ⟨⟨by omega, by omega⟩, fun h => by omega⟩
    rw [e, this]; exact ⟨rfl, rfl⟩
  · have : (decide (r < -160) || decide (600 < r) || (decide (10000 ≤ still) && base)) = true := by
      rcases h1 with h | h <;> simp [h]
    rw [e, this]; exact ⟨rfl, rfl⟩
theorem sampleOne_ne (i : Nat) (r near : Int) (s : State) {k : Nat} (h : k ≠ i) : sensor (sampleOne i r near s) k = sensor s k := by
  unfold sampleOne
  extract_lets x same still base stuck bad y _ t
  have ht : sensor t k = sensor s k := sget_sset_ne _ _ _ h
  split
  · rfl
  · split
    · rw [sensor_counts (attn_countsOnly ..), sensor_counts (logEv_countsOnly ..), ht]
    · exact ht
theorem samples_fold (f g : Nat → Int) (l : List Nat) (hl : l.Nodup) (s : State) (i : Nat) (h : i ∈ l) :
    ∃ u, sensor u i = sensor s i ∧ sensor (l.foldl (fun t i => sampleOne i (f i) (g i) t) s) i = sensor (sampleOne i (f i) (g i) u) i := by
  have skip : ∀ (l : List Nat) (s : State), i ∉ l → sensor (l.foldl (fun t i => sampleOne i (f i) (g i) t) s) i = sensor s i := by
    intro l
    induction l with
    | nil => intros; rfl
    | cons x l ih =>
      intro s hn
      simp at hn
      rw [List.foldl_cons, ih _ hn.2, sampleOne_ne _ _ _ _ hn.1]
  induction l generalizing s with
  | nil => simp at h
  | cons x l ih =>
    rw [List.nodup_cons] at hl
    by_cases e : i = x
    · subst e
      exact ⟨s, rfl, by rw [List.foldl_cons, skip l _ hl.1]⟩
    · obtain ⟨u, h1, h2⟩ := ih hl.2 (sampleOne x (f x) (g x) s) (by simp [e] at h; exact h)
      exact ⟨u, h1.trans (sampleOne_ne _ _ _ _ e), by rw [List.foldl_cons, h2]⟩

end Sys2Proof.Machine
end

