-- ==== Sys2Proof/Laws/Manage.lean ====
section
/-! SUPPORT. What the log copy, the boot steps and the power pins change (R401, R408, R445). -/

namespace Sys2Proof.Machine

open Sys2Proof

theorem romSteps_eq (s : State) : ∃ b d m, romSteps s = { s with boot := b, dev := d, mgmt := m } := by
  unfold romSteps
  extract_lets i
  split
  · exact ⟨_, _, _, rfl⟩
  · split
    · exact ⟨_, _, _, rfl⟩
    · split
      · exact ⟨_, _, _, rfl⟩
      · exact ⟨_, s.dev, s.mgmt, rfl⟩
theorem romSteps_wait (s : State) (h3 : s.flash.valid = true)
    (h4 : s.flash.image.formOk = true) (h5 : keyOk s s.flash.image = true) (h6 : s.flash.image.ecdsaOk = true)
    (h7 : s.flash.image.lmsOk = true) (h9 : svnCount s ≤ s.flash.image.svn) : romSteps s = { s with boot := { s.boot with waiting := true } } := by
  unfold romSteps
  simp only [h3, h4, h5, h6, h7, Bool.not_true, Bool.or_false, Bool.false_eq_true, if_false]
  rw [if_neg (by omega)]
theorem copyLog_parts (s : State) : (copyLog s).flash.log = flashKeep (s.flash.log ++ waitingEntries s) ∧ (copyLog s).log = { s.log with waiting := 0 } ∧
    (copyLog s).mem = s.mem ∧ (copyLog s).res = s.res ∧ (copyLog s).pwr = s.pwr ∧ (copyLog s).fuses = s.fuses := by
  unfold copyLog
  generalize flashKeep _ = l
  exact ⟨rfl, rfl, rfl, rfl, rfl, rfl⟩
theorem lostEntry_parts (v : State) :
    (if 0 < v.log.dropped then logEnter 0x0A05 (b4 v.log.dropped) { v with log := { v.log with dropped := 0 } } else v).flash = v.flash ∧
    (v.log.dropped = 0 → (if 0 < v.log.dropped then logEnter 0x0A05 (b4 v.log.dropped) { v with log := { v.log with dropped := 0 } } else v).log = v.log) ∧
    (if 0 < v.log.dropped then logEnter 0x0A05 (b4 v.log.dropped) { v with log := { v.log with dropped := 0 } } else v).mem = v.mem ∧
    (if 0 < v.log.dropped then logEnter 0x0A05 (b4 v.log.dropped) { v with log := { v.log with dropped := 0 } } else v).res = v.res ∧
    (if 0 < v.log.dropped then logEnter 0x0A05 (b4 v.log.dropped) { v with log := { v.log with dropped := 0 } } else v).pwr = v.pwr ∧
    (if 0 < v.log.dropped then logEnter 0x0A05 (b4 v.log.dropped) { v with log := { v.log with dropped := 0 } } else v).fuses = v.fuses := by
  by_cases z : 0 < v.log.dropped
  · rw [if_pos z, logEnter_flash, logEnter_mem, logEnter_res, logEnter_pwr, logEnter_fuses]
    exact ⟨rfl, fun h => absurd h (Nat.pos_iff_ne_zero.mp z), rfl, rfl, rfl, rfl⟩
  · rw [if_neg z]
    exact ⟨rfl, fun _ => rfl, rfl, rfl, rfl, rfl⟩
theorem flushLog_eq (s : State) : flushLog s = if 0 < (copyLog s).log.dropped then
    logEnter 0x0A05 (b4 (copyLog s).log.dropped) { copyLog s with log := { (copyLog s).log with dropped := 0 } } else copyLog s := rfl
theorem flushLog_parts (s : State) : (flushLog s).flash.log = flashKeep (s.flash.log ++ waitingEntries s) ∧
    (s.log.dropped = 0 → (flushLog s).log = { s.log with waiting := 0 }) ∧
    (flushLog s).mem = s.mem ∧ (flushLog s).res = s.res ∧ (flushLog s).pwr = s.pwr ∧ (flushLog s).fuses = s.fuses := by
  obtain ⟨a, b, c, d, e, f⟩ := copyLog_parts s
  obtain ⟨a', b', c', d', e', f'⟩ := lostEntry_parts (copyLog s)
  rw [← flushLog_eq] at a' b' c' d' e' f'
  exact ⟨by rw [a', a], fun h => (b' (by rw [b]; exact h)).trans b, c'.trans c, d'.trans d, e'.trans e, f'.trans f⟩
theorem flushed (s : State) (e : Nat × LogEntry) (he : e ∈ s.log.ring) (hn : s.log.next ≤ e.2.seq + s.log.waiting + s.log.dropped)
    (hlen : s.flash.log.length + s.log.ring.length ≤ 262144) : ∃ f ∈ (flushLog s).flash.log, f.seq = e.2.seq := by
  have hf := (flushLog_parts s).1
  have hl : (waitingEntries s).length ≤ s.log.ring.length := (List.length_filter_le _ _).trans (by simp)
  have h0 : (s.flash.log ++ waitingEntries s).length - 262144 = 0 := by rw [List.length_append]; omega
  rw [hf, flashKeep, h0, show ceilDiv 0 1024 * 1024 = 0 from rfl, List.drop_zero]
  by_cases k : (s.flash.log.any fun x => x.seq == e.2.seq) = true
  · rw [List.any_eq_true] at k
    obtain ⟨f, h1, h2⟩ := k
    exact ⟨f, List.mem_append_left _ h1, by simpa using h2⟩
  · refine ⟨e.2, List.mem_append_right _ ?_, rfl⟩
    unfold waitingEntries
    rw [List.mem_filter]
    refine ⟨List.mem_map.mpr ⟨e, he, rfl⟩, ?_⟩
    simp only [Bool.not_eq_true] at k
    rw [k]; simp [hn]
theorem flushLog_mem (s : State) (x : Nat) (h : ¬ logRing x) : memByte (flushLog s) x = memByte s x := by
  have := (flushLog_parts s).2.2
  exact memByte_log x (by rw [this.1]) (by rw [this.2.1]) (by rw [this.2.2.1]) h
theorem dropTraces_rest (s : State) : (dropTraces s).fuses = s.fuses ∧ (dropTraces s).flash = s.flash ∧ (dropTraces s).mgmt = s.mgmt := by
  unfold dropTraces
  generalize List.range 96 = l
  induction l generalizing s with
  | nil => exact ⟨rfl, rfl, rfl⟩
  | cons x l ih =>
    rw [List.foldl_cons]
    obtain ⟨a, b, c⟩ := ih (dropTrace x s)
    have h : (dropTrace x s).fuses = s.fuses ∧ (dropTrace x s).flash = s.flash ∧ (dropTrace x s).mgmt = s.mgmt := by
      unfold dropTrace
      extract_lets n
      split
      · exact ⟨rfl, rfl, rfl⟩
      · rw [(bump_countsOnly ..).rest]; exact ⟨rfl, rfl, rfl⟩
    exact ⟨a.trans h.1, b.trans h.2.1, c.trans h.2.2⟩
theorem pwrgoodFall_fields (v s : State) (hv : v = lifeWrite (flushLog s)) (h : s.pins.pwrgood = true) :
    ∃ u, pwrgoodFall s = u ∧ u.pins.pwrgood = false ∧ u.dev = .boot ∧ u.pwr.domains = false ∧ u.boot.memLost = true ∧
      u.host.linkUp = false ∧ u.run = {} ∧ u.plan = none ∧ u.fuses = v.fuses ∧ u.flash = v.flash ∧ u.mgmt = v.mgmt := by
  unfold pwrgoodFall
  rw [h, if_neg (by decide), ← hv]
  extract_lets a b
  have hb : b.fuses = v.fuses ∧ b.flash = v.flash ∧ b.mgmt = v.mgmt := by
    have c1 : ∀ w : State, (dropCores w).fuses = w.fuses ∧ (dropCores w).flash = w.flash ∧ (dropCores w).mgmt = w.mgmt := fun w => by
      unfold dropCores dropScratch; exact ⟨rfl, rfl, rfl⟩
    have c2 : ∀ w : State, (dropHold w).fuses = w.fuses ∧ (dropHold w).flash = w.flash ∧ (dropHold w).mgmt = w.mgmt := fun w => by
      unfold dropHold; exact ⟨rfl, rfl, rfl⟩
    obtain ⟨d1, d2, d3⟩ := dropTraces_rest v
    have e : b = dropHold (dropCores (dropTraces v)) := rfl
    rw [e]
    generalize dropTraces v = w at *
    exact ⟨((c2 _).1.trans (c1 w).1).trans d1, ((c2 _).2.1.trans (c1 w).2.1).trans d2, ((c2 _).2.2.trans (c1 w).2.2).trans d3⟩
  clear_value b
  exact ⟨_, rfl, rfl, rfl, rfl, rfl, rfl, rfl, rfl, hb.1, hb.2.1, hb.2.2⟩
theorem storeBytes_trace (a : Nat) (l : List Byte) (p : Bool) (s : State) : (storeBytes a l p s).trace = s.trace := by
  unfold storeBytes
  rw [(countRange_counts ..).rest]
  show (deliver a l p s).trace = s.trace
  unfold deliver
  split
  · rfl
  · extract_lets t
    have h : t.trace = s.trace := by show (memStore a l s).trace = _; rw [(MemOnly.memStore a l s).rest]
    split
    · exact h
    · exact h
theorem traceWaitDone_none {s : State} (h : s.trace.waiting = none) : traceWaitDone s = s := by unfold traceWaitDone; rw [h]

end Sys2Proof.Machine
end

