-- ==== Sys2Proof/Tests/Slice0.lean ====
section
/-! SUPPORT. Tests of the model: for every statement of the certificates that has hypotheses, states and operands that
meet them (`wit_<statement>` and `wit_<statement>_<clause>`); the manual's own examples (`test_…`); one ill-formed
command for each check of `Instr.wf` (`test_wf_…`). -/

open Sys2Proof hiding core
open Sys2Proof.Machine
namespace Sys2Proof.Machine.Tests

set_option Elab.async false

/-- Core 0 with one running thread 0 at PC 0, whose word `w` stands at scratch 0. -/
def at0 (w : InstrWord) (T : Thread := {}) : State :=
  memWrite (scratchAddr 0 0) (leBytes 16 w.toNat)
    { State.reset with cores := [(0, { threads := [(0, { T with state := .running })] })] }

/-- `at0` with more of core 0's state. -/
def inCore (w : InstrWord) (f : CoreSt → CoreSt) : State := modCore 0 f (at0 w)

/-- Thread 0 of core 0 runs a custom program with scratch 0x400 to 0x800 and counters 8 to 15. -/
def custom (w : InstrWord) : State :=
  { at0 w with regs := [(thrReg 0 0 0, 8), (thrReg 0 0 8, 0x400), (thrReg 0 0 0xC, 0x800), (thrReg 0 0 0x10, 0x0F08)] }

theorem wit_ScalarInstructions_alu : Ready (at0 0x60C41000017#128) 0 0 0x60C41000017#128 ∧ Codes 0x60C41000017#128 7 1 [(24, 19)] ∧ cFunc 0x60C41000017#128 ≤ 12 := ⟨⟨rfl, rfl⟩, ⟨rfl, rfl, rfl, rfl⟩, by decide⟩

theorem wit_ScalarInstructions_alui : Ready (at0 0xFFFFFFFF000000005F000027#128) 0 0 0xFFFFFFFF000000005F000027#128 ∧ Codes 0xFFFFFFFF000000005F000027#128 7 2 [(24, 10), (39, 4), (64, 32)] ∧ cFunc 0xFFFFFFFF000000005F000027#128 ≤ 12 := ⟨⟨rfl, rfl⟩, ⟨rfl, rfl, rfl, rfl⟩, by decide⟩

theorem wit_ScalarInstructions_adda : Ready (at0 0xFFFFFFFF000000002F000067#128) 0 0 0xFFFFFFFF000000002F000067#128 ∧ Codes 0xFFFFFFFF000000002F000067#128 7 6 [(24, 4), (29, 4), (64, 32)] := ⟨⟨rfl, rfl⟩, ⟨rfl, rfl, rfl, rfl⟩⟩

theorem wit_ControlFlow_nop : Ready (at0 0x7#128) 0 0 0x7#128 ∧ Codes 0x7#128 7 0 [] := ⟨⟨rfl, rfl⟩, ⟨rfl, rfl, rfl, rfl⟩⟩

theorem wit_ControlFlow_br : Ready (at0 0xFFFF0000280820000037#128) 0 0 0xFFFF0000280820000037#128 ∧ Codes 0xFFFF0000280820000037#128 7 3 [(29, 10), (43, 4), (64, 32)] ∧ cCond 0xFFFF0000280820000037#128 ≤ 5 := ⟨⟨rfl, rfl⟩, ⟨rfl, rfl, rfl, rfl⟩, by decide⟩

theorem wit_ControlFlow_jmp : Ready (at0 0xFFFFFFFF0000000000000047#128) 0 0 0xFFFFFFFF0000000000000047#128 ∧ Codes 0xFFFFFFFF0000000000000047#128 7 4 [(64, 32)] := ⟨⟨rfl, rfl⟩, ⟨rfl, rfl, rfl, rfl⟩⟩

theorem wit_ControlFlow_halt : Ready (at0 0x57#128) 0 0 0x57#128 ∧ Codes 0x57#128 7 5 [] ∧ (thread (at0 0x57#128) 0 0).prog = none := ⟨⟨rfl, rfl⟩, ⟨rfl, rfl, rfl, rfl⟩, rfl⟩

theorem wit_RegisterMoves_ldi : Ready (at0 0xFFFFFFFFFFFFFFFF0000000000000024#128) 0 0 0xFFFFFFFFFFFFFFFF0000000000000024#128 ∧ Codes 0xFFFFFFFFFFFFFFFF0000000000000024#128 4 2 [(24, 5), (64, 64)] := ⟨⟨rfl, rfl⟩, ⟨rfl, rfl, rfl, rfl⟩⟩

theorem wit_RegisterMoves_mvas : Ready (at0 0x1FF000034#128) 0 0 0x1FF000034#128 ∧ Codes 0x1FF000034#128 4 3 [(24, 9)] := ⟨⟨rfl, rfl⟩, ⟨rfl, rfl, rfl, rfl⟩⟩

theorem wit_RegisterMoves_mvsa : Ready (at0 0x1FF000044#128) 0 0 0x1FF000044#128 ∧ Codes 0x1FF000044#128 4 4 [(24, 9)] := ⟨⟨rfl, rfl⟩, ⟨rfl, rfl, rfl, rfl⟩⟩

theorem wit_RegisterMoves_rdcsr : Ready (at0 0x1FFFC001000054#128) 0 0 0x1FFFC001000054#128 ∧ Codes 0x1FFFC001000054#128 4 5 [(24, 5), (36, 20)] ∧ csrOk (at0 0x1FFFC001000054#128) 0 0 0x1FFFC001000054#128 := ⟨⟨rfl, rfl⟩, ⟨rfl, rfl, rfl, rfl⟩, by decide, rfl, fun h => nomatch h⟩

theorem wit_RegisterMoves_wrcsr : Ready (at0 0x1018001000064#128) 0 0 0x1018001000064#128 ∧ Codes 0x1018001000064#128 4 6 [(24, 5), (36, 20)] ∧ csrOk (at0 0x1018001000064#128) 0 0 0x1018001000064#128 ∧
    regInfo (coreWindow 0 + mOff 0x1018001000064#128) = some { rw := 0xFFFFFFFF, reset := 0, cmd := 0 } ∧
    regOk (coreWindow 0 + mOff 0x1018001000064#128) (sReg (at0 0x1018001000064#128) 0 0 (mSreg 0x1018001000064#128) % 2 ^ 32 &&& 0xFFFFFFFF) = true := ⟨⟨rfl, rfl⟩, ⟨rfl, rfl, rfl, rfl⟩, ⟨by decide, rfl, fun h => nomatch h⟩, by decide +kernel, by decide +kernel⟩

theorem wit_RegisterMoves_custom : Ready (custom 0x102C001000054#128) 0 0 0x102C001000054#128 ∧ isCustom (custom 0x102C001000054#128) 0 0 = true ∧ csrOk (custom 0x102C001000054#128) 0 0 0x102C001000054#128 := ⟨⟨rfl, rfl⟩, rfl, by decide, rfl, fun _ => ⟨by decide, by decide⟩⟩

theorem wit_ScratchAccess_ld : Ready (at0 0xFFFF8E01000004#128) 0 0 0xFFFF8E01000004#128 ∧ Codes 0xFFFF8E01000004#128 4 0 [(24, 32)] ∧ InScratch (at0 0xFFFF8E01000004#128) 0 0 (mAddr (at0 0xFFFF8E01000004#128) 0 0 0xFFFF8E01000004#128) (mSize 0xFFFF8E01000004#128) (mSize 0xFFFF8E01000004#128) ∧
    anyPoison (at0 0xFFFF8E01000004#128) (scratchAddr 0 (mAddr (at0 0xFFFF8E01000004#128) 0 0 0xFFFF8E01000004#128)) (mSize 0xFFFF8E01000004#128) = false := ⟨⟨rfl, rfl⟩, ⟨rfl, rfl, rfl, rfl⟩, ⟨rfl, by decide, fun h => nomatch h⟩, rfl⟩

/-- A running core whose last scratch word is stored as poison. -/
def poisonedCore : State := { at0 0xFFFF8E01000004#128 with dev := .running, mem := { (at0 0xFFFF8E01000004#128).mem with poison := [(codeWord (at0 0xFFFF8E01000004#128) (scratchAddr 0 0xFFFF8), true)] } }

theorem wit_ScratchAccess_poison : Ready poisonedCore 0 0 0xFFFF8E01000004#128 ∧ InScratch poisonedCore 0 0 (mAddr poisonedCore 0 0 0xFFFF8E01000004#128) (mSize 0xFFFF8E01000004#128) (mSize 0xFFFF8E01000004#128) ∧
    anyPoison poisonedCore (scratchAddr 0 (mAddr poisonedCore 0 0 0xFFFF8E01000004#128)) (mSize 0xFFFF8E01000004#128) = true ∧ inRun poisonedCore = true := ⟨⟨rfl, rfl⟩, ⟨rfl, by decide, fun h => nomatch h⟩, rfl, rfl⟩

theorem wit_ScratchAccess_st : Ready (at0 0xFFFF8601000014#128) 0 0 0xFFFF8601000014#128 ∧ Codes 0xFFFF8601000014#128 4 1 [(24, 11), (36, 20)] ∧ InScratch (at0 0xFFFF8601000014#128) 0 0 (mAddr (at0 0xFFFF8601000014#128) 0 0 0xFFFF8601000014#128) (mSize 0xFFFF8601000014#128) (mSize 0xFFFF8601000014#128) := ⟨⟨rfl, rfl⟩, ⟨rfl, rfl, rfl, rfl⟩, ⟨rfl, by decide, fun h => nomatch h⟩⟩

theorem wit_ScratchAccess_custom : Ready (custom 0x7F8601000014#128) 0 0 0x7F8601000014#128 ∧ isCustom (custom 0x7F8601000014#128) 0 0 = true ∧ InScratch (custom 0x7F8601000014#128) 0 0 (mAddr (custom 0x7F8601000014#128) 0 0 0x7F8601000014#128) (mSize 0x7F8601000014#128) (mSize 0x7F8601000014#128) := ⟨⟨rfl, rfl⟩, rfl, ⟨rfl, by decide, fun _ => ⟨by decide, by decide⟩⟩⟩

theorem wit_Copies_short : Ready (at0 0x60002000001000000000074#128) 0 0 0x60002000001000000000074#128 ∧ Codes 0x60002000001000000000074#128 4 7 [(29, 4), (36, 56)] ∧ 1 ≤ mLen 0x60002000001000000000074#128 ∧ mLen 0x60002000001000000000074#128 = 1536 ∧
    InScratch (at0 0x60002000001000000000074#128) 0 0 (mAddr (at0 0x60002000001000000000074#128) 0 0 0x60002000001000000000074#128) (mLen 0x60002000001000000000074#128) 1 ∧ InScratch (at0 0x60002000001000000000074#128) 0 0 (mAddr2 (at0 0x60002000001000000000074#128) 0 0 0x60002000001000000000074#128) (mLen 0x60002000001000000000074#128) 1 ∧
    anyPoison (at0 0x60002000001000000000074#128) (scratchAddr 0 (mAddr (at0 0x60002000001000000000074#128) 0 0 0x60002000001000000000074#128)) (mLen 0x60002000001000000000074#128) = false := ⟨⟨rfl, rfl⟩, ⟨rfl, rfl, rfl, rfl⟩, by decide, rfl, ⟨rfl, by decide, fun h => nomatch h⟩, ⟨rfl, by decide, fun h => nomatch h⟩, by decide +kernel⟩

theorem wit_Copies_long : Ready (at0 0x60102000001000000000074#128) 0 0 0x60102000001000000000074#128 ∧ Codes 0x60102000001000000000074#128 4 7 [(29, 4), (36, 56)] ∧ 1 ≤ mLen 0x60102000001000000000074#128 ∧ mLen 0x60102000001000000000074#128 = 1537 ∧
    InScratch (at0 0x60102000001000000000074#128) 0 0 (mAddr (at0 0x60102000001000000000074#128) 0 0 0x60102000001000000000074#128) (mLen 0x60102000001000000000074#128) 1 ∧ InScratch (at0 0x60102000001000000000074#128) 0 0 (mAddr2 (at0 0x60102000001000000000074#128) 0 0 0x60102000001000000000074#128) (mLen 0x60102000001000000000074#128) 1 ∧
    anyPoison (at0 0x60102000001000000000074#128) (scratchAddr 0 (mAddr (at0 0x60102000001000000000074#128) 0 0 0x60102000001000000000074#128)) (mLen 0x60102000001000000000074#128) = false := ⟨⟨rfl, rfl⟩, ⟨rfl, rfl, rfl, rfl⟩, by decide, rfl, ⟨rfl, by decide, fun h => nomatch h⟩, ⟨rfl, by decide, fun h => nomatch h⟩, by decide +kernel⟩

theorem wit_Copies_complete : (thread (at0 0x7#128 { wait := .mov }) 0 0).wait = .mov := rfl

theorem wit_SyncInstructions_waitc : Ready (at0 0x100000000FF000006#128) 0 0 0x100000000FF000006#128 ∧ Codes 0x100000000FF000006#128 6 0 [(24, 14), (64, 32)] ∧ isCustom (at0 0x100000000FF000006#128) 0 0 = false := ⟨⟨rfl, rfl⟩, ⟨rfl, rfl, rfl, rfl⟩, rfl⟩

theorem wit_SyncInstructions_waitc_custom : Ready (custom 0x1000000000F000006#128) 0 0 0x1000000000F000006#128 ∧ isCustom (custom 0x1000000000F000006#128) 0 0 = true ∧ inKRange (custom 0x1000000000F000006#128) 0 0 (yKidx 0x1000000000F000006#128) = true := ⟨⟨rfl, rfl⟩, rfl, rfl⟩

theorem wit_SyncInstructions_bar_alone : Ready (at0 0x1000000000000000000000026#128) 0 0 0x1000000000000000000000026#128 ∧ Codes 0x1000000000000000000000026#128 6 2 [(96, 32)] ∧ bitN (yMask 0x1000000000000000000000026#128) 0 = true ∧
    ∀ i, i < 32 → bitN (yMask 0x1000000000000000000000026#128) i = true → i ≠ 0 → (thread (at0 0x1000000000000000000000026#128) 0 i).wait = .barrier (yMask 0x1000000000000000000000026#128) := ⟨⟨rfl, rfl⟩, ⟨rfl, rfl, rfl, rfl⟩, rfl, by decide⟩

theorem wit_SyncInstructions_bar_waits : Ready (at0 0xFFFFFFFF000000000000000000000026#128) 0 0 0xFFFFFFFF000000000000000000000026#128 ∧ Codes 0xFFFFFFFF000000000000000000000026#128 6 2 [(96, 32)] ∧ bitN (yMask 0xFFFFFFFF000000000000000000000026#128) 0 = true ∧ (thread (at0 0xFFFFFFFF000000000000000000000026#128) 0 31).wait ≠ .barrier (yMask 0xFFFFFFFF000000000000000000000026#128) := ⟨⟨rfl, rfl⟩, ⟨rfl, rfl, rfl, rfl⟩, rfl, by decide⟩

theorem wit_SyncInstructions_wstroke : Ready (at0 0x36#128) 0 0 0x36#128 ∧ Codes 0x36#128 6 3 [(32, 6), (64, 32)] ∧ yV (at0 0x36#128) 0 0 0x36#128 ≤ (at0 0x36#128).stroke.slot := ⟨⟨rfl, rfl⟩, ⟨rfl, rfl, rfl, rfl⟩, by decide⟩

theorem wit_SyncInstructions_drain : Ready (at0 0x56#128) 0 0 0x56#128 ∧ Codes 0x56#128 6 5 [] ∧ (thread (at0 0x56#128) 0 0).outstanding = 0 := ⟨⟨rfl, rfl⟩, ⟨rfl, rfl, rfl, rfl⟩, rfl⟩

/-- Thread 0 sets counter 255, on which thread 31 waits. -/
def oneWaits : State := modThread 0 31 (fun T => { T with state := .waiting, wait := .counter 255 7 }) (at0 0x700000000FF000016#128)

theorem wit_SyncInstructions_setc : Ready oneWaits 0 0 0x700000000FF000016#128 ∧ Codes 0x700000000FF000016#128 6 1 [(24, 14), (64, 32)] ∧ isCustom oneWaits 0 0 = false ∧ (thread oneWaits 0 31).wait = .counter (yKidx 0x700000000FF000016#128) 7 ∧
    0 ≤ (BitVec.ofNat 32 (yV oneWaits 0 0 0x700000000FF000016#128) - BitVec.ofNat 32 7).toInt := ⟨⟨rfl, rfl⟩, ⟨rfl, rfl, rfl, rfl⟩, rfl, rfl, by decide⟩

theorem wit_UnitIssue_vec : Ready (at0 0x30300001020000000000010000000122#128) 0 0 0x30300001020000000000010000000122#128 ∧ iClass 0x30300001020000000000010000000122#128 = 2 ∧ iOp 0x30300001020000000000010000000122#128 = 0x12 ∧ vecCause (vecShape 0x12 (vCount 0x30300001020000000000010000000122#128) (sReg (at0 0x30300001020000000000010000000122#128) 0 0 28)) [] 0 0 0x30300001020000000000010000000122#128 (at0 0x30300001020000000000010000000122#128) = 0 ∧
    (core (at0 0x30300001020000000000010000000122#128) 0).vec.length < 16 := ⟨⟨rfl, rfl⟩, rfl, rfl, by decide +kernel, by decide⟩

/-- A unit operation of word `w` from 0x1000 and 0x1100 to 0x2000. -/
def opAt (w : InstrWord) : UnitOp := { thread := 0, w := w.toNat, addrA := 0x1000, addrB := 0x1100, addrD := 0x2000, s28 := 0, s29 := 0, rngKey := [], rngCtr := 0, texpA := 0, texpB := 0, agree := none, loss := (0, 0) }

/-- Sixteen operations of a unit. -/
def sixteen : List UnitOp := List.replicate 16 (opAt 0)

/-- Core 0 about to issue `w` with a full VEC queue. -/
def vecFull (w : InstrWord) : State := inCore w fun C => { C with vec := sixteen }

/-- Core 0 about to issue `w` with a full XU queue. -/
def xuFull (w : InstrWord) : State := inCore w fun C => { C with xu := sixteen }

theorem wit_UnitIssue_vec_full : Ready (vecFull 0x30300001020000000000010000000122#128) 0 0 0x30300001020000000000010000000122#128 ∧ vecCause (vecShape 0x12 (vCount 0x30300001020000000000010000000122#128) (sReg (vecFull 0x30300001020000000000010000000122#128) 0 0 28)) [] 0 0 0x30300001020000000000010000000122#128 (vecFull 0x30300001020000000000010000000122#128) = 0 ∧ 16 ≤ (core (vecFull 0x30300001020000000000010000000122#128) 0).vec.length := ⟨⟨rfl, rfl⟩, by decide +kernel, by decide⟩

/-- The cause of the XU word `w` in state `s`. -/
def xuCauseOf (op : Nat) (w : InstrWord) (s : State) : Nat :=
  vecCause (xuShape op (vCount w) (sReg s 0 0 28) (sReg s 0 0 29)) (indexPlaces s 0 op (unitOp s 0 0 w)) 0 0 w s

theorem wit_UnitIssue_xu : Ready (at0 0x33300001020000011000010000000003#128) 0 0 0x33300001020000011000010000000003#128 ∧ iClass 0x33300001020000011000010000000003#128 = 3 ∧ iOp 0x33300001020000011000010000000003#128 = 0 ∧ xuCauseOf 0 0x33300001020000011000010000000003#128 (at0 0x33300001020000011000010000000003#128) = 0 ∧
    (core (at0 0x33300001020000011000010000000003#128) 0).xu.length < 16 := ⟨⟨rfl, rfl⟩, rfl, rfl, by decide +kernel, by decide⟩

theorem wit_UnitIssue_xent : Ready (at0 0x30300001020000011000010000000083#128 { s := [(28, 4)] }) 0 0 0x30300001020000011000010000000083#128 ∧ iClass 0x30300001020000011000010000000083#128 = 3 ∧ iOp 0x30300001020000011000010000000083#128 = 8 ∧ xuCauseOf 8 0x30300001020000011000010000000083#128 (at0 0x30300001020000011000010000000083#128 { s := [(28, 4)] }) = 0 ∧
    (core (at0 0x30300001020000011000010000000083#128 { s := [(28, 4)] }) 0).xu.length < 16 := ⟨⟨rfl, rfl⟩, rfl, rfl, by decide +kernel, by decide⟩

theorem wit_UnitIssue_xu_full : Ready (xuFull 0x33300001020000011000010000000003#128) 0 0 0x33300001020000011000010000000003#128 ∧ xuCauseOf 0 0x33300001020000011000010000000003#128 (xuFull 0x33300001020000011000010000000003#128) = 0 ∧ 16 ≤ (core (xuFull 0x33300001020000011000010000000003#128) 0).xu.length := ⟨⟨rfl, rfl⟩, by decide +kernel, by decide⟩

theorem wit_ArrayIssue_tbl : Ready (at0 0x1000001803000011#128) 0 0 0x1000001803000011#128 ∧ iClass 0x1000001803000011#128 = 1 ∧ iOp 0x1000001803000011#128 = 1 ∧ tblCause 0 0 0x1000001803000011#128 (at0 0x1000001803000011#128) = 0 ∧ (arr (at0 0x1000001803000011#128) 0 (tArray 0x1000001803000011#128)).queue.length < 16 := ⟨⟨rfl, rfl⟩, rfl, rfl, rfl, by decide⟩

def sixteenTbl : List ArrOp := List.replicate 16 (.tbl 0 0)

theorem wit_ArrayIssue_tbl_full : Ready (modArr 0 3 (fun A => { A with queue := sixteenTbl }) (at0 0x1000001803000011#128)) 0 0 0x1000001803000011#128 ∧ tblCause 0 0 0x1000001803000011#128 (modArr 0 3 (fun A => { A with queue := sixteenTbl }) (at0 0x1000001803000011#128)) = 0 ∧ 16 ≤ (arr (modArr 0 3 (fun A => { A with queue := sixteenTbl }) (at0 0x1000001803000011#128)) 0 (tArray 0x1000001803000011#128)).queue.length := ⟨⟨rfl, rfl⟩, rfl, by decide⟩

theorem wit_ArrayIssue_idle : Ready (at0 0x7FFFFFFFC000021#128) 0 0 0x7FFFFFFFC000021#128 ∧ iClass 0x7FFFFFFFC000021#128 = 1 ∧ iOp 0x7FFFFFFFC000021#128 = 2 ∧ idleCause 0 0 0x7FFFFFFFC000021#128 (at0 0x7FFFFFFFC000021#128) = 0 ∧ (∀ a ∈ idleArrays 0x7FFFFFFFC000021#128, (arr (at0 0x7FFFFFFFC000021#128) 0 a).queue.length < 16) ∧ underSchedule (at0 0x7FFFFFFFC000021#128) = false := ⟨⟨rfl, rfl⟩, rfl, rfl, rfl, by decide, rfl⟩

theorem wit_ArrayIssue_idle_full : Ready (modArr 0 3 (fun A => { A with queue := sixteenTbl }) (at0 0x7FFFFFFFC000021#128)) 0 0 0x7FFFFFFFC000021#128 ∧ idleCause 0 0 0x7FFFFFFFC000021#128 (modArr 0 3 (fun A => { A with queue := sixteenTbl }) (at0 0x7FFFFFFFC000021#128)) = 0 ∧ ∃ a ∈ idleArrays 0x7FFFFFFFC000021#128, 16 ≤ (arr (modArr 0 3 (fun A => { A with queue := sixteenTbl }) (at0 0x7FFFFFFFC000021#128)) 0 a).queue.length := ⟨⟨rfl, rfl⟩, rfl, 3, by decide, by decide⟩

-- TILE 0x100000000004000044C00FC7000001#128

/-- A ready TILE whose feed descriptor stands at 0x100: one word of the ring at 0x200. -/
def tileReady : State :=
  scrWrite 0 0x100 (leBytes 4 0x200 ++ leBytes 4 1 ++ leBytes 4 0 ++ leBytes 4 1) (at0 0x100000000004000148800FF5000001#128 { a := [(1, 0x100)] })

theorem wit_ArrayIssue_tile :
    Ready tileReady 0 0 0x100000000004000148800FF5000001#128 ∧ iClass 0x100000000004000148800FF5000001#128 = 1 ∧ iOp 0x100000000004000148800FF5000001#128 = 0 ∧ tileCause 0 0 0x100000000004000148800FF5000001#128 tileReady = 0 ∧
    (arr tileReady 0 (tArray 0x100000000004000148800FF5000001#128)).queue.length < 16 := ⟨⟨by decide +kernel, by decide +kernel⟩, rfl, rfl, by decide +kernel, by decide +kernel⟩

theorem wit_ArrayIssue_tile_run : Ready { tileReady with dev := .running } 0 0 0x100000000004000148800FF5000001#128 ∧
    tileCause 0 0 0x100000000004000148800FF5000001#128 { tileReady with dev := .running } = 0 ∧ underSchedule { tileReady with dev := .running } = true ∧
    (arr { tileReady with dev := .running } 0 (tArray 0x100000000004000148800FF5000001#128)).queue = [] ∧ (core { tileReady with dev := .running } 0).fence = false ∧
    (arr { tileReady with dev := .running } 0 (tArray 0x100000000004000148800FF5000001#128)).gap = .none := by
  refine ⟨⟨?_, ?_⟩, ?_, rfl, ?_, ?_, ?_⟩ <;> decide +kernel

/-- A full queue in front of a TILE. -/
def tileFull : State := modArr 0 1 (fun A => { A with queue := sixteenTbl }) tileReady

theorem wit_ArrayIssue_tile_full :
    Ready tileFull 0 0 0x100000000004000148800FF5000001#128 ∧ tileCause 0 0 0x100000000004000148800FF5000001#128 tileFull = 0 ∧ 16 ≤ (arr tileFull 0 (tArray 0x100000000004000148800FF5000001#128)).queue.length := by
  unfold Ready; and_intros <;> decide +kernel

/-- A descriptor image: raw linear bytes, one block list entry at `bl`, no marks, destination `dest`. -/
def image (bl dest post inc : Nat) : List Byte :=
  leBytes 8 bl ++ leBytes 4 1 ++ [0x10, 0] ++ leBytes 2 0 ++ leBytes 4 dest ++ leBytes 4 0xFFFFFFFF ++ leBytes 2 0xFFFF ++
    leBytes 2 post ++ leBytes 4 0 ++ leBytes 4 inc ++ leBytes 4 0 ++ leBytes 4 0 ++ leBytes 4 0 ++ [1] ++ List.replicate 15 0

/-- Descriptors 0 (source) and 5 (destination) move 64 bytes of hold from 0x6000 to 0x4000. -/
def twoDescs (s : State) : State :=
  memWrite (descTable s) (image 0x8000 5 7 2) (memWrite (descTable s + 320) (image 0x8010 0xFFFFFFFF 0xFFFF 0)
    (memWrite 0x8000 (leBytes 7 0x6000 ++ leBytes 3 64 ++ leBytes 4 0 ++ leBytes 2 1 ++
      leBytes 7 0x4000 ++ leBytes 3 64 ++ leBytes 4 0 ++ leBytes 2 1)
      { s with stm := { s.stm with desc := [(0, { cached := true, gen := 3 })] } }))

theorem wit_StreamInstructions_issue_run :
    Ready (at0 0x5#128) 0 0 0x5#128 ∧ iClass 0x5#128 = 5 ∧ iOp 0x5#128 = 0 ∧
    strCause [(24, 20)] (fun _ => 0) 0 0 0x5#128 (at0 0x5#128) = 0 ∧ (core (at0 0x5#128) 0).str.length < 32 ∧ strIdle (at0 0x5#128) := ⟨⟨rfl, rfl⟩, rfl, rfl, by decide +kernel, by decide, (by unfold strIdle; decide +kernel)⟩

/-- Thirty-two stream instructions. -/
def fullStr : List StrOp := List.replicate 32 { thread := 0, w := 0, addr := 0, pc := 0, missed := false }

theorem wit_StreamInstructions_full :
    Ready (inCore 0x5#128 fun C => { C with str := fullStr }) 0 0 0x5#128 ∧ strCause [(24, 20)] (fun _ => 0) 0 0 0x5#128 (inCore 0x5#128 fun C => { C with str := fullStr }) = 0 ∧ 32 ≤ (core (inCore 0x5#128 fun C => { C with str := fullStr }) 0).str.length := ⟨⟨rfl, rfl⟩, by decide +kernel, by decide⟩

/-- RUN of descriptor 0. -/
def runReady : State := twoDescs (at0 0x5#128)

theorem wit_StreamInstructions_run :
    Ready runReady 0 0 0x5#128 ∧ strIdle runReady ∧ strCause [(24, 20)] (fun _ => 0) 0 0 0x5#128 runReady = 0 ∧
    (desc runReady (strDesc 0x5#128)).cached = true ∧ ListsApart runReady (descOf runReady (strDesc 0x5#128)) ∧
    descPoison runReady (strDesc 0x5#128) = none ∧ markMet runReady (descImage runReady (strDesc 0x5#128)) = true ∧
    runCause runReady 0 0 (strDesc 0x5#128) = 0 ∧ (desc runReady (strDesc 0x5#128)).pass = none ∧
    (descOf runReady (descOf runReady (strDesc 0x5#128)).dest).mode = 0 := by
  refine ⟨⟨?_, ?_⟩, ?_, ?_, ?_, ?_, ?_, ?_, ?_, ?_, ?_⟩ <;> first | decide +kernel | (unfold strIdle; decide +kernel) | (unfold ListsApart logRing; decide +kernel)

theorem wit_StreamInstructions_issue_rearm :
    Ready (at0 0x400000000000015#128) 0 0 0x400000000000015#128 ∧ iClass 0x400000000000015#128 = 5 ∧ iOp 0x400000000000015#128 = 1 ∧
    strCause [(24, 44)] (fun v => rangeCause v 0 0 [(opAddr v 0 0 (iF 0x400000000000015#128 44 4) (iF 0x400000000000015#128 48 20), 64, 64)]) 0 0 0x400000000000015#128 (at0 0x400000000000015#128) = 0 ∧ (core (at0 0x400000000000015#128) 0).str.length < 32 ∧ strIdle (at0 0x400000000000015#128) := ⟨⟨rfl, rfl⟩, rfl, rfl, by decide +kernel, by decide, (by unfold strIdle; decide +kernel)⟩

/-- REARM of descriptor 0 with the image at scratch 0x400; nothing or a pass under way. -/
def rearmReady (p : Option PassSt) : State :=
  scrWrite 0 0x400 (image 0x8000 5 9 1) (modDesc 0 (fun D => { D with pass := p }) (twoDescs (at0 0x400000000000015#128)))

def somePass : PassSt := { issuer := none, gen := 3, done := 0, total := 64, poisoned := false, legs := [] }

/-- The image that the REARM of `rearmReady` reads. -/
def rearmBytes (p : Option PassSt) : List Byte :=
  scrBytes (rearmReady p) 0 (opAddr (rearmReady p) 0 0 (iF 0x400000000000015#128 44 4) (iF 0x400000000000015#128 48 20)) 64

theorem wit_StreamInstructions_rearm (p : Option PassSt) (h : p = none ∨ p = some somePass) :
    Ready (rearmReady p) 0 0 0x400000000000015#128 ∧ strIdle (rearmReady p) ∧ strCause [(24, 44)] (fun v => rangeCause v 0 0 [(opAddr v 0 0 (iF 0x400000000000015#128 44 4) (iF 0x400000000000015#128 48 20), 64, 64)]) 0 0 0x400000000000015#128 (rearmReady p) = 0 ∧
    (desc (rearmReady p) (strDesc 0x400000000000015#128)).cached = true ∧ ListsApart (rearmReady p) (parseDesc (rearmBytes p)) ∧
    rearmCause (rearmReady p) 0 0 (strDesc 0x400000000000015#128) (rearmBytes p) = 0 ∧ shadowsUsed (rearmReady p) < 4096 ∧
    (desc (rearmReady p) (strDesc 0x400000000000015#128)).pass = p := by
  rcases h with rfl | rfl <;> refine ⟨⟨?_, ?_⟩, ?_, ?_, ?_, ?_, ?_, ?_, ?_⟩ <;> first | decide +kernel | (unfold strIdle; decide +kernel) | (unfold ListsApart logRing; decide +kernel)

theorem wit_StreamInstructions_issue_mark :
    Ready (at0 0xFFFF000900000000000000025#128) 0 0 0xFFFF000900000000000000025#128 ∧ iClass 0xFFFF000900000000000000025#128 = 5 ∧ iOp 0xFFFF000900000000000000025#128 = 2 ∧
    strCause [(68, 32)] (fun _ => 0) 0 0 0xFFFF000900000000000000025#128 (at0 0xFFFF000900000000000000025#128) = 0 ∧ (core (at0 0xFFFF000900000000000000025#128) 0).str.length < 32 ∧ strIdle (at0 0xFFFF000900000000000000025#128) := ⟨⟨rfl, rfl⟩, rfl, rfl, by decide +kernel, by decide, (by unfold strIdle; decide +kernel)⟩

theorem wit_StreamInstructions_issue_trace :
    Ready (at0 0x8010000000000000000000000035#128) 0 0 0x8010000000000000000000000035#128 ∧ iClass 0x8010000000000000000000000035#128 = 5 ∧ iOp 0x8010000000000000000000000035#128 = 3 ∧
    strCause [(100, 13)] (fun _ => causeIf (decide (iF 0x8010000000000000000000000035#128 105 8 < 0x40)) 2) 0 0 0x8010000000000000000000000035#128 (at0 0x8010000000000000000000000035#128) = 0 ∧ (core (at0 0x8010000000000000000000000035#128) 0).str.length < 32 ∧ strIdle (at0 0x8010000000000000000000000035#128) := ⟨⟨rfl, rfl⟩, rfl, rfl, by decide +kernel, by decide, (by unfold strIdle; decide +kernel)⟩

theorem wit_ReservedInstructions_op :
    Instr.nop 0 0 0x77#128 ∈ coreRows 0 0 0x77#128 ∧ canIssue (at0 0x77#128) 0 0 0x77#128 = true ∧ iClass 0x77#128 = 7 ∧ 6 < iOp 0x77#128 := ⟨by simp [coreRows], rfl, rfl, by decide⟩

theorem wit_ReservedInstructions_class :
    Instr.tile 0 0 0xF#128 ∈ coreRows 0 0 0xF#128 ∧ canIssue (at0 0xF#128) 0 0 0xF#128 = true ∧ 8 ≤ iClass 0xF#128 := ⟨by simp [coreRows], rfl, by decide⟩

theorem wit_ReservedInstructions_beyond :
    0xFFFF0 < progAddr (modCore 0 (fun C => C) { at0 0 { pc := 0xFFFF } with regs := [(coreWindow 0 + 4, 0x100)] }) 0 0 ∧ canIssue (modCore 0 (fun C => C) { at0 0 { pc := 0xFFFF } with regs := [(coreWindow 0 + 4, 0x100)] }) 0 0 0#128 = true := by decide +kernel

theorem wit_InvalidInstructions_nop :
    Ready (at0 0x1000007#128) 0 0 0x1000007#128 ∧ iClass 0x1000007#128 = 7 ∧ iOp 0x1000007#128 = 0 ∧ onlyBits 0x1000007#128 [] = false := ⟨⟨rfl, rfl⟩, rfl, rfl, rfl⟩

theorem wit_InvalidInstructions_alu :
    Ready (at0 0x68000000017#128) 0 0 0x68000000017#128 ∧ Codes 0x68000000017#128 7 1 [(24, 19)] ∧ 12 < cFunc 0x68000000017#128 := ⟨⟨rfl, rfl⟩, ⟨rfl, rfl, rfl, rfl⟩, by decide⟩

theorem wit_InvalidInstructions_ld :
    Ready (at0 0x4600000004#128) 0 0 0x4600000004#128 ∧ Codes 0x4600000004#128 4 0 [(24, 32)] ∧ mAddr (at0 0x4600000004#128) 0 0 0x4600000004#128 % mSize 0x4600000004#128 ≠ 0 := ⟨⟨rfl, rfl⟩, ⟨rfl, rfl, rfl, rfl⟩, by decide⟩

theorem wit_InvalidInstructions_st :
    Ready (at0 0x20000014#128 { a := [(1, 0x100000)] }) 0 0 0x20000014#128 ∧ Codes 0x20000014#128 4 1 [(24, 11), (36, 20)] ∧ 0x100000 ≤ mAddr (at0 0x20000014#128 { a := [(1, 0x100000)] }) 0 0 0x20000014#128 := ⟨⟨rfl, rfl⟩, ⟨rfl, rfl, rfl, rfl⟩, by decide⟩

theorem wit_InvalidInstructions_st_custom :
    Ready (custom 0x800600000014#128) 0 0 0x800600000014#128 ∧ Codes 0x800600000014#128 4 1 [(24, 11), (36, 20)] ∧ mAddr (custom 0x800600000014#128) 0 0 0x800600000014#128 % mSize 0x800600000014#128 = 0 ∧ mAddr (custom 0x800600000014#128) 0 0 0x800600000014#128 + mSize 0x800600000014#128 ≤ 0x100000 ∧
    isCustom (custom 0x800600000014#128) 0 0 = true ∧ boundHi (custom 0x800600000014#128) 0 0 < mAddr (custom 0x800600000014#128) 0 0 0x800600000014#128 + mSize 0x800600000014#128 := ⟨⟨rfl, rfl⟩, ⟨rfl, rfl, rfl, rfl⟩, rfl, by decide, rfl, by decide⟩

theorem wit_InvalidInstructions_setc :
    Ready (custom 0x10000000010000016#128) 0 0 0x10000000010000016#128 ∧ Codes 0x10000000010000016#128 6 1 [(24, 14), (64, 32)] ∧ isCustom (custom 0x10000000010000016#128) 0 0 = true ∧ inKRange (custom 0x10000000010000016#128) 0 0 (yKidx 0x10000000010000016#128) = false := ⟨⟨rfl, rfl⟩, ⟨rfl, rfl, rfl, rfl⟩, rfl, rfl⟩

theorem wit_InvalidInstructions_idle_thread :
    Ready ({ at0 0xC000021#128 with regs := [(coreWindow 0, 5)] }) 0 0 0xC000021#128 ∧ iClass 0xC000021#128 = 1 ∧ iOp 0xC000021#128 = 2 ∧ onlyBits 0xC000021#128 [(24, 35)] = true ∧ idleCycles 0xC000021#128 ≠ 0 ∧ isCustom ({ at0 0xC000021#128 with regs := [(coreWindow 0, 5)] }) 0 0 = false ∧
    arrayThread ({ at0 0xC000021#128 with regs := [(coreWindow 0, 5)] }) 0 ≠ 0 := ⟨⟨rfl, rfl⟩, rfl, rfl, rfl, by decide, rfl, by decide⟩

/-- An IDLE in an open TILE group. -/
def openGroup : State := modArr 0 0 (fun A => { A with queue := [.tile { thread := 0, w := 0, feed := 0, out := 0, filled := false, started := false, grp := 0, bad := false, poison := false, texp := 0, real := 0, rows := [] }] }) (at0 0xC000021#128)

theorem wit_InvalidInstructions_idle_group :
    Ready (openGroup) 0 0 0xC000021#128 ∧ onlyBits 0xC000021#128 [(24, 35)] = true ∧ idleCycles 0xC000021#128 ≠ 0 ∧ isCustom (openGroup) 0 0 = false ∧
    arrayThread (openGroup) 0 = 0 ∧ groupOpen openGroup 0 = true := ⟨⟨rfl, rfl⟩, rfl, by decide, rfl, rfl, rfl⟩

theorem wit_InvalidInstructions_csr :
    Ready (custom 0x1030001000054#128) 0 0 0x1030001000054#128 ∧ Codes 0x1030001000054#128 4 5 [(24, 5), (36, 20)] ∧ mOff 0x1030001000054#128 < 0x20000 ∧ mOff 0x1030001000054#128 % 4 = 0 ∧ isCustom (custom 0x1030001000054#128) 0 0 = true ∧ 0x1030 ≤ mOff 0x1030001000054#128 := ⟨⟨rfl, rfl⟩, ⟨rfl, rfl, rfl, rfl⟩, by decide, rfl, rfl, by decide⟩

theorem wit_OverflowExchange_wait :
    Ready (at0 0x4D0000001F00000046#128) 0 0 0x4D0000001F00000046#128 ∧ Codes 0x4D0000001F00000046#128 6 4 [(32, 6), (64, 32)] := ⟨⟨rfl, rfl⟩, ⟨rfl, rfl, rfl, rfl⟩⟩

/-- A layer with a rung to climb to, whose instance waits in OVFX. -/
def ladder0 : Ladder := { rungs := [0x12, 0x13], floor := 1, start := 1, ceil := 2 }

def layer0 : LayerDesc := { op := 1, flags := 0, stat := 0, opt := 0, in0 := 0, in1 := 0, wgt := 0, out := 0, m1 := 0, m2 := 0, satTol := 0, dropP := 0, cbPeriod := 2, prog := 0, ladW := ladder0, ladA := ladder0, ladG := ladder0, hint := 0, params := [] }

def pkg0 : Pkg := { bytes := 0, digest := [], layers := [layer0], tensors := [], progs := [], hints := [], opts := [], initOff := 0, mbTokens := 128, mbPerStep := 1, seqPerStep := 4096, parTp := 1, parPp := 1, parDp := 1 }

def ovfxState : State := { at0 0 { wait := .ovfx 9 31, state := .waiting } with pkg := some pkg0 }

theorem wit_OverflowExchange_result :
    (thread ovfxState 0 0).wait = .ovfx 9 31 ∧ ovfxState.pkg.bind (fun p => p.layers[(instanceOf ovfxState 9).1]?) = some layer0 ∧
    mayRepeat ovfxState 0 layer0 = true ∧ ∀ x ∈ ovfxWaiters ovfxState 9, (ovfOf ovfxState x.1 9).again = false := ⟨rfl, rfl, by decide +kernel, by decide +kernel⟩

def ovfxOnce : State := { ovfxState with cox := { ovfxState.cox with repeated := [0] } }

theorem wit_OverflowExchange_no_repeat :
    (thread ovfxOnce 0 0).wait = .ovfx 9 31 ∧ ovfxOnce.pkg.bind (fun p => p.layers[(instanceOf ovfxOnce 9).1]?) = some layer0 ∧
    mayRepeat ovfxOnce 0 layer0 = false := ⟨rfl, rfl, by decide +kernel⟩

def vecDone : State := inCore 0 fun C => { C with vec := [opAt 0x11100002020000011000010000000002#128] }

theorem wit_UnitCompletion_vec :
    (core vecDone 0).vec = opAt 0x11100002020000011000010000000002#128 :: [] ∧ gated vecDone 0 5 = false ∧ vOutd 0x11100002020000011000010000000002#128 = false ∧
    (unitBytes 0x11100002020000011000010000000002#128 (vecRows vecDone 0 (opAt 0x11100002020000011000010000000002#128))).length = 8 := by
  refine ⟨rfl, rfl, rfl, ?_⟩; decide +kernel

theorem wit_UnitCompletion_outd : (core (inCore 0 fun C => { C with vec := [opAt 0x1180002020000011000010000000002#128] }) 0).vec = opAt 0x1180002020000011000010000000002#128 :: [] ∧
    gated (inCore 0 fun C => { C with vec := [opAt 0x1180002020000011000010000000002#128] }) 0 5 = false ∧ vOutd 0x1180002020000011000010000000002#128 = true := ⟨rfl, rfl, by decide⟩

def xuDone : State := inCore 0 fun C => { C with xu := [opAt 0x11100002020000011000010000000003#128] }

theorem wit_UnitCompletion_xu :
    (core xuDone 0).xu = opAt 0x11100002020000011000010000000003#128 :: [] ∧ gated xuDone 0 6 = false ∧ vOutd 0x11100002020000011000010000000003#128 = false ∧ iOp 0x11100002020000011000010000000003#128 ≠ 6 ∧
    (unitBytes 0x11100002020000011000010000000003#128 (xuRows xuDone 0 (opAt 0x11100002020000011000010000000003#128))).length = 8 := by
  refine ⟨rfl, rfl, rfl, by decide, ?_⟩; decide +kernel

/-- A run in which the XU's front operation is XENT over two targets of four classes each. -/
def xentOp : UnitOp := { opAt 0x30300002020000011000010000000083#128 with s28 := 4 }

def xentDone : State := { inCore 0 (fun C => { C with xu := [xentOp] }) with dev := .running }

theorem wit_UnitCompletion_xent :
    (core xentDone 0).xu = xentOp :: [] ∧ gated xentDone 0 6 = false ∧ iOp (BitVec.ofNat 128 xentOp.w) = 8 ∧ inRun xentDone = true ∧
    (int32s xentDone 0 xentOp.addrB (vCount (BitVec.ofNat 128 xentOp.w)))[1]? = some 0 ∧
    ((xuRows xentDone 0 xentOp).flatten[1]?).isSome = true := by
  refine ⟨rfl, by decide +kernel, by decide +kernel, rfl, by decide +kernel, by decide +kernel⟩

/-- The TILE of `tileReady`, queued and filled or not, in a group that is closed. -/
def tileOp (filled started : Bool) : TileOp := { thread := 0, w := (0x100000000004000148800FF5000001#128).toNat, feed := 0x100, out := 0, filled := filled, started := started, grp := 0, bad := false, poison := false, texp := 0, real := 128, rows := [] }

def tileQueued (filled started : Bool) : State :=
  modCore 0 (fun C => { C with grpNo := 1 }) (modArr 0 1 (fun A => { A with queue := [.tile (tileOp filled started)] }) tileReady)

theorem wit_ArrayFills_fill :
    nextFill (arr (tileQueued false false) 0 1).queue = some (tileOp false false) ∧ (arr (tileQueued false false) 0 1).full = false ∧
    (core (tileQueued false false) 0).fence = false ∧ gated (tileQueued false false) 0 4 = false ∧
    compMatches (tileQueued false false) 0 (groupTiles (tileQueued false false) 0 (tileOp false false).grp) = true ∧
    ∀ b, b < 1 → fillReady (tileQueued false false) 0 b = none := by
  refine ⟨?_, ?_, ?_, ?_, ?_, ?_⟩ <;> decide +kernel

theorem wit_ArrayFills_none : nextFill (arr (at0 0) 0 1).queue = none ∧ fillReady (tileQueued false false) 0 1 ≠ none := by
  refine ⟨?_, ?_⟩ <;> decide +kernel

def fenced : State := modCore 0 (fun C => { C with fence := true }) (tileQueued false false)

theorem wit_ArrayFills_fence :
    (core fenced 0).fence = true ∧ nextGroup fenced 0 = some (0, [(1, tileOp false false)]) ∧
    ∀ y ∈ [(1, tileOp false false)], ∀ z ∈ [(1, tileOp false false)], y.1 = z.1 → y = z := by
  refine ⟨?_, ?_, by simp⟩ <;> decide +kernel

def tblQueued : State := modArr 0 1 (fun A => { A with queue := [.tbl 0 (0x1000BFC009000011#128).toNat] }) (at0 0)

theorem wit_ArrayFills_tbl : nextTbl (arr tblQueued 0 1).queue = some (0, (0x1000BFC009000011#128).toNat) := by decide +kernel

/-- A closed group of one filled TILE on array 1, composed. -/
def groupReady : State := modArr 0 1 (fun A => { A with shadow := { fmt := 2, real := 128 }, full := true, width := 2 }) (tileQueued true false)

theorem wit_ArrayStreaming_start :
    nextGroup groupReady 0 = some (0, [(1, tileOp true false)]) ∧ (core groupReady 0).fence = false ∧ gated groupReady 0 4 = false ∧
    compMatches groupReady 0 [(1, tileOp true false)] = true ∧ ([(1, tileOp true false)].map (·.1)).Nodup ∧
    gated groupReady 0 1 = false ∧ (tileOp true false).filled = true ∧ frontIs 0 (arr groupReady 0 1).queue = true ∧
    (arr groupReady 0 1).ramp = 0 ∧ (arr groupReady 0 1).gap = .none ∧
    statFmt (tSfmt (BitVec.ofNat 128 (tileOp true false).w)) = some .bf16 ∧ streamFmt (tTfmt (BitVec.ofNat 128 (tileOp true false).w)) = some .bf16 ∧
    0 < (readFeed groupReady 0 0x100).words ∧
    (readFeed groupReady 0 0x100).ring + (readFeed groupReady 0 0x100).words * 16 * fmtWidth .bf16 ≤ 0x100000 := by
  and_intros <;> decide +kernel

theorem wit_ArrayStreaming_tile :
    (arr (tileQueued true true) 0 1).queue = .tile (tileOp true true) :: [] ∧ (tileOp true true).started = true := by
  refine ⟨?_, rfl⟩; decide +kernel

def idling : State := modArr 0 1 (fun A => { A with queue := [.idle 0 (0x51000021#128).toNat true] }) (at0 0)

theorem wit_ArrayStreaming_idle :
    (arr idling 0 1).queue = .idle 0 (0x51000021#128).toNat true :: [] ∧ idleAll (BitVec.ofNat 128 (0x51000021#128).toNat) = false ∧ underSchedule idling = false := by decide +kernel

/-- Array 1 in a gap: ramping, or at fraction 0 below DENSITY. -/
def ramping (r : Int) (g : Gap) (b : Bool) : State := modArr 0 1 (fun A => { A with ramp := r, gap := g, ballast := b, density := 3 }) (at0 0)

theorem wit_ArrayStreaming_ramp :
    (arr (ramping (-1) .none true) 0 1).ramp = -1 ∧ (arr (ramping 1 .unplanned true) 0 1).ramp = 1 ∧
    ((arr (ramping 0 .planned false) 0 1).ramp = 0 ∧ (arr (ramping 0 .planned false) 0 1).gap = .planned ∧
      (arr (ramping 0 .planned false) 0 1).ballast = false ∧ (arr (ramping 0 .planned false) 0 1).frac < (arr (ramping 0 .planned false) 0 1).density) ∧
    (arr (ramping 1 .unplanned true) 0 1).gap = .unplanned ∧ (arr (ramping 1 .unplanned true) 0 1).ballast = true := by
  refine ⟨rfl, rfl, ⟨rfl, rfl, rfl, ?_⟩, rfl, rfl⟩; decide

/-- Registers of a host that has opened window 0 (base 0, 2^40 bytes) and ring pair 0 with 16 and 16 entries at 0x1000
and 0x2000. -/
def hostRegs : List (Nat × Word) :=
  [(ringReg 0 0, 0x1000), (ringReg 0 8, 0x2000), (ringReg 0 0x10, 0x10404), (winReg 0 8, 0x80000028)]

/-- A device in state `d` with these registers and the entry `e` at the front of ring 0. -/
def fronted (d : DevState) (e : List Byte) : State :=
  { State.reset with regs := hostRegs, dev := d, host := { rings := [(0, { fetched := [e], sqTail := 1 })] } }

/-- A ring entry with opcode `op` and the bytes from 8 on. -/
def entry (op : Nat) (l : List Byte) : List Byte := padTo 64 (leBytes 8 op ++ l)

theorem wit_RingReplies (d : DevState) :
    (ring (fronted d (entry 0x32 [])) 0).fetched = [entry 0x32 []] ∧ (∀ y, ([] : List (List Byte)).head? = some y → knownOpcode (leAt y 0 1) = true) ∧
    ringEnabled (fronted d (entry 0x32 [])) 0 = true ∧
    cntSat (cntDev 0) (cntExact (cntAdd (cntDev 0) 1 (fronted d (entry 0x32 []))) (cntDev 0)) = false ∧
    rqFull (fronted d (entry 0x32 [])) 0 = false ∧ (fronted d (entry 0x32 [])).host.d3hot = false ∧
    hostRange (fronted d (entry 0x32 [])) (rqBase (fronted d (entry 0x32 [])) 0 + 32 * (ring (fronted d (entry 0x32 [])) 0).rqTail) 32 = true := by
  refine ⟨rfl, fun y h => by simp at h, ?_, ?_, ?_, rfl, ?_⟩ <;> cases d <;> decide +kernel

/-- The reply ring of ring 0 is full: its tail stands one entry before its head. -/
def rqFullState : State := modRing 0 (fun R => { R with rqTail := 15 }) (fronted .running (entry 0x32 []))

theorem wit_RingReplies_full :
    rqFull rqFullState 0 = true ∧ (ring rqFullState 0).fetched = [entry 0x32 []] ∧ ringEnabled rqFullState 0 = true := by decide +kernel

theorem wit_RingRefusals :
    frontEntry (fronted .wedged (entry 0x18 [])) 0 0x18 = some (entry 0x18 []) ∧ (fronted .wedged (entry 0x18 [])).dev = .wedged ∧
    frontEntry (fronted .idle (entry 0x18 [1])) 0 0x18 = some (entry 0x18 [1]) ∧ (zeroAt (entry 0x18 [1]) 8 56) = false ∧
    frontEntry (fronted .idle (entry 0x18 [])) 0 0x18 = some (entry 0x18 []) ∧ statesOk [.running] (fronted .idle (entry 0x18 [])) = some 2 := by
  and_intros <;> decide +kernel

/-- The entry and the state of the next witness. -/
def entry_RunCommands_start : List Byte := entry 0x10 [63, 0, 0, 0, 9]

def at_RunCommands_start : State := fronted .planned entry_RunCommands_start

theorem wit_RunCommands_start :
    Front at_RunCommands_start 0 0x10 entry_RunCommands_start ∧ at_RunCommands_start.dev = .planned ∧ leAt entry_RunCommands_start 8 1 ≤ 63 ∧ zeroAt entry_RunCommands_start 9 3 = true ∧ zeroAt entry_RunCommands_start 0x10 48 = true ∧ at_RunCommands_start.stroke.locked = false := by
  unfold Front; and_intros <;> decide +kernel

def lockedHeld (e : List Byte) : State := { fronted .held e with stroke := { locked := true }, run := { last := some 7, heldCause := 1 } }

/-- The entry and the state of the next witness. -/
def entry_RunCommands_start_locked : List Byte := entry 0x10 [63, 0, 0, 0, 9]

theorem wit_RunCommands_start_locked :
    Front (lockedHeld entry_RunCommands_start_locked) 0 0x10 entry_RunCommands_start_locked ∧ (lockedHeld entry_RunCommands_start_locked).dev = .held ∧ leAt entry_RunCommands_start_locked 8 1 ≤ 63 ∧ zeroAt entry_RunCommands_start_locked 9 3 = true ∧ zeroAt entry_RunCommands_start_locked 0x10 48 = true ∧ (lockedHeld entry_RunCommands_start_locked).stroke.locked = true ∧ (lockedHeld entry_RunCommands_start_locked).run.ready = false := by
  unfold Front; and_intros <;> decide +kernel

/-- The entry and the state of the next witness. -/
def entry_RunCommands_step : List Byte := entry 0x11 [0, 0, 0, 0, 1]

theorem wit_RunCommands_step :
    Front (lockedHeld entry_RunCommands_step) 0 0x11 entry_RunCommands_step ∧ (lockedHeld entry_RunCommands_step).dev = .held ∧ leAt entry_RunCommands_step 8 1 ≤ 63 ∧ zeroAt entry_RunCommands_step 9 3 = true ∧ 1 ≤ leAt entry_RunCommands_step 0xC 4 ∧ zeroAt entry_RunCommands_step 0x10 48 = true ∧ stepLimit (lockedHeld entry_RunCommands_step) (leAt entry_RunCommands_step 0xC 4) < 2 ^ 32 ∧
    (lockedHeld entry_RunCommands_step).stroke.locked = true ∧ (lockedHeld entry_RunCommands_step).run.ready = false := by
  unfold Front; and_intros <;> decide +kernel

/-- The entry and the state of the next witness. -/
def entry_RunCommands_step_far : List Byte := entry 0x11 [0, 0, 0, 0, 0xFF, 0xFF, 0xFF, 0xFF]

theorem wit_RunCommands_step_far :
    Front (lockedHeld entry_RunCommands_step_far) 0 0x11 entry_RunCommands_step_far ∧ (lockedHeld entry_RunCommands_step_far).dev = .held ∧ leAt entry_RunCommands_step_far 8 1 ≤ 63 ∧ zeroAt entry_RunCommands_step_far 9 3 = true ∧ 1 ≤ leAt entry_RunCommands_step_far 0xC 4 ∧ zeroAt entry_RunCommands_step_far 0x10 48 = true ∧ 2 ^ 32 ≤ stepLimit (lockedHeld entry_RunCommands_step_far) (leAt entry_RunCommands_step_far 0xC 4) := by
  unfold Front; and_intros <;> decide +kernel

theorem wit_RunCommands_pause :
    Front (fronted .running (entry 0x12 [1])) 0 0x12 (entry 0x12 [1]) ∧ leAt (entry 0x12 [1]) 8 1 ≤ 1 ∧ zeroAt (entry 0x12 [1]) 9 55 = true ∧ (fronted .running (entry 0x12 [1])).dev = .running := by
  unfold Front; and_intros <;> decide +kernel

theorem wit_RunCommands_secure :
    Front (fronted .running (entry 0x18 [])) 0 0x18 (entry 0x18 []) ∧ (fronted .running (entry 0x18 [])).dev = .running ∧ zeroAt (entry 0x18 []) 8 56 = true := by
  unfold Front; and_intros <;> decide +kernel

/-- A START of ring 3 that has not been agreed on; from PLANNED or, with a cause, from HELD. -/
def startOf3 (cause : Nat) : State :=
  { fronted .starting (entry 0x12 []) with
    host := { rings := [(0, { fetched := [entry 0x12 []], sqTail := 1 })], startRing := some 3 }, run := { heldCause := cause } }

theorem wit_RunCommands_cancel_0 :
    Front (startOf3 0) 0 0x12 (entry 0x12 []) ∧ leAt (entry 0x12 []) 8 1 ≤ 1 ∧ zeroAt (entry 0x12 []) 9 55 = true ∧ (startOf3 0).dev = .starting ∧ (startOf3 0).run.startAt = none ∧ (startOf3 0).host.startRing = some 3 ∧ (startOf3 0).run.heldCause = 0 ∧ leAt (entry 0x12 []) 8 1 = 0 := by
  unfold Front; and_intros <;> decide +kernel

theorem wit_RunCommands_cancel_1 :
    Front (startOf3 1) 0 0x12 (entry 0x12 []) ∧ leAt (entry 0x12 []) 8 1 ≤ 1 ∧ zeroAt (entry 0x12 []) 9 55 = true ∧ (startOf3 1).dev = .starting ∧ (startOf3 1).run.startAt = none ∧ (startOf3 1).host.startRing = some 3 ∧ (startOf3 1).run.heldCause = 1 ∧ leAt (entry 0x12 []) 8 1 = 0 := by
  unfold Front; and_intros <;> decide +kernel

theorem wit_ObservingCommands_echo :
    Front (fronted .idle (entry 0x32 [1, 2, 3])) 0 0x32 (entry 0x32 [1, 2, 3]) ∧ (fronted .idle (entry 0x32 [1, 2, 3])).dev ≠ .wedged ∧ zeroAt (entry 0x32 [1, 2, 3]) 0x20 32 = true := by
  unfold Front; and_intros <;> decide +kernel

/-- A plan of one replica of one device at position 0, with a neighbour at position 1 on port 0 and the flows and regions named. -/
def mapPlan (fl : List FlowCtx) (rg : List Region) : Plan :=
  { fromStep := 0, inputRec := [], inputDigest := [], planDigest := [], deviceDigest := [], system := [], device := [],
    t := 1, p := 1, r := 2, r0 := 2, pos := 0,
    positions := [{ pos := 0, replica := 0, stage := 0, rank := 0, spare := false, buddy := 1, shared := false, master := true, parentPort := 0, parentSub := 0, hops := 0 },
      { pos := 1, replica := 1, stage := 0, rank := 0, spare := false, buddy := 0, shared := false, master := false, parentPort := 0, parentSub := 0, hops := 1 }],
    stages := [], cPlan := 96, allow := 0, period := 10000, easyLimit := 4, nfSkip := true, c := 4, q := 2, u := 1, d := 1, x := 1, e := 1, window := 0,
    admissible := [], tensors := [], slots := [], costs := [], events := [], flows := fl, regions := rg, pieces := [], convs := [],
    books := [], threads := [], mbPerStep := 1, seqPerStep := 4096, combiners := [], gaps := [], homes := [], images := [], copies := [],
    tokens := [], classes := [], code := [], coreRegs := [] }

def plan0 : Plan := mapPlan [] []

/-- The entry and the state of the next witness. -/
def entry_ObservingCommands_planRead : List Byte := entry 4 (leBytes 8 0x8000 ++ leBytes 8 0x10000)

def at_ObservingCommands_planRead : State := { fronted .planned entry_ObservingCommands_planRead with plan := some plan0 }

theorem wit_ObservingCommands_planRead :
    Front at_ObservingCommands_planRead 0 4 entry_ObservingCommands_planRead ∧ at_ObservingCommands_planRead.dev ≠ .wedged ∧ 4 ≤ devCode at_ObservingCommands_planRead.dev ∧ zeroAt entry_ObservingCommands_planRead 0x18 40 = true ∧ at_ObservingCommands_planRead.plan = some plan0 ∧ (planImage at_ObservingCommands_planRead plan0).length ≤ leAt entry_ObservingCommands_planRead 0x10 8 ∧
    hostRange at_ObservingCommands_planRead (leAt entry_ObservingCommands_planRead 8 8) (planImage at_ObservingCommands_planRead plan0).length = true := by
  unfold Front; and_intros <;> decide +kernel

/-- The entry and the state of the next witness. -/
def entry_ObservingCommands_planRead_short : List Byte := entry 4 (leBytes 8 0x8000 ++ leBytes 8 16)

def at_ObservingCommands_planRead_short : State := { fronted .planned entry_ObservingCommands_planRead_short with plan := some plan0 }

theorem wit_ObservingCommands_planRead_short :
    Front at_ObservingCommands_planRead_short 0 4 entry_ObservingCommands_planRead_short ∧ at_ObservingCommands_planRead_short.plan = some plan0 ∧ leAt entry_ObservingCommands_planRead_short 0x10 8 < (planImage at_ObservingCommands_planRead_short plan0).length ∧ hostRange at_ObservingCommands_planRead_short (leAt entry_ObservingCommands_planRead_short 8 8) 1 = true := by
  unfold Front; and_intros <;> decide +kernel

/-- The entry and the state of the next witness. -/
def entry_ObservingCommands_readStats : List Byte := entry 0x20 ([2, 15, 0, 0] ++ leBytes 4 4095 ++ leBytes 4 1 ++ leBytes 4 0 ++ leBytes 8 0x8000)

def at_ObservingCommands_readStats : State := fronted .loaded entry_ObservingCommands_readStats

theorem wit_ObservingCommands_readStats :
    Front at_ObservingCommands_readStats 0 0x20 entry_ObservingCommands_readStats ∧ at_ObservingCommands_readStats.dev ≠ .wedged ∧ 3 ≤ devCode at_ObservingCommands_readStats.dev ∧ leAt entry_ObservingCommands_readStats 8 1 ≤ 2 ∧ leAt entry_ObservingCommands_readStats 9 1 ≤ 15 ∧ zeroAt entry_ObservingCommands_readStats 0xA 2 = true ∧ zeroAt entry_ObservingCommands_readStats 0x14 4 = true ∧ zeroAt entry_ObservingCommands_readStats 0x20 32 = true ∧
    (((statsRows at_ObservingCommands_readStats 2 15).2.drop (leAt entry_ObservingCommands_readStats 0xC 4)).take (leAt entry_ObservingCommands_readStats 0x10 4)).flatten ≠ [] ∧
    hostRange at_ObservingCommands_readStats (leAt entry_ObservingCommands_readStats 0x18 8) (max 1 (((statsRows at_ObservingCommands_readStats 2 15).2.drop (leAt entry_ObservingCommands_readStats 0xC 4)).take (leAt entry_ObservingCommands_readStats 0x10 4)).flatten.length) = true := by
  unfold Front; and_intros <;> decide +kernel

/-- The entry and the state of the next witness. -/
def entry_ObservingCommands_snapshot : List Byte := entry 0x21 [31]

def at_ObservingCommands_snapshot : State := fronted .idle entry_ObservingCommands_snapshot

theorem wit_ObservingCommands_snapshot :
    Front at_ObservingCommands_snapshot 0 0x21 entry_ObservingCommands_snapshot ∧ at_ObservingCommands_snapshot.dev ≠ .wedged ∧ at_ObservingCommands_snapshot.dev ≠ .boot ∧ at_ObservingCommands_snapshot.dev ≠ .recovery ∧ leAt entry_ObservingCommands_snapshot 8 1 < 32 ∧ leAt entry_ObservingCommands_snapshot 9 1 ≤ 1 ∧ zeroAt entry_ObservingCommands_snapshot 0xA 6 = true ∧ leAt entry_ObservingCommands_snapshot 0x10 8 < 2 ^ 48 ∧ zeroAt entry_ObservingCommands_snapshot 0x18 40 = true ∧ leAt entry_ObservingCommands_snapshot 9 1 = 0 := by
  unfold Front; and_intros <;> decide +kernel

/-- The entry and the state of the next witness. -/
def entry_ObservingCommands_snapshot_at : List Byte := entry 0x21 [31, 1, 0, 0, 0, 0, 0, 0, 5]

def at_ObservingCommands_snapshot_at : State := fronted .idle entry_ObservingCommands_snapshot_at

theorem wit_ObservingCommands_snapshot_at :
    Front at_ObservingCommands_snapshot_at 0 0x21 entry_ObservingCommands_snapshot_at ∧ zeroAt entry_ObservingCommands_snapshot_at 0xA 6 = true ∧ leAt entry_ObservingCommands_snapshot_at 9 1 = 1 ∧ at_ObservingCommands_snapshot_at.stroke.count < leAt entry_ObservingCommands_snapshot_at 0x10 8 ∧ at_ObservingCommands_snapshot_at.cnt.pending.length < 16 := by
  unfold Front; and_intros <;> decide +kernel

/-- The state of the next witness. -/
def at_ObservingCommands_traceCtl : State := fronted .idle (entry 0x22 [])

theorem wit_ObservingCommands_traceCtl :
    Front at_ObservingCommands_traceCtl 0 0x22 (entry 0x22 []) ∧ at_ObservingCommands_traceCtl.dev ≠ .wedged ∧ at_ObservingCommands_traceCtl.dev ≠ .boot ∧ at_ObservingCommands_traceCtl.dev ≠ .recovery ∧ traceEncOk (entry 0x22 []) = true ∧ leAt (entry 0x22 []) 8 1 ≠ 1 ∧ traceEmpty at_ObservingCommands_traceCtl = true := by
  unfold Front; and_intros <;> decide +kernel

/-- A session with a record still in core 0's buffer, and the end of the session at the front of the ring. -/
def tracing : State := { fronted .idle (entry 0x22 []) with
  trace := { session := some { mode := 0, cap := 1, types := 1, dest := 0, bytes := 65536, cores := 1, drained := 0, dropped := 0, last := 95 }, bufs := [(0, { recs := [[]] })] } }

theorem wit_ObservingCommands_traceCtl_waits :
    Front tracing 0 0x22 (entry 0x22 []) ∧ traceEncOk (entry 0x22 []) = true ∧ leAt (entry 0x22 []) 8 1 ≠ 1 ∧ traceEmpty tracing = false ∧ tracing.trace.session ≠ none := by
  unfold Front; and_intros <;> decide +kernel

/-- The entry and the state of the next witness. -/
def entry_ObservingCommands_traceCtl_start : List Byte := entry 0x22 ([1, 0, 1, 0] ++ leBytes 4 1 ++ leBytes 8 (0x8000000000000 + 65536) ++ leBytes 8 65536)

def at_ObservingCommands_traceCtl_start : State := fronted .idle entry_ObservingCommands_traceCtl_start

theorem wit_ObservingCommands_traceCtl_start :
    Front at_ObservingCommands_traceCtl_start 0 0x22 entry_ObservingCommands_traceCtl_start ∧ traceEncOk entry_ObservingCommands_traceCtl_start = true ∧ leAt entry_ObservingCommands_traceCtl_start 8 1 = 1 ∧ traceDestOk at_ObservingCommands_traceCtl_start (leAt entry_ObservingCommands_traceCtl_start 0x10 8) (leAt entry_ObservingCommands_traceCtl_start 0x18 8) = true ∧ at_ObservingCommands_traceCtl_start.trace.session = none := by
  unfold Front; and_intros <;> decide +kernel

/-- The smallest package: one layer, one tensor, one optimiser entry; its DIGEST was computed outside the model. -/
def goodPkg : List Byte :=
  leBytes 64 0x18000000000000001000000000100000000000000010000000100000000000002400000000147325446 ++
  leBytes 64 0x1000100000080000000000000024000000000000001C0 ++
  leBytes 64 0x0 ++
  leBytes 64 0xCDE3127F9A3F29851390F00A25A92D015ED9BF875DE6A4600760C433E78F3BFBF816E8E41E3FB0600F1BD3D88871406E ++
  leBytes 64 0xFFFFFFFF0000000000000000FFFFFFFFFFFFFFFFFFFFFFFFFFFFFFFFFFFFFFFF00000000FF000004 ++
  leBytes 64 0xFFFFFFFF000000000000000000000000 ++
  leBytes 64 0xFFFFFFFF00000000000000000000000000000000000000000000000000000001000000010000000100000080FFFFFFFF000000FFFFFF0000FF010500 ++
  leBytes 64 0x1000000000000000000000000000000000000000000000000 ++
  leBytes 64 0x0

theorem test_sha384_digest :
    pkgDigest goodPkg = slice goodPkg 0xC0 48 := by decide +kernel

theorem wit_PackageCommand_checks : checkPkg goodPkg 576 = (0, some (parsePkg goodPkg 576), none) := by
  have h1 : headerOk goodPkg 576 = true := by decide +kernel
  have h2 : (pkgDigest goodPkg != slice goodPkg 0xC0 48) = false := by rw [test_sha384_digest]; exact bne_self_eq_false _
  have h3 : pkgFault goodPkg 576 = none := by decide +kernel
  unfold checkPkg
  rw [h1, h2, h3]
  rfl

/-- The entry and the state of the next witness. -/
def entry_PackageCommand_load : List Byte := entry 1 (leBytes 8 0x8000 ++ leBytes 8 576)

def at_PackageCommand_load : State := fronted .idle entry_PackageCommand_load

theorem wit_PackageCommand_load :
    Front at_PackageCommand_load 0 1 entry_PackageCommand_load ∧ at_PackageCommand_load.dev ∈ [DevState.idle, .loaded, .planned, .stopped] ∧ avsBlocks at_PackageCommand_load = false ∧ zeroAt entry_PackageCommand_load 0x18 40 = true ∧
    hostRange at_PackageCommand_load (leAt entry_PackageCommand_load 8 8) (leAt entry_PackageCommand_load 0x10 8) = true ∧ leAt entry_PackageCommand_load 0x10 8 ≤ 2 ^ 32 ∧ padTo (leAt entry_PackageCommand_load 0x10 8) goodPkg = goodPkg := by
  unfold Front; and_intros <;> decide +kernel

/-- The entry and the state of the next witness. -/
def entry_PackageCommand_bad : List Byte := entry 1 (leBytes 8 0x8000 ++ leBytes 8 4)

theorem wit_PackageCommand_bad :
    Front (fronted .idle entry_PackageCommand_bad) 0 1 entry_PackageCommand_bad ∧ hostRange (fronted .idle entry_PackageCommand_bad) (leAt entry_PackageCommand_bad 8 8) (leAt entry_PackageCommand_bad 0x10 8) = true ∧ checkPkg (padTo (leAt entry_PackageCommand_bad 0x10 8) []) (leAt entry_PackageCommand_bad 0x10 8) = (0x10, none, none) := by
  unfold Front; and_intros <;> decide +kernel

/-- An image of one body byte in key slot 1, SVN 2, and the fuses of its keys with `n` SVN bits blown; the digests were computed
outside the model. -/
def fwBytes : List Byte :=
  leBytes 80 0x532094e1e7f51b563709b4b05d0ba79aaf33d130d4a23c32fa7b59570b214def531ce8b1b1e234cbca258db46b05cd400000000000000000000000010000000300000007000000000201000157463246 ++
    List.replicate 4016 0 ++ [0x5A]

/-- The entry and the state of the next witness. -/
def entry_PackageCommand_bind : List Byte := entry 2 ([15, 1, 0, 0] ++ leBytes 4 128 ++ leBytes 8 77 ++ leBytes 8 0x8000 ++ leBytes 4 8 ++ leBytes 4 0 ++ leBytes 8 0x9000 ++ leBytes 8 0xA000)

def at_PackageCommand_bind : State := { fronted .loaded entry_PackageCommand_bind with pkg := some pkg0 }

theorem wit_PackageCommand_bind :
    Front at_PackageCommand_bind 0 2 entry_PackageCommand_bind ∧ at_PackageCommand_bind.dev = .loaded ∧ zeroAt entry_PackageCommand_bind 0xA 2 = true ∧ zeroAt entry_PackageCommand_bind 0x24 4 = true ∧ zeroAt entry_PackageCommand_bind 0x38 8 = true ∧ at_PackageCommand_bind.pkg = some pkg0 ∧
    leAt entry_PackageCommand_bind 8 1 ≤ 15 ∧ 1 ≤ leAt entry_PackageCommand_bind 9 1 ∧ 8 ≤ leAt entry_PackageCommand_bind 0x20 4 ∧ leAt entry_PackageCommand_bind 0x20 4 ≤ 24 ∧ leAt entry_PackageCommand_bind 0x18 8 % 32 = 0 ∧
    hostRange at_PackageCommand_bind (leAt entry_PackageCommand_bind 0x18 8) (32 * 2 ^ leAt entry_PackageCommand_bind 0x20 4) = true ∧ leAt entry_PackageCommand_bind 0x28 8 % 8 = 0 ∧ hostRange at_PackageCommand_bind (leAt entry_PackageCommand_bind 0x28 8) 8 = true ∧
    leAt entry_PackageCommand_bind 0x30 8 % 16 = 0 ∧ hostRange at_PackageCommand_bind (leAt entry_PackageCommand_bind 0x30 8) 16 = true ∧ 2 ≤ leAt entry_PackageCommand_bind 0xC 4 ∧ leAt entry_PackageCommand_bind 0xC 4 ≤ pkg0.mbTokens ∧ leAt entry_PackageCommand_bind 0x10 8 ≠ 0 ∧ at_PackageCommand_bind.sources = [] := by
  unfold Front; and_intros <;> decide +kernel

/-- A map of two devices with one four-lane link between their ports 0. -/
def twoMap : List Byte :=
  leBytes 64 0x2000150414D53 ++
  leBytes 64 0x8000100000000000000000000006000000000 ++
  leBytes 64 0x0 ++
  leBytes 64 0x80000000000000000000000000060000000010000000000000000000000000000000000000000000000000000000000000000 ++
  leBytes 64 0x0 ++
  leBytes 64 0x0

/-- A loaded device at position 0 whose port 0 is trained to port 0 of position 1, with source 0 bound. -/
def planReady (e : List Byte) : State :=
  { fronted .loaded e with
    pkg := some pkg0
    sources := [(0, some { weight := 1, seqMax := 128, seed := 1, ring := 0, log2 := 8, prod := 0, cons := 0, credit := 0, next := 0, admitted := 0, released := 0 })]
    regs := (0x10, 0x80000000) :: hostRegs
    link := { port := [(0, { sub0 := { up := true, lanes := 4, latency := 1600, peerPos := 1, peerValid := true } })] } }

/-- The entry and the state of the next witness. -/
def entry_PlanCommand_fresh : List Byte := entry 3 (leBytes 8 0x8000 ++ leBytes 4 384 ++ leBytes 4 1 ++ leBytes 8 0x9000)

def at_PlanCommand_fresh : State := planReady entry_PlanCommand_fresh

theorem wit_PlanCommand_fresh :
    Front at_PlanCommand_fresh 0 3 entry_PlanCommand_fresh ∧ at_PlanCommand_fresh.dev = .loaded ∧ avsBlocks at_PlanCommand_fresh = false ∧ leAt entry_PlanCommand_fresh 0x14 2 ≤ 16384 ∧ zeroAt entry_PlanCommand_fresh 0x16 2 = true ∧ zeroAt entry_PlanCommand_fresh 0x20 32 = true ∧ at_PlanCommand_fresh.pkg = some pkg0 ∧
    hostRange at_PlanCommand_fresh (leAt entry_PlanCommand_fresh 8 8) (leAt entry_PlanCommand_fresh 0x10 4) = true ∧ hostRange at_PlanCommand_fresh (leAt entry_PlanCommand_fresh 0x18 8) (4 * leAt entry_PlanCommand_fresh 0x14 2) = true ∧
    padTo (leAt entry_PlanCommand_fresh 0x10 4) twoMap = twoMap ∧ (source at_PlanCommand_fresh 0).isSome = true ∧ pinsOk pkg0 (readPins [0, 0, 0, 2] (leAt entry_PlanCommand_fresh 0x14 2)) = true ∧
    compareOk at_PlanCommand_fresh pkg0 = true ∧ mapForm twoMap (leAt entry_PlanCommand_fresh 0x10 4) = true ∧ linksMatch (parseMap twoMap) = true ∧ slowPort at_PlanCommand_fresh (parseMap twoMap) = false ∧
    ownRecordOk at_PlanCommand_fresh (parseMap twoMap) = true := by
  unfold Front; and_intros <;> decide +kernel

/-- The entry and the state of the next witness. -/
def entry_PlanCommand_runwide : List Byte := entry 3 (leBytes 8 0x8000 ++ leBytes 4 384 ++ leBytes 4 1 ++ leBytes 8 0x9000)

def at_PlanCommand_runwide : State := { planReady entry_PlanCommand_runwide with dev := .running, mapBytes := twoMap }

theorem wit_PlanCommand_runwide :
    Front at_PlanCommand_runwide 0 3 entry_PlanCommand_runwide ∧ at_PlanCommand_runwide.dev = .running ∧ leAt entry_PlanCommand_runwide 0x14 2 ≤ 16384 ∧ zeroAt entry_PlanCommand_runwide 0x16 2 = true ∧ zeroAt entry_PlanCommand_runwide 0x20 32 = true ∧ at_PlanCommand_runwide.pkg = some pkg0 ∧
    hostRange at_PlanCommand_runwide (leAt entry_PlanCommand_runwide 8 8) (leAt entry_PlanCommand_runwide 0x10 4) = true ∧ hostRange at_PlanCommand_runwide (leAt entry_PlanCommand_runwide 0x18 8) (4 * leAt entry_PlanCommand_runwide 0x14 2) = true ∧
    padTo (leAt entry_PlanCommand_runwide 0x10 4) twoMap = at_PlanCommand_runwide.mapBytes ∧ pinsOk pkg0 (readPins [] (leAt entry_PlanCommand_runwide 0x14 2)) = true ∧ at_PlanCommand_runwide.host.rwPlan = none := by
  unfold Front; and_intros <;> decide +kernel

/-- The entry and the state of the next witness. -/
def entry_RestoreCommand_refused : List Byte := entry 0x19 (leBytes 8 1 ++ leBytes 8 0x8000)

def at_RestoreCommand_refused : State := { fronted .planned entry_RestoreCommand_refused with pkg := some pkg0 }

theorem wit_RestoreCommand_refused :
    Front at_RestoreCommand_refused 0 0x19 entry_RestoreCommand_refused ∧ at_RestoreCommand_refused.dev = .planned ∧ leAt entry_RestoreCommand_refused 8 1 = 1 ∧ zeroAt entry_RestoreCommand_refused 9 7 = true ∧ zeroAt entry_RestoreCommand_refused 0x18 40 = true ∧ at_RestoreCommand_refused.pkg = some pkg0 ∧
    hostRange at_RestoreCommand_refused (leAt entry_RestoreCommand_refused 0x10 8) (max 256 ([] : List Byte).length) = true ∧ restoreCode at_RestoreCommand_refused pkg0 [] ≠ 0 := by
  unfold Front; and_intros <;> decide +kernel

/-- The entry and the state of the next witness. -/
def entry_RestoreCommand_check : List Byte := entry 0x1A [0]

def at_RestoreCommand_check : State := { fronted .restored entry_RestoreCommand_check with pkg := some pkg0, run := { loss := 5, tokens := 6 } }

theorem wit_RestoreCommand_check :
    Front at_RestoreCommand_check 0 0x1A entry_RestoreCommand_check ∧ at_RestoreCommand_check.dev = .restored ∧ leAt entry_RestoreCommand_check 8 1 ≤ 1 ∧ zeroAt entry_RestoreCommand_check 9 7 = true ∧ zeroAt entry_RestoreCommand_check 0x18 40 = true ∧ at_RestoreCommand_check.pkg = some pkg0 ∧ (5 : Word) = at_RestoreCommand_check.run.loss ∧
    (6 : Word) = at_RestoreCommand_check.run.tokens ∧ (7 : Word) ≠ at_RestoreCommand_check.run.loss ∧ at_RestoreCommand_check.res.restoreBad = false ∧ at_RestoreCommand_check.res.coxLost = false ∧ leAt entry_RestoreCommand_check 8 1 ≠ 1 := by
  unfold Front; and_intros <;> decide +kernel

def entry_FirmwareWrite : List Byte := entry 0x31 (leBytes 8 0x8000 ++ leBytes 8 4097)

def fwDev (bits : Nat) : State :=
  { fronted .idle entry_FirmwareWrite with
    fuses := { svnBits := bits, keyHash := [0, 0x4c682e7103342a5719146ea2c6de9938e03405eebf3a6a8dbeadc9b7e68b9417f6e0a371f6dc836aa35c6d721bb72ef2, 0, 0] } }

def at_FirmwareWrite : State := fronted .idle entry_FirmwareWrite

theorem wit_FirmwareWrite :
    Front (fwDev 3) 0 0x31 entry_FirmwareWrite ∧ (fwDev 3).dev ∈ [DevState.idle, .loaded, .planned, .stopped] ∧ zeroAt entry_FirmwareWrite 0x18 40 = true ∧
    hostRange (fwDev 3) (leAt entry_FirmwareWrite 8 8) (leAt entry_FirmwareWrite 0x10 8) = true ∧ leAt entry_FirmwareWrite 0x10 8 ≤ 2 ^ 24 ∧
    leAt entry_FirmwareWrite 0x10 8 = 4096 + leAt fwBytes 0x14 4 ∧ 4097 ≤ leAt entry_FirmwareWrite 0x10 8 := by
  unfold Front; and_intros <;> decide +kernel

theorem wit_FirmwareWrite_length : fwBytes.length = 4097 ∧ padTo 4097 fwBytes = fwBytes := by
  have h : fwBytes.length = 4097 := by
    simp only [fwBytes, List.length_append, List.length_replicate, List.length_singleton]
    rw [length_leBytes]
  refine ⟨h, ?_⟩
  unfold padTo; rw [h, Nat.sub_self, List.replicate_zero, List.append_nil, List.take_of_length_le (Nat.le_of_eq h)]

/-- The image verifies exactly where the two signatures do (Config.ecdsaVerify and Config.lmsVerify, log entry 105), and its SVN of 2 stands against two or three blown bits. -/
theorem wit_FirmwareWrite_verifies :
    imageVerifies (fwDev 3) (parseImage fwBytes) = ((parseImage fwBytes).ecdsaOk && (parseImage fwBytes).lmsOk) ∧
    svnCount (fwDev 3) ≤ (parseImage fwBytes).svn ∧ (parseImage fwBytes).svn < svnCount (fwDev 7) := by
  have f : (parseImage fwBytes).formOk = true := by decide +kernel
  have k : keyOk (fwDev 3) (parseImage fwBytes) = true := by decide +kernel
  have d : (parseImage fwBytes).digestOk = true := by decide +kernel
  refine ⟨?_, by decide +kernel, by decide +kernel⟩
  unfold imageVerifies; rw [f, k, d]; simp

theorem wit_FirmwareWrite_bad :
    imageVerifies (fwDev 3) (parseImage (padTo 4097 [])) = false ∧ leAt entry_FirmwareWrite 0x10 8 ≠ 4096 + (parseImage (padTo 4097 [])).bodyBytes := by
  have f : (parseImage (padTo 4097 [])).formOk = false := by decide +kernel
  refine ⟨?_, by decide +kernel⟩
  unfold imageVerifies; rw [f]; rfl

/-- Power is good and PERST_N deasserted. -/
def powered : State := { fronted .idle (entry 0x3F []) with pins := { perst := false, pwrgood := true } }

theorem wit_FirmwareWrite_reset :
    Front powered 0 0x3F (entry 0x3F []) ∧ zeroAt (entry 0x3F []) 8 56 = true ∧ powered.pins.perst = false ∧ powered.pins.pwrgood = true ∧ powered.flash.valid = true ∧ powered.flash.image.formOk = true ∧
    keyOk powered powered.flash.image = true ∧ powered.flash.image.ecdsaOk = true ∧ powered.flash.image.lmsOk = true ∧ powered.flash.image.digestOk = true ∧
    svnCount powered ≤ powered.flash.image.svn ∧ keptAtReset 0x2000 = false := by
  unfold Front; and_intros <;> decide +kernel

/-- The entry and the state of the next witness. -/
def entry_HostMemoryAccess_copy : List Byte := entry 0x30 (leBytes 8 0x6000 ++ leBytes 8 0x4000 ++ leBytes 8 64)

def at_HostMemoryAccess_copy : State := fronted .idle entry_HostMemoryAccess_copy

theorem wit_HostMemoryAccess_copy :
    Front at_HostMemoryAccess_copy 0 0x30 entry_HostMemoryAccess_copy ∧ at_HostMemoryAccess_copy.dev ≠ .wedged ∧ copyStates at_HostMemoryAccess_copy = none ∧ 1 ≤ leAt entry_HostMemoryAccess_copy 0x18 8 ∧ leAt entry_HostMemoryAccess_copy 0x18 8 ≤ 2 ^ 40 ∧ zeroAt entry_HostMemoryAccess_copy 0x20 32 = true ∧ runActive at_HostMemoryAccess_copy = false ∧
    memReason at_HostMemoryAccess_copy (leAt entry_HostMemoryAccess_copy 8 8) (leAt entry_HostMemoryAccess_copy 0x18 8) = 0 ∧ destOk at_HostMemoryAccess_copy (leAt entry_HostMemoryAccess_copy 0x10 8) (leAt entry_HostMemoryAccess_copy 0x18 8) = true ∧ isHostAddr (leAt entry_HostMemoryAccess_copy 8 8) = false ∧
    devToHost at_HostMemoryAccess_copy (leAt entry_HostMemoryAccess_copy 0x10 8) = none ∧ leAt entry_HostMemoryAccess_copy 0x10 8 = 0x4000 ∧ leAt entry_HostMemoryAccess_copy 0x18 8 = 64 := by
  unfold Front; and_intros <;> decide +kernel

theorem wit_HostMemoryAccess_copy_ok :
    writeReason at_HostMemoryAccess_copy 0x4000 64 = 0 ∧
    (∀ i, i < 64 → isHostAddr (0x6000 + i) = false ∧ devToHost at_HostMemoryAccess_copy (0x4000 + i) = none ∧ plainAddr (0x4000 + i)) ∧
    ∀ y ∈ [(0x6000, EccOutcome.corrected)], y.2 = .clean ∨ y.2 = .corrected ∨ y.2 = .linkCorrected ∨ y.2 = .linkRepeated := by
  have h : ∀ i, i < 64 → isHostAddr (0x6000 + i) = false ∧ devToHost at_HostMemoryAccess_copy (0x4000 + i) = none := by decide +kernel
  refine ⟨by decide +kernel, fun i hi => ⟨(h i hi).1, (h i hi).2, ?_⟩, by simp⟩
  exact ⟨fun x => absurd x.1 (by simp [sharedBase]; omega), fun x => absurd x.1 (by omega)⟩

/-- A BAR4 window over the scratch of a core group that is off. -/
def barOff : State := { State.reset with dev := .idle, regs := [(0x2014, 4)], pwr := { groups := [(0, .off)] } }

/-- The state of a BAR4 read of `barState` and of `barHole`, counted. -/
def barSeen (s : State) : State := bump (cntDev 47) 1 (wakeAccess s)

theorem wit_HostMemoryAccess_plain :
    ∀ i, i < 64 → plainAddr (0x4000 + i) := fun i h => ⟨fun x => absurd x.1 (by simp [sharedBase]; omega), fun x => absurd x.1 (by omega)⟩

/-- The entry and the state of the next witness. -/
def entry_HostMemoryAccess_copy_run : List Byte := entry 0x30 (leBytes 8 0x6000 ++ leBytes 8 0x4000 ++ leBytes 8 64)

def at_HostMemoryAccess_copy_run : State := fronted .running entry_HostMemoryAccess_copy_run

theorem wit_HostMemoryAccess_copy_run :
    Front at_HostMemoryAccess_copy_run 0 0x30 entry_HostMemoryAccess_copy_run ∧ copyStates at_HostMemoryAccess_copy_run = none ∧ runActive at_HostMemoryAccess_copy_run = true ∧ isHostAddr (leAt entry_HostMemoryAccess_copy_run 0x10 8) = false ∧
    ¬ (traceRegion at_HostMemoryAccess_copy_run ≤ leAt entry_HostMemoryAccess_copy_run 0x10 8 ∧ leAt entry_HostMemoryAccess_copy_run 0x10 8 + leAt entry_HostMemoryAccess_copy_run 0x18 8 ≤ pkgRegion at_HostMemoryAccess_copy_run) := by
  unfold Front; and_intros <;> decide +kernel

/-- The entry and the state of the next witness. -/
def entry_HostMemoryAccess_copy_absent : List Byte := entry 0x30 (leBytes 8 0xC0000000 ++ leBytes 8 0x4000 ++ leBytes 8 1)

def at_HostMemoryAccess_copy_absent : State := fronted .idle entry_HostMemoryAccess_copy_absent

theorem wit_HostMemoryAccess_copy_absent :
    Front at_HostMemoryAccess_copy_absent 0 0x30 entry_HostMemoryAccess_copy_absent ∧ copyStates at_HostMemoryAccess_copy_absent = none ∧ runActive at_HostMemoryAccess_copy_absent = false ∧ memReason at_HostMemoryAccess_copy_absent (leAt entry_HostMemoryAccess_copy_absent 8 8) (leAt entry_HostMemoryAccess_copy_absent 0x18 8) = 4 := by
  unfold Front; and_intros <;> decide +kernel

/-- The window of BAR4 at 0, a word of hold stored as poison. -/
def barState (d : DevState) : State := { State.reset with dev := d, mem := { poison := [(0x40, true)] } }

/-- A BAR4 window over addresses that do not exist. -/
def barHole : State := { State.reset with dev := .idle, regs := [(0x2014, 0x1000)] }

theorem wit_HostMemoryAccess_bar4 :
    bar4Reason (barSeen (barState .idle)) (diagBase (barState .idle) + 0x20) 4 .clean = 0 ∧
    bar4Reason (barSeen (barState .idle)) (diagBase (barState .idle) + 0x20) 4 .uncorrectable = 1 ∧
    bar4Reason (barSeen barOff) (diagBase barOff) 4 .clean = 2 ∧
    bar4Reason (barSeen (barState .idle)) (diagBase (barState .idle) + 0x40) 4 .clean = 5 ∧
    bar4Reason (barSeen barHole) (diagBase barHole) 4 .clean = 4 := by
  and_intros <;> decide +kernel

theorem wit_HostMemoryAccess_bar4Write_ok :
    writeReason (barState .idle) (diagBase (barState .idle) + 0x3E) [1#8, 2#8].length = 0 := by decide +kernel

theorem wit_HostMemoryAccess_bar4Write :
    runActive (barState .idle) = false ∧ ∀ i, i < [1#8, 2#8].length → plainAddr (diagBase (barState .idle) + 0x3E + i) ∧
    closedTo (barState .idle) (diagBase (barState .idle) + 0x3E + i) = false ∧
    ∃ m, memRegion (barState .idle) (diagBase (barState .idle) + 0x3E + i) = some m ∧ m ≠ .aon ∧ ∀ w, m ≠ .host w := by
  refine ⟨rfl, fun i h => ?_⟩
  have h2 : i < 2 := h
  have e : i = 0 ∨ i = 1 := by omega
  rcases e with rfl | rfl
  all_goals exact ⟨⟨by decide +kernel, by unfold logRing; decide +kernel⟩, by decide +kernel, .hold 0, by decide +kernel, by decide, fun w => by simp⟩

theorem wit_HostMemoryAccess_bar4Write_refused :
    runActive (barState .running) = true ∧ memRegion barHole (diagBase barHole + 0) = none := by decide +kernel

/-- A fetching ring 0: one entry submitted, not read; in P0, or in G3. -/
def ringing : State := { State.reset with regs := hostRegs, dev := .idle, host := { rings := [(0, { sqTail := 1 })] } }

theorem wit_DoorbellsAndFetch_power : ringing.pwr.state = .p0 ∧ ({ ringing with pwr := { state := .g3 } } : State).pwr.state ≠ .p0 := by
  and_intros <;> decide +kernel

theorem wit_DoorbellsAndFetch_doorbell :
    ringEnabled ringing 0 = true ∧ (15 : Word).toNat % 2 ^ 16 < 2 ^ ringLog2 ringing 0 false ∧ (15 : Word).toNat % 2 ^ 16 < 2 ^ ringLog2 ringing 0 true ∧
    2 ^ ringLog2 ringing 0 false ≤ (16 : Word).toNat % 2 ^ 16 ∧ 2 ^ ringLog2 ringing 0 true ≤ (16 : Word).toNat % 2 ^ 16 ∧ ringEnabled ringing 1 = false ∧
    (ring ringing 0).queued = [] := by
  and_intros <;> decide +kernel

theorem wit_DoorbellsAndFetch_fetch :
    ringEnabled ringing 0 = true ∧ (ring ringing 0).sqHead ≠ (ring ringing 0).sqTail ∧ (ring ringing 0).fetchErr = false ∧ (ring ringing 0).queued.length < 64 ∧
    ringing.host.d3hot = false ∧ hostRange ringing (entryAddr ringing 0) 64 = true ∧ (ring ringing 0).fetched = [] ∧ (ring ringing 0).accepted = false ∧
    knownOpcode (leAt (padTo 64 [0x7F]) 0 1) = false ∧ knownOpcode (leAt (padTo 64 [0x32]) 0 1) = true := by
  and_intros <;> decide +kernel

/-- The same ring at a host address outside every window. -/
def ringOutside : State := { ringing with regs := [(ringReg 0 0x10, 0x10404)] }

theorem wit_DoorbellsAndFetch_bad :
    ringEnabled ringOutside 0 = true ∧ (ring ringOutside 0).sqHead ≠ (ring ringOutside 0).sqTail ∧ hostRange ringOutside (entryAddr ringOutside 0) 64 = false := by decide +kernel

/-- A powered device in IDLE with power good and every register at its reset value. -/
def idleDev : State := { State.reset with dev := .idle, pwr := { domains := true }, pins := { perst := false, pwrgood := true } }

/-- The same in a run of `mapPlan`. -/
def runDev : State := { idleDev with dev := .running, plan := some plan0 }

theorem wit_RegisterWrites_writable :
    Writable (wakeAccess idleDev) 0x4004 := by
  constructor <;> decide +kernel

theorem wit_RegisterWrites_store :
    regInfo 0x4004 ≠ none ∧ silent 0x4004 ∧ regOk 0x4004 ((0xFA0 : DWord).toNat % 2 ^ 32 &&& 0x3FFFFFF) = true ∧
    regInfo 0x4004 = some { rw := 0x3FFFFFF, reset := (regReset 0x4004).toNat, cmd := 0 } := ⟨by decide +kernel, by unfold silent; decide +kernel, by decide +kernel, by decide +kernel⟩

theorem wit_RegisterWrites_alias_writable :
    Writable (wakeAccess idleDev) 0x9000 := by
  constructor <;> decide +kernel

theorem wit_RegisterWrites_refused :
    State.reset.dev = .boot ∧ recoveryHides { idleDev with dev := .recovery } 0x4004 = true ∧ regInfo 0x24 = none ∧ instanceExists { idleDev with renumbered := 1 } 0x1BE0000 = false ∧
    domainOff State.reset 0x300000 = true ∧ regLocked runDev 0x10 = true ∧ (∃ r, regInfo 0 = some r ∧ r.rw = 0 ∧ r.cmd = 0) ∧ lockedFields idleDev 0x4004 = 0 ∧
    ∃ r, regInfo 0x4004 = some r ∧ regOk 0x4004 ((0xF9F : DWord).toNat % 2 ^ 32 &&& r.rw) = false := ⟨rfl, by decide +kernel, by decide +kernel, by decide +kernel, by decide +kernel, by decide +kernel, ⟨{ rw := 0, reset := (regReset 0).toNat, cmd := 0 }, by decide +kernel, rfl, rfl⟩, by decide +kernel,
    ⟨{ rw := 0x3FFFFFF, reset := (regReset 0x4004).toNat, cmd := 0 }, by decide +kernel, by decide +kernel⟩⟩

theorem wit_RegisterEvents_ring :
    Writable (wakeAccess idleDev) (ringReg 0 0x10) := by
  constructor <;> decide +kernel

theorem wit_RegisterEvents_ring_value :
    ringEnabled idleDev 0 = false ∧ bitsN (0x11004 : Word).toNat 0 5 = 4 ∧ bitsN (0x11004 : Word).toNat 8 5 = 16 ∧ bitN (0x11004 : Word).toNat 16 = true := by decide +kernel

theorem wit_RegisterEvents_0xB008 :
    Writable (wakeAccess idleDev) 0xB008 := by
  constructor <;> decide +kernel

theorem wit_RegisterEvents_0x200000 :
    Writable (wakeAccess idleDev) 0x200000 := by
  constructor <;> decide +kernel

theorem wit_RegisterEvents_0x10 :
    Writable (wakeAccess idleDev) 0x10 := by
  constructor <;> decide +kernel

theorem wit_RegisterEvents_0x400000 :
    Writable (wakeAccess idleDev) 0x400000 := by
  constructor <;> decide +kernel

theorem wit_RegisterEvents_0xB000 :
    Writable (wakeAccess idleDev) 0xB000 := by
  constructor <;> decide +kernel

theorem wit_RegisterEvents_portReg_0_0 :
    Writable (wakeAccess idleDev) (portReg 0 0) := by
  constructor <;> decide +kernel

/-- Port 0 enabled. -/
def portOn : State := { idleDev with regs := [(portReg 0 0, 1)] }

/-- Port 0 disabled. -/
def portOff : State := { idleDev with regs := [(portReg 0 0, 0)] }

theorem wit_RegisterEvents_portOff :
    Writable (wakeAccess portOff) (portReg 0 0) := by
  constructor <;> decide +kernel

theorem wit_RegisterEvents_portOn :
    Writable (wakeAccess portOn) (portReg 0 0) := by
  constructor <;> decide +kernel

theorem wit_RegisterEvents_ports :
    portOff.plan = none ∧ bitN (reg portOff (portReg 0 0)) 0 = false ∧ bitN (1 : Word).toNat 0 = true ∧ bitN (reg portOn (portReg 0 0)) 0 = true ∧ bitN (0 : Word).toNat 0 = false ∧
    bitN (reg portOn (portReg 0 0)) 1 ≠ bitN (3 : Word).toNat 1 := by decide +kernel

theorem wit_RegisterEvents_ecc :
    bitN (reg idleDev 0x400000) 0 ≠ bitN (2 : Word).toNat 0 ∧ moorAllowed idleDev = true ∧ moorAllowed runDev = false ∧ bitN (1 : Word).toNat 0 = true := by decide +kernel

theorem wit_RegisterEvents_moor_refused :
    Writable (wakeAccess runDev) 0xB000 := by
  constructor <;> decide +kernel

theorem wit_WindowRegisters :
    runLock runDev 0 = true ∧ runLock runDev 95 = true ∧ runLock runDev 96 = false ∧ 0x3800 % 4 = 0 ∧ 0x3800 % 8 = 0 ∧ 0x38FC % 4 = 0 ∧ 0x38F8 % 8 = 0 := by decide +kernel

theorem wit_MailboxOperations :
    idleDev.mgmt.mboxBusy = false ∧ (mboxArgs (.mctp 0 1) idleDev).2 = 1 ∧ (mboxArgs (.mctp 0 4096) idleDev).2 = 4096 ∧ (mboxArgs (.mctp 0 0) idleDev).2 = 0 ∧
    4096 < (mboxArgs (.mctp 0 4097) idleDev).2 ∧ moorAllowed idleDev = true ∧ idleDev.pwr.state ≠ .g5 ∧ moorAllowed runDev = false ∧
    ({ idleDev with pwr := { state := .g5 } } : State).pwr.state = .g5 ∧ ({ idleDev with mgmt := { mboxBusy := true } } : State).mgmt.mboxBusy = true := by
  and_intros <;> decide +kernel

/-- Controller 3 and partition 95 are being initialised, controller 4 is trained, scrubbing is on everywhere. -/
def memDev : State := { idleDev with
  regs := [(0x400000, 2)]
  mem := { ch := [(3, { init := true }), (4, { trained := true, selfRefresh := false, scrubbing := true, buffers := [(lpddrBase + 512, [1])] }), (5, { init := true })],
           part := [(95, { init := true }), (0, { init := false, scrubbing := true })], poison := [(0x40, true)] } }

theorem wit_MemoryUnits :
    (ch memDev 4).buffers ≠ [] ∧ (ch memDev 4).trained = true ∧ (ch memDev 4).selfRefresh = false ∧ (ch memDev 3).init = true ∧
    (part memDev 95).init = true ∧ (∃ d, d < 16 ∧ d ≠ 3 ∧ (ch memDev d).init = true) ∧ memDev.pwr.domains = true ∧ memDev.pwr.state ≠ .g4 ∧ memDev.pwr.state ≠ .g5 :=
  ⟨by decide +kernel, by decide +kernel, by decide +kernel, by decide +kernel, by decide +kernel, ⟨5, by decide +kernel⟩, rfl, by decide, by decide⟩

/-- One scrub read: of a good word of hold and of LPDDR5X, corrected; of an uncorrectable one; of poison; in a run, of a word that the
plan uses. -/
def memRun : State := { memDev with dev := .running, plan := some { plan0 with classes := [(1, 0x40, 64)] } }

theorem wit_MemoryUnits_scrub :
    scrubs memDev (.hold 0) = true ∧ inUnit memDev (.hold 0) 0x1FFFFF8 = true ∧ isPoisoned memDev (codeWord memDev 0x1FFFFF8) = false ∧
    eccSeen memDev (codeWord memDev 0x1FFFFF8) .corrected = .corrected ∧ memRegion memDev (codeWord memDev 0x1FFFFF8) = some (.hold 0) ∧
    eccSeen memDev (codeWord memDev 0x1FFFFF8) .uncorrectable = .uncorrectable ∧
    scrubs memDev (.lpddr 4) = true ∧ inUnit memDev (.lpddr 4) (lpddrBase + 4 * 128) = true := by
  and_intros <;> decide +kernel

theorem wit_MemoryUnits_bad :
    inUnit memRun (.hold 0) 0x44 = true ∧ isPoisoned memRun (codeWord memRun 0x44) = true ∧
    (passStart (.hold 0) (codeWord memRun 0x44) memRun).mem.logged.contains (codeWord memRun 0x44) = false ∧
    ¬ (plannerCopy memRun ≤ codeWord memRun 0x44 ∧ codeWord memRun 0x44 < traceRegion memRun) ∧ inRun memRun = true ∧
    planUses memRun (codeWord memRun 0x44) = true := by
  and_intros <;> decide +kernel

theorem wit_MemoryUnits_logged :
    (passStart (.hold 0) 0x40 { memDev with mem := { memDev.mem with logged := [0x40] } }).mem.logged.contains 0x40 = true := by decide +kernel

/-- A long tolerance and deep states allowed. -/
def tolerant : State := { idleDev with regs := [(0xB000, 2), (0xB004, 0xFFFFFFFF)] }

theorem wit_PowerEntries_unit :
    unitIdle tolerant 0 6 = true ∧ gated tolerant 0 6 = false ∧ chooseState [.g1] (some 1000000000) (latTol tolerant) false = .g1 := by decide +kernel

theorem wit_PowerEntries_group :
    group tolerant 11 = .p0 ∧ tolerant.pwr.barred.contains 11 = false ∧ avsWaits tolerant = false ∧ groupIdle tolerant 11 = true ∧
    chooseState [.g2] (some 1000000000) (latTol tolerant) false = .g2 ∧ groupBusy tolerant 11 = false := by decide +kernel

/-- A pass of core 0 is under way. -/
def passing : State := { tolerant with stm := { desc := [(9, { pass := some { issuer := some { core := 0, thread := 0, pc := 0, cntEn := false, cnt := 0 }, gen := 0, done := 0, total := 64, poisoned := false, legs := [] } })] } }

theorem wit_PowerEntries_busy :
    groupIdle passing (groupOf passing 0) = true ∧ groupBusy passing (groupOf passing 0) = true ∧ group passing (groupOf passing 0) = .p0 := by decide +kernel

theorem wit_PowerEntries_device :
    moorAllowed tolerant = true ∧ tolerant.pwr.state = .p0 ∧ tolerant.pwr.barred.contains 12 = false ∧ avsWaits tolerant = false ∧
    chooseState [.g3, .g4] (deviceNext tolerant) (latTol tolerant) (deepEn tolerant) ≠ .p0 ∧ activePasses tolerant = 0 ∧ 0 < activePasses passing := by decide +kernel

theorem wit_PowerEntries_quiet : hostQuiet tolerant = true := by decide +kernel

theorem wit_PowerEntries_drain :
    ({ idleDev with pwr := { draining := [12, 3] } } : State).pwr.draining.contains 12 = true ∧ ({ idleDev with pwr := { draining := [12, 3] } } : State).pwr.draining.contains 3 = true := by decide +kernel

/-- Unit 6 of core 95 in G1, group 0 in G2, both leaving it. -/
def gatedDev : State := { idleDev with pwr := { units := [(766, true)], groups := [(0, .g2)], unitExit := [(766, true)], groupExit := [(0, true)], domains := true } }

theorem wit_PowerExits :
    gated gatedDev 95 6 = true ∧ group gatedDev 0 = .g2 ∧ sget (fun _ => false) gatedDev.pwr.unitExit (95 * 8 + 6) = true ∧ sget (fun _ => false) gatedDev.pwr.groupExit 0 = true := by decide +kernel

def deepDev (p : PowerState) (e : Bool) : State := { idleDev with pwr := { state := p, exiting := e } }

theorem wit_PowerExits_device :
    (deepDev .g3 false).host.d3hot = false ∧ (deepDev .g4 false).pwr.state = .g4 ∧ (deepDev .g4 true).pwr.exiting = true ∧ moorAllowed idleDev = true ∧ idleDev.pwr.state = .p0 ∧
    ({ idleDev with dev := .planned } : State).dev = .planned ∧ runActive runDev = true ∧ ({ idleDev with host := { d3hot := true } } : State).host.d3hot = true := by decide +kernel

theorem wit_PowerExits_d0 :
    ∀ q, (ring { idleDev with host := { d3hot := true } } q).queued = [] := fun _ => rfl

def railDev (n : Nat) : State := { idleDev with pwr := { rails := [(1, { pending := true, requested := 800, acked := 750, retries := n })] } }

theorem wit_SuppliesAndHeat_avs :
    (railAvs (railDev 2) 1).pending = true ∧ (railAvs (railDev 2) 1).retries < 3 ∧ (railAvs (railDev 3) 1).pending = true ∧ (railAvs (railDev 3) 1).retries = 3 := by decide +kernel

theorem wit_SuppliesAndHeat_sensors :
    idleDev.dev ≠ .boot ∧ idleDev.dev ≠ .recovery ∧ (sensor idleDev 29).fail = false ∧ (sensor idleDev 29).still + 1 < 10000 ∧ idleDev.pins.thermTrip = false ∧
    ({ idleDev with pins := { thermTrip := true } } : State).pins.thermTrip = true := by decide +kernel

theorem wit_SuppliesAndHeat_regulator :
    bitN (reg { idleDev with regs := [(0x100200 + 8 * 9, 0x80)] } (0x100200 + 8 * (9 : Fin 10).val)) 7 = true := by decide +kernel

theorem wit_ManagementRecords_log :
    idleDev.dev ≠ .boot ∧ idleDev.dev ≠ .recovery ∧ idleDev.log.dropped = 0 ∧ State.reset.dev = .boot := by decide +kernel

/-- A session that collects core 5, which holds one record. -/
def drainSession : TraceSession := { mode := 1, cap := 16, types := 1, dest := 0x8000000010000, bytes := 65536, cores := 0x20, drained := 0, dropped := 0, last := 95 }

def draining : State := { runDev with trace := { session := some drainSession, bufs := [(5, { recs := [List.replicate 32 7] })] } }

/-- The same with its records in device memory and the ring kept once. -/
def drainingHere : State := { draining with trace := { draining.trace with session := some { drainSession with mode := 0, dest := 0x40000 } } }

theorem wit_ManagementRecords_trace_here :
    drainingHere.trace.moved < drainBudget drainingHere { drainSession with mode := 0, dest := 0x40000 } ∧
    drainCore drainingHere { drainSession with mode := 0, dest := 0x40000 } = some 5 ∧ devToHost drainingHere 0x40000 = none ∧
    (devToHost { draining with regs := [(winReg 0 8, 0x80000028)] } 0x8000000010000).isSome = true ∧
    ∀ i, i < 32 → plainAddr (0x40000 + i) := by
  refine ⟨by decide +kernel, by decide +kernel, by decide +kernel, by decide +kernel, fun i h => ?_⟩
  exact ⟨fun x => absurd x.1 (by simp [sharedBase]; omega), fun x => absurd x.1 (by omega)⟩

theorem wit_ManagementRecords_trace :
    draining.trace.session = some drainSession ∧ draining.trace.waiting = none ∧ draining.trace.moved < drainBudget draining drainSession ∧
    drainCore draining drainSession = some 5 ∧ (sget bufD draining.trace.bufs 5).recs = List.replicate 32 7 :: [] ∧ draining.trace.wptr < drainSession.bytes / 32 := by
  and_intros <;> decide +kernel

theorem wit_ManagementRecords_boot :
    State.reset.flash.valid = true ∧ State.reset.flash.image.formOk = true ∧ keyOk State.reset State.reset.flash.image = true ∧ State.reset.flash.image.ecdsaOk = true ∧
    State.reset.flash.image.lmsOk = true ∧ svnCount State.reset ≤ State.reset.flash.image.svn := by
  and_intros <;> decide +kernel

def held (p g f : Bool) : State := { State.reset with pins := { perst := p, pwrgood := g, fell := f } }

theorem wit_ManagementRecords_pins :
    (held false true false).pins.thermTrip = false ∧ (held true true false).dev = .boot ∧ (held true true false).boot.recovery = false ∧ (held true true false).boot.bodyRead = false ∧
    (held true true false).boot.waiting = false ∧ (held true true false).flash.image.digestOk = true ∧ (held true false true).pins.fell = true ∧ (held true false true).pins.pwrgood = false := by decide +kernel

theorem wit_ManagementProtocols :
    idleDev.dev ≠ .boot ∧ idleDev.dev ≠ .recovery ∧ 3 ≤ spdmState { idleDev with mgmt := { spdm := [(0, 3), (1, 3)] } } .doe ∧ 3 ≤ spdmState { idleDev with mgmt := { spdm := [(0, 3), (1, 3)] } } .mctp ∧
    State.reset.dev = .boot ∧ pldmReading idleDev 47 = some 0 ∧ pldmReading idleDev 48 = none ∧ State.reset.pins.perst = true ∧ idleDev.pins.perst = false := by
  and_intros <;> decide +kernel

/-- Port 0 up, in a run, with the port state `P` beside. -/
def upDev (P : PortSt) : State := { runDev with link := { port := [(0, P)], route := [(1, 0)] } }

/-- A data frame and a NAK with SEQ 0, with their CRC as computed outside the model. -/
def dataFrame : List Byte := leBytes 8 0x2000000 ++ List.replicate 240 0 ++ leBytes 4 0xE4EA9442 ++ leBytes 4 0

def nakFrame : List Byte := leBytes 8 0x1000000 ++ List.replicate 240 0 ++ leBytes 4 0x95336107 ++ leBytes 4 0

def upPort : PortSt := { sub0 := { up := true, lanes := 4, peerPos := 1, peerValid := true } }

def crcOf (c : Word) (b : Byte) : Word := crcBits 8 (c ^^^ b.zeroExtend 32)

theorem test_crc32_dataFrame : crc32 ((padTo 256 dataFrame).take 248) = 0xE4EA9442#32 := by
  have h0 : (leBytes 8 0x2000000).foldl crcOf 0xFFFFFFFF#32 = 0xE01D73F6#32 := by decide +kernel
  have h1 : (List.replicate 48 0).foldl crcOf 0xE01D73F6#32 = 0xD1863A34#32 := by decide +kernel
  have h2 : (List.replicate 48 0).foldl crcOf 0xD1863A34#32 = 0xEE071BEF#32 := by decide +kernel
  have h3 : (List.replicate 48 0).foldl crcOf 0xEE071BEF#32 = 0xC9D23D5A#32 := by decide +kernel
  have h4 : (List.replicate 48 0).foldl crcOf 0xC9D23D5A#32 = 0x9FFD16F2#32 := by decide +kernel
  have h5 : (List.replicate 48 0).foldl crcOf 0x9FFD16F2#32 = 0x1B156BBD#32 := by decide +kernel
  have e : (padTo 256 dataFrame).take 248 = leBytes 8 0x2000000 ++ List.replicate 48 0 ++ List.replicate 48 0 ++ List.replicate 48 0 ++ List.replicate 48 0 ++ List.replicate 48 0 := by
    decide +kernel
  rw [e]
  show ~~~ (List.foldl crcOf _ _) = _
  rw [List.foldl_append, List.foldl_append, List.foldl_append, List.foldl_append, List.foldl_append, h0, h1, h2, h3, h4, h5]
  decide

theorem test_crc32_nakFrame : crc32 ((padTo 256 nakFrame).take 248) = 0x95336107#32 := by
  have h0 : (leBytes 8 0x1000000).foldl crcOf 0xFFFFFFFF#32 = 0xA7BD0926#32 := by decide +kernel
  have h1 : (List.replicate 48 0).foldl crcOf 0xA7BD0926#32 = 0x52EFEAF7#32 := by decide +kernel
  have h2 : (List.replicate 48 0).foldl crcOf 0x52EFEAF7#32 = 0xA62B8DEF#32 := by decide +kernel
  have h3 : (List.replicate 48 0).foldl crcOf 0xA62B8DEF#32 = 0xF82BC518#32 := by decide +kernel
  have h4 : (List.replicate 48 0).foldl crcOf 0xF82BC518#32 = 0x8F8F7414#32 := by decide +kernel
  have h5 : (List.replicate 48 0).foldl crcOf 0x8F8F7414#32 = 0x6ACC9EF8#32 := by decide +kernel
  have e : (padTo 256 nakFrame).take 248 = leBytes 8 0x1000000 ++ List.replicate 48 0 ++ List.replicate 48 0 ++ List.replicate 48 0 ++ List.replicate 48 0 ++ List.replicate 48 0 := by
    decide +kernel
  rw [e]
  show ~~~ (List.foldl crcOf _ _) = _
  rw [List.foldl_append, List.foldl_append, List.foldl_append, List.foldl_append, List.foldl_append, h0, h1, h2, h3, h4, h5]
  decide

/-- An idle frame, which carries nothing. -/
def idleFr : List Byte := List.replicate 248 0 ++ leBytes 4 0xBA7BCDC4 ++ leBytes 4 0

theorem test_crc32_idleFr : crc32 ((padTo 256 idleFr).take 248) = 0xBA7BCDC4#32 := by
  have h0 : (List.replicate 8 0).foldl crcOf 0xFFFFFFFF#32 = 0x9ADD2096#32 := by decide +kernel
  have h1 : (List.replicate 48 0).foldl crcOf 0x9ADD2096#32 = 0x2C375AB6#32 := by decide +kernel
  have h2 : (List.replicate 48 0).foldl crcOf 0x2C375AB6#32 = 0x28E0FDD0#32 := by decide +kernel
  have h3 : (List.replicate 48 0).foldl crcOf 0x28E0FDD0#32 = 0xE8836D26#32 := by decide +kernel
  have h4 : (List.replicate 48 0).foldl crcOf 0xE8836D26#32 = 0x368E5789#32 := by decide +kernel
  have h5 : (List.replicate 48 0).foldl crcOf 0x368E5789#32 = 0x4584323B#32 := by decide +kernel
  have e : (padTo 256 idleFr).take 248 = List.replicate 8 0 ++ List.replicate 48 0 ++ List.replicate 48 0 ++ List.replicate 48 0 ++ List.replicate 48 0 ++ List.replicate 48 0 := by
    decide +kernel
  rw [e]
  show ~~~ (List.foldl crcOf _ _) = _
  rw [List.foldl_append, List.foldl_append, List.foldl_append, List.foldl_append, List.foldl_append, h0, h1, h2, h3, h4, h5]
  decide

theorem wit_FramesAndLanes_frames :
    (subp (upDev upPort) 0 0).up = true ∧ leAt (padTo 256 dataFrame) 248 4 = (crc32 ((padTo 256 dataFrame).take 248)).toNat ∧
    (readFrame (padTo 256 dataFrame)).nak = false ∧ (readFrame (padTo 256 dataFrame)).ftype = 1 ∧
    (readFrame (padTo 256 dataFrame)).seq = (subp (upDev upPort) 0 0).rxSeq ∧ (port (upDev upPort) 0).dropPending = none ∧
    (readFrame (padTo 256 nakFrame)).nak = true ∧ (readFrame (padTo 256 nakFrame)).ftype = 0 ∧ (readFrame (padTo 256 nakFrame)).crCount = 0 ∧
    leAt (padTo 256 nakFrame) 248 4 = (crc32 ((padTo 256 nakFrame).take 248)).toNat := by
  rw [test_crc32_dataFrame, test_crc32_nakFrame]
  and_intros <;> decide +kernel

theorem wit_FramesAndLanes_eighth :
    7 ≤ (subp (upDev { upPort with sub0 := { upPort.sub0 with failRun := 7 } }) 0 0).failRun ∧ (subp (upDev upPort) 0 0).failRun < 7 := by decide +kernel

def laneDev (P : PortSt) : State := { upDev P with regs := [(portReg 0 0, 5)] }

theorem wit_FramesAndLanes_lanes :
    (port (laneDev upPort) 0).sub0.up = true ∧ bitN (reg (laneDev upPort) (portReg 0 0)) 1 = false ∧ bitN (reg (laneDev upPort) (portReg 0 0)) 2 = true ∧
    (port (laneDev upPort) 0).spared = false ∧ (port (laneDev upPort) 0).dropPending = none ∧ (port (laneDev { upPort with spared := true }) 0).spared = true ∧
    bitN (port (laneDev { upPort with spared := true }) 0).failedLanes 3 = false ∧ (port (laneDev { upPort with dropPending := some (3, 0) }) 0).dropPending ≠ none ∧
    (subp (laneDev { sub0 := { training := true } }) 0 0).training = true := by
  and_intros <;> decide +kernel

/-- Lane 2 is one symbol past a limit of zero, the other lanes at it. -/
def laneLimit : State := { upDev { upPort with laneSyms := [(2, 1)] } with regs := [(portReg 0 0, 5), (portReg 0 0x18, 0)] }

theorem wit_FramesAndLanes_limit :
    bitsN (reg laneLimit (portReg 0 0x18)) 8 8 * 1024 < sget natD (port laneLimit 0).laneSyms 2 + laneSymbols 0 2 [] ∧
    (∀ i, i < 4 → i ≠ 2 → ¬ bitsN (reg laneLimit (portReg 0 0x18)) 8 8 * 1024 < sget natD (port laneLimit 0).laneSyms i + laneSymbols 0 i []) ∧
    (∀ i, i < 4 → ¬ bitsN (reg (upDev upPort) (portReg 0 0x18)) 8 8 * 1024 < sget natD (port (upDev upPort) 0).laneSyms i + laneSymbols 0 i []) := by
  and_intros <;> decide +kernel

theorem wit_FramesAndLanes_limit_frame :
    leAt (padTo 256 idleFr) 248 4 = (crc32 ((padTo 256 idleFr).take 248)).toNat ∧ (readFrame (padTo 256 idleFr)).nak = false ∧
    (readFrame (padTo 256 idleFr)).ftype = 0 ∧ (readFrame (padTo 256 idleFr)).crCount = 0 := by
  refine ⟨by rw [test_crc32_idleFr]; decide +kernel, ?_⟩
  and_intros <;> decide +kernel

theorem wit_FramesAndLanes_known :
    bitN (port (laneDev { upPort with failedLanes := 8 }) 0).failedLanes 3 = true ∧
    (port (laneDev { upPort with dropPending := some (3, 0) }) 0).dropPending = some (3, 0) ∧
    (port (laneDev {}) 0).sub0.up = false ∧ (port (laneDev {}) 0).sub1.up = false := by
  and_intros <;> decide +kernel

theorem wit_RegisterWrites_alias :
    recoveryHides idleDev (0x2000000 + (0x9000 * 8 + 0) * 4) = false ∧ regInfo 0x9000 = some { rw := 1, reset := 0, cmd := 0 } ∧ bitN 1 0 = true ∧ silent 0x9000 ∧
    regOk 0x9000 ((reg idleDev 0x9000 &&& (1 ^^^ 2 ^ 0)) ||| (1 : Word).toNat % 2 * 2 ^ 0) = true := ⟨by decide +kernel, by decide +kernel, rfl, by unfold silent; decide +kernel, by decide +kernel⟩

/-- A line of three devices: 0 and 1 by their ports 0, 1's port 1 and 2's port 0. -/
def lineMap : List MapDev :=
  [{ pos := 0, feed := 0, cores := 96, spare := false, ports := 0x80001 :: List.replicate 31 0 },
   { pos := 1, feed := 0, cores := 96, spare := false, ports := 0x80000 :: 0 :: 0x80002 :: List.replicate 29 0 },
   { pos := 2, feed := 0, cores := 96, spare := false, ports := 0x81001 :: List.replicate 31 0 }]

def linePos (p r : Nat) (m : Bool) : PosEntry :=
  { pos := p, replica := r, stage := 0, rank := 0, spare := false, buddy := 0, shared := false, master := m, parentPort := 0, parentSub := 0, hops := p }

def flow (i : Nat) (send : Bool) (cls : Nat) (tg : FlowTarget) : FlowCtx :=
  { id := i, sending := send, peer := 1, cls := cls, tensor := 3, target := tg, set := 0, port := 0, sub := 0, hops := 1, credits := 4 }

/-- A region of two blocks that replica 0 owns, its accumulators in hold. -/
def region0 : Region := { tensor := 0, layer := 0, owner := 0, blocks := 2, acc := 0x10000, grad := 0x20000, flow := 21, down := [], scales := 0x30000 }

def linePlan (me : Nat) : Plan :=
  { mapPlan [flow 7 false 1 (.descriptor 5), flow 8 false 3 (.region 0), flow 9 false 3 (.combining 1), flow 10 false 2 (.combining 1), flow 20 true 2 (.descriptor 0),
      flow 21 true 1 (.descriptor 0), { flow 22 true 1 (.descriptor 0) with tensor := noTensor, peer := 0 },
      { flow 23 false 1 (.descriptor 5) with tensor := noTensor, peer := 0 }] [region0] with
    pos := me, positions := [linePos 0 0 true, linePos 1 1 false, linePos 2 2 false] }

/-- The device at position `me` of the line in a run, its ports 0 and 1 up. -/
def lineDev (me : Nat) : State :=
  { idleDev with
    dev := .running, plan := some (linePlan me), map := lineMap
    link := { port := [(0, upPort), (1, upPort)], route := [(0, 0), (1, 0), (2, 2)] } }

/-- A packet header to `dest`, with the length of a body of `n` bytes. -/
def hdrTo (cls kind src dest f arg n : Nat) : InstrWord := BitVec.ofNat 128 (hdrNat
  { cls := cls, kind := kind, hops := 0, len := 4 + ceilDiv n 4, dest := dest, src := src, flow := f, epoch := 0, gen := 0, arg := arg })

theorem wit_PacketArrival :
    (subp (lineDev 0) 0 0).up = true ∧ (readHdr (hdrTo 0 2 1 0 0 0 16).toNat).cls = 0 ∧ (readHdr (hdrTo 0 2 1 0 0 0 16).toNat).kind = 2 ∧
    hdrBad (hdrTo 0 2 1 0 0 0 16).toNat [] = true ∧ hdrBad (hdrTo 0 2 1 0 0 0 16).toNat (List.replicate 16 0) = false ∧
    forMe (lineDev 0) (readHdr (hdrTo 0 2 1 0 0 0 16).toNat) = true ∧ forMe (lineDev 1) (readHdr (hdrTo 0 2 1 0 0 0 16).toNat) = false ∧
    (readHdr (hdrTo 0 2 1 0 0 0 16).toNat).hops < 18 ∧
    epochOlder (readHdr (hdrTo 0 2 1 0 0 0 16).toNat).epoch 1 = true ∧ epochOlder (readHdr (hdrTo 0 2 1 0 0 0 16).toNat).epoch 0 = false ∧
    epochOlder 65535 (readHdr (hdrTo 0 2 1 0 0 0 16).toNat).epoch = true ∧ epochOlder (readHdr (hdrTo 0 2 1 0 0 0 16).toNat).epoch 65535 = false := by
  and_intros <;> decide +kernel

/-- An unlocked device outside a run, whose parent is sub-port 0 of port 0. -/
def childDev : State := { lineDev 1 with dev := .planned, stroke := { noParent := false } }

theorem wit_Markers_catch :
    Arrives childDev 0 0 (hdrTo 0 0 0 1 0 0 16).toNat (leBytes 8 5 ++ leBytes 4 0 ++ leBytes 4 1) 0 0 := by
  constructor <;> decide +kernel

theorem wit_Markers_take :
    (!childDev.stroke.locked && (leAt (leBytes 8 5 ++ leBytes 4 0 ++ leBytes 4 1) 12 4 % 2 == 1) && !runActive childDev) = true ∧ childDev.stroke.noParent = false ∧
    childDev.stroke.parentPort = 0 ∧ childDev.stroke.parentSub = 0 ∧ (lineDev 1).stroke.noParent = true ∧ runActive (lineDev 1) = true := by decide +kernel

/-- A locked device with that parent, a marker of another stroke on it or on port 1, and one at the limit of 64. -/
theorem wit_Markers_off :
    ({ childDev with stroke := { noParent := false, locked := true } } : State).stroke.locked = true ∧
    (5 : Nat) ≠ ({ childDev with stroke := { noParent := false, locked := true } } : State).stroke.count ∧
    ({ childDev with stroke := { noParent := false, locked := true } } : State).stroke.parentPort ≠ 1 ∧ ¬ ((64 : Int) < 64 ∨ (64 : Int) < -64) ∧ (64 : Int) < 65 := by
  and_intros <;> decide

theorem wit_Markers_easy :
    Arrives (lineDev 1) 0 0 (hdrTo 0 1 0 1 0 0 16).toNat (leBytes 8 5 ++ leBytes 4 0 ++ leBytes 4 0) 0 1 := by
  constructor <;> decide +kernel

theorem wit_Markers_seen :
    (lineDev 1).stroke.seen.contains (5, 0) = false ∧ ({ lineDev 1 with stroke := { seen := [(5, 0)] } } : State).stroke.seen.contains (5, 0) = true := by decide +kernel

theorem wit_ControlReductions_up :
    Arrives (lineDev 1) 0 0 (hdrTo 0 2 2 1 0 8 16).toNat (leBytes 4 1 ++ leBytes 12 1) 0 2 := by
  constructor <;> decide +kernel

theorem wit_ControlReductions_child :
    (ctlTree (lineDev 1) 8).2.contains 2 = true ∧ (ctlGet (lineDev 1) 8).heard.contains 2 = false ∧ (ctlTree (lineDev 1) 8).1 = some 0 ∧ (ctlGet (lineDev 1) 8).own = false ∧
    routeOf (lineDev 1) 0 = some (0, 0) ∧ (subp (lineDev 1) 0 0).up = true ∧ (ctlTree (lineDev 0) 8) = (none, [1]) := by
  and_intros <;> decide +kernel

/-- The own operand is in; only the child's is missing. -/
def ownIn (me : Nat) : State := { lineDev me with link := { (lineDev me).link with ctl := [(8, { ctlD 8 with own := true })] } }

theorem wit_ControlReductions_last :
    (ctlGet (ownIn 1) 8).own = true ∧ (ctlGet (ownIn 1) 8).sent = false ∧ (∀ x ∈ (ctlTree (ownIn 1) 8).2, x ∈ (ctlGet (ownIn 1) 8).heard ++ [2]) ∧
    (∀ x ∈ (ctlTree (ownIn 0) 8).2, x ∈ (ctlGet (ownIn 0) 8).heard ++ [1]) ∧ (ctlTree (ownIn 0) 8).1 = none := by
  and_intros <;> decide +kernel

theorem wit_ControlReductions_down :
    Arrives (lineDev 1) 0 0 (hdrTo 0 3 0 1 0 3 16).toNat (leBytes 4 0 ++ leBytes 12 1) 0 3 := by
  constructor <;> decide +kernel

theorem wit_ControlReductions_digest :
    Arrives (lineDev 1) 0 0 (hdrTo 0 4 0 1 0 0 48).toNat (List.replicate 48 0) 0 4 := by
  constructor <;> decide +kernel

theorem wit_ControlReductions_digests :
    usablePorts (lineDev 1) = [(0, 0), (1, 0)] ∧ (lineDev 1).link.digestSent = false ∧ (ctlGet (lineDev 1) ctlDigest).own = false := by
  and_intros <;> decide +kernel

/-- The own digest is sent, that of port 1 is in; at the middle of the line, at its end and at its head. -/
def digestDev (me : Nat) (heard : List Nat) : State :=
  { lineDev me with link := { (lineDev me).link with digestSent := true, digestIn := [(2, List.replicate 48 0)], ctl := [(ctlDigest, { ctlD ctlDigest with heard := heard })] } }

theorem wit_ControlReductions_all (me : Nat) (h : me = 0 ∨ me = 1) (heard : List Nat) :
    Arrives (digestDev me []) 0 0 (hdrTo 0 4 0 me 0 0 48).toNat (List.replicate 48 0) 0 4 ∧ (digestDev me heard).link.digestSent = true ∧
    (digestDev me heard).link.digestDone = false ∧ (∀ q ∈ usablePorts (digestDev me []), ∃ x ∈ [(0, List.replicate 48 (0 : Byte)), (2, List.replicate 48 0)], x.1 = 2 * q.1 + q.2) := by
  rcases h with rfl | rfl <;> refine ⟨?_, rfl, rfl, ?_⟩ <;> first | decide +kernel | (constructor <;> decide +kernel)

theorem wit_ControlReductions_flow :
    (ctlGet (digestDev 1 []) ctlDigest).own = false ∧ (∃ x ∈ (ctlTree (digestDev 1 []) ctlDigest).2, x ∉ (ctlGet (digestDev 1 []) ctlDigest).heard) ∧
    (ctlGet (digestDev 1 [2]) ctlDigest).sent = false ∧ (∀ x ∈ (ctlTree (digestDev 1 [2]) ctlDigest).2, x ∈ (ctlGet (digestDev 1 [2]) ctlDigest).heard) ∧
    (ctlTree (digestDev 1 [2]) ctlDigest).1 = some 0 ∧
    (∀ x ∈ (ctlTree (digestDev 0 [1]) ctlDigest).2, x ∈ (ctlGet (digestDev 0 [1]) ctlDigest).heard) ∧ (ctlTree (digestDev 0 [1]) ctlDigest).1 = none := by
  and_intros <;> decide +kernel

theorem wit_FlowPackets_credit :
    Arrives (lineDev 1) 0 0 (hdrTo 0 5 0 1 21 0 16).toNat (leBytes 4 21 ++ leBytes 4 1 ++ leBytes 8 0) 0 5 := by
  constructor <;> decide +kernel

/-- A packet waits for credit of flow 21, all of which is in use. -/
def starved : State := { lineDev 1 with red := { outq := [(21, 0, 0, [])] }, link := { (lineDev 1).link with credit := [(21, 4)] } }

theorem wit_FlowPackets_waiting :
    starved.red.outq = [(21, 0, 0, [])] ∧ legCtx starved 21 = some (flow 21 true 1 (.descriptor 0)) ∧ creditUsed starved 21 - 1 < (flow 21 true 1 (.descriptor 0)).credits := by
  and_intros <;> decide +kernel

/-- Descriptor 3's pass waits for END_ACK of flow 21, and of flow 22 where `two`. -/
def legPassOf (two : Bool) : PassSt := { issuer := none, gen := 0, done := 0, total := 64, poisoned := false, legs := if two then [(21, 64, false), (22, 64, false)] else [(21, 64, false)] }

def acking (two : Bool) : State := { lineDev 1 with stm := { desc := [(3, { pass := some (legPassOf two) })] } }

/-- Device 1 of the line with one more flow. -/
def withFlow (f : FlowCtx) : State := { lineDev 1 with plan := some { linePlan 1 with flows := f :: (linePlan 1).flows } }

theorem wit_FlowPackets_legs :
    legPass (acking true) 21 = some 3 ∧ (desc (acking true) 3).pass = some (legPassOf true) ∧ ((distLegs (acking true)).any fun x => x.id == 21) = false ∧
    (∃ l ∈ (legPassOf true).legs, l.1 ≠ 21 ∧ l.2.2 = false) ∧ (∀ l ∈ (legPassOf false).legs, l.1 ≠ 21 → l.2.2 = true) ∧ legPass (acking false) 21 = some 3 ∧
    legPass (lineDev 1) 21 = none ∧ legPass (lineDev 1) 20 = none ∧ ((distLegs (lineDev 1)).any fun x => x.id == 20) = true := by
  and_intros <;> decide +kernel

theorem wit_FlowPackets_ack :
    Arrives (acking true) 0 0 (hdrTo 0 6 0 1 21 0 16).toNat (List.replicate 16 0) 0 6 := by
  constructor <;> decide +kernel

theorem wit_FlowPackets_dist :
    (∃ x ∈ distLegs (withFlow (flow 24 true 2 (.descriptor 0))), x.id ≠ 20 ∧ legSettled (withFlow (flow 24 true 2 (.descriptor 0))) x.id = false) ∧
    ((imageFlows (lineDev 1)).any fun x => x.id == 22) = true ∧ legPass (lineDev 1) 22 = none ∧ (lineDev 1).dev ≠ .securing ∧
    ((imageFlows (lineDev 1)).any fun x => x.id == 20) = false := by
  and_intros <;> decide +kernel

theorem wit_FlowPackets_image :
    Arrives (lineDev 1) 0 0 (hdrTo 0 6 0 1 22 0 16).toNat (List.replicate 16 0) 0 6 ∧
    ((imageIn (lineDev 1) (readHdr (hdrTo 1 1 0 1 23 0 0).toNat).src).any fun f => f.id == (readHdr (hdrTo 1 1 0 1 23 0 0).toNat).flow) = true ∧
    ((imageIn (lineDev 1) (readHdr (hdrTo 1 1 0 1 7 0 0).toNat).src).any fun f => f.id == (readHdr (hdrTo 1 1 0 1 7 0 0).toNat).flow) = false := by
  refine ⟨?_, ?_, ?_⟩ <;> first | decide +kernel | (constructor <;> decide +kernel)

theorem wit_FlowPackets_result :
    Arrives (lineDev 1) 0 0 (hdrTo 2 0 0 1 10 0 8).toNat (List.replicate 8 9) (flowClass (hdrTo 2 0 0 1 10 0 8).toNat) 0 ∧
    Arrives (lineDev 1) 0 0 (hdrTo 2 1 0 1 10 0 0).toNat [] (flowClass (hdrTo 2 1 0 1 10 0 0).toNat) 1 ∧
    rxDesc (lineDev 1) (readHdr (hdrTo 2 0 0 1 10 0 8).toNat) = none ∧ rxResult (lineDev 1) (readHdr (hdrTo 2 0 0 1 10 0 8).toNat) = some 1 ∧
    (readHdr (hdrTo 2 0 0 1 10 0 8).toNat).arg = (sget inboxD (lineDev 1).red.inbox 10).length / 4 % 2 ^ 24 ∧
    (readHdr (hdrTo 2 0 0 1 10 1 8).toNat).arg ≠ (sget inboxD (lineDev 1).red.inbox 10).length / 4 % 2 ^ 24 := by
  refine ⟨?_, ?_, ?_, ?_, ?_, ?_⟩ <;> first | decide +kernel | (constructor <;> decide +kernel)

/-- The destination descriptor 5 of flow 7, no byte of its pass in. -/
def receiving (g : Nat) : State := { twoDescs (lineDev 1) with stm := { desc := [(5, { gen := g })] } }

theorem wit_FlowPackets_data :
    Arrives (receiving 0) 0 0 (hdrTo 1 0 0 1 7 0 8).toNat (List.replicate 8 9) (flowClass (hdrTo 1 0 0 1 7 0 8).toNat) 0 := by
  constructor <;> decide +kernel

theorem wit_FlowPackets_end :
    Arrives (receiving 0) 0 0 (hdrTo 1 1 0 1 7 0 0).toNat [] (flowClass (hdrTo 1 1 0 1 7 0 0).toNat) 1 := by
  constructor <;> decide +kernel

theorem wit_FlowPackets_place :
    rxDesc (receiving 0) (readHdr (hdrTo 1 0 0 1 7 0 8).toNat) = some 5 ∧ genStale (receiving 0) (readHdr (hdrTo 1 0 0 1 7 0 8).toNat) 5 = false ∧
    genStale (receiving 1) (readHdr (hdrTo 1 0 0 1 7 0 8).toNat) 5 = true ∧ (readHdr (hdrTo 1 0 0 1 7 0 8).toNat).arg = (desc (receiving 0) 5).inDone / 4 % 2 ^ 24 ∧
    (descOf (receiving 0) 5).mode = 0 ∧ blockAt (blockList (receiving 0) (descOf (receiving 0) 5)) 0 = some (0x4000, 64) ∧ devToHost (receiving 0) 0x4000 = none := by
  and_intros <;> decide +kernel

theorem wit_ReducePackets_bf16 :
    Arrives (lineDev 0) 0 0 (hdrTo 3 0 1 0 8 0 68).toNat (List.replicate 68 0) 3 0 := by
  constructor <;> decide +kernel

theorem wit_ReducePackets_fp8 :
    Arrives (lineDev 0) 0 0 (hdrTo 3 1 1 0 8 0 36).toNat (List.replicate 36 0) 3 1 := by
  constructor <;> decide +kernel

def reducing : State := { lineDev 0 with run := { phase := .reduction } }

theorem wit_ReducePackets_region :
    rxCtx (lineDev 0) 8 = some (flow 8 false 3 (.region 0)) ∧ planRegion (lineDev 0) 0 = some region0 ∧ owns (lineDev 0) region0 = true ∧ owns (lineDev 1) region0 = false ∧
    (readHdr (hdrTo 3 0 1 0 8 0 68).toNat).gen = reducing.red.gen % 2 ^ 16 ∧ reducing.run.phase = .reduction ∧ entriesOf false (List.replicate 68 0) = [readEntry false (List.replicate 68 0)] ∧
    reducing.red.again = [] := by
  and_intros <;> decide +kernel

/-- One entry leaves the pass unfinished: another contributor is missing, so the check of the pass changes nothing else. -/
theorem wit_ReducePackets_quiet :
    (settleBlk 0 region0 0 300 (addEntry 0 region0 false 0 (readEntry false (List.replicate 68 0)) reducing)).red.pass ≠ 3 ∧
    passDone (settleBlk 0 region0 0 300 (addEntry 0 region0 false 0 (readEntry false (List.replicate 68 0)) reducing)) = false := by
  and_intros <;> decide +kernel

theorem wit_ReducePackets_entry : (∀ j, j < 208 → plainAddr (blkAddr region0 0 + j)) ∧ (readEntry false (List.replicate 68 0)).codes.length = 32 ∧
    0 < region0.blocks ∧ (readEntry false (List.replicate 68 0)).s = (readBlk reducing (blkAddr region0 0)).scale ∧
    reducing.red.excluded.contains (readEntry false (List.replicate 68 0)).contrib = false ∧ (readEntry false (List.replicate 68 0)).nf = false ∧
    (readEntry false (List.replicate 68 0)).ovf = false ∧ (readEntry false (leBytes 4 0x20000 ++ List.replicate 64 0)).nf = true ∧
    (readEntry false (leBytes 4 0x10000 ++ List.replicate 64 0)).ovf = true ∧ region0.blocks ≤ 2 :=
  ⟨fun j h => ⟨fun x => absurd x.1 (by simp [blkAddr, region0, sharedBase]; omega), fun x => absurd x.1 (by simp [blkAddr, region0]; omega)⟩, by
    and_intros <;> decide +kernel⟩

theorem wit_ReducePackets_scaleUp :
    Arrives (lineDev 0) 0 0 (hdrTo 3 2 1 0 8 0 2).toNat [1, 2] 3 2 := by
  constructor <;> decide +kernel

theorem wit_ReducePackets_scaleDown :
    Arrives (lineDev 0) 0 0 (hdrTo 3 3 1 0 8 0 2).toNat [1, 2] 3 3 := by
  constructor <;> decide +kernel

theorem wit_ReducePackets_sums :
    Arrives (lineDev 0) 0 0 (hdrTo 3 4 1 0 9 0 8).toNat (List.replicate 8 0) 3 4 := by
  constructor <;> decide +kernel

/-- The middle of the line combines, in the boundary; what it holds of round 1 is closed but for device 0. -/
def combining : State :=
  { lineDev 1 with plan := some { linePlan 1 with combiners := [1] }, run := { phase := .boundary }, red := { closed := [(1, 1), (1, 2)] } }

theorem wit_ReducePackets_rounds :
    Arrives combining 0 0 (hdrTo 3 4 0 1 9 (ixClose + 1) 0).toNat [] 3 4 ∧ (liveCombiners combining).contains (myPos combining) = true ∧
    roundReady { combining with red := { combining.red with closed := combining.red.closed ++ [(1, 0)] } } 1 = true ∧
    roundReady { combining with red := { combining.red with closed := combining.red.closed ++ [(1, 0)] } } 2 = false ∧
    roundReady { combining with red := { combining.red with closed := combining.red.closed ++ [(2, 0)] } } 1 = false ∧
    roundReady { combining with red := { combining.red with closed := combining.red.closed ++ [(2, 0)] } } 2 = false ∧ combining.red.combined.contains 1 = false := by
  refine ⟨?_, ?_⟩
  · constructor <;> decide +kernel
  · and_intros <;> decide +kernel

theorem wit_ReducePackets_scales : (∀ j, j < [1#8, 2#8].length → plainAddr (region0.scales + 0 + j)) ∧ rxCtx (lineDev 0) 9 = some (flow 9 false 3 (.combining 1)) ∧
    (lineDev 0).red.scaleFind = false ∧ (lineDev 0).run.phase ≠ .reduction ∧ reducing.red.excluded.contains (myReplica reducing) = false :=
  ⟨fun j h => ⟨fun x => absurd x.1 (by simp at h; simp [region0, sharedBase]; omega), fun x => absurd x.1 (by simp at h; simp [region0]; omega)⟩, by decide +kernel, by decide +kernel, by decide +kernel, by decide +kernel⟩

/-- Descriptor 0 has a pass of 64 bytes under way, nothing moved. -/
def moving : State := { twoDescs (lineDev 1) with stm := { desc := [(0, { pass := some somePass })] } }

/-- The same with flow 21 as its only leg. -/
def legSending (used : Nat) : State := { (memWrite (descTable (lineDev 1)) (image 0x8000 0xFFFFFFFF 7 2) (twoDescs (lineDev 1))) with
  stm := { desc := [(0, { pass := some { somePass with legs := [(21, 0, false)] } })] }
  link := { (lineDev 1).link with credit := [(21, used)] } }

theorem wit_StreamTransfers_local :
    (desc moving 0).pass = some somePass ∧ moving.pwr.draining = [] ∧ (descOf moving 0).dest = 5 ∧ (descOf moving 5).mode = 0 ∧
    blockAt (blockList moving (descOf moving 0)) somePass.done = some (0x6000, 64) ∧ blockAt (blockList moving (descOf moving 5)) somePass.done = some (0x4000, 64) ∧
    min (min 64 64) (min (unitRoom moving 0x6000) (unitRoom moving 0x4000)) = 64 ∧ (readSource moving 0x6000 64 { bytes := [], poison := false } .clean).2 = 0 ∧
    memRegion moving 0x4000 ≠ none ∧ devToHost moving 0x4000 = none ∧ (0x6000 : Nat) ≠ 0xC0000000 ∧ (desc moving 9).pass = none ∧ (desc moving 0).waiting = [] ∧
    min 64 (min (min 64 (unitRoom moving 0x4000)) (unitRoom moving 0x6000)) = 64 := by
  and_intros <;> decide +kernel

theorem wit_StreamTransfers_stale :
    genOlder 2 somePass.gen = true ∧ genOlder 4 somePass.gen = false ∧ writeReason moving 0x4000 64 = 0 ∧ writeReason barOff (scratchAddr 0 0) 64 ≠ 0 ∧
    (∀ i, i < 64 → plainAddr (0x4000 + i)) ∧ strIdle moving := by
  refine ⟨by decide, by decide, by decide +kernel, by decide +kernel, fun i h => ?_, by unfold strIdle; decide +kernel⟩
  exact ⟨fun x => absurd x.1 (by simp [sharedBase]; omega), fun x => absurd x.1 (by omega)⟩

theorem wit_StreamTransfers_away :
    awayNow barOff (scratchAddr 0 0) false = true ∧ awayNow moving (scratchAddr 0 0) false = false ∧ awayNow moving (scratchAddr 0 0) true = true ∧
    awayNow moving 0x6000 false = false := by
  and_intros <;> decide +kernel

/-- A descriptor's pass from a core's scratch, whose group is off. -/
def awayPass : State := memWrite 0x8000 (leBytes 7 (scratchAddr 0 0) ++ leBytes 3 64 ++ leBytes 4 0 ++ leBytes 2 1) { moving with pwr := { moving.pwr with groups := [(0, .off)] } }

theorem wit_StreamTransfers_away_pass :
    awayNow awayPass (scratchAddr 0 0) false = true ∧ (desc awayPass 0).pass = some somePass ∧ (descOf awayPass 0).dest = 5 ∧ (descOf awayPass 5).mode = 0 ∧
    blockAt (blockList awayPass (descOf awayPass 0)) somePass.done = some (scratchAddr 0 0, 64) ∧
    blockAt (blockList awayPass (descOf awayPass 5)) somePass.done = some (0x4000, 64) ∧ devToHost awayPass 0x4000 = none := by
  and_intros <;> decide +kernel

theorem wit_StreamTransfers_leg :
    (desc (legSending 0) 0).pass = some { somePass with legs := [(21, 0, false)] } ∧ (descOf (legSending 0) 0).dest = 0xFFFFFFFF ∧ legReady (legSending 4) 21 = false ∧
    legReady (legSending 0) 21 = true ∧ legCtx (legSending 0) 21 = some (flow 21 true 1 (.descriptor 0)) ∧
    blockAt (blockList (legSending 0) (descOf (legSending 0) 0)) 0 = some (0x6000, 64) ∧ (readSource (legSending 0) 0x6000 64 { bytes := [], poison := false } .clean).2 = 0 := by
  and_intros <;> decide +kernel

/-- A cache full of descriptors, where `n` is 65,536. -/
def fullCache (n : Nat) : State := { idleDev with stm := { desc := (List.range n).map fun d => (d, { cached := true }) } }

theorem fullCache_length (n : Nat) : ((fullCache n).stm.desc.filter fun x => x.2.cached).length = n := by
  rw [List.filter_eq_self.mpr (by simp [fullCache])]
  simp [fullCache]

theorem fullCache_mem (n : Nat) (h : 0 < n) : ((0, { cached := true }) : Nat × DescSt) ∈ (fullCache n).stm.desc := by
  simp [fullCache, h]

theorem wit_StreamTransfers_cache : 65536 ≤ ((fullCache 65536).stm.desc.filter fun x => x.2.cached).length ∧
    (∃ x ∈ (fullCache 65536).stm.desc, x.2.cached = true ∧ x.2.pass = none ∧ x.2.shadow = none) ∧ (idleDev.stm.desc.filter fun x => x.2.cached).length < 65536 :=
  ⟨Nat.le_of_eq (fullCache_length 65536).symm, ⟨_, fullCache_mem 65536 (by omega), rfl, rfl, rfl⟩, by decide⟩

def inPhase (p : Phase) : State := { lineDev 1 with run := { phase := p } }

theorem wit_StrokesAndLock_plain (p : Phase) : PlainEdge (inPhase p) ∧ inRun (inPhase p) = true ∧ (inPhase p).plan = some (linePlan 1) ∧
    ∀ r, ((inPhase p).stroke.count, r) ∉ (inPhase p).stroke.seen :=
  ⟨⟨rfl, ⟨nofun, nofun, nofun⟩, rfl, rfl, .inl rfl⟩, rfl, rfl, fun _ h => nomatch h⟩

theorem wit_StrokesAndLock_phases :
    (inPhase .compute).stroke.slot + 1 - (inPhase .compute).run.slotStart < (linePlan 1).c ∧ (inPhase .compute).red.scaleFind = false ∧ (inPhase .reduction).run.redDone = false ∧
    (linePlan 1).q ≤ ({ inPhase .reduction with stroke := { slot := 7 } } : State).stroke.slot - (inPhase .reduction).run.slotStart + 1 ∧ (linePlan 1).x ≤ (inPhase .exchange).stroke.slot + 1 - (inPhase .exchange).run.slotStart ∧
    (0, 4) ∈ ({ inPhase .compute with stroke := { seen := [(0, 4)] } } : State).stroke.seen ∧ ({ inPhase .reduction with run := { phase := .reduction, redDone := true } } : State).run.redDone = true ∧
    ({ inPhase .distribution with run := { phase := .distribution, distDone := true } } : State).run.distDone = true := by
  and_intros <;> decide +kernel

theorem wit_StrokesAndLock_idle : PlainEdge idleDev ∧ inRun idleDev = false ∧ ∀ r, (idleDev.stroke.count, r) ∉ idleDev.stroke.seen :=
  ⟨⟨rfl, ⟨nofun, nofun, nofun⟩, rfl, rfl, .inr rfl⟩, rfl, fun _ h => nomatch h⟩

/-- Array 3 of core 0 holds work, the others none, at an EASY stroke; and a device without its always-on supply. -/
def easyEdgeDev : State := modArr 0 3 (fun A => { A with queue := [.tbl 0 0] }) { inPhase .compute with stroke := { seen := [(0, 4)] } }

theorem wit_StrokesAndLock_easy :
    0 < enabledCores easyEdgeDev ∧ (arr easyEdgeDev 0 0).queue = [] ∧ (arr easyEdgeDev 0 0).streaming = false ∧ (arr easyEdgeDev 0 0).gap = .none ∧
    (arr easyEdgeDev 0 3).queue ≠ [] ∧ ({ State.reset with pins := { aon := false } } : State).pins.aon = false ∧ State.reset.pins.aon = true ∧
    State.reset.dev = .boot ∧ ({ State.reset with dev := .recovery } : State).dev = .recovery := by
  and_intros <;> decide +kernel

/-- The exchange at its last planned stroke; the results of combining device 2 are in or not. -/
def exchanging (ended : List (Nat × Nat)) : State :=
  { inPhase .exchange with plan := some { linePlan 1 with combiners := [2] }, red := { ended := ended } }

theorem wit_StrokesAndLock_exchange :
    (linePlan 1).x ≤ (exchanging []).stroke.slot + 1 - (exchanging []).run.slotStart ∧ resultsHeld (exchanging [(2, 2)]) 2 = true ∧ resultsHeld (exchanging []) 2 = false := by
  and_intros <;> decide +kernel

/-- An external reference, with the stroke state `x`. -/
def refDev (x : StrokeSt) (e : Word) : State := { idleDev with stroke := x, regs := [(0x4000, e)] }

theorem wit_StrokesAndLock_lock :
    bitN (reg (refDev {} 1) 0x4000) 0 = true ∧ bitN (reg (refDev {} 0) 0x4000) 0 = false ∧ (refDev { master := true, inGood := 16 } 1).stroke.locked = false ∧
    16 ≤ (refDev { master := true, inGood := 16 } 1).stroke.inGood ∧ (refDev { noParent := false, good := 16 } 0).stroke.master = false ∧ 16 ≤ (refDev { noParent := false, good := 16 } 0).stroke.good ∧
    (refDev { locked := true } 0).stroke.locked = true ∧ 16 ≤ (refDev { locked := true, noParent := false, bad := 16 } 0).stroke.bad ∧
    (refDev { locked := true, noParent := false, bad := 15 } 0).stroke.bad < 16 ∧ (refDev {} 0).host.startRing = none ∧ (refDev {} 0).log.waiting < 8191 := by
  and_intros <;> decide +kernel

theorem wit_StrokesAndLock_start :
    (refDev { master := true } 0).stroke.master = true ∧ bitN (reg (refDev { master := true } 0) 0x4000) 0 = false ∧
    ({ refDev { master := true } 0 with host := { startRing := some 3 } } : State).host.startRing.isSome = true ∧
    (refDev { master := true, inGood := 15 } 1).stroke.inGood < 16 ∧ (refDev { noParent := false, good := 15 } 0).stroke.good < 16 := by
  and_intros <;> decide +kernel

theorem wit_GuardPoints :
    inRun (inPhase .boundary) = true ∧ slotUnfinished (inPhase .boundary) = true ∧ easyPhase (inPhase .boundary) = true ∧
    ((inPhase .boundary).stroke.count, myPos (inPhase .boundary)) ∉ (inPhase .boundary).stroke.seen ∧ slotUnfinished (inPhase .compute) = false ∧
    throttleDue (inPhase .compute) = false ∧ inStep idleDev = false ∧ inStep (inPhase .reduction) = true ∧ floodedHold (inPhase .reduction) = 0 ∧
    floodedHold { inPhase .reduction with run := { phase := .reduction, holdDue := 5 } } ≠ 0 ∧ (inPhase .reduction).link.early = [] := by
  and_intros <;> decide +kernel

/-- In the reduction phase at position `me`, these positions' flags in; core 0 has faulted or not. -/
def flagging (me : Nat) (heard : List Nat) (fault : Bool) : State :=
  { lineDev me with run := { phase := .reduction }, cores := [(0, { fault := fault })]
                    link := { (lineDev me).link with ctl := [(ctlFlags, { ctlD ctlFlags with heard := heard })] } }

theorem wit_GuardPoints_flags :
    inStep (flagging 1 [] false) = true ∧ floodedHold (flagging 1 [] false) = 0 ∧ (ctlGet (flagging 1 [] false) ctlFlags).own = false ∧
    (∃ x ∈ (ctlTree (flagging 1 [] false) ctlFlags).2, x ∉ (ctlGet (flagging 1 [] false) ctlFlags).heard) ∧
    (ctlGet (flagging 1 [2] false) ctlFlags).sent = false ∧ (∀ x ∈ (ctlTree (flagging 1 [2] false) ctlFlags).2, x ∈ (ctlGet (flagging 1 [2] false) ctlFlags).heard) ∧
    (ctlTree (flagging 1 [2] false) ctlFlags).1 = some 0 ∧ (ctlTree (flagging 0 [1] false) ctlFlags).1 = none ∧
    (∀ x ∈ (ctlTree (flagging 0 [1] false) ctlFlags).2, x ∈ (ctlGet (flagging 0 [1] false) ctlFlags).heard) := by
  and_intros <;> decide +kernel

theorem wit_GuardPoints_root :
    (ctlGet (flagging 0 [1] false) ctlFlags).acc ||| guardFlags (flagging 0 [1] false) = 0 ∧
    (ctlGet (flagging 0 [1] true) ctlFlags).acc ||| guardFlags (flagging 0 [1] true) = 8 := by
  and_intros <;> decide +kernel

/-- Standing replies to 0x8000 each stroke, one due. -/
def standing (c : Nat) : State := { idleDev with regs := (0x2008, 0x8000) :: (0x2010, 0x10001) :: hostRegs, host := { standCount := c } }

theorem wit_HostAndWedge_standing :
    (standing 1).dev ≠ .boot ∧ (standing 1).dev ≠ .recovery ∧ (standing 1).pwr.state ≠ .g5 ∧ (standing 1).host.stuck = false ∧ bitN (reg (standing 1) 0x2010) 16 = true ∧
    bitsN (reg (standing 1) 0x2010) 0 16 ≤ (standing 1).host.standCount ∧ hostRange (standing 1) (reg (standing 1) 0x2008 + reg (standing 1) 0x200C * 2 ^ 32) 32 = true ∧
    (standing 0).host.standCount < bitsN (reg (standing 0) 0x2010) 0 16 ∧ hostRange { standing 1 with regs := [(0x2010, 0x10001)] } 0 32 = false ∧ (standing 1).host.linkUp = false ∧
    ({ idleDev with host := { linkUp := true } } : State).host.linkUp = true ∧ (∀ x ∈ ({ idleDev with host := { linkUp := true } } : State).host.rings, x.2.queued = []) := by
  and_intros <;> decide +kernel

theorem wit_HostAndWedge_wedge :
    pendingFor ringing .hostInterface = true ∧ pendingFor runDev .lockkeeper = true ∧ pendingFor moving .streamEngine = true ∧ pendingFor idleDev .lockkeeper = false ∧ runDev.dev ≠ .wedged ∧ runDev.log.dropped = 0 := by
  and_intros <;> decide +kernel

/-- Five EASY strokes in a row, the last raised by position 2. -/
def easyDev : State := { lineDev 1 with stroke := { easyRun := 5, lastRaiser := 2 } }

def silentPort : State := { lineDev 1 with link := { (lineDev 1).link with port := [(0, { upPort with catchMissed := 4095 })] } }

theorem wit_LostDevices_easy :
    easyDev.plan = some (linePlan 1) ∧ inRun easyDev = true ∧ (linePlan 1).easyLimit < easyDev.stroke.easyRun ∧ easyDev.run.holdDue = 0 ∧ easyDev.stroke.lastRaiser ∉ easyDev.res.lost ∧
    easyDev.res.journal.length < 8192 ∧ (lineDev 1).stroke.easyRun ≤ (linePlan 1).easyLimit := by
  and_intros <;> decide +kernel

theorem wit_LostDevices_cause :
    max (0 : Fin 3).val (if easyDev.stroke.lastRaiser ≠ myPos easyDev then 0 else if easyDev.adm.waitingHost = true then 1 else 2) = 0 ∧
    max (1 : Fin 3).val (if easyDev.stroke.lastRaiser ≠ myPos easyDev then 0 else if easyDev.adm.waitingHost = true then 1 else 2) = 1 ∧
    recorded easyDev 4 = [] ∧ recorded silentPort 3 = [] := by
  and_intros <;> decide +kernel

/-- A replay at a stroke with recorded decisions of every kind. -/
def replaying : ResSt :=
  { rollback := true, replayJournal := [1, 2, 3, 4].map fun k => { kind := k, step := 0, stroke := 0, pos := 2, arg := 0 } }

theorem wit_LostDevices_recorded :
    recorded { easyDev with res := replaying } 4 ≠ [] ∧ recorded { silentPort with res := replaying } 3 ≠ [] ∧
    recorded { lineDev 1 with res := replaying } 1 ≠ [] ∧ recorded { lineDev 1 with res := replaying } 2 ≠ [] := by
  and_intros <;> decide +kernel

/-- A full journal. -/
def fullJournal : ResSt := { journal := List.replicate 8192 { kind := 1, step := 0, stroke := 0, pos := 0, arg := 0 } }

theorem wit_LostDevices_full :
    8192 ≤ fullJournal.journal.length ∧ recorded { easyDev with res := fullJournal } 4 = [] ∧ easyDev.stroke.lastRaiser ∉ fullJournal.lost ∧
    recorded { silentPort with res := fullJournal } 3 = [] :=
  ⟨Nat.le_of_eq List.length_replicate.symm, rfl, nofun, rfl⟩

theorem wit_LostDevices_heartbeat :
    (port silentPort 0).lost = false ∧ bitsN (reg silentPort 0xA008) 0 12 ≤ (port silentPort 0).catchMissed ∧ 0 ∈ plannedPorts silentPort ∧ (devAt (amended silentPort) (myPos silentPort)).isSome = true ∧
    (port (lineDev 1) 0).catchMissed < bitsN (reg (lineDev 1) 0xA008) 0 12 ∧ 7 ∉ plannedPorts (lineDev 1) := by
  and_intros <;> decide +kernel

theorem wit_LostDevices_declaration :
    (port (lineDev 2) 0).sub0.up = true ∧ (1, 0) ∉ (lineDev 2).res.declared ∧ plannedPeers (lineDev 2) 1 = [0, 2] ∧
    (∀ q ∈ plannedPeers (lineDev 2) 1, q = 0 ∨ (1, q) ∈ ({ lineDev 2 with res := { declared := [(1, 2)] } } : State).res.declared) ∧ 1 ∉ (lineDev 2).res.lost ∧ (port (lineDev 2) 7).sub0.up = false ∧ (port (lineDev 2) 7).sub1.up = false := by
  and_intros <;> decide +kernel

/-- A control reduction sent at stroke 0, at stroke `n`. -/
def stalledDev (n : Nat) : State := { lineDev 1 with stroke := { count := n }, link := { (lineDev 1).link with ctl := [(8, { ctlD 8 with own := true, sent := true })] } }

theorem wit_Deadlines_stall :
    (ctlGet (stalledDev 64) 8).own = true ∧ (ctlGet (stalledDev 64) 8).sent = true ∧ (ctlGet (stalledDev 64) 8).stalled = false ∧ (ctlGet (stalledDev 64) 8).since + 64 ≤ (stalledDev 64).stroke.count ∧
    (stalledDev 63).stroke.count < (ctlGet (stalledDev 63) 8).since + 64 := by
  and_intros <;> decide +kernel

/-- The reduction deadline is due at position `me`. -/
def lateDev (me : Nat) : State := { lineDev me with run := { phase := .reduction }, red := { pass := 1 }, stroke := { count := 4 } }

def leafDev : State := { lateDev 2 with link := { port := [(0, upPort)], route := [(1, 0)] } }

theorem wit_Deadlines_reduction :
    (lateDev 1).run.phase = .reduction ∧ redDue (lateDev 1) = true ∧ (lateDev 1).red.pass ∈ [1, 3, 4] ∧ (∀ id ∈ [ctlMissing, ctlNonfinite, ctlOvf], ∃ x ∈ (ctlTree (lateDev 1) id).2, x ∉ (ctlGet (lateDev 1) id).heard) ∧
    (∀ id ∈ [ctlMissing, ctlNonfinite, ctlOvf], ctlTree leafDev id = (some 1, []) ∧ ctlGet leafDev id = ctlD id) ∧ redDue leafDev = true ∧ routeOf leafDev 1 = some (0, 0) ∧ redDue (lineDev 1) = false := by
  and_intros <;> decide +kernel

theorem wit_Deadlines_first : recorded (lateDev 1) 1 = [] ∧ recorded leafDev 1 = [] := by
  and_intros <;> decide +kernel

def checkDev : State := { lateDev 1 with red := { pass := 2, missing := [0], nfSet := [1], got := [ctlMissing, ctlNonfinite] } }

theorem wit_Deadlines_ovf :
    Arrives checkDev 0 0 (hdrTo 0 3 0 1 0 ctlOvf 16).toNat (leBytes 4 0 ++ leBytes 12 0) 0 3 := by
  constructor <;> decide +kernel

theorem wit_Deadlines_skip :
    (readHdr (hdrTo 0 3 0 1 0 ctlOvf 16).toNat).arg = ctlOvf ∧ checkDev.red.byDeadline = false ∧ checkDev.red.missing = [0] ∧ checkDev.red.nfSet = [1] ∧ checkDev.red.got = [ctlMissing, ctlNonfinite] ∧ (linePlan 1).nfSkip = true := by
  and_intros <;> decide +kernel

def lateDist : State := { lineDev 1 with run := { phase := .distribution }, stroke := { count := 3 } }

theorem wit_Deadlines_distribution :
    lateDist.run.phase = .distribution ∧ lateDist.run.distDone = false ∧ distDue lateDist = true ∧ (∃ f ∈ distLegs lateDist, legSettled lateDist f.id = false) ∧
    lateDist.res.journal.length + (distLegs lateDist).length ≤ 8192 ∧ ((distLegs lateDist).map (·.id)).Nodup ∧ distDue (lineDev 1) = false ∧ recorded lateDist 2 = [] := by
  and_intros <;> decide +kernel

/-- Device 1 sends the distribution to `peer` alone; the state after its leg has failed. -/
def distTo (peer : Nat) : State :=
  { lateDist with plan := some { linePlan 1 with flows := [{ flow 20 true 2 (.descriptor 0) with peer := peer }] } }

def distFailed (peer : Nat) : State :=
  let s := (distLegs (distTo peer)).foldl (fun t f => if legSettled t f.id then t else failLeg f t) (distTo peer)
  { s with res := { s.res with path := lostCode s } }

theorem wit_Deadlines_distribution_tree :
    (ctlGet (distTo 0) ctlDist).own = false ∧ (∃ x ∈ (ctlTree (distFailed 0) ctlDist).2, x ∉ (ctlGet (distTo 0) ctlDist).heard) ∧
    ctlTree (distFailed 2) ctlDist = (some 0, []) ∧ ctlGet (distTo 2) ctlDist = ctlD ctlDist ∧ routeOf (distTo 2) 0 = some (0, 0) ∧
    (subp (distTo 2) 0 0).up = true := by
  and_intros <;> decide +kernel

/-- One SGD piece of 32 BF16 weights in hold, its gradient in region 0; a conversion and a codebook group beside it. -/
def piece0 : Piece := { tensor := 0, layer := 0, opt := 0, fmt := 2, texp := 0, first := 0, elems := 32, cur := 0x40000, curScale := 0, other := 0x41000, otherScale := 0, m1 := 0x42000, m1Scale := 0, m1Fmt := 2, m1Tensor := 1, m2 := 0x43000, m2Scale := 0, m2Fmt := 2, m2Tensor := 2, region := 0 }

def opt0 : OptEntry := { algo := 0, clipEn := false, beta1 := 0, beta2 := 0, eps := 0, wd := 0, clip := 0, knots := [(0, 0)] }

def conv0 : Conv := { tensor := 0, layer := 0, fmt := 2, texp := 0, dims := [32], baxis := 0, srcFmt := 2, fwdStream := false, bwdStream := false, src := 0x40000, srcScale := 0, book := 0, dst := 0x44000, dstScale := 0, res := 0, resScale := 0 }

def book0 : BookGroup := { layer := 0, group := 0, fmt := 2, dims := [32, 2], baxis := 0, src := 0x40000, book := 0x45000 }

def optPlan : Plan := { linePlan 1 with pieces := [piece0], convs := [conv0], books := [book0] }

def optDev (p : Phase) (n : Nat) : State :=
  { lineDev 1 with plan := some optPlan, pkg := some { pkg0 with opts := [opt0] }, run := { phase := p, step := n } }

theorem wit_OptimiserUpdates :
    (optDev .update 0).plan = some optPlan ∧ (optDev .update 0).run.phase = .update ∧ (optDev .update 0).run.skipped = false ∧
    engineNext (0 % 16) optPlan.pieces 0 (sget natD (optDev .update 0).run.upd (0 % 16)) = some (0, 0) ∧ optPlan.pieces[0]? = some piece0 ∧ optEntry (optDev .update 0) piece0.opt = some opt0 ∧
    fmtOfCode piece0.fmt = some .bf16 ∧ engineNext (1 % 16) optPlan.pieces 0 (sget natD (optDev .update 0).run.upd (1 % 16)) ≠ some (0, 1) ∧ (optDev .compute 0).run.phase ≠ .update := by
  and_intros <;> decide +kernel

theorem wit_OptimiserUpdates_plain : ∀ j, j < 64 → plainAddr (piece0.other + 64 * 0 + j) := fun j h =>
  ⟨fun x => absurd x.1 (by simp [piece0, sharedBase]; omega), fun x => absurd x.1 (by simp [piece0]; omega)⟩

theorem wit_WeightConversions :
    (optDev .compute 0).plan = some optPlan ∧ (optDev .compute 0).run.phase = .compute ∧ optPlan.convs.filter (fun c => c.tensor == 0) = [conv0] ∧ (convWrites (optDev .compute 0) [conv0]).length = 1 ∧
    (optDev .compute 0).pkg = some { pkg0 with opts := [opt0] } ∧ pkg0.layers[0]? = some layer0 ∧ layer0.cbPeriod ≠ 0 ∧ bookStep (optDev .compute 0) % layer0.cbPeriod = 0 ∧
    bookStep (optDev .distribution 1) % layer0.cbPeriod = 0 ∧ optPlan.books.find? (fun b => b.layer == 0 && b.group == 0) = some book0 ∧ bookStep (optDev .compute 1) % layer0.cbPeriod ≠ 0 ∧
    (optDev .update 0).run.phase ≠ .compute := by
  and_intros <;> decide +kernel

/-- The codebook of layer 0 that step 0 needs is built or not. -/
def bookDev (done : List (Nat × Nat × Nat)) : State := { optDev .compute 0 with run := { phase := .compute, booksDone := done } }

theorem wit_WeightConversions_books :
    booksReady (bookDev []) optPlan 0 = false ∧ bookPeriod (bookDev [(0, 0, 0)]) 0 = 2 ∧ bookPeriod (bookDev []) 1 = 0 ∧
    (∀ g ∈ optPlan.books, g.layer = 0 → ((bookDev [(0, 0, 0)]).run.step, 0, g.group) ∈ (bookDev [(0, 0, 0)]).run.booksDone) ∧
    booksReady (bookDev [(0, 0, 0)]) optPlan 0 = true := by
  and_intros <;> decide +kernel

def source0 (next weight : Nat) : Source :=
  { weight := weight, seqMax := 128, seed := 1, ring := 0, log2 := 8, prod := 0, cons := 0x8000, credit := 0, next := next, admitted := 0, released := 0 }

/-- Sources 0 and 1 with equal credit; position 0 reads, position 1 does not; slot 0 is in use. -/
def admDev (me : Nat) (wait : Bool) : State :=
  { lineDev me with pkg := some pkg0, sources := [(0, some (source0 5 3)), (1, some (source0 5 3))], run := { phase := .compute }
                    adm := { waitingHost := wait, slots := [(0, { slotD 0 with state := 1 })] } }

theorem wit_AdmissionPicks :
    admitting (admDev 0 false) = true ∧ (admDev 0 false).adm.pick = none ∧ source (admDev 0 false) 0 = some (source0 5 3) ∧ (source0 5 3).credit + (source0 5 3).weight = (source0 5 3).credit + (source0 5 3).weight ∧
    (slot (admDev 0 false) 1).state = 0 ∧ (∀ j, j < 1 → (slot (admDev 0 false) j).state ≠ 0) ∧ isReader (admDev 0 false) = true ∧ (5 : DWord).toNat ≤ (source0 5 3).next ∧ (source0 5 3).next < (6 : DWord).toNat ∧
    (admDev 0 true).adm.waitingHost = true ∧ (admDev 0 false).adm.waitingHost = false ∧ isReader { admDev 0 false with plan := some { linePlan 0 with positions := [] } } = false ∧ admitting idleDev = false := by
  and_intros <;> decide +kernel

theorem wit_AdmissionPicks_greatest :
    ∀ i, i < 16 → ∀ y, source (admDev 0 false) i = some y → y.credit + y.weight = (source0 5 3).credit + (source0 5 3).weight ∧ 0 ≤ i := fun i h => by
  have key : ∀ i, i < 16 → source (admDev 0 false) i = none ∨ source (admDev 0 false) i = some (source0 5 3) := by decide +kernel
  intro y hy
  rcases key i h with e | e
  · rw [e] at hy; cases hy
  · rw [e] at hy; cases hy; exact ⟨rfl, Nat.zero_le _⟩

/-- A picked sample of source 0 for slot 1. -/
def pickedDev : State := { admDev 0 false with adm := { pick := some (0, 5, 1), slots := [(1, { slotD 0 with state := 1 })] } }

/-- A sample descriptor of `n` tokens. -/
def sampleDesc (n : Nat) : List Byte := leBytes 8 0x9000 ++ leBytes 4 n ++ leBytes 4 0 ++ leBytes 8 77 ++ leBytes 8 0

theorem wit_SampleTokens :
    admitting pickedDev = true ∧ pickedDev.adm.pick = some (0, 5, 1) ∧ pickedDev.pkg = some pkg0 ∧ pickedDev.plan = some (linePlan 0) ∧ source pickedDev 0 = some (source0 5 3) ∧
    sampleCode pkg0 128 (leAt (sampleDesc 129) 8 4) [] = 1 ∧ sampleCode pkg0 128 (leAt (sampleDesc 1) 8 4) [7] = 2 ∧ sampleCode pkg0 128 (leAt (sampleDesc 2) 8 4) (tokensOf 2 (leBytes 4 0xFFFFFFFF ++ leBytes 4 0)) = 3 ∧
    sampleCode pkg0 128 (leAt (sampleDesc 128) 8 4) (tokensOf 2 (List.replicate 8 0)) = 0 ∧ isReader pickedDev = true ∧ (source0 5 3).cons ≠ 0 := by
  and_intros <;> decide +kernel

theorem wit_SampleTokens_asked : isReader pickedDev = true ∧ 2 ≤ leAt (sampleDesc 128) 8 4 ∧ leAt (sampleDesc 128) 8 4 ≤ (source0 5 3).seqMax := by
  and_intros <;> decide +kernel

/-- The end of a step, its work committed (cause 0) or held. -/
def boundary (c : Nat) : State :=
  { lineDev 1 with
    plan := some { linePlan 1 with admissible := (List.range 64).map fun k => (k, 0xFF) }, pkg := some pkg0, regs := [(0xA004, 7)]
    run := { phase := .boundary, step := 3, limit := 0xFFFFFFFF, heldCause := c } }

theorem wit_StepBoundaries :
    (boundary 0).run.phase = .boundary ∧ (boundary 0).run.boundDone = false ∧ (boundary 0).run.boundWait = false ∧ (boundary 0).dev = .running ∧
    (boundary 0).run.heldCause = 0 ∧ (boundary 0).host.rwPlan = none ∧ resultsHeld (boundary 0) 1 = true ∧ resultsHeld (boundary 0) 2 = true ∧
    (boundary 3).run.heldCause ≠ 0 ∧ resultsHeld (boundary 3) 2 = true ∧ idleDev.run.phase ≠ .boundary ∧
    resultsHeld { boundary 0 with plan := some { linePlan 1 with combiners := [2] } } 2 = false := by
  and_intros <;> decide +kernel

theorem wit_StepBoundaries_held : QuietEnd (heldStart (boundary 3)) := by
  constructor <;> decide +kernel

theorem wit_StepBoundaries_quiet :
    (decided (boundary 0)).run.planDue = false ∧ (boundary 0).res.rollback = false ∧ (exchanged (boundary 0)).paths = [] ∧ (boundary 0).res.lost = [] ∧
    (boundary 0).res.path = 0 ∧ (boundary 0).res.secureDue = false ∧ (boundary 0).run.secured = false ∧ (boundary 0).host.rwPause = [] ∧
    (boundary 0).host.rwSecure = [] ∧ (exchanged (boundary 0)).pause = false ∧ (exchanged (boundary 0)).secure = false ∧
    (exchanged (boundary 0)).hostLost = false ∧ (boundary 0).run.limit = 0xFFFFFFFF := by
  and_intros <;> decide +kernel

/-- A PLAN of ring 4 waits; every device holds it or not, and this one carried it into the exchange. -/
def planHeldDev (held : Bool) : State :=
  { boundary 0 with host := { rwPlan := some { ring := 4, pins := [], regs := [(0x4004, 0xFA0)] } }
                    run := { (boundary 0).run with carried := [4] }, red := { results := [(ixDev, .dev { planHeld := held })] } }

theorem wit_StepBoundaries_plan :
    (exchanged (planHeldDev true)).planHeld = true ∧ 4 ∈ (planHeldDev true).run.carried ∧ (exchanged (planHeldDev false)).planHeld = false ∧
    4 ∉ ({ planHeldDev true with run := (boundary 0).run } : State).run.carried := by
  and_intros <;> decide +kernel

/-- A stop that this device waits for, with the results of its image and weight digest. -/
def stopping (due : Nat) (kept wsum : Option Nat) : State :=
  { lineDev 1 with pkg := some pkg0, dev := .securing, run := { holdDue := due }, res := { keptRes := kept, wsumRes := wsum } }

theorem wit_SecureStops :
    (stopping 0 (some 1) (some 7)).plan = some (linePlan 1) ∧ (stopping 0 (some 1) (some 7)).pkg = some pkg0 ∧ (stopping 0 (some 1) (some 7)).dev = .securing ∧
    (stopping 0 (some 1) (some 7)).res.stopWaits = false ∧ (stopping 0 (some 1) (some 7)).run.secLeft = 0 ∧ (stopping 0 (some 1) (some 7)).run.holdDue = 0 ∧
    (stopping 0 (some 1) (some 7)).res.paths = [] ∧ (stopping 0 (some 1) (some 7)).res.keptRes = some 1 ∧ (stopping 0 (some 1) (some 7)).res.wsumRes = some 7 ∧
    (stopping 0 (some 1) (some 7)).run.fin.hold = 0 ∧ (stopping 0 (some 1) (some 7)).res.path = 0 ∧ (stopping 0 (some 1) (some 7)).res.rollback = false := by
  and_intros <;> decide +kernel

theorem wit_SecureStops_waits :
    (stopping 0 (some 0) (some 7)).res.keptRes = some 0 ∧ (stopping 0 none (some 7)).res.keptRes = none ∧ (stopping 5 none none).run.holdDue ≠ 0 ∧
    (stopping 5 none none).link.early = [] ∧ idleDev.dev ≠ .securing := by
  and_intros <;> decide +kernel

/-- A state with commands waiting. -/
def queued : State := { idleDev with pending := [.strokeEdge, .thermTrip] }

theorem wit_StepRunsFront :
    queued.pending = .strokeEdge :: [.thermTrip] ∧ State.reset.pending = [] := ⟨rfl, rfl⟩

/-- A state that is not the reset state, with the invariant, from which a step answers a next state. -/
def invState : State :=
  { idleDev with pending := [.thermTrip], regs := [(0x10, 5), (0x4004, 0xFA0)], mem := { data := [⟨0x40, 7⟩], poison := [(0x40, true)] }
                 cnt := { exact := [(cntDev 0, 2 ^ 48 - 1)] } }

theorem wit_InvariantKept : Inv invState ∧ ∃ t, step invState = .next t :=
  ⟨⟨by decide +kernel, by decide +kernel, by unfold countersOk; decide +kernel, by decide, by decide, by decide⟩, _, rfl⟩

theorem wit_OptimiserEquations :
    opt0.algo = 0 ∧ ({ opt0 with algo := 1 } : OptEntry).algo = 1 ∧ ({ opt0 with algo := 2 } : OptEntry).algo = 2 ∧ vIsNan (dec32 nan32) = true ∧ vIsNan (dec32 one32) = false ∧
    lt32 (neg32 one32) 0 = true ∧ lt32 0 one32 = true ∧ lt32 0 0 = false := by
  and_intros <;> decide +kernel

/-! ### Well-formedness refuses: one ill-formed command for each check -/

theorem test_wf_packet_body_not_words :
    Instr.wf (.packetForward 0 0 0 (List.replicate 6 0)) = false := by decide +kernel

theorem test_wf_packet_body_too_long :
    Instr.wf (.data 0 0 0 (List.replicate 2032 0)) = false := by decide +kernel

theorem test_wf_marker_phase :
    Instr.wf (.catchMarker 0 0 0 [] (2 ^ 31)) = false := by decide +kernel

theorem test_wf_entry_size :
    Instr.wf (.sqEntryFetched 0 (.ok (List.replicate 60 0))) = false := by decide +kernel

theorem test_wf_scrub_outside_unit :
    Instr.wf (.scrubRead (.hold 1) 0 .clean) = false := by decide +kernel

theorem test_wf_scrub_other_controller :
    Instr.wf (.scrubRead (.lpddr 1) 0x100000000000 .clean) = false := by decide +kernel

theorem test_wf_firmware_length (d : List Byte) (h : 2 ^ 24 < d.length) : Instr.wf (.fwWrite 0 ⟨d, false⟩) = false := by
  simp only [Instr.wf, decide_eq_false_iff_not]; omega

theorem test_wf_guard_core :
    Instr.wf (.guardPoint [384]) = false := by decide +kernel

theorem test_wf_doorbell_offset :
    Instr.wf (.sqTail 0 2 0) = false := by decide +kernel

theorem test_wf_alias_offset :
    Instr.wf (.aliasWrite 2 0) = false := by decide +kernel

theorem test_wf_register_size :
    Instr.wf (.registerWrite 0 3 0) = false := by decide +kernel

theorem test_wf_register_misaligned :
    Instr.wf (.registerWrite 4 8 0) = false := by decide +kernel

theorem test_wf_bar4_read_empty :
    Instr.wf (.bar4Read 0 0 .clean) = false := by decide +kernel

theorem test_wf_bar4_read_long :
    Instr.wf (.bar4Read 0 4097 .clean) = false := by decide +kernel

theorem test_wf_bar4_write_empty :
    Instr.wf (.bar4Write 0 []) = false := by decide +kernel

theorem test_wf_temperature :
    Instr.wf (.lpddrTempRead 0 256) = false := by decide +kernel

theorem test_wf_sample_descriptor :
    Instr.wf (.sampleTokensRead [] []) = false := by decide +kernel

theorem test_wf_frame_size :
    Instr.wf (.frameReceived 0 0 [] false []) = false := by decide +kernel

theorem test_wf_frame_corrections :
    Instr.wf (.frameReceived 0 0 (List.replicate 256 0) false [1, 2, 3, 4, 5]) = false := by decide +kernel

theorem test_wf_lane_sequence :
    Instr.wf (.laneDrop 0 0 4096) = false := by decide +kernel

theorem test_wf_port_latency :
    Instr.wf (.portTrained 0 0 ⟨0, 0, 0, 0⟩ (2 ^ 16) 4) = false := by decide +kernel

theorem test_wf_sensor_readings :
    Instr.wf (.sensorSample []) = false := by decide +kernel

theorem test_wf_challenge_nonce :
    Instr.wf (.spdmChallenge .doe []) = false := by decide +kernel

theorem test_wf_measurement_nonce :
    Instr.wf (.spdmGetMeasurements .mctp 0 []) = false := by decide +kernel

theorem test_wf_package_length (d : List Byte) (h : 2 ^ 48 ≤ d.length) : Instr.wf (.loadPackage 0 ⟨d, false⟩) = false := by
  simp only [Instr.wf, decide_eq_false_iff_not]; omega

theorem test_wf_restore_length (d : List Byte) (h : 2 ^ 48 ≤ d.length) : Instr.wf (.restore 0 ⟨d, false⟩) = false := by
  simp only [Instr.wf, decide_eq_false_iff_not]; omega

theorem test_wf_plan_length (d : List Byte) (h : 2 ^ 32 ≤ d.length) : Instr.wf (.plan 0 ⟨d, false⟩ ⟨[], false⟩) = false := by
  simp only [Instr.wf, Bool.and_eq_false_iff, decide_eq_false_iff_not]; omega

theorem test_wf_copy_length (d : List Byte) (h : 2 ^ 32 ≤ d.length) : Instr.wf (.copy 0 ⟨d, false⟩ []) = false := by
  simp only [Instr.wf, decide_eq_false_iff_not]; omega

theorem test_wf_transfer_length (d : List Byte) (h : 2 ^ 32 ≤ d.length) : Instr.wf (.streamTransferComplete 0 0 ⟨d, false⟩ .clean) = false := by
  simp only [Instr.wf, decide_eq_false_iff_not]; omega

theorem test_wf_accepts :
    Instr.wf (.scrubRead (.hold 1) 0x2000000 .clean) = true ∧ Instr.wf (.scrubRead (.lpddr 1) 0x100000000080 .clean) = true ∧
    Instr.wf (.data 0 0 0 (List.replicate 2028 0)) = true ∧ Instr.wf (.registerWrite 8 8 0) = true ∧ Instr.wf (.bar4Read 0 4096 .clean) = true := by
  and_intros <;> decide +kernel

/-! ### The manual's own examples -/

/-- The 32 source values of "A block converted" (02), as multiples of 2^-20. -/
def convBlock : List Val :=
  [.fin false 314573 (-20), .fin true 125829 (-20), .fin false 996147 (-20), vZero false, .fin false 1468006 (-20), .fin true 2202010 (-20), .fin false 52429 (-20), .fin false 524288 (-20)] ++
  [.fin false 13107200 (-20), .fin true 734003 (-20), .fin false 3460301 (-20), .fin false 209715 (-20), .fin true 5138022 (-20), .fin false 922747 (-20), .fin true 31457 (-20), .fin false 2726298 (-20)] ++
  [.fin false 471859 (-20), .fin true 1101005 (-20), vZero false, .fin false 6081741 (-20), .fin true 513802 (-20), .fin false 167772 (-20), .fin false 7444890 (-20), .fin true 3145728 (-20)] ++
  [.fin false 639631 (-20), .fin false 2086666 (-20), .fin true 272630 (-20), .fin false 9437184 (-20), .fin false 104858 (-20), .fin true 6501171 (-20), .fin false 775946 (-20), .fin false 1048576 (-20)]

/-- "A block converted" (02): the element plane and the scale byte. -/
theorem test_blockConverted_planes :
    packCodes 4 (quantBlock .mxe2m1 convBlock).codes =
    [0x80, 0x01, 0xA1, 0x00, 0x97, 0x03, 0x1C, 0x38, 0x90, 0x50, 0x08, 0xB6, 0x21, 0x68, 0xD0, 0x11] ∧ (quantBlock .mxe2m1 convBlock).scale = 0x80 := by decide +kernel

/-- "A block converted" (02): two zeros, eleven vanished elements, no saturation. -/
theorem test_blockConverted_classes :
    ((quantBlock .mxe2m1 convBlock).classes.filter (· = .zero)).length = 2 ∧ ((quantBlock .mxe2m1 convBlock).classes.filter (· = .vanished)).length = 11 ∧
    ((quantBlock .mxe2m1 convBlock).classes.filter (· = .saturated)).length = 0 := by decide +kernel

/-- The worked example of 04: 0x3F80_1234 rounds up from the slice 60,876. -/
theorem test_stochastic_bf16 :
    (srScalar fmtBF16 60875 (dec32 0x3F801234)).1 = 0x3F80 ∧ (srScalar fmtBF16 60876 (dec32 0x3F801234)).1 = 0x3F81 := by decide +kernel

/-- The worked example of 04: beside a largest magnitude of about 0.1, 0x3C49_BA5E rounds up from the slice 25,691. -/
theorem test_stochastic_mxfp8 :
    (srBlock .mxe4m3 [25690, 0] [dec32 0x3C49BA5E, dec32 0x3DCCCCCD]).codes.head? = some 0x64 ∧
    (srBlock .mxe4m3 [25691, 0] [dec32 0x3C49BA5E, dec32 0x3DCCCCCD]).codes.head? = some 0x65 := by decide +kernel

/-- The example of R433: cores 17, 42, 63 and 88 fused off. -/
theorem test_numbering :
    [0, 16, 17, 40, 41, 50, 60, 61, 84, 85, 95].map (physCore { State.reset with fuses := { coresOff := 2 ^ 17 + 2 ^ 42 + 2 ^ 63 + 2 ^ 88 } }) =
    [0, 16, 18, 41, 43, 52, 62, 64, 87, 89, 99] := by decide +kernel

/-- R433: the window of logical core 50. -/
theorem test_coreWindow :
    coreWindow 50 = 0x1640000 := rfl

/-- The table of R42: the largest finite codes. -/
theorem test_formats_largest :
    vEq (decFloat fmtFP16 0x7BFF) (.fin false 65504 0) = true ∧ vEq (decFloat fmtE4M3 0x7E) (.fin false 448 0) = true ∧ vEq (decFloat fmtE5M2 0x7B) (.fin false 57344 0) = true ∧
    maxMag fmtBF16 = 0x7F7F ∧ maxMag fmtFP32 = 0x7F7FFFFF := by decide +kernel

/-- R42 and R46: the canonical NaNs, and a block of scale 0xFF. -/
theorem test_formats_nan :
    vIsNan (mxVal .mxe2m1 0xFF 0) = true ∧ canonNan fmtE4M3 = 0x7F ∧ canonNan fmtE5M2 = 0x7E ∧ canonNan fmtFP16 = 0x7E00 ∧ canonNan fmtBF16 = 0x7FC0 := by decide +kernel

/-- R43: a subnormal is flushed in FP16 and kept in FP32. -/
theorem test_formats_flushed :
    decFloat fmtFP16 0x83FF = vZero true ∧ decFloat fmtFP32 1 = .fin false 1 (-149) := by decide +kernel

/-- R168: ADD and SUB wrap, a shift takes six bits, SLT is signed and SLTU is not. -/
theorem test_alu_wraps :
    aluFn 0 (2 ^ 64 - 1) 1 = 0 ∧ aluFn 1 0 1 = 2 ^ 64 - 1 ∧ aluFn 7 (2 ^ 64 - 8) 65 = 2 ^ 64 - 4 ∧ aluFn 11 (2 ^ 64 - 1) 0 = 1 ∧ aluFn 12 (2 ^ 64 - 1) 0 = 0 := by decide +kernel

theorem wit_BlockScales :
    (0 : Nat) ≤ 254 ∧ 254 ≤ 254 := by decide

end Sys2Proof.Machine.Tests
end

section
/-! PROOFS. LD and ST of scratch (R9, R159, R165, R173, R250, R253). -/

namespace Sys2Proof.Machine

open Sys2Proof

/-! ### Rows -/

theorem exec_movLd (c : CoreId) (t : ThreadId) (w : InstrWord) (s : State) :
    exec (.movLd c t w) s = execMovLd c t w s := rfl
theorem exec_movSt (c : CoreId) (t : ThreadId) (w : InstrWord) (s : State) :
    exec (.movSt c t w) s = execMovSt c t w s := rfl

theorem mSize_pos (w : InstrWord) : 0 < mSize w := Nat.two_pow_pos _

/-- The SIZE field has 2 bits. -/
theorem mSize_le (w : InstrWord) : mSize w ≤ 8 := by
  have h : iF w 33 2 < 2 ^ 2 := Nat.mod_lt _ (by decide)
  exact Nat.pow_le_pow_right (i := iF w 33 2) (j := 3) Nat.two_pos (by omega)

/-- The range check of a scalar access passes where its bytes may be accessed. -/
theorem scalarRange_zero {s : State} {c t : Nat} {w : InstrWord}
    (h : InScratch s c t (mAddr s c t w) (mSize w) (mSize w)) :
    ∀ x ∈ [rangeCause s c t [(mAddr s c t w, mSize w, mSize w)]], x = 0 := by
  simpa using rangeCause_zero (l := [(mAddr s c t w, mSize w, mSize w)]) (by simpa using ⟨mSize_pos w, h⟩)

/-- A ready LD in range loads once its thread has gone on. -/
theorem execMovLd_ready {c : CoreId} {t : ThreadId} {w : InstrWord} {s : State} (hr : Ready s c t w)
    (hw : Codes w 4 0 [(24, 32)]) (ha : InScratch s c t (mAddr s c t w) (mSize w) (mSize w)) :
    execMovLd c t w s = .next (movLoad c t w (advance c t s)) :=
  congrArg Host.Outcome.next (issueMov_runs hr hw (by decide) (scalarRange_zero ha))

/-- A ready ST in range stores once its thread has gone on. -/
theorem execMovSt_ready {c : CoreId} {t : ThreadId} {w : InstrWord} {s : State} (hr : Ready s c t w)
    (hw : Codes w 4 1 [(24, 11), (36, 20)]) (ha : InScratch s c t (mAddr s c t w) (mSize w) (mSize w)) :
    execMovSt c t w s = .next (movStore c t w (advance c t s)) :=
  congrArg Host.Outcome.next (issueMov_runs hr hw (by decide) (scalarRange_zero ha))

/-! ### Poison in the source (R253) -/

theorem thread_movPoison (c a n : Nat) (s : State) (d v : Nat) : thread (movPoison c a n s) d v = thread s d v := by
  unfold movPoison; split
  · exact thread_corePoison ..
  · rfl

theorem memByte_movPoison (c a n : Nat) (s : State) {x : Nat} (hx : ¬ logRing x) :
    memByte (movPoison c a n s) x = memByte s x := by
  unfold movPoison; split
  · exact memByte_corePoison c _ _ s hx
  · rfl

theorem movPoison_clean {c a n : Nat} {s : State} (h : anyPoison s (scratchAddr c a) n = false) : movPoison c a n s = s := by
  simp [movPoison, h]

theorem movPoison_flag {c a n : Nat} {s : State} (h : anyPoison s (scratchAddr c a) n = true) (hr : inRun s = true) :
    (core (movPoison c a n s) c).poison = true := by
  rw [movPoison, if_pos h]; exact poison_corePoison c 5 _ s hr

/-! ### LD -/

theorem memByte_advance (c t : Nat) (s : State) {x : Nat} (hx : ¬ logRing x) : memByte (advance c t s) x = memByte s x :=
  (ThreadOnly.advance c t s).mem x hx

/-- Bytes of a core's scratch read alike after an issue, whose count may write the event log alone. -/
theorem scrBytes_advance {c : CoreId} {a n : Nat} (t : Nat) (s : State) (h : a + n ≤ 0x100000) :
    scrBytes (advance c t s) c a n = memBytes s (scratchAddr c a) n :=
  scrBytes_congr c h fun _ hx => memByte_advance c t s hx

/-- What LD gives its register: the little-endian number at its address, sign-extended where SEXT is set (R9, R165). -/
def loaded (s : State) (c t : Nat) (w : InstrWord) : Nat :=
  let v := leNat (memBytes s (scratchAddr c (mAddr s c t w)) (mSize w))
  if mSext w then toTwos 64 (sInt (8 * mSize w) v) else v

theorem movLoad_advance {c : CoreId} {t : ThreadId} {w : InstrWord} {s : State} (h : mAddr s c t w + mSize w ≤ 0x100000) :
    movLoad c t w (advance c t s) =
      setS c t (mSreg w) (loaded s c t w) (movPoison c (mAddr s c t w) (mSize w) (advance c t s)) := by
  simp only [movLoad, loaded, mAddr_advance, scrBytes_advance t s h]

theorem WritesNone.of_thread {c t : Nat} {s u v : State} (h : WritesNone c t s u) (e : thread v c t = thread u c t) :
    WritesNone c t s v := by
  refine ⟨fun m => ?_, fun m => ?_⟩
  · rw [← h.1]; simp only [sReg, e]
  · rw [← h.2]; simp only [aReg, e]

/-- LD: the register, the frame, and where poison goes (R9, R159, R165, R253). -/
theorem movLd_spec {c : CoreId} {t : ThreadId} {w : InstrWord} {s : State} (hr : Ready s c t w)
    (hw : Codes w 4 0 [(24, 32)]) (ha : InScratch s c t (mAddr s c t w) (mSize w) (mSize w)) :
    ∃ u, exec (.movLd c t w) s = .next u ∧ WentOn s u c t ∧ WritesS c t (mSreg w) (loaded s c t w) s u ∧
      (∀ x, ¬ logRing x → memByte u x = memByte s x) ∧ (∀ v, v ≠ t.val → thread u c v = thread s c v) ∧
      (anyPoison s (scratchAddr c (mAddr s c t w)) (mSize w) = false → Issued c t s u) ∧
      (anyPoison s (scratchAddr c (mAddr s c t w)) (mSize w) = true → inRun s = true → (core u c).poison = true) := by
  refine ⟨_, (exec_movLd c t w s).trans (execMovLd_ready hr hw ha), ?_⟩
  rw [movLoad_advance ha.2.1]
  set p := movPoison c (mAddr s c t w) (mSize w) (advance c t s) with hp
  have thr : ∀ v, thread p c v = thread (advance c t s) c v := thread_movPoison _ _ _ _ _
  refine ⟨?_, ?_, fun x hx => ?_, fun v hv => ?_, fun h => ?_, fun h hrun => ?_⟩
  · unfold WentOn; rw [pc_setS, thr, pc_advance]
  · exact WritesS.setS _ _ _ _ _ _ ((WritesNone.advance c t s).of_thread (thr t))
  · rw [memByte_setS, hp, memByte_movPoison _ _ _ _ hx, memByte_advance _ _ _ hx]
  · rw [thread_setS_ne hv, thr]; exact (ThreadOnly.advance c t s).threads v hv
  · rw [hp, movPoison_clean (by rw [anyPoison_advance, h])]; exact (Issued.advance c t s).setS ..
  · rw [core_setS]; exact movPoison_flag (by rw [anyPoison_advance, h]) (by rw [inRun_advance, hrun])

/-! ### ST -/

/-- A code word of scratch has 64 bytes (R251). -/
theorem wordBytes_scratch (s : State) {x : Nat} (h0 : 0x1000000000 ≤ x) (h1 : x < 0x1006000000) :
    wordBytes s x = (List.range 64).map (x + ·) := by
  unfold wordBytes lpddrBase
  rw [if_neg (by omega), if_pos ⟨h0, h1⟩]

/-- A write of less than a code word into scratch leaves every poison mark (R251). -/
theorem poison_memWrite_scratch {c : CoreId} {a : Nat} {l : List Byte} (s : State) (hl : l.length < 64) (h : a + l.length ≤ 0x100000) :
    (memWrite (scratchAddr c a) l s).mem.poison = s.mem.poison := by
  have none : ∀ x ∈ (List.range l.length).map (scratchAddr c a + ·), ¬ (codeWord s x == x && (wordBytes s x).all fun y =>
      decide (scratchAddr c a ≤ y) && decide (y < scratchAddr c a + l.length)) = true := by
    intro x hx
    obtain ⟨i, hi, rfl⟩ := List.mem_map.1 hx
    have hi := List.mem_range.1 hi
    have := c.isLt
    rw [wordBytes_scratch s (by unfold scratchAddr; omega) (by unfold scratchAddr; omega)]
    simp only [Bool.and_eq_true, List.all_eq_true, List.mem_map, List.mem_range, decide_eq_true_eq]
    rintro ⟨-, hall⟩
    have := hall _ ⟨63, by decide, rfl⟩
    omega
  unfold memWrite
  rw [List.filter_eq_nil_iff.2 none]
  rfl

/-- Bytes written into a core's scratch by an instruction that has issued. -/
theorem stored_memWrite (c : CoreId) (t : ThreadId) {a : Nat} {l : List Byte} (s : State) (h : a + l.length ≤ 0x100000) :
    Stored c t (scratchAddr c a) l s (memWrite (scratchAddr c a) l (advance c t s)) := by
  have only := ThreadOnly.advance c t s
  have plain : ∀ i, i < l.length → plainAddr (scratchAddr c a + i) := fun i hi => by
    rw [scratchAddr_add]; exact scratch_plain (by omega)
  exact
    { went := pc_advance s c t
      thread := by rw [thread_memWrite, thread_advance]
      core := only.core
      threads := only.threads
      cores := only.cores
      rest := by rw [memWrite, only.rest]
      host := only.host
      written := memBytes_memWrite _ _ _ plain
      mem := fun x hx hout => (memByte_memWrite_ne _ _ _ hout).trans (memByte_advance c t s hx) }

/-- ST: its bytes and the frame (R9, R159, R165, R251). -/
theorem movSt_spec {c : CoreId} {t : ThreadId} {w : InstrWord} {s : State} (hr : Ready s c t w)
    (hw : Codes w 4 1 [(24, 11), (36, 20)]) (ha : InScratch s c t (mAddr s c t w) (mSize w) (mSize w)) :
    ∃ u, exec (.movSt c t w) s = .next u ∧
      Stored c t (scratchAddr c (mAddr s c t w)) (leBytes (mSize w) (sReg s c t (mSreg w))) s u ∧
      u.mem.poison = s.mem.poison := by
  have hin := ha.2.1
  have len : (leBytes (mSize w) (sReg s c t (mSreg w))).length = mSize w := length_leBytes ..
  have small := mSize_le w
  refine ⟨_, (exec_movSt c t w s).trans (execMovSt_ready hr hw ha), ?_⟩
  unfold movStore scrWrite
  rw [mAddr_advance, sReg_advance]
  refine ⟨stored_memWrite c t s (by omega), ?_⟩
  rw [poison_memWrite_scratch _ (by omega) (by omega), (ThreadOnly.advance c t s).rest]

/-- Settles O12: LD by the register write after the poison of its source, ST by the write of its bytes. -/
theorem scratchAccess : Obligations.ScratchAccess :=
  ⟨fun _ _ _ _ hr hw ha => movLd_spec hr hw ha, fun _ _ _ _ hr hw ha => movSt_spec hr hw ha⟩

end Sys2Proof.Machine
end

section
/-! PROOFS. Ring commands refused in WEDGED, by encoding and by state (R17, R342, R343, R349, R350, R353). -/

namespace Sys2Proof.Machine

open Sys2Proof

/-! ### The checks common to ring commands -/

/-- A row of R342: the command, its operation, the encodings of its entry, and what its states answer. -/
abbrev RingRow := Instr × Nat × (List Byte → Bool) × (State → Option Nat)

/-- The refusals of a row on ring `q`: WEDGED, then RESERVED, then the code of the state (R342, R353). -/
def Refuses (q : RingId) (s : State) : RingRow → Prop := fun (i, op, enc, st) =>
  ∀ e, frontEntry s q op = some e →
    (s.dev = .wedged → op ≠ 0x3F → exec i s = .next (complete q 0xFE [] s)) ∧
    (s.dev ≠ .wedged → (zeroAt e 1 1 && zeroAt e 4 4 && enc e) = false → exec i s = .next (complete q 1 [] s)) ∧
    (s.dev ≠ .wedged → (zeroAt e 1 1 && zeroAt e 4 4 && enc e) = true → ∀ code, st s = some code →
      exec i s = .next (complete q code [] s))

section
variable {q : RingId} {s : State} {i : Instr} {op : Nat} {enc : List Byte → Bool} {st : State → Option Nat}
  {body : List Byte → State → State}

/-- A command that is `ringCommand`, and then what leaves a refused command as it is, refuses by `ringCommand`'s checks. -/
theorem Refuses.after {g : State → State} (hg : ∀ code, g (complete q code [] s) = complete q code [] s)
    (hx : exec i s = .next (g (ringCommand q op enc st body s))) : Refuses q s (i, op, enc, st) := by
  intro e he
  obtain ⟨hwedged, hreserved, hstate⟩ := ringCommand_checks (enc := enc) (st := st) (body := body) he
  refine ⟨fun h1 h2 => ?_, fun h1 h2 => ?_, fun h1 h2 code h3 => ?_⟩
  · rw [hx, hwedged h1 h2, hg]
  · rw [hx, hreserved h1 h2, hg]
  · rw [hx, hstate h1 h2 code h3, hg]

theorem Refuses.ofRing (hx : exec i s = .next (ringCommand q op enc st body s)) : Refuses q s (i, op, enc, st) :=
  .after (g := id) (fun _ => rfl) hx

/-- A reply does not advance the link epoch, for which packets may wait (R282). -/
theorem atEpoch_complete (q code : Nat) (payload : List Byte) (s : State) :
    atEpoch s (complete q code payload s) = complete q code payload s :=
  atEpoch_same (by rw [(HostOnly.complete q code payload s).rest])

theorem Refuses.ofEpoch (hx : exec i s = .next (atEpoch s (ringCommand q op enc st body s))) : Refuses q s (i, op, enc, st) :=
  .after (fun code => atEpoch_complete q code [] s) hx

end

/-- Settles O25: each of the 17 rows is `ringCommand` with its own encodings and states; RESTORE and REPLAY_CHECK may advance the
link epoch afterwards, which a refusal does not. -/
theorem ringRefusals : Obligations.RingRefusals := by
  intro q data pins image found loss tokens wsum s i op enc st hmem
  suffices Refuses q s (i, op, enc, st) from this
  refine List.forall_iff_forall_mem.1 ?_ _ hmem
  exact ⟨.ofRing rfl, .ofRing rfl, .ofRing rfl, .ofRing rfl, .ofRing rfl, .ofRing rfl, .ofRing rfl, .ofRing rfl,
    .ofEpoch rfl, .ofEpoch rfl, -- RESTORE, REPLAY_CHECK
    .ofRing rfl, .ofRing rfl, .ofRing rfl, .ofRing rfl, .ofRing rfl, .ofRing rfl, .ofRing rfl⟩

end Sys2Proof.Machine
end

section
/-! PROOFS. BAR0 writes, writes of one bit, and refused writes (R13, R14, R17, R395, R424 to R429). -/

namespace Sys2Proof.Machine

open Sys2Proof

/-! ### Rows -/

theorem exec_registerWrite (off size : Nat) (v : DWord) (s : State) :
    exec (.registerWrite off size v) s = .next (writeBar0 off size v.toNat s) := rfl
theorem exec_aliasWrite (off : Nat) (v : Word) (s : State) : exec (.aliasWrite off v) s = execAliasWrite off v s := rfl

/-! ### Sizes of a write (R424) -/

theorem writeBar0_four {off : Nat} (v : Nat) (s : State) (h : off % 4 = 0) : writeBar0 off 4 v s = writeReg off (v % 2 ^ 32) s :=
  if_pos ⟨rfl, h⟩

theorem writeBar0_eight {off : Nat} (v : Nat) (s : State) (h : off % 8 = 0) :
    writeBar0 off 8 v s = writeReg (off + 4) (v / 2 ^ 32 % 2 ^ 32) (writeReg off (v % 2 ^ 32) s) := by
  unfold writeBar0; rw [if_neg (by simp), if_pos ⟨rfl, h⟩]

theorem writeBar0_unaligned {off size : Nat} (v : Nat) (s : State) (h4 : ¬ (size = 4 ∧ off % 4 = 0)) (h8 : ¬ (size = 8 ∧ off % 8 = 0)) :
    writeBar0 off size v s = refuseWrite (wakeAccess s) := by
  unfold writeBar0; rw [if_neg h4, if_neg h8]

/-! ### What a register holds (R427) -/

theorem reg_wakeAccess (s : State) (o : Nat) : reg (wakeAccess s) o = reg s o := by rw [wakeAccess_eq]; rfl

/-- A register written beside the exit that the access may start: its value, and no other register. -/
theorem setReg_wakeAccess (s : State) (off v : Nat) :
    reg (setReg off v (wakeAccess s)) off = v % 2 ^ 32 ∧ (∀ o, o ≠ off → reg (setReg off v (wakeAccess s)) o = reg s o) ∧
      setReg off v (wakeAccess s) = { s with
        regs := (setReg off v (wakeAccess s)).regs
        pwr := { s.pwr with exiting := s.pwr.exiting || (s.pwr.state == .g3 || s.pwr.state == .g4) } } := by
  refine ⟨reg_setReg_self .., fun o ho => (reg_setReg_ne _ _ ho).trans (reg_wakeAccess s o), ?_⟩
  rw [wakeAccess_eq]; rfl

/-! ### A plain write -/

/-- A 4-byte write of a silent register stores its RW fields (R424, R425). -/
theorem writeReg_stores {s : State} {off v : Nat} {r : RegInfo} (h : Writable (wakeAccess s) off) (ho : off < 0x2000000)
    (hi : regInfo off = some r) (hrw : r.rw ≠ 0) (hs : silent off) (hv : v < 2 ^ 32) (hok : regOk off (v &&& r.rw) = true) :
    writeReg off v s = setReg off (v &&& r.rw) (wakeAccess s) := by
  rw [writeReg_eq h ho hi (.inl hrw) (silent_locked hs) hv hok, silent_effect hs]

/-- A register write of R424 is stored, and changes nothing else but that an exit may start (R364). -/
theorem registerWrite_stores {off : Nat} {v : DWord} {s : State} {r : RegInfo} (h : Writable (wakeAccess s) off)
    (ho : off < 0x2000000) (h4 : off % 4 = 0) (hi : regInfo off = some r) (hrw : r.rw ≠ 0) (hs : silent off)
    (hok : regOk off (v.toNat % 2 ^ 32 &&& r.rw) = true) :
    ∃ u, exec (.registerWrite off 4 v) s = .next u ∧ reg u off = (v.toNat % 2 ^ 32 &&& r.rw) ∧ (∀ o, o ≠ off → reg u o = reg s o) ∧
      u = { s with regs := u.regs, pwr := { s.pwr with exiting := s.pwr.exiting || (s.pwr.state == .g3 || s.pwr.state == .g4) } } := by
  have hv : v.toNat % 2 ^ 32 < 2 ^ 32 := Nat.mod_lt _ (Nat.two_pow_pos 32)
  obtain ⟨value, others, rest⟩ := setReg_wakeAccess s off (v.toNat % 2 ^ 32 &&& r.rw)
  refine ⟨_, ?_, ?_, others, rest⟩
  · rw [exec_registerWrite, writeBar0_four _ _ h4, writeReg_stores h ho hi hrw hs hv hok]
  · rw [value, Nat.mod_eq_of_lt (Nat.lt_of_le_of_lt Nat.and_le_left hv)]

/-! ### A write of one bit (R395, R429) -/

/-- The word of R395 at this offset stands for bit `b` of the register at `x`. -/
theorem writeReg_alias {x b : Nat} (v : Nat) {s : State} (hx : x < 0x100000) (h4 : x % 4 = 0) (hb : b < 32)
    (hboot : (wakeAccess s).dev ≠ .boot) (hseen : recoveryHides s (0x2000000 + (x * 8 + b) * 4) = false) :
    writeReg (0x2000000 + (x * 8 + b) * 4) v s = writeAliasBit x b v (wakeAccess s) := by
  have seen : recoveryHides (wakeAccess s) (0x2000000 + (x * 8 + b) * 4) = false := by rw [wakeAccess_eq]; exact hseen
  unfold writeReg
  rw [if_neg (by simp [hboot, seen]), if_pos (by omega)]
  unfold writeAlias
  congr 1 <;> omega

/-- A write of one bit of a silent register that is writable stores that bit beside its other RW fields. -/
theorem writeAliasBit_stores {x b v : Nat} {s : State} {r : RegInfo} (h : Writable s x) (hi : regInfo x = some r)
    (hbit : bitN r.rw b = true) (hs : silent x) (hok : regOk x ((reg s x &&& (r.rw ^^^ 2 ^ b)) ||| v % 2 * 2 ^ b) = true) :
    writeAliasBit x b v s = setReg x ((reg s x &&& (r.rw ^^^ 2 ^ b)) ||| v % 2 * 2 ^ b) s := by
  have hrw : r.rw ≠ 0 := by rintro e; rw [e, bitN_testBit, Nat.zero_testBit] at hbit; cases hbit
  have hwant : (reg s x &&& (r.rw ^^^ (r.rw &&& 2 ^ b))) ||| (v % 2 * 2 ^ b &&& r.rw &&& 2 ^ b) =
      (reg s x &&& (r.rw ^^^ 2 ^ b)) ||| v % 2 * 2 ^ b := by
    rw [Nat.and_assoc, and_bit hbit, bit_and]
  simp only [writeAliasBit, hi, hbit, if_true, writeMasked, h.here, h.on, h.free, silent_locked hs, hwant, Nat.and_zero,
    Nat.xor_zero, Nat.zero_or, bit_in hbit, hok, silent_effect hs]
  simp [hrw]

/-- A write of the word of a writable bit changes that bit alone, of all RW fields (R395, R429). -/
theorem aliasWrite_stores {x b : Nat} {v : Word} {s : State} {r : RegInfo} (h : Writable (wakeAccess s) x)
    (hseen : recoveryHides s (0x2000000 + (x * 8 + b) * 4) = false) (hx : x < 0x100000) (h4 : x % 4 = 0) (hb : b < 32)
    (hi : regInfo x = some r) (hbit : bitN r.rw b = true) (hs : silent x)
    (hok : regOk x ((reg s x &&& (r.rw ^^^ 2 ^ b)) ||| v.toNat % 2 * 2 ^ b) = true) :
    ∃ u, exec (.aliasWrite (0x2000000 + (x * 8 + b) * 4) v) s = .next u ∧
      (∀ k, k < 32 → bitN r.rw k = true → bitN (reg u x) k = if k = b then decide (v.toNat % 2 = 1) else bitN (reg s x) k) ∧
      (∀ o, o ≠ x → reg u o = reg s o) ∧
      u = { s with regs := u.regs, pwr := { s.pwr with exiting := s.pwr.exiting || (s.pwr.state == .g3 || s.pwr.state == .g4) } } := by
  obtain ⟨value, others, rest⟩ := setReg_wakeAccess s x ((reg s x &&& (r.rw ^^^ 2 ^ b)) ||| v.toNat % 2 * 2 ^ b)
  refine ⟨_, ?_, fun k hk hrw => ?_, others, rest⟩
  · rw [exec_aliasWrite, execAliasWrite, if_pos (by omega), writeReg_alias _ hx h4 hb h.booted hseen,
      writeAliasBit_stores h hi hbit hs (by rw [reg_wakeAccess]; exact hok), reg_wakeAccess]
  · rw [value, ← bit_set (old := reg s x) (b := b) (v := v.toNat) hrw, bitN_testBit, bitN_testBit, Nat.testBit_mod_two_pow]
    simp [hk]

/-! ### Refused writes, and a write of 8 bytes (R17, R424) -/

theorem registerWrite_unaligned {off size : Nat} (v : DWord) (s : State) (h4 : ¬ (size = 4 ∧ off % 4 = 0))
    (h8 : ¬ (size = 8 ∧ off % 8 = 0)) : exec (.registerWrite off size v) s = .next (refuseWrite (wakeAccess s)) := by
  rw [exec_registerWrite, writeBar0_unaligned _ _ h4 h8]

/-- A register that does not answer, takes no writes, or is given a reserved encoding refuses the write (R17, R425 to R428). -/
theorem registerWrite_refused {off : Nat} (v : DWord) (s : State) (h4 : off % 4 = 0) (ho : off < 0x2000000)
    (h : s.dev = .boot ∨ recoveryHides s off = true ∨ regInfo off = none ∨ instanceExists s off = false ∨ domainOff s off = true ∨
      regLocked s off = true ∨ (∃ r, regInfo off = some r ∧ r.rw = 0 ∧ r.cmd = 0) ∨
      (lockedFields s off = 0 ∧ ∃ r, regInfo off = some r ∧ regOk off (v.toNat % 2 ^ 32 &&& r.rw) = false)) :
    exec (.registerWrite off 4 v) s = .next (refuseWrite (wakeAccess s)) := by
  rw [exec_registerWrite, writeBar0_four _ _ h4]
  congr 1
  by_cases hbad : lockedFields s off = 0 ∧ ∃ r, regInfo off = some r ∧ regOk off (v.toNat % 2 ^ 32 &&& r.rw) = false
  · obtain ⟨hl, r, hi, hok⟩ := hbad
    exact writeReg_bad ho hi hl (Nat.mod_lt _ (Nat.two_pow_pos 32)) hok
  · simp only [hbad, or_false] at h
    exact refuse_of_locked ho h

/-- An 8-byte write is the write of its low half, and then that of its high half (R424). -/
theorem registerWrite_halves {off : Nat} (v : DWord) (s : State) (h8 : off % 8 = 0) :
    ∃ u, exec (.registerWrite off 4 v) s = .next u ∧
      exec (.registerWrite off 8 v) s = exec (.registerWrite (off + 4) 4 (BitVec.ofNat 64 (v.toNat / 2 ^ 32))) u := by
  have high : v.toNat / 2 ^ 32 % 2 ^ 64 = v.toNat / 2 ^ 32 := Nat.mod_eq_of_lt (by have := v.isLt; omega)
  refine ⟨_, exec_registerWrite .., ?_⟩
  rw [exec_registerWrite, exec_registerWrite, writeBar0_eight _ _ h8, writeBar0_four _ _ (by omega), writeBar0_four _ _ (by omega),
    BitVec.toNat_ofNat, high]

/-- Settles O33: a write that passes its checks is `setReg` of the value it stores, whole or one bit of it; the others are refused
by the first check that they fail. -/
theorem registerWrites : Obligations.RegisterWrites :=
  ⟨⟨fun _ _ _ _ h ho h4 hi hrw hs hok => registerWrite_stores h ho h4 hi hrw hs hok,
      fun _ _ _ _ _ h hseen hx h4 hb hi hbit hs hok => aliasWrite_stores h hseen hx h4 hb hi hbit hs hok⟩,
    fun _ _ v s h4 h8 => registerWrite_unaligned v s h4 h8, fun _ v s h4 ho h => registerWrite_refused v s h4 ho h,
    fun _ v s h8 => registerWrite_halves v s h8⟩

end Sys2Proof.Machine
end

section
/-! PROOFS. START, STEP, PAUSE and SECURE (R33, R209, R341, R343, R344, R345). -/

namespace Sys2Proof.Machine

open Sys2Proof

/-! ### Rows -/

theorem exec_start (q : RingId) (s : State) : exec (.start q) s = execStart q s := rfl
theorem exec_step (q : RingId) (s : State) : exec (.step q) s = execStep q s := rfl
theorem exec_pause (q : RingId) (s : State) : exec (.pause q) s = execPause q s := rfl
theorem exec_secure (q : RingId) (s : State) : exec (.secure q) s = execSecure q s := rfl

/-! ### START and STEP -/

/-- START outside a run begins the start with the limit and the ring of its entry (R345). -/
theorem execStart_runs {q : RingId} {e : List Byte} {s : State} (hf : Front s q 0x10 e) (hd : s.dev = .planned ∨ s.dev = .held)
    (h8 : leAt e 8 1 ≤ 63) (h9 : zeroAt e 9 3 = true) (h10 : zeroAt e 0x10 48 = true) :
    execStart q s = .next (beginStart q (leAt e 8 1) (leAt e 0xC 4) s) := by
  have awake : s.dev ≠ .wedged := by rcases hd with h | h <;> simp [h]
  have free : startState s = none := by rcases hd with h | h <;> simp [startState, h]
  exact congrArg Host.Outcome.next (ringCommand_runs hf awake (by simp [h8, h9, h10]) free)

/-- STEP in HELD: LIMIT_RANGE beyond 32 bits, else the start with its limit (R345). -/
theorem execStep_runs {q : RingId} {e : List Byte} {s : State} (hf : Front s q 0x11 e) (hd : s.dev = .held) (h8 : leAt e 8 1 ≤ 63)
    (h9 : zeroAt e 9 3 = true) (hc : 1 ≤ leAt e 0xC 4) (h10 : zeroAt e 0x10 48 = true) :
    execStep q s = .next (if 2 ^ 32 ≤ stepLimit s (leAt e 0xC 4) then complete q 0x30 [] s
      else beginStart q (leAt e 8 1) (stepLimit s (leAt e 0xC 4)) s) :=
  congrArg Host.Outcome.next (ringCommand_runs hf (by simp [hd]) (by simp [h8, h9, hc, h10]) (statesOk_mem (by simp [hd])))

/-! ### PAUSE and SECURE -/

/-- A command that joins the run-wide requests is accepted and changes nothing but them (R33). -/
theorem accept_request (q : Nat) (s : State) (h : HostSt) (hr : h.rings = s.host.rings) : Accepted q s (accept q { s with host := h }) :=
  acc_of rfl hr fun x => memByte_congr x rfl rfl rfl rfl

theorem execPause_runs {q : RingId} {e : List Byte} {s : State} (hf : Front s q 0x12 e) (h8 : leAt e 8 1 ≤ 1) (h9 : zeroAt e 9 55 = true)
    (hd : s.dev = .starting ∨ s.dev = .running) : execPause q s = .next (pauseBody q e s) := by
  have awake : s.dev ≠ .wedged := by rcases hd with h | h <;> simp [h]
  exact congrArg Host.Outcome.next (ringCommand_runs hf awake (by simp [h8, h9]) (statesOk_mem (by simpa using hd)))

theorem pauseBody_waits (q : Nat) (e : List Byte) {s : State} (h : s.dev = .running ∨ (s.dev = .starting ∧ s.run.startAt ≠ none)) :
    pauseBody q e s = accept q { s with host := { s.host with rwPause := s.host.rwPause ++ [(q, leAt e 8 1 == 1)] } } := by
  refine if_neg ?_
  rcases h with h | ⟨-, h⟩ <;> simp [h]

/-- A PAUSE before the start's stroke is known takes the start back (log entry 49). -/
theorem pauseBody_takesBack (q : Nat) (e : List Byte) {s : State} (hd : s.dev = .starting) (ha : s.run.startAt = none) :
    pauseBody q e s = complete q 0 (b4 (stepField s))
      (if leAt e 8 1 = 1 && (cancelStart 8 s).run.heldCause ≠ 0 then endRun (cancelStart 8 s) else cancelStart 8 s) := by
  refine if_pos ?_
  simp [hd, ha]

theorem cancelStart_run (code : Nat) (s : State) : (cancelStart code s).run = { s.run with ready := false, startAt := none } := by
  unfold cancelStart
  dsimp only
  cases s.host.startRing
  · rfl
  · dsimp only; rw [(HostOnly.complete ..).rest]

/-- The start that is taken back: its ring's command completes, in PLANNED or, where a step is held, HELD (R345). -/
theorem cancelStart_eq {code p : Nat} {s : State} (h : s.host.startRing = some p) :
    cancelStart code s = complete p code [] { s with
      run := { s.run with ready := false, startAt := none }
      dev := if s.run.heldCause ≠ 0 then .held else .planned, host := { s.host with startRing := none } } := by
  unfold cancelStart
  simp only [h]

/-- PAUSE takes a start back: OK with the last committed step, after the START's ABORTED (R345). -/
theorem pause_takesBack {q : RingId} {e : List Byte} {s : State} (hf : Front s q 0x12 e) (h8 : leAt e 8 1 ≤ 1) (h9 : zeroAt e 9 55 = true)
    (hd : s.dev = .starting) (ha : s.run.startAt = none) {p : Nat} (hp : s.host.startRing = some p) :
    ∃ v, exec (.pause q) s = .next (complete q 0 (b4 (stepField s)) v) ∧
      (s.run.heldCause = 0 → v = complete p 8 [] { s with
        run := { s.run with ready := false, startAt := none }, dev := .planned, host := { s.host with startRing := none } }) ∧
      (s.run.heldCause ≠ 0 → leAt e 8 1 = 0 → v = complete p 8 [] { s with
        run := { s.run with ready := false, startAt := none }, dev := .held, host := { s.host with startRing := none } }) := by
  have held : (cancelStart 8 s).run.heldCause = s.run.heldCause := by rw [cancelStart_run]
  refine ⟨_, (execPause_runs hf h8 h9 (.inl hd)).trans (congrArg _ (pauseBody_takesBack _ _ hd ha)), fun h0 => ?_, fun h0 h1 => ?_⟩
  · rw [if_neg (by simp [held, h0]), cancelStart_eq hp, if_neg (by simp [h0])]
  · rw [if_neg (by simp [h1]), cancelStart_eq hp, if_pos h0]

/-- Settles O26: START and STEP are `beginStart`, PAUSE and SECURE join the requests of the boundary exchange, and a PAUSE before the
start's stroke is known cancels the start. -/
theorem runCommands : Obligations.RunCommands := by
  refine ⟨⟨fun q e s hf hd h8 h9 h10 => ?start, fun q e s hf hd h8 h9 hc h10 => ⟨fun hl => ?range, fun hl => ?step⟩,
    fun q e s hf h8 h9 hd => ?pause, fun q e s hf hd h8 => ?secure⟩, fun q e s hf h8 h9 hd ha p hp _ => pause_takesBack hf h8 h9 hd ha hp⟩
  case start => exact ⟨_, execStart_runs hf hd h8 h9 h10, beginStart_spec ..⟩
  case range => exact (execStep_runs hf hd h8 h9 hc h10).trans (by rw [if_pos hl])
  case step =>
    obtain ⟨acc, host, run, rest, dev, -⟩ := beginStart_spec q (leAt e 8 1) (stepLimit s (leAt e 0xC 4)) s
    refine ⟨_, (execStep_runs hf hd h8 h9 hc h10).trans (by rw [if_neg (by omega)]), acc, host, run.trans ?_, rest, dev⟩
    cases h : s.run.last <;> simp [stepLimit, h]
  case pause =>
    refine ⟨_, (execPause_runs hf h8 h9 ?_).trans (congrArg _ (pauseBody_waits _ _ hd)), accept_request _ _ _ rfl, rfl, rfl, rfl⟩
    exact hd.elim .inr fun h => .inl h.1
  case secure =>
    exact ⟨_, congrArg Host.Outcome.next (ringCommand_runs hf (by simp [hd]) h8 (statesOk_mem (by simp [hd]))),
      accept_request _ _ _ rfl, rfl, rfl, rfl⟩

end Sys2Proof.Machine
end

section
/-! PROOFS. PLAN: a fresh plan, and the run-wide form (R30, R135, R137, R219 to R223, R234, R344, R428). -/

namespace Sys2Proof.Machine

open Sys2Proof

/-! ### The checks of a PLAN (R342 to R344) -/

theorem exec_plan (q : RingId) (map pins : HostData) (s : State) : exec (.plan q map pins) s = execPlan q map pins s := rfl

/-- A run blocks no command that would power up a core group (R371). -/
theorem avsBlocks_running {s : State} (h : s.dev = .running) : avsBlocks s = false := by
  simp [avsBlocks, runActive, h, devCode]

/-- The host's data for a PLAN: its entry's zero fields, and map and pins readable and not poisoned (R344). -/
structure PlanData (e : List Byte) (map pins : HostData) (s : State) : Prop where
  count : leAt e 0x14 2 ≤ 16384
  zero : zeroAt e 0x16 2 = true ∧ zeroAt e 0x20 32 = true
  mapRange : hostRange s (leAt e 8 8) (leAt e 0x10 4) = true
  pinRange : hostRange s (leAt e 0x18 8) (4 * leAt e 0x14 2) = true
  clean : map.poison = false ∧ pins.poison = false

section
variable {q : RingId} {map pins : HostData} {e : List Byte} {s : State} {pk : Pkg}

/-- PLAN outside a run is `planFresh` of its map and pins. -/
theorem execPlan_fresh (hf : Front s q 3 e) (hd : s.dev = .loaded ∨ s.dev = .planned) (ha : avsBlocks s = false)
    (hx : PlanData e map pins s) (hp : s.pkg = some pk) :
    execPlan q map pins s = .next (planFresh q (padTo (leAt e 0x10 4) map.bytes) (leAt e 0x10 4)
      (readPins pins.bytes (leAt e 0x14 2)) pk s) := by
  obtain ⟨hn, ⟨hz, hz'⟩, hm, hr, hc, hc'⟩ := hx
  have awake : s.dev ≠ .wedged := by rcases hd with h | h <;> simp [h]
  have idle : (s.dev == .running) = false := by rcases hd with h | h <;> simp [h]
  refine congrArg Host.Outcome.next ((ringCommand_runs hf awake (by simp [hn, hz, hz']) ?_).trans ?_)
  · rw [powersUp_none ha]; exact statesOk_mem (by rcases hd with h | h <;> simp [h])
  · simp [planBody, hm, hr, hc, hc', hp, idle]

/-- PLAN in a run is `planRunWide` of its map and pins. -/
theorem execPlan_running (hf : Front s q 3 e) (hd : s.dev = .running) (hx : PlanData e map pins s) (hp : s.pkg = some pk) :
    execPlan q map pins s = .next (planRunWide q (padTo (leAt e 0x10 4) map.bytes) (readPins pins.bytes (leAt e 0x14 2)) pk s) := by
  obtain ⟨hn, ⟨hz, hz'⟩, hm, hr, hc, hc'⟩ := hx
  refine congrArg Host.Outcome.next ((ringCommand_runs hf (by simp [hd]) (by simp [hn, hz, hz']) ?_).trans ?_)
  · rw [powersUp_none (avsBlocks_running hd)]; exact statesOk_mem (by simp [hd])
  · simp [planBody, hm, hr, hc, hc', hp, hd]

end

/-! ### A fresh plan (R30, R179, R234) -/

/-- The state from which a fresh plan is made: registers captured, the map taken, no failure inputs, pins applied (R135, R428). -/
def planInputs (d : List Byte) (ps : List (Nat × Nat × Nat)) (s : State) : State :=
  forEach ps applyPin { s with
    captured := captureRegs s, map := parseMap d, mapBytes := d, failInputs := []
    cox := { s.cox with withdrawn := [], flaggedPrev := [] } }

theorem planInputs_eq (d : List Byte) (ps : List (Nat × Nat × Nat)) (s : State) :
    ∃ c, planInputs d ps s = { s with captured := captureRegs s, map := parseMap d, mapBytes := d, failInputs := [], cox := c } := by
  obtain ⟨c, h⟩ := applyPins_eq ps { s with
    captured := captureRegs s, map := parseMap d, mapBytes := d, failInputs := []
    cox := { s.cox with withdrawn := [], flaggedPrev := [] } }
  exact ⟨c, h⟩

theorem logShared_countsOnly (pl : Plan) (s : State) : CountsOnly s (logShared pl s) :=
  .forEach (fun _ _ => logEv_countsOnly ..) _ _

section
variable {q bytes : Nat} {d : List Byte} {ps : List (Nat × Nat × Nat)} {pk : Pkg} {s : State}

/-- Where PLAN's own checks pass, the planner decides: its plan comes into force and its digest is sent, or its code is the reply. -/
theorem planFresh_planner (h0 : (source s 0).isSome = true) (h1 : pinsOk pk ps = true) (h2 : compareOk s pk = true)
    (h3 : mapForm d bytes = true) (h4 : linksMatch (parseMap d) = true) (h5 : slowPort s (parseMap d) = false)
    (h6 : ownRecordOk s (parseMap d) = true) :
    (∀ pl, makePlan (planInputs d ps s) pk 0 false = (0, some pl) →
      planFresh q d bytes ps pk s = sendDigest (complete q 0 (pl.planDigest.take 16 ++ b4 pl.fromStep)
        (logShared pl (startPlan pl pk (planInputs d ps s))))) ∧
    ∀ code o, makePlan (planInputs d ps s) pk 0 false = (code, o) → code ≠ 0 → planFresh q d bytes ps pk s = complete q code [] s := by
  have h0' : (source s 0).isNone = false := by cases h : source s 0 <;> simp [h] at h0 ⊢
  unfold planFresh
  simp only [h0', h1, h2, h3, h4, h5, h6, Bool.not_true, Bool.and_self, Bool.or_false, Bool.false_eq_true, if_false]
  refine ⟨fun pl hpl => ?_, fun code o hco hne => ?_⟩
  · unfold planInputs at hpl ⊢
    rw [hpl]
    rfl
  · unfold planInputs at hco
    rw [hco]
    cases code with
    | zero => exact absurd rfl hne
    | succ n => rfl

end

/-- The device with a fresh plan in force: the plan, what it was made from, and a run that begins anew (R30, R197). -/
theorem planForced_spec (pl : Plan) (pk : Pkg) (d : List Byte) (ps : List (Nat × Nat × Nat)) (s v : State)
    (hv : v = logShared pl (startPlan pl pk (planInputs d ps s))) :
    v.plan = some pl ∧ v.dev = .loaded ∧ v.captured = captureRegs s ∧ v.map = parseMap d ∧ v.mapBytes = d ∧ v.failInputs = [] ∧
      v.pkg = s.pkg ∧ v.sources = s.sources ∧ v.cores = s.cores ∧
      v.run = { opt := (List.range pk.opts.length).map fun i => (i, one32.toNat, one32.toNat), copies := pl.copies } := by
  obtain ⟨c, inputs⟩ := planInputs_eq d ps s
  have start := startPlan_eq pl pk (planInputs d ps s)
  have counts := (logShared_countsOnly pl (startPlan pl pk (planInputs d ps s))).rest
  rw [← hv] at counts
  generalize startPlan pl pk (planInputs d ps s) = u at start counts
  rw [inputs] at start
  rw [counts, start]
  exact ⟨rfl, rfl, rfl, rfl, rfl, rfl, rfl, rfl, rfl, rfl⟩

/-- The reply and the digest exchange after a plan in force: ports, counting and the flags of the exchange (R234). -/
theorem sendDigest_complete {q code : Nat} {p : List Byte} {v : State} {pl : Plan} (h : v.plan = some pl) :
    NetOnly { complete q code p v with link := { v.link with digestSent := true, digestOk := false, digestDone := false } }
      (sendDigest (complete q code p v)) := by
  have rest := (HostOnly.complete q code p v).rest
  have plan : (complete q code p v).plan = some pl := by rw [rest]; exact h
  have link : (complete q code p v).link = v.link := by rw [rest]
  simpa only [link] using NetOnly.sendDigest plan

/-- In a run, a PLAN of the plan's map whose checks pass joins the requests of the boundary (R344). -/
theorem planRunWide_waits {q : Nat} {d : List Byte} {ps : List (Nat × Nat × Nat)} {pk : Pkg} {s : State} (hm : d = s.mapBytes)
    (h1 : pinsOk pk ps = true) (h2 : compareOk s pk = true) (hn : s.host.rwPlan = none) :
    planRunWide q d ps pk s =
      accept q { s with host := { s.host with rwPlan := some { ring := q, pins := ps, regs := captureRegs s } } } := by
  simp [planRunWide, hm, h1, h2, hn]

/-- Settles O29: `planFresh` and `planRunWide` past their checks; a plan in force is `startPlan`'s. -/
theorem planCommand : Obligations.PlanCommand := by
  refine ⟨fun q map pins e d s w ps pk hf hd ha hn hz hz' hp hm hr hc hc' hd' hps h0 h1 h2 h3 h4 h5 h6 hw => ?_,
    fun q map pins e s pk hf hd hn hz hz' hp hm hr hc hc' hsame h1 h2 hnone => ?_⟩
  · subst hd' hps
    have runs := execPlan_fresh hf hd ha ⟨hn, ⟨hz, hz'⟩, hm, hr, hc, hc'⟩ hp
    obtain ⟨planned, refused⟩ := planFresh_planner (q := q) h0 h1 h2 h3 h4 h5 h6
    change w = planInputs _ _ s at hw
    rw [← hw] at planned refused
    refine ⟨fun pl hpl => ?_, fun code o hco hne => ?_⟩
    · have forced := planForced_spec pl pk (padTo (leAt e 0x10 4) map.bytes) (readPins pins.bytes (leAt e 0x14 2)) s _ rfl
      rw [← hw] at forced
      exact ⟨_, _, (exec_plan ..).trans (runs.trans (congrArg _ (planned pl hpl))), sendDigest_complete forced.1, forced⟩
    · exact (exec_plan ..).trans (runs.trans (congrArg _ (refused code o hco hne)))
  · refine ⟨_, ((exec_plan ..).trans (execPlan_running hf hd ⟨hn, ⟨hz, hz'⟩, hm, hr, hc, hc'⟩ hp)).trans
      (congrArg _ (planRunWide_waits hsame h1 h2 hnone)), accept_request _ _ _ rfl, rfl, rfl⟩

end Sys2Proof.Machine
end

section
/-! PROOFS. STEP_BOUNDARY: commit, a run-wide PLAN, a held step, and the reply (R31, R32, R192, R197, R203, R204, R234, R282, R309,
R319, R344). -/

namespace Sys2Proof.Machine

open Sys2Proof

/-! ### Which boundary the step has -/

theorem exec_stepBoundary (b : BoundaryIn) (s : State) : exec (.stepBoundary b) s = .next (atEpoch s (stepBoundary b s)) := rfl

/-- A boundary that has not come, is over, or whose reduced values are not held, has no effect (R31, R32). -/
theorem stepBoundary_idle {b : BoundaryIn} {s : State} (h : s.run.phase ≠ .boundary ∨ s.run.boundDone = true ∨ s.run.boundWait = true ∨
    (s.dev ≠ .running ∧ s.dev ≠ .recovering) ∨ resultsHeld s 2 = false ∨ (s.run.heldCause = 0 ∧ resultsHeld s 1 = false)) :
    stepBoundary b s = s := by
  refine if_pos ?_
  rcases h with h | h | h | ⟨h, h'⟩ | h | ⟨h, h'⟩
  · simp [h]
  · simp [h]
  · simp [h]
  · simp [h, h']
  · simp [boundaryReady, h]
  · simp [boundaryReady, h, h']

/-- A boundary with its reduced values held commits the step, or acts for a held one. -/
theorem stepBoundary_acts {b : BoundaryIn} {s : State} (hp : s.run.phase = .boundary) (hb : s.run.boundDone = false)
    (hw : s.run.boundWait = false) (hd : s.dev = .running ∨ s.dev = .recovering) (h2 : resultsHeld s 2 = true)
    (h1 : s.run.heldCause ≠ 0 ∨ resultsHeld s 1 = true) :
    stepBoundary b s = if s.run.heldCause = 0 then committedBoundary b s else heldBoundary b s := by
  refine if_neg ?_
  rcases hd with h | h <;> rcases h1 with h' | h' <;> simp [boundaryReady, hp, hb, hw, h, h2, h']

/-! ### A run-wide PLAN that every device holds (R344) -/

/-- The run-wide PLAN takes effect: its registers and pins, and the need for a replan. -/
theorem runWidePlan_acts {s : State} {r : PlanReq} (hr : s.host.rwPlan = some r) (hh : (exchanged s).planHeld = true)
    (hc : r.ring ∈ s.run.carried) :
    runWidePlan s = (releasedBy r.pins, planDue { forEach r.pins pinChange { s with captured := r.regs } with
      run := { (forEach r.pins pinChange { s with captured := r.regs }).run with
        fin := { (forEach r.pins pinChange { s with captured := r.regs }).run.fin with planActed := true } } }) := by
  unfold runWidePlan
  rw [hr]
  simp [hh, hc]

/-- What a run-wide PLAN changes: the captured registers, what pins change, and that it acted. -/
theorem runWidePlan_spec {s : State} {r : PlanReq} (hr : s.host.rwPlan = some r) (hh : (exchanged s).planHeld = true)
    (hc : r.ring ∈ s.run.carried) :
    (runWidePlan s).2.captured = r.regs ∧ (runWidePlan s).2.run.planDue = true ∧ (runWidePlan s).2.run.fin.planActed = true ∧
      (runWidePlan s).2.run.last = s.run.last := by
  rw [runWidePlan_acts hr hh hc]
  have pins : CoxOnly { s with captured := r.regs } (forEach r.pins pinChange { s with captured := r.regs }) :=
    .forEach (fun _ _ => .pinChange ..) _ _
  have rest := pins.rest
  generalize forEach r.pins pinChange { s with captured := r.regs } = u at rest ⊢
  rw [rest]
  exact ⟨rfl, rfl, rfl, rfl⟩

/-- Actions 1 and 2 before the step's number goes on. -/
theorem decided_planActs {s : State} {r : PlanReq} (hr : s.host.rwPlan = some r) (hh : (exchanged s).planHeld = true)
    (hc : r.ring ∈ s.run.carried) :
    (decided s).captured = r.regs ∧ (decided s).run.planDue = true ∧ (decided s).run.fin.planActed = true ∧
      (decided s).run.last = some s.run.step ∧ (decided s).run.step = s.run.step + 1 := by
  unfold decided
  extract_lets n fin _ s0 recs s1 rw_ s2
  obtain ⟨l, -, writes⟩ := committing_eq s0
  have commits := commit_tail s0
  change CoxOnly (committing s0) s1 at commits
  rw [writes] at commits
  have rest := commits.rest
  have host : s1.host.rwPlan = some r := by rw [commits.host]; exact hr
  have held : (exchanged s1).planHeld = true := by
    have : exchanged s1 = exchanged s := by rw [rest]; rfl
    rw [this]; exact hh
  have carried : r.ring ∈ s1.run.carried := by rw [rest]; exact hc
  have last : s1.run.last = some s.run.step := by rw [rest]
  obtain ⟨captured, due, acted, last'⟩ := runWidePlan_spec host held carried
  have cox : CoxOnly rw_.2 s2 := CoxOnly.trans (.cox ..) (.boundary ..)
  refine ⟨?_, cox.due due, ?_, ?_, rfl⟩
  · show s2.captured = _; rw [cox.rest]; exact captured
  · show s2.run.fin.planActed = _; rw [cox.rest]; exact acted
  · show s2.run.last = _; rw [cox.rest]; exact last'.trans last

/-! ### A boundary with nothing to decide -/

/-- The end of a boundary does not advance the link epoch. -/
theorem BoundaryEnds.link {d t : State} (h : BoundaryEnds d t) : t.link = d.link := by rw [h.rest]

/-- A commit leaves nothing to decide where nothing was asked, lost or held. -/
theorem Committed.quiet {s d : State} (h : Committed s d) (hdue : d.run.planDue = false) (hw : s.run.boundWait = false)
    (hd : s.dev = .running ∨ s.dev = .recovering) (hback : s.res.rollback = false)
    (hpaths : (exchanged s).paths = [] ∧ s.res.lost = [] ∧ s.res.path = 0 ∧ s.res.secureDue = false) (hsec : s.run.secured = false)
    (hcmd : s.host.rwPause = [] ∧ s.host.rwPlan = none ∧ s.host.rwSecure = [])
    (hask : (exchanged s).pause = false ∧ (exchanged s).secure = false ∧ (exchanged s).hostLost = false) : QuietEnd d := by
  have ex : exchanged d = exchanged s := by rw [h.rest]; rfl
  have wait : d.run.boundWait = false := by rw [h.run]; exact hw
  have secured : d.run.secured = false := by rw [h.run]; exact hsec
  have res : d.res = { s.res with sinceImage := s.res.sinceImage + 1 } := by rw [h.rest]
  refine ⟨⟨hdue, wait⟩, by rw [res]; exact hback, ?_, ?_, by rw [h.host]; exact hcmd, by rw [ex]; exact hask, by rw [h.rest]; exact hd⟩
  · rw [ex, res]; exact hpaths
  · rw [h.fin]; exact ⟨rfl, rfl, rfl, rfl, rfl, secured⟩

/-- The boundary of a held step, with nothing to decide, ends with the run going on and nothing committed (R319). -/
theorem heldStart_ends {s t : State} (h : BoundaryEnds (heldStart s) t) :
    t.run = { s.run with boundDone := true, heldCause := 0, fin := t.run.fin } ∧ t.plan = s.plan ∧ t.mem = s.mem ∧
      t.adm.slots = s.adm.slots := by
  refine ⟨h.run, ?_, ?_, ?_⟩ <;> rw [h.rest] <;> rfl

/-- Settles O59: the boundary is `committedBoundary` or `heldBoundary`; `decided_spec` and `decided_planActs` say what actions 1 and 2
leave, and `finish_quiet` how a boundary with nothing to decide ends. -/
theorem stepBoundaries : Obligations.StepBoundaries := by
  refine ⟨fun b s h => ?idle, fun b s hp hb hw hd h2 h1 h0 => ⟨?runs, fun h => ?commits, fun r hr hh hc => decided_planActs hr hh hc, ?quiet⟩,
    fun b s hp hb hw hd h2 h0 => ?held⟩
  case idle => rw [exec_stepBoundary, stepBoundary_idle h, atEpoch_same rfl]
  case runs => rw [exec_stepBoundary, stepBoundary_acts hp hb hw hd h2 (.inr h1), if_pos h0]; rfl
  case commits => exact decided_spec s fun r hr => (h r hr).imp id fun k => by simpa using k
  case quiet =>
    intro hdue hback hx hl hpath hsd hsec hpa hpl hse hxp hxs hxh hlim
    have done : Committed s (decided s) := decided_spec s fun r hr => by rw [hpl] at hr; cases hr
    have quiet := done.quiet hdue hw hd hback ⟨hx, hl, hpath, hsd⟩ hsec ⟨hpa, hpl, hse⟩ ⟨hxp, hxs, hxh⟩
    have limit : (decided s).run.limit = 0xFFFFFFFF ∨ (decided s).run.fin.step < (decided s).run.limit := by
      rw [done.fin, done.run]; exact hlim
    have ends := finish_quiet quiet
    refine ⟨_, ?_, ends⟩
    rw [exec_stepBoundary, stepBoundary_acts hp hb hw hd h2 (.inr h1), if_pos h0, committedBoundary,
      replayCompare_quiet quiet.back, actionThree_quiet quiet, boundaryHold_quiet quiet limit, afterThree_quiet quiet,
      atEpoch_same (by rw [ends.link, done.rest])]
  case held =>
    have acts : exec (.stepBoundary b) s = .next (atEpoch s (heldBoundary b s)) := by
      rw [exec_stepBoundary, stepBoundary_acts hp hb hw hd h2 (.inl h0), if_neg h0]
    refine ⟨acts, fun quiet => ?_⟩
    have ends := finish_quiet quiet
    refine ⟨_, ?_, ends, heldStart_ends ends⟩
    rw [acts, heldBoundary, actionThree_quiet quiet, afterThree_quiet quiet, atEpoch_same (by rw [ends.link]; rfl)]

end Sys2Proof.Machine
end

section
/-! PROOFS. The EASY limit, the heartbeat limit and declarations (R37, R218, R283, R311, R318, R323, R324). -/

namespace Sys2Proof.Machine

open Sys2Proof

/-! ### Rows -/

theorem exec_easyLimit (c : Fin 3) (s : State) : exec (.easyLimit c) s = .next (easyLimit c s) := rfl
theorem exec_heartbeatLimit (p : PortId) (s : State) : exec (.heartbeatLimit p) s = .next (heartbeatLimit p s) := rfl
theorem exec_declaration (p : PortId) (k : DeclKind) (pos by_ : Fin 4096) (s : State) : exec (.declaration p k pos by_) s =
    .next (if (port s p).sub0.up || (port s p).sub1.up then declare k pos by_ s else s) := rfl

/-- A full journal takes no timed decision, and holds the step (R311). -/
theorem takeTimed_full {kind pos arg : Nat} {f : State → State} {s : State} (h : 8192 ≤ s.res.journal.length) :
    takeTimed kind pos arg f s = { s with res := { s.res with journalFull := true }, run := { s.run with holdDue := max s.run.holdDue 8 } } :=
  if_neg (by omega)

/-- The state in which a timed decision takes effect: it stands in the journal (R311). -/
def journalled (kind pos arg : Nat) (s : State) : State :=
  { s with res := { s.res with journal := s.res.journal ++
      [{ kind := kind, step := s.run.step, stroke := s.stroke.count, pos := pos, arg := arg }] } }

/-! ### The EASY limit (R218, R324) -/

/-- The greatest cause that a device gives: the raiser's own, and that of the other devices. -/
theorem ownCause_eq (s : State) : ownCause s = if s.stroke.lastRaiser ≠ myPos s then 0 else if s.adm.waitingHost = true then 1 else 2 := by
  by_cases h : s.stroke.lastRaiser = myPos s <;> simp [ownCause, h]

theorem easyLimit_due {c : Nat} {s : State} {p : Plan} (hp : s.plan = some p) (hr : inRun s = true) (he : p.easyLimit < s.stroke.easyRun)
    (hn : recorded s 4 = []) (hh : s.run.holdDue = 0) (hl : s.stroke.lastRaiser ∉ s.res.lost) :
    easyLimit c s = takeTimed 4 s.stroke.lastRaiser (max c (ownCause s)) (straggler (max c (ownCause s))) s := by
  unfold easyLimit
  rw [hp]
  exact if_pos (by simp [hr, hn, hh, hl]; omega)

theorem easyLimit_idle {c : Nat} {s : State} (h : inRun s = false ∨ (∀ p, s.plan = some p → s.stroke.easyRun ≤ p.easyLimit) ∨
    recorded s 4 ≠ [] ∨ s.run.holdDue ≠ 0 ∨ s.stroke.lastRaiser ∈ s.res.lost) : easyLimit c s = s := by
  unfold easyLimit
  split
  · next p hp =>
    refine if_neg ?_
    rcases h with h | h | h | h | h
    · simp [h]
    · have := h p hp
      have : ¬ p.easyLimit + 1 ≤ s.stroke.easyRun := by omega
      simp [this]
    · simp [h]
    · simp [h]
    · simp [h]
  · rfl

/-- What a decision at the EASY limit changes. -/
abbrev DecidesHold (s t : State) : Prop :=
  t = { s with run := { s.run with holdDue := t.run.holdDue }, res := t.res, cnt := t.cnt, log := t.log, host := t.host, out := t.out }

/-- The straggler's host is lost: logged, known to that device, and its path recorded (R321, R324). -/
def loseHost (s : State) : State :=
  let t := pathEv 6 s.run.step s.stroke.lastRaiser 0 0 s
  addPath { code := 6, pos := s.stroke.lastRaiser, part := 0, arg := 0 }
    (if s.stroke.lastRaiser = myPos t then { t with host := { t.host with lost := true, lostRequest := true } } else t)

theorem straggler_one (s : State) : straggler 1 s = { loseHost s with
    run := { (loseHost s).run with holdDue := max (loseHost s).run.holdDue 2 }, res := { (loseHost s).res with path := 6 } } := rfl

theorem addPath_eq (f : FailPath) (s : State) : addPath f s = { s with res := { s.res with paths := (addPath f s).res.paths } } := by
  unfold addPath
  split <;> rfl

theorem loseHost_spec (s : State) :
    loseHost s = { s with
      res := { s.res with paths := (loseHost s).res.paths }, cnt := (loseHost s).cnt, log := (loseHost s).log, host := (loseHost s).host
      out := (loseHost s).out } ∧
    ({ code := 6, pos := s.stroke.lastRaiser, part := 0, arg := 0 } : FailPath) ∈ (loseHost s).res.paths ∧
    (s.stroke.lastRaiser = myPos s → (loseHost s).host.lost = true ∧ (loseHost s).host.lostRequest = true) := by
  refine ⟨?_, addPath_mem .., fun h => ?_⟩
  all_goals
    unfold loseHost
    have rest := (logEv_countsOnly 0x0705 (b4 6 ++ b4 s.run.step ++ b8 s.stroke.count ++ b4 s.stroke.lastRaiser ++ b4 0 ++ b4 0) s).rest
    change pathEv 6 s.run.step s.stroke.lastRaiser 0 0 s = _ at rest
    generalize pathEv 6 s.run.step s.stroke.lastRaiser 0 0 s = t at rest
    dsimp only
    rw [addPath_eq]
  · split
    · rw [rest]
    · rw [rest]
  · rw [if_pos (h.trans (by rw [rest]; rfl))]
    exact ⟨rfl, rfl⟩

/-- Cause 1 holds the step for a lost host (R321, R324). -/
theorem straggler_host {s t : State} (h0 : s.run.holdDue = 0) (ht : straggler 1 s = t) :
    t.res.journal = s.res.journal ∧ DecidesHold s t ∧ t.res.path = 6 ∧ t.run.holdDue = 2 ∧ t.res.lost = s.res.lost ∧
      ({ code := 6, pos := s.stroke.lastRaiser, part := 0, arg := 0 } : FailPath) ∈ t.res.paths ∧
      (s.stroke.lastRaiser = myPos s → t.host.lost = true ∧ t.host.lostRequest = true) := by
  obtain ⟨rest, path, host⟩ := loseHost_spec s
  rw [straggler_one] at ht
  generalize loseHost s = u at rest path host ht
  subst ht
  refine ⟨?_, ?_, rfl, ?_, ?_, path, host⟩
  · show u.res.journal = _; rw [rest]
  · exact congrArg (fun x : State => { x with
      run := { x.run with holdDue := max u.run.holdDue 2 }, res := { u.res with path := 6 } }) rest
  · show max u.run.holdDue 2 = 2; rw [rest]; show max s.run.holdDue 2 = 2; rw [h0]; rfl
  · show u.res.lost = _; rw [rest]

/-- Any other cause: the straggler itself is lost, and the step is held (R323, R324). -/
theorem straggler_lost {k : Nat} {s t : State} (hk : k ≠ 1) (hr : inRun s = true) (hl : s.stroke.lastRaiser ∉ s.res.lost)
    (ht : straggler k s = t) :
    t.res.journal = s.res.journal ∧ DecidesHold s t ∧ s.stroke.lastRaiser ∈ t.res.lost ∧ 5 ≤ t.run.holdDue ∧
      (t.res.path = 7 ∨ t.res.path = 8) := by
  obtain ⟨decl, lost, due, -⟩ := Declares.loseHold s.stroke.lastRaiser 4 s
  have eq : straggler k s = { loseAndHold s.stroke.lastRaiser 4 s with
    res := { (loseAndHold s.stroke.lastRaiser 4 s).res with path := lostCode (loseAndHold s.stroke.lastRaiser 4 s) } } := if_neg hk
  rw [eq] at ht
  generalize loseAndHold s.stroke.lastRaiser 4 s = u at decl lost due ht
  have code : lostCode u = 7 ∨ lostCode u = 8 := by
    unfold lostCode
    split
    · split
      · exact .inl rfl
      · exact .inr rfl
    · exact .inl rfl
  have rest := decl.rest
  subst ht
  refine ⟨?_, ?_, lost, due hr hl, code⟩
  · show u.res.journal = _; rw [rest]
  · unfold DecidesHold
    exact congrArg (fun x : State => { x with res := { u.res with path := lostCode u } }) rest

/-- A decision at the EASY limit, once it stands in the journal. -/
theorem straggler_spec {k : Nat} {s : State} (hr : inRun s = true) (h0 : s.run.holdDue = 0) (hl : s.stroke.lastRaiser ∉ s.res.lost) :
    let t := straggler k (journalled 4 s.stroke.lastRaiser k s)
    t.res.journal = (journalled 4 s.stroke.lastRaiser k s).res.journal ∧ DecidesHold s t ∧
      (k = 1 → t.res.path = 6 ∧ t.run.holdDue = 2 ∧ t.res.lost = s.res.lost ∧
        ({ code := 6, pos := s.stroke.lastRaiser, part := 0, arg := 0 } : FailPath) ∈ t.res.paths ∧
        (s.stroke.lastRaiser = myPos s → t.host.lost = true ∧ t.host.lostRequest = true)) ∧
      (k ≠ 1 → s.stroke.lastRaiser ∈ t.res.lost ∧ 5 ≤ t.run.holdDue ∧ (t.res.path = 7 ∨ t.res.path = 8)) := by
  by_cases hk : k = 1
  · subst hk
    obtain ⟨journal, only, effect⟩ := straggler_host (s := journalled 4 s.stroke.lastRaiser 1 s) h0 rfl
    exact ⟨journal, only, fun _ => effect, fun h => absurd rfl h⟩
  · obtain ⟨journal, only, effect⟩ := straggler_lost (s := journalled 4 s.stroke.lastRaiser k s) hk hr hl rfl
    exact ⟨journal, only, fun h => absurd h hk, fun _ => effect⟩

/-! ### The heartbeat limit (R283, R323) -/

/-- The neighbours on the sub-ports of a port, in a device's record. -/
def portPeers (x : MapDev) (p : Nat) : List Nat :=
  ((List.range 2).filterMap fun b =>
    let e := x.ports.getD (2 * p + b) 0
    if entryLanes e = 0 then none else some (entryPos e)).eraseDups

theorem mem_portPeers {x : MapDev} {p b : Nat} (hb : b < 2) (h : entryLanes (x.ports.getD (2 * p + b) 0) ≠ 0) :
    entryPos (x.ports.getD (2 * p + b) 0) ∈ portPeers x p := by
  unfold portPeers
  rw [List.mem_eraseDups, List.mem_filterMap]
  exact ⟨b, List.mem_range.2 hb, if_neg h⟩

theorem heartbeatLimit_due {p : Nat} {s : State} {x : MapDev} (hl : (port s p).lost = false)
    (hc : bitsN (reg s 0xA008) 0 12 ≤ (port s p).catchMissed) (hp : p ∈ plannedPorts s) (hn : recorded s 3 = [])
    (hx : devAt (amended s) (myPos s) = some x) :
    heartbeatLimit p s = takeTimed 3 ((portPeers x p).headD 0xFFFF) p (portLost p (portPeers x p)) s := by
  unfold heartbeatLimit
  rw [hx]
  exact if_neg (by simp [hl, hp, hn]; omega)

theorem heartbeatLimit_idle {p : Nat} {s : State} (h : (port s p).lost = true ∨ (port s p).catchMissed < bitsN (reg s 0xA008) 0 12 ∨
    p ∉ plannedPorts s ∨ recorded s 3 ≠ []) : heartbeatLimit p s = s := by
  refine if_pos ?_
  rcases h with h | h | h | h <;> simp [h]

theorem Declares.inRun {s u : State} (h : Declares s u) : inRun u = inRun s := by rw [h.rest]; rfl

/-- This device declares its port to each of the neighbours lost, and floods it. -/
def declarePeers (l : List Nat) (s : State) : State := l.foldl (fun t q => portDeclared q (myPos t) (floodDecl 0 q (myPos t) t)) s

theorem declarePeers_spec (l : List Nat) (s : State) : Declares s (declarePeers l s) ∧ ∀ q ∈ l, (q, myPos s) ∈ (declarePeers l s).res.declared ∧
    ∀ y ∈ activePorts s, Output.declaration y.1 y.2 0 q (myPos s) ∈ (declarePeers l s).out := by
  induction l generalizing s with
  | nil => exact ⟨.refl s, fun q hq => absurd hq List.not_mem_nil⟩
  | cons q l ih =>
    obtain ⟨flood, -, sent⟩ := floodDecl_spec 0 q (myPos s) s
    obtain ⟨decl, mem, -⟩ := portDeclared_spec q (myPos s) (floodDecl 0 q (myPos s) s)
    have first := flood.trans decl
    obtain ⟨more, rest⟩ := ih (portDeclared q (myPos s) (floodDecl 0 q (myPos s) s))
    have me : myPos (portDeclared q (myPos s) (floodDecl 0 q (myPos s) s)) = myPos s := by rw [first.rest]; rfl
    have active : activePorts (portDeclared q (myPos s) (floodDecl 0 q (myPos s) s)) = activePorts s := by rw [first.rest]; rfl
    rw [me, active] at rest
    refine ⟨first.trans more, fun r hr => ?_⟩
    rcases List.mem_cons.1 hr with rfl | hr
    · exact ⟨more.declared _ mem, fun y hy => (decl.sent.trans more.sent).sent _ (sent y hy)⟩
    · exact rest r hr

/-- A failure path taken in a step: recorded and logged, and the step held with at least the cause `n` (R318, R319). -/
def takesPath (f : FailPath) (n : Nat) (s : State) : State :=
  pathEv f.code s.run.step f.pos f.part f.arg (addPath f { s with run := { s.run with holdDue := max s.run.holdDue n } })

theorem takesPath_spec (f : FailPath) (n : Nat) (s : State) :
    takesPath f n s = { s with
      run := { s.run with holdDue := max s.run.holdDue n }, res := { s.res with paths := (takesPath f n s).res.paths }
      cnt := (takesPath f n s).cnt, log := (takesPath f n s).log, host := (takesPath f n s).host } ∧
    f ∈ (takesPath f n s).res.paths := by
  unfold takesPath
  have added := addPath_eq f { s with run := { s.run with holdDue := max s.run.holdDue n } }
  have mem := addPath_mem f { s with run := { s.run with holdDue := max s.run.holdDue n } }
  generalize addPath f { s with run := { s.run with holdDue := max s.run.holdDue n } } = v at added mem
  have rest := (logEv_countsOnly 0x0705 (b4 f.code ++ b4 s.run.step ++ b8 v.stroke.count ++ b4 f.pos ++ b4 f.part ++ b4 f.arg) v).rest
  change pathEv f.code s.run.step f.pos f.part f.arg v = _ at rest
  generalize pathEv f.code s.run.step f.pos f.part f.arg v = t at rest
  have paths : t.res.paths = v.res.paths := by rw [rest]
  rw [paths]
  exact ⟨by rw [rest, added], mem⟩

/-- Port `p` is known to be lost. -/
def markLost (p : Nat) (s : State) : State := modPort p (fun P => { P with lost := true }) s

theorem markLost_sameUp (p : Nat) (s : State) : SameUp s (markLost p s) := ⟨fun q c => by
  unfold subp markLost
  by_cases hq : q = p
  · subst hq; rw [port_modPort_self]; rfl
  · rw [port_modPort_ne _ _ hq]⟩

/-- What a lost port and its declarations change. -/
theorem markLost_declared (p : Nat) (l : List Nat) (s u : State) (hu : declarePeers l (markLost p s) = u) :
    u = { s with
      run := { s.run with holdDue := u.run.holdDue }, res := { s.res with declared := u.res.declared, lost := u.res.lost }
      cnt := u.cnt, log := u.log, host := u.host, out := u.out, link := { s.link with port := u.link.port } } ∧
    (port u p).lost = true ∧ (∀ q, q ≠ p → port u q = port s q) ∧
    ∀ q ∈ l, (q, myPos s) ∈ u.res.declared ∧ ∀ y ∈ activePorts s, Output.declaration y.1 y.2 0 q (myPos s) ∈ u.out := by
  obtain ⟨decl, each⟩ := declarePeers_spec l (markLost p s)
  rw [hu] at decl each
  rw [activePorts_up (markLost_sameUp p s)] at each
  have link : u.link = (markLost p s).link := by rw [decl.rest]
  have ports : ∀ q, port u q = port (markLost p s) q := fun q => by unfold port; rw [link]
  refine ⟨?_, ?_, fun q hq => ?_, each⟩
  · rw [link]; exact decl.rest
  · rw [ports]; unfold markLost; rw [port_modPort_self]
  · rw [ports]; exact port_modPort_ne _ _ hq

theorem portLost_eq (p : Nat) (l : List Nat) (s : State) : portLost p l s =
    if !inRun (declarePeers l (markLost p s)) then declarePeers l (markLost p s)
    else takesPath { code := 2, pos := myPos (declarePeers l (markLost p s)), part := p, arg := 0 } 11 (declarePeers l (markLost p s)) := rfl

/-- A port that is declared lost: every neighbour on it is declared, and in a run it takes its path (R318, R323). -/
theorem portLost_spec {p : Nat} {l : List Nat} {s t : State} (ht : portLost p l s = t) :
    (port t p).lost = true ∧ (∀ q, q ≠ p → port t q = port s q) ∧
      t = { s with run := { s.run with holdDue := t.run.holdDue }, res := t.res, cnt := t.cnt, log := t.log, host := t.host, out := t.out
                   link := { s.link with port := t.link.port } } ∧
      t.res.journal = s.res.journal ∧
      (inRun s = true → ({ code := 2, pos := myPos s, part := p, arg := 0 } : FailPath) ∈ t.res.paths ∧ 11 ≤ t.run.holdDue) ∧
      ∀ q ∈ l, (q, myPos s) ∈ t.res.declared ∧ ∀ y ∈ activePorts s, Output.declaration y.1 y.2 0 q (myPos s) ∈ t.out := by
  rw [portLost_eq] at ht
  obtain ⟨rest, mine, others, each⟩ := markLost_declared p l s _ rfl
  generalize declarePeers l (markLost p s) = u at *
  have run : inRun u = inRun s := by rw [rest]; rfl
  have me : myPos u = myPos s := by rw [rest]; rfl
  rw [run, me] at ht
  cases hr : inRun s with
  | false =>
    rw [hr] at ht
    replace ht : u = t := ht
    subst ht
    have journal : u.res.journal = s.res.journal := by rw [rest]
    have res : u.res = { s.res with declared := u.res.declared, lost := u.res.lost } := by rw [rest]
    rw [← res] at rest
    exact ⟨mine, others, rest, journal, fun h => absurd h (by simp), each⟩
  | true =>
    rw [hr] at ht
    replace ht : takesPath { code := 2, pos := myPos s, part := p, arg := 0 } 11 u = t := ht
    obtain ⟨taken, path⟩ := takesPath_spec { code := 2, pos := myPos s, part := p, arg := 0 } 11 u
    rw [ht] at taken path
    clear ht
    have ports : ∀ q, port t q = port u q := fun q => by unfold port; rw [taken]
    have due : t.run.holdDue = max u.run.holdDue 11 := by rw [taken]
    have declared : t.res.declared = u.res.declared := by rw [taken]
    have out : t.out = u.out := by rw [taken]
    refine ⟨by rw [ports]; exact mine, fun q hq => (ports q).trans (others q hq), ?_, by rw [taken, rest],
      fun _ => ⟨path, by rw [due]; exact Nat.le_max_right ..⟩, by rw [declared, out]; exact each⟩
    rw [taken, rest]

/-! ### Declarations that arrive (R288, R323) -/

section
variable {p : PortId} {pos by_ : Fin 4096} {s : State}

/-- A declaration that has been heard already has no effect. -/
theorem declare_heard {k : DeclKind} (h : (k = .portLost ∧ (pos.val, by_.val) ∈ s.res.declared) ∨ (k ≠ .portLost ∧ pos.val ∈ s.res.lost)) :
    declare k pos by_ s = s := by
  cases k with
  | portLost => exact if_pos (by simpa using h)
  | receiverFailed => exact if_pos (by simpa using h)
  | straggler => exact if_pos (by simpa using h)

/-- A lost port is passed on and joins the others; with every planned neighbour's declaration the device is lost (R323). -/
theorem declare_portLost (h : (pos.val, by_.val) ∉ s.res.declared) {t : State} (ht : declare .portLost pos by_ s = t) :
    (pos.val, by_.val) ∈ t.res.declared ∧
      t = { s with run := { s.run with holdDue := t.run.holdDue }, res := { s.res with declared := t.res.declared, lost := t.res.lost }
                   cnt := t.cnt, log := t.log, host := t.host, out := t.out } ∧
      (∀ y ∈ activePorts s, Output.declaration y.1 y.2 0 pos by_ ∈ t.out) ∧
      (plannedPeers s pos ≠ [] → (∀ q ∈ plannedPeers s pos, q = by_.val ∨ (pos.val, q) ∈ s.res.declared) →
        pos.val ∈ t.res.lost ∧ (inRun s = true → pos.val ∉ s.res.lost → 5 ≤ t.run.holdDue)) := by
  have eq : declare .portLost pos by_ s = portDeclared pos by_ (floodDecl 0 pos by_ s) := if_neg (by simpa using h)
  obtain ⟨flood, form, sent⟩ := floodDecl_spec 0 pos by_ s
  obtain ⟨decl, mem, lost⟩ := portDeclared_spec pos by_ (floodDecl 0 pos by_ s)
  have peers : plannedPeers (floodDecl 0 pos by_ s) pos = plannedPeers s pos := by rw [form]; rfl
  have res : (floodDecl 0 pos by_ s).res = s.res := by rw [form]
  rw [peers, res, flood.inRun] at lost
  rw [← eq, ht] at decl mem lost
  exact ⟨mem, (flood.trans decl).rest, fun y hy => decl.sent.sent _ (sent y hy), lost⟩

/-- A failed receiver is passed on and lost; the run goes on (R288). -/
theorem declare_receiverFailed (h : pos.val ∉ s.res.lost) {t : State} (ht : declare .receiverFailed pos by_ s = t) :
    pos.val ∈ t.res.lost ∧ t.run = s.run ∧ ∀ y ∈ activePorts s, Output.declaration y.1 y.2 1 pos by_ ∈ t.out := by
  have eq : declare .receiverFailed pos by_ s = loseDevice pos 3 (floodDecl 1 pos by_ s) := if_neg (by simpa using h)
  obtain ⟨-, form, sent⟩ := floodDecl_spec 1 pos by_ s
  obtain ⟨-, lost, run, out⟩ := Declares.lose pos 3 (floodDecl 1 pos by_ s)
  rw [← eq, ht] at lost run out
  exact ⟨lost, run.trans (by rw [form]), fun y hy => by rw [out]; exact sent y hy⟩

/-- A straggler is passed on and lost, and a step is held (R324). -/
theorem declare_straggler (h : pos.val ∉ s.res.lost) {t : State} (ht : declare .straggler pos by_ s = t) :
    pos.val ∈ t.res.lost ∧ (inRun s = true → 5 ≤ t.run.holdDue) ∧ ∀ y ∈ activePorts s, Output.declaration y.1 y.2 2 pos by_ ∈ t.out := by
  have eq : declare .straggler pos by_ s = loseAndHold pos 4 (floodDecl 2 pos by_ s) := if_neg (by simpa using h)
  obtain ⟨flood, form, sent⟩ := floodDecl_spec 2 pos by_ s
  obtain ⟨-, lost, due, out⟩ := Declares.loseHold pos 4 (floodDecl 2 pos by_ s)
  have res : (floodDecl 2 pos by_ s).res = s.res := by rw [form]
  rw [res, flood.inRun] at due
  rw [← eq, ht] at lost due out
  exact ⟨lost, fun hr => due hr h, fun y hy => by rw [out]; exact sent y hy⟩

theorem exec_declaration_up (k : DeclKind) (h : (port s p).sub0.up = true ∨ (port s p).sub1.up = true) :
    exec (.declaration p k pos by_) s = .next (declare k pos by_ s) :=
  (exec_declaration ..).trans (congrArg _ (if_pos (by simpa using h)))

end

/-- Settles O53: the decisions are `straggler`, `portLost` and `declare`, taken once the journal has room for them. -/
theorem lostDevices : Obligations.LostDevices := by
  refine ⟨fun c s p k hp hr he hn hh hl hk => ⟨fun hj => ?easy, fun hj => ?easyFull⟩, fun c s h => ?easyIdle,
    fun p s x hl hc hp hn hx => ⟨fun hj => ?beat, fun hj => ?beatFull⟩, fun p s h => ?beatIdle, fun p k pos by_ s hup => ?declared,
    fun p k pos by_ s h0 h1 => ?down⟩
  case easy =>
    rw [← ownCause_eq] at hk
    refine ⟨_, (exec_easyLimit c s).trans (congrArg _ ((easyLimit_due hp hr he hn hh hl).trans (takeTimed_runs hj))), ?_⟩
    rw [← hk]
    exact straggler_spec hr hh hl
  case easyFull =>
    rw [exec_easyLimit, easyLimit_due hp hr he hn hh hl, takeTimed_full hj, hh]
    rfl
  case easyIdle => exact congrArg _ (easyLimit_idle h)
  case beat =>
    refine ⟨_, (exec_heartbeatLimit p s).trans (congrArg _ ((heartbeatLimit_due hl hc hp hn hx).trans (takeTimed_runs hj))), ?_⟩
    obtain ⟨lost, ports, only, journal, path, each⟩ := portLost_spec (s := journalled 3 ((portPeers x p).headD 0xFFFF) p s) rfl
    exact ⟨lost, ⟨_, journal⟩, path, only, ports, fun b hb he => each _ (mem_portPeers hb he)⟩
  case beatFull => rw [exec_heartbeatLimit, heartbeatLimit_due hl hc hp hn hx, takeTimed_full hj]
  case beatIdle => exact congrArg _ (heartbeatLimit_idle h)
  case declared =>
    refine ⟨fun hk h => ?_, fun hk h => ?_, fun hk h => ?_, fun h => ?_⟩
    · subst hk; exact ⟨_, exec_declaration_up _ hup, declare_portLost h rfl⟩
    · subst hk; exact ⟨_, exec_declaration_up _ hup, declare_receiverFailed h rfl⟩
    · subst hk; exact ⟨_, exec_declaration_up _ hup, declare_straggler h rfl⟩
    · exact (exec_declaration_up k hup).trans (congrArg _ (declare_heard h))
  case down => exact (exec_declaration ..).trans (congrArg _ (if_neg (by simp [h0, h1])))

end Sys2Proof.Machine
end

section
/-! PROOFS. Control stalls, and the deadlines of the reduction and the distribution (R37, R284, R285, R288, R293 to R295, R311, R323). -/

namespace Sys2Proof.Machine

open Sys2Proof

/-! ### Rows -/

theorem exec_controlReductionStall (id : Nat) (s : State) : exec (.controlReductionStall id) s = .next (controlStall id s) := rfl
theorem exec_reductionDeadline (s : State) : exec .reductionDeadline s = .next (reductionDeadline s) := rfl
theorem exec_distributionDeadline (s : State) : exec .distributionDeadline s = .next (distributionDeadline s) := rfl
theorem exec_reduceDown (p : PortId) (b : SubId) (w : InstrWord) (body : List Byte) (s : State) : exec (.reduceDown p b w body) s =
    .next (atEpoch s (arrive 0 3 p b w.toNat body (fun h u => reduceDown h body u) s)) := rfl

/-! ### Control stalls (R285) -/

theorem controlStall_due {id : Nat} {s : State} (ho : (ctlGet s id).own = true) (hs : (ctlGet s id).stalled = false)
    (hw : (ctlGet s id).since + 64 ≤ s.stroke.count) :
    controlStall id s = health 7 1 (ctlMod id (fun c => { c with stalled := true }) s) :=
  if_pos (by simp [ho, hs, hw])

theorem controlStall_idle {id : Nat} {s : State}
    (h : (ctlGet s id).own = false ∨ (ctlGet s id).stalled = true ∨ s.stroke.count < (ctlGet s id).since + 64) : controlStall id s = s := by
  refine if_neg ?_
  rcases h with h | h | h
  · simp [h]
  · simp [h]
  · have : ¬ (ctlGet s id).since + 64 ≤ s.stroke.count := by omega
    simp [this]

/-- A stall is marked at its reduction alone, and counted once by the health monitor. -/
theorem stalled_spec (id : Nat) (s : State) : ∃ t, health 7 1 (ctlMod id (fun c => { c with stalled := true }) s) = t ∧
    ctlGet t id = { ctlGet s id with stalled := true } ∧ (∀ j, j ≠ id → ctlGet t j = ctlGet s j) ∧
    sget natD t.res.now 7 = sget natD s.res.now 7 + 1 ∧
    t = { s with link := { s.link with ctl := t.link.ctl }, res := { s.res with now := t.res.now } } :=
  ⟨_, rfl, ctlGet_ctlMod_self id (fun c => { c with stalled := true }) s,
    fun _ hj => ctlGet_ctlMod_ne (fun c => { c with stalled := true }) s hj, by
      show sget natD (smod natD s.res.now 7 (· + 1)) 7 = _; rw [sget_smod_self], rfl⟩

/-! ### The reduction deadline (R293 to R295) -/

theorem reductionDeadline_idle {s : State} (h : s.run.phase ≠ .reduction ∨ redDue s = false ∨ recorded s 1 ≠ [] ∨ s.red.pass ∉ [1, 3, 4]) :
    reductionDeadline s = s := by
  refine if_pos ?_
  rcases h with h | h | h | h
  · simp [h]
  · simp [h]
  · simp [h]
  · have : ¬ (s.red.pass = 1 ∨ s.red.pass = 3 ∨ s.red.pass = 4) := by simpa using h
    simp [not_or.1 this, (not_or.1 (not_or.1 this).2)]

/-- The operand that joins a control reduction. -/
def withOperand (s : State) (id v : Nat) : CtlRed :=
  { ctlGet s id with own := true, since := s.stroke.count, acc := ctlCombine (ctlOp id) (ctlGet s id).acc v }

/-- The reduction as a deadline leaves it: at the checkpoint, none of whose results have come (R293). -/
def forced (r : RedSt) : RedSt := { r with pass := 2, byDeadline := true, got := [] }

/-- A deadline has forced the checkpoint of `s`, and nothing else has changed but its control reductions and what sending brings. -/
structure Forced (s u : State) : Prop where
  net : NetOnly { s with red := forced s.red, link := { s.link with ctl := u.link.ctl } } u
  up : SameUp s u

namespace Forced

variable {s u : State} {id v : Nat} {g : Nat → State → State}

theorem ended (s : State) : Forced s (redEnded s) := by
  obtain ⟨-, -, -, -, -, -, form⟩ := redEnded_spec s
  change _ = ({ s with red := forced s.red, link := { s.link with ctl := (redEnded s).link.ctl } } : State) at form
  generalize redEnded s = u at form
  refine ⟨⟨by rw [form], by rw [form], fun x _ => by rw [form]⟩, .of fun p => ?_⟩
  unfold port; rw [form]

theorem tree (h : Forced s u) (id : Nat) : ctlTree u id = ctlTree s id := by
  unfold ctlTree amended myPos; rw [h.net.rest]

/-- An operand joins a reduction for which a part of the tree is still owed. -/
theorem waits (h : u = { s with red := forced s.red, link := { s.link with ctl := u.link.ctl } }) (hg : ctlGet u id = ctlGet s id)
    (hw : ∃ x ∈ (ctlTree s id).2, x ∉ (ctlGet s id).heard) :
    let t := ctlOwn g id v u
    t = { s with red := forced s.red, link := { s.link with ctl := t.link.ctl } } ∧ ctlGet t id = withOperand s id v ∧
      ∀ j, j ≠ id → ctlGet t j = ctlGet u j := by
  have tree : ctlTree u id = ctlTree s id := by unfold ctlTree amended myPos; rw [h]
  obtain ⟨t, ht, own, others, form⟩ := ctlOwn_waits (g := g) (v := v) (by rw [tree, hg]; exact hw)
  have stroke : u.stroke = s.stroke := by rw [h]
  rw [ht]
  refine ⟨?_, ?_, others⟩
  · rw [form, h]
  · rw [own, hg, stroke]; rfl

/-- A leaf of the tree sends its operand up. -/
theorem leaf {q : Nat} (h : Forced s u) (hg : ctlGet u id = ctlGet s id) (ht : ctlTree s id = (some q, [])) (hd : ctlGet s id = ctlD id) :
    let t := ctlOwn g id v u
    Forced s t ∧ Grows u t ∧ (∀ j, j ≠ id → ctlGet t j = ctlGet u j) ∧
      ∀ y, routeOf s q = some y → (subp s y.1 y.2).up = true →
        ∃ g, Output.packet y.1 y.2 g (ctlBody id (ctlCombine (ctlOp id) (ctlD id).acc v)) ∈ t.out := by
  obtain ⟨t, eq, net, others, grows, up, sent⟩ := ctlOwn_leaf (g := g) (v := v) (by rw [h.tree, ht]) (hg.trans hd)
  have route : routeOf u q = routeOf s q := by unfold routeOf; rw [h.net.rest]
  rw [eq]
  exact ⟨⟨net.over h.net, h.up.trans up⟩, grows, others, fun y hr hu => sent y (route.trans hr) (by rw [h.up.same]; exact hu)⟩

end Forced

/-- Where every reduction of the checkpoint still waits for a part of its tree, a deadline gives this device's operands alone. -/
theorem reductionDeadline_waits {s : State} (h1 : s.run.phase = .reduction) (h2 : redDue s = true) (h0 : recorded s 1 = [])
    (h3 : s.red.pass ∈ [1, 3, 4]) (hw : ∀ id ∈ [ctlMissing, ctlNonfinite, ctlOvf], ∃ x ∈ (ctlTree s id).2, x ∉ (ctlGet s id).heard) :
    ∃ t, exec .reductionDeadline s = .next t ∧ t.red = forced s.red ∧ ctlGet t ctlRedDone = ctlD ctlRedDone ∧
      (∀ x ∈ [(ctlMissing, myMissing s), (ctlNonfinite, myNonfinite s), (ctlOvf, b2n (myOvf s))], ctlGet t x.1 = withOperand s x.1 x.2) ∧
      t = { s with red := t.red, link := { s.link with ctl := t.link.ctl } } := by
  obtain ⟨F, G, H, eq⟩ := reductionDeadline_eq h1 h2 h0 h3
  obtain ⟨-, -, -, -, kept, done, form⟩ := redEnded_spec s
  change redEnded s = { s with red := forced s.red, link := { s.link with ctl := (redEnded s).link.ctl } } at form
  rw [exec_reductionDeadline, eq]
  clear eq
  generalize redEnded s = u at kept done form
  obtain ⟨form1, get1, same1⟩ := Forced.waits (g := H) (v := myMissing s) form (kept ctlMissing (by decide)) (hw ctlMissing (by simp))
  generalize ctlOwn H ctlMissing (myMissing s) u = u1 at *
  have nonfinite : ctlGet u1 ctlNonfinite = ctlGet s ctlNonfinite := (same1 _ (by decide)).trans (kept _ (by decide))
  obtain ⟨form2, get2, same2⟩ := Forced.waits (g := G) (v := myNonfinite s) form1 nonfinite (hw ctlNonfinite (by simp))
  generalize ctlOwn G ctlNonfinite (myNonfinite s) u1 = u2 at *
  have ovf : ctlGet u2 ctlOvf = ctlGet s ctlOvf := (same2 _ (by decide)).trans ((same1 _ (by decide)).trans (kept _ (by decide)))
  obtain ⟨form3, get3, same3⟩ := Forced.waits (g := F) (v := b2n (myOvf s)) form2 ovf (hw ctlOvf (by simp))
  generalize ctlOwn F ctlOvf (b2n (myOvf s)) u2 = u3 at *
  have red : u3.red = forced s.red := by rw [form3]
  rw [← red] at form3
  refine ⟨u3, rfl, red, ?_, ?_, form3⟩
  · exact (same3 _ (by decide)).trans ((same2 _ (by decide)).trans ((same1 _ (by decide)).trans done))
  · simp only [List.forall_mem_cons, List.not_mem_nil, false_imp_iff, implies_true, and_true]
    exact ⟨(same3 _ (by decide)).trans ((same2 _ (by decide)).trans get1), (same3 _ (by decide)).trans get2, get3⟩

/-- Where this device is a leaf of every tree of the checkpoint, a deadline sends its operands up (R284, R293). -/
theorem reductionDeadline_leaf {s : State} (h1 : s.run.phase = .reduction) (h2 : redDue s = true) (h0 : recorded s 1 = [])
    (h3 : s.red.pass ∈ [1, 3, 4]) {q : Nat}
    (hq : ∀ id ∈ [ctlMissing, ctlNonfinite, ctlOvf], ctlTree s id = (some q, []) ∧ ctlGet s id = ctlD id) :
    ∃ t, exec .reductionDeadline s = .next t ∧ t.red = forced s.red ∧
      NetOnly { s with red := t.red, link := { s.link with ctl := t.link.ctl } } t ∧
      ∀ y, routeOf s q = some y → (subp s y.1 y.2).up = true →
        ∀ x ∈ [(ctlMissing, myMissing s), (ctlNonfinite, myNonfinite s), (ctlOvf, b2n (myOvf s))],
          ∃ g, Output.packet y.1 y.2 g (ctlBody x.1 (ctlCombine (ctlOp x.1) (ctlD x.1).acc x.2)) ∈ t.out := by
  obtain ⟨F, G, H, eq⟩ := reductionDeadline_eq h1 h2 h0 h3
  obtain ⟨-, -, -, -, kept, -, -⟩ := redEnded_spec s
  have start := Forced.ended s
  obtain ⟨⟨treeM, getM⟩, ⟨treeN, getN⟩, treeO, getO⟩ : (ctlTree s ctlMissing = (some q, []) ∧ ctlGet s ctlMissing = ctlD ctlMissing) ∧
      (ctlTree s ctlNonfinite = (some q, []) ∧ ctlGet s ctlNonfinite = ctlD ctlNonfinite) ∧
      (ctlTree s ctlOvf = (some q, []) ∧ ctlGet s ctlOvf = ctlD ctlOvf) := by simpa using hq
  rw [exec_reductionDeadline, eq]
  clear eq
  generalize redEnded s = u at kept start
  obtain ⟨forced1, -, same1, sent1⟩ := start.leaf (g := H) (v := myMissing s) (kept ctlMissing (by decide)) treeM getM
  generalize ctlOwn H ctlMissing (myMissing s) u = u1 at *
  have nonfinite : ctlGet u1 ctlNonfinite = ctlGet s ctlNonfinite := (same1 _ (by decide)).trans (kept _ (by decide))
  obtain ⟨forced2, grows2, same2, sent2⟩ := forced1.leaf (g := G) (v := myNonfinite s) nonfinite treeN getN
  generalize ctlOwn G ctlNonfinite (myNonfinite s) u1 = u2 at *
  have ovf : ctlGet u2 ctlOvf = ctlGet s ctlOvf := (same2 _ (by decide)).trans ((same1 _ (by decide)).trans (kept _ (by decide)))
  obtain ⟨forced3, grows3, -, sent3⟩ := forced2.leaf (g := F) (v := b2n (myOvf s)) ovf treeO getO
  generalize ctlOwn F ctlOvf (b2n (myOvf s)) u2 = u3 at *
  have red : u3.red = forced s.red := by rw [forced3.net.rest]
  refine ⟨u3, rfl, red, by rw [red]; exact forced3.net, fun y hr hu => ?_⟩
  simp only [List.forall_mem_cons, List.not_mem_nil, false_imp_iff, implies_true, and_true]
  exact ⟨(sent1 y hr hu).imp fun _ h => (grows2.trans grows3).sent _ h, (sent2 y hr hu).imp fun _ h => grows3.sent _ h, sent3 y hr hu⟩

/-! ### Too many exclusions (R294, R295) -/

theorem skipStep_spec (s : State) : (skipStep s).run = { s.run with skipped := true, redDone := true } ∧ (skipStep s).red.pass = 5 ∧
    (skipStep s).dev = s.dev ∧ (skipStep s).link = s.link := ⟨rfl, rfl, rfl, rfl⟩

/-- The last answer of a checkpoint whose exclusions are too many skips the step. -/
theorem reduceDown_skips {p : PortId} {b : SubId} {w : InstrWord} {body : List Byte} {s : State} {pl : Plan} {m f : Nat}
    (A : Arrives s p b w.toNat body 0 3) (ha : (readHdr w.toNat).arg = ctlOvf) (hr : s.run.phase = .reduction) (hp : s.plan = some pl)
    (hb : s.red.byDeadline = false) (hm : s.red.missing = [m]) (hf : s.red.nfSet = [f]) (hg : s.red.got = [ctlMissing, ctlNonfinite])
    (h : (f ≠ 0 ∧ pl.nfSkip = true) ∨ pl.r ≤ s.red.excluded.length) :
    ∃ t, exec (.reduceDown p b w body) s = .next t ∧ t.run = { s.run with skipped := true, redDone := true } ∧ t.red.pass = 5 ∧
      t.dev = s.dev := by
  obtain ⟨v, hv, -, net⟩ := down_spec ctlOvf (ctlOperand ctlOvf body) s
  have run : v.run = s.run := by rw [net.rest]
  have red : v.red = s.red := by rw [net.rest]
  have plan : v.plan = s.plan := by rw [net.rest]
  have dev : v.dev = s.dev := by rw [net.rest]
  have epoch : v.link.epoch = s.link.epoch := by rw [net.rest]
  have skips : reduceDown (readHdr w.toNat) body s = skipStep (redAnswered (ctlOperand ctlOvf body) v) := by
    unfold reduceDown
    rw [ha]
    dsimp only
    rw [← hv]
    unfold ctlResult
    iterate 8 rw [if_neg (by decide)]
    exact redResult_skip (by rw [run, hr]) (plan.trans hp) (by rw [red, hb]) (by rw [red, hm]) (by rw [red, hf]) (by rw [red, hg])
      (by rw [red]; exact h)
  obtain ⟨srun, spass, sdev, slink⟩ := skipStep_spec (redAnswered (ctlOperand ctlOvf body) v)
  refine ⟨_, ?_, srun.trans (by rw [← run]; rfl), spass, sdev.trans dev⟩
  rw [exec_reduceDown, arrive_runs A, returnHop_ctl A.cls, skips, atEpoch_same (by rw [slink]; exact epoch)]

/-! ### The distribution deadline (R288) -/

/-- The receivers whose leg has not settled are declared failed. -/
def failLegs (l : List FlowCtx) (s : State) : State := l.foldl (fun t f => if legSettled t f.id then t else failLeg f t) s

/-- The path of a lost device stands for the boundary (R318, R325). -/
def takesLostPath (s : State) : State := { s with res := { s.res with path := lostCode s } }

theorem distributionDeadline_idle {s : State} (h : s.run.phase ≠ .distribution ∨ s.run.distDone = true ∨ distDue s = false ∨
    recorded s 2 ≠ [] ∨ (∀ f ∈ distLegs s, legSettled s f.id = true)) : distributionDeadline s = s := by
  unfold distributionDeadline
  by_cases hc : (s.run.phase != .distribution || s.run.distDone || !distDue s || !(recorded s 2).isEmpty) = true
  · exact if_pos hc
  · rw [if_neg hc]
    refine if_pos (List.all_eq_true.2 ?_)
    rcases h with h | h | h | h | h
    · simp [h] at hc
    · simp [h] at hc
    · simp [h] at hc
    · simp [h] at hc
    · exact h

theorem distributionDeadline_due {s : State} (h1 : s.run.phase = .distribution) (h2 : s.run.distDone = false) (h3 : distDue s = true)
    (h4 : recorded s 2 = []) (hf : ∃ f ∈ distLegs s, legSettled s f.id = false) :
    distributionDeadline s = distCheck (takesLostPath (failLegs (distLegs s) s)) := by
  obtain ⟨f, hm, hu⟩ := hf
  unfold distributionDeadline
  rw [if_neg (by simp [h1, h2, h3, h4]), if_neg]
  · rfl
  · rw [List.all_eq_true]
    intro h
    rw [h f hm] at hu
    exact absurd hu (by decide)

/-- The full journal's fault flag, and the hold that it brings (R311). -/
def journalFault (s : State) : State :=
  { s with res := { s.res with journalFull := true }, run := { s.run with holdDue := max s.run.holdDue 8 } }

theorem journalFault_twice (s : State) : journalFault (journalFault s) = journalFault s := by
  have : max (max s.run.holdDue 8) 8 = max s.run.holdDue 8 := by omega
  unfold journalFault
  dsimp only
  rw [this]

theorem failLeg_full {f : FlowCtx} {s : State} (h : 8192 ≤ s.res.journal.length) : failLeg f s = journalFault s := takeTimed_full h

/-- A full journal declares no receiver failed. -/
theorem failLegs_full (l : List FlowCtx) {s : State} (h : 8192 ≤ s.res.journal.length) :
    failLegs l s = if l.all (fun f => legSettled s f.id) then s else journalFault s := by
  have again : ∀ l : List FlowCtx, failLegs l (journalFault s) = journalFault s := fun l => by
    unfold failLegs
    induction l with
    | nil => rfl
    | cons f l ih =>
      rw [List.foldl_cons, failLeg_full (s := journalFault s) h, journalFault_twice, ite_self, ih]
  induction l with
  | nil => rfl
  | cons f l ih =>
    have cons : failLegs (f :: l) s = failLegs l (if legSettled s f.id then s else failLeg f s) := rfl
    rw [cons, failLeg_full h, List.all_cons]
    cases legSettled s f.id
    · exact again l
    · exact ih

/-- No part of the completion is given while a receiver has not settled. -/
theorem distCheck_unsettled {s : State} (hf : ∃ f ∈ distLegs s, legSettled s f.id = false) : distCheck s = s := by
  obtain ⟨f, hm, hu⟩ := hf
  refine if_neg ?_
  have : (distLegs s).all (fun f => legSettled s f.id) = false := by
    rw [List.all_eq_false]
    exact ⟨f, hm, by rw [hu]; decide⟩
  simp [this]

theorem distCheck_given {s : State} (h : (ctlGet s ctlDist).own = true) : distCheck s = s := if_neg (by simp [h])

/-- Once every receiver has settled, this device's part of the completion is given. -/
theorem distCheck_gives {s : State} (h1 : s.run.phase = .distribution) (h2 : s.run.distDone = false) (h3 : (ctlGet s ctlDist).own = false)
    (hs : ∀ f ∈ distLegs s, legSettled s f.id = true) : distCheck s = ctlOwn (ctlResult ctlDist) ctlDist 1 s :=
  if_pos (by simp only [h1, h2, h3, List.all_eq_true.2 hs]; rfl)

/-- A full journal holds the step instead of losing receivers (R311). -/
theorem distributionDeadline_full {s : State} (h1 : s.run.phase = .distribution) (h2 : s.run.distDone = false) (h3 : distDue s = true)
    (h4 : recorded s 2 = []) (hf : ∃ f ∈ distLegs s, legSettled s f.id = false) (hj : 8192 ≤ s.res.journal.length) :
    distributionDeadline s = { s with
      res := { s.res with journalFull := true, path := lostCode s }, run := { s.run with holdDue := max s.run.holdDue 8 } } := by
  have unsettled : ¬ (distLegs s).all (fun f => legSettled s f.id) = true := by
    obtain ⟨f, hm, hu⟩ := hf
    rw [List.all_eq_true]
    intro h
    rw [h f hm] at hu
    exact absurd hu (by decide)
  rw [distributionDeadline_due h1 h2 h3 h4 hf, failLegs_full _ hj, if_neg unsettled]
  exact distCheck_unsettled (s := takesLostPath (journalFault s)) hf

/-- A due deadline loses each receiver that has not settled, and this device's part of the completion is then given (R288, R323). -/
theorem distributionDeadline_loses {s : State} (hj : s.res.journal.length + (distLegs s).length ≤ 8192) (hn : ((distLegs s).map (·.id)).Nodup) {v : State}
    (hv : takesLostPath (failLegs (distLegs s) s) = v) :
    v.run = { s.run with holdDue := v.run.holdDue } ∧ v.dev = s.dev ∧ v.res.path = lostCode v ∧
      (∀ f ∈ distLegs s, legSettled v f.id = true) ∧
      (∀ f ∈ distLegs s, legSettled s f.id = false → f.peer ∈ v.res.lost ∧
        ({ kind := 2, step := s.run.step, stroke := s.stroke.count, pos := f.peer, arg := 0 } : JournalEntry) ∈ v.res.journal ∧
        ∀ y ∈ activePorts s, Output.declaration y.1 y.2 1 f.peer (myPos s) ∈ v.out) ∧
      v.stroke = s.stroke ∧ v.link = { s.link with failedLegs := v.link.failedLegs } ∧ v.plan = s.plan := by
  obtain ⟨legs, settled, lost⟩ := failLegs_spec (distLegs s) s hj hn _ rfl
  change LegsFail s (failLegs (distLegs s) s) at legs
  change ∀ f ∈ distLegs s, legSettled (failLegs (distLegs s) s) f.id = true at settled
  change ∀ f ∈ distLegs s, legSettled s f.id = false → f.peer ∈ (failLegs (distLegs s) s).res.lost ∧ _ ∈ (failLegs (distLegs s) s).res.journal ∧
    ∀ y ∈ activePorts s, _ ∈ (failLegs (distLegs s) s).out at lost
  have rest := legs.rest
  generalize failLegs (distLegs s) s = w at *
  subst hv
  refine ⟨?_, ?_, rfl, settled, lost, ?_, ?_, ?_⟩
  · show w.run = { s.run with holdDue := w.run.holdDue }; rw [rest]
  · show w.dev = _; rw [rest]
  · show w.stroke = _; rw [rest]
  · show w.link = { s.link with failedLegs := w.link.failedLegs }; rw [rest]
  · show w.plan = _; rw [rest]

/-- Settles O54: a stall is counted by the health monitor; the reduction deadline joins the operands of the checkpoint, whose decision
is `redDecide`'s; the distribution deadline fails the legs that have not settled, one timed decision for each. -/
theorem deadlines : Obligations.Deadlines := by
  refine ⟨⟨fun id s ho hs hw => ?stall, fun id s h => ?noStall⟩,
    ⟨fun s h => ?redIdle, fun s h1 h2 h0 h3 => ⟨fun hw => reductionDeadline_waits h1 h2 h0 h3 hw, fun q hq => reductionDeadline_leaf h1 h2 h0 h3 hq⟩,
      fun p b w body s pl m f A ha hr hp hb hm hf hg h => reduceDown_skips A ha hr hp hb hm hf hg h⟩,
    fun s h => ?distIdle, fun s h1 h2 h3 h4 hf hj => ?distFull, fun s h1 h2 h3 h4 hf hj hn => ?distDue⟩
  case stall =>
    obtain ⟨t, ht, effect⟩ := stalled_spec id s
    exact ⟨t, (exec_controlReductionStall ..).trans (congrArg _ ((controlStall_due ho hs hw).trans ht)), effect⟩
  case noStall => exact congrArg _ (controlStall_idle h)
  case redIdle => exact congrArg _ (reductionDeadline_idle h)
  case distIdle => exact congrArg _ (distributionDeadline_idle h)
  case distFull => exact congrArg _ (distributionDeadline_full h1 h2 h3 h4 hf hj)
  case distDue =>
    obtain ⟨run, dev, path, settled, lost, stroke, link, plan⟩ := distributionDeadline_loses hj hn rfl
    have due := distributionDeadline_due h1 h2 h3 h4 hf
    generalize takesLostPath (failLegs (distLegs s) s) = v at *
    have legs : distLegs v = distLegs s := by unfold distLegs; rw [plan]
    have ctl : ctlGet v ctlDist = ctlGet s ctlDist := ctlGet_of (by rw [link]) _
    have gives : (ctlGet s ctlDist).own = false → distCheck v = ctlOwn (ctlResult ctlDist) ctlDist 1 v := fun h =>
      distCheck_gives (by rw [run]; exact h1) (by rw [run]; exact h2) (by rw [ctl]; exact h) (by rw [legs]; exact settled)
    refine ⟨v, run, dev, path, settled, lost, (exec_distributionDeadline s).trans (congrArg _ due),
      fun h => distCheck_given (by rw [ctl]; exact h), fun h hw => ?_, fun q ht hg => ?_⟩
    · obtain ⟨u, hu, own, -, form⟩ := ctlOwn_waits (g := ctlResult ctlDist) (v := 1) (by rw [ctl]; exact hw)
      refine ⟨u, (gives h).trans hu, ?_, form⟩
      rw [own, ctl, stroke]
    · obtain ⟨u, hu, net, -, -, -, sent⟩ := ctlOwn_leaf (g := ctlResult ctlDist) (v := 1) ht (ctl.trans hg)
      refine ⟨u, (gives (by rw [hg]; rfl)).trans hu, net, fun y hr hu => sent y ?_ ?_⟩
      · unfold routeOf at hr ⊢; rw [link]; exact hr
      · unfold subp port at hu ⊢; rw [link]; exact hu

end Sys2Proof.Machine
end


section
/-! PROOFS. Stream transfers, the descriptor cache, and routers that are off (R29, R250 to R264). -/

namespace Sys2Proof.Machine

open Sys2Proof

theorem settle_idle {s : State} (h : strIdle s) : settle s = s := drainAll_idle h 64

theorem unitRoom_congr {s t : State} (h1 : t.regs = s.regs) (h2 : t.renumbered = s.renumbered) (a : Nat) : unitRoom t a = unitRoom s a := by
  unfold unitRoom
  rw [memRegion_congr h1 h2]

/-! ### A transfer in parts -/

/-- A transfer's bytes and what its read finds are counted at both ends. -/
def countedMove (a b n : Nat) (ecc : EccOutcome) (s : State) : State :=
  countBytes true b n a (countBytes false a n b (readCount a n ecc s))

/-- A poisoned read or a refused write of a pass is reported. -/
def reportedMove (d : Nat) (p : PassSt) (a b r wr : Nat) (s : State) : State :=
  if r != 0 then transferPoison d a r (p.issuer.map (·.core)) s
  else if wr != 0 then transferPoison d b wr (p.issuer.map (·.core)) s else s

/-- The pass's cursor moves on by `n` bytes. -/
def cursorMoved (d : Nat) (p : PassSt) (n : Nat) (poison : Bool) (s : State) : State :=
  modDesc d (fun D => { D with pass := D.pass.map fun q => { q with done := p.done + n, poisoned := q.poisoned || poison } }) s

/-- The pass ends once all its bytes are done. -/
def passOn (d : Nat) (p : PassSt) (n : Nat) (s : State) : State :=
  if p.total ≤ p.done + n then settle (endPass d s) else s

/-- The state after a transfer's bytes have landed, before the cursor moves. -/
def landedMove (d : Nat) (p : PassSt) (y : DescImg) (dst : List Blk) (a b n : Nat) (data : HostData) (ecc : EccOutcome) (s : State) : State :=
  let t := reportedMove d p a b (readSource s a n data ecc).2 (writeReason s b n) (countedMove a b n ecc s)
  if writeReason s b n != 0 then t
  else destPut y dst p.done (readSource s a n data ecc).1 ((readSource s a n data ecc).2 != 0) t

theorem moveBytes_eq (d : Nat) (p : PassSt) (y : DescImg) (dst : List Blk) (a b n : Nat) (data : HostData) (ecc : EccOutcome) (s : State) :
    moveBytes d p y dst a b n data ecc s =
      passOn d p n (cursorMoved d p n ((readSource s a n data ecc).2 != 0) (landedMove d p y dst a b n data ecc s)) := rfl

theorem countedMove_only (a b n : Nat) (ecc : EccOutcome) (s : State) : EccOnly s (countedMove a b n ecc s) :=
  ((readCount_only ..).trans (.counts (countBytes_counts ..))).trans (.counts (countBytes_counts ..))

theorem reportedMove_only (d : Nat) (p : PassSt) (a b r wr : Nat) (s : State) : PoisonOnly s (reportedMove d p a b r wr s) :=
  .ite (transferPoison_only ..) (.ite (transferPoison_only ..) (.refl s))

theorem desc_cursorMoved {d : Nat} {p : PassSt} (n : Nat) (poison : Bool) {s : State} (h : (desc s d).pass = some p) :
    desc (cursorMoved d p n poison s) d = { desc s d with pass := some { p with done := p.done + n, poisoned := p.poisoned || poison } } := by
  unfold cursorMoved
  rw [desc_modDesc_self, h]
  rfl

theorem desc_cursorMoved_ne (d : Nat) (p : PassSt) (n : Nat) (poison : Bool) (s : State) {e : Nat} (h : e ≠ d) :
    desc (cursorMoved d p n poison s) e = desc s e := desc_modDesc_ne _ _ h

theorem passOn_running {d : Nat} {p : PassSt} {n : Nat} (s : State) (h : p.done + n < p.total) : passOn d p n s = s :=
  if_neg (Nat.not_le.mpr h)

theorem passOn_last {d : Nat} {p : PassSt} {n : Nat} (s : State) (h : p.total ≤ p.done + n) : passOn d p n s = settle (endPass d s) :=
  if_pos h

/-- With no command waiting in a queue, the end of a pass is its actions alone. -/
theorem settle_endPass_ended {d : Nat} {s : State} {q : PassSt} (hq : (desc s d).pass = some q) (hw : (desc s d).waiting = [])
    (hi : strIdle s) : PassEnded d s (settle (endPass d s)) := by
  have E := endPass_ended hq hw
  rw [settle_idle fun c hc => (E.queues c).trans (hi c hc)]
  exact E

/-- A pass of `s` has moved on by `n` bytes in `v`, and `u` is what follows: the same, or the end of the pass. -/
structure PassMoved (d : Nat) (q : PassSt) (n : Nat) (poisoned : Bool) (s v u : State) : Prop where
  own : desc v d = { desc s d with pass := some { q with done := q.done + n, poisoned := poisoned } }
  others : ∀ e, e ≠ d → desc v e = desc s e
  runs : q.done + n < q.total → u = v
  ends : q.total ≤ q.done + n → u = settle (endPass d v)

theorem passMoved {d : Nat} {q : PassSt} (n : Nat) (poison : Bool) {s t : State} (hq : (desc s d).pass = some q) (ht : t.stm = s.stm) :
    PassMoved d q n (q.poisoned || poison) s (cursorMoved d q n poison t) (passOn d q n (cursorMoved d q n poison t)) where
  own := by rw [desc_cursorMoved n poison ((congrArg DescSt.pass (desc_of ht d)).trans hq), desc_of ht]
  others e he := (desc_cursorMoved_ne d q n poison t he).trans (desc_of ht e)
  runs h := passOn_running _ h
  ends h := passOn_last _ h

theorem landedMove_stm (d : Nat) (p : PassSt) (y : DescImg) (dst : List Blk) (a b n : Nat) (data : HostData) (ecc : EccOutcome) (s : State) :
    (landedMove d p y dst a b n data ecc s).stm = s.stm := by
  unfold landedMove
  extract_lets t
  have R : PoisonOnly (countedMove a b n ecc s) t := reportedMove_only ..
  have ht : t.stm = s.stm := by rw [R.rest, (countedMove_only a b n ecc s).rest]
  split
  · exact ht
  · rw [(DeliverOnly.destPut y dst p.done (readSource s a n data ecc).1 ((readSource s a n data ecc).2 != 0) t).rest]; exact ht

/-- The `n` bytes `l` of a transfer are at `b`, or its target has refused them; no other byte has changed. -/
structure Landed (s u : State) (b n : Nat) (stored : Bool) (l : List Byte) : Prop where
  bytes : stored = true → memBytes u b n = l
  frame : ∀ z, ¬ logRing z → stored = false ∨ z < b ∨ b + n ≤ z → memByte u z = memByte s z

theorem Landed.cursor {s u : State} {b k : Nat} {stored : Bool} {l : List Byte} (h : Landed s u b k stored l) (d : Nat) (p : PassSt) (n : Nat)
    (poison : Bool) : Landed s (cursorMoved d p n poison u) b k stored l := ⟨h.bytes, h.frame⟩

theorem destPut_landed {y : DescImg} {dst : List Blk} {off b room n : Nat} {l : List Byte} {poison : Bool} {s t : State} (hm : y.mode = 0)
    (hb : blockAt dst off = some (b, room)) (hl : l.length = n) (hn : n ≤ room) (hd : devToHost s b = none) (hp : ∀ i, i < n → plainAddr (b + i))
    (hr : t.regs = s.regs) (ht : ∀ z, ¬ logRing z → memByte t z = memByte s z) : Landed s (destPut y dst off l poison t) b n true l := by
  subst hl
  obtain ⟨hbytes, hframe⟩ := destPut_put (b := poison) (s := t) hm hb hn ((devToHost_of hr b).trans hd) hp
  exact ⟨fun _ => hbytes, fun z hz h => (hframe z hz (h.resolve_left (by decide))).trans (ht z hz)⟩

theorem landedMove_landed (d : Nat) {p : PassSt} {y : DescImg} {dst : List Blk} (a : Nat) {b room n r : Nat} {data : HostData} {ecc : EccOutcome}
    {s : State} {l : List Byte} (hm : y.mode = 0) (hb : blockAt dst p.done = some (b, room)) (hn : n ≤ room)
    (hr : readSource s a n data ecc = (l, r)) (hd : devToHost s b = none) (hp : ∀ i, i < n → plainAddr (b + i)) :
    Landed s (landedMove d p y dst a b n data ecc s) b n (writeReason s b n == 0) l := by
  unfold landedMove
  rw [hr]
  have C := countedMove_only a b n ecc s
  have R := reportedMove_only d p a b r (writeReason s b n) (countedMove a b n ecc s)
  generalize countedMove a b n ecc s = t at C R
  generalize reportedMove d p a b r (writeReason s b n) t = v at R
  have vm : ∀ z, ¬ logRing z → memByte v z = memByte s z := fun z hz => (R.mem hz).trans (C.mem z hz)
  by_cases hw : writeReason s b n = 0
  · rw [hw]
    exact destPut_landed hm hb (readSource_length hr) hn hd hp (by rw [R.rest, C.rest]) vm
  · rw [if_pos (bne_iff_ne.mpr hw), beq_false_of_ne hw]
    exact ⟨fun h => absurd h (by decide), fun z hz _ => vm z hz⟩

/-- What a transfer whose data was read without fault and stored changes. -/
structure CleanMove (s u : State) : Prop where
  rest : u = { s with cnt := u.cnt, log := u.log, host := u.host, out := u.out, mem := u.mem, mgmt := { s.mgmt with life := u.mgmt.life },
                      res := { s.res with ue := u.res.ue, now := u.res.now }, stm := { s.stm with desc := u.stm.desc } }

theorem CleanMove.cores {s u : State} (h : CleanMove s u) : u.cores = s.cores := by rw [h.rest]

theorem CleanMove.cursor {s u : State} (h : CleanMove s u) (d : Nat) (p : PassSt) (n : Nat) (poison : Bool) :
    CleanMove s (cursorMoved d p n poison u) := by
  have e : cursorMoved d p n poison u = { u with stm := { u.stm with desc := (cursorMoved d p n poison u).stm.desc } } := rfl
  have es : u.stm = { s.stm with desc := u.stm.desc } := by rw [h.rest]
  rw [es] at e
  generalize cursorMoved d p n poison u = v at e
  exact ⟨by rw [e, h.rest]⟩

theorem landedMove_clean (d : Nat) (p : PassSt) (y : DescImg) (dst : List Blk) {a b n : Nat} {data : HostData} {ecc : EccOutcome} {s : State}
    {l : List Byte} (hr : readSource s a n data ecc = (l, 0)) (hw : writeReason s b n = 0) :
    CleanMove s (landedMove d p y dst a b n data ecc s) := by
  have e : landedMove d p y dst a b n data ecc s = destPut y dst p.done l false (countedMove a b n ecc s) := by
    unfold landedMove; rw [hr, hw]; rfl
  rw [e]
  have C := countedMove_only a b n ecc s
  generalize countedMove a b n ecc s = t at C
  have D := DeliverOnly.destPut y dst p.done l false t
  generalize destPut y dst p.done l false t = u at D
  exact ⟨by rw [D.rest, C.rest]⟩

/-! ### Flow legs -/

/-- The state after a leg's read: counted, and poison reported. -/
def legRead (d : Nat) (p : PassSt) (a n r : Nat) (ecc : EccOutcome) (s : State) : State :=
  let t := countBytes false a n 0 (readCount a n ecc s)
  if r = 0 then t else transferPoison d a r (p.issuer.map (·.core)) t

theorem legTransfer_blocked {d : Nat} {p : PassSt} {src : List Blk} {data : HostData} {ecc : EccOutcome} {s : State} {f c : Nat}
    (hl : p.legs = [(f, c, false)]) (h : legReady s f = false) : legTransfer d p src data ecc s = s := by
  unfold legTransfer
  rw [hl]
  simp [h]

theorem legTransfer_sends {d : Nat} {p : PassSt} {src : List Blk} {data : HostData} {ecc : EccOutcome} {s : State} {f c a left n r : Nat}
    {l : List Byte} (hl : p.legs = [(f, c, false)]) (h : legReady s f = true) (hc : c < p.total) (hb : blockAt src c = some (a, left))
    (hn : n = min (min 256 left) (p.total - c)) (hr : readSource s a n data ecc = (l, r)) :
    legTransfer d p src data ecc s = sendLeg d f c n p.total p.gen l (r != 0) (legRead d p a n r ecc s) := by
  subst hn
  unfold legTransfer
  simp only [hl, List.filter_cons, List.filter_nil, hc, h, decide_true, Bool.and_self, if_true, List.map_cons, List.map_nil, List.foldl_nil, hb, hr,
    beq_self_eq_true, List.foldl_cons]
  rfl

theorem legRead_kept (d : Nat) (p : PassSt) (a n r : Nat) (ecc : EccOutcome) (s : State) :
    (legRead d p a n r ecc s).stm = s.stm ∧ (legRead d p a n r ecc s).link = s.link ∧ (legRead d p a n r ecc s).plan = s.plan ∧
      ∀ z, ¬ logRing z → memByte (legRead d p a n r ecc s) z = memByte s z := by
  have C : EccOnly s (countBytes false a n 0 (readCount a n ecc s)) := (readCount_only ..).trans (.counts (countBytes_counts ..))
  unfold legRead
  generalize countBytes false a n 0 (readCount a n ecc s) = t at C
  have P : PoisonOnly t (if r = 0 then t else transferPoison d a r (p.issuer.map (·.core)) t) := .ite (.refl t) (transferPoison_only ..)
  dsimp only
  generalize (if r = 0 then t else transferPoison d a r (p.issuer.map (·.core)) t) = u at P
  refine ⟨by rw [P.rest, C.rest], by rw [P.rest, C.rest], by rw [P.rest, C.rest], fun z hz => (P.mem hz).trans (C.mem z hz)⟩

/-- What a leg's packet changes: the leg's cursor, its credit, and what sending changes. -/
structure LegSent (d f k : Nat) (s u : State) : Prop where
  own : desc u d = { desc s d with pass := (desc s d).pass.map fun p => { p with legs := p.legs.map fun l => if l.1 == f then (f, k, false) else l } }
  others : ∀ e, e ≠ d → desc u e = desc s e
  used : creditUsed u f = creditUsed s f + 1
  kept : ∀ h, h ≠ f → creditUsed u h = creditUsed s h
  mem : ∀ z, ¬ logRing z → memByte u z = memByte s z

theorem LegSent.net {d f k : Nat} {s t u v : State} (h : NetOnly s t) (k1 : LegSent d f k t u) (k2 : NetOnly u v) : LegSent d f k s v where
  own := by rw [desc_net k2, k1.own, desc_net h]
  others e he := by rw [desc_net k2, k1.others e he, desc_net h]
  used := by rw [creditUsed_net k2, k1.used, creditUsed_net h]
  kept g hg := by rw [creditUsed_net k2, k1.kept g hg, creditUsed_net h]
  mem z hz := ((k2.mem z hz).trans (k1.mem z hz)).trans (h.mem z hz)

theorem setLeg_sent (d f k : Nat) (s : State) : LegSent d f k s (setLeg d f k false (creditAdd f (· + 1) s)) where
  own := by unfold setLeg; rw [desc_modDesc_self]; rfl
  others e he := by unfold setLeg; rw [desc_modDesc_ne _ _ he]; rfl
  used := (creditUsed_add f f _ s).trans (if_pos rfl)
  kept g hg := (creditUsed_add f g _ s).trans (if_neg hg)
  mem _ _ := rfl

theorem sendLeg_sent {f : Nat} {s : State} {g : FlowCtx} (d c n total gen : Nat) (l : List Byte) (poison : Bool) (h : legCtx s f = some g) :
    LegSent d f (c + n) s (sendLeg d f c n total gen l poison s) := by
  unfold sendLeg
  rw [h]
  exact .net (.sendTo ..) (setLeg_sent ..) (.ite (.sendTo ..) (.refl _))

/-! ### STREAM_TRANSFER_COMPLETE -/

theorem transfer_stale {d g now : Nat} {data : HostData} {ecc : EccOutcome} {s : State}
    (hn : now = (match (desc s d).pass with | some q => q.gen | none => (desc s d).gen)) (h : (desc s d).pass = none ∨ g ≠ now) :
    transfer d g data ecc s = if genOlder g now then bump (cntDev 24) 1 s else s := by
  unfold transfer
  cases hp : (desc s d).pass with
  | none => rw [hp] at hn; subst hn; rfl
  | some q =>
    rw [hp] at hn h
    subst hn
    simp only
    rw [if_pos (by simpa using h)]

theorem transfer_current {d g : Nat} {data : HostData} {ecc : EccOutcome} {s : State} {q : PassSt} (hq : (desc s d).pass = some q)
    (hg : g = q.gen) (hd : s.pwr.draining = []) :
    transfer d g data ecc s = if (descOf s d).dest = 0xFFFFFFFF then legTransfer d q (blockList s (descOf s d)) data ecc s
      else copyTransfer d q (descOf s (descOf s d).dest) (blockAt (blockList s (descOf s d)) q.done)
        (destAt (descOf s (descOf s d).dest) (blockList s (descOf s (descOf s d).dest)) q.done)
        (blockList s (descOf s (descOf s d).dest)) data ecc s := by
  subst hg
  unfold transfer
  simp only [hq, hd, bne_self_eq_false, Bool.false_eq_true, if_false, List.isEmpty_nil, if_true]

theorem copyTransfer_moves {d : Nat} {q : PassSt} {y : DescImg} {src dst : List Blk} {a left b room : Nat} (data : HostData) (ecc : EccOutcome)
    (s : State) (hm : y.mode = 0) (ha : blockAt src q.done = some (a, left)) (hb : blockAt dst q.done = some (b, room)) :
    copyTransfer d q y (blockAt src q.done) (destAt y dst q.done) dst data ecc s =
      moveBytes d q y dst a b (min (min left room) (min (unitRoom s a) (unitRoom s b))) data ecc s := by
  unfold copyTransfer destAt
  rw [if_pos hm, ha, hb]
  simp only [hm, if_true]

theorem transfer_copies {d g : Nat} (data : HostData) (ecc : EccOutcome) {s : State} {q : PassSt} {a left b room n : Nat}
    (hq : (desc s d).pass = some q) (hg : g = q.gen) (hdr : s.pwr.draining = []) (hdest : (descOf s d).dest ≠ 0xFFFFFFFF)
    (hm : (descOf s (descOf s d).dest).mode = 0) (ha : blockAt (blockList s (descOf s d)) q.done = some (a, left))
    (hb : blockAt (blockList s (descOf s (descOf s d).dest)) q.done = some (b, room))
    (hn : n = min (min left room) (min (unitRoom s a) (unitRoom s b))) :
    transfer d g data ecc s = moveBytes d q (descOf s (descOf s d).dest) (blockList s (descOf s (descOf s d).dest)) a b n data ecc s := by
  rw [transfer_current hq hg hdr, if_neg hdest, copyTransfer_moves data ecc s hm ha hb, hn]

theorem transfer_leg {d g : Nat} (data : HostData) (ecc : EccOutcome) {s : State} {q : PassSt}
    (hq : (desc s d).pass = some q) (hg : g = q.gen) (hdr : s.pwr.draining = []) (hdest : (descOf s d).dest = 0xFFFFFFFF) :
    transfer d g data ecc s = legTransfer d q (blockList s (descOf s d)) data ecc s := by
  rw [transfer_current hq hg hdr, if_pos hdest]

/-- A transfer between two descriptors: what moves, what follows, and what else changes (R250, R251, R258). -/
theorem transfer_copied {d g : Nat} {data : HostData} {ecc : EccOutcome} {s : State} {q : PassSt} {a left b room n r : Nat} {l : List Byte}
    (hq : (desc s d).pass = some q) (hg : g = q.gen) (hdr : s.pwr.draining = []) (hdest : (descOf s d).dest ≠ 0xFFFFFFFF)
    (hm : (descOf s (descOf s d).dest).mode = 0) (ha : blockAt (blockList s (descOf s d)) q.done = some (a, left))
    (hb : blockAt (blockList s (descOf s (descOf s d).dest)) q.done = some (b, room))
    (hn : n = min (min left room) (min (unitRoom s a) (unitRoom s b))) (hr : readSource s a n data ecc = (l, r)) (hd : devToHost s b = none)
    (hp : ∀ i, i < n → plainAddr (b + i)) :
    ∃ v, PassMoved d q n (q.poisoned || r != 0) s v (transfer d g data ecc s) ∧ Landed s v b n (writeReason s b n == 0) l ∧
      (r = 0 → writeReason s b n = 0 → CleanMove s v) := by
  have L := landedMove_landed d a (data := data) (ecc := ecc) hm hb (by omega) hr hd hp
  refine ⟨_, ?_, L.cursor d q n (r != 0), fun h0 hw => (landedMove_clean d q _ _ (h0 ▸ hr) hw).cursor ..⟩
  rw [transfer_copies data ecc hq hg hdr hdest hm ha hb hn, moveBytes_eq, hr]
  exact passMoved n (r != 0) hq (landedMove_stm ..)

/-- Where nothing was poisoned and no command waits, the last transfer's event ends the pass. -/
theorem PassMoved.ended {d : Nat} {q : PassSt} {n : Nat} {poisoned : Bool} {s v u : State} (h : PassMoved d q n poisoned s v u)
    (hc : CleanMove s v) (hl : q.total ≤ q.done + n) (hi : strIdle s) (hw : (desc s d).waiting = []) : PassEnded d v u := by
  rw [h.ends hl]
  exact settle_endPass_ended (by rw [h.own]) (by rw [h.own]; exact hw) fun c hlt => by rw [core_of_cores hc.cores]; exact hi c hlt

/-- The single leg of a pass has sent its next packet. -/
theorem legTransfer_sent {d : Nat} {q : PassSt} {src : List Blk} {data : HostData} {ecc : EccOutcome} {s : State} {f c a left n r : Nat}
    {l : List Byte} {g : FlowCtx} (hl : q.legs = [(f, c, false)]) (h : legReady s f = true) (hg : legCtx s f = some g) (hc : c < q.total)
    (hb : blockAt src c = some (a, left)) (hn : n = min (min 256 left) (q.total - c)) (hr : readSource s a n data ecc = (l, r)) :
    LegSent d f (c + n) s (legTransfer d q src data ecc s) := by
  rw [legTransfer_sends hl h hc hb hn hr]
  obtain ⟨hstm, hlink, hplan, hmem⟩ := legRead_kept d q a n r ecc s
  have hg' : legCtx (legRead d q a n r ecc s) f = some g := by unfold legCtx at hg ⊢; rw [hplan]; exact hg
  have S := sendLeg_sent d c n q.total q.gen l (r != 0) hg'
  have hcred : ∀ k, creditUsed (legRead d q a n r ecc s) k = creditUsed s k := fun k => by unfold creditUsed; rw [hlink]
  exact ⟨by rw [S.own, desc_of hstm], fun e he => by rw [S.others e he, desc_of hstm], by rw [S.used, hcred],
    fun k hk => by rw [S.kept k hk, hcred], fun z hz => (S.mem z hz).trans (hmem z hz)⟩

/-! ### DESC_CACHE_FILL -/

/-- The least recently used of a list of descriptors. -/
def leastUsed (x : Nat × DescSt) (l : List (Nat × DescSt)) : Nat × DescSt :=
  l.foldl (fun (m : Nat × DescSt) y => if y.2.lastUse < m.2.lastUse then y else m) x

theorem leastUsed_cons (x y : Nat × DescSt) (l : List (Nat × DescSt)) :
    leastUsed x (y :: l) = leastUsed (if y.2.lastUse < x.2.lastUse then y else x) l := rfl

theorem leastUsed_mem (x : Nat × DescSt) (l : List (Nat × DescSt)) : leastUsed x l ∈ x :: l := by
  induction l generalizing x with
  | nil => exact List.mem_cons_self
  | cons y l ih =>
    rw [leastUsed_cons]
    by_cases h : y.2.lastUse < x.2.lastUse
    · rw [if_pos h]; exact List.mem_cons_of_mem _ (ih y)
    · rw [if_neg h]
      rcases List.mem_cons.mp (ih x) with e | e
      · rw [e]; exact List.mem_cons_self
      · exact List.mem_cons_of_mem _ (List.mem_cons_of_mem _ e)

theorem leastUsed_le (x : Nat × DescSt) (l : List (Nat × DescSt)) : ∀ z ∈ x :: l, (leastUsed x l).2.lastUse ≤ z.2.lastUse := by
  induction l generalizing x with
  | nil => intro z hz; rw [List.mem_singleton.mp hz]; exact Nat.le_refl _
  | cons y l ih =>
    rw [leastUsed_cons]
    intro z hz
    have first := ih (if y.2.lastUse < x.2.lastUse then y else x) _ List.mem_cons_self
    rcases List.mem_cons.mp hz with rfl | hz
    · refine first.trans ?_; split <;> omega
    · rcases List.mem_cons.mp hz with rfl | hz
      · refine first.trans ?_; split <;> omega
      · exact ih _ z (List.mem_cons_of_mem _ hz)

/-- The cached descriptors that no pass and no shadow pins. -/
def idleCached (s : State) : List (Nat × DescSt) :=
  (s.stm.desc.filter fun x => x.2.cached).filter fun x => x.2.pass.isNone && x.2.shadow.isNone

theorem mem_idleCached {s : State} {x : Nat × DescSt} :
    x ∈ idleCached s ↔ x ∈ s.stm.desc ∧ x.2.cached = true ∧ x.2.pass = none ∧ x.2.shadow = none := by
  simp only [idleCached, List.mem_filter, Bool.and_eq_true, Option.isNone_iff_eq_none, and_assoc]

/-- A descriptor leaves the cache: its generation goes back to the table. -/
def evict (x : Nat × DescSt) (s : State) : State :=
  modDesc x.1 (fun D => { D with cached := false }) (memStore (descTable s + 64 * x.1 + 0x24) (leBytes 4 x.2.gen) s)

/-- A descriptor enters the cache as the most recently used. -/
def fillDesc (d : Nat) (s : State) : State := useDesc d (modDesc d (fun D => { D with cached := true }) s)

theorem cacheFill_room {d : Nat} {s : State} (h : (s.stm.desc.filter fun x => x.2.cached).length < 65536) :
    cacheFill d s = settle (fillDesc d s) := by
  unfold cacheFill
  simp only [h, if_true]
  rfl

theorem cacheFill_full {d : Nat} {s : State} {x : Nat × DescSt} {l : List (Nat × DescSt)}
    (h : 65536 ≤ (s.stm.desc.filter fun x => x.2.cached).length) (hl : idleCached s = x :: l) :
    cacheFill d s = settle (fillDesc d (evict (leastUsed x l) s)) := by
  unfold idleCached at hl
  unfold cacheFill
  simp only [Nat.not_lt.mpr h, if_false, hl]
  rfl

/-- A full cache loses the least recently used of the descriptors that nothing pins. -/
theorem cacheFill_evicts {d : Nat} {s : State} {y : Nat × DescSt} (h : 65536 ≤ (s.stm.desc.filter fun x => x.2.cached).length)
    (hy : y ∈ idleCached s) :
    ∃ x, cacheFill d s = settle (fillDesc d (evict x s)) ∧ x ∈ idleCached s ∧ ∀ z ∈ idleCached s, x.2.lastUse ≤ z.2.lastUse := by
  obtain ⟨x, l, hl⟩ : ∃ x l, idleCached s = x :: l := List.exists_cons_of_ne_nil (List.ne_nil_of_mem hy)
  refine ⟨leastUsed x l, cacheFill_full h hl, ?_⟩
  rw [hl]
  exact ⟨leastUsed_mem x l, leastUsed_le x l⟩

theorem exec_descCacheFill {d : Fin 1048576} {s u : State} (h : cacheFill d s = u) : exec (.descCacheFill d) s = .next u := by
  show execDescCacheFill d s = _
  unfold execDescCacheFill
  rw [h]

theorem desc_fillDesc (d : Nat) (s : State) : desc (fillDesc d s) d = { desc s d with cached := true, lastUse := s.stm.clock } := by
  unfold fillDesc
  rw [desc_useDesc, if_pos rfl, desc_modDesc_self]
  rfl

theorem desc_fillDesc_ne (s : State) {d e : Nat} (h : e ≠ d) : desc (fillDesc d s) e = desc s e := by
  unfold fillDesc
  rw [desc_useDesc, if_neg h, desc_modDesc_ne _ _ h]

theorem memByte_fillDesc (d : Nat) (s : State) (z : Nat) : memByte (fillDesc d s) z = memByte s z := rfl

theorem memBytes_fillDesc (d : Nat) (s : State) (a n : Nat) : memBytes (fillDesc d s) a n = memBytes s a n := rfl

theorem desc_evict (x : Nat × DescSt) (s : State) (e : Nat) :
    desc (evict x s) e = if e = x.1 then { desc s e with cached := false } else desc s e := by
  have M : desc (memStore (descTable s + 64 * x.1 + 0x24) (leBytes 4 x.2.gen) s) e = desc s e :=
    desc_of (by rw [(MemOnly.memStore _ _ s).rest]) e
  unfold evict
  by_cases h : e = x.1
  · subst h; rw [desc_modDesc_self, if_pos rfl, M]
  · rw [desc_modDesc_ne _ _ h, if_neg h, M]

theorem memBytes_evict (x : Nat × DescSt) (s : State) : memBytes (evict x s) (descTable s + 64 * x.1 + 0x24) 4 = leBytes 4 x.2.gen := by
  have := memBytes_memStore s (descTable s + 64 * x.1 + 0x24) (leBytes 4 x.2.gen) fun i _ => by
    rw [Nat.add_assoc, Nat.add_assoc]; exact descTable_plain s _
  rw [length_leBytes] at this
  exact this

theorem memByte_evict (x : Nat × DescSt) (s : State) {z : Nat} (hz : ¬ logRing z)
    (h : z < descTable s + 64 * x.1 + 0x24 ∨ descTable s + 64 * x.1 + 0x28 ≤ z) : memByte (evict x s) z = memByte s z :=
  memByte_memStore_ne s _ _ hz (by rw [length_leBytes]; omega)

theorem cores_fillDesc (d : Nat) (s : State) : (fillDesc d s).cores = s.cores := rfl

theorem cores_evict (x : Nat × DescSt) (s : State) : (evict x s).cores = s.cores := by
  unfold evict
  show (memStore (descTable s + 64 * x.1 + 0x24) (leBytes 4 x.2.gen) s).cores = s.cores
  rw [(MemOnly.memStore _ _ s).rest]

theorem strIdle_fill_evict (d : Nat) (x : Nat × DescSt) {s : State} (h : strIdle s) : strIdle (fillDesc d (evict x s)) := by
  intro c hc
  rw [core_of_cores ((cores_fillDesc ..).trans (cores_evict x s)) c]
  exact h c hc

/-! ### ROUTER_TARGET_OFF -/

theorem exec_routerTargetOff {a : Nat} {k : Bool} {d : Option (Fin 1048576)} {s u : State} (h : targetOff a k (d.map (·.val)) s = u) :
    exec (.routerTargetOff a k d) s = .next u := by
  show execRouterTargetOff a k d s = _
  unfold execRouterTargetOff
  rw [h]

theorem targetOff_here {a : Nat} {k : Bool} {s : State} (d : Option Nat) (h : awayNow s a k = false) : targetOff a k d s = s := by
  unfold targetOff; rw [h]; rfl

theorem targetOff_none {a r : Nat} {k : Bool} {s : State} (h : awayNow s a k = true) (hr : r = if k then 3 else 2) :
    targetOff a k none s = countPoison r (emit (.poisonedCompletion r a) s) := by
  subst hr; unfold targetOff; rw [h]; rfl

theorem targetOff_idle {a r d : Nat} {k : Bool} {s : State} (h : awayNow s a k = true) (hr : r = if k then 3 else 2)
    (hp : (desc s d).pass = none) :
    targetOff a k (some d) s = bump (cntDev 24) 1 (countPoison r (emit (.poisonedCompletion r a) s)) := by
  subst hr
  have hp' : ∀ o, (desc (emit o s) d).pass = none := fun _ => hp
  unfold targetOff
  simp only [h, Bool.not_true, Bool.false_eq_true, if_false, hp']

theorem targetOff_pass {a r d : Nat} {k : Bool} {s : State} {q : PassSt} (h : awayNow s a k = true) (hr : r = if k then 3 else 2)
    (hp : (desc s d).pass = some q) :
    targetOff a k (some d) s = targetOffPass d a r q (emit (.poisonedCompletion r a) s) := by
  subst hr
  have hp' : ∀ o, (desc (emit o s) d).pass = some q := fun _ => hp
  unfold targetOff
  simp only [h, Bool.not_true, Bool.false_eq_true, if_false, hp']

/-- A pass whose read the router answered stores poison; a write stores nothing. -/
def answeredMove (q : PassSt) (y : DescImg) (dst : List Blk) (e a n : Nat) (s : State) : State :=
  if a = e then destPut y dst q.done (memBytes s e n) true s else s

theorem targetOffMove_eq {d : Nat} {q : PassSt} {y : DescImg} {dst : List Blk} {e left b room n : Nat} (a : Nat) {s : State} (hm : y.mode = 0)
    (hb : blockAt dst q.done = some (b, room)) (hn : n = min left (min (min room (unitRoom s b)) (unitRoom s e))) :
    targetOffMove d q y dst (some (e, left)) a s = passOn d q n (cursorMoved d q n true (answeredMove q y dst e a n s)) := by
  subst hn
  unfold targetOffMove cursorMoved answeredMove passOn
  simp only [hm, if_true, hb, Bool.or_true]

theorem targetOffPass_eq {d a r : Nat} {q : PassSt} {s : State} (h : (descOf s d).dest ≠ 0xFFFFFFFF) :
    targetOffPass d a r q s = targetOffMove d q (descOf s (descOf s d).dest) (blockList s (descOf s (descOf s d).dest))
      (blockAt (blockList s (descOf s d)) q.done) a (transferPoison d a r (q.issuer.map (·.core)) s) := if_neg h

theorem answeredMove_stm (q : PassSt) (y : DescImg) (dst : List Blk) (e a n : Nat) (s : State) : (answeredMove q y dst e a n s).stm = s.stm := by
  have D : DeliverOnly s (answeredMove q y dst e a n s) := .ite (.destPut ..) (.refl s)
  rw [D.rest]

theorem answeredMove_other {q : PassSt} {y : DescImg} {dst : List Blk} {e a n : Nat} (s : State) (h : e ≠ a) : answeredMove q y dst e a n s = s :=
  if_neg (Ne.symm h)

/-- The state in which a pass that meets the router's answer goes on. -/
def answered (d a r : Nat) (q : PassSt) (s : State) : State :=
  transferPoison d a r (q.issuer.map (·.core)) (emit (.poisonedCompletion r a) s)

theorem answered_kept (d a r : Nat) (q : PassSt) (s : State) :
    PoisonOnly (emit (.poisonedCompletion r a) s) (answered d a r q s) := transferPoison_only ..

/-- Poison that the router's answer brings is delivered where a read was answered. -/
theorem answeredMove_landed (d r : Nat) {q : PassSt} {y : DescImg} {dst : List Blk} {e b room n : Nat} {s : State} (hm : y.mode = 0)
    (hb : blockAt dst q.done = some (b, room)) (hn : n ≤ room) (hd : devToHost s b = none) (hp : ∀ i, i < n → plainAddr (b + i))
    (hs : ∀ i, i < n → ¬ logRing (e + i)) : Landed s (answeredMove q y dst e e n (answered d e r q s)) b n true (memBytes s e n) := by
  have A := answered_kept d e r q s
  have he : memBytes (answered d e r q s) e n = memBytes s e n := memBytes_congr fun i hi => A.mem (hs i hi)
  unfold answeredMove
  rw [if_pos rfl, he]
  exact destPut_landed hm hb (length_memBytes ..) hn hd hp (by rw [A.rest]; rfl) fun z hz => A.mem hz

theorem targetOff_moves {a r d : Nat} {k : Bool} {s : State} {q : PassSt} {e left b room n : Nat} (h : awayNow s a k = true)
    (hr : r = if k then 3 else 2) (hq : (desc s d).pass = some q) (hdest : (descOf s d).dest ≠ 0xFFFFFFFF)
    (hm : (descOf s (descOf s d).dest).mode = 0) (he : blockAt (blockList s (descOf s d)) q.done = some (e, left))
    (hb : blockAt (blockList s (descOf s (descOf s d).dest)) q.done = some (b, room))
    (hn : n = min left (min (min room (unitRoom s b)) (unitRoom s e))) :
    targetOff a k (some d) s = passOn d q n (cursorMoved d q n true
      (answeredMove q (descOf s (descOf s d).dest) (blockList s (descOf s (descOf s d).dest)) e a n (answered d a r q s))) := by
  have A := (answered_kept d a r q s).rest
  have h1 : (answered d a r q s).regs = s.regs := by rw [A]; rfl
  have h2 : (answered d a r q s).renumbered = s.renumbered := by rw [A]; rfl
  refine (targetOff_pass h hr hq).trans ((targetOffPass_eq (s := emit (.poisonedCompletion r a) s) hdest).trans ?_)
  show targetOffMove d q (descOf s (descOf s d).dest) (blockList s (descOf s (descOf s d).dest))
    (blockAt (blockList s (descOf s d)) q.done) a (answered d a r q s) = _
  rw [he]
  exact targetOffMove_eq a hm hb (by rw [hn, unitRoom_congr h1 h2, unitRoom_congr h1 h2])

/-- Settles O49: each event of a stream is taken apart into what counts, what lands, how the pass goes on, and what follows its end. -/
theorem streamTransfers : Obligations.StreamTransfers := by
  unfold Obligations.StreamTransfers
  refine ⟨⟨?_, ?_, ?_, fun d s q hq hw => endPass_ended hq hw⟩, ?_, ?_, ?_, ?_, ?_⟩
  · intro d g data ecc s now hn h
    have e : exec (.streamTransferComplete d g data ecc) s = .next (if genOlder g.toNat now then bump (cntDev 24) 1 s else s) :=
      congrArg _ (transfer_stale hn h)
    rw [e]
    refine ⟨fun ho => ⟨bump (cntDev 24) 1 s, ?_, bump_countsOnly .., cntExact_bump_dev s (by decide) (by decide)⟩, fun ho => ?_⟩
    · rw [if_pos ho]
    · rw [if_neg (Bool.eq_false_iff.mp ho)]
  · intro d g data ecc s q x y a left b room n r l hq hg hdr hx hdest hy hm ha hb hn hr hd hp
    subst hx hy
    obtain ⟨v, M, L, Z⟩ := transfer_copied hq hg hdr hdest hm ha hb hn hr hd hp
    exact ⟨v, _, rfl, M.own, M.others, fun hw => L.bytes (beq_iff_eq.mpr hw), fun z hz h => L.frame z hz (h.imp_left beq_false_of_ne),
      fun h0 hw => (Z h0 hw).rest, M.runs, fun h => ⟨M.ends h, fun h0 hw hi hwait => M.ended (Z h0 hw) h hi hwait⟩⟩
  · intro d k data ecc s q x f c hq hg hdr hx hdest hl
    subst hx
    have e := transfer_leg data ecc hq hg hdr hdest
    refine ⟨fun h => congrArg _ (e.trans (legTransfer_blocked hl h)), fun g a left n l r h hleg hc hb hn hr => ?_⟩
    have S := legTransfer_sent (d := d) hl h hleg hc hb hn hr
    rw [← e] at S
    refine ⟨_, rfl, ?_, S.others, S.used, S.kept, S.mem⟩
    rw [S.own, hq, Option.map_some, hl, List.map_singleton, beq_self_eq_true, if_pos rfl]
  · intro d s h
    exact ⟨fillDesc d s, _, exec_descCacheFill (cacheFill_room h), rfl, fun hi => settle_idle hi, desc_fillDesc .., fun e he => desc_fillDesc_ne s he, rfl⟩
  · intro d s h ⟨x, hx⟩
    obtain ⟨m, e, hm, least⟩ := cacheFill_evicts (d := d) h (mem_idleCached.mpr hx)
    obtain ⟨hmem, hc, hpass, hsh⟩ := mem_idleCached.mp hm
    refine ⟨fillDesc d (evict m s), _, m, exec_descCacheFill e, rfl, fun hi => settle_idle (strIdle_fill_evict d m hi), hmem, hc, hpass, hsh,
      fun z hz h1 h2 h3 => least z (mem_idleCached.mpr ⟨hz, h1, h2, h3⟩), by rw [desc_fillDesc], fun hne => ?_, fun j hj hm => ?_,
      (memBytes_fillDesc ..).trans (memBytes_evict m s), fun z hz ho => (memByte_fillDesc ..).trans (memByte_evict m s hz ho)⟩
    · rw [desc_fillDesc_ne _ hne, desc_evict, if_pos rfl]
    · rw [desc_fillDesc_ne _ hj, desc_evict, if_neg hm]
  · intro a k d s h
    exact exec_routerTargetOff (targetOff_here _ h)
  · intro a r k s h hr
    have P := countPoison_counts r (emit (.poisonedCompletion r a) s)
    refine ⟨_, exec_routerTargetOff (targetOff_none h hr), (HostOnly.emit ..).trans (.counts P), by rw [P.rest]; rfl, fun d hd => ?_⟩
    exact ⟨_, exec_routerTargetOff (targetOff_idle h hr hd), .bump .., out_bump ..⟩
  · intro a r k d s q x y e left b room n h hr hq hx hdest hy hm he hb hn
    subst hx hy
    have A := answered_kept d a r q s
    have M := passMoved n true hq ((answeredMove_stm q (descOf s (descOf s d).dest) (blockList s (descOf s (descOf s d).dest)) e a n _).trans
      (show (answered d a r q s).stm = s.stm by rw [A.rest]; rfl))
    rw [← targetOff_moves h hr hq hdest hm he hb hn, Bool.or_true] at M
    refine ⟨_, _, rfl, fun hne => ?_, M.own, M.others, fun hne z hz => ?_, fun hea hd hp hlog => ?_, M.runs, M.ends⟩
    · rw [answeredMove_other _ hne]
      show (answered d a r q s).out = _
      rw [A.rest]; rfl
    · rw [answeredMove_other _ hne]; exact A.mem hz
    · subst hea
      have L := (answeredMove_landed d r hm hb (by omega) hd hp hlog).cursor d q n true
      exact ⟨L.bytes rfl, fun z hz ho => L.frame z hz (.inr ho)⟩

end Sys2Proof.Machine
end

section
/-! PROOFS. The scale codes of MX blocks (R46). -/

namespace Sys2Proof.Machine

open Sys2Proof

theorem mxVal_nan_scale (f : Fmt) (e : Nat) : mxVal f 255 e = .nan := if_pos rfl
theorem mxVal_of_scale {c : Nat} (f : Fmt) (e : Nat) (h : c ≠ 255) : mxVal f c e = vScale ((c : Int) - 127) (decElem f e) := if_neg h

/-- Settles O5: the two branches of the value of an MX element. -/
theorem blockScales : Obligations.BlockScales := fun f e =>
  ⟨mxVal_nan_scale f e, fun _ hc => mxVal_of_scale f e (by omega)⟩

end Sys2Proof.Machine
end

section
/-! PROOFS. Weight conversions and codebook rebuilds (R52, R57, R180, R199, R200, R201). -/

namespace Sys2Proof.Machine

open Sys2Proof

theorem exec_weightConversion (k : Nat) (s : State) : exec (.weightConversion k) s = .next (weightConversion k s) := rfl
theorem exec_codebookRebuild (l g : Nat) (s : State) : exec (.codebookRebuild l g) s = .next (codebookRebuild l g s) := rfl

/-! ### Codebooks that are due -/

theorem bookDue_eq_false {s : State} {l n : Nat} : bookDue s l n = false ↔ bookPeriod s l = 0 ∨ n % bookPeriod s l ≠ 0 := by
  rw [bookDue, Bool.and_eq_false_iff, bne_eq_false_iff_eq, beq_eq_false_iff_ne]

theorem bookDue_eq_true {s : State} {l n : Nat} : bookDue s l n = true ↔ bookPeriod s l ≠ 0 ∧ n % bookPeriod s l = 0 := by
  rw [bookDue, Bool.and_eq_true, bne_iff_ne, beq_iff_eq]

theorem booksReady_of {s : State} {pl : Plan} {l : Nat} (h : bookPeriod s l = 0 ∨ s.run.step % bookPeriod s l ≠ 0 ∨
    ∀ g ∈ pl.books, g.layer = l → (s.run.step, l, g.group) ∈ s.run.booksDone) : booksReady s pl l = true := by
  rw [booksReady, Bool.or_eq_true, Bool.not_eq_true', bookDue_eq_false, or_assoc, List.all_eq_true]
  refine h.imp_right (Or.imp_right fun h g hg => ?_)
  by_cases e : g.layer = l
  · simp [h g hg e]
  · simp [e]

theorem bookPeriod_layer {s : State} {pk : Pkg} {y : LayerDesc} {l : Nat} (hpk : s.pkg = some pk) (hy : pk.layers[l]? = some y) :
    bookPeriod s l = y.cbPeriod := by
  simp [bookPeriod, hpk, hy]

/-- A layer whose descriptor, where there is one, asks for no rebuild in step `n` has none due. -/
theorem bookDue_none {s : State} {l n : Nat}
    (h : ∀ pk y, s.pkg = some pk → pk.layers[l]? = some y → y.cbPeriod = 0 ∨ n % y.cbPeriod ≠ 0) : bookDue s l n = false := by
  rw [bookDue_eq_false, bookPeriod]
  split
  · next y hy =>
    obtain ⟨pk, hpk, hy⟩ := Option.bind_eq_some_iff.1 hy
    exact h pk y hpk hy
  · exact .inl rfl

/-! ### Conversions -/

theorem weightConversion_waits {k : Nat} {s : State} (h : s.plan = none ∨ s.run.phase ≠ .compute ∨
    ∀ pl, s.plan = some pl → ∃ c ∈ pl.convs, c.tensor = k ∧ booksReady s pl c.layer = false) : weightConversion k s = s := by
  unfold weightConversion
  split
  · rfl
  · next pl hpl =>
    refine if_pos ?_
    rw [Bool.or_eq_true, bne_iff_ne, Bool.not_eq_true', List.all_eq_false]
    refine (h.resolve_left (by simp [hpl])).imp_right fun h => ?_
    obtain ⟨c, hc, hk, hr⟩ := h pl hpl
    exact ⟨c, List.mem_filter.2 ⟨hc, beq_iff_eq.2 hk⟩, by simp [hr]⟩

theorem weightConversion_runs {k : Nat} {s : State} {pl : Plan} {cs : List Conv} (hpl : s.plan = some pl) (hph : s.run.phase = .compute)
    (hcs : cs = pl.convs.filter fun c => c.tensor == k) (hr : ∀ c ∈ cs, booksReady s pl c.layer = true) :
    weightConversion k s = { writeAll (convWrites s cs) s with
      collectors := (convStats s cs s).collectors
      run := { s.run with converted := if k ∈ s.run.converted then s.run.converted else s.run.converted ++ [k] } } := by
  have stats : convStats s cs (writeAll (convWrites s cs) s) =
      { writeAll (convWrites s cs) s with collectors := (convStats s cs s).collectors } := by
    rw [writeAll_eq, convStats_mem, convStats_eq]
  unfold weightConversion
  simp only [hpl, ← hcs]
  rw [if_neg (by simpa [hph] using hr), stats, writeAll_eq]
  simp

/-! ### Rebuilds -/

theorem bookSource_eq (s : State) (b : BookGroup) :
    bookSource s b = if s.run.phase = .distribution ∧ s.run.skipped = false then otherCopy s b.src else b.src := by
  simp [bookSource]

theorem codebookRebuild_waits {l g : Nat} {s : State} (h : (s.run.phase ≠ .compute ∧ s.run.phase ≠ .distribution) ∨
    bookDue s l (bookStep s) = false ∨
    ∀ pl, s.plan = some pl → pl.books.find? (fun b => b.layer == l && b.group == g) = none) : codebookRebuild l g s = s := by
  unfold codebookRebuild
  split
  · rfl
  · next b hb =>
    obtain ⟨pl, hpl, hb⟩ := Option.bind_eq_some_iff.1 hb
    refine if_pos ?_
    rcases h with ⟨h1, h2⟩ | h | h
    · simp [h1, h2]
    · simp [h]
    · rw [h pl hpl] at hb; cases hb

section
variable {l g : Nat} {s : State} {pl : Plan} {b : BookGroup} (hpl : s.plan = some pl)
  (hb : pl.books.find? (fun b => b.layer == l && b.group == g) = some b) (hd : bookDue s l (bookStep s) = true)
include hpl hb hd

theorem codebookRebuild_compute (hph : s.run.phase = .compute) :
    codebookRebuild l g s = { memWrite b.book ((buildBook (groupWeights s b)).flatMap (leBytes 2)) s with
      run := { s.run with booksDone := s.run.booksDone ++ [(s.run.step, l, g)] } } := by
  have e : bookStep s = s.run.step := by simp [bookStep, hph]
  rw [e] at hd
  simp [codebookRebuild, hpl, hb, hd, hph, e]

theorem codebookRebuild_distribution (hph : s.run.phase = .distribution) :
    codebookRebuild l g s = { s with run := { s.run with
      bookWrites := s.run.bookWrites ++ [(b.book, (buildBook (groupWeights s b)).flatMap (leBytes 2))]
      booksDone := s.run.booksDone ++ [(s.run.step + 1, l, g)] } } := by
  have e : bookStep s = s.run.step + 1 := by simp [bookStep, hph]
  rw [e] at hd
  simp [codebookRebuild, hpl, hb, hd, hph, e, stageBook]

end

/-- Settles O56: a conversion is its writes, their statistics and its mark; a rebuild is one write, at once or staged. -/
theorem weightConversions : Obligations.WeightConversions := by
  unfold Obligations.WeightConversions
  simp only [exec_weightConversion, exec_codebookRebuild]
  refine ⟨⟨fun k s h => congrArg _ (weightConversion_waits h), fun k s pl cs hpl hph hcs hr => ?_⟩, fun l g s h => ?_,
    fun l g s pk y pl b src bytes hpk hy hp hstep hpl hb hsrc hbytes => ?_⟩
  · rw [weightConversion_runs hpl hph hcs fun c hc => booksReady_of (hr c hc)]
    refine ⟨_, rfl, fun l r a b hw happart hplain => ?_, fun x hx => writeAll_ne _ s hx, rfl, rfl, ?_⟩
    · rw [hw]; exact writeAll_mem l r a b s happart hplain
    · rw [writeAll_eq]
  · exact congrArg _ (codebookRebuild_waits (h.imp_right (Or.imp_left bookDue_none)))
  · have hd : bookDue s l (bookStep s) = true := by
      rw [bookDue_eq_true, bookPeriod_layer hpk hy]; exact ⟨hp, hstep⟩
    have hw : bytes = (buildBook (groupWeights s b)).flatMap (leBytes 2) := by
      rw [hbytes, hsrc, ← bookSource_eq]; rfl
    rw [hw]
    refine ⟨fun hph => ?_, fun hph => by rw [codebookRebuild_distribution hpl hb hd hph]⟩
    rw [codebookRebuild_compute hpl hb hd hph]
    exact ⟨_, rfl, memBytes_memWrite s _ _, fun x hx => memByte_memWrite_ne s _ _ hx, rfl⟩

end Sys2Proof.Machine
end

section
/-! PROOFS. The vector unit and the exact unit complete their front operation (R54, R55, R105, R158, R163, R169, R171, R204). -/

namespace Sys2Proof.Machine

open Sys2Proof

theorem exec_vecComplete (c : CoreId) (s : State) : exec (.vecComplete c) s = .next (vecComplete c s) := rfl
theorem exec_xuComplete (c : CoreId) (s : State) : exec (.xuComplete c) s = .next (xuComplete c s) := rfl

/-! ### Results in scratch -/

theorem memByte_memPoison (a n : Nat) (s : State) (x : Nat) : memByte (memPoison a n s) x = memByte s x := memByte_congr x rfl rfl rfl rfl

/-- A unit's store that ends within the scratch shows its bytes, poison or not. -/
theorem memByte_unitStore {c off : Nat} {p : Bool} {l : List Byte} {s : State} (h0 : 0 < l.length) (h : off + l.length ≤ 0x100000) (x : Nat) :
    memByte (unitStore c off p l s) x = memByte (memWrite (scratchAddr c off) l s) x := by
  have hw : unitWrite c off l s = memWrite (scratchAddr c off) l s := by
    rw [unitWrite, if_neg (by omega), List.take_of_length_le (by omega), scrWrite]
  have hp : ∀ v, unitPoison c off l.length v = memPoison (scratchAddr c off) (min l.length (0x100000 - off)) v := fun v => if_neg (by omega)
  rw [unitStore, hp, hw]
  split
  · exact memByte_memPoison ..
  · rfl

theorem writeD_out {c point : Nat} {o : UnitOp} {rows : List (List Val)} {bad poison : Bool} {s : State}
    (h : vOutd (BitVec.ofNat 128 o.w) = true) :
    writeD c point o rows bad poison s = convertOut c point (readOut s c o.addrD) rows bad poison s := if_pos h

theorem writeD_plain {c point : Nat} {o : UnitOp} {rows : List (List Val)} {bad poison : Bool} {s : State}
    (h : vOutd (BitVec.ofNat 128 o.w) = false) :
    writeD c point o rows bad poison s = unitStore c o.addrD poison (unitBytes (BitVec.ofNat 128 o.w) rows) s := by
  unfold writeD unitBytes
  simp only [h, Bool.false_eq_true, if_false]
  cases fmtOfCode (vFmtD (BitVec.ofNat 128 o.w)) with
  | none => rfl
  | some f => rfl

/-- Without OUTD, a state that reads as `writeD`'s result holds the encoded rows at D, and every other byte as before. -/
theorem writeD_bytes {c : CoreId} {point : Nat} {o : UnitOp} {rows : List (List Val)} {bad poison : Bool} {s u : State} {b : List Byte}
    (hu : ∀ x, ¬ logRing x → memByte u x = memByte (writeD c point o rows bad poison s) x)
    (hd : vOutd (BitVec.ofNat 128 o.w) = false) (hb : b = unitBytes (BitVec.ofNat 128 o.w) rows) (h0 : 0 < b.length)
    (h : o.addrD + b.length ≤ 0x100000) :
    memBytes u (scratchAddr c o.addrD) b.length = b ∧
      ∀ x, ¬ logRing x → x < scratchAddr c o.addrD ∨ scratchAddr c o.addrD + b.length ≤ x → memByte u x = memByte s x := by
  have hw : ∀ x, ¬ logRing x → memByte u x = memByte (memWrite (scratchAddr c o.addrD) b s) x := fun x hx => by
    rw [hu x hx, writeD_plain hd, ← hb, memByte_unitStore h0 h]
  have plain : ∀ i, i < b.length → plainAddr (scratchAddr c o.addrD + i) := fun i hi => by
    rw [scratchAddr_add]; exact scratch_plain (by omega)
  refine ⟨?_, fun x hx hout => by rw [hw x hx, memByte_memWrite_ne _ _ _ hout]⟩
  rw [memBytes_congr fun i hi => hw _ (plain i hi).2, memBytes_memWrite _ _ _ plain]

/-! ### What follows the write -/

theorem UnitWrites.run {c : Nat} {s u : State} (h : UnitWrites c s u) : u.run = s.run := by rw [h.rest]
theorem UnitWrites.inRun {c : Nat} {s u : State} (h : UnitWrites c s u) : inRun u = Machine.inRun s := by
  unfold Machine.inRun; rw [h.rest]
theorem UnitWrites.setRun {c : Nat} {s u : State} (r : RunSt) (h : UnitWrites c s u) :
    UnitWrites c { s with run := r } { u with run := r } where
  core := h.core
  cores := h.cores
  rest := by rw [h.rest]

/-- Poison of an operand is reported to the core after the write (R253). -/
theorem UnitWrites.reported {c a : Nat} {p : Bool} {s u : State} (h : UnitWrites c s u) :
    UnitWrites c s (if p = true then Machine.corePoison c 5 a u else u) := h.trans (.ite (.corePoison ..) (.refl ..))
theorem memByte_reported {c a : Nat} {p : Bool} {u : State} {x : Nat} (hx : ¬ logRing x) :
    memByte (if p = true then corePoison c 5 a u else u) x = memByte u x := by
  split
  · exact memByte_corePoison c 5 a u hx
  · rfl

/-- In `v` the front operation of a unit of core `c` has left its queue, which `f` shortens; the run and memory are those of `m`. -/
structure QueueLeft (c : Nat) (f : CoreSt → CoreSt) (m v : State) : Prop where
  cores : v.cores = (modCore c f m).cores
  run : v.run = m.run
  mem : ∀ x, ¬ logRing x → memByte v x = memByte m x

theorem QueueLeft.bump (c off n : Nat) (f : CoreSt → CoreSt) (m : State) : QueueLeft c f m (bump off n (modCore c f m)) :=
  ⟨bump_cores .., by rw [bump_run, modCore_run], fun x hx => by rw [(bump_countsOnly ..).mem x hx, memByte_modCore]⟩
theorem QueueLeft.useFree {c : Nat} {f : CoreSt → CoreSt} {m v : State} (h : QueueLeft c f m v) : QueueLeft c f m (useFree v) :=
  ⟨h.cores, h.run, h.mem⟩

/-- The front operation `o` of a unit of core `c` has left its queue in `v` and completed in `u`: memory reads as in `r`, where its
results are written, and beside that no more has changed from `s` than what a unit may change. -/
structure UnitDone (c : Nat) (o : UnitOp) (f : CoreSt → CoreSt) (s r v u : State) : Prop where
  completes : Completes c o.thread (iCntEn (BitVec.ofNat 128 o.w)) (iCnt (BitVec.ofNat 128 o.w)) v u
  core : core v c = f { core s c with ovf := (Machine.core v c).ovf, poison := (Machine.core v c).poison }
  cores : ∀ d, d ≠ c → Machine.core v d = Machine.core s d
  run : u.run = s.run
  mem : ∀ x, ¬ logRing x → memByte u x = memByte r x

theorem UnitWrites.done {c : Nat} {o : UnitOp} {f : CoreSt → CoreSt} {s m r v : State} (h : UnitWrites c s m)
    (hm : ∀ x, ¬ logRing x → memByte m x = memByte r x) (hv : QueueLeft c f m v)
    (hf : ∀ C, (f C).ovf = C.ovf ∧ (f C).poison = C.poison) :
    UnitDone c o f s r v (asyncDone c o.thread (iCntEn (BitVec.ofNat 128 o.w)) (iCnt (BitVec.ofNat 128 o.w)) v) where
  completes := asyncDone_completes ..
  core := by
    rw [core_of_cores hv.cores, core_modCore_self, (hf _).1, (hf _).2, ← h.core]
  cores d hd := by rw [core_of_cores hv.cores, core_modCore_ne _ _ hd, h.cores d hd]
  run := by rw [(asyncDone_completes ..).rest, ← h.run, ← hv.run]
  mem x hx := by rw [(asyncDone_completes ..).mem x hx, hv.mem x hx, hm x hx]

/-! ### The vector unit -/

/-- VEC_COMPLETE of an ungated unit writes the operation's rows at its D. -/
theorem vecComplete_done {c : Nat} {s : State} {o : UnitOp} {rest : List UnitOp} {w : InstrWord} {sh : VecShape} {rows : List (List Val)}
    (hq : (core s c).vec = o :: rest) (hg : gated s c 5 = false) (hw : w = BitVec.ofNat 128 o.w) (hs : sh = vecShape (iOp w) (vCount w) o.s28)
    (hr : rows = if iOp w = 6 ∧ o.agree ≠ none then agreeRows s c o else vecRows s c o) :
    ∃ v, UnitDone c o (fun C => { C with vec := rest }) s (writeD c 4 o rows (unitBad s c o sh) (unitPoisoned s c o sh) s) v
      (vecComplete c s) := by
  subst hw hs hr
  unfold vecComplete
  simp only [hq, hg, Bool.false_eq_true, if_false]
  cases ha : o.agree with
  | none =>
    rw [if_neg (by simp)]
    exact ⟨_, (UnitWrites.writeD ..).reported.done (fun x hx => memByte_reported hx) (.bump ..) fun _ => ⟨rfl, rfl⟩⟩
  | some t =>
    have hr : (iOp (BitVec.ofNat 128 o.w) = 6 ∧ some t ≠ none) = (iOp (BitVec.ofNat 128 o.w) = 6) := by simp
    simp only [hr]
    refine ⟨_, ((UnitWrites.writeD ..).trans (.ite (.agreeCollect ..) (.refl ..))).reported.done
      (fun x hx => (memByte_reported hx).trans ?_) (.bump ..) fun _ => ⟨rfl, rfl⟩⟩
    split <;> rfl

/-! ### The losses of XENT -/

/-- The element that `p` admits at place `i` stands, with its place, after those that `p` admits before it. -/
theorem filter_zipIdx_getElem? {α : Type} {p : α → Bool} {l : List α} {i n : Nat} {k : α} (h : l[i]? = some k) (hk : p k = true) :
    ((l.zipIdx n).filter fun x => p x.1)[((l.take i).filter p).length]? = some (k, n + i) := by
  induction l generalizing i n with
  | nil => simp at h
  | cons y l ih =>
    cases i with
    | zero =>
      obtain rfl : y = k := by simpa using h
      simp [hk]
    | succ i =>
      have := ih (n := n + 1) (i := i) (by simpa using h)
      rw [Nat.add_right_comm] at this
      cases hy : p y <;> simp [hy, this, Nat.add_assoc]

theorem sget_foldl_sset_zip_ne {α β : Type} [DecidableEq α] {d : Nat → α} {f : β → α} {a : Nat} {ks : List Nat} {vs : List β}
    {m : List (Nat × α)} (h : a ∉ ks) :
    sget d ((ks.zip vs).foldl (fun m x => sset d m x.1 (f x.2)) m) a = sget d m a := by
  induction ks generalizing vs m with
  | nil => rfl
  | cons k ks ih =>
    obtain ⟨hk, hks⟩ := not_or.1 (mt List.mem_cons.2 h)
    cases vs with
    | nil => rfl
    | cons v vs => rw [List.zip_cons_cons, List.foldl_cons, ih hks, sget_sset_ne _ _ _ hk]

/-- Of values written at distinct keys, each key gives its own. -/
theorem sget_foldl_sset_zip {α β : Type} [DecidableEq α] {d : Nat → α} {f : β → α} {ks : List Nat} {vs : List β} {m : List (Nat × α)}
    {j a : Nat} {v : β} (hn : ks.Nodup) (hk : ks[j]? = some a) (hv : vs[j]? = some v) :
    sget d ((ks.zip vs).foldl (fun m x => sset d m x.1 (f x.2)) m) a = f v := by
  induction ks generalizing vs m j with
  | nil => simp at hk
  | cons k ks ih =>
    obtain ⟨hnot, hn⟩ := List.nodup_cons.1 hn
    cases vs with
    | nil => simp at hv
    | cons w vs =>
      rw [List.zip_cons_cons, List.foldl_cons]
      cases j with
      | zero =>
        obtain rfl : k = a := by simpa using hk
        obtain rfl : w = v := by simpa using hv
        rw [sget_foldl_sset_zip_ne hnot, sget_sset_self]
      | succ j => exact ih hn (by simpa using hk) (by simpa using hv)

/-- The keys of an XENT's losses: those of its tokens whose target is not -1. -/
def lossKeys (o : UnitOp) (ts : List Int) : List Nat :=
  (ts.zipIdx.filter fun x => x.1 != -1).map fun x => o.loss.1 * 2 ^ 32 + o.loss.2 + x.2

theorem addLosses_inRun {o : UnitOp} {ts : List Int} {l : List Val} {s : State} (h : inRun s = true) :
    (addLosses o ts l s).run.losses32 =
      ((lossKeys o ts).zip l).foldl (fun m x => sset (fun _ => none) m x.1 (some (round32 x.2))) s.run.losses32 := by
  rw [addLosses, h]; rfl

theorem nodup_lossKeys (o : UnitOp) (ts : List Int) : (lossKeys o ts).Nodup := by
  have h : ((ts.zipIdx.filter fun x => x.1 != -1).map Prod.snd).Nodup :=
    (List.nodup_zipIdx_map_snd ts).sublist (List.filter_sublist.map _)
  have e : lossKeys o ts = ((ts.zipIdx.filter fun x => x.1 != -1).map Prod.snd).map (o.loss.1 * 2 ^ 32 + o.loss.2 + ·) := by
    rw [List.map_map]; rfl
  rw [e]
  exact h.map (add_right_injective _)

/-- In a run, the loss of the token at place `i` stands at the token's number (R204). -/
theorem addLosses_token {o : UnitOp} {ts : List Int} {l : List Val} {s : State} {i : Nat} {k : Int} {v : Val} (h : inRun s = true)
    (hk : ts[i]? = some k) (hne : k ≠ -1) (hv : l[((ts.take i).filter fun x => x != -1).length]? = some v) :
    sget (fun _ => none) (addLosses o ts l s).run.losses32 (o.loss.1 * 2 ^ 32 + o.loss.2 + i) = some (round32 v) := by
  rw [addLosses_inRun h]
  refine sget_foldl_sset_zip (f := fun x => some (round32 x)) (nodup_lossKeys o ts) ?_ hv
  rw [lossKeys, List.getElem?_map, filter_zipIdx_getElem? (p := fun x => x != -1) hk (by simpa using hne)]
  simp

/-! ### The exact unit -/

/-- The run as the front operation of the exact unit leaves it: with the losses of an XENT. -/
def xuRun (c : Nat) (o : UnitOp) (s : State) : RunSt :=
  if iOp (BitVec.ofNat 128 o.w) = 8 then
    (addLosses o (int32s s c o.addrB (vCount (BitVec.ofNat 128 o.w))) (xuRows s c o).flatten s).run
  else s.run

theorem xuRun_only (c : Nat) (o : UnitOp) (s : State) : xuRun c o s = { s.run with losses32 := (xuRun c o s).losses32 } := by
  unfold xuRun
  split
  · rw [addLosses_only]
  · rfl

theorem xuRun_same {c : Nat} {o : UnitOp} {s : State} (h : iOp (BitVec.ofNat 128 o.w) ≠ 8 ∨ inRun s = false) : xuRun c o s = s.run := by
  unfold xuRun
  split
  · next h8 => rw [addLosses, h.resolve_left (not_not_intro h8)]; rfl
  · rfl

theorem addLosses_written {c : Nat} {o : UnitOp} {ts : List Int} {l : List Val} {s u : State} (h : UnitWrites c s u) :
    addLosses o ts l u = { u with run := (addLosses o ts l s).run } := by
  unfold addLosses
  rw [h.inRun]
  split
  · rw [← h.run]
  · simp only [h.run]

/-- XU_COMPLETE of an ungated unit writes the operation's rows, and records an XENT's losses. -/
theorem xuComplete_done {c : Nat} {s : State} {o : UnitOp} {rest : List UnitOp} {w : InstrWord} {sh : VecShape} {poison : Bool}
    (hq : (core s c).xu = o :: rest) (hg : gated s c 6 = false) (hw : w = BitVec.ofNat 128 o.w)
    (hs : sh = xuShape (iOp w) (vCount w) o.s28 o.s29) (hp : poison = (unitPoisoned s c o sh || gatherPoison s c o)) :
    ∃ v, UnitDone c o (fun C => { C with xu := rest }) { s with run := xuRun c o s } (if iOp w = 6 then scatOp c o poison s
      else writeD c 5 o (xuRows s c o) (unitBad s c o sh || gatherBad o (xuRows s c o)) poison s) v (xuComplete c s) := by
  subst hw hs hp
  unfold xuComplete
  simp only [hq, hg, Bool.false_eq_true, if_false]
  by_cases h6 : iOp (BitVec.ofNat 128 o.w) = 6
  · have h8 : ¬ iOp (BitVec.ofNat 128 o.w) = 8 := by omega
    simp only [if_pos h6, if_neg h8]
    rw [xuRun_same (.inl h8)]
    exact ⟨_, (UnitWrites.scatOp ..).reported.done (fun x hx => memByte_reported hx) (QueueLeft.bump ..).useFree fun _ => ⟨rfl, rfl⟩⟩
  · simp only [if_neg h6]
    refine ⟨_, (UnitWrites.reported ?_).done (fun x hx => (memByte_reported hx).trans ?_) (QueueLeft.bump ..).useFree fun _ => ⟨rfl, rfl⟩⟩
    · by_cases h8 : iOp (BitVec.ofNat 128 o.w) = 8
      · rw [xuRun, if_pos h8, if_pos h8, addLosses_written (UnitWrites.writeD ..)]
        exact (UnitWrites.writeD ..).setRun _
      · rw [xuRun_same (.inl h8), if_neg h8]
        exact .writeD ..
    · split
      · rw [addLosses_only]; rfl
      · rfl

/-- Settles O20: each unit's front operation is what it writes, its leaving of the queue, and its completion. -/
theorem unitCompletion : Obligations.UnitCompletion := by
  unfold Obligations.UnitCompletion
  simp only [exec_vecComplete, exec_xuComplete]
  refine ⟨fun c s o rest w sh rows hq hg hw hs hr => ?_, fun c s o rest w sh poison hq hg hw hs hp => ?_⟩
  · obtain ⟨v, hdone⟩ := vecComplete_done hq hg hw hs hr
    subst hw
    exact ⟨_, v, rfl, hdone.completes, hdone.core, hdone.cores, hdone.run, fun hd x hx => by rw [hdone.mem x hx, writeD_out hd],
      fun b hd hb h0 h => writeD_bytes hdone.mem hd hb h0 h⟩
  · obtain ⟨v, hdone⟩ := xuComplete_done hq hg hw hs hp
    subst hw
    refine ⟨_, v, rfl, hdone.completes, hdone.core, hdone.cores, ?_, fun h6 x hx => ?_, fun h6 hd x hx => ?_, fun b h6 hd hb h0 h => ?_,
      fun h => ?_, fun h8 hrun i k v hk hne hv => ?_⟩
    · rw [hdone.run]; exact xuRun_only c o s
    · rw [hdone.mem x hx, if_pos h6]
    · rw [hdone.mem x hx, if_neg h6, writeD_out hd]
    · exact writeD_bytes (by simpa only [if_neg h6] using hdone.mem) hd hb h0 h
    · rw [hdone.run]; exact xuRun_same h
    · rw [hdone.run]; simp only [xuRun, if_pos h8]; exact addLosses_token hrun hk hne hv

end Sys2Proof.Machine
end

section
/-! PROOFS. Every command completes, and leaves the queue and the fixed fuses alone (R88, R370, R400, R402, R431, R432). -/

namespace Sys2Proof.Machine

open Sys2Proof

/-- Settles O2: `exec_kept` from the state itself. -/
theorem queueAndFuses : Obligations.QueueAndFuses := fun c s => by
  obtain ⟨t, runs, kept⟩ := exec_kept c (Kept.refl s)
  exact ⟨t, runs, kept.queue, kept.fuses⟩

end Sys2Proof.Machine
end

section
/-! PROOFS. TILE, TBL and IDLE enter the arrays' queues or stall (R74, R79, R86, R90, R92, R158, R162, R169). -/

namespace Sys2Proof.Machine

open Sys2Proof

/-! ### Rows -/

theorem exec_tile (c : CoreId) (t : ThreadId) (w : InstrWord) (s : State) : exec (.tile c t w) s = execTile c t w s := rfl
theorem exec_tbl (c : CoreId) (t : ThreadId) (w : InstrWord) (s : State) : exec (.tbl c t w) s = execTbl c t w s := rfl
theorem exec_idle (c : CoreId) (t : ThreadId) (w : InstrWord) (s : State) : exec (.idle c t w) s = execIdle c t w s := rfl

/-! ### A TILE that is queued -/

/-- The entry that a TILE makes in its array's queue (R74, R79, R162). -/
def queuedTile (s : State) (c t : Nat) (w : InstrWord) : TileOp :=
  { thread := t, w := w.toNat, feed := aReg s c t (tFeeda w), out := aReg s c t (tOuta w), filled := false, started := false,
    grp := (core s c).grpNo, bad := false, poison := false, texp := operandTexp s c (thread s c t).pc 0,
    real := min (operandReal s c (thread s c t).pc 0 ((statFmt (tSfmt w)).getD .bf16) (tK w))
      (operandReal s c (thread s c t).pc 1 ((streamFmt (tTfmt w)).getD .bf16) (tK w)), rows := [] }

/-- GRP_END closes the TILE group that is open (R79). -/
def closeGroup (c : Nat) (w : InstrWord) (s : State) : State :=
  if tEnd w then modCore c (fun C => { C with grpNo := C.grpNo + 1 }) s else s

theorem operandTexp_advance (c t : Nat) (s : State) (d pc k : Nat) : operandTexp (advance c t s) d pc k = operandTexp s d pc k := by
  unfold operandTexp planTensor operandOf; rw [plan_advance]
theorem operandReal_advance (c t : Nat) (s : State) (d pc k : Nat) (f : Fmt) (n : Nat) :
    operandReal (advance c t s) d pc k f n = operandReal s d pc k f n := by
  unfold operandReal planTensor operandOf; rw [plan_advance]
theorem grpNo_advance (c t : Nat) (s : State) : (core (advance c t s) c).grpNo = (core s c).grpNo := by rw [core_advance]

theorem queueTile_advance (c t : Nat) (w : InstrWord) (s : State) :
    queueTile c t (thread s c t).pc w (advance c t s) =
      closeGroup c w (afterArr c (tArray w) (asyncBegin c t (pushArr c (tArray w) (.tile (queuedTile s c t w)) (advance c t s)))) := by
  unfold queueTile closeGroup queuedTile
  simp only [aReg_advance, operandTexp_advance, operandReal_advance, grpNo_advance]

theorem closeGroup_iss {c t : Nat} {s u : State} (w : InstrWord) (h : IssuedAsync c t s u) : IssuedAsync c t s (closeGroup c w u) := by
  unfold closeGroup; split
  · exact mod_iss h _ fun _ => rfl
  · exact h
theorem arr_closeGroup (c : Nat) (w : InstrWord) (s : State) (a : Nat) : arr (closeGroup c w s) c a = arr s c a := by
  unfold closeGroup; split
  · exact arr_mod c (fun C => { C with grpNo := C.grpNo + 1 }) (fun _ => rfl) s a
  · rfl
theorem grpNo_closeGroup (c : Nat) (w : InstrWord) (s : State) :
    (core (closeGroup c w s) c).grpNo = if tEnd w then (core s c).grpNo + 1 else (core s c).grpNo := by
  unfold closeGroup; split
  · rw [core_modCore_self]
  · rfl

/-! ### What an issue leaves -/

theorem IssuedAsync.underSchedule {c t : Nat} {s u : State} (h : IssuedAsync c t s u) : underSchedule u = Machine.underSchedule s := by
  rw [h.only.rest]; rfl
theorem IssuedAsync.density {c t : Nat} {s u : State} (h : IssuedAsync c t s u) (d a : Nat) : density u d a = Machine.density s d a := by
  rw [h.only.rest]; rfl

/-- A TILE that comes to stand unstarted at the front under the schedule of a run, in no gap and no fence, begins an unplanned gap with
ballast at the DENSITY of that moment (R92; log entries 33 and 116). -/
theorem afterArr_unplanned {c a : Nat} {u : State} {t : TileOp} {rest : List ArrOp} (hq : (arr u c a).queue = .tile t :: rest)
    (ht : t.started = false) (hs : underSchedule u = true) (hf : (core u c).fence = false) (hg : (arr u c a).gap = .none) :
    arr (afterArr c a u) c a = { arr u c a with
      gap := .unplanned, gapFrom := coreCycle u c, ballast := true, density := density u c a, frac := density u c a } := by
  have front : advanceArr c a u = u := by unfold advanceArr queueOf; rw [hq]
  unfold afterArr gapCheck queueOf
  rw [front, hq]
  simp [ht, hs, hf, hg]

theorem fence_push (c t a : Nat) (o : ArrOp) (s : State) :
    (core (asyncBegin c t (pushArr c a o (advance c t s))) c).fence = (core s c).fence := by
  unfold pushArr modArr; rw [core_asyncBegin]

theorem push_arr_self (c t a : Nat) (o : ArrOp) (s : State) : arr (asyncBegin c t (pushArr c a o (advance c t s))) c a =
    { arr s c a with queue := (arr s c a).queue ++ [o] } := by rw [push_arr, if_pos rfl]
theorem push_arr_ne (c t : Nat) {a b : Nat} (o : ArrOp) (s : State) (h : b ≠ a) :
    arr (asyncBegin c t (pushArr c a o (advance c t s))) c b = arr s c b := by rw [push_arr, if_neg h]

theorem grpNo_afterArr (c a : Nat) (s : State) : (core (afterArr c a s) c).grpNo = (core s c).grpNo := by
  rw [(afterArr_spec c a s).1.core]

/-- A queue of 16 that is not full takes one more entry. -/
theorem arrFull_false {s : State} {c a : Nat} (h : (arr s c a).queue.length < 16) : arrFull s c a = false :=
  decide_eq_false (by unfold queueOf; omega)
theorem arrFull_true {s : State} {c a : Nat} (h : 16 ≤ (arr s c a).queue.length) : arrFull s c a = true := decide_eq_true h

/-! ### The three rows -/

section
variable {c : CoreId} {t : ThreadId} {w : InstrWord} {s : State}

theorem execTile_room (hr : Ready s c t w) (h1 : iClass w = 1) (h2 : iOp w = 0) (h0 : tileCause c t w s = 0)
    (hl : (arr s c (tArray w)).queue.length < 16) :
    execTile c t w s = .next (closeGroup c w (afterArr c (tArray w)
      (asyncBegin c t (pushArr c (tArray w) (.tile (queuedTile s c t w)) (advance c t s))))) :=
  congrArg Host.Outcome.next ((issue_runs hr rfl h1 h2 h0 (arrFull_false hl)).trans (queueTile_advance ..))

/-- A TILE with room: its entry in the queue, the gap of its array, and the group (R74, R79, R92, R162). -/
theorem tile_queued (s : State) (c t : Nat) (w : InstrWord) {u : State} (hu : u = closeGroup c w (afterArr c (tArray w)
      (asyncBegin c t (pushArr c (tArray w) (.tile (queuedTile s c t w)) (advance c t s))))) (q : List ArrOp)
    (hq : q = begun ((arr s c (tArray w)).queue ++ [.tile (queuedTile s c t w)])) :
    IssuedAsync c t s u ∧ Queued (arr u c (tArray w)) (arr s c (tArray w)) q ∧
      (underSchedule s = false → arr u c (tArray w) = { arr s c (tArray w) with queue := q }) ∧
      (underSchedule s = true → (arr s c (tArray w)).queue = [] → (core s c).fence = false → (arr s c (tArray w)).gap = .none →
        (arr u c (tArray w)).gap = .unplanned ∧ (arr u c (tArray w)).ballast = true ∧
        (arr u c (tArray w)).density = density s c (tArray w)) ∧
      (∀ a, a ≠ tArray w → arr u c a = arr s c a) ∧
      (core u c).grpNo = if tEnd w then (core s c).grpNo + 1 else (core s c).grpNo := by
  have pushed := push_iss c t (tArray w) (.tile (queuedTile s c t w)) s
  have here := push_arr_self c t (tArray w) (.tile (queuedTile s c t w)) s
  have there := fun a => push_arr_ne c t (a := tArray w) (b := a) (.tile (queuedTile s c t w)) s
  have fence := fence_push c t (tArray w) (.tile (queuedTile s c t w)) s
  have grp := push_grp c t (tArray w) (.tile (queuedTile s c t w)) s
  generalize asyncBegin c t (pushArr c (tArray w) (.tile (queuedTile s c t w)) (advance c t s)) = v at *
  subst hu hq
  simp only [arr_closeGroup]
  refine ⟨closeGroup_iss w (afterArr_iss pushed _), ?_, fun hs => ?_, fun hs he hf hg => ?_, fun a ha => ?_, ?_⟩
  · obtain ⟨only, queue, -⟩ := afterArr_spec c (tArray w) v
    have := only.arr (tArray w)
    rw [queue, here] at this
    exact this
  · rw [afterArr_idle c _ (pushed.underSchedule.trans hs), here]
  · rw [afterArr_unplanned (t := queuedTile s c t w) (rest := []) (by rw [here, he]; rfl) rfl (pushed.underSchedule.trans hs)
      (fence.trans hf) (by rw [here]; exact hg)]
    exact ⟨rfl, rfl, pushed.density c _⟩
  · rw [afterArr_ne _ ha, there a ha]
  · rw [grpNo_closeGroup, grpNo_afterArr, grp]

theorem execTbl_room (hr : Ready s c t w) (h1 : iClass w = 1) (h2 : iOp w = 1) (h0 : tblCause c t w s = 0)
    (hl : (arr s c (tArray w)).queue.length < 16) :
    execTbl c t w s = .next (asyncBegin c t (pushArr c (tArray w) (.tbl t w.toNat) (advance c t s))) :=
  congrArg Host.Outcome.next (issue_runs hr rfl h1 h2 h0 (arrFull_false hl))

theorem execIdle_room (hr : Ready s c t w) (h1 : iClass w = 1) (h2 : iOp w = 2) (h0 : idleCause c t w s = 0)
    (hl : ∀ a ∈ idleArrays w, (arr s c a).queue.length < 16) :
    execIdle c t w s = .next ((idleArrays w).foldl (idleOne c t w) (asyncBegin c t (advance c t s))) :=
  congrArg Host.Outcome.next (issue_runs hr rfl h1 h2 h0
    (List.any_eq_false.2 fun a ha => Bool.not_eq_true _ ▸ arrFull_false (hl a ha)))

theorem nodup_idleArrays (w : InstrWord) : (idleArrays w).Nodup := by
  unfold idleArrays; split <;> simp

/-- Into a full queue each of the three stalls (R169). -/
theorem execTile_full (hr : Ready s c t w) (h1 : iClass w = 1) (h2 : iOp w = 0) (h0 : tileCause c t w s = 0)
    (hl : 16 ≤ (arr s c (tArray w)).queue.length) : execTile c t w s = .next (bump (cntCore c 24) 1 s) :=
  congrArg Host.Outcome.next (issue_stalls hr rfl h1 h2 h0 (arrFull_true hl))
theorem execTbl_full (hr : Ready s c t w) (h1 : iClass w = 1) (h2 : iOp w = 1) (h0 : tblCause c t w s = 0)
    (hl : 16 ≤ (arr s c (tArray w)).queue.length) : execTbl c t w s = .next (bump (cntCore c 24) 1 s) :=
  congrArg Host.Outcome.next (issue_stalls hr rfl h1 h2 h0 (arrFull_true hl))
theorem execIdle_full (hr : Ready s c t w) (h1 : iClass w = 1) (h2 : iOp w = 2) (h0 : idleCause c t w s = 0)
    (hl : ∃ a ∈ idleArrays w, 16 ≤ (arr s c a).queue.length) : execIdle c t w s = .next (bump (cntCore c 24) 1 s) := by
  obtain ⟨a, ha, hl⟩ := hl
  exact congrArg Host.Outcome.next (issue_stalls hr rfl h1 h2 h0 (List.any_eq_true.2 ⟨a, ha, arrFull_true hl⟩))

end

/-- Settles O16: each row is a push into its queues, after which the array's front may begin an IDLE or an unplanned gap. -/
theorem arrayIssue : Obligations.ArrayIssue := by
  refine ⟨fun c t w s q hr h1 h2 h0 hl hq => ?tile, fun c t w s hr h1 h2 h0 hl => ?tbl, fun c t w s hr h1 h2 h0 hl => ?idle,
    fun c t w s hr h1 => ⟨fun h2 h0 hl => ?_, fun h2 h0 hl => ?_, fun h2 h0 hl => ?_⟩⟩
  case tile => exact ⟨_, (exec_tile ..).trans (execTile_room hr h1 h2 h0 hl), tile_queued s c t w rfl q hq⟩
  case tbl =>
    exact ⟨_, (exec_tbl ..).trans (execTbl_room hr h1 h2 h0 hl), push_iss .., push_arr_self .., fun a ha => push_arr_ne c t _ s ha⟩
  case idle =>
    obtain ⟨issued, others, named⟩ := idles_spec c t w (idleArrays w) (nodup_idleArrays w) s _ (iss_begin c t s)
    simp only [arr_asyncBegin, arr_advance, (iss_begin c t s).underSchedule] at others named
    exact ⟨_, (exec_idle ..).trans (execIdle_room hr h1 h2 h0 hl), issued, named, others⟩
  · exact ⟨_, (exec_tile ..).trans (execTile_full hr h1 h2 h0 hl), rfl⟩
  · exact ⟨_, (exec_tbl ..).trans (execTbl_full hr h1 h2 h0 hl), rfl⟩
  · exact ⟨_, (exec_idle ..).trans (execIdle_full hr h1 h2 h0 hl), rfl⟩

end Sys2Proof.Machine
end

section
/-! PROOFS. FILL, FENCE_END and TBL_COMPLETE (R64, R76, R77, R78, R79, R84, R86, R87, R169). -/

namespace Sys2Proof.Machine

open Sys2Proof

/-! ### Rows -/

theorem exec_fill (c : CoreId) (a : ArrayId) (s : State) : exec (.fill c a) s = .next (fill c a s) := rfl
theorem exec_fenceEnd (c : CoreId) (s : State) : exec (.fenceEnd c) s = .next (fenceEnd c s) := rfl
theorem exec_tblComplete (c : CoreId) (a : ArrayId) (s : State) : exec (.tblComplete c a) s = .next (tblComplete c a s) := rfl

/-! ### Poison that a read of scratch meets (R253) -/

/-- Poison in the bytes read reaches the core. -/
def poisonSeen (c addr : Nat) (p : Bool) (s : State) : State := if p then corePoison c 5 addr s else s

theorem poisonSeen_spec (c addr : Nat) (p : Bool) (s : State) :
    TilesOnly c s (poisonSeen c addr p s) ∧ ∀ b, arr (poisonSeen c addr p s) c b = arr s c b := by
  unfold poisonSeen; split
  · exact TilesOnly.corePoison ..
  · exact ⟨.refl c s, fun _ => rfl⟩

/-! ### FILL (R76, R78, R87) -/

/-- The fill unit can serve an array whose next TILE is known, whose shadow set is free, and whose composition stands. -/
theorem fillReady_some {s : State} {c a : Nat} {t : TileOp} (ht : nextFill (arr s c a).queue = some t) (hfull : (arr s c a).full = false)
    (hfence : (core s c).fence = false) (hg : gated s c 4 = false) (hm : compMatches s c (groupTiles s c t.grp) = true) :
    fillReady s c a = some t := by
  unfold fillReady queueOf; simp [ht, hfull, hfence, hg, hm]

theorem fillReady_none {s : State} {c a : Nat} (h : nextFill (arr s c a).queue = none ∨ (arr s c a).full = true ∨ (core s c).fence = true ∨
    gated s c 4 = true) : fillReady s c a = none := by
  unfold fillReady queueOf
  rcases h with h | h | h | h
  · rw [h]
  all_goals split <;> simp [h]

/-- The array after its fill: the shadow set is loaded and the TILE marked. -/
def filledArr (st : StatSet) (A : ArrSt) : ArrSt :=
  { A with shadow := st, full := true, queue := modTile (fun x => !x.filled) (fun x => { x with filled := true }) A.queue }

theorem fill_runs {s : State} {c a : Nat} {t : TileOp} {st : StatSet} (ht : fillReady s c a = some t) (hb : ∀ b, b < a → fillReady s c b = none)
    (hst : st = readStat s c a (BitVec.ofNat 128 t.w) t.texp t.real (tSaddr (BitVec.ofNat 128 t.w))) :
    fill c a s = modArr c a (filledArr st) (setComp c (groupTiles s c t.grp)
      (poisonSeen c (scratchAddr c (tSaddr (BitVec.ofNat 128 t.w))) st.poisoned s)) := by
  have first : ((List.range a).any fun b => (fillReady s c b).isSome) = false :=
    List.any_eq_false.2 fun b hm => by rw [hb b (List.mem_range.1 hm)]; exact Bool.false_ne_true
  subst hst
  unfold fill
  rw [ht]
  simp only [first, Bool.false_eq_true, if_false]
  rfl

/-- A FILL that the fill unit cannot serve, or that an array before it awaits, has no effect (R78). -/
theorem fill_idle {s : State} {c a : Nat} (h : fillReady s c a = none ∨ ∃ b, b < a ∧ fillReady s c b ≠ none) : fill c a s = s := by
  unfold fill
  split
  · rfl
  · next t ht =>
    obtain ⟨b, hb, hn⟩ := h.resolve_left (by rw [ht]; exact Option.some_ne_none t)
    exact if_pos (List.any_eq_true.2 ⟨b, List.mem_range.2 hb, Option.isSome_iff_ne_none.2 hn⟩)

/-- A fill changes its array's shadow set and queue, and the widths of the group's arrays. -/
theorem filled_spec (c a addr : Nat) (st : StatSet) (ts : List (Nat × TileOp)) (p : Bool) (s u : State)
    (hu : u = modArr c a (filledArr st) (setComp c ts (poisonSeen c addr p s))) :
    (∃ n, arr u c a = { filledArr st (arr s c a) with width := n }) ∧ (∀ b, b ≠ a → ∃ n, arr u c b = { arr s c b with width := n }) ∧
      (∀ x, ¬ logRing x → memByte u x = memByte s x) ∧ ∀ d v, thread u d v = thread s d v := by
  obtain ⟨seen, arrays⟩ := poisonSeen_spec c addr p s
  have comp := comp_set c ts (poisonSeen c addr p s)
  have width : ∀ b, ∃ n, arr (setComp c ts (poisonSeen c addr p s)) c b = { arr s c b with width := n } := fun b => by
    obtain ⟨n, e⟩ := comp.arr b
    exact ⟨n, by rw [e, arrays]⟩
  subst hu
  refine ⟨?_, fun b hb => ?_, fun x hx => ?_, fun d v => ?_⟩
  · obtain ⟨n, e⟩ := width a
    exact ⟨n, by rw [arr_modArr_self, e]; rfl⟩
  · rw [arr_modArr, if_neg hb]; exact width b
  · rw [memByte_modArr, comp.mem]; exact seen.mem x hx
  · rw [thread_modArr, comp.thread, seen.thread]

/-! ### FENCE_END (R84) -/

/-- The fence of a core is over. -/
def fenceOver (c : Nat) (s : State) : State := modCore c (fun C => { C with fence := false }) s

/-- The cells take the composition of the group that stands next. -/
def composeNext (c : Nat) (s : State) : State :=
  match nextGroup s c with
  | some (_, ts) => setComp c ts s
  | none => s

theorem fenceEnd_runs {c : Nat} {s : State} (h : (core s c).fence = true) :
    fenceEnd c s = (List.range 4).foldl (fun st a => gapCheck c a st) (composeNext c (fenceOver c s)) := by
  unfold fenceEnd composeNext; rw [if_pos h]; rfl

theorem arr_fenceOver (c : Nat) (s : State) (a : Nat) : arr (fenceOver c s) c a = arr s c a :=
  arr_mod c (fun C => { C with fence := false }) (fun _ => rfl) s a

theorem nextGroup_fenceOver (c : Nat) (s : State) : nextGroup (fenceOver c s) c = nextGroup s c := by
  have grp : (core (fenceOver c s) c).grpNo = (core s c).grpNo := by unfold fenceOver; rw [core_modCore_self]
  unfold nextGroup groupTiles queueOf
  simp only [arr_fenceOver, grp]

theorem composeNext_spec (c : Nat) (s : State) : CompSet c s (composeNext c s) := by
  unfold composeNext; split
  · exact comp_set ..
  · exact .refl c s

theorem memByte_gapCheck (c a : Nat) (s : State) (x : Nat) : memByte (gapCheck c a s) x = memByte s x := by
  unfold gapCheck; split
  · split
    · rfl
    · exact memByte_modArr ..
  · rfl

theorem memByte_gapChecks (c : Nat) (l : List Nat) (s : State) (x : Nat) :
    memByte (l.foldl (fun st a => gapCheck c a st) s) x = memByte s x := by
  induction l generalizing s with
  | nil => rfl
  | cons a l ih => exact (ih _).trans (memByte_gapCheck ..)

/-- The end of a fence: the flag, the composition of the next group, and the gaps of TILEs that wait (R84, R92). -/
theorem fenceEnd_spec {c : Nat} {s u : State}
    (hu : u = (List.range 4).foldl (fun st a => gapCheck c a st) (composeNext c (fenceOver c s))) :
    (core u c).fence = false ∧ (∀ d v, thread u d v = thread s d v) ∧ (∀ x, memByte u x = memByte s x) ∧
      (∀ a, (arr u c a).queue = (arr s c a).queue ∧ (arr u c a).bank = (arr s c a).bank) ∧
      ∀ g ts, nextGroup s c = some (g, ts) → (∀ y ∈ ts, ∀ z ∈ ts, y.1 = z.1 → y = z) →
        ∀ y ∈ ts, (arr u c y.1).width = (tileComp (BitVec.ofNat 128 y.2.w)).1 := by
  have comp := composeNext_spec c (fenceOver c s)
  have gaps : GapsOnly c (composeNext c (fenceOver c s)) u := hu ▸ .fold (fun v a => .gapCheck c a v) _ _
  refine ⟨?_, fun d v => ?_, fun x => ?_, fun a => ?_, fun g ts hn one y hy => ?_⟩
  · rw [gaps.core, comp.core, fenceOver, core_modCore_self]
  · rw [gaps.thread, comp.thread]; exact thread_mod c (fun C => { C with fence := false }) (fun _ => rfl) s d v
  · rw [hu, memByte_gapChecks, comp.mem, fenceOver, memByte_modCore]
  · obtain ⟨n, e⟩ := comp.arr a
    rw [gaps.same a, e, arr_fenceOver]
    exact ⟨rfl, rfl⟩
  · have next : composeNext c (fenceOver c s) = setComp c ts (fenceOver c s) := by
      unfold composeNext; rw [nextGroup_fenceOver, hn]
    rw [gaps.same y.1, next]
    exact comp_width c ts _ y (.inl hy) fun z hz e => one z hz y hy e

/-! ### TBL_COMPLETE (R86) -/

/-- An array that differs from `B` in queue and gap fields, with the queue of `B`, is `B` but for its gap. -/
theorem queued_of_same {A B C : ArrSt} (h : A = { B with
      queue := A.queue, frac := A.frac, ramp := A.ramp, ballast := A.ballast, gap := A.gap, gapFrom := A.gapFrom, density := A.density })
    (hq : A.queue = B.queue) (hB : B = C) : Queued A C C.queue := by
  subst hB
  rw [hq] at h
  exact h

/-- The array after its TBL: the entry has left the queue, and the bytes are in the table memory. -/
def loadedArr (lo : Nat) (bytes : List Byte) (A : ArrSt) : ArrSt :=
  { A with queue := dropTbl A.queue, table := ssetRun byteD A.table lo bytes }

/-- What a TBL reads of scratch. -/
def tblBytes (s : State) (c : Nat) (w : InstrWord) : List Byte := scrBytes s c (tblSrc w) (32 * tblCount w)

theorem length_tblBytes (s : State) (c : Nat) (w : InstrWord) : (tblBytes s c w).length = 32 * tblCount w := length_memBytes ..

theorem tblBytes_getElem? (s : State) (c : Nat) (w : InstrWord) {i : Nat} (h : i < 32 * tblCount w) :
    (tblBytes s c w)[i]? = some (memByte s (scratchAddr c (tblSrc w) + i)) := by
  unfold tblBytes scrBytes memBytes
  rw [List.getElem?_map, List.getElem?_range h, Option.map_some]

/-- The codebooks are loaded, and the TBL has left its queue. -/
def tblLoaded (c a : Nat) (w : InstrWord) (s : State) : State :=
  modArr c a (loadedArr (32 * tblSlot w) (tblBytes s c w)) (poisonSeen c (scratchAddr c (tblSrc w))
    (anyPoison s (scratchAddr c (tblSrc w)) (32 * tblCount w)) s)

theorem tblComplete_runs {c a : Nat} {s : State} {t x : Nat} {w : InstrWord} (h : nextTbl (arr s c a).queue = some (t, x))
    (hw : w = BitVec.ofNat 128 x) : tblComplete c a s = afterArr c a (asyncDone c t (iCntEn w) (iCnt w) (tblLoaded c a w s)) := by
  subst hw
  unfold tblComplete queueOf
  rw [h]
  rfl

/-- The slots written hold the bytes, and no other byte of the table memory changes (R86, R87). -/
theorem table_loaded (lo : Nat) (bytes : List Byte) (A : ArrSt) :
    (∀ i b, bytes[i]? = some b → sget byteD (loadedArr lo bytes A).table (lo + i) = b) ∧
      ∀ i, i < lo ∨ lo + bytes.length ≤ i → sget byteD (loadedArr lo bytes A).table i = sget byteD A.table i := by
  refine ⟨fun i b h => ?_, fun i h => ?_⟩
  · rw [loadedArr, sget_ssetRun, if_pos (Nat.le_add_right ..), Nat.add_sub_cancel_left, h, Option.getD_some]
  · rw [loadedArr, sget_ssetRun]
    split
    · rw [List.getElem?_eq_none (by omega), Option.getD_none]
    · rfl

/-- The arrays, threads, completion counters and memory of the core as the codebooks stand loaded. -/
theorem tblLoaded_spec (c a : Nat) (w : InstrWord) (s : State) :
    arr (tblLoaded c a w s) c a = loadedArr (32 * tblSlot w) (tblBytes s c w) (arr s c a) ∧
      (∀ b, b ≠ a → arr (tblLoaded c a w s) c b = arr s c b) ∧ TilesOnly c s (tblLoaded c a w s) := by
  obtain ⟨seen, arrays⟩ := poisonSeen_spec c (scratchAddr c (tblSrc w)) (anyPoison s (scratchAddr c (tblSrc w)) (32 * tblCount w)) s
  refine ⟨?_, fun b hb => ?_, seen.trans (.modArr ..)⟩
  · unfold tblLoaded; rw [arr_modArr_self, arrays]
  · unfold tblLoaded; rw [arr_modArr, if_neg hb, arrays]

theorem TilesOnly.kGet {c : Nat} {s u : State} (h : TilesOnly c s u) (j : Nat) : kGet u c j = Machine.kGet s c j := by
  unfold Machine.kGet; rw [h.core]

/-- Settles O21: a fill is one change of its array, a fence's end the composition of the next group, a TBL one write of the table
memory and its completion. -/
theorem arrayFills : Obligations.ArrayFills := by
  refine ⟨fun c a s t w ht hfull hfence hg hm hb hw => ?fills, fun c a s h => ?idle, fun c s h => ?fence, fun c a s t x w h hw => ?tbl⟩
  case fills =>
    subst hw
    obtain ⟨⟨n, here⟩, others, mem, threads⟩ := filled_spec c a _ _ _ _ s _ (fill_runs (fillReady_some ht hfull hfence hg hm) hb rfl)
    rw [exec_fill]
    refine ⟨_, rfl, ?_, ?_, ?_, ?_, ?_, ?_, others, mem, threads⟩ <;> rw [here] <;> rfl
  case idle =>
    rw [exec_fill]
    refine congrArg _ (fill_idle ?_)
    rcases h with h | h | h | h | h
    · exact .inl (fillReady_none (.inl h))
    · exact .inl (fillReady_none (.inr (.inl h)))
    · exact .inl (fillReady_none (.inr (.inr (.inl h))))
    · exact .inl (fillReady_none (.inr (.inr (.inr h))))
    · exact .inr h
  case fence => exact ⟨_, exec_fenceEnd .., fenceEnd_spec (fenceEnd_runs h)⟩
  case tbl =>
    obtain ⟨here, others, loaded⟩ := tblLoaded_spec c a w s
    obtain ⟨queue, queues, arrays, outstanding, counts, -, mem⟩ := leave_queue c a t (iCntEn w) (iCnt w) (tblLoaded c a w s) _ (.refl ..)
    rw [← tblComplete_runs h hw] at queue queues arrays outstanding counts mem
    obtain ⟨written, kept⟩ := table_loaded (32 * tblSlot w) (tblBytes s c w) (arr s c a)
    have table : (arr (tblComplete c a s) c a).table = (loadedArr (32 * tblSlot w) (tblBytes s c w) (arr s c a)).table := by
      rw [arrays, here]
    rw [exec_tblComplete]
    refine ⟨_, rfl, by rw [queue, here]; rfl, fun b hb => ?_, fun j => by rw [outstanding, loaded.thread], fun j => by rw [counts, loaded.kGet],
      fun z hz => by rw [mem z hz, loaded.mem z hz], fun i hi => ?_, fun i hi => ?_⟩
    · exact queued_of_same (arrays b) (queues b hb) (others b hb)
    · rw [table]; exact written i _ (tblBytes_getElem? s c w hi)
    · rw [table]; exact kept i (by rw [length_tblBytes]; exact hi)

end Sys2Proof.Machine
end

section
/-! PROOFS. TILE groups, the ends of TILEs and IDLEs, and ramps (R66, R67, R68, R75, R79, R80, R90, R91, R92, R100, R162, R169). -/

namespace Sys2Proof.Machine

open Sys2Proof

/-! ### Rows -/

theorem exec_tileGroupStart (c : CoreId) (s : State) : exec (.tileGroupStart c) s = .next (groupStart c s) := rfl
theorem exec_tileComplete (c : CoreId) (a : ArrayId) (s : State) : exec (.tileComplete c a) s = .next (tileComplete c a s) := rfl
theorem exec_idleEnd (c : CoreId) (a : ArrayId) (s : State) : exec (.idleEnd c a) s = .next (idleEnd c a s) := rfl
theorem exec_rampStep (c : CoreId) (a : ArrayId) (s : State) : exec (.rampStep c a) s = .next (rampStep c a s) := rfl
theorem exec_unplannedGapTimeout (c : CoreId) (a : ArrayId) (s : State) :
    exec (.unplannedGapTimeout c a) s = .next (gapTimeout c a s) := rfl

/-! ### Arrays that differ in their gap fields alone -/

theorem SameSets.trans {A B C : ArrSt} (h : SameSets A B) (k : SameSets B C) : SameSets A C := by
  unfold SameSets at *; rw [h, k]

theorem SameSets.queued {A B : ArrSt} (h : SameSets A B) : Queued A B B.queue := h

theorem arr_traceRec (e thr typ arg d0 d1 : Nat) (s : State) (c a : Nat) : arr (traceRec e thr typ arg d0 d1 s) c a = arr s c a := by
  unfold arr; rw [core_of_cores (traceRec_cores ..)]

theorem arr_endUnplanned_ne {c a b : Nat} (s : State) (h : b ≠ a) : arr (endUnplanned c a s) c b = arr s c b := by
  unfold endUnplanned
  split
  · extract_lets n s1 s2 s3
    have h1 : arr s1 c b = arr s c b := arr_bump ..
    have h2 : arr s2 c b = arr s c b := by
      show arr (if _ then _ else _) c b = _
      split
      · rw [arr_bump, h1]
      · exact h1
    have h3 : arr s3 c b = arr s c b := (arr_modCore_ne s2 c a b _ h).trans h2
    split
    · exact h3
    · rw [arr_traceRec, h3]
  · rfl

theorem arr_groupGap_ne {c a n b : Nat} (s : State) (h : b ≠ a) : arr (groupGap c a n s) c b = arr s c b := by
  unfold groupGap
  split
  · rfl
  · rw [arr_bump, arr_modCore_ne _ _ _ _ _ h, arr_endUnplanned_ne s h]

theorem arr_groupGap_fold {c n b : Nat} {l : List Nat} (h : b ∉ l) (s : State) :
    arr (l.foldl (fun st a => groupGap c a n st) s) c b = arr s c b := by
  induction l generalizing s with
  | nil => rfl
  | cons a l ih =>
    obtain ⟨hb, hl⟩ := not_or.1 (mt List.mem_cons.2 h)
    exact (ih hl _).trans (arr_groupGap_ne s hb)

theorem GapsOnly.endUnplannedAll (c : Nat) (ts : List (Nat × TileOp)) (s : State) :
    GapsOnly c s (ts.foldl (fun st y => Machine.endUnplanned c y.1 st) s) := .fold (fun v y => .endUnplanned c y.1 v) ts s

/-! ### TILE_GROUP_START (R75, R79, R84, R92) -/

/-- Group `g` with TILEs `ts` may start on core `c`: no fence, nothing gated, composed, and each of its arrays filled, at its TILE,
and not to be ramped up first. -/
structure GroupStarts (c g : Nat) (ts : List (Nat × TileOp)) (s : State) : Prop where
  next : nextGroup s c = some (g, ts)
  fence : (core s c).fence = false
  ungated : gated s c 4 = false
  composed : compMatches s c ts = true
  arrays : ∀ y ∈ ts, gated s c y.1 = false ∧ y.2.filled = true ∧ frontIs g (arr s c y.1).queue = true
  ramps : ∀ y ∈ ts, (arr s c y.1).ramp = 0 ∧ rampUp (arr s c y.1) = arr s c y.1

/-- The check of the ramps of a group's arrays. -/
def rampsChecked (c : Nat) (ts : List (Nat × TileOp)) (s : State) : State := ts.foldl (fun st x => modArr c x.1 rampUp st) s

theorem rampsChecked_spec {c : Nat} {ts : List (Nat × TileOp)} {s : State} (h : ∀ y ∈ ts, rampUp (arr s c y.1) = arr s c y.1) :
    (∀ b, arr (rampsChecked c ts s) c b = arr s c b) ∧ TilesOnly c s (rampsChecked c ts s) ∧
      ∀ x, memByte (rampsChecked c ts s) x = memByte s x := by
  obtain ⟨arrays, core, cores, rest⟩ := rampUps_spec c ts s h
  change rampsChecked c ts s = _ at rest
  have mem : ∀ x, memByte (rampsChecked c ts s) x = memByte s x := fun x => by rw [rest]; rfl
  exact ⟨arrays, ⟨by rw [show Machine.core (rampsChecked c ts s) c = _ from core], cores, by rw [rest], fun x _ => mem x⟩, mem⟩

theorem groupStart_runs {c g : Nat} {ts : List (Nat × TileOp)} {s : State} (h : GroupStarts c g ts s) :
    groupStart c s = startGroup c ts (rampsChecked c ts s) := by
  have ungated : (ts.any fun x => gated s c x.1) = false :=
    List.any_eq_false.2 fun y hy => by rw [(h.arrays y hy).1]; exact Bool.false_ne_true
  have filled : (ts.all fun x => x.2.filled && frontIs g (queueOf s c x.1)) = true :=
    List.all_eq_true.2 fun y hy => by
      obtain ⟨-, hf, hq⟩ := h.arrays y hy
      rw [hf, queueOf, hq]; rfl
  have ramps : (ts.any fun x => (arr (rampsChecked c ts s) c x.1).ramp != 0) = false :=
    List.any_eq_false.2 fun y hy => by
      rw [(rampsChecked_spec fun z hz => (h.ramps z hz).2).1, (h.ramps y hy).1]; exact Bool.false_ne_true
  unfold rampsChecked at ramps ⊢
  unfold groupStart
  rw [h.next]
  simp only [h.fence, h.ungated, h.composed, ungated, filled, ramps, Bool.or_self, Bool.not_true, Bool.false_eq_true, if_false]

/-- The unplanned gaps of a group's arrays end, and its TILEs run. -/
def groupRun (c m0 : Nat) (d : FeedDesc) (ts : List (Nat × TileOp)) (s : State) : State :=
  ts.foldl (fun st y => runTile c y.1 m0 d y.2 st) (ts.foldl (fun st y => endUnplanned c y.1 st) s)

/-- The run of vectors goes on behind the group's (R80), with what the next fill term takes of it (R83). -/
def streamOver (c m feed stream : Nat) (s : State) : State :=
  modCore c (fun C => { C with mPrime := m, prevFeed := feed, prevStream := stream }) s

/-- Under the schedule of a run, the arrays without a TILE in the group run ballast (R79). -/
def groupGaps (c : Nat) (ts : List (Nat × TileOp)) (n : Nat) (s : State) : State :=
  if !underSchedule s then s
  else ((List.range 4).filter fun a => !ts.any fun y => y.1 == a).foldl (fun st a => groupGap c a n st) s

/-- The vectors at which a group starts: those of a new run, or behind the last ones (R80). -/
def startVector (s : State) (c : Nat) (d : FeedDesc) : Nat := if d.runStart then 0 else (core s c).mPrime

/-- The end of the vectors of a TILE that starts at vector `m0` (R75, R80). -/
def endVector (m0 : Nat) (t : TileOp) : Nat := m0 + tPasses (BitVec.ofNat 128 t.w) * tM (BitVec.ofNat 128 t.w)

theorem startGroup_cons {c m0 : Nat} {d : FeedDesc} (x : Nat × TileOp) (ts : List (Nat × TileOp)) (s : State) (hd : d = readFeed s c x.2.feed)
    (hm : m0 = startVector s c d) :
    ∃ stall feed stream n mask arg, startGroup c (x :: ts) s = traceRec c 0 1 mask arg 0 (groupGaps c (x :: ts) n
      (streamOver c (endVector m0 x.2) feed stream (groupRun c m0 d (x :: ts) (fillStall c (x :: ts) stall s)))) := by
  subst hd hm
  exact ⟨_, _, _, _, _, _, rfl⟩

theorem groupGaps_spec (c : Nat) (ts : List (Nat × TileOp)) (n : Nat) (s : State) :
    GapsOnly c s (groupGaps c ts n s) ∧ ∀ y ∈ ts, arr (groupGaps c ts n s) c y.1 = arr s c y.1 := by
  unfold groupGaps
  split
  · exact ⟨.refl c s, fun _ _ => rfl⟩
  · refine ⟨.fold (fun v a => .groupGap c a n v) _ s, fun y hy => arr_groupGap_fold (fun hm => ?_) s⟩
    have none := (List.mem_filter.1 hm).2
    rw [Bool.not_eq_true', List.any_eq_false] at none
    exact none y hy (beq_self_eq_true _)

/-- What the start of a group does after its TILEs have run, from `v` to `u`. -/
structure RunFollowed (c m : Nat) (ts : List (Nat × TileOp)) (v u : State) : Prop where
  here : ∀ y ∈ ts, arr u c y.1 = arr v c y.1
  arrays : ∀ b, SameSets (arr u c b) (arr v c b)
  mPrime : (core u c).mPrime = m
  mem : ∀ x, ¬ logRing x → memByte u x = memByte v x
  thread : ∀ t, Machine.thread u c t = Machine.thread v c t

theorem streamOver_followed (c m feed stream n mask arg : Nat) (ts : List (Nat × TileOp)) (v : State) :
    RunFollowed c m ts v (traceRec c 0 1 mask arg 0 (groupGaps c ts n (streamOver c m feed stream v))) := by
  have arrays : ∀ b, arr (streamOver c m feed stream v) c b = arr v c b :=
    arr_mod c (fun C => { C with mPrime := m, prevFeed := feed, prevStream := stream }) (fun _ => rfl) v
  obtain ⟨gaps, here⟩ := groupGaps_spec c ts n (streamOver c m feed stream v)
  have traced := gaps.trans (.traceRec c c 0 1 mask arg 0 _)
  refine ⟨fun y hy => ?_, fun b => arrays b ▸ traced.same b, ?_, fun x hx => ?_, fun t => ?_⟩
  · rw [arr_traceRec, here y hy, arrays]
  · rw [traced.core, streamOver, core_modCore_self]
  · rw [traced.mem x hx, streamOver, memByte_modCore]
  · rw [traced.thread]
    exact thread_mod c (fun C => { C with mPrime := m, prevFeed := feed, prevStream := stream }) (fun _ => rfl) v c t

/-- The rings of feed `d` lie in scratch for stream format `f` (R80). -/
def FeedFits (d : FeedDesc) (f : Fmt) : Prop :=
  0 < d.words ∧ d.ring + d.words * 16 * fmtWidth f ≤ 0x100000 ∧ (isMx f = true → d.sring + d.words * 4 ≤ 0x100000)

/-- The set that the third pass of a TILE on array `a` streams against: its residual, else its main set (R75). -/
def lastSet (s : State) (c a : Nat) (t : TileOp) : StatSet :=
  if tPasses (BitVec.ofNat 128 t.w) = 3 then readStat s c a (BitVec.ofNat 128 t.w) t.texp t.real (tRaddr (BitVec.ofNat 128 t.w))
  else (arr s c a).shadow

/-- What the start of a group leaves: each of its TILEs has run, and no other array has changed but for its gap (R66, R75, R79). -/
structure GroupStarted (c m0 : Nat) (d : FeedDesc) (m : Nat) (ts : List (Nat × TileOp)) (s u : State) : Prop where
  ran : ∀ y ∈ ts, ∀ sf f, statFmt (tSfmt (BitVec.ofNat 128 y.2.w)) = some sf → streamFmt (tTfmt (BitVec.ofNat 128 y.2.w)) = some f →
    TileRan c m0 (feedElem s c f d) s sf f y.2 (arr s c y.1) (arr u c y.1) (lastSet s c y.1 y.2) (rowMap s c y.1) (colMap s c y.1)
  others : ∀ b, b ∉ ts.map (·.1) → SameSets (arr u c b) (arr s c b)
  mPrime : (core u c).mPrime = m
  mem : ∀ x, ¬ logRing x → memByte u x = memByte s x
  thread : ∀ t, Machine.thread u c t = Machine.thread s c t

theorem groupStart_spec {c g m0 : Nat} {d : FeedDesc} {x : Nat × TileOp} {ts : List (Nat × TileOp)} {s : State} (hc : c < 96)
    (h : GroupStarts c g (x :: ts) s) (hd : d = readFeed s c x.2.feed) (hm : m0 = startVector s c d) (hn : ((x :: ts).map (·.1)).Nodup)
    (fits : ∀ y ∈ x :: ts, ∀ f, streamFmt (tTfmt (BitVec.ofNat 128 y.2.w)) = some f → FeedFits d f) :
    GroupStarted c m0 d (endVector m0 x.2) (x :: ts) s (groupStart c s) := by
  obtain ⟨arrays, checked, mem⟩ := rampsChecked_spec fun y hy => (h.ramps y hy).2
  rw [groupStart_runs h]
  generalize rampsChecked c (x :: ts) s = r at arrays checked mem
  have feed : readFeed r c x.2.feed = d := by unfold readFeed scrBytes memBytes at *; simp only [mem, hd]
  have vector : startVector r c d = m0 := by unfold startVector at hm ⊢; rw [hm, checked.core]
  obtain ⟨stall, fd, st, n, mask, arg, eq⟩ := startGroup_cons x ts r feed.symm vector.symm
  rw [eq]
  have followed := streamOver_followed c (endVector m0 x.2) fd st n mask arg (x :: ts) (groupRun c m0 d (x :: ts) (fillStall c (x :: ts) stall r))
  have gaps := (GapsOnly.fillStall c (x :: ts) stall r).trans (.endUnplannedAll c (x :: ts) _)
  have same : ∀ b, SameSets _ (arr s c b) := fun b => arrays b ▸ gaps.same b
  obtain ⟨only, untouched, ran⟩ := runTiles_spec hc (x :: ts) hn _ (checked.trans (.arrOnly gaps.toArrOnly)) (fun y _ => same y.1) fits
  refine ⟨fun y hy sf f hsf hf => ?_, fun b hb => ?_, followed.mPrime, fun z hz => (followed.mem z hz).trans (only.mem z hz),
    fun t => (followed.thread t).trans (only.thread c t)⟩
  · rw [followed.here y hy]; exact ran y hy sf f hsf hf
  · exact (followed.arrays b).trans (untouched b hb ▸ same b)

/-- The accumulators of a TILE by row and column (R66, R68). -/
theorem TileRan.bankAt {c m0 : Nat} {st : Nat → Nat → Val} {s : State} {sf f : Fmt} {t : TileOp} {A B : ArrSt} {res : StatSet} {pr pc : List Nat}
    {w : InstrWord} (h : TileRan c m0 st s sf f t A B res pr pc) (hw : w = BitVec.ofNat 128 t.w) :
    (∀ m n, m < tM w → n < tN w → sget natD B.bank (m * 128 + n) =
      tileAcc A.shadow.real (statElem pr pc A.shadow) (statElem pr pc res) st (usesWindow sf f) m0 (tM w) (tPasses w) (tK w / 32) m n
        (if tFresh w then 0 else sget natD A.bank (m * 128 + n))) ∧
    ∀ i, (tM w * 128 ≤ i ∨ tN w ≤ i % 128) → sget natD B.bank i = sget natD A.bank i := by
  subst hw
  refine ⟨fun m n hm hn => ?_, fun i hi => ?_⟩
  · have := tN_le (BitVec.ofNat 128 t.w)
    have row : (m * 128 + n) / 128 = m := by omega
    have col : (m * 128 + n) % 128 = n := by omega
    have := h.bank (m * 128 + n)
    rwa [row, col, if_pos ⟨hm, hn⟩] at this
  · rw [h.bank i, if_neg (by omega)]

/-! ### TILE_COMPLETE (R67, R68, R169) -/

/-- The rows of a TILE that drains are converted and written (R67). -/
def drained (c a : Nat) (t : TileOp) (s : State) : State :=
  if tDrains (BitVec.ofNat 128 t.w) then convertOut c a (readOut s c t.out) (t.rows.map fun r => r.map dec42) t.bad t.poison s else s

theorem drained_writes (c a : Nat) (t : TileOp) (s : State) : UnitWrites c s (drained c a t s) := .ite (.convertOut ..) (.refl ..)

/-- The array that a TILE has left: another one may stream. -/
def tileLeft (rest : List ArrOp) (more : Bool) (A : ArrSt) : ArrSt := { A with queue := rest, streaming := more, skip := more && A.skip }

theorem tileComplete_runs {c a : Nat} {s : State} {t : TileOp} {rest : List ArrOp} (hq : (arr s c a).queue = .tile t :: rest)
    (ht : t.started = true) :
    ∃ more o n, tileComplete c a s = endGroup c (afterArr c a (asyncDone c t.thread (iCntEn (BitVec.ofNat 128 t.w)) (iCnt (BitVec.ofNat 128 t.w))
      (bump o n (modArr c a (tileLeft rest more) (drained c a t s))))) := by
  unfold tileComplete queueOf
  rw [hq]
  simp only [ht, Bool.not_true, Bool.false_eq_true, if_false]
  exact ⟨_, _, _, rfl⟩

/-- The core as the TILE has left its queue, before it completes. -/
theorem tileLeft_spec (c a o n : Nat) (rest : List ArrOp) (more : Bool) (t : TileOp) (s v : State)
    (hv : v = bump o n (modArr c a (tileLeft rest more) (drained c a t s))) :
    arr v c a = tileLeft rest more (arr s c a) ∧ (∀ b, b ≠ a → arr v c b = arr s c b) ∧ (∀ j, thread v c j = thread s c j) ∧
      (∀ j, kGet v c j = kGet s c j) ∧ ∀ x, ¬ logRing x → memByte v x = memByte (drained c a t s) x := by
  have writes := drained_writes c a t s
  subst hv
  refine ⟨?_, fun b hb => ?_, fun j => ?_, fun j => ?_, fun x hx => ?_⟩
  · rw [arr_bump, arr_modArr_self, writes.arr]
  · rw [arr_bump, arr_modArr, if_neg hb, writes.arr]
  · rw [thread_bump, thread_modArr, writes.thread]
  · rw [← writes.kGet, ← kGet_modArr c a (tileLeft rest more) (drained c a t s)]; unfold kGet; rw [core_bump]
  · rw [(bump_countsOnly ..).mem x hx, memByte_modArr]

/-! ### IDLE_END (R90) -/

/-- The array that an IDLE has left. -/
def idleLeft (rest : List ArrOp) (A : ArrSt) : ArrSt := { A with queue := rest, gap := .none, ballast := false, ramp := 0, frac := 0 }

/-- The IDLE's end on array `a`: over all four arrays it completes with its last one. -/
def idleDone (c a t : Nat) (w : InstrWord) (rest : List ArrOp) (ends : Bool) (s : State) : State :=
  if ends then asyncDone c t (iCntEn w) (iCnt w) (modArr c a (idleLeft rest) s) else modArr c a (idleLeft rest) s

/-- An IDLE over all four arrays still stands in the queue of another array, behind which `rest` of an array's own queue is (R90). -/
def idlesElsewhere (c : Nat) (w : InstrWord) (rest : List ArrOp) (s : State) : Bool :=
  idleAll w && (List.range 4).any fun b => decide (idlesIn rest < idlesIn (queueOf s c b))

theorem idleEnd_runs {c a : Nat} {s : State} {t x : Nat} {rest : List ArrOp} {w : InstrWord}
    (hq : (arr s c a).queue = .idle t x true :: rest) (hw : w = BitVec.ofNat 128 x) :
    idleEnd c a s = afterArr c a (idleDone c a t w rest (!idlesElsewhere c w rest (modArr c a (idleLeft rest) s)) s) := by
  subst hw
  unfold idleEnd idleDone
  rw [queueOf, hq]
  change afterArr c a (if idlesElsewhere c (BitVec.ofNat 128 x) rest (modArr c a (idleLeft rest) s) = true then _ else _) = _
  cases idlesElsewhere c (BitVec.ofNat 128 x) rest (modArr c a (idleLeft rest) s) <;> rfl

theorem idlesElsewhere_iff (c : Nat) (a : ArrayId) (w : InstrWord) (rest : List ArrOp) (s : State) :
    idlesElsewhere c w rest (modArr c a (idleLeft rest) s) = true ↔
      idleAll w = true ∧ ∃ b, b < 4 ∧ b ≠ a.val ∧ idlesIn rest < idlesIn (arr s c b).queue := by
  have queue : ∀ b, queueOf (modArr c a (idleLeft rest) s) c b = if b = a.val then rest else (arr s c b).queue := fun b => by
    unfold queueOf; rw [arr_modArr]; split <;> rfl
  unfold idlesElsewhere
  rw [Bool.and_eq_true, List.any_eq_true]
  refine and_congr_right fun _ => exists_congr fun b => ?_
  rw [List.mem_range, decide_eq_true_eq, queue b]
  by_cases hb : b = a.val <;> simp [hb]

/-- What the IDLE's end leaves before the array's next entry takes the front. -/
theorem idleDone_spec (c a t : Nat) (w : InstrWord) (rest : List ArrOp) (ends : Bool) (s v : State) (hv : v = idleDone c a t w rest ends s) :
    arr v c a = idleLeft rest (arr s c a) ∧ (∀ b, b ≠ a → arr v c b = arr s c b) ∧
      (∀ j, (thread v c j).outstanding = if ends = true ∧ j = t then (thread s c j).outstanding - 1 else (thread s c j).outstanding) ∧
      (∀ j, kGet v c j = if ends = true ∧ iCntEn w = true ∧ j = iCnt w then (kGet s c j + 1) % 2 ^ 32 else kGet s c j) ∧
      underSchedule v = underSchedule s ∧ ∀ x, ¬ logRing x → memByte v x = memByte s x := by
  have here : arr (modArr c a (idleLeft rest) s) c a = idleLeft rest (arr s c a) := arr_modArr_self ..
  have others : ∀ b, b ≠ a → arr (modArr c a (idleLeft rest) s) c b = arr s c b := fun b hb => arr_modCore_ne s c a b _ hb
  subst hv
  cases ends with
  | false =>
    simp only [idleDone, Bool.false_eq_true, if_false, false_and]
    exact ⟨here, others, fun j => by rw [thread_modArr], fun j => kGet_modArr .., rfl, fun x _ => memByte_modArr ..⟩
  | true =>
    have done := asyncDone_completes c t (iCntEn w) (iCnt w) (modArr c a (idleLeft rest) s)
    simp only [idleDone, if_true, true_and]
    refine ⟨(arr_completes done a).trans here, fun b hb => (arr_completes done b).trans (others b hb), fun j => ?_, fun j => ?_, ?_,
      fun x hx => (done.mem x hx).trans (memByte_modArr ..)⟩
    · rw [done.outstanding, thread_modArr]
    · rw [done.counters, kGet_modArr]
    · rw [done.rest]; rfl

/-! ### RAMP_STEP and UNPLANNED_GAP_TIMEOUT (R91, R92) -/

/-- A change of one array that is counted changes the core alone. -/
theorem CoreOnly.countedArr (c a o n : Nat) (f : ArrSt → ArrSt) (s : State) :
    CoreOnly c s (Machine.bump o n (modArr c a f s)) ∧ arr (Machine.bump o n (modArr c a f s)) c a = f (arr s c a) :=
  ⟨(CoreOnly.modCore ..).trans (.bump ..), by rw [arr_bump, arr_modArr_self]⟩

/-- The toggle fraction one step down, and one step up (R91; log entry 109). -/
def stepDown (A : ArrSt) : ArrSt := { A with frac := A.frac - 1, ramp := if A.frac ≤ 1 then 0 else -1 }
def stepUp (A : ArrSt) : ArrSt := { A with frac := A.frac + 1, ramp := if A.density ≤ A.frac + 1 then 0 else 1 }
/-- The ballast of an unplanned gap has timed out (R92). -/
def timedOut (A : ArrSt) : ArrSt := { A with ballast := false, ramp := if A.frac = 0 then 0 else -1 }

theorem rampStep_down {c a : Nat} {s : State} (h : (arr s c a).ramp = -1) :
    rampStep c a s = bump (cntCore c (4 + a)) (rampStepLen s c a) (modArr c a stepDown s) := if_pos h

theorem rampStep_up {c a : Nat} {s : State} (h : (arr s c a).ramp = 1 ∨ ((arr s c a).ramp = 0 ∧ (arr s c a).gap = .planned ∧
    (arr s c a).ballast = false ∧ (arr s c a).frac < (arr s c a).density)) :
    rampStep c a s = bump (cntCore c (4 + a)) (rampStepLen s c a) (modArr c a stepUp s) := by
  have up : (arr s c a).ramp ≠ -1 := by rcases h with h | ⟨h, -⟩ <;> rw [h] <;> decide
  refine (if_neg up).trans (if_pos ?_)
  rcases h with h | ⟨-, h1, h2, h3⟩
  · simp [h]
  · simp [h1, h2, h3]

theorem gapTimeout_runs {c a : Nat} {s : State} (h1 : (arr s c a).gap = .unplanned) (h2 : (arr s c a).ballast = true) :
    gapTimeout c a s = bump (cntCore c (4 + a)) 2600 (modArr c a timedOut s) := if_pos (by simp [h1, h2])

/-- Settles O22: the start of a group is the run of its TILEs between changes of gaps; a TILE or an IDLE leaves its queue and completes;
a step of a ramp is one change of its array. -/
theorem arrayStreaming : Obligations.ArrayStreaming := by
  refine ⟨⟨fun c s g m0 x ts d hnext hd hm hfence hg hcomp hn hts => ?start, fun c a s t rest w hq ht hw => ?tile⟩,
    fun c a s t x rest w ends hq hw he => ?idle, fun c a s => ⟨fun h => ?down, fun h => ?up, fun h1 h2 => ?timeout⟩⟩
  case start =>
    have starts : GroupStarts c g (x :: ts) s :=
      { next := hnext, fence := hfence, ungated := hg, composed := hcomp
        arrays := fun y hy => by obtain ⟨h1, h2, h3, -⟩ := hts y hy; exact ⟨h1, h2, h3⟩
        ramps := fun y hy => by obtain ⟨-, -, -, h4, h5, -⟩ := hts y hy; exact ⟨h4, rampUp_ready h4 h5⟩ }
    have started := groupStart_spec c.isLt starts hd hm hn fun y hy => by obtain ⟨-, -, -, -, -, h⟩ := hts y hy; exact h
    refine ⟨_, exec_tileGroupStart .., fun a t w sf f A B res hat hw hsf hf hA hB hres => ?_, fun b hb => (started.others b hb).queued,
      started.mPrime, started.mem, started.thread⟩
    subst hw hA hB
    have ran := started.ran (a, t) hat sf f hsf hf
    rw [show lastSet s c a t = res from hres.symm] at ran
    obtain ⟨live, shadow, full⟩ := ran.sets
    obtain ⟨streaming, gap, ballast, -⟩ := ran.now
    exact ⟨live, shadow, full, streaming, gap, ballast, ran.bankAt rfl⟩
  case tile =>
    obtain ⟨more, o, n, runs⟩ := tileComplete_runs hq ht
    obtain ⟨here, others, threads, counts, mem⟩ := tileLeft_spec c a o n rest more t s _ rfl
    obtain ⟨queue, queues, arrays, outstanding, counters, regs, kept⟩ := leave_queue c a t.thread (iCntEn (BitVec.ofNat 128 t.w))
      (iCnt (BitVec.ofNat 128 t.w)) (bump o n (modArr c a (tileLeft rest more) (drained c a t s))) _ (.endGroup ..)
    rw [← runs] at queue queues arrays outstanding counters regs kept
    subst hw
    rw [exec_tileComplete]
    refine ⟨_, rfl, by rw [queue, here]; rfl, by rw [arrays, here]; rfl, fun b hb => ?_, fun j => by rw [outstanding, threads],
      fun j => by rw [counters, counts], fun v n => ?_, fun h y hy => ?_, fun h y hy => ?_⟩
    · exact queued_of_same (arrays b) (queues b hb) (others b hb)
    · obtain ⟨e1, e2⟩ := regs v n
      rw [e1, e2]; unfold sReg aReg; rw [threads]; exact ⟨rfl, rfl⟩
    · rw [kept y hy, mem y hy, drained, if_pos h]
    · rw [kept y hy, mem y hy, drained, h]; rfl
  case idle =>
    have last : (!idlesElsewhere c w rest (modArr c a (idleLeft rest) s)) = ends := by
      rw [← idlesElsewhere_iff, ← Bool.not_eq_true] at he
      cases ends with
      | false => simpa using he
      | true => simpa using he
    have runs := idleEnd_runs hq hw
    rw [last] at runs
    obtain ⟨here, others, outstanding, counts, sched, mem⟩ := idleDone_spec c a t w rest ends s _ rfl
    obtain ⟨only, queue, queues⟩ := afterArr_spec c a (idleDone c a t w rest ends s)
    have idle := afterArr_idle c a (s := idleDone c a t w rest ends s)
    rw [← runs] at only queue queues idle
    rw [exec_idleEnd]
    refine ⟨_, rfl, by rw [queue, here]; rfl, by rw [only.arr, here]; rfl, fun h => ?_, fun b hb => ?_, fun j => by rw [only.thread, outstanding],
      fun j => by rw [only.kGet, counts], fun y hy => (only.mem y hy).trans (mem y hy)⟩
    · rw [idle (sched.trans h), here]; exact ⟨rfl, rfl, rfl⟩
    · exact queued_of_same (only.arr b) (queues b hb) (others b hb)
  case down =>
    obtain ⟨only, here⟩ := CoreOnly.countedArr c a (cntCore c (4 + a)) (rampStepLen s c a) stepDown s
    rw [← rampStep_down h] at only here
    exact ⟨_, exec_rampStep .., only, by rw [here]; rfl, by rw [here]; rfl⟩
  case up =>
    obtain ⟨only, here⟩ := CoreOnly.countedArr c a (cntCore c (4 + a)) (rampStepLen s c a) stepUp s
    rw [← rampStep_up h] at only here
    exact ⟨_, exec_rampStep .., only, by rw [here]; rfl, by rw [here]; rfl⟩
  case timeout =>
    obtain ⟨only, here⟩ := CoreOnly.countedArr c a (cntCore c (4 + a)) 2600 timedOut s
    rw [← gapTimeout_runs h1 h2] at only here
    exact ⟨_, exec_unplannedGapTimeout .., only, by rw [here]; rfl, by rw [here]; exact h1, by rw [here]; rfl⟩

end Sys2Proof.Machine
end

section
/-! PROOFS. OVFX: the flag handed in, the wait, and the decision over a tag's devices (R141, R142, R144, R167, R172, R284, R285). -/

namespace Sys2Proof.Machine

open Sys2Proof

theorem exec_ovfx (c : CoreId) (t : ThreadId) (w : InstrWord) (s : State) : exec (.ovfx c t w) s = execOvfx c t w s := rfl

/-! ### The flag handed in (R141, R172) -/

/-- The state in which thread `t` of core `c` waits for the OR of tag `inst`: the core's flag stands in the control reduction and
its status is cleared for the tag's next results. -/
def ovfxEntered (c t inst r : Nat) (s : State) : State :=
  ctlMod (ctlInstance inst) (fun k => { k with acc := k.acc ||| b2n (ovfFlag (ovfOf s c inst)) })
    (modOvf c inst (fun _ => { again := (ovfOf s c inst).again })
      (modThread c t (fun T => { T with state := .waiting, wait := .ovfx inst r }) s))

/-- The thread enters, and the last expected one of the tag sends the device's flag. -/
theorem ovfxBody_eq (c t inst r : Nat) (s : State) : ovfxBody c t inst r s =
    if (ovfxWaiters (ovfxEntered c t inst r s) inst).length < ovfxExpected s inst then ovfxEntered c t inst r s
    else ctlOwn (instanceResult inst) (ctlInstance inst) 0 (ovfxEntered c t inst r s) := rfl

theorem thread_ovfxEntered (c t inst r : Nat) (s : State) (d v : Nat) : thread (ovfxEntered c t inst r s) d v =
    if d = c ∧ v = t then { thread s c t with state := .waiting, wait := .ovfx inst r } else thread s d v := by
  rw [ovfxEntered, thread_ctlMod, thread_modOvf, thread_modThread_all]

theorem thread_ovfxEntered_self (c t inst r : Nat) (s : State) :
    thread (ovfxEntered c t inst r s) c t = { thread s c t with state := .waiting, wait := .ovfx inst r } := by
  rw [thread_ovfxEntered, if_pos ⟨rfl, rfl⟩]

theorem thread_ovfxEntered_ne {c t d v : Nat} (inst r : Nat) (s : State) (h : d = c → v ≠ t) :
    thread (ovfxEntered c t inst r s) d v = thread s d v := by
  rw [thread_ovfxEntered, if_neg fun e => h e.1 e.2]

theorem ovfFlag_ovfxEntered (c t inst r : Nat) (s : State) : ovfFlag (ovfOf (ovfxEntered c t inst r s) c inst) = false := by
  rw [ovfxEntered, ovfOf_ctlMod, ovfOf_modOvf_self]; rfl

theorem acc_ovfxEntered (c t inst r : Nat) (s : State) : (ctlGet (ovfxEntered c t inst r s) (ctlInstance inst)).acc =
    (ctlGet s (ctlInstance inst)).acc ||| b2n (ovfFlag (ovfOf s c inst)) := by
  rw [ovfxEntered, ctlGet_ctlMod_self, ctlGet_modOvf, ctlGet_modThread]

theorem ovfxExpected_congr {s u : State} (h : u.plan = s.plan) (inst : Nat) : ovfxExpected u inst = ovfxExpected s inst := by
  unfold ovfxExpected; rw [h]

/-- A register reads the thread's register lists alone. -/
theorem WritesNone.of_lists {c t : Nat} {s u v : State} (h : WritesNone c t s u) (es : (thread v c t).s = (thread u c t).s)
    (ea : (thread v c t).a = (thread u c t).a) : WritesNone c t s v := by
  refine ⟨fun m => ?_, fun m => ?_⟩
  · rw [← h.1]; simp only [sReg, es]
  · rw [← h.2]; simp only [aReg, ea]

/-- Beside one thread, every thread of every core is as it was. -/
theorem ThreadOnly.thread_ne {c t d v : Nat} {s u : State} (h : ThreadOnly c t s u) (hv : d = c → v ≠ t) :
    thread u d v = thread s d v := by
  by_cases hd : d = c
  · subst hd; exact h.threads v (hv rfl)
  · unfold thread; rw [h.cores d hd]

/-- A ready OVFX enters once its thread has gone on. -/
theorem execOvfx_ready {c : CoreId} {t : ThreadId} {w : InstrWord} {s : State} (hr : Ready s c t w)
    (hw : Codes w 6 4 [(32, 6), (64, 32)]) :
    execOvfx c t w s = .next (ovfxBody c t (yV s c t w % 2 ^ 16) (ySreg w) (advance c t s)) := by
  rw [← yV_advance]
  exact congrArg Host.Outcome.next (issueSync_runs hr hw (by decide) (by simp))

/-! ### The decision (R142, R144) -/

/-- The rung bytes of a layer's three roles, `up` of them one higher (R144). -/
def repeatRungs (s : State) (layer : Nat) (y : LayerDesc) (up : Bool) : Nat × Nat × Nat :=
  (repeatRung s layer y up 0, repeatRung s layer y up 1, repeatRung s layer y up 2)

/-- The result releases the tag's waiters: 0 without overflow and where the layer may not repeat, and 1 with the next rungs where
no waiter comes from a repeat and the layer may. -/
theorem instanceResult_releases (inst acc : Nat) (s : State) : ∃ res rungs v, v.cores = s.cores ∧
    instanceResult inst acc s = releaseOvfx inst res rungs v ∧ (acc % 2 = 0 → res = 0) ∧
    ∀ y : LayerDesc, s.pkg.bind (fun p => p.layers[(instanceOf s inst).1]?) = some y → acc % 2 = 1 →
      (mayRepeat s (instanceOf s inst).1 y = false → res = 0) ∧
      (mayRepeat s (instanceOf s inst).1 y = true → (∀ x ∈ ovfxWaiters s inst, (ovfOf s x.1 inst).again = false) →
        res = 1 ∧ rungs = repeatRungs s (instanceOf s inst).1 y true) := by
  cases hy : s.pkg.bind fun p => p.layers[(instanceOf s inst).1]? with
  | none => exact ⟨0, (0, 0, 0), s, rfl, by simp only [instanceResult, hy], fun _ => rfl, by simp⟩
  | some y =>
    simp only [instanceResult, hy, Option.some.injEq, forall_eq']
    by_cases ha : ((ovfxWaiters s inst).any fun x => (ovfOf s x.1 inst).again) = true
    · rw [if_pos ha]
      refine ⟨0, _, _, ?_, rfl, fun _ => rfl, fun _ => ⟨fun _ => rfl, fun _ hn => ?_⟩⟩
      · split <;> simp [cores_flagLayer, cores_logRepeat]
      · obtain ⟨x, hx, hax⟩ := List.any_eq_true.1 ha
        simp [hn x hx] at hax
    rw [if_neg ha]
    by_cases h0 : acc % 2 = 0
    · rw [if_pos h0]
      exact ⟨0, _, s, rfl, rfl, fun _ => rfl, by omega⟩
    rw [if_neg h0]
    by_cases hm : mayRepeat s (instanceOf s inst).1 y = true
    · rw [if_pos hm]
      exact ⟨1, _, _, by simp [cores_noteOver], rfl, fun h => absurd h h0,
        fun _ => ⟨fun h => absurd hm (by simp [h]), fun _ _ => ⟨rfl, rfl⟩⟩⟩
    · rw [if_neg hm]
      exact ⟨0, _, _, by simp [cores_flagLayer, cores_noteOver, cores_logRepeat], rfl, fun _ => rfl,
        fun _ => ⟨fun _ => rfl, fun h => absurd h hm⟩⟩

/-- Settles O19: an issued OVFX is `ovfxEntered`, which the last expected thread follows by `ctlOwn`; a result is one release of all
waiters with what `instanceResult` decides. -/
theorem overflowExchange : Obligations.OverflowExchange := by
  refine ⟨fun c t w s hr hw => ?enter, fun inst acc s c t r hc ht hwait => ?result⟩
  case enter =>
    set inst := yV s c t w % 2 ^ 16
    have runs : exec (.ovfx c t w) s = .next (ovfxBody c t inst (ySreg w) (advance c t s)) :=
      (exec_ovfx c t w s).trans (execOvfx_ready hr hw)
    rw [ovfxBody_eq, ovfxExpected_congr (plan_advance ..)] at runs
    have self := thread_ovfxEntered_self c t inst (ySreg w) (advance c t s)
    have others : ∀ d v : Nat, (d = c → v ≠ t) → thread (ovfxEntered c t inst (ySreg w) (advance c t s)) d v = thread s d v :=
      fun d v h => (thread_ovfxEntered_ne _ _ _ h).trans ((ThreadOnly.advance c t s).thread_ne h)
    refine ⟨ovfxEntered c t inst (ySreg w) (advance c t s), ?_, (WritesNone.advance c t s).of_lists (by rw [self]) (by rw [self]),
      by rw [self], by rw [self], fun v hv => others c v fun _ => hv, ovfFlag_ovfxEntered .., ?_, ovfxWaiters_one inst others,
      fun hl => ?_, fun hl => ?_⟩
    · unfold WentOn; rw [self]; exact pc_advance s c t
    · rw [acc_ovfxEntered, ctlGet_advance, ovfOf_advance]; rfl
    · rw [runs, if_pos hl]
    · rw [runs, if_neg (by omega)]
  case result =>
    obtain ⟨res, rungs, v, hv, runs, calm, overflows⟩ := instanceResult_releases inst acc s
    obtain ⟨state, wait, zero, one⟩ := release_spec hv inst res rungs hc ht hwait
    intro layer u
    rw [← runs] at state wait zero one
    refine ⟨state, wait, fun h => zero (calm h), fun y hy h1 => ⟨fun h => zero ((overflows y hy h1).1 h), fun hm hn h3 => ?_⟩⟩
    obtain ⟨hres, rfl⟩ := (overflows y hy h1).2 hm hn
    exact one hres h3

end Sys2Proof.Machine
end

section
/-! PROOFS. OPTIMISER_UPDATE: one block of an update engine (R129, R196, R197, R199, R309). -/

namespace Sys2Proof.Machine

open Sys2Proof

theorem exec_optimiserUpdate (i b : Nat) (s : State) : exec (.optimiserUpdate i b) s = .next (optimiserUpdate i b s) := rfl

/-! ### Which block an engine takes (R196) -/

/-- Outside the update phase, in a skipped step, and for a block that is not its engine's next one, nothing happens. -/
theorem optimiserUpdate_idle {i b : Nat} {s : State} (h : ∀ pl, s.plan = some pl → s.run.phase ≠ .update ∨ s.run.skipped = true ∨
    engineNext (b % 16) pl.pieces 0 (sget natD s.run.upd (b % 16)) ≠ some (i, b)) : optimiserUpdate i b s = s := by
  unfold optimiserUpdate
  cases hp : s.plan with
  | none => rfl
  | some pl =>
    rcases h pl hp with hphase | hskip | hnext
    · simp [hphase]
    · simp [hskip]
    · simp [hnext]

/-- The next block of an engine is updated. -/
theorem optimiserUpdate_next {i b : Nat} {s : State} {pl : Plan} {p : Piece} {e : OptEntry} {f : Fmt} (hpl : s.plan = some pl)
    (hphase : s.run.phase = .update) (hskip : s.run.skipped = false)
    (hnext : engineNext (b % 16) pl.pieces 0 (sget natD s.run.upd (b % 16)) = some (i, b)) (hp : pl.pieces[i]? = some p)
    (he : optEntry s p.opt = some e) (hf : fmtOfCode p.fmt = some f) : optimiserUpdate i b s = updateBlock b p e f s := by
  simp [optimiserUpdate, hpl, hphase, hskip, hnext, hp, he, hf]

/-! ### What the block leaves (R129, R197, R199) -/

/-- Counting commutes with a change of the run's state that reads nothing of what is counted. -/
theorem CountsOnly.setRun {s t : State} (h : CountsOnly s t) (r : RunSt) : CountsOnly { s with run := r } { t with run := r } :=
  ⟨by rw [h.rest], h.host, fun a ha => (memByte_congr a rfl rfl rfl rfl).trans ((h.mem a ha).trans (memByte_congr a rfl rfl rfl rfl))⟩

/-- The run's state after a block: its moments staged for the commit, its norms added, its engine one block on. -/
def updatedRun (b : Nat) (p : Piece) (e : OptEntry) (f : Fmt) (s : State) : RunSt :=
  { s.run with
    moments := s.run.moments ++ momentWrites p e f b s, norms := blockNorms p e f b s, updEntry := sset natD s.run.updEntry (b % 16) p.opt
    nonfinite := s.run.nonfinite || decide (blockBad p e f b s ≠ 0), upd := smod natD s.run.upd (b % 16) (· + 1) }

/-- A block is the write of its weights, the change of its statistics and of the run's state, and what counting brings. -/
theorem updateBlock_counts (b : Nat) (p : Piece) (e : OptEntry) (f : Fmt) (s : State) :
    CountsOnly { s with
      mem := (memWrite (p.other + 64 * b) (weightsOut p e f b s).1 s).mem
      run := updatedRun b p e f s, collectors := (blockStats p e f b s s).collectors } (updateBlock b p e f s) := by
  have stats : blockStats p e f b s (memWrite (p.other + 64 * b) (weightsOut p e f b s).1 s) =
      { memWrite (p.other + 64 * b) (weightsOut p e f b s).1 s with collectors := (blockStats p e f b s s).collectors } :=
    (blockStats_eq ..).trans (by rw [memWrite, blockStats_mem])
  have counts := nonfiniteBlock_spec p (blockBad p e f b s) (blockStats p e f b s (memWrite (p.other + 64 * b) (weightsOut p e f b s).1 s))
  have run := congrArg State.run counts.rest
  have block := counts.setRun (updatedRun b p e f s)
  unfold updateBlock
  dsimp only
  rw [run]
  rw [stats] at block ⊢
  exact block

/-- Settles O55: any block but the next one is idle; the next one is `updateBlock`, whose parts `updateBlock_counts` names. -/
theorem optimiserUpdates : Obligations.OptimiserUpdates := by
  refine ⟨fun i b s h => ?idle, fun i b s pl p e f hpl hphase hskip hnext hp he hf => ?next⟩
  case idle => rw [exec_optimiserUpdate, optimiserUpdate_idle h]
  case next =>
    have counts := updateBlock_counts b p e f s
    have kept : ∀ x, ¬ logRing x → memByte (updateBlock b p e f s) x =
        memByte (memWrite (p.other + 64 * b) (weightsOut p e f b s).1 s) x :=
      fun x hx => (counts.mem x hx).trans (memByte_congr x rfl rfl rfl rfl)
    refine ⟨updateBlock b p e f s, ?_, ?_, by rw [counts.rest], fun plain => ?_,
      fun x hx hout => (kept x hx).trans (memByte_memWrite_ne _ _ _ hout), ?_⟩
    · rw [exec_optimiserUpdate, optimiserUpdate_next hpl hphase hskip hnext hp he hf]
    · rw [counts.rest]; rfl
    · exact (memBytes_congr fun j hj => kept _ (plain j hj).2).trans (memBytes_memWrite _ _ _ plain)
    · rw [counts.rest]

end Sys2Proof.Machine
end

section
/-! PROOFS. The functions of ALU and the conditions of BR as 64-bit operations (R168). -/

namespace Sys2Proof.Machine

open Sys2Proof

/-- The two's complement number of a vector's signed value is the vector. -/
theorem toTwos_toInt (x : BitVec 64) : toTwos 64 x.toInt = x.toNat := by
  rw [toTwos, ← BitVec.toNat_ofInt, BitVec.ofInt_toInt]

/-! ### FUNC -/

section
variable (x y : BitVec 64)

theorem aluFn_add : aluFn 0 x.toNat y.toNat = (x + y).toNat := (BitVec.toNat_add x y).symm
theorem aluFn_sub : aluFn 1 x.toNat y.toNat = (x - y).toNat := by
  rw [aluFn, BitVec.toNat_sub, Nat.mod_eq_of_lt y.isLt, Nat.add_comm]
theorem aluFn_and : aluFn 2 x.toNat y.toNat = (x &&& y).toNat := (BitVec.toNat_and x y).symm
theorem aluFn_or : aluFn 3 x.toNat y.toNat = (x ||| y).toNat := (BitVec.toNat_or x y).symm
theorem aluFn_xor : aluFn 4 x.toNat y.toNat = (x ^^^ y).toNat := (BitVec.toNat_xor x y).symm
theorem aluFn_shiftLeft : aluFn 5 x.toNat y.toNat = (x <<< (y.toNat % 64)).toNat := by
  rw [aluFn, BitVec.toNat_shiftLeft, Nat.shiftLeft_eq]
theorem aluFn_shiftRight : aluFn 6 x.toNat y.toNat = (x >>> (y.toNat % 64)).toNat := by
  rw [aluFn, BitVec.toNat_ushiftRight, Nat.shiftRight_eq_div_pow]
/-- An arithmetic shift is a division of the signed value that rounds down. -/
theorem aluFn_sshiftRight : aluFn 7 x.toNat y.toNat = (x.sshiftRight (y.toNat % 64)).toNat := by
  rw [aluFn, sInt64, ← Int.shiftRight_eq_div_pow, ← BitVec.toInt_sshiftRight, toTwos_toInt]
theorem aluFn_mul : aluFn 8 x.toNat y.toNat = (x * y).toNat := (BitVec.toNat_mul x y).symm
theorem aluFn_min : aluFn 9 x.toNat y.toNat = (if x.sle y then x else y).toNat := by
  simp only [aluFn, sInt64, BitVec.sle_eq_decide, decide_eq_true_eq, apply_ite BitVec.toNat]
theorem aluFn_max : aluFn 10 x.toNat y.toNat = (if x.sle y then y else x).toNat := by
  simp only [aluFn, sInt64, BitVec.sle_eq_decide, decide_eq_true_eq, apply_ite BitVec.toNat]
theorem aluFn_slt : aluFn 11 x.toNat y.toNat = if x.slt y then 1 else 0 := by
  rw [aluFn, sInt64, sInt64, BitVec.slt_eq_decide, b2n]
theorem aluFn_ult : aluFn 12 x.toNat y.toNat = if x.ult y then 1 else 0 := by rw [BitVec.ult_eq_decide]; rfl

/-! ### COND -/

theorem condMet_eq : condMet 0 x.toNat y.toNat = (x == y) := by
  rw [condMet, Bool.eq_iff_iff, beq_iff_eq, beq_iff_eq, BitVec.toNat_inj]
theorem condMet_ne : condMet 1 x.toNat y.toNat = (x != y) := congrArg (!·) (condMet_eq x y)
theorem condMet_slt : condMet 2 x.toNat y.toNat = x.slt y := by rw [condMet, sInt64, sInt64, BitVec.slt_eq_decide]
theorem condMet_sge : condMet 3 x.toNat y.toNat = y.sle x := by rw [condMet, sInt64, sInt64, BitVec.sle_eq_decide]
theorem condMet_ult : condMet 4 x.toNat y.toNat = x.ult y := (BitVec.ult_eq_decide ..).symm
theorem condMet_uge : condMet 5 x.toNat y.toNat = y.ule x := (BitVec.ule_eq_decide ..).symm

end

/-- Settles O8: one equation for each code. -/
theorem functionCodes : Obligations.FunctionCodes :=
  ⟨fun x y => ⟨aluFn_add x y, aluFn_sub x y, aluFn_and x y, aluFn_or x y, aluFn_xor x y, aluFn_shiftLeft x y, aluFn_shiftRight x y,
    aluFn_sshiftRight x y, aluFn_mul x y, aluFn_min x y, aluFn_max x y, aluFn_slt x y, aluFn_ult x y⟩,
   fun x y => ⟨condMet_eq x y, condMet_ne x y, condMet_slt x y, condMet_sge x y, condMet_ult x y, condMet_uge x y⟩⟩

end Sys2Proof.Machine
end

section
/-! PROOFS. CTL instructions: ALU, ALUI and ADDA; NOP, BR, JMP and HALT (R157, R159, R160, R161, R168, R175). -/

namespace Sys2Proof.Machine

open Sys2Proof

/-! ### Rows -/

section
variable (c : CoreId) (t : ThreadId) (w : InstrWord) (s : State)

theorem exec_nop : exec (.nop c t w) s = execNop c t w s := rfl
theorem exec_alu : exec (.alu c t w) s = execAlu c t w s := rfl
theorem exec_alui : exec (.alui c t w) s = execAlui c t w s := rfl
theorem exec_br : exec (.br c t w) s = execBr c t w s := rfl
theorem exec_jmp : exec (.jmp c t w) s = execJmp c t w s := rfl
theorem exec_halt : exec (.halt c t w) s = execHalt c t w s := rfl
theorem exec_adda : exec (.adda c t w) s = execAdda c t w s := rfl

end

/-! ### One destination register -/

/-- An issue that then writes one s-register. -/
theorem setS_advance_spec (c t n v : Nat) (s : State) :
    Issued c t s (setS c t n v (advance c t s)) ∧ WritesS c t n v s (setS c t n v (advance c t s)) :=
  ⟨(Issued.advance c t s).setS n v, WritesS.setS c t n v s _ (WritesNone.advance c t s)⟩

/-- An issue that then writes one a-register. -/
theorem setA_advance_spec (c t n v : Nat) (s : State) :
    Issued c t s (setA c t n v (advance c t s)) ∧ WritesA c t n v s (setA c t n v (advance c t s)) :=
  ⟨(Issued.advance c t s).setA n v, WritesA.setA c t n v s _ (WritesNone.advance c t s)⟩

/-- An a-register takes 32 bits. -/
theorem setA_mod (c t n v : Nat) (s : State) : setA c t n (v % 2 ^ 32) s = setA c t n v s := by
  unfold setA; rw [Nat.mod_mod]

section
variable {c : CoreId} {t : ThreadId} {w : InstrWord} {s : State}

theorem execAlu_ready (hr : Ready s c t w) (hw : Codes w 7 1 [(24, 19)]) (hf : cFunc w ≤ 12) : execAlu c t w s =
    .next (setS c t (cD w) (aluFn (cFunc w) (sReg s c t (cS1 w)) (sReg s c t (cS2 w))) (advance c t s)) := by
  unfold execAlu
  rw [issueCtl_runs hr hw (by decide) (decide_eq_false (Nat.not_lt.2 hf)), sReg_advance, sReg_advance]

theorem execAlui_ready (hr : Ready s c t w) (hw : Codes w 7 2 [(24, 10), (39, 4), (64, 32)]) (hf : cFunc w ≤ 12) : execAlui c t w s =
    .next (setS c t (cD w) (aluFn (cFunc w) (sReg s c t (cS1 w)) (cImm w)) (advance c t s)) := by
  unfold execAlui
  rw [issueCtl_runs hr hw (by decide) (decide_eq_false (Nat.not_lt.2 hf)), sReg_advance]

theorem execAdda_ready (hr : Ready s c t w) (hw : Codes w 7 6 [(24, 4), (29, 4), (64, 32)]) : execAdda c t w s =
    .next (setA c t (iF w 24 4) (aReg s c t (iF w 29 4) + iF w 64 32) (advance c t s)) := by
  unfold execAdda
  rw [issueCtl_runs hr hw (by decide) rfl, aReg_advance, setA_mod]

/-! ### Control flow -/

/-- A change of the PC of a thread that has issued. -/
theorem setPc_advance_spec (c t p : Nat) (s : State) :
    WritesNone c t s (setPc c t p (advance c t s)) ∧ ThreadOnly c t s (setPc c t p (advance c t s)) ∧
      (thread (setPc c t p (advance c t s)) c t).state = (thread s c t).state ∧ (thread (setPc c t p (advance c t s)) c t).pc = p := by
  refine ⟨(WritesNone.advance c t s).setPc p, (ThreadOnly.advance c t s).trans (ThreadOnly.modThread ..), ?_, ?_⟩
  · rw [setPc, thread_modThread_self]; exact state_advance s c t
  · rw [setPc, thread_modThread_self]

theorem execBr_ready (hr : Ready s c t w) (hw : Codes w 7 3 [(29, 10), (43, 4), (64, 32)]) (hc : cCond w ≤ 5) : execBr c t w s =
    .next (if condMet (cCond w) (sReg s c t (cS1 w)) (sReg s c t (cS2 w)) then setPc c t (iF w 64 32 % 2 ^ 16) (advance c t s)
      else advance c t s) := by
  unfold execBr
  rw [issueCtl_runs hr hw (by decide) (decide_eq_false (Nat.not_lt.2 hc)), sReg_advance, sReg_advance]
  rfl

/-- BR: IMM where the condition holds, on by one elsewhere (R168). -/
theorem br_spec (hr : Ready s c t w) (hw : Codes w 7 3 [(29, 10), (43, 4), (64, 32)]) (hc : cCond w ≤ 5) :
    ∃ u, exec (.br c t w) s = .next u ∧ WritesNone c t s u ∧ ThreadOnly c t s u ∧ (thread u c t).state = (thread s c t).state ∧
      (thread u c t).pc = if condMet (cCond w) (sReg s c t (cS1 w)) (sReg s c t (cS2 w)) then iF w 64 32 % 2 ^ 16
        else ((thread s c t).pc + 1) % 2 ^ 16 := by
  refine ⟨_, (exec_br c t w s).trans (execBr_ready hr hw hc), ?_⟩
  by_cases met : condMet (cCond w) (sReg s c t (cS1 w)) (sReg s c t (cS2 w)) = true
  · rw [if_pos met, if_pos met]; exact setPc_advance_spec ..
  · rw [if_neg met, if_neg met]
    exact ⟨WritesNone.advance c t s, ThreadOnly.advance c t s, state_advance s c t, pc_advance s c t⟩

theorem execHalt_ready (hr : Ready s c t w) (hw : Codes w 7 5 []) : execHalt c t w s =
    .next (overrun c t (modThread c t (fun T => { T with state := .halted }) (advance c t s))) := by
  unfold execHalt
  rw [issueCtl_runs hr hw (by decide) rfl]

/-- The end of a measured span leaves every thread's state, its program and its registers. -/
theorem thread_overrun_keeps (c t : Nat) (s : State) (v : Nat) :
    (thread (overrun c t s) c v).state = (thread s c v).state ∧ (∀ m, sReg (overrun c t s) c v m = sReg s c v m) ∧
      ∀ m, aReg (overrun c t s) c v m = aReg s c v m := by
  obtain ⟨m, e⟩ := thread_overrun c t s v
  simp only [sReg, aReg, e, implies_true, and_self]

/-- HALT: its own thread halts; a custom program's measured span may end (R168, R175). -/
theorem halt_spec (hr : Ready s c t w) (hw : Codes w 7 5 []) :
    ∃ u, exec (.halt c t w) s = .next u ∧ WritesNone c t s u ∧ (thread u c t).state = .halted ∧
      (∀ v, v ≠ t.val → (thread u c v).state = (thread s c v).state) ∧ ((thread s c t).prog = none → ThreadOnly c t s u) := by
  refine ⟨_, (exec_halt c t w s).trans (execHalt_ready hr hw), ?_⟩
  have only : ThreadOnly c t s (modThread c t (fun T => { T with state := .halted }) (advance c t s)) :=
    (ThreadOnly.advance c t s).trans (ThreadOnly.modThread ..)
  have own : thread (modThread c t (fun T => { T with state := .halted }) (advance c t s)) c t =
      { thread (advance c t s) c t with state := .halted } := thread_modThread_self ..
  generalize modThread c t (fun T => { T with state := .halted }) (advance c t s) = h at only own
  obtain ⟨state, sregs, aregs⟩ := thread_overrun_keeps c t h t
  refine ⟨⟨fun m => ?_, fun m => ?_⟩, ?_, fun v hv => ?_, fun none => ?_⟩
  · rw [sregs, ← sReg_advance s]; simp only [sReg, own]
  · rw [aregs, ← aReg_advance s]; simp only [aReg, own]
  · rw [state, own]
  · rw [(thread_overrun_keeps c t h v).1, only.threads v hv]
  · rw [halt_plain (by rw [own, thread_advance]; exact none)]; exact only

end

/-- Settles O9: each is an issue and then the write of its one destination. -/
theorem scalarInstructions : Obligations.ScalarInstructions :=
  ⟨fun c t w s hr hw hf => ⟨_, (exec_alu c t w s).trans (execAlu_ready hr hw hf), setS_advance_spec ..⟩,
   fun c t w s hr hw hf => ⟨_, (exec_alui c t w s).trans (execAlui_ready hr hw hf), setS_advance_spec ..⟩,
   fun c t w s hr hw => ⟨_, (exec_adda c t w s).trans (execAdda_ready hr hw), setA_advance_spec ..⟩⟩

/-- Settles O10: NOP is the issue alone, BR and JMP change the PC after it, HALT the thread's state. -/
theorem controlFlow : Obligations.ControlFlow :=
  ⟨fun c t w s hr hw => ⟨_, (exec_nop c t w s).trans (congrArg Host.Outcome.next (issueCtl_runs hr hw (by decide) rfl)), Issued.advance c t s,
      WritesNone.advance c t s⟩,
   fun _ _ _ _ hr hw hc => br_spec hr hw hc,
   fun c t w s hr hw => ⟨_, (exec_jmp c t w s).trans (congrArg Host.Outcome.next (issueCtl_runs hr hw (by decide) rfl)), setPc_advance_spec ..⟩,
   fun _ _ _ _ hr hw => halt_spec hr hw⟩

end Sys2Proof.Machine
end

section
/-! PROOFS. LDI, MVAS, MVSA, RDCSR, WRCSR, COPY and MOV_COMPLETE (R156, R159, R165, R169, R173, R176, R424, R425). -/

namespace Sys2Proof.Machine

open Sys2Proof

/-! ### Rows -/

section
variable (c : CoreId) (t : ThreadId) (w : InstrWord) (s : State)

theorem exec_movLdi : exec (.movLdi c t w) s = execMovLdi c t w s := rfl
theorem exec_movMvas : exec (.movMvas c t w) s = execMovMvas c t w s := rfl
theorem exec_movMvsa : exec (.movMvsa c t w) s = execMovMvsa c t w s := rfl
theorem exec_movRdcsr : exec (.movRdcsr c t w) s = execMovRdcsr c t w s := rfl
theorem exec_movWrcsr : exec (.movWrcsr c t w) s = execMovWrcsr c t w s := rfl
theorem exec_movCopy : exec (.movCopy c t w) s = execMovCopy c t w s := rfl
theorem exec_movComplete : exec (.movComplete c t) s = execMovComplete c t s := rfl

end

section
variable {c : CoreId} {t : ThreadId} {w : InstrWord} {s : State}

/-! ### Moves between registers -/

theorem execMovLdi_ready (hr : Ready s c t w) (hw : Codes w 4 2 [(24, 5), (64, 64)]) :
    execMovLdi c t w s = .next (setS c t (mSreg w) (iF w 64 64) (advance c t s)) := by
  unfold execMovLdi
  rw [issueMov_runs hr hw (by decide) (by simp)]

theorem execMovMvas_ready (hr : Ready s c t w) (hw : Codes w 4 3 [(24, 9)]) :
    execMovMvas c t w s = .next (setS c t (mSreg w) (aReg s c t (mAreg w)) (advance c t s)) := by
  unfold execMovMvas
  rw [issueMov_runs hr hw (by decide) (by simp), aReg_advance]

theorem execMovMvsa_ready (hr : Ready s c t w) (hw : Codes w 4 4 [(24, 9)]) :
    execMovMvsa c t w s = .next (setA c t (mAreg w) (sReg s c t (mSreg w)) (advance c t s)) := by
  unfold execMovMvsa
  rw [issueMov_runs hr hw (by decide) (by simp), sReg_advance]

/-! ### Registers of the core's window -/

theorem execMovRdcsr_ready (hr : Ready s c t w) (hw : Codes w 4 5 [(24, 5), (36, 20)]) (ho : csrOk s c t w) :
    execMovRdcsr c t w s = .next (setS c t (mSreg w) (readReg (advance c t s) (coreWindow c + mOff w)) (advance c t s)) := by
  unfold execMovRdcsr
  rw [issueMov_runs hr hw (by decide) (csr_zero ho)]

/-- A write of a writable register with no reserved encoding stores the masked value (R17, R424). -/
theorem csrWrite_writable {off v : Nat} {r : RegInfo} {s : State} (hi : regInfo off = some r) (hrw : r.rw ≠ 0)
    (hok : regOk off (v &&& r.rw) = true) : csrWrite off v s = setReg off (v &&& r.rw) s := by
  simp [csrWrite, hi, hrw, hok]

theorem execMovWrcsr_ready {r : RegInfo} (hr : Ready s c t w) (hw : Codes w 4 6 [(24, 5), (36, 20)]) (ho : csrOk s c t w)
    (hi : regInfo (coreWindow c + mOff w) = some r) (hrw : r.rw ≠ 0)
    (hok : regOk (coreWindow c + mOff w) (sReg s c t (mSreg w) % 2 ^ 32 &&& r.rw) = true) :
    execMovWrcsr c t w s =
      .next (setReg (coreWindow c + mOff w) (sReg s c t (mSreg w) % 2 ^ 32 &&& r.rw) (advance c t s)) := by
  unfold execMovWrcsr
  rw [issueMov_runs hr hw (by decide) (csr_zero ho), sReg_advance, csrWrite_writable hi hrw hok]

/-- An issue that then writes one register of the device. -/
theorem setReg_advance_spec (c t off : Nat) {v : Nat} (s : State) (hv : v < 2 ^ 32) {u : State} (hu : u = setReg off v (advance c t s)) :
    WentOn s u c t ∧ WritesNone c t s u ∧ reg u off = v ∧ (∀ o, o ≠ off → reg u o = reg s o) ∧
      (∀ x, ¬ logRing x → memByte u x = memByte s x) ∧
      u = { s with cores := u.cores, cnt := u.cnt, log := u.log, host := u.host, regs := u.regs } := by
  have only := ThreadOnly.advance c t s
  subst hu
  refine ⟨pc_advance s c t, WritesNone.advance c t s, ?_, fun o ho => ?_, fun x hx => memByte_advance c t s hx, ?_⟩
  · rw [reg_setReg_self, Nat.mod_eq_of_lt hv]
  · rw [reg_setReg_ne _ _ ho, reg, reg, regW, regW, advance_regs]
  · rw [setReg, only.rest]

/-! ### COPY -/

/-- The range check of a COPY passes where its source and its destination may be accessed. -/
theorem copyRange_zero (h1 : 1 ≤ mLen w) (ha : InScratch s c t (mAddr s c t w) (mLen w) 1)
    (hb : InScratch s c t (mAddr2 s c t w) (mLen w) 1) : ∀ x ∈ [causeIf (mLen w == 0) 2,
      rangeCause s c t [(mAddr s c t w, mLen w, 1), (mAddr2 s c t w, mLen w, 1)]], x = 0 := by
  have len : causeIf (mLen w == 0) 2 = 0 := if_neg (by simp; omega)
  have range := rangeCause_zero (s := s) (c := c) (t := t)
    (l := [(mAddr s c t w, mLen w, 1), (mAddr2 s c t w, mLen w, 1)]) (by simpa using ⟨⟨h1, ha⟩, h1, hb⟩)
  simpa using ⟨len, range⟩

/-- A COPY takes more than 32 cycles where it has more than 1,536 bytes (R169; log entry 17). -/
theorem copy_long (n : Nat) : 32 < 8 + ceilDiv n 64 ↔ 1536 < n := by
  unfold ceilDiv
  rw [if_neg (by decide)]
  omega

/-- The thread of a COPY waits for MOV_COMPLETE where the COPY is long. -/
def copyWait (c t : Nat) (w : InstrWord) (s : State) : State :=
  if 1536 < mLen w then modThread c t (fun T => { T with wait := .mov }) s else s

/-- A COPY of clean bytes writes them after its thread has gone on. -/
theorem movCopy_advance (h1 : 1 ≤ mLen w) (ha : mAddr s c t w + mLen w ≤ 0x100000) (hb : mAddr2 s c t w + mLen w ≤ 0x100000)
    (clean : anyPoison s (scratchAddr c (mAddr s c t w)) (mLen w) = false) :
    movCopy c t w (advance c t s) = copyWait c t w (memWrite (scratchAddr c (mAddr2 s c t w))
      (memBytes s (scratchAddr c (mAddr s c t w)) (mLen w)) (advance c t s)) := by
  have clean' : anyPoison (advance c t s) (scratchAddr c (mAddr s c t w)) (mLen w) = false := by rw [anyPoison_advance, clean]
  unfold movCopy copyWait
  simp only [mAddr_advance, mAddr2_advance, clean', movPoison_clean clean', scrBytes_advance t s ha, copy_long]
  rw [unitStore_plain _ (by rw [length_memBytes]; exact h1) (by rw [length_memBytes]; exact hb)]

theorem execMovCopy_ready (hr : Ready s c t w) (hw : Codes w 4 7 [(29, 4), (36, 56)]) (h1 : 1 ≤ mLen w)
    (ha : InScratch s c t (mAddr s c t w) (mLen w) 1) (hb : InScratch s c t (mAddr2 s c t w) (mLen w) 1)
    (clean : anyPoison s (scratchAddr c (mAddr s c t w)) (mLen w) = false) :
    execMovCopy c t w s = .next (copyWait c t w (memWrite (scratchAddr c (mAddr2 s c t w))
      (memBytes s (scratchAddr c (mAddr s c t w)) (mLen w)) (advance c t s))) := by
  unfold execMovCopy
  rw [issueMov_runs hr hw (by decide) (copyRange_zero h1 ha hb), movCopy_advance h1 ha.2.1 hb.2.1 clean]

/-- A ready thread waits for nothing. -/
theorem Ready.wait (hr : Ready s c t w) : (thread s c t).wait = .none := by
  have := hr.1
  unfold canIssue at this
  simp only [Bool.and_eq_true, beq_iff_eq] at this
  exact this.1.2

theorem WritesNone.trans {c t : Nat} {s u v : State} (h : WritesNone c t s u) (k : WritesNone c t u v) : WritesNone c t s v :=
  ⟨fun m => (k.1 m).trans (h.1 m), fun m => (k.2 m).trans (h.2 m)⟩

theorem Stored.writesNone {c t a : Nat} {l : List Byte} {s u : State} (h : Stored c t a l s u) : WritesNone c t s u :=
  ⟨fun m => by unfold sReg; rw [h.thread], fun m => by unfold aReg; rw [h.thread]⟩

theorem Stored.wait {c t a : Nat} {l : List Byte} {s u : State} (h : Stored c t a l s u) :
    (Machine.thread u c t).wait = (Machine.thread s c t).wait := by
  rw [h.thread]

/-- What the wait of a COPY leaves: memory, the other threads, and of its own thread all but the wait. -/
theorem copyWait_spec (c t : Nat) (w : InstrWord) (s : State) :
    (∀ x, memByte (copyWait c t w s) x = memByte s x) ∧ (∀ v, v ≠ t → thread (copyWait c t w s) c v = thread s c v) ∧
      WritesNone c t s (copyWait c t w s) ∧ (thread (copyWait c t w s) c t).pc = (thread s c t).pc ∧
      (thread (copyWait c t w s) c t).wait = if 1536 < mLen w then .mov else (thread s c t).wait := by
  unfold copyWait
  split
  · refine ⟨fun _ => rfl, fun v hv => thread_modThread_ne _ _ hv, ⟨fun m => ?_, fun m => ?_⟩, ?_, ?_⟩
    · simp only [sReg, thread_modThread_self]
    · simp only [aReg, thread_modThread_self]
    · rw [thread_modThread_self]
    · rw [thread_modThread_self]
  · exact ⟨fun _ => rfl, fun _ _ => rfl, ⟨fun _ => rfl, fun _ => rfl⟩, rfl, rfl⟩

/-- COPY: its bytes, the frame and the wait (R156, R159, R165). -/
theorem movCopy_spec (hr : Ready s c t w) (hw : Codes w 4 7 [(29, 4), (36, 56)]) (h1 : 1 ≤ mLen w)
    (ha : InScratch s c t (mAddr s c t w) (mLen w) 1) (hb : InScratch s c t (mAddr2 s c t w) (mLen w) 1)
    (clean : anyPoison s (scratchAddr c (mAddr s c t w)) (mLen w) = false) :
    ∃ u, exec (.movCopy c t w) s = .next u ∧ WentOn s u c t ∧
      memBytes u (scratchAddr c (mAddr2 s c t w)) (mLen w) = memBytes s (scratchAddr c (mAddr s c t w)) (mLen w) ∧
      (∀ x, ¬ logRing x → x < scratchAddr c (mAddr2 s c t w) ∨ scratchAddr c (mAddr2 s c t w) + mLen w ≤ x →
        memByte u x = memByte s x) ∧
      WritesNone c t s u ∧ (∀ v, v ≠ t.val → thread u c v = thread s c v) ∧
      (thread u c t).wait = if 1536 < mLen w then .mov else .none := by
  refine ⟨_, (exec_movCopy c t w s).trans (execMovCopy_ready hr hw h1 ha hb clean), ?_⟩
  have len : (memBytes s (scratchAddr c (mAddr s c t w)) (mLen w)).length = mLen w := length_memBytes ..
  have stored := stored_memWrite c t (l := memBytes s (scratchAddr c (mAddr s c t w)) (mLen w)) s (len.symm ▸ hb.2.1)
  generalize memWrite _ _ (advance c t s) = u at stored
  have written := stored.written
  have frame := stored.mem
  rw [len] at written frame
  obtain ⟨mem, threads, regs, pc, wait⟩ := copyWait_spec c t w u
  exact ⟨pc.trans stored.went, (memBytes_congr fun _ _ => mem _).trans written, fun x hx hout => (mem x).trans (frame x hx hout),
    stored.writesNone.trans regs, fun v hv => (threads v hv).trans (stored.threads v hv), by rw [wait, stored.wait, hr.wait]⟩

end

/-- Settles O11: the destination is written after the issue; WRCSR writes a register of the device instead. -/
theorem registerMoves : Obligations.RegisterMoves :=
  ⟨⟨fun c t w s hr hw => ⟨_, (exec_movLdi c t w s).trans (execMovLdi_ready hr hw), setS_advance_spec ..⟩,
    fun c t w s hr hw => ⟨_, (exec_movMvas c t w s).trans (execMovMvas_ready hr hw), setS_advance_spec ..⟩,
    fun c t w s hr hw => ⟨_, (exec_movMvsa c t w s).trans (execMovMvsa_ready hr hw), setA_advance_spec ..⟩⟩,
   fun c t w s hr hw ho => ⟨_, (exec_movRdcsr c t w s).trans (execMovRdcsr_ready hr hw ho), setS_advance_spec ..⟩,
   fun c t w s _ hr hw ho hi hrw hok => ⟨_, (exec_movWrcsr c t w s).trans (execMovWrcsr_ready hr hw ho hi hrw hok),
     setReg_advance_spec c t _ s (Nat.and_le_left.trans_lt (Nat.mod_lt _ (by decide))) rfl⟩⟩

/-- Settles O13: COPY by the write of its bytes and the wait, MOV_COMPLETE by the end of the wait. -/
theorem copies : Obligations.Copies :=
  ⟨fun _ _ _ _ hr hw h1 ha hb clean => movCopy_spec hr hw h1 ha hb clean,
   fun c t s wait => ⟨_, (exec_movComplete c t s).trans (congrArg Host.Outcome.next (if_pos (by rw [wait]; rfl))), thread_modThread_self ..,
     ThreadOnly.modThread ..⟩⟩

end Sys2Proof.Machine
end

section
/-! PROOFS. VEC and XU instructions enter their unit's queue or stall (R157, R158, R163, R164, R169, R171). -/

namespace Sys2Proof.Machine

open Sys2Proof

/-- The VEC rows with their operations (R164). -/
def vecRowOps (c : CoreId) (t : ThreadId) (w : InstrWord) : List (Instr × Nat) :=
  [(.vecAdd c t w, 0x00), (.vecMul c t w, 0x01), (.vecFma c t w, 0x02), (.vecMax c t w, 0x03), (.vecMin c t w, 0x04),
   (.vecCvt c t w, 0x05), (.w42add c t w, 0x06), (.drop c t w, 0x07), (.exp c t w, 0x08), (.exp2 c t w, 0x09), (.log c t w, 0x0A),
   (.log2 c t w, 0x0B), (.rcp c t w, 0x0C), (.rsq c t w, 0x0D), (.div c t w, 0x0E), (.ladd c t w, 0x0F), (.smax c t w, 0x10),
   (.rsum c t w, 0x11), (.rmax c t w, 0x12)]

/-- The XU rows with their operations (R171). -/
def xuRowOps (c : CoreId) (t : ThreadId) (w : InstrWord) : List (Instr × Nat) :=
  [(.xuAdd c t w, 0x00), (.xuMul c t w, 0x01), (.xuFma c t w, 0x02), (.xuCvt c t w, 0x03), (.dot c t w, 0x04), (.gather c t w, 0x05),
   (.scat c t w, 0x06), (.rope c t w, 0x07), (.xent c t w, 0x08), (.xgrad c t w, 0x09), (.nstat c t w, 0x0A)]

/-- Every VEC row is the issue of its operation to the vector unit. -/
theorem exec_vecRowOps (c : CoreId) (t : ThreadId) (w : InstrWord) (s : State) :
    ∀ x ∈ vecRowOps c t w, exec x.1 s = .next (issueVec x.2 c t w s) := by
  simp only [vecRowOps, List.forall_mem_cons, List.not_mem_nil, false_imp_iff, implies_true, and_true]
  and_intros <;> rfl

theorem vecRowOps_le (c : CoreId) (t : ThreadId) (w : InstrWord) : ∀ x ∈ vecRowOps c t w, x.2 ≤ 0x12 := by simp [vecRowOps]

/-- Every XU row is the issue of its operation to the exact unit. -/
theorem exec_xuRowOps (c : CoreId) (t : ThreadId) (w : InstrWord) (s : State) :
    ∀ x ∈ xuRowOps c t w, exec x.1 s = .next (issueXu x.2 c t w s) := by
  simp only [xuRowOps, List.forall_mem_cons, List.not_mem_nil, false_imp_iff, implies_true, and_true]
  and_intros <;> rfl

theorem xuRowOps_le (c : CoreId) (t : ThreadId) (w : InstrWord) : ∀ x ∈ xuRowOps c t w, x.2 ≤ 0x0A := by simp [xuRowOps]

/-- Settles O15: each row is the issue of its operation, which queues or stalls by `vec_core` and `xu_core`. -/
theorem unitIssue : Obligations.UnitIssue := by
  refine ⟨fun c t w s i op hi hr h1 h2 h0 => ?vec, fun c t w s i op hi hr h1 h2 h0 => ?xu⟩
  case vec =>
    obtain ⟨room, full⟩ := vec_core c t w s op hr h1 h2 (vecRowOps_le c t w _ hi) h0
    have runs := exec_vecRowOps c t w s _ hi
    exact ⟨fun hl => ⟨_, runs, room hl⟩, fun hl => ⟨_, runs, full hl⟩⟩
  case xu =>
    obtain ⟨room, full⟩ := xu_core c t w s op hr h1 h2 (xuRowOps_le c t w _ hi) h0
    have runs := exec_xuRowOps c t w s _ hi
    exact ⟨fun hl => ⟨_, runs, room hl⟩, fun hl => ⟨_, runs, full hl⟩⟩

end Sys2Proof.Machine
end

section
/-! PROOFS. Instructions that fault their thread: reserved classes and operations, and the rules of each class (R157, R160 to R162, R165,
R167, R168, R170, R173). -/

namespace Sys2Proof.Machine

open Sys2Proof

/-! ### Reserved classes and operations -/

/-- The step of a row is an issue of the word that the thread stands at. -/
def IssuesWord (c t : Nat) (w : InstrWord) (s u : State) : Prop :=
  ∃ cls op cause full body, u = issue c t w cls op cause full body s

theorem issueVec_issuesWord (op : Nat) (c : CoreId) (t : ThreadId) (w : InstrWord) (s : State) : IssuesWord c t w s (issueVec op c t w s) := by
  unfold issueVec; exact ⟨_, _, _, _, _, rfl⟩

theorem issueXu_issuesWord (op : Nat) (c : CoreId) (t : ThreadId) (w : InstrWord) (s : State) : IssuesWord c t w s (issueXu op c t w s) := by
  unfold issueXu; exact ⟨_, _, _, _, _, rfl⟩

/-- The rows that a core instruction word can be, but for those of the vector and the exact unit. -/
def otherRows (c : CoreId) (t : ThreadId) (w : InstrWord) : List Instr :=
  [.movLd c t w, .movSt c t w, .movLdi c t w, .movMvas c t w, .movMvsa c t w, .movRdcsr c t w, .movWrcsr c t w, .movCopy c t w,
   .strRun c t w, .strRearm c t w, .strMark c t w, .strTrace c t w, .waitc c t w, .setc c t w, .bar c t w, .wstroke c t w, .ovfx c t w,
   .drain c t w, .nop c t w, .alu c t w, .alui c t w, .br c t w, .jmp c t w, .halt c t w, .adda c t w]

theorem coreRows_eq (c : CoreId) (t : ThreadId) (w : InstrWord) : coreRows c t w =
    [.tile c t w, .tbl c t w, .idle c t w] ++ (vecRowOps c t w).map (·.1) ++ (xuRowOps c t w).map (·.1) ++ otherRows c t w := rfl

/-- Every row that a core instruction word can be is an issue. -/
theorem exec_coreRows (c : CoreId) (t : ThreadId) (w : InstrWord) (s : State) :
    ∀ i ∈ coreRows c t w, ∃ u, exec i s = .next u ∧ IssuesWord c t w s u := by
  simp only [coreRows_eq, List.forall_mem_append, List.forall_mem_map]
  refine ⟨⟨⟨?arrays, fun x hx => ⟨_, exec_vecRowOps c t w s x hx, issueVec_issuesWord ..⟩⟩,
    fun x hx => ⟨_, exec_xuRowOps c t w s x hx, issueXu_issuesWord ..⟩⟩, ?others⟩
  case arrays =>
    simp only [List.forall_mem_cons, List.not_mem_nil, false_imp_iff, implies_true, and_true]
    and_intros <;> exact ⟨_, rfl, _, _, _, _, _, rfl⟩
  case others =>
    simp only [otherRows, List.forall_mem_cons, List.not_mem_nil, false_imp_iff, implies_true, and_true]
    and_intros <;> exact ⟨_, rfl, _, _, _, _, _, rfl⟩

/-- The reserved classes, and the reserved operations of the others (R162 to R168). -/
theorem knownOp_reserved {cls op : Nat} (h : (cls = 0 ∨ 8 ≤ cls) ∨ (cls = 1 ∧ 2 < op) ∨ (cls = 2 ∧ 0x12 < op) ∨
    (cls = 3 ∧ 0x0A < op) ∨ (cls = 4 ∧ 7 < op) ∨ (cls = 5 ∧ 3 < op) ∨ (cls = 6 ∧ 5 < op) ∨ (cls = 7 ∧ 6 < op)) : knownOp cls op = false := by
  unfold knownOp
  simp only [Bool.or_eq_false_iff, Bool.and_eq_false_iff, beq_eq_false_iff_ne, decide_eq_false_iff_not]
  omega

/-- Settles O17: whatever its row, the word is issued, and `issue_reserved` faults it. -/
theorem reservedInstructions : Obligations.ReservedInstructions := by
  intro c t w s i hi can reserved
  obtain ⟨u, runs, cls, op, cause, full, body, rfl⟩ := exec_coreRows c t w s i hi
  have fails : pcBeyond s c t = true ∨ knownOp (iClass w) (iOp w) = false := reserved.imp decide_eq_true knownOp_reserved
  exact ⟨_, runs.trans (congrArg Host.Outcome.next (issue_reserved can fails)), faultThread_faults ..⟩

/-! ### The rules of the classes -/

section
variable {c : CoreId} {t : ThreadId} {w : InstrWord} {s : State} {op : Nat} {fields : List (Nat × Nat)}

theorem exec_setc (c : CoreId) (t : ThreadId) (w : InstrWord) (s : State) : exec (.setc c t w) s = execSetc c t w s := rfl

theorem issueCtl_faults {bad : Bool} {body : State → State} (hr : Ready s c t w) (h1 : iClass w = 7) (h2 : iOp w = op) (hk : op ≤ 6)
    (hx : (iCntEn w || !onlyBits w fields || bad) = true) : issueCtl op fields bad body c t w s = faultThread c t 2 s := by
  have cause : ctlCause fields bad w = 2 := if_pos hx
  unfold issueCtl
  rw [issue_faults hr (by simp [knownOp, hk]) h1 h2 (by rw [cause]; decide), cause]

/-- The first of a MOV's own rules that is broken faults it, where its fields are in order (R165). -/
theorem issueMov_faults {extra : State → List Nat} {body : State → State} {n : Nat} (hr : Ready s c t w) (hw : Codes w 4 op fields)
    (hk : op ≤ 7) (hn : n ≠ 0) (hx : leastCause (extra s) = n) : issueMov op fields extra body c t w s = faultThread c t n s := by
  obtain ⟨h1, h2, h3, h4⟩ := hw
  have cause : movCause fields w (extra s) = n := by
    rw [movCause, h3, h4, ← hx]; exact leastCause_zero_cons _
  unfold issueMov
  rw [issue_faults hr (by simp [knownOp, hk]) h1 h2 (by rw [cause]; exact hn), cause]

/-- As `issueMov_faults`, for SYNC (R167). -/
theorem issueSync_faults {extra : State → List Nat} {body : State → State} {n : Nat} (hr : Ready s c t w) (hw : Codes w 6 op fields)
    (hk : op ≤ 5) (hn : n ≠ 0) (hx : leastCause (extra s) = n) : issueSync op fields extra body c t w s = faultThread c t n s := by
  obtain ⟨h1, h2, h3, h4⟩ := hw
  have cause : syncCause fields (extra s) w = n := by
    rw [syncCause, h3, h4, ← hx]; exact leastCause_zero_cons _
  unfold issueSync
  rw [issue_faults hr (by simp [knownOp, hk]) h1 h2 (by rw [cause]; exact hn), cause]

theorem leastCause_singleton {n : Nat} (hn : n ≠ 0) : leastCause [n] = n := leastCause_head [] n hn (by simp)

/-- A misaligned address, or one beyond the scratch (R159, R170). -/
theorem rangeCause_outside {a n align : Nat} (h : a % align ≠ 0 ∨ 0x100000 ≤ a) : rangeCause s c t [(a, n, align)] = 3 := by
  unfold rangeCause
  rw [if_pos (by simpa [or_assoc] using h.elim .inl fun h => .inr (.inl h))]

/-- An address in the scratch but outside a custom thread's bounds (R173). -/
theorem rangeCause_bounds {a n align : Nat} (h1 : a % align = 0) (hn : 0 < n) (h2 : a + n ≤ 0x100000) (hc : isCustom s c t = true)
    (h : a < boundLo s c t ∨ boundHi s c t < a + n) : rangeCause s c t [(a, n, align)] = 4 := by
  unfold rangeCause
  rw [if_neg (by simp [h1]; omega), if_pos (by simpa [hc] using h)]

theorem cntCause_plain (hc : isCustom s c t = false) : cntCause s c t w = 0 := by simp [cntCause, causeIf, hc]

/-- Where an IDLE of a lockkeeper thread has its fields in order, its thread and the open group decide (R162, R170). -/
theorem idleCause_fields (hb : onlyBits w [(24, 35)] = true) (h0 : idleCycles w ≠ 0) (hc : isCustom s c t = false) :
    idleCause c t w s = leastCause [arrayCause s c t, causeIf (groupOpen s c) 6] := by
  have fields : causeIf (!onlyBits w [(24, 35)] || idleCycles w == 0) 2 = 0 := if_neg (by simp [hb, h0])
  rw [idleCause, fields, cntCause_plain hc, leastCause_zero_cons, leastCause_zero_cons]

theorem idleCause_thread (hb : onlyBits w [(24, 35)] = true) (h0 : idleCycles w ≠ 0) (hc : isCustom s c t = false)
    (ha : arrayThread s c ≠ t) : idleCause c t w s = 5 := by
  have other : arrayCause s c t = 5 := if_pos (bne_iff_ne.2 ha)
  rw [idleCause_fields hb h0 hc, other]
  refine leastCause_head _ 5 (by decide) fun x hx => ?_
  rw [List.mem_singleton.1 hx, causeIf]
  split
  · exact .inr (by decide)
  · exact .inl rfl

theorem idleCause_group (hb : onlyBits w [(24, 35)] = true) (h0 : idleCycles w ≠ 0) (hc : isCustom s c t = false)
    (ha : arrayThread s c = t) (hg : groupOpen s c = true) : idleCause c t w s = 6 := by
  have own : arrayCause s c t = 0 := if_neg (by simp [ha])
  have opened : causeIf (groupOpen s c) 6 = 6 := if_pos hg
  rw [idleCause_fields hb h0 hc, own, opened, leastCause_zero_cons, leastCause_singleton (by decide)]

theorem execIdle_faults {n : Nat} (hr : Ready s c t w) (h1 : iClass w = 1) (h2 : iOp w = 2) (hn : n ≠ 0) (hx : idleCause c t w s = n) :
    execIdle c t w s = .next (faultThread c t n s) := by
  unfold execIdle
  rw [issue_faults hr rfl h1 h2 (hx ▸ hn), hx]

/-- A custom thread reaches its own CORE_RNG registers alone (R173). -/
theorem csrCause_custom (h1 : mOff w < 0x20000) (h2 : mOff w % 4 = 0) (hc : isCustom s c t = true)
    (h : mOff w < 0x1000 + t * 0x40 + 0x18 ∨ 0x1000 + t * 0x40 + 0x30 ≤ mOff w) : leastCause (csrCause s c t w) = 7 := by
  have inside : causeIf (decide (0x20000 ≤ mOff w)) 2 = 0 := if_neg (by simpa using h1)
  have aligned : causeIf (mOff w % 4 != 0) 3 = 0 := if_neg (by simp [h2])
  have reach : causeIf (isCustom s c t && !(decide (0x1000 + t * 0x40 + 0x18 ≤ mOff w) && decide (mOff w < 0x1000 + t * 0x40 + 0x30))) 7 = 7 :=
    if_pos (by simp [hc]; omega)
  simp only [csrCause]
  rw [inside, aligned, reach, leastCause_zero_cons, leastCause_zero_cons, leastCause_singleton (by decide)]

/-- A row that comes to the fault of its thread. -/
theorem faults_of_exec {i : Instr} {n : Nat} {x : Host.Outcome State Fault Refusal} (h : exec i s = x)
    (hx : x = .next (faultThread c t n s)) : ∃ u, exec i s = .next u ∧ FaultsWith c t n s u :=
  ⟨_, h.trans hx, faultThread_faults ..⟩

end

/-- Settles O18: the class's check gives the cause, and `issue_faults` the fault. -/
theorem invalidInstructions : Obligations.InvalidInstructions := by
  intro c t w s hr
  refine ⟨fun h1 h2 hx => faults_of_exec (exec_nop c t w s) (congrArg Host.Outcome.next (issueCtl_faults hr h1 h2 (by decide) ?nop)),
    fun hw hx => faults_of_exec (exec_alu c t w s) (congrArg Host.Outcome.next (issueCtl_faults hr hw.1 hw.2.1 (by decide) ?alu)),
    fun hw hx => faults_of_exec (exec_movLd c t w s) (congrArg Host.Outcome.next (issueMov_faults hr hw (by decide) (by decide) ?load)),
    fun hw hx => faults_of_exec (exec_movSt c t w s) (congrArg Host.Outcome.next (issueMov_faults hr hw (by decide) (by decide) ?store)),
    fun hw h1 h2 hc hx => faults_of_exec (exec_movSt c t w s) (congrArg Host.Outcome.next (issueMov_faults hr hw (by decide) (by decide) ?bounds)),
    fun hw hc hx => faults_of_exec (exec_setc c t w s) (congrArg Host.Outcome.next (issueSync_faults hr hw (by decide) (by decide) ?counter)),
    fun h1 h2 hb h0 hc ha => faults_of_exec (exec_idle c t w s) (execIdle_faults hr h1 h2 (by decide) (idleCause_thread hb h0 hc ha)),
    fun h1 h2 hb h0 hc ha hg => faults_of_exec (exec_idle c t w s) (execIdle_faults hr h1 h2 (by decide) (idleCause_group hb h0 hc ha hg)),
    fun hw h1 h2 hc hx => faults_of_exec (exec_movRdcsr c t w s)
      (congrArg Host.Outcome.next (issueMov_faults hr hw (by decide) (by decide) (csrCause_custom h1 h2 hc hx)))⟩
  case nop => simpa using hx
  case alu => simp [hx]
  case load => rw [rangeCause_outside hx, leastCause_singleton (by decide)]
  case store => rw [rangeCause_outside hx, leastCause_singleton (by decide)]
  case bounds => rw [rangeCause_bounds h1 (mSize_pos w) h2 hc hx, leastCause_singleton (by decide)]
  case counter =>
    have outside : kidxCause s c t w = 4 := if_pos (by simp [hc, hx])
    rw [outside, leastCause_singleton (by decide)]

end Sys2Proof.Machine
end

section
/-! PROOFS. The guard point: EASY, and the flags that hold the step (R170, R206, R215, R253, R254, R264, R284, R311, R318, R319, R374). -/

namespace Sys2Proof.Machine

open Sys2Proof

theorem exec_guardPoint (st : List Nat) (s : State) : exec (.guardPoint st) s = .next (atEpoch s (guardPoint st s)) := rfl

/-! ### EASY and the legs behind (R215, R287, R374) -/

/-- The guard point has come, and the comparisons of the self-test are at hand. -/
def guarded (st : List Nat) (s : State) : State :=
  { s with stroke := { s.stroke with guard := true }, res := { s.res with selfTest := st } }

/-- The device once EASY has been raised where it is due, and the legs behind are marked. -/
def guardMarked (st : List Nat) (s : State) : State := markBehind (raiseEasy (slotUnfinished (guarded st s)) (guarded st s))

theorem guardMarked_only (st : List Nat) (s : State) : EasyOnly (guarded st s) (guardMarked st s) :=
  (EasyOnly.raiseEasy ..).trans (.markBehind _)

/-- Unfinished work in a phase of EASY floods the marker of this stroke and device. -/
theorem raiseEasy_unfinished {s : State} (hr : inRun s = true) (he : easyPhase s = true) :
    raiseEasy true s = floodEasy s.stroke.count (myPos s) s := by
  simp [raiseEasy, hr, he]

/-- Nothing is raised where no work is unfinished in a phase of EASY and throttling asks for none. -/
theorem raiseEasy_none {b : Bool} {s : State} (hb : b = false ∨ easyPhase s = false) (ht : throttleDue s = false) : raiseEasy b s = s := by
  have unraised : (b && easyPhase s) = false := Bool.and_eq_false_iff.2 hb
  simp [raiseEasy, unraised, ht]

/-- A marker that is new goes out of every active port, and the legs behind take nothing back. -/
theorem guardMarked_raised (st : List Nat) {s : State} (hr : inRun s = true) (hu : slotUnfinished s = true) (he : easyPhase s = true) :
    (s.stroke.count, myPos s) ∈ (guardMarked st s).stroke.seen ∧ ((s.stroke.count, myPos s) ∉ s.stroke.seen →
      ∀ x ∈ activePorts s, ∃ h, Output.packet x.1 x.2 h (easyBody s.stroke.count (myPos s)) ∈ (guardMarked st s).out) := by
  have raised : guardMarked st s = markBehind (floodEasy s.stroke.count (myPos s) (guarded st s)) := by
    have unfinished : slotUnfinished (guarded st s) = true := hu
    rw [guardMarked, unfinished, raiseEasy_unfinished (s := guarded st s) hr he]; rfl
  obtain ⟨seen, sent⟩ := floodEasy_seen s.stroke.count (myPos s) (guarded st s)
  have grows := (EasyOnly.markBehind (floodEasy s.stroke.count (myPos s) (guarded st s))).grows
  rw [raised, markBehind_seen]
  refine ⟨seen, fun new x hx => ?_⟩
  obtain ⟨h, out⟩ := sent new x hx
  exact ⟨h, grows.sent _ out⟩

theorem guardMarked_quiet (st : List Nat) {s : State} (hq : slotUnfinished s = false ∨ easyPhase s = false) (ht : throttleDue s = false) :
    (guardMarked st s).stroke.seen = s.stroke.seen := by
  have none : raiseEasy (slotUnfinished (guarded st s)) (guarded st s) = guarded st s := raiseEasy_none hq ht
  rw [guardMarked, none, markBehind_seen]; rfl

/-! ### What the flags are decided by -/

section
variable {st : List Nat} {s v : State} (E : EasyOnly (guarded st s) v)
include E

theorem EasyOnly.inStep : inStep v = Machine.inStep s := by rw [E.rest]; rfl
theorem EasyOnly.floodedHold : floodedHold v = Machine.floodedHold s := by rw [E.rest]; rfl
theorem EasyOnly.guardFlags : guardFlags v = Machine.guardFlags s := by rw [E.rest]; rfl
theorem EasyOnly.ctlGet (id : Nat) : ctlGet v id = Machine.ctlGet s id := by rw [E.rest]; rfl
theorem EasyOnly.ctlTree (id : Nat) : ctlTree v id = Machine.ctlTree s id := by rw [E.rest]; rfl
theorem EasyOnly.count : v.stroke.count = s.stroke.count := by rw [E.rest]; rfl
theorem EasyOnly.routeOf (q : Nat) : routeOf v q = Machine.routeOf s q := by rw [E.rest]; rfl
theorem EasyOnly.sub_up (p b : Nat) : (subp v p b).up = (subp s p b).up := E.up.same p b
theorem EasyOnly.epoch : v.link.epoch = s.link.epoch := by rw [E.rest]; rfl
theorem EasyOnly.early : v.link.early = s.link.early := by rw [E.rest]; rfl

end

/-! ### Where the guard point comes to (R170, R253, R284) -/

section
variable {st : List Nat} {s : State}

theorem guardPoint_eq (st : List Nat) (s : State) : guardPoint st s =
    if !inStep s then guardMarked st s
    else if floodedHold s != 0 then holdFrom (floodedHold s) (guardMarked st s)
    else if (ctlGet s ctlFlags).own then guardMarked st s
    else ctlOwn (ctlResult ctlFlags) ctlFlags (guardFlags s) (guardMarked st s) := by
  have E := guardMarked_only st s
  rw [← E.inStep, ← E.floodedHold, ← E.ctlGet, ← E.guardFlags]
  rfl

theorem guardPoint_waits (h : inStep s = false ∨ (floodedHold s = 0 ∧ (ctlGet s ctlFlags).own = true)) :
    guardPoint st s = guardMarked st s := by
  rw [guardPoint_eq]
  rcases h with h | ⟨h1, h2⟩
  · simp [h]
  · simp [h1, h2]

theorem guardPoint_flooded (h1 : inStep s = true) (h2 : floodedHold s ≠ 0) :
    guardPoint st s = holdFrom (floodedHold s) (guardMarked st s) := by simp [guardPoint_eq, h1, h2]

theorem guardPoint_joins (h1 : inStep s = true) (h2 : floodedHold s = 0) (h3 : (ctlGet s ctlFlags).own = false) :
    guardPoint st s = ctlOwn (ctlResult ctlFlags) ctlFlags (guardFlags s) (guardMarked st s) := by simp [guardPoint_eq, h1, h2, h3]

theorem ctlResult_flags (acc : Nat) (z : State) : ctlResult ctlFlags acc z = holdFrom acc z := by
  simp [ctlResult, ctlFlags, ctlReady, ctlLimit, ctlDigest, ctlDist]

theorem holdFrom_zero (z : State) : holdFrom 0 z = z := by simp [holdFrom]

/-- A hold that every device knows of has one cause. -/
theorem log2_floodedHold (h : floodedHold s ≠ 0) : Nat.log2 (floodedHold s) = s.run.holdDue := by
  unfold floodedHold at h ⊢
  split at h
  · next due => rw [if_pos due, Nat.log2_two_pow]
  · exact absurd rfl h

/-! ### The epoch after a hold (R264, R282) -/

/-- With no packet waiting for an epoch, nothing arrives at its start. -/
theorem deliverEarly_none {t : State} (h : t.link.early = []) : deliverEarly t = t := by
  unfold deliverEarly
  simp only [h, List.foldl_nil]
  rw [← h]

theorem HeldFrom.link {flags : Nat} {z t : State} (H : HeldFrom flags z t) :
    t.link.epoch = (z.link.epoch + 1) % 65536 ∧ t.link.early = z.link.early := by
  obtain ⟨w, held, paths, -, -⟩ := H
  have link : w.link = z.link := by rw [paths.rest]
  exact ⟨by rw [held.epoch, link], by rw [held.early, link]⟩

theorem HeldFrom.heldCause {flags : Nat} {z t : State} (H : HeldFrom flags z t) : t.run.heldCause = Nat.log2 flags := by
  obtain ⟨w, held, -⟩ := H
  rw [held.run]

/-- A hold opens a new epoch, at which the packets that waited for it arrive. -/
theorem HeldFrom.atEpoch {flags : Nat} {z t : State} (H : HeldFrom flags z t) (he : z.link.epoch = s.link.epoch) :
    atEpoch s t = deliverEarly t := by
  have moved : t.link.epoch ≠ s.link.epoch := by rw [H.link.1, he]; omega
  exact if_neg moved

/-- The flags hold the step in a device that shares its epoch, its waiting packets and the running step with `s`. -/
theorem holdFrom_holds {flags : Nat} {z : State} (hf : flags ≠ 0) (hs : inStep z = true) (hl : z.link.epoch = s.link.epoch)
    (he : z.link.early = s.link.early) : atEpoch s (holdFrom flags z) = deliverEarly (holdFrom flags z) ∧
      HeldFrom flags z (holdFrom flags z) ∧ (s.link.early = [] → deliverEarly (holdFrom flags z) = holdFrom flags z) := by
  have H := holdFrom_spec flags z hf hs
  exact ⟨H.atEpoch hl, H, fun none => deliverEarly_none (by rw [H.link.2, he, none])⟩

end

/-! ### The three ways of the flags' control reduction (R284) -/

section
variable {st : List Nat} {s v z : State} {c : CtlRed}

theorem NetOnly.inStep (N : NetOnly { v with link := { v.link with ctl := z.link.ctl } } z) : inStep z = Machine.inStep v := by
  rw [N.rest]; rfl
theorem NetOnly.epoch (N : NetOnly { v with link := { v.link with ctl := z.link.ctl } } z) : z.link.epoch = v.link.epoch := by rw [N.rest]
theorem NetOnly.early (N : NetOnly { v with link := { v.link with ctl := z.link.ctl } } z) : z.link.early = v.link.early := by rw [N.rest]

/-- The device's flags join their control reduction: it waits, goes up, or its result holds the step or lets it run on. -/
theorem guardFlags_join (E : EasyOnly (guarded st s) v) (h1 : inStep s = true)
    (hexec : exec (.guardPoint st) s = .next (atEpoch s (ctlOwn (ctlResult ctlFlags) ctlFlags (guardFlags s) v)))
    (hc : c = { ctlGet s ctlFlags with own := true, since := s.stroke.count, acc := (ctlGet s ctlFlags).acc ||| guardFlags s }) :
    (c.sent = true ∨ (∃ x ∈ (ctlTree s ctlFlags).2, x ∉ c.heard) → ∃ t, exec (.guardPoint st) s = .next t ∧ ctlGet t ctlFlags = c ∧
      (∀ j, j ≠ ctlFlags → ctlGet t j = ctlGet s j) ∧ t = { v with link := { v.link with ctl := t.link.ctl } }) ∧
    (∀ q, c.sent = false → (∀ x ∈ (ctlTree s ctlFlags).2, x ∈ c.heard) → (ctlTree s ctlFlags).1 = some q →
      ∃ t, exec (.guardPoint st) s = .next t ∧ ctlGet t ctlFlags = { c with sent := true } ∧
        NetOnly { v with link := { v.link with ctl := t.link.ctl } } t ∧
        ∀ x, routeOf s q = some x → (subp s x.1 x.2).up = true → ∃ g, Output.packet x.1 x.2 g (ctlBody ctlFlags c.acc) ∈ t.out) ∧
    (c.sent = false → (∀ x ∈ (ctlTree s ctlFlags).2, x ∈ c.heard) → (ctlTree s ctlFlags).1 = none →
      ∃ z, ctlGet z ctlFlags = ctlD ctlFlags ∧ NetOnly { v with link := { v.link with ctl := z.link.ctl } } z ∧
        (c.acc = 0 → exec (.guardPoint st) s = .next z) ∧
        (c.acc ≠ 0 → ∃ t, exec (.guardPoint st) s = .next (deliverEarly t) ∧ HeldFrom c.acc z t ∧
          (s.link.early = [] → deliverEarly t = t))) := by
  obtain ⟨waits, up, root⟩ := ctlOwn_spec (ctlResult ctlFlags) ctlFlags (guardFlags s) v (c := c) (by rw [hc, E.ctlGet, E.count]; rfl)
  rw [E.ctlTree] at waits up root
  refine ⟨fun h => ?wait, fun q h2 h3 h4 => ?up, fun h2 h3 h4 => ?root⟩
  case wait =>
    obtain ⟨u, hu, own, others, rest⟩ := waits h
    have epoch : u.link.epoch = s.link.epoch := by rw [rest]; exact E.epoch
    exact ⟨u, by rw [hexec, hu, atEpoch_same epoch], own, fun j hj => (others j hj).trans (E.ctlGet j), rest⟩
  case up =>
    obtain ⟨u, hu, own, -, net, sent⟩ := up q h2 h3 h4
    exact ⟨u, by rw [hexec, hu, atEpoch_same (net.epoch.trans E.epoch)], own, net,
      fun x hx hup => sent x ((E.routeOf q).trans hx) ((E.sub_up ..).trans hup)⟩
  case root =>
    obtain ⟨z, hz, cleared, net⟩ := root h2 h3 h4
    rw [hz, ctlResult_flags] at hexec
    have epoch := net.epoch.trans E.epoch
    refine ⟨z, cleared, net, fun h0 => ?_, fun h0 => ?_⟩
    · rw [hexec, h0, holdFrom_zero, atEpoch_same epoch]
    · obtain ⟨delivered, held, none⟩ := holdFrom_holds h0 (net.inStep.trans (E.inStep.trans h1)) epoch (net.early.trans E.early)
      exact ⟨_, by rw [hexec, delivered], held, none⟩

end

/-- Settles O51: EASY and the legs behind leave `guardMarked`; then the step runs on, is held, or its flags join their reduction. -/
theorem guardPoints : Obligations.GuardPoints := by
  intro st s
  have E := guardMarked_only st s
  refine ⟨guardMarked st s, E.rest, E.mem, guardMarked_raised st, guardMarked_quiet st, fun h => ?waits, fun h1 h2 => ?flooded,
    fun c h1 h2 h3 hc => guardFlags_join E h1 ?joins hc⟩
  case waits => rw [exec_guardPoint, guardPoint_waits h, atEpoch_same E.epoch]
  case flooded =>
    obtain ⟨delivered, held, none⟩ := holdFrom_holds h2 (E.inStep.trans h1) E.epoch E.early
    exact ⟨_, by rw [exec_guardPoint, guardPoint_flooded h1 h2, delivered], held, by rw [held.heldCause, log2_floodedHold h2], none⟩
  case joins => rw [exec_guardPoint, guardPoint_joins h1 h2 h3]

end Sys2Proof.Machine
end

section
/-! PROOFS. The update equations (R198). -/

namespace Sys2Proof.Machine

open Sys2Proof

/-! ### The element equations of the three algorithms -/

theorem updElem_sgd {e : OptEntry} (k : UpdScalars) (g w m v : Word) (h : e.algo = 0) :
    updElem e k g w m v = (fma32 (neg32 k.lr) (fma32 e.beta1 m (fma32 e.wd w g)) w, fma32 e.beta1 m (fma32 e.wd w g), v) := by
  simp only [updElem, h]

theorem updElem_adamW {e : OptEntry} (k : UpdScalars) (g w m v : Word) (h : e.algo = 1) :
    updElem e k g w m v =
      (sub32 (fma32 (neg32 k.dk) w w) (div32 (mul32 k.a (fma32 k.c1 g (mul32 e.beta1 m)))
          (add32 (div32 (sqrt32 (fma32 k.c2 (mul32 g g) (mul32 e.beta2 v))) k.q) e.eps)),
        fma32 k.c1 g (mul32 e.beta1 m), fma32 k.c2 (mul32 g g) (mul32 e.beta2 v)) := by
  simp only [updElem, h]

theorem updElem_lion {e : OptEntry} (k : UpdScalars) (g w m v : Word) (h : e.algo = 2) :
    updElem e k g w m v = (fma32 (neg32 k.lr) (sgn32 (fma32 k.c1 g (mul32 e.beta1 m))) (fma32 (neg32 k.dk) w w),
      fma32 k.c2 g (mul32 e.beta2 m), v) := by
  simp only [updElem, h]

/-! ### Clipping -/

theorem clipGrad_off {e : OptEntry} {g : Word} (h : e.clipEn = false ∨ vIsNan (dec32 g) = true) : clipGrad e g = g :=
  if_pos (by rcases h with h | h <;> simp [h])

theorem clipGrad_on {e : OptEntry} {g : Word} (he : e.clipEn = true) (hg : vIsNan (dec32 g) = false) :
    clipGrad e g = if lt32 g (neg32 e.clip) then neg32 e.clip else if lt32 e.clip g then e.clip else g :=
  if_neg (by simp [he, hg])

/-! ### The sign of an element -/

theorem sgn32_nan {c : Word} (h : vIsNan (dec32 c) = true) : sgn32 c = nan32 := if_pos h

theorem sgn32_number {c : Word} (h : vIsNan (dec32 c) = false) :
    sgn32 c = if lt32 c 0 then neg32 one32 else if lt32 0 c then one32 else 0 := if_neg (by simp [h])

/-- Settles O7: each algorithm by its equation, the clip and the sign by the order of their comparisons. -/
theorem optimiserEquations : Obligations.OptimiserEquations := by
  refine ⟨fun e k g w m v h => updElem_sgd k g w m v h, ?adamW, ?lion, fun e g => ⟨clipGrad_off, fun he hg => ?clip⟩,
    fun c => ⟨sgn32_nan, fun hc => ?sign⟩⟩
  case adamW =>
    rintro e k g w m v m1 v1 h rfl rfl
    exact updElem_adamW k g w m v h
  case lion =>
    rintro e k g w m v c h rfl
    exact updElem_lion k g w m v h
  case clip =>
    rw [clipGrad_on he hg]
    exact ⟨fun h => by rw [h]; rfl, fun h h' => by rw [h, h']; rfl, fun h h' => by rw [h, h']; rfl⟩
  case sign =>
    rw [sgn32_number hc]
    exact ⟨fun h => by rw [h]; rfl, fun h h' => by rw [h, h']; rfl, fun h h' => by rw [h, h']; rfl⟩

end Sys2Proof.Machine
end

section
/-! PROOFS. ADMISSION_PICK: the pick by credits, its slot and what the reader asks (R189, R190, R192, R193, R381). -/

namespace Sys2Proof.Machine

open Sys2Proof

theorem exec_admissionPick (n : DWord) (s : State) : exec (.admissionPick n) s = .next (admissionPick n.toNat s) := rfl

/-! ### When a pick is made -/

theorem freeSlot_none {s : State} (h : ∀ k, k < 4096 → (slot s k).state ≠ 0) : freeSlot s = none :=
  List.find?_eq_none.2 fun k hk => by simpa using h k (List.mem_range.1 hk)

/-- Nothing is picked outside admission, before the last pick is done with, without a bound source, and without a free slot. -/
theorem admissionPick_idle {n : Nat} {s : State} (h : admitting s = false ∨ s.adm.pick ≠ none ∨ (∀ i, i < 16 → source s i = none) ∨
    (∀ k, k < 4096 → (slot s k).state ≠ 0)) : admissionPick n s = s := by
  unfold admissionPick
  split
  · rfl
  · next g =>
    obtain ⟨runs, free⟩ : admitting s = true ∧ s.adm.pick = none := by simpa using g
    rcases h with h | h | h | h
    · rw [runs] at h; cases h
    · exact absurd free h
    · rw [pickSource_none h]
    · rw [freeSlot_none h]
      cases pickSource (gainCredit (boundSources s)) <;> rfl

/-- The host has produced no sample of the picked source: the reader waits, and counts it once. -/
def pickWaits (s : State) : State :=
  if s.adm.waitingHost then s else bump (cntDev 29) 1 { s with adm := { s.adm with waitingHost := true } }

/-- Sample `n` of source `p` takes slot `k`. -/
def picked (p n k : Nat) (s : State) : State :=
  modSlot k (fun r => { slotD 0 with source := p, state := 1, sample := n, use := r.use })
    (afterPick p { s with adm := { s.adm with waitingHost := false, pick := some (p, n, k) } })

/-- A pick is the wait of the reader, or the pick and the reader's question (R189, R190). -/
theorem admissionPick_acts {n p k : Nat} {x : Source} {s : State} (runs : admitting s = true) (free : s.adm.pick = none)
    (hp : pickSource (gainCredit (boundSources s)) = some p) (hx : source s p = some x) (hk : freeSlot s = some k) :
    admissionPick n s = if isReader s && decide (n ≤ x.next) then pickWaits s else askSample p x.next (picked p x.next k s) := by
  unfold admissionPick
  rw [runs, free, hp, hk]
  dsimp only
  rw [hx]
  rfl

/-! ### What a pick leaves -/

/-- The reader's question for the descriptor of sample `n` of a source. -/
def sampleAsked (n : Nat) (x : Source) (s : State) : List Output :=
  if isReader s = true then [Output.hostRead (x.ring + 32 * (n % 2 ^ x.log2)) 32] else []

theorem askSample_out {p n : Nat} {x : Source} {s : State} (hx : source s p = some x) :
    askSample p n s = { s with out := sampleAsked n x s ++ s.out } := by
  unfold askSample sampleAsked
  rw [hx]
  cases h : isReader s <;> simp [emit]

/-- A pick changes the slot, the pick, the sources' credits and the picked source's next sample, and what the reader asks. -/
theorem picked_spec {p k : Nat} {x : Source} {s : State} (hp : p < 16) (hx : source s p = some x) :
    ∃ t, askSample p x.next (picked p x.next k s) = t ∧ t.adm.pick = some (p, x.next, k) ∧
      slot t k = { slotD 0 with source := p, state := 1, sample := x.next, use := (slot s k).use } ∧
      (∀ j, j ≠ k → slot t j = slot s j) ∧
      (∀ i y, i < 16 → source s i = some y → source t i = some (if i = p
        then { y with credit := y.credit + y.weight - (boundSources s).foldl (fun (m : Int) y => m + y.2.weight) 0, next := y.next + 1 }
        else { y with credit := y.credit + y.weight })) ∧
      t.out = sampleAsked x.next x s ++ s.out ∧
      t = { s with adm := { s.adm with waitingHost := false, pick := t.adm.pick, slots := t.adm.slots }, sources := t.sources, out := t.out } := by
  obtain ⟨credits, rest⟩ := afterPick_spec p { s with adm := { s.adm with waitingHost := false, pick := some (p, x.next, k) } } _ rfl
  unfold picked
  generalize afterPick p { s with adm := { s.adm with waitingHost := false, pick := some (p, x.next, k) } } = u at credits rest ⊢
  have adm : u.adm = { s.adm with waitingHost := false, pick := some (p, x.next, k) } := by rw [rest]
  have slots : ∀ j, slot u j = slot s j := fun j => by unfold slot; rw [adm]
  refine ⟨_, rfl, ?_⟩
  rw [askSample_out (s := modSlot k _ u) (credits p x hp hx), if_pos rfl]
  refine ⟨by show u.adm.pick = _; rw [adm], ?_, fun j hj => (slot_modSlot_ne u _ hj).trans (slots j), credits, ?_, ?_⟩
  · show slot (modSlot k _ u) k = _
    rw [slot_modSlot_self, slots]
  · have reads : isReader (modSlot k (fun r => { slotD 0 with source := p, state := 1, sample := x.next, use := r.use }) u) = isReader s := by
      rw [rest]; rfl
    have out : u.out = s.out := by rw [rest]
    unfold sampleAsked
    rw [reads]
    exact congrArg _ out
  · rw [rest]; rfl

/-- Settles O57: `pickSource_max` and `freeSlot_least` give the pick and its slot, `picked_spec` what it leaves. -/
theorem admissionPicks : Obligations.AdmissionPicks := by
  refine ⟨fun n s h => by rw [exec_admissionPick, admissionPick_idle h], fun n s p k x runs free hp hx best hk0 hk least => ?_⟩
  have acts := admissionPick_acts (n := n.toNat) runs free (pickSource_max hp hx best) hx (freeSlot_least hk0 hk least)
  refine ⟨fun reader empty => ?waits, fun h => ?picks⟩
  case waits =>
    rw [exec_admissionPick, acts, if_pos (by simp [reader, empty])]
    refine ⟨fun w => by rw [pickWaits, if_pos w], fun w => ?_⟩
    have counts := bump_countsOnly (cntDev 29) 1 { s with adm := { s.adm with waitingHost := true } }
    have adm := congrArg State.adm counts.rest
    refine ⟨_, by rw [pickWaits, if_neg (by simp [w])], adm, ?_, ?_⟩
    · rw [adm]
    · rw [adm]; exact counts
  case picks =>
    obtain ⟨t, ht, pick, taken, slots, credits, out, rest⟩ := picked_spec (k := k) hp hx
    refine ⟨t, ?_, pick, taken, slots, (credits p x hp hx).trans (by rw [if_pos rfl]),
      fun i y hi hne hy => (credits i y hi hy).trans (by rw [if_neg hne]), out, rest⟩
    rw [exec_admissionPick, acts, if_neg, ht]
    rcases h with h | h
    · simp [h]
    · simp [h]

end Sys2Proof.Machine
end

section
/-! PROOFS. SAMPLE_TOKENS_READ: the checks of a sample, its refusal, its packing and its tokens (R188, R189, R191, R192, R193). -/

namespace Sys2Proof.Machine

open Sys2Proof

theorem exec_sampleTokensRead (desc tokens : List Byte) (s : State) :
    exec (.sampleTokensRead desc tokens) s = .next (sampleTokens desc tokens s) := rfl

/-! ### The checks (R189, R191) -/

theorem sampleCode_tooLong {pk : Pkg} {seqMax len : Nat} {toks : List Int} (h : seqMax < len) : sampleCode pk seqMax len toks = 1 := if_pos h

theorem sampleCode_tooShort {pk : Pkg} {seqMax len : Nat} {toks : List Int} (h : len ≤ seqMax) (h' : len < 2) :
    sampleCode pk seqMax len toks = 2 := (if_neg (Nat.not_lt.2 h)).trans (if_pos h')

/-- A token has a row of every embedding table (R191). -/
def tokenOk (pk : Pkg) (v : Int) : Prop := 0 ≤ v ∧ ∀ n, embedRows pk = some n → v < n

/-- The check of one token. -/
def tokenRefused (pk : Pkg) (v : Int) : Bool :=
  decide (v < 0) || match embedRows pk with | some n => decide ((n : Int) ≤ v) | none => false

theorem tokenRefused_iff (pk : Pkg) (v : Int) : tokenRefused pk v = true ↔ ¬ tokenOk pk v := by
  unfold tokenRefused tokenOk
  cases embedRows pk with
  | none => simp
  | some n => simp; omega

/-- With a length that is permitted, the tokens decide. -/
theorem sampleCode_permitted {pk : Pkg} {seqMax len : Nat} (toks : List Int) (h : len ≤ seqMax) (h' : 2 ≤ len) :
    sampleCode pk seqMax len toks = if toks.any (tokenRefused pk) then 3 else 0 :=
  (if_neg (Nat.not_lt.2 h)).trans (if_neg (Nat.not_lt.2 h'))

theorem sampleCode_tokens {pk : Pkg} {seqMax len : Nat} {toks : List Int} (h : len ≤ seqMax) (h' : 2 ≤ len) :
    ((∃ v ∈ toks, ¬ tokenOk pk v) → sampleCode pk seqMax len toks = 3) ∧
    ((∀ v ∈ toks, tokenOk pk v) → sampleCode pk seqMax len toks = 0) := by
  rw [sampleCode_permitted toks h h']
  refine ⟨fun ⟨v, hv, bad⟩ => if_pos (List.any_eq_true.2 ⟨v, hv, (tokenRefused_iff pk v).2 bad⟩), fun all => if_neg fun refused => ?_⟩
  obtain ⟨v, hv, bad⟩ := List.any_eq_true.1 refused
  exact (tokenRefused_iff pk v).1 bad (all v hv)

/-! ### What arrives (R189, R191) -/

/-- The reader's question for the tokens of a sample whose length is permitted. -/
def tokensAsked (desc : List Byte) (seqMax : Nat) (s : State) : List Output :=
  if isReader s = true ∧ 2 ≤ leAt desc 8 4 ∧ leAt desc 8 4 ≤ seqMax then [Output.hostRead (leAt desc 0 8) (4 * leAt desc 8 4)] else []

theorem askTokens_eq (desc : List Byte) (seqMax : Nat) (s : State) :
    askTokens desc seqMax s = { s with out := tokensAsked desc seqMax s ++ s.out } := by
  unfold askTokens tokensAsked
  extract_lets n
  by_cases h : isReader s = true ∧ 2 ≤ n ∧ n ≤ seqMax
  · rw [if_pos h, if_pos (by simp [h])]; rfl
  · rw [if_neg h, if_neg (by simpa [and_assoc] using h)]; rfl

theorem sampleTokens_idle {desc tokens : List Byte} {s : State} (h : admitting s = false ∨ s.adm.pick = none ∨ s.pkg = none ∨ s.plan = none) :
    sampleTokens desc tokens s = s := by
  unfold sampleTokens
  rcases h with h | h | h | h
  · rw [h]; rfl
  · rw [h]; exact ite_self s
  · rw [h]; split
    · rfl
    · cases s.adm.pick <;> rfl
  · rw [h]; split
    · rfl
    · cases s.adm.pick <;> cases s.pkg <;> rfl

section

variable {desc tokens : List Byte} {s : State} {p n k : Nat} {pk : Pkg} {pl : Plan} {x : Source} {toks : List Int}

/-- With its checks passed a sample is admitted, else refused; the reader has asked for its tokens. -/
theorem sampleTokens_acts (runs : admitting s = true) (hpick : s.adm.pick = some (p, n, k)) (hpk : s.pkg = some pk) (hpl : s.plan = some pl)
    (hx : source s p = some x) (htoks : toks = tokensOf (min (leAt desc 8 4) 65536) (padTo (4 * min (leAt desc 8 4) 65536) tokens)) :
    (sampleCode pk x.seqMax (leAt desc 8 4) toks = 0 → sampleTokens desc tokens s =
      admitSample pk pl p k (leAt desc 8 4) (leAt desc 0x10 8) toks (padTo (4 * min (leAt desc 8 4) 65536) tokens)
        { s with out := tokensAsked desc x.seqMax s ++ s.out }) ∧
    (∀ c, sampleCode pk x.seqMax (leAt desc 8 4) toks = c → c ≠ 0 → sampleTokens desc tokens s =
      refuseSample p n k c (leAt desc 0x10 8) { s with out := tokensAsked desc x.seqMax s ++ s.out }) := by
  subst htoks
  rw [← askTokens_eq]
  unfold sampleTokens
  rw [runs, hpick, hpk, hpl]
  dsimp only
  rw [hx]
  refine ⟨fun h => by rw [h]; rfl, fun c h h0 => ?_⟩
  rw [h]
  cases c with
  | zero => exact absurd rfl h0
  | succ c => rfl

end

/-! ### Refusal (R189, R191) -/

/-- The reader counts and logs a refused sample. -/
def noteRefused (p n code id : Nat) (s : State) : State :=
  if isReader s then
    logEv 0x0904 (b4 p ++ b8 n ++ b8 id ++ b4 code) (bump (cntDev 25) 1 { s with adm := { s.adm with refused := s.adm.refused + 1 } })
  else s

theorem noteRefused_counts (p n code id : Nat) (s : State) :
    CountsOnly { s with adm := { s.adm with refused := s.adm.refused + b2n (isReader s) } } (noteRefused p n code id s) := by
  unfold noteRefused
  cases isReader s with
  | true => exact (bump_countsOnly ..).trans (logEv_countsOnly ..)
  | false => exact .refl s

theorem noteRefused_logs {s : State} (p n code id : Nat) (reader : isReader s = true) (h : s.dev ≠ .recovery) :
    s.log.next < (noteRefused p n code id s).log.next := by
  unfold noteRefused
  rw [if_pos reader]
  have dev : (bump (cntDev 25) 1 { s with adm := { s.adm with refused := s.adm.refused + 1 } }).dev ≠ .recovery := by
    rw [bump_dev]; exact h
  exact Nat.lt_of_le_of_lt (bump_next (cntDev 25) 1 { s with adm := { s.adm with refused := s.adm.refused + 1 } }) (logEv_next _ _ _ dev)

theorem Grows.writeCounts (p : Nat) (s : State) : Grows s (writeCounts p s) := by
  unfold Machine.writeCounts
  split
  · split
    · exact .emit ..
    · exact .refl s
  · exact .refl s

theorem Grows.pickDone (p : Nat) (s : State) : Grows s (pickDone p s) := ⟨fun o ho => (Grows.writeCounts p _).sent o ho⟩

/-- The record of a slot that is free again. -/
def freed (r : SlotRec) : SlotRec := { slotD 0 with use := r.use }

theorem refuseSample_eq (p n k code id : Nat) (s : State) :
    refuseSample p n k code id s = pickDone p (noteRefused p n code id (modSlot k freed s)) := rfl

/-- A refused sample frees its slot, counts as admitted, and is noted by the reader. -/
theorem refuseSample_spec {s : State} {p : Nat} {x : Source} (n k code id : Nat) (hx : source s p = some x) :
    ∃ t, refuseSample p n k code id s = t ∧ t.adm.pick = none ∧
      slot t k = freed (slot s k) ∧ (∀ j, j ≠ k → slot t j = slot s j) ∧
      source t p = some { x with admitted := x.admitted + 1 } ∧ (∀ i, i ≠ p → source t i = source s i) ∧
      t.adm.refused = s.adm.refused + b2n (isReader s) ∧ (isReader s = true → s.dev ≠ .recovery → s.log.next < t.log.next) ∧
      t = { s with adm := { s.adm with pick := none, slots := t.adm.slots, refused := t.adm.refused }, sources := t.sources, cnt := t.cnt,
                   log := t.log, host := t.host, out := t.out } ∧ Grows s t := by
  have noted := noteRefused_counts p n code id (modSlot k freed s)
  have logs : isReader s = true → s.dev ≠ .recovery → s.log.next < (noteRefused p n code id (modSlot k freed s)).log.next :=
    noteRefused_logs (s := modSlot k freed s) p n code id
  rw [refuseSample_eq]
  generalize noteRefused p n code id (modSlot k freed s) = v at noted logs ⊢
  have adm : v.adm = { (modSlot k freed s).adm with refused := s.adm.refused + b2n (isReader s) } := by rw [noted.rest]; rfl
  have sources : ∀ i, source v i = source s i := fun i => by rw [noted.rest]; rfl
  have grows := Grows.pickDone p v
  obtain ⟨rest, counted, others, -⟩ := pickDone_spec p v x ((sources p).trans hx) _ rfl
  generalize pickDone p v = t at rest counted others grows
  have slots : ∀ j, slot t j = slot (modSlot k freed s) j := fun j => by unfold slot; rw [rest, adm]
  refine ⟨t, rfl, by rw [rest], (slots k).trans (slot_modSlot_self ..), fun j hj => (slots j).trans (slot_modSlot_ne s _ hj), counted,
    fun i hi => (others i hi).trans (sources i), by rw [rest, adm], fun reader dev => by rw [rest]; exact logs reader dev, ?_,
    .trans (.of (by rw [noted.rest]; rfl)) grows⟩
  rw [rest, adm, noted.rest]
  rfl

/-! ### Admission (R188, R193) -/

theorem place_fits {mbTokens mbPer len : Nat} {a : AdmSt} (h : a.fill + len ≤ mbTokens) :
    place mbTokens mbPer len a = ({ a with fill := a.fill + len, count := a.count + 1 }, (a.step, a.mb, a.fill)) := if_pos h

theorem place_nextBatch {mbTokens mbPer len : Nat} {a : AdmSt} (h : mbTokens < a.fill + len) (h' : a.mb + 1 < mbPer) :
    place mbTokens mbPer len a = ({ a with mb := a.mb + 1, fill := len, count := a.count + 1 }, (a.step, a.mb + 1, 0)) :=
  (if_neg (Nat.not_le.2 h)).trans (if_pos h')

theorem place_nextStep {mbTokens mbPer len : Nat} {a : AdmSt} (h : mbTokens < a.fill + len) (h' : mbPer ≤ a.mb + 1) :
    place mbTokens mbPer len a = ({ a with step := a.step + 1, mb := 0, fill := len, count := 1 }, (a.step + 1, 0, 0)) :=
  (if_neg (Nat.not_le.2 h)).trans (if_neg (Nat.not_lt.2 h'))

/-- The record of an admitted sample's slot: active where its step runs. -/
def admittedSlot (g : Segment) (len : Nat) (s : State) (r : SlotRec) : SlotRec :=
  { r with state := if g.step = s.run.step ∧ inRun s = true then 3 else 2, mb := g.mb, step := g.step, length := len, fetched := len }

theorem admittedSlot_eq (g : Segment) (len : Nat) (s : State) (r : SlotRec) : admittedSlot g len s r =
    { r with state := if g.step = s.run.step && inRun s then 3 else 2, mb := g.mb, step := g.step, length := len, fetched := len } := by
  unfold admittedSlot
  simp only [Bool.and_eq_true, decide_eq_true_eq]

/-- The tokens are written, the packing goes on, the slot holds the sample, its pick is done with, and the reader reports it. -/
theorem admitSample_eq (pk : Pkg) (pl : Plan) (p k len id : Nat) (toks : List Int) (bytes : List Byte) (s : State) :
    admitSample pk pl p k len id toks bytes s = sendSample k (newSegment pk pl k len s) bytes (pickDone p
      (modSlot k (admittedSlot (newSegment pk pl k len s) len s)
        { s with mem := (writeAll (admitWrites pk pl k len toks s) s).mem, adm := packed pk pl k len id s })) := by
  unfold admitSample
  rw [writeAll_eq, funext (admittedSlot_eq (newSegment pk pl k len s) len s)]
  rfl

/-- An admitted sample: its tokens, its slot, the packing, the counts of its source, and the reader's report. -/
theorem admitSample_spec {s : State} {p : Nat} {x : Source} (pk : Pkg) (pl : Plan) (k len id : Nat) (toks : List Int) (bytes : List Byte)
    (hx : source s p = some x) :
    ∃ t, admitSample pk pl p k len id toks bytes s = t ∧ t.adm = { packed pk pl k len id s with pick := none, slots := t.adm.slots } ∧
      slot t k = admittedSlot (newSegment pk pl k len s) len s (slot s k) ∧ (∀ j, j ≠ k → slot t j = slot s j) ∧
      source t p = some { x with admitted := x.admitted + 1 } ∧ (∀ i, i ≠ p → source t i = source s i) ∧
      (isReader s = true → x.cons ≠ 0 → hostRange s x.cons 16 = true →
        Output.hostWrite x.cons (b8 (x.admitted + 1) ++ b8 x.released) ∈ t.out) ∧
      (∀ y, ¬ logRing y → memByte t y = memByte (writeAll (admitWrites pk pl k len toks s) s) y) ∧
      FlowOnly { s with adm := t.adm, sources := t.sources, mem := t.mem } t ∧ Grows s t := by
  rw [admitSample_eq]
  have written := writeAll_eq (admitWrites pk pl k len toks s) s
  generalize (writeAll (admitWrites pk pl k len toks s) s).mem = m at written ⊢
  have kept : ∀ j, slot { s with mem := m, adm := packed pk pl k len id s } j = slot s j := fun j =>
    congrArg (fun l => sget slotD l j) (packed_slots pk pl k len id s)
  have slots : ∀ j, slot (modSlot k (admittedSlot (newSegment pk pl k len s) len s) { s with mem := m, adm := packed pk pl k len id s }) j =
      if j = k then admittedSlot (newSegment pk pl k len s) len s (slot s k) else slot s j := fun j => by
    by_cases h : j = k
    · rw [if_pos h, h, slot_modSlot_self, kept]
    · rw [if_neg h, slot_modSlot_ne _ _ h, kept]
  generalize hv : modSlot k (admittedSlot (newSegment pk pl k len s) len s) { s with mem := m, adm := packed pk pl k len id s } = v at slots ⊢
  have done := pickDone_spec p v x (by rw [← hv]; exact hx) _ rfl
  have grown := Grows.pickDone p v
  generalize pickDone p v = u at done grown ⊢
  obtain ⟨rest, counted, others, told⟩ := done
  have flow := flow_sendSample k (newSegment pk pl k len s) bytes u
  have sent := grows_sendSample k (newSegment pk pl k len s) bytes u
  generalize sendSample k (newSegment pk pl k len s) bytes u = t at flow sent ⊢
  have adm : t.adm = u.adm := by rw [flow.rest]
  have sources : ∀ i, source t i = source u i := fun i => by rw [flow.rest]; rfl
  have tslots : ∀ j, slot t j = slot v j := fun j => by unfold slot; rw [adm, rest]
  refine ⟨t, rfl, ?_, (tslots k).trans ((slots k).trans (if_pos rfl)), fun j hj => (tslots j).trans ((slots j).trans (if_neg hj)),
    (sources p).trans counted, fun i hi => (sources i).trans ((others i hi).trans (by rw [← hv]; rfl)), ?_, fun y hy => ?_, ?_, ?_⟩
  · rw [adm, rest, ← hv]; rfl
  · intro reader cons range
    refine sent.sent _ (told ?_ cons ?_)
    · rw [← hv]; exact reader
    · rw [← hv]; exact range
  · refine (flow.mem y hy).trans (memByte_congr y ?_ ?_ ?_ ?_) <;> rw [rest, ← hv, written] <;> rfl
  · exact .of (by rw [flow.rest, rest, ← hv]; rfl)
  · exact .trans (.trans (.of (by rw [← hv]; rfl)) grown) sent

/-- Settles O58: the checks by `sampleCode_tokens`, a refusal by `refuseSample_spec`, an admission by `admitSample_spec`, the
packing by its three places. -/
theorem sampleTokensRead : Obligations.SampleTokens := by
  refine ⟨fun desc tokens s h => by rw [exec_sampleTokensRead, sampleTokens_idle h], ?reads,
    fun pk seqMax len toks => ⟨sampleCode_tooLong, sampleCode_tooShort, fun h h' => ?checks⟩,
    fun mbTokens mbPer len a => ⟨place_fits, place_nextBatch, place_nextStep⟩⟩
  case reads =>
    intro desc tokens s p n k len pk pl x toks runs hpick hpk hpl hx hlen htoks asked hasked
    subst hlen
    obtain ⟨admits, refuses⟩ := sampleTokens_acts runs hpick hpk hpl hx htoks
    have out : asked = tokensAsked desc x.seqMax s := hasked
    refine ⟨fun c hc h0 => ?_, fun h0 g hg => ?_⟩
    · obtain ⟨t, ht, pick, freed, slots, counted, sources, refused, logged, rest, grows⟩ :=
        refuseSample_spec (s := { s with out := tokensAsked desc x.seqMax s ++ s.out }) n k c (leAt desc 0x10 8) hx
      exact ⟨t, by rw [exec_sampleTokensRead, refuses c hc h0, ht], pick, freed, slots, counted, sources, refused, logged, rest,
        fun y hy => grows.sent y (List.mem_append_left _ (out ▸ hy))⟩
    · obtain ⟨t, ht, adm, taken, slots, counted, sources, told, mem, flow, grows⟩ :=
        admitSample_spec (s := { s with out := tokensAsked desc x.seqMax s ++ s.out }) pk pl k (leAt desc 8 4) (leAt desc 0x10 8) toks
          (padTo (4 * min (leAt desc 8 4) 65536) tokens) hx
      subst hg
      refine ⟨t, by rw [exec_sampleTokensRead, admits h0, ht], adm, taken, slots, counted, sources, told, fun l r a b hw hr hp => ?_,
        fun y hy hout => (mem y hy).trans (writeAll_ne _ _ hout), ?_, fun y hy => grows.sent y (List.mem_append_left _ (out ▸ hy))⟩
      · exact (memBytes_congr fun j hj => mem _ (hp j hj).2).trans ((congrArg (fun w => memBytes (writeAll w _) a b.length) hw).trans
          (writeAll_mem l r a b _ hr hp))
      · exact ⟨flow.rest, flow.mem⟩
  case checks =>
    obtain ⟨bad, good⟩ := sampleCode_tokens (pk := pk) (toks := toks) h h'
    refine ⟨fun ⟨v, hv, hb⟩ => bad ⟨v, hv, fun ok => ?_⟩, good⟩
    rcases hb with hb | ⟨n, hn, hb⟩
    · exact absurd ok.1 (Int.not_le.2 hb)
    · exact absurd (ok.2 n hn) (Int.not_lt.2 hb)

end Sys2Proof.Machine
end

section
/-! PROOFS. LOAD_PACKAGE and BIND_SOURCE (R177, R178, R187, R249, R343, R350). -/

namespace Sys2Proof.Machine

open Sys2Proof

/-! ### LOAD_PACKAGE (R178) -/

/-- LOAD_PACKAGE past the checks of its entry, its states and its addresses runs the checks of the package. -/
theorem exec_loadPackage {q : RingId} {data : HostData} {e : List Byte} {s : State} (hf : Front s q 1 e)
    (hd : s.dev ∈ [DevState.idle, .loaded, .planned, .stopped]) (ha : avsBlocks s = false) (hz : zeroAt e 0x18 40 = true) :
    exec (.loadPackage q data) s = .next (loadBody q data e s) := by
  refine congrArg Host.Outcome.next (ringCommand_runs hf (fun h => ?_) hz ?_)
  · rw [h] at hd; simp at hd
  · rw [powersUp_none ha]; exact statesRun_mem hd

section

variable {q : Nat} {data : HostData} {e d : List Byte} {s : State} (hr : hostRange s (leAt e 8 8) (leAt e 0x10 8) = true)
  (hp : data.poison = false) (hn : leAt e 0x10 8 ≤ 2 ^ 32) (hd : d = padTo (leAt e 0x10 8) data.bytes)

include hr hp hn hd

theorem loadBody_loads {p : Pkg} (h : checkPkg d (leAt e 0x10 8) = (0, some p, none)) :
    loadBody q data e s = complete q 0 [] (loadPkg p d s) := by
  subst hd
  unfold loadBody
  simp only [hr, hp, if_pos hn, h, Bool.not_true, Bool.false_eq_true, if_false]

/-- A package that fails its checks is logged where a record is named, and completes with its code. -/
theorem loadBody_fails {code : Nat} {w : Option (Nat × Nat)} (h : checkPkg d (leAt e 0x10 8) = (code, none, w)) (h0 : code ≠ 0) :
    ∃ v, loadBody q data e s = complete q code [] v ∧ CountsOnly s v := by
  subst hd
  unfold loadBody
  simp only [hr, hp, if_pos hn, h, Bool.not_true, Bool.false_eq_true, if_false]
  cases code with
  | zero => exact absurd rfl h0
  | succ code =>
    cases w with
    | none => exact ⟨s, rfl, .refl s⟩
    | some w => exact ⟨_, rfl, logEv_countsOnly ..⟩

end

/-- The package's bytes enter its region, and every core group is on. -/
theorem loadPkg_stores (d : List Byte) (s : State) : ∃ g u, CountsOnly (memStore (pkgRegion s) d s) u ∧
    allGroupsOn (countRange true (pkgRegion s) d.length (memStore (pkgRegion s) d s)) = { u with pwr := { u.pwr with groups := g } } := by
  obtain ⟨g, hg⟩ := allGroupsOn_eq (countRange true (pkgRegion s) d.length (memStore (pkgRegion s) d s))
  exact ⟨g, _, countRange_counts .., hg⟩

/-- A loaded package: its bytes, the sources unbound, no plan, and no core touched. -/
theorem loadPkg_spec (p : Pkg) (d : List Byte) (s : State) :
    ∃ v, loadPkg p d s = v ∧ v.pkg = some p ∧ v.plan = none ∧ v.sources = [] ∧ v.dev = .loaded ∧ v.adm = {} ∧ v.run = {} ∧
      v.cores = s.cores ∧ memBytes v (pkgRegion s) d.length = d ∧
      ∀ x, ¬ logRing x → x < pkgRegion s ∨ pkgRegion s + d.length ≤ x → memByte v x = memByte s x := by
  obtain ⟨g, u, counts, on⟩ := loadPkg_stores d s
  have kept : ∀ x, ¬ logRing x → memByte (loadPkg p d s) x = memByte (memStore (pkgRegion s) d s) x := fun x hx => by
    refine (memByte_congr (s := u) x ?_ ?_ ?_ ?_).trans (counts.mem x hx) <;> rw [loadPkg, on]
  refine ⟨_, rfl, rfl, rfl, rfl, rfl, rfl, rfl, ?_, ?_, fun x hx hout => (kept x hx).trans (memByte_memStore_ne s _ d hx hout)⟩
  · rw [loadPkg, on]
    exact counts.cores.trans (by rw [(MemOnly.memStore (pkgRegion s) d s).rest])
  · exact (memBytes_congr fun i _ => kept _ (pkgRegion_plain s i).2).trans (memBytes_memStore s _ d fun i _ => pkgRegion_plain s i)

/-! ### BIND_SOURCE (R113, R187) -/

/-- What BIND_SOURCE asks of its entry's fields, for a package of `mbTokens` tokens to a micro-batch (R187). -/
structure BindOk (s : State) (mbTokens : Nat) (e : List Byte) : Prop where
  number : leAt e 8 1 ≤ 15
  weight : 1 ≤ leAt e 9 1
  log2 : 8 ≤ leAt e 0x20 4 ∧ leAt e 0x20 4 ≤ 24
  ring : leAt e 0x18 8 ≠ 0 → leAt e 0x18 8 % 32 = 0 ∧ hostRange s (leAt e 0x18 8) (32 * 2 ^ leAt e 0x20 4) = true
  prod : leAt e 0x28 8 ≠ 0 → leAt e 0x28 8 % 8 = 0 ∧ hostRange s (leAt e 0x28 8) 8 = true
  cons : leAt e 0x30 8 ≠ 0 → leAt e 0x30 8 % 16 = 0 ∧ hostRange s (leAt e 0x30 8) 16 = true
  seqMax : 2 ≤ leAt e 0xC 4 ∧ leAt e 0xC 4 ≤ mbTokens
  seed : leAt e 0x10 8 ≠ 0
  unique : ∀ i x, i < 16 → i ≠ leAt e 8 1 → source s i = some x → x.seed ≠ leAt e 0x10 8

/-- The source that an entry binds. -/
def boundSource (e : List Byte) : Source :=
  { weight := leAt e 9 1, seqMax := leAt e 0xC 4, seed := leAt e 0x10 8, ring := leAt e 0x18 8, log2 := leAt e 0x20 4
    prod := leAt e 0x28 8, cons := leAt e 0x30 8, credit := 0, next := 0, admitted := 0, released := 0 }

theorem source_set (s : State) (i j : Nat) (x : Option Source) :
    source { s with sources := sset srcD s.sources i x } j = if j = i then x else source s j := sget_sset ..

/-- Where an address of 0 stands for none, it is aligned, and its range is good or it is none. -/
theorem aligned_of {n a : Nat} {range : Bool} (h : a ≠ 0 → a % n = 0 ∧ range = true) : a % n = 0 ∧ (a != 0 && !range) = false := by
  by_cases h0 : a = 0
  · subst h0; simp
  · simp [h h0]

theorem bindBody_binds {q : Nat} {e : List Byte} {s : State} {pk : Pkg} (hpk : s.pkg = some pk) (ok : BindOk s pk.mbTokens e) :
    bindBody q e s = complete q 0 [] { s with sources := sset srcD s.sources (leAt e 8 1) (some (boundSource e)) } := by
  obtain ⟨hi, hw, ⟨hl, hl'⟩, hring, hprod, hcons, ⟨hq, hq'⟩, hseed, hother⟩ := ok
  obtain ⟨ring, ringRange⟩ := aligned_of hring
  obtain ⟨prod, prodRange⟩ := aligned_of hprod
  obtain ⟨cons, consRange⟩ := aligned_of hcons
  have range : (decide (8 ≤ leAt e 0x20 4) && decide (leAt e 0x20 4 ≤ 24)) = true := by simp [hl, hl']
  unfold bindBody
  simp only [range, if_true, ringRange, prodRange, consRange, Bool.or_self, Bool.false_eq_true, if_false, hpk]
  rw [if_neg, if_neg, if_neg]
  · rfl
  · simp only [hseed, decide_false, Bool.false_or, List.any_eq_true, not_exists, not_and]
    intro i hi16 taken
    obtain ⟨hne, taken⟩ : i ≠ leAt e 8 1 ∧ _ := by simpa using taken
    cases hx : source s i with
    | none => rw [hx] at taken; cases taken
    | some x => rw [hx] at taken; exact hother i x (List.mem_range.1 hi16) hne hx (by simpa using taken)
  · omega
  · simp [ring, prod, cons]; omega

/-- Settles O28: a package's checks decide between `loadPkg` and a reply; a bind that its checks allow writes one source. -/
theorem packageCommand : Obligations.PackageCommand := by
  refine ⟨fun q data e s hf hd ha hz hr hp hn d hd' => ⟨fun p h => ?loads, fun code w h h0 => ?fails⟩,
    fun q e s pk hf hd hz1 hz2 hz3 hpk hi hw hl hl' hring hprod hcons hq hq' hseed hother => ?binds⟩
  case loads =>
    obtain ⟨v, hv, spec⟩ := loadPkg_spec p d s
    exact ⟨v, by rw [exec_loadPackage hf hd ha hz, loadBody_loads hr hp hn hd' h, hv], spec⟩
  case fails =>
    obtain ⟨v, hv, counts⟩ := loadBody_fails (q := q) hr hp hn hd' h h0
    exact ⟨v, by rw [exec_loadPackage hf hd ha hz, hv], counts.rest, counts.mem⟩
  case binds =>
    have binds := bindBody_binds (q := q) hpk ⟨hi, hw, ⟨hl, hl'⟩, hring, hprod, hcons, ⟨hq, hq'⟩, hseed, hother⟩
    have runs : exec (.bindSource q) s = .next (bindBody q e s) := by
      refine congrArg Host.Outcome.next (ringCommand_runs hf ?_ (by rw [hz1, hz2, hz3]; rfl) (statesRun_mem ?_))
      · rcases hd with h | h <;> simp [h]
      · rcases hd with h | h <;> simp [h]
    exact ⟨_, runs.trans (congrArg _ binds), rfl, (source_set ..).trans (if_pos rfl),
      fun i hi => (source_set ..).trans (if_neg hi)⟩

end Sys2Proof.Machine
end

section
/-! PROOFS. Stroke edges, phases and lock (R195, R207, R210, R212 to R216, R218, R238, R288, R293). -/

namespace Sys2Proof.Machine

open Sys2Proof

/-! ### An edge around its phases -/

/-- What the slot and the phases of an edge leave as it was; of the strokes, the slot and EASY may change. -/
structure Advances (c m : State) : Prop where
  dev : m.dev = c.dev
  start : m.run.startAt = c.run.startAt
  digest : m.link.digestSent = c.link.digestSent
  epoch : m.link.epoch = c.link.epoch
  plan : m.plan = c.plan
  regs : m.regs = c.regs
  mem : ∀ x, ¬ logRing x → memByte m x = memByte c x
  stroke : m.stroke = { c.stroke with
    easy := m.stroke.easy, easyRun := m.stroke.easyRun, lastRaiser := m.stroke.lastRaiser, lastEasy := m.stroke.lastEasy, slot := m.stroke.slot }

/-- The device once the counter has gone on, before the slot and the phases. -/
structure Closed (s c : State) : Prop where
  run : c.run = s.run
  plan : c.plan = s.plan
  dev : c.dev = s.dev
  red : c.red = s.red
  cores : c.cores = s.cores
  slot : c.stroke.slot = s.stroke.slot
  easyRun : c.stroke.easyRun = s.stroke.easyRun
  count : c.stroke.count = (s.stroke.count + 1) % 2 ^ 48
  held : resultsHeld c 2 = resultsHeld s 2
  carried : carriedRings c = carriedRings s
  enabled : enabledCores c = enabledCores s

/-- The edge of `s` has become `t` by way of `m`, whose run, reduction, strokes and arrays it has. -/
structure EdgeBy (s m t : State) : Prop where
  exec : exec .strokeEdge s = .next t
  ticked : Ticked s t
  dev : t.dev = s.dev
  run : t.run = m.run
  red : t.red = m.red
  stroke : t.stroke = m.stroke
  arrs : ∀ c a, arr t c a = arr m c a

/-- A plain edge: what `edge_spec` says, for phases that leave what `Advances` names. -/
theorem plainEdge_by {s : State} (P : PlainEdge s) : ∃ c, Closed s c ∧ ∀ m,
    m = (if (s.stroke.seen.filter fun x => x.1 == s.stroke.count).isEmpty then nextPhase (slotEdge c) else easyEdge c) → Advances c m →
      ∃ t, EdgeBy s m t := by
  obtain ⟨c, run, plan, dev, regs, red, link, cores, mem, stroke, ⟨held, carried, enabled⟩, edge⟩ := edge_spec s P
  refine ⟨c, ⟨run, plan, dev, red, cores, by rw [stroke], by rw [stroke], by rw [stroke], held, carried, enabled⟩, fun m hm A => ?_⟩
  obtain ⟨t, exec, ticked, calm, tdev⟩ := edge m hm A.dev (by rw [A.start, run]; exact P.start) (by rw [A.digest, link]; exact P.digest)
    (by rw [A.epoch, link]) A.plan A.regs A.mem ⟨_, _, _, _, _, A.stroke⟩
  exact ⟨t, exec, ticked, tdev, calm.run, calm.red, calm.stroke, calm.arrs⟩

/-! ### The slot and the phases of an edge -/

theorem Advances.trans {c u m : State} (h : Advances c u) (k : Advances u m) : Advances c m where
  dev := k.dev.trans h.dev
  start := k.start.trans h.start
  digest := k.digest.trans h.digest
  epoch := k.epoch.trans h.epoch
  plan := k.plan.trans h.plan
  regs := k.regs.trans h.regs
  mem x hx := (k.mem x hx).trans (h.mem x hx)
  stroke := by rw [k.stroke, h.stroke]

theorem Advances.sums {s u : State} (h : SumsOnly s u) : Advances s u := by
  have rest := h.rest
  exact ⟨by rw [rest], by rw [rest], by rw [rest], by rw [rest], by rw [rest], by rw [rest], h.mem, by rw [rest]⟩

theorem Advances.setPhase (p : Phase) (s : State) : Advances s (setPhase p s) := ⟨rfl, rfl, rfl, rfl, rfl, rfl, fun _ _ => rfl, rfl⟩

theorem Advances.startExchange (s : State) : Advances s (startExchange s) := by
  have only := startExchange_only s
  have rest := only.rest
  exact ⟨by rw [rest], by rw [rest], by rw [rest], by rw [rest], by rw [rest], by rw [rest], only.mem, by rw [rest]⟩

theorem Advances.refl (s : State) : Advances s s := ⟨rfl, rfl, rfl, rfl, rfl, rfl, fun _ _ => rfl, rfl⟩

/-- The device of a stroke of the schedule, its slot one on, before the phases. -/
structure Gone (s d : State) : Prop where
  run : d.run = s.run
  plan : d.plan = s.plan
  red : d.red = s.red
  slot : d.stroke.slot = s.stroke.slot + 1
  easy : d.stroke.easy = false ∧ d.stroke.easyRun = 0
  count : d.stroke.count = (s.stroke.count + 1) % 2 ^ 48
  held : resultsHeld d 2 = resultsHeld s 2
  carried : carriedRings d = carriedRings s

/-- Reduction strokes past the planned ones alone hold the slot (R293). -/
theorem slotHeld_iff {s : State} {p : Plan} (h : s.plan = some p) :
    slotHeld s = true ↔ s.run.phase = .reduction ∧ p.q ≤ slotsIn s + 1 ∧ s.run.redDone = false := by
  simp [slotHeld, h, and_assoc]

theorem Closed.inRun {s c : State} (h : Closed s c) : inRun c = inRun s := by unfold Machine.inRun; rw [h.dev]

theorem Closed.slotHeld {s c : State} (h : Closed s c) : slotHeld c = slotHeld s := by
  unfold Machine.slotHeld slotsIn
  rw [h.plan, h.run, h.slot]

section

variable {s : State} (P : PlainEdge s) (hin : inRun s = true)

include P

/-- A stroke of no marker: the slot and the phases. -/
theorem quietEdge (quiet : ∀ r, (s.stroke.count, r) ∉ s.stroke.seen) :
    ∃ c, Closed s c ∧ (Advances c (nextPhase (slotEdge c)) → ∃ t, EdgeBy s (nextPhase (slotEdge c)) t) := by
  obtain ⟨c, closed, edge⟩ := plainEdge_by P
  exact ⟨c, closed, edge _ (by rw [if_pos (seen_empty quiet)])⟩

/-- Before a run, a stroke leaves the slot and the run (R207). -/
theorem idleEdge (hout : inRun s = false) (quiet : ∀ r, (s.stroke.count, r) ∉ s.stroke.seen) :
    ∃ t, exec .strokeEdge s = .next t ∧ Ticked s t ∧ t.dev = s.dev ∧ t.stroke.slot = s.stroke.slot ∧ t.run = s.run ∧ t.red = s.red := by
  obtain ⟨c, closed, edge⟩ := quietEdge P quiet
  have noPlan : s.plan = none := P.where_.resolve_left (by simp [hout])
  rw [slotEdge_out (closed.inRun.trans hout)] at edge
  have stays : nextPhase { c with stroke := { c.stroke with easy := false, easyRun := 0 } } =
      { c with stroke := { c.stroke with easy := false, easyRun := 0 } } := by
    unfold nextPhase
    rw [show State.plan _ = none from closed.plan.trans noPlan]
  rw [stays] at edge
  obtain ⟨t, E⟩ := edge ⟨rfl, rfl, rfl, rfl, rfl, rfl, fun _ _ => rfl, rfl⟩
  exact ⟨t, E.exec, E.ticked, E.dev, by rw [E.stroke]; exact closed.slot, E.run.trans closed.run, E.red.trans closed.red⟩

include hin

/-- A stroke of the schedule, the slot of which goes on. -/
theorem goingEdge (quiet : ∀ r, (s.stroke.count, r) ∉ s.stroke.seen) (hh : slotHeld s = false) :
    ∃ d, Gone s d ∧ (Advances d (nextPhase d) → ∃ t, EdgeBy s (nextPhase d) t) := by
  obtain ⟨c, closed, edge⟩ := quietEdge P quiet
  rw [slotEdge_goes (closed.inRun.trans hin) (closed.slotHeld.trans hh)] at edge
  have goes : Advances c { c with stroke := { c.stroke with easy := false, easyRun := 0, slot := c.stroke.slot + 1 } } :=
    ⟨rfl, rfl, rfl, rfl, rfl, rfl, fun _ _ => rfl, rfl⟩
  exact ⟨{ c with stroke := { c.stroke with easy := false, easyRun := 0, slot := c.stroke.slot + 1 } },
    ⟨closed.run, closed.plan, closed.red, congrArg (· + 1) closed.slot, ⟨rfl, rfl⟩, closed.count, closed.held, closed.carried⟩,
    fun A => edge (goes.trans A)⟩

/-- A reduction stroke past the planned ones: the slot stands, and the extension is counted (R293). -/
theorem extendedEdge {p : Plan} (hp : s.plan = some p) (quiet : ∀ r, (s.stroke.count, r) ∉ s.stroke.seen) (hphase : s.run.phase = .reduction)
    (hdone : s.run.redDone = false) (hq : p.q ≤ s.stroke.slot - s.run.slotStart + 1) :
    ∃ t, exec .strokeEdge s = .next t ∧ Ticked s t ∧ t.dev = s.dev ∧ t.stroke.slot = s.stroke.slot ∧
      t.run = { s.run with redExt := s.run.redExt + 1 } ∧ t.red = s.red := by
  obtain ⟨c, closed, edge⟩ := quietEdge P quiet
  obtain ⟨m, hm, dev, run, plan, regs, link, red, mem, stroke⟩ := slotEdge_holds (closed.inRun.trans hin)
    (closed.slotHeld.trans ((slotHeld_iff hp).2 ⟨hphase, hq, hdone⟩)) (by rw [closed.run]; exact hphase)
  have waits : nextPhase m = m := nextPhase_waits (plan.trans (closed.plan.trans hp)) (by rw [run, closed.run]; exact hphase)
    (by rw [run, closed.run]; exact hdone)
  rw [hm, waits] at edge
  obtain ⟨t, E⟩ := edge ⟨dev, by rw [run], by rw [link], by rw [link], plan, regs, mem, by rw [stroke]⟩
  exact ⟨t, E.exec, E.ticked, E.dev, by rw [E.stroke, stroke]; exact closed.slot, by rw [E.run, run, closed.run],
    E.red.trans (red.trans closed.red)⟩

/-- An EASY stroke stands the slot still, and its arrays with nothing to do run a planned gap (R216). -/
theorem easyStroke {r : Nat} (seen : (s.stroke.count, r) ∈ s.stroke.seen) :
    ∃ t, exec .strokeEdge s = .next t ∧ Ticked s t ∧ t.dev = s.dev ∧ t.stroke.slot = s.stroke.slot ∧ t.stroke.easy = true ∧
      t.stroke.easyRun = s.stroke.easyRun + 1 ∧ t.run = { s.run with easy := s.run.easy + 1 } ∧ t.red = s.red ∧
      (∀ c a, c < enabledCores s → a < 4 → idleArr (arr s c a) → (arr t c a).gap = .planned) ∧
      ∀ c a, ¬ idleArr (arr s c a) → arr t c a = arr s c a := by
  obtain ⟨c, closed, edge⟩ := plainEdge_by P
  have under : underSchedule c = true := by
    have := closed.inRun.trans hin
    unfold underSchedule
    unfold Machine.inRun at this
    simp only [Bool.or_eq_true] at this ⊢
    tauto
  obtain ⟨m, hm, dev, run, plan, regs, link, red, mem, stroke, others, gaps⟩ := easyEdge_spec c under
  obtain ⟨t, E⟩ := edge m (by rw [if_neg (by simp [seen_some seen]), hm])
    ⟨dev, by rw [run], by rw [link], by rw [link], plan, regs, mem, by rw [stroke]⟩
  have arrs : ∀ k a, arr c k a = arr s k a := arr_of closed.cores
  refine ⟨t, E.exec, E.ticked, E.dev, by rw [E.stroke, stroke]; exact closed.slot, by rw [E.stroke, stroke],
    by rw [E.stroke, stroke]; exact congrArg (· + 1) closed.easyRun, by rw [E.run, run, closed.run], E.red.trans (red.trans closed.red),
    fun k a hk ha hi => ?_, fun k a hi => ?_⟩
  · rw [E.arrs]; exact gaps k a (by rw [closed.enabled]; exact hk) ha (by rw [arrs]; exact hi)
  · rw [E.arrs, others k a (by rw [arrs]; exact hi), arrs]

end

/-! ### Phases that end (R195, R238, R288, R293) -/

section

variable {s : State} {p : Plan} (P : PlainEdge s) (hin : inRun s = true) (hp : s.plan = some p)
  (quiet : ∀ r, (s.stroke.count, r) ∉ s.stroke.seen)

include P hin hp quiet

theorem computeEdge (hphase : s.run.phase = .compute) (hc : s.stroke.slot + 1 - s.run.slotStart < p.c) :
    ∃ t, exec .strokeEdge s = .next t ∧ Ticked s t ∧ t.dev = s.dev ∧ t.stroke.slot = s.stroke.slot + 1 ∧ t.stroke.easy = false ∧
      t.stroke.easyRun = 0 ∧ t.run = s.run ∧ t.red = s.red := by
  obtain ⟨d, G, edge⟩ := goingEdge P hin quiet (by rw [← Bool.not_eq_true, slotHeld_iff hp]; simp [hphase])
  have stays : nextPhase d = d := nextPhase_compute (G.plan.trans hp) (by rw [G.run]; exact hphase) (by unfold slotsIn; rw [G.slot, G.run]; exact hc)
  rw [stays] at edge
  obtain ⟨t, E⟩ := edge (.refl d)
  exact ⟨t, E.exec, E.ticked, E.dev, by rw [E.stroke, G.slot], by rw [E.stroke]; exact G.easy.1, by rw [E.stroke]; exact G.easy.2,
    E.run.trans G.run, E.red.trans G.red⟩

theorem updateEdge (hphase : s.run.phase = .reduction) (hdone : s.run.redDone = true) :
    ∃ t, exec .strokeEdge s = .next t ∧ Ticked s t ∧ t.dev = s.dev ∧ t.stroke.slot = s.stroke.slot + 1 ∧
        t.run = { s.run with phase := .update, phaseStart := (s.stroke.count + 1) % 2 ^ 48, slotStart := s.stroke.slot + 1 } ∧
        t.red = { s.red with outq := t.red.outq, parts := t.red.parts, closed := t.red.closed, combined := t.red.combined
                             results := t.red.results, sums := t.red.sums } := by
  obtain ⟨d, G, edge⟩ := goingEdge P hin quiet (by rw [← Bool.not_eq_true, slotHeld_iff hp]; simp [hdone])
  have combines := SumsOnly.combineRound 1 (setPhase .update d)
  rw [nextPhase_update (G.plan.trans hp) (by rw [G.run]; exact hphase) (by rw [G.run]; exact hdone)] at edge
  obtain ⟨t, E⟩ := edge (.trans (.setPhase ..) (.sums combines))
  have rest := combines.rest
  generalize combineRound 1 (setPhase .update d) = m at rest E
  refine ⟨t, E.exec, E.ticked, E.dev, by rw [E.stroke, rest]; exact G.slot, ?_, ?_⟩
  · rw [E.run, rest]
    show { d.run with phase := .update, phaseStart := d.stroke.count, slotStart := d.stroke.slot } = _
    rw [G.run, G.count, G.slot]
  · rw [E.red, rest, ← G.red]; rfl

theorem exchangeEdge (hphase : s.run.phase = .distribution) (hdone : s.run.distDone = true) :
    ∃ t, exec .strokeEdge s = .next t ∧ Ticked s t ∧ t.dev = s.dev ∧ t.stroke.slot = s.stroke.slot + 1 ∧
        (∃ w, t.run = { s.run with phase := .exchange, phaseStart := (s.stroke.count + 1) % 2 ^ 48, slotStart := s.stroke.slot + 1
                                   carried := carriedRings s, sentRisk := w }) ∧
        t.red = { s.red with outq := t.red.outq, parts := t.red.parts, closed := t.red.closed, combined := t.red.combined
                             results := t.red.results, sums := t.red.sums } := by
  obtain ⟨d, G, edge⟩ := goingEdge P hin quiet (by rw [← Bool.not_eq_true, slotHeld_iff hp]; simp [hphase])
  have exchanges := startExchange_only (setPhase .exchange d)
  rw [nextPhase_exchange (G.plan.trans hp) (by rw [G.run]; exact hphase) (by rw [G.run]; exact hdone)] at edge
  obtain ⟨t, E⟩ := edge (.trans (.setPhase ..) (.startExchange _))
  have rest := exchanges.rest
  generalize startExchange (setPhase .exchange d) = m at rest E
  refine ⟨t, E.exec, E.ticked, E.dev, by rw [E.stroke, rest]; exact G.slot, ⟨d.res.risk, ?_⟩, ?_⟩
  · rw [E.run, rest]
    show { d.run with
      phase := .exchange, phaseStart := d.stroke.count, slotStart := d.stroke.slot, carried := carriedRings d, sentRisk := d.res.risk } = _
    rw [G.run, G.count, G.slot, G.carried]
  · rw [E.red, rest, ← G.red]; rfl

theorem boundaryEdge (hphase : s.run.phase = .exchange) (hx : p.x ≤ s.stroke.slot + 1 - s.run.slotStart) (held : resultsHeld s 2 = true) :
    ∃ t, exec .strokeEdge s = .next t ∧ Ticked s t ∧ t.dev = s.dev ∧ t.stroke.slot = s.stroke.slot + 1 ∧
        t.run = { s.run with phase := .boundary, phaseStart := (s.stroke.count + 1) % 2 ^ 48, slotStart := s.stroke.slot + 1 } ∧
        t.red = s.red := by
  obtain ⟨d, G, edge⟩ := goingEdge P hin quiet (by rw [← Bool.not_eq_true, slotHeld_iff hp]; simp [hphase])
  rw [nextPhase_boundary (G.plan.trans hp) (by rw [G.run]; exact hphase) (by unfold slotsIn; rw [G.slot, G.run]; exact hx)
    (G.held.trans held)] at edge
  obtain ⟨t, E⟩ := edge (.setPhase ..)
  refine ⟨t, E.exec, E.ticked, E.dev, E.stroke.trans rfl ▸ G.slot, ?_, E.red.trans G.red⟩
  rw [E.run, setPhase, G.run, G.count, G.slot]

theorem waitingEdge (hphase : s.run.phase = .exchange) (h : s.stroke.slot + 1 - s.run.slotStart < p.x ∨ resultsHeld s 2 = false) :
    ∃ t, exec .strokeEdge s = .next t ∧ Ticked s t ∧ t.dev = s.dev ∧ t.stroke.slot = s.stroke.slot + 1 ∧ t.run = s.run ∧
      t.red = s.red := by
  obtain ⟨d, G, edge⟩ := goingEdge P hin quiet (by rw [← Bool.not_eq_true, slotHeld_iff hp]; simp [hphase])
  have stays : nextPhase d = d := nextPhase_stays (G.plan.trans hp) (by rw [G.run]; exact hphase)
    (by unfold slotsIn; rw [G.slot, G.run, G.held]; exact h)
  rw [stays] at edge
  obtain ⟨t, E⟩ := edge (.refl d)
  exact ⟨t, E.exec, E.ticked, E.dev, by rw [E.stroke, G.slot], E.run.trans G.run, E.red.trans G.red⟩

end

/-! ### Lock (R210, R212 to R214) -/

theorem exec_strokeInEdge (g : Bool) (s : State) : exec (.strokeInEdge g) s = .next (if bitN (reg s 0x4000) 0 then
    { s with stroke := { s.stroke with inGood := if g then s.stroke.inGood + 1 else 0 } } else s) := rfl

/-- Lock is due after 16 good edges of STROKE_IN or good markers; at once for a master without SOURCE. -/
def lockDue (s : State) : Bool :=
  if s.stroke.master then !bitN (reg s 0x4000) 0 || decide (16 ≤ s.stroke.inGood) else !s.stroke.noParent && decide (16 ≤ s.stroke.good)

theorem exec_lockGained (s : State) : exec .lockGained s = .next (if !s.stroke.locked && lockDue s then
    setReady { s with stroke := { s.stroke with locked := true, numbered := true, bad := 0 } } else s) := rfl

theorem lockDue_iff (s : State) : lockDue s = true ↔ (s.stroke.master = true ∧ (bitN (reg s 0x4000) 0 = true → 16 ≤ s.stroke.inGood)) ∨
    (s.stroke.master = false ∧ s.stroke.noParent = false ∧ 16 ≤ s.stroke.good) := by
  unfold lockDue
  cases s.stroke.master <;> cases bitN (reg s 0x4000) 0 <;> simp

/-- With a START waiting, a device in lock is ready; without one lock changes nothing else (R209). -/
theorem setReady_locked {s : State} (h : s.stroke.locked = true) :
    (s.host.startRing = none → setReady s = s) ∧ (s.host.startRing.isSome → (setReady s).run.ready = true ∧
      (s.run.ready = false → (setReady s).dev = .starting) ∧
      setReady s = { s with run := { s.run with ready := true }, dev := (setReady s).dev }) := by
  unfold setReady
  refine ⟨fun hn => by rw [hn]; rfl, fun hr => ?_⟩
  cases hready : s.run.ready with
  | true =>
    have same : { s.run with ready := true } = s.run := by rw [← hready]
    simp [same, hready]
  | false => simp [hr, h]

/-- Out of lock, good markers count anew. -/
def unlocked (s : State) : State := { s with stroke := { s.stroke with locked := false, good := 0 } }

/-- What the loss of lock logs: the stroke and the offset to the parent. -/
def lossArgs (s : State) : List Byte := b8 s.stroke.count ++ b4 (toTwos 32 s.stroke.offset)

theorem exec_lockLost (s : State) : exec .lockLost s = .next (if s.stroke.locked && !s.stroke.noParent && decide (16 ≤ s.stroke.bad) then
    health 7 1 (logEv 0x0301 (lossArgs s) (unlocked s)) else s) := rfl

/-- Lock is lost: the loss counts towards the health monitor and is logged. -/
theorem lockLost_spec (s : State) : ∃ t, health 7 1 (logEv 0x0301 (lossArgs s) (unlocked s)) = t ∧
    t.stroke = { s.stroke with locked := false, good := 0 } ∧ sget natD t.res.now 7 = sget natD s.res.now 7 + 1 ∧
    t = { s with stroke := t.stroke, res := { s.res with now := t.res.now }, cnt := t.cnt, log := t.log, host := t.host } ∧
    (s.dev ≠ .recovery → s.log.waiting < 8191 → s.log.dropped = 0 →
      (s.log.next % 8192, mkEntry 0x0301 (lossArgs s) s) ∈ t.log.ring) := by
  have logged := logEv_enters 0x0301 (lossArgs s) (unlocked s)
  have rest := (logEv_countsOnly 0x0301 (lossArgs s) (unlocked s)).rest
  generalize logEv 0x0301 (lossArgs s) (unlocked s) = u at logged rest ⊢
  refine ⟨_, rfl, by rw [health, rest]; rfl, ?_, ?_, fun h1 h2 h3 => logged h1 (Nat.lt_succ_of_lt h2) h3⟩
  · show sget natD (smod natD u.res.now 7 (· + 1)) 7 = _
    rw [sget_smod_self, rest]; rfl
  · rw [health, rest]; rfl

/-- Settles O50: `edge_spec` around each phase, and the conditions of lock. -/
theorem strokesAndLock : Obligations.StrokesAndLock := by
  refine ⟨⟨fun s h => ?off, fun s h hd => ?counts, fun s r P hin seen => ?easy, fun s p P hin hp quiet =>
    ⟨computeEdge P hin hp quiet, extendedEdge P hin hp quiet, updateEdge P hin hp quiet, exchangeEdge P hin hp quiet,
      boundaryEdge P hin hp quiet, waitingEdge P hin hp quiet⟩, fun s P hout quiet => idleEdge P hout quiet⟩,
    ⟨fun g s h => by rw [exec_strokeInEdge, if_pos h], fun g s h => by rw [exec_strokeInEdge, if_neg (by simp [h])],
      fun s h due => ?gained, fun s h => ?notGained, fun s h1 h2 h3 => ?lost, fun s h => ?notLost⟩⟩
  case off => exact congrArg Host.Outcome.next (if_pos (by simp [h]))
  case counts =>
    refine congrArg Host.Outcome.next ((if_neg (by simp [h])).trans (if_pos ?_))
    rcases hd with hd | hd <;> simp [hd]
  case easy =>
    obtain ⟨t, ht, ticked, dev, slot, easy, run, r, red, gaps, others⟩ := easyStroke P hin seen
    refine ⟨t, ht, ticked, dev, slot, easy, run, r, red, fun c a hc ha h1 h2 h3 => gaps c a hc ha ⟨h1, h2, h3⟩, fun c a h => others c a ?_⟩
    rintro ⟨h1, h2, h3⟩
    rcases h with h | h | h
    · exact h h1
    · rw [h2] at h; cases h
    · exact h h3
  case gained =>
    obtain ⟨quiet, ready⟩ := setReady_locked (s := { s with stroke := { s.stroke with locked := true, numbered := true, bad := 0 } }) rfl
    have kept : (setReady { s with stroke := { s.stroke with locked := true, numbered := true, bad := 0 } }).stroke =
        { s.stroke with locked := true, numbered := true, bad := 0 } := by unfold setReady; split <;> rfl
    refine ⟨_, by rw [exec_lockGained, if_pos (by rw [h, (lockDue_iff s).2 due]; rfl)], kept, fun none => ?_, fun some => ?_⟩
    · rw [kept]; exact quiet none
    · rw [kept]; exact ready some
  case notGained =>
    rw [exec_lockGained, if_neg]
    rw [Bool.and_eq_true, lockDue_iff]
    rintro ⟨unlocked, ⟨hm, hdue⟩ | ⟨hm, hparent, hgood⟩⟩
    · rcases h with h | ⟨-, hs, hi⟩ | ⟨h, -⟩
      · simp [h] at unlocked
      · exact absurd (hdue hs) (Nat.not_le.2 hi)
      · rw [hm] at h; cases h
    · rcases h with h | ⟨h, -⟩ | ⟨-, h | h⟩
      · simp [h] at unlocked
      · rw [hm] at h; cases h
      · rw [hparent] at h; cases h
      · exact absurd hgood (Nat.not_le.2 h)
  case lost =>
    obtain ⟨t, ht, spec⟩ := lockLost_spec s
    exact ⟨t, by rw [exec_lockLost, if_pos (by simp [h1, h2, h3]), ht], spec⟩
  case notLost =>
    rw [exec_lockLost, if_neg]
    rcases h with h | h | h
    · simp [h]
    · simp [h]
    · simp [Nat.not_le.2 h]

end Sys2Proof.Machine
end

section
/-! PROOFS. SECURE_STOP_COMPLETE: a stop that is kept, and one that is abandoned (R189, R282, R308, R311, R314 to R317). -/

namespace Sys2Proof.Machine

open Sys2Proof

theorem exec_secureStopComplete (s : State) : exec .secureStopComplete s = .next (atEpoch s (secureStopComplete s)) := rfl

/-! ### Which end a stop comes to -/

/-- A stop whose planned strokes are over, outside any wait. -/
structure StopOver (s : State) : Prop where
  dev : s.dev = .securing
  waits : s.res.stopWaits = false
  left : s.run.secLeft = 0

section

variable {s : State} {p : Plan} {pk : Pkg}

/-- No stop comes to its end before its strokes are over, its images kept and its digest known. -/
theorem secureStopComplete_idle (h : s.plan = none ∨ s.pkg = none ∨ s.dev ≠ .securing ∨ s.res.stopWaits = true ∨ s.run.secLeft ≠ 0 ∨
      (s.run.holdDue = 0 ∧ s.res.paths = [] ∧ (s.res.keptRes = none ∨ s.res.wsumRes = none ∨ ∃ k, s.res.keptRes = some k ∧ k % 2 = 0))) :
    secureStopComplete s = s := by
  unfold secureStopComplete
  cases hp : s.plan with
  | none => rfl
  | some p =>
    cases hpk : s.pkg with
    | none => rfl
    | some pk =>
      rcases h with h | h | h | h | h | ⟨due, paths, h⟩
      · rw [hp] at h; cases h
      · rw [hpk] at h; cases h
      · simp [h]
      · simp [h]
      · simp [h]
      · dsimp only
        split
        · rfl
        · rw [if_neg (by simp [due, paths])]
          rcases h with h | h | ⟨k, h, even⟩
          · rw [h]
          · rw [h]; cases s.res.keptRes <;> rfl
          · rw [h]
            cases s.res.wsumRes with
            | none => rfl
            | some w => exact if_neg (by omega)

variable (hp : s.plan = some p) (hpk : s.pkg = some pk) (ended : StopOver s)

include hp hpk ended

theorem secureStopComplete_keeps {k wd : Nat} (due : s.run.holdDue = 0) (paths : s.res.paths = []) (hk : s.res.keptRes = some k)
    (odd : k % 2 = 1) (hw : s.res.wsumRes = some wd) : secureStopComplete s = stopKept p pk wd s := by
  unfold secureStopComplete
  simp [hp, hpk, ended.dev, ended.waits, ended.left, due, paths, hk, hw, odd]

theorem secureStopComplete_abandons (h : s.run.holdDue ≠ 0 ∨ s.res.paths ≠ []) : secureStopComplete s = stopAbandoned (imageKept s) s := by
  unfold secureStopComplete
  have failed : (s.run.holdDue != 0 || !s.res.paths.isEmpty) = true := by
    rcases h with h | h <;> simp [h]
  simp [hp, hpk, ended.dev, ended.waits, ended.left, failed]

end

/-! ### A stop that is kept (R308, R311, R314, R315) -/

/-- The image's own record: what it secures. -/
def imageInfo (p : Plan) (pk : Pkg) (wd : Nat) (s : State) : ImageInfo :=
  { step := stepField s, bytes := (makeImage s p pk wd).length, loss := s.run.loss, tokens := s.run.tokens, wdigest := wd, valid := true }

/-- The journal is empty and the stop is logged and counted. -/
def stopLogged (p : Plan) (pk : Pkg) (wd : Nat) (s : State) : State :=
  lifeAdd 0x20 8 1 (bump (cntDev 15) 1 (emptyJournal (attn 3 (logEv 0x0703 (b8 wd ++ b4 (stepField s) ++ b8 s.res.secStart ++
    b4 ((s.stroke.count - s.res.secStart) * p.period / 1000) ++ b8 (makeImage s p pk wd).length) s))))

theorem stopLogged_spec (p : Plan) (pk : Pkg) (wd : Nat) (s : State) : ∃ u, stopLogged p pk wd s = u ∧
    u = { s with res := { s.res with journal := [] }, mem := u.mem, mgmt := u.mgmt, cnt := u.cnt, log := u.log, host := u.host } := by
  have logged := (logEv_countsOnly 0x0703 (b8 wd ++ b4 (stepField s) ++ b8 s.res.secStart ++
    b4 ((s.stroke.count - s.res.secStart) * p.period / 1000) ++ b8 (makeImage s p pk wd).length) s).trans (attn_countsOnly 3 _)
  unfold stopLogged
  generalize attn 3 (logEv _ _ s) = u at logged ⊢
  have counted := bump_countsOnly (cntDev 15) 1 (emptyJournal u)
  generalize bump (cntDev 15) 1 (emptyJournal u) = w at counted ⊢
  refine ⟨_, rfl, ?_⟩
  rw [lifeAdd, counted.rest, emptyJournal, logged.rest]

/-- The state and the system's weight digest have become the secured ones. -/
def stopSecured (p : Plan) (pk : Pkg) (wd : Nat) (s : State) : State :=
  let u := stopLogged p pk wd s
  { u with
    run := { u.run with secured := true, losses := [] }
    res := { u.res with
      journalFull := false, secureDue := false, ue := false, imgStep := u.run.last, sinceImage := 0, imgValid := true
      own := some (imageInfo p pk wd s), ownData := makeImage s p pk wd, kept := keptImages (imageInfo p pk wd s) u } }

theorem stopKept_eq (p : Plan) (pk : Pkg) (wd : Nat) (s : State) :
    stopKept p pk wd s = finishBoundary (startHostCopy (forEach (List.range 16) releaseSource (stopSecured p pk wd s))) := rfl

theorem stopSecured_spec (p : Plan) (pk : Pkg) (wd : Nat) (s : State) : ∃ u, stopSecured p pk wd s = u ∧
    u.run = { s.run with secured := true, losses := [] } ∧
    u.res = { s.res with
      journal := [], journalFull := false, secureDue := false, ue := false, imgStep := s.run.last, sinceImage := 0, imgValid := true
      own := some (imageInfo p pk wd s), ownData := makeImage s p pk wd, kept := keptImages (imageInfo p pk wd s) s } ∧
    u = { s with run := u.run, res := u.res, mem := u.mem, mgmt := u.mgmt, cnt := u.cnt, log := u.log, host := u.host } := by
  obtain ⟨u, hu, rest⟩ := stopLogged_spec p pk wd s
  unfold stopSecured
  rw [hu]
  refine ⟨_, rfl, ?_, ?_, ?_⟩
  · rw [rest]
  · rw [rest]; rfl
  · rw [rest]

/-- The device before the boundary of a kept stop goes on: secured, its samples released, its copy to the host begun. -/
theorem stopKept_spec (p : Plan) (pk : Pkg) (wd : Nat) (s : State) : ∃ v, stopKept p pk wd s = finishBoundary v ∧
    v.run = { s.run with secured := true, losses := [] } ∧
    v.res = { s.res with
      journal := [], journalFull := false, secureDue := false, ue := false, imgStep := s.run.last, sinceImage := 0, imgValid := true
      own := some (imageInfo p pk wd s), ownData := makeImage s p pk wd, kept := keptImages (imageInfo p pk wd s) s
      hcopyState := v.res.hcopyState, hcopyPercent := v.res.hcopyPercent, hcopyBytes := v.res.hcopyBytes } ∧
    (∀ i x, i < 16 → source s i = some x →
      source v i = some { x with released := max x.released (minOr x.next (samplesOf s.run.snapLast.adm i ++ samplesOf s.adm i)) }) ∧
    v = { s with
      run := v.run, res := v.res, sources := v.sources, mem := v.mem, mgmt := v.mgmt, out := v.out, cnt := v.cnt, log := v.log, host := v.host } := by
  rw [stopKept_eq]
  obtain ⟨u, hu, run, res, rest⟩ := stopSecured_spec p pk wd s
  rw [hu]
  obtain ⟨released, -, rest'⟩ := releaseAll_spec (List.range 16) List.nodup_range u _ rfl
  generalize forEach (List.range 16) releaseSource u = w at released rest' ⊢
  have copies := startHostCopy_eq w
  generalize startHostCopy w = v at copies ⊢
  have adm : u.adm = s.adm := by rw [rest]
  have sources : ∀ i, source u i = source s i := fun i => by rw [rest]; rfl
  rw [run, adm] at released
  refine ⟨v, rfl, ?_, ?_, fun i x hi hx => ?_, ?_⟩
  · rw [copies, rest', run]
  · rw [copies, rest', res]
  · rw [copies]
    exact released i x (List.mem_range.2 hi) ((sources i).trans hx)
  · rw [copies, rest', rest]

/-- A boundary with nothing to hold goes on: the device runs, and its resources are as before. -/
theorem finishBoundary_runs {v : State} (h1 : v.run.fin.hold = 0) (h2 : v.res.path = 0) (h3 : v.res.rollback = false) :
    ∃ t, finishBoundary v = t ∧ t.dev = .running ∧ t.run = { v.run with boundDone := true } ∧ t.res = v.res ∧ t.stroke = v.stroke ∧
      t.link = v.link := by
  obtain ⟨r, u, only, goes⟩ := finishBoundary_goes h1 h2 h3
  refine ⟨_, goes, rfl, rfl, ?_, ?_, ?_⟩ <;> rw [only.rest]

/-! ### A stop that is abandoned (R282, R317) -/

/-- The images that a device keeps of an abandoned stop, and the next stop that is due. -/
def stopDropped (s : State) : State :=
  { s with res := { s.res with
      secureDue := true, imgValid := imageKept s, kept := keptAbandoned s, own := s.res.own.map fun x => { x with valid := imageKept s } } }

theorem stopAbandoned_eq (s : State) :
    stopAbandoned (imageKept s) s = holdNow (max 3 s.run.holdDue) (finishBoundary (stopDropped s)) := rfl

/-- The packets that waited for the epoch of a hold arrive after it (R282). -/
theorem Held.atEpoch {cause : Nat} {s u t : State} (H : Held cause u t) (same : u.link = s.link) :
    atEpoch s t = deliverEarly t ∧ (s.link.early = [] → deliverEarly t = t) := by
  refine ⟨if_neg ?_, fun none => deliverEarly_none (by rw [H.early, same, none])⟩
  rw [H.epoch, same]
  omega

/-- Settles O60: a kept stop is `stopKept_spec` and then a boundary; an abandoned one is a hold after its boundary. -/
theorem secureStops : Obligations.SecureStops := by
  refine ⟨fun s h => by rw [exec_secureStopComplete, secureStopComplete_idle h, atEpoch_same rfl],
    fun s p pk k wd info hp hpk hd hw hl due paths hk odd hwd hinfo => ?kept,
    fun s p pk r hp hpk hd hw hl failed hr => ?abandoned⟩
  case kept =>
    obtain ⟨v, ends, run, res, sources, rest⟩ := stopKept_spec p pk wd s
    have keeps := (secureStopComplete_keeps hp hpk ⟨hd, hw, hl⟩ due paths hk odd hwd).trans ends
    have runs : exec .secureStopComplete s = .next (Machine.atEpoch s (finishBoundary v)) := by rw [exec_secureStopComplete, keeps]
    subst hinfo
    refine ⟨v, runs, run, res, sources, rest, fun h1 h2 h3 => ?_⟩
    obtain ⟨t, ht, dev, trun, tres, -, link⟩ := finishBoundary_runs (v := v) (by rw [run]; exact h1) (by rw [res]; exact h2)
      (by rw [res]; exact h3)
    exact ⟨t, by rw [runs, ht, atEpoch_same (by rw [link, rest])], dev, by rw [trun, run], tres⟩
  case abandoned =>
    have abandons := secureStopComplete_abandons hp hpk ⟨hd, hw, hl⟩ failed
    subst hr
    have runs : exec .secureStopComplete s = .next (Machine.atEpoch s (stopAbandoned (imageKept s) s)) := by
      rw [exec_secureStopComplete, abandons]
    refine ⟨runs, fun h1 h2 h3 => ?_⟩
    obtain ⟨u, hu, dev, run, res, stroke, link⟩ := finishBoundary_runs (v := stopDropped s) h1 h2 h3
    rw [stopAbandoned_eq, hu] at runs
    have held := (holdNow_spec (max 3 s.run.holdDue) u).1
    obtain ⟨delivered, none⟩ := held.atEpoch (s := s) link
    exact ⟨_, u, runs.trans (congrArg _ delivered), held, dev, run, res, stroke, none⟩

end Sys2Proof.Machine
end

section
/-! PROOFS. CATCH and EASY markers (R211 to R217, R283). -/

namespace Sys2Proof.Machine

open Sys2Proof

/-! ### Rows -/

theorem catchMarker_runs {p : PortId} {b : SubId} {w : InstrWord} {body : List Byte} {s : State} (phase : Int)
    (A : Arrives s p b w.toNat body 0 0) : exec (.catchMarker p b w body phase) s = .next (catchPacket p b phase body s) :=
  congrArg Host.Outcome.next ((arrive_runs A fun _ u => catchPacket p b phase body u).trans (returnHop_ctl A.cls _))

theorem easy_runs {p : PortId} {b : SubId} {w : InstrWord} {body : List Byte} {s : State}
    (A : Arrives s p b w.toNat body 0 1) : exec (.easy p b w body) s = .next (easyPacket body s) :=
  congrArg Host.Outcome.next ((arrive_runs A fun _ u => easyPacket body u).trans (returnHop_ctl A.cls _))

/-! ### The heartbeat of a CATCH (R283) -/

/-- The port has seen its sender's heartbeat. -/
def heartbeat (p : Nat) (s : State) : State := modPort p (fun P => { P with catchSeen := true }) s

/-- One more marker has been checked on a port (R212). -/
def countMarker (p : Nat) (s : State) : State := modPort p (fun P => { P with markers := P.markers + 1 }) s

/-- What a CATCH changes on its way in: the port has its heartbeat, no sub-port carries frames otherwise than before, nothing is
sent, and beside counters only the stroke logic may differ. -/
structure Beats (p : Nat) (s u : State) : Prop where
  seen : (port u p).catchSeen = true
  ports : ∀ q, q ≠ p → port u q = port s q
  subs : ∀ c, subp u p c = subp s p c
  rest : PortOnly { s with stroke := u.stroke } u
  out : u.out = s.out

section
variable {p : Nat} {s u : State}

theorem heartbeat_markers (p : Nat) (s : State) : (port (heartbeat p s) p).markers = (port s p).markers := by
  unfold heartbeat; rw [port_modPort_self]

theorem heartbeat_beats (p : Nat) (s : State) : Beats p s (heartbeat p s) where
  seen := by unfold heartbeat; rw [port_modPort_self]
  ports _ h := port_modPort_ne s _ h
  subs c := by unfold subp heartbeat; rw [port_modPort_self]; rfl
  rest := .modPort p _ s
  out := rfl

theorem Beats.countMarker (h : Beats p s u) : Beats p s (countMarker p u) where
  seen := by unfold Machine.countMarker; rw [port_modPort_self]; exact h.seen
  ports q hq := (port_modPort_ne u _ hq).trans (h.ports q hq)
  subs c := by rw [← h.subs c]; unfold subp Machine.countMarker; rw [port_modPort_self]; rfl
  rest := h.rest.trans (.modPort p _ u)
  out := h.out

theorem Beats.stroke (h : Beats p s u) (k : StrokeSt) : Beats p s { u with stroke := k } where
  seen := h.seen
  ports := h.ports
  subs := h.subs
  rest := .of (by rw [h.rest.rest])
  out := h.out

theorem Beats.bump (h : Beats p s u) (o n : Nat) : Beats p s (bump o n u) := by
  have kept : (Machine.bump o n u).stroke = u.stroke := by rw [(bump_countsOnly o n u).rest]
  exact
    { seen := by rw [port_bump]; exact h.seen
      ports := fun q hq => (port_bump o n u q).trans (h.ports q hq)
      subs := fun c => by rw [← h.subs c]; unfold subp; rw [port_bump]
      rest := by rw [kept]; exact h.rest.trans (.bump o n u)
      out := (out_bump o n u).trans h.out }

end

/-! ### A CATCH from another port than the parent's (R212) -/

section
variable {p b n : Nat} {phase : Int} {body : List Byte} {s : State}

/-- A marker is off the expected edge: in lock, another stroke number or an error beyond 4 ns. -/
def OffEdge (s : State) (n : Nat) (phase : Int) : Prop :=
  s.stroke.locked = true ∧ (n ≠ s.stroke.count ∨ 64 < phase ∨ phase < -64)

theorem otherMarker_off (h : OffEdge s n phase) : otherMarker p n phase s = bump (cntPort p 10) 1 (countMarker p s) := by
  obtain ⟨locked, off⟩ := h
  exact if_pos (by rw [modPort_stroke]; simpa [locked, or_assoc] using off)

theorem otherMarker_onEdge (h : ¬ OffEdge s n phase) : otherMarker p n phase s = countMarker p s := by
  refine if_neg fun off => h ?_
  rw [modPort_stroke] at off
  simpa [OffEdge, or_assoc] using off

theorem catchPacket_other (h : s.stroke.noParent = true ∨ s.stroke.parentPort ≠ p ∨ s.stroke.parentSub ≠ b) :
    catchPacket p b phase body s = otherMarker p (leAt body 0 8 % 2 ^ 48) phase (heartbeat p s) :=
  if_pos (by rw [modPort_stroke]; simpa [or_assoc] using h)

/-- A port counter that counts events. -/
theorem cntExact_bump_port {k : Nat} (hp : p < 16) (h1 : 2 ≤ k) (h2 : k < 32) (s : State) :
    cntExact (bump (cntPort p k) 1 s) (cntPort p k) = min (cntExact s (cntPort p k) + 1) (2 ^ 48 - 1) := by
  rw [cntExact_bump_self s 1 (by unfold cntPort cntDev; omega), cntUnit_port hp h1 h2, Nat.mul_one]

theorem markers_checked (p : Nat) (s : State) : (port (countMarker p (heartbeat p s)) p).markers = (port s p).markers + 1 := by
  unfold countMarker heartbeat; rw [port_modPort_self, port_modPort_self]

/-- Such a CATCH is a heartbeat, checked and counted, and not used. -/
theorem catchPacket_checked (hp : p < 16) (h : s.stroke.noParent = true ∨ s.stroke.parentPort ≠ p ∨ s.stroke.parentSub ≠ b) :
    ∃ u, catchPacket p b phase body s = u ∧ Beats p s u ∧ u.stroke = s.stroke ∧ (port u p).markers = (port s p).markers + 1 ∧
      (OffEdge s (leAt body 0 8 % 2 ^ 48) phase → cntExact u (cntPort p 10) = min (cntExact s (cntPort p 10) + 1) (2 ^ 48 - 1)) ∧
      (¬ OffEdge s (leAt body 0 8 % 2 ^ 48) phase → cntExact u (cntPort p 10) = cntExact s (cntPort p 10)) := by
  have checked := (heartbeat_beats p s).countMarker
  rw [catchPacket_other h]
  by_cases off : OffEdge (heartbeat p s) (leAt body 0 8 % 2 ^ 48) phase
  · rw [otherMarker_off off]
    refine ⟨_, rfl, checked.bump _ _, ?_, ?_, fun _ => cntExact_bump_port hp (by decide) (by decide) _, fun on => absurd off on⟩
    · rw [(bump_countsOnly ..).rest]; rfl
    · rw [port_bump, markers_checked]
  · rw [otherMarker_onEdge off]
    exact ⟨_, rfl, checked, rfl, markers_checked p s, fun h => absurd h off, fun _ => rfl⟩

end

/-! ### A CATCH from the parent (R211 to R214) -/

section
variable {p b n : Nat} {phase : Int} {body : List Byte} {s : State} {lk take : Bool}

/-- The stroke logic after a marker of the parent: it takes the number `n` over, or the phase where the number is its own. -/
def caughtStroke (take lk : Bool) (n : Nat) (phase : Int) (k : StrokeSt) : StrokeSt :=
  if take then { k with count := n, numbered := true, marker := true, markerLocked := lk, offset := phase }
  else if n = k.count then { k with marker := true, markerLocked := lk, offset := phase } else k

/-- A marker of the parent is a heartbeat, and acts on the stroke logic alone. -/
theorem catchPacket_parent (h1 : s.stroke.noParent = false) (h2 : s.stroke.parentPort = p) (h3 : s.stroke.parentSub = b)
    (hn : n = leAt body 0 8 % 2 ^ 48) (hlk : lk = (leAt body 12 4 % 2 == 1)) (ht : take = (!s.stroke.locked && lk && !runActive s)) :
    catchPacket p b phase body s = { heartbeat p s with stroke := caughtStroke take lk n phase s.stroke } := by
  have parent : ¬ (s.stroke.noParent || s.stroke.parentPort != p || s.stroke.parentSub != b) = true := by simp [h1, h2, h3]
  have running : runActive (modPort p (fun P => { P with catchSeen := true }) s) = runActive s := rfl
  refine (if_neg parent).trans ?_
  simp only [modPort_stroke, ← hn, ← hlk, running, ← ht]
  unfold caughtStroke
  cases take with
  | true => rw [if_pos rfl, if_neg (by simp), if_pos rfl]; rfl
  | false =>
    simp only [Bool.false_eq_true, if_false]
    by_cases own : n = s.stroke.count
    · rw [if_neg (by simp [own]), if_pos own]; rfl
    · rw [if_pos (by simp [own]), if_neg own]; rfl

theorem caughtStroke_take {k : StrokeSt} (ht : take = true) (hlk : lk = true) : caughtStroke take lk n phase k =
    { k with count := n, numbered := true, marker := true, markerLocked := true, offset := phase } := by
  unfold caughtStroke; rw [if_pos ht, hlk]

theorem caughtStroke_phase {k : StrokeSt} (ht : take = false) (hn : n = k.count) : caughtStroke take lk n phase k =
    { k with marker := true, markerLocked := lk, offset := phase } := by
  unfold caughtStroke; rw [if_neg (by simp [ht]), if_pos hn]

theorem caughtStroke_ignored {k : StrokeSt} (ht : take = false) (hn : n ≠ k.count) : caughtStroke take lk n phase k = k := by
  unfold caughtStroke; rw [if_neg (by simp [ht]), if_neg hn]

end

/-! ### EASY (R215 to R217) -/

section
variable {n r : Nat} {body : List Byte} {s : State}

theorem floodEasy_new (h : s.stroke.seen.contains (n, r) = false) : floodEasy n r s =
    flood 1 (easyBody n r) { s with stroke := { s.stroke with seen := s.stroke.seen ++ [(n, r)] } } := if_neg (by rw [h]; decide)

/-- EASY that comes after its edge is a sync fault (R217). -/
def easyLate (n r : Nat) (s : State) : State := health 7 1 (logEv 0x0302 (b8 n ++ b4 r) (bump (cntDev 3) 1 s))

theorem easyLate_portOnly (n r : Nat) (s : State) : PortOnly s (easyLate n r s) :=
  ((PortOnly.bump ..).trans (.counts (logEv_countsOnly ..))).trans (.health ..)

theorem easyLate_counts (n r : Nat) (s : State) : (easyLate n r s).stroke = s.stroke ∧ (easyLate n r s).out = s.out := by
  have counts := (bump_countsOnly (cntDev 3) 1 s).trans (logEv_countsOnly 0x0302 (b8 n ++ b4 r) _)
  unfold easyLate health
  rw [counts.rest]
  exact ⟨rfl, rfl⟩

theorem easyPacket_seen (hn : n = leAt body 0 8 % 2 ^ 48) (hr : r = leAt body 8 4) (h : s.stroke.seen.contains (n, r) = true) :
    easyPacket body s = s := by
  subst hn hr; exact if_pos h

/-- A new marker is flooded and kept; one that comes after the edge is logged. -/
theorem easyPacket_new (hn : n = leAt body 0 8 % 2 ^ 48) (hr : r = leAt body 8 4) (h : s.stroke.seen.contains (n, r) = false) :
    easyPacket body s = if n < s.stroke.count then easyLate n r (floodEasy n r s) else floodEasy n r s := by
  have count : (floodEasy n r s).stroke.count = s.stroke.count := by rw [floodEasy_new h, (NetOnly.flood ..).rest]
  rw [← count]
  subst hn hr
  exact if_neg (by rw [h]; decide)

/-- What a new marker leaves: it is on every active port and among those seen, and no failure is recorded before its edge. -/
theorem easyPacket_floods (hn : n = leAt body 0 8 % 2 ^ 48) (hr : r = leAt body 8 4) (h : s.stroke.seen.contains (n, r) = false) :
    (easyPacket body s).stroke = { s.stroke with seen := s.stroke.seen ++ [(n, r)] } ∧
      (∀ q ∈ activePorts s, ∃ g, Output.packet q.1 q.2 g (easyBody n r) ∈ (easyPacket body s).out) ∧
      (s.stroke.count ≤ n → (easyPacket body s).res = s.res) ∧
      PortOnly { s with stroke := { s.stroke with seen := s.stroke.seen ++ [(n, r)] } } (easyPacket body s) := by
  have net := NetOnly.flood 1 (easyBody n r) { s with stroke := { s.stroke with seen := s.stroke.seen ++ [(n, r)] } }
  have sent := (floodEasy_seen n r s).2 (by simpa using h)
  rw [easyPacket_new hn hr h]
  rw [← floodEasy_new h] at net
  generalize floodEasy n r s = u at net sent
  by_cases late : n < s.stroke.count
  · obtain ⟨stroke, out⟩ := easyLate_counts n r u
    rw [if_pos late]
    exact ⟨stroke.trans (by rw [net.rest]), fun q hq => by rw [out]; exact sent q hq, fun h => absurd late (by omega),
      (PortOnly.net net).trans (easyLate_portOnly ..)⟩
  · rw [if_neg late]
    exact ⟨by rw [net.rest], sent, fun _ => by rw [net.rest], .net net⟩

end

/-- Settles O45: a CATCH is `catchPacket_parent` or `catchPacket_checked` after its port's heartbeat; a new EASY is
`easyPacket_floods`. -/
theorem markers : Obligations.Markers := by
  refine ⟨fun p b w body phase s n lk take off A hn hlk ht hoff => ?caught, fun p b w body s n r A hn hr => ⟨fun seen => ?known, fun new => ?new⟩⟩
  case caught =>
    rw [catchMarker_runs phase A]
    by_cases parent : s.stroke.noParent = true ∨ s.stroke.parentPort ≠ p ∨ s.stroke.parentSub ≠ b
    · obtain ⟨u, hu, beats, stroke, checked, missed, onEdge⟩ := catchPacket_checked (phase := phase) (body := body) p.isLt parent
      rw [← hn] at missed onEdge
      refine ⟨u, congrArg _ hu, beats.seen, beats.ports, beats.subs, beats.rest, beats.out,
        fun _ => ⟨stroke, checked, fun h => missed (hoff.1 h), fun h => onEdge fun k => h (hoff.2 k)⟩, fun h1 h2 h3 => ?_⟩
      simp [h1, h2, h3] at parent
    · obtain ⟨h1, h2, h3⟩ : s.stroke.noParent = false ∧ s.stroke.parentPort = p ∧ s.stroke.parentSub = b := by simpa using parent
      have beats := (heartbeat_beats p s).stroke (caughtStroke take lk n phase s.stroke)
      have locked : take = true → lk = true := by
        rw [ht, Bool.and_eq_true, Bool.and_eq_true]
        rintro ⟨⟨-, h⟩, -⟩
        exact h
      refine ⟨_, congrArg _ (catchPacket_parent h1 h2 h3 hn hlk ht), beats.seen, beats.ports, beats.subs, beats.rest, beats.out,
        fun h => absurd h parent, fun _ _ _ => ⟨rfl, heartbeat_markers p s, fun h => caughtStroke_take h (locked h),
          caughtStroke_phase, caughtStroke_ignored⟩⟩
  case known => rw [easy_runs A, easyPacket_seen hn hr seen]
  case new =>
    obtain ⟨stroke, sent, res, net⟩ := easyPacket_floods hn hr new
    rw [← stroke] at net
    exact ⟨_, easy_runs A, stroke, sent, res, net⟩

end Sys2Proof.Machine
end

section
/-! PROOFS. REDUCE_UP, REDUCE_DOWN and DIGEST (R209, R234, R277, R284, R285, R288, R345). -/

namespace Sys2Proof.Machine

open Sys2Proof

/-! ### Rows -/

section
variable {p : PortId} {b : SubId} {w : InstrWord} {body : List Byte} {s : State} {h : PktHdr}

theorem reduceUp_runs (A : Arrives s p b w.toNat body 0 2) (hh : h = readHdr w.toNat) :
    exec (.reduceUp p b w body) s = .next (atEpoch s (reduceUp h body s)) := by
  subst hh
  exact congrArg (fun u => Host.Outcome.next (atEpoch s u)) ((arrive_runs A fun h u => reduceUp h body u).trans (returnHop_ctl A.cls _))

theorem reduceDown_runs (A : Arrives s p b w.toNat body 0 3) (hh : h = readHdr w.toNat) :
    exec (.reduceDown p b w body) s = .next (atEpoch s (reduceDown h body s)) := by
  subst hh
  rw [exec_reduceDown, arrive_runs A, returnHop_ctl A.cls]

theorem digest_runs (A : Arrives s p b w.toNat body 0 4) :
    exec (.digest p b w body) s = .next (atEpoch s (digestPacket p b body s)) :=
  congrArg (fun u => Host.Outcome.next (atEpoch s u)) ((arrive_runs A fun _ u => digestPacket p b body u).trans (returnHop_ctl A.cls _))

end

/-! ### REDUCE_UP (R284, R285) -/

section
variable {h : PktHdr} {body : List Byte} {s : State}

/-- A child's operand is in. -/
def childIn (h : PktHdr) (body : List Byte) (s : State) : State := ctlMod h.arg (fun c =>
  { c with acc := ctlCombine (ctlOp h.arg) c.acc (ctlOperand h.arg body), heard := c.heard ++ [h.src] }) s

/-- The operand of a child that has not been heard joins its reduction, which goes on. -/
theorem reduceUp_joins (child : (ctlTree s h.arg).2.contains h.src = true) (new : (ctlGet s h.arg).heard.contains h.src = false) :
    reduceUp h body s = ctlStep (ctlResult h.arg) h.arg (childIn h body s) := if_neg (by rw [child, new]; decide)

theorem childIn_self : ctlGet (childIn h body s) h.arg = { ctlGet s h.arg with
    acc := ctlCombine (ctlOp h.arg) (ctlGet s h.arg).acc (ctlOperand h.arg body), heard := (ctlGet s h.arg).heard ++ [h.src] } :=
  ctlGet_ctlMod_self ..

theorem childIn_epoch : (childIn h body s).link.epoch = s.link.epoch := rfl

theorem childIn_other {j : Nat} (hj : j ≠ h.arg) : ctlGet (childIn h body s) j = ctlGet s j := ctlGet_ctlMod_ne _ s hj

end

/-! ### Digests (R234) -/

section
variable {p b : Nat} {body : List Byte} {s : State} {pl : Plan}

/-- The port's latest digest is in. -/
def digestKept (p b : Nat) (body : List Byte) (s : State) : State := { s with link := { s.link with
  digestIn := (s.link.digestIn.filter fun x => x.1 != 2 * p + b) ++ [(2 * p + b, body)] } }

theorem digestKept_epoch : (digestKept p b body s).link.epoch = s.link.epoch := rfl

theorem digestPacket_eq (p b : Nat) (body : List Byte) (s : State) : digestPacket p b body s = digestCheck (digestKept p b body s) := rfl

/-- Until this device has sent its own digest and every usable port has delivered one, digests are only kept. -/
theorem digestCheck_waits (h : s.link.digestSent = false ∨ ∃ q ∈ usablePorts s, ∀ x ∈ s.link.digestIn, x.1 ≠ 2 * q.1 + q.2) :
    digestCheck s = s := by
  unfold digestCheck
  split
  · rfl
  · refine if_neg ?_
    rcases h with h | ⟨q, hq, missing⟩
    · simp [h]
    · simp only [Bool.and_eq_true, List.all_eq_true, not_and]
      intro _ all
      obtain ⟨x, hx, same⟩ := List.any_eq_true.1 (all q hq)
      exact missing x hx (by simpa using same)

/-- With every digest in, the device's mismatch flag joins the OR of the system. -/
theorem digestCheck_compares (hp : s.plan = some pl) (h1 : s.link.digestSent = true) (h2 : s.link.digestDone = false)
    (h3 : (ctlGet s ctlDigest).own = false) (all : ∀ q ∈ usablePorts s, ∃ x ∈ s.link.digestIn, x.1 = 2 * q.1 + q.2) :
    digestCheck s = ctlOwn (ctlResult ctlDigest) ctlDigest (b2n (s.link.digestIn.any fun x => x.2 != pl.planDigest)) s := by
  have delivered : (usablePorts s).all (fun q => s.link.digestIn.any fun x => x.1 == 2 * q.1 + q.2) = true :=
    List.all_eq_true.2 fun q hq => List.any_eq_true.2 ((all q hq).imp fun _ h => ⟨h.1, by simpa using h.2⟩)
  unfold digestCheck
  rw [hp]
  exact if_pos (by rw [h1, h2, h3, delivered]; rfl)

end

/-! ### What the result brings -/

/-- What a result brings depends on the device state, the plan and the run alone. -/
theorem ResultHeld.of_same {s t v u : State} {id x : Nat} (h : ResultHeld t id x v u) (run : t.run = s.run) (dev : t.dev = s.dev)
    (plan : t.plan = s.plan) : ResultHeld s id x v u := by
  obtain ⟨ready, limit, dist, flags, kept, wsum, scale, digest⟩ := h
  rw [run] at ready limit dist digest
  rw [dev, plan] at digest
  exact ⟨ready, limit, dist, flags, kept, wsum, scale, digest⟩

/-- A result that comes down is sent to every child and then held (R284). -/
theorem reduceDown_eq (h : PktHdr) (body : List Byte) (s : State) : reduceDown h body s =
    ctlResult h.arg (ctlOperand h.arg body) (ctlClear h.arg (ctlSendDown h.arg (ctlOperand h.arg body) s)) := rfl

/-- Settles O46: a child's operand joins by `reduceUp_joins` and goes on by `ctlStep_spec`; a result is `reduceDown_eq`; a digest is
kept, and the last one brings the device's own operand by `ctlOwn_spec`. What a result brings is `result_held`. -/
theorem controlReductions : Obligations.ControlReductions := by
  refine ⟨fun p b w body s h c A hh child new hc => ?up, fun p b w body s h x A hh hx => ?down, fun p b w body s v d A hv => ?digest⟩
  case up =>
    have joined := childIn_self.trans hc.symm
    obtain ⟨waits, up, root⟩ := ctlStep_spec (ctlResult h.arg) h.arg (childIn h body s) joined
    rw [reduceUp_runs A hh, reduceUp_joins child new]
    refine ⟨fun k => ?_, fun q own sent all tree => ?_, fun own sent all tree => ?_⟩
    · exact ⟨childIn h body s, by rw [waits k, atEpoch_same childIn_epoch], joined, fun _ => childIn_other, rfl⟩
    · obtain ⟨u, hu, self, others, net, sends⟩ := up q own sent all tree
      exact ⟨u, by rw [hu, atEpoch_same (net.epoch.trans childIn_epoch)], self, fun j hj => (others j hj).trans (childIn_other hj), net, sends⟩
    · obtain ⟨v, hv, cleared, net⟩ := root own sent all tree
      exact ⟨v, _, by rw [hv], cleared, net, rfl, result_held h.arg c.acc net⟩
  case down =>
    subst hx
    obtain ⟨v, hv, cleared, net⟩ := down_spec h.arg (ctlOperand h.arg body) s
    refine ⟨v, _, by rw [reduceDown_runs A hh, reduceDown_eq, ← hv], cleared, net, rfl, fun y hy q hr hu => ?_, result_held h.arg _ net⟩
    rw [hv]
    exact down_sends h.arg (ctlOperand h.arg body) s y hy q hr hu
  case digest =>
    obtain rfl : v = digestKept p b body s := hv
    have runs := digest_runs A
    rw [digestPacket_eq] at runs
    refine ⟨fun waits => ?_, fun pl hp h1 h2 h3 all hd => ?_⟩
    · rw [runs, digestCheck_waits (s := digestKept p b body s) waits, atEpoch_same digestKept_epoch]
    · rw [digestCheck_compares (s := digestKept p b body s) hp h1 h2 h3 all] at runs
      obtain ⟨waits, up, root⟩ := ctlOwn_spec (ctlResult ctlDigest) ctlDigest _ (digestKept p b body s) hd
      refine ⟨fun k => ?_, fun q sent heard tree => ?_, fun sent heard tree => ?_⟩
      · obtain ⟨u, hu, self, others, rest⟩ := waits k
        exact ⟨u, by rw [runs, hu, atEpoch_same (by rw [rest, digestKept_epoch])], self, others, rest⟩
      · obtain ⟨u, hu, self, -, net, sends⟩ := up q sent heard tree
        exact ⟨u, by rw [runs, hu, atEpoch_same (net.epoch.trans digestKept_epoch)], self, net, sends⟩
      · obtain ⟨z, hz, cleared, net⟩ := root sent heard tree
        exact ⟨z, _, by rw [runs, hz], cleared, net, rfl, (result_held ctlDigest d.acc net).of_same rfl rfl rfl⟩

end Sys2Proof.Machine
end

section
/-! PROOFS. Memory controllers, hold partitions and scrubbing (R242 to R254). -/

namespace Sys2Proof.Machine

open Sys2Proof

/-! ### Rows -/

theorem exec_writeBufferFlush (c : CtrlId) (s : State) : exec (.writeBufferFlush c) s = .next (flushBuffer c s) := rfl
theorem exec_lpddrRefresh (c : CtrlId) (s : State) : exec (.lpddrRefresh c) s = .next (refresh c s) := rfl
theorem exec_lpddrTempRead (c : CtrlId) (t : Int) (s : State) : exec (.lpddrTempRead c t) s = .next (lpddrTempRead c t s) := rfl
theorem exec_lpddrInitDone (c : CtrlId) (s : State) : exec (.lpddrInitDone c) s = .next (lpddrInit c s) := rfl
theorem exec_holdInitDone (n : CoreId) (s : State) : exec (.holdInitDone n) s = .next (holdInit n s) := rfl
theorem exec_scrubRead (u : MemUnit) (a : Nat) (o : EccOutcome) (s : State) : exec (.scrubRead u a o) s = .next (scrub u a o s) := rfl

/-! ### Controllers (R243, R246, R248) -/

theorem ch_of_mem {s u : State} (h : u.mem = s.mem) (c : Nat) : ch u c = ch s c := by unfold ch; rw [h]
theorem ch_counts {s u : State} (h : CountsOnly s u) (c : Nat) : ch u c = ch s c := ch_of_mem h.parts.1 c

/-- A counter of a controller that counts events. -/
theorem cntExact_bump_ch {c k : Nat} (hc : c < 16) (h1 : 2 ≤ k) (h2 : k < 32) (s : State) :
    cntExact (bump (cntCh c k) 1 s) (cntCh c k) = min (cntExact s (cntCh c k) + 1) (2 ^ 48 - 1) := by
  rw [cntExact_bump_self s 1 (by unfold cntCh cntDev; omega), cntUnit_ch hc h1 h2, Nat.mul_one]

/-- A counter of a hold partition that counts errors. -/
theorem cntExact_bump_part {k : Nat} (hk : k < 4) (n : Nat) (s : State) :
    cntExact (bump (cntPart n k) 1 s) (cntPart n k) = min (cntExact s (cntPart n k) + 1) (2 ^ 48 - 1) := by
  rw [cntExact_bump_self s 1 (by unfold cntPart cntDev; omega), cntUnit_part hk, Nat.mul_one]

/-- The controller without its least recent block. -/
def withoutLast (c : Nat) (s : State) : State := modCh c (fun C => { C with buffers := C.buffers.dropLast }) s

theorem flushBuffer_empty {c : Nat} {s : State} (h : (ch s c).buffers = []) : flushBuffer c s = s :=
  if_pos (by rw [h]; rfl)

theorem flushBuffer_sends {c : Nat} {s : State} (h : (ch s c).buffers ≠ []) :
    flushBuffer c s = withoutLast c (bump (cntCh c 7) 1 s) := if_neg (by simpa using h)

/-- A flush changes its controller's buffers, and what counting brings. -/
theorem flushBuffer_storeOnly (c : Nat) (s : State) : StoreOnly s (flushBuffer c s) :=
  .ite (.refl s) ((StoreOnly.counts (bump_countsOnly ..)).trans (.modCh ..))

theorem ch_flushBuffer (c : Nat) (s : State) :
    ch (flushBuffer c s) c = { ch s c with buffers := (ch s c).buffers.dropLast } ∧
      ∀ d, d ≠ c → ch (flushBuffer c s) d = ch s d := by
  have counted := ch_counts (bump_countsOnly (cntCh c 7) 1 s)
  by_cases h : (ch s c).buffers = []
  · rw [flushBuffer_empty h]
    exact ⟨by rw [h, List.dropLast_nil, ← h], fun _ _ => rfl⟩
  · rw [flushBuffer_sends h]
    exact ⟨by rw [withoutLast, ch_modCh_self, counted], fun d hd => (ch_modCh_ne _ _ hd).trans (counted d)⟩

theorem refresh_runs {c : Nat} {s : State} (h1 : (ch s c).trained = true) (h2 : (ch s c).selfRefresh = false) :
    refresh c s = modCh c (fun C => { C with refreshes := C.refreshes + 1 }) s := if_pos (by rw [h1, h2]; rfl)

/-- What the throttle condition changes: its own bit and the log (R374). -/
theorem updateThrottle_counts (s : State) : ∃ k, CountsOnly { s with pwr := { s.pwr with throttle := k } } (updateThrottle s) := by
  unfold updateThrottle
  extract_lets
  split
  · exact ⟨s.pwr.throttle, .refl s⟩
  · exact ⟨_, logEv_countsOnly ..⟩

theorem lpddrTempRead_powered {c : Nat} {t : Int} {s : State} (h1 : s.pwr.domains = true) (h2 : s.pwr.state ≠ .g4)
    (h3 : s.pwr.state ≠ .g5) : lpddrTempRead c t s = updateThrottle (lpddrTemp c t s) := if_neg (by simp [h1, h2, h3])

/-- A unit that leaves its initialisation: the controller has trained, and its scrubber runs (R248, R252). -/
def initialised (c : Nat) (s : State) : State := modCh c (fun C => { C with init := false, trained := true, scrubbing := true }) s

theorem lpddrInit_done {c : Nat} {s : State} (h : (ch s c).init = true) :
    lpddrInit c s = if (List.range 16).all fun i => !(ch (initialised c s) i).init then plannerCopied (initialised c s)
      else initialised c s := if_neg (by rw [h]; decide)

/-- The write buffers alone may differ of the controllers. -/
structure BuffersOnly (s u : State) : Prop where
  chs : ∀ d, ch u d = { ch s d with buffers := (ch u d).buffers }

theorem BuffersOnly.refl (s : State) : BuffersOnly s s := ⟨fun _ => rfl⟩
theorem BuffersOnly.trans {s t u : State} (h : BuffersOnly s t) (k : BuffersOnly t u) : BuffersOnly s u :=
  ⟨fun d => by rw [k.chs d, h.chs d]⟩
theorem BuffersOnly.of_mem {s u : State} (h : u.mem.ch = s.mem.ch) : BuffersOnly s u := ⟨fun d => by unfold ch; rw [h]⟩
theorem BuffersOnly.modCh (c : Nat) (b : List (Nat × List Nat)) (s : State) :
    BuffersOnly s (modCh c (fun C => { C with buffers := b }) s) := ⟨fun d => by
  by_cases h : d = c
  · subst h; rw [ch_modCh_self]
  · rw [ch_modCh_ne s _ h]⟩

theorem BuffersOnly.bufferLine (x : Nat × Nat) (s : State) : BuffersOnly s (bufferLine x s) := by
  unfold Machine.bufferLine
  extract_lets place blk held slots rest t
  have counted : BuffersOnly s t := by
    unfold t
    split
    · exact .refl s
    · exact .of_mem (by rw [(bump_countsOnly ..).rest])
  exact counted.trans (.modCh ..)

theorem BuffersOnly.foldl_bufferLine (l : List (Nat × Nat)) (s : State) : BuffersOnly s (l.foldl (fun t x => Machine.bufferLine x t) s) := by
  induction l generalizing s with
  | nil => exact .refl s
  | cons x l ih => exact (BuffersOnly.bufferLine x s).trans (ih _)

theorem BuffersOnly.memStore (a : Nat) (l : List Byte) (s : State) : BuffersOnly s (memStore a l s) := by
  have written : BuffersOnly s (memWrite a l s) := .of_mem rfl
  refine written.trans ?_
  unfold Machine.memStore bufferWrite
  split
  · exact .foldl_bufferLine ..
  · exact .refl _

/-- The copy of the planner's image is a store to LPDDR5X, and its digest a write to the shared buffer (R222). -/
theorem BuffersOnly.plannerCopied (s : State) : BuffersOnly s (plannerCopied s) :=
  (BuffersOnly.memStore ..).trans (.of_mem rfl)

/-- What the end of a controller's initialisation brings (R248): its unit alone, but for the planner's copy after the last one. -/
theorem lpddrInit_spec {c : Nat} {s : State} (h : (ch s c).init = true) :
    MemOnly s (lpddrInit c s) ∧ BuffersOnly (initialised c s) (lpddrInit c s) ∧
      ((∃ d, d < 16 ∧ d ≠ c ∧ (ch s d).init = true) → lpddrInit c s = initialised c s) := by
  have unit : MemOnly s (initialised c s) := .mem _ s
  rw [lpddrInit_done h]
  by_cases all : ((List.range 16).all fun i => !(ch (initialised c s) i).init) = true
  · rw [if_pos all]
    refine ⟨unit.trans (.plannerCopied _), .plannerCopied _, fun ⟨d, hd, ne, busy⟩ => ?_⟩
    have done := List.all_eq_true.1 all d (List.mem_range.2 hd)
    rw [initialised, ch_modCh_ne s _ ne, busy] at done
    exact absurd done (by decide)
  · rw [if_neg all]
    exact ⟨unit, .refl _, fun _ => rfl⟩

theorem ch_initialised (c : Nat) (s : State) (d : Nat) : ch (initialised c s) d =
    (if d = c then { ch s c with init := false, trained := true, scrubbing := true } else ch s d) := by
  unfold initialised
  by_cases h : d = c
  · subst h; rw [if_pos rfl, ch_modCh_self]
  · rw [if_neg h, ch_modCh_ne s _ h]

theorem holdInit_done {n : Nat} {s : State} (h : (part s n).init = true) :
    holdInit n s = modPart n (fun P => { P with init := false, scrubbing := true }) s := if_pos h

/-! ### Scrubbing (R252, R254) -/

section
variable {u : MemUnit} {a w : Nat} {o : EccOutcome} {s v t : State}

theorem passStart_eccSeen (u : MemUnit) (w a : Nat) (o : EccOutcome) (s : State) : eccSeen (passStart u w s) a o = eccSeen s a o := by
  rw [passStart_eq]; rfl

theorem EccOnly.dev (h : EccOnly s t) : t.dev = s.dev := by rw [h.rest]
theorem EccOnly.logged (h : EccOnly s t) : t.mem.logged = s.mem.logged := by rw [h.rest]

/-- The regions of the map, the plan's use of them and the phase of the run stay through the counting of a read. -/
theorem EccOnly.uses (h : EccOnly s t) (w : Nat) : plannerCopy t = plannerCopy s ∧ traceRegion t = traceRegion s ∧
    inRun t = inRun s ∧ planUses t w = planUses s w := by
  rw [h.rest]; exact ⟨rfl, rfl, rfl, rfl⟩

theorem lpddrCtrl_lt (a : Nat) : lpddrCtrl a < 16 := by unfold lpddrCtrl; omega

theorem eccRead_hold_corrected {n : Nat} (h : eccSeen s w o = .corrected) (hr : memRegion s w = some (.hold n)) :
    eccRead true w o s = lifeAdd (0x0C80 + 16 * physCore s n) 8 1 (health 0 1 (bump (cntPart n 1) 1 s)) := by
  unfold eccRead
  rw [hr, h]
  simp only [if_true]

theorem eccRead_lpddr_corrected (h : eccSeen s w o = .corrected) (hr : memRegion s w = some .lpddr) :
    eccRead true w o s = lifeAdd (0x12C0 + 16 * lpddrCtrl w) 8 1 (health 0 1 (bump (cntCh (lpddrCtrl w) 3) 1 s)) := by
  unfold eccRead
  rw [hr, h]
  simp only [if_true]

/-- A scrub read counts a corrected word at its unit. -/
theorem eccRead_scrub_corrected (h : eccSeen s w o = .corrected) :
    (∀ n, memRegion s w = some (.hold n) →
      cntExact (eccRead true w o s) (cntPart n 1) = min (cntExact s (cntPart n 1) + 1) (2 ^ 48 - 1)) ∧
    (memRegion s w = some .lpddr →
      cntExact (eccRead true w o s) (cntCh (lpddrCtrl w) 3) = min (cntExact s (cntCh (lpddrCtrl w) 3) + 1) (2 ^ 48 - 1)) := by
  refine ⟨fun n hr => ?_, fun hr => ?_⟩
  · rw [eccRead_hold_corrected h hr, cntExact_of (lifeAdd_cnt ..), cntExact_of (health_cnt ..)]
    exact cntExact_bump_part (by decide) n s
  · rw [eccRead_lpddr_corrected h hr, cntExact_of (lifeAdd_cnt ..), cntExact_of (health_cnt ..)]
    exact cntExact_bump_ch (lpddrCtrl_lt w) (by decide) (by decide) s

/-- A word that the scrubber leaves bad. -/
def scrubBad (s : State) (w : Nat) (o : EccOutcome) : Prop :=
  isPoisoned s w = true ∨ eccSeen s w o = .uncorrectable ∨ eccSeen s w o = .asPoison

/-- The reason that the journal of bad words gives (R250). -/
def scrubReason (s : State) (w : Nat) (o : EccOutcome) : Nat := if eccSeen s w o = .uncorrectable then 1 else 5

/-- What the scrubber counts of a bad word: a stored poison like an uncorrectable one. -/
def scrubCounted (w : Nat) (o : EccOutcome) (s v : State) : State :=
  if scrubReason s w o = 5 then scrubCount w (eccRead true w o v) else eccRead true w o v

theorem scrub_good (hs : scrubs s u = true) (hu : inUnit s u a = true) (hw : w = codeWord s a) (hv : v = passStart u w s)
    (h1 : isPoisoned s w = false) (h2 : eccSeen s w o ≠ .uncorrectable) (h3 : eccSeen s w o ≠ .asPoison) :
    scrub u a o s = eccRead true w o v := by
  subst hv hw
  rw [scrub_eq u a o s hs hu]
  exact if_pos (by simp [h1, h2, h3])

theorem scrub_bad (hs : scrubs s u = true) (hu : inUnit s u a = true) (hw : w = codeWord s a) (hv : v = passStart u w s)
    (h : scrubBad s w o) : scrub u a o s = if v.mem.logged.contains w = true then v
      else logEv 0x0501 (b8 w) (scrubPath w (scrubReason s w o) (noteBad w (scrubCounted w o s v))) := by
  subst hv hw
  rw [scrub_eq u a o s hs hu]
  have bad : ¬ (!isPoisoned s (codeWord s a) && eccSeen s (codeWord s a) o != .uncorrectable &&
      eccSeen s (codeWord s a) o != .asPoison) = true := by
    rcases h with h | h | h <;> simp [h]
  refine (if_neg bad).trans ?_
  simp only [scrubCounted, scrubReason, beq_iff_eq]
  rfl

theorem scrubCounted_only (w : Nat) (o : EccOutcome) (s v : State) : EccOnly v (scrubCounted w o s v) :=
  .ite ((eccRead_only ..).trans (scrubCount_only ..)) (eccRead_only ..)

theorem scrubCounted_ue (h : eccSeen s w o = .uncorrectable) (hv : v = passStart u w s) (hu : inUnit s u w = true) :
    (scrubCounted w o s v).res.ue = true := by
  unfold scrubCounted scrubReason
  rw [if_pos h, if_neg (by decide)]
  subst hv
  refine (eccRead_ue ?_ (by rw [passStart_eccSeen, h])).1
  rw [passStart_eq]
  exact inUnit_region hu

/-- A bad word that the pass has not logged: noted, logged, and taken to its path (R252, R254). -/
structure ScrubLogged (w r : Nat) (s v t : State) : Prop where
  logged : t.mem.logged = v.mem.logged ++ [w]
  cores : t.cores = s.cores
  run : t.run = { s.run with holdDue := t.run.holdDue }
  mem : ¬ (plannerCopy s ≤ w ∧ w < traceRegion s) → ∀ x, ¬ logRing x → memByte t x = memByte s x
  path : ¬ (plannerCopy s ≤ w ∧ w < traceRegion s) → inRun s = true → planUses s w = true →
    4 ≤ t.run.holdDue ∧ (w, r) ∈ t.res.badAddrs

theorem scrubLogged_of_ecc {r : Nat} {l : List Byte} {c : State} (hv : v = passStart u w s) (h : EccOnly v c) :
    ScrubLogged w r s v (logEv 0x0501 l (scrubPath w r (noteBad w c))) := by
  subst hv
  obtain ⟨rest, logged, mem, path⟩ := scrubPath_spec w r (noteBad w c)
  have log := logEv_countsOnly 0x0501 l (scrubPath w r (noteBad w c))
  obtain ⟨lmem, lcores, lrun, lres, -⟩ := log.parts
  obtain ⟨copy, trace, run, uses⟩ := h.uses w
  have start := passStart_eq u w s
  have inner : noteBad w c = { c with mem := { c.mem with logged := c.mem.logged ++ [w] } } := rfl
  have same : plannerCopy (passStart u w s) = plannerCopy s ∧ traceRegion (passStart u w s) = traceRegion s ∧
      inRun (passStart u w s) = inRun s ∧ planUses (passStart u w s) w = planUses s w := by
    rw [start]; exact ⟨rfl, rfl, rfl, rfl⟩
  obtain ⟨copy', trace', run', uses'⟩ := same
  have region : (plannerCopy (noteBad w c) ≤ w ∧ w < traceRegion (noteBad w c)) ↔ (plannerCopy s ≤ w ∧ w < traceRegion s) := by
    rw [← copy', ← trace', ← copy, ← trace]; rfl
  rw [region] at mem path
  refine ⟨?_, ?_, ?_, fun away x hx => ?_, fun away hr hp => ?_⟩
  · rw [lmem, logged, inner, h.logged]
  · rw [lcores, rest, inner, h.rest, start]
  · rw [lrun, rest, inner, h.rest, start]
  · rw [log.mem x hx, mem away x]
    have noted : memByte (noteBad w c) x = memByte c x := memByte_congr x rfl rfl rfl rfl
    rw [noted, h.mem x hx, start]
    exact memByte_congr x rfl rfl rfl rfl
  · obtain ⟨listed, due⟩ := path away (by rw [← hr, ← run', ← run]; rfl) (by rw [← hp, ← uses', ← uses]; rfl)
    rw [lrun, lres]
    exact ⟨due, listed⟩

theorem ue_logged {l : List Byte} {r : Nat} {c : State} (h : c.res.ue = true) :
    (logEv 0x0501 l (scrubPath w r (noteBad w c))).res.ue = true := by
  obtain ⟨-, -, -, lres, -⟩ := (logEv_countsOnly 0x0501 l (scrubPath w r (noteBad w c))).parts
  rw [lres, (scrubPath_spec w r (noteBad w c)).rest]
  exact h

end

/-- Settles O37: a flush, a refresh, a temperature and the two initialisations are one change of their unit; a scrub read is
`eccRead` of a good word, and `scrubLogged_of_ecc` of a bad one that its pass has not logged. -/
theorem memoryUnits : Obligations.MemoryUnits := by
  refine ⟨⟨fun c s => ?flush, fun c s trained awake => ?refresh, fun c t s h1 h2 h3 => ?temp, fun c s init => ?lpddr,
    fun n s init => ?hold⟩, fun u a w o s v hs hu hw hv => ⟨fun h1 h2 h3 => ?good, fun bad => ⟨fun old => ?old, fun new => ?new⟩⟩⟩
  case flush =>
    have only := flushBuffer_storeOnly c s
    refine ⟨_, exec_writeBufferFlush c s, flushBuffer_empty, fun some => ?_, (ch_flushBuffer c s).1, (ch_flushBuffer c s).2,
      only.rest, only.mem⟩
    rw [flushBuffer_sends some]
    exact cntExact_bump_ch c.isLt (by decide) (by decide) s
  case refresh =>
    refine ⟨_, exec_lpddrRefresh c s, ?_⟩
    rw [refresh_runs trained awake]
    exact ⟨ch_modCh_self .., fun d hd => ch_modCh_ne s _ hd, rfl⟩
  case temp =>
    obtain ⟨k, throttle⟩ := updateThrottle_counts (lpddrTemp c t s)
    refine ⟨_, exec_lpddrTempRead c t s, ?_⟩
    rw [lpddrTempRead_powered h1 h2 h3]
    have chs : ∀ d, ch (updateThrottle (lpddrTemp c t s)) d = ch (lpddrTemp c t s) d := fun d => ch_counts throttle d
    refine ⟨?_, fun d hd => ?_, ?_, ?_, fun x hx => ?_⟩
    · exact (chs c).trans (ch_modCh_self ..)
    · exact (chs d).trans (ch_modCh_ne _ _ hd)
    · rw [throttle.rest]; exact sget_sset_self ..
    · rw [throttle.rest]; rfl
    · exact (throttle.mem x hx).trans (memByte_congr x rfl rfl rfl rfl)
  case lpddr =>
    obtain ⟨only, buffers, busy⟩ := lpddrInit_spec init
    refine ⟨_, exec_lpddrInitDone c s, only, fun d => ?_, fun other => ?_⟩
    · rw [buffers.chs d, ch_initialised]
    · rw [busy other]
      refine ⟨fun d => ?_, rfl⟩
      rw [ch_initialised]
      split
      · next h => rw [h]
      · rfl
  case hold =>
    refine ⟨_, exec_holdInitDone n s, ?_⟩
    rw [holdInit_done init]
    exact ⟨part_modPart_self .., fun m hm => part_modPart_ne s _ hm, rfl⟩
  case good =>
    refine ⟨_, exec_scrubRead u a o s, scrub_good hs hu hw hv h1 h2 h3, ?_⟩
    rw [scrub_good hs hu hw hv h1 h2 h3]
    refine ⟨eccRead_only .., fun corrected => ?_⟩
    have start := passStart_eq u w s
    rw [← hv] at start
    have counted := eccRead_scrub_corrected (s := v) (w := w) (o := o) (by rw [hv, passStart_eccSeen, corrected])
    have kept : ∀ k, cntExact v k = cntExact s k := fun k => by rw [start]; rfl
    have region : memRegion v w = memRegion s w := by rw [start]; rfl
    simp only [kept, region] at counted
    exact counted
  case old => rw [exec_scrubRead, scrub_bad hs hu hw hv bad, if_pos old]
  case new =>
    have ran := scrub_bad hs hu hw hv bad
    rw [if_neg (by rw [new]; decide)] at ran
    obtain ⟨logged, cores, run, mem, path⟩ :=
      scrubLogged_of_ecc (r := scrubReason s w o) (l := b8 w) hv (scrubCounted_only w o s v)
    refine ⟨_, exec_scrubRead u a o s, ?_⟩
    rw [ran]
    exact ⟨logged, cores, run, fun lost unit => ue_logged (scrubCounted_ue lost hv unit), fun away => ⟨mem away, path away⟩⟩

end Sys2Proof.Machine
end

section
/-! PROOFS. FW_WRITE and FULL_RESET (R249, R352, R398 to R405, R411, R427). -/

namespace Sys2Proof.Machine

open Sys2Proof

/-! ### FW_WRITE (R398, R399, R404, R405) -/

/-- FW_WRITE past the checks of its entry and its states runs its body. -/
theorem exec_fwWrite {q : RingId} {data : HostData} {e : List Byte} {s : State} (hf : Front s q 0x31 e)
    (hd : s.dev ∈ [DevState.idle, .loaded, .planned, .stopped]) (hz : zeroAt e 0x18 40 = true) :
    exec (.fwWrite q data) s = .next (fwBody q data e s) := by
  refine congrArg Host.Outcome.next (ringCommand_runs hf (fun h => ?_) hz (statesRun_mem ?_))
  · rw [h] at hd; simp at hd
  · simp only [List.mem_cons, List.not_mem_nil, or_false] at hd ⊢
    tauto

section
variable {q : Nat} {data : HostData} {e d : List Byte} {s : State}

theorem fwBody_poisoned (hr : hostRange s (leAt e 8 8) (leAt e 0x10 8) = true) (hp : data.poison = true) :
    fwBody q data e s = complete q 4 [] s := by
  unfold fwBody
  simp only [hr, hp, Bool.not_true, Bool.false_eq_true, if_false, if_true]

theorem fwBody_checks (hr : hostRange s (leAt e 8 8) (leAt e 0x10 8) = true) (hp : data.poison = false)
    (hn : leAt e 0x10 8 ≤ 2 ^ 24) (hd : d = padTo (leAt e 0x10 8) data.bytes) :
    fwBody q data e s = fwChecks q (leAt e 0x10 8) (parseImage d) d s := by
  subst hd
  unfold fwBody
  simp only [hr, hp, if_pos hn, Bool.not_true, Bool.false_eq_true, if_false]

variable {n : Nat} {i : FwImage}

theorem fwChecks_size (h : n ≠ 4096 + i.bodyBytes ∨ n < 4097) : fwChecks q n i d s = complete q 0x42 [] s :=
  if_pos (h.imp_right .inl)

/-- An image of a good size, outside recovery: refused where it does not verify or is too old, else stored. -/
theorem fwChecks_sized (h1 : n = 4096 + i.bodyBytes) (h2 : 4097 ≤ n) (h3 : n ≤ 2 ^ 24) (hd : s.dev ≠ .recovery) :
    fwChecks q n i d s = if imageVerifies s i = false then complete q 0x40 [] (stageImage d s)
      else if i.svn < svnCount s then complete q 0x41 [] (stageImage d s) else storeImage q i (stageImage d s) := by
  unfold fwChecks
  rw [if_neg (by omega), if_neg (c := (s.dev == .recovery) = true) (by simpa using hd)]
  simp only [Bool.not_eq_true']

theorem staging_plain (s : State) (k : Nat) : plainAddr (staging s + k) := by
  have base : lpddrBase ≤ staging s := by unfold staging fromTop; split <;> omega
  unfold lpddrBase at base
  unfold plainAddr logRing sharedBase
  omega

/-- An image passes through the staging region alone (R249). -/
theorem stageImage_spec (d : List Byte) (hd : s.dev ≠ .recovery) : MemOnly s (stageImage d s) ∧
    memBytes (stageImage d s) (staging s) d.length = d ∧
    ∀ x, ¬ logRing x → x < staging s ∨ staging s + d.length ≤ x → memByte (stageImage d s) x = memByte s x := by
  have stored : stageImage d s = memStore (staging s) d s := if_neg (by simpa using hd)
  rw [stored]
  exact ⟨.memStore .., memBytes_memStore s _ d fun k _ => staging_plain s k, fun x hx out => memByte_memStore_ne s _ d hx out⟩

/-- The image in the store for the next boot, its lifetime record written (R404, R411). -/
def imageStored (i : FwImage) (s : State) : State :=
  lifeWrite (lifeAdd 0x48 8 1 { s with flash := { s.flash with image := i, valid := true }, boot := { s.boot with first := true } })

/-- `imageStored`, and its log entry. -/
def imageLogged (i : FwImage) (s : State) : State := logEv 0x0A03 (b4 i.fwVersion ++ b4 i.svn ++ b4 i.slot) (imageStored i s)

theorem storeImage_completes (q : Nat) (i : FwImage) (s : State) : storeImage q i s =
    complete q 0 (b4 i.fwVersion ++ leBytes 1 i.svn ++ leBytes 1 i.slot ++ leBytes 2 0 ++ leBytes 2 i.planner) (imageLogged i s) := rfl

/-- What the store of an image changes: the flash, the lifetime record, and what logging brings. -/
theorem imageLogged_spec (i : FwImage) (s : State) : ∃ v, imageLogged i s = v ∧
    v.flash = { s.flash with image := i, valid := true, lifeSlot := v.flash.lifeSlot, life := v.flash.life } ∧
    v.flash.life.head? = some v.mgmt.life ∧ v.boot = { s.boot with first := true } ∧
    v = { s with flash := v.flash, boot := v.boot, mgmt := { s.mgmt with life := v.mgmt.life }, cnt := v.cnt, log := v.log, host := v.host } ∧
    ∀ x, ¬ logRing x → memByte v x = memByte s x := by
  have log := logEv_countsOnly 0x0A03 (b4 i.fwVersion ++ b4 i.svn ++ b4 i.slot) (imageStored i s)
  refine ⟨_, rfl, ?_, ?_, ?_, ?_, fun x hx => (log.mem x hx).trans (memByte_congr x rfl rfl rfl rfl)⟩
  all_goals unfold imageLogged; rw [log.rest]; rfl

end

/-! ### FULL_RESET (R352, R427) -/

/-- FULL_RESET runs in every state, WEDGED too (R353). -/
theorem exec_fullReset {q : RingId} {e : List Byte} {s : State} (hf : Front s q 0x3F e) (hz : zeroAt e 8 56 = true) :
    exec (.fullReset q) s = .next (resetAndBoot (complete q 0 [] s)) := by
  obtain ⟨front, z1, z4⟩ := hf
  refine congrArg Host.Outcome.next ?_
  unfold ringCommand
  simp [front, z1, z4, hz, anyState]

theorem reg_of_filter {s u : State} (h : u.regs = s.regs.filter fun x => keptAtReset x.1) (o : Nat) :
    reg u o = if keptAtReset o then reg s o else (regReset o).toNat := by
  unfold reg regW
  rw [h]
  by_cases kept : keptAtReset o = true
  · rw [if_pos kept, sget_filter fun _ => kept]
  · rw [if_neg kept, sget_filter_none fun _ => by simpa using kept]

/-- What a boot leaves of a reset: no package, plan, run or core, and the registers and the image in the store (R352, R401). -/
theorem BootKeeps.fields {s u : State} (h : BootKeeps s u) : u.pkg = s.pkg ∧ u.plan = s.plan ∧ u.sources = s.sources ∧ u.run = s.run ∧
    u.cox = s.cox ∧ u.adm = s.adm ∧ u.cores = s.cores ∧ u.red = s.red ∧ u.res.journal = s.res.journal ∧ u.flash = s.flash ∧
    u.regs = s.regs := by
  unfold BootKeeps at h
  rw [h]
  exact ⟨rfl, rfl, rfl, rfl, rfl, rfl, rfl, rfl, rfl, rfl, rfl⟩

theorem resetAndBoot_fields (t : State) : (resetAndBoot t).pkg = none ∧ (resetAndBoot t).plan = none ∧ (resetAndBoot t).sources = [] ∧
    (resetAndBoot t).run = {} ∧ (resetAndBoot t).cox = {} ∧ (resetAndBoot t).adm = {} ∧ (resetAndBoot t).cores = [] ∧
    (resetAndBoot t).red = {} ∧ (resetAndBoot t).res.journal = [] ∧ (resetAndBoot t).flash = t.flash ∧
    (resetAndBoot t).regs = t.regs.filter fun x => keptAtReset x.1 := by
  obtain ⟨pkg, plan, sources, run, cox, adm, cores, red, journal, -, regs, -, -, flash, -⟩ := fullReset_fields t
  obtain ⟨pkg', plan', sources', run', cox', adm', cores', red', journal', flash', regs'⟩ := (bootSequence_keeps (fullReset t)).fields
  exact ⟨pkg'.trans pkg, plan'.trans plan, sources'.trans sources, run'.trans run, cox'.trans cox, adm'.trans adm, cores'.trans cores,
    red'.trans red, journal'.trans journal, flash'.trans flash, regs'.trans regs⟩

theorem keyOk_of_fuses {s u : State} (h : u.fuses = s.fuses) (i : FwImage) : keyOk u i = keyOk s i := by unfold keyOk; rw [h]
theorem svnCount_of_fuses {s u : State} (h : u.fuses = s.fuses) : svnCount u = svnCount s := by unfold svnCount; rw [h]

/-- A reset and its boot, where the image in the store is good (R352, R401). -/
theorem resetAndBoot_idle {t : State} (h1 : t.pins.perst = false) (h2 : t.pins.pwrgood = true) (h3 : t.flash.valid = true)
    (h4 : t.flash.image.formOk = true) (h5 : keyOk t t.flash.image = true) (h6 : t.flash.image.ecdsaOk = true)
    (h7 : t.flash.image.lmsOk = true) (h8 : t.flash.image.digestOk = true) (h9 : svnCount t ≤ t.flash.image.svn) :
    (resetAndBoot t).dev = .idle ∧ (resetAndBoot t).pwr.domains = true := by
  obtain ⟨-, -, -, -, -, -, -, -, -, -, -, perst, pwrgood, flash, fuses, recovery⟩ := fullReset_fields t
  refine boot_idle _ (by rw [perst, h1]) (by rw [pwrgood, h2]) ?_ ?_ ?_ ?_ ?_ ?_ ?_ recovery
  all_goals rw [flash]
  · exact h3
  · exact h4
  · rw [keyOk_of_fuses fuses]; exact h5
  · exact h6
  · exact h7
  · exact h8
  · rw [svnCount_of_fuses fuses]; exact h9

/-- Settles O31: an image is checked by `fwChecks_sized` and stored by `imageLogged_spec`; a full reset is `fullReset_fields` and a
boot, which `boot_idle` brings to IDLE. -/
theorem firmwareWrite : Obligations.FirmwareWrite := by
  refine ⟨fun q data i e d s hf hd hz hr => ⟨fun hp => ?poisoned, fun hp hn hd' hi => ⟨fun size => ?size, fun h1 h2 => ?sized⟩⟩,
    fun q e s hf hz => ?reset⟩
  case poisoned => rw [exec_fwWrite hf hd hz, fwBody_poisoned hr hp]
  case size =>
    subst hi
    rw [exec_fwWrite hf hd hz, fwBody_checks hr hp hn hd', fwChecks_size size]
  case sized =>
    have up : s.dev ≠ .recovery := fun h => by rw [h] at hd; simp at hd
    obtain ⟨only, bytes, frame⟩ := stageImage_spec d up
    have runs : exec (.fwWrite q data) s = .next (fwChecks q (leAt e 0x10 8) i d s) := by
      rw [exec_fwWrite hf hd hz, fwBody_checks hr hp hn hd', hi]
    rw [fwChecks_sized h1 h2 hn up] at runs
    refine ⟨_, only, bytes, frame, fun bad => ?_, fun good old => ?_, fun good new => ?_⟩
    · rw [runs, if_pos bad]
    · rw [runs, if_neg (by simp [good]), if_pos old]
    · obtain ⟨v, hv, flash, life, boot, rest, mem⟩ := imageLogged_spec i (stageImage d s)
      rw [only.rest] at flash boot
      refine ⟨v, ?_, flash, life, boot, ?_, mem⟩
      · rw [runs, if_neg (by simp [good]), if_neg (by omega), storeImage_completes, hv]
      · have mgmt : (stageImage d s).mgmt = s.mgmt := by rw [only.rest]
        rw [← mgmt]
        exact rest
  case reset =>
    have replied := (HostOnly.complete q 0 [] s).rest
    generalize hw : complete q 0 [] s = w at replied
    obtain ⟨pkg, plan, sources, run, cox, adm, cores, red, journal, flash, regs⟩ := resetAndBoot_fields w
    have kept := reg_of_filter (s := s) (u := resetAndBoot w) (by rw [regs, replied])
    refine ⟨_, by rw [exec_fullReset hf hz, hw], pkg, plan, sources, run, cox, adm, cores, red, journal, ?_, fun o h => ?_, fun o h => ?_,
      fun h1 h2 h3 h4 h5 h6 h7 h8 h9 => ?_⟩
    · rw [flash, replied]
    · rw [kept, if_neg (by simp [h])]
    · rw [kept, if_pos h]
    · apply resetAndBoot_idle <;> rw [replied] <;> assumption

end Sys2Proof.Machine
end

section
/-! PROOFS. Register writes with an effect (R244, R248, R302, R336, R354, R360, R363, R386, R431). -/

namespace Sys2Proof.Machine

open Sys2Proof

/-! ### A stored value (R424) -/

/-- A register with a new value, once the access has been noticed (R363, R364). -/
def regStored (off n : Nat) (s : State) : State := setReg off n (wakeAccess s)

section
variable {off n : Nat} {s : State}

theorem regStored_eq (off n : Nat) (s : State) : regStored off n s =
    { s with regs := (regStored off n s).regs, pwr := { s.pwr with exiting := (regStored off n s).pwr.exiting } } := by
  unfold regStored setReg
  rw [wakeAccess_eq]

theorem reg_regStored (h : n < 2 ^ 32) (s : State) : reg (regStored off n s) off = n :=
  (reg_setReg_self ..).trans (Nat.mod_eq_of_lt h)

theorem reg_regStored_ne (n : Nat) (s : State) {o : Nat} (h : o ≠ off) : reg (regStored off n s) o = reg s o :=
  (reg_setReg_ne _ n h).trans (by rw [wakeAccess_eq]; rfl)

theorem masked_lt (v : Word) (m : Nat) : v.toNat &&& m < 2 ^ 32 := Nat.lt_of_le_of_lt Nat.and_le_left v.isLt

/-- A write of a register none of whose fields is locked stores its RW fields, and then has its effect. -/
theorem writeReg_runs {v : Word} {m c k : Nat} (h : Writable (wakeAccess s) off) (ho : off < 0x2000000)
    (hi : regInfo off = some { rw := m, cmd := c, reset := k }) (hc : m ≠ 0 ∨ c ≠ 0) (hl : lockedFields s off = 0)
    (hok : regOk off (v.toNat &&& m) = true) :
    writeReg off v.toNat s = writeEffect off (reg s off) (v.toNat &&& m) v.toNat 0xFFFFFFFF (regStored off (v.toNat &&& m) s) :=
  writeReg_eq (r := { rw := m, cmd := c, reset := k }) h ho hi hc hl v.isLt hok

end

/-! ### HST_RING_CTL (R336, R338, R354) -/

theorem lockedFields_ring {q : Nat} {s : State} (hq : q < 64) (h : ringEnabled s q = false) : lockedFields s (ringReg q 0x10) = 0 := by
  have index : (ringReg q 0x10 - 0x3000) / 0x20 = q := by unfold ringReg; omega
  unfold lockedFields
  rw [if_neg (by unfold ringReg; omega), if_neg (by unfold ringReg; omega), if_pos (by unfold ringReg; omega), index, h]
  rfl

theorem regOk_ring {q v : Nat} (hq : q < 64) (h1 : 4 ≤ bitsN v 0 5) (h2 : bitsN v 0 5 ≤ 16) (h3 : 4 ≤ bitsN v 8 5) (h4 : bitsN v 8 5 ≤ 16) :
    regOk (ringReg q 0x10) (v &&& 0x11F1F) = true := by
  have sizes : bitsN (v &&& 0x11F1F) 0 5 = bitsN v 0 5 ∧ bitsN (v &&& 0x11F1F) 8 5 = bitsN v 8 5 :=
    ⟨bitsN_masked (by decide), bitsN_masked (by decide)⟩
  unfold regOk
  rw [if_pos (by unfold ringReg; omega), if_neg (by unfold ringReg; omega), if_neg (by unfold ringReg; omega),
    if_pos (by unfold ringReg; omega), sizes.1, sizes.2]
  simp [h1, h2, h3, h4]

/-- What a write of ENABLE leaves of a ring pair: FETCH_ERR stays at a 1, and alone goes at a 0. -/
def ringWritten (enable : Bool) (R : RingSt) : RingSt := if enable then { fetchErr := R.fetchErr } else { R with fetchErr := false }

theorem writeEffect_ring {q : Nat} (hq : q < 64) (old v : Nat) (s : State) :
    writeEffect (ringReg q 0x10) old (v &&& 0x11F1F) v 0xFFFFFFFF s = modRing q (ringWritten (bitN v 16)) s := by
  have index : (ringReg q 0x10 - 0x3000) / 0x20 = q := by unfold ringReg; omega
  unfold writeEffect
  rw [if_pos (by unfold ringReg; omega), if_neg (by decide), index, bit_masked (by decide)]
  cases bitN v 16 <;> rfl

theorem exec_ringEnable (q : RingId) (v : Word) (s : State) : exec (.ringEnable q v) s = .next (writeReg (ringReg q 0x10) v.toNat s) := rfl

/-! ### PWR_NEXT, CNT_SNAP_CTL, MGT_POSITION (R363, R386, R431) -/

theorem exec_pwrNext (v : Word) (s : State) : exec (.pwrNext v) s = .next (writeReg 0xB008 v.toNat s) := rfl
theorem exec_cntSnap (v : Word) (s : State) : exec (.cntSnap v) s = .next (writeReg 0x200000 v.toNat s) := rfl
theorem exec_mgtPositionWrite (v : Word) (s : State) : exec (.mgtPositionWrite v) s = .next (writeReg 0x10 v.toNat s) := rfl

theorem writeEffect_pwrNext (old new v : Nat) (s : State) : writeEffect 0xB008 old new v 0xFFFFFFFF s =
    { s with pwr := { s.pwr with nextAt := if new = 0 then none else some (s.boot.uptime + 1000 * new) } } := rfl

theorem writeEffect_cntSnap {v : Nat} (h : bitN v 0 = true) (old new : Nat) (s : State) :
    writeEffect 0x200000 old new v 0xFFFFFFFF s = takeSnapshot (bitsN new 8 5) s := by
  have bit : (bitN 0xFFFFFFFF 0 && bitN v 0) = true := by rw [h]; decide
  exact (rfl : _ = if (bitN 0xFFFFFFFF 0 && bitN v 0) = true then takeSnapshot (bitsN new 8 5) s else s).trans (if_pos bit)

theorem writeEffect_position (old new v : Nat) (s : State) : writeEffect 0x10 old new v 0xFFFFFFFF s = identityExchange s := rfl

/-! ### LNK_CTL (R270, R302) -/

theorem exec_portEnable (p : PortId) (v : Word) (s : State) : exec (.portEnable p v) s = .next (writeReg (portReg p 0) v.toNat s) := rfl

theorem exec_portSplitChange (p : PortId) (v : Word) (s : State) :
    exec (.portSplitChange p v) s = .next (writeReg (portReg p 0) v.toNat s) := by
  refine congrArg Host.Outcome.next ?_
  unfold writeBar0
  rw [if_pos ⟨rfl, by unfold portReg; omega⟩, Nat.mod_eq_of_lt v.isLt]

section
variable {p : Nat} {v : Word} {s : State} (h : Writable (wakeAccess s) (portReg p 0)) (hp : p < 16) (free : s.plan = none)
include h hp free

/-- ENABLE written 1 with another SPLIT, or on a port that is off: the port trains. -/
theorem writeReg_trains (on : bitN v.toNat 0 = true)
    (change : bitN (reg s (portReg p 0)) 0 = false ∨ bitN (reg s (portReg p 0)) 1 ≠ bitN v.toNat 1) :
    writeReg (portReg p 0) v.toNat s = portTrain p (regStored (portReg p 0) (v.toNat &&& 7) s) := by
  rw [port_write h hp free v.isLt, if_pos on, if_neg]
  · rfl
  · rcases change with off | split
    · simp [off]
    · simp [split]

theorem writeReg_stops (off : bitN v.toNat 0 = false) (on : bitN (reg s (portReg p 0)) 0 = true) :
    writeReg (portReg p 0) v.toNat s = portDown p (regStored (portReg p 0) (v.toNat &&& 7) s) := by
  rw [port_write h hp free v.isLt, if_neg (by simp [off]), if_pos on]
  rfl

end

/-- A port that trains is off until it has, and no other port changes. -/
theorem portTrain_spec (p : Nat) (s : State) : ∃ u, portTrain p s = u ∧
    (port u p).sub0 = { (port s p).sub0 with up := false, training := true, lanes := 0, peerValid := false } ∧
    (port u p).sub1 = { (port s p).sub1 with up := false, training := bitN (reg s (portReg p 0)) 1, lanes := 0, peerValid := false } ∧
    (port u p).failedLanes = 0 ∧ (port u p).spared = false ∧ (∀ q, q ≠ p → port u q = port s q) ∧
    u = { s with link := { s.link with port := u.link.port } } := by
  refine ⟨_, rfl, ?_, ?_, ?_, ?_, fun q hq => port_modPort_ne s _ hq, rfl⟩
  all_goals unfold portTrain; rw [port_modPort_self]

theorem portDown_spec (p : Nat) (s : State) : ∃ u, portDown p s = u ∧ (port u p).sub0.up = false ∧ (port u p).sub1.up = false ∧
    (port u p).sub0.peerValid = false ∧ ∀ q, q ≠ p → port u q = port s q := by
  refine ⟨_, rfl, ?_, ?_, ?_, fun q hq => port_modPort_ne s _ hq⟩
  all_goals unfold portDown; rw [port_modPort_self]

/-! ### MEM_CTL and PWR_CMD (R244, R248, R360) -/

theorem exec_inlineEccChange (v : Word) (s : State) : exec (.inlineEccChange v) s = .next (writeReg 0x400000 v.toNat s) := rfl
theorem exec_pwrMoor (v : Word) (s : State) : exec (.pwrMoor v) s = .next (writeReg 0xB000 v.toNat s) := rfl

theorem lockedFields_eccFree {s : State} (h : s.plan = none) : lockedFields s 0x400000 = 0 := by
  unfold lockedFields anyRunLock
  simp [h]

theorem writeEffect_ecc {old new : Nat} (h : bitN old 0 ≠ bitN new 0) (v : Nat) (s : State) :
    writeEffect 0x400000 old new v 0xFFFFFFFF s = eccChanged s :=
  (rfl : _ = if (bitN old 0 != bitN new 0) = true then eccChanged s else s).trans (if_pos (by simpa using h))

theorem writeEffect_moor {v : Nat} (h : bitN v 0 = true) (old new : Nat) (s : State) :
    writeEffect 0xB000 old new v 0xFFFFFFFF s = if moorAllowed s then moor s else refuseWrite s := by
  have bit : (bitN 0xFFFFFFFF 0 && bitN v 0) = true := by rw [h]; decide
  exact (rfl : _ = if (bitN 0xFFFFFFFF 0 && bitN v 0) = true then (if moorAllowed s then moor s else refuseWrite s) else s).trans (if_pos bit)

theorem moorAllowed_regStored (off n : Nat) (s : State) : moorAllowed (regStored off n s) = moorAllowed s := by
  rw [regStored_eq]; rfl

/-- Settles O34: each write stores its value by `writeReg_runs`, and its effect is one operation of the device. -/
theorem registerEvents : Obligations.RegisterEvents := by
  refine ⟨fun q v s hw off h1 h2 h3 h4 => ?ring, fun v s hw => ?next, fun v s hw start => ?snapshot, fun v s hw => ?position,
    fun p v s hw free on change => ?retrain, fun p v s hw free off on => ?stop, fun v s hw free change => ?ecc, fun v s hw start => ?power⟩
  case ring =>
    have runs := writeReg_runs (v := v) hw (by unfold ringReg; omega) (regInfo_ring q.isLt) (.inl (by decide)) (lockedFields_ring q.isLt off)
      (regOk_ring q.isLt h1 h2 h3 h4)
    rw [writeEffect_ring q.isLt] at runs
    have rest := regStored_eq (ringReg q 0x10) (v.toNat &&& 0x11F1F) s
    have rings : ∀ r, ring (regStored (ringReg q 0x10) (v.toNat &&& 0x11F1F) s) r = ring s r := fun r => by rw [rest]; rfl
    refine ⟨_, (exec_ringEnable ..).trans (congrArg _ runs), reg_regStored (masked_lt v _) s, fun o ho => reg_regStored_ne _ s ho, ?_, fun r hr => ?_, ?_⟩
    · rw [ring_modRing_self, rings]; rfl
    · rw [ring_modRing_ne _ _ hr, rings]
    · unfold modRing
      rw [rest]
  case next =>
    have runs := writeReg_runs (v := v) hw (by decide) rfl (.inl (by decide)) rfl rfl
    rw [writeEffect_pwrNext, and_ones v.isLt] at runs
    have rest := regStored_eq 0xB008 v.toNat s
    refine ⟨_, (exec_pwrNext ..).trans (congrArg _ runs), reg_regStored v.isLt s, ?_, ?_⟩
    · rw [rest]
    · rw [rest]
  case snapshot =>
    have runs := writeReg_runs (v := v) hw (by decide) rfl (.inl (by decide)) rfl rfl
    rw [writeEffect_cntSnap start, bitsN_masked (by decide)] at runs
    have rest := regStored_eq 0x200000 (v.toNat &&& 0x1F00) s
    obtain ⟨taken, seq, stroke, counts⟩ := takeSnapshot_spec (bitsN v.toNat 8 5) (regStored 0x200000 (v.toNat &&& 0x1F00) s)
    refine ⟨_, (exec_cntSnap ..).trans (congrArg _ runs), ?_, ?_, ?_, fun k => ?_⟩
    · rw [taken, rest]
    · rw [seq, rest]
    · rw [stroke, rest]
    · rw [counts, rest]; rfl
  case position =>
    have runs := writeReg_runs (v := v) hw (by decide) rfl (.inl (by decide)) rfl rfl
    rw [writeEffect_position] at runs
    have rest := regStored_eq 0x10 (v.toNat &&& 0x80000FFF) s
    obtain ⟨o, sent, told⟩ := identityExchange_spec (regStored 0x10 (v.toNat &&& 0x80000FFF) s)
    refine ⟨_, (exec_mgtPositionWrite ..).trans (congrArg _ runs), ?_, ?_, fun p hp up => ?_⟩
    · rw [sent]; exact reg_regStored (masked_lt v _) s
    · rw [sent, rest]
    · rw [sent]
      refine List.mem_append_left _ (told p hp ?_)
      rw [rest]; exact up
  case retrain =>
    have runs := writeReg_trains (v := v) hw p.isLt free on change
    have rest := regStored_eq (portReg p 0) (v.toNat &&& 7) s
    have stored : reg (regStored (portReg p 0) (v.toNat &&& 7) s) (portReg p 0) = (v.toNat &&& 7) := reg_regStored (masked_lt v _) s
    have ports : ∀ q, port (regStored (portReg p 0) (v.toNat &&& 7) s) q = port s q := fun q => by rw [rest]; rfl
    obtain ⟨u, hu, sub0, sub1, lanes, spared, others, only⟩ := portTrain_spec p (regStored (portReg p 0) (v.toNat &&& 7) s)
    rw [hu] at runs
    rw [ports] at sub0
    rw [ports, stored, bit_masked (by decide)] at sub1
    refine ⟨u, (exec_portEnable ..).trans (congrArg _ runs), (exec_portSplitChange ..).trans (congrArg _ runs), ?_, sub0, sub1, lanes,
      spared, fun q hq => (others q hq).trans (ports q), ?_⟩
    · rw [only]; exact stored
    · rw [only, rest]
  case stop =>
    obtain ⟨u, hu, sub0, sub1, peer, others⟩ := portDown_spec p (regStored (portReg p 0) (v.toNat &&& 7) s)
    have runs := writeReg_stops (v := v) hw p.isLt free off on
    rw [hu] at runs
    refine ⟨u, (exec_portEnable ..).trans (congrArg _ runs), sub0, sub1, peer, fun q hq => (others q hq).trans ?_⟩
    rw [regStored_eq]; rfl
  case ecc =>
    have runs := writeReg_runs (v := v) hw (by decide) rfl (.inl (by decide)) (lockedFields_eccFree free) rfl
    rw [writeEffect_ecc (by rwa [bit_masked (by decide)])] at runs
    have rest := regStored_eq 0x400000 (v.toNat &&& 3) s
    obtain ⟨init, ⟨m, gone⟩, zero⟩ := eccChanged_spec (regStored 0x400000 (v.toNat &&& 3) s)
    refine ⟨_, (exec_inlineEccChange ..).trans (congrArg _ runs), ?_, init, zero, ?_⟩
    · rw [gone]; exact reg_regStored (masked_lt v _) s
    · rw [gone]
      unfold dropPkg dropLpddr zeroMem
      rw [rest]
  case power =>
    have runs := writeReg_runs (v := v) hw (by decide) rfl (.inl (by decide)) rfl rfl
    rw [writeEffect_moor start, moorAllowed_regStored] at runs
    have rest := regStored_eq 0xB000 (v.toNat &&& 2) s
    refine ⟨fun allowed => ?_, fun refused => ?_⟩
    · obtain ⟨state, domains, link, ports, dev, pkg⟩ := moor_fields (regStored 0xB000 (v.toNat &&& 2) s)
      rw [if_pos allowed] at runs
      exact ⟨_, (exec_pwrMoor ..).trans (congrArg _ runs), state, domains, link, ports, dev.trans (by rw [rest]), pkg.trans (by rw [rest])⟩
    · rw [if_neg (by simp [refused])] at runs
      refine ⟨_, (exec_pwrMoor ..).trans (congrArg _ runs), ?_, ?_⟩
      · rw [rest]
      · rw [rest]

end Sys2Proof.Machine
end

section
/-! PROOFS. COPY and the BAR4 window (R242, R250, R251, R258, R334, R346, R347). -/

namespace Sys2Proof.Machine

open Sys2Proof

/-! ### Bytes that a transfer may read and write (R250) -/

/-- A read of the byte delivers it: it exists, its target is on, its word is neither lost nor poison. -/
structure Readable (s : State) (a : Nat) : Prop where
  here : (memRegion s a).isNone = false
  on : targetAway s a = false
  kept : isLost s a = false
  clean : isPoisoned s a = false

/-- A write of the byte is stored. -/
structure Storable (s : State) (a : Nat) : Prop where
  here : (memRegion s a).isNone = false
  on : targetAway s a = false

/-- `f` holds of no byte of a range. -/
theorem any_range_false {n : Nat} {f : Nat → Bool} : ((List.range n).any f) = false ↔ ∀ i, i < n → f i = false := by
  simp [List.any_eq_false]

theorem memReason_zero {s : State} {a n : Nat} : memReason s a n = 0 ↔ ∀ i, i < n → Readable s (a + i) := by
  unfold memReason anyLost anyPoison
  constructor
  · intro h i hi
    split at h
    · cases h
    · next here =>
      split at h
      · cases h
      · next on =>
        split at h
        · cases h
        · next kept =>
          split at h
          · cases h
          · next clean =>
            simp only [Bool.not_eq_true, any_range_false] at here on kept clean
            exact ⟨here i hi, on i hi, kept i hi, clean i hi⟩
  · intro h
    rw [if_neg, if_neg, if_neg, if_neg] <;> rw [Bool.not_eq_true, any_range_false] <;> intro i hi
    · exact (h i hi).clean
    · exact (h i hi).kept
    · exact (h i hi).on
    · exact (h i hi).here

theorem writeReason_zero {s : State} {a n : Nat} : writeReason s a n = 0 ↔ ∀ i, i < n → Storable s (a + i) := by
  unfold writeReason
  constructor
  · intro h i hi
    split at h
    · cases h
    · next here =>
      split at h
      · cases h
      · next on =>
        simp only [Bool.not_eq_true, any_range_false] at here on
        exact ⟨here i hi, on i hi⟩
  · intro h
    rw [if_neg, if_neg] <;> rw [Bool.not_eq_true, any_range_false] <;> intro i hi
    · exact (h i hi).on
    · exact (h i hi).here

/-! ### What a clean transfer leaves (R246, R251, R304) -/

/-- A transfer that meets no error: memory and its controllers, counters, lifetime fields and the health monitor's inputs may
differ, and no word has become lost or poison. -/
structure Moves (s t : State) : Prop where
  rest : t = { s with mem := t.mem, cnt := t.cnt, log := t.log, host := t.host, mgmt := { s.mgmt with life := t.mgmt.life }
                      res := { s.res with now := t.res.now } }
  clean : ∀ a, isPoisoned s a = false → isPoisoned t a = false
  kept : ∀ a, isLost s a = false → isLost t a = false

theorem Moves.trans {s t u : State} (h : Moves s t) (k : Moves t u) : Moves s u where
  rest := by rw [k.rest, h.rest]
  clean a ha := k.clean a (h.clean a ha)
  kept a ha := k.kept a (h.kept a ha)

/-- Where memory stays, no word changes. -/
theorem Moves.of {s t : State} (h : t = { s with
    cnt := t.cnt, log := t.log, host := t.host, mgmt := { s.mgmt with life := t.mgmt.life }
    res := { s.res with now := t.res.now } }) : Moves s t where
  rest := by rw [h]
  clean a ha := by rw [h]; exact ha
  kept a ha := by rw [h]; exact ha

theorem Moves.refl (s : State) : Moves s s := .of rfl
theorem Moves.counts {s t : State} (h : CountsOnly s t) : Moves s t := .of (by rw [h.rest])

theorem Moves.store {s t : State} (h : StoreOnly s t) : Moves s t where
  rest := by rw [h.rest]
  clean a ha := by rw [h.rest]; exact ha
  kept a ha := by rw [h.rest]; exact ha

theorem sget_foldl_false (l : List Nat) (m : List (Nat × Bool)) (w : Nat) (h : sget poisonD m w = false) :
    sget poisonD (l.foldl (fun m x => sset poisonD m x false) m) w = false := by
  induction l generalizing m with
  | nil => exact h
  | cons x l ih =>
    refine ih _ ?_
    rw [sget_sset]
    split
    · rfl
    · exact h

theorem Moves.memWrite (a : Nat) (l : List Byte) (s : State) : Moves s (memWrite a l s) where
  rest := rfl
  clean x hx := sget_foldl_false _ _ _ hx
  kept x hx := by
    have lost : codeWord s x ∉ s.mem.ue := fun h => by rw [isLost, List.contains_iff_mem.2 h] at hx; cases hx
    show ((s.mem.ue.filter _).contains (codeWord s x)) = false
    rw [← Bool.not_eq_true, List.contains_iff_mem, List.mem_filter]
    exact fun h => lost h.1

theorem Moves.memStore (a : Nat) (l : List Byte) (s : State) : Moves s (memStore a l s) :=
  (Moves.memWrite a l s).trans (.store (memStore_only a l s))

theorem Moves.region {s t : State} (h : Moves s t) (a : Nat) : memRegion t a = memRegion s a :=
  memRegion_congr (by rw [h.rest]) (by rw [h.rest]) a
theorem Moves.away {s t : State} (h : Moves s t) (a : Nat) : targetAway t a = targetAway s a := by rw [h.rest]; rfl
theorem Moves.window {s t : State} (h : Moves s t) (a : Nat) : devToHost t a = devToHost s a := devToHost_of (by rw [h.rest]) a

theorem Moves.readable {s t : State} (h : Moves s t) {a : Nat} (k : Readable s a) : Readable t a :=
  ⟨by rw [h.region]; exact k.here, by rw [h.away]; exact k.on, h.kept a k.kept, h.clean a k.clean⟩
theorem Moves.storable {s t : State} (h : Moves s t) {a : Nat} (k : Storable s a) : Storable t a :=
  ⟨by rw [h.region]; exact k.here, by rw [h.away]; exact k.on⟩

/-! ### Reads that meet no error (R242, R247) -/

/-- An outcome that delivers the word. -/
def Delivers (o : EccOutcome) : Prop := o = .clean ∨ o = .corrected ∨ o = .linkCorrected ∨ o = .linkRepeated

section
variable {s : State} {a n : Nat} {o : EccOutcome}

theorem eccSeen_delivers (h : isLost s a = false) (ho : Delivers o) : Delivers (eccSeen s a o) := by
  unfold eccSeen
  have clean : Delivers .clean := .inl rfl
  extract_lets word
  split
  · split
    · exact clean
    · rw [if_neg (by simp [h])]; split <;> assumption
  · split
    · split <;> assumption
    · rw [if_neg (by simp [h])]; split <;> assumption
  · exact clean

theorem readReason_delivers (h : ∀ i, i < n → Readable s (a + i)) (hn : 0 < n) (ho : Delivers o) : readReason s a n o = 0 := by
  have reason : memReason s a n = 0 := memReason_zero.2 h
  unfold readReason
  extract_lets r
  rw [if_neg (by show ¬ (memReason s a n = 4 ∨ memReason s a n = 2); rw [reason]; decide)]
  rcases eccSeen_delivers (h 0 hn).kept ho with e | e | e | e <;> rw [Nat.add_zero] at e <;> rw [e] <;> exact reason

theorem Moves.counted (k c w m : Nat) {v : State} (h : CountsOnly s v) : Moves s (lifeAdd k w m (health 0 c v)) :=
  (Moves.counts h).trans (.of rfl)

/-- Counting a word that is delivered brings no lost and no poisoned word. -/
theorem eccRead_moves (b : Bool) (h : Delivers (eccSeen s a o)) : Moves s (eccRead b a o s) := by
  unfold eccRead
  split
  · exact .counted _ _ _ _ (bump_countsOnly ..)
  · next e => rw [e] at h; exact absurd h (by unfold Delivers; decide)
  · exact .counted _ _ _ _ (bump_countsOnly ..)
  · next e => rw [e] at h; exact absurd h (by unfold Delivers; decide)
  · exact .counts (bump_countsOnly ..)
  · exact .counts (bump_countsOnly ..)
  · next e => rw [e] at h; exact absurd h (by unfold Delivers; decide)
  · next e => rw [e] at h; exact absurd h (by unfold Delivers; decide)
  · exact .refl s

/-- A read counts its first word alone where no word of its range is lost. -/
theorem readCount_first (h : ∀ i, i < n → isLost s (a + i) = false) : readCount a n o s = eccRead false a o s := by
  have none : (if s.mem.ue.isEmpty then [] else
      (List.range n).filter fun i => decide (0 < i) && codeWord s (a + i) == a + i && isLost s (a + i)) = [] := by
    split
    · rfl
    · exact List.filter_eq_nil_iff.2 fun i hi => by simp [h i (List.mem_range.1 hi)]
  unfold readCount
  rw [none]
  rfl

theorem readCount_moves (h : ∀ i, i < n → isLost s (a + i) = false) (hn : 0 < n) (ho : Delivers o) : Moves s (readCount a n o s) := by
  rw [readCount_first h]
  exact eccRead_moves false (eccSeen_delivers (h 0 hn) ho)

end

/-! ### One transfer of a COPY (R258) -/

theorem unitRoom_pos (s : State) (a : Nat) : 0 < unitRoom s a := by
  unfold unitRoom
  split <;> omega

theorem slice_length (l : List Byte) (o k : Nat) : (slice l o k).length = k := by unfold slice; simp

theorem slice_get (l : List Byte) {o k i : Nat} (h : i < k) : (slice l o k)[i]? = some (l.getD (o + i) 0) := by
  unfold slice
  simp [h]

/-- What a read of a transfer finds lies in it, and delivers. -/
theorem foundIn_delivers {found : List (Nat × EccOutcome)} (h : ∀ y ∈ found, Delivers y.2) {off k : Nat} (hk : 0 < k) :
    ∃ i o, foundIn found (off, k) = (off + i, o) ∧ i < k ∧ Delivers o := by
  unfold foundIn
  cases hf : found.find? fun y => decide (off ≤ y.1) && decide (y.1 < off + k) with
  | none => exact ⟨0, .clean, rfl, hk, .inl rfl⟩
  | some y =>
    have inside := List.find?_some hf
    simp only [Bool.and_eq_true, decide_eq_true_eq] at inside
    refine ⟨y.1 - off, y.2, ?_, by omega, h y (List.mem_of_find?_eq_some hf)⟩
    rw [Nat.add_sub_cancel' inside.1]
    rfl

/-- A transfer whose read delivers and whose write is stored: its bytes are at the destination, and no other byte changes. -/
theorem copyMove_clean {src dst : Nat} {data : HostData} {bytes : List Byte} {found : List (Nat × EccOutcome)} {off k : Nat} {t : State}
    (hk : 0 < k) (hf : ∀ y ∈ found, Delivers y.2) (hr : ∀ i, i < k → Readable t (src + off + i))
    (hs : isHostAddr (src + off) = false) (hw : ∀ i, i < k → Storable t (dst + off + i)) (hd : devToHost t (dst + off) = none)
    (hp : ∀ i, i < k → plainAddr (dst + off + i)) :
    ∃ u, copyMove src dst data bytes found (off, k) (t, false) = (u, false) ∧ Moves t u ∧
      (∀ i, i < k → memByte u (dst + off + i) = bytes.getD (off + i) 0) ∧
      ∀ x, ¬ logRing x → x < dst + off ∨ dst + off + k ≤ x → memByte u x = memByte t x := by
  obtain ⟨i, o, hfound, hi, ho⟩ := foundIn_delivers hf (off := off) hk
  have rest : ∀ j, j < k - i → Readable t (src + (off + i) + j) := fun j hj => by
    have := hr (i + j) (by omega)
    rwa [show src + off + (i + j) = src + (off + i) + j by omega] at this
  have reads : memReason t (src + off) k = 0 := memReason_zero.2 hr
  have first : readReason t (src + (off + i)) 1 o = 0 := readReason_delivers (fun j hj => rest j (by omega)) (by decide) ho
  have writes : (if isHostAddr (dst + off) then 0 else writeReason t (dst + off) k) = 0 := by
    rw [writeReason_zero.2 hw]; exact ite_self 0
  have length : off + k - (off + i) = k - i := by omega
  have read : Moves t (copyRead src (off + i, 0) (off, k) o dst t) := by
    unfold copyRead
    rw [length]
    exact (readCount_moves (fun j hj => (rest j hj).kept) (by omega) ho).trans (.counts (countBytes_counts ..))
  have readMem : EccOnly t (copyRead src (off + i, 0) (off, k) o dst t) :=
    (readCount_only ..).trans (.counts (countBytes_counts ..))
  have moved : copyMove src dst data bytes found (off, k) (t, false) = (countBytes true (dst + off) k (src + off)
      (memStore (dst + off) (slice bytes off k) (copyRead src (off + i, 0) (off, k) o dst t)), false) := by
    have window : devToHost (copyRead src (off + i, 0) (off, k) o dst t) (dst + off) = none := by rw [read.window]; exact hd
    unfold copyMove
    simp only [hfound, hs, reads, first, writes, Bool.false_eq_true, if_false, bne_self_eq_false, Bool.or_self]
    unfold deliver countPoison
    rw [if_neg (by decide), window]
    rfl
  refine ⟨_, moved, (read.trans (.memStore ..)).trans (.counts (countBytes_counts ..)), fun j hj => ?_, fun x hx out => ?_⟩
  · rw [(countBytes_counts ..).mem _ (hp j hj).2, memByte_memStore _ _ _ (hp j hj), if_pos (by omega), Nat.add_sub_cancel_left,
      slice_get bytes hj]
    rfl
  · rw [(countBytes_counts ..).mem x hx, memByte_memStore_ne _ _ _ hx (by rwa [slice_length])]
    exact readMem.mem x hx

/-- The transfers of a COPY from offset `off` on, one after the other. -/
def copyAll (src dst : Nat) (data : HostData) (bytes : List Byte) (found : List (Nat × EccOutcome)) (l : List (Nat × Nat))
    (z : State × Bool) : State × Bool := l.foldl (fun z x => copyMove src dst data bytes found x z) z

/-- A COPY all of whose bytes may be read and written brings them to the destination, transfer by transfer, and changes no other. -/
theorem copyAll_clean {src dst n : Nat} {data : HostData} {bytes : List Byte} {found : List (Nat × EccOutcome)} {s : State}
    (hf : ∀ y ∈ found, Delivers y.2) (hr : ∀ i, i < n → Readable s (src + i)) (hs : ∀ i, i < n → isHostAddr (src + i) = false)
    (hw : ∀ i, i < n → Storable s (dst + i)) (hd : ∀ i, i < n → devToHost s (dst + i) = none)
    (hp : ∀ i, i < n → plainAddr (dst + i)) (f off left : Nat) (t : State) (h1 : left ≤ f) (h2 : off + left = n) (h : Moves s t) :
    ∃ u, copyAll src dst data bytes found (copyCuts s src dst f off left) (t, false) = (u, false) ∧ Moves t u ∧
      (∀ j, off ≤ j → j < n → memByte u (dst + j) = bytes.getD j 0) ∧
      ∀ x, ¬ logRing x → x < dst + off ∨ dst + n ≤ x → memByte u x = memByte t x := by
  induction f generalizing off left t with
  | zero => exact ⟨t, rfl, .refl t, fun j _ _ => absurd h1 (by omega), fun _ _ _ => rfl⟩
  | succ f ih =>
    unfold copyCuts
    by_cases done : left = 0
    · rw [if_pos done]
      exact ⟨t, rfl, .refl t, fun j _ _ => absurd done (by omega), fun _ _ _ => rfl⟩
    · rw [if_neg done]
      have room : 0 < min left (min (unitRoom s (src + off)) (unitRoom s (dst + off))) :=
        Nat.lt_min.2 ⟨by omega, Nat.lt_min.2 ⟨unitRoom_pos .., unitRoom_pos ..⟩⟩
      have fits : min left (min (unitRoom s (src + off)) (unitRoom s (dst + off))) ≤ left := Nat.min_le_left ..
      generalize min left (min (unitRoom s (src + off)) (unitRoom s (dst + off))) = k at room fits
      obtain ⟨v, hv, moves, written, frame⟩ := copyMove_clean (src := src) (dst := dst) (data := data) (bytes := bytes) (off := off) (t := t)
        room hf (fun i hi => by rw [Nat.add_assoc]; exact h.readable (hr _ (by omega))) (hs off (by omega))
        (fun i hi => by rw [Nat.add_assoc]; exact h.storable (hw _ (by omega))) (by rw [h.window]; exact hd off (by omega))
        (fun i hi => by rw [Nat.add_assoc]; exact hp _ (by omega))
      obtain ⟨u, hu, after, later, outside⟩ := ih (off + k) (left - k) v (by omega) (by omega) (h.trans moves)
      refine ⟨u, ?_, moves.trans after, fun j hj hn => ?_, fun x hx out => ?_⟩
      · rw [← hu, ← hv]
        rfl
      · by_cases here : j < off + k
        · rw [outside _ (hp j hn).2 (.inl (by omega))]
          have byte := written (j - off) (by omega)
          rwa [show dst + off + (j - off) = dst + j by omega, show off + (j - off) = j by omega] at byte
        · exact later j (by omega) hn
      · rw [outside x hx (by omega), frame x hx (by omega)]

/-! ### The checks of COPY (R343, R346) -/

section
variable {q : RingId} {data : HostData} {found : List (Nat × EccOutcome)} {e : List Byte} {s : State} {src dst n : Nat}

theorem exec_copy (hf : Front s q 0x30 e) (hd : s.dev ≠ .wedged) (hs : copyStates s = none) (hn : n = leAt e 0x18 8) (h1 : 1 ≤ n)
    (h2 : n ≤ 2 ^ 40) (hz : zeroAt e 0x20 32 = true) : exec (.copy q data found) s = .next (copyBody q data found e s) :=
  congrArg Host.Outcome.next (ringCommand_runs hf hd (by
    subst hn; simp only [Bool.and_eq_true, decide_eq_true_eq]; exact ⟨⟨h1, h2⟩, hz⟩) hs)

variable {q : Nat} (hdst : dst = leAt e 0x10 8) (hn : n = leAt e 0x18 8)
include hdst hn

theorem copyBody_runActive (h : runActive s = true) (h1 : isHostAddr dst = false) (h2 : ¬ (traceRegion s ≤ dst ∧ dst + n ≤ pkgRegion s)) :
    copyBody q data found e s = complete q 6 [] s := by
  subst hdst hn
  exact if_pos (by simp [h, h1]; omega)

variable (hsrc : src = leAt e 8 8)
include hsrc

theorem copyBody_refused (h : runActive s = false) (h1 : memReason s src n = 4 ∨ destOk s dst n = false) :
    copyBody q data found e s = complete q 5 [] (refuseHost s) := by
  subst hsrc hdst hn
  refine (if_neg (by simp [h])).trans (if_pos ?_)
  rcases h1 with h1 | h1 <;> simp [h1]

theorem copyBody_moves (h : runActive s = false) (h1 : memReason s src n = 0) (h2 : destOk s dst n = true) (hh : devToHost s src = none) :
    copyBody q data found e s =
      complete q (if (copyAll src dst data (memBytes s src n) found (copyCuts s src dst n 0 n) (s, false)).2 then 4 else 0) []
        (copyAll src dst data (memBytes s src n) found (copyCuts s src dst n 0 n) (s, false)).1 := by
  subst hsrc hdst hn
  have bytes : loadBytes s (leAt e 8 8) (leAt e 0x18 8) data = memBytes s (leAt e 8 8) (leAt e 0x18 8) := by
    unfold loadBytes; rw [hh]
  unfold copyBody
  simp only [h, h1, h2, bytes]
  rfl

end

theorem devToHost_device {a : Nat} (s : State) (h : isHostAddr a = false) : devToHost s a = none := by
  have : a < 0x8000000000000 := by simpa [isHostAddr] using h
  exact if_neg (by omega)

/-! ### BAR4 (R334, R347) -/

section
variable {off size a : Nat} {o : EccOutcome} {bytes : List Byte} {s : State}

/-- The state of a BAR4 read once the access, the words and the bytes are counted. -/
def bar4Counted (a size : Nat) (o : EccOutcome) (v : State) : State := countRange false a size (readCount a size o v)

theorem bar4Counted_only (a size : Nat) (o : EccOutcome) (v : State) : EccOnly v (bar4Counted a size o v) :=
  (readCount_only ..).trans (.counts (countRange_counts ..))

theorem diagBase_touched (s : State) : diagBase (wakeAccess s) = diagBase s ∧ diagBase (bump (cntDev 47) 1 (wakeAccess s)) = diagBase s := by
  have touched : diagBase (wakeAccess s) = diagBase s := by rw [wakeAccess_eq]; rfl
  refine ⟨touched, ?_⟩
  rw [← touched, (bump_countsOnly ..).rest]
  rfl

/-- What a BAR4 read answers, by the reason of its range. -/
def bar4Answer (r a size : Nat) (w : State) : State :=
  match r with
  | 0 => emit (.barRead (memBytes w a size) false false) w
  | 4 => emit (.aer 3) (emit (.barRead [] false true) (countPoison 4 w))
  | r => emit (.aer 4) (emit (.barRead (List.replicate size 0xFF) true false) (countPoison r w))

theorem exec_bar4Read (ha : a = diagBase s + off) : exec (.bar4Read off size o) s =
    .next (bar4Answer (bar4Reason (bump (cntDev 47) 1 (wakeAccess s)) a size o) a size
      (bar4Counted a size o (bump (cntDev 47) 1 (wakeAccess s)))) := by
  subst ha
  rw [← (diagBase_touched s).2]
  rfl

theorem bar4Answer_poison {r : Nat} (h : r = 1 ∨ r = 2 ∨ r = 5) (a size : Nat) (w : State) : bar4Answer r a size w =
    emit (.aer 4) (emit (.barRead (List.replicate size 0xFF) true false) (bump (cntDev (17 + r)) 1 w)) := by
  rcases h with rfl | rfl | rfl <;> rfl

/-- A byte that BAR4 does not write: in a closed region, at an address that does not exist, or in always-on memory. -/
def Barred (s : State) (a : Nat) : Prop := closedTo s a = true ∨ memRegion s a = none ∨ memRegion s a = some .aon

theorem memRegion_wakeAccess (s : State) (a : Nat) : memRegion (wakeAccess s) a = memRegion s a :=
  memRegion_congr (by rw [wakeAccess_eq]) (by rw [wakeAccess_eq]) a

theorem targetAway_wakeAccess (s : State) (a : Nat) : targetAway (wakeAccess s) a = targetAway s a := by
  unfold targetAway
  rw [memRegion_wakeAccess, wakeAccess_eq]
  rfl

theorem writeReason_wakeAccess (s : State) (a n : Nat) : writeReason (wakeAccess s) a n = writeReason s a n := by
  unfold writeReason
  simp only [memRegion_wakeAccess, targetAway_wakeAccess]

theorem barred_wakeAccess (s : State) (a : Nat) : Barred (wakeAccess s) a ↔ Barred s a := by
  have closed : closedTo (wakeAccess s) a = closedTo s a := by rw [wakeAccess_eq]; rfl
  unfold Barred
  rw [closed, memRegion_wakeAccess]

theorem bar4WriteOp_refuses (hb : bytes ≠ []) (h : runActive s = true ∨ ∃ i, i < bytes.length ∧ Barred s (diagBase s + off + i)) :
    bar4WriteOp off bytes s = refuseWrite (wakeAccess s) := by
  have active : runActive (wakeAccess s) = runActive s := by rw [wakeAccess_eq]; rfl
  have base := (diagBase_touched s).1
  have barred := barred_wakeAccess s
  unfold bar4WriteOp
  extract_lets t a n
  change runActive t = _ at active
  change diagBase t = _ at base
  change ∀ x, Barred t x ↔ _ at barred
  show _ = refuseWrite t
  have length : n = bytes.length := rfl
  have start : a = diagBase s + off := by rw [← base]
  clear_value a n t
  subst length start
  rw [if_neg (by simpa using hb)]
  split
  · rfl
  · next open_ =>
    refine if_pos (active.trans (h.resolve_right fun ⟨i, hi, bars⟩ => open_ ?_))
    refine List.any_eq_true.2 ⟨i, List.mem_range.2 hi, ?_⟩
    rcases (barred _).2 bars with bar | bar | bar <;> simp [bar]

/-- A write outside a run, into device memory that takes it, is stored and counted. -/
theorem bar4WriteOp_stores (hb : bytes ≠ []) (ha : a = diagBase s + off) (hr : runActive s = false)
    (h1 : ∀ i, i < bytes.length → ¬ Barred s (a + i)) (h2 : ∀ w, memRegion s a ≠ some (.host w))
    (h3 : writeReason s a bytes.length = 0) :
    bar4WriteOp off bytes s = countRange true a bytes.length (memStore a bytes (wakeAccess s)) := by
  have active : runActive (wakeAccess s) = runActive s := by rw [wakeAccess_eq]; rfl
  have region := memRegion_wakeAccess s a
  have reason := (writeReason_wakeAccess s a bytes.length).trans h3
  have base := (diagBase_touched s).1
  have barred := barred_wakeAccess s
  unfold bar4WriteOp
  extract_lets t b n
  change runActive t = _ at active
  change diagBase t = _ at base
  change ∀ x, Barred t x ↔ _ at barred
  change memRegion t a = _ at region
  change writeReason t a _ = _ at reason
  show _ = countRange true a bytes.length (memStore a bytes t)
  have length : n = bytes.length := rfl
  have start : b = a := by rw [ha, ← base]
  clear_value b n t
  subst length start
  rw [if_neg (by simpa using hb), if_neg, if_neg (by simp [active, hr]), if_pos reason]
  · generalize memRegion t b = m at region
    rcases m with _ | (_ | _ | _ | _ | _ | w)
    case some.host => exact absurd region.symm (h2 w)
    all_goals rfl
  · rw [List.any_eq_true]
    rintro ⟨i, hi, bars⟩
    refine h1 i (List.mem_range.1 hi) ((barred _).1 ?_)
    rcases Bool.or_eq_true_iff.1 bars with closed | absent
    · exact .inl closed
    · split at absent
      · next none => exact .inr (.inl none)
      · next aon => exact .inr (.inr aon)
      · cases absent

end

/-- Settles O35: a COPY that its checks allow is `copyAll_clean`; a BAR4 read answers by its reason, and a BAR4 write is stored
whole or refused. -/
theorem hostMemoryAccess : Obligations.HostMemoryAccess := by
  refine ⟨fun q data found e s src dst n hf hd hs hsrc hdst hn h1 h2 hz => ⟨fun run h3 h4 => ?active, fun idle h3 => ?refused,
    fun idle h3 h4 h5 h6 h7 => ?moves⟩, fun off size a o s v hv ha => ?read, fun off a bytes s hb ha idle h1 h2 => ?write,
    fun off bytes s hb h => ?barred⟩
  case active => rw [exec_copy hf hd hs hn h1 h2 hz, copyBody_runActive hdst hn run h3 h4]
  case refused => rw [exec_copy hf hd hs hn h1 h2 hz, copyBody_refused hdst hn hsrc idle h3]
  case moves =>
    have device := devToHost_device s (h6 0 h1).1
    obtain ⟨v, hv, moves, written, frame⟩ := copyAll_clean (data := data) (bytes := memBytes s src n) h7 (memReason_zero.1 h3)
      (fun i hi => (h6 i hi).1) (writeReason_zero.1 h5) (fun i hi => (h6 i hi).2.1) (fun i hi => (h6 i hi).2.2) n 0 n s
      (Nat.le_refl n) (Nat.zero_add n) (.refl s)
    have runs := copyBody_moves (found := found) (data := data) (q := q) hdst hn hsrc idle h3 h4 device
    rw [hv] at runs
    refine ⟨_, v, (exec_copy hf hd hs hn h1 h2 hz).trans (congrArg _ runs), rfl, moves.rest, ?_, frame⟩
    refine List.ext_getElem (by simp [memBytes]) fun j hj _ => ?_
    have hj : j < n := by simpa [memBytes] using hj
    have byte := written j (Nat.zero_le j) hj
    simpa [memBytes, hj] using byte
  case read =>
    subst hv
    refine ⟨_, bar4Counted a size o _, exec_bar4Read ha, bar4Counted_only .., fun hr => ?_, fun hr => ?_, fun r hr hpoison => ?_⟩
    · rw [hr]; rfl
    · rw [hr]; rfl
    · rw [hr]; exact bar4Answer_poison hpoison ..
  case write =>
    have pos : 0 < bytes.length := List.length_pos_iff.2 hb
    have device : ∀ w, memRegion s a ≠ some (.host w) := fun w hw => by
      obtain ⟨-, -, m, hm, -, host⟩ := h2 0 pos
      exact host w (Option.some.inj (hm.symm.trans hw))
    have allowed : ∀ i, i < bytes.length → ¬ Barred s (a + i) := fun i hi barred => by
      obtain ⟨-, open_, m, hm, aon, -⟩ := h2 i hi
      rcases barred with h | h | h
      · rw [open_] at h; cases h
      · rw [hm] at h; cases h
      · exact aon (Option.some.inj (hm.symm.trans h))
    have runs := bar4WriteOp_stores hb ha idle allowed device h1
    have counts := countRange_counts true a bytes.length (memStore a bytes (wakeAccess s))
    have touched : ∀ x, memByte (wakeAccess s) x = memByte s x := fun x => by rw [wakeAccess_eq]; exact memByte_congr x rfl rfl rfl rfl
    refine ⟨_, congrArg Host.Outcome.next runs, ?_, fun x hx out => ?_, ?_⟩
    · rw [memBytes_congr fun i hi => counts.mem _ (h2 i hi).1.2]
      exact memBytes_memStore _ a bytes fun i hi => (h2 i hi).1
    · rw [counts.mem x hx, memByte_memStore_ne _ a bytes hx out, touched]
    · rw [counts.rest, (MemOnly.memStore a bytes (wakeAccess s)).rest, wakeAccess_eq]
  case barred => exact congrArg Host.Outcome.next (bar4WriteOp_refuses hb h)

end Sys2Proof.Machine
end

section
/-! PROOFS. CREDIT, END_ACK, DATA and END (R258, R260, R261, R263, R277, R279, R280, R286). -/

namespace Sys2Proof.Machine

open Sys2Proof

/-! ### Rows -/

section
variable {p : PortId} {b : SubId} {w : InstrWord} {body : List Byte} {s : State}

theorem credit_runs (A : Arrives s p b w.toNat body 0 5) : exec (.credit p b w body) s = .next (creditPacket body s) :=
  congrArg Host.Outcome.next ((arrive_runs A fun _ u => creditPacket body u).trans (returnHop_ctl A.cls _))

theorem endAck_runs (A : Arrives s p b w.toNat body 0 6) :
    exec (.endAck p b w body) s = .next (endAckPacket (readHdr w.toNat) s) :=
  congrArg Host.Outcome.next ((arrive_runs A fun h u => endAckPacket h u).trans (returnHop_ctl A.cls _))

theorem data_runs (A : Arrives s p b w.toNat body (flowClass w.toNat) 0) : exec (.data p b w body) s =
    .next (returnHop p b (readHdr w.toNat) (dataPacket p (readHdr w.toNat) body s)) :=
  congrArg Host.Outcome.next (arrive_runs A fun h u => dataPacket p.val h body u)

theorem endPass_runs (A : Arrives s p b w.toNat body (flowClass w.toNat) 1) : exec (.endPass p b w body) s =
    .next (returnHop p b (readHdr w.toNat) (endPacket p (readHdr w.toNat) s)) :=
  congrArg Host.Outcome.next (arrive_runs A fun h u => endPacket p.val h u)

end

/-! ### CREDIT (R280) -/

section
variable {f n : Nat} {body : List Byte} {s : State}

/-- A CREDIT frees `n` of the flow's credit, and the flow's waiting packets go out as far as it covers them. -/
theorem creditPacket_frees (hf : f = leAt body 0 4) (hn : n = leAt body 4 4) :
    creditPacket body s = pumpFlow f s.red.outq.length (creditAdd f (· - n) s) := by
  subst hf hn; rfl

theorem creditUsed_freed (f n : Nat) (s : State) : creditUsed (creditAdd f (· - n) s) f = creditUsed s f - n := by
  rw [creditUsed_add, if_pos rfl]

theorem creditPacket_flow (body : List Byte) (s : State) : FlowOnly s (creditPacket body s) :=
  (FlowOnly.creditAdd ..).trans (.pumpFlow ..)

theorem creditPacket_others (hf : f = leAt body 0 4) {g : Nat} (hg : g ≠ f) :
    creditUsed (creditPacket body s) g = creditUsed s g := by
  rw [creditPacket_frees hf rfl, pumpFlow_others _ _ _ g hg, creditUsed_add, if_neg hg]

theorem creditPacket_unawaited (hf : f = leAt body 0 4) (hn : n = leAt body 4 4) (none : ∀ x ∈ s.red.outq, x.1 ≠ f) :
    creditPacket body s = creditAdd f (· - n) s := by
  rw [creditPacket_frees hf hn, pumpFlow_none]
  exact none

theorem creditPacket_awaited {k a : Nat} {d : List Byte} {x : FlowCtx} (hf : f = leAt body 0 4) (hn : n = leAt body 4 4)
    (waits : s.red.outq = [(f, k, a, d)]) (leg : legCtx s f = some x) (covers : creditUsed s f - n < x.credits) :
    (creditPacket body s).red.outq = [] ∧ creditUsed (creditPacket body s) f = creditUsed s f - n + 1 := by
  rw [creditPacket_frees hf hn, ← creditUsed_freed, waits]
  exact pumpFlow_one (x := x) waits leg (by rw [creditUsed_freed]; exact covers)

end

/-! ### END_ACK (R261, R286, R288, R314) -/

/-- A pass of which leg `f` has been acknowledged. -/
def legAcked (f : Nat) (q : PassSt) : PassSt :=
  { q with legs := q.legs.map fun l => if l.1 == f then (f, legCursor q f, true) else l }

/-- Leg `f` of the pass of descriptor `d` has been acknowledged. -/
def ackedLeg (d f : Nat) (q : PassSt) (s : State) : State := setLeg d f (legCursor q f) true s

section
variable {h : PktHdr} {d f : Nat} {q : PassSt} {s : State}

theorem ackedLeg_pass (hq : (desc s d).pass = some q) : (desc (ackedLeg d f q s) d).pass = some (legAcked f q) := by
  unfold ackedLeg setLeg
  rw [desc_modDesc_self, hq]; rfl

theorem ackedLeg_waiting (d f : Nat) (q : PassSt) (s : State) :
    (desc (ackedLeg d f q s) d).waiting = (desc s d).waiting := by
  unfold ackedLeg setLeg
  rw [desc_modDesc_self]

theorem ackedLeg_others {e : Nat} (he : e ≠ d) : desc (ackedLeg d f q s) e = desc s e := desc_modDesc_ne s _ he

theorem ackLeg_none (hl : legPass s f = none) : ackLeg f s = s := by
  unfold ackLeg; rw [hl]

theorem ackLeg_open (hl : legPass s f = some d) (hq : (desc s d).pass = some q)
    (remains : ∃ l ∈ q.legs, l.1 ≠ f ∧ l.2.2 = false) : ackLeg f s = ackedLeg d f q s := by
  unfold ackLeg
  simp only [hl, hq]
  exact if_neg (by simpa using remains)

theorem ackLeg_last (hl : legPass s f = some d) (hq : (desc s d).pass = some q)
    (last : ∀ l ∈ q.legs, l.1 ≠ f → l.2.2 = true) : ackLeg f s = settle (endPass d (ackedLeg d f q s)) := by
  unfold ackLeg
  simp only [hl, hq]
  refine if_pos (List.all_eq_true.2 fun l hm => ?_)
  by_cases own : l.1 = f
  · simp [own]
  · simp [last l hm own]

/-- With the last leg the pass ends, where no RUN waits for the descriptor and no STR queue for a mark. -/
theorem ackedLeg_ends (hq : (desc s d).pass = some q) (idle : strIdle s) (hw : (desc s d).waiting = []) :
    PassEnded d (ackedLeg d f q s) (settle (endPass d (ackedLeg d f q s))) := by
  have ended := endPass_ended (ackedLeg_pass (f := f) hq) ((ackedLeg_waiting d f q s).trans hw)
  rw [settle_idle fun c hc => (ended.queues c).trans (idle c hc)]
  exact ended

theorem endAckPacket_leg (hd : ((distLegs s).any fun x => x.id == h.flow) = false)
    (hi : ((imageFlows s).any fun x => x.id == h.flow) = false) : endAckPacket h s = ackLeg h.flow s := by
  unfold endAckPacket
  simp [hd, hi]

theorem endAckPacket_dist (hl : legPass s h.flow = none) (hd : ((distLegs s).any fun x => x.id == h.flow) = true)
    (hi : ((imageFlows s).any fun x => x.id == h.flow) = false) : endAckPacket h s =
      distCheck { s with link := { s.link with legsDone := insertNat h.flow s.link.legsDone } } := by
  unfold endAckPacket
  simp [hd, hi, ackLeg_none hl]

theorem endAckPacket_image (hl : legPass s h.flow = none) (hi : ((imageFlows s).any fun x => x.id == h.flow) = true) :
    endAckPacket h s = keptCheck { s with res := { s.res with imageAcks := insertNat h.flow s.res.imageAcks } } := by
  unfold endAckPacket
  simp [hi, ackLeg_none hl]

theorem mem_insertNat_iff {m n : Nat} {l : List Nat} : m ∈ insertNat n l ↔ m = n ∨ m ∈ l := by
  unfold insertNat
  split
  · next hn => exact ⟨.inr, fun h => h.elim (fun e => e ▸ by simpa using hn) id⟩
  · simp [or_comm]

/-- A distribution leg other than `f` that is unsettled stays so, and the distribution goes on. -/
theorem distCheck_goesOn (unsettled : ∃ x ∈ distLegs s, x.id ≠ f ∧ legSettled s x.id = false) :
    distCheck { s with link := { s.link with legsDone := insertNat f s.link.legsDone } } =
      { s with link := { s.link with legsDone := insertNat f s.link.legsDone } } := by
  obtain ⟨x, hx, other, open_⟩ := unsettled
  refine distCheck_unsettled ⟨x, hx, ?_⟩
  unfold legSettled at open_ ⊢
  simpa [mem_insertNat_iff, other] using open_

/-- While a secure stop is not under way, or the buddy lacks a part of the image, an image's part is only noted. -/
theorem keptCheck_goesOn (open_ : s.dev ≠ .securing ∨ ∃ x ∈ imageFlows s, x.id ≠ f ∧ x.id ∉ s.res.imageAcks) :
    keptCheck { s with res := { s.res with imageAcks := insertNat f s.res.imageAcks } } =
      { s with res := { s.res with imageAcks := insertNat f s.res.imageAcks } } := by
  refine if_neg fun kept => ?_
  simp only [Bool.and_eq_true, beq_iff_eq] at kept
  obtain ⟨⟨⟨⟨⟨securing, -⟩, -⟩, all⟩, -⟩, -⟩ := kept
  rcases open_ with other | ⟨x, hx, other, lacks⟩
  · exact other securing
  · have held := List.all_eq_true.1 all x hx
    rw [List.contains_iff_mem] at held
    rcases mem_insertNat_iff.1 held with e | m
    · exact other e
    · exact lacks m

end

/-! ### DATA at a descriptor (R277, R280, R282) -/

/-- The bytes of an in-order DATA packet are at the destination, and the incoming pass has gone on by them. -/
def dataTaken (d n : Nat) (y : DescImg) (h : PktHdr) (body : List Byte) (s : State) : State :=
  modDesc d (fun D => { D with inDone := n + body.length }) (destPut y (blockList s y) n body h.poison s)

section
variable {p d n : Nat} {y : DescImg} {h : PktHdr} {body : List Byte} {s : State}

theorem dataPacket_stale (rx : rxDesc s h = some d) (stale : genStale s h d = true) :
    dataPacket p h body s = bump (cntDev 24) 1 s := by
  unfold dataPacket
  simp [rx, stale]

theorem dataPacket_outOfOrder (rx : rxDesc s h = some d) (fresh : genStale s h d = false)
    (order : h.arg ≠ (desc s d).inDone / 4 % 2 ^ 24) : dataPacket p h body s = badPacket p (hdrNat h) s := by
  unfold dataPacket
  simp only [rx, fresh, Bool.false_eq_true, if_false]
  exact if_pos (bne_iff_ne.2 order)

theorem dataPacket_inOrder (rx : rxDesc s h = some d) (fresh : genStale s h d = false) (hy : y = descOf s d)
    (hn : n = (desc s d).inDone) (order : h.arg = n / 4 % 2 ^ 24) :
    dataPacket p h body s = returnCredit h (dataTaken d n y h body s) := by
  subst hy hn
  unfold dataPacket
  simp only [rx, fresh, Bool.false_eq_true, if_false]
  exact if_neg (by simp [order])

theorem dataTaken_inDone (d n : Nat) (y : DescImg) (h : PktHdr) (body : List Byte) (s : State) :
    (desc (dataTaken d n y h body s) d).inDone = n + body.length := by
  unfold dataTaken; rw [desc_modDesc_self]

theorem dataTaken_link (d n : Nat) (y : DescImg) (h : PktHdr) (body : List Byte) (s : State) :
    (dataTaken d n y h body s).link = s.link := by
  show (destPut y (blockList s y) n body h.poison s).link = s.link
  rw [(DeliverOnly.destPut ..).rest]

/-- The bytes of a packet within one piece of a plain destination are in its memory, and no other byte has changed. -/
theorem dataTaken_mem {a r : Nat} (plain : y.mode = 0) (at_ : blockAt (blockList s y) n = some (a, r)) (fits : body.length ≤ r)
    (own : devToHost s a = none) (pa : ∀ i, i < body.length → plainAddr (a + i)) :
    memBytes (dataTaken d n y h body s) a body.length = body ∧
      ∀ x, ¬ logRing x → x < a ∨ a + body.length ≤ x → memByte (dataTaken d n y h body s) x = memByte s x := by
  obtain ⟨written, kept⟩ := destPut_put (b := h.poison) plain at_ fits own pa
  have same : ∀ x, memByte (dataTaken d n y h body s) x = memByte (destPut y (blockList s y) n body h.poison s) x :=
    fun x => memByte_congr x rfl rfl rfl rfl
  exact ⟨(memBytes_congr fun i _ => same _).trans written, fun x hx out => (same x).trans (kept x hx out)⟩

end

/-! ### END at a descriptor (R261, R263, R280) -/

/-- The mark of an incoming pass is posted. -/
def remotePost (y : DescImg) (s : State) : State := if y.postMark ≠ 0xFFFF then addMark y.postMark y.postInc s else s

/-- The end of an image's part is noted. -/
def imageEnded (h : PktHdr) (s : State) : State :=
  if (imageIn s h.src).any fun f => f.id == h.flow then
    { s with res := { s.res with imageEnds := insertNat h.flow s.res.imageEnds } }
  else s

/-- The incoming pass of descriptor `d` has ended and its mark is posted. -/
def passTaken (d : Nat) (y : DescImg) (s : State) : State := remotePost y (modDesc d (fun D => { D with inDone := 0 }) s)

/-- END_ACK goes back to the sender of a flow. -/
def acknowledge (h : PktHdr) (body : List Byte) (s : State) : State := sendTo (newHdr s 0 6 h.src h.flow h.gen 0 body) body s

/-- An END at a plain destination: the pass has ended, its mark is posted, and the sender has its END_ACK. -/
def endTaken (d : Nat) (y : DescImg) (h : PktHdr) (s : State) : State :=
  acknowledge h (b4 d ++ b4 (desc s d).gen ++ b8 0) (imageEnded h (passTaken d y s))

section
variable {p d n : Nat} {y : DescImg} {h : PktHdr} {s : State}

theorem endPacket_stale (rx : rxDesc s h = some d) (stale : genStale s h d = true) :
    endPacket p h s = bump (cntDev 24) 1 s := by
  unfold endPacket
  simp [rx, stale]

theorem endPacket_outOfOrder (rx : rxDesc s h = some d) (fresh : genStale s h d = false)
    (order : h.arg ≠ (desc s d).inDone / 4 % 2 ^ 24) : endPacket p h s = badPacket p (hdrNat h) s := by
  unfold endPacket
  simp only [rx, fresh, Bool.false_eq_true, if_false]
  exact if_pos (bne_iff_ne.2 order)

theorem passTaken_eq (d : Nat) (y : DescImg) (s : State) : passTaken d y s =
    { s with stm := { s.stm with desc := (passTaken d y s).stm.desc, marks := (passTaken d y s).stm.marks } } := by
  unfold passTaken remotePost
  split <;> rfl

theorem passTaken_desc (d : Nat) (y : DescImg) (s : State) (e : Nat) :
    desc (passTaken d y s) e = desc (modDesc d (fun D => { D with inDone := 0 }) s) e := by
  unfold passTaken remotePost
  split <;> rfl

theorem passTaken_mark (d : Nat) (y : DescImg) (s : State) (m : Nat) : mark (passTaken d y s) m =
    if m = y.postMark ∧ m ≠ 0xFFFF then (mark s m + y.postInc) % 2 ^ 32 else mark s m := by
  unfold passTaken remotePost
  by_cases posts : y.postMark ≠ 0xFFFF
  · rw [if_pos posts]
    by_cases own : m = y.postMark
    · rw [if_pos ⟨own, own ▸ posts⟩, own, mark_addMark_self]; rfl
    · rw [mark_addMark_ne _ _ own, if_neg fun c => own c.1]; rfl
  · rw [if_neg posts, if_neg fun (c : m = y.postMark ∧ m ≠ 0xFFFF) => posts (c.1 ▸ c.2)]; rfl

theorem imageEnded_eq (h : PktHdr) (s : State) :
    imageEnded h s = { s with res := { s.res with imageEnds := (imageEnded h s).res.imageEnds } } := by
  unfold imageEnded
  split <;> rfl

theorem imageIn_passTaken (d : Nat) (y : DescImg) (s : State) (k : Nat) : imageIn (passTaken d y s) k = imageIn s k := by
  rw [passTaken_eq]; rfl

theorem endPacket_inOrder (rx : rxDesc s h = some d) (fresh : genStale s h d = false) (hy : y = descOf s d)
    (hn : n = (desc s d).inDone) (order : h.arg = n / 4 % 2 ^ 24) (plain : y.mode = 0) :
    endPacket p h s = settle (endTaken d y h s) := by
  subst hy hn
  have gen : (desc (passTaken d (descOf s d) s) d).gen = (desc s d).gen := by rw [passTaken_desc, desc_modDesc_self]
  unfold endTaken
  rw [← gen]
  unfold endPacket
  simp only [rx, fresh, Bool.false_eq_true, if_false]
  refine (if_neg (by simp [order])).trans ?_
  simp only [plain]
  unfold passTaken remotePost
  by_cases posts : (descOf s d).postMark = 0xFFFF
  · simp only [posts]; rfl
  · simp only [bne_iff_ne, ne_eq, posts, not_false_eq_true, if_true]; rfl

/-- The state of an END before its END_ACK is sent. -/
theorem endTaken_net (d : Nat) (y : DescImg) (h : PktHdr) (s : State) : NetOnly (imageEnded h (passTaken d y s)) (endTaken d y h s) :=
  .sendTo ..

end

/-! ### The result legs of a combining device (R280, R300; log entry 126) -/

/-- The bytes of a result leg have joined its stream. -/
def resultJoined (f : Nat) (body : List Byte) (s : State) : State :=
  { s with red := { s.red with inbox := sset inboxD s.red.inbox f (sget inboxD s.red.inbox f ++ body) } }

/-- The results of a round have been read from the stream of combining device `q`. -/
def resultsTaken (q f : Nat) (l : List Byte) (s : State) : State :=
  { s with red := { s.red with inbox := sset inboxD s.red.inbox f [], results := s.red.results ++ (readResults l.length l).1,
                               ended := s.red.ended ++ [((readResults l.length l).2, q)] } }

section
variable {p q : Nat} {l : List Byte} {h : PktHdr} {body : List Byte} {s : State}

theorem dataPacket_result (rx : rxDesc s h = none) (res : rxResult s h = some q) :
    dataPacket p h body s = resultData p h body s := by
  unfold dataPacket
  simp [rx, res]

theorem endPacket_result (rx : rxDesc s h = none) (res : rxResult s h = some q) :
    endPacket p h s = resultEnd p q h s := by
  unfold endPacket
  simp [rx, res]

theorem resultData_outOfOrder (hl : l = sget inboxD s.red.inbox h.flow) (order : h.arg ≠ l.length / 4 % 2 ^ 24) :
    resultData p h body s = badPacket p (hdrNat h) s := by
  subst hl
  exact if_pos (bne_iff_ne.2 order)

theorem resultData_inOrder (hl : l = sget inboxD s.red.inbox h.flow) (order : h.arg = l.length / 4 % 2 ^ 24) :
    resultData p h body s = returnCredit h (resultJoined h.flow body s) := by
  subst hl
  exact if_neg (by simp [order])

theorem resultEnd_outOfOrder (hl : l = sget inboxD s.red.inbox h.flow) (order : h.arg ≠ l.length / 4 % 2 ^ 24) :
    resultEnd p q h s = badPacket p (hdrNat h) s := by
  subst hl
  exact if_pos (bne_iff_ne.2 order)

theorem resultEnd_inOrder (hl : l = sget inboxD s.red.inbox h.flow) (order : h.arg = l.length / 4 % 2 ^ 24) :
    resultEnd p q h s = acknowledge h (b4 0xFFFFFFFF ++ b4 0 ++ b8 0) (resultsTaken q h.flow l s) := by
  subst hl
  exact if_neg (by simp [order])

theorem resultJoined_inbox (f : Nat) (body : List Byte) (s : State) :
    sget inboxD (resultJoined f body s).red.inbox f = sget inboxD s.red.inbox f ++ body := sget_sset_self ..

theorem resultJoined_others {f g : Nat} (hg : g ≠ f) (body : List Byte) (s : State) :
    sget inboxD (resultJoined f body s).red.inbox g = sget inboxD s.red.inbox g := sget_sset_ne _ _ _ hg

theorem resultsTaken_inbox (q f : Nat) (l : List Byte) (s : State) : sget inboxD (resultsTaken q f l s).red.inbox f = [] :=
  sget_sset_self (d := inboxD) (m := s.red.inbox) f []

theorem resultsTaken_others (q : Nat) {f g : Nat} (hg : g ≠ f) (l : List Byte) (s : State) :
    sget inboxD (resultsTaken q f l s).red.inbox g = sget inboxD s.red.inbox g :=
  sget_sset_ne (d := inboxD) (m := s.red.inbox) f g [] hg

/-- Sending leaves the result streams as they are. -/
theorem NetOnly.red {s u : State} (N : NetOnly s u) : u.red = s.red := by rw [N.rest]

end

/-! ### What the packets do -/

section
variable {p : PortId} {b : SubId} {w : InstrWord} {body : List Byte} {s : State} {h : PktHdr}

/-- Once a DATA packet has been handled, its hop credit returns (R278). -/
theorem data_handled {u : State} (A : Arrives s p b w.toNat body (flowClass w.toNat) 0) (hh : h = readHdr w.toNat)
    (e : dataPacket p h body s = u) : exec (.data p b w body) s = .next (returnHop p b h u) := by
  rw [data_runs A, ← hh, e]

theorem endPass_handled {u : State} (A : Arrives s p b w.toNat body (flowClass w.toNat) 1) (hh : h = readHdr w.toNat)
    (e : endPacket p h s = u) : exec (.endPass p b w body) s = .next (returnHop p b h u) := by
  rw [endPass_runs A, ← hh, e]

/-- A discarded packet returns its hop credit too. -/
theorem NetOnly.discarded {u : State} (N : NetOnly s u) : NetOnly s (Machine.returnHop p b h u) := N.trans (.returnHop ..)

theorem data_inOrder {d n : Nat} {y : DescImg} (A : Arrives s p b w.toNat body (flowClass w.toNat) 0) (hh : h = readHdr w.toNat)
    (rx : rxDesc s h = some d) (hy : y = descOf s d) (hn : n = (desc s d).inDone) (fresh : genStale s h d = false)
    (order : h.arg = n / 4 % 2 ^ 24) : ∃ u, exec (.data p b w body) s = .next u ∧ NetOnly (dataTaken d n y h body s) u ∧
      ∀ x, routeOf s h.src = some x → (subp s x.1 x.2).up = true →
        ∃ g, Output.packet x.1 x.2 g (leBytes 4 h.flow ++ leBytes 4 1 ++ List.replicate 8 0) ∈ u.out := by
  refine ⟨_, data_handled A hh (dataPacket_inOrder rx fresh hy hn order), (NetOnly.returnCredit ..).trans (.returnHop ..),
    fun x route up => ?_⟩
  have link := dataTaken_link d n y h body s
  obtain ⟨g, sent⟩ := returnCredit_sends (h := h) (s := dataTaken d n y h body s) (x := x)
    (by unfold routeOf; rw [link]; exact route) (by unfold subp; rw [port_of link]; exact up)
  exact ⟨g, (Grows.returnHop ..).sent _ sent⟩

theorem endTaken_inDone (d : Nat) (y : DescImg) (h : PktHdr) (s : State) : (desc (endTaken d y h s) d).inDone = 0 := by
  rw [desc_net (endTaken_net ..), imageEnded_eq]
  show (desc (passTaken d y s) d).inDone = 0
  rw [passTaken_desc, desc_modDesc_self]

theorem endTaken_others {d e : Nat} (he : e ≠ d) (y : DescImg) (h : PktHdr) (s : State) : desc (endTaken d y h s) e = desc s e := by
  rw [desc_net (endTaken_net ..), imageEnded_eq]
  show desc (passTaken d y s) e = desc s e
  rw [passTaken_desc, desc_modDesc_ne _ _ he]

theorem endTaken_mark (d : Nat) (y : DescImg) (h : PktHdr) (s : State) (m : Nat) : mark (endTaken d y h s) m =
    if m = y.postMark ∧ m ≠ 0xFFFF then (mark s m + y.postInc) % 2 ^ 32 else mark s m := by
  rw [← passTaken_mark d]
  refine marks_of ?_ m
  rw [(endTaken_net d y h s).rest, imageEnded_eq]

theorem endTaken_sends {d : Nat} {y : DescImg} {x : Nat × Nat} (route : routeOf s h.src = some x)
    (up : (subp s x.1 x.2).up = true) :
    ∃ g, Output.packet x.1 x.2 g (b4 d ++ b4 (desc s d).gen ++ b8 0) ∈ (endTaken d y h s).out := by
  have link : (imageEnded h (passTaken d y s)).link = s.link := by rw [imageEnded_eq, passTaken_eq]
  exact ⟨_, sendTo_sends rfl _ (by unfold routeOf; rw [link]; exact route) (by unfold subp; rw [port_of link]; exact up)⟩

theorem endTaken_res (d : Nat) (y : DescImg) (h : PktHdr) (s : State) : (endTaken d y h s).res =
    { s.res with imageEnds := if (imageIn s h.src).any fun f => f.id == h.flow then insertNat h.flow s.res.imageEnds
                              else s.res.imageEnds } := by
  have res : (passTaken d y s).res = s.res := by rw [passTaken_eq]
  rw [(endTaken_net d y h s).rest]
  show (imageEnded h (passTaken d y s)).res = _
  unfold imageEnded
  rw [imageIn_passTaken]
  split <;> rw [← res]

theorem endTaken_stm (d : Nat) (y : DescImg) (h : PktHdr) (s : State) :
    (endTaken d y h s).stm = { s.stm with desc := (endTaken d y h s).stm.desc, marks := (endTaken d y h s).stm.marks } := by
  have stm : (endTaken d y h s).stm = (passTaken d y s).stm := by
    rw [(endTaken_net d y h s).rest, imageEnded_eq]
  rw [stm, passTaken_eq]

theorem endTaken_only (d : Nat) (y : DescImg) (h : PktHdr) (s : State) :
    NetOnly { s with stm := { s.stm with desc := (endTaken d y h s).stm.desc, marks := (endTaken d y h s).stm.marks },
                     res := (endTaken d y h s).res } (endTaken d y h s) := by
  have N := endTaken_net d y h s
  have before : imageEnded h (passTaken d y s) = { s with stm := (endTaken d y h s).stm, res := (endTaken d y h s).res } := by
    rw [N.rest]
    show _ = ({ s with stm := (imageEnded h (passTaken d y s)).stm, res := (imageEnded h (passTaken d y s)).res } : State)
    rw [imageEnded_eq, passTaken_eq]
  rw [← endTaken_stm, ← before]
  exact N

theorem endTaken_idle (d : Nat) (y : DescImg) (h : PktHdr) (idle : strIdle s) : settle (endTaken d y h s) = endTaken d y h s := by
  refine settle_idle fun c hc => ?_
  have cores : (endTaken d y h s).cores = s.cores := by rw [(endTaken_only d y h s).rest]
  rw [core_of_cores cores]
  exact idle c hc

end

/-! ### The obligation -/

/-- Settles O47: each packet that arrives is its handler's effect and the return of hop credit, and each handler has one named
effect for a packet in order and the counting of a discarded packet for every other. -/
theorem flowPackets : Obligations.FlowPackets := by
  unfold Obligations.FlowPackets
  refine ⟨?credit, ?endAck, ?data, ?endPass, ?result⟩
  case credit =>
    intro p b w body s f n A hf hn
    refine ⟨_, credit_runs A, creditPacket_flow body s, fun g hg => creditPacket_others hf hg, fun none => ?_,
      fun k a d x waits leg covers => creditPacket_awaited hf hn waits leg covers⟩
    rw [creditPacket_unawaited hf hn none]
    exact ⟨creditUsed_freed f n s, rfl, rfl⟩
  case endAck =>
    intro p b w body s f dist img A hf hdist himg
    subst hf hdist himg
    rw [endAck_runs A]
    refine ⟨fun none hd hi => ?_, fun d q leg hq hd hi => ?_, fun none hd hi unsettled => ?_, fun none hi open_ => ?_⟩
    · rw [endAckPacket_leg hd hi, ackLeg_none none]
    · rw [endAckPacket_leg hd hi]
      refine ⟨ackedLeg d _ q s, _, rfl, ackedLeg_pass hq, fun e he => ackedLeg_others he, rfl,
        ackLeg_open leg hq, fun last => ⟨ackLeg_last leg hq last, fun idle hw => ?_⟩⟩
      rw [ackLeg_last leg hq last]
      exact ackedLeg_ends hq idle hw
    · rw [endAckPacket_dist none hd hi, distCheck_goesOn unsettled]
    · rw [endAckPacket_image none hi, keptCheck_goesOn open_]
  case data =>
    intro p b w body s h d n y A hh rx hy hn
    refine ⟨fun stale => ?_, fun fresh order => ?_, fun fresh order => ?_⟩
    · exact ⟨_, data_handled A hh (dataPacket_stale rx stale), NetOnly.discarded (.bump ..)⟩
    · exact ⟨_, data_handled A hh (dataPacket_outOfOrder rx fresh (hn ▸ order)), NetOnly.discarded (.badPacket ..)⟩
    · obtain ⟨u, runs, net, credit⟩ := data_inOrder A hh rx hy hn fresh order
      refine ⟨u, runs, net, (congrArg DescSt.inDone (desc_net net d)).trans (dataTaken_inDone ..), credit,
        fun a r plain at_ fits own pa => ?_⟩
      obtain ⟨written, kept⟩ := dataTaken_mem (h := h) (d := d) plain at_ fits own pa
      exact ⟨(memBytes_congr fun i hi => net.mem _ (pa i hi).2).trans written,
        fun x hx out => (net.mem x hx).trans (kept x hx out)⟩
  case endPass =>
    intro p b w body s h d n y img A hh rx hy hn himg
    refine ⟨fun stale => ?_, fun fresh order => ?_, fun fresh order plain => ?_⟩
    · exact ⟨_, endPass_handled A hh (endPacket_stale rx stale), NetOnly.discarded (.bump ..)⟩
    · exact ⟨_, endPass_handled A hh (endPacket_outOfOrder rx fresh (hn ▸ order)), NetOnly.discarded (.badPacket ..)⟩
    · subst himg
      refine ⟨endTaken d y h s, _, endPass_handled A hh (endPacket_inOrder rx fresh hy hn order plain), rfl, fun idle => ?_,
        endTaken_inDone d y h s, fun e he => endTaken_others he y h s, endTaken_mark d y h s, fun x => endTaken_sends,
        endTaken_res d y h s, endTaken_only d y h s⟩
      rw [endTaken_idle d y h idle]
      exact .returnHop ..
  case result =>
    intro p b w body l s h q hh rx res hl
    refine ⟨fun A => ⟨fun order => ?_, fun order => ?_⟩, fun A => ⟨fun order => ?_, fun order => ?_⟩⟩
    · exact ⟨_, data_handled A hh ((dataPacket_result rx res).trans (resultData_outOfOrder hl order)),
        NetOnly.discarded (.badPacket ..)⟩
    · have net : NetOnly (resultJoined h.flow body s) (returnHop p b h (returnCredit h (resultJoined h.flow body s))) :=
        (NetOnly.returnCredit ..).trans (.returnHop ..)
      refine ⟨_, data_handled A hh ((dataPacket_result rx res).trans (resultData_inOrder hl order)), ?_, ?_, ?_⟩
      · rw [net.red, hl, resultJoined_inbox]
      · intro f hf; rw [net.red, resultJoined_others hf]
      · rw [net.red]; exact net
    · exact ⟨_, endPass_handled A hh ((endPacket_result rx res).trans (resultEnd_outOfOrder hl order)),
        NetOnly.discarded (.badPacket ..)⟩
    · have net : NetOnly (resultsTaken q h.flow l s)
          (returnHop p b h (acknowledge h (b4 0xFFFFFFFF ++ b4 0 ++ b8 0) (resultsTaken q h.flow l s))) :=
        (NetOnly.sendTo ..).trans (.returnHop ..)
      refine ⟨_, endPass_handled A hh ((endPacket_result rx res).trans (resultEnd_inOrder hl order)), ?_, ?_, ?_, ?_, ?_⟩
      · rw [net.red, resultsTaken_inbox]
      · intro f hf; rw [net.red, resultsTaken_others q hf]
      · rw [net.red]; rfl
      · rw [net.red]; rfl
      · rw [net.red]; exact net

end Sys2Proof.Machine
end

section
/-! PROOFS. Frames, lanes and training (R270, R272 to R275, R302, R318). -/

namespace Sys2Proof.Machine

open Sys2Proof

/-! ### What counting leaves of a port -/

theorem PortOnly.reg {s u : State} (h : PortOnly s u) (o : Nat) : reg u o = reg s o := by
  unfold Machine.reg regW; rw [h.rest]

/-- A frame has been counted on port `p`: beside the symbols that its lanes have corrected, the ports and what is sent are as before. -/
structure Counted (p : Nat) (s u : State) : Prop where
  rest : PortOnly s u
  port : ∃ x, port u p = { port s p with laneSyms := x }
  others : ∀ q, q ≠ p → Machine.port u q = Machine.port s q
  out : u.out = s.out

/-- The received frame and its corrected symbols are counted (R275, R385). -/
def frameCounted (p b : Nat) (c : List Nat) (s : State) : State := countFec p b c (bump (cntPort p 1) 1 s)

section
variable {p b : Nat} {c : List Nat} {s u : State}

theorem Counted.bump (h : Counted p s u) (o n : Nat) : Counted p s (bump o n u) where
  rest := h.rest.trans (.bump o n u)
  port := by rw [port_bump]; exact h.port
  others q hq := (port_bump o n u q).trans (h.others q hq)
  out := (out_bump o n u).trans h.out

theorem Counted.subp (h : Counted p s u) (b : Nat) : subp u p b = subp s p b := by
  obtain ⟨x, hx⟩ := h.port
  unfold Machine.subp; rw [hx]; rfl

theorem Counted.dropPending (h : Counted p s u) : (Machine.port u p).dropPending = (Machine.port s p).dropPending := by
  obtain ⟨x, hx⟩ := h.port
  rw [hx]

theorem Counted.replays (h : Counted p s u) : (Machine.port u p).replays = (Machine.port s p).replays := by
  obtain ⟨x, hx⟩ := h.port
  rw [hx]

theorem frameCounted_counted (p b : Nat) (c : List Nat) (s : State) : Counted p s (frameCounted p b c s) where
  rest := (PortOnly.bump ..).trans (.countFec ..)
  port := by
    obtain ⟨x, hx⟩ := (port_countFec p b c (Machine.bump (cntPort p 1) 1 s) p).1
    exact ⟨x, hx.trans (by rw [port_bump])⟩
  others q hq := (port_countFec_ne b c _ hq).trans (port_bump ..)
  out := (port_countFec p b c (Machine.bump (cntPort p 1) 1 s) p).2.trans (out_bump ..)

theorem frameCounted_syms (p b : Nat) (c : List Nat) (s : State) (lane : Nat) :
    sget natD (port (frameCounted p b c s) p).laneSyms lane = sget natD (port s p).laneSyms lane + laneSymbols b lane c := by
  unfold frameCounted
  rw [syms_countFec, port_bump]

end

/-! ### What a frame's check decides (R272, R273) -/

section
variable {p b : Nat} {frame : List Byte} {unc : Bool} {c : List Nat} {s : State}

theorem frameReceived_good (hu : (subp s p b).up = true)
    (ok : unc = false ∧ leAt (padTo 256 frame) 248 4 = (crc32 ((padTo 256 frame).take 248)).toNat) :
    frameReceived p b frame unc c s = limitLanes p (frameGood p b (readFrame (padTo 256 frame)) (frameCounted p b c s)) := by
  obtain ⟨rfl, crc⟩ := ok
  unfold frameReceived
  simp only [hu, crc, Bool.not_true, Bool.false_eq_true, if_false, ne_eq, not_true]
  rfl

/-- A damaged frame is counted once more, by what is wrong with it. -/
theorem frameReceived_bad (hu : (subp s p b).up = true)
    (bad : ¬ (unc = false ∧ leAt (padTo 256 frame) 248 4 = (crc32 ((padTo 256 frame).take 248)).toNat)) :
    ∃ k, frameReceived p b frame unc c s = limitLanes p (frameBad p b (bump (cntPort p k) 1 (frameCounted p b c s))) := by
  unfold frameReceived
  rw [if_neg (by simp [hu])]
  cases unc with
  | true => exact ⟨5, rfl⟩
  | false =>
    have crc : leAt (padTo 256 frame) 248 4 ≠ (crc32 ((padTo 256 frame).take 248)).toNat := fun e => bad ⟨rfl, e⟩
    exact ⟨4, congrArg (limitLanes p) ((if_neg (by decide)).trans (if_pos crc))⟩

end

/-! ### Lanes and what a frame does to its sub-port (R273, R275) -/

theorem laneSyms_modSub (p b : Nat) (f : SubPort → SubPort) (s : State) (q : Nat) :
    (port (modSub p b f s) q).laneSyms = (port s q).laneSyms := by
  by_cases h : q = p
  · subst h
    unfold modSub
    rw [port_modPort_self]; split <;> rfl
  · rw [port_modSub_ne _ _ _ h]

theorem dropPending_modSub (p b : Nat) (f : SubPort → SubPort) (s : State) (q : Nat) :
    (port (modSub p b f s) q).dropPending = (port s q).dropPending := by
  by_cases h : q = p
  · subst h
    unfold modSub
    rw [port_modPort_self]; split <;> rfl
  · rw [port_modSub_ne _ _ _ h]

/-- The frames that ACK names leave the retry buffer (R273). -/
def frameAcked (p b : Nat) (f : FrameHdr) (s : State) : State :=
  modSub p b (fun S => { S with retry := ackFrames f.ack S.retry }) s

/-- The frame's hop credits come back, and packets that waited for them go out (R278). -/
def frameCredited (p b : Nat) (f : FrameHdr) (s : State) : State :=
  if f.crCount = 0 then s
  else pump p b (subp (addHop p b f.crClass f.crHop (· + f.crCount) s) p b).stream.length
    (addHop p b f.crClass f.crHop (· + f.crCount) s)

/-- The sub-port expects the next frame (R273). -/
def frameTaken (p b : Nat) (s : State) : State :=
  modSub p b (fun S => { S with rxSeq := (S.rxSeq + 1) % 4096, nakSent := false, failRun := 0 }) s

section
variable {p b : Nat} {f : FrameHdr} {s : State}

theorem frameCredited_portOnly (p b : Nat) (f : FrameHdr) (s : State) : PortOnly s (frameCredited p b f s) :=
  .ite (.refl s) ((PortOnly.modSub ..).trans (.net (.pump ..)))

theorem addHop_sameRx (p b cls hop : Nat) (f : Nat → Nat) (s : State) : SameRx s (addHop p b cls hop f s) :=
  .modSub p b (fun S => { S with hop := smod (hopD p) S.hop (hopKey cls hop) f }) s fun _ => rfl

theorem frameCredited_sameRx (p b : Nat) (f : FrameHdr) (s : State) : SameRx s (frameCredited p b f s) := by
  unfold frameCredited
  split
  · exact .refl s
  · exact (addHop_sameRx ..).trans (.pump ..)

theorem frameCredited_none (h : f.crCount = 0) (s : State) : frameCredited p b f s = s := if_pos h

theorem frameAcked_sameRx (p b : Nat) (f : FrameHdr) (s : State) : SameRx s (frameAcked p b f s) := 
  .modSub p b (fun S => { S with retry := ackFrames f.ack S.retry }) s fun _ => rfl

/-- The frame in sequence acknowledges, returns credits and advances. -/
theorem frameGood_inSequence (hn : f.nak = false) (ht : f.ftype = 1) (hs : f.seq = (subp s p b).rxSeq)
    (hd : (port s p).dropPending = none) : frameGood p b f s = frameTaken p b (frameCredited p b f (frameAcked p b f s)) := by
  have rx := (frameAcked_sameRx p b f s).trans (frameCredited_sameRx p b f _)
  have drop := ((rx.same p).1).trans hd
  have seq := ((rx.same p).2 b).trans hs.symm
  unfold frameCredited frameAcked at drop seq
  unfold frameGood frameTaken frameCredited frameAcked
  simp only [hn, Bool.false_eq_true, if_false, drop, ht, bne_self_eq_false, seq, if_true]

theorem replayFrames_port (p b : Nat) (s : State) (q : Nat) :
    port (replayFrames p b s) q = port (modPort p (fun P => { P with replays := P.replays + 1 }) s) q := by
  unfold replayFrames
  extract_lets v w
  have hv : port v q = port (modPort p (fun P => { P with replays := P.replays + 1 }) s) q := port_bump ..
  have hw : port w q = port v q := by
    show port (if _ then _ else _) q = _
    split
    · rw [port_health, port_bump]
    · rfl
  rw [port_resendAll, hw, hv]

theorem replayFrames_subp (p b : Nat) (s : State) : subp (replayFrames p b s) p b = subp s p b := by
  unfold subp
  rw [replayFrames_port, port_modPort_self]; rfl

/-- A NAK sends again whatever the retry buffer holds (R273). -/
theorem replayFrames_out (p b : Nat) (s : State) :
    (replayFrames p b s).out = (subp s p b).retry.map (fun x => .frame p b x.2) ++ s.out := by
  rw [← replayFrames_subp]
  unfold replayFrames
  extract_lets v w
  have hw : w.out = s.out := by
    show (if _ then _ else _ : State).out = _
    split
    · rw [out_health, out_bump]; exact out_bump ..
    · exact out_bump ..
  have same : subp (resendAll p b w) p b = subp w p b := by unfold subp; rw [port_resendAll]
  rw [out_resendAll, hw, same]

/-- An idle frame without credits acknowledges, and its NAK replays. -/
theorem frameGood_idle (ht : f.ftype = 0) (hc : f.crCount = 0) (hd : (port s p).dropPending = none) :
    frameGood p b f s = if f.nak then replayFrames p b (frameAcked p b f s) else frameAcked p b f s := by
  have drop : (port (frameAcked p b f s) p).dropPending = none := (dropPending_modSub ..).trans hd
  have dropAgain : (port (replayFrames p b (frameAcked p b f s)) p).dropPending = none := by
    rw [replayFrames_port, port_modPort_self]; exact drop
  unfold frameAcked at drop dropAgain
  unfold frameGood frameAcked
  cases hn : f.nak with
  | true => simp only [hc, if_true, dropAgain, ht, Nat.reduceBNe]
  | false => simp only [hc, if_true, Bool.false_eq_true, if_false, drop, ht, Nat.reduceBNe]

end

/-! ### The limit of corrected symbols (R275) -/

section
variable {p b : Nat} {c : List Nat} {s t u : State}

/-- Lane `lane` of the frame passes the port's limit. -/
def PastLimit (p b : Nat) (c : List Nat) (s : State) (lane : Nat) : Prop :=
  bitsN (reg s (portReg p 0x18)) 8 8 * 1024 < sget natD (port s p).laneSyms lane + laneSymbols b lane c

/-- What has become of a counted frame, while the lanes' symbols stand. -/
structure FrameDone (p b : Nat) (c : List Nat) (s u : State) : Prop where
  rest : PortOnly s u
  syms : (port u p).laneSyms = (port (frameCounted p b c s) p).laneSyms

theorem FrameDone.past (h : FrameDone p b c s u) (lane : Nat) :
    bitsN (reg u (portReg p 0x18)) 8 8 * 1024 < sget natD (port u p).laneSyms lane ↔ PastLimit p b c s lane := by
  unfold PastLimit
  rw [h.rest.reg, h.syms, frameCounted_syms]

theorem FrameDone.within (h : FrameDone p b c s u) (within : ∀ lane, lane < 4 → ¬ PastLimit p b c s lane) : limitLanes p u = u :=
  limitLanes_within fun lane hl => Nat.not_lt.1 fun past => within lane hl ((h.past lane).1 past)

theorem FrameDone.one (h : FrameDone p b c s u) {lane : Nat} (hl : lane < 4) (past : PastLimit p b c s lane)
    (others : ∀ i, i < 4 → i ≠ lane → ¬ PastLimit p b c s i) (kept : (port (laneFails p lane u) p).laneSyms = (port u p).laneSyms) :
    limitLanes p u = laneFails p lane u :=
  limitLanes_one hl ((h.past lane).2 past) (fun i hi ne => Nat.not_lt.1 fun k => others i hi ne ((h.past i).1 k)) kept

end

/-! ### What a frame leaves (R272, R273) -/

section
variable {p b : Nat} {f : FrameHdr} {c : List Nat} {s t : State}

theorem frameAcked_done (p b : Nat) (f : FrameHdr) (c : List Nat) (s : State) : FrameDone p b c s (frameAcked p b f (frameCounted p b c s)) where
  rest := (frameCounted_counted p b c s).rest.trans (.modSub ..)
  syms := laneSyms_modSub ..

theorem frameTaken_done (p b : Nat) (f : FrameHdr) (c : List Nat) (s : State) :
    FrameDone p b c s (frameTaken p b (frameCredited p b f (frameAcked p b f (frameCounted p b c s)))) where
  rest := ((frameAcked_done p b f c s).rest.trans (frameCredited_portOnly ..)).trans (.modSub ..)
  syms := (laneSyms_modSub ..).trans (((frameCredited_sameRx ..).syms p).trans (frameAcked_done p b f c s).syms)

theorem replayFrames_done (p b : Nat) (f : FrameHdr) (c : List Nat) (s : State) :
    FrameDone p b c s (replayFrames p b (frameAcked p b f (frameCounted p b c s))) where
  rest := (frameAcked_done p b f c s).rest.trans (.replayFrames ..)
  syms := by rw [replayFrames_port, port_modPort_self]; exact (frameAcked_done p b f c s).syms

theorem frameAcked_subp (h : Counted p s t) :
    subp (frameAcked p b f t) p b = { subp s p b with retry := ackFrames f.ack (subp s p b).retry } := by
  unfold frameAcked
  rw [subp_modSub, h.subp]

theorem frameAcked_replays (h : Counted p s t) : (port (frameAcked p b f t) p).replays = (port s p).replays := by
  unfold frameAcked modSub
  rw [port_modPort_self, ← h.replays]
  split <;> rfl

/-- The corrected symbols and the retry buffers are all that differs of a port after an acknowledgement. -/
theorem frameAcked_port (h : Counted p s t) : ∃ x r0 r1, port (frameAcked p b f t) p =
    { port s p with laneSyms := x, sub0 := { (port s p).sub0 with retry := r0 }, sub1 := { (port s p).sub1 with retry := r1 } } := by
  obtain ⟨x, hx⟩ := h.port
  unfold frameAcked modSub
  rw [port_modPort_self, hx]
  split
  · exact ⟨x, _, (port s p).sub1.retry, rfl⟩
  · exact ⟨x, (port s p).sub0.retry, _, rfl⟩

/-- A damaged frame asks for a resend, and nothing of the port changes but what says so (R273). -/
def frameNaked (p b : Nat) (s : State) : State :=
  sendIdle p b true 0 0 0 (modSub p b (fun S => { S with nakSent := true, failRun := (subp s p b).failRun + 1 }) s)

theorem frameBad_naks (h : (subp s p b).failRun < 7) : frameBad p b s = frameNaked p b s := if_neg (by omega)

theorem frameBad_eighth (h : 7 ≤ (subp s p b).failRun) : frameBad p b s = portFails p s := if_pos (by omega)

theorem port_sendIdle (p b : Nat) (nak : Bool) (hop cls count : Nat) (s : State) (q : Nat) :
    port (sendIdle p b nak hop cls count s) q = port s q := port_txFrame ..

theorem frameNaked_done (p b k : Nat) (c : List Nat) (s : State) :
    FrameDone p b c s (frameNaked p b (bump (cntPort p k) 1 (frameCounted p b c s))) where
  rest := (((frameCounted_counted p b c s).bump ..).rest.trans (.modSub ..)).trans (.sendIdle ..)
  syms := by
    unfold frameNaked
    rw [port_sendIdle, laneSyms_modSub, port_bump]

theorem frameNaked_subp (h : Counted p s t) :
    subp (frameNaked p b t) p b = { subp s p b with nakSent := true, failRun := (subp s p b).failRun + 1 } := by
  rw [← h.subp b, ← subp_modSub p b (fun S => { S with nakSent := true, failRun := (subp t p b).failRun + 1 }) t]
  unfold subp frameNaked
  rw [port_sendIdle]; rfl

theorem frameNaked_out (h : Counted p s t) : (frameNaked p b t).out =
    .frame p b (idleFrame (subp s p b).txSeq (lastRx (subp s p b)) true 0 0 0) :: s.out := by
  unfold frameNaked sendIdle
  rw [out_txFrame, subp_modSub, h.subp, ← h.out]
  rfl

end

/-! ### Lanes (R275) -/

section
variable {p lane : Nat} {s u : State}

/-- A port with two sub-ports, with LANE_DROP off, or with a lane spared or being spared already, goes down with the lane. -/
theorem laneFails_down (hu : (port s p).sub0.up = true ∨ (port s p).sub1.up = true) (hf : bitN (port s p).failedLanes lane = false)
    (hd : ∀ x, (port s p).dropPending = some x → x.1 ≠ lane)
    (h : bitN (reg s (portReg p 0)) 1 = true ∨ bitN (reg s (portReg p 0)) 2 = false ∨ (port s p).spared = true ∨
      ∃ x, (port s p).dropPending = some x) : PortFails p s (laneFails p lane s) := by
  have unknown : ((port s p).dropPending.map (·.1) == some lane) = false := by
    cases e : (port s p).dropPending with
    | none => rfl
    | some x => simpa using hd x e
  unfold laneFails
  rw [if_neg (by rw [hf, unknown]; rcases hu with h | h <;> simp [h])]
  extract_lets v c q
  have rest : PortOnly s v := (PortOnly.life ..).trans (.bump ..)
  have ports : ∀ q, port v q = port s q := fun q => (port_bump ..).trans (port_lifeAdd ..)
  have ctl : c = reg s (portReg p 0) := rest.reg _
  rw [if_pos (by rw [ctl, ports]; rcases h with h | h | h | ⟨x, h⟩ <;> simp [h])]
  exact (portFails_spec p (rest.trans (.modPort ..)) fun q hq => (port_modPort_ne v _ hq).trans (ports q)).1

/-- A lane counts once; a port that is down has none to lose. -/
theorem laneFails_known (h : (port s p).sub0.up = false ∧ (port s p).sub1.up = false ∨ bitN (port s p).failedLanes lane = true ∨
    ∃ q, (port s p).dropPending = some (lane, q)) : laneFails p lane s = s := by
  refine if_pos ?_
  rcases h with ⟨h0, h1⟩ | h | ⟨q, h⟩
  · simp [h0, h1]
  · simp [h]
  · simp [h]

/-- The port's state after a switch to three lanes. -/
def spared (lane : Nat) (P : PortSt) : PortSt :=
  { P with spared := true, failedLanes := P.failedLanes ||| 2 ^ lane, dropPending := none, sub0 := { P.sub0 with lanes := 3 } }

theorem switchLanes_spec (p lane : Nat) (s : State) :
    port (switchLanes p lane s) p = spared lane (port s p) ∧ (∀ q, q ≠ p → port (switchLanes p lane s) q = port s q) ∧
      (switchLanes p lane s).out = (port s p).sub0.retry.map (fun x => .frame p 0 x.2) ++ s.out ∧
      ({ code := 1, pos := myPos s, part := p, arg := 2 ^ lane } : FailPath) ∈ (switchLanes p lane s).res.paths ∧
      (switchLanes p lane s).run = s.run ∧ ∀ x, ¬ logRing x → memByte (switchLanes p lane s) x = memByte s x := by
  unfold switchLanes
  extract_lets v w
  have logged : CountsOnly v w := logEv_countsOnly ..
  have ports : ∀ q, port (resendAll p 0 w) q = port v q := fun q => (port_resendAll ..).trans (port_of (by rw [logged.rest]) q)
  have rest : PortOnly s (resendAll p 0 w) := ((PortOnly.modPort ..).trans (.counts logged)).trans (.resendAll ..)
  have out : (resendAll p 0 w).out = (port s p).sub0.retry.map (fun x => .frame p 0 x.2) ++ s.out := by
    have retry : (subp w p 0).retry = (port s p).sub0.retry := by
      unfold subp
      rw [port_of (show w.link = v.link by rw [logged.rest]), show port v p = spared lane (port s p) from port_modPort_self ..]
      rfl
    rw [out_resendAll, retry, show w.out = v.out by rw [logged.rest]]; rfl
  have pos : myPos w = myPos s := by unfold myPos; rw [logged.rest]; rfl
  rw [pos]
  generalize resendAll p 0 w = z at ports rest out
  have added := addPath_eq { code := 1, pos := myPos s, part := p, arg := 2 ^ lane } z
  have mem := addPath_mem { code := 1, pos := myPos s, part := p, arg := 2 ^ lane } z
  generalize addPath { code := 1, pos := myPos s, part := p, arg := 2 ^ lane } z = u at added mem
  have link : u.link = z.link := by rw [added]
  refine ⟨?_, fun q hq => ?_, by rw [added]; exact out, mem, by rw [added, rest.rest], fun x hx => ?_⟩
  · rw [port_of link, ports]; exact port_modPort_self ..
  · rw [port_of link, ports]; exact port_modPort_ne s _ hq
  · rw [memByte_log (s := z) x (by rw [added]) (by rw [added]) (by rw [added]) hx, rest.mem x hx]

/-- The ports other than `p` and the paths that stand are untouched by training `p` again. -/
theorem PortFails.trained (h : PortFails p s u) : PortFails p s (portTrain p u) where
  down := by unfold portTrain; rw [port_modPort_self]; exact ⟨rfl, rfl⟩
  peers := by unfold portTrain; rw [port_modPort_self]; exact ⟨rfl, rfl⟩
  ports q hq := (port_modPort_ne u _ hq).trans (h.ports q hq)
  path := h.path
  rest := by unfold portTrain modPort; rw [h.rest]
  mem := h.mem

theorem portTrain_port (p : Nat) (s : State) : (port (portTrain p s) p).dropPending = none ∧
    (port (portTrain p s) p).sub0.training = true ∧ (port (portTrain p s) p).spared = false ∧
    (port (portTrain p s) p).failedLanes = 0 := by
  unfold portTrain
  rw [port_modPort_self]
  exact ⟨rfl, rfl, rfl, rfl⟩

theorem dropTimeout_trains (h : (port s p).dropPending ≠ none) : PortFails p s (dropTimeout p s) ∧
    dropTimeout p s = portTrain p (portFails p (modPort p (fun P => { P with dropPending := none }) s)) := by
  have trains : dropTimeout p s = portTrain p (portFails p (modPort p (fun P => { P with dropPending := none }) s)) :=
    if_pos (Option.isSome_iff_ne_none.2 h)
  rw [trains]
  exact ⟨(portFails_spec p (.modPort ..) fun q hq => port_modPort_ne s _ hq).1.trained, rfl⟩

theorem port_emit (o : Output) (s : State) (q : Nat) : port (emit o s) q = port s q := rfl

/-- A sub-port that trains comes up with what its training has found, and its identity goes out (R270). -/
theorem portTrained_spec {b : Nat} {peer : PeerId} {latency lanes : Nat} {P : SubPort} (ht : (subp s p b).training = true)
    (hl : lanes ≠ 0) (hP : P =
      { up := true, lanes := lanes, latency := latency, peerPos := peer.pos.val, peerPort := peer.port.val,
        peerSub := peer.sub.val, peerSerial := peer.serial.toNat, peerValid := true }) :
    portTrained p b peer latency lanes s = emit (.identity p) (modSub p b (fun _ => P) s) ∧
      subp (portTrained p b peer latency lanes s) p b = P ∧ ∀ q, q ≠ p → port (portTrained p b peer latency lanes s) q = port s q := by
  have up : portTrained p b peer latency lanes s = emit (.identity p) (modSub p b (fun _ => P) s) := by
    rw [hP]; exact if_neg (by simp [ht, hl])
  rw [up]
  refine ⟨rfl, ?_, fun q hq => by rw [port_emit, port_modSub_ne _ _ _ hq]⟩
  unfold subp
  rw [port_emit]
  exact subp_modSub p b _ s

end

/-- Settles O43: a frame is counted and then `frameGood` or `frameBad` past the lanes' limit; a lane failure is `laneFails_spare`,
`laneFails_down` or known; a lane-drop is `switchLanes_spec`. -/
theorem framesAndLanes : Obligations.FramesAndLanes := by
  refine ⟨fun p b frame unc c s f ok within past hup hf hok hpast hwithin => ?frames, ⟨fun p lane s l hl up known => ⟨?spare, ?down⟩,
    ?counted, fun p lane n s up => ⟨?drop, ?second⟩, ?timeout, ?trained⟩⟩
  case frames =>
    have counted := frameCounted_counted p b c s
    have good : ok → frameReceived p b frame unc c s = limitLanes p (frameGood p b f (frameCounted p b c s)) := fun h => by
      rw [hf]; exact frameReceived_good hup (hok.1 h)
    have bad : ¬ ok → ∃ k, frameReceived p b frame unc c s =
        limitLanes p (frameBad p b (bump (cntPort p k) 1 (frameCounted p b c s))) := fun h => frameReceived_bad hup fun k => h (hok.2 k)
    have limit : within → ∀ lane, lane < 4 → ¬ PastLimit p b c s lane := fun h lane hl k => hwithin.1 h lane hl ((hpast lane).2 k)
    refine ⟨fun h hw hn ht hs hd => ?inSequence, fun h hw hn ht hc hd => ?nak, fun h hw few => ?resend, fun h eighth => ?eighth,
      fun lane l hl h4 pastLane others h hn ht hc hd hf' h1 h2 h3 hu => ?limit⟩
    case inSequence =>
      have rx := (frameAcked_sameRx p b f (frameCounted p b c s)).trans (frameCredited_sameRx p b f _)
      have seq : (subp (frameCredited p b f (frameAcked p b f (frameCounted p b c s))) p b).rxSeq = (subp s p b).rxSeq := by
        rw [(rx.same p).2, counted.subp]
      refine ⟨_, congrArg Host.Outcome.next ((good h).trans ?_), (frameTaken_done p b f c s).rest, ?_, ?_, ?_, fun hc => ⟨?_, ?_⟩⟩
      · rw [frameGood_inSequence hn ht (by rw [counted.subp, hs]) (counted.dropPending.trans hd)]
        exact (frameTaken_done p b f c s).within (limit hw)
      · unfold frameTaken; rw [subp_modSub, ← seq]
      · unfold frameTaken; rw [subp_modSub]
      · unfold frameTaken; rw [subp_modSub]
      · unfold frameTaken; rw [subp_modSub, frameCredited_none hc, frameAcked_subp counted]
      · rw [frameCredited_none hc]; exact counted.out
    case nak =>
      have done := replayFrames_done p b f c s
      have sub := frameAcked_subp (f := f) (b := b) counted
      refine ⟨_, congrArg Host.Outcome.next ((good h).trans ?_), done.rest, ?_, ?_, ?_⟩
      · rw [frameGood_idle ht hc (counted.dropPending.trans hd), if_pos hn]
        exact done.within (limit hw)
      · rw [replayFrames_subp, sub]
      · rw [replayFrames_port, port_modPort_self, ← frameAcked_replays (f := f) (b := b) counted]
      · rw [replayFrames_out, sub, ← counted.out]; rfl
    case resend =>
      obtain ⟨k, hk⟩ := bad h
      have counted := counted.bump (cntPort p k) 1
      refine ⟨_, congrArg Host.Outcome.next (hk.trans ?_), (frameNaked_done p b k c s).rest, frameNaked_subp counted, frameNaked_out counted⟩
      rw [frameBad_naks (by rw [counted.subp]; exact few)]
      exact (frameNaked_done p b k c s).within (limit hw)
    case eighth =>
      obtain ⟨k, hk⟩ := bad h
      have counted := counted.bump (cntPort p k) 1
      have fails := (portFails_spec p counted.rest counted.others).1
      refine ⟨_, congrArg Host.Outcome.next (hk.trans ?_), fails⟩
      rw [frameBad_eighth (by rw [counted.subp]; exact eighth), limitLanes_down fails.down]
    case limit =>
      have done := frameAcked_done p b f c s
      obtain ⟨x, r0, r1, ports⟩ := frameAcked_port (b := b) (f := f) counted
      have taken : frameGood p b f (frameCounted p b c s) = frameAcked p b f (frameCounted p b c s) := by
        rw [frameGood_idle ht hc (counted.dropPending.trans hd), hn]
        rfl
      have spares := laneFails_spare (p := p) (lane := lane) (s := frameAcked p b f (frameCounted p b c s)) (by rw [ports]; exact .inl hu)
        (by rw [ports]; exact hf') (by rw [done.rest.reg, ← hl]; exact h1) (by rw [done.rest.reg, ← hl]; exact h2)
        (by rw [ports]; exact h3) (by rw [ports]; exact hd)
      obtain ⟨rest, drop, -, out⟩ := spares
      rw [ports] at drop out
      refine ⟨_, congrArg Host.Outcome.next ((good h).trans ?_), done.rest.trans rest, by rw [drop], ?_⟩
      · rw [taken]
        exact done.one h4 ((hpast lane).1 pastLane) (fun i hi ne k => others i hi ne ((hpast i).2 k)) (by rw [drop, ports])
      · rw [out, ← counted.out]; rfl
  case spare =>
    subst hl
    intro h1 h2 h3 h4
    exact ⟨_, rfl, laneFails_spare up known h1 h2 h3 h4⟩
  case down =>
    subst hl
    intro h new
    exact ⟨_, rfl, laneFails_down up known new (h.imp_right (.imp_right (.imp_right fun ⟨x, hx, _⟩ => ⟨x, hx⟩)))⟩
  case counted => exact fun p lane s h => congrArg Host.Outcome.next (laneFails_known h)
  case drop =>
    intro whole
    have runs : laneDrop p lane s = switchLanes p lane s := by
      unfold laneDrop
      simp only [up, whole, Bool.not_true, Bool.false_eq_true, if_false]
    exact ⟨_, congrArg Host.Outcome.next runs, switchLanes_spec p lane s⟩
  case second =>
    intro done other
    have runs : laneDrop p lane s = portFails p s := by
      unfold laneDrop
      simp only [up, done, other, Bool.not_true, Bool.false_eq_true, if_false, if_true]
    exact ⟨_, congrArg Host.Outcome.next runs, (portFails_spec p (.refl s) fun _ _ => rfl).1⟩
  case timeout =>
    intro p s h
    obtain ⟨fails, trains⟩ := dropTimeout_trains h
    exact ⟨_, rfl, fails, trains ▸ portTrain_port ..⟩
  case trained =>
    intro p b x d n s ht hn
    obtain ⟨up, sub, others⟩ := portTrained_spec (peer := x) (latency := d) ht hn rfl
    exact ⟨_, rfl, by rw [up]; rfl, sub, others, by rw [up]; rfl⟩

end Sys2Proof.Machine
end

section
/-! PROOFS. RA, SCALE and SUMS packets (R289 to R293, R297 to R300). -/

namespace Sys2Proof.Machine

open Sys2Proof

/-! ### What sending leaves of the reduction -/

section
variable {s t : State}

theorem NetOnly.passDone (N : NetOnly s t) : passDone t = Machine.passDone s := by rw [N.rest]; rfl

theorem NetOnly.allFull (N : NetOnly s t) : allFull t = Machine.allFull s := by rw [N.rest]; rfl

theorem NetOnly.scalesDone (N : NetOnly s t) : scalesDone t = Machine.scalesDone s := by rw [N.rest]; rfl

theorem NetOnly.ctlGet (N : NetOnly s t) (id : Nat) : ctlGet t id = Machine.ctlGet s id := ctlGet_of (by rw [N.rest]) id

/-- Bytes written after sending are the only other change. -/
theorem NetOnly.memWrite (N : NetOnly s t) (a : Nat) (l : List Byte) :
    NetOnly { s with mem := (memWrite a l t).mem } (Machine.memWrite a l t) := by
  have written : Machine.memWrite a l t = { t with mem := (Machine.memWrite a l t).mem } := rfl
  generalize Machine.memWrite a l t = v at written
  rw [written]
  exact ⟨by rw [N.rest], by rw [N.host], fun x hx => memByte_log x rfl (by rw [N.rest]) (by rw [N.rest]) hx⟩

end

/-! ### Checks that find nothing complete (R293, R298) -/

section
variable {s : State}

/-- A pass that still waits for an entry, or whose operand is given, goes on. -/
theorem redCheck_goesOn (excluding : s.red.pass = 3 → allFull s = false)
    (waits : s.red.pass = 1 ∨ s.red.pass = 4 → passDone s = false ∨ (ctlGet s ctlRedDone).own = true) : redCheck s = s := by
  have notFull : (s.red.pass = 3 && allFull s) = false := by
    by_cases h : s.red.pass = 3
    · simp [excluding h]
    · simp [h]
  have notDone : ((s.red.pass = 1 || s.red.pass = 4) && passDone s && !(ctlGet s ctlRedDone).own) = false := by
    by_cases h : s.red.pass = 1 ∨ s.red.pass = 4
    · rcases waits h with h | h <;> simp [h]
    · simp [not_or.1 h]
  unfold redCheck
  split
  · rfl
  · simp only [notFull, Bool.false_eq_true, if_false, notDone]

theorem scaleCheck_goesOn (h : s.red.scaleFind = false ∨ scalesDone s = false ∨ (ctlGet s ctlScale).own = true) : scaleCheck s = s := by
  refine if_neg ?_
  rcases h with h | h | h <;> simp [h]

theorem settleBlk_settled {i b : Nat} {r : Region} (h : s.red.again = []) (n : Nat) : settleBlk i r b (n + 1) s = s := by
  unfold settleBlk
  rw [h]; rfl

end

/-! ### RA packets (R290 to R292) -/

/-- The owner's adders take the packet's entries, block after block from the packet's ARG. -/
def entriesAdded (i : Nat) (r : Region) (fp8 : Bool) (h : PktHdr) (body : List Byte) (s : State) : State :=
  (entriesOf fp8 body).zipIdx.foldl (fun t y => settleBlk i r (h.arg + y.2) 300 (addEntry i r fp8 (h.arg + y.2) y.1 t)) s

section
variable {p : PortId} {b : SubId} {w : InstrWord} {body : List Byte} {s : State} {h : PktHdr} {c : FlowCtx} {i : Nat} {r : Region}
  {fp8 : Bool}

theorem entriesAdded_one {e : Entry} (he : entriesOf fp8 body = [e]) (ha : s.red.again = []) :
    entriesAdded i r fp8 h body s = addEntry i r fp8 h.arg e s := by
  unfold entriesAdded
  rw [he]
  exact settleBlk_settled ((addEntry_again ..).trans ha) 299

/-- Both RA commands are the packet's arrival at the owner, told apart by the element format. -/
theorem ra_runs {x : Instr} {kind : Nat} (hx : (x, fp8, kind) ∈ [(Instr.raBf16 p b w body, false, 0), (.raFp8 p b w body, true, 1)])
    (A : Arrives s p b w.toNat body 3 kind) (hh : h = readHdr w.toNat) : exec x s = .next (returnHop p b h (raPacket fp8 h body s)) := by
  subst hh
  have sides : (x = .raBf16 p b w body ∧ fp8 = false ∧ kind = 0) ∨ (x = .raFp8 p b w body ∧ fp8 = true ∧ kind = 1) := by simpa using hx
  obtain ⟨rfl, rfl, rfl⟩ | ⟨rfl, rfl, rfl⟩ := sides
  · exact congrArg Host.Outcome.next (arrive_runs A fun h u => raPacket false h body u)
  · exact congrArg Host.Outcome.next (arrive_runs A fun h u => raPacket true h body u)

/-- Another owner's, another generation's or another phase's entries are counted and dropped. -/
theorem raPacket_discards (rx : rxCtx s h.flow = some c) (ht : c.target = .region i) (hr : planRegion s i = some r)
    (out : owns s r = false ∨ h.gen ≠ s.red.gen % 2 ^ 16 ∨ s.run.phase ≠ .reduction) :
    raPacket fp8 h body s = returnCredit h (bump (cntDev 24) 1 s) := by
  unfold raPacket
  simp only [rx, ht, hr]
  exact if_pos (by simpa [or_assoc] using out)

theorem raPacket_adds (rx : rxCtx s h.flow = some c) (ht : c.target = .region i) (hr : planRegion s i = some r) (own : owns s r = true)
    (gen : h.gen = s.red.gen % 2 ^ 16) (phase : s.run.phase = .reduction) :
    raPacket fp8 h body s = redCheck (returnCredit h (entriesAdded i r fp8 h body s)) := by
  unfold raPacket
  simp only [rx, ht, hr]
  exact if_neg (by simp [own, gen, phase])

end

/-! ### The adder (R292) -/

section
variable {i b : Nat} {r : Region} {fp8 : Bool} {e : Entry} {s : State}

theorem addEntry_stale (h : r.blocks ≤ b ∨ e.s ≠ (readBlk s (blkAddr r b)).scale) :
    addEntry i r fp8 b e s = bump (cntDev 24) 1 s := if_pos (by rcases h with h | h <;> simp [h])

theorem addEntry_excluded (hb : b < r.blocks) (hs : e.s = (readBlk s (blkAddr r b)).scale)
    (he : s.red.excluded.contains e.contrib = true) : addEntry i r fp8 b e s = s := by
  have fits : (decide (r.blocks ≤ b) || e.s != (readBlk s (blkAddr r b)).scale) = false := by simp [hs, hb]
  unfold addEntry
  simp only [fits, he, Bool.false_eq_true, if_false, if_true]

end

/-! ### SCALE packets (R297, R298) -/

/-- The owner has heard the packet's EMAX codes, block after block from the packet's ARG. -/
def scalesHeard (i : Nat) (r : Region) (h : PktHdr) (body : List Byte) (s : State) : State :=
  body.zipIdx.foldl (fun t x => hearEmax i r (replicaOf s h.src) (h.arg + x.2) x.1.toNat t) s

/-- A contributor has stored the packet's scales. -/
def scalesStored (r : Region) (h : PktHdr) (body : List Byte) (s : State) : State :=
  memWrite (r.scales + h.arg) body (returnCredit h s)

section
variable {p : PortId} {b : SubId} {w : InstrWord} {body : List Byte} {s : State} {h : PktHdr} {c : FlowCtx} {i : Nat} {r : Region}

theorem scaleUp_runs (A : Arrives s p b w.toNat body 3 2) (hh : h = readHdr w.toNat) (rx : rxCtx s h.flow = some c)
    (ht : c.target = .region i) (hr : planRegion s i = some r) :
    exec (.scaleUp p b w body) s = .next (returnHop p b h (scaleCheck (returnCredit h (scalesHeard i r h body s)))) := by
  have heard : scaleUp h body s = scaleCheck (returnCredit h (scalesHeard i r h body s)) := by
    unfold scaleUp scalesHeard
    simp only [rx, ht, hr]
  rw [← heard, hh]
  exact congrArg Host.Outcome.next (arrive_runs A fun h u => scaleUp h body u)

theorem scaleDown_runs (A : Arrives s p b w.toNat body 3 3) (hh : h = readHdr w.toNat) (rx : rxCtx s h.flow = some c)
    (ht : c.target = .region i) (hr : planRegion s i = some r) : exec (.scaleDown p b w body) s =
      .next (returnHop p b h (newScales i r ((List.range body.length).map (h.arg + ·)) (scalesStored r h body s))) := by
  have stored : scaleDown h body s = newScales i r ((List.range body.length).map (h.arg + ·)) (scalesStored r h body s) := by
    unfold scaleDown scalesStored
    simp only [rx, ht, hr]
  rw [← stored, hh]
  exact congrArg Host.Outcome.next (arrive_runs A fun h u => scaleDown h body u)

/-- Outside scale finding the codes are only kept: the maximum of each block, and who has been heard. -/
theorem scalesHeard_kept (hf : s.red.scaleFind = false) :
    scalesHeard i r h body s = { s with red := { s.red with
      emaxUp := (scalesHeard i r h body s).red.emaxUp, upFrom := (scalesHeard i r h body s).red.upFrom } } ∧
    ∀ j x, body[j]? = some x →
      sget natD (scalesHeard i r h body s).red.emaxUp (bkey i (h.arg + j)) = max x.toNat (sget natD s.red.emaxUp (bkey i (h.arg + j))) ∧
      replicaOf s h.src * 2 ^ 24 + (h.arg + j) ∈ sget (fun _ => []) (scalesHeard i r h body s).red.upFrom i := by
  obtain ⟨v, hv, rest, codes, -, -⟩ := hear_fold i r (replicaOf s h.src) h.arg body 0 s hf
  obtain rfl : v = scalesHeard i r h body s := hv
  exact ⟨rest, codes⟩

/-- Outside scale finding and resending, stored scales bring nothing further. -/
theorem newScales_idle {bs : List Nat} (hf : s.red.scaleFind = false)
    (h : s.run.phase ≠ .reduction ∨ s.red.excluded.contains (myReplica s) = true) : newScales i r bs s = s := by
  unfold newScales
  simp only [hf, Bool.false_eq_true, if_false]
  refine if_neg ?_
  rcases h with h | h
  · simp [h]
  · rw [h]; simp

/-- In the reduction phase a contributor sends the blocks again at their new scales (R293). -/
theorem newScales_resends {bs : List Nat} (hf : s.red.scaleFind = false) (hp : s.run.phase = .reduction)
    (he : s.red.excluded.contains (myReplica s) = false) : newScales i r bs s = sendEntries r bs true s := by
  unfold newScales
  simp only [hf, Bool.false_eq_true, if_false]
  exact if_pos (by rw [hp, he]; rfl)

theorem scalesStored_net (r : Region) (h : PktHdr) (body : List Byte) (s : State) :
    NetOnly { s with mem := (scalesStored r h body s).mem } (scalesStored r h body s) := (NetOnly.returnCredit h s).memWrite ..

end

/-! ### SUMS packets (R299, R300) -/

/-- A round's parts are in at a live combining device that has not combined it. -/
def RoundOpen (s : State) (k : Nat) : Prop :=
  s.red.combined.contains k = false ∧ (liveCombiners s).contains (myPos s) = true ∧ roundReady s k = true

/-- The packet's part, or its sender's closing mark, has joined. -/
def partJoined (h : PktHdr) (body : List Byte) (s : State) : State :=
  { s with red := (if ixClose ≤ h.arg then { s.red with closed := s.red.closed ++ [(h.arg - ixClose, h.src)] }
                   else { s.red with parts := s.red.parts ++ [(h.arg, h.src, readVal h.arg body)] }) }

section
variable {p : PortId} {b : SubId} {w : InstrWord} {body : List Byte} {s t : State} {h : PktHdr} {c : FlowCtx} {base k : Nat}

theorem NetOnly.roundOpen (N : NetOnly s t) (k : Nat) : RoundOpen t k ↔ RoundOpen s k := by
  unfold RoundOpen
  rw [N.rest]; exact Iff.rfl

theorem NetOnly.partJoined (N : NetOnly s t) (h : PktHdr) (body : List Byte) :
    NetOnly (Machine.partJoined h body s) (Machine.partJoined h body t) :=
  ⟨by unfold Machine.partJoined; rw [N.rest], N.host, N.mem⟩

theorem sums_runs (A : Arrives s p b w.toNat body 3 4) (hh : h = readHdr w.toNat) (rx : rxCtx s h.flow = some c)
    (ht : c.target = .combining base) :
    exec (.sums p b w body) s = .next (returnHop p b h (combineRounds (partJoined h body (returnCredit h s)))) := by
  have joins : sumsPacket h body s = combineRounds (partJoined h body (returnCredit h s)) := by
    unfold sumsPacket partJoined
    simp only [rx, ht]
    split <;> rfl
  rw [← joins, hh]
  exact congrArg Host.Outcome.next (arrive_runs A fun h u => sumsPacket h body u)

/-- Combining one round neither opens nor closes another. -/
theorem combineRound_open_other (ho : RoundOpen s 1) : RoundOpen (combineRound 1 s) 2 ↔ RoundOpen s 2 := by
  obtain ⟨combined, -, -, rest⟩ := combineRound_spec ho
  have other : ((combineRound 1 s).red.combined.contains 2 = false) ↔ s.red.combined.contains 2 = false := by
    rw [combined]; simp
  unfold RoundOpen
  rw [other, rest.rest]; exact Iff.rfl

theorem combineRounds_none (h1 : ¬ RoundOpen s 1) (h2 : ¬ RoundOpen s 2) : combineRounds s = s := by
  unfold combineRounds
  rw [combineRound_open h1, combineRound_open h2]

/-- The one round whose parts are in is the one that is combined. -/
theorem combineRounds_one (hk : k = 1 ∨ k = 2) (ho : RoundOpen s k) (hn : ¬ RoundOpen s (3 - k)) : combineRounds s = combineRound k s := by
  obtain rfl | rfl := hk
  · exact combineRound_open fun open2 => hn ((combineRound_open_other ho).1 open2)
  · unfold combineRounds
    rw [combineRound_open hn]

theorem NetOnly.withRed (N : NetOnly s t) (x : RedSt) : NetOnly { s with red := x } { t with red := x } :=
  ⟨by rw [N.rest], N.host, N.mem⟩

/-- What combining a round leaves, seen from before the packets that were sent first. -/
theorem NetOnly.combined {rs : List (Nat × SumVal)} (N : NetOnly s t) (ho : RoundOpen s k)
    (hrs : rs = (roundIndices s k).filterMap fun i => (combineVal (partsOf s i)).map fun x => (i, x)) :
    (combineRound k t).red.combined = s.red.combined ++ [k] ∧ (combineRound k t).red.results = s.red.results ++ rs ∧
      (combineRound k t).red.parts = (s.red.parts.filter fun x => roundOf x.1 != k) ∧
      FlowOnly { s with red := { s.red with combined := (combineRound k t).red.combined, results := (combineRound k t).red.results,
                                            parts := (combineRound k t).red.parts, sums := (combineRound k t).red.sums } } (combineRound k t) := by
  obtain ⟨combined, results, parts, rest⟩ := combineRound_spec ((N.roundOpen k).2 ho)
  generalize combineRound k t = u at combined results parts rest
  have sameRed : t.red = s.red := N.red
  have sameResults : ((roundIndices t k).filterMap fun i => (combineVal (partsOf t i)).map fun x => (i, x)) = rs := by
    rw [hrs, N.rest]; rfl
  rw [sameRed] at combined parts rest
  rw [sameResults, sameRed] at results
  exact ⟨combined, results, parts, (FlowOnly.net (N.withRed _)).trans rest⟩

theorem partJoined_combined (h : PktHdr) (body : List Byte) (s : State) : (partJoined h body s).red.combined = s.red.combined := by
  unfold partJoined; split <;> rfl

theorem partJoined_results (h : PktHdr) (body : List Byte) (s : State) : (partJoined h body s).red.results = s.red.results := by
  unfold partJoined; split <;> rfl

end

/-- Settles O48: an RA packet is discarded or `entriesAdded`, entry by entry `addEntry_spec`; the SCALE packets are `scalesHeard`
and `scalesStored` past the checks of scale finding; a SUMS packet is `partJoined` and the combining of the round that it opens. -/
theorem reducePackets : Obligations.ReducePackets := by
  refine ⟨fun p b w body s h c i r x fp8 kind hx A hh rx ht hr => ⟨fun out => ?discarded, fun own gen phase => ?added⟩,
    fun i r fp8 b e s u k hk hu hl plain => ⟨fun stale => ?stale, fun hb hs excluded => ?excluded, fun hb hs counted => ?adder⟩,
    fun p b w body s h c i r A hh rx ht hr => ?scaleUp, fun p b w body s h c i r A hh rx ht hr plain => ?scaleDown,
    fun p b w body s v h c base ready A hh rx ht hv hready => ?sums⟩
  case discarded =>
    exact ⟨_, by rw [ra_runs hx A hh, raPacket_discards rx ht hr out],
      ((NetOnly.bump ..).trans (.returnCredit ..)).trans (.returnHop ..)⟩
  case added =>
    refine ⟨entriesAdded i r fp8 h body s, _, (by rw [ra_runs hx A hh, raPacket_adds rx ht hr own gen phase]), rfl, rfl,
      fun notFull waits => ?_, fun e he again => entriesAdded_one he again⟩
    have net := NetOnly.returnCredit h (entriesAdded i r fp8 h body s)
    rw [redCheck_goesOn (by rw [net.red, net.allFull]; exact notFull) (by rw [net.red, net.passDone, net.ctlGet]; exact waits)]
    exact net.trans (.returnHop ..)
  case stale =>
    subst hk hu
    rw [addEntry_stale stale]; exact bump_countsOnly ..
  case excluded =>
    subst hk hu
    exact addEntry_excluded hb hs excluded
  case adder =>
    obtain ⟨u', k', hu', block, nf, ovf, sum, last, notLast, others, mem, rest, heard, unheard⟩ :=
      addEntry_spec i r fp8 b e s k hk hl plain hb hs counted
    obtain rfl : u' = u := hu'.trans hu.symm
    refine ⟨fun h => ?_, fun h g => ?_, fun h g => ?_, last, notLast, others, mem, rest, heard, unheard⟩
    · obtain ⟨rfl, flagged⟩ := nf h
      exact ⟨block, flagged⟩
    · obtain ⟨rfl, kept⟩ := ovf h g
      exact ⟨block, kept⟩
    · obtain ⟨rfl, kept⟩ := sum h g
      exact ⟨block, kept⟩
  case scaleUp =>
    have net := NetOnly.returnCredit h (scalesHeard i r h body s)
    have goesOn : (scalesHeard i r h body s).red.scaleFind = false ∨ scalesDone (scalesHeard i r h body s) = false ∨
        (ctlGet (scalesHeard i r h body s) ctlScale).own = true →
        NetOnly (scalesHeard i r h body s) (returnHop p b h (scaleCheck (returnCredit h (scalesHeard i r h body s)))) := fun open_ => by
      rw [scaleCheck_goesOn (by rw [net.red, net.scalesDone, net.ctlGet]; exact open_)]
      exact net.trans (.returnHop ..)
    refine ⟨scalesHeard i r h body s, _, scaleUp_runs A hh rx ht hr, rfl, rfl, goesOn, fun hf => ?_⟩
    obtain ⟨rest, codes⟩ := scalesHeard_kept (i := i) (r := r) (h := h) (body := body) hf
    exact ⟨goesOn (.inl (by rw [rest]; exact hf)), rest, codes⟩
  case scaleDown =>
    have net := scalesStored_net r h body s
    refine ⟨scalesStored r h body s, _, scaleDown_runs A hh rx ht hr, memBytes_memWrite _ _ body fun j hj => ?_, fun x hx out => ?_, net, rfl,
      fun hf idle => ?_, fun hf hp he => ?_⟩
    · exact plain j hj
    · exact (memByte_memWrite_ne _ _ body out).trans ((NetOnly.returnCredit h s).mem x hx)
    · rw [newScales_idle (by rw [net.rest]; exact hf) (by rw [net.rest]; exact idle)]
      exact .returnHop ..
    · rw [newScales_resends (by rw [net.rest]; exact hf) (by rw [net.rest]; exact hp) (by rw [net.rest]; exact he)]
      exact (sendEntries_only ..).trans (.net (.returnHop ..))
  case sums =>
    obtain rfl : v = partJoined h body s := hv
    have net := (NetOnly.returnCredit h s).partJoined h body
    have opens : ∀ k, RoundOpen (partJoined h body s) k ↔ ready k := fun k => by
      rw [hready k]
      unfold RoundOpen
      rw [partJoined_combined]; exact Iff.rfl
    have opensSent : ∀ k, RoundOpen (partJoined h body (returnCredit h s)) k ↔ ready k := fun k => (net.roundOpen k).trans (opens k)
    refine ⟨fun not1 not2 => ⟨_, sums_runs A hh rx ht, ?_⟩, fun k rs hk isReady notOther hrs => ⟨_, sums_runs A hh rx ht, ?_⟩⟩
    · rw [combineRounds_none (mt (opensSent 1).1 not1) (mt (opensSent 2).1 not2)]
      exact net.trans (.returnHop ..)
    · have credited := NetOnly.returnHop p b h (combineRound k (partJoined h body (returnCredit h s)))
      obtain ⟨combined, results, parts, rest⟩ := net.combined ((opens k).2 isReady) hrs
      rw [combineRounds_one hk ((opensSent k).2 isReady) (mt (opensSent (3 - k)).1 notOther), credited.red]
      rw [partJoined_combined] at combined
      rw [partJoined_results] at results
      exact ⟨combined, results, parts, rest.trans (.net credited)⟩

end Sys2Proof.Machine
end

section
/-! PROOFS. Every step keeps the invariant of the device, and the state after reset has it (R311, R348, R379, R380, R408, R409, R427). -/

namespace Sys2Proof.Machine

open Sys2Proof

/-! ### One step -/

theorem step_empty {s : State} (h : s.pending = []) : step s = .next s := by
  unfold step; rw [h]

theorem step_front {c : Instr} {l : List Instr} {s : State} (h : s.pending = c :: l) : step s = exec c { s with pending := l } := by
  unfold step; rw [h]

/-! ### The invariant -/

/-- The invariant does not read the queue. -/
theorem Inv.dequeued {s : State} (h : Inv s) (l : List Instr) : Inv { s with pending := l } :=
  ⟨h.regs, h.mem, h.counters, h.journal, h.log, h.attn⟩

/-- What a command answers keeps the queue, the fixed fuses and the invariant. -/
theorem exec_keeps {c : Instr} {s t : State} (h : exec c s = .next t) : Keeps s t := by
  obtain ⟨u, runs, kept⟩ := exec_kept c (Kept.refl s)
  obtain rfl : u = t := Host.Outcome.next.inj (runs.symm.trans h)
  exact kept.keeps

/-- Settles O3: an empty queue answers the state itself, and the front command keeps the invariant by `exec_keeps`. -/
theorem invariantKept : Obligations.InvariantKept := fun s s' inv h => by
  cases queue : s.pending with
  | nil =>
    obtain rfl : s = s' := Host.Outcome.next.inj ((step_empty queue).symm.trans h)
    exact inv
  | cons c l => exact (exec_keeps ((step_front queue).symm.trans h)).inv (inv.dequeued l)

/-- Settles O4: after reset every map is empty and every count is 0. -/
theorem invariantAtReset : Obligations.InvariantAtReset where
  regs := rfl
  mem := rfl
  counters := fun _ h => absurd h List.not_mem_nil
  journal := Nat.zero_le _
  log := Nat.zero_le _
  attn := Nat.zero_lt_succ _

end Sys2Proof.Machine
end

section
/-! PROOFS. Standing replies, host loss and the wedge (R321, R349, R351, R353). -/

namespace Sys2Proof.Machine

open Sys2Proof

/-! ### Rows -/

theorem exec_standingReply (s : State) : exec .standingReply s = .next (standingReply s) := rfl
theorem exec_hostLost (s : State) : exec .hostLost s = .next (hostLost s) := rfl
theorem exec_wedgeTimeout (u : WedgeUnit) (s : State) : exec (.wedgeTimeout u) s = .next (wedge u s) := rfl

/-! ### The standing reply (R351) -/

/-- A standing reply falls due: standing replies are enabled and their interval of strokes has passed, in no state that has none. -/
structure StandingDue (s : State) : Prop where
  booted : s.dev ≠ .boot
  running : s.dev ≠ .recovery
  powered : s.pwr.state ≠ .g5
  answering : s.host.stuck = false
  enabled : bitN (reg s 0x2010) 16 = true
  elapsed : bitsN (reg s 0x2010) 0 16 ≤ s.host.standCount

/-- The 32 bytes of the standing reply. -/
def standingBytes (s : State) : List Byte :=
  statusWord s 0 s.host.attnStanding ++ leBytes 2 0xFFFF ++ [0x81, if s.host.standPhase then 1 else 0] ++ b8 s.stroke.count ++
    b4 (stepField s) ++ b4 (s.host.standSeq + 1) ++ b4 s.host.events ++ leBytes 1 s.res.sysRisk ++ leBytes 3 0

/-- Where the standing reply is written. -/
def standingAddr (s : State) : Nat := reg s 0x2008 + reg s 0x200C * 2 ^ 32

/-- A standing reply has had its turn, written or not: the next one has the other phase and the next number. -/
def standingTurn (s : State) : State :=
  { s with host := { s.host with standCount := 0, standPhase := !s.host.standPhase, standSeq := (s.host.standSeq + 1) % 2 ^ 32
                                 attnStanding := 0 } }

theorem standingReply_due {s : State} (h : StandingDue s) : standingReply s =
    standingTurn (if hostRange s (standingAddr s) 32 then emit (.hostWrite (standingAddr s) (standingBytes s)) s else bump (cntDev 21) 1 s) := by
  obtain ⟨booted, running, powered, answering, enabled, elapsed⟩ := h
  exact if_neg (by simp [booted, running, powered, answering, enabled, elapsed])

theorem standingReply_none {s : State} (h : s.dev = .boot ∨ s.dev = .recovery ∨ s.pwr.state = .g5 ∨ s.host.stuck = true ∨
    bitN (reg s 0x2010) 16 = false ∨ s.host.standCount < bitsN (reg s 0x2010) 0 16) : standingReply s = s := by
  refine if_pos ?_
  rcases h with h | h | h | h | h | h <;> simp [h]

/-- A reply whose address no window covers is counted in place of being written. -/
theorem standingTurn_unwritten (s : State) : HostOnly s (standingTurn (bump (cntDev 21) 1 s)) ∧
    (standingTurn (bump (cntDev 21) 1 s)).out = s.out ∧
    (standingTurn (bump (cntDev 21) 1 s)).host.standSeq = (s.host.standSeq + 1) % 2 ^ 32 := by
  refine ⟨(HostOnly.bump ..).trans (.setHost ..), out_bump .., ?_⟩
  show ((bump (cntDev 21) 1 s).host.standSeq + 1) % 2 ^ 32 = _
  rw [(bump_countsOnly ..).host]

/-! ### Host loss (R321) -/

theorem hostAway_iff (s : State) : hostAway s = true ↔ s.host.linkUp = false ∨ ∃ x ∈ s.host.rings, x.2.queued ≠ [] := by
  simp [hostAway]

theorem hostLost_away {s : State} (h : hostAway s = true) :
    hostLost s = { s with host := { s.host with lost := true, lostRequest := s.host.lostRequest || inRun s } } :=
  if_neg (by simp [h])

theorem hostLost_present {s : State} (h : hostAway s = false) : hostLost s = s := if_pos (by simp [h])

/-! ### The wedge (R353) -/

/-- The unit's lack of progress is logged, and the device is wedged. -/
theorem wedge_stuck {u : WedgeUnit} {s : State} (hb : s.dev ≠ .boot) (hr : s.dev ≠ .recovery) (hw : s.dev ≠ .wedged)
    (hp : pendingFor s u = true) : wedge u s = { logEv 0x0901 (b4 (wedgeCode u)) s with
      dev := .wedged, host := { (logEv 0x0901 (b4 (wedgeCode u)) s).host with stuck := u == .hostInterface } } :=
  if_neg (by simp [hb, hr, hw, hp])

theorem wedge_none {u : WedgeUnit} {s : State} (h : s.dev = .boot ∨ s.dev = .recovery ∨ s.dev = .wedged ∨ pendingFor s u = false) :
    wedge u s = s := by
  refine if_pos ?_
  rcases h with h | h | h | h <;> simp [h]

/-- Settles O52: the standing reply, the loss of a host and the wedge, each where it is due and where it is not. -/
theorem hostAndWedge : Obligations.HostAndWedge := by
  refine ⟨⟨fun s a ha hb hr hg hs he hc => ?due, fun s h => congrArg _ (standingReply_none h)⟩,
    fun s h => congrArg _ (hostLost_away ((hostAway_iff s).2 h)), fun s hl hq => ?present, fun u s hb hr hw hp => ?wedged,
    fun u s h => congrArg _ (wedge_none h)⟩
  case due =>
    have reply := standingReply_due ⟨hb, hr, hg, hs, he, hc⟩
    obtain rfl : a = standingAddr s := ha
    refine ⟨fun covered => ?_, fun uncovered => ?_⟩
    · rw [if_pos covered] at reply
      exact ⟨_, (exec_standingReply s).trans (congrArg _ reply), rfl, rfl⟩
    · rw [if_neg (by simp [uncovered])] at reply
      exact ⟨_, (exec_standingReply s).trans (congrArg _ reply), standingTurn_unwritten s⟩
  case present =>
    refine congrArg _ (hostLost_present (Bool.eq_false_iff.2 fun away => ?_))
    rcases (hostAway_iff s).1 away with down | ⟨x, hx, waits⟩
    · exact absurd hl (by simp [down])
    · exact waits (hq x hx)
  case wedged =>
    refine ⟨_, (exec_wedgeTimeout u s).trans (congrArg _ (wedge_stuck hb hr hw hp)), rfl, beq_iff_eq, logEv_run .., logEv_regs ..,
      logEv_plan .., logEv_mem .., logEv_cores .., logEv_next _ _ s hr, fun kept room => ?_⟩
    exact logEv_enters _ _ s hr (Nat.lt_succ_of_lt room) kept

end Sys2Proof.Machine
end

section
/-! PROOFS. The front of the queue (12_host_rings), and window registers under RUN_LOCK (R335). -/

namespace Sys2Proof.Machine

open Sys2Proof

/-- Settles O1: a step is the command that `step_front` takes off the queue, or nothing. -/
theorem stepRunsFront : Obligations.StepRunsFront :=
  ⟨fun _ _ => step_front rfl, fun _ _ _ h => step_front h, fun _ h => step_empty h⟩

/-! ### Accesses that are refused -/

theorem reg_refuseWrite (s : State) (o : Nat) : reg (refuseWrite s) o = reg s o := reg_bump ..

theorem wakeAccess_idem (s : State) : wakeAccess (wakeAccess s) = wakeAccess s := by
  simp [wakeAccess_eq]

theorem wakeAccess_refuseWrite (s : State) : wakeAccess (refuseWrite s) = refuseWrite s ↔ wakeAccess s = s := by
  have fixed : ∀ t : State, wakeAccess t = t ↔ (t.pwr.exiting || (t.pwr.state == .g3 || t.pwr.state == .g4)) = t.pwr.exiting := fun t => by
    rw [wakeAccess_eq]
    exact ⟨fun h => congrArg (fun t : State => t.pwr.exiting) h, fun h => by rw [h]⟩
  have pwr : (refuseWrite s).pwr = s.pwr := by rw [refuseWrite, (bump_countsOnly ..).rest]
  rw [fixed, fixed, pwr]

/-! ### Window registers (R335, R428) -/

theorem runLock_refused (s : State) (c : Nat) : runLock (refuseWrite (wakeAccess s)) c = runLock s c := by
  rw [refuseWrite, (bump_countsOnly ..).rest, wakeAccess_eq]
  rfl

section
variable {s : State} {c : Nat} (run : runLock s c = true)
include run

theorem runLock_anyRunLock : anyRunLock s = true := by
  unfold runLock at run
  unfold anyRunLock
  cases hp : s.plan with
  | none => simp [hp] at run
  | some p => simp [hp] at run ⊢; exact run.1

theorem runLock_dev : s.dev ≠ .boot ∧ s.dev ≠ .recovery := by
  have active : runActive s = true := (Bool.and_eq_true_iff.1 run).1
  constructor <;> · intro h; simp [runActive, h, devCode] at active

theorem window_locked {off : Nat} (h1 : 0x3800 ≤ off) (h2 : off < 0x3900) : regLocked s off = true := by
  unfold regLocked
  rw [if_neg (by omega), if_pos ⟨h1, h2⟩]
  exact runLock_anyRunLock run

theorem writeReg_window {off : Nat} (v : Nat) (h1 : 0x3800 ≤ off) (h2 : off < 0x3900) : writeReg off v s = refuseWrite (wakeAccess s) :=
  refuse_of_locked (by omega) (.inr (.inr (.inr (.inr (.inr (.inl (window_locked run h1 h2)))))))

end

/-- A window register has no field that is a command. -/
theorem regInfo_window {x : Nat} (h1 : 0x3800 ≤ x) (h2 : x < 0x3900) {r : RegInfo} (hi : regInfo x = some r) : r.cmd = 0 := by
  have aligned : ¬ x % 4 ≠ 0 := fun h => by rw [regInfo, if_pos h] at hi; cases hi
  unfold regInfo regInfoSetup at hi
  rw [if_neg aligned, if_pos (by omega)] at hi
  iterate 4 rw [if_neg (by omega)] at hi
  rw [if_pos h2] at hi
  simp only [rwReg] at hi
  split at hi
  · cases hi; rfl
  · split at hi
    · cases hi; rfl
    · split at hi
      · cases hi; rfl
      · cases hi

/-- A locked register without commands takes no write of one of its bits. -/
theorem writeAliasBit_locked {x : Nat} (b v : Nat) {s : State} (locked : regLocked s x = true)
    (plain : ∀ r, regInfo x = some r → r.cmd = 0) : writeAliasBit x b v s = refuseWrite s := by
  unfold writeAliasBit
  cases hi : regInfo x with
  | none => rfl
  | some r =>
    have masked : ∀ v m, writeMasked x v m s = refuseWrite s := fun v m => by
      unfold writeMasked
      simp [hi, locked]
    have none : bitN r.cmd b = false := by rw [plain r hi, bitN_testBit, Nat.zero_testBit]
    simp [masked, none]

theorem aliasWrite_window {x b : Nat} (v : Word) {s : State} {c : Nat} (run : runLock s c = true) (h1 : 0x3800 ≤ x) (h2 : x < 0x3900)
    (h4 : x % 4 = 0) (hb : b < 32) : exec (.aliasWrite (0x2000000 + (x * 8 + b) * 4) v) s = .next (refuseWrite (wakeAccess s)) := by
  obtain ⟨booted, running⟩ := runLock_dev run
  have dev : (wakeAccess s).dev = s.dev := by rw [wakeAccess_eq]
  have locked : regLocked (wakeAccess s) x = true := window_locked (c := c) (by rw [wakeAccess_eq]; exact run) h1 h2
  have seen : recoveryHides s (0x2000000 + (x * 8 + b) * 4) = false := by simp [recoveryHides, running]
  rw [exec_aliasWrite, execAliasWrite, if_pos (by omega), writeReg_alias _ (by omega) h4 hb (by rw [dev]; exact booted) seen,
    writeAliasBit_locked _ _ locked fun _ => regInfo_window h1 h2]

/-- Settles O6: `regLocked` holds of every window register, so each form of write ends in `refuseWrite`, which changes no register. -/
theorem windowRegisters : Obligations.WindowRegisters := by
  have kept : ∀ s o, reg (refuseWrite (wakeAccess s)) o = reg s o := fun s o => (reg_refuseWrite ..).trans (reg_wakeAccess ..)
  refine ⟨fun off v s c h1 h2 h4 run => ?four, fun off v s c h1 h2 h8 run => ?eight, fun x b v s c h1 h2 h4 hb run => ?bit⟩
  case four =>
    refine ⟨_, ?_, rfl, bump_countsOnly .., kept s⟩
    rw [exec_registerWrite, writeBar0_four _ _ h4, writeReg_window run _ h1 h2]
  case eight =>
    refine ⟨_, ?_, rfl, bump_countsOnly .., fun o => (reg_refuseWrite ..).trans (kept s o)⟩
    rw [exec_registerWrite, writeBar0_eight _ _ h8, writeReg_window run _ h1 h2,
      writeReg_window ((runLock_refused s c).trans run) _ (by omega) (by omega), (wakeAccess_refuseWrite _).2 (wakeAccess_idem s)]
  case bit => exact ⟨_, aliasWrite_window v run h1 h2 h4 hb, rfl, bump_countsOnly .., kept s⟩

end Sys2Proof.Machine
end

section
/-! PROOFS. What completing a ring command writes (R336, R339 to R341, R348, R360, R380). -/

namespace Sys2Proof.Machine

open Sys2Proof

/-! ### A reply (R339, R340, R348) -/

section
variable (q : Nat)

theorem reply_rings (tag op code : Nat) (p : List Byte) (s : State) {r : Nat} (hr : r ≠ q) : ring (reply q tag op code p s) r = ring s r := by
  unfold reply
  extract_lets bytes
  split
  · rfl
  · split
    · exact ring_modRing_ne s _ hr
    · exact (writeReply_rings ..).2 r hr

/-- A reply counts nothing but one that cannot be written, and what a saturation brings. -/
theorem cntExact_reply (tag op code : Nat) (p : List Byte) (s : State) {k : Nat} (h21 : k ≠ cntDev 21) (h16 : k ≠ cntDev 16) :
    cntExact (reply q tag op code p s) k = cntExact s k := by
  unfold reply
  extract_lets bytes
  split
  · rfl
  · split
    · rfl
    · unfold writeReply
      extract_lets a first s1
      show cntExact s1 k = _
      unfold s1
      split
      · rfl
      · exact cntExact_bump_ne s 1 h21 h16

/-- A pair whose reply of RQ_TAIL has been written (R339). -/
def replyWritten (n : Nat) (R : RingSt) : RingSt :=
  { R with rqTail := (R.rqTail + 1) % 2 ^ n, phase := if (R.rqTail + 1) % 2 ^ n = 0 then !R.phase else R.phase }

theorem writeReply_covered {s : State} (h : hostRange s (rqBase s q + 32 * (ring s q).rqTail) 32 = true) {first last : List Byte} {b : Byte}
    (len : first.length = 7) : writeReply q (first ++ [b] ++ last) s =
      modRing q (replyWritten (ringLog2 s q true))
        (emit (.hostWrite (rqBase s q + 32 * (ring s q).rqTail) (first ++ [if (ring s q).phase then 1 else 0]))
          (emit (.hostWrite (rqBase s q + 32 * (ring s q).rqTail + 8) last) s)) := by
  have low : (first ++ [b] ++ last).take 7 = first := by rw [List.append_assoc]; exact List.take_left' len
  have high : (first ++ [b] ++ last).drop 8 = last := List.drop_left' (by simp [len])
  unfold writeReply
  rw [low, high]
  exact congrArg (modRing q (replyWritten (ringLog2 s q true))) (if_pos h)

end

/-! ### The end of a command (R341) -/

/-- Bytes 0 to 6 of the reply to entry `e`: status word, tag and opcode (R340). -/
def replyHead (s : State) (code : Nat) (e : List Byte) : List Byte :=
  statusWord s code s.host.attnStep ++ leBytes 2 (leAt e 2 2) ++ leBytes 1 (leAt e 0 1)

theorem length_replyHead (s : State) (code : Nat) (e : List Byte) : (replyHead s code e).length = 7 := by
  simp [replyHead, statusWord_len, length_leBytes]

/-- A pair whose front entry has left it. -/
def entryLeft (rest : List (List Byte)) (R : RingSt) : RingSt := { R with fetched := rest, accepted := false }

section
variable {q code : Nat} {payload e : List Byte} {rest : List (List Byte)} {s : State} (front : (ring s q).fetched = e :: rest)
  (known : ∀ y, rest.head? = some y → knownOpcode (leAt y 0 1) = true)
  (below : cntSat (cntDev 0) (cntExact (cntAdd (cntDev 0) 1 s) (cntDev 0)) = false)
include front known below

/-- A command's completion is its count, its reply and the end of its entry: the next entry stays, being a known command. -/
theorem complete_eq : complete q code payload s =
    modRing q (entryLeft rest) (reply q (leAt e 2 2) (leAt e 0 1) code payload (cntAdd (cntDev 0) 1 s)) := by
  unfold complete
  extract_lets t
  have done : t = modRing q (entryLeft rest) (reply q (leAt e 2 2) (leAt e 0 1) code payload (cntAdd (cntDev 0) 1 s)) :=
    finish_eq front below
  rw [dropReserved_id, done]
  intro y hy
  rw [done, ring_modRing_self] at hy
  exact known y hy

theorem complete_count : cntExact (complete q code payload s) (cntDev 0) = min (cntExact s (cntDev 0) + 1) (2 ^ 48 - 1) := by
  rw [complete_eq front known below]
  show cntExact (reply q _ _ code payload (cntAdd (cntDev 0) 1 s)) (cntDev 0) = _
  rw [cntExact_reply _ _ _ _ _ _ (by decide) (by decide), cntExact_cntAdd_self]
  rfl

theorem complete_rings {r : Nat} (hr : r ≠ q) : ring (complete q code payload s) r = ring s r := by
  rw [complete_eq front known below, ring_modRing_ne _ _ hr, reply_rings _ _ _ _ _ _ hr]
  rfl

/-- The reply waits while the reply ring is full, the function is in D3hot, or another reply waits (R339, R360). -/
theorem complete_queues (on : ringEnabled s q = true) (wait : rqFull s q = true ∨ s.host.d3hot = true ∨ (ring s q).queued ≠ []) :
    complete q code payload s = modRing q (entryLeft rest)
      (modRing q (fun R => { R with queued := R.queued ++ [replyHead s code e ++ [0] ++ padTo 24 payload] }) (cntAdd (cntDev 0) 1 s)) :=
  (complete_eq front known below).trans
    (congrArg _ ((reply_cases q (leAt e 2 2) (leAt e 0 1) code payload (cntAdd (cntDev 0) 1 s) on).1 wait))

/-- The reply is written at RQ_TAIL with the phase bit (R339). -/
theorem complete_writes (on : ringEnabled s q = true) (room : rqFull s q = false) (awake : s.host.d3hot = false) (idle : (ring s q).queued = [])
    (covered : hostRange s (rqBase s q + 32 * (ring s q).rqTail) 32 = true) :
    complete q code payload s = modRing q (entryLeft rest) (modRing q (replyWritten (ringLog2 s q true))
      (emit (.hostWrite (rqBase s q + 32 * (ring s q).rqTail) (replyHead s code e ++ [if (ring s q).phase then 1 else 0]))
        (emit (.hostWrite (rqBase s q + 32 * (ring s q).rqTail + 8) (padTo 24 payload)) (cntAdd (cntDev 0) 1 s)))) := by
  rw [complete_eq front known below,
    (reply_cases q (leAt e 2 2) (leAt e 0 1) code payload (cntAdd (cntDev 0) 1 s) on).2 room awake idle]
  exact congrArg _ (writeReply_covered (s := cntAdd (cntDev 0) 1 s) q covered (length_replyHead s code e))

end

/-- Settles O24: `complete_eq` gives the end of the entry, its count and its reply, which waits or is written by `reply_cases`. -/
theorem ringReplies : Obligations.RingReplies := by
  intro q code payload e rest s front known on below u head
  have only := HostOnly.complete q code payload s
  have left : ring u q = entryLeft rest (ring (reply q (leAt e 2 2) (leAt e 0 1) code payload (cntAdd (cntDev 0) 1 s)) q) := by
    unfold u
    rw [complete_eq front known below, ring_modRing_self]
  refine ⟨by rw [left]; rfl, by rw [left]; rfl, complete_count front known below, fun r hr => complete_rings front known below hr, only.rest,
    only.mem, fun wait => ?queued, fun room awake idle covered => ?written⟩
  case queued =>
    have queues := complete_queues (code := code) (payload := payload) front known below on wait
    unfold u
    rw [queues, ring_modRing_self, ring_modRing_self]
    exact ⟨rfl, rfl, rfl⟩
  case written =>
    have writes := complete_writes (code := code) (payload := payload) front known below on room awake idle covered
    unfold u
    rw [writes, ring_modRing_self, ring_modRing_self]
    exact ⟨rfl, rfl, idle, rfl⟩

end Sys2Proof.Machine
end

section
/-! PROOFS. Doorbells, and the fetch of submission entries (R336 to R340, R342, R354, R360). -/

namespace Sys2Proof.Machine

open Sys2Proof

/-! ### Rows -/

theorem exec_sqTail (q : RingId) (off : Nat) (v : Word) (s : State) : exec (.sqTail q off v) s = .next (sqTailOp q off v.toNat s) := rfl
theorem exec_rqHead (q : RingId) (v : Word) (s : State) : exec (.rqHead q v) s = .next (rqHeadOp q v.toNat s) := rfl
theorem exec_sqEntryFetched (q : RingId) (x : FetchResult) (s : State) : exec (.sqEntryFetched q x) s = .next (fetchOp q x s) := rfl

/-! ### Doorbells (R336, R337, R342, R354) -/

theorem ring_doorbellTouch (s : State) (r : Nat) : ring (doorbellTouch s) r = ring s r := by rw [doorbellTouch_eq]; rfl
theorem ringEnabled_doorbellTouch (s : State) (q : Nat) : ringEnabled (doorbellTouch s) q = ringEnabled s q := by rw [doorbellTouch_eq]; rfl
theorem ringLog2_doorbellTouch (s : State) (q : Nat) (b : Bool) : ringLog2 (doorbellTouch s) q b = ringLog2 s q b := by rw [doorbellTouch_eq]; rfl
theorem memByte_doorbellTouch (s : State) (x : Nat) : memByte (doorbellTouch s) x = memByte s x := by rw [doorbellTouch_eq]; rfl

/-- What changes the host interface after a doorbell has been noticed. -/
theorem HostOnly.touched {s u : State} (h : HostOnly (doorbellTouch s) u) : Touched s u := by
  unfold Touched
  rw [h.rest, doorbellTouch_eq]

/-- A ring pair changed after a doorbell, and no other. -/
theorem ring_touched (q : Nat) (f : RingSt → RingSt) (s : State) :
    ring (modRing q f (doorbellTouch s)) q = f (ring s q) ∧ ∀ r, r ≠ q → ring (modRing q f (doorbellTouch s)) r = ring s r :=
  ⟨by rw [ring_modRing_self, ring_doorbellTouch], fun r hr => by rw [ring_modRing_ne _ _ hr, ring_doorbellTouch]⟩

section
variable {q v : Nat} {s : State}

/-- The checks of a doorbell read the state before the access. -/
theorem sqTailOp_eq (q off v : Nat) (s : State) : sqTailOp q off v s =
    if off ≠ 0 then refuseWrite (doorbellTouch s)
    else if !ringEnabled s q then emit (.aer 2) (refuseWrite (doorbellTouch s))
    else if 2 ^ ringLog2 s q false ≤ v % 2 ^ 16 then refuseWrite (doorbellTouch s)
    else modRing q (fun R => { R with sqTail := v % 2 ^ 16 }) (doorbellTouch s) := by
  rw [← ringEnabled_doorbellTouch, ← ringLog2_doorbellTouch]; rfl

theorem rqHeadOp_eq (q v : Nat) (s : State) : rqHeadOp q v s =
    if !ringEnabled s q then emit (.aer 2) (refuseWrite (doorbellTouch s))
    else if 2 ^ ringLog2 s q true ≤ v % 2 ^ 16 then refuseWrite (doorbellTouch s)
    else drainReplies q (ring s q).queued.length (modRing q (fun R => { R with rqHead := v % 2 ^ 16 }) (doorbellTouch s)) := by
  have queued : (ring (modRing q (fun R => { R with rqHead := v % 2 ^ 16 }) (doorbellTouch s)) q).queued = (ring s q).queued := by
    rw [ring_modRing_self, ring_doorbellTouch]
  rw [← ringEnabled_doorbellTouch, ← ringLog2_doorbellTouch, ← queued]; rfl

theorem sqTailOp_inRange (on : ringEnabled s q = true) (h : v % 2 ^ 16 < 2 ^ ringLog2 s q false) :
    sqTailOp q 0 v s = modRing q (fun R => { R with sqTail := v % 2 ^ 16 }) (doorbellTouch s) := by
  rw [sqTailOp_eq, if_neg (not_not.2 rfl), if_neg (by simp [on]), if_neg (Nat.not_le.2 h)]

theorem sqTailOp_refused {off : Nat} (h : off ≠ 0 ∨ (ringEnabled s q = true ∧ 2 ^ ringLog2 s q false ≤ v % 2 ^ 16)) :
    sqTailOp q off v s = refuseWrite (doorbellTouch s) := by
  rw [sqTailOp_eq]
  by_cases aligned : off = 0
  · obtain ⟨on, out⟩ := h.resolve_left (not_not.2 aligned)
    rw [if_neg (not_not.2 aligned), if_neg (by simp [on]), if_pos out]
  · rw [if_pos aligned]

theorem sqTailOp_off (off : ringEnabled s q = false) : sqTailOp q 0 v s = emit (.aer 2) (refuseWrite (doorbellTouch s)) := by
  rw [sqTailOp_eq, if_neg (not_not.2 rfl), if_pos (by simp [off])]

theorem rqHeadOp_inRange (on : ringEnabled s q = true) (h : v % 2 ^ 16 < 2 ^ ringLog2 s q true) :
    rqHeadOp q v s = drainReplies q (ring s q).queued.length (modRing q (fun R => { R with rqHead := v % 2 ^ 16 }) (doorbellTouch s)) := by
  rw [rqHeadOp_eq, if_neg (by simp [on]), if_neg (Nat.not_le.2 h)]

theorem rqHeadOp_refused (on : ringEnabled s q = true) (h : 2 ^ ringLog2 s q true ≤ v % 2 ^ 16) :
    rqHeadOp q v s = refuseWrite (doorbellTouch s) := by
  rw [rqHeadOp_eq, if_neg (by simp [on]), if_pos h]

theorem rqHeadOp_off (off : ringEnabled s q = false) : rqHeadOp q v s = emit (.aer 2) (refuseWrite (doorbellTouch s)) := by
  rw [rqHeadOp_eq, if_pos (by simp [off])]

end

/-! ### Fetching (R338, R340, R342, R360) -/

/-- The state with an entry read at SQ_HEAD of the pair (R338). -/
def entryRead (q : Nat) (e : List Byte) (s : State) : State :=
  modRing q (fun R => { R with sqHead := (R.sqHead + 1) % 2 ^ ringLog2 s q false, fetched := R.fetched ++ [padTo 64 e] }) s

/-- The state of a pair whose fetch has failed, and is reported (R338). -/
def fetchFailed (q : Nat) (s : State) : State := emit (.aer 1) (modRing q (fun R => { R with fetchErr := true }) s)

section
variable {q : Nat} {s : State}

theorem fetchOp_waits (x : FetchResult) (h : s.pwr.state ≠ .p0) : fetchOp q x s = s := by
  unfold fetchOp fetches
  rw [if_pos (by simp [h])]

theorem fetches_p0 (entry : hasEntry s q = true) (awake : s.host.d3hot = false) (p0 : s.pwr.state = .p0) : fetches s q = true := by
  simp [fetches, entry, awake, p0]

theorem fetchOp_read (h : fetches s q = true) {e : List Byte} (covered : hostRange s (entryAddr s q) 64 = true) :
    fetchOp q (.ok e) s = dropReserved q (ring (entryRead q e s) q).fetched.length (entryRead q e s) := by
  simp [fetchOp, h, covered, entryRead]

theorem fetchOp_fails (h : fetches s q = true) {x : FetchResult} (bad : x = .error ∨ x = .poisoned ∨ hostRange s (entryAddr s q) 64 = false) :
    fetchOp q x s = reply q 0xFFFF 0 3 [] (fetchFailed q s) := by
  unfold fetchOp
  rw [if_neg (by simp [h])]
  rcases bad with rfl | rfl | away
  · simp only [ite_self]; rfl
  · by_cases covered : hostRange s (entryAddr s q) 64 = true
    · rw [if_pos covered]; rfl
    · rw [if_neg covered]; rfl
  · rw [if_neg (by simp [away])]; rfl

/-- A reserved entry that is alone at the front completes at once (R342, R353). -/
theorem dropReserved_one {e : List Byte} (one : (ring s q).fetched = [e]) (free : (ring s q).accepted = false)
    (reserved : knownOpcode (leAt e 0 1) = false) :
    dropReserved q (ring s q).fetched.length s = finish q (if s.dev == .wedged then 0xFE else 1) [] s := by
  rw [one]
  show dropReserved q 1 s = _
  unfold dropReserved
  rw [one]
  simp only [free, reserved]
  rfl

end

/-- Settles O32: each doorbell is `sqTailOp` or `rqHeadOp` with its range checked, and a fetch appends its entry or replies. -/
theorem doorbellsAndFetch : Obligations.DoorbellsAndFetch := by
  refine ⟨⟨fun q v s on h => ?tail, fun q v s on h => ?head, fun q off v s h => ?refused, fun q v s off => ?disabled,
    fun q v s on h => ?headRefused⟩, fun q s on ahead good room awake => ⟨fun away x => ?waits, fun p0 => ?fetch⟩⟩
  case tail =>
    obtain ⟨here, others⟩ := ring_touched q (fun R => { R with sqTail := v.toNat % 2 ^ 16 }) s
    exact ⟨_, (exec_sqTail ..).trans (congrArg _ (sqTailOp_inRange on h)), (HostOnly.modRing ..).touched, here, others, memByte_doorbellTouch s⟩
  case head =>
    obtain ⟨here, others⟩ := ring_touched q (fun R => { R with rqHead := v.toNat % 2 ^ 16 }) s
    obtain ⟨head, rest⟩ := drainReplies_rings q (ring s q).queued.length (modRing q (fun R => { R with rqHead := v.toNat % 2 ^ 16 }) (doorbellTouch s))
    refine ⟨_, (exec_rqHead ..).trans (congrArg _ (rqHeadOp_inRange on h)), ((HostOnly.modRing ..).trans (.drainReplies ..)).touched,
      head.trans (by rw [here]), fun r hr => (rest r hr).trans (others r hr), fun empty => ?_⟩
    rw [empty, drainReplies_nil]
    exact ⟨here, by rw [modRing_out, doorbellTouch_eq]⟩
  case refused => exact (exec_sqTail ..).trans (congrArg _ (sqTailOp_refused h))
  case disabled =>
    exact ⟨(exec_sqTail ..).trans (congrArg _ (sqTailOp_off off)), (exec_rqHead ..).trans (congrArg _ (rqHeadOp_off off))⟩
  case headRefused => exact (exec_rqHead ..).trans (congrArg _ (rqHeadOp_refused on h))
  case waits => exact (exec_sqEntryFetched ..).trans (congrArg _ (fetchOp_waits x away))
  case fetch =>
    have fetches : fetches s q = true := fetches_p0 (by simp [hasEntry, on, ahead, good, room]) awake p0
    refine ⟨fun e covered => ?_, fun x bad => ?_⟩
    · have here : ring (entryRead q e s) q = _ := ring_modRing_self ..
      refine ⟨entryRead q e s, rfl, here, fun r hr => ring_modRing_ne s _ hr, fun known => ?_, fun empty free reserved => ?_⟩
      · rw [exec_sqEntryFetched, fetchOp_read fetches covered, dropReserved_id _ known]
      · rw [exec_sqEntryFetched, fetchOp_read fetches covered]
        exact congrArg _ (dropReserved_one (by rw [here, empty]; rfl) (by rw [here]; exact free) reserved)
    · exact ⟨fetchFailed q s, (exec_sqEntryFetched ..).trans (congrArg _ (fetchOp_fails fetches bad)), ring_modRing_self .., rfl,
        fun r hr => ring_modRing_ne s _ hr⟩

end Sys2Proof.Machine
end

section
/-! PROOFS. Mailbox operations (R360, R364, R406, R410, R411, R418, R419, R421). -/

namespace Sys2Proof.Machine

open Sys2Proof

/-! ### Rows -/

section
variable (src : MboxSrc) {s v : State}

theorem exec_mboxLogRead (h : mboxLog (mboxArgs src s).1 (mboxArgs src s).2 s = v) : exec (.mboxLogRead src) s = .next (mboxAnswer src v) :=
  h ▸ rfl
theorem exec_mboxLifeRead (h : mboxLife s = v) : exec (.mboxLifeRead src) s = .next (mboxAnswer src v) := h ▸ rfl
theorem exec_mboxMoor (h : mboxMoorOp s = v) : exec (.mboxMoor src) s = .next (mboxAnswer src v) := h ▸ rfl
theorem exec_mboxWake (h : mboxWakeOp s = v) : exec (.mboxWake src) s = .next (mboxAnswer src v) := h ▸ rfl
theorem exec_mboxReset (h : mboxResetOp s = v) : exec (.mboxReset src) s = .next (mboxAnswer src v) := h ▸ rfl

end

/-! ### Answers (R418, R419) -/

theorem mboxAnswer_eq (src : MboxSrc) (s : State) : mboxAnswer src s = { s with out := (mboxAnswer src s).out } := by
  cases src <;> rfl

/-- An operation that has ended with a code is answered with it. -/
theorem mboxAnswer_replied (src : MboxSrc) (code : Nat) (s : State) : MboxReplied src code (mboxAnswer src (setMbox code s)) := by
  refine ⟨by rw [mboxAnswer_eq]; rfl, fun a b h => ?_⟩
  rw [h]
  rfl

theorem memByte_mboxAnswer (src : MboxSrc) (code : Nat) (s : State) (x : Nat) : memByte (mboxAnswer src (setMbox code s)) x = memByte s x := by
  rw [mboxAnswer_eq]; rfl

/-! ### The shared buffer (R406, R421) -/

theorem mboxArea_plain {i : Nat} (h : i < 262144) : plainAddr (mboxArea + i) := by
  unfold plainAddr logRing sharedBase mboxArea
  omega

/-- Bytes placed in the shared buffer, and the answer: they read back, and no other byte of memory changes. -/
theorem mboxPlaced (src : MboxSrc) (code : Nat) (b : List Byte) (s : State) :
    ∃ t, mboxAnswer src (setMbox code (memWrite mboxArea b s)) = t ∧ MboxReplied src code t ∧
      (b.length ≤ 262144 → memBytes t mboxArea b.length = b) ∧
      t = { s with mem := t.mem, mgmt := { s.mgmt with mboxCode := code }, out := t.out } ∧
      ∀ x, x < mboxArea ∨ mboxArea + b.length ≤ x → memByte t x = memByte s x := by
  refine ⟨_, rfl, mboxAnswer_replied .., fun small => ?_, by rw [mboxAnswer_eq]; rfl,
    fun x out => (memByte_mboxAnswer ..).trans (memByte_memWrite_ne _ _ _ out)⟩
  have read := memBytes_memWrite s mboxArea b fun i hi => mboxArea_plain (by omega)
  simpa only [memBytes, memByte_mboxAnswer] using read

/-! ### Operations (R360, R364, R410, R411, R419) -/

section
variable {a0 a1 : Nat} {s : State}

theorem mboxLog_reads (idle : s.mgmt.mboxBusy = false) (h1 : 1 ≤ a1) (h2 : a1 ≤ 4096) : mboxLog a0 a1 s =
    setMbox 0 (memWrite mboxArea ((List.range a1).flatMap fun i =>
      match s.flash.log.find? fun e => e.seq % 2 ^ 32 == (a0 + i) % 2 ^ 32 with
      | some e => logBytes e
      | none => List.replicate 64 0) s) :=
  (if_neg (by simp [idle])).trans (if_neg (by omega))

theorem mboxLog_count (idle : s.mgmt.mboxBusy = false) (h : a1 = 0 ∨ 4096 < a1) : mboxLog a0 a1 s = setMbox 3 s := by
  unfold mboxLog
  rw [if_neg (by simp [idle]), if_pos h]

theorem mboxLife_reads (idle : s.mgmt.mboxBusy = false) :
    mboxLife s = setMbox 0 (memWrite mboxArea (lifeBytes (lifeWrite s)) (lifeWrite s)) :=
  if_neg (by simp [idle])

theorem mboxMoorOp_moors (idle : s.mgmt.mboxBusy = false) (allowed : moorAllowed s = true) (up : s.pwr.state ≠ .g5) :
    mboxMoorOp s = setMbox 0 (moor s) := by
  simp [mboxMoorOp, idle, allowed, up]

theorem mboxMoorOp_refuses (idle : s.mgmt.mboxBusy = false) (h : moorAllowed s = false ∨ s.pwr.state = .g5) : mboxMoorOp s = setMbox 4 s := by
  rcases h with h | h <;> simp [mboxMoorOp, idle, h]

theorem mboxWakeOp_wakes (idle : s.mgmt.mboxBusy = false) (moored : s.pwr.state = .g5) :
    mboxWakeOp s = setMbox 0 { s with pwr := { s.pwr with exiting := true } } := by
  simp [mboxWakeOp, idle, moored, startExit]

theorem mboxWakeOp_refuses (idle : s.mgmt.mboxBusy = false) (up : s.pwr.state ≠ .g5) : mboxWakeOp s = setMbox 4 s := by
  simp [mboxWakeOp, idle, up]

theorem mboxResetOp_resets (idle : s.mgmt.mboxBusy = false) : mboxResetOp s = setMbox 0 (resetAndBoot s) := by
  simp [mboxResetOp, idle]

/-- While an operation is busy every other has code 1 (R419). -/
theorem mbox_busy (busy : s.mgmt.mboxBusy = true) : mboxLog a0 a1 s = setMbox 1 s ∧ mboxLife s = setMbox 1 s ∧
    mboxMoorOp s = setMbox 1 s ∧ mboxWakeOp s = setMbox 1 s ∧ mboxResetOp s = setMbox 1 s :=
  ⟨if_pos busy, if_pos busy, if_pos busy, if_pos busy, if_pos busy⟩

end

/-- An operation that ends with a code is answered, which changes nothing else. -/
theorem mbox_codeOnly {c : Instr} {src : MboxSrc} {code : Nat} {s v : State} (h : exec c s = .next (mboxAnswer src (setMbox code v))) :
    ∃ t, exec c s = .next t ∧ MboxReplied src code t ∧ t = { v with mgmt := { v.mgmt with mboxCode := code }, out := t.out } :=
  ⟨_, h, mboxAnswer_replied .., mboxAnswer_eq ..⟩

/-- Settles O36: each operation is `setMbox` of its code over one operation of the device, and `mboxAnswer` answers it. -/
theorem mailboxOperations : Obligations.MailboxOperations := by
  refine ⟨⟨fun src s b idle h1 h2 hb => ?log, fun src s idle h => ?count, fun src s idle => ?life, fun src s busy c hc => ?busy⟩,
    fun src s idle => ⟨fun allowed up => ?moors, fun h => ?stays, fun moored => ?wakes, fun up => ?awake, ?resets⟩⟩
  case log =>
    obtain ⟨t, answer, replied, placed, only, frame⟩ := mboxPlaced src 0 b s
    rw [hb] at answer
    exact ⟨t, (exec_mboxLogRead src (mboxLog_reads idle h1 h2)).trans (congrArg _ answer), replied, placed, only, frame⟩
  case count => exact mbox_codeOnly (exec_mboxLogRead src (mboxLog_count idle h))
  case life =>
    obtain ⟨t, answer, replied, placed, only, frame⟩ := mboxPlaced src 0 (lifeBytes (lifeWrite s)) (lifeWrite s)
    have mgmt : t.mgmt = { (lifeWrite s).mgmt with mboxCode := 0 } := by rw [only]
    have flash : t.flash = (lifeWrite s).flash := by rw [only]
    refine ⟨t, (exec_mboxLifeRead src (mboxLife_reads idle)).trans (congrArg _ answer), replied, mgmt, flash, ?_, placed, frame⟩
    rw [mgmt, flash]
    exact only
  case busy =>
    obtain ⟨log, life, moor, wake, reset⟩ := mbox_busy (a0 := (mboxArgs src s).1) (a1 := (mboxArgs src s).2) busy
    simp only [List.mem_cons, List.not_mem_nil, or_false] at hc
    rcases hc with rfl | rfl | rfl | rfl | rfl
    · exact mbox_codeOnly (exec_mboxLogRead src log)
    · exact mbox_codeOnly (exec_mboxLifeRead src life)
    · exact mbox_codeOnly (exec_mboxMoor src moor)
    · exact mbox_codeOnly (exec_mboxWake src wake)
    · exact mbox_codeOnly (exec_mboxReset src reset)
  case moors =>
    obtain ⟨state, domains, linkUp, ports, dev, pkg⟩ := moor_fields s
    obtain ⟨t, runs, replied, only⟩ := mbox_codeOnly (exec_mboxMoor src (mboxMoorOp_moors idle allowed up))
    refine ⟨t, runs, replied, ?_⟩
    generalize moor s = v at *
    rw [only]
    exact ⟨state, domains, linkUp, ports, dev, pkg⟩
  case stays => exact mbox_codeOnly (exec_mboxMoor src (mboxMoorOp_refuses idle h))
  case wakes => exact mbox_codeOnly (exec_mboxWake src (mboxWakeOp_wakes idle moored))
  case awake => exact mbox_codeOnly (exec_mboxWake src (mboxWakeOp_refuses idle up))
  case resets =>
    obtain ⟨pkg, plan, sources, run, cox, adm, cores, -, -, -, -⟩ := resetAndBoot_fields s
    obtain ⟨t, runs, replied, only⟩ := mbox_codeOnly (exec_mboxReset src (mboxResetOp_resets idle))
    refine ⟨t, runs, replied, ?_⟩
    generalize resetAndBoot s = v at *
    rw [only]
    exact ⟨pkg, plan, cores, run, sources, adm, cox⟩

end Sys2Proof.Machine
end

section
/-! PROOFS. Power-state entries and drain timeouts (R359 to R361, R363, R365, R366). -/

namespace Sys2Proof.Machine

open Sys2Proof

/-! ### Rows -/

theorem exec_unitEntry (c : CoreId) (u : Fin 7) (n : Nat) (s : State) :
    exec (.powerStateEntry (.unit c u) n) s = .next (unitEntry c u n s) := rfl
theorem exec_groupEntry (g : GroupId) (n : Nat) (s : State) : exec (.powerStateEntry (.group g) n) s = .next (groupEntry g n s) := rfl
theorem exec_deviceEntry (n : Nat) (s : State) : exec (.powerStateEntry .device n) s = .next (deviceEntry s) := rfl

/-- The number of the domain that a scope drains: a unit drains with its group (R365). -/
def drainDomain (s : State) : PowerScope → Nat
  | .unit c _ => groupOf s c
  | .group g => g
  | .device => 12

theorem exec_drainTimeout (sc : PowerScope) (count : Nat) (s : State) :
    exec (.drainTimeout sc count) s = .next (drainTimeout (drainDomain s sc) count s) := by
  cases sc <;> rfl

/-! ### Drains (R365) -/

theorem contains_startDrain (d : Nat) (s : State) : (startDrain d s).pwr.draining.contains d = true := by
  show (if s.pwr.draining.contains d then s.pwr.draining else s.pwr.draining ++ [d]).contains d = true
  split
  · assumption
  · simp

theorem contains_endDrain (d : Nat) (s : State) : (endDrain d s).pwr.draining.contains d = false := by
  simp [endDrain]

/-- A drain timeout bars its domain, whose drain has ended; what it logs and raises leaves power as it is. -/
theorem drainTimeout_bars {d : Nat} (count : Nat) {s : State} (h : s.pwr.draining.contains d = true) :
    CountsOnly (endDrain d { s with pwr := { s.pwr with barred := s.pwr.barred ++ [d] } }) (drainTimeout d count s) := by
  unfold drainTimeout
  rw [if_neg (by simp only [h, Bool.not_true, Bool.false_eq_true, not_false_eq_true])]
  exact (logEv_countsOnly ..).trans (attn_countsOnly ..)

/-! ### Entries (R359, R361, R362) -/

section
variable {s : State}

theorem unitEntry_enters {c u n : Nat} (idle : unitIdle s c u = true) (on : gated s c u = false)
    (choice : chooseState [.g1] (some n) (latTol s) false = .g1) : unitEntry c u n s = setUnit (c * 8 + u) true s :=
  if_pos (by simp [idle, on, choice])

/-- The checks of a group's entry pass, so its drain alone decides (R365). -/
theorem groupEntry_allowed {g n : Nat} (p0 : group s g = .p0) (free : s.pwr.barred.contains g = false) (avs : avsWaits s = false)
    (idle : groupIdle s g = true) (choice : chooseState [.g2] (some n) (latTol s) false = .g2) :
    groupEntry g n s = if groupBusy s g then startDrain g s else setGroup g .g2 (endDrain g s) := by
  unfold groupEntry
  rw [if_neg]
  simp only [p0, free, avs, idle, choice]
  decide

theorem deviceEntry_allowed {p : PowerState} (allowed : moorAllowed s = true) (p0 : s.pwr.state = .p0) (free : s.pwr.barred.contains 12 = false)
    (avs : avsWaits s = false) (quiet : hostQuiet s = true) (choice : p = chooseState [.g3, .g4] (deviceNext s) (latTol s) (deepEn s))
    (deeper : p ≠ .p0) : deviceEntry s = if 0 < activePasses s then startDrain 12 s else enterDeep p (endDrain 12 s) := by
  have checks : (!moorAllowed s || !hostQuiet s || s.pwr.state != .p0 || s.pwr.barred.contains 12 || avsWaits s || p == .p0) = false := by
    simp only [allowed, p0, free, avs, quiet, beq_false_of_ne deeper]
    decide
  simp only [deviceEntry, ← choice, checks, Bool.false_eq_true, if_false, decide_eq_true_eq]

end

/-- Settles O38: an entry whose checks pass gates its domain, or drains it first; a timeout is `drainTimeout_bars`. -/
theorem powerEntries : Obligations.PowerEntries := by
  refine ⟨fun c u n s idle on choice => ?unit, fun g n s p0 free avs idle choice => ?group,
    fun n s p allowed p0 free avs quiet choice deeper => ?device, fun sc count d s hd h => ?timeout⟩
  case unit =>
    refine ⟨_, (exec_unitEntry ..).trans (congrArg _ (unitEntry_enters idle on choice)), ?_, fun d v hv other => ?_, rfl⟩
    · rw [gated_setUnit, if_pos rfl]
    · rw [gated_setUnit, if_neg (by have := u.isLt; omega)]
  case group =>
    have enters := groupEntry_allowed p0 free avs idle choice
    cases busy : groupBusy s g with
    | true =>
      rw [busy, if_pos rfl] at enters
      exact ⟨_, (exec_groupEntry ..).trans (congrArg _ enters), fun _ _ => rfl, rfl, nofun, fun _ => ⟨p0, contains_startDrain ..⟩⟩
    | false =>
      rw [busy, if_neg (by decide)] at enters
      exact ⟨_, (exec_groupEntry ..).trans (congrArg _ enters), fun h other => group_setGroup_ne _ _ other, rfl,
        fun _ => ⟨group_setGroup_self .., contains_endDrain ..⟩, nofun⟩
  case device =>
    have enters := deviceEntry_allowed allowed p0 free avs quiet choice deeper
    by_cases drains : 0 < activePasses s
    · rw [if_pos drains] at enters
      exact ⟨_, (exec_deviceEntry ..).trans (congrArg _ enters), rfl, rfl, fun still => absurd drains (by omega),
        fun _ => ⟨contains_startDrain .., rfl⟩⟩
    · rw [if_neg drains] at enters
      obtain ⟨state, dev, pkg, -⟩ := enterDeep_fields p (endDrain 12 s)
      exact ⟨_, (exec_deviceEntry ..).trans (congrArg _ enters), dev, pkg, fun _ => state, fun waits => absurd waits drains⟩
  case timeout =>
    obtain rfl : d = drainDomain s sc := by rw [hd]; cases sc <;> rfl
    have bars := drainTimeout_bars count h
    have pwr := congrArg (fun t : State => t.pwr) bars.rest
    refine ⟨_, exec_drainTimeout sc count s, ?_, ?_, ?_, ?_, fun x hx => (bars.mem x hx).trans (memByte_congr x rfl rfl rfl rfl)⟩
    all_goals rw [pwr]
    · rfl
    · exact contains_endDrain ..
    · rfl
    · rfl

end Sys2Proof.Machine
end

section
/-! PROOFS. AVS requests, droop, sensors and regulators (R370, R371, R373 to R375, R411 to R414). -/

namespace Sys2Proof.Machine

open Sys2Proof

/-! ### Rows -/

theorem exec_avsAck (r : Fin 2) (s : State) : exec (.avsAck r) s = .next (avsAck r s) := rfl
theorem exec_avsAckTimeout (r : Fin 2) (s : State) : exec (.avsAckTimeout r) s = .next (avsTimeout r s) := rfl
theorem exec_droopEvent (hold : Bool) (g : GroupId) (s : State) : exec (.droopEvent hold g) s = .next (droop hold s) := rfl
theorem exec_sensorSample (l : List Int) (s : State) : exec (.sensorSample l) s = .next (sensorSample l s) := rfl
theorem exec_thermTrip (s : State) : exec .thermTrip s = .next (thermTrip s) := rfl
theorem exec_regulatorPoll (r : Fin 10) (a : Option RailReading) (s : State) :
    exec (.regulatorPoll r a) s = .next (regulatorPoll r a s) := rfl

/-! ### AVS (R370, R371) -/

section
variable {r : Nat} {s : State}

theorem avsAck_pending (h : (railAvs s r).pending = true) : railAvs (avsAck r s) r =
    { railAvs s r with pending := false, acked := (railAvs s r).requested, fault := false, upFault := false } := by
  unfold avsAck
  rw [railAvs_modAvs_self, if_pos h]

theorem avsTimeout_retries (h : (railAvs s r).pending = true) (few : (railAvs s r).retries < 3) : avsTimeout r s =
    emit (.avs r (railAvs s r).requested) (bump (cntDev 26) 1 (modAvs r (fun x => { x with retries := x.retries + 1 }) s)) := by
  simp [avsTimeout, h, few]

/-- A rail whose request has failed after its three repeats. -/
def avsFailed (r : Nat) (up : Bool) (s : State) : State := modAvs r (fun x => { x with pending := false, fault := true, upFault := up }) s

/-- The failed request is logged and raises attention (R371). -/
def avsReported (r : Nat) (up : Bool) (s : State) : State :=
  attn 6 (logEv 0x0802 (b4 r ++ b4 (railAvs s r).requested ++ b4 4) (avsFailed r up s))

theorem avsReported_counts (r : Nat) (up : Bool) (s : State) : CountsOnly (avsFailed r up s) (avsReported r up s) :=
  (logEv_countsOnly ..).trans (attn_countsOnly ..)

/-- A failed request that was to raise the voltage is a device fault of a run (R371). -/
theorem avsTimeout_fails (h : (railAvs s r).pending = true) (three : (railAvs s r).retries = 3) {up : Bool}
    (hup : up = decide (railVolt s r < (railAvs s r).requested)) :
    avsTimeout r s = { avsReported r up s with run := { s.run with devFault := s.run.devFault || (up && inRun s) } } := by
  have rest := (avsReported_counts r up s).rest
  have run : (avsReported r up s).run = s.run := by rw [rest]; rfl
  have going : inRun (avsReported r up s) = inRun s := by rw [rest]; rfl
  have runs : avsTimeout r s = if up && inRun (avsReported r up s) then
      { avsReported r up s with run := { (avsReported r up s).run with devFault := true } } else avsReported r up s := by
    unfold avsTimeout
    rw [if_neg (by simp [h]), if_neg (by omega), hup]
    rfl
  rw [runs, run, going]
  cases up && inRun s
  · rw [if_neg Bool.false_ne_true, Bool.or_false, ← run]
  · rw [if_pos rfl, Bool.or_true]

end

/-! ### Droop (R373) -/

theorem droop_spec (hold : Bool) (s : State) :
    cntExact (droop hold s) (cntDev (if hold then 28 else 27)) = min (cntExact s (cntDev (if hold then 28 else 27)) + 1) (2 ^ 48 - 1) ∧
      sget natD (droop hold s).res.now 3 = sget natD s.res.now 3 + 1 ∧
      droop hold s = { s with cnt := (droop hold s).cnt, log := (droop hold s).log, host := (droop hold s).host
                              res := { s.res with now := (droop hold s).res.now } } ∧
      ∀ x, ¬ logRing x → memByte (droop hold s) x = memByte s x := by
  have counts := bump_countsOnly (cntDev (if hold then 28 else 27)) 1 s
  have res : (bump (cntDev (if hold then 28 else 27)) 1 s).res = s.res := by rw [counts.rest]
  refine ⟨?_, ?_, ?_, fun x hx => (memByte_congr x rfl rfl rfl rfl).trans (counts.mem x hx)⟩
  · exact cntExact_bump_dev s (by cases hold <;> decide) (by cases hold <;> decide)
  · rw [← res]; exact sget_smod_self (d := natD) 3 (· + 1)
  · unfold droop health
    rw [counts.rest]

/-! ### Sensors (R374, R375, R412) -/

/-- A sensor's sample is taken in a state that has left the sensor as it was. -/
theorem sensorSample_sensor (l : List Int) {s : State} (hb : s.dev ≠ .boot) (hr : s.dev ≠ .recovery) {i : Nat} (hi : i < 30) :
    ∃ u, sensor u i = sensor s i ∧ sensor (sensorSample l s) i = sensor (sampleOne i (l.getD i 0) (l.getD (i ^^^ 1) 0) u) i := by
  obtain ⟨u, same, sampled⟩ := samples_fold (fun i => l.getD i 0) (fun i => l.getD (i ^^^ 1) 0) (List.range 30) List.nodup_range (lifeTick s) i
    (List.mem_range.2 hi)
  refine ⟨u, same.trans (sensor_lifeTick ..), ?_⟩
  unfold sensorSample
  rw [if_neg (by simp [hb, hr])]
  extract_lets t v
  rw [sensor_updateThrottle, sensor_updateBand, sensor_updateBand]
  exact sampled

/-- THERM_TRIP_N is asserted and sent (R375). -/
def tripAsserted (s : State) : State := emit (.thermTripN true) { s with pins := { s.pins with thermTrip := true } }

/-- A trip is logged, and the lifetime record with its count is written (R375, R411). -/
theorem thermTrip_trips {s : State} (h : s.pins.thermTrip = false) :
    thermTrip s = lifeWrite (lifeAdd 0x38 8 1 (logEv 0x0804 [] (tripAsserted s))) := if_neg (by simp [h])

/-! ### Regulators (R413, R414) -/

/-- A regulator that has missed one more poll: from the third in a row it has failed (R414). -/
def pollMissed (r : Nat) (s : State) : State :=
  setRail r { railTel s r with missed := (railTel s r).missed + 1, failed := decide (3 ≤ (railTel s r).missed + 1) } (emit (.pmbusPoll r) s)

section
variable {r : Nat} {s : State} (entered : bitN (reg s (0x100200 + 8 * r)) 7 = true)
include entered

theorem regulatorPoll_answered (v : RailReading) : regulatorPoll r (some v) s =
    setRail r { vout := v.voutMv, iout := v.iout100ma, missed := 0, failed := false } (emit (.pmbusPoll r) s) :=
  if_neg (by simp [entered])

/-- A missed poll changes the regulator's telemetry; the third is logged. -/
theorem regulatorPoll_missed : CountsOnly (pollMissed r s) (regulatorPoll r none s) := by
  have runs : regulatorPoll r none s = if (railTel s r).missed = 2 then logEv 0x0802 (b4 r ++ b4 0 ++ b4 3) (pollMissed r s) else pollMissed r s :=
    if_neg (by simp [entered])
  rw [runs]
  split
  · exact logEv_countsOnly ..
  · exact .refl _

end

/-- Settles O40: each event changes its rail, its sensor or its regulator by one operation, beside what counting and logging bring. -/
theorem suppliesAndHeat : Obligations.SuppliesAndHeat := by
  refine ⟨⟨fun r s h => ?ack, fun r s h few => ?retry, fun r s up h three hup => ?fault, fun hold g s => ?droop⟩,
    fun l i s hb hr hi ok => ?sample, fun s h => ?trip, fun s h => ?tripped, fun r s entered => ⟨fun v => ?answered, ?missed⟩⟩
  case ack => exact ⟨_, exec_avsAck .., avsAck_pending h, fun k hk => railAvs_modAvs_ne _ _ hk, rfl⟩
  case retry =>
    have counts := bump_countsOnly (cntDev 26) 1 (modAvs r (fun x => { x with retries := x.retries + 1 }) s)
    refine ⟨_, (exec_avsAckTimeout ..).trans (congrArg _ (avsTimeout_retries h few)), ?_, ?_, ?_, fun k hk => ?_, ?_⟩
    · exact congrArg _ (out_bump ..)
    · exact cntExact_bump_dev _ (by decide) (by decide)
    · exact (railAvs_counts counts r).trans (railAvs_modAvs_self ..)
    · exact (railAvs_counts counts k).trans (railAvs_modAvs_ne _ _ hk)
    · unfold emit
      rw [counts.rest]
      rfl
  case fault =>
    have counts := avsReported_counts r up s
    refine ⟨_, (exec_avsAckTimeout ..).trans (congrArg _ (avsTimeout_fails h three hup)), ?_, fun k hk => ?_, rfl, ?_, fun x hx => ?_⟩
    · exact (railAvs_counts counts r).trans (railAvs_modAvs_self ..)
    · exact (railAvs_counts counts k).trans (railAvs_modAvs_ne _ _ hk)
    · show (avsReported r up s).dev = s.dev
      rw [counts.rest]
      rfl
    · exact ((memByte_congr x rfl rfl rfl rfl).trans (counts.mem x hx)).trans (memByte_congr x rfl rfl rfl rfl)
  case droop => exact ⟨_, exec_droopEvent .., droop_spec hold s⟩
  case sample =>
    obtain ⟨u, same, sampled⟩ := sensorSample_sensor l hb hr hi
    obtain ⟨valid, inside, outside⟩ := sampleOne_self i (l.getD i 0) (l.getD (i ^^^ 1) 0) u (by rw [same]; exact ok)
    rw [← sampled] at valid inside outside
    rw [same] at inside
    exact ⟨_, exec_sensorSample .., valid, inside, outside⟩
  case trip =>
    have rest := (logEv_countsOnly 0x0804 [] (tripAsserted s)).rest
    refine ⟨_, (exec_thermTrip s).trans (congrArg _ (thermTrip_trips h)), ?_⟩
    unfold lifeWrite lifeAdd
    rw [rest]
    exact ⟨rfl, rfl, rfl, rfl, rfl⟩
  case tripped => exact (exec_thermTrip s).trans (congrArg _ (if_pos h))
  case answered =>
    exact ⟨_, (exec_regulatorPoll ..).trans (congrArg _ (regulatorPoll_answered entered v)), railTel_setRail_self ..,
      fun k hk => railTel_setRail_ne _ _ hk, rfl⟩
  case missed =>
    have counts := regulatorPoll_missed entered
    refine ⟨_, exec_regulatorPoll .., ?_, fun k hk => ?_, ?_, fun x hx => ?_⟩
    · exact (railTel_counts counts r).trans (railTel_setRail_self ..)
    · exact (railTel_counts counts k).trans (railTel_setRail_ne _ _ hk)
    · rw [counts.rest]
      rfl
    · exact (counts.mem x hx).trans (memByte_congr x rfl rfl rfl rfl)

end Sys2Proof.Machine
end

section
/-! PROOFS. SPDM, MCTP, PLDM and the TAP (R416 to R418, R420, R430). -/

namespace Sys2Proof.Machine

open Sys2Proof

/-! ### SPDM (R416, R417) -/

section
variable {tr : SpdmTransport} {s : State}

theorem spdmState_setSpdm (tr : SpdmTransport) (n : Nat) (s : State) : spdmState (setSpdm tr n s) tr = n := sget_sset_self ..

/-- A request in or after the connection state that it needs is answered. -/
theorem spdm_answers {need : Nat} (f : State → State) (hb : s.dev ≠ .boot) (hr : s.dev ≠ .recovery) (h : need ≤ spdmState s tr) :
    spdm tr need f s = f s := by
  unfold spdm
  rw [if_neg (by simp [hb, hr]), if_neg (by omega)]

theorem spdm_silent (need : Nat) (f : State → State) (h : s.dev = .boot ∨ s.dev = .recovery) : spdm tr need f s = s :=
  if_pos (by simpa using h)

/-- A request that agrees on the next connection state: one response, and that state of its transport alone. -/
theorem spdm_agrees {c : Instr} {code n need : Nat} {body : List Byte} (hb : s.dev ≠ .boot) (hr : s.dev ≠ .recovery) (h : need ≤ spdmState s tr)
    (row : exec c s = .next (spdm tr need (fun u => spdmOut tr code body (setSpdm tr n u)) s)) :
    ∃ u, exec c s = .next u ∧ u.out = .spdm (tr == .mctp) code body :: s.out ∧ spdmState u tr = n ∧
      u = { s with out := u.out, mgmt := { s.mgmt with spdm := u.mgmt.spdm } } := by
  rw [spdm_answers _ hb hr h] at row
  exact ⟨_, row, rfl, spdmState_setSpdm .., rfl⟩

/-- A request answered by one response, after which the connection is as it was. -/
theorem spdm_responds {c : Instr} {code : Nat} {body : List Byte} {f : State → State} (hb : s.dev ≠ .boot) (hr : s.dev ≠ .recovery)
    (h : 3 ≤ spdmState s tr) (row : exec c s = .next (spdm tr 3 f s)) (answer : f s = spdmOut tr code body s) :
    exec c s = .next { s with out := .spdm (tr == .mctp) code body :: s.out } := by
  rw [row, spdm_answers _ hb hr h, answer]
  rfl

/-- The answer to a request for measurements, of the blocks that an index names (R416). -/
def measured (tr : SpdmTransport) (count : Nat) (l : List Nat) (nonce : List Byte) (s : State) : State :=
  let body := leBytes 1 count ++ l.flatMap (measBlock s) ++ nonce
  spdmOut tr 0x60 (body ++ Config.sign body) s

theorem exec_spdmGetMeasurements (tr : SpdmTransport) (i : Nat) (nonce : List Byte) (s : State) :
    exec (.spdmGetMeasurements tr i nonce) s = execSpdmGetMeasurements tr i nonce s := rfl

section
variable (hb : s.dev ≠ .boot) (hr : s.dev ≠ .recovery) (h : 3 ≤ spdmState s tr) (nonce : List Byte)
include hb hr h

theorem getMeasurements_one {i : Nat} (h1 : 1 ≤ i) (h6 : i ≤ 6) :
    exec (.spdmGetMeasurements tr i nonce) s = .next (measured tr 1 [i] nonce s) := by
  rw [exec_spdmGetMeasurements, execSpdmGetMeasurements, spdm_answers _ hb hr h]
  have known : ([i].any fun j => decide (6 < j)) = false := by simpa using h6
  simp only [if_neg (by omega : ¬ i = 0), if_neg (by omega : ¬ i = 255), known, Bool.false_eq_true, if_false]
  rfl

theorem getMeasurements_all : exec (.spdmGetMeasurements tr 255 nonce) s = .next (measured tr 6 [1, 2, 3, 4, 5, 6] nonce s) := by
  rw [exec_spdmGetMeasurements, execSpdmGetMeasurements, spdm_answers _ hb hr h]
  rfl

theorem getMeasurements_count : exec (.spdmGetMeasurements tr 0 nonce) s = .next (measured tr 6 [] nonce s) := by
  rw [exec_spdmGetMeasurements, execSpdmGetMeasurements, spdm_answers _ hb hr h]
  rfl

end

end

/-! ### MCTP and PLDM (R418) -/

/-- The device after an MCTP control message: Set Endpoint ID gives it its endpoint. -/
def endpointSet (r : List Byte) (s : State) : State :=
  if leAt r 1 1 = 1 then { s with mgmt := { s.mgmt with mctpEid := leAt r 3 1 } } else s

theorem exec_mctpControl (r : List Byte) (s : State) : exec (.mctpControl r) s =
    .next (emit (.mctp (0 :: Config.mctpReply r (endpointSet r s).mgmt.mctpEid)) (endpointSet r s)) := rfl

theorem endpointSet_eq (r : List Byte) (s : State) : endpointSet r s =
    { s with mgmt := { s.mgmt with mctpEid := if leAt r 1 1 = 1 then leAt r 3 1 else s.mgmt.mctpEid } } := by
  unfold endpointSet
  split <;> rfl

theorem exec_pldmGetSensorReading (n : Nat) (s : State) : exec (.pldmGetSensorReading n) s = execPldmGetSensorReading n s := rfl

/-! ### The TAP (R420) -/

theorem jtagDrive_held (tdi : List Bool) (f : State → State) {s : State} (h : s.pins.perst = true) : jtagDrive tdi f s = f s := if_pos h

/-- Outside PERST_N an instruction that would drive pins is BYPASS, and a refused write. -/
theorem jtagDrive_free (tdi : List Bool) (f : State → State) {s : State} (h : s.pins.perst = false) :
    jtagDrive tdi f s = bypassOut tdi (refuseWrite s) := if_neg (by simp [h])

/-- Settles O42: a request in its connection state answers one response; the TAP's driving instructions are `jtagDrive`. -/
theorem managementProtocols : Obligations.ManagementProtocols := by
  refine ⟨⟨fun tr s hb hr => spdm_agrees hb hr (Nat.zero_le _) rfl, fun tr s hb hr h => spdm_agrees hb hr h rfl,
    fun tr r s hb hr h => spdm_agrees hb hr h rfl, fun tr s b hb hr h => ⟨spdm_responds hb hr h rfl rfl, fun o n hb' => ?certificate,
      fun n hb' => ?challenge, fun i n h1 h6 hb' => ?one, fun n hb' => ?all, fun n hb' => ?count⟩, fun tr s c hc h => ?silent⟩,
    fun r n s => ⟨?control, rfl, rfl, fun v hv => ?reading, fun hv => ?absent, rfl, rfl⟩,
    fun b s => ⟨rfl, rfl, rfl⟩, fun b n c s h hc => ?drives, fun s h => ?holds, fun b s h => ⟨fun c hc => ?bypassCells, fun c hc => ?bypass⟩⟩
  case certificate => subst hb'; exact spdm_responds hb hr h rfl rfl
  case challenge => subst hb'; exact spdm_responds hb hr h rfl rfl
  case one =>
    subst hb'
    rw [getMeasurements_one hb hr h n h1 h6, measured, List.flatMap_singleton]
    rfl
  case all => subst hb'; exact getMeasurements_all hb hr h n
  case count =>
    subst hb'
    rw [getMeasurements_count hb hr h n, measured, List.flatMap_nil, List.append_nil]
    rfl
  case silent =>
    simp only [List.mem_cons, List.not_mem_nil, or_false] at hc
    rcases hc with rfl | rfl | rfl
    all_goals exact congrArg _ (spdm_silent _ _ h)
  case control =>
    rw [exec_mctpControl, endpointSet_eq]
    exact ⟨_, rfl, rfl, rfl, rfl⟩
  case reading => rw [exec_pldmGetSensorReading, execPldmGetSensorReading, hv]; rfl
  case absent => rw [exec_pldmGetSensorReading, execPldmGetSensorReading, hv]; rfl
  case drives =>
    simp only [List.mem_cons, Prod.mk.injEq, List.not_mem_nil, or_false] at hc
    rcases hc with ⟨rfl, rfl⟩ | ⟨rfl, rfl⟩ | ⟨rfl, rfl⟩
    all_goals exact congrArg _ (jtagDrive_held b _ h)
  case holds => exact ⟨congrArg _ (jtagDrive_held [] _ h), congrArg _ (jtagDrive_held [] _ h)⟩
  case bypassCells =>
    simp only [List.mem_cons, List.not_mem_nil, or_false] at hc
    rcases hc with rfl | rfl | rfl
    all_goals exact congrArg _ (jtagDrive_free b _ h)
  case bypass =>
    simp only [List.mem_cons, List.not_mem_nil, or_false] at hc
    rcases hc with rfl | rfl
    all_goals exact congrArg _ (jtagDrive_free [] _ h)

end Sys2Proof.Machine
end

section
/-! PROOFS. Log, lifetime and trace records, and the power pins (R352, R393, R401, R408 to R411, R427, R444, R445). -/

namespace Sys2Proof.Machine

open Sys2Proof

/-! ### Log and lifetime record (R408, R410, R411) -/

theorem exec_logFlush (s : State) : exec .logFlush s = .next (if s.dev == .boot || s.dev == .recovery then s else flushLog s) := rfl
theorem exec_lifetimeRecordWrite (s : State) :
    exec .lifetimeRecordWrite s = .next (if s.dev == .boot || s.dev == .recovery then s else lifeWrite s) := rfl

/-- What the firmware does is not done before it runs. -/
theorem firmware_absent {α : Type} {s : State} (h : s.dev = .boot ∨ s.dev = .recovery) (a b : α) :
    (if s.dev == .boot || s.dev == .recovery then a else b) = a := if_pos (by simpa using h)

theorem firmware_runs {α : Type} {s : State} (hb : s.dev ≠ .boot) (hr : s.dev ≠ .recovery) (a b : α) :
    (if s.dev == .boot || s.dev == .recovery then a else b) = b := if_neg (by simp [hb, hr])

/-! ### Trace drain (R393) -/

theorem exec_traceDrain (s : State) : exec .traceDrain s = .next (traceDrain s) := rfl

/-- Core `c`'s buffer is left with the records `l`. -/
def bufferLeft (c : Nat) (l : List (List Byte)) (s : State) : State :=
  { s with trace := { s.trace with bufs := sset bufD s.trace.bufs c { sget bufD s.trace.bufs c with recs := l } } }

/-- A record of core `c` has moved to the ring of session `t`. -/
def recordMoved (c : Nat) (t : TraceSession) (s : State) : State :=
  { s with trace := { s.trace with session := some { t with drained := t.drained + 1, last := c }
                                   wptr := s.trace.wptr + 1, moved := s.trace.moved + 1 } }

section
variable {s : State} {t : TraceSession} {c : Nat} {r : List Byte} {rest : List (List Byte)}

theorem traceDrain_moves (session : s.trace.session = some t) (waits : s.trace.waiting = none) (budget : s.trace.moved < drainBudget s t)
    (next : drainCore s t = some c) (recs : (sget bufD s.trace.bufs c).recs = r :: rest) (room : t.mode ≠ 1 ∨ s.trace.wptr < t.bytes / 32) :
    traceDrain s = recordMoved c t (storeBytes (t.dest + 32 * (s.trace.wptr % (t.bytes / 32))) r false (bufferLeft c rest s)) := by
  have full : (t.mode = 1 && decide (t.bytes / 32 ≤ s.trace.wptr)) = false := by
    rcases room with ring | room
    · simp [ring]
    · simp [room]
  unfold traceDrain
  rw [session]
  simp only [next, recs, full]
  rw [if_neg (by omega), if_neg Bool.false_ne_true]
  refine (traceWaitDone_none ?_).trans rfl
  show (storeBytes _ _ _ _).trace.waiting = none
  rw [storeBytes_trace]
  exact waits

end

theorem DeliverOnly.storeBytes (a : Nat) (l : List Byte) (p : Bool) (s : State) : DeliverOnly s (storeBytes a l p s) :=
  (DeliverOnly.deliver ..).trans (.counts (countRange_counts ..))

/-- Bytes stored behind a host window go to the host (R393). -/
theorem storeBytes_host {a h : Nat} (l : List Byte) {s : State} (window : devToHost s a = some h) :
    (storeBytes a l false s).out = .hostWrite h l :: s.out ∧ ∀ x, ¬ logRing x → memByte (storeBytes a l false s) x = memByte s x := by
  have counts := countRange_counts true a l.length (deliver a l false s)
  have sent : deliver a l false s = emit (.hostWrite h l) s := by unfold deliver; rw [window]; rfl
  refine ⟨?_, fun x hx => (counts.mem x hx).trans (by rw [sent]; rfl)⟩
  rw [storeBytes, counts.rest, sent]
  rfl

/-- Bytes stored elsewhere go to memory alone. -/
theorem storeBytes_mem {a : Nat} {l : List Byte} {s : State} (window : devToHost s a = none) (plain : ∀ i, i < l.length → plainAddr (a + i)) :
    memBytes (storeBytes a l false s) a l.length = l ∧ (storeBytes a l false s).out = s.out ∧
      ∀ x, ¬ logRing x → x < a ∨ a + l.length ≤ x → memByte (storeBytes a l false s) x = memByte s x := by
  have counts := countRange_counts true a l.length (deliver a l false s)
  obtain ⟨placed, frame⟩ := deliver_mem window plain
  have stored : deliver a l false s = memStore a l s := by unfold deliver; rw [window]; rfl
  refine ⟨(memBytes_congr fun i hi => counts.mem _ (plain i hi).2).trans placed, ?_, fun x hx out => (counts.mem x hx).trans (frame x hx out)⟩
  rw [storeBytes, counts.rest, stored, (MemOnly.memStore ..).rest]

/-! ### Power pins (R352, R401, R444, R445) -/

theorem exec_vddAonUp (s : State) : exec .vddAonUp s = .next (aonUp s) := rfl
theorem exec_perstAssert (s : State) : exec .perstAssert s = .next (perstAssert s) := rfl
theorem exec_perstDeassert (s : State) : exec .perstDeassert s = .next (perstDeassert s) := rfl
theorem exec_sysPwrgoodFall (s : State) : exec .sysPwrgoodFall s = .next (pwrgoodFall s) := rfl
theorem exec_sysPwrgoodRise (s : State) : exec .sysPwrgoodRise s = .next (pwrgoodRise s) := rfl

/-- The device as VDD_AON comes up, before the boot ROM runs: fuses and flash alone have kept anything. -/
def aonReset (s : State) : State :=
  { State.reset with
    pending := s.pending, free := s.free, out := s.out, fuses := s.fuses, flash := s.flash
    disabled := sget natD ((s.flash.life.head?).getD []) 0x58, renumbered := sget natD ((s.flash.life.head?).getD []) 0x58
    pins := { straps := s.pins.straps, smbAddr := 0x60 + s.pins.straps % 8 }
    boot := { running := s.flash.image, first := s.boot.first, prior := s.boot.prior }
    log := { next := s.flash.log.foldl (fun m e => max m (e.seq + 1)) 0 }, mgmt := { life := (s.flash.life.head?).getD [] } }

theorem aonUp_eq (s : State) : aonUp s = romSteps (aonReset s) := rfl

/-- PERST_N asserted with power good begins a full reset (R352). -/
theorem perstAssert_resets {s : State} (high : s.pins.perst = false) (good : s.pins.pwrgood = true) (cool : s.pins.thermTrip = false) :
    perstAssert s = fullReset { s with pins := { s.pins with perst := true } } := by
  have clear : tripClear s = s := if_neg (by simp [cool])
  unfold perstAssert
  rw [clear]
  simp only [high, good, if_true, Bool.false_eq_true, if_false]

/-- PERST_N deasserted starts the boot of a device that stands at its start (R444). -/
theorem perstDeassert_boots {s : State} (low : s.pins.perst = true) (boot : s.dev = .boot) (h1 : s.boot.recovery = false)
    (h2 : s.boot.bodyRead = false) (h3 : s.boot.waiting = false) :
    perstDeassert s = bootSequence { s with pins := { s.pins with perst := false } } := by
  simp [perstDeassert, bootOn, low, boot, h1, h2, h3]

/-- The device as power good comes back after a fall: reset, and the content of LPDDR5X lost (R445). -/
def powerBack (s : State) : State :=
  fullReset { s with pins := { s.pins with pwrgood := true, fell := false } }

theorem pwrgoodRise_resets {s : State} (low : s.pins.pwrgood = false) (fell : s.pins.fell = true) :
    pwrgoodRise s = bootSequence { powerBack s with boot := { (powerBack s).boot with memLost := true } } := by
  unfold pwrgoodRise
  rw [if_neg (by simp [low])]
  exact if_pos fell

/-- Settles O41: flash and trace records move by `flushLog`, `lifeWrite` and `storeBytes`; the pins start the reset and boot laws. -/
theorem managementRecords : Obligations.ManagementRecords := by
  refine ⟨⟨fun s hb hr => ?flush, fun s hb hr => ?life, fun s h => ?absent, fun s t c r rest session waits budget next recs room => ?drain⟩,
    fun s => ?aon, fun s high good cool => ?perst, fun s low good boot h1 h2 h3 v1 v2 v3 v4 v5 v6 v7 => ?release, fun s good => ?fall,
    fun s low fell => ?rise⟩
  case flush =>
    obtain ⟨-, log, -⟩ := flushLog_parts s
    exact ⟨_, (exec_logFlush s).trans (congrArg _ (firmware_runs hb hr ..)), log, fun e he waiting room => flushed s e he waiting room,
      flushLog_mem s⟩
  case life =>
    exact ⟨_, (exec_lifetimeRecordWrite s).trans (congrArg _ (firmware_runs hb hr ..)), lifeGet_lifeAdd_self s 0x08 8 1, rfl, rfl⟩
  case absent => exact ⟨congrArg _ (firmware_absent h ..), congrArg _ (firmware_absent h ..)⟩
  case drain =>
    have moves := traceDrain_moves session waits budget next recs room
    generalize t.dest + 32 * (s.trace.wptr % (t.bytes / 32)) = a at moves ⊢
    have trace := storeBytes_trace a r false (bufferLeft c rest s)
    have only := (DeliverOnly.storeBytes a r false (bufferLeft c rest s)).rest
    refine ⟨_, a, (exec_traceDrain s).trans (congrArg _ moves), rfl, ?_, fun d hd => ?_, ?_, fun h window => ?_, fun window plain => ?_, ?_⟩
    · show sget bufD (storeBytes a r false (bufferLeft c rest s)).trace.bufs c = _
      rw [trace]; exact sget_sset_self ..
    · show sget bufD (storeBytes a r false (bufferLeft c rest s)).trace.bufs d = _
      rw [trace]; exact sget_sset_ne _ _ _ hd
    · unfold recordMoved
      rw [trace]; rfl
    · exact storeBytes_host (s := bufferLeft c rest s) r window
    · exact storeBytes_mem (s := bufferLeft c rest s) window plain
    · unfold recordMoved
      rw [only]; rfl
  case aon =>
    obtain ⟨b, d, m, rom⟩ := romSteps_eq (aonReset s)
    refine ⟨_, (exec_vddAonUp s).trans (congrArg _ (aonUp_eq s)), ?_, ?_, ?_, ?_, ?_, ?_, ?_, ?_, ?_, fun h1 h2 h3 h4 h5 h6 => ?_⟩
    iterate 9 · rw [rom]; rfl
    rw [romSteps_wait (aonReset s) h1 h2 ((keyOk_of_fuses (s := s) rfl _).trans h3) h4 h5 ((svnCount_of_fuses (s := s) rfl).trans_le h6)]
    exact ⟨rfl, rfl⟩
  case perst =>
    obtain ⟨pkg, plan, -, -, -, -, cores, -, -, dev, regs, perst, -, flash, fuses, -⟩ := fullReset_fields { s with pins := { s.pins with perst := true } }
    exact ⟨_, (exec_perstAssert s).trans (congrArg _ (perstAssert_resets high good cool)), perst, dev, pkg, plan, cores, by rw [flash], fuses, regs⟩
  case release =>
    obtain ⟨dev, domains⟩ := boot_idle { s with pins := { s.pins with perst := false } } rfl good v1 v2 v3 v4 v5 v6 v7 h1
    obtain ⟨pkg, -, -, -, -, -, -, -, -, -, regs⟩ := (bootSequence_keeps { s with pins := { s.pins with perst := false } }).fields
    exact ⟨_, (exec_perstDeassert s).trans (congrArg _ (perstDeassert_boots low boot h1 h2 h3)), dev, domains, pkg, regs⟩
  case fall =>
    obtain ⟨u, falls, pwrgood, dev, domains, lost, link, run, plan, fuses, flash, mgmt⟩ := pwrgoodFall_fields _ s rfl good
    obtain ⟨-, -, -, -, -, flushed⟩ := flushLog_parts s
    refine ⟨u, (exec_sysPwrgoodFall s).trans (congrArg _ falls), pwrgood, dev, domains, lost, link, run, plan, fuses.trans flushed, ?_⟩
    rw [flash, mgmt]
    rfl
  case rise =>
    obtain ⟨pkg, plan, -, run, -, -, cores, -, -, -, regs, -⟩ := fullReset_fields { s with pins := { s.pins with pwrgood := true, fell := false } }
    obtain ⟨pkg', plan', -, run', -, -, cores', -, -, -, regs'⟩ :=
      (bootSequence_keeps { powerBack s with boot := { (powerBack s).boot with memLost := true } }).fields
    exact ⟨_, (exec_sysPwrgoodRise s).trans (congrArg _ (pwrgoodRise_resets low fell)), pkg'.trans pkg, plan'.trans plan, cores'.trans cores,
      run'.trans run, regs'.trans regs⟩

end Sys2Proof.Machine
end
